-- ==== Sys2Proof/Word.lean ====
section
/-! DEFINITION. The word types of the Lidin: bytes, 16-, 32- and 64-bit words, and register-number fields. -/

namespace Sys2Proof

/-- A byte of memory. -/
abbrev Byte := BitVec 8

/-- A scalar register or 64-bit memory word. -/
abbrev Word := BitVec 64

/-- A 32-bit vector element or immediate. -/
abbrev W32 := BitVec 32

/-- A register-number field of an instruction word (D, A, B or E). -/
abbrev Reg := BitVec 8

end Sys2Proof
end

