-- ==== Sys2Proof/Syntax.lean ====
section
/-! DEFINITION. The operations of the opcode table as one inductive, with the operand types of its constructors. -/

namespace Sys2Proof

/-- The four engines of a core, in the cyclic order of R21. -/
inductive Eng where
  | c | v | m | h
  deriving DecidableEq, Repr, Inhabited

/-- The element types of R46. -/
inductive ETy where
  | fp32 | bf16 | fp16 | i8 | i16 | i32 | i64 | n8 | n16 | n32 | n64 | nbi
  deriving DecidableEq, Repr, Inhabited

/-- The POP, PUSH, PRED and PNEG fields of a word (R117). -/
structure Hd where
  pop : BitVec 3 := 0
  push : BitVec 3 := 0
  pred : BitVec 3 := 7
  pneg : Bool := false
  deriving DecidableEq, Repr, Inhabited

/-- A shift amount: register B (variant 0) or the immediate (variant 1) (R143, R192). -/
inductive Shamt where
  | reg (b : Reg)
  | imm (n : W32)
  deriving DecidableEq, Repr, Inhabited

/-- An amount or index: register B (SUB[2] = 1) or the immediate (R177). -/
inductive Idx where
  | reg (b : Reg)
  | imm (n : W32)
  deriving DecidableEq, Repr, Inhabited

/-- The relations of `cmp` (R143). -/
inductive CmpRel where
  | eq | ne | lt | le | ltu | leu
  deriving DecidableEq, Repr, Inhabited

/-- The relations of `waitw` (R163). -/
inductive WaitRel where
  | eq | ne | lt | le | gt | ge
  deriving DecidableEq, Repr, Inhabited

/-- The relations of `vcmp` (R188). -/
inductive VRel where
  | eq | ne | lt | le | gt | ge | un
  deriving DecidableEq, Repr, Inhabited

/-- The scopes of R99. -/
inductive Scope where
  | core | pair | cluster | module | system
  deriving DecidableEq, Repr, Inhabited

/-- The fence classes of R103. -/
inductive FenceCls where
  | st | ld | hoist | lode
  deriving DecidableEq, Repr, Inhabited

/-- The access classes of `probe` (R157). -/
inductive ProbeCls where
  | r | w | a
  deriving DecidableEq, Repr, Inhabited

/-- The axes of R199: the row axis runs over the 64 columns of a row, the column axis over the 16 rows. -/
inductive Axis where
  | row | col
  deriving DecidableEq, Repr, Inhabited

/-- The operations of a reduction (R200). -/
inductive RedOp where
  | add | max | min | amax
  deriving DecidableEq, Repr, Inhabited

/-- The masks `krl` builds (R204). -/
inductive KrlVar where
  | start | occ | last
  deriving DecidableEq, Repr, Inhabited

/-- The three command queues of a core (R236). -/
inductive QId where
  | load | store | lode
  deriving DecidableEq, Repr, Inhabited

/-- What one page read meets (R255): a hard decode, a soft decode after two extra senses, a page that stays
uncorrectable, or a page whose check fails. -/
inductive PageOutcome where
  | hard | soft | uncorrectable | checkFailed
  deriving DecidableEq, Repr, Inhabited

/-- The answers to a PCIe page request (R368). -/
inductive PriResp where
  | success | invalidRequest | responseFailure
  deriving DecidableEq, Repr, Inhabited

/-- The fields of configuration space that the device's behaviour depends on (R368, R401). -/
inductive CfgReg where
  | priEnable | atomicReqEnable
  deriving DecidableEq, Repr, Inhabited

/-- A PCIe completion: data of a read or the old value of an AtomicOp, Unsupported Request, Completer Abort, or the
answer to a translation request (R108, R367). -/
inductive PcieResult where
  | success (data : List Byte)
  | unsupported
  | abort
  | translated (pa : Nat) (readOk writeOk : Bool)
  | refusedTranslation
  deriving DecidableEq, Repr, Inhabited

/-- A flit (R397), its CREDIT, SEQ, ACK and FCRC left out: LEN bytes of payload (in a read request, the bytes it asks for),
whether FCRC, TYPE and the must-be-0 bytes are good, and the checks of the 64-byte blocks of its payload, none listed where they are
those of the data (R93). `link` says that a write is a link command's, `eng` that it is a hoist command's; where a flit carries that
is not stated (log entry 31). -/
structure Flit where
  src : Nat := 0
  dst : Nat := 0
  tag : Nat := 0
  len : Nat := 0
  addr : Nat := 0
  data : List Byte := []
  good : Bool := true
  checks : List Nat := []
  link : Bool := false
  eng : Bool := false
  deriving DecidableEq, Repr, Inhabited


/-- One operation of the opcode table: a word of an engine (its head of token and predicate fields first, then its
operands), a word of an Assayer program, or an operation or event of the device with what the outside supplies. -/
inductive Instr where
  /-- Common-subset word that has no effect. (R143) -/
  | nop (h : Hd)
  /-- Re-issues the next word of the section count times, stepping its register fields, with pops before and pushes after. (R39) -/
  | rep (h : Hd) (imm : W32)
  /-- Writes the sign-extended 32-bit immediate to a scalar register. (R143) -/
  | movi (h : Hd) (d : Reg) (imm : W32)
  /-- Writes the immediate into bits 63:32 of a scalar register and keeps bits 31:0. (R143) -/
  | moviHi (h : Hd) (d : Reg) (imm : W32)
  /-- Copies one scalar register to another. (R143) -/
  | mov (h : Hd) (d : Reg) (a : Reg)
  /-- Adds two scalar registers modulo 2^64. (R143) -/
  | add (h : Hd) (d : Reg) (a : Reg) (b : Reg)
  /-- Subtracts two scalar registers modulo 2^64. (R143) -/
  | sub (h : Hd) (d : Reg) (a : Reg) (b : Reg)
  /-- Adds a sign-extended immediate to a scalar register modulo 2^64. (R143) -/
  | addi (h : Hd) (d : Reg) (a : Reg) (imm : W32)
  /-- Shifts a scalar left by a register or immediate amount. (R144) -/
  | shl (h : Hd) (d : Reg) (a : Reg) (sh : Shamt)
  /-- Shifts a scalar right logically by a register or immediate amount. (R144) -/
  | shr (h : Hd) (d : Reg) (a : Reg) (sh : Shamt)
  /-- Shifts a scalar right arithmetically by a register or immediate amount. (R144) -/
  | sar (h : Hd) (d : Reg) (a : Reg) (sh : Shamt)
  /-- Bitwise AND of two scalar registers. (R143) -/
  | and (h : Hd) (d : Reg) (a : Reg) (b : Reg)
  /-- Bitwise OR of two scalar registers. (R143) -/
  | or (h : Hd) (d : Reg) (a : Reg) (b : Reg)
  /-- Bitwise XOR of two scalar registers. (R143) -/
  | xor (h : Hd) (d : Reg) (a : Reg) (b : Reg)
  /-- Compares two scalar registers under the selected relation and writes a predicate. (R143) -/
  | cmp (h : Hd) (crel : CmpRel) (d : Reg) (a : Reg) (b : Reg)
  /-- Selects one of two scalar registers by a predicate. (R143) -/
  | sel (h : Hd) (d : Reg) (a : Reg) (b : Reg) (e : Reg)
  /-- Pushes one laden token carrying a register value to one other engine. (R145) -/
  | tsend (h : Hd) (a : Reg)
  /-- Pops one token from one other engine and writes its payload, or 0 if plain. (R145) -/
  | trecv (h : Hd) (d : Reg)
  /-- AND of two predicates. (R143) -/
  | pand (h : Hd) (d : Reg) (a : Reg) (b : Reg)
  /-- OR of two predicates. (R143) -/
  | por (h : Hd) (d : Reg) (a : Reg) (b : Reg)
  /-- XOR of two predicates. (R143) -/
  | pxor (h : Hd) (d : Reg) (a : Reg) (b : Reg)
  /-- Complement of a predicate. (R143) -/
  | pnot (h : Hd) (d : Reg) (a : Reg)
  /-- Copies a predicate. (R143) -/
  | pmov (h : Hd) (d : Reg) (a : Reg)
  /-- Low 64 bits of the product of two X registers. (R146) -/
  | mul (h : Hd) (ty : ETy) (d : Reg) (a : Reg) (b : Reg)
  /-- High 64 bits of the signed or unsigned 128-bit product. (R146) -/
  | mulh (h : Hd) (ty : ETy) (d : Reg) (a : Reg) (b : Reg)
  /-- Truncating division, with fixed results for a zero divisor and overflow. (R147) -/
  | div (h : Hd) (ty : ETy) (d : Reg) (a : Reg) (b : Reg)
  /-- Remainder whose sign follows the dividend, with fixed results for a zero divisor. (R147) -/
  | rem (h : Hd) (ty : ETy) (d : Reg) (a : Reg) (b : Reg)
  /-- Smaller of two X registers in the type. (R146) -/
  | min (h : Hd) (ty : ETy) (d : Reg) (a : Reg) (b : Reg)
  /-- Larger of two X registers in the type. (R146) -/
  | max (h : Hd) (ty : ETy) (d : Reg) (a : Reg) (b : Reg)
  /-- Counts leading zero bits. (R146) -/
  | clz (h : Hd) (d : Reg) (a : Reg)
  /-- Counts one bits. (R146) -/
  | popc (h : Hd) (d : Reg) (a : Reg)
  /-- Extracts a bit field with sign or zero extension. (R148) -/
  | bfx (h : Hd) (ty : ETy) (d : Reg) (a : Reg) (imm : W32)
  /-- Inserts the low bits of a register into a bit field of another. (R148) -/
  | bfi (h : Hd) (ty : ETy) (d : Reg) (a : Reg) (b : Reg) (imm : W32)
  /-- Snapshot or fresh scalar load of 1, 2, 4 or 8 bytes with extension. (R149) -/
  | ld (h : Hd) (ty : ETy) (q : Bool) (d : Reg) (a : Reg) (imm : W32)
  /-- Stores the low bytes of a register, generating checks and writing the front of a shadowed handle. (R150) -/
  | st (h : Hd) (ty : ETy) (a : Reg) (b : Reg) (imm : W32)
  /-- Atomic add returning the old value, performed or declined under R108. (R153) -/
  | atomAdd (h : Hd) (ty : ETy) (d : Reg) (a : Reg) (b : Reg) (e : Reg) (imm : W32)
  /-- Atomic AND returning the old value. (R153) -/
  | atomAnd (h : Hd) (ty : ETy) (d : Reg) (a : Reg) (b : Reg) (e : Reg) (imm : W32)
  /-- Atomic OR returning the old value. (R153) -/
  | atomOr (h : Hd) (ty : ETy) (d : Reg) (a : Reg) (b : Reg) (e : Reg) (imm : W32)
  /-- Atomic XOR returning the old value. (R153) -/
  | atomXor (h : Hd) (ty : ETy) (d : Reg) (a : Reg) (b : Reg) (e : Reg) (imm : W32)
  /-- Atomic minimum returning the old value. (R153) -/
  | atomMin (h : Hd) (ty : ETy) (d : Reg) (a : Reg) (b : Reg) (e : Reg) (imm : W32)
  /-- Atomic maximum returning the old value. (R153) -/
  | atomMax (h : Hd) (ty : ETy) (d : Reg) (a : Reg) (b : Reg) (e : Reg) (imm : W32)
  /-- Atomic exchange returning the old value. (R153) -/
  | atomXchg (h : Hd) (ty : ETy) (d : Reg) (a : Reg) (b : Reg) (e : Reg) (imm : W32)
  /-- Atomic compare-and-swap of 32 or 64 bits. (R153) -/
  | atomCas (h : Hd) (ty : ETy) (d : Reg) (a : Reg) (b : Reg) (e : Reg) (imm : W32)
  /-- Atomic increment that never passes a bound. (R153) -/
  | atomIncb (h : Hd) (ty : ETy) (d : Reg) (a : Reg) (b : Reg) (e : Reg) (imm : W32)
  /-- Atomic bounded add that grants min(bound minus old, n). (R153) -/
  | atomAddb (h : Hd) (ty : ETy) (d : Reg) (a : Reg) (b : Reg) (e : Reg) (imm : W32)
  /-- 128-bit atomic compare-and-swap. (R153) -/
  | atomCas128 (h : Hd) (ty : ETy) (d : Reg) (a : Reg) (b : Reg) (e : Reg) (imm : W32)
  /-- Branches within a steer-section body by a word distance. (R154) -/
  | br (h : Hd) (imm : W32)
  /-- Posts an immediate target to the other engines' path queues and continues there. (R155) -/
  | steer (h : Hd) (imm : W32)
  /-- Posts a register target to the path queues and continues there. (R155) -/
  | steerX (h : Hd) (a : Reg)
  /-- Posts a target as steer does and writes the following header's offset to a register. (R156) -/
  | call (h : Hd) (d : Reg) (imm : W32)
  /-- Posts a register target exactly as steer.x. (R156) -/
  | ret (h : Hd) (a : Reg)
  /-- Asks whether an access class can use a page and writes a code and predicate, possibly faulting or issuing a page request. (R157) -/
  | probe (h : Hd) (pcl : ProbeCls) (d : Reg) (a : Reg) (e : Reg) (imm : W32)
  /-- Places a fence token covering earlier accesses of one class at a scope. (R159) -/
  | fni (h : Hd) (fcl : FenceCls) (d : Reg) (imm : W32)
  /-- Stalls C until the fence token covers nothing. (R160) -/
  | fnw (h : Hd) (a : Reg)
  /-- The last access covered by a waited fence token performs, and the stalled fnw or phase retires. (R103) -/
  | fenceComplete (core : Nat)
  /-- Store and load fence at a scope followed by invalidation of the core's L1, forming a phase boundary. (R104) -/
  | phase (h : Hd) (scp : Scope)
  /-- Arrives at a team barrier after own scratchpad stores perform at cluster scope. (R162) -/
  | barArr (h : Hd) (imm : W32)
  /-- Stalls until the barrier round the core arrived in completes. (R162) -/
  | barWait (h : Hd) (imm : W32)
  /-- Polls a memory word fresh until it meets a relation with a register, then writes it. (R163) -/
  | waitw (h : Hd) (wrel : WaitRel) (ty : ETy) (d : Reg) (a : Reg) (b : Reg) (imm : W32)
  /-- Renewed poll of a waited word after a write to it performs, retiring the waitw when the relation holds. (R163) -/
  | waitwPoll (core : Nat)
  /-- Stalls C until the tick counter reaches a target, adding lateness to OVERRUN. (R164) -/
  | twait (h : Hd) (a : Reg)
  /-- The tick counter reaches a stalled twait's target and the twait retires. (R164) -/
  | twaitExpiry (core : Nat)
  /-- Writes the tick counter to a register. (R164) -/
  | tickRead (h : Hd) (d : Reg)
  /-- Opens a no-pre-emption region for the core. (R165) -/
  | npre (h : Hd)
  /-- Closes the core's no-pre-emption region. (R165) -/
  | epre (h : Hd)
  /-- The tick reaches t0 plus budget plus one with the region open, raising fatal NOPRE. (R165) -/
  | nopreOverrun (core : Nat)
  /-- In a join body, makes the core's engines fetch a text range anew. (R166) -/
  | textsync (h : Hd) (a : Reg) (b : Reg)
  /-- Waits for earlier stores and commands at a scope, then atomically adds to a 64-bit word. (R167) -/
  | signal (h : Hd) (sscp : Scope) (a : Reg) (b : Reg) (imm : W32)
  /-- Once everything a stalled signal waits for has performed, the add is made and the signal retires. (R167) -/
  | signalAdd (core : Nat)
  /-- Raises a recoverable trap carrying its immediate code. (R168) -/
  | trap (h : Hd) (imm : W32)
  /-- Reads a user status register selected by the immediate. (R169) -/
  | srd (h : Hd) (d : Reg) (imm : W32)
  /-- Reads WAITST and WAITOBJ of one engine of a core. (R322) -/
  | wsrd (h : Hd) (d : Reg) (a : Reg) (imm : W32)
  /-- Halts a running team to HALTED. (R327) -/
  | teamHalt (h : Hd) (d : Reg) (a : Reg)
  /-- Raises fatal KILLED for a team's context. (R327) -/
  | teamKill (h : Hd) (d : Reg) (a : Reg)
  /-- Halts a team to HELD, or makes a HALTED team HELD. (R327) -/
  | teamHold (h : Hd) (d : Reg) (a : Reg)
  /-- Releases a HELD team, or resumes a TRAPPED team re-executing its trapping word. (R328) -/
  | teamResumeReexec (h : Hd) (d : Reg) (a : Reg)
  /-- Resumes a TRAPPED team, retiring its trapping word without executing it. (R328) -/
  | teamResumeSkip (h : Hd) (d : Reg) (a : Reg)
  /-- Stops a queue's dispatch and parks its record after started tiles finish. (R329) -/
  | qFlushFinish (h : Hd) (d : Reg) (a : Reg)
  /-- Stops a queue's dispatch, discards started tiles and parks its record. (R329) -/
  | qFlushDiscard (h : Hd) (d : Reg) (a : Reg)
  /-- Completes a parked record with FLUSHED or clears QERR and resumes consumption. (R329) -/
  | qResetContinue (h : Hd) (d : Reg) (a : Reg)
  /-- Dispatches the parked record again from the tile after its resume index. (R329) -/
  | qResetRestart (h : Hd) (d : Reg) (a : Reg)
  /-- Copies one part of a saved team image to the Foreman pair store. (R330) -/
  | ctxSave (h : Hd) (d : Reg) (a : Reg) (b : Reg) (imm : W32)
  /-- Checks and copies one part back into a saved team image. (R330) -/
  | ctxRest (h : Hd) (d : Reg) (a : Reg) (b : Reg) (imm : W32)
  /-- Reads a privileged register by selector and index. (R331) -/
  | prd (h : Hd) (d : Reg) (a : Reg) (imm : W32)
  /-- Writes a privileged register by selector and index. (R331) -/
  | pwr (h : Hd) (d : Reg) (a : Reg) (b : Reg) (imm : W32)
  /-- Creates a Lode region and reserves its blocks. (R377) -/
  | lregCreate (h : Hd) (d : Reg) (a : Reg) (opx : BitVec 4)
  /-- Writes rows or row tiles of an unsealed region. (R379) -/
  | lregWrite (h : Hd) (d : Reg) (a : Reg)
  /-- Seals a region, making it usable. (R379) -/
  | lregSeal (h : Hd) (d : Reg) (a : Reg)
  /-- Rewrites tiles or rows of a sealed region into fresh blocks and publishes the mapping. (R380) -/
  | lregRemap (h : Hd) (d : Reg) (a : Reg)
  /-- Waits for issued commands on a region, then frees its blocks. (R379) -/
  | lregDestroy (h : Hd) (d : Reg) (a : Reg)
  /-- Writes the handle-table entry of an unmapped handle. (R360) -/
  | htabMap (h : Hd) (d : Reg) (a : Reg) (opx : BitVec 4)
  /-- Removes a handle entry and shoots down its whole extent. (R360) -/
  | htabUnmap (h : Hd) (d : Reg) (a : Reg)
  /-- Invalidates TLB entries of a handle range on every module that loaded them. (R365) -/
  | htabShootdown (h : Hd) (d : Reg) (a : Reg)
  /-- Maps a host handle to a host virtual range under a PASID. (R367) -/
  | htabBind (h : Hd) (d : Reg) (a : Reg)
  /-- Enables a format window over its aperture. (R371) -/
  | fwinSet (h : Hd) (d : Reg) (a : Reg) (opx : BitVec 4)
  /-- Encodes and evicts the window's lines, then disables it. (R371) -/
  | fwinClear (h : Hd) (d : Reg) (a : Reg)
  /-- Encodes and evicts every line of the window's aperture. (R371) -/
  | fwinFlush (h : Hd) (d : Reg) (a : Reg)
  /-- Loads 16 rows per register of a group from a device address and pitch. (R178) -/
  | vld (h : Hd) (ty : ETy) (q : Bool) (d : Reg) (a : Reg) (b : Reg) (imm : W32)
  /-- Loads a tile from the scratchpad through spa and spb with bank rotation. (R179) -/
  | vldSp (h : Hd) (ty : ETy) (q : Bool) (d : Reg) (a : Reg) (b : Reg) (imm : W32)
  /-- Stores the rows of a register group to a device address and pitch. (R178) -/
  | vst (h : Hd) (ty : ETy) (a : Reg) (b : Reg) (e : Reg) (imm : W32)
  /-- Stores a tile into the scratchpad through spa and spb. (R179) -/
  | vstSp (h : Hd) (ty : ETy) (a : Reg) (b : Reg) (e : Reg) (imm : W32)
  /-- Packs whole ragged rows into a register and mask and advances the table state. (R182) -/
  | vldr (h : Hd) (ty : ETy) (q : Bool) (d : Reg) (a : Reg) (b : Reg) (e : Reg) (imm : W32)
  /-- Writes packed ragged rows to memory and advances the table state. (R183) -/
  | vstr (h : Hd) (ty : ETy) (a : Reg) (b : Reg) (e : Reg) (imm : W32)
  /-- Gathers 32-bit elements from the scratchpad by index. (R184) -/
  | vldx (h : Hd) (ty : ETy) (d : Reg) (a : Reg) (b : Reg) (mk : Option Reg) (imm : W32)
  /-- Reads VMODE. (R185) -/
  | vmodeRd (h : Hd) (d : Reg)
  /-- Writes VMODE's rounding mode and policy. (R185) -/
  | vmodeWr (h : Hd) (a : Reg)
  /-- Reads VFLAGS after earlier instructions raise their flags. (R185) -/
  | vflagsRd (h : Hd) (d : Reg)
  /-- Replaces VFLAGS. (R185) -/
  | vflagsWr (h : Hd) (a : Reg)
  /-- Lanewise add, rounded for FP or wrapped or clamped for integers. (R186) -/
  | vadd (h : Hd) (ty : ETy) (md : BitVec 6) (d : Reg) (a : Reg) (b : Reg) (mk : Option Reg)
  /-- Lanewise subtract. (R186) -/
  | vsub (h : Hd) (ty : ETy) (md : BitVec 6) (d : Reg) (a : Reg) (b : Reg) (mk : Option Reg)
  /-- Lanewise multiply. (R186) -/
  | vmul (h : Hd) (ty : ETy) (md : BitVec 6) (d : Reg) (a : Reg) (b : Reg) (mk : Option Reg)
  /-- Lanewise minimum. (R187) -/
  | vmin (h : Hd) (ty : ETy) (md : BitVec 6) (d : Reg) (a : Reg) (b : Reg) (mk : Option Reg)
  /-- Lanewise maximum. (R187) -/
  | vmax (h : Hd) (ty : ETy) (md : BitVec 6) (d : Reg) (a : Reg) (b : Reg) (mk : Option Reg)
  /-- Lanewise absolute value. (R187) -/
  | vabs (h : Hd) (ty : ETy) (d : Reg) (a : Reg) (mk : Option Reg)
  /-- Lanewise negation. (R187) -/
  | vneg (h : Hd) (ty : ETy) (d : Reg) (a : Reg) (mk : Option Reg)
  /-- Lanewise comparison writing mask bits. (R188) -/
  | vcmp (h : Hd) (vrel : VRel) (ty : ETy) (d : Reg) (a : Reg) (b : Reg) (mk : Option Reg)
  /-- Fused multiply-add, rounded once. (R186) -/
  | vfma (h : Hd) (ty : ETy) (md : BitVec 6) (d : Reg) (a : Reg) (b : Reg) (e : Reg)
  /-- Fused multiply-subtract. (R186) -/
  | vfms (h : Hd) (ty : ETy) (md : BitVec 6) (d : Reg) (a : Reg) (b : Reg) (e : Reg)
  /-- Fused negated multiply-add. (R186) -/
  | vfnma (h : Hd) (ty : ETy) (md : BitVec 6) (d : Reg) (a : Reg) (b : Reg) (e : Reg)
  /-- Lanewise FP division. (R186) -/
  | vdiv (h : Hd) (ty : ETy) (md : BitVec 6) (d : Reg) (a : Reg) (b : Reg) (mk : Option Reg)
  /-- Writes each lane's FP class mask. (R189) -/
  | vclass (h : Hd) (ty : ETy) (md : BitVec 6) (d : Reg) (a : Reg) (mk : Option Reg)
  /-- Rounds each lane to an integral value. (R190) -/
  | vrint (h : Hd) (ty : ETy) (md : BitVec 6) (d : Reg) (a : Reg) (mk : Option Reg)
  /-- Multiplies each lane by a power of two. (R190) -/
  | vscale (h : Hd) (ty : ETy) (md : BitVec 6) (d : Reg) (a : Reg) (b : Reg) (mk : Option Reg)
  /-- High half of each lane's integer product. (R191) -/
  | vmulh (h : Hd) (ty : ETy) (d : Reg) (a : Reg) (b : Reg) (mk : Option Reg)
  /-- Lanewise left shift. (R192) -/
  | vshl (h : Hd) (ty : ETy) (d : Reg) (a : Reg) (sh : Shamt) (mk : Option Reg)
  /-- Lanewise logical right shift. (R192) -/
  | vshr (h : Hd) (ty : ETy) (d : Reg) (a : Reg) (sh : Shamt) (mk : Option Reg)
  /-- Lanewise arithmetic right shift. (R192) -/
  | vsar (h : Hd) (ty : ETy) (d : Reg) (a : Reg) (sh : Shamt) (mk : Option Reg)
  /-- Lanewise bitwise AND. (R191) -/
  | vand (h : Hd) (ty : ETy) (d : Reg) (a : Reg) (b : Reg) (mk : Option Reg)
  /-- Lanewise bitwise OR. (R191) -/
  | vor (h : Hd) (ty : ETy) (d : Reg) (a : Reg) (b : Reg) (mk : Option Reg)
  /-- Lanewise bitwise XOR. (R191) -/
  | vxor (h : Hd) (ty : ETy) (d : Reg) (a : Reg) (b : Reg) (mk : Option Reg)
  /-- Lanewise bitwise complement. (R191) -/
  | vnot (h : Hd) (ty : ETy) (d : Reg) (a : Reg) (mk : Option Reg)
  /-- Lanewise count of one bits. (R191) -/
  | vpopc (h : Hd) (ty : ETy) (d : Reg) (a : Reg) (mk : Option Reg)
  /-- Lanewise count of leading zeros. (R191) -/
  | vclz (h : Hd) (ty : ETy) (d : Reg) (a : Reg) (mk : Option Reg)
  /-- Four-lane 8-bit dot product accumulated into 32 bits. (R193) -/
  | vdot4 (h : Hd) (ty : ETy) (q : Bool) (d : Reg) (a : Reg) (b : Reg) (e : Reg)
  /-- Converts values between types under the mode and overflow policy. (R195) -/
  | vcvt (h : Hd) (ty : ETy) (md : BitVec 6) (d : Reg) (a : Reg) (mk : Option Reg) (imm : W32)
  /-- Quantises 4,096 values to codes with computed BF16 block scales. (R196) -/
  | vqntBlk (h : Hd) (ty : ETy) (md : BitVec 6) (d : Reg) (a : Reg) (imm : W32)
  /-- Quantises 4,096 values to codes with one given FP32 scale. (R196) -/
  | vqntS (h : Hd) (ty : ETy) (md : BitVec 6) (d : Reg) (a : Reg) (b : Reg) (imm : W32)
  /-- Dequantises codes at k planes with block scales. (R197) -/
  | vdqntBlk (h : Hd) (ty : ETy) (md : BitVec 6) (d : Reg) (a : Reg) (imm : W32)
  /-- Dequantises codes at k planes with one scale. (R197) -/
  | vdqntS (h : Hd) (ty : ETy) (md : BitVec 6) (d : Reg) (a : Reg) (b : Reg) (imm : W32)
  /-- Writes the planewise NBI-k image of 4,096 codes. (R198) -/
  | vplanePk (h : Hd) (ty : ETy) (d : Reg) (a : Reg) (imm : W32)
  /-- Reads a planewise image back into codes. (R198) -/
  | vplaneUn (h : Hd) (ty : ETy) (d : Reg) (a : Reg) (imm : W32)
  /-- Rotates elements along the row or column axis. (R199) -/
  | vrot (h : Hd) (ax : Axis) (ty : ETy) (d : Reg) (a : Reg) (idx : Idx) (mk : Option Reg)
  /-- Broadcasts one column or row along an axis. (R199) -/
  | vbcast (h : Hd) (ax : Axis) (ty : ETy) (d : Reg) (a : Reg) (idx : Idx) (mk : Option Reg)
  /-- Tree-reduces each row or column and writes the result to all its elements. (R200) -/
  | vred (h : Hd) (rop : RedOp) (ax : Axis) (ty : ETy) (md : BitVec 6) (d : Reg) (a : Reg) (mk : Option Reg)
  /-- Inclusive tree scan along an axis. (R201) -/
  | vscan (h : Hd) (rop : RedOp) (ax : Axis) (ty : ETy) (md : BitVec 6) (d : Reg) (a : Reg) (mk : Option Reg)
  /-- Reduces segments marked by a mask. (R202) -/
  | vsred (h : Hd) (rop : RedOp) (ty : ETy) (md : BitVec 6) (d : Reg) (a : Reg) (e : Reg)
  /-- Bitwise AND of masks. (R203) -/
  | kand (h : Hd) (d : Reg) (a : Reg) (b : Reg)
  /-- Bitwise OR of masks. (R203) -/
  | kor (h : Hd) (d : Reg) (a : Reg) (b : Reg)
  /-- Bitwise XOR of masks. (R203) -/
  | kxor (h : Hd) (d : Reg) (a : Reg) (b : Reg)
  /-- Complement of a mask. (R203) -/
  | knot (h : Hd) (d : Reg) (a : Reg)
  /-- Counts set mask bits. (R203) -/
  | kpopc (h : Hd) (d : Reg) (a : Reg)
  /-- Finds the lowest set mask bit. (R203) -/
  | kffs (h : Hd) (d : Reg) (a : Reg)
  /-- Computes a ragged-load start, occupancy or last-element mask from table state. (R204) -/
  | krl (h : Hd) (krv : KrlVar) (ty : ETy) (d : Reg) (b : Reg)
  /-- Copies a mask. (R203) -/
  | kmov (h : Hd) (d : Reg) (a : Reg)
  /-- Sets every mask bit. (R203) -/
  | kmovSet (h : Hd) (d : Reg)
  /-- Clears every mask bit. (R203) -/
  | kmovClr (h : Hd) (d : Reg)
  /-- Sets the first n mask bits. (R203) -/
  | kmovFirst (h : Hd) (d : Reg) (a : Reg)
  /-- Extracts one lane to a scalar register. (R205) -/
  | vext (h : Hd) (ty : ETy) (d : Reg) (a : Reg) (idx : Idx)
  /-- Inserts a scalar into one lane. (R205) -/
  | vins (h : Hd) (ty : ETy) (d : Reg) (a : Reg) (idx : Idx)
  /-- Copies a vector register. (R206) -/
  | vmov (h : Hd) (ty : ETy) (d : Reg) (a : Reg) (mk : Option Reg)
  /-- Broadcasts a scalar into every lane. (R206) -/
  | vmovBc (h : Hd) (ty : ETy) (d : Reg) (a : Reg) (mk : Option Reg)
  /-- Selects elements of two registers by a mask. (R206) -/
  | vsel (h : Hd) (ty : ETy) (d : Reg) (a : Reg) (b : Reg) (e : Reg)
  /-- Correctly rounded e^x per lane. (R209) -/
  | vexp (h : Hd) (ty : ETy) (md : BitVec 6) (d : Reg) (a : Reg) (e : Reg)
  /-- Correctly rounded 2^x per lane. (R209) -/
  | vexp2 (h : Hd) (ty : ETy) (md : BitVec 6) (d : Reg) (a : Reg) (e : Reg)
  /-- Correctly rounded e^x minus 1 per lane. (R209) -/
  | vexpm1 (h : Hd) (ty : ETy) (md : BitVec 6) (d : Reg) (a : Reg) (e : Reg)
  /-- Correctly rounded ln x per lane. (R209) -/
  | vlog (h : Hd) (ty : ETy) (md : BitVec 6) (d : Reg) (a : Reg) (e : Reg)
  /-- Correctly rounded log2 x per lane. (R209) -/
  | vlog2 (h : Hd) (ty : ETy) (md : BitVec 6) (d : Reg) (a : Reg) (e : Reg)
  /-- Correctly rounded ln(1 + x) per lane. (R209) -/
  | vlog1p (h : Hd) (ty : ETy) (md : BitVec 6) (d : Reg) (a : Reg) (e : Reg)
  /-- Correctly rounded 1/x per lane. (R209) -/
  | vrcp (h : Hd) (ty : ETy) (md : BitVec 6) (d : Reg) (a : Reg) (e : Reg)
  /-- Correctly rounded square root per lane. (R209) -/
  | vsqrt (h : Hd) (ty : ETy) (md : BitVec 6) (d : Reg) (a : Reg) (e : Reg)
  /-- Correctly rounded reciprocal square root per lane. (R209) -/
  | vrsqrt (h : Hd) (ty : ETy) (md : BitVec 6) (d : Reg) (a : Reg) (e : Reg)
  /-- Correctly rounded sine per lane. (R209) -/
  | vsin (h : Hd) (ty : ETy) (md : BitVec 6) (d : Reg) (a : Reg) (e : Reg)
  /-- Correctly rounded cosine per lane. (R209) -/
  | vcos (h : Hd) (ty : ETy) (md : BitVec 6) (d : Reg) (a : Reg) (e : Reg)
  /-- Correctly rounded tanh per lane. (R209) -/
  | vtanh (h : Hd) (ty : ETy) (md : BitVec 6) (d : Reg) (a : Reg) (e : Reg)
  /-- Correctly rounded logistic function per lane. (R209) -/
  | vlogistic (h : Hd) (ty : ETy) (md : BitVec 6) (d : Reg) (a : Reg) (e : Reg)
  /-- Reduced-precision e^x per lane. (R211) -/
  | vexpApx (h : Hd) (ty : ETy) (md : BitVec 6) (d : Reg) (a : Reg) (e : Reg)
  /-- Reduced-precision 2^x per lane. (R211) -/
  | vexp2Apx (h : Hd) (ty : ETy) (md : BitVec 6) (d : Reg) (a : Reg) (e : Reg)
  /-- Reduced-precision e^x minus 1 per lane. (R211) -/
  | vexpm1Apx (h : Hd) (ty : ETy) (md : BitVec 6) (d : Reg) (a : Reg) (e : Reg)
  /-- Reduced-precision ln x per lane. (R211) -/
  | vlogApx (h : Hd) (ty : ETy) (md : BitVec 6) (d : Reg) (a : Reg) (e : Reg)
  /-- Reduced-precision log2 x per lane. (R211) -/
  | vlog2Apx (h : Hd) (ty : ETy) (md : BitVec 6) (d : Reg) (a : Reg) (e : Reg)
  /-- Reduced-precision ln(1 + x) per lane. (R211) -/
  | vlog1pApx (h : Hd) (ty : ETy) (md : BitVec 6) (d : Reg) (a : Reg) (e : Reg)
  /-- Reduced-precision 1/x per lane. (R211) -/
  | vrcpApx (h : Hd) (ty : ETy) (md : BitVec 6) (d : Reg) (a : Reg) (e : Reg)
  /-- Reduced-precision square root per lane. (R211) -/
  | vsqrtApx (h : Hd) (ty : ETy) (md : BitVec 6) (d : Reg) (a : Reg) (e : Reg)
  /-- Reduced-precision reciprocal square root per lane. (R211) -/
  | vrsqrtApx (h : Hd) (ty : ETy) (md : BitVec 6) (d : Reg) (a : Reg) (e : Reg)
  /-- Reduced-precision sine per lane. (R211) -/
  | vsinApx (h : Hd) (ty : ETy) (md : BitVec 6) (d : Reg) (a : Reg) (e : Reg)
  /-- Reduced-precision cosine per lane. (R211) -/
  | vcosApx (h : Hd) (ty : ETy) (md : BitVec 6) (d : Reg) (a : Reg) (e : Reg)
  /-- Reduced-precision tanh per lane. (R211) -/
  | vtanhApx (h : Hd) (ty : ETy) (md : BitVec 6) (d : Reg) (a : Reg) (e : Reg)
  /-- Reduced-precision logistic function per lane. (R211) -/
  | vlogisticApx (h : Hd) (ty : ETy) (md : BitVec 6) (d : Reg) (a : Reg) (e : Reg)
  /-- A phase-2 unit finishes an element that the fast path could not decide and writes it. (R75) -/
  | phase2Complete (core : Nat)
  /-- Asks for the cluster's matrix array for the team, or joins a held lease. (R215) -/
  | leaseAcq (h : Hd) (imm : W32)
  /-- A free lease is granted to the highest-priority waiting team, zeroing or restoring its tiles. (R216) -/
  | leaseGrant (cl : Nat)
  /-- When the run count reaches n and a waiter qualifies, the holder's tiles are saved and the lease passes. (R217) -/
  | leaseHandOver (cl : Nat)
  /-- Ends the core's participation, freeing the lease when the last participant leaves. (R218) -/
  | leaseRel (h : Hd)
  /-- Reads the core's lease state. (R219) -/
  | leaseSt (h : Hd) (d : Reg)
  /-- Sets an operand descriptor over scratchpad tiles. (R221) -/
  | odSetSp (h : Hd) (d : Reg) (a : Reg) (b : Reg)
  /-- Sets an operand descriptor over V registers. (R221) -/
  | odSetV (h : Hd) (d : Reg) (a : Reg) (b : Reg)
  /-- Sets an operand descriptor over memory. (R221) -/
  | odSetM (h : Hd) (d : Reg) (a : Reg) (b : Reg)
  /-- Multiplies two operand descriptors into an accumulator tile's working bank in fixed chunk order. (R223) -/
  | mma (h : Hd) (ty : ETy) (q : Bool) (kk : BitVec 4) (d : Reg) (a : Reg) (b : Reg) (imm : W32)
  /-- Zeros a tile's working bank and its flags. (R229) -/
  | accZero (h : Hd) (d : Reg)
  /-- Exchanges a tile's working and visible banks after earlier mma perform. (R230) -/
  | accSwap (h : Hd) (d : Reg)
  /-- Moves part of the visible bank into V registers. (R231) -/
  | accRd (h : Hd) (d : Reg) (a : Reg) (imm : W32)
  /-- Reads the visible bank's flags. (R232) -/
  | accFlag (h : Hd) (d : Reg) (a : Reg)
  /-- Queues a tensor copy walk. (R245) -/
  | hcp (h : Hd) (d : Reg) (a : Reg) (imm : W32)
  /-- Queues a two-step gather through an index list. (R246) -/
  | hgat (h : Hd) (d : Reg) (a : Reg) (b : Reg) (imm : W32)
  /-- Queues a two-step scatter through an index list. (R246) -/
  | hsct (h : Hd) (d : Reg) (a : Reg) (b : Reg) (imm : W32)
  /-- Queues a multicast copy into the pair stores of a pair mask. (R247) -/
  | hmc (h : Hd) (d : Reg) (a : Reg) (imm : W32)
  /-- Queues a multicast that announces and makes one barrier arrival per pair. (R247) -/
  | hmcSig (h : Hd) (d : Reg) (a : Reg) (imm : W32)
  /-- Once a pair's bytes land, or the command stops, one barrier arrival is made for that pair. (R247) -/
  | hmcPairArrival (core : Nat) (pair : Nat)
  /-- Queues a layout-network permutation of a factor space. (R250) -/
  | hlay (h : Hd) (d : Reg) (a : Reg) (b : Reg) (e : Reg) (imm : W32)
  /-- Queues a fill of a destination with a value. (R245) -/
  | hfill (h : Hd) (d : Reg) (a : Reg) (b : Reg) (imm : W32)
  /-- Queues the publish of a shadowed handle at a scope. (R248) -/
  | hpub (h : Hd) (d : Reg) (a : Reg) (imm : W32)
  /-- Waits for records of the ring, then sets a completion ring register. (R242) -/
  | cqInit (h : Hd) (d : Reg) (a : Reg) (b : Reg)
  /-- Adds a count to a ring's ACKED. (R242) -/
  | cqAck (h : Hd) (d : Reg) (a : Reg)
  /-- A queued command finishes its writes and writes its completion record once its ring has room. (R239) -/
  | commandComplete (core : Nat) (q : QId)
  /-- Loads activation vectors and scales into latch entries of stacks. (R252) -/
  | lodeAct (h : Hd) (d : Reg) (a : Reg) (imm : W32)
  /-- Queues a sense wave accumulating K bit-planes of a tile rectangle into a slot. (R254) -/
  | lodeSacc (h : Hd) (kk : BitVec 4) (q : Bool) (d : Reg) (a : Reg) (b : Reg) (e : Reg) (imm : W32)
  /-- The tick reaches a stamped wave's or link command's stamp and it may start. (R256) -/
  | stampedStart (core : Nat) (q : QId)
  /-- One page is sensed, LDPC-decoded, checked, multiplied and accumulated. (R255) -/
  | lodePageRead (core : Nat) (o : PageOutcome)
  /-- Drains accumulator slot rows to FP32 outputs and clears them. (R257) -/
  | lodeDrain (h : Hd) (d : Reg) (a : Reg) (imm : W32)
  /-- Reads bit-planes of a rectangle into the NBI operand layout. (R257) -/
  | lodeDrainRaw (h : Hd) (d : Reg) (a : Reg) (imm : W32)
  /-- Sums bags of scaled rows of a row-layout region. (R258) -/
  | lodeIred (h : Hd) (d : Reg) (a : Reg) (imm : W32)
  /-- Reports a slot's bitmap and the region's state. (R259) -/
  | lodeStat (h : Hd) (d : Reg) (a : Reg) (imm : W32)
  /-- Copies a walk into a linked module's shadow. (R261) -/
  | linkSend (h : Hd) (d : Reg) (a : Reg) (e : Reg) (imm : W32)
  /-- Sends source data that the receiving port adds to an addend and writes. (R261) -/
  | linkRed (h : Hd) (d : Reg) (a : Reg) (e : Reg) (imm : W32)
  /-- Checks a grammar image and opens a Riddle context at START. (R277) -/
  | rdlOpen (h : Hd) (d : Reg) (a : Reg) (b : Reg) (imm : W32)
  /-- Computes a branch's token mask into an Assayer mask buffer. (R279) -/
  | rdlMask (h : Hd) (d : Reg) (a : Reg) (b : Reg) (imm : W32)
  /-- Computes a branch's token mask into memory. (R279) -/
  | rdlMaskM (h : Hd) (d : Reg) (a : Reg) (b : Reg) (imm : W32)
  /-- Advances a branch by one token under the effect table. (R278) -/
  | rdlStep (h : Hd) (d : Reg) (b : Reg) (e : Reg) (imm : W32)
  /-- Copies a branch into an empty branch. (R281) -/
  | rdlFork (h : Hd) (d : Reg) (b : Reg) (imm : W32)
  /-- Moves a branch to branch 0 and empties the others. (R281) -/
  | rdlKeep (h : Hd) (d : Reg) (b : Reg) (imm : W32)
  /-- Empties a branch. (R281) -/
  | rdlDrop (h : Hd) (d : Reg) (b : Reg) (imm : W32)
  /-- Writes a Riddle context to a save area. (R282) -/
  | rdlSave (h : Hd) (d : Reg) (a : Reg) (b : Reg) (imm : W32)
  /-- Restores a Riddle context from a save area and checks it. (R282) -/
  | rdlLoad (h : Hd) (d : Reg) (a : Reg) (b : Reg) (imm : W32)
  /-- Loads an Assayer context record and binds the context. (R267) -/
  | asyBind (h : Hd) (d : Reg) (a : Reg) (b : Reg) (imm : W32)
  /-- Runs an Assayer program on a context and writes its result block. (R268) -/
  | asyRun (h : Hd) (d : Reg) (a : Reg) (b : Reg) (imm : W32)
  /-- Writes an Assayer context record to memory. (R267) -/
  | asyStat (h : Hd) (d : Reg) (a : Reg) (b : Reg) (imm : W32)
  /-- Ends the Assayer run with a halt code. (R271) -/
  | asyHalt (i14 : BitVec 14)
  /-- Loads a logit row into the candidate memory. (R271) -/
  | asyLdlog (a : BitVec 4)
  /-- Multiplies live candidate values by a register. (R271) -/
  | asyScl (a : BitVec 4)
  /-- Subtracts a register from live candidate values. (R271) -/
  | asySub (a : BitVec 4)
  /-- Takes the exponential of live candidate values. (R271) -/
  | asyExp
  /-- Divides live candidate values by a register. (R271) -/
  | asyDiv (a : BitVec 4)
  /-- Divides two registers. (R271) -/
  | asyDivS (d : BitVec 4) (a : BitVec 4) (b : BitVec 4)
  /-- Tree maximum of live values into a register. (R271) -/
  | asyTmax (d : BitVec 4)
  /-- Tree sum of live values into a register. (R271) -/
  | asyTsum (d : BitVec 4)
  /-- Clears candidates below a fraction of the maximum. (R271) -/
  | asyMinp (a : BitVec 4)
  /-- Clears candidates whose mask-buffer bit is 0. (R271) -/
  | asyMask
  /-- Sorts candidates by liveness, value and ID. (R272) -/
  | asySort
  /-- Replaces live values by their inclusive prefix sums. (R272) -/
  | asyScan
  /-- Applies a nucleus cut at a register's mass. (R272) -/
  | asyTopp (a : BitVec 4)
  /-- Makes the next SM3-based uniform draw for a purpose and offset. (R274) -/
  | asyDraw (d : BitVec 4) (a : BitVec 4) (p2 : BitVec 2)
  /-- Chooses the token at a threshold from prefix sums. (R272) -/
  | asyPick (d : BitVec 4) (a : BitVec 4)
  /-- Reads the value of the live entry with a given ID. (R271) -/
  | asyVal (d : BitVec 4) (a : BitVec 4)
  /-- Reads a draft probability from the scratchpad. (R271) -/
  | asyValQ (d : BitVec 4) (a : BitVec 4) (b : BitVec 4)
  /-- Stores the distribution as a draft-probability row. (R271) -/
  | asyStp (a : BitVec 4)
  /-- Tests whether a token is in the stop set. (R271) -/
  | asyStop (d : BitVec 4) (a : BitVec 4)
  /-- Commits a token, advances POS, shifts draw counters and checks the stop set. (R273) -/
  | asyCommit (a : BitVec 4)
  /-- Exact acceptance test u times q below p. (R271) -/
  | asyAccept (d : BitVec 4) (a : BitVec 4) (b : BitVec 4)
  /-- Forms the residual distribution against a draft row. (R271) -/
  | asyResid (a : BitVec 4)
  /-- Copies an Assayer register. (R271) -/
  | asyMov (d : BitVec 4) (a : BitVec 4)
  /-- Loads a sign-extended 14-bit immediate. (R271) -/
  | asyMovi (d : BitVec 4) (i14 : BitVec 14)
  /-- FP32 sum of two registers. (R271) -/
  | asyAddF (d : BitVec 4) (a : BitVec 4) (b : BitVec 4)
  /-- Integer sum of two registers modulo 2^32. (R271) -/
  | asyAddI (d : BitVec 4) (a : BitVec 4) (b : BitVec 4)
  /-- FP32 product of two registers. (R271) -/
  | asyMulF (d : BitVec 4) (a : BitVec 4) (b : BitVec 4)
  /-- Low 32 bits of the integer product. (R271) -/
  | asyMulI (d : BitVec 4) (a : BitVec 4) (b : BitVec 4)
  /-- Branches always by a signed distance. (R271) -/
  | asyBrAl (s12 : BitVec 12)
  /-- Branches if a register is zero. (R271) -/
  | asyBrZ (a : BitVec 4) (s12 : BitVec 12)
  /-- Branches if a register is non-zero. (R271) -/
  | asyBrNz (a : BitVec 4) (s12 : BitVec 12)
  /-- Reads a context or run statistic into a register. (R271) -/
  | asyStatRead (d : BitVec 4) (s8 : BitVec 8)
  /-- An engine examines the header at its PC and skips, starts or waits on the section under waits and slip window. (R23) -/
  | sectionHeaderExamine (core : Nat) (g : Eng)
  /-- A V, M or H engine at a steer header pops its oldest target and continues there. (R28) -/
  | steerTargetPop (core : Nat) (g : Eng)
  /-- All running engines reach a join header, the tagged engine executes it and the others retire after. (R31) -/
  | joinRendezvous (core : Nat) (g : Eng)
  /-- An engine retires its own end section and fetches nothing more. (R32) -/
  | retireForTile (core : Nat) (g : Eng)
  /-- The device detects a token-deadlocked core and raises a fatal context error. (R37) -/
  | tokenDeadlock (core : Nat)
  /-- A read of RESERVE issues a slot ticket or reports FULL or INACTIVE. (R337) -/
  | reserveRead (fn : Nat) (q : Nat)
  /-- A write of COMMIT commits a ticket or puts the queue in QERR. (R337) -/
  | commitWrite (fn : Nat) (q : Nat) (v : Word)
  /-- CTRL command ENABLE checks the queue's setup and makes it ACTIVE. (R339) -/
  | queueEnable (fn : Nat) (q : Nat)
  /-- CTRL command DESTROY completes the queue's records with DESTROYED and disables it. (R354) -/
  | queueDestroy (fn : Nat) (q : Nat) (discard : Bool)
  /-- Write to a register that has no behaviour of its own, under its access types. (R6) -/
  | registerWrite (fn : Nat) (off : Nat) (v : Word)
  /-- The queue takes the committed record at HEAD, reads and checks it. (R338) -/
  | recordTake (q : Nat)
  /-- The record's wait words are evaluated afresh after a write performs, making it runnable or UPSTREAM. (R346) -/
  | waitEvaluation (q : Nat)
  /-- The walkers choose the next candidate by priority and launch a tile or restore a team. (R349) -/
  | walkerChoice
  /-- After its tiles and commands drain, the record publishes outputs and updates its signal word. (R347) -/
  | recordComplete (q : Nat)
  /-- The record's completion entry is written once the ring has room, freeing the slot. (R348) -/
  | completionEntryWrite (q : Nat)
  /-- The tick reaches a record's expiry tick and its EXPIRE action takes effect. (R353) -/
  | deadlineExpiry (q : Nat)
  /-- A halt request reaches every core of a team, waiting for regions where required. (R315) -/
  | haltRequest (tid : Nat)
  /-- Issue has stopped and issued fixed-latency and function instructions have completed. (R316) -/
  | haltComplete (tid : Nat)
  /-- After drains, the team image is written to a free slot and the cores are freed. (R315) -/
  | teamSave (tid : Nat)
  /-- The governor halts the resident teams of a hot cluster and places no new tiles there. (R318) -/
  | thermalMigration (cl : Nat) (hot : Bool)
  /-- A fault record is written to the fault queue once it has room. (R309) -/
  | faultRecordWrite
  /-- A level-cache line is evicted, writing its valid words to DRAM with a new check or encoding a format-window block. (R88) -/
  | cacheEviction (line : Nat)
  /-- A block at its urgent disturb count lets Shoring take a plane of its group for 10 ticks. (R384) -/
  | shoringSteal (stack : Nat) (die : Nat) (plane : Nat)
  /-- Shoring rewrites a block's pages into a free block and publishes it. (R385) -/
  | shoringRefresh (stack : Nat) (die : Nat) (plane : Nat) (blk : Nat) (bad : List Nat) (wrErr : Bool)
  /-- A repair group's self-test maps failed wires to spares or disables what lies behind it. (R386) -/
  | bondSelfTest (cls : Nat) (bus : Nat) (grp : Nat) (wires : Nat)
  /-- A host posted write through BAR2 generates checks and performs at the level cache. (R392) -/
  | hostWrite (fn : Nat) (pa : Nat) (data : List Byte)
  /-- A host read through BAR2 returns the level-cache value or completes with Completer Abort. (R392) -/
  | hostRead (fn : Nat) (pa : Nat) (len : Nat)
  /-- A host AtomicOp aimed at the module completes with Unsupported Request. (R390) -/
  | hostAtomicop (fn : Nat) (pa : Nat)
  /-- A Page Request Group Response arrives and completes the probe that waits on its group. (R368) -/
  | pageRequestResponse (part : Nat) (idx : Nat) (resp : PriResp)
  /-- An ATS Invalidate Request completes after accesses through the entries perform. (R367) -/
  | atsInvalidate (pasid : Nat) (base : Nat) (len : Nat)
  /-- A write of SESSDB hands a session descriptor to the generation loop. (R396) -/
  | sessionDoorbell (fn : Nat) (addr : Word)
  /-- Mailbox command returning serial, ordering code, module numbering and ports. (R394) -/
  | ident (fn : Nat)
  /-- Mailbox command returning retirements, degraded regions and pending reloads. (R394) -/
  | health (fn : Nat)
  /-- Mailbox command that takes the oldest reload request of the partition. (R394) -/
  | reloadq (fn : Nat)
  /-- Mailbox command that sets the partitioning. (R394) -/
  | partset (fn : Nat)
  /-- Mailbox command that returns the partitioning. (R394) -/
  | partget (fn : Nat)
  /-- Mailbox command that sets the power cap. (R407) -/
  | capset (fn : Nat)
  /-- Mailbox command returning cap, mean power and cluster steps. (R407) -/
  | capget (fn : Nat)
  /-- Mailbox command returning a measurement register or its snapshot. (R407) -/
  | measure (fn : Nat)
  /-- Mailbox command returning the public identity key. (R407) -/
  | idkey (fn : Nat)
  /-- Mailbox command that raises QCOUNT and signs the measurements and configuration with a nonce. (R408) -/
  | quote (fn : Nat)
  /-- Mailbox command returning the configuration block and QCOUNT. (R407) -/
  | config (fn : Nat)
  /-- Mailbox command extending MR4 to MR7 by a digest. (R407) -/
  | mrext (fn : Nat)
  /-- Mailbox command that verifies a firmware image and writes it to the other bank. (R409) -/
  | fwupd (fn : Nat)
  /-- Mailbox command returning bank versions, rollback floor and next bank. (R407) -/
  | fwstat (fn : Nat)
  /-- Mailbox command after which the module returns to Stage S and starts the next bank. (R407) -/
  | restart (fn : Nat)
  /-- A received write flit performs at the home's coherence point. (R397) -/
  | flitWrite (port : Nat) (f : Flit)
  /-- A received read request is served from the home. (R397) -/
  | flitReadRequest (port : Nat) (f : Flit)
  /-- Received read data completes a remote load. (R397) -/
  | flitReadData (port : Nat) (f : Flit)
  /-- A received atomic performs at the home. (R400) -/
  | flitAtomic (port : Nat) (f : Flit)
  /-- A received atomic result completes a remote atomic. (R397) -/
  | flitAtomicResult (port : Nat) (f : Flit)
  /-- Received reduce data is added and written by the receiving port. (R261) -/
  | flitReduceData (port : Nat) (f : Flit)
  /-- A received completion flit ends a remote transaction. (R397) -/
  | flitCompletion (port : Nat) (f : Flit)
  /-- A received tick flit corrects the counter toward the master's value. (R399) -/
  | flitTick (port : Nat) (f : Flit)
  /-- A received shootdown control flit invalidates TLB entries. (R365) -/
  | flitControl (port : Nat) (f : Flit)
  /-- After 64 resends or 1 ms without progress a port goes down and waiting commands complete LINKDOWN. (R398) -/
  | portDown (port : Nat)
  /-- Every 64 ticks the tick master sends a tick flit on each port. (R399) -/
  | tickFlitSend
  /-- A Falef link trains and is admitted or kept down for skew. (R399) -/
  | linkTrain (port : Nat) (peer : Nat) (skewOk : Bool)
  /-- The 64-bit tick counter advances by one every 500 ns. (R17) -/
  | tickAdvance
  /-- The governor changes cluster clock steps or delays Lode senses to meet cap and temperature. (R411) -/
  | governorStep (cl : Nat) (step : Nat)
  /-- Power-good enters Stage S with zeroed measurement registers. (R403) -/
  | powerGood
  /-- Power loss ends operation, leaving interrupted refreshes and firmware writes safe. (R405) -/
  | powerLoss
  /-- The security controller verifies a firmware bank and starts the Foreman pair. (R405) -/
  | stageFEntry
  /-- The Foreman pair trains memory, mounts the Lode, tests bonds and numbers modules. (R403) -/
  | stageMEntry (ok : Bool) (modNum : Nat) (modCount : Nat)
  /-- Stage M completes and queues, sessions and all mailbox commands open. (R403) -/
  | stageAEntry
  /-- The loop binds and opens every sequence of a session. (R289) -/
  | sessionOpen (part : Nat)
  /-- At a round boundary the loop reads CONTROL and closes, rebinds or proceeds. (R289) -/
  | sessionRound (part : Nat)
  /-- The loop drafts D tokens at KD planes, forking Riddle branches. (R289) -/
  | sessionDraft (part : Nat) (chain : Nat)
  /-- The loop runs the chain once at KV planes over D + 1 positions. (R289) -/
  | sessionVerify (part : Nat) (chain : Nat)
  /-- The loop accepts or resamples drafts and runs the target draw. (R289) -/
  | sessionDecide (part : Nat)
  /-- The loop keeps the accepted branch, steps it and updates the sequence table. (R289) -/
  | sessionCommit (part : Nat)
  /-- An output-ring entry for a committed token is written once the ring has room. (R288) -/
  | outputEntryWrite (part : Nat)
  /-- The loop saves every sequence's Assayer and Riddle state and marks the session done. (R289) -/
  | sessionClose (part : Nat)
  /-- The host writes PCIe configuration space, for example re-enabling PRI or setting AtomicOp Requester Enable. (R368) -/
  | configSpaceWrite (fn : Nat) (r : CfgReg) (v : Bool)
  /-- A PCIe completion arrives for a read, AtomicOp or translation request that the device issued to the host. (R108) -/
  | pcieCompletion (id : Nat) (c : PcieResult)
  /-- A device request to the host times out without completion, raising a fatal context error. (R108) -/
  | completionTimeout (id : Nat)
  /-- A linked module fails to answer a shootdown within 10 ms, so the shootdown gives LINKDOWN and its TLBs are treated as stale. (R361) -/
  | shootdownTimeout (mods : Nat)
  deriving DecidableEq, Repr

/-- Who moves next: an engine of a core, the run of an Assayer, the `k`-th store a core has issued and not performed
(R97), an operation or event of the device, the next element of the copy at the head of a queue (R86), an answer that waited for accesses
to perform (R365, R367), a DRAM error of a block, corrected or not (R89, R310), Shoring's read of a block at the mount (R382), or
an engine whose load or store makes one of its parts ahead of the others (R79, R180). -/
inductive Turn where
  | engine (core : Nat) (g : Eng)
  | assayer (unit : Nat)
  | perform (core k : Nat)
  | event (i : Instr)
  | move (core : Nat) (q : QId)
  | answer
  | dram (pa : Nat) (lost : Bool)
  | scan (block : Nat)
  | part (core : Nat) (g : Eng) (i : Nat)
  deriving DecidableEq, Repr, Inhabited

end Sys2Proof
end

