-- ==== Sys2Proof/Decode.lean ====
section
/-! DEFINITION. The 96-bit instruction word (R117), the opcode maps as rows (R118, R120, R122–R127, R143, R173, R177,
R207, R221–R234, R264, R325), decoding with rejection by name, the encoder, and the 32-bit Assayer words (R270, R271). -/

namespace Sys2Proof

/-- The fields of an instruction word (R117). -/
structure RawWord where
  op : BitVec 8 := 0
  pop : BitVec 3 := 0
  push : BitVec 3 := 0
  pred : BitVec 3 := 7
  pneg : Bool := false
  md : BitVec 6 := 0
  d : Reg := 0
  a : Reg := 0
  b : Reg := 0
  e : Reg := 0
  sub : BitVec 8 := 0
  imm : W32 := 0
  deriving DecidableEq, Repr, Inhabited

/-- The 96 bits of a word, highest field first (R117). -/
def packWord (r : RawWord) : BitVec 96 :=
  r.op ++ r.pop ++ r.push ++ r.pred ++ BitVec.ofBool r.pneg ++ r.md ++ r.d ++ r.a ++ r.b ++ r.e ++ r.sub ++ r.imm

/-- The fields of a 96-bit word (R117). -/
def unpackWord (w : BitVec 96) : RawWord :=
  { op := w.extractLsb' 88 8, pop := w.extractLsb' 85 3, push := w.extractLsb' 82 3, pred := w.extractLsb' 79 3,
    pneg := w.getLsbD 78, md := w.extractLsb' 72 6, d := w.extractLsb' 64 8, a := w.extractLsb' 56 8,
    b := w.extractLsb' 48 8, e := w.extractLsb' 40 8, sub := w.extractLsb' 32 8, imm := w.extractLsb' 0 32 }

/-- Why a word is an illegal encoding (R129). -/
inductive DecodeError where
  | unassignedOpcode
  | modOutsideClass
  | elementType
  | variant
  | registerRange
  | registerGroup
  | unusedField
  | predicateForbidden
  | immediateField
  deriving DecidableEq, Repr, Inhabited

/-- The code of an element type (R46). -/
def etyCode : ETy → Nat
  | .fp32 => 0 | .bf16 => 1 | .fp16 => 2 | .i8 => 3 | .i16 => 4 | .i32 => 5 | .i64 => 6
  | .n8 => 7 | .n16 => 8 | .n32 => 9 | .n64 => 10 | .nbi => 11

/-- The element type of a code; codes 0xC–0xF are reserved (R46). -/
def etyOf? (n : Nat) : Option ETy :=
  match n with
  | 0 => some .fp32 | 1 => some .bf16 | 2 => some .fp16 | 3 => some .i8 | 4 => some .i16 | 5 => some .i32
  | 6 => some .i64 | 7 => some .n8 | 8 => some .n16 | 9 => some .n32 | 10 => some .n64 | 11 => some .nbi
  | _ => none

/-- Lanes per 32-bit vector element; NBI denotes 8-bit codes (R46, R194). -/
def etyLanes : ETy → Nat
  | .fp32 | .i32 | .n32 => 1
  | .bf16 | .fp16 | .i16 | .n16 => 2
  | .i8 | .n8 | .nbi => 4
  | .i64 | .n64 => 1

/-- Width of a type in bits; NBI denotes 8-bit codes (R46, R194). -/
def etyBits : ETy → Nat
  | .fp32 | .i32 | .n32 => 32
  | .bf16 | .fp16 | .i16 | .n16 => 16
  | .i8 | .n8 | .nbi => 8
  | .i64 | .n64 => 64

def etyFp : List ETy := [.fp32, .bf16, .fp16]
def etyI : List ETy := [.i8, .i16, .i32]
def etyN : List ETy := [.n8, .n16, .n32]
def etyVec : List ETy := [.fp32, .bf16, .fp16, .i8, .i16, .i32, .n8, .n16, .n32]
def etyInt : List ETy := [.i8, .i16, .i32, .n8, .n16, .n32]

/-- The MOD classes of R120; for F and X whether the instruction has a qualifier of its own (R125). -/
inductive ModClass where
  | z | q | f (qual : Bool) | d | n | x (qual : Bool)
  deriving DecidableEq, Repr, Inhabited

/-- MOD[5:3], the rounding mode; MOD[2:1], the policy; MOD[0], the qualifier (R55). -/
def mdMode (md : BitVec 6) : Nat := (md.extractLsb' 3 3).toNat
def mdPol (md : BitVec 6) : Nat := (md.extractLsb' 1 2).toNat
def mdQual (md : BitVec 6) : Bool := md.getLsbD 0

/-- The MOD values of each class (R120). -/
def modOk (c : ModClass) (md : BitVec 6) : Bool :=
  match c with
  | .z => md == 0
  | .q => mdMode md == 0 && mdPol md == 0
  | .f ql => (decide (mdMode md ≤ 4) || mdMode md == 7) && mdPol md == 0 && (ql || !mdQual md)
  | .d => (decide (mdMode md ≤ 4) || (mdMode md == 7 && mdPol md == 0)) && !mdQual md
  | .n => (mdMode md == 1 || (mdMode md == 7 && mdPol md == 0)) && !mdQual md
  | .x ql => (decide (mdMode md ≤ 4) || mdMode md == 7) && mdPol md == 0 && (ql || !mdQual md)

/-- What a register field names: a class of R118, with the size of its group (R42). -/
inductive RegClass where
  | none | scal (g : Nat) | pred | predOr7 | fence | vec (g : Nat) | mask (g : Nat) | acc | od | cq
  deriving DecidableEq, Repr, Inhabited

/-- How many registers a class has in the map of an engine (R118). -/
def classSize (g : Eng) : RegClass → Nat
  | .none => 1
  | .scal _ => match g with | .c => 64 | _ => 32
  | .pred => 7 | .predOr7 => 8 | .fence => 8 | .vec _ => 256 | .mask _ => 16 | .acc => 16 | .od => 8 | .cq => 4

/-- The group size of a class (R42). -/
def classGroup : RegClass → Nat
  | .scal g | .vec g | .mask g => g
  | _ => 1

/-- One row of an opcode map: the MOD class, the types accepted (none taken when empty), the register classes, whether
the word must be live (R119), and whether the immediate fields hold legal values. -/
structure Row where
  mod : ModClass := .z
  types : List ETy := []
  d : RegClass := .none
  a : RegClass := .none
  b : RegClass := .none
  e : RegClass := .none
  live : Bool := false
  immOk : Bool := true
  deriving DecidableEq, Repr, Inhabited

/-- Bits [lo + n - 1 : lo] of the immediate. -/
def immF (i : W32) (lo n : Nat) : Nat := i.toNat / 2 ^ lo % 2 ^ n

/-- The group size that IMM[31:29] names (R177). -/
def groupCode (i : W32) : Option Nat :=
  if immF i 29 3 ≤ 4 then some (2 ^ immF i 29 3) else none

def subVar (r : RawWord) : Nat := r.sub.toNat % 16
def subTy (r : RawWord) : Option ETy := etyOf? (r.sub.toNat / 16)
def subM (r : RawWord) : Bool := r.sub.getLsbD 3
def subVar3 (r : RawWord) : Nat := r.sub.toNat % 8

/-- The types of SUB[7:4] that are FP (class F) as against integer (class Z or Q) (R125). -/
def subFp (r : RawWord) : Bool := match subTy r with | some t => decide (t ∈ etyFp) | .none => false

def subLanes (r : RawWord) : Nat := match subTy r with | some t => etyLanes t | .none => 1
def subBits (r : RawWord) : Nat := match subTy r with | some t => etyBits t | .none => 32

/-- Field E of an instruction that takes an optional write mask (R175). -/
def maskIfM (r : RawWord) : RegClass := if subM r then .mask 1 else .none

/-- The row, if the variant is one the description defines. -/
def rowIf (ok : Bool) (row : Row) : Except DecodeError Row := if ok then .ok row else .error .variant

/-- The common subset, opcodes 0x00–0x11 (R123, R38, R143, R145). -/
def rowCommon (r : RawWord) : Except DecodeError Row :=
  let v := subVar r
  let i0 := r.imm == 0
  match r.op.toNat with
  | 0x00 => rowIf (v == 0) { immOk := i0 }
  | 0x01 => rowIf (v == 0) { live := true, immOk := immF r.imm 6 10 == 0 }
  | 0x02 => rowIf (decide (v ≤ 1)) { d := .scal 1 }
  | 0x03 => rowIf (v == 0) { d := .scal 1, a := .scal 1, immOk := i0 }
  | 0x04 | 0x05 | 0x0A | 0x0B | 0x0C => rowIf (v == 0) { d := .scal 1, a := .scal 1, b := .scal 1, immOk := i0 }
  | 0x06 => rowIf (v == 0) { d := .scal 1, a := .scal 1 }
  | 0x07 | 0x08 | 0x09 =>
    if v = 0 then .ok { d := .scal 1, a := .scal 1, b := .scal 1, immOk := i0 }
    else rowIf (v == 1) { d := .scal 1, a := .scal 1, immOk := decide (r.imm.toNat < 64) }
  | 0x0D => rowIf (decide (v ≤ 5)) { d := .pred, a := .scal 1, b := .scal 1, immOk := i0 }
  | 0x0E => rowIf (v == 0) { d := .scal 1, a := .scal 1, b := .scal 1, e := .pred, immOk := i0 }
  | 0x0F => rowIf (v == 0)
      { a := .scal 1, immOk := i0 && (r.push == 1 || r.push == 2 || r.push == 4) }
  | 0x10 => rowIf (v == 0)
      { d := .scal 1, immOk := i0 && (r.pop == 1 || r.pop == 2 || r.pop == 4) }
  | 0x11 =>
    if v ≤ 2 then .ok { d := .pred, a := .pred, b := .pred, immOk := i0 }
    else rowIf (decide (v ≤ 4)) { d := .pred, a := .pred, immOk := i0 }
  | _ => .error .unassignedOpcode

/-- The C engine's map (R124, R146–R169, R173, R325). -/
def rowC (r : RawWord) : Except DecodeError Row :=
  let v := subVar r
  let i0 := r.imm == 0
  let im := r.imm.toNat
  let xx : Row := { d := .scal 1, a := .scal 1, b := .scal 1, types := [.i64, .n64], immOk := i0 }
  match r.op.toNat with
  | 0x20 | 0x21 | 0x22 | 0x23 | 0x24 | 0x25 => rowIf (v == 0) xx
  | 0x26 | 0x27 => rowIf (v == 0) { d := .scal 1, a := .scal 1, immOk := i0 }
  | 0x28 => rowIf (v == 0) { d := .scal 1, a := .scal 1, types := [.i64, .n64], immOk := immF r.imm 14 18 == 0 && immF r.imm 6 2 == 0 && decide (immF r.imm 0 6 + immF r.imm 8 6 + 1 ≤ 64) }
  | 0x29 => rowIf (v == 0) { d := .scal 1, a := .scal 1, b := .scal 1, types := [.i64, .n64], immOk := immF r.imm 14 18 == 0 && immF r.imm 6 2 == 0 && decide (immF r.imm 0 6 + immF r.imm 8 6 + 1 ≤ 64) }
  | 0x30 => rowIf (v == 0) { mod := .q, d := .scal 1, a := .scal 1, types := [.i8, .i16, .i32, .n8, .n16, .n32, .n64] }
  | 0x31 => rowIf (v == 0) { a := .scal 1, b := .scal 1, types := [.n8, .n16, .n32, .n64] }
  | 0x38 =>
    if v = 10 then .ok { d := .scal 2, a := .scal 1, b := .scal 4, e := .predOr7, types := [.n64] }
    else rowIf (decide (v ≤ 9)) { d := .scal 1, a := .scal 1, b := .scal (if v = 7 ∨ v = 9 then 2 else 1), e := .predOr7, types := [.i32, .i64, .n32, .n64] }
  | 0x40 => rowIf (v == 0) {}
  | 0x41 => if v = 0 then .ok { live := true } else rowIf (v == 1) { a := .scal 1, live := true, immOk := i0 }
  | 0x42 => rowIf (v == 0) { d := .scal 1, live := true }
  | 0x43 => rowIf (v == 0) { a := .scal 1, live := true, immOk := i0 }
  | 0x48 => rowIf (decide (v ≤ 2)) { d := .scal 1, a := .scal 1, e := .pred }
  | 0x50 => rowIf (decide (v ≤ 3)) { d := .fence, immOk := if v = 1 then i0 else decide (im ≤ 4) }
  | 0x51 => rowIf (v == 0) { a := .fence, immOk := i0 }
  | 0x52 => rowIf (v == 0) { immOk := decide (im ≤ 4) }
  | 0x58 | 0x59 => rowIf (v == 0) { immOk := decide (im < 16) }
  | 0x60 => rowIf (decide (v ≤ 5)) { d := .scal 1, a := .scal 1, b := .scal 1, types := [.i32, .i64, .n32, .n64] }
  | 0x61 => rowIf (v == 0) { a := .scal 1, immOk := i0 }
  | 0x62 => rowIf (v == 0) { d := .scal 1, immOk := i0 }
  | 0x68 | 0x69 => rowIf (v == 0) { immOk := i0 }
  | 0x6A => rowIf (v == 0) { a := .scal 1, b := .scal 1, live := true, immOk := i0 }
  | 0x6B => rowIf (decide (v ≤ 4)) { a := .scal 1, b := .scal 1 }
  | 0x6C => rowIf (v == 0) {}
  | 0x6D => rowIf (v == 0) { d := .scal 1, immOk := decide (im ≤ 5) }
  | 0xE0 => rowIf (v == 0) { d := .scal 2, a := .scal 1, live := true, immOk := decide (im < 4) }
  | 0xE1 => rowIf (v == 0) { d := .scal 1, a := .scal 1, live := true, immOk := decide (im < 3) }
  | 0xE2 | 0xE3 | 0xE4 => rowIf (v == 0) { d := .scal 1, a := .scal 1, live := true, immOk := decide (im < 2) }
  | 0xE5 | 0xE6 => rowIf (v == 0) { d := .scal 1, a := .scal 1, b := .scal 1, live := true, immOk := decide (im < 32) }
  | 0xE7 => rowIf (v == 0) { d := .scal 1, a := .scal 1, live := true, immOk := decide (im ∈ [0x010, 0x011, 0x020, 0x021, 0x030]) }
  | 0xE8 => rowIf (v == 0) { d := .scal 1, a := .scal 1, b := .scal 1, live := true, immOk := decide (im ∈ [0x010, 0x011, 0x020, 0x021, 0x030]) }
  | 0xE9 | 0xEA | 0xEB => rowIf (v == 0) { d := .scal 1, a := .scal 1, live := true, immOk := decide (im < 16) }
  | _ => .error .unassignedOpcode

/-- The source or target types that vqnt and vdqnt hold in IMM[3:0], with the group size (R196, R197). -/
def quantGroup (n : Nat) : Option Nat :=
  match n with
  | 0 => some 4 | 1 => some 2 | 2 => some 2
  | _ => none

/-- The V engine's map (R125, R175, R177, R207). -/
def rowV (r : RawWord) : Except DecodeError Row :=
  let v := subVar r
  let v3 := subVar3 r
  let i0 := r.imm == 0
  let im := r.imm.toNat
  let mk := maskIfM r
  let fz : ModClass := if subFp r then .f false else .z
  let fq : ModClass := if subFp r then .f false else .q
  let two : Row := { d := .vec 1, a := .vec 1, b := .vec 1, e := mk, immOk := i0 }
  let one : Row := { d := .vec 1, a := .vec 1, e := mk, immOk := i0 }
  match r.op.toNat with
  | 0x20 =>
    match groupCode r.imm with
    | none => .error .immediateField
    | some g => rowIf (decide (v ≤ 1)) { mod := .q, types := etyVec, d := .vec g, a := .scal 1, b := .scal 1, immOk := v == 0 || immF r.imm 24 5 == 0 }
  | 0x21 =>
    match groupCode r.imm with
    | none => .error .immediateField
    | some g => rowIf (decide (v ≤ 1)) { types := etyVec, a := .scal 1, b := .scal 1, e := .vec g, immOk := v == 0 || immF r.imm 24 5 == 0 }
  | 0x22 => rowIf (v == 0) { mod := .q, types := etyVec, d := .vec 1, a := .scal 1, b := .scal 2, e := .mask 1 }
  | 0x23 => rowIf (v == 0) { types := etyVec, a := .scal 1, b := .scal 2, e := .vec 1 }
  | 0x24 => rowIf (v3 == 0) { types := etyVec, d := .vec 1, a := .scal 1, b := .vec 1, e := mk }
  | 0x28 | 0x29 =>
    if v = 0 then .ok { d := .scal 1, immOk := i0 } else rowIf (v == 1) { a := .scal 1, immOk := i0 }
  | 0x30 | 0x31 | 0x32 => rowIf (v3 == 0) { two with mod := fq, types := etyVec }
  | 0x33 | 0x34 => rowIf (v3 == 0) { two with mod := fz, types := etyVec }
  | 0x35 | 0x36 => rowIf (v3 == 0) { one with types := etyFp ++ etyI }
  | 0x37 => rowIf (decide (v3 ≤ 6)) { d := .mask (subLanes r), a := .vec 1, b := .vec 1, e := mk, immOk := i0, types := if v3 = 6 then etyFp else etyVec }
  | 0x38 | 0x39 | 0x3A => rowIf (v == 0) { mod := .f false, types := etyFp, d := .vec 1, a := .vec 1, b := .vec 1, e := .vec 1, immOk := i0 }
  | 0x3B | 0x3E => rowIf (v3 == 0) { two with mod := .f false, types := etyFp }
  | 0x3C | 0x3D => rowIf (v3 == 0) { one with mod := .f false, types := etyFp }
  | 0x40 | 0x44 | 0x45 | 0x46 => rowIf (v3 == 0) { two with types := etyInt }
  | 0x41 | 0x42 | 0x43 =>
    if v3 = 0 then .ok { two with types := etyInt }
    else rowIf (v3 == 1) { one with types := etyInt, immOk := decide (im < 32) && decide (im < subBits r) }
  | 0x47 | 0x48 | 0x49 => rowIf (v3 == 0) { one with types := etyInt }
  | 0x4A => rowIf (v == 0) { mod := .q, types := [.i8, .n8], d := .vec 1, a := .vec 1, b := .vec 1, e := .vec 1, immOk := i0 }
  | 0x50 =>
    match etyOf? (im % 16) with
    | none => .error .elementType
    | some ts =>
      let ls := etyLanes ts
      let lt := subLanes r
      rowIf (v3 == 0) { mod := .d, types := etyVec ++ [.nbi], d := .vec (if lt < ls then ls / lt else 1), a := .vec (if ls < lt then lt / ls else 1), e := mk, immOk := decide (im < 16) && decide (ts ∈ etyVec ++ [.nbi]) && decide (subTy r ≠ some ts) }
  | 0x51 =>
    match quantGroup (im % 16) with
    | none => .error .elementType
    | some g => rowIf (decide (v ≤ 1)) { mod := .n, types := [.nbi], d := .vec (if v = 0 then 2 else 1), a := .vec g, b := if v = 0 then .none else .scal 1, immOk := decide (im < 16) }
  | 0x52 =>
    match quantGroup (im % 16) with
    | none => .error .elementType
    | some g => rowIf (decide (v ≤ 1)) { mod := .f true, types := [.nbi], d := .vec g, a := .vec (if v = 0 then 2 else 1), b := if v = 0 then .none else .scal 1, immOk := decide (im < 128) }
  | 0x53 => rowIf (decide (v ≤ 1)) { types := [.nbi], d := .vec 1, a := .vec 1, immOk := decide (1 ≤ im) && decide (im ≤ 8) }
  | 0x60 | 0x61 =>
    if v3 = 4 ∨ v3 = 5 then .ok { two with types := etyVec, b := .scal 1 }
    else rowIf (decide (v3 ≤ 1)) { one with types := etyVec, immOk := decide (im < if v3 = 0 then 64 else 16) }
  | 0x62 => .ok { one with mod := fz, types := etyVec }
  | 0x63 => rowIf (decide (v3 < 6)) { one with mod := fz, types := etyVec }
  | 0x64 => rowIf (v == 0 || v == 2 || v == 4 || v == 6) { mod := fz, d := .vec 1, a := .vec 1, e := .mask 1, immOk := i0, types := if v = 6 then [.fp32, .bf16, .fp16, .i16, .i32, .n16, .n32] else etyVec }
  | 0x70 | 0x71 | 0x72 => rowIf (v == 0) { d := .mask 1, a := .mask 1, b := .mask 1, immOk := i0 }
  | 0x73 => rowIf (v == 0) { d := .mask 1, a := .mask 1, immOk := i0 }
  | 0x74 | 0x75 => rowIf (v == 0) { d := .scal 1, a := .mask 1, immOk := i0 }
  | 0x76 => rowIf (decide (v ≤ 2)) { d := .mask 1, b := .scal 2, types := etyVec, immOk := i0 }
  | 0x77 =>
    if v = 0 then .ok { d := .mask 1, a := .mask 1, immOk := i0 }
    else if v = 3 then .ok { d := .mask 1, a := .scal 1, immOk := i0 }
    else rowIf (decide (v ≤ 2)) { d := .mask 1, immOk := i0 }
  | 0x78 => rowIf (v == 0 || v == 4) { types := etyVec, d := .scal 1, a := .vec 1, b := if v = 4 then .scal 1 else .none, immOk := if v = 4 then i0 else decide (im < 1024 * subLanes r) }
  | 0x79 => rowIf (v == 0 || v == 4) { types := etyVec, d := .vec 1, a := .scal 1, b := if v = 4 then .scal 1 else .none, immOk := if v = 4 then i0 else decide (im < 1024 * subLanes r) }
  | 0x7A => rowIf (decide (v3 ≤ 1)) { types := etyVec, d := .vec 1, a := if v3 = 0 then .vec 1 else .scal 1, e := mk, immOk := i0 }
  | 0x7B => rowIf (v == 0) { types := etyVec, d := .vec 1, a := .vec 1, b := .vec 1, e := .mask 1, immOk := i0 }
  | 0x80 | 0x81 | 0x82 | 0x83 | 0x84 | 0x85 | 0x86 | 0x87 | 0x88 | 0x89 | 0x8A | 0x8B | 0x8C =>
    rowIf (decide (v ≤ 1)) { mod := if v = 0 then .f true else .x true, types := etyFp, d := .vec 1, a := .vec 1, e := if mdQual r.md then .mask 1 else .none, immOk := i0 }
  | _ => .error .unassignedOpcode

/-- The M engine's map (R126, R215–R232). -/
def rowM (r : RawWord) : Except DecodeError Row :=
  let v := subVar r
  let i0 := r.imm == 0
  let im := r.imm.toNat
  match r.op.toNat with
  | 0x20 => rowIf (v == 0) { immOk := decide (im < 65536) }
  | 0x21 => rowIf (v == 0) { immOk := i0 }
  | 0x22 => rowIf (v == 0) { d := .scal 1, immOk := i0 }
  | 0x28 => rowIf (decide (v ≤ 2)) { d := .od, a := .scal 1, b := .scal 1, immOk := i0 }
  | 0x30 =>
    if subTy r = some .nbi then
      rowIf (decide (1 ≤ v) && decide (v ≤ 8)) { mod := .q, types := [.nbi], d := .acc, a := .od, b := .od, immOk := decide (im < 256) }
    else rowIf (v == 0) { types := [.bf16, .fp16], d := .acc, a := .od, b := .od, immOk := decide (im < 256) }
  | 0x38 | 0x39 => rowIf (v == 0) { d := .acc, immOk := i0 }
  | 0x3A =>
    match groupCode r.imm with
    | none => .error .immediateField
    | some g => rowIf (v == 0) { d := .vec g, a := .acc, immOk := immF r.imm 10 19 == 0 && immF r.imm 0 4 == 0 && decide (immF r.imm 0 8 + 16 * g ≤ 256) }
  | 0x3B => rowIf (v == 0) { d := .scal 1, a := .acc, immOk := i0 }
  | _ => .error .unassignedOpcode

/-- The H engine's map (R127, R234, R264). -/
def rowH (r : RawWord) : Except DecodeError Row :=
  let v := subVar r
  let i0 := r.imm == 0
  let tag := decide (r.imm.toNat < 65536)
  let ts := r.imm.getLsbD 31
  let se : RegClass := if ts then .scal 1 else .none
  let da : Row := { d := .cq, a := .scal 1, immOk := tag }
  let dab : Row := { d := .cq, a := .scal 1, b := .scal 1, immOk := tag }
  match r.op.toNat with
  | 0x20 => rowIf (v == 0) da
  | 0x21 | 0x22 | 0x25 => rowIf (v == 0) dab
  | 0x23 => rowIf (decide (v ≤ 1)) { da with immOk := immF r.imm 24 8 != 0 && immF r.imm 20 4 == 0 && (v == 1 || immF r.imm 16 4 == 0) }
  | 0x24 => rowIf (v == 0) { dab with e := .scal 1 }
  | 0x26 => rowIf (v == 0) { da with immOk := immF r.imm 19 13 == 0 && decide (1 ≤ immF r.imm 16 3) && decide (immF r.imm 16 3 ≤ 4) }
  | 0x28 => rowIf (v == 0) { dab with immOk := i0 }
  | 0x29 => rowIf (v == 0) { da with immOk := i0 }
  | 0x30 => rowIf (v == 0) da
  | 0x31 => rowIf (decide (1 ≤ v) && decide (v ≤ 8)) { dab with mod := .q, e := se, immOk := immF r.imm 26 5 == 0 && immF r.imm 16 8 != 0 }
  | 0x32 => rowIf (decide (v ≤ 1)) da
  | 0x33 => rowIf (v == 0) da
  | 0x34 => rowIf (v == 0) { da with immOk := immF r.imm 18 14 == 0 }
  | 0x38 | 0x39 => rowIf (v == 0) { da with e := se, immOk := immF r.imm 16 15 == 0 }
  | 0x40 | 0x46 | 0x47 | 0x48 | 0x49 | 0x4A => rowIf (v == 0) dab
  | 0x41 => rowIf (decide (v ≤ 1)) dab
  | 0x42 => rowIf (v == 0) { d := .cq, b := .scal 1, e := .scal 1, immOk := tag }
  | 0x43 => rowIf (v == 0) { d := .cq, b := .scal 1, immOk := immF r.imm 19 13 == 0 }
  | 0x44 | 0x45 => rowIf (v == 0) { d := .cq, b := .scal 1, immOk := tag }
  | _ => .error .unassignedOpcode

/-- The row of a word in the map of the section's engine (R123–R128). -/
def rowOf (g : Eng) (r : RawWord) : Except DecodeError Row :=
  if r.op.toNat < 0x20 then rowCommon r
  else match g with
    | .c => rowC r | .v => rowV r | .m => rowM r | .h => rowH r

/-- A register field holds a number of its class, aligned to its group (R42, R118); an unused field is 0 (R117). -/
def regOk (g : Eng) (c : RegClass) (x : Reg) : Except DecodeError Unit :=
  if c = .none ∧ x ≠ 0 then .error .unusedField
  else if classSize g c ≤ x.toNat then .error .registerRange
  else if x.toNat % classGroup c ≠ 0 then .error .registerGroup
  else .ok ()

/-- SUB[7:4] names a type the row accepts, or is 0 where the row takes none (R122). -/
def typeOk (row : Row) (r : RawWord) : Bool :=
  match row.types, subTy r with
  | [], _ => r.sub.toNat / 16 == 0
  | ts, some t => decide (t ∈ ts)
  | _, none => false

/-- Every check of R129 that a word alone can fail. -/
def checkWord (g : Eng) (r : RawWord) : Except DecodeError Unit :=
  match rowOf g r with
  | .error x => .error x
  | .ok row =>
    if !modOk row.mod r.md then .error .modOutsideClass
    else if !typeOk row r then .error .elementType
    else if row.live && (r.pred != 7 || r.pneg) then .error .predicateForbidden
    else if !row.immOk then .error .immediateField
    else match regOk g row.d r.d, regOk g row.a r.a, regOk g row.b r.b, regOk g row.e r.e with
      | .ok _, .ok _, .ok _, .ok _ => .ok ()
      | .error x, _, _, _ => .error x
      | _, .error x, _, _ => .error x
      | _, _, .error x, _ => .error x
      | _, _, _, .error x => .error x

def hdOf (r : RawWord) : Hd := { pop := r.pop, push := r.push, pred := r.pred, pneg := r.pneg }
def maskOf (r : RawWord) : Option Reg := if subM r then some r.e else none
def shOf (r : RawWord) : Shamt := if r.sub.getLsbD 0 then .imm r.imm else .reg r.b
def idxOf (r : RawWord) : Idx := if r.sub.getLsbD 2 then .reg r.b else .imm r.imm
def axisOf (r : RawWord) : Axis := if r.sub.getLsbD 0 then .col else .row
def redOf (r : RawWord) : RedOp :=
  match r.sub.toNat / 2 % 4 with | 0 => .add | 1 => .max | 2 => .min | _ => .amax
def cmpRelOf (r : RawWord) : CmpRel :=
  match subVar r with | 0 => .eq | 1 => .ne | 2 => .lt | 3 => .le | 4 => .ltu | _ => .leu
def waitRelOf (r : RawWord) : WaitRel :=
  match subVar r with | 0 => .eq | 1 => .ne | 2 => .lt | 3 => .le | 4 => .gt | _ => .ge
def vRelOf (r : RawWord) : VRel :=
  match subVar3 r with | 0 => .eq | 1 => .ne | 2 => .lt | 3 => .le | 4 => .gt | 5 => .ge | _ => .un
def fenceClsOf (r : RawWord) : FenceCls :=
  match subVar r with | 0 => .st | 1 => .ld | 2 => .hoist | _ => .lode
def probeClsOf (r : RawWord) : ProbeCls := match subVar r with | 0 => .r | 1 => .w | _ => .a
def krlVarOf (r : RawWord) : KrlVar := match subVar r with | 0 => .start | 1 => .occ | _ => .last

/-- The scope of a code (R99); codes 5–7 are illegal wherever a scope is named. -/
def scopeOf (n : Nat) : Scope :=
  match n with | 0 => .core | 1 => .pair | 2 => .cluster | 3 => .module | _ => .system

def scopeCode : Scope → Nat
  | .core => 0 | .pair => 1 | .cluster => 2 | .module => 3 | .system => 4
def cmpRelCode : CmpRel → Nat
  | .eq => 0 | .ne => 1 | .lt => 2 | .le => 3 | .ltu => 4 | .leu => 5
def waitRelCode : WaitRel → Nat
  | .eq => 0 | .ne => 1 | .lt => 2 | .le => 3 | .gt => 4 | .ge => 5
def vRelCode : VRel → Nat
  | .eq => 0 | .ne => 1 | .lt => 2 | .le => 3 | .gt => 4 | .ge => 5 | .un => 6
def fenceClsCode : FenceCls → Nat
  | .st => 0 | .ld => 1 | .hoist => 2 | .lode => 3
def probeClsCode : ProbeCls → Nat
  | .r => 0 | .w => 1 | .a => 2
def krlVarCode : KrlVar → Nat
  | .start => 0 | .occ => 1 | .last => 2
def redCode : RedOp → Nat
  | .add => 0 | .max => 1 | .min => 2 | .amax => 3
def axisCode : Axis → Nat
  | .row => 0 | .col => 1

/-- The operation of a checked word of the common subset. -/
def buildCommon (r : RawWord) : Option Instr :=
  match r.op.toNat with
  | 0x00 => some (.nop (hdOf r))
  | 0x01 => some (.rep (hdOf r) r.imm)
  | 0x02 =>
    match subVar r with
    | 0 => some (.movi (hdOf r) r.d r.imm)
    | _ => some (.moviHi (hdOf r) r.d r.imm)
  | 0x03 => some (.mov (hdOf r) r.d r.a)
  | 0x04 => some (.add (hdOf r) r.d r.a r.b)
  | 0x05 => some (.sub (hdOf r) r.d r.a r.b)
  | 0x06 => some (.addi (hdOf r) r.d r.a r.imm)
  | 0x07 => some (.shl (hdOf r) r.d r.a (shOf r))
  | 0x08 => some (.shr (hdOf r) r.d r.a (shOf r))
  | 0x09 => some (.sar (hdOf r) r.d r.a (shOf r))
  | 0x0a => some (.and (hdOf r) r.d r.a r.b)
  | 0x0b => some (.or (hdOf r) r.d r.a r.b)
  | 0x0c => some (.xor (hdOf r) r.d r.a r.b)
  | 0x0d => some (.cmp (hdOf r) (cmpRelOf r) r.d r.a r.b)
  | 0x0e => some (.sel (hdOf r) r.d r.a r.b r.e)
  | 0x0f => some (.tsend (hdOf r) r.a)
  | 0x10 => some (.trecv (hdOf r) r.d)
  | 0x11 =>
    match subVar r with
    | 0 => some (.pand (hdOf r) r.d r.a r.b)
    | 1 => some (.por (hdOf r) r.d r.a r.b)
    | 2 => some (.pxor (hdOf r) r.d r.a r.b)
    | 3 => some (.pnot (hdOf r) r.d r.a)
    | _ => some (.pmov (hdOf r) r.d r.a)
  | _ => none

/-- The operation of a checked word of the C map. -/
def buildC (r : RawWord) : Option Instr :=
  match r.op.toNat with
  | 0x20 => (subTy r).map fun t => .mul (hdOf r) t r.d r.a r.b
  | 0x21 => (subTy r).map fun t => .mulh (hdOf r) t r.d r.a r.b
  | 0x22 => (subTy r).map fun t => .div (hdOf r) t r.d r.a r.b
  | 0x23 => (subTy r).map fun t => .rem (hdOf r) t r.d r.a r.b
  | 0x24 => (subTy r).map fun t => .min (hdOf r) t r.d r.a r.b
  | 0x25 => (subTy r).map fun t => .max (hdOf r) t r.d r.a r.b
  | 0x26 => some (.clz (hdOf r) r.d r.a)
  | 0x27 => some (.popc (hdOf r) r.d r.a)
  | 0x28 => (subTy r).map fun t => .bfx (hdOf r) t r.d r.a r.imm
  | 0x29 => (subTy r).map fun t => .bfi (hdOf r) t r.d r.a r.b r.imm
  | 0x30 => (subTy r).map fun t => .ld (hdOf r) t (mdQual r.md) r.d r.a r.imm
  | 0x31 => (subTy r).map fun t => .st (hdOf r) t r.a r.b r.imm
  | 0x38 =>
    match subVar r with
    | 0 => (subTy r).map fun t => .atomAdd (hdOf r) t r.d r.a r.b r.e r.imm
    | 1 => (subTy r).map fun t => .atomAnd (hdOf r) t r.d r.a r.b r.e r.imm
    | 2 => (subTy r).map fun t => .atomOr (hdOf r) t r.d r.a r.b r.e r.imm
    | 3 => (subTy r).map fun t => .atomXor (hdOf r) t r.d r.a r.b r.e r.imm
    | 4 => (subTy r).map fun t => .atomMin (hdOf r) t r.d r.a r.b r.e r.imm
    | 5 => (subTy r).map fun t => .atomMax (hdOf r) t r.d r.a r.b r.e r.imm
    | 6 => (subTy r).map fun t => .atomXchg (hdOf r) t r.d r.a r.b r.e r.imm
    | 7 => (subTy r).map fun t => .atomCas (hdOf r) t r.d r.a r.b r.e r.imm
    | 8 => (subTy r).map fun t => .atomIncb (hdOf r) t r.d r.a r.b r.e r.imm
    | 9 => (subTy r).map fun t => .atomAddb (hdOf r) t r.d r.a r.b r.e r.imm
    | _ => (subTy r).map fun t => .atomCas128 (hdOf r) t r.d r.a r.b r.e r.imm
  | 0x40 => some (.br (hdOf r) r.imm)
  | 0x41 =>
    match subVar r with
    | 0 => some (.steer (hdOf r) r.imm)
    | _ => some (.steerX (hdOf r) r.a)
  | 0x42 => some (.call (hdOf r) r.d r.imm)
  | 0x43 => some (.ret (hdOf r) r.a)
  | 0x48 => some (.probe (hdOf r) (probeClsOf r) r.d r.a r.e r.imm)
  | 0x50 => some (.fni (hdOf r) (fenceClsOf r) r.d r.imm)
  | 0x51 => some (.fnw (hdOf r) r.a)
  | 0x52 => some (.phase (hdOf r) (scopeOf r.imm.toNat))
  | 0x58 => some (.barArr (hdOf r) r.imm)
  | 0x59 => some (.barWait (hdOf r) r.imm)
  | 0x60 => (subTy r).map fun t => .waitw (hdOf r) (waitRelOf r) t r.d r.a r.b r.imm
  | 0x61 => some (.twait (hdOf r) r.a)
  | 0x62 => some (.tickRead (hdOf r) r.d)
  | 0x68 => some (.npre (hdOf r))
  | 0x69 => some (.epre (hdOf r))
  | 0x6a => some (.textsync (hdOf r) r.a r.b)
  | 0x6b => some (.signal (hdOf r) (scopeOf (subVar r)) r.a r.b r.imm)
  | 0x6c => some (.trap (hdOf r) r.imm)
  | 0x6d => some (.srd (hdOf r) r.d r.imm)
  | 0xe0 => some (.wsrd (hdOf r) r.d r.a r.imm)
  | 0xe1 =>
    match r.imm.toNat with
    | 0 => some (.teamHalt (hdOf r) r.d r.a)
    | 1 => some (.teamKill (hdOf r) r.d r.a)
    | _ => some (.teamHold (hdOf r) r.d r.a)
  | 0xe2 =>
    match r.imm.toNat with
    | 0 => some (.teamResumeReexec (hdOf r) r.d r.a)
    | _ => some (.teamResumeSkip (hdOf r) r.d r.a)
  | 0xe3 =>
    match r.imm.toNat with
    | 0 => some (.qFlushFinish (hdOf r) r.d r.a)
    | _ => some (.qFlushDiscard (hdOf r) r.d r.a)
  | 0xe4 =>
    match r.imm.toNat with
    | 0 => some (.qResetContinue (hdOf r) r.d r.a)
    | _ => some (.qResetRestart (hdOf r) r.d r.a)
  | 0xe5 => some (.ctxSave (hdOf r) r.d r.a r.b r.imm)
  | 0xe6 => some (.ctxRest (hdOf r) r.d r.a r.b r.imm)
  | 0xe7 => some (.prd (hdOf r) r.d r.a r.imm)
  | 0xe8 => some (.pwr (hdOf r) r.d r.a r.b r.imm)
  | 0xe9 =>
    match r.imm.toNat with
    | 1 => some (.lregWrite (hdOf r) r.d r.a)
    | 2 => some (.lregSeal (hdOf r) r.d r.a)
    | 3 => some (.lregRemap (hdOf r) r.d r.a)
    | 4 => some (.lregDestroy (hdOf r) r.d r.a)
    | _ => some (.lregCreate (hdOf r) r.d r.a (r.imm.extractLsb' 0 4))
  | 0xea =>
    match r.imm.toNat with
    | 1 => some (.htabUnmap (hdOf r) r.d r.a)
    | 2 => some (.htabShootdown (hdOf r) r.d r.a)
    | 3 => some (.htabBind (hdOf r) r.d r.a)
    | _ => some (.htabMap (hdOf r) r.d r.a (r.imm.extractLsb' 0 4))
  | 0xeb =>
    match r.imm.toNat with
    | 1 => some (.fwinClear (hdOf r) r.d r.a)
    | 2 => some (.fwinFlush (hdOf r) r.d r.a)
    | _ => some (.fwinSet (hdOf r) r.d r.a (r.imm.extractLsb' 0 4))
  | _ => none

/-- The operation of a checked word of the V map. -/
def buildV (r : RawWord) : Option Instr :=
  match r.op.toNat with
  | 0x20 =>
    match subVar r with
    | 0 => (subTy r).map fun t => .vld (hdOf r) t (mdQual r.md) r.d r.a r.b r.imm
    | _ => (subTy r).map fun t => .vldSp (hdOf r) t (mdQual r.md) r.d r.a r.b r.imm
  | 0x21 =>
    match subVar r with
    | 0 => (subTy r).map fun t => .vst (hdOf r) t r.a r.b r.e r.imm
    | _ => (subTy r).map fun t => .vstSp (hdOf r) t r.a r.b r.e r.imm
  | 0x22 => (subTy r).map fun t => .vldr (hdOf r) t (mdQual r.md) r.d r.a r.b r.e r.imm
  | 0x23 => (subTy r).map fun t => .vstr (hdOf r) t r.a r.b r.e r.imm
  | 0x24 => (subTy r).map fun t => .vldx (hdOf r) t r.d r.a r.b (maskOf r) r.imm
  | 0x28 =>
    match subVar r with
    | 0 => some (.vmodeRd (hdOf r) r.d)
    | _ => some (.vmodeWr (hdOf r) r.a)
  | 0x29 =>
    match subVar r with
    | 0 => some (.vflagsRd (hdOf r) r.d)
    | _ => some (.vflagsWr (hdOf r) r.a)
  | 0x30 => (subTy r).map fun t => .vadd (hdOf r) t r.md r.d r.a r.b (maskOf r)
  | 0x31 => (subTy r).map fun t => .vsub (hdOf r) t r.md r.d r.a r.b (maskOf r)
  | 0x32 => (subTy r).map fun t => .vmul (hdOf r) t r.md r.d r.a r.b (maskOf r)
  | 0x33 => (subTy r).map fun t => .vmin (hdOf r) t r.md r.d r.a r.b (maskOf r)
  | 0x34 => (subTy r).map fun t => .vmax (hdOf r) t r.md r.d r.a r.b (maskOf r)
  | 0x35 => (subTy r).map fun t => .vabs (hdOf r) t r.d r.a (maskOf r)
  | 0x36 => (subTy r).map fun t => .vneg (hdOf r) t r.d r.a (maskOf r)
  | 0x37 => (subTy r).map fun t => .vcmp (hdOf r) (vRelOf r) t r.d r.a r.b (maskOf r)
  | 0x38 => (subTy r).map fun t => .vfma (hdOf r) t r.md r.d r.a r.b r.e
  | 0x39 => (subTy r).map fun t => .vfms (hdOf r) t r.md r.d r.a r.b r.e
  | 0x3a => (subTy r).map fun t => .vfnma (hdOf r) t r.md r.d r.a r.b r.e
  | 0x3b => (subTy r).map fun t => .vdiv (hdOf r) t r.md r.d r.a r.b (maskOf r)
  | 0x3c => (subTy r).map fun t => .vclass (hdOf r) t r.md r.d r.a (maskOf r)
  | 0x3d => (subTy r).map fun t => .vrint (hdOf r) t r.md r.d r.a (maskOf r)
  | 0x3e => (subTy r).map fun t => .vscale (hdOf r) t r.md r.d r.a r.b (maskOf r)
  | 0x40 => (subTy r).map fun t => .vmulh (hdOf r) t r.d r.a r.b (maskOf r)
  | 0x41 => (subTy r).map fun t => .vshl (hdOf r) t r.d r.a (shOf r) (maskOf r)
  | 0x42 => (subTy r).map fun t => .vshr (hdOf r) t r.d r.a (shOf r) (maskOf r)
  | 0x43 => (subTy r).map fun t => .vsar (hdOf r) t r.d r.a (shOf r) (maskOf r)
  | 0x44 => (subTy r).map fun t => .vand (hdOf r) t r.d r.a r.b (maskOf r)
  | 0x45 => (subTy r).map fun t => .vor (hdOf r) t r.d r.a r.b (maskOf r)
  | 0x46 => (subTy r).map fun t => .vxor (hdOf r) t r.d r.a r.b (maskOf r)
  | 0x47 => (subTy r).map fun t => .vnot (hdOf r) t r.d r.a (maskOf r)
  | 0x48 => (subTy r).map fun t => .vpopc (hdOf r) t r.d r.a (maskOf r)
  | 0x49 => (subTy r).map fun t => .vclz (hdOf r) t r.d r.a (maskOf r)
  | 0x4a => (subTy r).map fun t => .vdot4 (hdOf r) t (mdQual r.md) r.d r.a r.b r.e
  | 0x50 => (subTy r).map fun t => .vcvt (hdOf r) t r.md r.d r.a (maskOf r) r.imm
  | 0x51 =>
    match subVar r with
    | 0 => (subTy r).map fun t => .vqntBlk (hdOf r) t r.md r.d r.a r.imm
    | _ => (subTy r).map fun t => .vqntS (hdOf r) t r.md r.d r.a r.b r.imm
  | 0x52 =>
    match subVar r with
    | 0 => (subTy r).map fun t => .vdqntBlk (hdOf r) t r.md r.d r.a r.imm
    | _ => (subTy r).map fun t => .vdqntS (hdOf r) t r.md r.d r.a r.b r.imm
  | 0x53 =>
    match subVar r with
    | 0 => (subTy r).map fun t => .vplanePk (hdOf r) t r.d r.a r.imm
    | _ => (subTy r).map fun t => .vplaneUn (hdOf r) t r.d r.a r.imm
  | 0x60 => (subTy r).map fun t => .vrot (hdOf r) (axisOf r) t r.d r.a (idxOf r) (maskOf r)
  | 0x61 => (subTy r).map fun t => .vbcast (hdOf r) (axisOf r) t r.d r.a (idxOf r) (maskOf r)
  | 0x62 => (subTy r).map fun t => .vred (hdOf r) (redOf r) (axisOf r) t r.md r.d r.a (maskOf r)
  | 0x63 => (subTy r).map fun t => .vscan (hdOf r) (redOf r) (axisOf r) t r.md r.d r.a (maskOf r)
  | 0x64 => (subTy r).map fun t => .vsred (hdOf r) (redOf r) t r.md r.d r.a r.e
  | 0x70 => some (.kand (hdOf r) r.d r.a r.b)
  | 0x71 => some (.kor (hdOf r) r.d r.a r.b)
  | 0x72 => some (.kxor (hdOf r) r.d r.a r.b)
  | 0x73 => some (.knot (hdOf r) r.d r.a)
  | 0x74 => some (.kpopc (hdOf r) r.d r.a)
  | 0x75 => some (.kffs (hdOf r) r.d r.a)
  | 0x76 => (subTy r).map fun t => .krl (hdOf r) (krlVarOf r) t r.d r.b
  | 0x77 =>
    match subVar r with
    | 0 => some (.kmov (hdOf r) r.d r.a)
    | 1 => some (.kmovSet (hdOf r) r.d)
    | 2 => some (.kmovClr (hdOf r) r.d)
    | _ => some (.kmovFirst (hdOf r) r.d r.a)
  | 0x78 => (subTy r).map fun t => .vext (hdOf r) t r.d r.a (idxOf r)
  | 0x79 => (subTy r).map fun t => .vins (hdOf r) t r.d r.a (idxOf r)
  | 0x7a =>
    match subVar3 r with
    | 0 => (subTy r).map fun t => .vmov (hdOf r) t r.d r.a (maskOf r)
    | _ => (subTy r).map fun t => .vmovBc (hdOf r) t r.d r.a (maskOf r)
  | 0x7b => (subTy r).map fun t => .vsel (hdOf r) t r.d r.a r.b r.e
  | 0x80 =>
    match subVar r with
    | 0 => (subTy r).map fun t => .vexp (hdOf r) t r.md r.d r.a r.e
    | _ => (subTy r).map fun t => .vexpApx (hdOf r) t r.md r.d r.a r.e
  | 0x81 =>
    match subVar r with
    | 0 => (subTy r).map fun t => .vexp2 (hdOf r) t r.md r.d r.a r.e
    | _ => (subTy r).map fun t => .vexp2Apx (hdOf r) t r.md r.d r.a r.e
  | 0x82 =>
    match subVar r with
    | 0 => (subTy r).map fun t => .vexpm1 (hdOf r) t r.md r.d r.a r.e
    | _ => (subTy r).map fun t => .vexpm1Apx (hdOf r) t r.md r.d r.a r.e
  | 0x83 =>
    match subVar r with
    | 0 => (subTy r).map fun t => .vlog (hdOf r) t r.md r.d r.a r.e
    | _ => (subTy r).map fun t => .vlogApx (hdOf r) t r.md r.d r.a r.e
  | 0x84 =>
    match subVar r with
    | 0 => (subTy r).map fun t => .vlog2 (hdOf r) t r.md r.d r.a r.e
    | _ => (subTy r).map fun t => .vlog2Apx (hdOf r) t r.md r.d r.a r.e
  | 0x85 =>
    match subVar r with
    | 0 => (subTy r).map fun t => .vlog1p (hdOf r) t r.md r.d r.a r.e
    | _ => (subTy r).map fun t => .vlog1pApx (hdOf r) t r.md r.d r.a r.e
  | 0x86 =>
    match subVar r with
    | 0 => (subTy r).map fun t => .vrcp (hdOf r) t r.md r.d r.a r.e
    | _ => (subTy r).map fun t => .vrcpApx (hdOf r) t r.md r.d r.a r.e
  | 0x87 =>
    match subVar r with
    | 0 => (subTy r).map fun t => .vsqrt (hdOf r) t r.md r.d r.a r.e
    | _ => (subTy r).map fun t => .vsqrtApx (hdOf r) t r.md r.d r.a r.e
  | 0x88 =>
    match subVar r with
    | 0 => (subTy r).map fun t => .vrsqrt (hdOf r) t r.md r.d r.a r.e
    | _ => (subTy r).map fun t => .vrsqrtApx (hdOf r) t r.md r.d r.a r.e
  | 0x89 =>
    match subVar r with
    | 0 => (subTy r).map fun t => .vsin (hdOf r) t r.md r.d r.a r.e
    | _ => (subTy r).map fun t => .vsinApx (hdOf r) t r.md r.d r.a r.e
  | 0x8a =>
    match subVar r with
    | 0 => (subTy r).map fun t => .vcos (hdOf r) t r.md r.d r.a r.e
    | _ => (subTy r).map fun t => .vcosApx (hdOf r) t r.md r.d r.a r.e
  | 0x8b =>
    match subVar r with
    | 0 => (subTy r).map fun t => .vtanh (hdOf r) t r.md r.d r.a r.e
    | _ => (subTy r).map fun t => .vtanhApx (hdOf r) t r.md r.d r.a r.e
  | 0x8c =>
    match subVar r with
    | 0 => (subTy r).map fun t => .vlogistic (hdOf r) t r.md r.d r.a r.e
    | _ => (subTy r).map fun t => .vlogisticApx (hdOf r) t r.md r.d r.a r.e
  | _ => none

/-- The operation of a checked word of the M map. -/
def buildM (r : RawWord) : Option Instr :=
  match r.op.toNat with
  | 0x20 => some (.leaseAcq (hdOf r) r.imm)
  | 0x21 => some (.leaseRel (hdOf r))
  | 0x22 => some (.leaseSt (hdOf r) r.d)
  | 0x28 =>
    match subVar r with
    | 0 => some (.odSetSp (hdOf r) r.d r.a r.b)
    | 1 => some (.odSetV (hdOf r) r.d r.a r.b)
    | _ => some (.odSetM (hdOf r) r.d r.a r.b)
  | 0x30 => (subTy r).map fun t => .mma (hdOf r) t (mdQual r.md) (r.sub.extractLsb' 0 4) r.d r.a r.b r.imm
  | 0x38 => some (.accZero (hdOf r) r.d)
  | 0x39 => some (.accSwap (hdOf r) r.d)
  | 0x3a => some (.accRd (hdOf r) r.d r.a r.imm)
  | 0x3b => some (.accFlag (hdOf r) r.d r.a)
  | _ => none

/-- The operation of a checked word of the H map. -/
def buildH (r : RawWord) : Option Instr :=
  match r.op.toNat with
  | 0x20 => some (.hcp (hdOf r) r.d r.a r.imm)
  | 0x21 => some (.hgat (hdOf r) r.d r.a r.b r.imm)
  | 0x22 => some (.hsct (hdOf r) r.d r.a r.b r.imm)
  | 0x23 =>
    match subVar r with
    | 0 => some (.hmc (hdOf r) r.d r.a r.imm)
    | _ => some (.hmcSig (hdOf r) r.d r.a r.imm)
  | 0x24 => some (.hlay (hdOf r) r.d r.a r.b r.e r.imm)
  | 0x25 => some (.hfill (hdOf r) r.d r.a r.b r.imm)
  | 0x26 => some (.hpub (hdOf r) r.d r.a r.imm)
  | 0x28 => some (.cqInit (hdOf r) r.d r.a r.b)
  | 0x29 => some (.cqAck (hdOf r) r.d r.a)
  | 0x30 => some (.lodeAct (hdOf r) r.d r.a r.imm)
  | 0x31 => some (.lodeSacc (hdOf r) (r.sub.extractLsb' 0 4) (mdQual r.md) r.d r.a r.b r.e r.imm)
  | 0x32 =>
    match subVar r with
    | 0 => some (.lodeDrain (hdOf r) r.d r.a r.imm)
    | _ => some (.lodeDrainRaw (hdOf r) r.d r.a r.imm)
  | 0x33 => some (.lodeIred (hdOf r) r.d r.a r.imm)
  | 0x34 => some (.lodeStat (hdOf r) r.d r.a r.imm)
  | 0x38 => some (.linkSend (hdOf r) r.d r.a r.e r.imm)
  | 0x39 => some (.linkRed (hdOf r) r.d r.a r.e r.imm)
  | 0x40 => some (.rdlOpen (hdOf r) r.d r.a r.b r.imm)
  | 0x41 =>
    match subVar r with
    | 0 => some (.rdlMask (hdOf r) r.d r.a r.b r.imm)
    | _ => some (.rdlMaskM (hdOf r) r.d r.a r.b r.imm)
  | 0x42 => some (.rdlStep (hdOf r) r.d r.b r.e r.imm)
  | 0x43 => some (.rdlFork (hdOf r) r.d r.b r.imm)
  | 0x44 => some (.rdlKeep (hdOf r) r.d r.b r.imm)
  | 0x45 => some (.rdlDrop (hdOf r) r.d r.b r.imm)
  | 0x46 => some (.rdlSave (hdOf r) r.d r.a r.b r.imm)
  | 0x47 => some (.rdlLoad (hdOf r) r.d r.a r.b r.imm)
  | 0x48 => some (.asyBind (hdOf r) r.d r.a r.b r.imm)
  | 0x49 => some (.asyRun (hdOf r) r.d r.a r.b r.imm)
  | 0x4a => some (.asyStat (hdOf r) r.d r.a r.b r.imm)
  | _ => none

/-- The operation of a checked word in the map of the section's engine. -/
def buildWord (g : Eng) (r : RawWord) : Option Instr :=
  if r.op.toNat < 0x20 then buildCommon r
  else match g with
    | .c => buildC r | .v => buildV r | .m => buildM r | .h => buildH r

/-- Decodes the fields of a word in the map of an engine, or says by name why it is an illegal encoding (R129, R130). -/
def decodeRaw (g : Eng) (r : RawWord) : Except DecodeError Instr :=
  match checkWord g r with
  | .error x => .error x
  | .ok _ => match buildWord g r with
    | some i => .ok i
    | none => .error .unassignedOpcode

/-- Decodes a 96-bit word in the map of an engine. -/
def decode (g : Eng) (w : BitVec 96) : Except DecodeError Instr := decodeRaw g (unpackWord w)

/-- A word from its opcode, head and fields. -/
def mkRaw (op : Nat) (h : Hd) (md : BitVec 6) (d a b e : Reg) (ty low : Nat) (imm : W32) : RawWord :=
  { op := BitVec.ofNat 8 op, pop := h.pop, push := h.push, pred := h.pred, pneg := h.pneg, md := md,
    d := d, a := a, b := b, e := e, sub := BitVec.ofNat 8 (16 * ty + low), imm := imm }

def qualMd (q : Bool) : BitVec 6 := if q then 1 else 0
def maskLow (m : Option Reg) : Nat := if m.isSome then 8 else 0
def maskE (m : Option Reg) : Reg := m.getD 0
def shLow : Shamt → Nat | .reg _ => 0 | .imm _ => 1
def shB : Shamt → Reg | .reg b => b | .imm _ => 0
def shImm : Shamt → W32 | .reg _ => 0 | .imm n => n
def idxLow : Idx → Nat | .reg _ => 4 | .imm _ => 0
def idxB : Idx → Reg | .reg b => b | .imm _ => 0
def idxImm : Idx → W32 | .reg _ => 0 | .imm n => n

/-- The fields of the word of an engine's operation, from the same encoding tables; an operation that is no engine word
has none. -/
def encodeRaw (i : Instr) : Option RawWord :=
  match i with
  | .nop h => some (mkRaw 0x00 h 0 0 0 0 0 0 0 0)
  | .rep h imm => some (mkRaw 0x01 h 0 0 0 0 0 0 0 imm)
  | .movi h d imm => some (mkRaw 0x02 h 0 d 0 0 0 0 0 imm)
  | .moviHi h d imm => some (mkRaw 0x02 h 0 d 0 0 0 0 1 imm)
  | .mov h d a => some (mkRaw 0x03 h 0 d a 0 0 0 0 0)
  | .add h d a b => some (mkRaw 0x04 h 0 d a b 0 0 0 0)
  | .sub h d a b => some (mkRaw 0x05 h 0 d a b 0 0 0 0)
  | .addi h d a imm => some (mkRaw 0x06 h 0 d a 0 0 0 0 imm)
  | .shl h d a sh => some (mkRaw 0x07 h 0 d a (shB sh) 0 0 (shLow sh) (shImm sh))
  | .shr h d a sh => some (mkRaw 0x08 h 0 d a (shB sh) 0 0 (shLow sh) (shImm sh))
  | .sar h d a sh => some (mkRaw 0x09 h 0 d a (shB sh) 0 0 (shLow sh) (shImm sh))
  | .and h d a b => some (mkRaw 0x0a h 0 d a b 0 0 0 0)
  | .or h d a b => some (mkRaw 0x0b h 0 d a b 0 0 0 0)
  | .xor h d a b => some (mkRaw 0x0c h 0 d a b 0 0 0 0)
  | .cmp h crel d a b => some (mkRaw 0x0d h 0 d a b 0 0 (cmpRelCode crel) 0)
  | .sel h d a b e => some (mkRaw 0x0e h 0 d a b e 0 0 0)
  | .tsend h a => some (mkRaw 0x0f h 0 0 a 0 0 0 0 0)
  | .trecv h d => some (mkRaw 0x10 h 0 d 0 0 0 0 0 0)
  | .pand h d a b => some (mkRaw 0x11 h 0 d a b 0 0 0 0)
  | .por h d a b => some (mkRaw 0x11 h 0 d a b 0 0 1 0)
  | .pxor h d a b => some (mkRaw 0x11 h 0 d a b 0 0 2 0)
  | .pnot h d a => some (mkRaw 0x11 h 0 d a 0 0 0 3 0)
  | .pmov h d a => some (mkRaw 0x11 h 0 d a 0 0 0 4 0)
  | .mul h ty d a b => some (mkRaw 0x20 h 0 d a b 0 (etyCode ty) 0 0)
  | .mulh h ty d a b => some (mkRaw 0x21 h 0 d a b 0 (etyCode ty) 0 0)
  | .div h ty d a b => some (mkRaw 0x22 h 0 d a b 0 (etyCode ty) 0 0)
  | .rem h ty d a b => some (mkRaw 0x23 h 0 d a b 0 (etyCode ty) 0 0)
  | .min h ty d a b => some (mkRaw 0x24 h 0 d a b 0 (etyCode ty) 0 0)
  | .max h ty d a b => some (mkRaw 0x25 h 0 d a b 0 (etyCode ty) 0 0)
  | .clz h d a => some (mkRaw 0x26 h 0 d a 0 0 0 0 0)
  | .popc h d a => some (mkRaw 0x27 h 0 d a 0 0 0 0 0)
  | .bfx h ty d a imm => some (mkRaw 0x28 h 0 d a 0 0 (etyCode ty) 0 imm)
  | .bfi h ty d a b imm => some (mkRaw 0x29 h 0 d a b 0 (etyCode ty) 0 imm)
  | .ld h ty q d a imm => some (mkRaw 0x30 h (qualMd q) d a 0 0 (etyCode ty) 0 imm)
  | .st h ty a b imm => some (mkRaw 0x31 h 0 0 a b 0 (etyCode ty) 0 imm)
  | .atomAdd h ty d a b e imm => some (mkRaw 0x38 h 0 d a b e (etyCode ty) 0 imm)
  | .atomAnd h ty d a b e imm => some (mkRaw 0x38 h 0 d a b e (etyCode ty) 1 imm)
  | .atomOr h ty d a b e imm => some (mkRaw 0x38 h 0 d a b e (etyCode ty) 2 imm)
  | .atomXor h ty d a b e imm => some (mkRaw 0x38 h 0 d a b e (etyCode ty) 3 imm)
  | .atomMin h ty d a b e imm => some (mkRaw 0x38 h 0 d a b e (etyCode ty) 4 imm)
  | .atomMax h ty d a b e imm => some (mkRaw 0x38 h 0 d a b e (etyCode ty) 5 imm)
  | .atomXchg h ty d a b e imm => some (mkRaw 0x38 h 0 d a b e (etyCode ty) 6 imm)
  | .atomCas h ty d a b e imm => some (mkRaw 0x38 h 0 d a b e (etyCode ty) 7 imm)
  | .atomIncb h ty d a b e imm => some (mkRaw 0x38 h 0 d a b e (etyCode ty) 8 imm)
  | .atomAddb h ty d a b e imm => some (mkRaw 0x38 h 0 d a b e (etyCode ty) 9 imm)
  | .atomCas128 h ty d a b e imm => some (mkRaw 0x38 h 0 d a b e (etyCode ty) 10 imm)
  | .br h imm => some (mkRaw 0x40 h 0 0 0 0 0 0 0 imm)
  | .steer h imm => some (mkRaw 0x41 h 0 0 0 0 0 0 0 imm)
  | .steerX h a => some (mkRaw 0x41 h 0 0 a 0 0 0 1 0)
  | .call h d imm => some (mkRaw 0x42 h 0 d 0 0 0 0 0 imm)
  | .ret h a => some (mkRaw 0x43 h 0 0 a 0 0 0 0 0)
  | .probe h pcl d a e imm => some (mkRaw 0x48 h 0 d a 0 e 0 (probeClsCode pcl) imm)
  | .fni h fcl d imm => some (mkRaw 0x50 h 0 d 0 0 0 0 (fenceClsCode fcl) imm)
  | .fnw h a => some (mkRaw 0x51 h 0 0 a 0 0 0 0 0)
  | .fenceComplete _ => none
  | .phase h scp => some (mkRaw 0x52 h 0 0 0 0 0 0 0 (BitVec.ofNat 32 (scopeCode scp)))
  | .barArr h imm => some (mkRaw 0x58 h 0 0 0 0 0 0 0 imm)
  | .barWait h imm => some (mkRaw 0x59 h 0 0 0 0 0 0 0 imm)
  | .waitw h wrel ty d a b imm => some (mkRaw 0x60 h 0 d a b 0 (etyCode ty) (waitRelCode wrel) imm)
  | .waitwPoll _ => none
  | .twait h a => some (mkRaw 0x61 h 0 0 a 0 0 0 0 0)
  | .twaitExpiry _ => none
  | .tickRead h d => some (mkRaw 0x62 h 0 d 0 0 0 0 0 0)
  | .npre h => some (mkRaw 0x68 h 0 0 0 0 0 0 0 0)
  | .epre h => some (mkRaw 0x69 h 0 0 0 0 0 0 0 0)
  | .nopreOverrun _ => none
  | .textsync h a b => some (mkRaw 0x6a h 0 0 a b 0 0 0 0)
  | .signal h sscp a b imm => some (mkRaw 0x6b h 0 0 a b 0 0 (scopeCode sscp) imm)
  | .signalAdd _ => none
  | .trap h imm => some (mkRaw 0x6c h 0 0 0 0 0 0 0 imm)
  | .srd h d imm => some (mkRaw 0x6d h 0 d 0 0 0 0 0 imm)
  | .wsrd h d a imm => some (mkRaw 0xe0 h 0 d a 0 0 0 0 imm)
  | .teamHalt h d a => some (mkRaw 0xe1 h 0 d a 0 0 0 0 0)
  | .teamKill h d a => some (mkRaw 0xe1 h 0 d a 0 0 0 0 1)
  | .teamHold h d a => some (mkRaw 0xe1 h 0 d a 0 0 0 0 2)
  | .teamResumeReexec h d a => some (mkRaw 0xe2 h 0 d a 0 0 0 0 0)
  | .teamResumeSkip h d a => some (mkRaw 0xe2 h 0 d a 0 0 0 0 1)
  | .qFlushFinish h d a => some (mkRaw 0xe3 h 0 d a 0 0 0 0 0)
  | .qFlushDiscard h d a => some (mkRaw 0xe3 h 0 d a 0 0 0 0 1)
  | .qResetContinue h d a => some (mkRaw 0xe4 h 0 d a 0 0 0 0 0)
  | .qResetRestart h d a => some (mkRaw 0xe4 h 0 d a 0 0 0 0 1)
  | .ctxSave h d a b imm => some (mkRaw 0xe5 h 0 d a b 0 0 0 imm)
  | .ctxRest h d a b imm => some (mkRaw 0xe6 h 0 d a b 0 0 0 imm)
  | .prd h d a imm => some (mkRaw 0xe7 h 0 d a 0 0 0 0 imm)
  | .pwr h d a b imm => some (mkRaw 0xe8 h 0 d a b 0 0 0 imm)
  | .lregCreate h d a opx => some (mkRaw 0xe9 h 0 d a 0 0 0 0 (BitVec.zeroExtend 32 opx))
  | .lregWrite h d a => some (mkRaw 0xe9 h 0 d a 0 0 0 0 1)
  | .lregSeal h d a => some (mkRaw 0xe9 h 0 d a 0 0 0 0 2)
  | .lregRemap h d a => some (mkRaw 0xe9 h 0 d a 0 0 0 0 3)
  | .lregDestroy h d a => some (mkRaw 0xe9 h 0 d a 0 0 0 0 4)
  | .htabMap h d a opx => some (mkRaw 0xea h 0 d a 0 0 0 0 (BitVec.zeroExtend 32 opx))
  | .htabUnmap h d a => some (mkRaw 0xea h 0 d a 0 0 0 0 1)
  | .htabShootdown h d a => some (mkRaw 0xea h 0 d a 0 0 0 0 2)
  | .htabBind h d a => some (mkRaw 0xea h 0 d a 0 0 0 0 3)
  | .fwinSet h d a opx => some (mkRaw 0xeb h 0 d a 0 0 0 0 (BitVec.zeroExtend 32 opx))
  | .fwinClear h d a => some (mkRaw 0xeb h 0 d a 0 0 0 0 1)
  | .fwinFlush h d a => some (mkRaw 0xeb h 0 d a 0 0 0 0 2)
  | .vld h ty q d a b imm => some (mkRaw 0x20 h (qualMd q) d a b 0 (etyCode ty) 0 imm)
  | .vldSp h ty q d a b imm => some (mkRaw 0x20 h (qualMd q) d a b 0 (etyCode ty) 1 imm)
  | .vst h ty a b e imm => some (mkRaw 0x21 h 0 0 a b e (etyCode ty) 0 imm)
  | .vstSp h ty a b e imm => some (mkRaw 0x21 h 0 0 a b e (etyCode ty) 1 imm)
  | .vldr h ty q d a b e imm => some (mkRaw 0x22 h (qualMd q) d a b e (etyCode ty) 0 imm)
  | .vstr h ty a b e imm => some (mkRaw 0x23 h 0 0 a b e (etyCode ty) 0 imm)
  | .vldx h ty d a b mk imm => some (mkRaw 0x24 h 0 d a b (maskE mk) (etyCode ty) (maskLow mk) imm)
  | .vmodeRd h d => some (mkRaw 0x28 h 0 d 0 0 0 0 0 0)
  | .vmodeWr h a => some (mkRaw 0x28 h 0 0 a 0 0 0 1 0)
  | .vflagsRd h d => some (mkRaw 0x29 h 0 d 0 0 0 0 0 0)
  | .vflagsWr h a => some (mkRaw 0x29 h 0 0 a 0 0 0 1 0)
  | .vadd h ty md d a b mk => some (mkRaw 0x30 h md d a b (maskE mk) (etyCode ty) (maskLow mk) 0)
  | .vsub h ty md d a b mk => some (mkRaw 0x31 h md d a b (maskE mk) (etyCode ty) (maskLow mk) 0)
  | .vmul h ty md d a b mk => some (mkRaw 0x32 h md d a b (maskE mk) (etyCode ty) (maskLow mk) 0)
  | .vmin h ty md d a b mk => some (mkRaw 0x33 h md d a b (maskE mk) (etyCode ty) (maskLow mk) 0)
  | .vmax h ty md d a b mk => some (mkRaw 0x34 h md d a b (maskE mk) (etyCode ty) (maskLow mk) 0)
  | .vabs h ty d a mk => some (mkRaw 0x35 h 0 d a 0 (maskE mk) (etyCode ty) (maskLow mk) 0)
  | .vneg h ty d a mk => some (mkRaw 0x36 h 0 d a 0 (maskE mk) (etyCode ty) (maskLow mk) 0)
  | .vcmp h vrel ty d a b mk => some (mkRaw 0x37 h 0 d a b (maskE mk) (etyCode ty) (vRelCode vrel + maskLow mk) 0)
  | .vfma h ty md d a b e => some (mkRaw 0x38 h md d a b e (etyCode ty) 0 0)
  | .vfms h ty md d a b e => some (mkRaw 0x39 h md d a b e (etyCode ty) 0 0)
  | .vfnma h ty md d a b e => some (mkRaw 0x3a h md d a b e (etyCode ty) 0 0)
  | .vdiv h ty md d a b mk => some (mkRaw 0x3b h md d a b (maskE mk) (etyCode ty) (maskLow mk) 0)
  | .vclass h ty md d a mk => some (mkRaw 0x3c h md d a 0 (maskE mk) (etyCode ty) (maskLow mk) 0)
  | .vrint h ty md d a mk => some (mkRaw 0x3d h md d a 0 (maskE mk) (etyCode ty) (maskLow mk) 0)
  | .vscale h ty md d a b mk => some (mkRaw 0x3e h md d a b (maskE mk) (etyCode ty) (maskLow mk) 0)
  | .vmulh h ty d a b mk => some (mkRaw 0x40 h 0 d a b (maskE mk) (etyCode ty) (maskLow mk) 0)
  | .vshl h ty d a sh mk => some (mkRaw 0x41 h 0 d a (shB sh) (maskE mk) (etyCode ty) (shLow sh + maskLow mk) (shImm sh))
  | .vshr h ty d a sh mk => some (mkRaw 0x42 h 0 d a (shB sh) (maskE mk) (etyCode ty) (shLow sh + maskLow mk) (shImm sh))
  | .vsar h ty d a sh mk => some (mkRaw 0x43 h 0 d a (shB sh) (maskE mk) (etyCode ty) (shLow sh + maskLow mk) (shImm sh))
  | .vand h ty d a b mk => some (mkRaw 0x44 h 0 d a b (maskE mk) (etyCode ty) (maskLow mk) 0)
  | .vor h ty d a b mk => some (mkRaw 0x45 h 0 d a b (maskE mk) (etyCode ty) (maskLow mk) 0)
  | .vxor h ty d a b mk => some (mkRaw 0x46 h 0 d a b (maskE mk) (etyCode ty) (maskLow mk) 0)
  | .vnot h ty d a mk => some (mkRaw 0x47 h 0 d a 0 (maskE mk) (etyCode ty) (maskLow mk) 0)
  | .vpopc h ty d a mk => some (mkRaw 0x48 h 0 d a 0 (maskE mk) (etyCode ty) (maskLow mk) 0)
  | .vclz h ty d a mk => some (mkRaw 0x49 h 0 d a 0 (maskE mk) (etyCode ty) (maskLow mk) 0)
  | .vdot4 h ty q d a b e => some (mkRaw 0x4a h (qualMd q) d a b e (etyCode ty) 0 0)
  | .vcvt h ty md d a mk imm => some (mkRaw 0x50 h md d a 0 (maskE mk) (etyCode ty) (maskLow mk) imm)
  | .vqntBlk h ty md d a imm => some (mkRaw 0x51 h md d a 0 0 (etyCode ty) 0 imm)
  | .vqntS h ty md d a b imm => some (mkRaw 0x51 h md d a b 0 (etyCode ty) 1 imm)
  | .vdqntBlk h ty md d a imm => some (mkRaw 0x52 h md d a 0 0 (etyCode ty) 0 imm)
  | .vdqntS h ty md d a b imm => some (mkRaw 0x52 h md d a b 0 (etyCode ty) 1 imm)
  | .vplanePk h ty d a imm => some (mkRaw 0x53 h 0 d a 0 0 (etyCode ty) 0 imm)
  | .vplaneUn h ty d a imm => some (mkRaw 0x53 h 0 d a 0 0 (etyCode ty) 1 imm)
  | .vrot h ax ty d a idx mk => some (mkRaw 0x60 h 0 d a (idxB idx) (maskE mk) (etyCode ty) (axisCode ax + idxLow idx + maskLow mk) (idxImm idx))
  | .vbcast h ax ty d a idx mk => some (mkRaw 0x61 h 0 d a (idxB idx) (maskE mk) (etyCode ty) (axisCode ax + idxLow idx + maskLow mk) (idxImm idx))
  | .vred h rop ax ty md d a mk => some (mkRaw 0x62 h md d a 0 (maskE mk) (etyCode ty) (2 * redCode rop + axisCode ax + maskLow mk) 0)
  | .vscan h rop ax ty md d a mk => some (mkRaw 0x63 h md d a 0 (maskE mk) (etyCode ty) (2 * redCode rop + axisCode ax + maskLow mk) 0)
  | .vsred h rop ty md d a e => some (mkRaw 0x64 h md d a 0 e (etyCode ty) (2 * redCode rop) 0)
  | .kand h d a b => some (mkRaw 0x70 h 0 d a b 0 0 0 0)
  | .kor h d a b => some (mkRaw 0x71 h 0 d a b 0 0 0 0)
  | .kxor h d a b => some (mkRaw 0x72 h 0 d a b 0 0 0 0)
  | .knot h d a => some (mkRaw 0x73 h 0 d a 0 0 0 0 0)
  | .kpopc h d a => some (mkRaw 0x74 h 0 d a 0 0 0 0 0)
  | .kffs h d a => some (mkRaw 0x75 h 0 d a 0 0 0 0 0)
  | .krl h krv ty d b => some (mkRaw 0x76 h 0 d 0 b 0 (etyCode ty) (krlVarCode krv) 0)
  | .kmov h d a => some (mkRaw 0x77 h 0 d a 0 0 0 0 0)
  | .kmovSet h d => some (mkRaw 0x77 h 0 d 0 0 0 0 1 0)
  | .kmovClr h d => some (mkRaw 0x77 h 0 d 0 0 0 0 2 0)
  | .kmovFirst h d a => some (mkRaw 0x77 h 0 d a 0 0 0 3 0)
  | .vext h ty d a idx => some (mkRaw 0x78 h 0 d a (idxB idx) 0 (etyCode ty) (idxLow idx) (idxImm idx))
  | .vins h ty d a idx => some (mkRaw 0x79 h 0 d a (idxB idx) 0 (etyCode ty) (idxLow idx) (idxImm idx))
  | .vmov h ty d a mk => some (mkRaw 0x7a h 0 d a 0 (maskE mk) (etyCode ty) (maskLow mk) 0)
  | .vmovBc h ty d a mk => some (mkRaw 0x7a h 0 d a 0 (maskE mk) (etyCode ty) (1 + maskLow mk) 0)
  | .vsel h ty d a b e => some (mkRaw 0x7b h 0 d a b e (etyCode ty) 0 0)
  | .vexp h ty md d a e => some (mkRaw 0x80 h md d a 0 e (etyCode ty) 0 0)
  | .vexp2 h ty md d a e => some (mkRaw 0x81 h md d a 0 e (etyCode ty) 0 0)
  | .vexpm1 h ty md d a e => some (mkRaw 0x82 h md d a 0 e (etyCode ty) 0 0)
  | .vlog h ty md d a e => some (mkRaw 0x83 h md d a 0 e (etyCode ty) 0 0)
  | .vlog2 h ty md d a e => some (mkRaw 0x84 h md d a 0 e (etyCode ty) 0 0)
  | .vlog1p h ty md d a e => some (mkRaw 0x85 h md d a 0 e (etyCode ty) 0 0)
  | .vrcp h ty md d a e => some (mkRaw 0x86 h md d a 0 e (etyCode ty) 0 0)
  | .vsqrt h ty md d a e => some (mkRaw 0x87 h md d a 0 e (etyCode ty) 0 0)
  | .vrsqrt h ty md d a e => some (mkRaw 0x88 h md d a 0 e (etyCode ty) 0 0)
  | .vsin h ty md d a e => some (mkRaw 0x89 h md d a 0 e (etyCode ty) 0 0)
  | .vcos h ty md d a e => some (mkRaw 0x8a h md d a 0 e (etyCode ty) 0 0)
  | .vtanh h ty md d a e => some (mkRaw 0x8b h md d a 0 e (etyCode ty) 0 0)
  | .vlogistic h ty md d a e => some (mkRaw 0x8c h md d a 0 e (etyCode ty) 0 0)
  | .vexpApx h ty md d a e => some (mkRaw 0x80 h md d a 0 e (etyCode ty) 1 0)
  | .vexp2Apx h ty md d a e => some (mkRaw 0x81 h md d a 0 e (etyCode ty) 1 0)
  | .vexpm1Apx h ty md d a e => some (mkRaw 0x82 h md d a 0 e (etyCode ty) 1 0)
  | .vlogApx h ty md d a e => some (mkRaw 0x83 h md d a 0 e (etyCode ty) 1 0)
  | .vlog2Apx h ty md d a e => some (mkRaw 0x84 h md d a 0 e (etyCode ty) 1 0)
  | .vlog1pApx h ty md d a e => some (mkRaw 0x85 h md d a 0 e (etyCode ty) 1 0)
  | .vrcpApx h ty md d a e => some (mkRaw 0x86 h md d a 0 e (etyCode ty) 1 0)
  | .vsqrtApx h ty md d a e => some (mkRaw 0x87 h md d a 0 e (etyCode ty) 1 0)
  | .vrsqrtApx h ty md d a e => some (mkRaw 0x88 h md d a 0 e (etyCode ty) 1 0)
  | .vsinApx h ty md d a e => some (mkRaw 0x89 h md d a 0 e (etyCode ty) 1 0)
  | .vcosApx h ty md d a e => some (mkRaw 0x8a h md d a 0 e (etyCode ty) 1 0)
  | .vtanhApx h ty md d a e => some (mkRaw 0x8b h md d a 0 e (etyCode ty) 1 0)
  | .vlogisticApx h ty md d a e => some (mkRaw 0x8c h md d a 0 e (etyCode ty) 1 0)
  | .phase2Complete _ => none
  | .leaseAcq h imm => some (mkRaw 0x20 h 0 0 0 0 0 0 0 imm)
  | .leaseGrant _ => none
  | .leaseHandOver _ => none
  | .leaseRel h => some (mkRaw 0x21 h 0 0 0 0 0 0 0 0)
  | .leaseSt h d => some (mkRaw 0x22 h 0 d 0 0 0 0 0 0)
  | .odSetSp h d a b => some (mkRaw 0x28 h 0 d a b 0 0 0 0)
  | .odSetV h d a b => some (mkRaw 0x28 h 0 d a b 0 0 1 0)
  | .odSetM h d a b => some (mkRaw 0x28 h 0 d a b 0 0 2 0)
  | .mma h ty q kk d a b imm => some (mkRaw 0x30 h (qualMd q) d a b 0 (etyCode ty) kk.toNat imm)
  | .accZero h d => some (mkRaw 0x38 h 0 d 0 0 0 0 0 0)
  | .accSwap h d => some (mkRaw 0x39 h 0 d 0 0 0 0 0 0)
  | .accRd h d a imm => some (mkRaw 0x3a h 0 d a 0 0 0 0 imm)
  | .accFlag h d a => some (mkRaw 0x3b h 0 d a 0 0 0 0 0)
  | .hcp h d a imm => some (mkRaw 0x20 h 0 d a 0 0 0 0 imm)
  | .hgat h d a b imm => some (mkRaw 0x21 h 0 d a b 0 0 0 imm)
  | .hsct h d a b imm => some (mkRaw 0x22 h 0 d a b 0 0 0 imm)
  | .hmc h d a imm => some (mkRaw 0x23 h 0 d a 0 0 0 0 imm)
  | .hmcSig h d a imm => some (mkRaw 0x23 h 0 d a 0 0 0 1 imm)
  | .hmcPairArrival _ _ => none
  | .hlay h d a b e imm => some (mkRaw 0x24 h 0 d a b e 0 0 imm)
  | .hfill h d a b imm => some (mkRaw 0x25 h 0 d a b 0 0 0 imm)
  | .hpub h d a imm => some (mkRaw 0x26 h 0 d a 0 0 0 0 imm)
  | .cqInit h d a b => some (mkRaw 0x28 h 0 d a b 0 0 0 0)
  | .cqAck h d a => some (mkRaw 0x29 h 0 d a 0 0 0 0 0)
  | .commandComplete _ _ => none
  | .lodeAct h d a imm => some (mkRaw 0x30 h 0 d a 0 0 0 0 imm)
  | .lodeSacc h kk q d a b e imm => some (mkRaw 0x31 h (qualMd q) d a b e 0 kk.toNat imm)
  | .stampedStart _ _ => none
  | .lodePageRead _ _ => none
  | .lodeDrain h d a imm => some (mkRaw 0x32 h 0 d a 0 0 0 0 imm)
  | .lodeDrainRaw h d a imm => some (mkRaw 0x32 h 0 d a 0 0 0 1 imm)
  | .lodeIred h d a imm => some (mkRaw 0x33 h 0 d a 0 0 0 0 imm)
  | .lodeStat h d a imm => some (mkRaw 0x34 h 0 d a 0 0 0 0 imm)
  | .linkSend h d a e imm => some (mkRaw 0x38 h 0 d a 0 e 0 0 imm)
  | .linkRed h d a e imm => some (mkRaw 0x39 h 0 d a 0 e 0 0 imm)
  | .rdlOpen h d a b imm => some (mkRaw 0x40 h 0 d a b 0 0 0 imm)
  | .rdlMask h d a b imm => some (mkRaw 0x41 h 0 d a b 0 0 0 imm)
  | .rdlMaskM h d a b imm => some (mkRaw 0x41 h 0 d a b 0 0 1 imm)
  | .rdlStep h d b e imm => some (mkRaw 0x42 h 0 d 0 b e 0 0 imm)
  | .rdlFork h d b imm => some (mkRaw 0x43 h 0 d 0 b 0 0 0 imm)
  | .rdlKeep h d b imm => some (mkRaw 0x44 h 0 d 0 b 0 0 0 imm)
  | .rdlDrop h d b imm => some (mkRaw 0x45 h 0 d 0 b 0 0 0 imm)
  | .rdlSave h d a b imm => some (mkRaw 0x46 h 0 d a b 0 0 0 imm)
  | .rdlLoad h d a b imm => some (mkRaw 0x47 h 0 d a b 0 0 0 imm)
  | .asyBind h d a b imm => some (mkRaw 0x48 h 0 d a b 0 0 0 imm)
  | .asyRun h d a b imm => some (mkRaw 0x49 h 0 d a b 0 0 0 imm)
  | .asyStat h d a b imm => some (mkRaw 0x4a h 0 d a b 0 0 0 imm)
  | .asyHalt _ => none
  | .asyLdlog _ => none
  | .asyScl _ => none
  | .asySub _ => none
  | .asyExp => none
  | .asyDiv _ => none
  | .asyDivS _ _ _ => none
  | .asyTmax _ => none
  | .asyTsum _ => none
  | .asyMinp _ => none
  | .asyMask => none
  | .asySort => none
  | .asyScan => none
  | .asyTopp _ => none
  | .asyDraw _ _ _ => none
  | .asyPick _ _ => none
  | .asyVal _ _ => none
  | .asyValQ _ _ _ => none
  | .asyStp _ => none
  | .asyStop _ _ => none
  | .asyCommit _ => none
  | .asyAccept _ _ _ => none
  | .asyResid _ => none
  | .asyMov _ _ => none
  | .asyMovi _ _ => none
  | .asyAddF _ _ _ => none
  | .asyAddI _ _ _ => none
  | .asyMulF _ _ _ => none
  | .asyMulI _ _ _ => none
  | .asyBrAl _ => none
  | .asyBrZ _ _ => none
  | .asyBrNz _ _ => none
  | .asyStatRead _ _ => none
  | .sectionHeaderExamine _ _ => none
  | .steerTargetPop _ _ => none
  | .joinRendezvous _ _ => none
  | .retireForTile _ _ => none
  | .tokenDeadlock _ => none
  | .reserveRead _ _ => none
  | .commitWrite _ _ _ => none
  | .queueEnable _ _ => none
  | .queueDestroy _ _ _ => none
  | .registerWrite _ _ _ => none
  | .recordTake _ => none
  | .waitEvaluation _ => none
  | .walkerChoice => none
  | .recordComplete _ => none
  | .completionEntryWrite _ => none
  | .deadlineExpiry _ => none
  | .haltRequest _ => none
  | .haltComplete _ => none
  | .teamSave _ => none
  | .thermalMigration _ _ => none
  | .faultRecordWrite => none
  | .cacheEviction _ => none
  | .shoringSteal _ _ _ => none
  | .shoringRefresh _ _ _ _ _ _ => none
  | .bondSelfTest _ _ _ _ => none
  | .hostWrite _ _ _ => none
  | .hostRead _ _ _ => none
  | .hostAtomicop _ _ => none
  | .pageRequestResponse _ _ _ => none
  | .atsInvalidate _ _ _ => none
  | .sessionDoorbell _ _ => none
  | .ident _ => none
  | .health _ => none
  | .reloadq _ => none
  | .partset _ => none
  | .partget _ => none
  | .capset _ => none
  | .capget _ => none
  | .measure _ => none
  | .idkey _ => none
  | .quote _ => none
  | .config _ => none
  | .mrext _ => none
  | .fwupd _ => none
  | .fwstat _ => none
  | .restart _ => none
  | .flitWrite _ _ => none
  | .flitReadRequest _ _ => none
  | .flitReadData _ _ => none
  | .flitAtomic _ _ => none
  | .flitAtomicResult _ _ => none
  | .flitReduceData _ _ => none
  | .flitCompletion _ _ => none
  | .flitTick _ _ => none
  | .flitControl _ _ => none
  | .portDown _ => none
  | .tickFlitSend => none
  | .linkTrain _ _ _ => none
  | .tickAdvance => none
  | .governorStep _ _ => none
  | .powerGood => none
  | .powerLoss => none
  | .stageFEntry => none
  | .stageMEntry _ _ _ => none
  | .stageAEntry => none
  | .sessionOpen _ => none
  | .sessionRound _ => none
  | .sessionDraft _ _ => none
  | .sessionVerify _ _ => none
  | .sessionDecide _ => none
  | .sessionCommit _ => none
  | .outputEntryWrite _ => none
  | .sessionClose _ => none
  | .configSpaceWrite _ _ _ => none
  | .pcieCompletion _ _ => none
  | .completionTimeout _ => none
  | .shootdownTimeout _ => none

/-- The 96-bit word of an engine's operation. -/
def encode (i : Instr) : Option (BitVec 96) := (encodeRaw i).map packWord

/-! ## Assayer words -/

/-- The fields of an Assayer word: OP [31:26], D [25:22], A [21:18], B [17:14], IMM [13:0] (R270). -/
structure AsyRaw where
  op : BitVec 6 := 0
  d : BitVec 4 := 0
  a : BitVec 4 := 0
  b : BitVec 4 := 0
  imm : BitVec 14 := 0
  deriving DecidableEq, Repr, Inhabited

def packAsy (r : AsyRaw) : W32 := r.op ++ r.d ++ r.a ++ r.b ++ r.imm

def unpackAsy (w : W32) : AsyRaw :=
  { op := w.extractLsb' 26 6, d := w.extractLsb' 22 4, a := w.extractLsb' 18 4, b := w.extractLsb' 14 4, imm := w.extractLsb' 0 14 }

/-- The selectors `stat` accepts (R271). -/
def asyStatOk (s : BitVec 8) : Bool := decide (s.toNat ≤ 5) || (decide (0x40 ≤ s.toNat) && decide (s.toNat < 0x60))

/-- The operation that an Assayer word's opcode and variant name, whatever its unused fields hold (R271). -/
noncomputable def buildAsy (r : AsyRaw) : Option Instr :=
  match r.op.toNat with
  | 0x00 => some (.asyHalt r.imm)
  | 0x01 => some (.asyLdlog r.a)
  | 0x02 => some (.asyScl r.a)
  | 0x03 => some (.asySub r.a)
  | 0x04 => some (.asyExp)
  | 0x05 =>
    match r.imm.toNat with
    | 0 => some (.asyDiv r.a)
    | 1 => some (.asyDivS r.d r.a r.b)
    | _ => none
  | 0x06 => some (.asyTmax r.d)
  | 0x07 => some (.asyTsum r.d)
  | 0x08 => some (.asyMinp r.a)
  | 0x09 => some (.asyMask)
  | 0x0a => some (.asySort)
  | 0x0b => some (.asyScan)
  | 0x0c => some (.asyTopp r.a)
  | 0x0d => some (.asyDraw r.d r.a (r.imm.extractLsb' 0 2))
  | 0x0e => some (.asyPick r.d r.a)
  | 0x0f =>
    match r.imm.toNat with
    | 0 => some (.asyVal r.d r.a)
    | 1 => some (.asyValQ r.d r.a r.b)
    | _ => none
  | 0x10 => some (.asyStp r.a)
  | 0x11 => some (.asyStop r.d r.a)
  | 0x12 => some (.asyCommit r.a)
  | 0x13 => some (.asyAccept r.d r.a r.b)
  | 0x14 => some (.asyResid r.a)
  | 0x15 => some (.asyMov r.d r.a)
  | 0x16 => some (.asyMovi r.d r.imm)
  | 0x17 =>
    match r.imm.toNat with
    | 0 => some (.asyAddF r.d r.a r.b)
    | 1 => some (.asyAddI r.d r.a r.b)
    | _ => none
  | 0x18 =>
    match r.imm.toNat with
    | 0 => some (.asyMulF r.d r.a r.b)
    | 1 => some (.asyMulI r.d r.a r.b)
    | _ => none
  | 0x19 =>
    match (r.imm.extractLsb' 12 2).toNat with
    | 0 => some (.asyBrAl (r.imm.extractLsb' 0 12))
    | 1 => some (.asyBrZ r.a (r.imm.extractLsb' 0 12))
    | 2 => some (.asyBrNz r.a (r.imm.extractLsb' 0 12))
    | _ => none
  | 0x1a => some (.asyStatRead r.d (r.imm.extractLsb' 0 8))
  | _ => none

/-- The fields of an Assayer operation's word; an operation that is no Assayer word has none. -/
def encodeAsyRaw (i : Instr) : Option AsyRaw :=
  match i with
  | .nop _ => none
  | .rep _ _ => none
  | .movi _ _ _ => none
  | .moviHi _ _ _ => none
  | .mov _ _ _ => none
  | .add _ _ _ _ => none
  | .sub _ _ _ _ => none
  | .addi _ _ _ _ => none
  | .shl _ _ _ _ => none
  | .shr _ _ _ _ => none
  | .sar _ _ _ _ => none
  | .and _ _ _ _ => none
  | .or _ _ _ _ => none
  | .xor _ _ _ _ => none
  | .cmp _ _ _ _ _ => none
  | .sel _ _ _ _ _ => none
  | .tsend _ _ => none
  | .trecv _ _ => none
  | .pand _ _ _ _ => none
  | .por _ _ _ _ => none
  | .pxor _ _ _ _ => none
  | .pnot _ _ _ => none
  | .pmov _ _ _ => none
  | .mul _ _ _ _ _ => none
  | .mulh _ _ _ _ _ => none
  | .div _ _ _ _ _ => none
  | .rem _ _ _ _ _ => none
  | .min _ _ _ _ _ => none
  | .max _ _ _ _ _ => none
  | .clz _ _ _ => none
  | .popc _ _ _ => none
  | .bfx _ _ _ _ _ => none
  | .bfi _ _ _ _ _ _ => none
  | .ld _ _ _ _ _ _ => none
  | .st _ _ _ _ _ => none
  | .atomAdd _ _ _ _ _ _ _ => none
  | .atomAnd _ _ _ _ _ _ _ => none
  | .atomOr _ _ _ _ _ _ _ => none
  | .atomXor _ _ _ _ _ _ _ => none
  | .atomMin _ _ _ _ _ _ _ => none
  | .atomMax _ _ _ _ _ _ _ => none
  | .atomXchg _ _ _ _ _ _ _ => none
  | .atomCas _ _ _ _ _ _ _ => none
  | .atomIncb _ _ _ _ _ _ _ => none
  | .atomAddb _ _ _ _ _ _ _ => none
  | .atomCas128 _ _ _ _ _ _ _ => none
  | .br _ _ => none
  | .steer _ _ => none
  | .steerX _ _ => none
  | .call _ _ _ => none
  | .ret _ _ => none
  | .probe _ _ _ _ _ _ => none
  | .fni _ _ _ _ => none
  | .fnw _ _ => none
  | .fenceComplete _ => none
  | .phase _ _ => none
  | .barArr _ _ => none
  | .barWait _ _ => none
  | .waitw _ _ _ _ _ _ _ => none
  | .waitwPoll _ => none
  | .twait _ _ => none
  | .twaitExpiry _ => none
  | .tickRead _ _ => none
  | .npre _ => none
  | .epre _ => none
  | .nopreOverrun _ => none
  | .textsync _ _ _ => none
  | .signal _ _ _ _ _ => none
  | .signalAdd _ => none
  | .trap _ _ => none
  | .srd _ _ _ => none
  | .wsrd _ _ _ _ => none
  | .teamHalt _ _ _ => none
  | .teamKill _ _ _ => none
  | .teamHold _ _ _ => none
  | .teamResumeReexec _ _ _ => none
  | .teamResumeSkip _ _ _ => none
  | .qFlushFinish _ _ _ => none
  | .qFlushDiscard _ _ _ => none
  | .qResetContinue _ _ _ => none
  | .qResetRestart _ _ _ => none
  | .ctxSave _ _ _ _ _ => none
  | .ctxRest _ _ _ _ _ => none
  | .prd _ _ _ _ => none
  | .pwr _ _ _ _ _ => none
  | .lregCreate _ _ _ _ => none
  | .lregWrite _ _ _ => none
  | .lregSeal _ _ _ => none
  | .lregRemap _ _ _ => none
  | .lregDestroy _ _ _ => none
  | .htabMap _ _ _ _ => none
  | .htabUnmap _ _ _ => none
  | .htabShootdown _ _ _ => none
  | .htabBind _ _ _ => none
  | .fwinSet _ _ _ _ => none
  | .fwinClear _ _ _ => none
  | .fwinFlush _ _ _ => none
  | .vld _ _ _ _ _ _ _ => none
  | .vldSp _ _ _ _ _ _ _ => none
  | .vst _ _ _ _ _ _ => none
  | .vstSp _ _ _ _ _ _ => none
  | .vldr _ _ _ _ _ _ _ _ => none
  | .vstr _ _ _ _ _ _ => none
  | .vldx _ _ _ _ _ _ _ => none
  | .vmodeRd _ _ => none
  | .vmodeWr _ _ => none
  | .vflagsRd _ _ => none
  | .vflagsWr _ _ => none
  | .vadd _ _ _ _ _ _ _ => none
  | .vsub _ _ _ _ _ _ _ => none
  | .vmul _ _ _ _ _ _ _ => none
  | .vmin _ _ _ _ _ _ _ => none
  | .vmax _ _ _ _ _ _ _ => none
  | .vabs _ _ _ _ _ => none
  | .vneg _ _ _ _ _ => none
  | .vcmp _ _ _ _ _ _ _ => none
  | .vfma _ _ _ _ _ _ _ => none
  | .vfms _ _ _ _ _ _ _ => none
  | .vfnma _ _ _ _ _ _ _ => none
  | .vdiv _ _ _ _ _ _ _ => none
  | .vclass _ _ _ _ _ _ => none
  | .vrint _ _ _ _ _ _ => none
  | .vscale _ _ _ _ _ _ _ => none
  | .vmulh _ _ _ _ _ _ => none
  | .vshl _ _ _ _ _ _ => none
  | .vshr _ _ _ _ _ _ => none
  | .vsar _ _ _ _ _ _ => none
  | .vand _ _ _ _ _ _ => none
  | .vor _ _ _ _ _ _ => none
  | .vxor _ _ _ _ _ _ => none
  | .vnot _ _ _ _ _ => none
  | .vpopc _ _ _ _ _ => none
  | .vclz _ _ _ _ _ => none
  | .vdot4 _ _ _ _ _ _ _ => none
  | .vcvt _ _ _ _ _ _ _ => none
  | .vqntBlk _ _ _ _ _ _ => none
  | .vqntS _ _ _ _ _ _ _ => none
  | .vdqntBlk _ _ _ _ _ _ => none
  | .vdqntS _ _ _ _ _ _ _ => none
  | .vplanePk _ _ _ _ _ => none
  | .vplaneUn _ _ _ _ _ => none
  | .vrot _ _ _ _ _ _ _ => none
  | .vbcast _ _ _ _ _ _ _ => none
  | .vred _ _ _ _ _ _ _ _ => none
  | .vscan _ _ _ _ _ _ _ _ => none
  | .vsred _ _ _ _ _ _ _ => none
  | .kand _ _ _ _ => none
  | .kor _ _ _ _ => none
  | .kxor _ _ _ _ => none
  | .knot _ _ _ => none
  | .kpopc _ _ _ => none
  | .kffs _ _ _ => none
  | .krl _ _ _ _ _ => none
  | .kmov _ _ _ => none
  | .kmovSet _ _ => none
  | .kmovClr _ _ => none
  | .kmovFirst _ _ _ => none
  | .vext _ _ _ _ _ => none
  | .vins _ _ _ _ _ => none
  | .vmov _ _ _ _ _ => none
  | .vmovBc _ _ _ _ _ => none
  | .vsel _ _ _ _ _ _ => none
  | .vexp _ _ _ _ _ _ => none
  | .vexp2 _ _ _ _ _ _ => none
  | .vexpm1 _ _ _ _ _ _ => none
  | .vlog _ _ _ _ _ _ => none
  | .vlog2 _ _ _ _ _ _ => none
  | .vlog1p _ _ _ _ _ _ => none
  | .vrcp _ _ _ _ _ _ => none
  | .vsqrt _ _ _ _ _ _ => none
  | .vrsqrt _ _ _ _ _ _ => none
  | .vsin _ _ _ _ _ _ => none
  | .vcos _ _ _ _ _ _ => none
  | .vtanh _ _ _ _ _ _ => none
  | .vlogistic _ _ _ _ _ _ => none
  | .vexpApx _ _ _ _ _ _ => none
  | .vexp2Apx _ _ _ _ _ _ => none
  | .vexpm1Apx _ _ _ _ _ _ => none
  | .vlogApx _ _ _ _ _ _ => none
  | .vlog2Apx _ _ _ _ _ _ => none
  | .vlog1pApx _ _ _ _ _ _ => none
  | .vrcpApx _ _ _ _ _ _ => none
  | .vsqrtApx _ _ _ _ _ _ => none
  | .vrsqrtApx _ _ _ _ _ _ => none
  | .vsinApx _ _ _ _ _ _ => none
  | .vcosApx _ _ _ _ _ _ => none
  | .vtanhApx _ _ _ _ _ _ => none
  | .vlogisticApx _ _ _ _ _ _ => none
  | .phase2Complete _ => none
  | .leaseAcq _ _ => none
  | .leaseGrant _ => none
  | .leaseHandOver _ => none
  | .leaseRel _ => none
  | .leaseSt _ _ => none
  | .odSetSp _ _ _ _ => none
  | .odSetV _ _ _ _ => none
  | .odSetM _ _ _ _ => none
  | .mma _ _ _ _ _ _ _ _ => none
  | .accZero _ _ => none
  | .accSwap _ _ => none
  | .accRd _ _ _ _ => none
  | .accFlag _ _ _ => none
  | .hcp _ _ _ _ => none
  | .hgat _ _ _ _ _ => none
  | .hsct _ _ _ _ _ => none
  | .hmc _ _ _ _ => none
  | .hmcSig _ _ _ _ => none
  | .hmcPairArrival _ _ => none
  | .hlay _ _ _ _ _ _ => none
  | .hfill _ _ _ _ _ => none
  | .hpub _ _ _ _ => none
  | .cqInit _ _ _ _ => none
  | .cqAck _ _ _ => none
  | .commandComplete _ _ => none
  | .lodeAct _ _ _ _ => none
  | .lodeSacc _ _ _ _ _ _ _ _ => none
  | .stampedStart _ _ => none
  | .lodePageRead _ _ => none
  | .lodeDrain _ _ _ _ => none
  | .lodeDrainRaw _ _ _ _ => none
  | .lodeIred _ _ _ _ => none
  | .lodeStat _ _ _ _ => none
  | .linkSend _ _ _ _ _ => none
  | .linkRed _ _ _ _ _ => none
  | .rdlOpen _ _ _ _ _ => none
  | .rdlMask _ _ _ _ _ => none
  | .rdlMaskM _ _ _ _ _ => none
  | .rdlStep _ _ _ _ _ => none
  | .rdlFork _ _ _ _ => none
  | .rdlKeep _ _ _ _ => none
  | .rdlDrop _ _ _ _ => none
  | .rdlSave _ _ _ _ _ => none
  | .rdlLoad _ _ _ _ _ => none
  | .asyBind _ _ _ _ _ => none
  | .asyRun _ _ _ _ _ => none
  | .asyStat _ _ _ _ _ => none
  | .asyHalt i14 => some { op := 0x00, d := 0, a := 0, b := 0, imm := i14 }
  | .asyLdlog a => some { op := 0x01, d := 0, a := a, b := 0, imm := 0 }
  | .asyScl a => some { op := 0x02, d := 0, a := a, b := 0, imm := 0 }
  | .asySub a => some { op := 0x03, d := 0, a := a, b := 0, imm := 0 }
  | .asyExp => some { op := 0x04, d := 0, a := 0, b := 0, imm := 0 }
  | .asyDiv a => some { op := 0x05, d := 0, a := a, b := 0, imm := 0 }
  | .asyDivS d a b => some { op := 0x05, d := d, a := a, b := b, imm := 1 }
  | .asyTmax d => some { op := 0x06, d := d, a := 0, b := 0, imm := 0 }
  | .asyTsum d => some { op := 0x07, d := d, a := 0, b := 0, imm := 0 }
  | .asyMinp a => some { op := 0x08, d := 0, a := a, b := 0, imm := 0 }
  | .asyMask => some { op := 0x09, d := 0, a := 0, b := 0, imm := 0 }
  | .asySort => some { op := 0x0a, d := 0, a := 0, b := 0, imm := 0 }
  | .asyScan => some { op := 0x0b, d := 0, a := 0, b := 0, imm := 0 }
  | .asyTopp a => some { op := 0x0c, d := 0, a := a, b := 0, imm := 0 }
  | .asyDraw d a p2 => some { op := 0x0d, d := d, a := a, b := 0, imm := (BitVec.zeroExtend 14 p2) }
  | .asyPick d a => some { op := 0x0e, d := d, a := a, b := 0, imm := 0 }
  | .asyVal d a => some { op := 0x0f, d := d, a := a, b := 0, imm := 0 }
  | .asyValQ d a b => some { op := 0x0f, d := d, a := a, b := b, imm := 1 }
  | .asyStp a => some { op := 0x10, d := 0, a := a, b := 0, imm := 0 }
  | .asyStop d a => some { op := 0x11, d := d, a := a, b := 0, imm := 0 }
  | .asyCommit a => some { op := 0x12, d := 0, a := a, b := 0, imm := 0 }
  | .asyAccept d a b => some { op := 0x13, d := d, a := a, b := b, imm := 0 }
  | .asyResid a => some { op := 0x14, d := 0, a := a, b := 0, imm := 0 }
  | .asyMov d a => some { op := 0x15, d := d, a := a, b := 0, imm := 0 }
  | .asyMovi d i14 => some { op := 0x16, d := d, a := 0, b := 0, imm := i14 }
  | .asyAddF d a b => some { op := 0x17, d := d, a := a, b := b, imm := 0 }
  | .asyAddI d a b => some { op := 0x17, d := d, a := a, b := b, imm := 1 }
  | .asyMulF d a b => some { op := 0x18, d := d, a := a, b := b, imm := 0 }
  | .asyMulI d a b => some { op := 0x18, d := d, a := a, b := b, imm := 1 }
  | .asyBrAl s12 => some { op := 0x19, d := 0, a := 0, b := 0, imm := (BitVec.ofNat 14 0 ||| BitVec.zeroExtend 14 s12) }
  | .asyBrZ a s12 => some { op := 0x19, d := 0, a := a, b := 0, imm := (BitVec.ofNat 14 4096 ||| BitVec.zeroExtend 14 s12) }
  | .asyBrNz a s12 => some { op := 0x19, d := 0, a := a, b := 0, imm := (BitVec.ofNat 14 8192 ||| BitVec.zeroExtend 14 s12) }
  | .asyStatRead d s8 => some { op := 0x1a, d := d, a := 0, b := 0, imm := (BitVec.zeroExtend 14 s8) }
  | .sectionHeaderExamine _ _ => none
  | .steerTargetPop _ _ => none
  | .joinRendezvous _ _ => none
  | .retireForTile _ _ => none
  | .tokenDeadlock _ => none
  | .reserveRead _ _ => none
  | .commitWrite _ _ _ => none
  | .queueEnable _ _ => none
  | .queueDestroy _ _ _ => none
  | .registerWrite _ _ _ => none
  | .recordTake _ => none
  | .waitEvaluation _ => none
  | .walkerChoice => none
  | .recordComplete _ => none
  | .completionEntryWrite _ => none
  | .deadlineExpiry _ => none
  | .haltRequest _ => none
  | .haltComplete _ => none
  | .teamSave _ => none
  | .thermalMigration _ _ => none
  | .faultRecordWrite => none
  | .cacheEviction _ => none
  | .shoringSteal _ _ _ => none
  | .shoringRefresh _ _ _ _ _ _ => none
  | .bondSelfTest _ _ _ _ => none
  | .hostWrite _ _ _ => none
  | .hostRead _ _ _ => none
  | .hostAtomicop _ _ => none
  | .pageRequestResponse _ _ _ => none
  | .atsInvalidate _ _ _ => none
  | .sessionDoorbell _ _ => none
  | .ident _ => none
  | .health _ => none
  | .reloadq _ => none
  | .partset _ => none
  | .partget _ => none
  | .capset _ => none
  | .capget _ => none
  | .measure _ => none
  | .idkey _ => none
  | .quote _ => none
  | .config _ => none
  | .mrext _ => none
  | .fwupd _ => none
  | .fwstat _ => none
  | .restart _ => none
  | .flitWrite _ _ => none
  | .flitReadRequest _ _ => none
  | .flitReadData _ _ => none
  | .flitAtomic _ _ => none
  | .flitAtomicResult _ _ => none
  | .flitReduceData _ _ => none
  | .flitCompletion _ _ => none
  | .flitTick _ _ => none
  | .flitControl _ _ => none
  | .portDown _ => none
  | .tickFlitSend => none
  | .linkTrain _ _ _ => none
  | .tickAdvance => none
  | .governorStep _ _ => none
  | .powerGood => none
  | .powerLoss => none
  | .stageFEntry => none
  | .stageMEntry _ _ _ => none
  | .stageAEntry => none
  | .sessionOpen _ => none
  | .sessionRound _ => none
  | .sessionDraft _ _ => none
  | .sessionVerify _ _ => none
  | .sessionDecide _ => none
  | .sessionCommit _ => none
  | .outputEntryWrite _ => none
  | .sessionClose _ => none
  | .configSpaceWrite _ _ _ => none
  | .pcieCompletion _ _ => none
  | .completionTimeout _ => none
  | .shootdownTimeout _ => none

/-- The 32-bit word of an Assayer operation. -/
def encodeAsy (i : Instr) : Option W32 := (encodeAsyRaw i).map packAsy

/-- Unused fields are 0, the variant is defined and a `stat` names a selector that R271 gives (R270, R271). -/
def asyWordOk (r : AsyRaw) : Bool :=
  let i0 := r.imm == 0
  let i1 := decide (r.imm.toNat ≤ 1)
  let br := (r.imm.extractLsb' 12 2).toNat
  match r.op.toNat with
  | 0x00 => r.d == 0 && r.a == 0 && r.b == 0
  | 0x01 | 0x02 | 0x03 | 0x08 | 0x0C | 0x10 | 0x12 | 0x14 => r.d == 0 && r.b == 0 && i0
  | 0x04 | 0x09 | 0x0A | 0x0B => r.d == 0 && r.a == 0 && r.b == 0 && i0
  | 0x05 => if i0 then r.d == 0 && r.b == 0 else i1
  | 0x06 | 0x07 => r.a == 0 && r.b == 0 && i0
  | 0x0D => r.b == 0 && decide (r.imm.toNat < 4)
  | 0x0E | 0x11 | 0x15 => r.b == 0 && i0
  | 0x0F => if i0 then r.b == 0 else i1
  | 0x13 => i0
  | 0x16 => r.a == 0 && r.b == 0
  | 0x17 | 0x18 => i1
  | 0x19 => r.d == 0 && r.b == 0 && decide (br ≤ 2) && (decide (br ≠ 0) || r.a == 0)
  | 0x1A => r.a == 0 && r.b == 0 && decide (r.imm.toNat < 256) && asyStatOk (r.imm.extractLsb' 0 8)
  | _ => false

/-- Decodes an Assayer word: an unassigned opcode, a reserved variant, a non-zero unused field or a selector that
`stat` does not define is no operation, and a run ends there with ASYILL (R270, R271). The inductive has more
constructors than Lean's compiled objects have tags, so this function is for the kernel; a run dispatches on the fields. -/
noncomputable def decodeAsy (w : W32) : Option Instr :=
  if asyWordOk (unpackAsy w) then buildAsy (unpackAsy w) else none

/-- The instruction that the decoder reads from the bits `w` of a table row of `nbits` bits: a row of at most 32 bits is
an Assayer word; a longer one is an engine word, read in the first of the maps C, V, M and H that accepts it. -/
noncomputable def decodeTableWord (nbits w : Nat) : Option Instr :=
  if nbits ≤ 32 then decodeAsy (BitVec.ofNat 32 w)
  else
    match decode .c (BitVec.ofNat 96 w), decode .v (BitVec.ofNat 96 w), decode .m (BitVec.ofNat 96 w),
        decode .h (BitVec.ofNat 96 w) with
    | .ok i, _, _, _ => some i
    | _, .ok i, _, _ => some i
    | _, _, .ok i, _ => some i
    | _, _, _, .ok i => some i
    | _, _, _, _ => none

end Sys2Proof
end

