-- ==== Sys2Proof/Machine/Fp.lean ====
section
/-! DEFINITION. Floating-point formats, exact values, rounding and flags, arithmetic (R46–R51, R55, R56, R58, R60, R61). -/

namespace Sys2Proof.Machine

/-- A floating-point format: significant bits, fraction bits, exponent bits (R48). -/
structure Fmt where
  p : Nat
  ebits : Nat
  deriving DecidableEq, Repr

def fmt32 : Fmt := { p := 24, ebits := 8 }
def fmtBf : Fmt := { p := 8, ebits := 8 }
def fmt16 : Fmt := { p := 11, ebits := 5 }

/-- The format of an FP type. -/
def fmtOf : ETy → Fmt
  | .bf16 => fmtBf
  | .fp16 => fmt16
  | _ => fmt32

def fmtBias (f : Fmt) : Int := 2 ^ (f.ebits - 1) - 1
def fmtEmin (f : Fmt) : Int := 1 - fmtBias f
def fmtEmax (f : Fmt) : Int := fmtBias f
def fmtFbits (f : Fmt) : Nat := f.p - 1
def fmtSignBit (f : Fmt) : Nat := 2 ^ (f.ebits + fmtFbits f)
/-- +∞, the largest finite magnitude and the canonical NaN (R48, R49). -/
def fmtInf (f : Fmt) : Nat := (2 ^ f.ebits - 1) * 2 ^ fmtFbits f
def fmtMax (f : Fmt) : Nat := fmtInf f - 1
def fmtNan (f : Fmt) : Nat := fmtInf f + 2 ^ (fmtFbits f - 1)

def withSign (f : Fmt) (neg : Bool) (mag : Nat) : Nat := if neg then fmtSignBit f + mag else mag

/-- The flags of VFLAGS (R58). -/
def flInvalid : Nat := 1
def flDivzero : Nat := 2
def flOverflow : Nat := 4
def flUnderflow : Nat := 8
def flInexact : Nat := 16
def flPolicy : Nat := 32

/-- The five rounding modes (R55). -/
inductive RMode where
  | rne | rna | rtz | rup | rdn
  deriving DecidableEq, Repr, Inhabited

def rmodeOf (n : Nat) : RMode :=
  match n with | 1 => .rna | 2 => .rtz | 3 => .rup | 4 => .rdn | _ => .rne

/-- A result and the flags it raises. -/
structure FpRes where
  bits : Nat
  flags : Nat := 0
  deriving DecidableEq, Repr, Inhabited

/-- What a bit pattern stands for: a NaN, an infinity, or (−1)^neg × m × 2^e (R48, R49). -/
inductive FpVal where
  | nan (signalling : Bool)
  | inf (neg : Bool)
  | fin (neg : Bool) (m : Nat) (e : Int)
  deriving DecidableEq, Repr, Inhabited

def fpDecode (f : Fmt) (x : Nat) : FpVal :=
  let frac := x % 2 ^ fmtFbits f
  let ex := x / 2 ^ fmtFbits f % 2 ^ f.ebits
  let neg := decide (x / fmtSignBit f % 2 = 1)
  if ex = 2 ^ f.ebits - 1 then
    if frac = 0 then .inf neg else .nan (decide (frac < 2 ^ (fmtFbits f - 1)))
  else if ex = 0 then .fin neg frac (fmtEmin f - fmtFbits f)
  else .fin neg (2 ^ fmtFbits f + frac) ((ex : Int) - fmtBias f - fmtFbits f)

/-- A magnitude (m + δ) × 2^e with δ = 0, or 0 < δ < 1 where `st`, rounded to a multiple of 2^q: the multiple and
whether it differs (R55, R56). -/
def roundTo (mode : RMode) (neg : Bool) (m : Nat) (e : Int) (st : Bool) (q : Int) : Nat × Bool :=
  if q ≤ e then (m * 2 ^ (e - q).toNat, st)
  else
    let sh := (q - e).toNat
    let n := m / 2 ^ sh
    let rem := m % 2 ^ sh
    let half := 2 ^ (sh - 1)
    let inexact := st || rem != 0
    let up := match mode with
      | .rne => decide (half < rem) || (rem == half && (st || n % 2 == 1))
      | .rna => decide (half ≤ rem)
      | .rtz => false
      | .rup => inexact && !neg
      | .rdn => inexact && neg
    (if up then n + 1 else n, inexact)

/-- What an overflow gives in arithmetic that keeps its format (R56). -/
def overflowMag (f : Fmt) (mode : RMode) (neg : Bool) : Nat :=
  match mode with
  | .rne | .rna => fmtInf f
  | .rtz => fmtMax f
  | .rup => if neg then fmtMax f else fmtInf f
  | .rdn => if neg then fmtInf f else fmtMax f

/-- `round` of a non-zero magnitude to `pr` significant bits in the range of `f`, with its flags (R56, R58, R74). -/
def roundGen (f : Fmt) (pr : Nat) (mode : RMode) (neg : Bool) (m : Nat) (e : Int) (st : Bool) : FpRes :=
  let top : Int := (Nat.log2 m : Int) + e
  let qu := top - (pr - 1 : Nat)
  let q := max top (fmtEmin f) - (pr - 1 : Nat)
  let (n, inexact) := roundTo mode neg m e st q
  let (nu, _) := roundTo mode neg m e st qu
  let ovf := decide ((2 : Nat) ^ pr ≤ n) && decide (fmtEmax f < q + pr) || decide (fmtEmax f < q + (pr - 1 : Nat))
  let unf := inexact && (decide (qu + (pr - 1 : Nat) < fmtEmin f) && !(decide (qu + (pr : Nat) = fmtEmin f) && nu == 2 ^ pr))
  if ovf then
    { bits := withSign f neg (overflowMag f mode neg), flags := flOverflow + flInexact }
  else
    let k := f.p - pr
    { bits := withSign f neg ((q - k - (fmtEmin f - fmtFbits f)).toNat * 2 ^ fmtFbits f + n * 2 ^ k),
      flags := (if inexact then flInexact else 0) + (if unf then flUnderflow else 0) }

/-- `round(x, fmt, mode)` of a non-zero magnitude (R56). -/
def roundFin (f : Fmt) (mode : RMode) (neg : Bool) (m : Nat) (e : Int) (st : Bool) : FpRes :=
  roundGen f f.p mode neg m e st

/-- An exact zero sum is +0 in every mode but RDN, where it is −0 (R56). -/
def zeroSum (f : Fmt) (mode : RMode) : FpRes := { bits := withSign f (mode == .rdn) 0 }

def fpNan (f : Fmt) (flags : Nat := 0) : FpRes := { bits := fmtNan f, flags := flags }

/-- The canonical NaN with INVALID when an operand is a signalling NaN (R49). -/
def nanOf (f : Fmt) (vs : List FpVal) : FpRes := fpNan f (if vs.any (fun v => v == .nan true) then flInvalid else 0)

def isNan : FpVal → Bool | .nan _ => true | _ => false
def fpNeg : FpVal → FpVal
  | .nan s => .nan s | .inf n => .inf (!n) | .fin n m e => .fin (!n) m e
def signOf : FpVal → Bool
  | .nan _ => false | .inf n => n | .fin n _ _ => n

/-- The exact integer multiple of 2^e that a finite value is, for e at most its own exponent. -/
def finInt (neg : Bool) (m : Nat) (e base : Int) : Int :=
  let x : Int := (m * 2 ^ (e - base).toNat : Nat)
  if neg then -x else x

/-- The rounded sum of two exact values (R56, R186). -/
def addVal (f : Fmt) (mode : RMode) (a b : FpVal) : FpRes :=
  match a, b with
  | .nan _, _ | _, .nan _ => nanOf f [a, b]
  | .inf na, .inf nb => if na = nb then { bits := withSign f na (fmtInf f) } else fpNan f flInvalid
  | .inf na, _ => { bits := withSign f na (fmtInf f) }
  | _, .inf nb => { bits := withSign f nb (fmtInf f) }
  | .fin na ma ea, .fin nb mb eb =>
    if ma = 0 ∧ mb = 0 ∧ na = nb then { bits := withSign f na 0 }
    else
      let base := min ea eb
      let s := finInt na ma ea base + finInt nb mb eb base
      if s = 0 then zeroSum f mode else roundFin f mode (decide (s < 0)) s.natAbs base false

/-- The exact product of two values; a NaN for an invalid product. -/
def mulExact (a b : FpVal) : FpVal :=
  match a, b with
  | .nan s, .nan t => .nan (s || t)
  | .nan s, _ => .nan s
  | _, .nan s => .nan s
  | .inf na, .inf nb => .inf (na != nb)
  | .inf na, .fin nb m _ => if m = 0 then .nan true else .inf (na != nb)
  | .fin na m _, .inf nb => if m = 0 then .nan true else .inf (na != nb)
  | .fin na ma ea, .fin nb mb eb => .fin (na != nb) (ma * mb) (ea + eb)

/-- The rounded value of an exact one. -/
def roundVal (f : Fmt) (mode : RMode) (a : FpVal) : FpRes :=
  match a with
  | .nan s => fpNan f (if s then flInvalid else 0)
  | .inf n => { bits := withSign f n (fmtInf f) }
  | .fin n m e => if m = 0 then { bits := withSign f n 0 } else roundFin f mode n m e false

def mulVal (f : Fmt) (mode : RMode) (a b : FpVal) : FpRes :=
  if isNan a || isNan b then nanOf f [a, b] else roundVal f mode (mulExact a b)

/-- a × b + c with one rounding; 0 × ∞ is invalid whatever c holds (R186). -/
def fmaVal (f : Fmt) (mode : RMode) (a b c : FpVal) : FpRes :=
  let p := mulExact a b
  if isNan p && !isNan a && !isNan b then fpNan f flInvalid
  else if isNan a || isNan b || isNan c then nanOf f [a, b, c]
  else addVal f mode p c

/-- a ÷ b (R186). -/
def divVal (f : Fmt) (mode : RMode) (a b : FpVal) : FpRes :=
  let neg := signOf a != signOf b
  match a, b with
  | .nan _, _ | _, .nan _ => nanOf f [a, b]
  | .inf _, .inf _ => fpNan f flInvalid
  | .inf _, .fin .. => { bits := withSign f neg (fmtInf f) }
  | .fin .., .inf _ => { bits := withSign f neg 0 }
  | .fin _ ma ea, .fin _ mb eb =>
    if mb = 0 then
      if ma = 0 then fpNan f flInvalid else { bits := withSign f neg (fmtInf f), flags := flDivzero }
    else if ma = 0 then { bits := withSign f neg 0 }
    else
      let k := f.p + 4 + Nat.log2 mb
      roundFin f mode neg (ma * 2 ^ k / mb) (ea - eb - k) (ma * 2 ^ k % mb != 0)

/-- The order of two numbers, −0 below +0 where `zeros` (R67), equal otherwise. -/
def ltVal (zeros : Bool) (a b : FpVal) : Bool :=
  match a, b with
  | .nan _, _ | _, .nan _ => false
  | .inf na, .inf nb => na && !nb
  | .inf na, .fin .. => na
  | .fin .., .inf nb => !nb
  | .fin na ma ea, .fin nb mb eb =>
    if ma = 0 ∧ mb = 0 then zeros && na && !nb
    else
      let base := min ea eb
      decide (finInt na ma ea base < finInt nb mb eb base)

def eqVal (a b : FpVal) : Bool := !isNan a && !isNan b && !ltVal false a b && !ltVal false b a

/-- Smaller or larger under R67, on bit patterns: a NaN operand gives the canonical NaN. -/
def minMax (f : Fmt) (larger : Bool) (x y : Nat) : FpRes :=
  let a := fpDecode f x
  let b := fpDecode f y
  if isNan a || isNan b then nanOf f [a, b]
  else if larger then { bits := if ltVal true a b then y else x }
  else { bits := if ltVal true b a then y else x }

/-- A finite value rounded to an integer in a mode: the magnitude and whether it differs. -/
def rintMag (mode : RMode) (neg : Bool) (m : Nat) (e : Int) (st : Bool) : Nat × Bool := roundTo mode neg m e st 0

/-- `vrint` (R190). -/
def rintVal (f : Fmt) (mode : RMode) (x : Nat) : FpRes :=
  match fpDecode f x with
  | .nan s => fpNan f (if s then flInvalid else 0)
  | .inf n => { bits := withSign f n (fmtInf f) }
  | .fin n m e =>
    let (k, inexact) := rintMag mode n m e false
    if k = 0 then { bits := withSign f n 0, flags := if inexact then flInexact else 0 }
    else { bits := (roundFin f mode n k 0 false).bits, flags := if inexact then flInexact else 0 }

/-- a × 2^n with one rounding (R190). -/
def scaleVal (f : Fmt) (mode : RMode) (x : Nat) (n : Int) : FpRes :=
  match fpDecode f x with
  | .fin s m e => roundVal f mode (.fin s m (e + n))
  | v => roundVal f mode v

/-- The class bit of `vclass` (R189). -/
def classBit (f : Fmt) (x : Nat) : Nat :=
  match fpDecode f x with
  | .nan true => 1
  | .nan false => 2
  | .inf true => 4
  | .inf false => 512
  | .fin n m _ =>
    let normal := decide (2 ^ fmtFbits f ≤ m)
    if m = 0 then (if n then 32 else 64)
    else if n then (if normal then 8 else 16)
    else (if normal then 256 else 128)

/-! ## Conversions and the overflow policy (R60, R61) -/

/-- The overflow policies (R60). -/
inductive Policy where
  | sat | inf | nan | trap
  deriving DecidableEq, Repr, Inhabited

def policyOf (n : Nat) : Policy :=
  match n with | 1 => .inf | 2 => .nan | 3 => .trap | _ => .sat

/-- The result of one converted value: bits and flags, or a trap (R60–R62). -/
inductive ConvRes where
  | ok (r : FpRes)
  | trap
  deriving DecidableEq, Repr, Inhabited

/-- Out of range with an FP target (R60). -/
def policyFp (f : Fmt) (pol : Policy) (neg fromInf : Bool) : ConvRes :=
  match pol with
  | .sat => .ok { bits := withSign f neg (fmtMax f), flags := flInexact + flPolicy }
  | .inf => .ok { bits := withSign f neg (fmtInf f),
                  flags := if fromInf then flPolicy else flOverflow + flInexact + flPolicy }
  | .nan => .ok (fpNan f (flInvalid + flPolicy))
  | .trap => .trap

/-- Out of range with an integer or NBI target of range lo to hi, as two's complement of `w` bits (R60). -/
def policyInt (w : Nat) (lo hi : Int) (pol : Policy) (neg : Bool) : ConvRes :=
  let sat := (((if neg then lo else hi) % (2 ^ w : Nat) + (2 ^ w : Nat)) % (2 ^ w : Nat)).toNat
  match pol with
  | .sat => .ok { bits := sat, flags := flInexact + flPolicy }
  | .inf => .ok { bits := sat, flags := flOverflow + flInexact + flPolicy }
  | .nan => .ok { bits := 0, flags := flInvalid + flPolicy }
  | .trap => .trap

/-- Whether a conversion is a down-conversion with an FP target (R60). -/
def downFp (ts tt : ETy) : Bool :=
  match ts, tt with
  | .fp32, .bf16 | .fp32, .fp16 | .bf16, .fp16 => true
  | .i32, .fp16 | .n32, .fp16 | .n16, .fp16 => true
  | _, _ => false

/-- Two's complement of `w` bits. -/
def toTwos (w : Nat) (x : Int) : Nat := (x % (2 ^ w : Nat)).toNat

/-- The signed or unsigned value of `w` bits. -/
def ofTwos (w : Nat) (signed : Bool) (x : Nat) : Int :=
  if signed && decide (2 ^ (w - 1) ≤ x) then (x : Int) - (2 ^ w : Nat) else x

def etySigned : ETy → Bool
  | .i8 | .i16 | .i32 | .i64 | .nbi => true
  | _ => false

def etyIsFp : ETy → Bool
  | .fp32 | .bf16 | .fp16 => true
  | _ => false

/-- The least and greatest values of an integer type; NBI targets range from −127 to 127 (R60, R194). -/
def etyRange : ETy → Int × Int
  | .nbi => (-127, 127)
  | t => if etySigned t then (-(2 ^ (etyBits t - 1) : Nat), (2 ^ (etyBits t - 1) : Nat) - 1) else (0, (2 ^ etyBits t : Nat) - 1)

/-- The exact value of a lane of a source type (R194). -/
def laneVal (t : ETy) (x : Nat) : FpVal :=
  if etyIsFp t then fpDecode (fmtOf t) x
  else
    let v := ofTwos (etyBits t) (etySigned t) x
    .fin (decide (v < 0)) v.natAbs 0

/-- One value converted from `ts` to `tt` (R195). -/
def convert (ts tt : ETy) (mode : RMode) (pol : Policy) (x : Nat) : ConvRes :=
  let v := laneVal ts x
  if etyIsFp tt then
    let f := fmtOf tt
    let down := downFp ts tt
    match v with
    | .nan s => if down && pol == .trap then .trap else .ok (fpNan f (if s then flInvalid else 0))
    | .inf n => if down then policyFp f pol n true else .ok { bits := withSign f n (fmtInf f) }
    | .fin n m e =>
      if m = 0 then .ok { bits := withSign f n 0 }
      else
        let r := roundFin f mode n m e false
        if down && r.flags / flOverflow % 2 == 1 then policyFp f pol n false else .ok r
  else
    let w := etyBits tt
    let (lo, hi) := etyRange tt
    match v with
    | .nan _ => if pol = .trap then .trap else .ok { bits := 0, flags := flInvalid }
    | .inf n => policyInt w lo hi pol n
    | .fin n m e =>
      let (k, inexact) := rintMag mode n m e false
      let i : Int := if n then -(k : Int) else k
      if i < lo ∨ hi < i then policyInt w lo hi pol n
      else .ok { bits := toTwos w i, flags := if inexact then flInexact else 0 }

end Sys2Proof.Machine
end

