-- ==== Sys2Proof/Config.lean ====
section
/-! DEFINITION. What an implementation or the world outside fixes and the spec leaves open: constants with no body, so
that no proof can see a value of them (log entries 1, 10, 13). -/

namespace Sys2Proof.Config

/-- FREE VALUE: the turn taken when the plan of turns is empty, by the count of free values drawn (log entry 1). -/
opaque freeTurn : Nat → Turn

/-- FREE VALUE: a choice the spec leaves to the implementation, such as an L1 hit or the use of a cached
translation (R87, R365), by the count of free values drawn (log entry 1). -/
opaque freeBit : Nat → Bool

/-- FREE VALUE: a 64-bit value the spec does not state, by the count of free values drawn (log entry 1). -/
opaque freeWord : Nat → Word

/-- Whether an element goes to a phase-2 unit: a fixed function of the function's opcode, the type, the variant, the
effective rounding mode and the element's bits (R208). -/
opaque phase2 : Nat → ETy → Bool → Nat → W32 → Bool

/-- The device serial that IDENT reads (R394). -/
opaque deviceSerial : Word

/-- The number that the device identity key's private half comes from (R407). -/
opaque identitySecret : Nat

/-- FREE VALUE: the number that an SM2 signature of a quote takes, by the count of free values drawn (R408). -/
opaque signNumber : Nat → Nat

/-- The number that Sahten's firmware key, whose public half is held in ROM, comes from (R409). -/
opaque firmwareKey : Nat

/-- The user identifier of the signatures of firmware images (R409). -/
opaque firmwareUser : List (BitVec 8)

/-- FREE VALUE: a byte of text that lies on another module, by the number of the fetch and its location (R114). -/
opaque peerText : Nat → Nat → BitVec 8

/-- The digest of the security controller's own firmware, which extends MR0 (R406). -/
opaque controllerDigest : BitVec 256

/-- The mean power in watts that CAPGET reads, by tick (R407). -/
opaque meanPower : Nat → Word

/-- The block that the Lode controller chooses for page `n` of a region (R378). -/
opaque placeBlock : Nat → Nat → Nat

/-- The plane group, modulo 8, that repair group `grp` of an array die's bus serves (R386). -/
opaque bondPlaneGroup : Nat → Nat → Nat

/-- FREE VALUE: the name, as a number of a context's handle, of the handle of some partition that a handle of the privileged
table maps where it is none of the Foreman's own (R304). -/
opaque privName : Nat → Nat

/-- FREE VALUE: which part of the Foreman pair store the generation loop keeps its run descriptor and result block in (R289). -/
opaque loopArea : Nat

/-- The number that the handle of the context area comes from, which the Foreman image sets at Stage M (R323). -/
opaque ctxHandle : Nat

/-- The number that the handle of the queue register page in the privileged table comes from (R334). -/
opaque queueHandle : Nat

end Sys2Proof.Config
end

