-- ==== Sys2Proof/Machine/SMap.lean ====
section
/-! DEFINITION. Sparse maps: lists of key and value in one canonical form, keys strictly rising and no entry equal to
what an unlisted key reads as. Memory, register files and tables are such maps. -/

namespace Sys2Proof.Machine

/-- A sparse map from numbers. `SMap Byte` is a list of `Host.Cell`. -/
abbrev SMap (α : Type) := List (Nat × α)

/-- What key `k` reads as; an unlisted key reads as `d`. -/
def SMap.get {α : Type} (d : α) : SMap α → Nat → α
  | [], _ => d
  | (j, v) :: r, k => if j = k then v else SMap.get d r k

/-- The map without key `k`. -/
def SMap.del {α : Type} (m : SMap α) (k : Nat) : SMap α := m.filter (fun p => p.1 != k)

/-- The map with `k` listed as `v`. -/
def SMap.put {α : Type} : SMap α → Nat → α → SMap α
  | [], k, v => [(k, v)]
  | (j, w) :: r, k, v => if j = k then (k, v) :: r else if k < j then (k, v) :: (j, w) :: r else (j, w) :: SMap.put r k v

/-- The map in which `k` reads as `v`, in canonical form for default `d`. -/
def SMap.set {α : Type} [DecidableEq α] (d : α) (m : SMap α) (k : Nat) (v : α) : SMap α :=
  if v = d then m.del k else m.put k v

/-- The map whose keys below `n` read as `f` gives, from key `i` on. -/
def SMap.tabAux {α : Type} [DecidableEq α] (d : α) (f : Nat → α) : Nat → Nat → SMap α
  | 0, _ => []
  | n + 1, i => if f i = d then SMap.tabAux d f n (i + 1) else (i, f i) :: SMap.tabAux d f n (i + 1)

/-- The map whose keys below `n` read as `f` gives and all others as `d`. -/
def SMap.tab {α : Type} [DecidableEq α] (d : α) (n : Nat) (f : Nat → α) : SMap α := SMap.tabAux d f n 0

/-- The canonical form: keys strictly rising from `lo` on, no entry equal to the default. -/
def SMap.wfFrom {α : Type} [DecidableEq α] (d : α) : Nat → SMap α → Bool
  | _, [] => true
  | lo, (j, v) :: r => decide (lo ≤ j) && !decide (v = d) && SMap.wfFrom d (j + 1) r

def SMap.wf {α : Type} [DecidableEq α] (d : α) (m : SMap α) : Bool := SMap.wfFrom d 0 m

/-- Several keys set in list order. -/
def SMap.setAll {α : Type} [DecidableEq α] (d : α) (m : SMap α) (l : List (Nat × α)) : SMap α :=
  l.foldl (fun m p => SMap.set d m p.1 p.2) m

end Sys2Proof.Machine
end

