-- ==== Sys2Proof/Machine/State.lean ====
section
/-! DEFINITION. The state of the machine as plain data, its reasons to stop, and the state right after power-good
(R6, R18, R403). Field names follow the spec; a comment names the rule that gives each piece of state. -/

namespace Sys2Proof.Machine

/-- Why a step ends in a fault. -/
inductive Fault where
  /-- Raised by `step` when the plan names a core at or above 320, which the device does not have (R9). Safe: no
  step of the device belongs to such a core. -/
  | noSuchCore (core : Nat)
  deriving DecidableEq, Repr

/-- Why an instruction has no meaning here. -/
inductive Refusal where
  /-- Raised by `exec` for an instruction that has no meaning yet. Safe: nothing is claimed of it. -/
  | notModelled (mnemonic : String)
  deriving DecidableEq, Repr

/-- How many accesses and commands of each engine of a core precede a point in core order (R36, R96). -/
structure VClk where
  c : Nat := 0
  v : Nat := 0
  m : Nat := 0
  h : Nat := 0
  deriving DecidableEq, Repr, Inhabited

/-- A token: plain, or laden with 64 bits (R33); `clk` is what precedes its push in core order (R36). -/
structure Token where
  laden : Option Word := none
  clk : VClk := {}
  deriving DecidableEq, Repr, Inhabited

/-- What an engine waits on (R322). -/
structure Wait where
  kind : Nat := 0
  detail : Nat := 0
  obj : Nat := 0
  since : Nat := 0
  deriving DecidableEq, Repr, Inhabited

/-- RSTATE (R41). -/
structure Rep where
  stepE : BitVec 4 := 0
  stepB : BitVec 4 := 0
  stepA : BitVec 4 := 0
  stepD : BitVec 4 := 0
  offE : BitVec 10 := 0
  offB : BitVec 10 := 0
  offA : BitVec 10 := 0
  offD : BitVec 10 := 0
  active : Bool := false
  remain : Nat := 0
  deriving DecidableEq, Repr, Inhabited

/-- The section whose body an engine executes: its header's offset, KIND, TAG and LEN (R20, R23). -/
structure Sec where
  off : Nat
  kind : Nat
  tag : Nat
  len : Nat
  deriving DecidableEq, Repr, Inhabited

/-- A request that has failed: its number, first failing location and length, and why: 1 a check of what was sent (R95), 2 a port
that is down (R398), 3 the host, 4 a destination that is not shadowed at the receiver (R109, R261), 5 a check that a partial write met
at its destination (R94); `blocks` counts the blocks that fail. -/
structure ReqFail where
  id : Nat
  key : Nat
  len : Nat
  why : Nat
  blocks : Nat := 1
  deriving DecidableEq, Repr, Inhabited

/-- What has come back from other modules, the host or devices for the access an engine or command waits on
(R108, R400, R401): requests outstanding, bytes read by remote address, and the answer to an atomic or a page
request; `bad` is the first request that has failed, `lost` the bytes read whose check fails (R95). `fixed` holds by device address
what parts of the load under way have read, `put` the bytes of the store under way that have been issued, and `part` names the part
that is to go ahead (R79, R180). -/
structure Reply where
  tags : List Nat := []
  got : SMap (Option Byte) := []
  lost : SMap Bool := []
  fixed : SMap (Option Byte) := []
  put : SMap Bool := []
  part : Option Nat := none
  ans : Option PcieResult := none
  pri : Option PriResp := none
  bad : Option ReqFail := none
  deriving DecidableEq, Repr, Inhabited

/-- An engine's block (R313), with its section, TLB (R365) and core-order knowledge (R96). -/
structure EngSt where
  pc : Nat := 0
  sc : W32 := 0
  issued : Bool := false
  retired : Bool := false
  armlive : Bool := false
  inarm : Bool := false
  pushpend : Bool := false
  wait : Wait := {}
  rst : Rep := {}
  preds : BitVec 7 := 0
  pathq : List Nat := []
  sec : Option Sec := none
  seen : VClk := {}
  tlb : SMap (Option Word) := []
  reply : Reply := {}
  deriving DecidableEq, Repr, Inhabited

/-- A fence token (R103): its class and scope, and the stores and commands it covers, by their numbers. -/
structure Fence where
  cls : Nat := 0
  scope : Nat := 0
  ids : List Nat := []
  deriving DecidableEq, Repr, Inhabited

/-- An operand descriptor (R221, R312). -/
structure Od where
  kind : Nat := 0
  sa : Word := 0
  sb : Word := 0
  deriving DecidableEq, Repr, Inhabited

/-- A store issued and not yet performed (R97): its number, the engine and its place in that engine's order, the
bytes it writes by physical location, its device address, and the text address and bits of its word (R308); `remote` when
another module or the host performs it. -/
structure PendSt where
  id : Nat
  eng : Eng
  seq : Nat
  bytes : List (Nat × Byte)
  remote : Bool := false
  addr : Nat := 0
  text : Nat := 0
  word : Nat := 0
  deriving DecidableEq, Repr, Inhabited

/-- A byte of text fetched anew (R114): its value, or why it cannot be fetched: 1 its check fails, 16 + c a translation
failure of code c, 32 + k a handle kind that is refused. -/
inductive TByte where
  | byte (b : Byte)
  | fail (why : Nat)
  deriving DecidableEq, Repr, Inhabited

/-- A line of L1 (R87): its device address and physical location over 128, its bytes, and the words of it that it does not hold,
since their check failed when it was filled (R95). -/
structure L1Line where
  dev : Nat
  phys : Nat
  data : List Byte
  holes : List Nat := []
  deriving DecidableEq, Repr, Inhabited

/-- The operations of H commands (R234, R264). -/
inductive CmdOp where
  | hcp | hgat | hsct | hmc | hlay | hfill | hpub
  | act | sacc | drain | drainRaw | ired | stat
  | send | red
  | rOpen | rMask | rMaskM | rStep | rFork | rKeep | rDrop | rSave | rLoad
  | aBind | aRun | aStat
  deriving DecidableEq, Repr, Inhabited

/-- What a completion record reports (R239). -/
structure CRes where
  status : Nat := 0
  fstep : Nat := 0
  fcode : Nat := 0
  flags : Nat := 0
  e2e : Nat := 0
  count : Nat := 0
  findex : Nat := 0
  tick : Nat := 0
  deriving DecidableEq, Repr, Inhabited

/-- How far a sense wave has come (R254, R255): its tile and bit-plane, whether the tile has failed, what the record
will report, how many pages of the tile failed, and the bit-plane and reason of the first (8 × reason + plane); `snap`
holds what has been read under the mapping of the first page of its tile or row page, `gen` that mapping's number, `lost` the tiles or
row pages that failed (R380), `hit` the array planes on which the wave has sensed (R256); `ssnap` and `slost` hold the row scales
that have been read and those that could not (R257, R381); `blks` holds the blocks of the tile's pages as the mapping of its first page
names them (R380). -/
structure Wave where
  tile : Nat := 0
  plane : Nat := 0
  failed : Bool := false
  senses : Nat := 0
  bits : Nat := 0
  flags : Nat := 0
  e2e : Nat := 0
  nfail : Nat := 0
  first : Nat := 0
  snap : SMap Byte := []
  gen : Nat := 0
  lost : SMap Bool := []
  hit : SMap Bool := []
  ssnap : SMap W32 := []
  slost : SMap Bool := []
  blks : List Nat := []
  deriving DecidableEq, Repr, Inhabited

/-- A command in a queue (R236): what its word and registers held at issue, its descriptor as read at issue, and its
progress; `prog` counts the elements of its walk that have moved already, `half` the bytes of the next one that have (R86, R244), `ord` is
its place in the issue order of all cores (R17), `stick` the tick at which a stamped link command started (R262). -/
structure Cmd where
  id : Nat
  seq : Nat := 0
  ord : Nat := 0
  op : CmdOp
  ring : Nat := 0
  tag : Nat := 0
  ra : Word := 0
  rb : Word := 0
  re : Word := 0
  k : Nat := 0
  mid : Bool := false
  arg : Nat := 0
  arg2 : Nat := 0
  desc : List Byte := []
  stamp : Option Nat := none
  started : Bool := false
  flags : Nat := 0
  wave : Wave := {}
  pairs : Nat := 0
  sent : Bool := false
  prog : Nat := 0
  half : Nat := 0
  stick : Nat := 0
  done : Option CRes := none
  reply : Reply := {}
  deriving DecidableEq, Repr, Inhabited

/-- A handle-table entry (R358, R359): `swapped` when SBASE backs the front; `narrow` when the last publish had a scope narrower
than system, so that a linked module may read either backing (R110). -/
structure HEntry where
  kind : Nat
  ext : Nat
  base : Nat := 0
  sbase : Nat := 0
  shadow : Bool := false
  swapped : Bool := false
  narrow : Bool := false
  esize : Nat := 0
  dims : List Nat := []
  deriving DecidableEq, Repr, Inhabited

/-- What the module's memory and handle tables held at a tile launch, from which text is fetched (R114); `salt` numbers what the other
modules held then. -/
structure View where
  salt : Nat := 0
  mem : List Host.Cell := []
  lc : SMap (Option W32) := []
  bad : SMap Bool := []
  ht : SMap (Option HEntry) := []
  deriving DecidableEq, Repr, Inhabited

/-- A core (R9, R11, R118, R312). `tnew` is the text that joins have fetched anew, `tsync` what the `textsync` words of the
join under way have named (R114); `jseen` is what preceded the end of the last join in core order (R31, R96),
`jlast` that join's header offset, its index and where the text goes on after it;
`lreg` holds the descriptor of the REMAP under way and how many tiles it has published (R380). -/
structure Core where
  tid : Nat := 0x3FF
  idx : Nat := 0
  ec : EngSt := {}
  ev : EngSt := {}
  em : EngSt := {}
  eh : EngSt := {}
  x : SMap Word := []
  sv : SMap Word := []
  sm : SMap Word := []
  sh : SMap Word := []
  v : SMap (SMap W32) := []
  k : SMap (BitVec 1024) := []
  vmode : Word := 0
  vflags : Word := 0
  fences : SMap Fence := []
  fifos : SMap (List Token) := []
  od : SMap Od := []
  cq : SMap (BitVec 128) := []
  bround : SMap Nat := []
  npre : Bool := false
  npt0 : Nat := 0
  held : Bool := false
  trapmask : BitVec 1024 := 0
  stq : List PendSt := []
  l1 : List L1Line := []
  nid : Nat := 0
  fnFlight : Nat := 0
  ql : List Cmd := []
  qs : List Cmd := []
  qd : List Cmd := []
  view : View := {}
  tnew : SMap (Option TByte) := []
  tsync : SMap (Option TByte) := []
  jseen : VClk := {}
  jlast : Option (Nat × W32 × Nat) := none
  lreg : Option (List Byte × Nat) := none
  deriving DecidableEq, Repr, Inhabited

/-- The states of a team (R324). -/
inductive TState where
  | free | running | halting | halted | trapped | resuming | failed | held
  deriving DecidableEq, Repr, Inhabited

/-- One bank of an accumulator tile with its flags; MODE 0 empty, 1 FP32, 2 I32 (R12, R227). Element (i, j) is key
256 × i + j. -/
structure Bank where
  el : SMap W32 := []
  mode : Nat := 0
  inf : Bool := false
  nan : Bool := false
  sat : Bool := false
  deriving DecidableEq, Repr, Inhabited

/-- An accumulator tile (R12). -/
structure ATile where
  work : Bank := {}
  vis : Bank := {}
  deriving DecidableEq, Repr, Inhabited

/-- A lease's contents: the tiles, RUNLEN, RUNREM and HOVER (R217, R219, R220). -/
structure Lease where
  tiles : SMap ATile := []
  runlen : Nat := 0
  runrem : Nat := 0
  hover : Nat := 0
  deriving DecidableEq, Repr, Inhabited

/-- A team barrier (R162): its round G, its arrivals, and arrivals that `hmc.sig` has announced (R247). -/
structure Bar where
  g : Nat := 0
  arr : Nat := 0
  extra : Nat := 0
  deriving DecidableEq, Repr, Inhabited

/-- A candidate of the walkers (R349): a saved team, or the record of a queue. -/
inductive Cnd where
  | team (tid : Nat)
  | rcd (q : Nat)
  deriving DecidableEq, Repr, Inhabited

/-- A halt under way (R315, R318): the state it ends in, whether the team is discarded instead, whether regions
delay it, and the candidate for which the walkers asked for it, if they did (R351). -/
structure Halt where
  ends : TState
  discard : Bool := false
  waits : Bool := true
  begun : Bool := false
  victim : Option Cnd := none
  trapCore : Nat := 0xFF
  trapEng : Nat := 0
  deriving DecidableEq, Repr, Inhabited

/-- A team (R44, R324), with what its record gave it (R340) and its saved image (R311). -/
structure Team where
  st : TState := .free
  overrun : Nat := 0
  cluster : Nat := 0
  cores : List Nat := []
  part : Nat := 0
  ctx : Nat := 0
  queue : Nat := 0
  slot : Nat := 0
  tile : Nat := 0
  prio : Nat := 0
  nopreempt : Bool := false
  nbar : Nat := 0
  text : Nat := 0
  slipw : Nat := 64
  nopre : Nat := 0
  bars : SMap Bar := []
  halt : Option Halt := none
  image : Option (List Core) := none
  lease : Option Lease := none
  savetick : Nat := 0
  savest : Nat := 0
  trapCore : Nat := 0xFF
  trapEng : Nat := 0
  skip : Bool := false
  hasSlot : Bool := false
  islot : Nat := 0
  order : Nat := 0
  savedAt : Nat := 0
  stopped : Nat := 0
  deriving DecidableEq, Repr, Inhabited

/-- A cluster's array and clock (R12, R215–R219, R410). `waiters` lists waiting teams in the order they asked, with
the run length each asked for and the core that asked. -/
structure Cluster where
  holder : Option Nat := none
  waiters : List (Nat × Nat) := []
  lease : Lease := {}
  step : Nat := 0
  hot : Bool := false
  deriving DecidableEq, Repr, Inhabited

/-- A dispatched or parked record (R338–R354). `indT` holds the trip counts read for its indirect loops (R343). -/
structure Rec where
  bytes : List Byte := []
  malformed : Bool := false
  never : Bool := false
  parked : Bool := false
  flush : Option Nat := none
  total : Option Nat := none
  runnable : Bool := false
  runtick : Nat := 0
  next : Nat := 0
  prefixN : Nat := 0
  doneSet : List Nat := []
  status : Option Nat := none
  late : Bool := false
  raised : Bool := false
  expired : Bool := false
  step : Nat := 0
  endtick : Nat := 0
  reply : Reply := {}
  indT : SMap (Option Nat) := []
  deriving DecidableEq, Repr, Inhabited

/-- The states of a queue (R336). -/
inductive QState where
  | disabled | active | parked | qerr | destroying
  deriving DecidableEq, Repr, Inhabited

/-- A submission queue (R334–R337). -/
structure Queue where
  qcfg : Word := 0
  cqcfg : Word := 0
  commit : Word := 0
  ctrl : Word := 0
  st : QState := .disabled
  err : Nat := 0
  errslot : Nat := 0
  head : Nat := 0
  outst : Nat := 0
  rcount : Nat := 0
  held : SMap Nat := []
  committed : SMap Bool := []
  written : Nat := 0
  acked : Nat := 0
  final : Nat := 0
  rcd : Option Rec := none
  deriving DecidableEq, Repr, Inhabited

/-- A latch entry of a Lode stack (R251, R252). -/
structure LEntry where
  len : Nat := 0
  codes : SMap Byte := []
  scale : W32 := 0
  deriving DecidableEq, Repr, Inhabited

/-- An accumulator slot of a stack (R254): element (row, vector) is key 8 × row + vector. -/
structure LSlot where
  acc : SMap Int := []
  bm : Nat := 0
  sat : Bool := false
  scale : SMap W32 := []
  deriving DecidableEq, Repr, Inhabited

/-- A Lode stack (R251). -/
structure LStack where
  latch : SMap LEntry := []
  slots : SMap LSlot := []
  deriving DecidableEq, Repr, Inhabited

/-- A Lode region (R376–R381). `data` holds codes at 65,536 × row + column (plane layout) or row bytes at
65,536 × row + byte (row layout); `noScale` rows whose scale cannot be read; `failed` marks tiles or
row pages; `map` holds 1 + the block of each page, `smap` 1 + the block of each copy of a page of the row-scale table (R377, R378),
and `gen` how often REMAP has published a new mapping of a tile or row page (R380). -/
structure Region where
  part : Nat
  layout : Nat
  planes : Nat
  fastn : Nat
  smask : Nat
  rtype : Nat
  nrows : Nat
  ncols : Nat
  soft : Bool
  isSealed : Bool := false
  data : SMap Byte := []
  scales : SMap W32 := []
  noScale : SMap Bool := []
  failed : SMap Bool := []
  deferred : Nat := 0
  map : SMap Nat := []
  smap : SMap Nat := []
  gen : SMap Nat := []
  deriving DecidableEq, Repr, Inhabited

/-- What Shoring keeps for a block (R382, R385); `born` is the powered age of the module when the block was last programmed. -/
structure Block where
  disturb : Nat := 0
  born : Nat := 0
  retries : Nat := 0
  retired : Bool := false
  deriving DecidableEq, Repr, Inhabited

/-- A format window (R371). -/
structure Win where
  on : Bool := false
  part : Nat := 0
  planes : Nat := 8
  mid : Bool := false
  fp32 : Bool := false
  apsize : Nat := 0
  store : Nat := 0
  scale : Nat := 0
  nancnt : Nat := 0
  encblk : Nat := 0
  e2efail : Nat := 0
  deriving DecidableEq, Repr, Inhabited

/-- An Assayer context (R267). -/
structure AsyCtx where
  bound : Bool := false
  seed : Word := 0
  seq : W32 := 0
  pos : Nat := 0
  nstop : Nat := 0
  retired : Bool := false
  stops : SMap W32 := []
  draws : SMap Nat := []
  mask : BitVec 262144 := 0
  deriving DecidableEq, Repr, Inhabited

/-- An entry of candidate memory (R269). -/
structure Cand where
  val : W32 := 0
  id : Nat := 0
  live : Bool := false
  deriving DecidableEq, Repr, Inhabited

/-- A run in progress (R268): where it came from, on whose behalf it reads memory, its descriptor, its registers and
candidates, and its counts. `loop` holds the partition whose session asked for it, if one did. -/
structure Run where
  core : Nat := 0
  cmd : Nat := 0
  loop : Option Nat := none
  part : Nat := 0
  hctx : Nat := 0
  fore : Bool := false
  ctx : Nat := 0
  prog : Word := 0
  logits : Word := 0
  draftp : Word := 0
  result : Word := 0
  vocab : Nat := 1
  lpitch : Nat := 0
  dpitch : Nat := 0
  ltype : Nat := 0
  regs : SMap W32 := []
  cand : List Cand := []
  idx : Nat := 0
  count : Nat := 0
  tokens : List W32 := []
  stopped : Bool := false
  nan : Bool := false
  deriving DecidableEq, Repr, Inhabited

/-- An Assayer (R263, R268). `fin` holds the result block and the completion of the latest run that the generation loop
asked for: the loop keeps both in the Foreman pair store (R289). -/
structure Assayer where
  ctxs : SMap AsyCtx := []
  run : Option Run := none
  fin : Option (List Byte × CRes) := none
  deriving DecidableEq, Repr, Inhabited

/-- A branch of a Riddle context (R276): its state and its stack, top first, as nodes of number and symbol. -/
structure Branch where
  st : Nat := 0
  stack : List (Nat × Nat) := []
  deriving DecidableEq, Repr, Inhabited

/-- A Riddle context (R276). -/
structure RdlCtx where
  isOpen : Bool := false
  image : Word := 0
  br : SMap (Option Branch) := []
  deriving DecidableEq, Repr, Inhabited

/-- A Riddle (R276); `node` numbers the next node. -/
structure Riddle where
  ctxs : SMap RdlCtx := []
  node : Nat := 0
  deriving DecidableEq, Repr, Inhabited

/-- Where the generation loop stands in a round (R289). -/
inductive SPhase where
  | opening | round | draft | verify | decide | commit | output | close
  deriving DecidableEq, Repr, Inhabited

/-- What the loop holds of one sequence in a round (R289): its selectors and sequence id, STATE, POS and NTOK as its table
entry has them at the end of a round, whether it takes part in the session, the last committed token, the drafts of the round, how many were accepted, the
tokens the round has committed, and whether the last of them hit the stop set. -/
structure SeqSt where
  asel : Nat := 0
  rsel : Nat := 0xFFFF
  sid : W32 := 0
  st : Nat := 0
  pos : Nat := 0
  ntok : Nat := 0
  joins : Bool := false
  last : W32 := 0
  drafts : List W32 := []
  accepted : Nat := 0
  toks : List W32 := []
  stop : Bool := false
  deriving DecidableEq, Repr, Inhabited

/-- A running session (R285, R289): its descriptor's address and context, the descriptor as read when it opened, where it
stands, the draft position, whether the chain has been asked, its sequences, output entries written and still to write
(token, SEQ, POS, FLAGS without PHASE), and the rounds completed. -/
structure Sess where
  addr : Word := 0
  ctx : Nat := 0
  desc : List Byte := []
  phase : SPhase := .opening
  i : Nat := 0
  asked : Bool := false
  seqs : List SeqSt := []
  outw : Nat := 0
  outq : List (W32 × W32 × Nat × Nat) := []
  rounds : Nat := 0
  deriving DecidableEq, Repr, Inhabited

/-- A partition's sessions (R396), page requests (R368, R375) and translation status (R375). -/
structure Part where
  pend : List (Word × Nat) := []
  sess : Option Sess := none
  pri : SMap (Option (Nat × Nat)) := []
  prilate : Nat := 0
  prifail : Nat := 0
  pristop : Bool := false
  shootdowns : Nat := 0
  deriving DecidableEq, Repr, Inhabited

/-- A fault record (R308). -/
structure FRec where
  cls : Nat
  code : Nat
  tid : Nat := 0x3FF
  core : Nat := 0xFFFF
  eng : Nat := 0xFF
  queue : Nat := 0
  slot : Nat := 0
  ctx : Nat := 0
  part : Nat := 0
  lanes : Nat := 0
  textaddr : Nat := 0
  word : Nat := 0
  info : Nat := 0
  addr : Nat := 0
  len : Nat := 0
  tick : Nat := 0
  deriving DecidableEq, Repr, Inhabited

/-- The values a quote signed (R408). -/
structure Snap where
  mrs : SMap (BitVec 256) := []
  cfg : List Byte := []
  qcount : Nat := 0
  deriving DecidableEq, Repr, Inhabited

/-- A PCIe function: its mailbox, with the arguments that the command under way took (R393, R394) and its place in the order of
arrival (R408), EVENT (R395), SESSCTX, quote snapshot (R408) and the configuration
bits of R368 and R401. -/
structure Fn where
  busy : Bool := false
  status : Nat := 0
  seq : Nat := 0
  cmd : Nat := 0
  arr : Nat := 0
  args : SMap Word := []
  taken : SMap Word := []
  res : SMap Word := []
  event : Nat := 0
  sessctx : Nat := 0
  snap : Option Snap := none
  priOn : Bool := false
  atomOn : Bool := false
  deriving DecidableEq, Repr, Inhabited

/-- A flash bank of Foreman firmware: its VERSION, whether it passes the checks of R409, its image, and whether that has not reached
Stage A yet (R405, R409). -/
structure FwBank where
  ver : Nat := 0
  valid : Bool := false
  image : List Byte := []
  fresh : Bool := false
  deriving DecidableEq, Repr, Inhabited

/-- Who waits for an answer from outside the module. -/
inductive Asker where
  | eng (core : Nat) (g : Eng)
  | cmd (core : Nat) (q : QId) (id : Nat)
  | store (core id : Nat)
  | queue (q : Nat)
  | shoot
  deriving DecidableEq, Repr, Inhabited

/-- The kinds of request that leave the module (R397, R401, R367, R368). -/
inductive ReqKind where
  | read | write | atomic | reduce | translate | page | control
  deriving DecidableEq, Repr, Inhabited

/-- A request that has left the module and has no answer yet: over a Falef port, or over PCIe where `port` is
none. `back` holds the bytes of a read that have come back so far, `fails` the 64-byte blocks among them whose check fails (R95). -/
structure Req where
  id : Nat
  port : Option Nat
  home : Nat
  kind : ReqKind
  who : Asker
  addr : Nat := 0
  len : Nat := 0
  data : List Byte := []
  back : List Byte := []
  fails : List Nat := []
  deriving DecidableEq, Repr, Inhabited

/-- A Falef port (R397–R399): `out` lists flits it has sent that are answers or ticks, by TYPE; `rbuf` holds by TAG what has come of
a reduction's payload. -/
structure Port where
  up : Bool := false
  dead : Bool := false
  peer : Nat := 0
  resends : Nat := 0
  out : List (Nat × Flit) := []
  lastStamp : Nat := 0
  rbuf : SMap (List Byte) := []
  deriving DecidableEq, Repr, Inhabited

/-- A shootdown under way (R365): the core whose `htab` asked, the partition, the addresses of the page-table entries,
the requests that linked modules have still to answer, whether one was lost, the entry that UNMAP removed, the tick at which it
began, the requests already translated that it waits for, and the ACCESSED bits found in its entries, which it is to clear. -/
structure Shoot where
  core : Nat
  start : Nat := 0
  waits : List Nat := []
  part : Nat
  pages : List Nat := []
  ids : List Nat := []
  lost : Bool := false
  back : Option (Nat × HEntry) := none
  bits : SMap Nat := []
  deriving DecidableEq, Repr, Inhabited

/-- Who owns each unit of R373: partition 0–3, or 7 for none. -/
structure Own where
  cg : SMap Nat := []
  sp : SMap Nat := []
  ch : SMap Nat := []
  su : SMap Nat := []
  fw : SMap Nat := []
  deriving DecidableEq, Repr, Inhabited

/-- The core and engine that execute. -/
structure Cur where
  core : Nat := 0
  eng : Eng := .c
  deriving DecidableEq, Repr, Inhabited

end Sys2Proof.Machine

namespace Sys2Proof.Machine

/-- The machine. `corr` counts the corrected errors of each channel (R310), `ltlb` holds the translations of the Lode controllers
(R365), `aged` the ticks the module has run (R382), `scanned` the blocks read at this mount (R382), `nissue` counts the commands issued (R17). `mbNext` counts the mailbox commands that have arrived (R408), `newImage` says that the running image has not reached Stage A before
(R409), `kept` by core the candidate for which a victim has freed it (R351), `tickSet` that
the counter has been set to the tick master's (R399). `ctls` lists the shootdown requests of linked modules not yet answered, by port, `inval` the Invalidate Requests of the host, each with the requests it
waits for (R365, R367). `asyCur` names the Assayer whose word executes; `hostOut` lists the completions sent to the host, with
the function that was read, and `irqOut` the MSI-X vectors signalled (function, vector) (R390, R392, R394, R395). -/
structure State where
  cur : Cur := {}
  sched : List Turn := []
  free : Nat := 0
  tick : Nat := 0
  cores : SMap Core := []
  teams : SMap Team := []
  clusters : SMap Cluster := []
  mem : List Host.Cell := []
  lc : SMap (Option W32) := []
  bad : SMap Bool := []
  ht : SMap (Option HEntry) := []
  wins : SMap Win := []
  queues : SMap Queue := []
  rr : SMap Nat := []
  kept : SMap (Option Cnd) := []
  order : Nat := 0
  lode : SMap LStack := []
  regions : SMap (Option Region) := []
  blocks : SMap Block := []
  spares : SMap Nat := []
  corr : SMap Nat := []
  aged : Nat := 0
  scanned : SMap Bool := []
  nissue : Nat := 0
  ltlb : SMap (Option Word) := []
  steals : SMap Nat := []
  deadGroups : SMap Bool := []
  reloads : List (Nat × Nat × Nat) := []
  asys : SMap Assayer := []
  rdls : SMap Riddle := []
  parts : SMap Part := []
  fqBase : Nat := 0
  fqLog : Nat := 0
  fqLost : Nat := 0
  fqWritten : Nat := 0
  fqAcked : Nat := 0
  fqHeld : List FRec := []
  fqWait : List FRec := []
  ctxHandle : Nat := 0
  ctxSlots : Nat := 64
  fns : SMap Fn := []
  stage : Nat := 0
  cause : Nat := 0
  bank : Nat := 0
  next : Nat := 0
  floor : Nat := 0
  banks : SMap FwBank := []
  newImage : Bool := false
  mrs : SMap (BitVec 256) := []
  qcount : Nat := 0
  mbNext : Nat := 0
  cap : Nat := 1600
  powered : Bool := true
  order4T : Nat := 0
  deadPairs : SMap Bool := []
  deadArrays : SMap Bool := []
  bonds : SMap Nat := []
  own : Own := {}
  modNum : Nat := 0
  tickSet : Bool := false
  modCount : Nat := 1
  ports : SMap Port := []
  reqs : List Req := []
  nreq : Nat := 0
  shoot : Option Shoot := none
  ctls : List (Nat × Flit × List Nat) := []
  inval : List (List Nat) := []
  asyCur : Nat := 0
  hostOut : List (Nat × PcieResult) := []
  irqOut : List (Nat × Nat) := []
  deriving DecidableEq, Repr, Inhabited

/-- The machine right after power-good, in Stage S with CAUSE 0 (R403, R404): every register at its reset value, and
partition 0 the owner of every unit (log entry 9). MR0 holds the extension by the controller's own firmware only once
`power good` is taken as an event (R406). -/
def State.reset : State :=
  { own := { cg := [(0, 0), (1, 0), (2, 0), (3, 0)], sp := [(0, 0), (1, 0), (2, 0), (3, 0)],
             ch := [(0, 0), (1, 0), (2, 0), (3, 0)], su := [(0, 0), (1, 0), (2, 0), (3, 0)],
             fw := SMap.tab 7 16 (fun _ => 0) } }

end Sys2Proof.Machine
end

