-- ==== Sys2Proof/Machine/Ops.lean ====
section
/-! DEFINITION. The named operations of a core: registers, predicates, token FIFOs, teams, fault records, taking a fatal
error or a trap and returning from one, and the issue and retirement of a word. -/

namespace Sys2Proof.Machine

/-- The outcome of a step. -/
abbrev Out := Host.Outcome State Fault Refusal

/-! ## Reaching parts of the state -/

def coreAt (s : State) (n : Nat) : Core := SMap.get {} s.cores n
def setCore (s : State) (n : Nat) (c : Core) : State := { s with cores := SMap.set {} s.cores n c }
def upCore (s : State) (n : Nat) (f : Core → Core) : State := setCore s n (f (coreAt s n))
def teamAt (s : State) (t : Nat) : Team := SMap.get {} s.teams t
def setTeam (s : State) (t : Nat) (x : Team) : State := { s with teams := SMap.set {} s.teams t x }
def upTeam (s : State) (t : Nat) (f : Team → Team) : State := setTeam s t (f (teamAt s t))
def clusterAt (s : State) (n : Nat) : Cluster := SMap.get {} s.clusters n
def upCluster (s : State) (n : Nat) (f : Cluster → Cluster) : State :=
  { s with clusters := SMap.set {} s.clusters n (f (clusterAt s n)) }
def queueAt (s : State) (q : Nat) : Queue := SMap.get {} s.queues q
def upQueue (s : State) (q : Nat) (f : Queue → Queue) : State :=
  { s with queues := SMap.set {} s.queues q (f (queueAt s q)) }
def partAt (s : State) (p : Nat) : Part := SMap.get {} s.parts p
def upPart (s : State) (p : Nat) (f : Part → Part) : State := { s with parts := SMap.set {} s.parts p (f (partAt s p)) }
def fnAt (s : State) (n : Nat) : Fn := SMap.get {} s.fns n
def upFn (s : State) (n : Nat) (f : Fn → Fn) : State := { s with fns := SMap.set {} s.fns n (f (fnAt s n)) }

/-- An engine's number in the order of R21: C 0, V 1, M 2, H 3. -/
def engNum : Eng → Nat | .c => 0 | .v => 1 | .m => 2 | .h => 3
def engOfNum (n : Nat) : Eng := match n with | 0 => .c | 1 => .v | 2 => .m | _ => .h

def engSt (c : Core) : Eng → EngSt | .c => c.ec | .v => c.ev | .m => c.em | .h => c.eh
def setEngSt (c : Core) (g : Eng) (e : EngSt) : Core :=
  match g with
  | .c => { c with ec := e } | .v => { c with ev := e } | .m => { c with em := e } | .h => { c with eh := e }
def upEng (c : Core) (g : Eng) (f : EngSt → EngSt) : Core := setEngSt c g (f (engSt c g))

def curCore (s : State) : Core := coreAt s s.cur.core
def curEng (s : State) : EngSt := engSt (curCore s) s.cur.eng
def upCur (s : State) (f : Core → Core) : State := upCore s s.cur.core f
def upCurEng (s : State) (f : EngSt → EngSt) : State := upCur s (fun c => upEng c s.cur.eng f)
def curTeam (s : State) : Team := teamAt s (curCore s).tid

/-- Whether the executing core is in foreman mode (R303). -/
def foreman (s : State) : Bool := (curCore s).tid == 0x3FE
/-- The cluster and the pair of a core (R9). -/
def clusterOf (core : Nat) : Nat := core / 16
def pairOf (core : Nat) : Nat := core / 2

/-! ## Scalar, predicate, vector and mask registers (R118, R140, R174) -/

def scalFile (c : Core) : Eng → SMap Word | .c => c.x | .v => c.sv | .m => c.sm | .h => c.sh
def setScalFile (c : Core) (g : Eng) (m : SMap Word) : Core :=
  match g with
  | .c => { c with x := m } | .v => { c with sv := m } | .m => { c with sm := m } | .h => { c with sh := m }

/-- A scalar register; X0 of the C engine reads as 0 (R140). -/
def getScal (c : Core) (g : Eng) (r : Nat) : Word := if g = .c ∧ r = 0 then 0 else SMap.get 0 (scalFile c g) r

/-- A scalar register written; a write to X0 of the C engine is discarded (R140). -/
def setScal (c : Core) (g : Eng) (r : Nat) (v : Word) : Core :=
  if g = .c ∧ r = 0 then c else setScalFile c g (SMap.set 0 (scalFile c g) r v)

/-- The executing engine's scalar register. -/
def rd (s : State) (r : Reg) : Word := getScal (curCore s) s.cur.eng r.toNat
def wr (s : State) (r : Reg) (v : Word) : State := upCur s (fun c => setScal c s.cur.eng r.toNat v)
def rdN (s : State) (r : Nat) : Word := getScal (curCore s) s.cur.eng r
def wrN (s : State) (r : Nat) (v : Word) : State := upCur s (fun c => setScal c s.cur.eng r v)

def getPred (e : EngSt) (p : Nat) : Bool := e.preds.getLsbD p
def setPredE (e : EngSt) (p : Nat) (b : Bool) : EngSt :=
  { e with preds := (e.preds &&& ~~~(1#7 <<< p)) ||| (if b then 1#7 <<< p else 0) }
def rdP (s : State) (p : Reg) : Bool := getPred (curEng s) p.toNat
def wrP (s : State) (p : Reg) (b : Bool) : State := upCurEng s (fun e => setPredE e p.toNat b)

/-- Element `e` of vector register `r` (R174). -/
def vget (c : Core) (r e : Nat) : W32 := SMap.get 0 (SMap.get [] c.v r) e
/-- A vector register written whole. -/
def vset (c : Core) (r : Nat) (f : Nat → W32) : Core := { c with v := SMap.set [] c.v r (SMap.tab 0 1024 f) }
def vput (c : Core) (r e : Nat) (w : W32) : Core := { c with v := SMap.set [] c.v r (SMap.set 0 (SMap.get [] c.v r) e w) }
def kget (c : Core) (r : Nat) : BitVec 1024 := SMap.get 0 c.k r
def kset (c : Core) (r : Nat) (m : BitVec 1024) : Core := { c with k := SMap.set 0 c.k r m }

/-- The 1,024 bits that `f` gives. -/
def maskTab (f : Nat → Bool) : BitVec 1024 :=
  BitVec.ofNat 1024 ((List.range 1024).foldr (fun i acc => 2 * acc + (if f i then 1 else 0)) 0)

/-! ## Core order (R36, R96) -/

def clkGet (k : VClk) : Eng → Nat | .c => k.c | .v => k.v | .m => k.m | .h => k.h
def clkBump (k : VClk) (g : Eng) : VClk :=
  match g with
  | .c => { k with c := k.c + 1 } | .v => { k with v := k.v + 1 }
  | .m => { k with m := k.m + 1 } | .h => { k with h := k.h + 1 }
def clkJoin (a b : VClk) : VClk := { c := max a.c b.c, v := max a.v b.v, m := max a.m b.m, h := max a.h b.h }

/-- The core-order knowledge of all four engines joined at a join section (R31, R96). -/
def joinSeen (c : Core) : VClk := clkJoin (clkJoin c.ec.seen c.ev.seen) (clkJoin c.em.seen c.eh.seen)

/-- One more access or command of the executing engine. -/
def bumpClk (s : State) : State := upCurEng s (fun e => { e with seen := clkBump e.seen s.cur.eng })

/-! ## Token FIFOs (R33, R34) -/

/-- Other engine `j` of engine `g` (R21). -/
def otherEng (g j : Nat) : Nat := (g + 1 + j) % 4
/-- The number of the FIFO from engine `a` to engine `b`. -/
def fifoNum (a b : Nat) : Nat := 3 * a + (b + 3 - a) % 4
def fifoAt (c : Core) (f : Nat) : List Token := SMap.get [] c.fifos f
def setFifo (c : Core) (f : Nat) (l : List Token) : Core := { c with fifos := SMap.set [] c.fifos f l }

/-- The engines a three-bit POP or PUSH field names, in R21 order. -/
def namedEngs (g : Eng) (bits : BitVec 3) : List Nat :=
  ((List.range 3).filter (fun j => bits.getLsbD j)).map (otherEng (engNum g))

/-- The first engine whose FIFO towards `g` is empty among those POP names. -/
def popBlocked (c : Core) (g : Eng) (pop : BitVec 3) : Option Nat :=
  (namedEngs g pop).find? (fun f => (fifoAt c (fifoNum f (engNum g))).isEmpty)

/-- One token popped from each FIFO that POP names, and what those tokens carry (R34, R36). -/
def popTokens (c : Core) (g : Eng) (pop : BitVec 3) : Core × List Token :=
  (namedEngs g pop).foldl (fun (p : Core × List Token) f =>
    match fifoAt p.1 (fifoNum f (engNum g)) with
    | [] => p
    | t :: r => (upEng (setFifo p.1 (fifoNum f (engNum g)) r) g (fun e => { e with seen := clkJoin e.seen t.clk }), p.2 ++ [t]))
    (c, [])

/-- The first engine whose FIFO from `g` is full among those PUSH names (R33: 15 tokens). -/
def pushBlocked (c : Core) (g : Eng) (push : BitVec 3) : Option Nat :=
  (namedEngs g push).find? (fun f => decide (15 ≤ (fifoAt c (fifoNum (engNum g) f)).length))

/-- One token pushed into each FIFO that PUSH names (R34). -/
def pushTokens (c : Core) (g : Eng) (push : BitVec 3) (pay : Option Word) : Core :=
  (namedEngs g push).foldl (fun c f =>
    setFifo c (fifoNum (engNum g) f)
      (fifoAt c (fifoNum (engNum g) f) ++ [{ laden := pay, clk := (engSt c g).seen }])) c

/-! ## Waits (R322) -/

/-- The wait an engine reports; SINCE stays while the wait is the same. -/
def waitOn (tick : Nat) (e : EngSt) (kind detail obj : Nat) : EngSt :=
  if e.wait.kind = kind ∧ e.wait.detail = detail ∧ e.wait.obj = obj then e
  else { e with wait := { kind := kind, detail := detail, obj := obj, since := if kind = 0 then 0 else tick % 2 ^ 32 } }

def noWait (e : EngSt) : EngSt := { e with wait := {} }

/-! ## Sections (R20, R23, R24) -/

/-- The text offset just after a section. -/
def secEnd (x : Sec) : Nat := x.off + 8 + 12 * x.len

/-- A section retired: SC + 1, and PC at `pc` (R24). -/
def retireSec (e : EngSt) (pc : Nat) : EngSt :=
  { e with sc := e.sc + 1, sec := none, pc := pc, inarm := false, armlive := false }

/-- PC moved past a word. A section whose last word has retired retires with it; an end section waits for
`retire for tile` (R23, R32). -/
def advance (e : EngSt) : EngSt :=
  match e.sec with
  | none => { e with pc := e.pc + 12 }
  | some x =>
    if e.pc + 12 < secEnd x ∨ x.kind = 4 then { e with pc := e.pc + 12 } else retireSec e (secEnd x)

/-- The core after engine `g` has moved from the block `old`: where a join section has retired, what preceded its end is kept
for the engines that wait at it, and every engine fetches the text that its `textsync` words named (R31, R96, R114). -/
def leaveJoin (old : EngSt) (g : Eng) (c : Core) : Core :=
  if (old.sec.any fun x => x.kind == 3) && (engSt c g).sec.isNone then
    { c with jseen := joinSeen c, jlast := old.sec.map (fun x => (x.off, old.sc, secEnd x)), tnew := SMap.setAll none c.tnew c.tsync, tsync := [] }
  else c

/-! ## Program text (R19, R114) -/

def secKind (s : State) : Nat := match (curEng s).sec with | some x => x.kind | none => 0

/-! ## Fault records (R308, R309) -/

/-- A class-0 or class-1 record held until the ring has room; past 64 of them it waits at its source (R309). -/
def holdFault (s : State) (r : FRec) : State :=
  if s.fqHeld.length < 64 then { s with fqHeld := s.fqHeld ++ [r] } else { s with fqWait := s.fqWait ++ [r] }

/-- How many records the fault queue's ring has room for (R309, R323). -/
def faultFree (s : State) : Nat := if s.fqLog = 0 then 0 else 2 ^ s.fqLog - (s.fqWritten + 2 ^ 32 - s.fqAcked) % 2 ^ 32

/-- Whether the fault queue's ring has room for a record (R309). -/
def faultRoom (s : State) : Bool := decide (0 < faultFree s)

/-- A class-2 record, dropped and counted in LOST where none of the 64 places is free and the ring has no room either (R309). -/
def holdReport (s : State) (r : FRec) : State :=
  if s.fqHeld.length < 64 then { s with fqHeld := s.fqHeld ++ [r] }
  else if s.fqWait.length < faultFree s then { s with fqWait := s.fqWait ++ [r] }
  else { s with fqLost := min 255 (s.fqLost + 1) }

/-- The records that are not yet written, which keep their teams and contexts waiting: the record of a trap is written before
its team becomes TRAPPED, that of a fatal error before the context's records complete (R309). -/
def unreported (s : State) : List FRec := s.fqHeld ++ s.fqWait

/-- What a fault says of itself (R307): code, INFO, ADDR and LENGTH. -/
structure FInfo where
  code : Nat
  info : Nat := 0
  addr : Nat := 0
  len : Nat := 0
  deriving DecidableEq, Repr, Inhabited

def fIllegal : FInfo := { code := 1 }

/-- A record about the executing core's team (R308). -/
def coreRec (s : State) (cls : Nat) (f : FInfo) : FRec :=
  let c := curCore s
  let t := curTeam s
  { cls := cls, code := f.code, tid := c.tid, core := s.cur.core, eng := engNum s.cur.eng, queue := t.queue, slot := t.slot,
    ctx := t.ctx, part := t.part, info := f.info, addr := f.addr, len := f.len, tick := s.tick }

/-- Bytes as a number, first byte lowest (R5). -/
def leNat : List Byte → Nat
  | [] => 0
  | b :: r => b.toNat + 256 * leNat r
/-- The low `n` bytes of a number, lowest first (R5). -/
def leBytes : Nat → Nat → List Byte
  | 0, _ => []
  | n + 1, x => BitVec.ofNat 8 x :: leBytes n (x / 256)
def beNat (l : List Byte) : Nat := leNat l.reverse
def beBytes (n x : Nat) : List Byte := (leBytes n x).reverse

/-! ## Ending a context, returning to Stage S -/

/-- A bit of EVENT set in one function, which signals vector 1 (R395). -/
def eventFn (s : State) (fn bit : Nat) : State :=
  let s := upFn s fn (fun f => { f with event := f.event ||| bit })
  { s with irqOut := s.irqOut ++ [(fn, 1)] }

/-- A bit of EVENT set in every function (R395). -/
def signalEvent (s : State) (bit : Nat) : State := (List.range 5).foldl (fun s n => eventFn s n bit) s

/-- A completion sent to the host (R392). -/
def hostSay (s : State) (fn : Nat) (c : PcieResult) : State := { s with hostOut := s.hostOut ++ [(fn, c)] }

/-- A team that ends with its context: no engine of it issues any more, and what it has issued drains (R238, R306). -/
def endTeam (t : Team) : Team :=
  if t.st = .free then t else { t with st := .failed, image := none, halt := none, hasSlot := false }

/-- Whether a request belongs to a command or store, which drains (R238). -/
def drains (r : Req) : Bool := match r.who with | .cmd .. | .store .. => true | _ => false

/-- A return to Stage S: every context ends, every queue is discarded, the ports carry no traffic any more, and the stage change is
signalled; commands and stores that have been issued go on to their end, and fault records stay held (R238, R305, R306, R309, R403,
R405). Lode regions, measurements and memory stay. -/
def toStageS (s : State) (cause : Nat) : State :=
  signalEvent
    { s with stage := 0, cause := cause, kept := [], teams := s.teams.map (fun p => (p.1, endTeam p.2)), queues := [], parts := [],
             clusters := s.clusters.map (fun p => (p.1, { p.2 with holder := none, waiters := [], lease := {} })),
             reqs := s.reqs.filter drains, shoot := none, ctls := [], inval := [],
             ports := s.ports.map (fun p => (p.1, { p.2 with up := false, dead := true, rbuf := [] })),
             asys := s.asys.map (fun p => (p.1, { p.2 with run := p.2.run.filter (fun r => r.loop.isNone) })) } 4

/-- A fatal error in foreman mode (R305). -/
def foremanFault (s : State) : State := toStageS s 3

def liveState : TState → Bool
  | .free | .failed => false
  | _ => true

/-- Whether a team dies with a context. -/
def dies (part ctx tid : Nat) (t : Team) : Bool := t.part == part && t.ctx == ctx && liveState t.st && tid != 0x3FE

/-- A record whose context has failed: it completes with FAILED, unless R341 has refused it or step 2 of R347 has begun (R355). -/
def failRec (r : Rec) : Rec :=
  { r with parked := false, flush := none, status := if r.step = 0 ∧ r.status ≠ some 0x101 then some 0x103 else r.status }

/-- A fatal context error (R306, R355): every live team of the context becomes FAILED, its image is dropped, answers that its
words still wait for will find no one (R369), and each queue of the context is being destroyed with status FAILED. -/
def failContext (s : State) (part ctx : Nat) : State :=
  let cores := s.cores.map (fun p =>
    if dies part ctx p.2.tid (teamAt s p.2.tid) then (p.1, { p.2 with ec := { p.2.ec with reply := {} } }) else p)
  let teams := s.teams.map (fun p =>
    if dies part ctx p.1 p.2 then
      (p.1, { p.2 with st := .failed, image := none, halt := none, stopped := if p.2.st = .running then s.tick else p.2.stopped }) else p)
  let queues := s.queues.map (fun p =>
    if p.2.qcfg.toNat / 64 % 4 = part ∧ p.2.qcfg.toNat % 64 = ctx ∧ p.2.st ≠ .disabled then
      (p.1, { p.2 with st := .destroying, final := 0x103, rcd := p.2.rcd.map failRec })
    else p)
  { s with cores := cores, teams := teams, queues := queues }

/-- TAKING A FATAL ERROR (R305, R306): the record is held for the fault queue and the executing core's context
ends. -/
def raiseFatal (s : State) (f : FInfo) (textaddr word : Nat) : State :=
  if foreman s then foremanFault s
  else
    let t := curTeam s
    let s := holdFault s { coreRec s 0 f with textaddr := textaddr, word := word }
    failContext s t.part t.ctx

/-- TAKING A TRAP (R306, R315, R318): the team halts to be saved as TRAPPED. The first trap of a halt is recorded; a
later one leaves its word to be executed again. -/
def raiseTrap (s : State) (f : FInfo) (lanes : Nat) (mask : BitVec 1024) (textaddr word : Nat) : State :=
  if foreman s then foremanFault s
  else
    let t := curTeam s
    let again := match t.halt with | some (h : Halt) => h.ends == TState.trapped && h.begun | none => false
    if again then s
    else
      let c := curCore s
      let s := holdFault s { coreRec s 1 f with lanes := lanes, textaddr := textaddr, word := word }
      let s := upCur s (fun c => { c with trapmask := mask })
      upTeam s c.tid (fun t =>
        { t with st := .halting, stopped := s.tick,
                 halt := some { ends := .trapped, waits := false, begun := true, trapCore := c.idx, trapEng := engNum s.cur.eng,
                                discard := (t.halt.map Halt.discard).getD false } })

/-- RETURNING FROM A TRAP (R328): a TRAPPED team is to be restored, its trapping word executed again or skipped. -/
def resumeTrapped (s : State) (tid : Nat) (skip : Bool) : State :=
  upTeam s tid (fun t => { t with st := .resuming, skip := skip })

/-! ## Issue and retirement of a word (R29, R30, R34, R39, R142) -/

/-- What a word's effect comes to: done; a wait after issue; a fatal error; a trap with its lanes and mask. -/
inductive Eff where
  | done (s : State)
  | stall (kind detail obj : Nat) (s : State)
  | fatal (f : FInfo) (s : State)
  | trap (f : FInfo) (lanes : Nat) (mask : BitVec 1024) (s : State)

/-- Where an engine goes after a word: on, to a word of the same body, or to the header at a target (R28, R154). -/
inductive Nxt where
  | seq
  | jump (pc : Nat)
  | leave (target : Nat)

/-- A word: its effect, the payload of its pushes, where it leads, and what its retirement adds. -/
structure WordDef where
  eff : State → Eff
  pay : Bool → State → Option Word := fun _ _ => none
  nxt : State → Nxt := fun _ => .seq
  post : State → State := fun s => s

/-- Whether PRED and PNEG let a word act (R29). -/
def predTrue (e : EngSt) (h : Hd) : Bool := if h.pred = 7 then !h.pneg else (getPred e h.pred.toNat != h.pneg)

/-- Whether a word is live: no dead arm around it, and its predicate true (R29). -/
def liveWord (e : EngSt) (h : Hd) : Bool := (!e.inarm || e.armlive) && predTrue e h

/-- The repeat state with its offsets moved one step on (R39, R41). -/
def repStep (r : Rep) : Rep :=
  { r with offE := r.offE + r.stepE.signExtend 10, offB := r.offB + r.stepB.signExtend 10,
           offA := r.offA + r.stepA.signExtend 10, offD := r.offD + r.stepD.signExtend 10 }

/-- A word past its pushes: the next repetition, or the end of a repeat, or the next word (R39, R41). `repPush` is
the PUSH field of the `rep`. -/
def afterWord (s : State) (repPush : BitVec 3) (n : Nxt) : State :=
  let g := s.cur.eng
  let c := curCore s
  let e := engSt c g
  if e.rst.active then
    if 1 < e.rst.remain then
      upCurEng s (fun e => { noWait e with issued := false, pushpend := false,
                                           rst := { repStep e.rst with remain := e.rst.remain - 1 } })
    else
      match pushBlocked c g repPush with
      | some f =>
        upCurEng s (fun e => { waitOn s.tick e 2 f 0 with issued := true, pushpend := true, rst := { e.rst with remain := 0 } })
      | none =>
        upCur s (fun c => leaveJoin e g (upEng (pushTokens c g repPush none) g (fun e =>
          advance { noWait e with issued := false, pushpend := false, rst := {} })))
  else
    upCur s (fun c => leaveJoin e g (upEng c g (fun e =>
      let e := { noWait e with issued := false, pushpend := false }
      match n with
      | .seq => advance e
      | .jump pc => { e with pc := pc }
      | .leave t => retireSec e t)))

/-- A word that has taken every effect: it pushes once its FIFOs have room, and retires (R34). -/
def retireWord (s : State) (h : Hd) (repPush : BitVec 3) (live : Bool) (w : WordDef) : State :=
  let c := curCore s
  let g := s.cur.eng
  if (curEng s).rst.active && (curEng s).rst.remain == 0 then afterWord s repPush .seq
  else
    match pushBlocked c g h.push with
    | some f => upCurEng s (fun e => { waitOn s.tick e 2 f 0 with issued := true, pushpend := true })
    | none =>
      let n := if live then w.nxt s else .seq
      let s := upCur s (fun c => pushTokens c g h.push (w.pay live s))
      let s := afterWord s repPush n
      if live then w.post s else s

end Sys2Proof.Machine
end

