-- ==== Sys2Proof/Machine/Mem.lean ====
section
/-! DEFINITION. The module's memory: its physical map, the level cache and format windows (R76, R88, R91, R371), the
end-to-end check (R93–R95), handles and translation (R77, R78, R358–R365), and the accesses of cores: snapshot and
fresh loads, stores, atomics (R97–R102, R107). -/

namespace Sys2Proof.Machine

/-! ## The physical map

LPDDR-6 lies at 0 (R391), the apertures of the format windows from 2^40 (R371). The model places the pair stores at
2^44 + 2^23 × pair, the tensor store at 2^45, and what lies on another home at 2^70 × (1 + home) (log entry 14); the address
space of the host's PASID p counts as home 8 + p (R367). -/

def dramTop : Nat := 2 ^ 40
def apBase : Nat := 2 ^ 40
def apTop : Nat := 2 ^ 41
def pairBase : Nat := 2 ^ 44
def tensorBase : Nat := 2 ^ 45
/-- The places of the queue register page at which only naturally aligned 64-bit loads and stores act: to any other access they read 0,
and its writes are ignored (R334). -/
def pageBase : Nat := 2 ^ 50
def inPage (k : Nat) : Bool := k / 2 ^ 14 == 2 ^ 36
def remoteBase (home pa : Nat) : Nat := 2 ^ 70 * (1 + home) + pa
def isRemote (k : Nat) : Bool := decide (2 ^ 70 ≤ k)
def remoteHome (k : Nat) : Nat := k / 2 ^ 70 - 1
def remotePa (k : Nat) : Nat := k % 2 ^ 70

/-- What an unlisted byte of memory reads as (log entry 4). -/
def memDefault : Byte := 0

/-- The canonical form of memory. -/
def Memory.wf (m : List Host.Cell) : Bool := SMap.wf memDefault m

def lcWord (s : State) (k : Nat) : Option W32 := SMap.get none s.lc (k / 4)
def byteOfW32 (w : W32) (i : Nat) : Byte := (w >>> (8 * i)).setWidth 8

/-- A byte of LPDDR-6 through the level cache (R88). -/
def rdDram (s : State) (k : Nat) : Byte :=
  match lcWord s k with
  | some w => byteOfW32 w (k % 4)
  | none => SMap.get memDefault s.mem k

def rdDramN (s : State) (k n : Nat) : List Byte := (List.range n).map (fun i => rdDram s (k + i))

/-! ## Format windows (R54, R76, R371) -/

def winAt (s : State) (w : Nat) : Win := SMap.get {} s.wins w
def winEsize (w : Win) : Nat := if w.fp32 then 4 else 2

/-- The reconstructed code of element `j` of a stored block: the planes kept, and their midpoint where the window asks
for it (R52, R76). -/
def winCode (s : State) (w : Win) (b j : Nat) : Int :=
  let bit (i : Nat) : Nat := (rdDram s (w.store + 16 * w.planes * b + 16 * i + j / 8)).toNat / 2 ^ (j % 8) % 2
  let u := (List.range w.planes).foldl (fun acc i => acc + bit i * 2 ^ (7 - i)) 0
  let v : Int := if 128 ≤ u then (u : Int) - 256 else u
  if w.mid && decide (w.planes < 8) then v + 2 ^ (7 - w.planes) else v

/-- The bits of decoded value `j` of block `b`: round(v × s, target, RNE) (R76). A zero has the sign of the product of IEEE 754, the
model's choice (log entry 60). -/
def winValue (s : State) (w : Win) (b j : Nat) : Nat :=
  let v := winCode s w b j
  let sc := fpDecode fmtBf (leNat (rdDramN s (w.scale + 2 * b) 2))
  (roundVal (if w.fp32 then fmt32 else fmtBf) .rne (mulExact (.fin (decide (v < 0)) v.natAbs 0) sc)).bits

/-- A decoded byte of an aperture (R91, R371). -/
def winByte (s : State) (k : Nat) : Byte :=
  let w := winAt s ((k - apBase) / 2 ^ 36)
  let off := (k - apBase) % 2 ^ 36
  let e := winEsize w
  BitVec.ofNat 8 (winValue s w (off / (128 * e)) (off / e % 128) / 2 ^ (8 * (off % e)))

/-- The byte current at the coherence point (R97). -/
def rdByte (s : State) (k : Nat) : Byte :=
  if apBase ≤ k ∧ k < apTop then
    match lcWord s k with
    | some w => byteOfW32 w (k % 4)
    | none => winByte s k
  else if k < dramTop then rdDram s k
  else SMap.get memDefault s.mem k

def rdBytes (s : State) (k n : Nat) : List Byte := (List.range n).map (fun i => rdByte s (k + i))

/-! ## The end-to-end check (R93–R95) -/

/-- One byte taken into a T10-DIF CRC, most significant bit first: polynomial 0x8BB7 (R93). -/
def crcByte (c : Nat) (b : Byte) : Nat :=
  (List.range 8).foldl (fun c i =>
    if (c / 2 ^ 15 + b.toNat / 2 ^ (7 - i)) % 2 = 1 then Nat.xor (2 * c % 2 ^ 16) 0x8BB7 else 2 * c % 2 ^ 16) c

/-- The check of a block's bytes (R93). -/
def blockCheck (l : List Byte) : Nat := l.foldl crcByte 0

/-- The checks of the 64-byte blocks that a payload for an address touches; in a block that it holds only in part the other bytes
count as zeros (log entry 106). -/
def dataChecks (addr : Nat) (l : List Byte) : List Nat :=
  (List.range ((addr % 64 + l.length + 63) / 64)).map (fun i => blockCheck ((List.range 64).map (fun j =>
    if addr % 64 ≤ 64 * i + j then l.getD (64 * i + j - addr % 64) 0 else 0)))

/-- Whether the 64-byte block of a byte holds data whose check fails. -/
def badBlock (s : State) (k : Nat) : Bool := SMap.get false s.bad (k / 64)

/-- Whether a read of an LPDDR-6 byte needs a block whose check fails. -/
def dramBad (s : State) (k : Nat) : Bool := (lcWord s k).isNone && badBlock s k

/-- The block of a window that an aperture address lies in. -/
def winBlock (s : State) (k : Nat) : Nat := (k - apBase) % 2 ^ 36 / (128 * winEsize (winAt s ((k - apBase) / 2 ^ 36)))

/-- Whether a stored block of a window or its scale fails its check. -/
def winBad (s : State) (w : Win) (b : Nat) : Bool :=
  dramBad s (w.scale + 2 * b) || (List.range (4 * w.planes)).any (fun i => dramBad s (w.store + 16 * w.planes * b + 4 * i))

/-- A failed decode is counted by its window (R371). -/
def decodeFail (s : State) (k : Nat) : State :=
  if apBase ≤ k ∧ k < apTop then
    let n := (k - apBase) / 2 ^ 36
    { s with wins := SMap.set {} s.wins n { (winAt s n) with e2efail := ((winAt s n).e2efail + 1) % 2 ^ 32 } }
  else s

/-- Whether a consumption of a byte meets a failed check: a word valid in the level cache needs no DRAM read (R88), an
aperture's byte needs its stored block and scale (R94). -/
def badByte (s : State) (k : Nat) : Bool :=
  if k < apTop then
    match lcWord s k with
    | some _ => false
    | none =>
      if k < apBase then badBlock s k else winBad s (winAt s ((k - apBase) / 2 ^ 36)) (winBlock s k)
  else badBlock s k

/-! ## Writes at the coherence point -/

/-- One byte written: below the apertures' top into the level cache, whose word a merging fill completes (R88); else
into the memory itself. -/
def wrByte (s : State) (k : Nat) (b : Byte) : State :=
  if k < apTop then
    let w : W32 := (List.range 4).foldr (fun i acc => (acc <<< 8) ||| (rdByte s (k / 4 * 4 + i)).setWidth 32) 0
    let i := 8 * (k % 4)
    let w := (w &&& ~~~((0xFF : W32) <<< i)) ||| (b.setWidth 32 <<< i)
    { s with lc := SMap.set none s.lc (k / 4) (some w) }
  else { s with mem := SMap.set memDefault s.mem k b }

def wrBytes (s : State) (l : List (Nat × Byte)) : State := l.foldl (fun s p => wrByte s p.1 p.2) s

/-- Consecutive bytes written from `k` on. -/
def wrRun (s : State) (k : Nat) (l : List Byte) : State :=
  wrBytes s ((List.range l.length).map (fun i => (k + i, l.getD i 0)))

/-- The first block whose old check a partial write must verify and finds failing: in the level cache a word filled
for a narrow write (R88), elsewhere a block not written whole (R94). -/
def badWrite (s : State) (keys : List Nat) : Option Nat :=
  keys.find? (fun k =>
    if k < apTop then
      badByte s k && !((List.range 4).all (fun i => keys.contains (k / 4 * 4 + i)))
    else badBlock s k && !((List.range 64).all (fun i => keys.contains (k / 64 * 64 + i))))

/-- How many blocks a partial write must verify and finds failing, by device address. -/
def badWriteBlocks (s : State) (addr : Nat) (keys : List Nat) : Nat :=
  max 1 ((((List.range keys.length).filter (fun i => (badWrite s (keys.filter (fun k => k / 64 == keys.getD i 0 / 64))).isSome)).map
    (fun i => (addr + i) / 64)).eraseDups).length

/-- The checks generated by a write: outside the level cache a written block is good again (R94). -/
def newChecks (s : State) (keys : List Nat) : State :=
  { s with bad := s.bad.filter (fun p => !(keys.any (fun k => decide (apTop ≤ k) && k / 64 == p.1))) }

/-- A word that a write leaves in part and that the level cache does not hold: it needs a merging fill (R88). -/
def partWord (s : State) (keys : List Nat) (k : Nat) : Bool :=
  decide (k < apTop) && (lcWord s k).isNone && !((List.range 4).all (fun i => keys.contains (k / 4 * 4 + i)))

/-- The four bytes of an aligned word. -/
def rdWord (s : State) (k : Nat) : W32 := (List.range 4).foldr (fun i acc => (acc <<< 8) ||| (rdByte s (k + i)).setWidth 32) 0

/-- What one fill takes: the first location and the number of words of a line, or of a whole decoded block of a format window
(R88, R91). -/
def fillSpan (s : State) (k : Nat) : Nat × Nat :=
  if apBase ≤ k ∧ k < apTop then
    let e := winEsize (winAt s ((k - apBase) / 2 ^ 36))
    (apBase + (k - apBase) / (128 * e) * (128 * e), 32 * e)
  else (k / 128 * 128, 32)

/-- The merging fill of a location: the words of its line or block that are not valid become valid, as DRAM or the stored block
gives them, but for those of a block whose check fails (R88, R91, R95). -/
def fillLine (s : State) (k : Nat) : State :=
  let x := fillSpan s k
  { s with lc := SMap.setAll none s.lc ((((List.range x.2).map (fun i => x.1 + 4 * i)).filter
      (fun a => (lcWord s a).isNone && !badByte s a)).map (fun a => (a / 4, some (rdWord s a)))) }

/-- The merging fills of some locations, each line or block once. -/
def fillAll (s : State) (keys : List Nat) : State :=
  ((keys.map (fun k => (fillSpan s k).1)).eraseDups).foldl fillLine s

/-- The merging fills that a write of some locations makes (R88). -/
def fillLines (s : State) (keys : List Nat) : State := fillAll s (keys.filter (partWord s keys))

/-- The merging fills that a read of some locations makes: those whose words the level cache does not hold (R88). -/
def fillReads (s : State) (keys : List Nat) : State :=
  fillAll s (keys.filter (fun k => decide (k < apTop) && (lcWord s k).isNone))

/-- Bytes written at their coherence point, with the fills that go before and the new checks (R88, R94). -/
def writeMem (s : State) (l : List (Nat × Byte)) : State :=
  let keys := l.map (fun b => b.1)
  newChecks (wrBytes (fillLines s keys) l) keys

/-! ## Handles (R77, R78, R358) -/

/-- Who accesses: a core, a cluster hoist (or layout network) for a core, a DMA hoist, the matrix array, a Lode
controller, a link command, a sequence unit and the generation loop, or the device itself for a queue or a context. -/
inductive Agent where
  | core | hoist | dma | mxa | lode | link | seq | dev
  deriving DecidableEq, Repr

inductive Acc where
  | r | w | a
  deriving DecidableEq, Repr

/-- Why an address does not translate: a refused kind, the `probe` code of R157, or a check that fails where the page-table entry
lies (R95; log entry 107). -/
inductive XFail where
  | refused (kind : Nat)
  | xlate (code : Nat)
  | check (pa : Nat)
  deriving DecidableEq, Repr, Inhabited

/-- On whose behalf an access runs: its core, its partition and context, and its mode. Foreman accesses use the
privileged table (R304), numbered as context 0 of partition 4. -/
structure Who where
  core : Nat
  eng : Eng := .c
  part : Nat
  ctx : Nat
  fore : Bool := false
  agent : Agent := .core
  deriving DecidableEq, Repr

def whoCore (s : State) (core : Nat) (g : Eng) (ag : Agent) : Who :=
  let c := coreAt s core
  let t := teamAt s c.tid
  if c.tid = 0x3FE then { core := core, eng := g, part := 4, ctx := 0, fore := true, agent := ag }
  else { core := core, eng := g, part := t.part, ctx := t.ctx, agent := ag }

def curWho (s : State) (ag : Agent) : Who := whoCore s s.cur.core s.cur.eng ag

def htKey (part ctx handle : Nat) : Nat := (part * 64 + ctx) * 65536 + handle

/-- The place of a handle's entry. The privileged table, numbered as context 0 of partition 4, holds the Foreman's own handles and
maps besides the handles of every partition; which of its handles names which of theirs is not stated (R304). No table maps handle 0
or a fixed handle (R77). -/
def entKey (s : State) (part ctx handle : Nat) : Nat :=
  if part = 4 ∧ handle ≠ 0 ∧ handle < 0xFFF0 ∧ SMap.get none s.ht (htKey part ctx handle) = none then Config.privName handle else htKey part ctx handle

/-- The entry of a handle (R358). -/
def htAt (s : State) (part ctx handle : Nat) : Option HEntry := SMap.get none s.ht (entKey s part ctx handle)

/-- The kinds of R78 each agent may reach. -/
def kindOk (ag : Agent) (acc : Acc) (kind : Nat) : Bool :=
  match ag, kind with
  | .core, 1 | .core, 6 => true
  | .core, 7 => true
  | .core, 5 => acc == .r
  | .core, _ => false
  | .hoist, 1 | .hoist, 2 | .hoist, 6 => true
  | .hoist, 5 => acc == .r
  | .hoist, _ => false
  | .dma, 1 | .dma, 2 | .dma, 3 | .dma, 6 => true
  | .dma, 5 => acc == .r
  | .dma, _ => false
  | .mxa, 1 | .mxa, 2 | .mxa, 5 | .mxa, 7 => acc == .r
  | .mxa, _ => false
  | .lode, 1 | .lode, 2 | .seq, 1 | .seq, 2 => true
  | .lode, 5 | .seq, 5 => acc == .r
  | .lode, _ | .seq, _ => false
  | .link, 1 | .link, 2 | .link, 6 | .dev, 1 | .dev, 2 | .dev, 6 => true
  | .link, 5 | .dev, 5 => acc == .r
  | .link, _ | .dev, _ => false

/-- The channel groups that exist: the CVL-4T256 lacks groups 2 and 3 (R2). -/
def dramGroups (s : State) : Nat := if s.order4T = 2 then 2 else 4
def stackCount (s : State) : Nat := if s.order4T = 2 then 4 else 8

/-- Whether an LPDDR-6 address lies in the channel groups of a partition; partition 4 is the Foreman pair's (R303, R373). -/
def dramOwned (s : State) (part pa : Nat) : Bool :=
  decide (pa / 2 ^ 37 < dramGroups s) && (part == 4 || SMap.get 7 s.own.ch (pa / 2 ^ 37) == part)

/-- Whether an address lies in an enabled window's aperture of a partition (R363, R371, R372). -/
def inAperture (s : State) (part pa : Nat) : Bool :=
  decide (apBase ≤ pa ∧ pa < apTop) &&
  (let w := winAt s ((pa - apBase) / 2 ^ 36)
   w.on && (part == 4 || w.part == part) && decide ((pa - apBase) % 2 ^ 36 < w.apsize))

/-- The port joined to a module, if it is up (R400). -/
def portTo (s : State) (m : Nat) : Option Nat :=
  (List.range 3).find? (fun p => let q := SMap.get ({} : Port) s.ports p; q.up && q.peer == m)

/-- Whether a present PTE admits its kind (R362, R363); a home behind a port that is down does not (R398). -/
def pteAdmits (s : State) (part kind : Nat) (pte : Word) : Bool :=
  let home := pte.toNat / 16 % 8
  let pa := pte.toNat / 2 ^ 21 * 2 ^ 21
  pte.toNat / 128 % 2 ^ 14 == 0 &&
  (if kind = 6 then
     s.order4T != 1 && (home == 4 || home == 5 || (decide (home < 4) && home != s.modNum && decide (home < s.modCount) && (portTo s home).isSome))
   else home == s.modNum && (dramOwned s part pa || inAperture s part pa))

/-- The page-table entry's address (R362, R364). -/
def pteAddr (base off : Nat) : Nat := base + 16 * (off / 2 ^ 21)

/-- The engine in whose TLB an agent holds translations: a core's own, M for operand fetches, H for commands (R365). -/
def tlbEng (w : Who) : Eng := match w.agent with | .core => w.eng | .mxa => .m | _ => .h

/-- The translations an agent holds, by the address of the entry. The Lode controllers' stand in one map; sequence units, and
the device's own accesses, have no TLB (R365). -/
def tlbOf (s : State) (w : Who) : SMap (Option Word) :=
  match w.agent with
  | .lode => s.ltlb
  | .seq | .dev => []
  | _ => (engSt (coreAt s w.core) (tlbEng w)).tlb

/-- A PTE put into an agent's TLB (R364, R365). -/
def holdPte (s : State) (w : Who) (at_ : Nat) (p : Word) : State :=
  match w.agent with
  | .lode => { s with ltlb := SMap.set none s.ltlb at_ (some p) }
  | .seq | .dev => s
  | _ => upCore s w.core (fun c => upEng c (tlbEng w) (fun x => { x with tlb := SMap.set none x.tlb at_ (some p) }))

/-- The PTE in memory, as a walker reads it at the level cache (R362). -/
def memPte (s : State) (at_ : Nat) : Word := BitVec.ofNat 64 (leNat (rdDramN s at_ 8))

/-- The PTE an agent uses for a page: an entry its TLB holds or the one in memory; which of the two is not
architectural while both exist (R365). -/
def pickPte (s : State) (w : Who) (at_ : Nat) : Word × Bool :=
  let held := SMap.get none (tlbOf s w) at_
  let mem := memPte s at_
  match held with
  | some p => if Config.freeBit s.free then (p, false) else (mem, true)
  | none => (mem, true)

/-- Whether a walker that reads an entry in memory meets a check that fails (R95). -/
def pteBad (s : State) (at_ : Nat) : Bool := [0, 4, 8].any (fun i => dramBad s (at_ + i))

/-- The base of a backing: the shadow for engine writes, else the front (R109, R110). -/
def backing (e : HEntry) (shadow : Bool) : Nat := if e.shadow && (shadow != e.swapped) then e.sbase else e.base

/-- Whether a scratchpad byte of a cluster may be reached (R80, R386). -/
def scratchOk (s : State) (w : Who) (b : Nat) : Bool :=
  (w.fore || !(clusterOf w.core == 0 && decide (b < 2 ^ 23))) &&
  !(SMap.get false s.deadPairs (8 * clusterOf w.core + b / 2 ^ 23))

/-- Bytes of a scratchpad by physical location. -/
def scratchKey (core b : Nat) : Nat := pairBase + clusterOf core * 2 ^ 26 + b

/-- One byte of a device address translated (R77, R80, R364, R419). `shadow` sends an engine's write to the shadow
backing. -/
def xlateByte (s : State) (w : Who) (acc : Acc) (shadow : Bool) (addr : Nat) : Except XFail Nat :=
  let h := addr / 2 ^ 48 % 65536
  let off := addr % 2 ^ 48
  if h = 0xFFFF then .error (.refused 0)
  else if h = 0xFFFE then
    if 2 ^ 26 ≤ off then .error (.xlate 2)
    else if scratchOk s w off then .ok (scratchKey w.core off) else .error (.xlate 1)
  else
    match htAt s w.part w.ctx h with
    | none => .error (.xlate 1)
    | some e =>
      if !kindOk w.agent acc e.kind then .error (.refused e.kind)
      else if e.ext ≤ off then .error (.xlate 2)
      else if e.kind = 2 then .ok (tensorBase + backing e shadow + off)
      else if e.kind = 3 then .ok (remoteBase (8 + e.sbase) (e.base + off))
      else if e.kind = 7 then .ok (pageBase + off % 2 ^ 14)
      else
        let at_ := pteAddr (backing e shadow) off
        let pte := (pickPte s w at_).1
        if (pickPte s w at_).2 && pteBad s at_ then .error (.check at_)
        else if pte.toNat % 2 = 0 then .error (.xlate 4)
        else if !pteAdmits s w.part e.kind pte then .error (.xlate 1)
        else
          let pa := pte.toNat / 2 ^ 21 * 2 ^ 21 + off % 2 ^ 21
          let home := pte.toNat / 16 % 8
          if home = s.modNum then .ok pa else .ok (remoteBase home pa)

/-- Where two conditions meet, the higher row of R419 decides. -/
def xrank : XFail → Nat
  | .refused _ => 0
  | .xlate c => c
  | .check _ => 5

/-- Results gathered over the parts of an access: all of them, or the failure of the highest row (R419). -/
def xmerge {α : Type} (x : Except XFail α) (r : Except XFail (List α)) : Except XFail (List α) :=
  match x, r with
  | .ok k, .ok l => .ok (k :: l)
  | .ok _, .error x => .error x
  | .error x, .ok _ => .error x
  | .error x, .error y => .error (if xrank y < xrank x then y else x)

/-- Byte `i` of an access: one past offset 2^48 − 1 lies beyond every extent, and never in the next handle (R77). -/
def xlateNth (s : State) (w : Who) (acc : Acc) (shadow : Bool) (addr i : Nat) : Except XFail Nat :=
  if 2 ^ 48 ≤ addr % 2 ^ 48 + i then .error (.xlate 2) else xlateByte s w acc shadow (addr + i)

/-- Every byte of an access translated; the failure of the highest row (R77, R419). -/
def xlateRange (s : State) (w : Who) (acc : Acc) (shadow : Bool) (addr n : Nat) : Except XFail (List Nat) :=
  (List.range n).foldr (fun i r => xmerge (xlateNth s w acc shadow addr i) r) (.ok [])

/-- The ACCESSED byte of an entry changed at the level cache, by a partial write like any other: where its block fails its check
it is left (R88, R94, R364). -/
def markPte (s : State) (at_ : Nat) (f : Byte → Byte) : State :=
  if dramBad s (at_ + 8) || f (rdDram s (at_ + 8)) == rdDram s (at_ + 8) then s else writeMem s [(at_ + 8, f (rdDram s (at_ + 8)))]

/-- A PTE read in memory for an agent: the ACCESSED bit of its module and die set, a stream TLB counting as die 0, and the
entry held in its TLB (R364, R365). -/
def loadPte (s : State) (w : Who) (at_ : Nat) : State :=
  let p := pickPte s w at_
  if p.2 && p.1.toNat % 2 == 1 && !pteBad s at_ then
    let die := if w.agent = .core ∧ w.eng = .c then w.core % 2 else 0
    holdPte (markPte s at_ (fun b => b ||| BitVec.ofNat 8 (2 ^ (2 * s.modNum + die)))) w at_ p.1
  else s

/-- Whether an agent translates through a stream TLB, which loads the PTE of the next page in advance (R365). -/
def streams (w : Who) : Bool := !(w.agent == .core && w.eng == .c)

/-- The page of an access noted. An agent with a stream TLB loads the PTE of the page after it too, where that page lies
within the extent, is present and is admitted, and where it has come to that (R365; log entry 11). -/
def notePage (s : State) (w : Who) (shadow : Bool) (addr : Nat) : State :=
  match htAt s w.part w.ctx (addr / 2 ^ 48 % 65536) with
  | none => s
  | some e =>
    if e.kind = 2 ∨ e.kind = 3 ∨ e.kind = 4 ∨ e.kind = 7 ∨ addr / 2 ^ 48 % 65536 = 0xFFFE ∨ w.agent = .seq ∨ w.agent = .dev then s
    else
      let off := addr % 2 ^ 48
      let next := pteAddr (backing e shadow) (off + 2 ^ 21)
      let ahead := streams w && decide ((off / 2 ^ 21 + 1) * 2 ^ 21 < e.ext) && (memPte s next).toNat % 2 == 1 &&
        pteAdmits s w.part e.kind (memPte s next) && Config.freeBit (s.free + 1)
      let s := loadPte s w (pteAddr (backing e shadow) off)
      if ahead then loadPte s w next else s

/-- The pages of an access noted, and two free values drawn. -/
def notePages (s : State) (w : Who) (shadow : Bool) (addr n : Nat) : State :=
  let s := notePage s w shadow addr
  let s := if (addr % 2 ^ 21 + (n - 1)) / 2 ^ 21 = 0 then s else notePage s w shadow (addr + (n - 1))
  { s with free := s.free + 2 }

/-- The merging fills of a read of `n` bytes (R88). -/
def fillRun (s : State) (w : Who) (addr n : Nat) : State :=
  match xlateRange s w .r false addr n with
  | .ok keys => fillReads s keys
  | .error _ => s

/-- The pages of a command's accesses noted, each once, and the lines that they read filled: whether an access writes, and its
address (R88, R364). -/
def noteAll (s : State) (w : Who) (l : List (Bool × Nat)) : State :=
  let s := ((l.map (fun p => (p.1, p.2 / 2 ^ 21))).eraseDups).foldl (fun s p => notePage s w p.1 (p.2 * 2 ^ 21)) s
  (l.filter (fun p => !p.1)).foldl (fun s p => fillRun s w p.2 1) s

/-- What a translation failure says in a fault record (R307, R419). -/
def xInfo (x : XFail) (addr n : Nat) : FInfo :=
  match x with
  | .refused k => { code := 3, info := k, addr := addr, len := n }
  | .xlate c => { code := 2, info := c, addr := addr, len := n }
  | .check pa => { code := 5, addr := pa / 64 * 64, len := 64 }

/-- The failing 64-byte blocks of an access, `bad` telling of each byte whether its check fails: the offset of the first failing
byte, and how many blocks there are, by device address (R95, R310). -/
def failBlocks (bad : Nat → Bool) (addr : Nat) (keys : List Nat) : Option (Nat × Nat) :=
  let l := (List.range keys.length).filter (fun i => bad (keys.getD i 0))
  match l with
  | [] => none
  | i :: _ => some (i, ((l.map (fun j => (addr + j) / 64)).eraseDups).length)

/-- Those of what an access reads on this module. -/
def badBlocks (s : State) (addr : Nat) (keys : List Nat) : Option (Nat × Nat) :=
  failBlocks (fun k => !isRemote k && badByte s k) addr keys

/-- The fault of a failed check: the 64-byte range (R95, R307). -/
def e2eInfo (addr : Nat) : FInfo := { code := 5, addr := addr / 64 * 64, len := 64 }

/-- The class-2 report that goes with a failed check (R310): its consumer and first failing block. -/
def e2eReport (s : State) (consumer addr blocks : Nat) : State :=
  let r := coreRec s 2 { code := 1, info := consumer, addr := addr / 64 * 64, len := 64 * blocks }
  holdReport s { r with eng := 0xFF }

/-- A device address at which an agent met a block that could not be decoded, counted by its format window (R371). -/
def windowFail (s : State) (w : Who) (addr : Nat) : State :=
  match xlateRange s w .r false addr 1 with
  | .ok (k :: _) => decodeFail s k
  | _ => s

/-- The class-2 report of a fetch of text or of an operand that ended with a fault, where the checks of some blocks failed (R95,
R310). -/
def fetchReport (s : State) (w : Who) (consumer : Nat) (f : FInfo) (blocks : Nat) : State :=
  if f.code = 5 then e2eReport (windowFail s w f.addr) consumer f.addr blocks else s

/-- The report of a core's access whose page-table entry lies in a block that fails its check (R95, R310). -/
def xReport (s : State) (x : XFail) : State :=
  match x with
  | .check pa => e2eReport s 0 pa 1
  | _ => s

/-- `effective_address` (R141): none where the sum leaves the handle. -/
def effAddr (x : Word) (imm : Int) : Option Nat :=
  let off : Int := (x.toNat % 2 ^ 48 : Nat) + imm
  if off < 0 ∨ (2 ^ 48 : Int) ≤ off then none else some (x.toNat / 2 ^ 48 * 2 ^ 48 + off.toNat)

/-! ## Stores and L1 (R87, R97, R98, R101) -/

/-- A store performed at its coherence point; a line of the core's own L1 that it overlaps goes (R87, R98). -/
def performStore (s : State) (core id : Nat) : State :=
  match (coreAt s core).stq.find? (fun p => p.id == id) with
  | none => s
  | some p =>
    let s := upCore s core (fun c => { c with stq := c.stq.filter (fun q => q.id != id),
                                              l1 := c.l1.filter (fun l => !(p.bytes.any (fun b => b.1 / 128 == l.phys) || l.dev == p.addr / 128)) })
    if p.remote then s else writeMem s (p.bytes.filter (fun b => !inPage b.1))

def overlaps (a b : PendSt) : Bool := a.bytes.any (fun x => b.bytes.any (fun y => x.1 == y.1))

/-- A store to the host or a device goes as a posted write: it performs without an answer. -/
def posted (p : PendSt) : Bool := p.remote && p.bytes.all (fun b => decide (4 ≤ remoteHome b.1))

/-- The `k`-th store a core has issued performs, unless an earlier one to the same location stands before it (R98). A
store to another module performs when its completion comes back. -/
def performNth (s : State) (core k : Nat) : State :=
  let q := (coreAt s core).stq
  match q[k]? with
  | none => s
  | some p =>
    if (p.remote && !posted p) || (q.take k).any (fun x => overlaps x p) then s
    else
      let s := performStore s core p.id
      if p.remote then { s with reqs := s.reqs.filter (fun r => r.who != .store core p.id) } else s

/-- The stores on this module among the first `n` that a core has issued and not performed, performed in issue order. -/
def performFirst (s : State) (core n : Nat) : State :=
  (((coreAt s core).stq.take n).filter (fun p => !p.remote)).foldl (fun s p => performStore s core p.id) s

/-- The stores of a core that it issued before its store or command `id`, performed where they lie on this module (R105). -/
def performBefore (s : State) (core id : Nat) : State :=
  performFirst s core ((coreAt s core).stq.takeWhile (fun p => decide (p.id < id))).length

/-- Every store of a core on this module performed, in issue order (R100, R101, R105). -/
def performAll (s : State) (core : Nat) : State :=
  ((coreAt s core).stq.filter (fun p => !p.remote)).foldl (fun s p => performStore s core p.id) s

/-- The stores on this module that write a byte of a set, and the earlier ones that overlap a store so found: those must
perform before it (R98). -/
def storesTo (q : List PendSt) (f : Nat → Bool) : List PendSt :=
  (q.foldr (fun p (r : List PendSt × (Nat → Bool)) =>
    if !p.remote && p.bytes.any (fun b => r.2 b.1) then (p :: r.1, fun k => r.2 k || p.bytes.any (fun b => b.1 == k)) else r)
    ([], f)).1

/-- Every store of a core on this module that writes a byte of a set performed, with those that must go before, in issue
order (R98). -/
def performIn (s : State) (core : Nat) (f : Nat → Bool) : State :=
  (storesTo (coreAt s core).stq f).foldl (fun s p => performStore s core p.id) s

/-- Every store of a core that writes one of the given bytes performed (R98, R102). -/
def performKeys (s : State) (core : Nat) (keys : List Nat) : State := performIn s core (fun k => keys.contains k)

/-- Bytes as a core sees them: its own stores not yet performed over what lies below (R36, R101). -/
def forward (c : Core) (k : Nat) (b : Byte) : Byte :=
  c.stq.foldl (fun b p => (p.bytes.foldl (fun b x => if x.1 = k then x.2 else b) b)) b

/-- Lines of a core's own L1 that a store or atomic overlaps are invalidated (R87). -/
def dropLines (s : State) (core addr n : Nat) (keys : List Nat) : State :=
  upCore s core (fun c => { c with l1 := c.l1.filter (fun l =>
    !(decide (addr / 128 ≤ l.dev ∧ l.dev ≤ (addr + n - 1) / 128) || keys.any (fun k => k / 128 == l.phys))) })

/-- Whether a snapshot load of a handle may use L1 (R87): kinds `dram`, `const` and `peer`. -/
def l1Able (addr key : Nat) : Bool := addr / 2 ^ 48 % 65536 != 0xFFFE && (decide (key < apTop) || isRemote key)

/-- Whether an address lies in a shadowed handle of a context. -/
def shadowed (s : State) (w : Who) (addr : Nat) : Bool :=
  match htAt s w.part w.ctx (addr / 2 ^ 48 % 65536) with | some e => e.shadow | none => false

/-- The line that the executing core's L1 holds for an address: of its present location, or, in a shadowed handle, of the
backing that was the front when the line was filled, since a publish is a write that a snapshot load need not see (R101). It must hold
the words of the `n` bytes that the load takes from it. -/
def heldLine (s : State) (addr key n : Nat) : Option L1Line :=
  (curCore s).l1.find? (fun l => l.dev == addr / 128 && (l.phys == key / 128 || shadowed s (curWho s .core) addr) &&
    !(l.holes.any (fun i => decide (addr % 128 / 4 ≤ i ∧ i ≤ (addr % 128 + (n - 1)) / 4))))

/-- Whether the check of a byte fails for a load of the executing engine: on this module, or in what has come back (R95). -/
def loadBad (s : State) (k : Nat) : Bool := if isRemote k then SMap.get false (curEng s).reply.lost k else badByte s k

/-- A byte as the executing engine's load finds it below L1: in this module's memory, or in what has come back. -/
def homeByte (s : State) (k : Nat) : Byte :=
  if isRemote k then (SMap.get none (curEng s).reply.got k).getD 0 else rdByte s k

/-- The bytes of one line's part of a snapshot load: from the line L1 holds, or from a line filled now; which, while L1
holds one, is not architectural (R87, R101). -/
def snapLine (s : State) (addr : Nat) (keys : List Nat) : List Byte × State :=
  let key := keys.headD 0
  let take := if isRemote key then (SMap.get none (curEng s).reply.got key).isNone else Config.freeBit s.free
  let k0 := key / 128 * 128
  match heldLine s addr key keys.length, take with
  | some l, true =>
    (((List.range keys.length).map (fun i => l.data.getD (addr % 128 + i) 0)), { s with free := s.free + 1 })
  | _, _ =>
    let line : L1Line := { dev := addr / 128, phys := key / 128, data := (List.range 128).map (fun i => homeByte s (k0 + i)),
                           holes := (List.range 32).filter (fun i => loadBad s (k0 + 4 * i)) }
    (keys.map (homeByte s),
      upCur { (fillReads s ((List.range 128).map (fun i => k0 + i))) with free := s.free + 1 } (fun c => { c with l1 := line :: c.l1.filter (fun l => l.dev != line.dev && l.phys != line.phys) }))

/-- An access cut at 128-byte line boundaries (R79): offset within the access and length of each part. -/
def lineParts (addr n : Nat) : List (Nat × Nat) :=
  (List.range (n / 128 + 2)).filterMap (fun i =>
    let lo := if i = 0 then addr else (addr / 128 + i) * 128
    let hi := min (addr + n) ((addr / 128 + i + 1) * 128)
    if lo < hi then some (lo - addr, hi - lo) else none)

/-! ## Program text (R19, R23, R114) -/

/-- The state as a core's text fetch sees it: memory and tables of the launch, walked afresh (R114). -/
def viewState (s : State) (c : Core) : State :=
  { s with mem := c.view.mem, lc := c.view.lc, bad := c.view.bad, ht := c.view.ht, cores := [], free := c.view.salt }

/-- Where byte `i` of a fetch from text offset `off` comes from: what joins have fetched anew, or a location in the launch's
memory; what another module holds is a free value. -/
def textByte (v : State) (w : Who) (new : SMap (Option TByte)) (text off i : Nat) : Except XFail (Option Byte) :=
  match SMap.get none new (off + i) with
  | some (.byte b) => .ok (some b)
  | some (.fail why) => if why = 1 then .ok none else .error (if why < 32 then .xlate (why - 16) else .refused (why - 32))
  | none =>
    match (if 2 ^ 48 ≤ off + i then .error (.xlate 2) else xlateByte v w .r false (text * 2 ^ 48 + (off + i))) with
    | .error x => .error x
    | .ok k => if isRemote k then .ok (some (Config.peerText v.free k)) else if badByte v k then .ok none else .ok (some (rdByte v k))

/-- `n` bytes of the core's text from offset `off`, or the fault of the fetch: of several that do not translate the highest row,
and of several that fail their check the first (R23, R95, R419). -/
def fetchText (s : State) (off n : Nat) : Except FInfo (List Byte) :=
  let c := curCore s
  let t := curTeam s
  let v := viewState s c
  let w := curWho s .core
  match (List.range n).foldr (fun i r => xmerge (textByte v w c.tnew t.text off i) r) (.ok []) with
  | .error x => .error (xInfo x (t.text * 2 ^ 48 + off) n)
  | .ok l =>
    match l.findIdx? (fun b => b.isNone) with
    | some i => .error (e2eInfo (t.text * 2 ^ 48 + (off + i)))
    | none => .ok (l.map (fun b => b.getD 0))

/-- How many 64-byte blocks of a fetch fail their check (R310). -/
def textFails (s : State) (off n : Nat) : Nat :=
  let c := curCore s
  let t := curTeam s
  let v := viewState s c
  let w := curWho s .core
  max 1 (((List.range n).filter (fun i => match textByte v w c.tnew t.text off i with | .ok none => true | _ => false)).map
    (fun i => (off + i) / 64)).eraseDups.length

/-- The text page at an offset loaded into the core's TLB: the ACCESSED bit of its die set where the PTE is present (R364). -/
def noteTextPage (s : State) (off : Nat) : State :=
  let w := curWho s .core
  match htAt s w.part w.ctx (curTeam s).text with
  | none => s
  | some e =>
    let at_ := pteAddr (backing e false) off
    if (e.kind = 1 ∨ e.kind = 5 ∨ e.kind = 6) ∧ (memPte s at_).toNat % 2 = 1 then
      markPte s at_ (fun b => b ||| BitVec.ofNat 8 (2 ^ (2 * s.modNum + s.cur.core % 2)))
    else s

/-- The text pages of a section that an engine starts, which it fetches from there on (R364). -/
def noteText (s : State) (off n : Nat) : State :=
  (List.range ((off + n - 1) / 2 ^ 21 + 1 - off / 2 ^ 21)).foldl (fun s i => noteTextPage s ((off / 2 ^ 21 + i) * 2 ^ 21)) s

/-- The 96 bits of the word at an offset, 0 where it cannot be fetched. -/
def wordAt (s : State) (off : Nat) : BitVec 96 :=
  match fetchText s off 12 with
  | .ok l => BitVec.ofNat 96 (leNat l)
  | .error _ => 0

/-- The device address of a text offset (R308). -/
def textAddr (s : State) (off : Nat) : Nat := (curTeam s).text * 2 ^ 48 + off

/-! ## Accesses of a core -/

/-- The result of an access: a value and the state after it; a wait for another home; or a fault. -/
inductive MRes (α : Type) where
  | ok (a : α) (s : State)
  | wait (s : State)
  | fail (f : FInfo) (s : State)

/-- A request sent to another module or over PCIe (R400, R401). -/
def sendReq (s : State) (kind : ReqKind) (who : Asker) (home pa len : Nat) (data : List Byte) : State × Nat :=
  let port := if home < 4 then portTo s home else none
  ({ s with reqs := s.reqs ++ [{ id := s.nreq, port := port, home := home, kind := kind, who := who, addr := pa, len := len, data := data }],
            nreq := s.nreq + 1 }, s.nreq)

/-- Consecutive runs of remote locations: first location and length. A run of the host's addresses ends with its 64 KiB page, each
of which is translated on its own (R367), and one for a linked module after the 192 bytes of a flit (R397). -/
def remoteRuns (l : List Nat) : List (Nat × Nat) :=
  l.foldl (fun acc k =>
    match acc.getLast? with
    | some (a, n) => if a + n = k ∧ (remoteHome k < 8 ∨ k % 65536 ≠ 0) ∧ (4 ≤ remoteHome k ∨ n < 192) then acc.dropLast ++ [(a, n + 1)] else acc ++ [(k, 1)]
    | none => [(k, 1)]) []

/-- The fault of an access whose request failed (R95, R108, R398): a check of the home's, a port that is down, or the
host. -/
def remoteFault (why addr n : Nat) : FInfo :=
  match why with
  | 1 | 5 => e2eInfo addr
  | 2 => { code := 2, info := 1, addr := addr, len := n }
  | _ => { code := 15, addr := addr, len := n }

/-- What a load needs from other homes: nothing more, an answer, or its request has failed. -/
inductive Need where
  | ready
  | wait (s : State)
  | failed (why : Nat)

/-- The locations that a snapshot load needs: nothing while L1 holds every line of it and the load takes them there, else the
whole line of each byte on another home (R87). -/
def snapNeed (s : State) (addr : Nat) (keys : List Nat) : List Nat :=
  if (curEng s).reply.got.isEmpty && (curEng s).reply.lost.isEmpty && (curEng s).reply.tags.isEmpty && Config.freeBit s.free &&
      (lineParts addr keys.length).all (fun q => (heldLine s (addr + q.1) (keys.getD q.1 0) q.2).isSome) then []
  else (((keys.filter isRemote).map (fun k => k / 128)).eraseDups).flatMap (fun l => (List.range 128).map (fun i => 128 * l + i))

/-- Bytes that a load of the executing engine needs from another home: all there, or requested (R400). -/
def needRemote (s : State) (keys : List Nat) : Need :=
  let e := curEng s
  let miss := keys.filter (fun k => isRemote k && (SMap.get none e.reply.got k).isNone && !SMap.get false e.reply.lost k)
  match miss, e.reply.bad with
  | [], _ => .ready
  | _, some b => .failed b.why
  | _, none =>
    if e.reply.tags.isEmpty then
      let p := (remoteRuns miss).headD (0, 0)
      let (s, id) := sendReq s .read (.eng s.cur.core s.cur.eng) (remoteHome p.1) (remotePa p.1) p.2 []
      .wait (upCurEng s (fun e => { e with reply := { e.reply with tags := [id] } }))
    else .wait s

/-- Whether a store of the core to a location of another home is still on its way, before which the engine's next access there may
not go (R98, R102). -/
def ownStoreAway (s : State) (keys : List Nat) : Bool :=
  (curEng s).reply.tags.isEmpty && (curCore s).stq.any (fun p => p.remote && p.bytes.any (fun b => keys.contains b.1))

/-- What a load has read noted, where one of its parts goes ahead of the others (R79, R180). -/
def keepPart (s : State) (addr : Nat) (bs : List Byte) : State :=
  if (curEng s).reply.part.isSome then
    upCurEng s (fun e => { e with reply := { e.reply with
      fixed := SMap.setAll none e.reply.fixed ((List.range bs.length).map (fun i => (addr + i, some (bs.getD i 0)))) } })
  else s

/-- The bytes of a load, line by line: a snapshot's from L1 and its core's own stores, a fresh one's as they stand at the coherence
point, once the core's stores to them have performed (R87, R88, R98, R101, R102). -/
def loadBytes (s : State) (addr : Nat) (keys : List Nat) (snap : Bool) : List Byte × State :=
  let s := if snap then s else performKeys s s.cur.core keys
  let r := (lineParts addr keys.length).foldl (fun (p : List Byte × State) q =>
    let ks := (keys.drop q.1).take q.2
    if snap then
      let r := snapLine p.2 (addr + q.1) ks
      (p.1 ++ r.1, r.2)
    else (p.1 ++ ks.map (homeByte p.2), fillReads p.2 ks)) ([], s)
  (if snap then (List.range keys.length).map (fun i => forward (curCore r.2) (keys.getD i 0) (r.1.getD i 0)) else r.1, r.2)

/-- A core's load of `n` bytes (R79, R98, R101, R102, R151). What parts of it have read before stands. -/
def coreLoad (s : State) (addr n : Nat) (fresh : Bool) : MRes (List Byte) :=
  let w := curWho s .core
  match xlateRange s w .r false addr n with
  | .error x => .fail (xInfo x addr n) (xReport s x)
  | .ok keys =>
    let snap := !fresh && keys.all (fun k => l1Able addr k)
    if !snap && ownStoreAway s keys then .wait s
    else match needRemote s (if snap then snapNeed s addr keys else keys) with
    | .wait s => .wait s
    | .failed why => .fail (remoteFault why addr n) s
    | .ready =>
      match failBlocks (loadBad s) addr keys with
      | some b => .fail (e2eInfo (addr + b.1)) (e2eReport (decodeFail s (keys.getD b.1 0)) 0 (addr + b.1) b.2)
      | none =>
        let r := loadBytes s addr keys snap
        let s := notePages r.2 w false addr n
        let fixed := (curEng s).reply.fixed
        let bs := (List.range n).map (fun i => (SMap.get none fixed (addr + i)).getD (r.1.getD i 0))
        .ok bs (keepPart (bumpClk s) addr bs)

/-- One part of a store issued: it is to perform at its coherence point, or leaves as a write for another home (R97, R400). -/
def issuePart (s : State) (addr : Nat) (ks : List Nat) (ds : List Byte) : State :=
  let g := s.cur.eng
  let c := curCore s
  let pc := (curEng s).pc
  let p : PendSt := { id := c.nid, eng := g, seq := clkGet (engSt c g).seen g, bytes := ks.zip ds, remote := ks.any isRemote,
                      addr := addr, text := textAddr s pc, word := (wordAt s pc).toNat }
  let s := upCur s (fun c => { c with stq := c.stq ++ [p], nid := c.nid + 1 })
  if p.remote then
    (sendReq s .write (.store s.cur.core p.id) (remoteHome (ks.headD 0)) (remotePa (ks.headD 0)) ds.length ds).1
  else s

/-- Pieces of four bytes of a part. -/
def wordParts (q : Nat × Nat) : List (Nat × Nat) := (List.range ((q.2 + 3) / 4)).map (fun i => (q.1 + 4 * i, min 4 (q.2 - 4 * i)))

/-- The parts of a store that are still to be issued: a part for each line, or the elements of one of which some have gone ahead. -/
def storeParts (addr n : Nat) (put : Nat → Bool) : List (Nat × Nat) :=
  (lineParts addr n).flatMap (fun q =>
    if (List.range q.2).any (fun i => put (q.1 + i)) then (wordParts q).filter (fun p => !put p.1) else [q])

/-- A store whose bytes all translate and verify issued, a part for each line. -/
def issueStore (s : State) (addr : Nat) (keys : List Nat) (data : List Byte) (put : Nat → Bool) : State :=
  let n := data.length
  let s := bumpClk (notePages s (curWho s .core) false addr n)
  let s := dropLines s s.cur.core addr n keys
  (storeParts addr n put).foldl (fun s q => issuePart s (addr + q.1) ((keys.drop q.1).take q.2) ((data.drop q.1).take q.2)) s

/-- A core's store (R79, R94, R97, R109, R150, R151): issued, to perform later. Its first byte is byte `o` of what its word stores,
of which some parts may have been issued ahead. -/
def coreStoreAt (o : Nat) (s : State) (addr : Nat) (data : List Byte) : MRes Unit :=
  let n := data.length
  match xlateRange s (curWho s .core) .w false addr n with
  | .error x => .fail (xInfo x addr n) (xReport s x)
  | .ok keys =>
    match badWrite s (keys.filter (fun k => !isRemote k)) with
    | some k => .fail (e2eInfo (addr + keys.idxOf k)) (e2eReport (decodeFail s k) 0 (addr + keys.idxOf k)
        (badWriteBlocks s addr (keys.filter (fun k => !isRemote k))))
    | none => .ok () (issueStore s addr keys data (fun i => SMap.get false (curEng s).reply.put (o + i)))

def coreStore (s : State) (addr : Nat) (data : List Byte) : MRes Unit := coreStoreAt 0 s addr data

/-! ## Parts of an access (R79, R180)

The parts of an access are translated and made visible each on its own: the pieces at line boundaries of a C engine's access, the
elements of a vector one. A turn may have one part go ahead of the others. -/

/-- The parts of some accesses, each an address and a length. -/
def accParts (g : Eng) (l : List (Nat × Nat)) : List (Nat × Nat) :=
  l.flatMap (fun p => ((if g = .v then wordParts (0, p.2) else lineParts p.1 p.2).map (fun q => (p.1 + q.1, q.2))))

/-- The part that is to go ahead, if one is and there are several. -/
def partOf (s : State) (l : List (Nat × Nat)) : Option Nat :=
  let n := (accParts s.cur.eng l).length
  if n ≤ 1 then none else (curEng s).reply.part.map (fun i => i % n)

def clearPart (s : State) : State := upCurEng s (fun e => { e with reply := { e.reply with part := none } })

/-- One part of a load's accesses made ahead of the others; what it meets other than data is left for the whole. -/
def partLoad (s : State) (l : List (Nat × Nat)) (fresh : Bool) : Option State :=
  (partOf s l).map (fun i =>
    let p := (accParts s.cur.eng l).getD i (0, 0)
    match coreLoad s p.1 p.2 fresh with
    | .ok _ s => clearPart s
    | .wait s => clearPart s
    | .fail _ _ => clearPart s)

/-- Whether an earlier part of a store, not issued yet, writes a location of part `i`: that one must go first (R98, R180). -/
def partHeld (s : State) (ps : List (Nat × Nat)) (i : Nat) : Bool :=
  let keys (p : Nat × Nat) : List Nat := match xlateRange s (curWho s .core) .w false p.1 p.2 with | .ok l => l | .error _ => []
  let off (j : Nat) : Nat := ((ps.take j).map (fun p => p.2)).sum
  (List.range i).any (fun j => !SMap.get false (curEng s).reply.put (off j) && (keys (ps.getD j (0, 0))).any (fun k => (keys (ps.getD i (0, 0))).contains k))

/-- One part of a store's accesses issued ahead of the others. -/
def partStore (s : State) (l : List (Nat × List Byte)) : Option State :=
  let acc := l.map (fun p => (p.1, p.2.length))
  (partOf s acc).map (fun i =>
    let ps := accParts s.cur.eng acc
    let p := ps.getD i (0, 0)
    let o := ((ps.take i).map (fun p => p.2)).sum
    if SMap.get false (curEng s).reply.put o || partHeld s ps i then clearPart s
    else match coreStoreAt o s p.1 (((l.flatMap (fun p => p.2)).drop o).take p.2) with
      | .ok _ s => clearPart (upCurEng s (fun e => { e with reply := { e.reply with
          put := SMap.setAll false e.reply.put ((List.range p.2).map (fun j => (o + j, true))) } }))
      | .wait s => clearPart s
      | .fail _ _ => clearPart s)

/-! ## Running a word (R29, R30, R34, R142) -/

/-- The PUSH field of the `rep` that repeats the current word. -/
def repPush (s : State) : BitVec 3 :=
  if (curEng s).rst.active then (unpackWord (wordAt s ((curEng s).pc - 12))).push else 0

/-- A fatal error of the word at PC (R129, R306). -/
def fatalHere (s : State) (f : FInfo) : State :=
  raiseFatal s f (textAddr s (curEng s).pc) (wordAt s (curEng s).pc).toNat

/-- The executing engine issues the word at its PC, or goes on with it where it has issued: pops, then the effect
unless the word is nullified, then pushes and retirement. -/
def runWordS (s : State) (h : Hd) (w : WordDef) : State :=
  let g := s.cur.eng
  let e := curEng s
  if e.pushpend then retireWord s h (repPush s) (liveWord e h) w
  else
    match (if e.issued then none else popBlocked (curCore s) g h.pop) with
    | some f => upCurEng s (fun e => waitOn s.tick e 1 f 0)
    | none =>
      let s := if e.issued then s else upCur s (fun c => (popTokens c g h.pop).1)
      if liveWord e h then
        match w.eff s with
        | .done s => retireWord (upCurEng s (fun e => { e with reply := {} })) h (repPush s) true w
        | .stall k d o s => upCurEng s (fun e => { waitOn s.tick e k d o with issued := true })
        | .fatal f s => fatalHere s f
        | .trap f lanes mask s =>
          let s := upCurEng s (fun e => { e with issued := true })
          raiseTrap s f lanes mask (textAddr s (curEng s).pc) (wordAt s (curEng s).pc).toNat
      else retireWord s h (repPush s) false w

/-- A word of an engine as an outcome: the next state is always there. -/
def runWord (s : State) (h : Hd) (w : WordDef) : Out := .next (runWordS s h w)

/-- A word that is its effect alone. -/
def runEff (s : State) (h : Hd) (eff : State → Eff) : Out := runWord s h { eff := eff }

/-- A word whose registers may make it an illegal encoding: a live one is where it would issue, before it pops any token (R34, R83,
R129, R130, R221). That a nullified one is not is the model's choice (log entry 109). -/
def legalEff (s : State) (h : Hd) (ok : State → Bool) (eff : State → Eff) : Out :=
  if liveWord (curEng s) h && !(curEng s).issued && !(curEng s).pushpend && (popBlocked (curCore s) s.cur.eng h.pop).isNone && !ok s then .next (fatalHere s fIllegal) else runEff s h eff

/-- An effect that only rewrites the state. -/
def effDo (f : State → State) : State → Eff := fun s => .done (f s)

/-- A load's effect, continued with the bytes. -/
def effLoad (s : State) (addr n : Nat) (fresh : Bool) (k : List Byte → State → Eff) : Eff :=
  match partLoad s [(addr, n)] fresh with
  | some s => .stall 0 0 0 s
  | none =>
    match coreLoad s addr n fresh with
    | .ok l s => k l s
    | .wait s => .stall 0 0 0 s
    | .fail f s => .fatal f s

def effStore (s : State) (addr : Nat) (data : List Byte) (k : State → Eff) : Eff :=
  match partStore s [(addr, data)] with
  | some s => .stall 0 0 0 s
  | none =>
    match coreStore s addr data with
    | .ok _ s => k s
    | .wait s => .stall 0 0 0 s
    | .fail f s => .fatal f s

/-- The address of a memory operand, or its translation failure; no device address exists then, and the record's ADDR holds the
base register's value (R141, R307; log entry 16). -/
def effAddrOr (s : State) (a : Reg) (imm : Int) (n : Nat) (k : Nat → Eff) : Eff :=
  match effAddr (rd s a) imm with
  | some x => k x
  | none => .fatal { code := 2, info := 2, addr := (rd s a).toNat, len := n } s

end Sys2Proof.Machine
end

