-- ==== Sys2Proof/Machine/Scalar.lean ====
section
/-! DEFINITION. The common subset (R143–R145), the repeat prefix (R38–R41) and the C engine's integer arithmetic
(R146–R148). -/

namespace Sys2Proof.Machine

/-- A word that writes one scalar register with a value of the state. -/
def setReg (s : State) (h : Hd) (d : Reg) (f : State → Word) : Out := runWord s h { eff := effDo (fun s => wr s d (f s)) }

/-- A word that writes one predicate. -/
def setPr (s : State) (h : Hd) (d : Reg) (f : State → Bool) : Out := runWord s h { eff := effDo (fun s => wrP s d (f s)) }

def execNop (h : Hd) (s : State) : Out := runWord s h { eff := effDo id }
def execMovi (h : Hd) (d : Reg) (imm : W32) (s : State) : Out := setReg s h d (fun _ => imm.signExtend 64)
def execMoviHi (h : Hd) (d : Reg) (imm : W32) (s : State) : Out := setReg s h d (fun s => imm ++ (rd s d).setWidth 32)
def execMov (h : Hd) (d a : Reg) (s : State) : Out := setReg s h d (fun s => rd s a)
def execAdd (h : Hd) (d a b : Reg) (s : State) : Out := setReg s h d (fun s => rd s a + rd s b)
def execSub (h : Hd) (d a b : Reg) (s : State) : Out := setReg s h d (fun s => rd s a - rd s b)
def execAddi (h : Hd) (d a : Reg) (imm : W32) (s : State) : Out := setReg s h d (fun s => rd s a + imm.signExtend 64)

/-- The amount of a scalar shift: the whole of register B, or IMM[5:0] (R143, R144). -/
def shAmount (s : State) : Shamt → Nat
  | .reg b => (rd s b).toNat
  | .imm n => n.toNat % 64

/-- Shifts by any amount: 64 or more gives 0, or 64 copies of the sign (R144). -/
def shlVal (a : Word) (m : Nat) : Word := if 64 ≤ m then 0 else a <<< m
def shrVal (a : Word) (m : Nat) : Word := if 64 ≤ m then 0 else a >>> m
def sarVal (a : Word) (m : Nat) : Word := a.sshiftRight (min m 63)

def execShl (h : Hd) (d a : Reg) (sh : Shamt) (s : State) : Out := setReg s h d (fun s => shlVal (rd s a) (shAmount s sh))
def execShr (h : Hd) (d a : Reg) (sh : Shamt) (s : State) : Out := setReg s h d (fun s => shrVal (rd s a) (shAmount s sh))
def execSar (h : Hd) (d a : Reg) (sh : Shamt) (s : State) : Out := setReg s h d (fun s => sarVal (rd s a) (shAmount s sh))
def execAnd (h : Hd) (d a b : Reg) (s : State) : Out := setReg s h d (fun s => rd s a &&& rd s b)
def execOr (h : Hd) (d a b : Reg) (s : State) : Out := setReg s h d (fun s => rd s a ||| rd s b)
def execXor (h : Hd) (d a b : Reg) (s : State) : Out := setReg s h d (fun s => rd s a ^^^ rd s b)

/-- The relations of `cmp` (R143). -/
def cmpHolds (r : CmpRel) (a b : Word) : Bool :=
  match r with
  | .eq => a == b
  | .ne => a != b
  | .lt => a.slt b
  | .le => a.sle b
  | .ltu => a.ult b
  | .leu => a.ule b

def execCmp (h : Hd) (r : CmpRel) (d a b : Reg) (s : State) : Out := setPr s h d (fun s => cmpHolds r (rd s a) (rd s b))
def execSel (h : Hd) (d a b e : Reg) (s : State) : Out := setReg s h d (fun s => if rdP s e then rd s a else rd s b)

/-- `tsend` (R145): its push is laden with a; nullified, with 0. -/
def execTsend (h : Hd) (a : Reg) (s : State) : Out :=
  runWord s h { eff := effDo id, pay := fun live s => some (if live then rd s a else 0) }

/-- The payload of the token a POP names: 0 if it is plain (R145). -/
def popPayload (s : State) (h : Hd) : Word :=
  match (popTokens (curCore s) s.cur.eng h.pop).2 with
  | t :: _ => t.laden.getD 0
  | [] => 0

/-- `trecv` (R145). -/
def execTrecv (h : Hd) (d : Reg) (s : State) : Out := setReg s h d (fun _ => popPayload s h)

def execPand (h : Hd) (d a b : Reg) (s : State) : Out := setPr s h d (fun s => rdP s a && rdP s b)
def execPor (h : Hd) (d a b : Reg) (s : State) : Out := setPr s h d (fun s => rdP s a || rdP s b)
def execPxor (h : Hd) (d a b : Reg) (s : State) : Out := setPr s h d (fun s => rdP s a != rdP s b)
def execPnot (h : Hd) (d a : Reg) (s : State) : Out := setPr s h d (fun s => !rdP s a)
def execPmov (h : Hd) (d a : Reg) (s : State) : Out := setPr s h d (fun s => rdP s a)

/-! ## The repeat prefix (R38–R41) -/

/-- A field stepped by an offset (R39). -/
def stepReg (r : Reg) (off : BitVec 10) : Reg := r + off.setWidth 8
def stepWord (r : RawWord) (x : Rep) : RawWord :=
  { r with d := stepReg r.d x.offD, a := stepReg r.a x.offA, b := stepReg r.b x.offB, e := stepReg r.e x.offE }

/-- The repeat state that a `rep` word starts (R38, R41). -/
def repOf (imm : W32) : Rep :=
  { stepD := imm.extractLsb' 28 4, stepA := imm.extractLsb' 24 4, stepB := imm.extractLsb' 20 4,
    stepE := imm.extractLsb' 16 4, active := true, remain := imm.toNat % 64 + 1 }

/-- The repeat state at repetition `i` (R39). -/
def repAt (x : Rep) : Nat → Rep
  | 0 => x
  | n + 1 => repStep (repAt x n)

/-- How many registers a step may reach in a class: E of an atomic names a predicate, and its code for none is no register
(R40, R118, R152). -/
def stepSize (g : Eng) : RegClass → Nat
  | .none => 0
  | .predOr7 => 7
  | c => classSize g c

/-- What R40 asks of one field of a repeated word over `n` repetitions: a step only on a register, a multiple of its group,
that never takes the field outside its class. -/
def stepFieldOk (g : Eng) (c : RegClass) (r : Reg) (step : BitVec 4) (n : Nat) : Bool :=
  step == 0 ||
  (decide (r.toNat < stepSize g c) && step.toInt % (classGroup c : Int) == 0 &&
   (List.range n).all (fun i => let x : Int := (r.toNat : Int) + i * step.toInt; decide (0 ≤ x ∧ x < stepSize g c)))

/-- What R40 asks of a repeated word. A word with no row in the map uses no field as a register. -/
def repOk (g : Eng) (imm : W32) (w : RawWord) : Bool :=
  let x := repOf imm
  let banned := w.op == 1 || (g == .c && [0x40, 0x41, 0x42, 0x43, 0x6C].contains w.op.toNat)
  let row : Row := match rowOf g w with | .ok row => row | .error _ => {}
  !banned && stepFieldOk g row.d w.d x.stepD x.remain && stepFieldOk g row.a w.a x.stepA x.remain &&
  stepFieldOk g row.b w.b x.stepB x.remain && stepFieldOk g row.e w.e x.stepE x.remain

/-- Whether the word at PC is the last of its body. -/
def lastWord (s : State) : Bool :=
  match (curEng s).sec with
  | some x => decide (secEnd x ≤ (curEng s).pc + 12)
  | none => false

/-- Whether the word after a `rep` may be repeated. One that cannot be fetched raises its own fault when it is to issue. -/
def repNextOk (s : State) (imm : W32) : Bool :=
  match fetchText s ((curEng s).pc + 12) 12 with
  | .ok l => repOk s.cur.eng imm (unpackWord (BitVec.ofNat 96 (leNat l)))
  | .error _ => true

/-- `rep` (R39, R40): its checks first, then its pops, then the repetitions of the next word, each of which is decoded when it
is to issue. The record of a violation of R40 names the `rep` (log entry 80). -/
def repS (h : Hd) (imm : W32) (s : State) : State :=
  let g := s.cur.eng
  if lastWord s || !repNextOk s imm then fatalHere s fIllegal
  else
    match popBlocked (curCore s) g h.pop with
    | some f => upCurEng s (fun e => waitOn s.tick e 1 f 0)
    | none =>
      let s := upCur s (fun c => (popTokens c g h.pop).1)
      upCurEng s (fun e => { noWait e with pc := e.pc + 12, rst := repOf imm })

def execRep (h : Hd) (imm : W32) (s : State) : Out := .next (repS h imm s)

/-! ## Integer arithmetic (R146–R148) -/

def sgn (ty : ETy) : Bool := ty == .i64 || ty == .i32

def execMul (h : Hd) (_ty : ETy) (d a b : Reg) (s : State) : Out := setReg s h d (fun s => rd s a * rd s b)

/-- Bits [127:64] of the exact product (R146). -/
def mulhVal (ty : ETy) (a b : Word) : Word :=
  if sgn ty then BitVec.ofInt 64 (a.toInt * b.toInt / 2 ^ 64) else BitVec.ofNat 64 (a.toNat * b.toNat / 2 ^ 64)
def execMulh (h : Hd) (ty : ETy) (d a b : Reg) (s : State) : Out := setReg s h d (fun s => mulhVal ty (rd s a) (rd s b))

/-- The truncating quotient; a zero divisor gives all ones (R147). -/
def divVal64 (ty : ETy) (a b : Word) : Word :=
  if b = 0 then BitVec.allOnes 64
  else if sgn ty then BitVec.ofInt 64 (a.toInt.tdiv b.toInt) else BitVec.ofNat 64 (a.toNat / b.toNat)
/-- The remainder, whose sign follows a; a zero divisor gives a (R147). -/
def remVal64 (ty : ETy) (a b : Word) : Word :=
  if b = 0 then a
  else if sgn ty then BitVec.ofInt 64 (a.toInt.tmod b.toInt) else BitVec.ofNat 64 (a.toNat % b.toNat)
def execDiv (h : Hd) (ty : ETy) (d a b : Reg) (s : State) : Out := setReg s h d (fun s => divVal64 ty (rd s a) (rd s b))
def execRem (h : Hd) (ty : ETy) (d a b : Reg) (s : State) : Out := setReg s h d (fun s => remVal64 ty (rd s a) (rd s b))

def ltTy64 (ty : ETy) (a b : Word) : Bool := if sgn ty then a.slt b else a.ult b
def execMin (h : Hd) (ty : ETy) (d a b : Reg) (s : State) : Out :=
  setReg s h d (fun s => if ltTy64 ty (rd s b) (rd s a) then rd s b else rd s a)
def execMax (h : Hd) (ty : ETy) (d a b : Reg) (s : State) : Out :=
  setReg s h d (fun s => if ltTy64 ty (rd s a) (rd s b) then rd s b else rd s a)

/-- Leading zeros of a value of `w` bits. -/
def clzN (w x : Nat) : Nat := if x = 0 then w else w - 1 - Nat.log2 x
/-- One bits among the low `w`. -/
def popcN (w x : Nat) : Nat := (List.range w).foldl (fun acc i => acc + x / 2 ^ i % 2) 0
def execClz (h : Hd) (d a : Reg) (s : State) : Out := setReg s h d (fun s => BitVec.ofNat 64 (clzN 64 (rd s a).toNat))
def execPopc (h : Hd) (d a : Reg) (s : State) : Out := setReg s h d (fun s => BitVec.ofNat 64 (popcN 64 (rd s a).toNat))

def bfPos (imm : W32) : Nat := imm.toNat % 64
def bfW (imm : W32) : Nat := imm.toNat / 256 % 64 + 1

/-- `bfx`: the field, extended with its top bit for I64 and with zeros for N64 (R148). -/
def bfxVal (ty : ETy) (a : Word) (imm : W32) : Word :=
  let f := a.toNat / 2 ^ bfPos imm % 2 ^ bfW imm
  if sgn ty then BitVec.ofInt 64 (ofTwos (bfW imm) true f) else BitVec.ofNat 64 f
def execBfx (h : Hd) (ty : ETy) (d a : Reg) (imm : W32) (s : State) : Out := setReg s h d (fun s => bfxVal ty (rd s a) imm)

/-- `bfi`: b with the field replaced by the low bits of a (R148). -/
def bfiVal (a b : Word) (imm : W32) : Word :=
  let m : Word := BitVec.ofNat 64 ((2 ^ bfW imm - 1) * 2 ^ bfPos imm)
  (b &&& ~~~m) ||| ((a <<< bfPos imm) &&& m)
def execBfi (h : Hd) (_ty : ETy) (d a b : Reg) (imm : W32) (s : State) : Out :=
  setReg s h d (fun s => bfiVal (rd s a) (rd s b) imm)

/-- VMODE after a write (R57, R185): reserved bits and RMODE values 5–7 are ignored. -/
def newVmode (old v : Word) : Word :=
  let r := if 5 ≤ v.toNat % 8 then old.toNat % 8 else v.toNat % 8
  BitVec.ofNat 64 (v.toNat / 8 % 4 * 8 + r)

end Sys2Proof.Machine
end

