-- ==== Sys2Proof/Machine/Control.lean ====
section
/-! DEFINITION. The C engine's loads, stores and atomics (R149–R153), control transfer (R154–R156), fences, phases and
barriers (R159–R162), waits (R163, R164), regions, text, signals, traps and status registers (R165–R172). -/

namespace Sys2Proof.Machine

/-! ## Loads and stores -/

/-- A value of `w` bits extended to 64: with its sign for I types, else with zeros (R149, R153). -/
def extendTy (ty : ETy) (w x : Nat) : Word :=
  if etySigned ty then BitVec.ofInt 64 (ofTwos w true x) else BitVec.ofNat 64 x

/-! ## Atomics (R107, R108, R152, R153) -/

/-- The atomics, by their variant numbers (R152). -/
inductive AtOp where
  | add | and | or | xor | min | max | xchg | cas | incb | addb | cas128
  deriving DecidableEq, Repr

def atOpCode : AtOp → Nat
  | .add => 0 | .and => 1 | .or => 2 | .xor => 3 | .min => 4 | .max => 5 | .xchg => 6 | .cas => 7 | .incb => 8
  | .addb => 9 | .cas128 => 10

/-- The new memory value of R107 over `w` bits: `v` is the first operand register's value, `v2` the second's. -/
def atNew (op : AtOp) (ty : ETy) (w old v v2 : Nat) : Nat :=
  let sg := etySigned ty
  let o := ofTwos w sg old
  let x := ofTwos w sg v
  let y := ofTwos w sg v2
  match op with
  | .add => (old + v) % 2 ^ w
  | .and => old &&& v
  | .or => old ||| v
  | .xor => old ^^^ v
  | .min => if x < o then v else old
  | .max => if o < x then v else old
  | .xchg => v
  | .cas | .cas128 => if old = v then v2 else old
  | .incb => if o < x then toTwos w (o + 1) else old
  | .addb => toTwos w (o + min (max (y - o) 0) (max x 0))

/-- Whether an atomic on a page of home 4 or 5 leaves as an AtomicOp (R108, R401). -/
def atomCap (s : State) (op : AtOp) (pte : Word) : Bool :=
  (fnAt s 0).atomOn &&
  (match op with
   | .add => pte.getLsbD 1
   | .xchg => pte.getLsbD 2
   | .cas | .cas128 => pte.getLsbD 3
   | _ => false)

/-- The PTE that an access of a paged handle uses. -/
def pteFor (s : State) (w : Who) (addr : Nat) : Word :=
  match htAt s w.part w.ctx (addr / 2 ^ 48 % 65536) with
  | some e => (pickPte s w (pteAddr (backing e false) (addr % 2 ^ 48))).1
  | none => 0

/-- A read-modify-write at the coherence point (R107): the old value, or none where the atomic is declined (R108). -/
def coreAtomic (s : State) (op : AtOp) (ty : ETy) (addr n : Nat) (v v2 : Nat) : MRes (Option Nat) :=
  let w := curWho s .core
  if addr % n ≠ 0 then .fail { code := 4, addr := addr, len := n } s
  else
    match xlateRange s w .a false addr n with
    | .error x => .fail (xInfo x addr n) (xReport s x)
    | .ok keys =>
      let k := keys.headD 0
      if apBase ≤ k ∧ k < apTop then .fail { code := 3, info := 1, addr := addr, len := n } s
      else if isRemote k && ownStoreAway s keys then .wait s
      else if isRemote k then
        let e := curEng s
        match e.reply.bad, e.reply.ans with
        | some b, _ => .fail (remoteFault b.why addr n) (if b.why = 1 then e2eReport s 0 addr 1 else s)
        | none, some (.success l) => .ok (some (leNat l)) (bumpClk (dropLines s s.cur.core addr n keys))
        | none, some .unsupported => .ok none (bumpClk s)
        | none, some _ => .fail { code := 15, addr := addr, len := n } s
        | none, none =>
          if 4 ≤ remoteHome k && !atomCap s op (pteFor s w addr) then .ok none (bumpClk (notePages s w false addr n))
          else if e.reply.tags.isEmpty then
            let (s, id) := sendReq (notePages s w false addr n) .atomic (.eng s.cur.core s.cur.eng) (remoteHome k) (remotePa k) n
              ([BitVec.ofNat 8 (atOpCode op), BitVec.ofNat 8 (etyCode ty)] ++ leBytes n v ++ leBytes n v2)
            .wait (upCurEng s (fun e => { e with reply := { e.reply with tags := [id] } }))
          else .wait s
      else
        match keys.find? (fun k => badByte s k), badWrite s keys with
        | none, none =>
          let s := fillReads (performKeys (notePages s w false addr n) s.cur.core keys) keys
          let old := leNat (keys.map (rdByte s))
          let s := newChecks (wrBytes s ((keys.zip (leBytes n (atNew op ty (8 * n) old v v2))).filter (fun b => !inPage b.1))) keys
          .ok (some old) (bumpClk (dropLines s s.cur.core addr n keys))
        | _, _ => .fail (e2eInfo addr) (e2eReport s 0 addr 1)

/-- Predicate E of an atomic or probe, 7 naming none (R152). -/
def wrPE (s : State) (e : Reg) (b : Bool) : State := if e = 7 then s else wrP s e b

/-- The low bits of register B and of the one after it. -/
def atV (s : State) (b : Reg) (n i : Nat) : Nat := (rdN s (b.toNat + i)).toNat % 2 ^ (8 * n)

/-- An atomic of 32 or 64 bits (R153). -/
def atomWord (op : AtOp) (h : Hd) (ty : ETy) (d a b e : Reg) (imm : W32) (s : State) : Out :=
  let n := etyBits ty / 8
  runEff s h fun s => effAddrOr s a imm.toInt n fun x =>
    match coreAtomic s op ty x n (atV s b n 0) (atV s b n 1) with
    | .ok (some old) s => .done (wrPE (wr s d (extendTy ty (8 * n) old)) e true)
    | .ok none s => .done (wrPE (wr s d 0x8000000000000000) e false)
    | .wait s => .stall 0 0 0 s
    | .fail f s => .fatal f s

def execAtomAdd := atomWord .add
def execAtomAnd := atomWord .and
def execAtomOr := atomWord .or
def execAtomXor := atomWord .xor
def execAtomMin := atomWord .min
def execAtomMax := atomWord .max
def execAtomXchg := atomWord .xchg
def execAtomCas := atomWord .cas
def execAtomIncb := atomWord .incb
def execAtomAddb := atomWord .addb

/-- `atom.cas128` (R152, R153): expected in b and b+1, new in b+2 and b+3, old to d and d+1. -/
def execAtomCas128 (h : Hd) (ty : ETy) (d a b e : Reg) (imm : W32) (s : State) : Out :=
  runEff s h fun s => effAddrOr s a imm.toInt 16 fun x =>
    let v := (rdN s b.toNat).toNat + 2 ^ 64 * (rdN s (b.toNat + 1)).toNat
    let v2 := (rdN s (b.toNat + 2)).toNat + 2 ^ 64 * (rdN s (b.toNat + 3)).toNat
    match coreAtomic s .cas128 ty x 16 v v2 with
    | .ok (some old) s =>
      .done (wrPE (wrN (wr s d (BitVec.ofNat 64 old)) (d.toNat + 1) (BitVec.ofNat 64 (old / 2 ^ 64))) e true)
    | .ok none s => .done (wrPE (wrN (wr s d 0x8000000000000000) (d.toNat + 1) 0) e false)
    | .wait s => .stall 0 0 0 s
    | .fail f s => .fatal f s

/-! ## Control transfer (R28, R154–R156) -/

/-- The target of `br`: the word's offset plus 12 × IMM. -/
def brTarget (s : State) (imm : W32) : Int := ((curEng s).pc : Int) + 12 * imm.toInt

/-- `br` stands in a steer section, is not its last word, and its target is a word of the body (R28, R154). -/
def brOk (s : State) (imm : W32) : Bool :=
  match (curEng s).sec with
  | some x => x.kind == 1 && !lastWord s && decide ((x.off : Int) + 8 ≤ brTarget s imm ∧ brTarget s imm < secEnd x)
  | none => false

def execBr (h : Hd) (imm : W32) (s : State) : Out :=
  if brOk s imm then runWord s h { eff := effDo id, nxt := fun s => .jump (brTarget s imm).toNat }
  else .next (fatalHere s fIllegal)

/-- A posting word stands last in a steer section (R28). -/
def steerOk (s : State) : Bool := secKind s == 1 && lastWord s

/-- The engines other than C that have not retired for the tile. -/
def postEngs (s : State) : List Eng := [Eng.v, Eng.m, Eng.h].filter (fun g => !(engSt (curCore s) g).retired)

/-- A target posted to the path queues (R28, R155). -/
def postTarget (s : State) (t : Nat) : Eff :=
  let at_ := (curTeam s).text * 2 ^ 48 + t % 2 ^ 48
  -- what INFO, ADDR and LENGTH say of a target at or above 2^48 is the model's choice (log entry 83)
  if 2 ^ 48 ≤ t then .fatal { code := 2, info := 2, addr := at_, len := 4 } s
  else if t % 4 ≠ 0 then .fatal { code := 4, addr := at_, len := 4 } s
  else if (postEngs s).any (fun g => decide (4 ≤ (engSt (curCore s) g).pathq.length)) then .stall 3 0 0 s
  else .done (upCur s (fun c => (postEngs s).foldl (fun c g => upEng c g (fun e => { e with pathq := e.pathq ++ [t] })) c))

/-- `steer`, and what `steer.x`, `call` and `ret` share with it. -/
def steerWord (s : State) (h : Hd) (target : State → Nat) (also : State → State) : Out :=
  if steerOk s then
    runWord s h { eff := fun s => match postTarget s (target s) with | .done s => .done (also s) | x => x,
                  nxt := fun s => .leave (target s) }
  else .next (fatalHere s fIllegal)

def execSteer (h : Hd) (imm : W32) (s : State) : Out := steerWord s h (fun _ => imm.toNat) id
def execSteerX (h : Hd) (a : Reg) (s : State) : Out := steerWord s h (fun s => (rd s a).toNat) id

/-- The offset of the header that follows the section (R156). -/
def retOffset (s : State) : Word := match (curEng s).sec with | some x => BitVec.ofNat 64 (secEnd x) | none => 0

def execCall (h : Hd) (d : Reg) (imm : W32) (s : State) : Out :=
  steerWord s h (fun _ => imm.toNat) (fun s => wr s d (retOffset s))
def execRet (h : Hd) (a : Reg) (s : State) : Out := steerWord s h (fun s => (rd s a).toNat) id

/-! ## Fences and phases (R103, R104, R159–R161) -/

/-- Stores of the core that precede the executing engine's next word in core order (R96). -/
def storesBefore (s : State) : List PendSt :=
  (curCore s).stq.filter (fun p => decide (p.seq ≤ clkGet (curEng s).seen p.eng))

/-- Commands that precede it. -/
def cmdsBefore (s : State) (l : List Cmd) : List Cmd := l.filter (fun x => decide (x.seq ≤ (curEng s).seen.h))

/-- What a fence of a class covers (R103): a core's loads have their value fixed when they retire. -/
def covered (s : State) : FenceCls → List Nat
  | .st => (storesBefore s).map (fun p => p.id)
  | .ld => []
  | .hoist => (cmdsBefore s ((curCore s).ql ++ (curCore s).qs)).map (fun x => x.id)
  | .lode => (cmdsBefore s (curCore s).qd).map (fun x => x.id)

/-- Whether a numbered store or command has not yet performed. -/
def pendingId (c : Core) (id : Nat) : Bool :=
  c.stq.any (fun p => p.id == id) || (c.ql ++ c.qs ++ c.qd).any (fun x => x.id == id)

def execFni (h : Hd) (cl : FenceCls) (d : Reg) (imm : W32) (s : State) : Out :=
  runEff s h (effDo (fun s =>
    let f : Fence := { cls := fenceClsCode cl, scope := imm.toNat % 8, ids := covered s cl }
    upCur s (fun c => { c with fences := SMap.set {} c.fences d.toNat f })))

/-- Whether a store-class fence or phase at a scope lets its stores go on unperformed: the engines of the core see each of them
at once (R36, R101), which is all that scope core asks. At every wider scope the model waits until they have performed at their
coherence point, which those outside the scope see too (R100; log entry 82). -/
def coreScope (scope : Nat) : Bool := scope == 0

def execFnw (h : Hd) (a : Reg) (s : State) : Out :=
  runEff s h fun s =>
    let f := SMap.get {} (curCore s).fences a.toNat
    if f.ids.any (pendingId (curCore s)) && !(f.cls == 0 && coreScope f.scope) then .stall 10 a.toNat 0 s
    else .done (upCur s (fun c => { c with fences := SMap.set {} c.fences a.toNat { f with ids := [] } }))

/-- `phase` (R104): the stores before it perform, then L1 is invalidated: the phase boundary. What it waits for at each scope is
that of `coreScope`. -/
def execPhase (h : Hd) (sc : Scope) (s : State) : Out :=
  runEff s h fun s =>
    if (storesBefore s).isEmpty || coreScope (scopeCode sc) then .done (upCur s (fun c => { c with l1 := [] })) else .stall 10 0 0 s

/-! ## Barriers (R44, R106, R162) -/

/-- One arrival at a team barrier; the last expected one completes the round (R162, R247). -/
def arriveBar (s : State) (tid n : Nat) : State :=
  upTeam s tid (fun t =>
    let b := SMap.get {} t.bars n
    let b' := if t.cores.length + b.extra ≤ b.arr + 1 then { g := b.g + 1 } else { b with arr := b.arr + 1 }
    { t with bars := SMap.set {} t.bars n b' })

def barAt (s : State) (n : Nat) : Bar := SMap.get {} (curTeam s).bars n

/-- Whether a store of the core writes a scratchpad byte. -/
def scratchStore (p : PendSt) : Bool := p.bytes.any (fun b => decide (pairBase ≤ b.1 ∧ b.1 < tensorBase))

def execBarArr (h : Hd) (imm : W32) (s : State) : Out :=
  let n := imm.toNat % 16
  runEff s h fun s =>
    let g := SMap.get 0 (curCore s).bround n
    if (curTeam s).nbar ≤ n then .fatal { code := 9, info := n } s
    else if (barAt s n).g < g then .stall 7 n g s
    else if (storesBefore s).any scratchStore then .stall 7 n ((barAt s n).g + 1) s
    else
      let s := upCur s (fun c => { c with bround := SMap.set 0 c.bround n ((barAt s n).g + 1) })
      .done (arriveBar s (curCore s).tid n)

def execBarWait (h : Hd) (imm : W32) (s : State) : Out :=
  let n := imm.toNat % 16
  runEff s h fun s =>
    let g := SMap.get 0 (curCore s).bround n
    if (curTeam s).nbar ≤ n then .fatal { code := 9, info := n } s
    else if (barAt s n).g < g then .stall 7 n g s else .done s

/-! ## Waiting on memory and time (R163, R164) -/

/-- The relation m c b of `waitw`, signed for I types (R163). -/
def waitHolds (r : WaitRel) (ty : ETy) (w m b : Nat) : Bool :=
  let x := ofTwos w (etySigned ty) m
  let y := ofTwos w (etySigned ty) (b % 2 ^ w)
  match r with
  | .eq => decide (x = y)
  | .ne => decide (x ≠ y)
  | .lt => decide (x < y)
  | .le => decide (x ≤ y)
  | .gt => decide (y < x)
  | .ge => decide (y ≤ x)

def execWaitw (h : Hd) (r : WaitRel) (ty : ETy) (d a b : Reg) (imm : W32) (s : State) : Out :=
  let n := etyBits ty / 8
  runEff s h fun s => effAddrOr s a imm.toInt n fun x =>
    if x % n ≠ 0 then .fatal { code := 4, addr := x, len := n } s
    else effLoad s x n true fun l s =>
      if waitHolds r ty (8 * n) (leNat l) (rd s b).toNat then .done (wr s d (extendTy ty (8 * n) (leNat l)))
      else .stall 8 (16 * etyCode ty + waitRelCode r) x (upCurEng s (fun e => { e with reply := {} }))

/-- OVERRUN of the team grows by the lateness, saturating (R321). -/
def addOverrun (s : State) (tid late : Nat) : State :=
  upTeam s tid (fun t => { t with overrun := min (2 ^ 64 - 1) (t.overrun + late) })

def execTwait (h : Hd) (a : Reg) (s : State) : Out :=
  let first := !(curEng s).issued
  runEff s h fun s =>
    let t := (rd s a).toNat
    if s.tick < t then .stall 12 0 t s
    else .done (if first && decide (t < s.tick) then addOverrun s (curCore s).tid (s.tick - t) else s)

def execTickRead (h : Hd) (d : Reg) (s : State) : Out := setReg s h d (fun s => BitVec.ofNat 64 s.tick)

/-! ## Regions (R165) -/

def execNpre (h : Hd) (s : State) : Out :=
  runWord s h { eff := fun s => if (curTeam s).nopre = 0 ∨ (curCore s).npre then .fatal { code := 8 } s else .done s,
                post := fun s => upCur s (fun c => { c with npre := true, npt0 := s.tick }) }

def execEpre (h : Hd) (s : State) : Out :=
  runWord s h { eff := effDo id, post := fun s => upCur s (fun c => { c with npre := false, npt0 := 0 }) }

/-- The fatal error of a core whose region has outlived its budget, which counts until the team is saved (R165, R307, R308,
R317). -/
def nopreFatal (s : State) (core : Nat) : State :=
  let c := coreAt s core
  let t := teamAt s c.tid
  if c.npre && (t.st == .running || t.st == .halting) && decide (c.npt0 + t.nopre + 1 ≤ s.tick) then
    if c.tid = 0x3FE then foremanFault s
    else
      let r : FRec := { cls := 0, code := 7, tid := c.tid, core := core, queue := t.queue, slot := t.slot, ctx := t.ctx,
                        part := t.part, info := t.nopre, tick := s.tick }
      failContext (holdFault s r) t.part t.ctx
  else s

def execNopreOverrun (core : Nat) (s : State) : Out := .next (nopreFatal s core)

/-! ## Text, signals, traps, status (R166–R172) -/

/-- A byte of text as it stands at module scope now, or why it cannot be fetched (R95, R114). -/
def newByte (s : State) (off : Nat) : TByte :=
  match xlateByte s (curWho s .core) .r false ((curTeam s).text * 2 ^ 48 + off) with
  | .ok k => if isRemote k then .byte (Config.peerText s.free k) else if badByte s k then .fail 1 else .byte (rdByte s k)
  | .error (.xlate c) => .fail (16 + c)
  | .error (.check _) => .fail 1
  | .error (.refused k) => .fail (32 + k)

/-- The units of a range as they stand at module scope, which every engine of the core fetches once the join has retired
(R114, R166). -/
def refetch (s : State) (lo hi : Nat) : State :=
  let w := curWho s .core
  let pages := (List.range ((hi - 1) / 2 ^ 21 + 1 - lo / 2 ^ 21)).map (fun i => (lo / 2 ^ 21 + i) * 2 ^ 21)
  upCur (pages.foldl (fun s o => notePage s w false ((curTeam s).text * 2 ^ 48 + o)) s) (fun c => { c with tsync := SMap.setAll none c.tsync ((List.range (hi - lo)).map (fun i => (lo + i, some (newByte s (lo + i))))) })

def execTextsync (h : Hd) (a b : Reg) (s : State) : Out :=
  if secKind s = 3 then
    runEff s h (effDo (fun s =>
      let x := (rd s a).toNat
      let n := (rd s b).toNat
      let ext := match htAt s (curWho s .core).part (curWho s .core).ctx (curTeam s).text with | some e => e.ext | none => 0
      if n = 0 ∨ x / 2 ^ 48 ≠ (curTeam s).text ∨ ext ≤ x % 2 ^ 48 then s
      else refetch s (x % 2 ^ 48 / 4 * 4) (min ext ((x % 2 ^ 48 + n + 3) / 4 * 4))))
  else .next (fatalHere s fIllegal)

/-- `signal` (R167): once what precedes it has performed and completed, one atomic add. What it waits for at each scope is that of
`coreScope`; a command's record is visible to every scope once it is written. -/
def execSignal (h : Hd) (sc : Scope) (a b : Reg) (imm : W32) (s : State) : Out :=
  runEff s h fun s => effAddrOr s a imm.toInt 8 fun x =>
    let c := curCore s
    if x % 8 ≠ 0 then .fatal { code := 4, addr := x, len := 8 } s
    else if ((storesBefore s).isEmpty || coreScope (scopeCode sc)) && (cmdsBefore s (c.ql ++ c.qs ++ c.qd)).isEmpty then
      match coreAtomic s .add .n64 x 8 (rd s b).toNat 0 with
      | .ok (some _) s => .done s
      | .ok none s => .fatal { code := 14, addr := x, len := 8 } s
      | .wait s => .stall 0 0 0 s
      | .fail f s => .fatal f s
    else .stall 10 0 0 s

/-- `trap` (R168): the word retires, then the team is suspended. -/
def execTrap (h : Hd) (imm : W32) (s : State) : Out :=
  let at_ := textAddr s (curEng s).pc
  let word := (wordAt s (curEng s).pc).toNat
  runWord s h { eff := effDo id, post := fun s => raiseTrap s { code := 2, info := imm.toNat } 0 0 at_ word }

/-- RSTATE as a register (R41). -/
def packRep (r : Rep) : Word :=
  r.stepE ++ r.stepB ++ r.stepA ++ r.stepD ++ r.offE ++ r.offB ++ r.offA ++ r.offD ++ BitVec.ofBool r.active ++
    BitVec.ofNat 7 r.remain
def unpackRep (w : Word) : Rep :=
  { stepE := w.extractLsb' 60 4, stepB := w.extractLsb' 56 4, stepA := w.extractLsb' 52 4, stepD := w.extractLsb' 48 4,
    offE := w.extractLsb' 38 10, offB := w.extractLsb' 28 10, offA := w.extractLsb' 18 10, offD := w.extractLsb' 8 10,
    active := w.getLsbD 7, remain := w.toNat % 128 }

/-- NPRST (R172). -/
def nprst (s : State) (core : Nat) : Word :=
  let c := coreAt s core
  let b := (teamAt s c.tid).nopre
  if c.npre then BitVec.ofNat 64 (2 ^ 16 + (b - (s.tick - c.npt0))) else BitVec.ofNat 64 b

def coreId (n : Nat) : Word := BitVec.ofNat 64 (n % 2 * 2 ^ 24 + n / 2 % 8 * 2 ^ 21 + n / 16 * 2 ^ 16 + n)
def teamInfo (t : Team) (idx : Nat) : Word := BitVec.ofNat 64 (t.nbar * 2 ^ 16 + (t.cores.length - 1) * 2 ^ 8 + idx)

/-- The user status registers (R169). RSTATE is read by a repetition that has issued, so REMAIN does not count it (R41). -/
def statusReg (s : State) : Nat → Option Word
  | 0 => some ((curEng s).sc.setWidth 64)
  | 1 => some (BitVec.ofNat 64 (curTeam s).slipw)
  | 2 => some (packRep { (curEng s).rst with remain := (curEng s).rst.remain - 1 })
  | 3 => some (coreId s.cur.core)
  | 4 => some (teamInfo (curTeam s) (curCore s).idx)
  | 5 => some (nprst s s.cur.core)
  | _ => none

def execSrd (h : Hd) (d : Reg) (imm : W32) (s : State) : Out :=
  if (statusReg s imm.toNat).isSome then setReg s h d (fun s => (statusReg s imm.toNat).getD 0)
  else .next (fatalHere s fIllegal)

/-! ## Events of the C engine's waits -/

/-- A stalled word of a core's C engine is looked at again when what it waits for may have come. -/
def retryC (s : State) (core : Nat) (kinds : List Nat) (run : State → Out) : Out :=
  let s := { s with cur := { core := core, eng := .c } }
  let e := curEng s
  if e.issued && !e.pushpend && kinds.contains e.wait.kind && (curTeam s).st == .running then run s else .next s

end Sys2Proof.Machine
end

