-- ==== Sys2Proof/Machine/Teams.lean ====
section
/-! DEFINITION. Teams: the device's own reads and writes for a context, tile completion (R32, R344), the lease's end
(R218), halts, saves and restores (R306, R314–R321). -/

namespace Sys2Proof.Machine

/-! ## The device's own accesses for a context -/

/-- An access of the walkers, queues and firmware commands under a context's handle table, at the level cache. It goes
through no TLB of R365. -/
def devWho (part ctx : Nat) : Who := { core := 0, part := part, ctx := ctx, fore := part == 4, agent := .dev }

/-- Bytes read at module scope; none where translation or a check fails. -/
def devRead (s : State) (w : Who) (addr n : Nat) : Option (List Byte) :=
  match xlateRange s w .r false addr n with
  | .error _ => none
  | .ok keys => if keys.any (fun k => isRemote k || badByte s k) then none else some (keys.map (rdByte s))

/-- The report that a write of part of a block met a failing check; which consumer a write of the device itself names is not
stated (R94, R310; log entry 84). -/
def devReport (s : State) (addr blocks : Nat) : State :=
  holdReport { s with free := s.free + 1 }
    { cls := 2, code := 1, info := (Config.freeWord s.free).toNat % 6, addr := addr / 64 * 64, len := 64 * blocks, tick := s.tick }

/-- Bytes written to the front at module scope; unchanged where translation fails, or where a part of a block is to be written
whose check fails (R94). -/
def devWrite (s : State) (w : Who) (addr : Nat) (l : List Byte) : State :=
  match xlateRange s w .w false addr l.length with
  | .error _ => s
  | .ok keys =>
    match badWrite s keys with
    | some k => devReport (decodeFail s k) (addr + keys.idxOf k) (badWriteBlocks s addr keys)
    | none => writeMem s (keys.zip l)

/-- The device address of byte `off` of a queue's slot (R335). -/
def slotAddr (q : Queue) (slot off : Nat) : Nat :=
  q.qcfg.toNat / 2 ^ 48 * 2 ^ 48 + q.qcfg.toNat / 2 ^ 12 % 2 ^ 36 * 4096 + 128 * slot + off
def queuePart (q : Queue) : Nat := q.qcfg.toNat / 64 % 4
def queueCtx (q : Queue) : Nat := q.qcfg.toNat % 64
def queueWho (q : Queue) : Who := devWho (queuePart q) (queueCtx q)

/-! ## Leases (R215–R218) -/

/-- The array's lease falls free once the last participant of the holding team is gone (R218). -/
def dropLease (s : State) (cl tid : Nat) : State :=
  let t := teamAt s tid
  if (clusterAt s cl).holder == some tid && !(t.cores.any (fun n => (coreAt s n).held && (coreAt s n).tid == tid)) then
    upCluster s cl (fun x => { x with holder := none, lease := {} })
  else s

/-- The end of a core's participation (R218). -/
def releaseCore (s : State) (core : Nat) : State :=
  let tid := (coreAt s core).tid
  if (coreAt s core).held then
    let s := upCore s core (fun c => { c with held := false })
    let t := teamAt s tid
    if t.lease.isSome && !(t.cores.any (fun n => (coreAt s n).held)) then upTeam s tid (fun t => { t with lease := none })
    else dropLease s (clusterOf core) tid
  else s

/-- Another team waits for the array (R216, R219). -/
def arrayWaiter (s : State) (cl tid : Nat) : Bool := (clusterAt s cl).waiters.any (fun p => p.1 != tid)

/-- `lease.st` (R219) from participation, a waiter and a lease. -/
def leaseWord (held waiter : Bool) (l : Lease) : Word :=
  BitVec.ofNat 64 ((if waiter then 1 else 0) * 2 ^ 41 + (if held then 1 else 0) * 2 ^ 40 + l.hover * 2 ^ 32 + l.runrem * 2 ^ 16 + l.runlen)

/-! ## Tile completion (R32, R344) -/

def coreFinished (c : Core) : Bool := c.ec.retired && c.ev.retired && c.em.retired && c.eh.retired
def coreDrained (c : Core) : Bool := c.ql.isEmpty && c.qs.isEmpty && c.qd.isEmpty && c.stq.isEmpty

/-- The longest completed prefix from `n` on, over at most `fuel` tiles (R344). -/
def prefixFrom (done : List Nat) : Nat → Nat → Nat
  | 0, n => n
  | f + 1, n => if done.contains n then prefixFrom done f (n + 1) else n

/-- A tile of a record completed; when the completed prefix grows, it is stored in the slot's RESUME field (R344). -/
def recTileDone (s : State) (q tile : Nat) : State :=
  let x := queueAt s q
  match x.rcd with
  | none => s
  | some r =>
    let done := tile :: r.doneSet
    let p := prefixFrom done done.length r.prefixN
    let s := upQueue s q (fun x => { x with rcd := some { r with doneSet := done.filter (fun n => decide (p ≤ n)), prefixN := p } })
    if p = r.prefixN then s else devWrite s (queueWho x) (slotAddr x x.head 20) (leBytes 4 p)

/-- A core that its team has left: its registers and rings hold what they held until the next launch (R43). -/
def vacate (c : Core) : Core :=
  { x := c.x, sv := c.sv, sm := c.sm, sh := c.sh, v := c.v, k := c.k, vmode := c.vmode, vflags := c.vflags, od := c.od, cq := c.cq }

/-- The cores that a victim frees are kept for the candidate it was halted for (R351). -/
def keepCores (s : State) (t : Team) : State :=
  match t.halt.bind Halt.victim with
  | some c => { s with kept := SMap.setAll none s.kept (t.cores.map (fun n => (n, some c))) }
  | none => s

/-- A core that a team takes is kept for no one any more. -/
def takeCores (s : State) (cores : List Nat) : State := { s with kept := SMap.setAll none s.kept (cores.map (fun n => (n, none))) }

/-- What victims have freed for a candidate is kept for it no longer, once it has been served or is gone (R351). -/
def dropKept (s : State) (c : Cnd) : State := { s with kept := s.kept.filter (fun p => p.2 != some c) }

/-- A team leaves its cores and its TID is freed (R324). -/
def freeTeam (s : State) (tid : Nat) : State :=
  let t := teamAt s tid
  let s := dropKept (keepCores s t) (.team tid)
  let s := t.cores.foldl (fun s n => if (coreAt s n).tid = tid then upCore s n vacate else s) s
  let s := upCluster s t.cluster (fun x =>
    { x with waiters := x.waiters.filter (fun p => p.1 != tid),
             holder := if x.holder = some tid then none else x.holder,
             lease := if x.holder = some tid then {} else x.lease })
  setTeam s tid {}

/-- A finished or failed team is freed once every command and store of its cores is done (R32, R238, R306). -/
def finishTeam (s : State) (tid : Nat) : State :=
  let t := teamAt s tid
  let here := t.cores.filter (fun n => (coreAt s n).tid == tid)
  let drained := here.all (fun n => coreDrained (coreAt s n))
  match t.st with
  | .running => if tid ≠ 0x3FE ∧ drained ∧ here.all (fun n => coreFinished (coreAt s n)) then freeTeam s tid else s
  | .failed => if drained then freeTeam s tid else s
  | _ => s

def sweepTeams (s : State) : State := (s.teams.map (fun p => p.1)).foldl finishTeam s

/-- A tile is complete when every core of its team has finished: what is left in FIFOs and path queues goes, and the
record counts the tile (R32). -/
def tileComplete (s : State) (tid : Nat) : State :=
  let t := teamAt s tid
  if tid ≠ 0x3FE ∧ t.cores.all (fun n => coreFinished (coreAt s n)) then
    let s := t.cores.foldl (fun s n => upCore s n (fun c =>
      { c with fifos := [], ev := { c.ev with pathq := [] }, em := { c.em with pathq := [] }, eh := { c.eh with pathq := [] } })) s
    finishTeam (recTileDone s t.queue t.tile) tid
  else s

/-- An engine that has run its own end section retires for the tile (R32); a region still open closes with the core
(R165), and the core's participation in a lease ends (R218). -/
def retireTile (s : State) (core : Nat) (g : Eng) : State :=
  let c := coreAt s core
  let e := engSt c g
  match e.sec with
  | some x =>
    if x.kind = 4 ∧ secEnd x ≤ e.pc ∧ !e.retired ∧ !e.pushpend then
      let s := upCore s core (fun c => upEng c g (fun e =>
        { retireSec e (secEnd x) with retired := true, wait := { kind := 14, since := s.tick % 2 ^ 32 }, pathq := [] }))
      if coreFinished (coreAt s core) then
        let s := releaseCore (upCore s core (fun c => { c with npre := false, npt0 := 0 })) core
        tileComplete s c.tid
      else s
    else s
  | none => s

def execRetireForTile (core : Nat) (g : Eng) (s : State) : Out := .next (retireTile s core g)

/-! ## The context area (R217, R304, R311)

The area lies in the tensor store; where, and how its slots follow one another, is not stated (log entry 94). The model has slot `i` at
`i` team images, and behind the slots a place by TID for a header and the tiles of a team that is handed over while it runs. -/

def ctxBase : Nat := tensorBase + 2 ^ 36
/-- The size of a team image with its tiles, and of what is saved at a hand-over. -/
def imageSize : Nat := 0x1021000 + 2 ^ 23
def handedSize : Nat := 0x1000 + 2 ^ 23

/-- An image written into a slot: its blocks have new checks (R94). -/
def freshImage (s : State) (slot : Nat) : State :=
  let lo := (ctxBase + slot * imageSize) / 64
  { s with bad := s.bad.filter (fun p => !decide (lo ≤ p.1 ∧ p.1 < lo + imageSize / 64)) }

/-! ## Halts (R315–R319) -/

def slotsUsed (s : State) : Nat := (s.teams.filter (fun p => p.2.hasSlot)).length
/-- The first image slot that no team holds (R311). -/
def freeImage (s : State) : Nat := ((List.range s.ctxSlots).find? (fun i => s.teams.all (fun p => !p.2.hasSlot || p.2.islot != i))).getD 0
/-- A core of the team is inside a no-pre-emption region, as its cores or its image have it (R165, R317). -/
def inRegion (s : State) (t : Team) : Bool :=
  match t.image with
  | some l => l.any (fun c => c.npre)
  | none => t.cores.any (fun n => (coreAt s n).npre)

/-- A halt asked of a team (R315, R318): a second request for a team that is HALTING joins the first. -/
def askHalt (s : State) (tid : Nat) (ends : TState) (discard waits : Bool) : State :=
  upTeam s tid (fun t =>
    match t.st with
    | .running =>
      match t.halt with
      | none => { t with halt := some { ends := ends, discard := discard, waits := waits } }
      | some h => { t with halt := some { h with ends := if h.ends == .halted then ends else h.ends,
                                                 discard := h.discard || discard, waits := h.waits && waits } }
    | .halting =>
      { t with halt := t.halt.map (fun h => { h with discard := h.discard || discard,
                                                     ends := if h.ends == .halted && ends == .held then ends else h.ends }) }
    | .halted => if ends == .held then { t with st := .held } else t
    | _ => t)

/-- A pending request reaches the team's cores, unless a region holds it back or no image slot is free (R315, R319):
from then on no engine of the team issues. -/
def beginHalt (s : State) (tid : Nat) : State :=
  let t := teamAt s tid
  match t.halt with
  | some h =>
    if t.st == .running && !h.begun && !(h.waits && inRegion s t) && (h.discard || decide (slotsUsed s < s.ctxSlots)) then
      upTeam s tid (fun t => { t with st := .halting, halt := some { h with begun := true }, hasSlot := !h.discard, islot := freeImage s, stopped := s.tick })
    else s
  | none => s

def execHaltRequest (tid : Nat) (s : State) : Out := .next (beginHalt s tid)

/-- Step 3 of R315: function instructions in flight complete (R59, R212). -/
def endHalt (s : State) (tid : Nat) : State :=
  let t := teamAt s tid
  if t.st == .halting then t.cores.foldl (fun s n => upCore s n (fun c => { c with fnFlight := 0 })) s else s

def execHaltComplete (tid : Nat) (s : State) : Out := .next (endHalt s tid)

def tstNum : TState → Nat
  | .free => 0 | .running => 1 | .halting => 2 | .halted => 3 | .trapped => 4 | .resuming => 5 | .failed => 6 | .held => 7

/-- TEAMST (R324). -/
def teamst (s : State) (tid : Nat) : Word :=
  let t := teamAt s tid
  if t.st = .free ∨ tid = 0x3FE then 0
  else BitVec.ofNat 64 (tstNum t.st * 2 ^ 61 + (if inRegion s t then 1 else 0) * 2 ^ 60 + t.prio * 2 ^ 55 + t.cluster * 2 ^ 50 +
    (t.cores.length - 1) * 2 ^ 46 + t.slot * 2 ^ 32 + t.queue * 2 ^ 24 + t.tile % 2 ^ 24)

/-- An engine's block without the translations its core held (R365). -/
def noTlb (e : EngSt) : EngSt := { e with tlb := [] }

/-- A load or atomic of the executing engine is on its way to or from another home: it has issued and not retired. A `probe`
and a `waitw` go on after a resume instead (R142, R315 step 4, R317). -/
def engInFlight (s : State) : Bool :=
  let e := curEng s
  e.issued && !e.pushpend && e.reply != {} && !(s.cur.eng == .c && [0x48, 0x60].contains (unpackWord (wordAt s e.pc)).op.toNat)

/-- A halted team's engines have nothing in flight any more (R315 step 4). -/
def teamQuiet (s : State) (t : Team) : Bool :=
  t.cores.all (fun n =>
    let c := coreAt s n
    c.ql.isEmpty && c.qs.isEmpty && c.qd.isEmpty && c.stq.all (fun p => !p.remote) &&
    [Eng.c, .v, .m, .h].all (fun g => !engInFlight { s with cur := { core := n, eng := g } }))

/-- What a C engine keeps of the answers to its word: a `waitw` polls afresh after a resume, and a `probe` repeats its lookup
but for its page request, which is made once (R142, R369). -/
def pollAfresh (s : State) (n : Nat) (e : EngSt) : EngSt :=
  let x := { s with cur := { core := n, eng := .c } }
  let op := (unpackWord (wordAt x e.pc)).op
  if !e.issued then e
  else if op == 0x60 then { e with reply := {} }
  else if op == 0x48 then
    { e with reply := if e.reply.tags.length < 2 then {} else { tags := e.reply.tags.take 2, pri := e.reply.pri } }
  else e

/-- The save of a halted team (R315 steps 4 and 5, R317, R220): only once every issued command has written its record;
stores perform, the array's contents go into the image, the cores are freed. A trap waits for an image slot, and for a
place for its fault record (R309). -/
def saveTeam (s : State) (tid : Nat) : State :=
  let t := teamAt s tid
  match t.halt with
  | some h =>
    let quiet := teamQuiet s t
    let room := t.hasSlot || decide (slotsUsed s < s.ctxSlots)
    let recorded := !((unreported s).any (fun r => r.tid == tid && r.cls == 1))
    if t.st == .halting && h.begun && quiet && (h.discard || (room && recorded)) then
      let s := t.cores.foldl performAll s
      let s := t.cores.foldl (fun s n => upCore s n (fun c => { c with fnFlight := 0 })) s
      if h.discard then freeTeam s tid
      else
        let holds := (clusterAt s t.cluster).holder == some tid
        let lease := if holds then some (clusterAt s t.cluster).lease else t.lease
        let imgs := t.cores.map (fun n =>
          let c := coreAt s n
          { c with l1 := [], npt0 := if c.npre then s.tick - c.npt0 else 0, ec := noTlb (pollAfresh s n c.ec), ev := noTlb c.ev, em := noTlb c.em,
                   eh := noTlb c.eh })
        let s := keepCores (t.cores.foldl (fun s n => upCore s n vacate) s) t
        let s := upCluster s t.cluster (fun x =>
          { x with waiters := x.waiters.filter (fun p => p.1 != tid),
                   holder := if holds then none else x.holder, lease := if holds then {} else x.lease })
        let s := upTeam { s with order := s.order + 1 } tid (fun t =>
          { t with st := h.ends, halt := none, image := some imgs, lease := lease, savetick := s.tick,
                   trapCore := if h.ends == .trapped then h.trapCore else 0xFF,
                   trapEng := if h.ends == .trapped then h.trapEng else 0, hasSlot := true, islot := if t.hasSlot then t.islot else freeImage s, savedAt := s.order })
        freshImage (upTeam s tid (fun t => { t with savest := (teamst s tid).toNat })) (teamAt s tid).islot
    else s
  | none => s

def execTeamSave (tid : Nat) (s : State) : Out := .next (saveTeam s tid)

/-- A saved team goes back onto exactly its cores (R314): L1 empty, regions counting again (R317), a timed wait whose
target has passed adding to OVERRUN (R321), and under SKIP the trapping word retired without executing (R328). -/
def restoreTeam (s : State) (tid : Nat) : State :=
  let t := teamAt s tid
  match t.image with
  | none => s
  | some imgs =>
    let put (s : State) (p : Nat × Core) : State :=
      let c := p.2
      let s := setCore s p.1 { c with tid := tid, l1 := [], npt0 := if c.npre then s.tick - c.npt0 else 0 }
      if c.ec.issued && c.ec.wait.kind == 12 && decide (c.ec.wait.obj < s.tick) then addOverrun s tid (s.tick - c.ec.wait.obj)
      else s
    let s := takeCores ((t.cores.zip imgs).foldl put s) t.cores
    let s := upTeam s tid (fun t => { t with st := .running, image := none, hasSlot := false, halt := none, skip := false })
    if t.skip then
      match t.cores[t.trapCore]? with
      | some n =>
        let cur := s.cur
        let s := { s with cur := { core := n, eng := engOfNum t.trapEng } }
        let s := if (curEng s).issued then
            let hd := hdOf (unpackWord (wordAt s (curEng s).pc))
            retireWord (upCurEng s (fun e => { e with reply := {} })) hd (repPush s) false { eff := effDo id }
          else s
        { s with cur := cur }
      | none => s
    else s

/-- A governor's migration (R318, R351): a hot cluster takes no new tiles, and its teams are asked to halt; teams whose
record may not be pre-empted stay. -/
def execThermalMigration (cl : Nat) (hot : Bool) (s : State) : Out :=
  let s := upCluster s cl (fun x => { x with hot := hot })
  .next (if hot then
    ((s.teams.filter (fun p => p.2.st == .running && p.2.cluster == cl && !p.2.nopreempt && p.1 != 0x3FE)).map (fun p => p.1)).foldl
      (fun s tid => askHalt s tid .halted false true) s
  else s)

end Sys2Proof.Machine
end

