-- ==== Sys2Proof/Machine/Walk.lean ====
section
/-! DEFINITION. Walking the text: section headers, skipping, waits, the slip window, steer and join sections
(R19–R31), and token deadlock (R37). -/

namespace Sys2Proof.Machine

/-- The fields of a section header (R20). -/
structure Header where
  tag : Nat
  kind : Nat
  len : Nat
  aux : Nat
  w1 : Nat
  w2 : Nat
  w3 : Nat
  deriving DecidableEq, Repr

def headerOf (x : Nat) : Header :=
  { tag := x / 2 ^ 62 % 4, kind := x / 2 ^ 58 % 16, len := x / 2 ^ 47 % 2 ^ 11, aux := x / 2 ^ 42 % 2 ^ 5,
    w1 := x / 2 ^ 28 % 2 ^ 14, w2 := x / 2 ^ 14 % 2 ^ 14, w3 := x % 2 ^ 14 }

/-- The conditions of R22. -/
def headerOk (h : Header) : Bool :=
  decide (h.kind ≤ 4) && decide (1 ≤ h.len) &&
  (h.aux == 0 || h.kind == 2) &&
  !(h.kind == 2 && (h.aux / 4 == 7 || h.aux % 2 == 1)) &&
  !(h.kind == 1 && h.tag != 0) &&
  !(h.kind == 3 && !(h.w1 == 0x2000 && h.w2 == 0x2000 && h.w3 == 0x2000))

/-- The signed 32-bit difference of two section counts (R24). -/
def scDiff (a b : W32) : Int := (a - b).toInt

/-- A wait delta as a signed 14-bit number (R20). -/
def waitDelta (w : Nat) : Int := if 2 ^ 13 ≤ w then (w : Int) - 2 ^ 14 else w

/-- The other engines of `g`, in R21 order. -/
def others (g : Eng) : List Eng := (List.range 3).map (fun j => engOfNum (otherEng (engNum g) j))

/-- The engine that holds `g` back under the slip window: the one furthest behind, where it is SLIPW or more behind
(R26). -/
def slipBlock (c : Core) (slipw : Nat) (g : Eng) : Option Eng :=
  let run := (others g).filter (fun o => !(engSt c o).retired)
  let d (o : Eng) : Int := scDiff (engSt c g).sc (engSt c o).sc
  match run with
  | [] => none
  | o :: r =>
    let low := r.foldl (fun w x => if d w < d x then x else w) o
    if (slipw : Int) ≤ d low then some low else none

/-- The first wait field of a header that is not met, with the count it requires (R25). -/
def secWait (c : Core) (g : Eng) (h : Header) : Option (Eng × W32) :=
  (((others g).zip [h.w1, h.w2, h.w3]).find? (fun p =>
    p.2 != 0x2000 && !(engSt c p.1).retired &&
    decide (scDiff (engSt c p.1).sc ((engSt c g).sc + BitVec.ofInt 32 (waitDelta p.2)) < 0))).map
    (fun p => (p.1, (engSt c g).sc + BitVec.ofInt 32 (waitDelta p.2)))

/-- What an engine does at the header at its PC. -/
inductive HAct where
  | fault (f : FInfo) (hdr : Nat)
  | wait (kind detail obj : Nat)
  | skip (next : Nat)
  | target
  | start (x : Sec) (h : Header)
  | rejoin (next : Nat)

/-- Whether an engine stands at the join header at `off` with index `n`. -/
def atHeader (e : EngSt) (off : Nat) (n : W32) : Bool := e.sec.isNone && e.pc == off && e.sc == n

/-- The rule for the header at the executing engine's PC (R22, R23, R25, R26, R28, R31). An engine that waits at a join retires it
once the tagged engine has, as it found it, whatever text that join has refetched (R31, R114). That the slip window also holds an
engine at a steer header whose target it would pop, and one at a join header, is the model's choice: R26 says only that no
engine starts or skips a section beyond it (log entry 85). -/
def headerAct (s : State) : HAct :=
  let c := curCore s
  let g := s.cur.eng
  let e := engSt c g
  match c.jlast.bind (fun j => if e.pc == j.1 && e.sc == j.2.1 then some j.2.2 else none) with
  | some n => .rejoin n
  | none =>
  match fetchText s e.pc 8 with
  | .error f => .fault f 0
  | .ok l =>
    let x := leNat l
    let h := headerOf x
    if !headerOk h then .fault fIllegal x
    else
      let sec : Sec := { off := e.pc, kind := h.kind, tag := h.tag, len := h.len }
      match slipBlock c (curTeam s).slipw g with
      | some o => .wait 5 (engNum o) 0
      | none =>
        let own := h.tag == engNum g
        if h.kind = 3 then
          if own then
            if (others g).all (fun o => (engSt c o).retired || atHeader (engSt c o) e.pc e.sc) then .start sec h
            else .wait 6 0 e.pc
          else if 0 < scDiff (engSt c (engOfNum h.tag)).sc e.sc then .rejoin (secEnd sec) else .wait 6 0 e.pc
        else if h.kind = 1 && !own then
          if e.pathq.isEmpty then .wait 3 0 0 else .target
        else if !own then .skip (secEnd sec)
        else
          match secWait c g h with
          | some p => .wait 4 (engNum p.1) p.2.toNat
          | none => .start sec h

/-- The oldest target popped: the steer section retires and the engine goes on there (R28). -/
def popTarget (e : EngSt) : EngSt :=
  match e.pathq with
  | t :: r => retireSec { noWait e with pathq := r } t
  | [] => e

/-- A section started: the arm's decision is made once, here (R29). -/
def startSec (e : EngSt) (x : Sec) (h : Header) : EngSt :=
  { noWait e with sec := some x, pc := x.off + 8, inarm := x.kind == 2,
                  armlive := x.kind == 2 && (getPred e (h.aux / 4) == (h.aux / 2 % 2 == 1)) }

/-- The executing engine acts at the header at its PC. -/
def headerStep (s : State) : State :=
  match headerAct s with
  | .fault f x => raiseFatal (fetchReport s (curWho s .core) 0 f (textFails s (curEng s).pc 8)) f (textAddr s (curEng s).pc) x
  | .wait k d o => upCurEng s (fun e => waitOn s.tick e k d o)
  | .skip n => upCurEng s (fun e => retireSec (noWait e) n)
  | .target => upCurEng s popTarget
  | .start x h =>
    let seen := joinSeen (curCore s)
    upCurEng (noteText s x.off (8 + 12 * x.len)) (fun e => let e := startSec e x h
                         if x.kind = 3 then { e with seen := seen } else e)
  | .rejoin n =>
    let seen := (curCore s).jseen
    upCurEng s (fun e => { retireSec (noWait e) n with seen := clkJoin e.seen seen })

/-- Whether an engine may move: its team runs, it has not retired, and it stands between sections. -/
def atText (s : State) : Bool :=
  (curTeam s).st == .running && !(curEng s).retired && !(curEng s).pushpend && !(curEng s).issued && (curEng s).sec.isNone

def onEng (s : State) (core : Nat) (g : Eng) : State := { s with cur := { core := core, eng := g } }

def execSectionHeaderExamine (core : Nat) (g : Eng) (s : State) : Out :=
  let s := onEng s core g
  .next (if atText s then headerStep s else s)

/-- The step of V, M or H at a steer header whose path queue holds a target (R28). -/
def execSteerTargetPop (core : Nat) (g : Eng) (s : State) : Out :=
  let s := onEng s core g
  .next (if atText s then (match headerAct s with | .target => headerStep s | _ => s) else s)

/-- The step of an engine at a join header (R31). -/
def execJoinRendezvous (core : Nat) (g : Eng) (s : State) : Out :=
  let s := onEng s core g
  .next (if atText s then
    (match headerAct s with
     | .start x _ => if x.kind = 3 then headerStep s else s
     | .rejoin _ => headerStep s
     | _ => s)
  else s)

/-! ## Token deadlock (R37) -/

/-- Whether an engine that reports one of the waits of R37 is still held by it. -/
def stuck (s : State) (core : Nat) (g : Eng) : Bool :=
  let s := onEng s core g
  let c := curCore s
  let e := curEng s
  let hd := hdOf (unpackWord (wordAt s e.pc))
  if e.retired then true
  else match e.wait.kind with
    | 1 => (popBlocked c g hd.pop).isSome
    | 2 => e.pushpend && (pushBlocked c g (if e.rst.active && e.rst.remain == 0 then repPush s else hd.push)).isSome
    | 3 => if g = .c then (postEngs s).any (fun o => decide (4 ≤ (engSt c o).pathq.length)) else e.pathq.isEmpty
    | 4 | 5 | 6 => (match headerAct s with | .wait .. => true | _ => false)
    | _ => false

/-- The wait kind a TOKENDL record gives of an engine (R307). -/
def waitKind (e : EngSt) : Nat := if e.retired then 14 else e.wait.kind

def execTokenDeadlock (core : Nat) (s : State) : Out :=
  let c := coreAt s core
  let t := teamAt s c.tid
  .next (if t.st == .running && !coreFinished c && [Eng.c, .v, .m, .h].all (stuck s core) then
    if c.tid = 0x3FE then foremanFault s
    else
      let r : FRec := { cls := 0, code := 6, tid := c.tid, core := core, queue := t.queue, slot := t.slot, ctx := t.ctx, part := t.part,
                        info := waitKind c.ec * 2 ^ 12 + waitKind c.ev * 2 ^ 8 + waitKind c.em * 2 ^ 4 + waitKind c.eh, tick := s.tick }
      failContext (holdFault s r) t.part t.ctx
  else s)

end Sys2Proof.Machine
end

