-- ==== Sys2Proof/Machine/Queues.lean ====
section
/-! DEFINITION. Submission queues (R334–R339), loop-nest records (R340–R344), dependences and completion (R346–R348),
deadlines (R352, R353) and the end of a queue (R354, R355). -/

namespace Sys2Proof.Machine

/-! ## The queue registers (R335–R337) -/

def queueDepth (q : Queue) : Nat := 2 ^ (q.qcfg.toNat / 256 % 16)
def ringSize (q : Queue) : Nat := 2 ^ (q.cqcfg.toNat % 16)
def qstateNum : QState → Nat | .disabled => 0 | .active => 1 | .parked => 2 | .qerr => 3 | .destroying => 4

/-- Whether a slot is among those reserved and not yet freed (R337). -/
def slotHeld (q : Queue) (slot : Nat) : Bool :=
  decide (slot < queueDepth q ∧ (slot + queueDepth q - q.head) % queueDepth q < q.outst)

/-- In PARKED, RESERVE and COMMIT act as in ACTIVE (R339). -/
def queueOpen (q : Queue) : Bool := q.st == .active || q.st == .parked

/-- What a read of RESERVE returns (R336, R337). -/
def ticketOf (q : Queue) : Word :=
  if !queueOpen q then BitVec.ofNat 64 (2 ^ 62)
  else if q.outst = queueDepth q then BitVec.ofNat 64 (2 ^ 63)
  else BitVec.ofNat 64 (q.rcount / queueDepth q % 16 * 2 ^ 12 + (q.head + q.outst) % queueDepth q)

/-- The queue after a read of RESERVE (R337). -/
def reserveQ (q : Queue) : Queue :=
  if !queueOpen q ∨ q.outst = queueDepth q then q
  else
    let slot := (q.head + q.outst) % queueDepth q
    { q with rcount := q.rcount + 1, outst := q.outst + 1, held := SMap.set 0 q.held slot (q.rcount / queueDepth q % 16),
             committed := SMap.set false q.committed slot false }

/-- The queue after a write of COMMIT (R336, R337). -/
def commitQ (q : Queue) (v : Word) : Queue :=
  let slot := v.toNat % 2 ^ 12
  let g := v.toNat / 2 ^ 12 % 16
  let q := { q with commit := BitVec.ofNat 64 (v.toNat % 2 ^ 16) }
  if !queueOpen q then q
  else
    let e := if queueDepth q ≤ slot then 3
      else if !slotHeld q slot || SMap.get false q.committed slot then 1
      else if SMap.get 0 q.held slot ≠ g then 2 else 0
    if e = 0 then { q with committed := SMap.set false q.committed slot true }
    else { q with err := e, errslot := slot, st := .qerr }

/-- QSTAT (R336). -/
def qstat (q : Queue) : Word :=
  BitVec.ofNat 64 (qstateNum q.st * 2 ^ 61 + q.err * 2 ^ 48 + q.errslot * 2 ^ 32 + q.outst * 2 ^ 16 + q.head)

/-- CQCNT (R336). -/
def cqcnt (q : Queue) : Word := BitVec.ofNat 64 (q.acked * 2 ^ 32 + q.written)

/-- The partition of a virtual function; the physical function sees every partition (R334, R373). -/
def fnSees (fn part : Nat) : Bool := fn == 0 || fn == part + 1

/-- A write of QCFG (R335): LOG2D keeps its value for 13–15, PART unless the physical function writes it. -/
def writeQcfg (fn : Nat) (q : Queue) (v : Word) : Queue :=
  let old := q.qcfg
  let d := if 13 ≤ v.toNat / 256 % 16 then old.toNat / 256 % 16 else v.toNat / 256 % 16
  let p := if fn = 0 then v.toNat / 64 % 4 else old.toNat / 64 % 4
  { q with qcfg := BitVec.ofNat 64 (v.toNat / 2 ^ 12 * 2 ^ 12 + d * 256 + p * 64 + v.toNat % 64) }

/-- A write of CQCFG (R335). -/
def writeCqcfg (q : Queue) (v : Word) : Queue :=
  let n := if 2 ≤ v.toNat % 16 ∧ v.toNat % 16 ≤ 12 then v.toNat % 16 else q.cqcfg.toNat % 16
  { q with cqcfg := BitVec.ofNat 64 (v.toNat / 2 ^ 12 * 2 ^ 12 + n) }

/-- Whether ACKED may be set to `a`: it never passes WRITTEN, counts taken modulo 2^32 (R336). -/
def ackOk (acked written a : Nat) : Bool := decide ((a + 2 ^ 32 - acked) % 2 ^ 32 ≤ (written + 2 ^ 32 - acked) % 2 ^ 32)

/-- The device address of entry `w` of the completion ring (R335, R348). -/
def ringAddr (q : Queue) (w : Nat) : Nat :=
  q.cqcfg.toNat / 2 ^ 48 * 2 ^ 48 + q.cqcfg.toNat / 2 ^ 12 % 2 ^ 36 * 4096 + 32 * (w % ringSize q)

/-- Whether a range of `n` bytes from an offset lies within a mapped handle's extent. -/
def covers (s : State) (w : Who) (h off n : Nat) : Bool :=
  match htAt s w.part w.ctx h with | some e => decide (off + n ≤ e.ext) | none => false

/-- Whether the checks of ENABLE pass (R339). -/
def enableOk (s : State) (q : Queue) : Bool :=
  let w := queueWho q
  let h (v : Word) := v.toNat / 2 ^ 48
  let o (v : Word) := v.toNat / 2 ^ 12 % 2 ^ 36 * 4096
  decide (2 ≤ q.cqcfg.toNat % 16) && covers s w (h q.qcfg) (o q.qcfg) (128 * queueDepth q) &&
  covers s w (h q.cqcfg) (o q.cqcfg) (32 * ringSize q)

/-- ENABLE (R339): the error fields are as a bad commit or none left them. -/
def enableQueue (s : State) (q : Nat) : State :=
  let x := queueAt s q
  if x.st == .disabled && enableOk s x then
    upQueue s q (fun x => { x with st := .active, head := 0, outst := 0, rcount := 0, committed := [], held := [],
                                   written := 0, acked := 0, rcd := none })
  else s

/-! ## The fields of a record (R340) -/

def recNat (r : Rec) (off n : Nat) : Nat := leNat ((r.bytes.drop off).take n)
def recSize (r : Rec) : Nat := recNat r 8 1 % 16 + 1
def recMxa (r : Rec) : Bool := recNat r 8 1 / 16 % 2 == 1
def recNopreempt (r : Rec) : Bool := recNat r 8 1 / 32 % 2 == 1
def recExpire (r : Rec) : Nat := recNat r 8 1 / 64
def recNbar (r : Rec) : Nat := recNat r 9 1 % 32
def recRelease (r : Rec) : Nat := recNat r 9 1 / 32
def recMask (r : Rec) : Nat := recNat r 10 4 % 2 ^ 20
def recPrio (r : Rec) : Nat := if r.raised then 31 else recNat r 10 4 / 2 ^ 20 % 32
def recNloop (r : Rec) : Nat := recNat r 10 4 / 2 ^ 25 % 8
def recDeadline (r : Rec) : Nat := recNat r 16 4
def recResume (r : Rec) : Nat := recNat r 20 4
def recCount (r : Rec) (d : Nat) : Nat := recNat r (24 + 8 * d) 4
def recStep (r : Rec) (d : Nat) : Nat := recNat r (28 + 8 * d) 4
def recLoop (r : Rec) (d : Nat) : Nat := recNat r 72 3 / 2 ^ (4 * d) % 16
def recXreg (r : Rec) (d : Nat) : Nat := recLoop r d % 8
def recInd (r : Rec) (d : Nat) : Bool := recLoop r d / 8 == 1
def recToken (r : Rec) (f : Nat) : Nat := recNat r 75 6 / 2 ^ (4 * f) % 16
/-- A signal address (R340). -/
def sigAddr (h idx : Nat) : Nat := h * 2 ^ 48 + 8 * idx
/-- The used waits: address and target. -/
def recWaits (r : Rec) : List (Nat × Nat) :=
  (List.range 4).filterMap (fun k =>
    if recNat r (88 + 8 * k) 2 = 0 then none
    else some (sigAddr (recNat r (88 + 8 * k) 2) (recNat r (92 + 8 * k) 4), recNat r (90 + 8 * k) 2))
def recOuts (r : Rec) : List Nat := ((List.range 4).map (fun k => recNat r (120 + 2 * k) 2)).filter (fun h => h != 0)

/-- The trips of loop d (R342); an indirect loop's are the count read for it (R343). -/
def trips (r : Rec) (d : Nat) : Nat :=
  if recInd r d then (SMap.get none r.indT d).getD 0 else (recCount r d + recStep r d - 1) / recStep r d
/-- The number of tiles (R342). -/
def tileTotal (r : Rec) : Nat := (List.range (recNloop r)).foldl (fun t d => t * trips r d) 1

/-- The indices of tile n (R342): the value of each loop's register. -/
def tileIndices (r : Rec) (n : Nat) : List (Nat × Nat) :=
  ((List.range (recNloop r)).foldr (fun d (p : Nat × List (Nat × Nat)) =>
    (p.1 / trips r d, (recXreg r d, p.1 % trips r d * recStep r d) :: p.2)) (n, [])).2

/-- A wait or signal address within the limits of R341. -/
def sigOk (s : State) (w : Who) (addr : Nat) : Bool :=
  match htAt s w.part w.ctx (addr / 2 ^ 48) with
  | none => false
  | some e =>
    decide (addr % 2 ^ 48 + 8 ≤ e.ext) &&
    (e.kind == 1 || (e.kind == 6 && (match xlateByte s w .r false addr with
       | .ok k => isRemote k && decide (remoteHome k < 4)
       | .error _ => false)))

/-- An output within the limits of R341. -/
def outOk (s : State) (w : Who) (h : Nat) : Bool :=
  match htAt s w.part w.ctx h with | some e => e.shadow && (e.kind == 1 || e.kind == 2) | none => false

def anyInd (r : Rec) : Bool := (List.range (recNloop r)).any (recInd r)

/-- The limits of R340 and R341. The tile total of a record with an indirect count is checked once that is read. -/
def recordOk (s : State) (w : Who) (r : Rec) : Bool :=
  let n := recNloop r
  recExpire r != 3 && decide (recNbar r ≤ 16) && decide (recRelease r ≤ 4) && recMask r != 0 && decide (n ≤ 6) &&
  recNat r 10 4 / 2 ^ 28 == 0 && decide (1 ≤ recNat r 14 1 ∧ recNat r 14 1 ≤ 64) && decide (recNat r 15 1 ≤ 200) &&
  recNat r 2 4 % 4 == 0 && recNat r 81 1 == 0 &&
  (List.range 6).all (fun d =>
    if d < n then
      recStep r d != 0 && recXreg r d != 0 && recXreg r d != 7 && !((List.range d).any (fun e => recXreg r e == recXreg r d)) &&
      !(recInd r d && recNat r 6 2 == 0)
    else recCount r d == 0 && recStep r d == 0 && recLoop r d == 0) &&
  (recNat r 82 2 == 0 || sigOk s w (sigAddr (recNat r 82 2) (recNat r 84 4))) &&
  (recWaits r).all (fun p => sigOk s w p.1) && (recOuts r).all (outOk s w) &&
  (anyInd r || (decide (tileTotal r < 2 ^ 32) && decide (recResume r ≤ tileTotal r)))

/-! ## Teams of a record -/

/-- The live teams of a queue's record. -/
def recTeams (s : State) (q : Nat) : List Nat :=
  (s.teams.filter (fun p => p.1 != 0x3FE && p.2.st != .free && p.2.queue == q)).map (fun p => p.1)

/-- A saved team: it has left its cores. -/
def savedTeam (t : Team) : Bool :=
  match t.st with | .halted | .held | .trapped | .resuming => true | _ => false

/-- Saved teams of a record discarded, its resident ones asked to halt and be discarded where `resident` says so. -/
def discardTeams (s : State) (q : Nat) (resident : Bool) : State :=
  (recTeams s q).foldl (fun s tid =>
    let t := teamAt s tid
    if savedTeam t then freeTeam s tid
    else if t.st == .halting || resident then beginHalt (askHalt s tid .halted true false) tid
    else s) s

/-! ## Evaluating waits (R343, R346, R350) -/

/-- A 64-bit word of the owner context, here or on a linked module: the word, or the state after asking for it; none
where it does not translate or its check fails. -/
def queueWord (s : State) (q addr : Nat) : Option (Word × State) × State :=
  let x := queueAt s q
  match xlateRange s (queueWho x) .r false addr 8 with
  | .error _ => (none, s)
  | .ok keys =>
    let k := keys.headD 0
    if isRemote k then
      match x.rcd with
      | none => (none, s)
      | some r =>
        if keys.all (fun k => (SMap.get none r.reply.got k).isSome) then
          let v := BitVec.ofNat 64 (leNat (keys.map (fun k => (SMap.get none r.reply.got k).getD 0)))
          (some (v, s), s)
        else if r.reply.tags.isEmpty then
          let (s, id) := sendReq s .read (.queue q) (remoteHome k) (remotePa k) 8 []
          (none, upQueue s q (fun x => { x with rcd := x.rcd.map (fun r => { r with reply := { r.reply with tags := [id] } }) }))
        else (none, s)
    else if keys.any (badByte s) then (none, s)
    else
      let s := fillReads s keys
      (some (BitVec.ofNat 64 (leNat (keys.map (rdByte s))), s), s)

/-- The values of the used waits as far as they can be read, with their targets. -/
def waitWords (s : State) (q : Nat) (r : Rec) : List (Option (Word × Nat)) × State :=
  (recWaits r).foldl (fun (p : List (Option (Word × Nat)) × State) w =>
    match queueWord p.2 q w.1 with
    | (some (v, s), _) => (p.1 ++ [some (v, w.2)], s)
    | (none, s) => (p.1 ++ [none], s)) ([], s)

/-- The clusters of a partition that the record's mask names (R374). -/
def inMask (s : State) (r : Rec) (part cl : Nat) : Bool :=
  decide (cl < 20) && recMask r / 2 ^ cl % 2 == 1 && SMap.get 7 s.own.cg (cl / 5) == part

/-- The user cores of a cluster that repair has left (R10, R386). -/
def userCores (s : State) (cl : Nat) : List Nat :=
  ((List.range 16).map (fun i => 16 * cl + i)).filter (fun n => decide (2 ≤ n) && !(SMap.get false s.deadPairs (pairOf n)))

def clusterBars (cl : Nat) : Nat := if cl = 0 then 14 else 16

/-- Whether a cluster could ever hold a team of the record (R350). -/
def couldHold (s : State) (r : Rec) (part cl : Nat) : Bool :=
  inMask s r part cl && decide (recSize r ≤ (userCores s cl).length) && decide (recNbar r ≤ clusterBars cl) &&
  !(recMxa r && SMap.get false s.deadArrays cl)

/-- The class-2 record of a failed check that the walkers met, with the number of failing blocks (R310, R341); which consumer it
names is not stated. -/
def slotReport (s : State) (part addr blocks : Nat) : State :=
  let s := holdReport s { cls := 2, code := 1, part := part, info := (Config.freeWord s.free).toNat % 6, addr := addr / 64 * 64,
                          len := 64 * blocks, tick := s.tick }
  { s with free := s.free + 1 }

def placeable (s : State) (r : Rec) (part : Nat) : Bool := (List.range 20).any (couldHold s r part)

/-- What a read of an indirect count comes to: its value, an answer of another home still awaited, or a failure. -/
inductive CountRead where
  | value (n : Nat) (s : State)
  | wait (s : State)
  | fail (s : State)

/-- The count of loop `d` of a queue's record, read at module scope (R343). -/
def readCount (s : State) (q d : Nat) (r : Rec) : CountRead :=
  let x := queueAt s q
  let addr := recNat r 6 2 * 2 ^ 48 + recCount r d
  if recCount r d % 4 ≠ 0 then .fail s
  else match xlateRange s (queueWho x) .r false addr 4 with
  | .error _ => .fail s
  | .ok keys =>
    if keys.any isRemote then
      if r.reply.bad.isSome then .fail s
      else if keys.all (fun k => (SMap.get none r.reply.got k).isSome) then
        .value (leNat (keys.map (fun k => (SMap.get none r.reply.got k).getD 0))) s
      else if r.reply.tags.isEmpty then
        let (s, id) := sendReq s .read (.queue q) (remoteHome (keys.headD 0)) (remotePa (keys.headD 0)) 4 []
        .wait (upQueue s q (fun x => { x with rcd := x.rcd.map (fun r => { r with reply := { r.reply with tags := [id] } }) }))
      else .wait s
    else match badBlocks s addr keys with
      | some b => .fail (slotReport (decodeFail s (keys.getD b.1 0)) (queuePart x) (addr + b.1) b.2)
      | none => .value (leNat (keys.map (rdByte s))) (fillReads s keys)

/-- The tile total of a runnable record fixed once its counts are read: it may turn out malformed or unplaceable (R341, R343,
R350). A record without tiles is unplaceable only where its mask names no cluster of its partition (R374; log entry 111). -/
def fixTotal (s : State) (x : Queue) (r : Rec) : Rec :=
  if 2 ^ 32 ≤ tileTotal r ∨ tileTotal r < recResume r then { r with status := some 0x101, total := none }
  else
    let r := { r with total := some (tileTotal r), next := recResume r, prefixN := recResume r }
    let nowhere := !(List.range 20).any (inMask s r (queuePart x))
    if nowhere ∨ (tileTotal r ≠ 0 ∧ !placeable s r (queuePart x)) then { r with status := some 0x102 } else r

/-- The counts of a runnable record read, as far as they are there, and its tile total fixed after the last (R343). -/
def readCounts : Nat → Nat → State → State
  | 0, _, s => s
  | n + 1, q, s =>
    match (queueAt s q).rcd with
    | none => s
    | some r =>
      match (List.range (recNloop r)).find? (fun d => recInd r d && (SMap.get none r.indT d).isNone) with
      | none => upQueue s q (fun x => { x with rcd := some (fixTotal s x r) })
      | some d =>
        match readCount s q d r with
        | .value v s => readCounts n q (upQueue s q (fun x => { x with rcd := some { r with indT := SMap.set none r.indT d (some v), reply := {} } }))
        | .wait s => s
        | .fail s => upQueue s q (fun x => { x with rcd := some { r with status := some 0x101, total := none, reply := {} } })

/-- A queue's record becomes runnable (R343, R346). -/
def becomeRunnable (s : State) (q : Nat) (r : Rec) : State :=
  readCounts (recNloop r + 1) q
    (upQueue s q (fun x => { x with rcd := some { r with runnable := true, runtick := s.tick, reply := {} } }))

/-- The waits of a queue's record evaluated afresh (R346), or the counts of one that is runnable read on (R343). -/
def evalWaits (s : State) (q : Nat) : State :=
  let x := queueAt s q
  match x.rcd with
  | none => s
  | some r =>
    if r.status.isSome || r.parked || r.flush.isSome || (r.runnable && r.total.isSome) then s
    else if r.runnable then readCounts (recNloop r + 1) q s
    else
      let p := waitWords s q r
      let r := ((queueAt p.2 q).rcd).getD r
      if p.1.any (fun o => match o with | some (v, _) => v.getLsbD 63 | none => false) then
        upQueue p.2 q (fun x => { x with rcd := some { r with status := some 0x107, reply := {} } })
      else if p.1.all (fun o => match o with | some (v, t) => decide (t ≤ v.toNat % 2 ^ 63) | none => false) then
        becomeRunnable p.2 q r
      else if p.1.all (fun o => o.isSome) then
        upQueue p.2 q (fun x => { x with rcd := some { r with reply := {} } })
      else p.2

def execWaitEvaluation (q : Nat) (s : State) : Out := .next (evalWaits s q)

/-! ## Taking a record (R338, R341, R354, R355) -/

/-- The head slot freed (R338). -/
def freeSlot (x : Queue) : Queue :=
  { x with committed := SMap.set false x.committed x.head false, head := (x.head + 1) % queueDepth x, outst := x.outst - 1, rcd := none }

/-- A slot that cannot be read, taken as a malformed record; a failed check is reported (R341). -/
def takeUnread (s : State) (q : Nat) (keys : Except XFail (List Nat)) : State :=
  let x := queueAt s q
  let s := match keys with
    | .ok keys =>
      (match badBlocks s (slotAddr x x.head 0) keys with
       | some b => slotReport (decodeFail s (keys.getD b.1 0)) (queuePart x) (slotAddr x x.head 0 + b.1) b.2
       | none => s)
    | .error _ => s
  upQueue s q (fun x => { x with rcd := some { malformed := true, never := true, status := some 0x101 } })

/-- The record of a slot's bytes as it is taken, `final` the status of a queue being destroyed (R341, R354). -/
def takenRec (s : State) (w : Who) (l : List Byte) (final : Option Nat) : Rec :=
  let r : Rec := { bytes := l }
  if !recordOk s w r then { r with malformed := true, status := some 0x101, prefixN := recResume r, never := true }
  else match final with
    | some st => { r with status := some st, never := true, prefixN := recResume r, total := if anyInd r then none else some (tileTotal r) }
    | none => { r with total := if anyInd r then none else some (tileTotal r), next := recResume r, prefixN := recResume r }

/-- The head slot taken, as far as its bytes could be read. -/
def takeBytes (s : State) (q : Nat) (final : Option Nat) (got : Option (List Byte)) (keys : Except XFail (List Nat)) : State :=
  match got with
  | none => takeUnread s q keys
  | some l => upQueue s q (fun x => { x with rcd := some (takenRec s (queueWho (queueAt s q)) l final) })

/-- The record in the head slot as it is taken. -/
def takeHead (s : State) (q : Nat) (final : Option Nat) : State :=
  let x := queueAt s q
  let at_ := slotAddr x x.head 0
  takeBytes (fillRun s (queueWho x) at_ 128) q final (devRead s (queueWho x) at_ 128) (xlateRange s (queueWho x) .r false at_ 128)

/-- A queue being destroyed goes on once its record is done (R354, R355): uncommitted slots are voided, the next
committed record is read, and after the last the queue is DISABLED. -/
def destroyNext : Nat → Nat → State → State
  | 0, q, s => upQueue s q (fun x => { x with st := .disabled, outst := 0 })
  | n + 1, q, s =>
    let x := queueAt s q
    if x.outst = 0 then upQueue s q (fun x => { x with st := .disabled })
    else if SMap.get false x.committed x.head then takeHead s q (some x.final)
    else destroyNext n q (upQueue s q freeSlot)

/-- A queue takes the record at its head (R338). -/
def takeRecord (s : State) (q : Nat) : State :=
  let x := queueAt s q
  if x.rcd.isSome then s
  else if x.st == .active && decide (0 < x.outst) && SMap.get false x.committed x.head then evalWaits (takeHead s q none) q
  else if x.st == .destroying then destroyNext (x.outst + 1) q s
  else s

def execRecordTake (q : Nat) (s : State) : Out := .next (takeRecord s q)

/-! ## Deadlines (R352, R353) -/

/-- Whether step 1 of R347 is done: the record has a status or has launched all its tiles, and no team of it is left. -/
def stepOne (s : State) (q : Nat) (r : Rec) : Bool :=
  (recTeams s q).isEmpty && !r.parked && r.flush.isNone &&
  (match r.status with
   | some _ => true
   | none => r.runnable && (match r.total with | some t => decide (t ≤ r.prefixN) | none => false))

/-- The expiry action of a queue's record, as the tick reaches E or the record is dispatched again later, while step 1 of R347 is not yet done, the sweep of teams that
have drained included (R353). LATE says that the deadline passed (R348), whatever the action; a status that the record has already
stays (log entry 87). -/
def deadlineExpire (s : State) (q : Nat) : State :=
  match (queueAt s q).rcd with
  | none => s
  | some r =>
    if r.runnable && !r.expired && !r.parked && r.step == 0 && recDeadline r != 0 && decide (r.runtick + recDeadline r ≤ s.tick) &&
        !stepOne (sweepTeams s) q r then
      match recExpire r with
      | 0 => upQueue s q (fun x => { x with rcd := some { r with expired := true, late := true } })
      | 1 =>
        let s := upQueue s q (fun x => { x with rcd := some { r with expired := true, late := true, raised := true } })
        (recTeams s q).foldl (fun s tid => upTeam s tid (fun t => { t with prio := 31 })) s
      | _ =>
        let s := upQueue s q (fun x => { x with rcd := some { r with expired := true, late := true, flush := none, status := some (r.status.getD 0x104) } })
        discardTeams s q true
    else s

def execDeadlineExpiry (q : Nat) (s : State) : Out := .next (deadlineExpire s q)

/-! ## Flushing, resetting and destroying (R329, R354) -/

/-- A flush ends once no team of the record is left: the record is parked (R329). -/
def finishFlush (s : State) (q : Nat) : State :=
  match (queueAt s q).rcd with
  | some r =>
    if r.flush.isSome && (recTeams s q).isEmpty then
      upQueue s q (fun x => { x with rcd := some { r with flush := none, parked := true } })
    else s
  | none => s

/-- A record that can still be parked: no status is fixed and no step of R347 has begun. -/
def parkable (r : Rec) : Bool := r.status.isNone && r.step == 0 && !r.parked

/-- `q.flush` (R329): dispatch stops; mode 1 halts and discards the teams. -/
def flushQueue (s : State) (q mode : Nat) : State :=
  let s := upQueue s q (fun x =>
    { x with st := if x.st == .active then .parked else x.st,
             rcd := x.rcd.map (fun r => if parkable r then { r with flush := some mode } else r) })
  let s := if mode = 1 ∧ ((queueAt s q).rcd.map (fun r => r.flush.isSome)).getD false then discardTeams s q true else s
  finishFlush s q

/-- `q.reset` mode 0 (R329, R339). -/
def resetContinue (s : State) (q : Nat) : State :=
  upQueue s q (fun x =>
    { x with st := .active, err := 0, errslot := 0,
             rcd := x.rcd.map (fun r => if r.parked then { r with parked := false, status := some 0x105 } else r) })

/-- A running record that no cluster can hold any more is UNPLACEABLE: its started tiles finish, and no other starts (R350). -/
def recheckRec (s : State) (part : Nat) (r : Rec) : Rec :=
  if r.runnable && r.total.isSome && r.status.isNone && !r.parked && r.flush.isNone && !placeable s r part then { r with status := some 0x102 } else r

/-- `q.reset` mode 1 (R329, R344): the parked record is dispatched again from the tile after its resume index; repair may have left no
cluster for it (R350). -/
def resetRestart (s : State) (q : Nat) : State :=
  deadlineExpire
    (upQueue s q (fun x =>
      { x with st := .active, err := 0, errslot := 0,
               rcd := x.rcd.map (fun r => recheckRec s (queuePart x) { r with parked := false, next := r.prefixN, doneSet := [] }) })) q

/-- DESTROY (R354). -/
def destroyQueue (s : State) (q : Nat) (discard : Bool) : State :=
  let x := queueAt s q
  if x.st == .disabled || x.st == .destroying then s
  else
    let s := upQueue s q (fun x =>
      { x with st := .destroying, final := 0x106,
               rcd := x.rcd.map (fun r => { r with parked := false, flush := none, status := if r.status.isNone then some 0x106 else r.status }) })
    let s := discardTeams s q discard
    if (queueAt s q).rcd.isNone then destroyNext ((queueAt s q).outst + 1) q s else s

/-- A read of RESERVE through a function, and what it returns (R334, R336, R337). -/
def execReserveRead (fn q : Nat) (s : State) : Out :=
  .next (if s.stage = 3 ∧ fnSees fn (queuePart (queueAt s q)) then
      hostSay (upQueue s q reserveQ) fn (.success (leBytes 8 (ticketOf (queueAt s q)).toNat))
    else hostSay s fn (.success (leBytes 8 0)))

def execCommitWrite (fn q : Nat) (v : Word) (s : State) : Out :=
  .next (if s.stage = 3 ∧ fnSees fn (queuePart (queueAt s q)) then upQueue s q (fun x => commitQ x v) else s)

def setCtrl (s : State) (q v : Nat) : State := upQueue s q (fun x => { x with ctrl := BitVec.ofNat 64 (v % 16) })

def execQueueEnable (fn q : Nat) (s : State) : Out :=
  .next (if s.stage = 3 ∧ fnSees fn (queuePart (queueAt s q)) then enableQueue (setCtrl s q 1) q else s)

def execQueueDestroy (fn q : Nat) (discard : Bool) (s : State) : Out :=
  .next (if s.stage = 3 ∧ fnSees fn (queuePart (queueAt s q)) then destroyQueue (setCtrl s q (if discard then 10 else 2)) q discard else s)

/-! ## Completion (R110, R115, R347, R348) -/

/-- Whether a pending store of a core on this module was made through a table entry. -/
def storeNames (s : State) (core key : Nat) (p : PendSt) : Bool :=
  let w := whoCore s core p.eng .core
  !p.remote && decide (p.addr / 2 ^ 48 % 65536 < 0xFFFE) && entKey s w.part w.ctx (p.addr / 2 ^ 48 % 65536) == key

/-- A pending store aimed at the front as it stands. -/
def moveStore (s : State) (core : Nat) (p : PendSt) : Option PendSt :=
  match xlateRange s (whoCore s core p.eng .core) .w false p.addr p.bytes.length with
  | .ok ks => if ks.any isRemote then none else some { p with bytes := ks.zip (p.bytes.map (fun b => b.2)) }
  | .error _ => none

/-- How many of a core's pending stores come before a publish in coherence order: a free number, but at least those that have no
place in the new front `s'` (R111). -/
def pubCut (s s' : State) (core key : Nat) : Nat :=
  let q := (coreAt s core).stq
  let stay := ((List.range q.length).filter (fun i => match q[i]? with
    | some p => storeNames s core key p && (moveStore s' core p).isNone
    | none => false)).map (fun i => i + 1)
  max ((Config.freeWord s.free).toNat % (q.length + 1)) (stay.foldl max 0)

/-- The pending stores of a core at a publish: some come before it and stay in what becomes the shadow, the others after it, in the
new front (R111). -/
def pubStores (key : Nat) (swap : State → State) (s : State) (core : Nat) : State :=
  if (coreAt s core).stq.any (storeNames s core key) then
    let s1 := performFirst s core (pubCut s (swap s) core key)
    let s2 := swap s1
    upCore { s1 with free := s1.free + 1 } core (fun c =>
      { c with stq := c.stq.map (fun p => if storeNames s core key p then (moveStore s2 core p).getD p else p) })
  else s

/-- A publish: the two backings of a handle change places in one event (R110, R111). `scope` is a scope code of R99. -/
def publish (s : State) (part ctx h scope : Nat) : State :=
  match htAt s part ctx h with
  | some e =>
    if e.shadow then
      let key := entKey s part ctx h
      let swap (s : State) : State :=
        { s with ht := SMap.set none s.ht key (some { e with swapped := !e.swapped, narrow := decide (scope < 4) }) }
      swap ((s.cores.map (fun p => p.1)).foldl (pubStores key swap) s)
    else s
  | none => s

/-- A record's fatal error is reported before the record completes (R309). -/
def faultPending (s : State) (part ctx : Nat) : Bool :=
  (unreported s).any (fun r => r.cls == 0 && r.part == part && r.ctx == ctx)

/-- The signal step (R347): 1 added on OK, the failure bit set on any other status; none while another module's answer
is awaited. A word of a window takes no atomic (R91), and one whose block fails its check is reported and not changed (R94, R95). -/
def signalRecord (s : State) (q : Nat) (r : Rec) : Option State :=
  let x := queueAt s q
  let addr := sigAddr (recNat r 82 2) (recNat r 84 4)
  if r.bytes.isEmpty ∨ recNat r 82 2 = 0 ∨ !sigOk s (queueWho x) addr then some s
  else
    let ok := r.status == some 0
    match xlateRange s (queueWho x) .a false addr 8 with
    | .error _ => some s
    | .ok keys =>
      let k := keys.headD 0
      if isRemote k then
        if r.reply.ans.isSome then some s
        else if r.reply.tags.isEmpty then
          let (s, id) := sendReq s .atomic (.queue q) (remoteHome k) (remotePa k) 8
            (if ok then [0, BitVec.ofNat 8 (etyCode .n64)] ++ leBytes 8 1 ++ leBytes 8 0
             else [2, BitVec.ofNat 8 (etyCode .n64)] ++ leBytes 8 (2 ^ 63) ++ leBytes 8 0)
          some (upQueue s q (fun x => { x with rcd := some { r with reply := { tags := [id] } } }))
        else none
      else
        if keys.any (fun k => decide (apBase ≤ k ∧ k < apTop)) then some s
        else match badBlocks s addr keys with
        | some b => some (slotReport (decodeFail s (keys.getD b.1 0)) (queuePart x) (addr + b.1) b.2)
        | none =>
          let v := leNat (keys.map (rdByte s))
          some (writeMem (fillReads s keys) (keys.zip (leBytes 8 (if ok then v + 1 else v ||| 2 ^ 63))))

/-- Steps 1 to 4 of R347: teams gone and their writes performed, outputs published on OK, the signal word changed. -/
def completeRecord (s0 : State) (q : Nat) : State :=
  let s := finishFlush (sweepTeams s0) q
  let x := queueAt s q
  match x.rcd with
  | none => s
  | some r =>
    let s := if r.status == some 0x104 || r.status == some 0x106 then
        ((recTeams s q).filter (fun t => savedTeam (teamAt s t))).foldl freeTeam s else s
    if 4 ≤ r.step ∨ !stepOne s q r then s
    else if r.status = some 0x103 ∧ faultPending s (queuePart x) (queueCtx x) then s
    else
      let r := if r.step = 0 then
          { r with step := 3, reply := {}, status := some (r.status.getD 0) }
        else r
      let first := ((queueAt s q).rcd.map (fun r => r.step == 0)).getD false
      let s := upQueue s q (fun x => { x with rcd := some r })
      let s := if first && r.status == some 0 then (recOuts r).foldl (fun s h => publish s (queuePart x) (queueCtx x) h (max 1 (recRelease r))) s else s
      match signalRecord s q r with
      | none => s
      | some s =>
        match (queueAt s q).rcd with
        | some r' => if r'.reply.tags.isEmpty || r'.reply.ans.isSome then upQueue s q (fun x => { x with rcd := some { r' with step := 4 } }) else s
        | none => s

def execRecordComplete (q : Nat) (s : State) : Out := .next (completeRecord s q)

/-- The completion entry (R348). -/
def completionEntry (x : Queue) (r : Rec) (tick : Nat) : List Byte :=
  let ph := 1 - x.written / ringSize x % 2
  let mal := r.status == some 0x101
  leBytes 4 (ph * 2 ^ 31 + x.head * 2 ^ 16 + r.status.getD 0) ++
  leBytes 2 ((if r.late then 1 else 0) + (if r.raised then 2 else 0)) ++ leBytes 2 0 ++ leBytes 4 r.prefixN ++
  leBytes 4 (if mal then 0 else r.total.getD 0) ++ leBytes 8 r.runtick ++ leBytes 8 tick

/-- Step 5 of R347: the entry is written once the ring has room, and the slot is freed. -/
def writeEntry (s : State) (q : Nat) : State :=
  let x := queueAt s q
  match x.rcd with
  | none => s
  | some r =>
    if r.step = 4 ∧ (x.written + 2 ^ 32 - x.acked) % 2 ^ 32 < ringSize x then
      let s := devWrite s (queueWho x) (ringAddr x x.written) (completionEntry x r s.tick)
      let s := dropKept (upQueue s q (fun x => { freeSlot x with written := (x.written + 1) % 2 ^ 32 })) (.rcd q)
      if x.st == .destroying then destroyNext (queueAt s q).outst.succ q s else s
    else s

def execCompletionEntryWrite (q : Nat) (s : State) : Out := .next (writeEntry s q)

end Sys2Proof.Machine
end

