-- ==== Sys2Proof/Machine/Launch.lean ====
section
/-! DEFINITION. The walkers' choice (R349): placing a tile on free cores in the launch state (R35, R43, R44, R350),
restoring a saved team (R314), and choosing victims (R351). -/

namespace Sys2Proof.Machine

/-! ## Room -/

/-- A core that a team can take: no team is on it and repair has left it. -/
def freeCores (s : State) (cl : Nat) : List Nat := (userCores s cl).filter (fun n => (coreAt s n).tid == 0x3FF)

/-- Whether a team stands on its cores. -/
def residentTeam (t : Team) : Bool := match t.st with | .running | .halting | .failed => true | _ => false

def residents (s : State) (cl : Nat) : List (Nat × Team) :=
  s.teams.filter (fun p => p.1 != 0x3FE && residentTeam p.2 && p.2.cluster == cl)

/-- The cluster's barriers that no resident team holds (R44, R303). -/
def freeBars (s : State) (cl : Nat) : Nat := clusterBars cl - (residents s cl).foldl (fun n p => n + p.2.nbar) 0

def arrayOk (s : State) (cl : Nat) (mxa : Bool) : Bool := !(mxa && SMap.get false s.deadArrays cl)

/-- The fitting cluster with the most free user cores, lowest number first among equals (R350). -/
def pickCluster (s : State) (ok : Nat → Bool) : Option Nat :=
  (List.range 20).foldl (fun (b : Option Nat) cl =>
    if ok cl then
      match b with
      | none => some cl
      | some d => if (freeCores s d).length < (freeCores s cl).length then some cl else b
    else b) none

/-! ## Candidates (R349) -/

/-- Saved teams that wait to be restored, longest saved first. -/
def waitingTeams (s : State) (prio : Nat) : List Nat :=
  let l := s.teams.filter (fun p => p.2.prio == prio && (p.2.st == .halted || p.2.st == .resuming) && p.2.image.isSome)
  let ins (x : Nat × Nat) (l : List (Nat × Nat)) : List (Nat × Nat) := (l.takeWhile (fun y => y.1 ≤ x.1)) ++ [x] ++ (l.dropWhile (fun y => y.1 ≤ x.1))
  (l.foldl (fun acc p => ins (p.2.savedAt, p.1) acc) []).map (fun p => p.2)

/-- Whether a queue's record is runnable and has tiles left to launch (R327, R329, R349). -/
def launchable (s : State) (q : Nat) : Bool :=
  match (queueAt s q).rcd with
  | some r =>
    r.runnable && r.status.isNone && !r.parked && r.flush.isNone && (match r.total with | some t => decide (r.next < t) | none => false) &&
    !((recTeams s q).any (fun t => (teamAt s t).st == .held ||
        ((teamAt s t).halt.map (fun h => h.ends == .held)).getD false))
  | none => false

/-- The candidates of one priority in the order they are served. -/
def candidatesAt (s : State) (prio : Nat) : List Cnd :=
  let first := SMap.get 0 s.rr prio
  let qs := ((s.queues.map (fun p => p.1)).filter (fun q => launchable s q && (((queueAt s q).rcd.map recPrio).getD 0 == prio)))
  (waitingTeams s prio).map .team ++ ((qs.filter (fun q => decide (first ≤ q))) ++ (qs.filter (fun q => decide (q < first)))).map .rcd

def candidates (s : State) : List Cnd := (List.range 32).flatMap (fun i => candidatesAt s (31 - i))

/-- A candidate's priority (R349). -/
def cndPrio (s : State) : Cnd → Nat
  | .team tid => (teamAt s tid).prio
  | .rcd q => ((queueAt s q).rcd.map recPrio).getD 0

/-- Whether a candidate still waits to be served. -/
def cndWaits (s : State) : Cnd → Bool
  | .team tid => let t := teamAt s tid; (t.st == .halted || t.st == .resuming) && t.image.isSome
  | .rcd q => launchable s q

/-- Whether a core is kept for a waiting candidate of higher priority, for which a victim has freed it (R351). -/
def keptAbove (s : State) (p n : Nat) : Bool :=
  match SMap.get none s.kept n with | some c => cndWaits s c && decide (p < cndPrio s c) | none => false

/-- The free cores of a cluster that a candidate of priority `p` may take. -/
def freeFor (s : State) (p cl : Nat) : List Nat := (freeCores s cl).filter (fun n => !keptAbove s p n)

/-- Whether a new tile of a record fits in a cluster now (R350, R318). -/
def fits (s : State) (r : Rec) (part cl : Nat) : Bool :=
  inMask s r part cl && decide (recSize r ≤ (freeFor s (recPrio r) cl).length) && decide (recNbar r ≤ freeBars s cl) &&
  arrayOk s cl (recMxa r) && !(clusterAt s cl).hot

/-- Whether a saved team can go back onto its cores now (R314, R318). -/
def restorable (s : State) (t : Team) : Bool :=
  t.cores.all (fun n => (freeFor s t.prio t.cluster).contains n) && decide (t.nbar ≤ freeBars s t.cluster) && !(clusterAt s t.cluster).hot

/-! ## Launch (R35, R43, R44, R114, R340) -/

/-- The lowest TID that no live team has; 0x3FE and 0x3FF are never given (R324). -/
def freeTid (s : State) : Option Nat := (List.range 0x3FE).find? (fun t => (teamAt s t).st == .free)

/-- A core at a tile launch: every register of R43. -/
def launchCore (s : State) (r : Rec) (n tid idx : Nat) : Core :=
  let e : EngSt := { pc := recNat r 2 4 }
  let x := (tileIndices r n).foldl (fun m p => SMap.set 0 m p.1 (BitVec.ofNat 64 p.2)) ([] : SMap Word)
  let x := SMap.set 0 (SMap.set 0 x 7 (BitVec.ofNat 64 idx)) 8 (BitVec.ofNat 64 (recNat r 6 2))
  { tid := tid, idx := idx, ec := e, ev := e, em := e, eh := e, x := x,
    fifos := SMap.tab [] 12 (fun f => List.replicate (recToken r f) {}),
    view := { mem := s.mem, lc := s.lc, bad := s.bad, ht := s.ht } }

/-- The next tile of a queue's record launched on free cores of a cluster, in ascending core number. -/
def launchTile (s : State) (q cl : Nat) : State :=
  let x := queueAt s q
  match x.rcd, freeTid s with
  | some r, some tid =>
    let cores := (freeFor s (recPrio r) cl).take (recSize r)
    let s := takeCores s cores
    let s := ((List.range cores.length).zip cores).foldl (fun s p => setCore s p.2 (launchCore s r r.next tid p.1)) s
    let t : Team :=
      { st := .running, cluster := cl, cores := cores, part := queuePart x, ctx := queueCtx x, queue := q, slot := x.head, tile := r.next,
        prio := recPrio r, nopreempt := recNopreempt r, nbar := recNbar r, text := recNat r 0 2, slipw := recNat r 14 1,
        nopre := recNat r 15 1, order := s.order }
    let s := { setTeam s tid t with order := s.order + 1 }
    let s := upQueue s q (fun x => { x with rcd := some { r with next := r.next + 1 } })
    { s with rr := SMap.set 0 s.rr (recPrio r) ((q + 1) % 256) }
  | _, _ => s

/-- Serving a candidate where it fits. -/
def serve (s : State) (c : Cnd) : Option State :=
  (match c with
   | .team tid => if restorable s (teamAt s tid) then some (restoreTeam s tid) else none
   | .rcd q =>
     match (queueAt s q).rcd with
     | some r => if (freeTid s).isNone then none else (pickCluster s (fits s r (queuePart (queueAt s q)))).map (launchTile s q)
     | none => none).map (fun s => dropKept s c)

/-! ## Victims (R351) -/

/-- Whether a team may be halted for a candidate of priority p. -/
def mayHalt (t : Team) (p : Nat) : Bool := t.st == .running && t.halt.isNone && decide (t.prio < p) && !t.nopreempt

/-- Whether a team's cores are already on their way to being freed. -/
def leaving (t : Team) : Bool := t.st == .halting || t.halt.isSome || t.st == .failed

/-- Whether the cores and barriers that would be free without the given teams hold a candidate. -/
def roomWithout (s : State) (cl : Nat) (gone : List Nat) (need : List Nat) (size nbar : Nat) : Bool :=
  let out := (residents s cl).filter (fun p => leaving p.2 || gone.contains p.1)
  let cores := freeCores s cl ++ out.flatMap (fun p => p.2.cores)
  let bars := freeBars s cl + out.foldl (fun n p => n + p.2.nbar) 0
  need.all (fun n => cores.contains n) && decide (size ≤ cores.length) && decide (nbar ≤ bars)

/-- Lowest priority first, latest launched first among equals. -/
def victimOrder (l : List (Nat × Team)) : List (Nat × Team) :=
  let before (a b : Nat × Team) : Bool := decide (a.2.prio < b.2.prio) || (a.2.prio == b.2.prio && decide (b.2.order < a.2.order))
  l.foldl (fun acc x => acc.takeWhile (fun y => !before x y) ++ [x] ++ acc.dropWhile (fun y => !before x y)) []

/-- The fewest victims of a cluster, in order, that free enough room; for a saved team those on its own cores come first. -/
def victimsIn (s : State) (cl p : Nat) (need : List Nat) (size nbar : Nat) : Option (List Nat) :=
  let on (x : Nat × Team) : Bool := x.2.cores.any (fun n => need.contains n)
  let may := victimOrder ((residents s cl).filter (fun x => mayHalt x.2 p))
  let all := may.filter on ++ may.filter (fun x => !on x)
  let ids := all.map (fun x => x.1)
  ((List.range (ids.length + 1)).map (fun k => ids.take k)).find? (fun v => roomWithout s cl v need size nbar)

/-- The victims for a candidate that fits nowhere: from the cluster where the fewest are needed. -/
def victims (s : State) : Cnd → List Nat
  | .team tid =>
    let t := teamAt s tid
    if (clusterAt s t.cluster).hot then [] else (victimsIn s t.cluster t.prio t.cores 0 t.nbar).getD []
  | .rcd q =>
    match (queueAt s q).rcd with
    | none => []
    | some r =>
      let part := queuePart (queueAt s q)
      ((List.range 20).foldl (fun (b : Option (List Nat)) cl =>
        if couldHold s r part cl && !(clusterAt s cl).hot then
          match victimsIn s cl (recPrio r) [] (recSize r) (recNbar r), b with
          | some v, none => some v
          | some v, some w => if v.length < w.length then some v else b
          | none, _ => b
        else b) none).getD []

/-- A team asked to halt for a candidate that fits nowhere (R315, R351). -/
def haltFor (c : Cnd) (s : State) (tid : Nat) : State :=
  beginHalt (upTeam (askHalt s tid .halted false true) tid (fun t => { t with halt := t.halt.map (fun h => { h with victim := some c }) })) tid

/-- The first of some candidates that can be placed, served; one that cannot is passed over for this choice (R349). -/
def serveFirst (s : State) (l : List Cnd) : State := (l.findSome? (serve s)).getD s

/-- One choice (R349, R351): the first candidate that fits is served; for the highest one, where it fits nowhere,
victims are asked to halt, and what they free is kept for it before any of lower priority. -/
def walkerChoice (s0 : State) : State :=
  let s := sweepTeams s0
  match candidates s with
  | [] => s
  | c :: r =>
    match serve s c with
    | some s => s
    | none => serveFirst ((victims s c).foldl (haltFor c) s) r

def execWalkerChoice (s : State) : Out := .next (walkerChoice s)

end Sys2Proof.Machine
end

