-- ==== Sys2Proof/Machine/Image.lean ====
section
/-! DEFINITION. The bytes of a saved team image (R311–R313), as `ctx.save` copies them and `ctx.rest` reads them back
(R330). -/

namespace Sys2Proof.Machine

/-- The size of a core image and of the team header (R311). -/
def coreImageSize : Nat := 0x102000
def headerSize : Nat := 0x1000

/-- A piece of an image: its offset, its length and its value. -/
structure Piece where
  off : Nat
  len : Nat
  val : Nat
  deriving DecidableEq, Repr

/-- Byte `o` of an image made of pieces; all else is 0. -/
def pieceByte (l : List Piece) (o : Nat) : Byte :=
  match l.find? (fun p => decide (p.off ≤ o ∧ o < p.off + p.len)) with
  | some p => BitVec.ofNat 8 (p.val / 256 ^ (o - p.off))
  | none => 0

def flagsOf (e : EngSt) : Nat :=
  (if e.issued then 1 else 0) + (if e.retired then 2 else 0) + (if e.armlive then 4 else 0) + (if e.inarm then 8 else 0) +
    e.wait.kind % 16 * 16 + (if e.pushpend then 256 else 0)

/-- RSTATE as the image holds it: REMAIN counts repetitions not yet issued, and the word at PC has issued where ISSUED is 1
(R41, R313). -/
def savedRep (e : EngSt) : Rep := if e.issued then { e.rst with remain := e.rst.remain - 1 } else e.rst

/-- RSTATE read back: with ISSUED 1 the repetition at PC goes on; REMAIN 0 leaves a `rep` whose own pushes wait as it is. A REMAIN
beyond R330's 64, which only software that writes an image can leave, is cut to 64 (log entry 120). -/
def readRep (x : Rep) (issued : Bool) (old : Rep) : Rep :=
  { x with remain := min 64 (if issued && x.active && !(x.remain == 0 && old.remain == 0) then x.remain + 1 else x.remain) }

/-- The engine block at an offset (R313). -/
def enginePieces (o : Nat) (g : Eng) (e : EngSt) : List Piece :=
  [⟨o, 8, e.pc⟩, ⟨o + 8, 4, e.sc.toNat⟩, ⟨o + 12, 4, flagsOf e⟩, ⟨o + 16, 8, (packRep (savedRep e)).toNat⟩, ⟨o + 24, 1, e.preds.toNat⟩,
   ⟨o + 25, 1, if g = .c then 0 else e.pathq.length⟩] ++
  (if g = .c then [] else (List.range e.pathq.length).map (fun i => ⟨o + 32 + 8 * i, 8, e.pathq.getD i 0⟩))

/-- A token FIFO at an offset (R312). -/
def fifoPieces (o : Nat) (l : List Token) : List Piece :=
  [⟨o, 1, l.length⟩, ⟨o + 2, 2, (List.range l.length).foldl (fun a i => a + if (l.getD i {}).laden.isSome then 2 ^ i else 0) 0⟩] ++
  (List.range l.length).map (fun i => ⟨o + 8 + 8 * i, 8, ((l.getD i {}).laden.getD 0).toNat⟩)

def allEngs : List Eng := [.c, .v, .m, .h]

/-- NPRST of a saved core (R172, R317): the budget that remains, which does not count while saved. -/
def savedNprst (c : Core) (nopre : Nat) : Nat := if c.npre then 2 ^ 16 + (nopre - c.npt0) else nopre

/-- The core image of a saved core of a team (R312). -/
def corePieces (t : Team) (c : Core) : List Piece :=
  c.v.flatMap (fun r => r.2.map (fun x => (⟨4096 * r.1 + 4 * x.1, 4, x.2.toNat⟩ : Piece))) ++
  c.k.map (fun r => (⟨0x100000 + 128 * r.1, 128, r.2.toNat⟩ : Piece)) ++
  c.sv.map (fun r => (⟨0x101000 + 8 * r.1, 8, r.2.toNat⟩ : Piece)) ++
  c.sm.map (fun r => (⟨0x101100 + 8 * r.1, 8, r.2.toNat⟩ : Piece)) ++
  c.sh.map (fun r => (⟨0x101200 + 8 * r.1, 8, r.2.toNat⟩ : Piece)) ++
  c.x.map (fun r => (⟨0x101300 + 8 * r.1, 8, r.2.toNat⟩ : Piece)) ++
  allEngs.flatMap (fun g => enginePieces (0x101500 + 128 * engNum g) g (engSt c g)) ++
  (List.range 12).flatMap (fun f => fifoPieces (0x101700 + 128 * f) (fifoAt c f)) ++
  [⟨0x101D00, 8, c.vmode.toNat⟩, ⟨0x101D08, 8, c.vflags.toNat⟩, ⟨0x101D10, 8, savedNprst c t.nopre⟩,
   ⟨0x101D18, 8, (leaseWord c.held false (t.lease.getD {})).toNat⟩] ++
  c.fences.map (fun f => (⟨0x101D20 + 8 * f.1, 8, f.2.cls + 4 * f.2.scope⟩ : Piece)) ++
  c.od.flatMap (fun d => [(⟨0x101D60 + 16 * d.1, 8, d.2.sa.toNat⟩ : Piece), ⟨0x101D68 + 16 * d.1, 8, d.2.sb.toNat⟩]) ++
  c.cq.map (fun q => (⟨0x101DE0 + 16 * q.1, 16, q.2.toNat⟩ : Piece)) ++
  c.bround.map (fun b => (⟨0x101E20 + 4 * b.1, 4, b.2⟩ : Piece)) ++
  [⟨0x101E60, 128, c.trapmask.toNat⟩] ++
  c.od.map (fun d => (⟨0x101EE0 + d.1, 1, d.2.kind⟩ : Piece))

/-- The flags of a bank in the layout of R227. -/
def bankFlags (b : Bank) : Nat := b.mode * 8 + (if b.inf then 4 else 0) + (if b.nan then 2 else 0) + (if b.sat then 1 else 0)

/-- The team header (R311). -/
def headerPieces (t : Team) : List Piece :=
  [⟨0, 8, t.savest⟩, ⟨8, 8, t.savetick⟩, ⟨16, 1, t.trapCore⟩, ⟨17, 1, t.trapEng⟩] ++
  t.bars.flatMap (fun b => [(⟨0x40 + 8 * b.1, 4, b.2.g⟩ : Piece), ⟨0x44 + 8 * b.1, 4, b.2.arr⟩]) ++
  (match t.lease with
   | some l => ⟨0xC0, 8, (leaseWord true false l).toNat⟩ ::
      l.tiles.flatMap (fun x => [(⟨0x100 + 16 * x.1, 8, bankFlags x.2.work⟩ : Piece), ⟨0x108 + 16 * x.1, 8, bankFlags x.2.vis⟩])
   | none => [])

/-! ## Reading an image back -/

/-- `n` bytes at an offset of a copy, as a number. -/
def imgNat (b : Nat → Byte) (o n : Nat) : Nat := leNat ((List.range n).map (fun i => b (o + i)))

/-- The bytes of a core image that R312 and R313 make 0. -/
def mustZero (o : Nat) : Bool :=
  if o < 0x100800 then false
  else if o < 0x101000 then true
  else if o < 0x101300 then false
  else if o < 0x101308 then true
  else if o < 0x101500 then false
  else if o < 0x101700 then (let p := (o - 0x101500) % 128; decide ((p = 14 ∨ p = 15) ∨ (26 ≤ p ∧ p < 32) ∨ 64 ≤ p))
  else if o < 0x101D00 then (let p := (o - 0x101700) % 128; decide (p = 1 ∨ (4 ≤ p ∧ p < 8)))
  else if o < 0x101D20 then (let p := o - 0x101D00; decide ((1 ≤ p ∧ p < 8) ∨ (9 ≤ p ∧ p < 16) ∨ p = 17 ∨ (19 ≤ p ∧ p < 24) ∨ 30 ≤ p))
  else if o < 0x101D60 then decide (2 ≤ (o - 0x101D20) % 8)
  else if o < 0x101EE8 then false
  else true

/-- The checks of R330 on a copy of a core image. -/
def coreImageOk (b : Nat → Byte) : Bool :=
  allEngs.all (fun g =>
    let o := 0x101500 + 128 * engNum g
    decide (imgNat b (o + 25) 1 ≤ (if g = .c then 0 else 4)) && decide (imgNat b (o + 16) 8 % 128 ≤ 64)) &&
  (List.range 12).all (fun f => decide (imgNat b (0x101700 + 128 * f) 1 ≤ 15)) &&
  (List.range coreImageSize).all (fun o => !mustZero o || b o == 0)

/-- An engine with the fields of its block; at most four path queue entries (R330; log entry 120). A PC outside the section it was in is the offset of a header (R313). -/
def readEngine (b : Nat → Byte) (o : Nat) (e : EngSt) : EngSt :=
  let fl := imgNat b (o + 12) 4
  let pc := imgNat b o 8
  { e with pc := pc, sc := BitVec.ofNat 32 (imgNat b (o + 8) 4), issued := fl % 2 == 1, retired := fl / 2 % 2 == 1,
           armlive := fl / 4 % 2 == 1, inarm := fl / 8 % 2 == 1, pushpend := fl / 256 % 2 == 1,
           wait := { e.wait with kind := fl / 16 % 16 }, rst := readRep (unpackRep (BitVec.ofNat 64 (imgNat b (o + 16) 8))) (fl % 2 == 1) e.rst,
           preds := BitVec.ofNat 7 (imgNat b (o + 24) 1),
           pathq := (List.range (min 4 (imgNat b (o + 25) 1))).map (fun i => imgNat b (o + 32 + 8 * i) 8),
           sec := match e.sec with
             | some x => if pc = e.pc ∨ (x.off + 8 ≤ pc ∧ pc < secEnd x) then some x else none
             | none => none }

/-- A token FIFO of an image: at most fifteen tokens (R330; log entry 120). -/
def readFifo (b : Nat → Byte) (o : Nat) (old : List Token) : List Token :=
  (List.range (min 15 (imgNat b o 1))).map (fun i =>
    { laden := if imgNat b (o + 2) 2 / 2 ^ i % 2 = 1 then some (BitVec.ofNat 64 (imgNat b (o + 8 + 8 * i) 8)) else none,
      clk := (old.getD i {}).clk })

def readWords (b : Nat → Byte) (o n : Nat) : SMap Word := SMap.tab 0 n (fun i => BitVec.ofNat 64 (imgNat b (o + 8 * i) 8))

/-- A saved core with every field of a copy of its image (R312, R314, R330). A fence token covers nothing once saved. -/
def readCore (b : Nat → Byte) (t : Team) (c : Core) : Core :=
  let np := imgNat b 0x101D10 8
  { c with
    v := SMap.tab [] 256 (fun r => SMap.tab 0 1024 (fun e => BitVec.ofNat 32 (imgNat b (4096 * r + 4 * e) 4))),
    k := SMap.tab 0 16 (fun r => BitVec.ofNat 1024 (imgNat b (0x100000 + 128 * r) 128)),
    sv := readWords b 0x101000 32, sm := readWords b 0x101100 32, sh := readWords b 0x101200 32,
    x := SMap.set 0 (readWords b 0x101300 64) 0 0,
    ec := readEngine b 0x101500 c.ec, ev := readEngine b 0x101580 c.ev, em := readEngine b 0x101600 c.em, eh := readEngine b 0x101680 c.eh,
    fifos := SMap.tab [] 12 (fun f => readFifo b (0x101700 + 128 * f) (fifoAt c f)),
    vmode := newVmode c.vmode (BitVec.ofNat 64 (imgNat b 0x101D00 1)), vflags := BitVec.ofNat 64 (imgNat b 0x101D08 1 % 64),
    npre := np / 2 ^ 16 % 2 == 1, npt0 := if np / 2 ^ 16 % 2 = 1 then t.nopre - np % 2 ^ 8 else 0,
    held := imgNat b 0x101D18 8 / 2 ^ 40 % 2 == 1,
    fences := SMap.tab {} 8 (fun f => let x := imgNat b (0x101D20 + 8 * f) 8; { cls := x % 4, scope := x / 4 % 8 }),
    od := SMap.tab {} 8 (fun n => { kind := imgNat b (0x101EE0 + n) 1 % 16, sa := BitVec.ofNat 64 (imgNat b (0x101D60 + 16 * n) 8),
                                    sb := BitVec.ofNat 64 (imgNat b (0x101D68 + 16 * n) 8) }),
    cq := SMap.tab 0 4 (fun n => let x := imgNat b (0x101DE0 + 16 * n) 16; BitVec.ofNat 128 (x / 2 ^ 12 * 2 ^ 12 + x % 16)),
    bround := SMap.tab 0 16 (fun n => imgNat b (0x101E20 + 4 * n) 4),
    trapmask := BitVec.ofNat 1024 (imgNat b 0x101E60 128) }

/-- The bytes of a team header that R311 makes 0. -/
def headerZero (o : Nat) : Bool :=
  decide ((18 ≤ o ∧ o < 0x40) ∨ (0xC8 ≤ o ∧ o < 0x100) ∨ 0x200 ≤ o)

def headerImageOk (b : Nat → Byte) : Bool := (List.range headerSize).all (fun o => !headerZero o || b o == 0)

/-- The barrier rounds and arrivals of a copied header (R330). -/
def readBars (b : Nat → Byte) (t : Team) : Team :=
  { t with bars := SMap.tab {} 16 (fun n => { (SMap.get {} t.bars n) with g := imgNat b (0x40 + 8 * n) 4, arr := imgNat b (0x44 + 8 * n) 4 }) }

/-! ## The bytes of the context area -/

def areaSize (s : State) : Nat := s.ctxSlots * imageSize + 1024 * handedSize

/-- A byte of saved tiles: bank `k` of tile `t` at 0x8_0000 × t + 0x4_0000 × k. -/
def tileByte (l : Lease) (o : Nat) : Byte :=
  let x := SMap.get {} l.tiles (o / 2 ^ 19)
  let b := if o / 2 ^ 18 % 2 = 0 then x.work else x.vis
  BitVec.ofNat 8 ((SMap.get 0 b.el (o % 2 ^ 18 / 4)).toNat / 256 ^ (o % 4))

/-- The team of a place in the context area, and the offset within its image: of a saved team by its slot, of one handed over by its
TID. -/
def areaTeam (s : State) (off : Nat) : Option (Nat × Nat) :=
  if off < s.ctxSlots * imageSize then
    (s.teams.find? (fun p => p.2.hasSlot && p.2.image.isSome && p.2.islot == off / imageSize)).map (fun p => (p.1, off % imageSize))
  else
    let o := off - s.ctxSlots * imageSize
    let t := teamAt s (o / handedSize)
    let x := o % handedSize
    if t.lease.isSome && t.image.isNone then some (o / handedSize, if x < 0x1000 then x else 0x1020000 + x) else none

/-- A byte of a team's image; of the header a team handed over while it runs has the lease and the tiles' flags alone (R217). -/
def imageByte (t : Team) (o : Nat) : Byte :=
  if o < 0x1000 then (if t.image.isNone ∧ o < 0xC0 then 0 else pieceByte (headerPieces t) o)
  else if o < 0x1021000 then
    match (t.image.getD []).find? (fun c => c.idx == (o - 0x1000) / coreImageSize) with
    | some c => pieceByte (corePieces t c) ((o - 0x1000) % coreImageSize)
    | none => 0
  else tileByte (t.lease.getD {}) (o - 0x1021000)

/-- A byte of the context area; a place of no team reads 0. -/
def areaByte (s : State) (off : Nat) : Byte :=
  match areaTeam s off with | some (tid, o) => imageByte (teamAt s tid) o | none => 0

/-- A word of saved tiles with one byte changed. -/
def putTile (l : Lease) (o : Nat) (v : Byte) : Lease :=
  let x := SMap.get {} l.tiles (o / 2 ^ 19)
  let put (b : Bank) : Bank :=
    let w := (SMap.get 0 b.el (o % 2 ^ 18 / 4)).toNat
    { b with el := SMap.set 0 b.el (o % 2 ^ 18 / 4) (BitVec.ofNat 32 (w - w / 256 ^ (o % 4) % 256 * 256 ^ (o % 4) + v.toNat * 256 ^ (o % 4))) }
  { l with tiles := SMap.set {} l.tiles (o / 2 ^ 19) (if o / 2 ^ 18 % 2 = 0 then { x with work := put x.work } else { x with vis := put x.vis }) }

/-- Bytes written into a team's image, by offset: as `ctx.rest` takes them up, and into its tiles (R311, R330). -/
def putImage (t : Team) (l : List (Nat × Byte)) : Team :=
  let new (base : Nat) (old : Nat → Byte) (o : Nat) : Byte := match l.find? (fun p => p.1 == base + o) with | some p => p.2 | none => old o
  let t := if t.image.isSome && l.any (fun p => decide (p.1 < 0x1000)) then readBars (new 0 (pieceByte (headerPieces t))) t else t
  let t := { t with image := t.image.map (fun (cs : List Core) => cs.map (fun (c : Core) =>
    if l.any (fun p => decide (0x1000 ≤ p.1 ∧ p.1 < 0x1021000) && (p.1 - 0x1000) / coreImageSize == c.idx) then
      readCore (new (0x1000 + coreImageSize * c.idx) (pieceByte (corePieces t c))) t c else c)) }
  { t with lease := t.lease.map (fun (x : Lease) => (l.filter (fun (p : Nat × Byte) => decide (0x1021000 ≤ p.1))).foldl (fun (x : Lease) (p : Nat × Byte) => putTile x (p.1 - 0x1021000) p.2) x) }

/-- Bytes written to the context area, by location. -/
def areaWrite (s : State) (l : List (Nat × Byte)) : State :=
  let places := l.filterMap (fun p => (areaTeam s (p.1 - ctxBase)).map (fun q => (q.1, q.2, p.2)))
  ((places.map (fun p => p.1)).eraseDups).foldl (fun s tid =>
    upTeam s tid (fun t => putImage t ((places.filter (fun p => p.1 == tid)).map (fun p => p.2)))) s

/-- Whether a location lies in the context area. -/
def inArea (s : State) (k : Nat) : Bool := decide (ctxBase ≤ k ∧ k < ctxBase + areaSize s)

end Sys2Proof.Machine
end

