-- ==== Sys2Proof/Machine/Hoist.lean ====
section
/-! DEFINITION. Commands of the H engine: issue and descriptor reads (R234–R236), engine accesses through handles and the
on-chip physical map (R78, R84–R86), completion records and rings (R239–R242). -/

namespace Sys2Proof.Machine

/-! ## Queues (R236) -/

def qnum : QId → Nat | .load => 0 | .store => 1 | .lode => 2
def getQ (c : Core) : QId → List Cmd | .load => c.ql | .store => c.qs | .lode => c.qd
def setQ (c : Core) (q : QId) (l : List Cmd) : Core :=
  match q with | .load => { c with ql := l } | .store => { c with qs := l } | .lode => { c with qd := l }

/-- The head of a queue changed. -/
def upHead (s : State) (core : Nat) (q : QId) (f : Cmd → Cmd) : State :=
  upCore s core (fun c => match getQ c q with | x :: r => setQ c q (f x :: r) | [] => c)

/-! ## Completion statuses (R240) -/

def stIncomplete : Nat := 1
def stXlate : Nat := 2
def stPlanes : Nat := 3
def stMapscope : Nat := 4
def stRange : Nat := 5
def stE2e : Nat := 6
def stUnshadowed : Nat := 7
def stRefused : Nat := 8
def stBadcmd : Nat := 9
def stBadindex : Nat := 10
def stAbsent : Nat := 11
def stLinkdown : Nat := 12

/-- Where a walk stops: status, FCODE, FSTEP, FINDEX, E2E, and the device address of the first failing block and how many fail. -/
structure Stop where
  status : Nat
  fcode : Nat := 0
  fstep : Nat := 0
  findex : Nat := 0
  e2e : Nat := 0
  addr : Nat := 0
  blocks : Nat := 1
  deriving DecidableEq, Repr, Inhabited

/-! ## The on-chip physical map (R84, R85, R233)

A location of the map that is no pair store has the key `mapBase` plus its offset. -/

def mapBase : Nat := 2 ^ 46
def mapTop : Nat := 2 ^ 46 + 2 ^ 34

/-- Whether an offset of a core window is listed. -/
def coreOff (o : Nat) : Bool := decide (o < 0x100800 ∨ (0x101000 ≤ o ∧ o < 0x101300))

/-- Whether a team may read the accumulator windows of its cluster, and the Foreman pair those of any. -/
def accOk (s : State) (w : Who) (cl : Nat) : Bool :=
  let tid := (coreAt s w.core).tid
  !(SMap.get false s.deadArrays cl) &&
  (if w.fore then (clusterAt s cl).holder.isSome
   else cl == clusterOf w.core && ((clusterAt s cl).holder == some tid || (teamAt s tid).lease.isSome))

/-- The location of a byte of the map, or none where the access is out of scope. -/
def mapByte (s : State) (w : Who) (write : Bool) (o n : Nat) : Option Nat :=
  if o < 0x28000000 then
    let core := o / 2 ^ 21
    if coreOff (o % 2 ^ 21) && o % 4 == 0 && n % 4 == 0 && !(SMap.get false s.deadPairs (pairOf core)) &&
       (w.fore || ((teamAt s (coreAt s w.core).tid).cores.contains core && (coreAt s core).tid == (coreAt s w.core).tid)) then some (mapBase + o) else none
  else if 2 ^ 32 ≤ o ∧ o < 2 ^ 32 + 160 * 2 ^ 23 then
    let p := (o - 2 ^ 32) / 2 ^ 23
    if (w.fore || (p / 8 == clusterOf w.core && p != 0)) && !(SMap.get false s.deadPairs p) then some (pairBase + (o - 2 ^ 32)) else none
  else if 2 ^ 33 ≤ o ∧ o < 2 ^ 33 + 20 * 2 ^ 22 then
    if !write && accOk s w ((o - 2 ^ 33) / 2 ^ 22) then some (mapBase + o) else none
  else none

/-- The locations of an access through the map. A register window is reached in whole words. -/
def mapKeys (s : State) (w : Who) (write : Bool) (o n : Nat) : Option (List Nat) :=
  (List.range n).foldr (fun i (r : Option (List Nat)) =>
    match (if o < 0x28000000 then (mapByte s w write o n).bind (fun _ => mapByte s w write (o + i / 4 * 4) 4 |>.map (· + i % 4))
           else mapByte s w write (o + i) n), r with
    | some k, some l => some (k :: l)
    | _, _ => none) (some [])

/-- The tiles an accumulator window shows (R233). -/
def windowLease (s : State) (w : Who) (cl : Nat) : Lease :=
  let tid := (coreAt s w.core).tid
  if w.fore || (clusterAt s cl).holder == some tid then (clusterAt s cl).lease else ((teamAt s tid).lease).getD {}

def byteAt (x i : Nat) : Byte := BitVec.ofNat 8 (x / 256 ^ i)
def setByteAt (x i : Nat) (b : Byte) : Nat := x - (x / 256 ^ i % 256) * 256 ^ i + b.toNat * 256 ^ i

/-- The S file of a core window's offset. -/
def winEng (o : Nat) : Eng := if o < 0x101100 then .v else if o < 0x101200 then .m else .h

/-- A byte as an engine reads it. -/
def engRd (s : State) (w : Who) (k : Nat) : Byte :=
  if mapBase ≤ k ∧ k < mapTop then
    let o := k - mapBase
    if o < 0x28000000 then
      let c := coreAt s (o / 2 ^ 21)
      let r := o % 2 ^ 21
      if r < 0x100000 then byteAt (vget c (r / 4096) (r % 4096 / 4)).toNat (r % 4)
      else if r < 0x100800 then byteAt (kget c ((r - 0x100000) / 128)).toNat (r % 128)
      else byteAt (getScal c (winEng r) (r % 256 / 8)).toNat (r % 8)
    else
      let a := o - 2 ^ 33
      let b := (SMap.get {} (windowLease s w (a / 2 ^ 22)).tiles (a / 2 ^ 18 % 16)).vis
      byteAt (SMap.get 0 b.el (a % 2 ^ 18 / 4)).toNat (a % 4)
  else if inArea s k then areaByte s (k - ctxBase)
  else rdByte s k

/-- A byte as an engine writes it. -/
def engWr (s : State) (k : Nat) (b : Byte) : State :=
  if mapBase ≤ k ∧ k < mapTop then
    let o := k - mapBase
    let r := o % 2 ^ 21
    upCore s (o / 2 ^ 21) (fun c =>
      if r < 0x100000 then
        vput c (r / 4096) (r % 4096 / 4) (BitVec.ofNat 32 (setByteAt (vget c (r / 4096) (r % 4096 / 4)).toNat (r % 4) b))
      else if r < 0x100800 then
        kset c ((r - 0x100000) / 128) (BitVec.ofNat 1024 (setByteAt (kget c ((r - 0x100000) / 128)).toNat (r % 128) b))
      else setScal c (winEng r) (r % 256 / 8) (BitVec.ofNat 64 (setByteAt (getScal c (winEng r) (r % 256 / 8)).toNat (r % 8) b)))
  else wrByte s k b

/-- Bytes as an engine writes them; those in the context area go into the images it holds. -/
def engWrs (s : State) (l : List (Nat × Byte)) : State :=
  let r := (l.filter (fun p => !inArea s p.1)).foldl (fun s p => engWr s p.1 p.2) s
  let a := l.filter (fun p => inArea s p.1)
  if a.isEmpty then r else areaWrite r a

/-! ## Engine accesses -/

/-- Whether an address lies on a linked module behind a port that is down or absent (R240, R398). A CVL-8T512-S has no ports, and no
`peer` page of it is admitted (R78). -/
def behindDown (s : State) (w : Who) (addr : Nat) : Bool :=
  match htAt s w.part w.ctx (addr / 2 ^ 48 % 65536) with
  | some e =>
    e.kind == 6 && decide (addr % 2 ^ 48 < e.ext) &&
    (let pte := (pickPte s w (pteAddr e.base (addr % 2 ^ 48))).1.toNat
     s.order4T != 1 && pte % 2 == 1 && decide (pte / 16 % 8 < 4) && pte / 16 % 8 != s.modNum && (portTo s (pte / 16 % 8)).isNone)
  | none => false

/-- The locations of an engine's access, or why it stops (R78, R85, R240). -/
def engKeys (s : State) (w : Who) (write : Bool) (addr n : Nat) : Except Stop (List Nat) :=
  if addr / 2 ^ 48 = 0xFFFF then
    match mapKeys s w write (addr % 2 ^ 48) n with
    | some l => .ok l
    | none => .error { status := stMapscope }
  else
    match xlateRange s w (if write then .w else .r) write addr n with
    | .ok l => .ok l
    | .error (.refused _) => .error { status := stRefused }
    | .error (.check pa) => .error { status := stE2e, e2e := 1, addr := pa }
    | .error (.xlate c) => .error (if c = 1 && behindDown s w addr then { status := stLinkdown } else { status := stXlate, fcode := c })

/-- The locations of an engine's read, or its stop; a block that fails its check stops it with E2E 1 (R95). -/
def engRead (s : State) (w : Who) (addr n : Nat) : Except Stop (List Nat) :=
  match engKeys s w false addr n with
  | .error x => .error x
  | .ok l =>
    match badBlocks s addr l with
    | some b => .error { status := stE2e, e2e := 1, addr := addr + b.1, blocks := b.2 }
    | none => .ok l

/-- Bytes that an engine needs at once; remote ones count as untranslatable. -/
def engBytes (s : State) (w : Who) (addr n : Nat) : Except Stop (List Byte) :=
  match engRead s w addr n with
  | .error x => .error x
  | .ok l => if l.any isRemote then .error { status := stXlate, fcode := 1 } else .ok (l.map (engRd s w))

/-! ## Issue (R235, R236) -/

/-- Whether a descriptor may lie in a handle: kinds `dram` and `const`, and the scratchpad. -/
def descKind (s : State) (w : Who) (addr : Nat) : Bool :=
  addr / 2 ^ 48 == 0xFFFE ||
  addr / 2 ^ 48 != 0xFFFF && (match htAt s w.part w.ctx (addr / 2 ^ 48 % 65536) with | some e => e.kind == 1 || e.kind == 5 | none => true)

def cmdWho (s : State) (core : Nat) : Who := whoCore s core .h .hoist

/-- The class-2 report of a failed check that a command met (R310), counted by the format window that could not decode
(R371). -/
def cmdReport (s : State) (core consumer addr blocks : Nat) : State :=
  let cur := s.cur
  let s := { windowFail s (cmdWho s core) addr with cur := { core := core, eng := .h } }
  { e2eReport s consumer addr blocks with cur := cur }

/-- The report of a command's stop, where a failed check is its reason. -/
def stopReport (s : State) (core consumer : Nat) (x : Stop) : State :=
  if x.status = stE2e then cmdReport s core consumer x.addr x.blocks else s

/-- The result of a command that a stop ends. -/
def resOf (x : Stop) (count : Nat) : CRes :=
  { status := x.status, fcode := x.fcode, fstep := x.fstep, findex := x.findex, e2e := x.e2e, count := count }

/-- A command with its descriptor of `n` bytes read, or with the failure that completes it at once. -/
def readDesc (s : State) (c : Cmd) (n : Nat) : State × Cmd :=
  let w := cmdWho s s.cur.core
  let a := c.ra.toNat
  if a % 8 ≠ 0 then (s, { c with done := some { status := stBadcmd, fstep := 3 } })
  else if !descKind s w a then (s, { c with done := some { status := stRefused, fstep := 3 } })
  else match engBytes s w a n with
    | .ok l => (fillRun (notePages s w false a n) w a n, { c with desc := l })
    | .error x =>
      (stopReport s s.cur.core 1 x, { c with done := some (resOf { x with fstep := 3 } 0) })

/-- The stores that a descriptor read must see have performed: it goes through the cluster hoist (R105, R235). -/
def settleDesc (s : State) (addr n : Nat) : State :=
  match engKeys s (cmdWho s s.cur.core) false addr n with
  | .ok keys => performKeys s s.cur.core keys
  | .error _ => s

/-- A command enters its queue, or waits at issue while the queue is full; `n` is its descriptor's size, 0 for none.
`prep` notes what else the command takes from the state at issue. -/
def issueCmd (s0 : State) (c : Cmd) (n : Nat) (route : Cmd → QId) (prep : State → Cmd → Cmd) (also : State → State) : Eff :=
  let s := if n = 0 then s0 else settleDesc s0 c.ra.toNat n
  let p := if n = 0 then (s, c) else readDesc s c n
  let p := (p.1, prep s p.2)
  let q := route p.2
  if 16 ≤ (getQ (curCore s) q).length then .stall 9 (qnum q) 0 s
  else
    let s := bumpClk { p.1 with nissue := p.1.nissue + 1 }
    let seq := (curEng s).seen.h
    .done (also (upCur s (fun k =>
      { (setQ k q (getQ k q ++ [{ p.2 with id := k.nid, seq := seq, ord := s.nissue }])) with nid := k.nid + 1 })))

/-- A command word's common parts. -/
def newCmd (s : State) (op : CmdOp) (d a b e : Reg) (imm : W32) : Cmd :=
  { id := 0, op := op, ring := d.toNat, tag := imm.toNat % 2 ^ 16, ra := rd s a, rb := rd s b, re := rd s e }

/-! ## Records and rings (R239, R241) -/

def cqAcked (q : BitVec 128) : Nat := q.toNat / 2 ^ 96
def cqWritten (q : BitVec 128) : Nat := q.toNat / 2 ^ 64 % 2 ^ 32
def cqBase (q : BitVec 128) : Nat := q.toNat / 2 ^ 12 % 2 ^ 52
def cqLog (q : BitVec 128) : Nat := q.toNat % 16
def mkCq (acked written base log : Nat) : BitVec 128 :=
  BitVec.ofNat 128 (acked % 2 ^ 32 * 2 ^ 96 + written % 2 ^ 32 * 2 ^ 64 + base * 2 ^ 12 + log)
def cqAt (c : Core) (n : Nat) : BitVec 128 := SMap.get 0 c.cq n

/-- Records not yet acknowledged. -/
def cqOut (q : BitVec 128) : Nat := (cqWritten q + 2 ^ 32 - cqAcked q) % 2 ^ 32

/-- The 32 bytes of a completion record. -/
def recordBytes (phase : Nat) (c : Cmd) (r : CRes) : List Byte :=
  leBytes 4 (phase * 2 ^ 31 + r.fstep * 2 ^ 28 + r.fcode * 2 ^ 16 + r.status) ++ leBytes 2 c.tag ++ leBytes 1 r.flags ++ leBytes 1 r.e2e ++
  leBytes 8 r.count ++ leBytes 8 r.findex ++ leBytes 8 r.tick

/-- The unit that writes a command's record, as E2ECONS names it (R310): the hoist, the Lode or the link. -/
def recConsumer (op : CmdOp) : Nat :=
  match op with
  | .send | .red => 5
  | .act | .sacc | .drain | .drainRaw | .ired | .stat => 2
  | _ => 1

/-- Bytes written to the front of a ring's memory, whose page is noted (R364). A record fills half a block: where the rest of the block fails its check it
is not written, and the failure is reported (R94). -/
def ringWrite (s : State) (core consumer addr : Nat) (l : List Byte) : State :=
  match xlateRange s (cmdWho s core) .w false addr l.length with
  | .ok keys =>
    if keys.any isRemote then s
    else match badWrite s keys with
      | some k => cmdReport s core consumer (addr + keys.idxOf k) 1
      | none => writeMem (notePage s (cmdWho s core) false addr) (keys.zip l)
  | .error _ => s

/-- Whether the ring of a completed command has room, or it names none. -/
def ringRoom (c : Core) (x : Cmd) : Bool :=
  let q := cqAt c x.ring
  cqLog q == 0 || decide (cqOut q < 2 ^ cqLog q)

/-- The record of a completed command at the head of its queue written, and the command gone. -/
def writeRecord (s : State) (core : Nat) (q : QId) (x : Cmd) (r : CRes) : State :=
  let cq := cqAt (coreAt s core) x.ring
  let n := 2 ^ cqLog cq
  let s := if cqLog cq = 0 then s else
    let w := cqWritten cq
    let s := ringWrite s core (recConsumer x.op) (cqBase cq * 4096 + 32 * (w % n)) (recordBytes (1 - w / n % 2) x r)
    upCore s core (fun c => { c with cq := SMap.set 0 c.cq x.ring (mkCq (cqAcked cq) (w + 1) (cqBase cq) (cqLog cq)) })
  upCore s core (fun c => setQ c q ((getQ c q).drop 1))

/-- Whether a handle backs a ring: the scratchpad, or an unshadowed `dram` handle. -/
def ringHandle (s : State) (w : Who) (addr bytes : Nat) : Bool :=
  if addr / 2 ^ 48 = 0xFFFE then decide (addr % 2 ^ 48 + bytes ≤ 2 ^ 26)
  else match htAt s w.part w.ctx (addr / 2 ^ 48) with
    | some e => e.kind == 1 && !e.shadow && decide (addr % 2 ^ 48 + bytes ≤ e.ext)
    | none => false

/-- `cq.init` (R242). -/
def execCqInit (h : Hd) (d a b : Reg) (s : State) : Out :=
  runEff s h fun s =>
    let c := curCore s
    let n := (rd s b).toNat
    let set (base log : Nat) : Eff := .done (upCur s (fun c => { c with cq := SMap.set 0 c.cq d.toNat (mkCq 0 0 base log) }))
    let named (l : List Cmd) : Bool := l.any (fun x => x.ring == d.toNat)
    if named (c.ql ++ c.qs ++ c.qd) then .stall 9 (if named c.ql then 0 else if named c.qs then 1 else 2) 0 s
    else if n = 0 then set 0 0
    else
      let x := (rd s a).toNat
      if x % 4096 = 0 ∧ 2 ≤ n ∧ n ≤ 12 ∧ ringHandle s (cmdWho s s.cur.core) x (32 * 2 ^ n) then set (x / 4096) n
      else .fatal { code := 10 } s

/-- `cq.ack` (R242). -/
def execCqAck (h : Hd) (d a : Reg) (s : State) : Out :=
  runEff s h fun s =>
    let q := cqAt (curCore s) d.toNat
    let n := (rd s a).toNat
    if cqOut q < n then .fatal { code := 10 } s
    else .done (upCur s (fun c => { c with cq := SMap.set 0 c.cq d.toNat (mkCq (cqAcked q + n) (cqWritten q) (cqBase q) (cqLog q)) }))

end Sys2Proof.Machine
end

