-- ==== Sys2Proof/Machine/Probe.lean ====
section
/-! DEFINITION. `probe` (R157, R158), with page requests over PCIe (R368, R369), and the events in which a stalled word of
the C engine goes on (R103, R163, R164, R167). -/

namespace Sys2Proof.Machine

/-! ## Probes -/

/-- What a probe answers: a code and a predicate (R157). -/
def probeDone (s : State) (d e : Reg) (code : Nat) (p : Bool) : Eff := .done (wrP (wr s d (BitVec.ofNat 64 code)) e p)

/-- The code of a translation failure (R157). -/
def probeCode : XFail → Nat
  | .refused _ => 3
  | .xlate c => c
  | .check _ => 1

def probeAcc : ProbeCls → Acc | .r => .r | .w => .w | .a => .a

/-- The agent that R157 names for a handle's kind. -/
def probeAgent (kind : Nat) : Agent := if kind = 2 then .hoist else if kind = 3 then .dma else .core

/-- The first page request group of a partition that is free, of its 32 (R368). -/
def freeGroup (s : State) (part : Nat) : Option Nat :=
  (List.range 32).find? (fun i => (SMap.get none (partAt s part).pri i).isNone)

/-- Whether the host's answer covers the class probed (R367, R368). -/
def hostCovers (c : ProbeCls) : Option PcieResult → Bool
  | some (.translated _ r w) => match c with | .r => r | _ => w
  | _ => false

/-- A translation request for the probed page sent to the host; the C engine stalls until it is answered. -/
def askHost (s : State) (home pa : Nat) : State :=
  let (s, id) := sendReq s .translate (.eng s.cur.core s.cur.eng) home pa 0 []
  upCurEng s (fun e => { e with reply := { e.reply with tags := e.reply.tags ++ [id], ans := none } })

/-- A probe of a `host` page: the host is asked for a translation, and where that does not cover the page one page
request goes out under a free group; Success has the translation tried again (R158, R368). -/
def probeHost (s : State) (c : ProbeCls) (d e : Reg) (part home pa : Nat) : Eff :=
  let r := (curEng s).reply
  match r.tags.length, r.ans, r.pri with
  | 0, _, _ => .stall 0 0 0 (askHost s home pa)
  | 1, none, _ => .stall 0 0 0 s
  | 1, some x, _ =>
    if hostCovers c (some x) then probeDone s d e 0 true
    else if (partAt s part).pristop then probeDone s d e 4 false
    else match freeGroup s part with
      | none => .stall 0 0 0 s
      | some i =>
        let (s, id) := sendReq s .page (.eng s.cur.core s.cur.eng) home pa 0 []
        let s := upPart s part (fun p => { p with pri := SMap.set none p.pri i (some (s.cur.core, id)) })
        .stall 0 0 0 (upCurEng s (fun x => { x with reply := { x.reply with tags := x.reply.tags ++ [id], ans := none } }))
  | 2, _, none => .stall 0 0 0 s
  | 2, _, some .success => .stall 0 0 0 (askHost s home pa)
  | 2, _, some _ => probeDone s d e 4 false
  | _, none, _ => .stall 0 0 0 s
  | _, x, _ => if hostCovers c x then probeDone s d e 0 true else probeDone s d e 4 false

/-- The answer for a page that is present and admitted (R157): for atomics on a page of home 4 or 5, code 5. An aperture
page takes no atomics (R107), which is code 3. -/
def probeHit (s : State) (c : ProbeCls) (d e : Reg) (w : Who) (addr key : Nat) : Eff :=
  let s1 := notePages s w false addr 1
  match c with
  | .a =>
    if apBase ≤ key ∧ key < apTop then probeDone s d e 3 false
    else if isRemote key && decide (4 ≤ remoteHome key) then
      let p := pteFor s w addr
      probeDone s1 d e 5 (atomCap s .add p || atomCap s .xchg p || atomCap s .cas p)
    else probeDone s1 d e 0 true
  | _ => probeDone s1 d e 0 true

/-- The kind of the handle that a probe names; an unmapped or fixed handle is answered as a paged one. -/
def probeKind (s : State) (addr : Nat) : Nat :=
  let w := curWho s .core
  if addr / 2 ^ 48 % 65536 < 0xFFF0 then ((htAt s w.part w.ctx (addr / 2 ^ 48 % 65536)).map (fun e => e.kind)).getD 1 else 1

/-- The lookup of a probe at its address (R157, R158). -/
def probeAt (s : State) (c : ProbeCls) (d e : Reg) (addr : Nat) : Eff :=
  let kind := probeKind s addr
  let w := { curWho s .core with agent := probeAgent kind }
  if c = .a ∧ (kind = 2 ∨ kind = 3) then probeDone s d e 3 false
  else
    match xlateByte s w (probeAcc c) false addr with
    | .ok k => if kind = 3 then probeHost s c d e w.part (remoteHome k) (remotePa k) else probeHit s c d e w addr k
    | .error (.check pa) => .fatal (xInfo (.check pa) addr 0) (xReport s (.check pa))
    | .error (.xlate 4) => .trap { code := 3, addr := addr } 0 0 s
    | .error x => probeDone s d e (probeCode x) false

/-- `probe` (R157, R158). The record of an address that leaves its handle has LENGTH 0, a probe having no size (log entry 16). -/
def execProbe (h : Hd) (c : ProbeCls) (d a e : Reg) (imm : W32) (s : State) : Out :=
  runEff s h fun s => effAddrOr s a imm.toInt 0 fun x => probeAt s c d e x

/-! ## Answers that reach an engine -/

/-- What an engine that asked with tag `id` is given, whether its team is resident or saved (R142, R369); none where no
engine waits under that tag. -/
def answerEng (s : State) (core : Nat) (g : Eng) (id : Nat) (f : Reply → Reply) : Option State :=
  let waits (c : Core) : Bool := (engSt c g).reply.tags.contains id
  let give (c : Core) : Core := upEng c g (fun e => { e with reply := f e.reply })
  if waits (coreAt s core) then some (upCore s core give)
  else
    match s.teams.find? (fun p => match p.2.image with | some l => l.any waits | none => false) with
    | some p => some (upTeam s p.1 (fun t => { t with image := t.image.map (fun l => l.map (fun c => if waits c then give c else c)) }))
    | none => none

/-- A Page Request Group Response (R368, R369, R375): the group's index is retired in every case; an answer that no
probe waits for is discarded and counted. -/
def pageResponse (part idx : Nat) (resp : PriResp) (s : State) : State :=
  match SMap.get none (partAt s part).pri idx with
  | none => s
  | some (core, id) =>
    let s := upPart s part (fun p =>
      { p with pri := SMap.set none p.pri idx none,
               prifail := if resp = .success then p.prifail else (p.prifail + 1) % 2 ^ 32,
               pristop := p.pristop || resp == .responseFailure })
    let s := { s with reqs := s.reqs.filter (fun r => r.id != id) }
    match answerEng s core .c id (fun r => { r with pri := some resp }) with
    | some s => s
    | none => upPart s part (fun p => { p with prilate := (p.prilate + 1) % 2 ^ 32 })

def execPageRequestResponse (part idx : Nat) (resp : PriResp) (s : State) : Out := .next (pageResponse part idx resp s)

/-! ## Stalled words of the C engine that go on -/

/-- The word at PC of the executing C engine. -/
def stalledWord (s : State) : Option Instr :=
  let r := unpackWord (wordAt s (curEng s).pc)
  match decodeRaw .c (if (curEng s).rst.active then stepWord r (curEng s).rst else r) with
  | .ok i => some i
  | .error _ => none

/-- The last access a fence waits for has performed: the `fnw` or `phase` is looked at again (R103, R104). -/
def execFenceComplete (core : Nat) (s : State) : Out :=
  retryC s core [10] fun s =>
    match stalledWord s with
    | some (.fnw h a) => execFnw h a s
    | some (.phase h sc) => execPhase h sc s
    | _ => .next s

/-- A waited word is read again (R163). -/
def execWaitwPoll (core : Nat) (s : State) : Out :=
  retryC s core [8, 0] fun s =>
    match stalledWord s with
    | some (.waitw h r ty d a b imm) => execWaitw h r ty d a b imm s
    | _ => .next s

/-- The tick has reached a waited target (R164). -/
def execTwaitExpiry (core : Nat) (s : State) : Out :=
  retryC s core [12] fun s =>
    match stalledWord s with
    | some (.twait h a) => execTwait h a s
    | _ => .next s

/-- What a stalled `signal` waits for has performed (R167). -/
def execSignalAdd (core : Nat) (s : State) : Out :=
  retryC s core [10, 0] fun s =>
    match stalledWord s with
    | some (.signal h sc a b imm) => execSignal h sc a b imm s
    | _ => .next s

end Sys2Proof.Machine
end

