-- ==== Sys2Proof/Machine/Answer.lean ====
section
/-! DEFINITION. Answers to what has left the module: they reach the engine, command, store or queue that asked
(R108, R112, R142, R400, R401). -/

namespace Sys2Proof.Machine

/-- A queue of commands with one of them changed. -/
def upCmd (s : State) (core : Nat) (q : QId) (id : Nat) (f : Cmd → Cmd) : State :=
  upCore s core (fun c => setQ c q ((getQ c q).map (fun x => if x.id = id then f x else x)))

/-- What waits for a request is given its answer; a command that is over but for its writes to other homes notes the tick, at which the
last of them has landed (R239). -/
def giveReply (s : State) (r : Req) (f : Reply → Reply) : State :=
  match r.who with
  | .eng core g => (answerEng s core g r.id f).getD s
  | .cmd core q id => upCmd s core q id (fun c => { c with reply := f c.reply, done := c.done.map (fun r => { r with tick := s.tick }) })
  | .store core id => performStore s core id
  | .queue q => upQueue s q (fun x => { x with rcd := x.rcd.map (fun r => { r with reply := f r.reply }) })
  | .shoot => s

/-- A request answered: it is gone, and its asker waits for it no more. -/
def finishReq (s : State) (r : Req) (f : Reply → Reply) : State :=
  giveReply { s with reqs := s.reqs.filter (fun x => x.id != r.id) } r (fun p => f { p with tags := p.tags.filter (fun t => t != r.id) })

/-- The answer to a translation request or a page request; a probe counts its requests by their tags. -/
def keepReq (s : State) (r : Req) (f : Reply → Reply) : State :=
  giveReply { s with reqs := s.reqs.filter (fun x => x.id != r.id) } r f

/-- Bytes of a read that have all come back: those of blocks whose check fails are lost (R95). -/
def landRead (s : State) (r : Req) (l : List Byte) : State :=
  let fails (i : Nat) : Bool := r.fails.contains ((r.addr + i) / 64)
  finishReq s r (fun p => { p with
    got := SMap.setAll none p.got (((List.range r.len).filter (fun i => !fails i)).map (fun i => (remoteBase r.home (r.addr + i), some (l.getD i 0)))),
    lost := SMap.setAll false p.lost (((List.range r.len).filter fails).map (fun i => (remoteBase r.home (r.addr + i), true))) })

/-- The fatal error of a store that another home could not take (R94, R307, R308, R398): its record names the address and size of
the part that failed, or the first block whose check failed, and the word that issued it. -/
def storeFails (s : State) (core : Nat) (p : PendSt) (b : ReqFail) : State :=
  let cur := s.cur
  let s := { s with cur := { core := core, eng := p.eng } }
  let check := b.why == 1 || b.why == 5
  let at_ := if check then p.addr + p.bytes.findIdx (fun x => decide (b.key ≤ x.1)) else p.addr
  if foreman s then foremanFault s
  else
    let f := remoteFault b.why at_ p.bytes.length
    let t := curTeam s
    let s := if check then e2eReport s 0 at_ b.blocks else s
    let s := failContext (holdFault s { coreRec s 0 f with textaddr := p.text, word := p.word }) t.part t.ctx
    { s with cur := cur }

/-- A store whose request has failed: it is gone, and its context ends. -/
def dropStore (s : State) (core id : Nat) (b : ReqFail) : State :=
  match (coreAt s core).stq.find? (fun p => p.id == id) with
  | some p => storeFails (performStore s core id) core p b
  | none => s

/-- A request that has failed, from byte `off` of it on; of several, the one that left first counts. -/
def failReqAt (s : State) (r : Req) (why off blocks : Nat) : State :=
  let b : ReqFail := { id := r.id, key := remoteBase r.home (r.addr + off), len := max 1 (r.len - off), why := why, blocks := max 1 blocks }
  let keep (o : Option ReqFail) : Option ReqFail := match o with | some x => if x.id < b.id then some x else some b | none => some b
  match r.who with
  | .store core id => dropStore { s with reqs := s.reqs.filter (fun x => x.id != r.id) } core id b
  | .shoot => { s with reqs := s.reqs.filter (fun x => x.id != r.id), shoot := s.shoot.map (fun x => { x with lost := true }) }
  | .queue _ => finishReq s r (fun p => { p with bad := keep p.bad, ans := some .abort })
  | _ => finishReq s r (fun p => { p with bad := keep p.bad })

/-- A request that has failed as a whole. -/
def failReq (s : State) (r : Req) (why : Nat) : State := failReqAt s r why 0 1

/-- The request of a kind that a tag names on a port (R397). -/
def reqByTag (s : State) (port : Nat) (kinds : List ReqKind) (tag : Nat) : Option Req :=
  s.reqs.find? (fun r => r.port == some port && kinds.contains r.kind && r.id % 2 ^ 16 == tag)

/-! ## PCIe (R108, R367, R390) -/

/-- A completion of a request that left over PCIe. -/
def hostAnswer (s : State) (r : Req) (c : PcieResult) : State :=
  match r.kind, c with
  | .translate, .translated .. => keepReq s r (fun p => { p with ans := some c })
  | .translate, _ => keepReq s r (fun p => { p with ans := some .refusedTranslation })
  | .read, .success l => landRead s r l
  | .atomic, .success l => finishReq s r (fun p => { p with ans := some (.success l) })
  | .atomic, .unsupported => finishReq s r (fun p => { p with ans := some .unsupported })
  | .atomic, _ => finishReq s r (fun p => { p with ans := some .abort })
  | .write, .success _ => finishReq s r id
  | .page, _ => s
  | _, _ => failReq s r 3

/-- Only requests without a port leave over PCIe. -/
def hostReq (s : State) (id : Nat) : Option Req := s.reqs.find? (fun r => r.id == id && r.port.isNone)

def execPcieCompletion (id : Nat) (c : PcieResult) (s : State) : Out :=
  .next (match hostReq s id with | some r => hostAnswer s r c | none => s)

/-- A completion timeout: for an atomic it is as a Completer Abort (R108). A posted write has no completion. -/
def execCompletionTimeout (id : Nat) (s : State) : Out :=
  .next (match hostReq s id with
    | some r => (match r.who with | .store .. => s | _ => hostAnswer s r .abort)
    | none => s)

/-- The requests on their way to a range of a PASID's addresses. -/
def patsIn (s : State) (pasid base len : Nat) : List Nat :=
  (s.reqs.filter (fun r => r.home == 8 + pasid && decide (r.addr < base + len ∧ base < r.addr + max 1 r.len))).map (fun r => r.id)

/-- An Invalidate Request (R367): it completes once every access translated before has performed at the host. A request stands for an
access under a kept translation or a new one (log entry 97). -/
def execAtsInvalidate (pasid base len : Nat) (s : State) : Out := .next { s with inval := s.inval ++ [patsIn s pasid base len] }

/-! ## Configuration space (R368, R401) -/

/-- A write of PRI Enable or AtomicOp Requester Enable: enabling PRI anew lets the function's partition ask again. -/
def configWrite (s : State) (fn : Nat) (r : CfgReg) (v : Bool) : State :=
  match r with
  | .atomicReqEnable => upFn s fn (fun f => { f with atomOn := v })
  | .priEnable =>
    let s := upFn s fn (fun f => { f with priOn := v })
    if v ∧ 1 ≤ fn then upPart s (fn - 1) (fun p => { p with pristop := false }) else s

def execConfigSpaceWrite (fn : Nat) (r : CfgReg) (v : Bool) (s : State) : Out := .next (configWrite s fn r v)

end Sys2Proof.Machine
end

