-- ==== Sys2Proof/Machine/Elem.lean ====
section
/-! DEFINITION. Elementary functions (R73, R74, R209, R210): results at exceptional inputs, exact methods for reciprocals
and roots, and enclosures narrowed until both ends round alike for the others. -/

namespace Sys2Proof.Machine

/-- The functions of R209. -/
inductive FnId where
  | exp | exp2 | expm1 | log | log2 | log1p | rcp | sqrt | rsqrt | sin | cos | tanh | logistic
  deriving DecidableEq, Repr, Inhabited

/-- The opcode of a function. -/
def fnOp : FnId → Nat
  | .exp => 0x80 | .exp2 => 0x81 | .expm1 => 0x82 | .log => 0x83 | .log2 => 0x84 | .log1p => 0x85 | .rcp => 0x86
  | .sqrt => 0x87 | .rsqrt => 0x88 | .sin => 0x89 | .cos => 0x8A | .tanh => 0x8B | .logistic => 0x8C

/-! ## Fixed-point intervals

An interval holds a real number times 2^P between two integers. -/

structure Iv where
  lo : Int
  hi : Int
  deriving DecidableEq, Repr, Inhabited

/-- ⌊a ÷ b⌋ and ⌈a ÷ b⌉ for positive b. -/
def fdiv (a : Int) (b : Nat) : Int := a / (b : Int)
def cdiv (a : Int) (b : Nat) : Int := -((-a) / (b : Int))

def ivOf (x : Int) : Iv := ⟨x, x⟩
def ivAdd (a b : Iv) : Iv := ⟨a.lo + b.lo, a.hi + b.hi⟩
def ivSub (a b : Iv) : Iv := ⟨a.lo - b.hi, a.hi - b.lo⟩
def ivNeg (a : Iv) : Iv := ⟨-a.hi, -a.lo⟩
/-- A multiple by an exact integer. -/
def ivScale (k : Int) (a : Iv) : Iv := if 0 ≤ k then ⟨k * a.lo, k * a.hi⟩ else ⟨k * a.hi, k * a.lo⟩
def ivDivN (a : Iv) (n : Nat) : Iv := ⟨fdiv a.lo n, cdiv a.hi n⟩
def ivMul (p : Nat) (a b : Iv) : Iv :=
  let w := a.lo * b.lo
  let x := a.lo * b.hi
  let y := a.hi * b.lo
  let z := a.hi * b.hi
  ⟨fdiv (min (min w x) (min y z)) (2 ^ p), cdiv (max (max w x) (max y z)) (2 ^ p)⟩
/-- A quotient by an interval of positive numbers. -/
def ivDiv (p : Nat) (a b : Iv) : Iv :=
  ⟨fdiv (a.lo * 2 ^ p) (if 0 ≤ a.lo then b.hi else b.lo).toNat, cdiv (a.hi * 2 ^ p) (if 0 ≤ a.hi then b.lo else b.hi).toNat⟩
/-- A value times 2^k. -/
def ivShift (a : Iv) (k : Int) : Iv :=
  if 0 ≤ k then ⟨a.lo * 2 ^ k.toNat, a.hi * 2 ^ k.toNat⟩ else ⟨fdiv a.lo (2 ^ (-k).toNat), cdiv a.hi (2 ^ (-k).toNat)⟩
/-- One more unit on each side, for the rest of a series. -/
def ivWiden (a : Iv) : Iv := ⟨a.lo - 1, a.hi + 1⟩

/-- (−1)^neg × m × 2^e at scale 2^p. -/
def ivDyadic (p : Nat) (neg : Bool) (m : Nat) (e : Int) : Iv :=
  let x := ivShift (ivOf (m : Int)) (e + p)
  if neg then ivNeg x else x

/-! ## Series -/

/-- The sum of `n` terms t, t × r ÷ i, …, the i-th term divided by i. -/
def expSeries (p : Nat) (r : Iv) : Nat → Nat → Iv → Iv → Iv
  | 0, _, _, acc => acc
  | n + 1, i, t, acc => let t := ivDivN (ivMul p t r) i; expSeries p r n (i + 1) t (ivAdd acc t)

/-- e^r for |r| ≤ 1/2. -/
def ivExp (p : Nat) (r : Iv) : Iv := ivWiden (expSeries p r (p / 4 + 10) 1 (ivOf (2 ^ p)) (ivOf (2 ^ p)))

/-- z + z³/3 + z⁵/5 + … where `sq` is z², or the alternating series where `sq` is −z². -/
def oddSeries (p : Nat) (sq : Iv) : Nat → Nat → Iv → Iv → Iv
  | 0, _, _, acc => acc
  | n + 1, i, t, acc => let t := ivMul p t sq; oddSeries p sq n (i + 2) t (ivAdd acc (ivDivN t i))

/-- 2 × artanh z for |z| ≤ 1/3. -/
def ivTwoArtanh (p : Nat) (z : Iv) : Iv := ivScale 2 (ivWiden (oddSeries p (ivMul p z z) (p / 3 + 6) 3 z z))
/-- arctan z for 0 < z ≤ 1/5. -/
def ivAtan (p : Nat) (z : Iv) : Iv := ivWiden (oddSeries p (ivNeg (ivMul p z z)) (p / 4 + 6) 3 z z)

def ivLn2 (p : Nat) : Iv := ivTwoArtanh p (ivDivN (ivOf (2 ^ p)) 3)
/-- π ÷ 2 by Machin's formula. -/
def ivHalfPi (p : Nat) : Iv :=
  ivSub (ivScale 8 (ivAtan p (ivDivN (ivOf (2 ^ p)) 5))) (ivScale 2 (ivAtan p (ivDivN (ivOf (2 ^ p)) 239)))

/-- A series t − t r²/((i+1)(i+2)) + …, `sq` being −r². -/
def trigSeries (p : Nat) (sq : Iv) : Nat → Nat → Iv → Iv → Iv
  | 0, _, _, acc => acc
  | n + 1, i, t, acc => let t := ivDivN (ivMul p t sq) ((i + 1) * (i + 2)); trigSeries p sq n (i + 2) t (ivAdd acc t)

def ivSin (p : Nat) (r : Iv) : Iv := ivWiden (trigSeries p (ivNeg (ivMul p r r)) (p / 8 + 10) 1 r r)
def ivCos (p : Nat) (r : Iv) : Iv := ivWiden (trigSeries p (ivNeg (ivMul p r r)) (p / 8 + 10) 0 (ivOf (2 ^ p)) (ivOf (2 ^ p)))

/-! ## Functions of a finite non-zero argument -/

/-- A result between lo × 2^e and hi × 2^e. -/
structure Enc where
  iv : Iv
  e : Int
  deriving DecidableEq, Repr, Inhabited

/-- The integer nearest to x ÷ y, both at scale 2^p. -/
def nearQuot (p : Nat) (x y : Iv) : Int := (2 * x.lo * 2 ^ p / y.lo + 2 ^ p) / 2 ^ (p + 1)

/-- e^x of an argument at scale 2^p. -/
def encExp (p : Nat) (x : Iv) : Enc :=
  let l := ivLn2 p
  let k := nearQuot p x l
  { iv := ivExp p (ivSub x (ivScale k l)), e := k - p }

/-- ln of m × 2^e: f × 2^k with f from 3/4 to 3/2. -/
def ivLn (p : Nat) (m : Nat) (e : Int) : Iv :=
  let b := Nat.log2 m
  let up := decide (3 * 2 ^ b ≤ 2 * m)
  let b' := if up then b + 1 else b
  let num : Int := (m : Int) - (2 ^ b' : Nat)
  let den := m + 2 ^ b'
  ivAdd (ivScale (e + b') (ivLn2 p)) (ivTwoArtanh p ⟨fdiv (num * 2 ^ p) den, cdiv (num * 2 ^ p) den⟩)

/-- The quadrant of an argument and what remains of it, at scale 2^p. -/
def trigReduce (p : Nat) (neg : Bool) (m : Nat) (e : Int) : Int × Iv :=
  let x := ivDyadic p neg m e
  let h := ivHalfPi p
  let k := nearQuot p x h
  (k, ivSub x (ivScale k h))

def encTrig (p0 : Nat) (cos : Bool) (neg : Bool) (m : Nat) (e : Int) : Enc :=
  let p := p0 + 8 + (((Nat.log2 m : Int) + e).toNat)
  let (k, r) := trigReduce p neg m e
  let q := (k + if cos then 1 else 0) % 4
  let v := if q % 2 = 0 then ivSin p r else ivCos p r
  { iv := if 2 ≤ q then ivNeg v else v, e := -p }

/-- An enclosure of f(x) for x = (−1)^neg × m × 2^e, not 0, in the function's domain. Beyond 256 the exponentials stand at
values that round as the true ones do. -/
def enclose (f : FnId) (p : Nat) (neg : Bool) (m : Nat) (e : Int) : Enc :=
  let far := decide (8 ≤ (Nat.log2 m : Int) + e)
  let one : Int := 2 ^ p
  let x := ivDyadic p neg m e
  let ax := ivDyadic p false m e
  let expm (x : Iv) : Iv := let y := encExp p x; ivShift y.iv (y.e + p)
  let below : Enc := ⟨⟨2 ^ 1100 - 1, 2 ^ 1100⟩, -1100⟩
  let tiny : Enc := ⟨⟨1, 2⟩, -1100⟩
  let huge : Enc := ⟨⟨1, 2⟩, 1100⟩
  match f with
  | .exp => if far then (if neg then tiny else huge) else encExp p x
  | .exp2 =>
    if far then (if neg then tiny else huge)
    else
      let n := nearQuot p x (ivOf one)
      let r := ivMul p (ivSub x (ivScale n (ivOf one))) (ivLn2 p)
      { iv := ivExp p r, e := n - p }
  | .expm1 =>
    if far then (if neg then ⟨ivNeg below.iv, below.e⟩ else huge)
    else ⟨ivSub (expm x) (ivOf one), -p⟩
  | .log => ⟨ivLn p m e, -p⟩
  | .log2 => ⟨ivDiv p (ivLn p m e) (ivLn2 p), -p⟩
  | .log1p =>
    let lo := min e 0
    let n : Int := 2 ^ (-lo).toNat + finInt neg m e lo
    ⟨ivLn p n.toNat lo, -p⟩
  | .sin => encTrig p false neg m e
  | .cos => encTrig p true neg m e
  | .tanh =>
    if far then (if neg then ⟨ivNeg below.iv, below.e⟩ else below)
    else
      let y := expm (ivScale 2 ax)
      let t := ivDiv p (ivSub y (ivOf one)) (ivAdd y (ivOf one))
      ⟨if neg then ivNeg t else t, -p⟩
  | .logistic =>
    if far then (if neg then tiny else below)
    else if neg then
      let y := encExp p x
      ⟨ivDiv p y.iv (ivAdd (ivOf one) (ivShift y.iv (y.e + p))), y.e⟩
    else ⟨ivDiv p (ivOf one) (ivAdd (ivOf one) (expm (ivNeg ax))), -p⟩
  | _ => ⟨ivOf 0, 0⟩

/-! ## Rounding -/

/-- `round_p` with its flags, UNDERFLOW measured against the value z (R74, R211). -/
def roundApx (f : Fmt) (neg : Bool) (m : Nat) (e : Int) (st : Bool) : FpRes :=
  let r := roundGen f (if f.p = 24 then 12 else 8) .rne neg m e st
  let tiny := decide (r.bits % withSign f true 0 < 2 ^ fmtFbits f)
  { r with flags := (r.flags &&& (63 - flUnderflow)) + (if r.flags &&& flInexact ≠ 0 ∧ tiny then flUnderflow else 0) }

/-- `round`, or `round_p` for the `.apx` forms (R73, R74). -/
def fnRound (f : Fmt) (mode : RMode) (apx : Bool) (neg : Bool) (m : Nat) (e : Int) (st : Bool) : FpRes :=
  if apx then roundApx f neg m e st else roundFin f mode neg m e st

/-- The rounding of an irrational value strictly inside an enclosure, where both ends agree on it. -/
def roundEnc (f : Fmt) (mode : RMode) (apx : Bool) (x : Enc) : Option FpRes :=
  let go (neg : Bool) (lo hi : Int) : Option FpRes :=
    if lo ≤ 0 ∨ hi ≤ lo then none
    else
      let a := fnRound f mode apx neg lo.toNat x.e true
      let b := fnRound f mode apx neg (hi - 1).toNat x.e true
      if a = b then some a else none
  if 0 < x.iv.lo then go false x.iv.lo x.iv.hi else if x.iv.hi < 0 then go true (-x.iv.hi) (-x.iv.lo) else none

/-- Enclosures at rising precision until one decides the rounding (log entry 19). -/
def ziv (f : Fmt) (mode : RMode) (apx : Bool) (enc : Nat → Enc) : List Nat → FpRes
  | [] => { bits := fmtNan f }
  | p :: r => match roundEnc f mode apx (enc p) with | some x => x | none => ziv f mode apx enc r

def zivSteps : List Nat := [96, 240, 512, 1024, 2048, 4096]

/-- The integer square root by `n` bits from the top. -/
def isqrtAux (x : Nat) : Nat → Nat → Nat
  | 0, r => r
  | n + 1, r => let t := r + 2 ^ n; isqrtAux x n (if t * t ≤ x then t else r)
def isqrt (x : Nat) : Nat := isqrtAux x (Nat.log2 x / 2 + 1) 0

/-- √(m × 2^e), exactly rounded. -/
def sqrtRound (f : Fmt) (mode : RMode) (apx : Bool) (m : Nat) (e : Int) : FpRes :=
  let k := 2 * f.p + 8 + (if e % 2 = 0 then 0 else 1)
  let x := m * 2 ^ k
  fnRound f mode apx false (isqrt x) ((e - k) / 2) (isqrt x * isqrt x != x)

/-- 1/√(m × 2^e), exactly rounded: the root of 2^k ÷ m. -/
def rsqrtRound (f : Fmt) (mode : RMode) (apx : Bool) (m : Nat) (e : Int) : FpRes :=
  let k := 4 * f.p + 8 + 2 * (Nat.log2 m) + (if e % 2 = 0 then 0 else 1)
  let r := isqrt (2 ^ k / m)
  fnRound f mode apx false r ((-e - k) / 2) (r * r * m != 2 ^ k)

def rcpRound (f : Fmt) (mode : RMode) (apx : Bool) (neg : Bool) (m : Nat) (e : Int) : FpRes :=
  let k := f.p + 8 + Nat.log2 m
  fnRound f mode apx neg (2 ^ k / m) (-e - k) (2 ^ k % m != 0)

/-! ## Exceptional inputs (R209) -/

/-- The results R209 lists by name. -/
inductive FnConst where
  | zero (neg : Bool)
  | one (neg : Bool)
  | half
  | inf (neg : Bool)
  | pole (neg : Bool)
  | invalid
  deriving DecidableEq, Repr

def fnConst (f : Fmt) : FnConst → FpRes
  | .zero n => { bits := withSign f n 0 }
  | .one n => { bits := withSign f n (fmtBias f * 2 ^ fmtFbits f).toNat }
  | .half => { bits := ((fmtBias f - 1) * 2 ^ fmtFbits f).toNat }
  | .inf n => { bits := withSign f n (fmtInf f) }
  | .pole n => { bits := withSign f n (fmtInf f), flags := flDivzero }
  | .invalid => fpNan f flInvalid

def fnInf (f : FnId) (neg : Bool) : FnConst :=
  match f with
  | .exp | .exp2 => if neg then .zero false else .inf false
  | .expm1 => if neg then .one true else .inf false
  | .log | .log2 | .log1p | .sqrt => if neg then .invalid else .inf false
  | .rcp => .zero neg
  | .rsqrt => if neg then .invalid else .zero false
  | .sin | .cos => .invalid
  | .tanh => .one neg
  | .logistic => if neg then .zero false else .one false

def fnZero (f : FnId) (neg : Bool) : FnConst :=
  match f with
  | .exp | .exp2 | .cos => .one false
  | .expm1 | .log1p | .sqrt | .sin | .tanh => .zero neg
  | .log | .log2 => .pole true
  | .rcp | .rsqrt => .pole neg
  | .logistic => .half

/-- Whether a finite non-zero value is −1, or 1. -/
def isOne (m : Nat) (e : Int) : Bool := decide (e ≤ 0) && m == 2 ^ (-e).toNat

/-- Domain, poles and exact points among finite non-zero inputs. -/
def fnPoint (f : FnId) (neg : Bool) (m : Nat) (e : Int) : Option FnConst :=
  match f with
  | .log | .log2 => if neg then some .invalid else if isOne m e then some (.zero false) else none
  | .log1p =>
    if neg && isOne m e then some (.pole true)
    else if neg && ltVal false (.fin true m e) (.fin true 1 0) then some .invalid else none
  | .sqrt | .rsqrt => if neg then some .invalid else none
  | _ => none

/-- A result that R209 fixes, if any. -/
def fnFixed (id : FnId) (f : Fmt) (v : FpVal) : Option FpRes :=
  match v with
  | .nan sig => some (fpNan f (if sig then flInvalid else 0))
  | .inf n => some (fnConst f (fnInf id n))
  | .fin n m e => if m = 0 then some (fnConst f (fnZero id n)) else (fnPoint id n m e).map (fnConst f)

/-- The exponent of a power of two, of m × 2^e. -/
def powTwo? (m : Nat) (e : Int) : Option Int := if m = 2 ^ Nat.log2 m then some ((Nat.log2 m : Int) + e) else none

/-- An integer that m × 2^e is. -/
def asInt? (neg : Bool) (m : Nat) (e : Int) : Option Int :=
  if 0 ≤ e then (if e ≤ 12 then some (finInt neg m e 0) else none)
  else if m % 2 ^ (-e).toNat = 0 then some (if neg then -((m / 2 ^ (-e).toNat : Nat) : Int) else (m / 2 ^ (-e).toNat : Nat)) else none

/-- f(x) of a finite non-zero x where R209 fixes nothing (R210). -/
def fnFinite (id : FnId) (f : Fmt) (mode : RMode) (apx : Bool) (neg : Bool) (m : Nat) (e : Int) : FpRes :=
  let go : FpRes := ziv f mode apx (fun p => enclose id p neg m e) zivSteps
  match id with
  | .rcp => rcpRound f mode apx neg m e
  | .sqrt => sqrtRound f mode apx m e
  | .rsqrt => rsqrtRound f mode apx m e
  | .exp2 => (match asInt? neg m e with
              | some n => if n.natAbs < 256 then fnRound f mode apx false 1 n false else go
              | none => go)
  | .log2 => (match powTwo? m e with
              | some n => fnRound f mode apx (decide (n < 0)) n.natAbs 0 false
              | none => go)
  | _ => go

/-- One lane of a function instruction (R73, R74, R209, R210). -/
def fnLane (id : FnId) (f : Fmt) (mode : RMode) (apx : Bool) (x : Nat) : FpRes :=
  match fnFixed id f (fpDecode f x), fpDecode f x with
  | some r, _ => r
  | none, .fin n m e => fnFinite id f mode apx n m e
  | none, _ => fpNan f

end Sys2Proof.Machine
end

