-- ==== Sys2Proof/Machine/Copy.lean ====
section
/-! DEFINITION. Walks of copies, gathers, scatters, multicasts, fills and the layout network (R243–R250), the publish
command (R248), and the completion of hoist commands (R237, R239). -/

namespace Sys2Proof.Machine

/-! ## Walks -/

/-- A walk: how many elements of which size, where each comes from (none: the fill value) and goes to, how positions and
counts are reported, and the device addresses that position `q` reads and writes. -/
structure Walk where
  n : Nat
  size : Nat
  src : Nat → Except Stop (Option (List Nat))
  dst : Nat → Except Stop (List (List Nat))
  fill : Nat := 0
  inner : Nat := 1
  copies : Nat := 1
  adr : Nat → List (Bool × Nat) := fun _ => []

/-- Why position `q` stops, or what it moves. -/
def walkAt (w : Walk) (q : Nat) : Except Stop (Option (List Nat) × List (List Nat)) :=
  match w.src q, w.dst q with
  | .error x, _ => .error { x with findex := if x.fstep = 1 then x.findex else q / w.inner }
  | _, .error x => .error { x with findex := if x.fstep = 1 then x.findex else q / w.inner }
  | .ok a, .ok b => .ok (a, b)

/-- The elements before the first stop, and that stop. -/
def walkRun (w : Walk) : Nat → Nat → List (Option (List Nat) × List (List Nat)) × Option Stop
  | 0, _ => ([], none)
  | f + 1, q =>
    match walkAt w q with
    | .error x => ([], some x)
    | .ok m => let r := walkRun w f (q + 1); (m :: r.1, r.2)

/-- A command's requests for remote bytes sent; it waits for their tags. -/
def askRemote (s : State) (core : Nat) (q : QId) (c : Cmd) (miss : List Nat) : State :=
  let r := (remoteRuns miss).foldl (fun (r : State × List Nat) p =>
    let x := sendReq r.1 .read (.cmd core q c.id) (remoteHome p.1) (remotePa p.1) p.2 []
    (x.1, r.2 ++ [x.2])) (s, [])
  upHead r.1 core q (fun c => { c with reply := { c.reply with tags := c.reply.tags ++ r.2 } })

/-- A byte of a source, from this module or from what has come back. -/
def srcByte (s : State) (w : Who) (c : Cmd) (k : Nat) : Byte :=
  if isRemote k then (SMap.get none c.reply.got k).getD 0 else engRd s w k

/-- One element moved to each of its destinations on this module; bytes for other homes are gathered. Where the command's first
bytes of it have moved already, the rest of a fill value follows. -/
def moveEl (w : Who) (c : Cmd) (fill size : Nat) (r : State × List (Nat × Byte)) (m : Option (List Nat) × List (List Nat)) :
    State × List (Nat × Byte) :=
  let data : List Byte := match m.1 with
    | some ks => ks.map (srcByte r.1 w c)
    | none => (leBytes size fill).drop c.half
  m.2.foldl (fun (r : State × List (Nat × Byte)) ks =>
    let l := ks.zip data
    (engWrs r.1 (l.filter (fun p => !isRemote p.1)), r.2 ++ l.filter (fun p => isRemote p.1))) r

/-- The first element whose partial write meets a block that fails its check. -/
def walkBadWrite (s : State) (ms : List (Option (List Nat) × List (List Nat))) : Option Nat :=
  let keys := (ms.flatMap (fun m => m.2.flatten)).filter (fun k => !isRemote k && decide (k < mapBase))
  match badWrite s keys with
  | some k => some (ms.findIdx (fun m => m.2.any (fun ks => ks.contains k)))
  | none => none

/-- Whether every tag a command waits for has been answered. -/
def allBack (c : Cmd) : Bool := c.reply.tags.isEmpty

/-- Bytes for other homes sent as writes; the command waits until they have landed. -/
def sendRemote (s : State) (core : Nat) (q : QId) (id : Nat) (l : List (Nat × Byte)) : State :=
  let r := (remoteRuns (l.map (fun p => p.1))).foldl (fun (r : State × List Nat × List (Nat × Byte)) p =>
    let d := (r.2.2.take p.2).map (fun x => x.2)
    let x := sendReq r.1 .write (.cmd core q id) (remoteHome p.1) (remotePa p.1) p.2 d
    (x.1, r.2.1 ++ [x.2], r.2.2.drop p.2)) (s, [], l)
  upHead r.1 core q (fun c => { c with reply := { c.reply with tags := c.reply.tags ++ r.2.1 } })

/-- The result that a command waits to report. -/
def finishCmd (s : State) (core : Nat) (q : QId) (r : CRes) : State :=
  upHead s core q (fun c => { c with done := some { r with flags := r.flags ||| c.flags, tick := s.tick } })

def stepTwo (c : Cmd) (x : Stop) : Stop := if (c.op == .hgat || c.op == .hsct) && x.fstep == 0 then { x with fstep := 2 } else x

/-- The stop of a request that has failed (R94, R95, R109, R262, R367, R398). -/
def failStop (why : Nat) : Stop :=
  match why with
  | 1 => { status := stE2e, e2e := 1 }
  | 2 => { status := stLinkdown }
  | 4 => { status := stUnshadowed }
  | 5 => { status := stE2e, e2e := 2 }
  | _ => { status := stXlate, fcode := 4 }

def touches (b : ReqFail) (l : List Nat) : Bool := l.any (fun k => decide (b.key ≤ k ∧ k < b.key + b.len))

/-- The device address of byte `o` of the source or destination of a walk's element `i`. -/
def elemAddr (w : Walk) (write : Bool) (i o : Nat) : Nat :=
  match (w.adr i).find? (fun p => p.1 == write) with
  | some p => p.2 + o
  | none => 0

/-- The stop of a partial write that meets a block which fails its check: it names the destination (R94, R95, R310). -/
def badStop (s : State) (w : Walk) (ms : List (Option (List Nat) × List (List Nat))) (i : Nat) : Stop :=
  let ks := ((ms.getD i (none, [])).2.find? (fun ks => (badWrite s (ks.filter (fun k => !isRemote k && decide (k < mapBase)))).isSome)).getD []
  let o := match badWrite s (ks.filter (fun k => !isRemote k && decide (k < mapBase))) with | some k => ks.idxOf k | none => 0
  { status := stE2e, e2e := 2, findex := i / w.inner, addr := elemAddr w true i o }

/-- A walk cut at the first element whose source could not be fetched. -/
def cutFailed (c : Cmd) (w : Walk) (r : List (Option (List Nat) × List (List Nat)) × Option Stop) :
    List (Option (List Nat) × List (List Nat)) × Option Stop :=
  let lost (k : Nat) : Bool := SMap.get false c.reply.lost k
  let fails (k : Nat) : Bool := lost k || (match c.reply.bad with | some b => touches b [k] | none => false)
  match r.1.findIdx? (fun m => (m.1.getD []).any fails) with
  | some i =>
    let ks := (r.1.getD i (none, [])).1.getD []
    let o := ks.findIdx fails
    let why := if lost (ks.getD o 0) then 1 else ((c.reply.bad.map (fun b => b.why)).getD 1)
    (r.1.take i, some { stepTwo c (failStop why) with findex := i / w.inner, addr := elemAddr w false i o })
  | none => r

/-- What is left of a walk of whose elements the first `n`, and the first `h` bytes of the next, have moved. -/
def walkFrom (w : Walk) (n h : Nat) : Walk :=
  { w with n := w.n - n, adr := fun q => w.adr (n + q),
           src := fun q => (w.src (n + q)).map (fun o => o.map (fun l => if q = 0 then l.drop h else l)),
           dst := fun q => (w.dst (n + q)).map (fun l => l.map (fun k => if q = 0 then k.drop h else k)) }

/-- A stop found in what is left of a walk, by its position in the whole. -/
def stopAt (w : Walk) (n : Nat) (x : Stop) (q : Nat) : Stop := { x with findex := (n + q) / w.inner }

/-- Whether a location lies in a register or accumulator window. -/
def inWindow (k : Nat) : Bool := decide (mapBase ≤ k ∧ k < mapTop)

/-- The first element of a walk that has not moved yet moves on its own, where its source is at hand, its destination lies on this
module and nothing stops it; what lies between two elements' moves is open to every other agent. An element of 8 bytes goes into a
register window in two of 32 bits (R86). -/
def moveOne (s : State) (core : Nat) (q : QId) (c : Cmd) (w0 : Walk) (who : Who) : State :=
  let w := walkFrom w0 c.prog c.half
  if w.n = 0 ∨ c.sent ∨ !allBack c then s
  else match walkAt w 0 with
    | .error _ => s
    | .ok m =>
      if (m.1.getD []).any (fun k => isRemote k && (SMap.get none c.reply.got k).isNone) || m.2.any (fun ks => ks.any isRemote) ||
          (walkBadWrite s [m]).isSome then s
      else
        let two := w.size == 8 && c.half == 0 && m.2.any (fun ks => ks.any inWindow)
        let m := if two then (m.1.map (fun l => l.take 4), m.2.map (fun l => l.take 4)) else m
        let r := moveEl who c w.fill w.size (s, []) m
        let s := newChecks (noteAll r.1 who (w.adr 0)) (m.2.flatten.filter (fun k => !isRemote k && decide (k < mapBase)))
        upHead s core q (fun c => if two then { c with half := 4 } else { c with prog := c.prog + 1, half := 0 })

/-- A walk of the command at the head of a queue: its remote sources are fetched first, then its elements move in walk
order up to the first stop (R244). `consumer` is who reports a failed check. -/
def runWalk (s : State) (core : Nat) (q : QId) (c : Cmd) (w0 : Walk) (who : Who) (consumer : Nat) : State :=
  let w := walkFrom w0 c.prog c.half
  let r := cutFailed c w (walkRun w w.n 0)
  let miss := ((r.1.flatMap (fun m => m.1.getD [])).filter (fun k => isRemote k && (SMap.get none c.reply.got k).isNone && !SMap.get false c.reply.lost k)).eraseDups
  if !allBack c then s
  else if !miss.isEmpty && !c.sent then askRemote s core q c miss
  else
    let bad := walkBadWrite s r.1
    let ms := match bad with | some i => r.1.take i | none => r.1
    let stop : Option Stop := match bad with
      | some i => some (stepTwo c (stopAt w c.prog (badStop s w r.1 i) i))
      | none => r.2.map (fun x => if x.fstep = 1 then x else stopAt w c.prog x r.1.length)
    let m := (ms.drop 1).foldl (moveEl who { c with half := 0 } w.fill w.size) ((ms.take 1).foldl (moveEl who c w.fill w.size) (s, []))
    let s := newChecks (noteAll m.1 who ((List.range ms.length).flatMap w.adr)) ((ms.flatMap (fun m => m.2.flatten)).filter (fun k => !isRemote k && decide (k < mapBase)))
    let s := match stop with
      | some x => stopReport s core consumer x
      | none => s
    let res : CRes := match stop with
      | some x => resOf x (w.size * w.copies * (if w.inner = 1 then c.prog + ms.length else x.findex * w.inner))
      | none => { count := w.size * w.copies * w0.n }
    if m.2.isEmpty then finishCmd s core q res
    else
      let s := sendRemote s core q c.id m.2
      upHead s core q (fun c => { c with sent := true, done := some { res with flags := res.flags ||| c.flags } })

/-! ## Copy descriptors (R243, R244) -/

def dI (c : Cmd) (off n : Nat) : Nat := leNat ((c.desc.drop off).take n)
def cpSrc (c : Cmd) : Nat := dI c 0 8
def cpDst (c : Cmd) : Nat := dI c 8 8
def cpDim (c : Cmd) : Nat := dI c 16 1
def cpSize (c : Cmd) : Nat := 2 ^ (dI c 17 1)
def cpExt (c : Cmd) (d : Nat) : Nat := dI c (24 + 4 * d) 4
/-- A side: its origin, whether it is in coordinate form, and its words. -/
structure Side where
  base : Nat
  coord : Bool
  off : Nat
  deriving DecidableEq, Repr
def srcSide (c : Cmd) : Side := { base := cpSrc c, coord := dI c 18 1 % 2 == 1, off := 64 }
def dstSide (c : Cmd) : Side := { base := cpDst c, coord := dI c 18 1 / 2 % 2 == 1, off := 144 }
def sideWord (c : Cmd) (x : Side) (d : Nat) : Word := BitVec.ofNat 64 (dI c (x.off + 8 * d) 8)

/-- The elements of a walk. -/
def cpCount (c : Cmd) : Nat := (List.range (cpDim c)).foldl (fun p d => p * cpExt c d) 1

/-- The index vector of position `q`, the last dimension fastest. -/
def cpIndex (c : Cmd) (q : Nat) : List Nat :=
  ((List.range (cpDim c)).foldr (fun d (p : Nat × List Nat) => (p.1 / cpExt c d, p.1 % cpExt c d :: p.2)) (q, [])).2

def entryOf (s : State) (w : Who) (addr : Nat) : Option HEntry := htAt s w.part w.ctx (addr / 2 ^ 48 % 65536)

/-- The address of an element in offset form. -/
def offsetAddr (c : Cmd) (x : Side) (idx : List Nat) : Except Stop Nat :=
  let o : Int := (List.range (cpDim c)).foldl (fun a d => a + (idx.getD d 0 : Nat) * (sideWord c x d).toInt) ((x.base % 2 ^ 48 : Nat) : Int)
  if o < 0 ∨ (2 ^ 48 : Int) ≤ o then .error { status := stXlate, fcode := 2 } else .ok (x.base / 2 ^ 48 * 2 ^ 48 + o.toNat)

/-- The address of an element of a tensor object by coordinates (R90). -/
def coordAddr (c : Cmd) (x : Side) (e : HEntry) (idx : List Nat) : Except Stop Nat :=
  let xs := (List.range e.dims.length).map (fun d =>
    let w := (sideWord c x d).toNat
    w % 2 ^ 32 + (if w / 2 ^ 32 % 16 = 0 then 0 else idx.getD (w / 2 ^ 32 % 16 - 1) 0))
  if (xs.zip e.dims).any (fun p => decide (p.2 ≤ p.1)) then .error { status := stRange }
  else .ok (x.base / 2 ^ 48 * 2 ^ 48 + 2 ^ e.esize * (xs.zip e.dims).foldl (fun a p => a * p.2 + p.1) 0)

/-- `side_addr` of R244. -/
def sideAddr (s : State) (w : Who) (c : Cmd) (x : Side) (idx : List Nat) : Except Stop Nat :=
  if x.coord then
    match entryOf s w x.base with
    | some e => coordAddr c x e idx
    | none => .error { status := stXlate, fcode := 1 }
  else offsetAddr c x idx

/-- Whether a side's fields keep their limits (R243, R244). -/
def sideOk (s : State) (w : Who) (c : Cmd) (x : Side) : Bool :=
  let ent := entryOf s w x.base
  let n := if x.coord then (match ent with | some e => e.dims.length | none => 10) else cpDim c
  (!x.coord || (match ent with | some e => e.kind == 2 | none => decide (x.base / 2 ^ 48 < 0xFFF0))) &&
  (List.range 10).all (fun d =>
    if d < n then !x.coord || (let v := (sideWord c x d).toNat; v / 2 ^ 36 == 0 && decide (v / 2 ^ 32 % 16 ≤ cpDim c))
    else sideWord c x d == 0)

/-- Whether every element that has an address has an aligned one. -/
def alignedAll (n size : Nat) (addr : Nat → Except Stop Nat) : Bool :=
  (List.range n).all (fun q => match addr q with | .ok a => a % size == 0 | .error _ => true)

/-- The limits of a copy descriptor that do not rest on its sides. -/
def cpFieldsOk (c : Cmd) : Bool :=
  decide (1 ≤ cpDim c ∧ cpDim c ≤ 10) && decide (dI c 17 1 ≤ 3) && decide (dI c 18 1 < 4) && dI c 19 5 == 0 &&
  (List.range 10).all (fun d => if d < cpDim c then cpExt c d != 0 else cpExt c d == 0) && dI c 224 32 == 0

/-- Whether a handle of a kind may be used by the command's agent, as source or destination (R78, R236). -/
def sideKindOk (s : State) (w : Who) (write : Bool) (addr : Nat) : Bool :=
  match entryOf s w addr with
  | some e => kindOk w.agent (if write then .w else .r) e.kind
  | none => true

/-- A memory destination that is not shadowed (R109). -/
def unshadowed (s : State) (w : Who) (addr : Nat) : Bool :=
  match entryOf s w addr with | some e => (e.kind == 1 || e.kind == 2) && !e.shadow | none => false

/-- Whether an access goes through the on-chip map out of scope. -/
def outOfScope (s : State) (w : Who) (write : Bool) (size : Nat) (a : Except Stop Nat) : Bool :=
  match a with
  | .ok x => x / 2 ^ 48 == 0xFFFF && (mapKeys s w write (x % 2 ^ 48) size).isNone
  | .error _ => false

/-- The highest of the refusals that hold. -/
def worst (l : List (Bool × Nat)) : Option Nat :=
  (l.filter (fun p => p.1)).foldl (fun (m : Option Nat) p => match m with | none => some p.2 | some x => some (max x p.2)) none

/-- The agent of a command: a DMA hoist where `hcp` or `hfill` names a `host` handle (R236). -/
def copyWho (s : State) (core : Nat) (c : Cmd) : Who :=
  let w := cmdWho s core
  let host (a : Nat) : Bool := match entryOf s w a with | some e => e.kind == 3 | none => false
  if (c.op == .hcp && (host (cpSrc c) || host (cpDst c))) || (c.op == .hfill && host (cpDst c)) then { w with agent := .dma } else w

/-! ## The five copy commands (R245–R247) -/

/-- Entry `i` of an index list: its value, or the stop of step 1. -/
def indexAt (s : State) (w : Who) (base i : Nat) : Except Stop Nat :=
  if 2 ^ 48 ≤ base % 2 ^ 48 + 4 * i + 3 then .error { status := stXlate, fcode := 2, fstep := 1, findex := i }
  else match engBytes s w (base + 4 * i) 4 with
    | .ok l => .ok (leNat l)
    | .error x => .error { x with fstep := 1, findex := i }

/-- The elements moved for one index. -/
def cpInner (c : Cmd) : Nat := cpCount c / max 1 (cpExt c 0)

/-- The index vector of position `q` on an indexed side. -/
def indexedIdx (s : State) (w : Who) (c : Cmd) (q : Nat) : Except Stop (List Nat) :=
  match indexAt s w c.rb.toNat (q / cpInner c) with
  | .ok v => .ok (v :: (cpIndex c q).drop 1)
  | .error x => .error x

def idxOf (s : State) (w : Who) (c : Cmd) (dst : Bool) (q : Nat) : Except Stop (List Nat) :=
  if (c.op == .hgat && !dst) || (c.op == .hsct && dst) then indexedIdx s w c q else .ok (cpIndex c q)

/-- The address of position `q` on a side. -/
def cpAddr (s : State) (w : Who) (c : Cmd) (dst : Bool) (q : Nat) : Except Stop Nat :=
  let two := c.op == .hgat || c.op == .hsct
  let mark (x : Stop) : Stop := if two && x.fstep == 0 then { x with fstep := 2 } else x
  match idxOf s w c dst q with
  | .error x => .error x
  | .ok idx =>
    match sideAddr s w c (if dst then dstSide c else srcSide c) idx with
    | .ok a => .ok a
    | .error x => .error (mark x)


/-- The pairs of a multicast's mask. -/
def maskPairs (c : Cmd) : List Nat := (List.range 8).filter (fun p => c.k / 2 ^ p % 2 == 1)

/-- The destinations of position `q`: one, or one per pair of `hmc`. -/
def cpDsts (s : State) (w : Who) (c : Cmd) (q : Nat) : Except Stop (List (List Nat)) :=
  match cpAddr s w c true q with
  | .error x => .error x
  | .ok a =>
    if c.op = .hmc then
      if 2 ^ 23 ≤ a % 2 ^ 48 then .error { status := stRange }
      else .ok ((maskPairs c).map (fun p => (List.range (cpSize c)).map (fun i => scratchKey w.core (p * 2 ^ 23 + a % 2 ^ 48 + i))))
    else match engKeys s w true a (cpSize c) with
      | .ok l => .ok [l]
      | .error x => .error (stepTwo c x)

def cpSrcs (s : State) (w : Who) (c : Cmd) (q : Nat) : Except Stop (Option (List Nat)) :=
  if c.op = .hfill then .ok none
  else match cpAddr s w c false q with
    | .error x => .error x
    | .ok a => match engRead s w a (cpSize c) with
      | .ok l => .ok (some l)
      | .error x => .error (stepTwo c x)

/-- An address that a walk accesses, where it has one. -/
def accAt (write : Bool) (a : Except Stop Nat) : List (Bool × Nat) := match a with | .ok x => [(write, x)] | .error _ => []

/-- The addresses that position `q` of a copy accesses. -/
def cpAcc (s : State) (w : Who) (c : Cmd) (q : Nat) : List (Bool × Nat) :=
  (if c.op = .hfill then [] else accAt false (cpAddr s w c false q)) ++ accAt true (cpAddr s w c true q) ++
  (if c.op = .hgat ∨ c.op = .hsct then [(false, c.rb.toNat + 4 * (q / cpInner c))] else [])

/-- The walk of a copy command. -/
def copyWalk (s : State) (w : Who) (c : Cmd) : Walk :=
  { adr := cpAcc s w c, n := cpCount c, size := cpSize c, src := cpSrcs s w c, dst := cpDsts s w c, fill := c.rb.toNat,
    inner := if c.op = .hgat ∨ c.op = .hsct then cpInner c else 1, copies := if c.op = .hmc then (maskPairs c).length else 1 }

/-- A pair that a multicast may not name: the Foreman pair from user work, or a disabled pair. -/
def badPair (s : State) (w : Who) (p : Nat) : Bool :=
  (!w.fore && clusterOf w.core == 0 && p == 0) || SMap.get false s.deadPairs (8 * clusterOf w.core + p)

/-- What a copy command is refused for, the highest code first (R240, R243, R245–R247). -/
def copyRefusal (s : State) (w : Who) (c : Cmd) : Option Nat :=
  if !cpFieldsOk c then some stBadcmd
  else
    let fill := c.op == .hfill
    let two := c.op == .hgat || c.op == .hsct
    let n := cpCount c
    let sides := (fill || sideOk s w c (srcSide c)) && sideOk s w c (dstSide c) &&
      !(fill && (cpSrc c != 0 || dI c 18 1 % 2 == 1 || (List.range 10).any (fun d => sideWord c (srcSide c) d != 0))) &&
      !(two && dI c 18 1 != 0)
    if !sides then some stBadcmd
    else
      let srcA := fun q => cpAddr s w c false q
      let dstA := fun q => cpAddr s w c true q
      worst [
        (!(fill || alignedAll n (cpSize c) srcA) || !alignedAll n (cpSize c) dstA, stBadcmd),
        (!(fill || sideKindOk s w false (cpSrc c)) || !(c.op == .hmc || sideKindOk s w true (cpDst c)) ||
           (c.op == .hmc && cpDst c / 2 ^ 48 != 0xFFFE) || (two && !descKind s w c.rb.toNat), stRefused),
        (unshadowed s w (cpDst c), stUnshadowed),
        ((c.op == .hmc && (maskPairs c).any (badPair s w)) ||
           (List.range n).any (fun q => (!fill && outOfScope s w false (cpSize c) (srcA q)) || outOfScope s w true (cpSize c) (dstA q)),
         stMapscope)]

/-- A copy command at the head of its queue. -/
def runCopy (s : State) (core : Nat) (q : QId) (c : Cmd) : State :=
  let w := copyWho s core c
  match (if c.sent ∨ 0 < c.prog then none else copyRefusal s w c) with
  | some st => finishCmd s core q { status := st }
  | none => runWalk s core q c (copyWalk s w c) w 1

/-- The queue of a command by its destination (R236). -/
def routeCopy (c : Cmd) : QId :=
  if c.op = .hmc then .load
  else if c.done.isNone ∧ (cpDst c / 2 ^ 48 = 0xFFFE ∨ cpDst c / 2 ^ 48 = 0xFFFF) then .load else .store

/-! ## The layout network (R249, R250) -/

def dmw (c : Cmd) : Nat := c.rb.toNat + 2 ^ 64 * c.re.toNat
def lyNf (c : Cmd) : Nat := dmw c / 2 ^ 96 % 16 + 1
def lySize (c : Cmd) : Nat := 2 ^ (dmw c / 2 ^ 100 % 4)
def lyIgrp (c : Cmd) (k : Nat) : Bool := dmw c / 2 ^ (80 + k) % 2 == 1
def lyOgrp (c : Cmd) (k : Nat) : Bool := dmw c / 2 ^ (64 + k) % 2 == 1
def lyPerm (c : Cmd) (j : Nat) : Nat := dmw c / 2 ^ (4 * j) % 16
def lyFsize (c : Cmd) (k : Nat) : Nat := dI c (16 + 4 * k) 4
def lyPitch (c : Cmd) (off d : Nat) : Int := (BitVec.ofNat 64 (dI c (off + 8 * d) 8) : Word).toInt
/-- The dimension that factor or position `k` belongs to under a grouping. -/
def lyDim (grp : Nat → Bool) (k : Nat) : Nat := ((List.range k).filter (fun i => !grp i)).length

/-- The checks of R249. -/
def layOk (c : Cmd) : Bool :=
  let nf := lyNf c
  let high (g : Nat → Bool) : Bool := (List.range 16).all (fun k => decide (k < nf - 1) || !g k)
  dmw c / 2 ^ 102 == 0 && high (lyIgrp c) && high (lyOgrp c) &&
  (List.range nf).all (fun k => ((List.range nf).filter (fun j => lyPerm c j == k)).length == 1) &&
  (List.range 16).all (fun j => decide (j < nf) || lyPerm c j == 0) &&
  decide (lyDim (lyIgrp c) (nf - 1) < 10) && decide (lyDim (lyOgrp c) (nf - 1) < 10) &&
  (List.range 16).all (fun k => if k < nf then lyFsize c k != 0 else lyFsize c k == 0) && dI c 240 16 == 0

def lyCount (c : Cmd) : Nat := (List.range (lyNf c)).foldl (fun p k => p * lyFsize c k) 1

/-- The value of each factor at walk position `q`, output position NF − 1 fastest. -/
def lyFactors (c : Cmd) (q : Nat) : Nat → Nat :=
  let vals := ((List.range (lyNf c)).foldr (fun j (p : Nat × List (Nat × Nat)) =>
    let z := max 1 (lyFsize c (lyPerm c j))
    (p.1 / z, (lyPerm c j, p.1 % z) :: p.2)) (q, [])).2
  fun k => ((vals.find? (fun p => p.1 == k)).map (fun p => p.2)).getD 0

/-- The offset that a grouping of positions gives: the mixed-radix value of each dimension times its pitch. -/
def lyOffset (c : Cmd) (grp : Nat → Bool) (fac : Nat → Nat) (f : Nat → Nat) (off : Nat) : Int :=
  let dims := lyDim grp (lyNf c - 1) + 1
  (List.range dims).foldl (fun (a : Int) d =>
    let v := ((List.range (lyNf c)).filter (fun k => lyDim grp k == d)).foldl (fun v k => v * lyFsize c (fac k) + f (fac k)) 0
    a + (v : Nat) * lyPitch c off d) 0

def lyAddr (base : Nat) (delta : Int) : Except Stop Nat :=
  let o : Int := (base % 2 ^ 48 : Nat) + delta
  if o < 0 ∨ (2 ^ 48 : Int) ≤ o then .error { status := stXlate, fcode := 2 } else .ok (base / 2 ^ 48 * 2 ^ 48 + o.toNat)

def lySrc (c : Cmd) (q : Nat) : Except Stop Nat := lyAddr (cpSrc c) (lyOffset c (lyIgrp c) id (lyFactors c q) 80)
def lyDst (c : Cmd) (q : Nat) : Except Stop Nat := lyAddr (cpDst c) (lyOffset c (lyOgrp c) (lyPerm c) (lyFactors c q) 160)

def layWalk (s : State) (w : Who) (c : Cmd) : Walk :=
  { adr := fun q => accAt false (lySrc c q) ++ accAt true (lyDst c q), n := lyCount c, size := lySize c,
    src := fun q => match lySrc c q with
      | .error x => .error x
      | .ok a => (engRead s w a (lySize c)).map some,
    dst := fun q => match lyDst c q with
      | .error x => .error x
      | .ok a => (engKeys s w true a (lySize c)).map (fun l => [l]) }

def layRefusal (s : State) (w : Who) (c : Cmd) : Option Nat :=
  if !layOk c then some stBadcmd
  else
    let n := lyCount c
    worst [
      (!alignedAll n (lySize c) (lySrc c) || !alignedAll n (lySize c) (lyDst c), stBadcmd),
      (!sideKindOk s w false (cpSrc c) || !sideKindOk s w true (cpDst c), stRefused),
      (unshadowed s w (cpDst c), stUnshadowed),
      ((List.range n).any (fun q => outOfScope s w false (lySize c) (lySrc c q) || outOfScope s w true (lySize c) (lyDst c q)), stMapscope)]

/-- `hlay` at the head of its queue. -/
def runLay (s : State) (core : Nat) (q : QId) (c : Cmd) : State :=
  let w := cmdWho s core
  match (if c.sent ∨ 0 < c.prog then none else layRefusal s w c) with
  | some st => finishCmd s core q { status := st }
  | none => runWalk s core q c (layWalk s w c) w 1

/-! ## Publish (R248) -/

/-- `hpub` at the head of the store queue: a kind that the agent may not name at all is refused, which has the higher code
(R78, R240, R248). -/
def runPub (s : State) (core : Nat) (q : QId) (c : Cmd) : State :=
  let w := cmdWho s core
  let h := c.ra.toNat / 2 ^ 48
  match htAt s w.part w.ctx h with
  | some e =>
    if e.kind = 6 ∨ !kindOk w.agent .r e.kind then finishCmd s core q { status := stRefused }
    else if e.shadow then finishCmd (publish s w.part w.ctx h c.k) core q {} else finishCmd s core q { status := stUnshadowed }
  | none => finishCmd s core q { status := stUnshadowed }

/-! ## Issue of the copy commands (R234) -/

def copyWord (op : CmdOp) (h : Hd) (d a b e : Reg) (imm : W32) (s : State) : Out :=
  runEff s h fun s => issueCmd s (newCmd s op d a b e imm) 256 routeCopy (fun _ c => c) id

def execHcp (h : Hd) (d a : Reg) (imm : W32) (s : State) : Out := copyWord .hcp h d a 0 0 imm s
def execHgat (h : Hd) (d a b : Reg) (imm : W32) (s : State) : Out := copyWord .hgat h d a b 0 imm s
def execHsct (h : Hd) (d a b : Reg) (imm : W32) (s : State) : Out := copyWord .hsct h d a b 0 imm s
def execHlay (h : Hd) (d a b e : Reg) (imm : W32) (s : State) : Out := copyWord .hlay h d a b e imm s
def execHfill (h : Hd) (d a b : Reg) (imm : W32) (s : State) : Out := copyWord .hfill h d a b 0 imm s

def mcCmd (s : State) (d a : Reg) (imm : W32) : Cmd := { newCmd s .hmc d a 0 0 imm with k := imm.toNat / 2 ^ 24 }

def execHmc (h : Hd) (d a : Reg) (imm : W32) (s : State) : Out :=
  runEff s h fun s => issueCmd s (mcCmd s d a imm) 256 (fun _ => .load) (fun _ c => c) id

/-- `hmc.sig` (R247): its arrivals are announced to the barrier at issue; `mid` marks the signalling form, `arg` holds the
barrier, `pairs` the arrivals still to make. -/
def execHmcSig (h : Hd) (d a : Reg) (imm : W32) (s : State) : Out :=
  let n := imm.toNat / 2 ^ 16 % 16
  runEff s h fun s =>
    if (curTeam s).nbar ≤ n then .fatal { code := 9, info := n } s
    else
      let c := mcCmd s d a imm
      issueCmd s { c with mid := true, arg := n, pairs := c.k } 256 (fun _ => .load) (fun _ c => c) (fun s =>
        upTeam s (curCore s).tid (fun t =>
          let b := SMap.get {} t.bars n
          { t with bars := SMap.set {} t.bars n { b with extra := b.extra + (maskPairs c).length } }))

def execHpub (h : Hd) (d a : Reg) (imm : W32) (s : State) : Out :=
  runEff s h fun s => issueCmd s { newCmd s .hpub d a 0 0 imm with k := imm.toNat / 2 ^ 16 % 8 } 0 (fun _ => .store) (fun _ c => c) id

/-- One pair's arrival of the first multicast that is over and has not made it (R247). -/
def pairArrival (s : State) (core pair : Nat) : State :=
  let c := coreAt s core
  match c.ql.findIdx? (fun x => x.mid && x.op == .hmc && x.done.isSome && x.pairs / 2 ^ pair % 2 == 1) with
  | some i =>
    let x := c.ql.getD i { id := 0, op := .hmc }
    arriveBar (upCore s core (fun c => { c with ql := c.ql.set i { x with pairs := x.pairs - 2 ^ pair } })) c.tid x.arg
  | none => s

def execHmcPairArrival (core pair : Nat) (s : State) : Out := .next (pairArrival s core pair)

end Sys2Proof.Machine
end

