-- ==== Sys2Proof/Machine/Quant.lean ====
section
/-! DEFINITION. Nested bit-plane integers (R52–R54) and quantisation (R63, R64). -/

namespace Sys2Proof.Machine

/-- The 8-bit two's-complement value of a code. -/
def codeVal (c : Nat) : Int := ofTwos 8 true (c % 256)

/-- v_k, the value of the first k planes of a code, and its midpoint where asked (R52). -/
def planeVal (c k : Nat) (mid : Bool) : Int :=
  codeVal (c % 256 / 2 ^ (8 - k) * 2 ^ (8 - k)) + if mid && decide (k < 8) then (2 : Int) ^ (7 - k) else 0

/-- Bit-plane i of a code (R52). -/
def planeBit (c i : Nat) : Nat := c / 2 ^ (7 - i) % 2

/-- The larger of two finite magnitudes; anything else is passed over. -/
def maxAbs (a b : FpVal) : FpVal :=
  match a, b with
  | .fin _ ma ea, .fin _ mb eb => if ltVal false (.fin false ma ea) (.fin false mb eb) then .fin false mb eb else .fin false ma ea
  | .fin _ ma ea, _ => .fin false ma ea
  | _, .fin _ mb eb => .fin false mb eb
  | _, _ => .fin false 0 0

/-- `block_scale` of R63: the bits of the scale in format `f`. -/
def blockScale (f : Fmt) (l : List FpVal) : Nat :=
  match l.foldl maxAbs (.fin false 0 0) with
  | .fin _ m e =>
    if m = 0 then 0
    else
      let r := divVal f .rna (.fin false m e) (.fin false 127 0)
      if r.bits = 0 then 1 else r.bits
  | _ => 0

/-- The exact quotient of two finite magnitudes rounded RNA to an integer (R64). -/
def rnaQuot (ma : Nat) (ea : Int) (mb : Nat) (eb : Int) : Nat :=
  let k := 12 + Nat.log2 mb
  (roundTo .rna false (ma * 2 ^ k / mb) (ea - eb - k) (ma * 2 ^ k % mb != 0) 0).1

/-- Whether a finite value differs from code × scale. -/
def quantInexact (v s : FpVal) (code : Int) : Bool :=
  !eqVal v (mulExact (.fin (decide (code < 0)) code.natAbs 0) s)

/-- `quantise` of R64 with a finite scale that is not negative: an 8-bit code. -/
def quantise (v s : FpVal) (pol : Policy) : ConvRes :=
  match v, s with
  | .nan _, _ => if pol = .trap then .trap else .ok { bits := 0, flags := flInvalid }
  | .inf n, _ => policyInt 8 (-127) 127 pol n
  | .fin n ma ea, .fin _ mb eb =>
    if mb = 0 then .ok { bits := 0, flags := if ma = 0 then 0 else flInexact }
    else
      let q := min 127 (rnaQuot ma ea mb eb)
      let c : Int := if n then -(q : Int) else q
      .ok { bits := toTwos 8 c, flags := if quantInexact v s c then flInexact else 0 }
  | .fin .., _ => .ok { bits := 0, flags := flInvalid }

/-- A scale that `vqnt.s` does not take: NaN, infinite, or negative other than −0 (R196). -/
def badScale : FpVal → Bool
  | .fin n m _ => n && m != 0
  | _ => true

/-- round(v × s, f, mode) of a reconstructed code; a NaN scale, or ∞ × 0, gives the canonical NaN with INVALID (R197).
A zero has the sign of the product of IEEE 754, the model's choice (log entry 60). -/
def dequant (f : Fmt) (mode : RMode) (v : Int) (s : FpVal) : FpRes :=
  let p := mulExact (.fin (decide (v < 0)) v.natAbs 0) s
  if isNan p then fpNan f flInvalid else roundVal f mode p

end Sys2Proof.Machine
end

