-- ==== Sys2Proof/Machine/Priv.lean ====
section
/-! DEFINITION. The privileged instructions over wait states, teams, queues, saved contexts and privileged registers
(R322–R331), and the fault queue (R309). -/

namespace Sys2Proof.Machine

/-- A privileged word (R128, R325): an illegal encoding outside foreman mode. -/
def privWord (h : Hd) (s : State) (eff : State → Eff) : Out :=
  if foreman s then runEff s h eff else .next (fatalHere s fIllegal)

/-- A status written to D (R326). -/
def giveStatus (d : Reg) (code : Nat) (s : State) : Eff := .done (wr s d (BitVec.ofNat 64 code))

/-! ## Wait state (R322) -/

/-- WAITST and WAITOBJ of an engine of a core. -/
def waitState (s : State) (core : Nat) (g : Eng) : Word × Word :=
  let c := coreAt s core
  if 320 ≤ core ∨ c.tid = 0x3FF then (BitVec.ofNat 64 (0x3FF * 2 ^ 22), 0)
  else
    let t := teamAt s c.tid
    let w : Wait := if t.st = .running then (engSt c g).wait else { kind := 13, since := t.stopped % 2 ^ 32 }
    (BitVec.ofNat 64 (w.since * 2 ^ 32 + c.tid * 2 ^ 22 + w.detail % 256 * 2 ^ 8 + w.kind), BitVec.ofNat 64 w.obj)

def execWsrd (h : Hd) (d a : Reg) (imm : W32) (s : State) : Out :=
  privWord h s fun s =>
    let p := waitState s (rd s a).toNat (engOfNum (imm.toNat % 4))
    .done (wrN (wr s d p.1) (d.toNat + 1) p.2)

/-! ## Teams (R327, R328) -/

/-- Whether a number names a live team that commands may name (R303, R326). -/
def liveTeam (s : State) (tid : Nat) : Bool := decide (tid < 0x3FE) && (teamAt s tid).st != .free

/-- Whether a halt of a team has ended, whatever the team became (R327). -/
def haltOver (s : State) (tid : Nat) : Bool := !((teamAt s tid).st == .halting) && (teamAt s tid).halt.isNone

/-- `team.halt` modes 0 and 2: the request at issue, then a wait for the halt to end. -/
def haltWord (h : Hd) (d a : Reg) (ends : TState) (s : State) : Out :=
  let first := !(curEng s).issued
  privWord h s fun s =>
    let tid := (rd s a).toNat
    if !first then (if haltOver s tid then giveStatus d 0 s else .stall 0 0 0 (beginHalt s tid))
    else if !liveTeam s tid then giveStatus d 1 s
    else
      let st := (teamAt s tid).st
      if ends == .held && st == .halted then giveStatus d 0 (askHalt s tid .held false true)
      else if st == .running || (ends == .held && st == .halting) then
        .stall 0 0 0 (beginHalt (askHalt s tid ends false true) tid)
      else giveStatus d 2 s

def execTeamHalt (h : Hd) (d a : Reg) (s : State) : Out := haltWord h d a .halted s
def execTeamHold (h : Hd) (d a : Reg) (s : State) : Out := haltWord h d a .held s

/-- The KILLED record of a team (R307, R308). -/
def killedRec (s : State) (tid : Nat) : FRec :=
  let t := teamAt s tid
  { cls := 0, code := 0x10, tid := tid, queue := t.queue, slot := t.slot, ctx := t.ctx, part := t.part, info := tid, tick := s.tick }

def execTeamKill (h : Hd) (d a : Reg) (s : State) : Out :=
  privWord h s fun s =>
    let tid := (rd s a).toNat
    if !liveTeam s tid then giveStatus d 1 s
    else
      let t := teamAt s tid
      giveStatus d 0 (failContext (holdFault s (killedRec s tid)) t.part t.ctx)

/-- `team.resume` (R328). -/
def resumeWord (h : Hd) (d a : Reg) (skip : Bool) (s : State) : Out :=
  privWord h s fun s =>
    let tid := (rd s a).toNat
    if !liveTeam s tid then giveStatus d 1 s
    else
      match (teamAt s tid).st with
      | .held => if skip then giveStatus d 4 s else giveStatus d 0 (upTeam s tid (fun t => { t with st := .halted }))
      | .trapped => giveStatus d 0 (resumeTrapped s tid skip)
      | _ => giveStatus d 2 s

def execTeamResumeReexec (h : Hd) (d a : Reg) (s : State) : Out := resumeWord h d a false s
def execTeamResumeSkip (h : Hd) (d a : Reg) (s : State) : Out := resumeWord h d a true s

/-! ## Queues (R329) -/

/-- Whether a flush of the queue is still under way. -/
def flushing (s : State) (q : Nat) : Bool := ((queueAt s q).rcd.map (fun r => r.flush.isSome)).getD false

def flushWord (h : Hd) (d a : Reg) (mode : Nat) (s : State) : Out :=
  let first := !(curEng s).issued
  privWord h s fun s =>
    let q := (rd s a).toNat
    if !first then
      let s := finishFlush (sweepTeams s) q
      if flushing s q then .stall 0 0 0 s else giveStatus d 0 s
    else if 256 ≤ q ∨ (queueAt s q).st = .disabled then giveStatus d 3 s
    else if (queueAt s q).st = .parked ∨ (queueAt s q).st = .destroying then giveStatus d 2 s
    else
      let s := flushQueue s q mode
      if flushing s q then .stall 0 0 0 s else giveStatus d 0 s

def execQFlushFinish (h : Hd) (d a : Reg) (s : State) : Out := flushWord h d a 0 s
def execQFlushDiscard (h : Hd) (d a : Reg) (s : State) : Out := flushWord h d a 1 s

/-- `q.reset`; a flush under way on the queue ends first (R333). -/
def resetWord (h : Hd) (d a : Reg) (restart : Bool) (s : State) : Out :=
  privWord h s fun s =>
    let q := (rd s a).toNat
    if 256 ≤ q ∨ (queueAt s q).st = .disabled then giveStatus d 3 s
    else if (queueAt s q).st = .active ∨ (queueAt s q).st = .destroying then giveStatus d 2 s
    else
      let s := finishFlush (sweepTeams s) q
      if flushing s q then .stall 0 0 0 s
      else if restart then
        if ((queueAt s q).rcd.map (fun r => r.parked)).getD false then giveStatus d 0 (resetRestart s q) else giveStatus d 2 s
      else giveStatus d 0 (resetContinue s q)

def execQResetContinue (h : Hd) (d a : Reg) (s : State) : Out := resetWord h d a false s
def execQResetRestart (h : Hd) (d a : Reg) (s : State) : Out := resetWord h d a true s

/-! ## Saved contexts (R330) -/

/-- The image part that a command names: its team and cores, or the status. -/
def imagePart (s : State) (tid addr m : Nat) : Except Nat (Team × List Core) :=
  let t := teamAt s tid
  if !liveTeam s tid then .error 1
  else if !(t.st == .halted || t.st == .held || t.st == .trapped) then .error 2
  else
    match t.image with
    | none => .error 2
    | some l =>
      if addr / 2 ^ 48 ≠ 0xFFFE ∨ addr % 4096 ≠ 0 ∨ 2 ^ 23 < addr % 2 ^ 48 + (if m = 16 then headerSize else coreImageSize) ∨
         (m ≠ 16 ∧ l.length ≤ m) then .error 4
      else .ok (t, l)

/-- Where a part of a saved team's image lies in the context area (R311). -/
def partPlace (t : Team) (m : Nat) : Nat := t.islot * imageSize + if m = 16 then 0 else headerSize + coreImageSize * m

/-- The blocks of `n` bytes from a location that fail their check, by number from there on. -/
def failedFrom (s : State) (k n : Nat) : List Nat := (List.range (n / 64)).filter (fun i => badByte s (k + 64 * i))

/-- BADIMAGE for a copy in which blocks failed their check, the first at `addr` (R310, R330). -/
def badCopy (d : Reg) (addr blocks : Nat) (s : State) : Eff :=
  giveStatus d 5 (holdReport s { cls := 2, code := 1, addr := addr, len := 64 * blocks, tick := s.tick })

/-- `ctx.save`: the part's bytes into the Foreman pair store, once its blocks have passed their checks. -/
def execCtxSave (h : Hd) (d a b : Reg) (imm : W32) (s : State) : Out :=
  let m := imm.toNat % 32
  privWord h s fun s =>
    match imagePart s (rd s a).toNat (rd s b).toNat m with
    | .error x => giveStatus d x s
    | .ok (t, l) =>
      let ps := if m = 16 then headerPieces t else corePieces t (l.getD m {})
      let n := if m = 16 then headerSize else coreImageSize
      let k := pairBase + (rd s b).toNat % 2 ^ 48
      let keys := (List.range n).map (fun i => k + i)
      match failedFrom s (ctxBase + partPlace t m) n with
      | i :: r => badCopy d (s.ctxHandle * 2 ^ 48 + partPlace t m + 64 * i) (r.length + 1) s
      | [] => giveStatus d 0 (newChecks (wrBytes s ((List.range n).map (fun i => (k + i, pieceByte ps i)))) keys)

/-- `ctx.rest`: the issuing core's own stores there perform first, since it reads after them at the pair store (R97, R98);
then the checks of R330, then the copy. -/
def execCtxRest (h : Hd) (d a b : Reg) (imm : W32) (s : State) : Out :=
  let m := imm.toNat % 32
  privWord h s fun s =>
    match imagePart s (rd s a).toNat (rd s b).toNat m with
    | .error x => giveStatus d x s
    | .ok (t, l) =>
      let n := if m = 16 then headerSize else coreImageSize
      let k := pairBase + (rd s b).toNat % 2 ^ 48
      let tid := (rd s a).toNat
      let s := performIn s s.cur.core (fun j => decide (k ≤ j ∧ j < k + n))
      match failedFrom s k n with
      | i :: l => badCopy d ((rd s b).toNat + 64 * i) (l.length + 1) s
      | [] =>
        let byte (o : Nat) : Byte := rdByte s (k + o)
        if m = 16 then
          if headerImageOk byte then giveStatus d 0 (upTeam s tid (fun t => readBars byte t)) else giveStatus d 5 s
        else if coreImageOk byte then
          giveStatus d 0 (upTeam s tid (fun x => { x with image := some (l.set m (readCore byte t (l.getD m {}))) }))
        else giveStatus d 5 s

/-! ## Privileged registers (R323, R324, R331) -/

def fqcfg (s : State) : Word := BitVec.ofNat 64 (s.fqBase * 2 ^ 12 + s.fqLost * 16 + s.fqLog)

def privReg (s : State) (sel idx : Nat) : Option Word :=
  match sel with
  | 0x010 => some (fqcfg s)
  | 0x011 => some (BitVec.ofNat 64 (s.fqAcked * 2 ^ 32 + s.fqWritten))
  | 0x020 => some (if liveTeam s idx then teamst s idx else 0)
  | 0x021 => some (if liveTeam s idx then BitVec.ofNat 64 (teamAt s idx).overrun else 0)
  | 0x030 => some (BitVec.ofNat 64 (s.ctxHandle * 2 ^ 48 + s.ctxSlots))
  | _ => none

/-- A write of a privileged register under its access rules (R6, R323). -/
def writePriv (s : State) (sel idx : Nat) (v : Word) : State :=
  match sel with
  | 0x010 =>
    let n := v.toNat % 16
    { s with fqBase := v.toNat / 2 ^ 12, fqLog := if n = 1 ∨ 13 ≤ n then s.fqLog else n, fqLost := 0, fqWritten := 0, fqAcked := 0 }
  | 0x011 => if ackOk s.fqAcked s.fqWritten (v.toNat / 2 ^ 32) then { s with fqAcked := v.toNat / 2 ^ 32 } else s
  | 0x021 => if liveTeam s idx then upTeam s idx (fun t => { t with overrun := v.toNat }) else s
  | _ => s

def execPrd (h : Hd) (d a : Reg) (imm : W32) (s : State) : Out :=
  let sel := imm.toNat % 2 ^ 12
  if (privReg s sel 0).isSome then
    privWord h s fun s => .done (wr s d ((privReg s sel (rd s a).toNat).getD 0))
  else .next (fatalHere s fIllegal)

def execPwr (h : Hd) (d a b : Reg) (imm : W32) (s : State) : Out :=
  let sel := imm.toNat % 2 ^ 12
  if (privReg s sel 0).isSome then
    privWord h s fun s => giveStatus d 0 (writePriv s sel (rd s a).toNat (rd s b))
  else .next (fatalHere s fIllegal)

/-! ## The fault queue (R308, R309) -/

/-- The 64 bytes of a fault record of phase `ph` (R308). -/
def frecBytes (r : FRec) (ph : Nat) : List Byte :=
  leBytes 4 (ph * 2 ^ 31 + r.cls * 2 ^ 24 + r.code) ++ leBytes 2 r.tid ++ leBytes 2 r.core ++ leBytes 1 r.eng ++ leBytes 1 r.queue ++
  leBytes 2 r.slot ++ leBytes 1 r.ctx ++ leBytes 1 r.part ++ leBytes 2 r.lanes ++ leBytes 8 r.textaddr ++ leBytes 12 r.word ++
  leBytes 4 r.info ++ leBytes 8 r.addr ++ leBytes 4 r.len ++ leBytes 4 0 ++ leBytes 8 r.tick

/-- The oldest held record written into the ring where it has room; a record that waits at its source takes the free
place (R309). -/
def writeFault (s : State) : State :=
  match s.fqHeld with
  | [] => s
  | r :: _ =>
    let n := 2 ^ s.fqLog
    if faultRoom s then
      let ph := 1 - s.fqWritten / n % 2
      let s := devWrite s (devWho 4 0) (s.fqBase * 2 ^ 12 + 64 * (s.fqWritten % n)) (frecBytes r ph)
      { s with fqHeld := s.fqHeld.drop 1 ++ s.fqWait.take 1, fqWait := s.fqWait.drop 1, fqWritten := (s.fqWritten + 1) % 2 ^ 32 }
    else s

def execFaultRecordWrite (s : State) : Out := .next (writeFault s)

end Sys2Proof.Machine
end

