-- ==== Sys2Proof/Machine/Regions.lean ====
section
/-! DEFINITION. Lode regions: creating, writing, sealing, remapping and destroying them (R376–R381), where their tiles
lie (R378), and what changes the health report (R386, R394). -/

namespace Sys2Proof.Machine

/-! ## Descriptors of firmware commands -/

/-- The bytes of a firmware command's descriptor, read at module scope under the privileged table (R332). -/
def fwDesc (s : State) (a : Reg) (n : Nat) : Option (List Byte) := devRead s (devWho 4 0) (rd s a).toNat n
/-- The merging fills that the read of a descriptor makes (R88). -/
def fwFill (s : State) (a : Reg) (n : Nat) : State := fillRun s (devWho 4 0) (rd s a).toNat n
def dNat (l : List Byte) (off n : Nat) : Nat := leNat ((l.drop off).take n)

/-- Whether a partition exists: it holds some of every resource of R373. -/
def partExists (s : State) (p : Nat) : Bool :=
  let has (m : SMap Nat) (n : Nat) : Bool := (List.range n).any (fun i => SMap.get 7 m i == p)
  decide (p < 4) && has s.own.cg 4 && has s.own.sp 4 && has s.own.ch 4 && has s.own.su 4 && has s.own.fw 16

/-! ## Regions -/

def regionAt (s : State) (n : Nat) : Option Region := SMap.get none s.regions n
def setRegion (s : State) (n : Nat) (r : Option Region) : State := { s with regions := SMap.set none s.regions n r }

def regEsize (r : Region) : Nat := if r.rtype = 0xB then 1 else 2
/-- Rows of a page in row layout (R378). -/
def rowsPerPage (r : Region) : Nat := 16384 / (r.ncols * regEsize r)
/-- Bytes of one row of a region as WRITE gives it (R379). -/
def regRowBytes (r : Region) : Nat := if r.layout = 0 then 1024 * r.ncols else r.ncols * regEsize r
def regRows (r : Region) : Nat := if r.layout = 0 then 128 * r.nrows else r.nrows
/-- The tile of a code, or the page of a row (R378). -/
def regTile (r : Region) (row byte : Nat) : Nat := if r.layout = 0 then r.ncols * (row / 128) + byte / 1024 else row / rowsPerPage r
/-- How many tiles or row pages a region has. -/
def regTiles (r : Region) : Nat := if r.layout = 0 then r.ncols * r.nrows else (r.nrows + rowsPerPage r - 1) / rowsPerPage r
def regPages (r : Region) : Nat := if r.layout = 0 then r.planes else 1
def regKey (row byte : Nat) : Nat := 65536 * row + byte

/-- The stacks of a mask in ascending order. -/
def stacksOf (mask : Nat) : List Nat := (List.range 8).filter (fun i => mask / 2 ^ i % 2 == 1)

/-- Whether a partition owns every stack of a region (R374). -/
def stacksOwned (s : State) (part : Nat) (r : Region) : Bool := (stacksOf r.smask).all (fun x => SMap.get 7 s.own.sp (x / 2) == part)

/-- An array plane among all (R383, R384). -/
def planeKey (stack die plane : Nat) : Nat := (stack * 8 + die) * 128 + plane

/-- The stack, array die and array plane of a tile or row page (R378). -/
def tilePlace (r : Region) (n : Nat) : Nat × Nat × Nat :=
  let l := stacksOf r.smask
  let a := n / l.length % 1024
  (l.getD (n % l.length) 0, a % 8, a / 8)

/-- The block that holds page `p` of a tile: the one reserved for it, or one that the controller has chosen. -/
def pageBlock (num : Nat) (r : Region) (tile p : Nat) : Nat :=
  let m := SMap.get 0 r.map (8 * tile + p)
  if m = 0 then Config.placeBlock num (8 * tile + p) % 8192 else m - 1

/-- The number of a block among all (R382). -/
def blockKey (stack die plane blk : Nat) : Nat := ((stack * 8 + die) * 128 + plane) * 8192 + blk

def blockAt (s : State) (k : Nat) : Block := SMap.get {} s.blocks k
def upBlock (s : State) (k : Nat) (f : Block → Block) : State := { s with blocks := SMap.set {} s.blocks k (f (blockAt s k)) }

/-- How long the module has run (R382). -/
def poweredAge (s : State) : Nat := s.aged

/-- A region with a failed tile or row page, or a row whose scale is lost, is degraded (R380, R381). -/
def isDegraded (r : Region) : Bool := !r.failed.isEmpty || !r.noScale.isEmpty

/-- Bit-planes 0 to FASTN − 1 lie in fast blocks, of row layout all or none (R377). -/
def isFast (r : Region) (plane : Nat) : Bool := decide (plane < r.fastn)

/-- The regions that HEALTH counts as degraded (R394). -/
def degradedCount (s : State) : Nat :=
  (s.regions.filter (fun p => match p.2 with | some r => isDegraded r | none => false)).length

/-- EVENT.HEALTH is set where a change of state has changed what HEALTH reports (R395). -/
def noteHealth (old s : State) : State := if degradedCount old = degradedCount s then s else signalEvent s 2

/-- A tile or row page marked failed (R381). -/
def markFailed (s : State) (num tile : Nat) : State :=
  match regionAt s num with
  | some r => noteHealth s (setRegion s num (some { r with failed := SMap.set false r.failed tile true }))
  | none => s

/-! ## Creating (R377) -/

/-- The limits of a region descriptor. -/
def createOk (l : List Byte) : Bool :=
  let planes := dNat l 4 1
  let fast := dNat l 5 1
  let ty := dNat l 7 1
  let rows := dNat l 8 4
  let cols := dNat l 12 2
  decide (dNat l 0 2 < 4096) && decide (dNat l 2 1 < 4) && dNat l 6 1 != 0 && decide (dNat l 14 1 ≤ 1) && dNat l 15 49 == 0 &&
  (match dNat l 3 1 with
   | 0 => decide (1 ≤ planes ∧ planes ≤ 8) && decide (fast ≤ planes) && ty == 0 && decide (1 ≤ rows ∧ rows ≤ 65535) &&
          decide (1 ≤ cols ∧ cols ≤ 64)
   | 1 => planes == 0 && decide (fast ≤ 1) && (ty == 1 || ty == 2 || ty == 0xB) && decide (1 ≤ rows ∧ rows ≤ 2 ^ 24) &&
          decide (1 ≤ cols ∧ cols ≤ if ty = 0xB then 16384 else 8192)
   | _ => false)

def createRegion (l : List Byte) : Region :=
  { part := dNat l 2 1, layout := dNat l 3 1, planes := dNat l 4 1, fastn := dNat l 5 1, smask := dNat l 6 1, rtype := dNat l 7 1,
    nrows := dNat l 8 4, ncols := dNat l 12 2, soft := dNat l 14 1 == 1 }

/-! ## Blocks of an array plane (R377, R378, R385) -/

/-- The spare blocks of an array plane: 2 % of 8,192 (R385). -/
def spareBlocks : Nat := 163
/-- The pages of an array plane by its raw capacity: 8 TiB over 8,192 planes, 16 KiB a page (R1, R18). -/
def planePages : Nat := 65536
/-- The most pages of a block that a report can name (R387). -/
def blockRoom : Nat := 256

/-- The blocks of an array plane that hold pages of a region, or copies of pages of its row-scale table. -/
def regionBlocks (stack die plane : Nat) (r : Region) : List Nat :=
  r.map.filterMap (fun q => if tilePlace r (q.1 / 8) = (stack, die, plane) then some (q.2 - 1) else none) ++
  r.smap.filterMap (fun q => if (q.2 - 1) / 8192 = (stack * 8 + die) * 128 + plane then some ((q.2 - 1) % 8192) else none)

/-- The blocks of an array plane that some region has. -/
def usedBlocks (s : State) (stack die plane : Nat) : List Nat :=
  s.regions.flatMap (fun p => match p.2 with | some r => regionBlocks stack die plane r | none => [])

/-- A free block of an array plane: which one is the controller's choice (R378). -/
def freeBlock (s : State) (stack die plane start : Nat) : Option Nat :=
  let used := usedBlocks s stack die plane
  ((List.range 8192).map (fun i => (start + i) % 8192)).find? (fun b =>
    !used.contains b && !(blockAt s (blockKey stack die plane b)).retired)

/-- How many blocks of an array plane are free. -/
def freeCount (s : State) (stack die plane : Nat) : Nat :=
  let used := usedBlocks s stack die plane
  ((List.range 8192).filter (fun b => !used.contains b && !(blockAt s (blockKey stack die plane b)).retired)).length

/-- How many spare blocks an array plane has left (R385). -/
def spareLeft (s : State) (stack die plane : Nat) : Nat := spareBlocks - SMap.get 0 s.spares (planeKey stack die plane)

/-- A free block that a region may have: the plane's spares, and one block for refreshes to write into, are held back (R385). -/
def freshBlock (s : State) (stack die plane start : Nat) : Option Nat :=
  if spareLeft s stack die plane + 1 < freeCount s stack die plane then freeBlock s stack die plane start else none

/-- The blocks of the region that have room for another page of the tile's plane and kind, fast or dense. -/
def roomyBlocks (s : State) (r : Region) (n p : Nat) : List Nat :=
  let x := tilePlace r n
  let l := (r.map.filter (fun q => tilePlace r (q.1 / 8) == x && isFast r (q.1 % 8) == isFast r p)).map (fun q => q.2 - 1)
  l.filter (fun b => decide (l.count b < blockRoom) && !(blockAt s (blockKey x.1 x.2.1 x.2.2 b)).retired)

/-- A block reserved for page `p` of a tile: a free one, else one of the region's own with room. -/
def reservePage (num : Nat) (s : State) (n p : Nat) : State :=
  match regionAt s num with
  | none => s
  | some r =>
    let l := tilePlace r n
    match (match freshBlock s l.1 l.2.1 l.2.2 (Config.freeWord s.free).toNat with | some b => some b | none => (roomyBlocks s r n p).head?) with
    | some b => setRegion { s with free := s.free + 1 } num (some { r with map := SMap.set 0 r.map (8 * n + p) (b + 1) })
    | none => { s with free := s.free + 1 }

/-- The pages of the row-scale table, 4,096 scales each. -/
def scaleTables (r : Region) : Nat := (regRows r + 4095) / 4096

/-- The place of copy `i` of a page of the row-scale table on a stack. -/
def scaleKey (g stack i : Nat) : Nat := (g * 8 + stack) * 2 + i

/-- Plane group of an array plane (R383). -/
def groupKey (stack die plane : Nat) : Nat := (stack * 8 + die) * 8 + plane / 16

/-- The array dies and planes of a stack where a copy of a scale page can lie, from a start that the controller chooses: not on the die
of the other copy, and in no plane group that is retired (R377, R386). -/
def scalePlaces (s : State) (r : Region) (key stack start : Nat) : List (Nat × Nat) :=
  let other := SMap.get 0 r.smap (key / 2 * 2 + (1 - key % 2))
  ((List.range 1024).map (fun j => ((start + j) % 1024 % 8, (start + j) % 1024 / 8))).filter (fun p =>
    (other == 0 || (other - 1) / 2 ^ 20 % 8 != p.1) && !SMap.get false s.deadGroups (groupKey stack p.1 p.2))

/-- A copy of a page of the row-scale table placed in a fast block of a stack: the two copies lie on different array dies. -/
def reserveScale (num : Nat) (s : State) (g stack i : Nat) : State :=
  match regionAt s num with
  | none => s
  | some r =>
    let key := scaleKey g stack i
    let x := (Config.freeWord s.free).toNat
    let s := { s with free := s.free + 1 }
    if SMap.get 0 r.smap key ≠ 0 then s
    else
      match (scalePlaces s r key stack x).findSome? (fun p => (freshBlock s stack p.1 p.2 (x / 1024)).map (fun b => blockKey stack p.1 p.2 b + 1)) with
      | some k => setRegion s num (some { r with smap := SMap.set 0 r.smap key k })
      | none => s

/-- The copies of some pages of a region's row-scale table reserved, where they are missing. -/
def reserveScales (s : State) (num : Nat) (r : Region) (pages : List Nat) : State :=
  pages.foldl (fun s g => (stacksOf r.smask).foldl (fun s st => reserveScale num (reserveScale num s g st 0) g st 1) s) s

/-- The blocks of a region's pages and of its row-scale table reserved (R377). -/
def reserveBlocks (s : State) (num : Nat) (r : Region) : State :=
  reserveScales ((List.range (regTiles r)).foldl (fun s n => (List.range (regPages r)).foldl (fun s p => reservePage num s n p) s) s)
    num r (List.range (scaleTables r))

/-- Whether every page of a region, and both copies of each page of its row-scale table on each of its stacks, have a block. -/
def allReserved (r : Region) : Bool :=
  (List.range (regTiles r)).all (fun n => (List.range (regPages r)).all (fun p => SMap.get 0 r.map (8 * n + p) != 0)) &&
  (List.range (scaleTables r)).all (fun g => (stacksOf r.smask).all (fun st =>
    SMap.get 0 r.smap (scaleKey g st 0) != 0 && SMap.get 0 r.smap (scaleKey g st 1) != 0))

/-- How many pages of a region an array plane holds, copies of scale pages among them (R377, R378). -/
def pagesOn (r : Region) (l : Nat × Nat × Nat) : Nat :=
  regPages r * ((List.range (regTiles r)).filter (fun n => tilePlace r n == l)).length +
  (r.smap.filter (fun q => (q.2 - 1) / 8192 == planeKey l.1 l.2.1 l.2.2)).length

/-- The most pages that an array plane holds among those where a region lies, that region's own included. -/
def planeLoad (s : State) (r : Region) : Nat :=
  let places := ((List.range (min (regTiles r) 8192)).map (tilePlace r)).eraseDups
  (places.map (fun l => (s.regions.map (fun p => match p.2 with | some q => pagesOn q l | none => 0)).sum + pagesOn r l)).foldl max 0

/-- The pages that an array plane surely holds: one in each block that is neither a spare nor held back for refreshes. -/
def surePages : Nat := 8192 - spareBlocks - 1

/-- Whether free blocks do not suffice for a region (R376), `r'` being the region as its blocks have been reserved: surely not beyond the
raw capacity (R1, R18), nor where a page or a copy of a scale page has found no block; surely while each page can have a block of its own;
how many pages a block holds, and so what happens between the two, is not stated. -/
def noSpace (s : State) (r r' : Region) : Bool :=
  let n := planeLoad s r
  if planePages < n || !allReserved r' then true else if n ≤ surePages then false else Config.freeBit s.free

/-- `lreg` CREATE (R377). -/
def execLregCreate (h : Hd) (d a : Reg) (opx : BitVec 4) (s : State) : Out :=
  privWord h s fun s =>
    if opx ≠ 0 then giveStatus d 4 s
    else let s := fwFill s a 64; match fwDesc s a 64 with
    | none => giveStatus d 4 s
    | some l =>
      let sts := stacksOf (dNat l 6 1)
      let n := dNat l 0 2
      let r := createRegion l
      if !createOk l then giveStatus d 4 s
      else if (regionAt s n).isSome then giveStatus d 0x112 s
      else if sts.any (fun x => decide (stackCount s ≤ x)) then giveStatus d 0x117 s
      else if sts.any (fun x => SMap.get 7 s.own.sp (x / 2) != dNat l 2 1) then giveStatus d 0x118 s
      else
        let t := reserveBlocks (setRegion { s with free := s.free + 1 } n (some r)) n r
        if noSpace s r ((regionAt t n).getD r) then giveStatus d 0x113 { s with free := t.free } else giveStatus d 0 t

/-! ## Losing and moving pages (R381, R385–R387) -/

/-- The LODEECC report of a tile or row page (R387): `blk` is the block of the first page concerned. -/
def eccRec (s : State) (num : Nat) (r : Region) (n reason plane pages blk : Nat) : FRec :=
  let p := tilePlace r n
  let pg := Config.placeBlock num (8 * n + plane) / 8192 % blockRoom
  let loc := p.1 * 2 ^ 39 + p.2.1 * 2 ^ 36 + p.2.2 * 2 ^ 29 + blk % 2 ^ 13 * 2 ^ 16 + pg * 2 ^ 8
  { cls := 2, code := 6, info := num * 2 ^ 20 + reason * 2 ^ 16 + (if r.layout = 0 then plane * 2 ^ 8 else n / 2 ^ 16 % 256),
    addr := (if r.layout = 0 then n / r.ncols * 2 ^ 48 + n % r.ncols * 2 ^ 42 else n % 2 ^ 16 * 2 ^ 48) + loc, len := 16384 * pages, tick := s.tick }

/-- The LODEECC report of a page of the row-scale table: the row tile or row page of its first row, and the place of the copy at block
`key` (R387; log entry 33). -/
def scaleRec (s : State) (num : Nat) (r : Region) (g key reason : Nat) : FRec :=
  let x := eccRec s num r (regTile r (4096 * g) 0) reason 0 1 0
  { x with addr := x.addr / 2 ^ 42 * 2 ^ 42 + (key / 2 ^ 20 % 2 ^ 6 * 2 ^ 36 + key / 2 ^ 13 % 128 * 2 ^ 29 + key % 2 ^ 13 * 2 ^ 16) }

/-- The rows whose scales a page of the row-scale table holds. -/
def tableRows (r : Region) (g : Nat) : List Nat := ((List.range 4096).map (fun i => 4096 * g + i)).filter (fun x => decide (x < regRows r))

/-- Rows whose scales cannot be read from any copy (R381). -/
def loseRows (r : Region) (rows : List Nat) : Region := { r with noScale := SMap.setAll false r.noScale (rows.map (fun x => (x, true))) }

/-- The pages that a block holds: region, tile or row page, and bit-plane; a copy of a page of the row-scale table has 8 for its
bit-plane, and its place in the table for its tile (R377). -/
def blockPages (s : State) (stack die plane blk : Nat) : List (Nat × Nat × Nat) :=
  s.regions.flatMap (fun p =>
    match p.2 with
    | none => []
    | some r =>
      (((List.range (regTiles r)).filter (fun n => tilePlace r n == (stack, die, plane))).flatMap (fun n =>
        ((List.range (regPages r)).filter (fun i => pageBlock p.1 r n i == blk)).map (fun i => (p.1, n, i)))) ++
      ((r.smap.filter (fun q => q.2 == blockKey stack die plane blk + 1)).map (fun q => (p.1, q.1, 8))))

/-- A tile marked failed with a report of Shoring's for a number of its pages (R387). -/
def loseTile (s : State) (num tile reason plane pages : Nat) : State :=
  match regionAt s num with
  | some r => holdReport (markFailed s num tile) (eccRec s num r tile reason plane pages (pageBlock num r tile plane))
  | none => s

/-- A copy of a page of the row-scale table lost, with a report; with the stack's other copy gone too, so are the scales (R381). -/
def loseCopy (s : State) (reason num key : Nat) : State :=
  match regionAt s num with
  | some r =>
    let k := SMap.get 0 r.smap key
    if k = 0 then s
    else
      let r' := { r with smap := SMap.set 0 r.smap key 0 }
      let r' := if SMap.get 0 r.smap (key / 2 * 2 + (1 - key % 2)) = 0 then loseRows r' (tableRows r (key / 16)) else r'
      holdReport (noteHealth s (setRegion s num (some r'))) (scaleRec s num r (key / 16) (k - 1) reason)
  | none => s

/-- Each tile of a list of pages marked failed once, and each copy of a scale page gone. -/
def losePages (s : State) (reason : Nat) (l : List (Nat × Nat × Nat)) : State :=
  let s := (l.filter (fun p => p.2.2 == 8)).foldl (fun s p => loseCopy s reason p.1 p.2.1) s
  let l := l.filter (fun p => p.2.2 != 8)
  ((l.map (fun p => (p.1, p.2.1))).eraseDups).foldl (fun s t =>
    let ps := l.filter (fun p => p.1 == t.1 && p.2.1 == t.2)
    loseTile s t.1 t.2 reason ((ps.map (fun p => p.2.2)).headD 0) ps.length) s

/-- Pages moved into a block of their array plane. -/
def movePages (s : State) (stack die plane blk : Nat) (l : List (Nat × Nat × Nat)) : State :=
  l.foldl (fun s p =>
    match regionAt s p.1 with
    | some r =>
      setRegion s p.1 (some (if p.2.2 = 8 then { r with smap := SMap.set 0 r.smap p.2.1 (blockKey stack die plane blk + 1) }
        else { r with map := SMap.set 0 r.map (8 * p.2.1 + p.2.2) (blk + 1) }))
    | none => s) s

/-- A block that an array plane loses, with a spare for it where one is left (R385). -/
def spareFor (s : State) (stack die plane blk : Nat) : State :=
  let s := upBlock s (blockKey stack die plane blk) (fun b => { b with retired := true })
  { s with spares := SMap.set 0 s.spares (planeKey stack die plane) (min spareBlocks (SMap.get 0 s.spares (planeKey stack die plane) + 1)) }

/-! ## Writing and remapping (R379, R380) -/

/-- The fields of a WRITE or REMAP descriptor. -/
structure WriteDesc where
  region : Nat
  first : Nat
  count : Nat
  src : Nat
  pitch : Nat
  scales : Nat
  deriving DecidableEq, Repr

def writeDesc (l : List Byte) : Option WriteDesc :=
  if dNat l 2 2 = 0 ∧ dNat l 12 4 = 0 ∧ dNat l 40 24 = 0 ∧ 1 ≤ dNat l 8 4 ∧ dNat l 32 8 % 4 = 0 then
    some { region := dNat l 0 2, first := dNat l 4 4, count := dNat l 8 4, src := dNat l 16 8, pitch := dNat l 24 8, scales := dNat l 32 8 }
  else none

/-- A source byte's physical location: kinds `dram` and `const` alone. -/
def srcKey (s : State) (addr : Nat) : Option Nat :=
  match htAt s 4 0 (addr / 2 ^ 48) with
  | some e =>
    if e.kind = 1 ∨ e.kind = 5 then
      match xlateByte s (devWho 4 0) .r false addr with
      | .ok k => if isRemote k then none else some k
      | .error _ => none
    else none
  | none => none

/-- The device address of byte `b` of written row `i`, none where the sum leaves the handle. -/
def srcAddr (w : WriteDesc) (i b : Nat) : Nat := w.src + w.pitch * i + b
def scaleAddr (w : WriteDesc) (i b : Nat) : Nat := w.scales + 4 * i + b

/-- The rows a descriptor names: the first and their number. -/
def writtenRows (r : Region) (w : WriteDesc) : Nat × Nat := if r.layout = 0 then (128 * w.first, 128 * w.count) else (w.first, w.count)

/-- Whether every source byte can be reached. -/
def sourcesOk (s : State) (r : Region) (w : WriteDesc) : Bool :=
  let n := (writtenRows r w).2
  decide (w.src % 2 ^ 48 + w.pitch * (n - 1) + regRowBytes r ≤ 2 ^ 48) && decide (w.scales % 2 ^ 48 + 4 * n ≤ 2 ^ 48) &&
  (List.range n).all (fun i =>
    (List.range (regRowBytes r)).all (fun b => (srcKey s (srcAddr w i b)).isSome) &&
    (List.range 4).all (fun b => (srcKey s (scaleAddr w i b)).isSome))

/-- The device addresses of a descriptor's sources, row by row. -/
def srcBytes (r : Region) (w : WriteDesc) : List Nat :=
  (List.range (writtenRows r w).2).flatMap (fun i =>
    (List.range (regRowBytes r)).map (srcAddr w i) ++ (List.range 4).map (scaleAddr w i))

/-- The locations of a descriptor's sources. -/
def srcKeys (s : State) (r : Region) (w : WriteDesc) : List Nat := (srcBytes r w).filterMap (srcKey s)

/-- The device address of the first source byte whose block fails its check. -/
def firstBad (s : State) (r : Region) (w : WriteDesc) : Option Nat :=
  (srcBytes r w).find? (fun x => badByte s ((srcKey s x).getD 0))

/-- A stored code keeps its first PLANES planes (R52, R379). -/
def keepPlanes (r : Region) (b : Byte) : Byte := if r.layout = 0 then b &&& ~~~(BitVec.ofNat 8 (2 ^ (8 - r.planes) - 1)) else b

/-- The region with the named rows of some tiles or row pages written. A row's scale is written with the first of its tiles. -/
def writeRows (s : State) (r : Region) (w : WriteDesc) (tiles : List Nat) : Region :=
  let row0 := (writtenRows r w).1
  (List.range (writtenRows r w).2).foldl (fun r i =>
    let here (b : Nat) : Bool := tiles.contains (regTile r (row0 + i) b)
    let r := (List.range (regRowBytes r)).foldl (fun r b =>
      if here b then { r with data := SMap.set 0 r.data (regKey (row0 + i) b) (keepPlanes r (rdByte s ((srcKey s (srcAddr w i b)).getD 0))) }
      else r) r
    let ks := (List.range 4).map (fun b => (srcKey s (scaleAddr w i b)).getD 0)
    if here 0 then
      { r with scales := SMap.set 0 r.scales (row0 + i) (BitVec.ofNat 32 (leNat (ks.map (rdByte s)))),
               noScale := SMap.set false r.noScale (row0 + i) false }
    else r) r

/-- The tiles or row pages that hold the named rows. -/
def namedTiles (r : Region) (w : WriteDesc) : List Nat :=
  let rows := writtenRows r w
  (List.range (regTiles r)).filter (fun n =>
    if r.layout = 0 then decide (w.first ≤ n / r.ncols ∧ n / r.ncols < w.first + w.count)
    else decide (rows.1 ≤ n * rowsPerPage r + (rowsPerPage r - 1) ∧ n * rowsPerPage r < rows.1 + rows.2))

/-- A block whose program failed: it is retired, and a spare takes its place with the pages it held; with none left they are lost
(R385). -/
def retireBlock (s : State) (stack die plane blk : Nat) : State :=
  let pages := blockPages s stack die plane blk
  let left := spareLeft s stack die plane
  let s := spareFor s stack die plane blk
  match (if left = 0 then none else freeBlock s stack die plane (Config.freeWord s.free).toNat) with
  | some new => movePages { s with free := s.free + 1 } stack die plane new pages
  | none => losePages { s with free := s.free + 1 } 4 pages

/-- A page programmed: into a fresh block where `fresh` says so. Whether its program fails is the outside's affair (R385). -/
def programPage (num : Nat) (fresh : Bool) (s : State) (n p : Nat) : State :=
  let s := if fresh then reservePage num s n p else s
  let fails := Config.freeBit s.free
  let s := { s with free := s.free + 1 }
  match regionAt s num with
  | none => s
  | some r =>
    let l := tilePlace r n
    let s := if fails then retireBlock s l.1 l.2.1 l.2.2 (pageBlock num r n p) else s
    let r := (regionAt s num).getD r
    upBlock s (blockKey l.1 l.2.1 l.2.2 (pageBlock num r n p)) (fun b => { b with disturb := 0, retries := 0, born := poweredAge s })

def programTiles (num : Nat) (fresh : Bool) (s : State) (r : Region) (tiles : List Nat) : State :=
  tiles.foldl (fun s n => (List.range (regPages r)).foldl (fun s p => programPage num fresh s n p) s) s

/-- The named rows of some tiles or row pages written into the region `r`, and the copies of their scale pages placed where they are
missing. -/
def writeNamed (s : State) (r : Region) (w : WriteDesc) (tiles : List Nat) : State :=
  let rows := writtenRows r w
  let t := noteHealth s (setRegion s w.region (some (writeRows s r w tiles)))
  reserveScales t w.region r (((List.range rows.2).map (fun i => (rows.1 + i) / 4096)).eraseDups)

/-- What keeps a WRITE or REMAP from running, `isSealed` the state the region must be in and `wrong` the status where it is not. -/
def writeRefusal (s : State) (w : WriteDesc) (isSealed : Bool) (wrong : Nat) : Option Nat :=
  match regionAt s w.region with
  | none => some 0x111
  | some r =>
    if r.isSealed != isSealed then some wrong
    else if r.nrows < w.first + w.count || !sourcesOk s r w then some 4
    else none

/-- BADIMAGE: source blocks fail their check, the first at x. They are reported, and nothing is written (R326, R379). -/
def giveBadImage (d : Reg) (r : Region) (w : WriteDesc) (x : Nat) (s : State) : Eff :=
  let blocks := (((srcBytes r w).filter (fun x => badByte s ((srcKey s x).getD 0))).map (fun x => x / 64)).eraseDups.length
  giveStatus d 5 (holdReport s { cls := 2, code := 1, info := 2, addr := x / 64 * 64, len := 64 * blocks, tick := s.tick })

/-- `lreg` WRITE (R379). -/
def execLregWrite (h : Hd) (d a : Reg) (s : State) : Out :=
  privWord h s fun s =>
    let s := fwFill s a 64
    match (fwDesc s a 64).bind writeDesc with
    | none => giveStatus d 4 s
    | some w =>
      match writeRefusal s w false 0x114, regionAt s w.region with
      | some st, _ => giveStatus d st s
      | none, none => giveStatus d 0x111 s
      | none, some r =>
        match firstBad s r w with
        | some x => giveBadImage d r w x s
        | none =>
          let s := fillReads s (srcKeys s r w)
          giveStatus d 0 (programTiles w.region false (writeNamed s r w (namedTiles r w)) r (namedTiles r w))

/-- One tile or row page rewritten into fresh blocks, and its new mapping published with its failed mark cleared (R380). -/
def remapTile (s : State) (w : WriteDesc) (n : Nat) : State :=
  match regionAt s w.region with
  | none => s
  | some r =>
    let r' := { r with failed := SMap.set false r.failed n false, gen := SMap.set 0 r.gen n (SMap.get 0 r.gen n + 1) }
    programTiles w.region true (writeNamed s r' w [n]) r [n]

/-- The REMAP under way carried on: the tiles named are published one by one, the last of them as the word completes (R380). -/
def remapOn (d : Reg) (w : WriteDesc) (l : List Byte) (i : Nat) (s : State) : Eff :=
  match regionAt s w.region with
  | none => giveStatus d 0x111 s
  | some r =>
    let tiles := namedTiles r w
    let s := remapTile s w (tiles.getD i (regTiles r))
    if i + 1 < tiles.length then .stall 0 0 0 (upCur s (fun c => { c with lreg := some (l, i + 1) }))
    else giveStatus d 0 (upCur s (fun c => { c with lreg := none }))

/-- Whether another core's REMAP of the region is under way: operations act on its map one at a time (R385). -/
def lregBusy (s : State) (num : Nat) : Bool :=
  s.cores.any (fun p => p.1 != s.cur.core && (match p.2.lreg with | some (l, _) => dNat l 0 2 == num | none => false))

/-- `lreg` REMAP (R380). -/
def execLregRemap (h : Hd) (d a : Reg) (s : State) : Out :=
  privWord h s fun s =>
    match (curCore s).lreg with
    | some (l, i) => (match writeDesc l with | some w => remapOn d w l i s | none => giveStatus d 4 s)
    | none =>
      let s := fwFill s a 64
      match fwDesc s a 64 with
      | none => giveStatus d 4 s
      | some l =>
        match writeDesc l with
        | none => giveStatus d 4 s
        | some w =>
          match writeRefusal s w true 0x115, regionAt s w.region with
          | some st, _ => giveStatus d st s
          | none, none => giveStatus d 0x111 s
          | none, some r =>
            match firstBad s r w with
            | some x => giveBadImage d r w x s
            | none => if lregBusy s w.region then .stall 0 0 0 s else remapOn d w l 0 (fillReads s (srcKeys s r w))

/-! ## Sealing and destroying (R379) -/

/-- The region that a SEAL or DESTROY descriptor names. -/
def regionDesc (l : List Byte) : Option Nat := some (dNat l 0 2)

def execLregSeal (h : Hd) (d a : Reg) (s : State) : Out :=
  privWord h s fun s =>
    let s := fwFill s a 64
    match (fwDesc s a 64).bind regionDesc with
    | none => giveStatus d 4 s
    | some n =>
      match regionAt s n with
      | none => giveStatus d 0x111 s
      | some r => giveStatus d 0 (setRegion s n (some { r with isSealed := true }))

/-- Whether a Lode command already issued acts on the region (R379). -/
def regionInUse (s : State) (n : Nat) : Bool := s.cores.any (fun p => p.2.qd.any (fun x => x.arg == n + 1))

def execLregDestroy (h : Hd) (d a : Reg) (s : State) : Out :=
  privWord h s fun s =>
    let s := fwFill s a 64
    match (fwDesc s a 64).bind regionDesc with
    | none => giveStatus d 4 s
    | some n =>
      if (regionAt s n).isNone then giveStatus d 0x111 s
      else if s.ht.any (fun p => match p.2 with | some e => e.kind == 4 && e.base == n | none => false) then giveStatus d 0x116 s
      else if regionInUse s n || lregBusy s n then .stall 0 0 0 s
      else giveStatus d 0 (noteHealth s (setRegion s n none))

end Sys2Proof.Machine
end

