-- ==== Sys2Proof/Machine/Lode.lean ====
section
/-! DEFINITION. Lode commands: latch loads (R252), sense waves and page reads (R254–R256, R382–R384), drains (R71, R257),
indexed reduces (R258) and status (R259). -/

namespace Sys2Proof.Machine

/-! ## Stacks (R251, R252, R254) -/

def stackAt (s : State) (n : Nat) : LStack := SMap.get {} s.lode n
def setStack (s : State) (n : Nat) (x : LStack) : State := { s with lode := SMap.set {} s.lode n x }
def slotAt (s : State) (st n : Nat) : LSlot := SMap.get {} (stackAt s st).slots n
def upSlot (s : State) (st n : Nat) (f : LSlot → LSlot) : State :=
  setStack s st { stackAt s st with slots := SMap.set {} (stackAt s st).slots n (f (slotAt s st n)) }
def latchAt (s : State) (st v : Nat) : LEntry := SMap.get {} (stackAt s st).latch v

/-- The code of a vector at a column; codes at or beyond LEN read as 0. -/
def latchCode (e : LEntry) (col : Nat) : Int := if col < e.len then codeVal (SMap.get 0 e.codes col).toNat else 0

/-- 40-bit saturation (R70). -/
def slotLim : Int := 2 ^ 39 - 1
def slotClamp (x : Int) : Int := max (-slotLim) (min slotLim x)

def lodeWho (s : State) (core : Nat) : Who := whoCore s core .h .lode

/-! ## Issue -/

/-- What a `lode` handle gives at issue: 1 + the region, and a status where it names none that is sealed (R254, R379). -/
def regionOf (s : State) (w : Who) (addr : Nat) : Nat × Nat :=
  match htAt s w.part w.ctx (addr / 2 ^ 48 % 65536) with
  | none => (0, stXlate)
  | some e =>
    if e.kind ≠ 4 then (0, stRefused)
    else if addr % 2 ^ 48 ≠ 0 then (0, stBadcmd)
    else match regionAt s e.base with
      | none => (0, stXlate)
      | some r => if r.isSealed then (e.base + 1, 0) else (0, stBadcmd)

/-- A command with the region that an address names. -/
def withRegion (s : State) (addr : Nat) (c : Cmd) : Cmd :=
  let p := regionOf s (lodeWho s s.cur.core) addr
  { c with arg := p.1, arg2 := p.2 }

def lodeWord (op : CmdOp) (n : Nat) (h : Hd) (d a b e : Reg) (imm : W32) (more : State → Cmd → Cmd) (s : State) : Out :=
  runEff s h fun s => issueCmd s (newCmd s op d a b e imm) n (fun _ => .lode) more id

def execLodeAct (h : Hd) (d a : Reg) (imm : W32) (s : State) : Out := lodeWord .act 32 h d a 0 0 imm (fun _ c => c) s

/-- `lode.sacc`: `k` holds K, `pairs` the vector mask, `ring` and `tag` as always; the slot lies in `flags` only once
results are reported, so it is kept with the mask as 256 × slot + mask. -/
def execLodeSacc (h : Hd) (kk : BitVec 4) (q : Bool) (d a b e : Reg) (imm : W32) (s : State) : Out :=
  lodeWord .sacc 0 h d a b e imm (fun s c =>
    { withRegion s c.ra.toNat c with
      k := kk.toNat, mid := q, pairs := imm.toNat / 2 ^ 24 % 4 * 256 + imm.toNat / 2 ^ 16 % 256,
      stamp := if imm.toNat / 2 ^ 31 = 1 then some c.re.toNat else none }) s

def execLodeDrain (h : Hd) (d a : Reg) (imm : W32) (s : State) : Out :=
  lodeWord .drain 64 h d a 0 0 imm (fun s c => withRegion s (dI c 0 8) c) s
def execLodeDrainRaw (h : Hd) (d a : Reg) (imm : W32) (s : State) : Out :=
  lodeWord .drainRaw 64 h d a 0 0 imm (fun s c => withRegion s (dI c 0 8) c) s
def execLodeIred (h : Hd) (d a : Reg) (imm : W32) (s : State) : Out :=
  lodeWord .ired 64 h d a 0 0 imm (fun s c => withRegion s (dI c 0 8) c) s
def execLodeStat (h : Hd) (d a : Reg) (imm : W32) (s : State) : Out :=
  lodeWord .stat 0 h d a 0 0 imm (fun s c => { withRegion s c.ra.toNat c with k := imm.toNat / 2 ^ 16 % 4 }) s

def cmdRegion (s : State) (c : Cmd) : Option Region := if c.arg = 0 then none else regionAt s (c.arg - 1)

/-! ## Computed writes of the Lode and the links -/

/-- An address moved on by `o` bytes, within its handle. -/
def addOff (base o : Nat) : Except Stop Nat :=
  if 2 ^ 48 ≤ base % 2 ^ 48 + o then .error { status := stXlate, fcode := 2 } else .ok (base + o)

/-- Values to write in order: those before the first stop, with their locations. -/
def resolvePuts (s : State) (w : Who) : List (Except Stop Nat × List Byte) → Nat → List (List Nat × List Byte) × Option Stop
  | [], _ => ([], none)
  | (a, d) :: r, q =>
    match (match a with | .ok x => engKeys s w true x d.length | .error e => .error e) with
    | .error e => ([], some { e with findex := q })
    | .ok ks => let p := resolvePuts s w r (q + 1); ((ks, d) :: p.1, p.2)

/-- The device address of the `i`-th value of a list of writes. -/
def putAddr (l : List (Except Stop Nat × List Byte)) (i : Nat) : Nat :=
  match l[i]? with
  | some (.ok a, _) => a
  | _ => 0

/-- Computed values written, with new checks (R94), up to the first stop. -/
def putAll (s : State) (w : Who) (l : List (Except Stop Nat × List Byte)) : State × Option Stop × Nat :=
  let r := resolvePuts s w l 0
  let keys := (r.1.flatMap (fun p => p.1)).filter (fun k => decide (k < mapBase))
  let bad := (badWrite s keys).map (fun k => (r.1.findIdx (fun p => p.1.contains k), k))
  let done := match bad with | some x => r.1.take x.1 | none => r.1
  let s := noteAll s w ((l.take done.length).flatMap (fun p => match p.1 with | .ok a => [(true, a)] | .error _ => []))
  let s' := newChecks (done.foldl (fun s p => engWrs s (p.1.zip p.2)) s) ((done.flatMap (fun p => p.1)).filter (fun k => decide (k < mapBase)))
  (s', (match bad with
       | some x => some { status := stE2e, e2e := 2, findex := x.1, addr := putAddr l x.1 + ((r.1.getD x.1 ([], [])).1.idxOf x.2) }
       | none => r.2), done.length)

/-- Whether one of a list of values to write lies in a window of the on-chip map that is out of scope: the command then moves
nothing (R85). -/
def putsOutside (s : State) (w : Who) (base : Nat) (l : List (Except Stop Nat × Nat)) : Bool :=
  base / 2 ^ 48 == 0xFFFF && l.any (fun p => outOfScope s w true p.2 p.1)

/-- What keeps a drain or reduce from writing to a destination: it may be the scratchpad, a register window, `dram` or `tensor`
(R85, R109, R257); `l` lists what it writes with the sizes. -/
def drainDst (s : State) (w : Who) (addr : Nat) (l : List (Except Stop Nat × Nat)) : List (Bool × Nat) :=
  let win := addr / 2 ^ 48 == 0xFFFF
  [(!win && !sideKindOk s w true addr, stRefused), (unshadowed s w addr, stUnshadowed),
   ((win && decide (0x28000000 ≤ addr % 2 ^ 48)) || putsOutside s w addr l, stMapscope)]

/-- A source of `lode.act` and of index lists: `dram`, `const`, `tensor` or the scratchpad (R252). -/
def lodeSrcBad (s : State) (w : Who) (addr : Nat) : Bool := addr / 2 ^ 48 == 0xFFFF || !sideKindOk s w false addr

/-! ## `lode.act` (R252, R253) -/

def actStacks (c : Cmd) : List Nat := stacksOf (dI c 30 1)

def actRefusal (s : State) (w : Who) (c : Cmd) : Option Nat :=
  let ok := decide (dI c 16 8 < 2 ^ 48) && decide (dI c 24 4 < 65536) && decide (1 ≤ dI c 29 1 ∧ dI c 28 1 + dI c 29 1 ≤ 8) &&
    dI c 30 1 != 0 && dI c 31 1 == 0 && dI c 8 8 % 4 == 0
  worst [(!ok, stBadcmd), ((actStacks c).any (fun x => decide (stackCount s ≤ x)), stAbsent),
    (lodeSrcBad s w (dI c 0 8) || lodeSrcBad s w (dI c 8 8) ||
      (!w.fore && (actStacks c).any (fun x => SMap.get 7 s.own.sp (x / 2) != w.part)), stRefused)]

/-- One vector's codes and scale. -/
def actVector (s : State) (w : Who) (c : Cmd) (v : Nat) : Except Stop LEntry :=
  let n := dI c 24 4 + 1
  match (match addOff (dI c 0 8) (dI c 16 8 * v) with | .ok a => engBytes s w a n | .error e => .error e),
        (match addOff (dI c 8 8) (4 * v) with | .ok a => engBytes s w a 4 | .error e => .error e) with
  | .error e, _ => .error { e with findex := v }
  | _, .error e => .error { e with findex := v }
  | .ok l, .ok sc => .ok { len := n, codes := SMap.tab 0 n (fun i => l.getD i 0), scale := BitVec.ofNat 32 (leNat sc) }

def actVectors (s : State) (w : Who) (c : Cmd) : Except Stop (List LEntry) :=
  (List.range (dI c 29 1)).foldr (fun v (r : Except Stop (List LEntry)) =>
    match actVector s w c v, r with
    | .error e, _ => .error e
    | .ok _, .error e => .error e
    | .ok x, .ok l => .ok (x :: l)) (.ok [])

/-- Whether a wave that has begun on one of the stacks has not ended (R253). -/
def waveOn (s : State) (sts : List Nat) : Bool :=
  s.cores.any (fun p => p.2.qd.any (fun x => x.op == .sacc && x.started && x.done.isNone &&
    (match cmdRegion s x with | some r => (stacksOf r.smask).any (fun st => sts.contains st) | none => false)))

/-- `lode.act` (R252). COUNT holds the codes loaded, over every vector and stack (R239, and ring record 0 of R293's program). -/
def runAct (s : State) (core : Nat) (c : Cmd) : State :=
  let w := lodeWho s core
  match actRefusal s w c with
  | some st => finishCmd s core .lode { status := st }
  | none =>
    if waveOn s (actStacks c) then s
    else match actVectors s w c with
    | .error x => finishCmd (stopReport s core 2 x) core .lode (resOf x 0)
    | .ok es =>
      let s := noteAll s w ((List.range es.length).flatMap (fun v =>
        (List.range ((dI c 24 4 + 128) / 128)).map (fun i => (false, dI c 0 8 + dI c 16 8 * v + 128 * i)) ++
        [(false, dI c 0 8 + dI c 16 8 * v + dI c 24 4), (false, dI c 8 8 + 4 * v)]))
      let s := (actStacks c).foldl (fun s st =>
        let k := stackAt s st
        setStack s st { k with latch := SMap.setAll {} k.latch ((List.range es.length).map (fun v => (dI c 28 1 + v, es.getD v {}))) }) s
      finishCmd s core .lode { count := (dI c 24 4 + 1) * dI c 29 1 * (actStacks c).length }

/-! ## Page reads (R255, R256, R381–R384) -/

/-- A wave's rectangle (R254): first column tile, column tiles, first row tile, row tiles. -/
structure Rect where
  c0 : Nat
  nc : Nat
  r0 : Nat
  nr : Nat
  deriving DecidableEq, Repr

def rectOf (c : Cmd) : Rect :=
  if c.op = .sacc then
    let x := c.rb.toNat
    { c0 := x / 2 ^ 32 % 256, nc := x / 2 ^ 40 % 256, r0 := x % 2 ^ 16, nr := x / 2 ^ 16 % 256 }
  else { c0 := dI c 36 2, nc := dI c 38 2, r0 := dI c 32 2, nr := dI c 34 2 }

def rectTiles (r : Region) (x : Rect) : List Nat :=
  (List.range x.nr).flatMap (fun i => (List.range x.nc).map (fun j => r.ncols * (x.r0 + i) + (x.c0 + j)))

/-- The lists of an indexed reduce that step 1 has read: bag offsets and indices. -/
def irNbags (c : Cmd) : Nat := dI c 32 4
def irOff (c : Cmd) (b : Nat) : Nat := dI c (64 + 4 * b) 4
def irIdx (c : Cmd) (q : Nat) : Nat := dI c (64 + 4 * (irNbags c + 1) + 4 * q) 4

/-- The row pages a reduce reads, each once. -/
def irPages (r : Region) (c : Cmd) : List Nat :=
  (((List.range (irOff c (irNbags c))).filter (fun q => decide (irOff c 0 ≤ q ∧ irIdx c q < r.nrows))).map
    (fun q => irIdx c q / rowsPerPage r)).eraseDups

/-- The tiles or row pages a command reads, and how many planes of each. -/
def readUnits (r : Region) (c : Cmd) : List Nat × Nat :=
  match c.op with
  | .sacc => (rectTiles r (rectOf c), c.k)
  | .drainRaw => (rectTiles r (rectOf c), dI c 40 1)
  | .ired => (irPages r c, 1)
  | _ => ([], 1)

/-- A property of the command's region, where its handle names one. -/
def ofRegion (r : Option Region) (f : Region → Bool) : Bool := match r with | some r => f r | none => false

/-- What a wave is refused for (R254). -/
def saccRefusals (r : Option Region) (c : Cmd) : List (Bool × Nat) :=
  let x := rectOf c
  let v := c.rb.toNat
  let ok := v / 2 ^ 48 == 0 && v / 2 ^ 24 % 256 == 0 && decide (1 ≤ x.nc ∧ x.c0 + x.nc ≤ 64) && decide (1 ≤ x.nr ∧ x.nr ≤ 64)
  [(!ok || ofRegion r (fun r => r.layout != 0), stBadcmd), (ofRegion r (fun r => r.layout == 0 && decide (r.planes < c.k)), stPlanes)]

/-- The addresses of a `.raw` drain's words, in the NBI operand layout (R222, R257): region row, chunk of 32 columns, plane. -/
def rawCells (c : Cmd) : List (Nat × Nat × Nat) :=
  let x := rectOf c
  (List.range (128 * x.nr)).flatMap (fun i => (List.range (32 * x.nc)).flatMap (fun ch => (List.range (dI c 40 1)).map (fun p => (i, ch, p))))
def rawAddr (c : Cmd) (p : Nat × Nat × Nat) : Except Stop Nat :=
  addOff (dI c 8 8) (16 * dI c 28 4 * (dI c 40 1 * p.2.1 + p.2.2) + dI c 24 4 * p.1)
def rawScaleAddr (c : Cmd) (i : Nat) : Except Stop Nat := addOff (dI c 16 8) (4 * i)

/-- What a `.raw` drain is refused for (R257). -/
def rawRefusals (s : State) (w : Who) (r : Option Region) (c : Cmd) : List (Bool × Nat) :=
  let x := rectOf c
  let k := dI c 40 1
  let ok := decide (1 ≤ x.nc ∧ x.nc ≤ 64) && decide (1 ≤ x.nr) && decide (1 ≤ k ∧ k ≤ 8) && dI c 41 1 == 0 && dI c 42 22 == 0 &&
    dI c 24 4 % 4 == 0
  [(!ok || ofRegion r (fun r => r.layout != 0), stBadcmd), (ofRegion r (fun r => r.layout == 0 && decide (r.planes < k)), stPlanes)] ++
  drainDst s w (dI c 8 8) ((rawCells c).map (fun p => (rawAddr c p, 4))) ++
  (if dI c 16 8 = 0 then [] else drainDst s w (dI c 16 8) ((List.range (128 * x.nr)).map (fun i => (rawScaleAddr c i, 4))))

/-- The vectors and rows that a drain writes, in order, and where (R257). -/
def drainVecs (c : Cmd) : List Nat := (List.range 8).filter (fun v => dI c 40 1 / 2 ^ v % 2 == 1)
def drainCells (c : Cmd) : List (Nat × Nat) :=
  (drainVecs c).flatMap (fun v => (List.range (128 * dI c 34 2)).map (fun i => (v, i)))
def drainAddr (c : Cmd) (x : Nat × Nat) : Except Stop Nat := addOff (dI c 8 8) (dI c 24 4 * x.1 + 4 * x.2)

/-- What a drain is refused for (R257). -/
def drainRefusals (s : State) (w : Who) (r : Option Region) (c : Cmd) : List (Bool × Nat) :=
  let nr := dI c 34 2
  let ok := dI c 16 8 == 0 && dI c 24 4 % 4 == 0 && dI c 28 4 == 0 && decide (1 ≤ nr ∧ nr ≤ 64) && dI c 36 4 == 0 &&
    dI c 40 1 != 0 && decide (dI c 41 1 ≤ 3) && dI c 42 22 == 0
  (!ok || ofRegion r (fun r => r.layout != 0), stBadcmd) :: drainDst s w (dI c 8 8) ((drainCells c).map (fun x => (drainAddr c x, 4)))

/-! ### Indexed reduces (R258) -/

/-- Step 1: the bag offsets and the index list read, each once. -/
def iredEntry (s : State) (w : Who) (base i : Nat) : Except Stop (List Byte) :=
  match addOff base (4 * i) with
  | .error e => .error { e with fstep := 1, findex := i }
  | .ok a => match engBytes s w a 4 with
    | .error e => .error { e with fstep := 1, findex := i }
    | .ok l => .ok l

def iredList (s : State) (w : Who) (base n : Nat) : Except Stop (List Byte) :=
  (List.range n).foldr (fun i (r : Except Stop (List Byte)) =>
    match iredEntry s w base i, r with
    | .error e, _ => .error e
    | .ok _, .error e => .error e
    | .ok b, .ok l => .ok (b ++ l)) (.ok [])

/-- Entry `b` of an offset list. -/
def offAt (o : List Byte) (b : Nat) : Nat := leNat ((o.drop (4 * b)).take 4)

/-- Offsets that decrease, or that pass the extent of the index list. -/
def badOffsets (s : State) (w : Who) (c : Cmd) (o : List Byte) : Bool :=
  let ext := match htAt s w.part w.ctx (dI c 8 8 / 2 ^ 48) with | some e => e.ext | none => 2 ^ 26
  (List.range (irNbags c)).any (fun b => decide (offAt o (b + 1) < offAt o b)) || decide (ext < dI c 8 8 % 2 ^ 48 + 4 * offAt o (irNbags c))

def iredLists (s : State) (w : Who) (c : Cmd) : Except Stop (List Byte) :=
  match iredList s w (dI c 16 8) (irNbags c + 1) with
  | .error e => .error e
  | .ok o =>
    match iredList s w (dI c 8 8) (offAt o (irNbags c)) with
    | .error e => .error e
    | .ok l => .ok (o ++ l)

/-- The bags and elements that a reduce writes, in order, and where. -/
def iredCells (c : Cmd) : List (Nat × Nat) := (List.range (irNbags c)).flatMap (fun b => (List.range (dI c 44 4)).map (fun e => (b, e)))
def iredSize (c : Cmd) : Nat := if dI c 48 1 = 1 then 2 else 4
def iredAddr (c : Cmd) (x : Nat × Nat) : Except Stop Nat := addOff (dI c 24 8) (dI c 36 4 * x.1 + iredSize c * x.2)

/-- What an indexed reduce is refused for; its offsets are looked at where they can be read (R258). -/
def iredRefusals (s : State) (w : Who) (r : Option Region) (c : Cmd) : List (Bool × Nat) :=
  let ok := decide (1 ≤ irNbags c ∧ irNbags c ≤ 65535) && decide (1 ≤ dI c 44 4 ∧ dI c 44 4 ≤ 4096) && decide (dI c 48 1 ≤ 1) && dI c 49 15 == 0
  let srcs := lodeSrcBad s w (dI c 8 8) || lodeSrcBad s w (dI c 16 8)
  [(!ok || ofRegion r (fun r => r.layout != 1 || decide (r.ncols < dI c 40 4 + dI c 44 4)) ||
      (!srcs && (match iredList s w (dI c 16 8) (irNbags c + 1) with | .ok o => badOffsets s w c o | .error _ => false)), stBadcmd),
   (srcs, stRefused)] ++ drainDst s w (dI c 24 8) ((iredCells c).map (fun x => (iredAddr c x, iredSize c)))

/-- Whether the tiles or rows that a command names lie beyond its region (R254, R257). -/
def beyondRegion (r : Region) (c : Cmd) : Bool :=
  match c.op with
  | .sacc | .drainRaw => let x := rectOf c; decide (r.nrows < x.r0 + x.nr ∨ r.ncols < x.c0 + x.nc)
  | .drain => decide (r.nrows < dI c 32 2 + dI c 34 2)
  | _ => false

/-- The refusals of a command of the Lode queue: those of its region, whose stacks the partition must own (R374), and those of its fields and destinations. -/
def lodeRefusals (s : State) (core : Nat) (c : Cmd) : List (Bool × Nat) :=
  let w := lodeWho s core
  let r := cmdRegion s c
  (r.isNone && c.arg2 != 0 && c.arg2 != stXlate, c.arg2) :: (!w.fore && ofRegion r (fun r => !stacksOwned s w.part r), stRefused) ::
  (match c.op with
   | .sacc => saccRefusals r c
   | .drain => drainRefusals s w r c
   | .drainRaw => rawRefusals s w r c
   | .ired => if c.started then [] else iredRefusals s w r c
   | _ => [])

/-- Why a command of the Lode queue is refused, the highest code first, or stopped at its start; refusals stand above the walk
statuses XLATE and RANGE (R240). -/
def lodeRefusal (s : State) (core : Nat) (c : Cmd) : Option Nat :=
  match worst (lodeRefusals s core c) with
  | some st => some st
  | none =>
    match cmdRegion s c with
    | none => some stXlate
    | some r => if beyondRegion r c then some stRange else none

def disturbLimit (fast : Bool) : Nat := if fast then 1048576 else 262144
/-- A tick reserved for a plane group (R383). -/
def reservedTick (tick die plane : Nat) : Bool := tick % 64 == 8 * (plane / 16) + die

/-- A tick in which Shoring has taken an array plane (R384). -/
def stolenTick (s : State) (stack die plane : Nat) : Bool :=
  let t := SMap.get 0 s.steals (planeKey stack die plane)
  t != 0 && decide (t ≤ s.tick ∧ s.tick < t + 10)

/-- A tile in a retired plane group that no REMAP has moved (R255, R386). -/
def tileDead (s : State) (r : Region) (n : Nat) : Bool :=
  let p := tilePlace r n
  SMap.get false s.deadGroups (groupKey p.1 p.2.1 p.2.2) && SMap.get 0 r.gen n == 0

/-- The report with the team whose command found the failure. -/
def teamReport (s : State) (core : Nat) (r : FRec) : State :=
  let c := coreAt s core
  let t := teamAt s c.tid
  holdReport s { r with tid := c.tid, core := core, queue := t.queue, slot := t.slot, ctx := t.ctx, part := t.part }

def upWave (c : Cmd) (f : Wave → Wave) : Cmd := { c with wave := f c.wave }

/-- The codes of a tile as they stand. -/
def tileCodes (r : Region) (n : Nat) : SMap Byte :=
  SMap.tab 0 131072 (fun k => SMap.get 0 r.data (regKey (128 * (n / r.ncols) + k / 1024) (1024 * (n % r.ncols) + k % 1024)))

/-- The sums of a tile's row with one vector over the planes read (R70, R254). -/
def tilePart (c : Cmd) (e : LEntry) (col0 row : Nat) : Int :=
  (List.range 1024).foldl (fun (a : Int) j =>
    let v := latchCode e (col0 + j)
    if v = 0 then a else a + planeVal (SMap.get 0 c.wave.snap (1024 * row + j)).toNat c.k c.mid * v) 0

def saccSlot (c : Cmd) : Nat := c.pairs / 256
def saccVecs (c : Cmd) : List Nat := (List.range 8).filter (fun v => c.pairs / 2 ^ v % 2 == 1)

/-- A tile added to its stack's slot (R254), with whether a sum was clamped. -/
def addTile (s : State) (r : Region) (c : Cmd) (n : Nat) : State × Bool :=
  let st := (tilePlace r n).1
  let base := 128 * (n / r.ncols - (rectOf c).r0)
  let sl := slotAt s st (saccSlot c)
  let adds := (saccVecs c).flatMap (fun v => (List.range 128).map (fun i =>
    let k := 8 * (base + i) + v
    (k, SMap.get 0 sl.acc k + tilePart c (latchAt s st v) (1024 * (n % r.ncols)) i)))
  let sat := adds.any (fun p => slotClamp p.2 != p.2)
  (upSlot s st (saccSlot c) (fun x => { x with acc := SMap.setAll 0 x.acc (adds.map (fun p => (p.1, slotClamp p.2))), sat := x.sat || sat }), sat)

/-- What a command other than a wave keeps of a tile or row page as it reads it: its bytes by their place in the region (R380). -/
def unitBytes (r : Region) (n : Nat) : SMap Byte := r.data.filter (fun p => regTile r (p.1 / 65536) (p.1 % 65536) == n)

/-- A tile of a command over: a failed one is marked and reported, and sets its bitmap bit; another is added to its
slot (R254, R255, R381). A tile that REMAP has given a new mapping since its first page was sensed is not marked (R380). -/
def endTile (s : State) (core : Nat) (r : Region) (c : Cmd) (n : Nat) : State :=
  let num := c.arg - 1
  let next (s : State) (f : Wave → Wave) : State :=
    upHead s core .lode (fun c => upWave c (fun w =>
      { f w with tile := w.tile + 1, plane := 0, failed := false, nfail := 0, first := 0,
                 snap := if c.op == .sacc then [] else w.snap }))
  let bit := n / r.ncols - (rectOf c).r0
  if c.wave.failed then
    let stale := c.wave.gen != SMap.get 0 r.gen n
    let s := teamReport (if stale then s else markFailed s num n) core
      (eccRec s num r n (c.wave.first / 8) (c.wave.first % 8) c.wave.nfail (c.wave.blks.getD (c.wave.first % 8) 0))
    match c.op with
    | .sacc =>
      let s := upSlot s (tilePlace r n).1 (saccSlot c) (fun x => { x with bm := x.bm ||| 2 ^ bit })
      next s (fun w => { w with bits := w.bits ||| 2 ^ bit })
    | .drainRaw => next s (fun w => { w with bits := if bit < 64 then w.bits ||| 2 ^ bit else w.bits, lost := SMap.set false w.lost n true })
    | _ => next s (fun w => { w with lost := SMap.set false w.lost n true })
  else if c.op = .sacc then
    let p := addTile s r c n
    next p.1 (fun w => { w with flags := w.flags ||| if p.2 then 2 else 0 })
  else next s id

/-- A sense of a wave that does not start in this tick: DEFER, counted once for the wave in its region, where Shoring is the cause
(R256, R384). The record of another command carries no DEFER. -/
def deferHead (s : State) (core : Nat) (c : Cmd) : State :=
  if c.flags % 2 = 1 ∨ c.op ≠ .sacc then s
  else
    let s := upHead s core .lode (fun c => { c with flags := c.flags ||| 1 })
    match regionAt s (c.arg - 1) with
    | some r => setRegion s (c.arg - 1) (some { r with deferred := (r.deferred + 1) % 2 ^ 32 })
    | none => s

/-- Whether the record of a command shows RETRY: of one that reads pages of tiles (R239, R255; log entry 110). -/
def showsRetry (op : CmdOp) : Bool := op == .sacc || op == .drainRaw

/-- What a sense of a page comes to: whether it was retried, whether the page fails, its reason (R387) and how many senses it took. -/
def senseOutcome (soft : Bool) (o : PageOutcome) : Bool × Bool × Nat × Nat :=
  let retry := soft && (o == .soft || o == .uncorrectable)
  (retry, o == .uncorrectable || o == .checkFailed || (o == .soft && !soft), if o = .checkFailed then 1 else 0, if retry then 3 else 1)

/-- A block sensed (R382). -/
def senseBlock (s : State) (key senses : Nat) (retry : Bool) : State :=
  upBlock s key (fun b => { b with disturb := b.disturb + senses, retries := b.retries + if retry then 1 else 0 })

/-- Whether a stamped wave that senses an array plane for the first time does so after its tick (R256). -/
def senseLate (s : State) (c : Cmd) (plane : Nat) : Bool :=
  !(SMap.get false c.wave.hit plane) && (match c.stamp with | some t => c.op == .sacc && decide (t < s.tick) | none => false)

/-- The page at the head's place sensed with an outcome (R255), in the block that the mapping of its tile's first page names (R380). -/
def sensePage (s : State) (core : Nat) (r : Region) (c : Cmd) (units : List Nat) (planes : Nat) (o : PageOutcome) : State :=
  let n := units.getD c.wave.tile 0
  let p := tilePlace r n
  let i := c.wave.plane
  let fast := if r.layout = 0 then isFast r i else r.fastn == 1
  let blks := if i = 0 then (List.range planes).map (pageBlock (c.arg - 1) r n) else c.wave.blks
  let key := blockKey p.1 p.2.1 p.2.2 (blks.getD i 0)
  if reservedTick s.tick p.2.1 p.2.2 then s
  else if stolenTick s p.1 p.2.1 p.2.2 || decide (disturbLimit fast ≤ (blockAt s key).disturb) then deferHead s core c
  else
    let x := senseOutcome r.soft o
    let fail := x.2.1
    let s := senseBlock s key x.2.2.2 x.1
    let upd (c : Cmd) : Cmd :=
      { c with started := true, flags := c.flags ||| (if x.1 && showsRetry c.op then 8 else 0) ||| (if senseLate s c (planeKey p.1 p.2.1 p.2.2) then 16 else 0),
               wave := { c.wave with plane := i + 1, blks := blks, senses := c.wave.senses + x.2.2.2, failed := c.wave.failed || fail,
                                     e2e := if o = .checkFailed then 3 else c.wave.e2e,
                                     nfail := c.wave.nfail + if fail then 1 else 0,
                                     first := if fail && !c.wave.failed then 8 * x.2.2.1 + i else c.wave.first,
                                     hit := SMap.set false c.wave.hit (planeKey p.1 p.2.1 p.2.2) true,
                                     gen := if i = 0 then SMap.get 0 r.gen n else c.wave.gen,
                                     snap := if i = 0 then (if c.op == .sacc then tileCodes r n else SMap.setAll 0 c.wave.snap (unitBytes r n))
                                             else c.wave.snap } }
    let s := upHead s core .lode upd
    if i + 1 < planes then s else endTile s core r (upd c) n

/-! ### Row scales (R377, R381) -/

/-- The rows whose scales a drain or reduce reads. -/
def scaleRows (r : Region) (c : Cmd) : List Nat :=
  match c.op with
  | .drain => (List.range (128 * dI c 34 2)).map (fun i => 128 * dI c 32 2 + i)
  | .drainRaw => if dI c 16 8 = 0 then [] else (List.range (128 * dI c 34 2)).map (fun i => 128 * dI c 32 2 + i)
  | .ired => ((List.range (irOff c (irNbags c) - irOff c 0)).map (fun i => irIdx c (irOff c 0 + i))).filter (fun x => decide (x < r.nrows))
  | _ => []

/-- The pages of the row-scale table that a drain or reduce reads, 4,096 scales each (log entry 33). -/
def scalePages (r : Region) (c : Cmd) : List Nat := ((scaleRows r c).map (fun x => x / 4096)).eraseDups

/-- How far a drain or reduce has come with them: `2 × pages read`, and 1 more where the first copy of the next has failed. -/
def scalesRead (r : Region) (c : Cmd) : Bool := decide (2 * (scalePages r c).length ≤ c.wave.plane)

/-- A copy of a scale page that a drain or reduce senses: its block's number, by the copy and stack that the controller takes. -/
def scaleCopy (s : State) (r : Region) (g copy : Nat) : Nat :=
  let l := stacksOf r.smask
  SMap.get 0 r.smap (scaleKey g (l.getD ((Config.freeWord s.free).toNat % max 1 l.length) 0) copy)

/-- The scales of a page taken by the command at the head, or those of its rows lost where neither copy can be read (R381). -/
def takeScales (s : State) (core : Nat) (r : Region) (c : Cmd) (g : Nat) (ok : Bool) : State :=
  let rows := (List.range 4096).map (fun i => 4096 * g + i)
  let s := if ok then s else setRegion s (c.arg - 1) (some (loseRows r (tableRows r g)))
  let lost := rows.filter (fun x => !ok || SMap.get false r.noScale x)
  upHead s core .lode (fun c => upWave c (fun w =>
    { w with plane := w.plane / 2 * 2 + 2, slost := SMap.setAll false w.slost (lost.map (fun x => (x, true))),
             ssnap := if ok then SMap.setAll 0 w.ssnap ((r.scales.filter (fun p => p.1 / 4096 == g))) else w.ssnap }))

/-- A copy of a scale page that a drain or reduce could not read: the other copy is read, and where neither can be the scales of its
rows are lost (R381). -/
def scaleFailed (s : State) (core : Nat) (r : Region) (c : Cmd) (g key reason : Nat) : State :=
  let s := teamReport s core (scaleRec s (c.arg - 1) r g key reason)
  if c.wave.plane % 2 = 0 then upHead s core .lode (fun c => upWave c (fun w => { w with plane := w.plane + 1 }))
  else noteHealth s (takeScales s core r c g false)

/-- A copy of a scale page sensed for a drain or reduce; a copy that is lost, or lies in a retired plane group, is not sensed (R381,
R386). -/
def readScales (s : State) (core : Nat) (r : Region) (c : Cmd) (o : PageOutcome) : State :=
  match (scalePages r c)[c.wave.plane / 2]? with
  | none => s
  | some g =>
    let k := scaleCopy s r g (c.wave.plane % 2)
    let key := k - 1
    let die := key / 2 ^ 20 % 8
    let plane := key / 2 ^ 13 % 128
    if k = 0 ∨ SMap.get false s.deadGroups (groupKey (key / 2 ^ 23) die plane) then scaleFailed { s with free := s.free + 1 } core r c g key 2
    else if reservedTick s.tick die plane || stolenTick s (key / 2 ^ 23) die plane || decide (disturbLimit true ≤ (blockAt s key).disturb) then s
    else
      let x := senseOutcome r.soft o
      let s := senseBlock { s with free := s.free + 1 } key x.2.2.2 x.1
      let s := upHead s core .lode (fun c => { c with flags := c.flags ||| if x.1 && showsRetry c.op then 8 else 0 })
      if !x.2.1 then takeScales s core r c g true else scaleFailed s core r c g key x.2.2.1

/-- Whether a wave has still to start on a stack: it has made no sense there, and holds a tile there that it is to sense (R256). -/
def toStart (s : State) (x : Cmd) (st : Nat) : Bool :=
  match cmdRegion s x with
  | none => false
  | some r =>
    !(x.wave.hit.any (fun p => p.2 && p.1 / 1024 == st)) &&
    ((readUnits r x).1.drop x.wave.tile).any (fun n => (tilePlace r n).1 == st && !(tileDead s r n || SMap.get false r.failed n))

/-- Whether an earlier wave of the same stamp has still to start on a stack, before which a stamped wave may not start there (R17,
R256). -/
def startsAfter (s : State) (c : Cmd) (st : Nat) : Bool :=
  c.op == .sacc && c.stamp.isSome && !(c.wave.hit.any (fun p => p.2 && p.1 / 1024 == st)) &&
  s.cores.any (fun p => p.2.qd.any (fun x =>
    x.op == .sacc && x.done.isNone && x.stamp == c.stamp && decide (x.ord < c.ord) && toStart s x st))

/-- One page read for the command at the head of a core's Lode queue (R255). -/
def pageRead (s : State) (core : Nat) (o : PageOutcome) : State :=
  match (coreAt s core).qd with
  | [] => s
  | c :: _ =>
    if c.done.isSome || (lodeRefusal s core c).isSome || (c.stamp.isSome && !c.started) || (c.op == .ired && !c.started) then s
    else match cmdRegion s c with
    | none => s
    | some r =>
      let u := readUnits r c
      if u.1.length ≤ c.wave.tile then readScales s core r c o
      else
        let n := u.1.getD c.wave.tile 0
        let dead := tileDead s r n
        if c.wave.plane = 0 ∧ (dead || SMap.get false r.failed n) then
          endTile (upHead s core .lode (fun c => { c with started := true })) core r
            (upWave c (fun w => { w with failed := true, nfail := u.2, first := 8 * (if dead then 5 else 2), gen := SMap.get 0 r.gen n,
                                         blks := [pageBlock (c.arg - 1) r n 0] })) n
        else if startsAfter s c (tilePlace r n).1 then s
        else sensePage s core r c u.1 u.2 o

def execLodePageRead (core : Nat) (o : PageOutcome) (s : State) : Out := .next (pageRead s core o)

/-- Whether an earlier tile of the command lies on the same array plane. -/
def seenPlane (r : Region) (l : List Nat) (i : Nat) : Bool := (l.take i).any (fun n => tilePlace r n == tilePlace r (l.getD i 0))

/-- The tiles with which a wave starts on its array planes: the first on each, none of them failed (R256, R381). -/
def firstTiles (s : State) (r : Region) (c : Cmd) : List Nat :=
  let u := (readUnits r c).1
  ((List.range u.length).filter (fun i => !seenPlane r u i)).map (fun i => u.getD i 0) |>.filter
    (fun n => !(tileDead s r n || SMap.get false r.failed n))

/-- Whether Shoring keeps a tile's first sense from starting in this tick (R384). -/
def shoringHolds (s : State) (r : Region) (c : Cmd) (n : Nat) : Bool :=
  let p := tilePlace r n
  stolenTick s p.1 p.2.1 p.2.2 ||
  decide (disturbLimit (isFast r 0) ≤ (blockAt s (blockKey p.1 p.2.1 p.2.2 (pageBlock (c.arg - 1) r n 0))).disturb)

/-- A stamped wave starts on its array planes (R256): DEFER where Shoring holds its first sense back on one of them. LATE is set by
the first sense on a plane. -/
def startWave (s : State) (core : Nat) (c : Cmd) : State :=
  match cmdRegion s c with
  | none => upHead s core .lode (fun c => { c with started := true })
  | some r =>
    let s' := upHead s core .lode (fun c => { c with started := true })
    if (firstTiles s r c).any (shoringHolds s r c) then deferHead s' core c else s'

/-- Whether two waves act on one stack. -/
def shareStack (s : State) (a b : Cmd) : Bool :=
  match cmdRegion s a, cmdRegion s b with
  | some x, some y => (stacksOf x.smask).any (fun st => (stacksOf y.smask).contains st)
  | _, _ => false

/-- Whether an earlier wave with the same stamp has still to start on one of the wave's stacks (R17, R256). -/
def waveBefore (s : State) (c : Cmd) : Bool :=
  s.cores.any (fun p => p.2.qd.any (fun x =>
    x.op == .sacc && !x.started && x.done.isNone && x.stamp == c.stamp && decide (x.ord < c.ord) && shareStack s x c))

/-- The tick reaches the stamp of the command at the head of a queue (R256, R262): a link command that starts after its stamp
is LATE. -/
def stampStart (s : State) (core : Nat) (q : QId) : State :=
  match getQ (coreAt s core) q with
  | [] => s
  | c :: _ =>
    match c.stamp with
    | some t =>
      if t ≤ s.tick ∧ !c.started ∧ c.done.isNone then
        if c.op = .sacc then (if waveBefore s c then s else startWave s core c)
        else upHead s core q (fun c => { c with started := true, stick := s.tick, flags := c.flags ||| if t < s.tick then 16 else 0 })
      else s
    | none => s

/-! ## The end of a wave (R254) -/

def runSacc (s : State) (core : Nat) (c : Cmd) (r : Region) : State :=
  if (readUnits r c).1.length ≤ c.wave.tile then
    let s := (stacksOf r.smask).foldl (fun s st =>
      upSlot s st (saccSlot c) (fun x => { x with scale := SMap.setAll 0 x.scale ((saccVecs c).map (fun v => (v, (latchAt s st v).scale))) })) s
    finishCmd s core .lode { status := if c.wave.bits = 0 then 0 else stIncomplete, count := c.wave.bits, findex := c.wave.senses,
                             flags := c.wave.flags, e2e := c.wave.e2e }
  else s

/-! ## Drains (R71, R257) -/

/-- `drain_value` of R71. -/
def drainValue (acc : Int) (srow svec : W32) : FpRes :=
  roundVal fmt32 .rne (mulExact (.fin (decide (acc < 0)) acc.natAbs 0)
    (mulExact (fpDecode fmt32 srow.toNat) (fpDecode fmt32 svec.toNat)))

/-- Whether a result is ±∞ or NaN. -/
def isExc (f : Fmt) (bits : Nat) : Bool := match fpDecode f bits with | .fin .. => false | _ => true

def runDrain (s : State) (core : Nat) (c : Cmd) (r : Region) : State :=
  if !scalesRead r c then s
  else
    let w := lodeWho s core
    let sts := stacksOf r.smask
    let slot := dI c 41 1
    let row0 := 128 * dI c 32 2
    let blocks := 2 ^ dI c 34 2 - 1
    let sum (i v : Nat) : Int := sts.foldl (fun a st => a + SMap.get 0 (slotAt s st slot).acc (8 * i + v)) 0
    let low := slotAt s (sts.headD 0) slot
    let cells := drainCells c
    let val (v i : Nat) : Nat :=
      if SMap.get false c.wave.slost (row0 + i) then 0
      else (drainValue (slotClamp (sum i v)) (SMap.get 0 c.wave.ssnap (row0 + i)) (SMap.get 0 low.scale v)).bits
    let p := putAll s w (cells.map (fun x => (drainAddr c x, leBytes 4 (val x.1 x.2))))
    let noScale := (List.range (dI c 34 2)).foldl (fun m b =>
      if (List.range 128).any (fun i => SMap.get false c.wave.slost (row0 + 128 * b + i)) then m ||| 2 ^ b else m) 0
    let count := sts.foldl (fun m st => m ||| ((slotAt s st slot).bm &&& blocks)) noScale
    let sat := sts.any (fun st => (slotAt s st slot).sat) || cells.any (fun x => slotClamp (sum x.2 x.1) != sum x.2 x.1)
    let exc := cells.any (fun x => isExc fmt32 (val x.1 x.2))
    let flags := (if sat then 2 else 0) + if exc then 4 else 0
    let drained := cells.take p.2.2
    let zero (x : LSlot) : LSlot := { x with acc := SMap.setAll 0 x.acc (drained.map (fun y => (8 * y.2 + y.1, 0))) }
    match p.2.1 with
    | some e =>
      finishCmd (sts.foldl (fun s st => upSlot s st slot zero) (stopReport p.1 core 2 e)) core .lode { resOf e count with flags := flags }
    | none =>
      let s := sts.foldl (fun s st => upSlot s st slot (fun x => { zero x with bm := x.bm - (x.bm &&& blocks), sat := false })) p.1
      finishCmd s core .lode { status := if count = 0 then 0 else stIncomplete, count := count, flags := flags }

/-- The bit of a `.raw` drain's word for one of its columns: 0 in a tile that failed (R257). -/
def rawWord (r : Region) (c : Cmd) (x : Nat × Nat × Nat) : Nat :=
  let t := rectOf c
  if SMap.get false c.wave.lost (r.ncols * (t.r0 + x.1 / 128) + (t.c0 + x.2.1 / 32)) then 0
  else (List.range 32).foldl (fun a q =>
    a + planeBit (SMap.get 0 c.wave.snap (regKey (128 * t.r0 + x.1) (1024 * t.c0 + 32 * x.2.1 + q))).toNat x.2.2 * 2 ^ q) 0

/-- The `.raw` form: words of 32 plane bits in the NBI operand layout, a failed tile's as 0, and the row scales. -/
def runRaw (s : State) (core : Nat) (c : Cmd) (r : Region) : State :=
  let x := rectOf c
  if (readUnits r c).1.length ≤ c.wave.tile ∧ scalesRead r c then
    let w := lodeWho s core
    let cells := (rawCells c).map (fun p => (rawAddr c p, leBytes 4 (rawWord r c p)))
    let row0 := 128 * x.r0
    let scs := if dI c 16 8 = 0 then [] else (List.range (128 * x.nr)).map (fun i =>
      (rawScaleAddr c i, leBytes 4 (if SMap.get false c.wave.slost (row0 + i) then 0 else (SMap.get 0 c.wave.ssnap (row0 + i)).toNat)))
    let bits := (List.range (min x.nr 64)).foldl (fun m b =>
      if dI c 16 8 ≠ 0 ∧ (List.range 128).any (fun i => SMap.get false c.wave.slost (row0 + 128 * b + i)) then m ||| 2 ^ b else m) c.wave.bits
    let p := putAll s w (cells ++ scs)
    match p.2.1 with
    | some e => finishCmd (stopReport p.1 core 2 e) core .lode { resOf e bits with e2e := if e.e2e = 0 then c.wave.e2e else e.e2e }
    | none => finishCmd p.1 core .lode { status := if bits = 0 then 0 else stIncomplete, count := bits, e2e := c.wave.e2e }
  else s

/-! ## Indexed reduces (R258) -/

/-- The value of an element of a row as the reduce has read it. -/
def rowVal (r : Region) (data : SMap Byte) (row e : Nat) : FpVal :=
  let z := regEsize r
  let x := leNat ((List.range z).map (fun i => SMap.get 0 data (regKey row (z * e + i))))
  if r.rtype = 0xB then .fin (decide (codeVal x < 0)) (codeVal x).natAbs 0 else fpDecode (if r.rtype = 1 then fmtBf else fmt16) x

/-- The exact sum of products rounded once (R258): a NaN or ∞ − ∞ gives the canonical NaN. -/
def exactSum (f : Fmt) (l : List FpVal) : Nat :=
  if l.any isNan || (l.any (fun v => v == .inf false) && l.any (fun v => v == .inf true)) then fmtNan f
  else if l.any (fun v => v == .inf false) then fmtInf f
  else if l.any (fun v => v == .inf true) then withSign f true (fmtInf f)
  else
    let base := l.foldl (fun m p => match p with | .fin _ _ e => min m e | _ => m) (0 : Int)
    let sum := l.foldl (fun a p => match p with | .fin n m e => a + finInt n m e base | _ => a) (0 : Int)
    if sum = 0 then withSign f (!l.isEmpty && l.all signOf) 0 else (roundFin f .rne (decide (sum < 0)) sum.natAbs base false).bits

def runIred (s : State) (core : Nat) (c : Cmd) (r : Region) : State :=
  let w := lodeWho s core
  if !c.started then
    match iredLists s w c with
    | .error e => finishCmd (stopReport s core 2 e) core .lode (resOf e 0)
    | .ok l =>
      let s := noteAll s w ((List.range (irNbags c + 1)).map (fun i => (false, dI c 16 8 + 4 * i)) ++
        (List.range (l.length / 4 - (irNbags c + 1))).map (fun i => (false, dI c 8 8 + 4 * i)))
      upHead s core .lode (fun c => { c with desc := c.desc ++ l, started := true })
  else if (readUnits r c).1.length ≤ c.wave.tile ∧ scalesRead r c then
    let f := if dI c 48 1 = 1 then fmtBf else fmt32
    let z := iredSize c
    let bag (b : Nat) : List Nat := (List.range (irOff c (b + 1) - irOff c b)).map (fun i => irIdx c (irOff c b + i))
    let lost (x : Nat) : Bool := decide (x < r.nrows) && (SMap.get false c.wave.lost (x / rowsPerPage r) || SMap.get false c.wave.slost x)
    let rows (b : Nat) : List Nat := (bag b).filter (fun x => decide (x < r.nrows) && !lost x)
    let val (b e : Nat) : Nat :=
      exactSum f ((rows b).map (fun x => mulExact (rowVal r c.wave.snap x (dI c 40 4 + e)) (fpDecode fmt32 (SMap.get 0 c.wave.ssnap x).toNat)))
    let cells := iredCells c
    let p := putAll s w (cells.map (fun x => (iredAddr c x, leBytes z (val x.1 x.2))))
    let flags := if cells.any (fun x => isExc f (val x.1 x.2)) then 4 else 0
    let badq := (List.range (irOff c (irNbags c) - irOff c 0)).find? (fun i => decide (r.nrows ≤ irIdx c (irOff c 0 + i)))
    let badb := (List.range (irNbags c)).find? (fun b => (bag b).any lost)
    let count := z * p.2.2
    let res : CRes := match p.2.1, badq, badb with
      | some e, _, _ => { resOf { e with fstep := 2 } count with e2e := if e.e2e = 0 then c.wave.e2e else e.e2e, flags := flags }
      | none, some q, _ => { status := stBadindex, fstep := 2, findex := irOff c 0 + q, count := count, flags := flags, e2e := c.wave.e2e }
      | none, none, some b => { status := stIncomplete, fstep := 2, findex := b, count := count, flags := flags, e2e := c.wave.e2e }
      | none, none, none => { count := count, flags := flags, e2e := c.wave.e2e }
    finishCmd (match p.2.1 with | some e => stopReport p.1 core 2 e | none => p.1) core .lode res
  else s

/-! ## Status (R259) -/

def runStat (s : State) (core : Nat) (c : Cmd) (r : Region) : State :=
  let sts := stacksOf r.smask
  let count := sts.foldl (fun m st => m ||| (slotAt s st c.k).bm) 0
  let sat := if sts.any (fun st => (slotAt s st c.k).sat) then 2 else 0
  finishCmd s core .lode
    { count := count, findex := r.deferred * 2 ^ 32 + r.planes * 2 ^ 16 + r.smask * 2 ^ 8 + sat + if isDegraded r then 1 else 0 }

/-- The command at the head of a Lode queue carried on as far as it can go. -/
def runLode (s : State) (core : Nat) (c : Cmd) : State :=
  if c.op = .act then runAct s core c
  else match lodeRefusal s core c with
  | some st => finishCmd s core .lode { status := st, fcode := if st = stXlate then 1 else 0 }
  | none =>
    match cmdRegion s c with
    | none => s
    | some r =>
      match c.op with
      | .sacc => runSacc s core c r
      | .drain => runDrain s core c r
      | .drainRaw => runRaw s core c r
      | .ired => runIred s core c r
      | .stat => runStat s core c r
      | _ => s

end Sys2Proof.Machine
end

