-- ==== Sys2Proof/Machine/Riddle.lean ====
section
/-! DEFINITION. Selectors and the issue of sequence commands (R263–R266), the Riddle: grammar images (R283, R284), steps
and masks (R278, R279), branches (R281), saving and loading (R282). -/

namespace Sys2Proof.Machine

def stReject : Nat := 0x10
def stNobranch : Nat := 0x11
def stDepth : Nat := 0x12
def stStackmem : Nat := 0x13
def stGrammar : Nat := 0x14
def stNoctx : Nat := 0x15
def stRetired : Nat := 0x16
def stStrexh : Nat := 0x17
def stPoslimit : Nat := 0x18
def stAsyill : Nat := 0x19
def stAsyloop : Nat := 0x1A
def stEmpty : Nat := 0x1B

/-! ## Selectors (R263) -/

def selUnit (x : Word) : Nat := x.toNat / 2 ^ 8 % 4
def selCtx (x : Word) : Nat := x.toNat % 64
def selBranch (x : Word) : Nat := x.toNat / 2 ^ 16 % 8

/-- The must-be-0 fields of a selector; `br` where it may name a branch. -/
def selOk (br : Bool) (x : Word) : Bool :=
  x.toNat / 2 ^ 19 == 0 && x.toNat / 2 ^ 10 % 64 == 0 && x.toNat / 2 ^ 6 % 4 == 0 && (br || selBranch x == 0)

/-- Whether a selector's unit lies outside the partition on whose behalf a command runs. -/
def selForeign (s : State) (w : Who) (x : Word) : Bool := !w.fore && SMap.get 7 s.own.su (selUnit x) != w.part

/-- What a selector is refused for. -/
def selBad (s : State) (w : Who) (br : Bool) (x : Word) : List (Bool × Nat) :=
  [(!selOk br x, stBadcmd), (selForeign s w x, stRefused)]

/-- A memory operand that a sequence unit may not use (R78, R109). -/
def seqSrcBad (s : State) (w : Who) (addr : Nat) : List (Bool × Nat) := [(lodeSrcBad s w addr, stRefused)]
def seqDstBad (s : State) (w : Who) (addr : Nat) : List (Bool × Nat) :=
  [(addr / 2 ^ 48 == 0xFFFF || !sideKindOk s w true addr, stRefused), (unshadowed s w addr, stUnshadowed)]

/-! ## The two kinds of unit -/

def asyAt (s : State) (u : Nat) : Assayer := SMap.get {} s.asys u
def asyCtx (s : State) (u c : Nat) : AsyCtx := SMap.get {} (asyAt s u).ctxs c
def upAsy (s : State) (u : Nat) (f : Assayer → Assayer) : State := { s with asys := SMap.set {} s.asys u (f (asyAt s u)) }
def setAsyCtx (s : State) (u c : Nat) (x : AsyCtx) : State := upAsy s u (fun a => { a with ctxs := SMap.set {} a.ctxs c x })
def rdlAt (s : State) (u : Nat) : Riddle := SMap.get {} s.rdls u
def rdlCtx (s : State) (u c : Nat) : RdlCtx := SMap.get {} (rdlAt s u).ctxs c
def upRdl (s : State) (u : Nat) (f : Riddle → Riddle) : State := { s with rdls := SMap.set {} s.rdls u (f (rdlAt s u)) }
def setRdlCtx (s : State) (u c : Nat) (x : RdlCtx) : State := upRdl s u (fun r => { r with ctxs := SMap.set {} r.ctxs c x })
def branchAt (x : RdlCtx) (b : Nat) : Option Branch := SMap.get none x.br b
def setBranch (x : RdlCtx) (b : Nat) (v : Option Branch) : RdlCtx := { x with br := SMap.set none x.br b v }

/-! ## What a sequence command comes to -/

/-- A command's end: the state, its status, COUNT and FINDEX, and the address of a block whose check failed. -/
structure SeqRes where
  s : State
  res : CRes := {}
  addr : Nat := 0

/-- A sequence unit on behalf of a core's team. -/
def seqWho (s : State) (core : Nat) : Who := whoCore s core .h .seq

def seqOk (s : State) (count : Nat := 0) (findex : Nat := 0) : SeqRes := { s := s, res := { count := count, findex := findex } }
def seqSt (s : State) (st : Nat) : SeqRes := { s := s, res := { status := st } }
def seqStop (s : State) (x : Stop) : SeqRes := { s := s, res := resOf x 0, addr := x.addr }

/-! ## Grammar images (R283, R284) -/

/-- A grammar image's header. -/
structure Img where
  addr : Nat
  nstates : Nat
  vocab : Nat
  start : Nat
  nclass : Nat
  offState : Nat
  offClass : Nat
  offEffect : Nat
  offDir : Nat
  offWalk : Nat
  nwalk : Nat
  len : Nat
  deriving DecidableEq, Repr, Inhabited

def grammar : Stop := { status := stGrammar }

/-- Bytes of an image. What lies beyond the handle's extent breaks a limit. -/
def gramBytes (s : State) (w : Who) (addr off n : Nat) : Except Stop (List Byte) :=
  match (match addOff addr off with | .ok a => engBytes s w a n | .error x => .error x) with
  | .ok l => .ok l
  | .error x => .error (if x.status = stXlate ∧ x.fcode = 2 then grammar else x)

/-- A number at an offset of an image, below IMGLEN. -/
def gramNat (s : State) (w : Who) (g : Img) (off n : Nat) : Except Stop Nat :=
  if g.len < off + n then .error grammar else (gramBytes s w g.addr off n).map leNat

/-- The header read and held against its limits. -/
def gramHead (s : State) (w : Who) (addr : Nat) : Except Stop Img :=
  match gramBytes s w addr 0 64 with
  | .error x => .error x
  | .ok l =>
    let n (o k : Nat) : Nat := leNat ((l.drop o).take k)
    let g : Img := { addr := addr, nstates := n 6 2, vocab := n 8 4, start := n 12 2, nclass := n 16 4, offState := n 20 4,
                     offClass := n 24 4, offEffect := n 28 4, offDir := n 32 4, offWalk := n 36 4, nwalk := n 40 4, len := n 44 4 }
    if n 0 4 = 0x4D49474C ∧ n 4 2 = 1 ∧ 1 ≤ g.nstates ∧ 1 ≤ g.vocab ∧ g.vocab ≤ 262144 ∧ g.start < g.nstates ∧ n 14 2 = 0 ∧
       1 ≤ g.nclass ∧ g.nclass ≤ 262144 ∧ g.nwalk ≤ g.vocab ∧ n 48 16 = 0 ∧
       [g.offState, g.offClass, g.offEffect, g.offDir, g.offWalk].all (fun o => o % 8 == 0 && decide (o ≤ g.len)) ∧
       64 ≤ g.len ∧ g.offState + 16 * g.nstates ≤ g.len ∧ g.offClass + 4 * g.vocab ≤ g.len ∧ g.offWalk + 4 * g.nwalk ≤ g.len
    then .ok g else .error grammar

/-- The walk list, held against its limits: token ids that rise strictly (R283). -/
def gramWalk (s : State) (w : Who) (g : Img) : Except Stop (List Nat) :=
  match gramBytes s w g.addr g.offWalk (4 * g.nwalk) with
  | .error x => .error x
  | .ok l =>
    let ts := (List.range g.nwalk).map (fun i => leNat ((l.drop (4 * i)).take 4))
    if (ts.zip (ts.drop 1)).all (fun p => decide (p.1 < p.2)) ∧ ts.all (fun t => decide (t < g.vocab)) then .ok ts else .error grammar

/-- The check of `rdl.open` (R277, R283): the header, and IMGLEN against the handle's extent. What the tables hold is checked where it
is used. -/
def gramOpen (s : State) (w : Who) (addr : Nat) : Except Stop Img :=
  match gramHead s w addr with
  | .error x => .error x
  | .ok g =>
    let ext := if addr / 2 ^ 48 = 0xFFFE then 2 ^ 26 else match htAt s w.part w.ctx (addr / 2 ^ 48) with | some e => e.ext | none => 0
    if addr % 2 ^ 48 + g.len ≤ ext then .ok g else .error grammar

/-- A state entry. -/
structure GState where
  ndir : Nat
  neff : Nat
  effidx : Nat
  diridx : Nat
  deriving DecidableEq, Repr, Inhabited

def gramState (s : State) (w : Who) (g : Img) (st : Nat) : Except Stop GState :=
  if g.nstates ≤ st then .error grammar
  else match gramNat s w g (g.offState + 16 * st) 16 with
    | .error x => .error x
    | .ok v =>
      if 2 ≤ v % 2 ^ 16 then .error grammar
      else .ok { ndir := v / 2 ^ 16 % 2 ^ 16, neff := v / 2 ^ 32 % 2 ^ 32, effidx := v / 2 ^ 64 % 2 ^ 32, diridx := v / 2 ^ 96 }

/-- An effect entry. -/
structure Effect where
  cls : Nat
  next : Nat
  pops : List Nat
  pushes : List Nat
  deriving DecidableEq, Repr, Inhabited

def gramEffect (s : State) (w : Who) (g : Img) (i : Nat) : Except Stop Effect :=
  match gramNat s w g (g.offEffect + 24 * i) 24 with
  | .error x => .error x
  | .ok v =>
    let npop := v / 2 ^ 48 % 256
    let npush := v / 2 ^ 56 % 256
    let e : Effect := { cls := v % 2 ^ 32, next := v / 2 ^ 32 % 2 ^ 16,
                        pops := (List.range npop).map (fun k => v / 2 ^ (64 + 16 * k) % 2 ^ 16),
                        pushes := (List.range npush).map (fun k => v / 2 ^ (128 + 16 * k) % 2 ^ 16) }
    if g.nstates ≤ e.next ∨ 4 < npop ∨ 4 < npush ∨ e.pushes.contains 0xFFFF then .error grammar else .ok e

/-- The class of a token. -/
def gramClass (s : State) (w : Who) (g : Img) (t : Nat) : Except Stop Nat :=
  match gramNat s w g (g.offClass + 4 * t) 4 with
  | .error x => .error x
  | .ok c => if g.nclass ≤ c then .error grammar else .ok c

/-- Whether an effect entry matches a stack, top first. -/
def effectFits (e : Effect) (stack : List (Nat × Nat)) : Bool :=
  decide (e.pops.length ≤ stack.length) && (e.pops.zip stack).all (fun p => p.1 == 0xFFFF || p.1 == p.2.2)

/-- The first of `n` effect entries from `i` on that matches. -/
def findEffect (s : State) (w : Who) (g : Img) (cls : Nat) (stack : List (Nat × Nat)) : Nat → Nat → Except Stop (Option Effect)
  | 0, _ => .ok none
  | n + 1, i =>
    match gramEffect s w g i with
    | .error x => .error x
    | .ok e => if e.cls = cls ∧ effectFits e stack then .ok (some e) else findEffect s w g cls stack n (i + 1)

/-- The effect entry by which a branch takes a token (R278). -/
def tokenEffect (s : State) (w : Who) (g : Img) (b : Branch) (t : Nat) : Except Stop (Option Effect) :=
  if g.vocab ≤ t then .ok none
  else match gramClass s w g t, gramState s w g b.st with
    | .error x, _ => .error x
    | _, .error x => .error x
    | .ok c, .ok st => findEffect s w g c b.stack st.neff st.effidx

/-- The same by the image's address. -/
def gramEffectOf (s : State) (w : Who) (image : Nat) (b : Branch) (t : Nat) : Except Stop (Option Effect) :=
  match gramHead s w image with
  | .error e => .error e
  | .ok g => tokenEffect s w g b t

/-- The stack nodes in use by a Riddle (R276). -/
def nodesUsed (r : Riddle) : Nat :=
  ((r.ctxs.flatMap (fun p => p.2.br.flatMap (fun q => match q.2 with | some (b : Branch) => b.stack.map (fun x => x.1) | none => []))).eraseDups).length

def stackNodes : Nat := 524288

/-- Symbols pushed as new nodes, the last on top. -/
def pushSyms (r : Riddle) (stack : List (Nat × Nat)) (l : List Nat) : Riddle × List (Nat × Nat) :=
  l.foldl (fun (p : Riddle × List (Nat × Nat)) y => ({ p.1 with node := p.1.node + 1 }, (p.1.node, y) :: p.2)) (r, stack)

/-! ## The commands (R277–R282) -/

/-- What an open context's selected branch holds, or the status that says it holds nothing. -/
def withBranch (s : State) (u c b : Nat) (k : RdlCtx → Branch → SeqRes) : SeqRes :=
  let x := rdlCtx s u c
  if !x.isOpen then seqSt s stNoctx
  else match branchAt x b with
    | none => seqSt s stNobranch
    | some br => k x br

/-- `rdl.open`: branch 0 at START with an empty stack, every other branch dropped. -/
def rdlOpen (s : State) (w : Who) (u c : Nat) (image : Word) : SeqRes :=
  match gramOpen s w image.toNat with
  | .error x => seqStop s x
  | .ok g => seqOk (setRdlCtx s u c { isOpen := true, image := image, br := [(0, some { st := g.start })] })

/-- `rdl.step` (R278). -/
def rdlStep (s : State) (w : Who) (u c b t : Nat) : SeqRes :=
  withBranch s u c b fun x br =>
    match gramEffectOf s w x.image.toNat br t with
    | .error e => seqStop s e
    | .ok none => seqSt s stReject
    | .ok (some e) =>
      let depth := br.stack.length - e.pops.length + e.pushes.length
      if 1024 < depth then seqSt s stDepth
      else if stackNodes < nodesUsed (rdlAt s u) + e.pushes.length then seqSt s stStackmem
      else
        let p := pushSyms (rdlAt s u) (br.stack.drop e.pops.length) e.pushes
        let s := upRdl s u (fun _ => p.1)
        seqOk (setRdlCtx s u c (setBranch x b (some { st := e.next, stack := p.2 }))) depth e.next

/-- The mask table of a state and top symbol: the entry of the symbol, else the default (R279). -/
def findMask (s : State) (w : Who) (g : Img) (top : Nat) : Nat → Nat → Option Nat → Except Stop (Option Nat)
  | 0, _, dflt => .ok dflt
  | n + 1, i, dflt =>
    match gramNat s w g (g.offDir + 8 * i) 8 with
    | .error x => .error x
    | .ok v =>
      let off := v / 2 ^ 32
      if v / 2 ^ 16 % 2 ^ 16 ≠ 0 ∨ off % 8 ≠ 0 then .error grammar
      else if v % 2 ^ 16 = top then .ok (some off)
      else findMask s w g top n (i + 1) (if v % 2 ^ 16 = 0xFFFF ∧ dflt.isNone then some off else dflt)

/-- The mask bytes of a branch as its tables give them. -/
def maskTable (s : State) (w : Who) (g : Img) (b : Branch) : Except Stop (List Byte) :=
  match gramState s w g b.st with
  | .error x => .error x
  | .ok st =>
    let top := match b.stack with | p :: _ => p.2 | [] => 0xFFFF
    match findMask s w g top st.ndir st.diridx none with
    | .error x => .error x
    | .ok none => .ok []
    | .ok (some off) => if g.len < off + (g.vocab + 7) / 8 then .error grammar else gramBytes s w g.addr off ((g.vocab + 7) / 8)

/-- The bits of the tokens on the walk list. -/
def walkBits (s : State) (w : Who) (g : Img) (b : Branch) (l : List Nat) : Except Stop (List (Nat × Bool)) :=
  l.foldr (fun t (r : Except Stop (List (Nat × Bool))) =>
    match tokenEffect s w g b t, r with
    | .error x, _ => .error x
    | .ok _, .error x => .error x
    | .ok o, .ok l => .ok ((t, o.isSome) :: l)) (.ok [])

/-- The bits of an image's whole walk list. -/
def walkMask (s : State) (w : Who) (g : Img) (b : Branch) : Except Stop (List (Nat × Bool)) :=
  match gramWalk s w g with
  | .error x => .error x
  | .ok l => walkBits s w g b l

/-- The mask of a branch (R279): whether bit `t` is 1, for each token of the vocabulary. -/
def branchMask (s : State) (w : Who) (image : Nat) (b : Branch) : Except Stop (List Bool) :=
  match gramHead s w image with
  | .error x => .error x
  | .ok g =>
    match walkMask s w g b, maskTable s w g b with
    | .error x, _ => .error x
    | _, .error x => .error x
    | .ok walk, .ok table =>
      .ok ((List.range g.vocab).map (fun t =>
        match walk.find? (fun p => p.1 == t) with
        | some p => p.2
        | none => (table.getD (t / 8) 0).getLsbD (t % 8)))

def bitsNat (l : List Bool) : Nat := l.foldr (fun b n => 2 * n + (if b then 1 else 0)) 0

/-- `rdl.mask` into the mask buffer of a bound Assayer context. -/
def rdlMask (s : State) (w : Who) (u c b au ac : Nat) : SeqRes :=
  withBranch s u c b fun x br =>
    if !(asyCtx s au ac).bound then seqSt s stNoctx
    else match branchMask s w x.image.toNat br with
      | .error e => seqStop s e
      | .ok l => seqOk (setAsyCtx s au ac { asyCtx s au ac with mask := BitVec.ofNat 262144 (bitsNat l) })

/-- Bytes written to a destination from its first on: COUNT of them before a stop. -/
def seqWrite (s : State) (w : Who) (addr : Nat) (l : List Byte) : SeqRes :=
  let p := putAll s w ((List.range l.length).map (fun i => (addOff addr i, [l.getD i 0])))
  match p.2.1 with
  | some x => { s := p.1, res := resOf x p.2.2, addr := x.addr }
  | none => seqOk p.1 l.length

/-- `rdl.mask.m`: the mask written to memory. -/
def rdlMaskM (s : State) (w : Who) (u c b addr : Nat) : SeqRes :=
  withBranch s u c b fun x br =>
    match branchMask s w x.image.toNat br with
    | .error e => seqStop s e
    | .ok l => seqWrite s w addr (leBytes ((l.length + 7) / 8) (bitsNat l))

def rdlFork (s : State) (u c b dst : Nat) : SeqRes :=
  withBranch s u c b fun x br =>
    if (branchAt x dst).isSome then seqSt s stNobranch else seqOk (setRdlCtx s u c (setBranch x dst (some br)))

def rdlKeep (s : State) (u c b : Nat) : SeqRes :=
  withBranch s u c b fun x br => seqOk (setRdlCtx s u c { x with br := [(0, some br)] })

def rdlDrop (s : State) (u c b : Nat) : SeqRes :=
  let x := rdlCtx s u c
  if !x.isOpen then seqSt s stNoctx else seqOk (setRdlCtx s u c (setBranch x b none))

/-- The save area of a context (R282). -/
def saveBytes (x : RdlCtx) : List Byte :=
  let br (b : Nat) : Branch := (branchAt x b).getD {}
  leBytes 8 x.image.toNat ++ leBytes 8 (bitsNat ((List.range 8).map (fun b => (branchAt x b).isSome))) ++
  (List.range 8).flatMap (fun b => leBytes 2 (br b).st) ++ (List.range 8).flatMap (fun b => leBytes 2 (br b).stack.length) ++
  leBytes 16 0 ++
  (List.range 8).flatMap (fun b =>
    let l := (br b).stack.reverse.map (fun p => p.2)
    l.flatMap (leBytes 2) ++ List.replicate (2048 - 2 * l.length) 0)

def rdlSave (s : State) (w : Who) (u c addr : Nat) : SeqRes :=
  let x := rdlCtx s u c
  if !x.isOpen then seqSt s stNoctx else seqWrite s w addr (saveBytes x)

/-- `rdl.load`: the context restored from a save area, if its image passes the check of `rdl.open` and its states and
depths keep their limits. -/
def rdlLoad (s : State) (w : Who) (u c addr : Nat) : SeqRes :=
  match engBytes s w addr 16448 with
  | .error x => seqStop s x
  | .ok l =>
    let n (o k : Nat) : Nat := leNat ((l.drop o).take k)
    match gramOpen s w (n 0 8) with
    | .error x => seqStop s x
    | .ok g =>
      let bs := (List.range 8).filter (fun b => n 8 1 / 2 ^ b % 2 == 1)
      if bs.any (fun b => decide (g.nstates ≤ n (16 + 2 * b) 2 ∨ 1024 < n (32 + 2 * b) 2)) then seqSt s stGrammar
      else
        let bare := (rdlAt (setRdlCtx s u c {}) u)
        if stackNodes < nodesUsed bare + bs.foldl (fun a b => a + n (32 + 2 * b) 2) 0 then seqSt s stStackmem
        else
          let p := bs.foldl (fun (p : Riddle × RdlCtx) b =>
            let q := pushSyms p.1 [] ((List.range (n (32 + 2 * b) 2)).map (fun i => n (64 + 2048 * b + 2 * i) 2))
            (q.1, setBranch p.2 b (some { st := n (16 + 2 * b) 2, stack := q.2 })))
            (bare, { isOpen := true, image := BitVec.ofNat 64 (n 0 8) })
          seqOk (setRdlCtx (upRdl s u (fun _ => p.1)) u c p.2)

/-! ## Running a Riddle command at the head of a store queue (R264–R266) -/

/-- The class-2 report of a check that a sequence unit found failing (R310); which consumer it names is not stated. -/
def seqReport (s : State) (core addr : Nat) : State :=
  cmdReport { s with free := s.free + 1 } core ((Config.freeWord s.free).toNat % 2 ^ 32) addr 1

/-- A sequence command's result reported. -/
def finishSeq (s : State) (core : Nat) (r : SeqRes) : State :=
  finishCmd (if r.res.status = stE2e then seqReport r.s core r.addr else r.s) core .store { r.res with tick := s.tick }

/-- What a Riddle command is refused for. -/
def rdlRefusal (s : State) (w : Who) (c : Cmd) : Option Nat :=
  let br := !(c.op == .rSave || c.op == .rLoad)
  worst (selBad s w br c.rb ++
    (match c.op with
     | .rOpen => seqSrcBad s w c.ra.toNat
     | .rLoad => seqSrcBad s w c.ra.toNat
     | .rMask => selBad s w false c.ra
     | .rMaskM => seqDstBad s w c.ra.toNat
     | .rSave => seqDstBad s w c.ra.toNat
     | .rStep => [(decide (2 ^ 32 ≤ c.re.toNat), stBadcmd)]
     | _ => []))

/-- A Riddle command's effect. -/
def rdlDo (s : State) (w : Who) (x : Cmd) : SeqRes :=
  let u := selUnit x.rb
  let c := selCtx x.rb
  let b := selBranch x.rb
  match x.op with
  | .rOpen => rdlOpen s w u c x.ra
  | .rMask => rdlMask s w u c b (selUnit x.ra) (selCtx x.ra)
  | .rMaskM => rdlMaskM s w u c b x.ra.toNat
  | .rStep => rdlStep s w u c b x.re.toNat
  | .rFork => rdlFork s u c b x.arg
  | .rKeep => rdlKeep s u c b
  | .rDrop => rdlDrop s u c b
  | .rSave => rdlSave s w u c x.ra.toNat
  | _ => rdlLoad s w u c x.ra.toNat

/-- A Riddle command at the head of its queue. A mask waits while the Assayer it goes to runs a program (R275). -/
def runRdl (s : State) (core : Nat) (c : Cmd) : State :=
  let w := seqWho s core
  match rdlRefusal s w c with
  | some st => finishCmd s core .store { status := st }
  | none =>
    if c.op = .rMask ∧ (asyAt s (selUnit c.ra)).run.isSome then s
    else finishSeq s core (rdlDo s w c)

/-! ## Issue (R264) -/

def seqWord (op : CmdOp) (n : Nat) (h : Hd) (d a b e : Reg) (imm : W32) (s : State) : Out :=
  runEff s h fun s => issueCmd s { newCmd s op d a b e imm with arg := imm.toNat / 2 ^ 16 % 8 } n (fun _ => .store) (fun _ c => c) id

def execRdlOpen (h : Hd) (d a b : Reg) (imm : W32) (s : State) : Out := seqWord .rOpen 0 h d a b 0 imm s
def execRdlMask (h : Hd) (d a b : Reg) (imm : W32) (s : State) : Out := seqWord .rMask 0 h d a b 0 imm s
def execRdlMaskM (h : Hd) (d a b : Reg) (imm : W32) (s : State) : Out := seqWord .rMaskM 0 h d a b 0 imm s
def execRdlStep (h : Hd) (d b e : Reg) (imm : W32) (s : State) : Out := seqWord .rStep 0 h d 0 b e imm s
def execRdlFork (h : Hd) (d b : Reg) (imm : W32) (s : State) : Out := seqWord .rFork 0 h d 0 b 0 imm s
def execRdlKeep (h : Hd) (d b : Reg) (imm : W32) (s : State) : Out := seqWord .rKeep 0 h d 0 b 0 imm s
def execRdlDrop (h : Hd) (d b : Reg) (imm : W32) (s : State) : Out := seqWord .rDrop 0 h d 0 b 0 imm s
def execRdlSave (h : Hd) (d a b : Reg) (imm : W32) (s : State) : Out := seqWord .rSave 0 h d a b 0 imm s
def execRdlLoad (h : Hd) (d a b : Reg) (imm : W32) (s : State) : Out := seqWord .rLoad 0 h d a b 0 imm s

end Sys2Proof.Machine
end

