-- ==== Sys2Proof/Machine/Sm3.lean ====
section
/-! DEFINITION. The hash SM3 (R274, R406), as GB/T 32905 defines it (log entry 32). -/

namespace Sys2Proof.Machine

def sm3Iv : List W32 :=
  [0x7380166F, 0x4914B2B9, 0x172442D7, 0xDA8A0600, 0xA96F30BC, 0x163138AA, 0xE38DEE4D, 0xB0FB0E4E]

def sm3P0 (x : W32) : W32 := x ^^^ x.rotateLeft 9 ^^^ x.rotateLeft 17
def sm3P1 (x : W32) : W32 := x ^^^ x.rotateLeft 15 ^^^ x.rotateLeft 23
def sm3T (j : Nat) : W32 := if j < 16 then 0x79CC4519 else 0x7A879D8A
def sm3Ff (j : Nat) (x y z : W32) : W32 := if j < 16 then x ^^^ y ^^^ z else (x &&& y) ||| (x &&& z) ||| (y &&& z)
def sm3Gg (j : Nat) (x y z : W32) : W32 := if j < 16 then x ^^^ y ^^^ z else (x &&& y) ||| (~~~x &&& z)

/-- The 16 words of a block extended to 68. -/
def sm3Expand (b : List W32) : List W32 :=
  (List.range 52).foldl (fun w i =>
    let g (k : Nat) : W32 := w.getD (i + 16 - k) 0
    w ++ [sm3P1 (g 16 ^^^ g 9 ^^^ (g 3).rotateLeft 15) ^^^ (g 13).rotateLeft 7 ^^^ g 6]) b

/-- One round on the eight working words. -/
def sm3Round (w : List W32) (v : List W32) (j : Nat) : List W32 :=
  match v with
  | [a, b, c, d, e, f, g, h] =>
    let ss1 := (a.rotateLeft 12 + e + (sm3T j).rotateLeft (j % 32)).rotateLeft 7
    let ss2 := ss1 ^^^ a.rotateLeft 12
    let tt1 := sm3Ff j a b c + d + ss2 + (w.getD j 0 ^^^ w.getD (j + 4) 0)
    let tt2 := sm3Gg j e f g + h + ss1 + w.getD j 0
    [tt1, a, b.rotateLeft 9, c, sm3P0 tt2, e, f.rotateLeft 19, g]
  | _ => v

def sm3Block (v b : List W32) : List W32 :=
  let w := sm3Expand b
  List.zipWith (fun x y => x ^^^ y) v ((List.range 64).foldl (sm3Round w) v)

/-- Four bytes as a word, the first highest (R5). -/
def sm3Word (l : List Byte) : W32 := l.foldl (fun a b => (a <<< 8) ||| b.setWidth 32) 0

/-- A message padded to whole blocks: a 1 bit, zeros, and its length in 64 bits. -/
def sm3Pad (m : List Byte) : List Byte :=
  m ++ [0x80] ++ List.replicate ((119 - m.length % 64) % 64) 0 ++
  (List.range 8).map (fun i => BitVec.ofNat 8 (8 * m.length / 2 ^ (8 * (7 - i))))

/-- The digest as eight words. -/
def sm3Words (m : List Byte) : List W32 :=
  let p := sm3Pad m
  (List.range (p.length / 64)).foldl (fun v i =>
    sm3Block v ((List.range 16).map (fun j => sm3Word ((p.drop (64 * i + 4 * j)).take 4)))) sm3Iv

/-- The digest as a number, its first byte highest. -/
def sm3Digest (m : List Byte) : BitVec 256 := BitVec.ofNat 256 ((sm3Words m).foldl (fun a w => a * 2 ^ 32 + w.toNat) 0)

end Sys2Proof.Machine
end

