-- ==== Sys2Proof/Machine/Operands.lean ====
section
/-! DEFINITION. Operand forms of the V engine: packed lanes (R47), value order across a register group (R174), write
masks (R175), shift amounts and indices (R177, R192). -/

namespace Sys2Proof.Machine

/-- Lane `i` of width `w` of an element (R47). -/
def laneGet (w : Nat) (x : W32) (i : Nat) : Nat := x.toNat / 2 ^ (w * i) % 2 ^ w

/-- An element from its lanes, lane 0 lowest (R47). -/
def lanePack (w : Nat) : List Nat → Nat
  | [] => 0
  | x :: r => x % 2 ^ w + 2 ^ w * lanePack w r

def laneElem (w : Nat) (l : List Nat) : W32 := BitVec.ofNat 32 (lanePack w l)

/-- The lanes of an element of type `t`. -/
def lanesOf (t : ETy) (x : W32) : List Nat := (List.range (etyLanes t)).map (laneGet (etyBits t) x)

/-- A lane's integer value under its type (R46). -/
def laneInt (t : ETy) (x : Nat) : Int := ofTwos (etyBits t) (etySigned t) x

/-- Value `j` of the group that starts at register `r` (R174). -/
def groupVal (c : Core) (t : ETy) (r j : Nat) : Nat :=
  let l := etyLanes t
  laneGet (etyBits t) (vget c (r + j / (1024 * l)) (j % (1024 * l) / l)) (j % l)

/-- The element of a group whose lanes are the values `f` gives (R174): element `e` of its `i`-th register. -/
def groupElem (t : ETy) (f : Nat → Nat) (i e : Nat) : W32 :=
  let l := etyLanes t
  laneElem (etyBits t) ((List.range l).map (fun k => f (1024 * l * i + l * e + k)))

/-- Whether a write mask lets an element be written (R175). -/
def maskOn (c : Core) (mk : Option Reg) (e : Nat) : Bool :=
  match mk with
  | none => true
  | some k => (kget c k.toNat).getLsbD e

/-- An amount or index: register B or the immediate (R177). -/
def idxVal (s : State) : Idx → Nat
  | .reg b => (rd s b).toNat
  | .imm n => n.toNat

/-- The elements of a register from a list of them. -/
def elemsOf (l : List (Nat × W32)) : SMap W32 := l.filter (fun p => p.2 != 0)

/-- A vector register of a core set to the elements that `l` lists in order. -/
def vsetList (c : Core) (r : Nat) (l : List (Nat × W32)) : Core := { c with v := SMap.set [] c.v r (elemsOf l) }

end Sys2Proof.Machine
end

