-- ==== Sys2Proof/Machine/Flags.lean ====
section
/-! DEFINITION. Modes and flags of the V engine: VMODE and VFLAGS (R55, R57–R59, R185), results with flags written under
a mask (R58, R175), and the overflow trap (R62). -/

namespace Sys2Proof.Machine

/-- The rounding mode of a word: its own, or VMODE's (R55). -/
def modeIn (s : State) (md : BitVec 6) : RMode :=
  rmodeOf (if mdMode md = 7 then (curCore s).vmode.toNat % 8 else mdMode md)

/-- The overflow policy of a word: its own, or VMODE's (R55). -/
def policyIn (s : State) (md : BitVec 6) : Policy :=
  policyOf (if mdMode md = 7 then (curCore s).vmode.toNat / 8 % 4 else mdPol md)

/-- Flags ORed into VFLAGS (R58). -/
def raiseFlags (s : State) (f : Nat) : State := upCur s (fun c => { c with vflags := c.vflags ||| BitVec.ofNat 64 (f % 64) })

def orFlags (l : List Nat) : Nat := l.foldl (fun a b => a ||| b) 0

/-- An element and the flags of its lanes. -/
structure ElRes where
  val : W32
  flags : Nat := 0
  deriving DecidableEq, Repr, Inhabited

/-- An element from its lanes' results. -/
def elOf (w : Nat) (l : List FpRes) : ElRes := { val := laneElem w (l.map (fun r => r.bits)), flags := orFlags (l.map (fun r => r.flags)) }

/-- A destination register written element by element under a mask, with the flags of the elements written (R58,
R175). -/
def writeVec (s : State) (d : Nat) (on : Nat → Bool) (f : Nat → ElRes) : State :=
  let c := curCore s
  let l := (List.range 1024).map (fun e => if on e then (e, f e) else (e, { val := vget c d e }))
  raiseFlags (upCur s (fun c => vsetList c d (l.map (fun p => (p.1, p.2.val))))) (orFlags (l.map (fun p => p.2.flags)))

/-- A destination register written whole, without flags. -/
def writeAll (s : State) (d : Nat) (f : Nat → W32) : State := upCur s (fun c => vsetList c d ((List.range 1024).map (fun e => (e, f e))))

def execVmodeRd (h : Hd) (d : Reg) (s : State) : Out := setReg s h d (fun s => (curCore s).vmode)
def execVmodeWr (h : Hd) (a : Reg) (s : State) : Out :=
  runWord s h { eff := effDo (fun s => upCur s (fun c => { c with vmode := newVmode c.vmode (rd s a) })) }
def execVflagsRd (h : Hd) (d : Reg) (s : State) : Out := setReg s h d (fun s => (curCore s).vflags)
def execVflagsWr (h : Hd) (a : Reg) (s : State) : Out :=
  runWord s h { eff := effDo (fun s => upCur s (fun c => { c with vflags := BitVec.ofNat 64 ((rd s a).toNat % 64) })) }

end Sys2Proof.Machine
end

