-- ==== Sys2Proof/Machine/Vector.lean ====
section
/-! DEFINITION. Lanewise instructions of the V engine: floating point (R186–R190), integer (R191–R193), and element
moves (R205, R206). -/

namespace Sys2Proof.Machine

/-! ## Lanewise words -/

/-- A word that computes each lane of D from the lanes of one source. -/
def lane1 (s : State) (h : Hd) (ty : ETy) (d a : Reg) (mk : Option Reg) (f : State → Nat → FpRes) : Out :=
  runWord s h { eff := effDo (fun s =>
    let c := curCore s
    writeVec s d.toNat (maskOn c mk) (fun e => elOf (etyBits ty) ((lanesOf ty (vget c a.toNat e)).map (f s)))) }

/-- A word that computes each lane of D from the lanes of two sources. -/
def lane2 (s : State) (h : Hd) (ty : ETy) (d a b : Reg) (mk : Option Reg) (f : State → Nat → Nat → FpRes) : Out :=
  runWord s h { eff := effDo (fun s =>
    let c := curCore s
    writeVec s d.toNat (maskOn c mk) (fun e =>
      elOf (etyBits ty) (((lanesOf ty (vget c a.toNat e)).zip (lanesOf ty (vget c b.toNat e))).map (fun p => f s p.1 p.2)))) }

/-- A word that computes each lane of D from the lanes of three sources. -/
def lane3 (s : State) (h : Hd) (ty : ETy) (d a b e : Reg) (f : State → Nat → Nat → Nat → FpRes) : Out :=
  runWord s h { eff := effDo (fun s =>
    let c := curCore s
    writeVec s d.toNat (fun _ => true) (fun i =>
      elOf (etyBits ty) ((List.range (etyLanes ty)).map (fun k =>
        f s (laneGet (etyBits ty) (vget c a.toNat i) k) (laneGet (etyBits ty) (vget c b.toNat i) k)
          (laneGet (etyBits ty) (vget c e.toNat i) k)))) ) }

/-- An exact integer as a lane: clamped to the type's range, or wrapped (R51, R191). -/
def intLane (ty : ETy) (clamp : Bool) (x : Int) : FpRes :=
  let (lo, hi) := etyRange ty
  { bits := toTwos (etyBits ty) (if clamp then max lo (min hi x) else x) }

/-! ## Arithmetic (R186, R191) -/

def fpArith (op : Fmt → RMode → FpVal → FpVal → FpRes) (s : State) (ty : ETy) (md : BitVec 6) (x y : Nat) : FpRes :=
  op (fmtOf ty) (modeIn s md) (fpDecode (fmtOf ty) x) (fpDecode (fmtOf ty) y)

/-- a − b is a + (−b), with the flags of b as it stands. -/
def subVal (f : Fmt) (m : RMode) (a b : FpVal) : FpRes := addVal f m a (fpNeg b)

/-- `vadd`, `vsub` and `vmul`: floating point, or integer with `.clamp` in MOD[0]. -/
def arith2 (fp : Fmt → RMode → FpVal → FpVal → FpRes) (int : Int → Int → Int) (s : State) (h : Hd) (ty : ETy) (md : BitVec 6)
    (d a b : Reg) (mk : Option Reg) : Out :=
  lane2 s h ty d a b mk fun s x y =>
    if etyIsFp ty then fpArith fp s ty md x y else intLane ty (mdQual md) (int (laneInt ty x) (laneInt ty y))

def execVadd (h : Hd) (ty : ETy) (md : BitVec 6) (d a b : Reg) (mk : Option Reg) (s : State) : Out :=
  arith2 addVal (· + ·) s h ty md d a b mk
def execVsub (h : Hd) (ty : ETy) (md : BitVec 6) (d a b : Reg) (mk : Option Reg) (s : State) : Out :=
  arith2 subVal (· - ·) s h ty md d a b mk
def execVmul (h : Hd) (ty : ETy) (md : BitVec 6) (d a b : Reg) (mk : Option Reg) (s : State) : Out :=
  arith2 mulVal (· * ·) s h ty md d a b mk

/-- The smaller or larger lane (R67, R187, R191). -/
def minMaxLane (ty : ETy) (larger : Bool) (x y : Nat) : FpRes :=
  if etyIsFp ty then minMax (fmtOf ty) larger x y
  else
    let lt := decide (laneInt ty x < laneInt ty y)
    { bits := if larger then (if lt then y else x) else (if lt then x else y) }

def execVmin (h : Hd) (ty : ETy) (_md : BitVec 6) (d a b : Reg) (mk : Option Reg) (s : State) : Out :=
  lane2 s h ty d a b mk fun _ x y => minMaxLane ty false x y
def execVmax (h : Hd) (ty : ETy) (_md : BitVec 6) (d a b : Reg) (mk : Option Reg) (s : State) : Out :=
  lane2 s h ty d a b mk fun _ x y => minMaxLane ty true x y

/-- Abs clears the sign bit of an FP lane (R50); an integer's magnitude wraps (R191). -/
def absLane (ty : ETy) (x : Nat) : FpRes :=
  if etyIsFp ty then { bits := x % fmtSignBit (fmtOf ty) } else intLane ty false (laneInt ty x).natAbs
/-- Neg inverts the sign bit of an FP lane (R50). -/
def negLane (ty : ETy) (x : Nat) : FpRes :=
  if etyIsFp ty then { bits := (x + fmtSignBit (fmtOf ty)) % (2 * fmtSignBit (fmtOf ty)) } else intLane ty false (-laneInt ty x)

def execVabs (h : Hd) (ty : ETy) (d a : Reg) (mk : Option Reg) (s : State) : Out := lane1 s h ty d a mk fun _ x => absLane ty x
def execVneg (h : Hd) (ty : ETy) (d a : Reg) (mk : Option Reg) (s : State) : Out := lane1 s h ty d a mk fun _ x => negLane ty x

/-- a × b + e, with the signs that `vfms` and `vfnma` turn, rounded once (R186). -/
def fusedWord (np ne : Bool) (s : State) (h : Hd) (ty : ETy) (md : BitVec 6) (d a b e : Reg) : Out :=
  lane3 s h ty d a b e fun s x y z =>
    let f := fmtOf ty
    let va := fpDecode f x
    fmaVal f (modeIn s md) (if np then fpNeg va else va) (fpDecode f y) (if ne then fpNeg (fpDecode f z) else fpDecode f z)

def execVfma (h : Hd) (ty : ETy) (md : BitVec 6) (d a b e : Reg) (s : State) : Out := fusedWord false false s h ty md d a b e
def execVfms (h : Hd) (ty : ETy) (md : BitVec 6) (d a b e : Reg) (s : State) : Out := fusedWord false true s h ty md d a b e
def execVfnma (h : Hd) (ty : ETy) (md : BitVec 6) (d a b e : Reg) (s : State) : Out := fusedWord true false s h ty md d a b e

def execVdiv (h : Hd) (ty : ETy) (md : BitVec 6) (d a b : Reg) (mk : Option Reg) (s : State) : Out :=
  lane2 s h ty d a b mk fun s x y => fpArith divVal s ty md x y

/-! ## Comparison (R188) -/

/-- A relation between two lanes and the flags it raises. -/
def cmpLane (r : VRel) (ty : ETy) (x y : Nat) : Bool × Nat :=
  if etyIsFp ty then
    let a := fpDecode (fmtOf ty) x
    let b := fpDecode (fmtOf ty) y
    let nan := isNan a || isNan b
    let sig := a == .nan true || b == .nan true
    match r with
    | .eq => (eqVal a b, if sig then flInvalid else 0)
    | .ne => (!eqVal a b, if sig then flInvalid else 0)
    | .un => (nan, if sig then flInvalid else 0)
    | .lt => (ltVal false a b, if nan then flInvalid else 0)
    | .le => (!nan && !ltVal false b a, if nan then flInvalid else 0)
    | .gt => (ltVal false b a, if nan then flInvalid else 0)
    | .ge => (!nan && !ltVal false a b, if nan then flInvalid else 0)
  else
    let a := laneInt ty x
    let b := laneInt ty y
    (match r with
     | .eq => decide (a = b) | .ne => decide (a ≠ b) | .lt => decide (a < b) | .le => decide (a ≤ b)
     | .gt => decide (b < a) | .ge => decide (b ≤ a) | .un => false, 0)

def execVcmp (h : Hd) (r : VRel) (ty : ETy) (d a b : Reg) (mk : Option Reg) (s : State) : Out :=
  runWord s h { eff := effDo (fun s =>
    let c := curCore s
    let w := etyBits ty
    let res (i e : Nat) : Bool × Nat := cmpLane r ty (laneGet w (vget c a.toNat e) i) (laneGet w (vget c b.toNat e) i)
    (List.range (etyLanes ty)).foldl (fun s i =>
      let l := (List.range 1024).map (fun e => if maskOn c mk e then res i e else (false, 0))
      raiseFlags (upCur s (fun c => kset c (d.toNat + i) (maskTab (fun e => (l.getD e (false, 0)).1)))) (orFlags (l.map (fun p => p.2)))) s) }

/-! ## Class, integral and scaled values (R189, R190) -/

def execVclass (h : Hd) (ty : ETy) (_md : BitVec 6) (d a : Reg) (mk : Option Reg) (s : State) : Out :=
  lane1 s h ty d a mk fun _ x => { bits := classBit (fmtOf ty) x }
def execVrint (h : Hd) (ty : ETy) (md : BitVec 6) (d a : Reg) (mk : Option Reg) (s : State) : Out :=
  lane1 s h ty d a mk fun s x => rintVal (fmtOf ty) (modeIn s md) x
def execVscale (h : Hd) (ty : ETy) (md : BitVec 6) (d a b : Reg) (mk : Option Reg) (s : State) : Out :=
  lane2 s h ty d a b mk fun s x y => scaleVal (fmtOf ty) (modeIn s md) x (ofTwos (etyBits ty) true y)

/-! ## Integer lanes (R191–R193) -/

def execVmulh (h : Hd) (ty : ETy) (d a b : Reg) (mk : Option Reg) (s : State) : Out :=
  lane2 s h ty d a b mk fun _ x y => intLane ty false (laneInt ty x * laneInt ty y / 2 ^ etyBits ty)

/-- The amount of a lane shift: lane b unsigned, or IMM[4:0] (R192). -/
def laneAmount (c : Core) (ty : ETy) (sh : Shamt) (e i : Nat) : Nat :=
  match sh with
  | .reg b => laneGet (etyBits ty) (vget c b.toNat e) i
  | .imm n => n.toNat % 32

/-- A lane shifted by an amount; `w` or more gives 0, or copies of the sign (R192). -/
def shiftWord (op : ETy → Nat → Nat → Nat) (s : State) (h : Hd) (ty : ETy) (d a : Reg) (sh : Shamt) (mk : Option Reg) : Out :=
  runWord s h { eff := effDo (fun s =>
    let c := curCore s
    writeVec s d.toNat (maskOn c mk) (fun e =>
      elOf (etyBits ty) ((List.range (etyLanes ty)).map (fun i =>
        ({ bits := op ty (laneGet (etyBits ty) (vget c a.toNat e) i) (laneAmount c ty sh e i) } : FpRes))))) }

def shlLane (ty : ETy) (x m : Nat) : Nat := if etyBits ty ≤ m then 0 else x * 2 ^ m % 2 ^ etyBits ty
def shrLane (ty : ETy) (x m : Nat) : Nat := if etyBits ty ≤ m then 0 else x / 2 ^ m
def sarLane (ty : ETy) (x m : Nat) : Nat := toTwos (etyBits ty) (ofTwos (etyBits ty) true x / 2 ^ (min m (etyBits ty)))

def execVshl (h : Hd) (ty : ETy) (d a : Reg) (sh : Shamt) (mk : Option Reg) (s : State) : Out := shiftWord shlLane s h ty d a sh mk
def execVshr (h : Hd) (ty : ETy) (d a : Reg) (sh : Shamt) (mk : Option Reg) (s : State) : Out := shiftWord shrLane s h ty d a sh mk
def execVsar (h : Hd) (ty : ETy) (d a : Reg) (sh : Shamt) (mk : Option Reg) (s : State) : Out := shiftWord sarLane s h ty d a sh mk

def execVand (h : Hd) (ty : ETy) (d a b : Reg) (mk : Option Reg) (s : State) : Out := lane2 s h ty d a b mk fun _ x y => { bits := x &&& y }
def execVor (h : Hd) (ty : ETy) (d a b : Reg) (mk : Option Reg) (s : State) : Out := lane2 s h ty d a b mk fun _ x y => { bits := x ||| y }
def execVxor (h : Hd) (ty : ETy) (d a b : Reg) (mk : Option Reg) (s : State) : Out := lane2 s h ty d a b mk fun _ x y => { bits := x ^^^ y }
def execVnot (h : Hd) (ty : ETy) (d a : Reg) (mk : Option Reg) (s : State) : Out :=
  lane1 s h ty d a mk fun _ x => { bits := 2 ^ etyBits ty - 1 - x }
def execVpopc (h : Hd) (ty : ETy) (d a : Reg) (mk : Option Reg) (s : State) : Out :=
  lane1 s h ty d a mk fun _ x => { bits := popcN (etyBits ty) x }
def execVclz (h : Hd) (ty : ETy) (d a : Reg) (mk : Option Reg) (s : State) : Out :=
  lane1 s h ty d a mk fun _ x => { bits := clzN (etyBits ty) x }

/-- The exact sum of `vdot4` for one element (R193). -/
def dot4 (ty : ETy) (a b e : W32) : Int :=
  ((lanesOf ty a).zip (lanesOf ty b)).foldl (fun acc p => acc + laneInt ty p.1 * laneInt ty p.2) (ofTwos 32 (etySigned ty) e.toNat)

def execVdot4 (h : Hd) (ty : ETy) (q : Bool) (d a b e : Reg) (s : State) : Out :=
  let wide : ETy := if etySigned ty then .i32 else .n32
  runWord s h { eff := effDo (fun s =>
    let c := curCore s
    writeAll s d.toNat (fun i => BitVec.ofNat 32 (intLane wide q (dot4 ty (vget c a.toNat i) (vget c b.toNat i) (vget c e.toNat i))).bits)) }

/-! ## Element moves (R205, R206) -/

/-- `vext`: lane j in value order, sign-extended for I types and zero-extended for all others. -/
def execVext (h : Hd) (ty : ETy) (d a : Reg) (j : Idx) (s : State) : Out :=
  setReg s h d fun s =>
    let l := etyLanes ty
    let j := idxVal s j % (1024 * l)
    extendTy ty (etyBits ty) (laneGet (etyBits ty) (vget (curCore s) a.toNat (j / l)) (j % l))

/-- An element with lane `i` replaced. -/
def laneSet (ty : ETy) (x : W32) (i v : Nat) : W32 := laneElem (etyBits ty) ((lanesOf ty x).set i v)

def execVins (h : Hd) (ty : ETy) (d a : Reg) (j : Idx) (s : State) : Out :=
  runWord s h { eff := effDo (fun s =>
    let l := etyLanes ty
    let j := idxVal s j % (1024 * l)
    upCur s (fun c => vput c d.toNat (j / l) (laneSet ty (vget c d.toNat (j / l)) (j % l) (rd s a).toNat))) }

def execVmov (h : Hd) (_ty : ETy) (d a : Reg) (mk : Option Reg) (s : State) : Out :=
  runWord s h { eff := effDo (fun s =>
    let c := curCore s
    writeVec s d.toNat (maskOn c mk) (fun e => { val := vget c a.toNat e })) }

def execVmovBc (h : Hd) (ty : ETy) (d a : Reg) (mk : Option Reg) (s : State) : Out :=
  runWord s h { eff := effDo (fun s =>
    let x := laneElem (etyBits ty) (List.replicate (etyLanes ty) (rd s a).toNat)
    writeVec s d.toNat (maskOn (curCore s) mk) (fun _ => { val := x })) }

def execVsel (h : Hd) (_ty : ETy) (d a b e : Reg) (s : State) : Out :=
  runWord s h { eff := effDo (fun s =>
    let c := curCore s
    writeAll s d.toNat (fun i => if (kget c e.toNat).getLsbD i then vget c a.toNat i else vget c b.toNat i)) }

end Sys2Proof.Machine
end

