-- ==== Sys2Proof/Machine/VAxis.lean ====
section
/-! DEFINITION. Axis operations of the V engine: rotates and broadcasts (R199), reductions and scans (R65–R67, R200–R202),
and mask instructions (R203). -/

namespace Sys2Proof.Machine

/-- The source element of element `e` under `vrot` by `n` (R199). -/
def rotSrc (ax : Axis) (n e : Nat) : Nat :=
  match ax with
  | .row => e / 64 * 64 + (e % 64 + 64 - n % 64) % 64
  | .col => (e / 64 + 16 - n % 16) % 16 * 64 + e % 64

/-- The source element of element `e` under `vbcast` of `n` (R199). -/
def bcastSrc (ax : Axis) (n e : Nat) : Nat :=
  match ax with
  | .row => e / 64 * 64 + n % 64
  | .col => n % 16 * 64 + e % 64

/-- A word that moves whole elements, all sources read first. -/
def moveWord (src : Axis → Nat → Nat → Nat) (h : Hd) (ax : Axis) (d a : Reg) (n : Idx) (mk : Option Reg) (s : State) : Out :=
  runWord s h { eff := effDo (fun s =>
    let c := curCore s
    writeVec s d.toNat (maskOn c mk) (fun e => { val := vget c a.toNat (src ax (idxVal s n) e) })) }

def execVrot (h : Hd) (ax : Axis) (_ty : ETy) (d a : Reg) (n : Idx) (mk : Option Reg) (s : State) : Out := moveWord rotSrc h ax d a n mk s
def execVbcast (h : Hd) (ax : Axis) (_ty : ETy) (d a : Reg) (n : Idx) (mk : Option Reg) (s : State) : Out := moveWord bcastSrc h ax d a n mk s

/-! ## Trees (R65, R66) -/

/-- An operand of a tree: its bits, the index it carries, and the flags raised on the way to it. -/
structure TVal where
  bits : Nat
  idx : Nat := 0
  flags : Nat := 0
  deriving DecidableEq, Repr, Inhabited

/-- An operation with an absent operand returns the other (R65). -/
def absOp (op : TVal → TVal → TVal) (a b : Option TVal) : Option TVal :=
  match a, b with
  | some x, some y => some (op x y)
  | some x, none => some x
  | none, y => y

/-- One level of the tree: neighbours joined. -/
def pairUp (op : TVal → TVal → TVal) : List (Option TVal) → List (Option TVal)
  | a :: b :: r => absOp op a b :: pairUp op r
  | l => l

/-- `tree_reduce` over 2^k operands (R65). -/
def treeReduce (op : TVal → TVal → TVal) : Nat → List (Option TVal) → Option TVal
  | 0, l => l.headD none
  | k + 1, l => treeReduce op k (pairUp op l)

/-- One pass of a scan: each position that `on` names joins the one 2^d before it (R66). -/
def scanPass (op : TVal → TVal → TVal) (d : Nat) (on : Nat → Bool) (l : List (Option TVal)) : List (Option TVal) :=
  (List.range l.length).map (fun j => if on j then absOp op (l.getD (j - 2 ^ d) none) (l.getD j none) else l.getD j none)

/-- `tree_scan` over 2^k operands (R66). -/
def treeScan (op : TVal → TVal → TVal) (k : Nat) (l : List (Option TVal)) : List (Option TVal) :=
  let up := (List.range k).foldl (fun l d => scanPass op d (fun j => (j + 1) % 2 ^ (d + 1) == 0) l) l
  ((List.range (k - 1)).map (fun i => k - 2 - i)).foldl (fun l d =>
    scanPass op d (fun j => (j + 1) % 2 ^ (d + 1) == 2 ^ d && decide (2 ^ (d + 1) ≤ j)) l) up

/-- Whether an operand of argmax gives way to a later one (R67). That −0 gives way to +0 is the model's choice (log entry 114). -/
def amaxLess (ty : ETy) (x y : Nat) : Bool :=
  if etyIsFp ty then
    let a := fpDecode (fmtOf ty) x
    let b := fpDecode (fmtOf ty) y
    !isNan a && (isNan b || ltVal true a b)
  else decide (laneInt ty x < laneInt ty y)

/-- The flags of an argmax step: a signalling NaN is invalid (R49). -/
def amaxFlags (ty : ETy) (x y : Nat) : Nat :=
  if etyIsFp ty && (fpDecode (fmtOf ty) x == .nan true || fpDecode (fmtOf ty) y == .nan true) then flInvalid else 0

/-- The step of a reduction or scan (R67, R200). -/
def redOp (s : State) (ty : ETy) (md : BitVec 6) (op : RedOp) (a b : TVal) : TVal :=
  let fl := a.flags ||| b.flags
  match op with
  | .add =>
    let r := if etyIsFp ty then fpArith addVal s ty md a.bits b.bits else intLane ty false (laneInt ty a.bits + laneInt ty b.bits)
    { bits := r.bits, flags := fl ||| r.flags }
  | .max => let r := minMaxLane ty true a.bits b.bits
            { bits := r.bits, flags := fl ||| r.flags }
  | .min => let r := minMaxLane ty false a.bits b.bits
            { bits := r.bits, flags := fl ||| r.flags }
  | .amax =>
    let later := amaxLess ty a.bits b.bits || (!amaxLess ty b.bits a.bits && decide (b.idx < a.idx))
    { bits := if later then b.bits else a.bits, idx := if later then b.idx else a.idx, flags := fl ||| amaxFlags ty a.bits b.bits }

/-- What a reduction writes; with every operand absent 0, or all ones for argmax (R200). -/
def redResult (ty : ETy) (op : RedOp) (base : Nat) : Option TVal → FpRes
  | none => { bits := if op = .amax then 2 ^ etyBits ty - 1 else 0 }
  | some v =>
    { bits := if op = .amax then v.idx - base else if etyIsFp ty && isNan (fpDecode (fmtOf ty) v.bits) then fmtNan (fmtOf ty) else v.bits,
      flags := v.flags }

/-- A present operand of a reduction or scan: a signalling NaN is invalid even where it is the only operand (R49), whose bits
R65 then returns unchanged (log entry 81). -/
def lineVal (ty : ETy) (x i : Nat) : TVal :=
  { bits := x, idx := i, flags := if etyIsFp ty && fpDecode (fmtOf ty) x == .nan true then flInvalid else 0 }

/-- The elements of line `i` along an axis (R199): row i, or column i. -/
def axisElems (ax : Axis) (i : Nat) : List Nat :=
  match ax with
  | .row => (List.range 64).map (fun j => 64 * i + j)
  | .col => (List.range 16).map (fun j => 64 * j + i)
def axisLog (ax : Axis) : Nat := match ax with | .row => 6 | .col => 4
def axisLine (ax : Axis) (e : Nat) : Nat := match ax with | .row => e / 64 | .col => e % 64
def axisPos (ax : Axis) (e : Nat) : Nat := match ax with | .row => e % 64 | .col => e / 64
def axisLines (ax : Axis) : Nat := match ax with | .row => 16 | .col => 64

/-- The operands of lane `k` along a line, absent where the mask is 0. -/
def lineVals (c : Core) (ty : ETy) (a : Nat) (mk : Option Reg) (ax : Axis) (i k : Nat) : List (Option TVal) :=
  (axisElems ax i).map (fun e =>
    if maskOn c mk e then some (lineVal ty (laneGet (etyBits ty) (vget c a e) k) (axisPos ax e)) else none)

def execVred (h : Hd) (op : RedOp) (ax : Axis) (ty : ETy) (md : BitVec 6) (d a : Reg) (mk : Option Reg) (s : State) : Out :=
  runWord s h { eff := effDo (fun s =>
    let c := curCore s
    let res := (List.range (axisLines ax)).map (fun i =>
      elOf (etyBits ty) ((List.range (etyLanes ty)).map (fun k =>
        redResult ty op 0 (treeReduce (redOp s ty md op) (axisLog ax) (lineVals c ty a.toNat mk ax i k)))))
    writeVec s d.toNat (fun _ => true) (fun e => res.getD (axisLine ax e) { val := 0 })) }

def execVscan (h : Hd) (op : RedOp) (ax : Axis) (ty : ETy) (md : BitVec 6) (d a : Reg) (mk : Option Reg) (s : State) : Out :=
  runWord s h { eff := effDo (fun s =>
    let c := curCore s
    let res := (List.range (axisLines ax)).map (fun i =>
      (List.range (etyLanes ty)).map (fun k => treeScan (redOp s ty md op) (axisLog ax) (lineVals c ty a.toNat mk ax i k)))
    writeVec s d.toNat (fun _ => true) (fun e =>
      elOf (etyBits ty) ((res.getD (axisLine ax e) []).map (fun l => redResult ty op 0 (l.getD (axisPos ax e) none))))) }

/-- The first element of the segment that holds element `e` (R202). -/
def segStart (m : BitVec 1024) : Nat → Nat
  | 0 => 0
  | e + 1 => if m.getLsbD (e + 1) then e + 1 else segStart m e

def execVsred (h : Hd) (op : RedOp) (ty : ETy) (md : BitVec 6) (d a e : Reg) (s : State) : Out :=
  runWord s h { eff := effDo (fun s =>
    let c := curCore s
    let m := kget c e.toNat
    let seg (b : Nat) : ElRes := elOf (etyBits ty) ((List.range (etyLanes ty)).map (fun k =>
      redResult ty op b (treeReduce (redOp s ty md op) 10 ((List.range 1024).map (fun i =>
        if segStart m i = b then some (lineVal ty (laneGet (etyBits ty) (vget c a.toNat i) k) i) else none)))))
    let starts := (List.range 1024).filter (fun i => segStart m i == i)
    let res := starts.map (fun b => (b, seg b))
    writeVec s d.toNat (fun _ => true) (fun i => ((res.find? (fun p => p.1 == segStart m i)).map (fun p => p.2)).getD { val := 0 })) }

/-! ## Masks (R203) -/

def maskWord (s : State) (h : Hd) (d : Reg) (f : State → BitVec 1024) : Out :=
  runWord s h { eff := effDo (fun s => upCur s (fun c => kset c d.toNat (f s))) }
/-- The executing core's mask register. -/
def rdK (s : State) (a : Reg) : BitVec 1024 := kget (curCore s) a.toNat

def execKand (h : Hd) (d a b : Reg) (s : State) : Out := maskWord s h d fun s => rdK s a &&& rdK s b
def execKor (h : Hd) (d a b : Reg) (s : State) : Out := maskWord s h d fun s => rdK s a ||| rdK s b
def execKxor (h : Hd) (d a b : Reg) (s : State) : Out := maskWord s h d fun s => rdK s a ^^^ rdK s b
def execKnot (h : Hd) (d a : Reg) (s : State) : Out := maskWord s h d fun s => ~~~rdK s a
def execKpopc (h : Hd) (d a : Reg) (s : State) : Out := setReg s h d fun s => BitVec.ofNat 64 (popcN 1024 (rdK s a).toNat)
/-- The lowest set index, 1,024 if none. -/
def firstSet (m : BitVec 1024) : Nat := ((List.range 1024).find? (fun i => m.getLsbD i)).getD 1024
def execKffs (h : Hd) (d a : Reg) (s : State) : Out := setReg s h d fun s => BitVec.ofNat 64 (firstSet (rdK s a))
def execKmov (h : Hd) (d a : Reg) (s : State) : Out := maskWord s h d fun s => rdK s a
def execKmovSet (h : Hd) (d : Reg) (s : State) : Out := maskWord s h d fun _ => BitVec.allOnes 1024
def execKmovClr (h : Hd) (d : Reg) (s : State) : Out := maskWord s h d fun _ => 0
/-- The mask whose bits 0 to n − 1 are set, n at most 1,024. -/
def firstMask (n : Nat) : BitVec 1024 := BitVec.ofNat 1024 (2 ^ min n 1024 - 1)
def execKmovFirst (h : Hd) (d a : Reg) (s : State) : Out := maskWord s h d fun s => firstMask (rd s a).toNat

end Sys2Proof.Machine
end

