-- ==== Sys2Proof/Machine/Assayer.lean ====
section
/-! DEFINITION. The Assayer: context records (R267), runs and their result blocks (R268), candidate memory (R269), and
the words of its programs (R270–R274). -/

namespace Sys2Proof.Machine

/-! ## Context records (R267) -/

def drawCnt (c : AsyCtx) (p o : Nat) : Nat := SMap.get 0 c.draws (8 * p + o)

/-- A context record read, or none where it breaks a limit. -/
def parseCtx (l : List Byte) : Option AsyCtx :=
  let n (o k : Nat) : Nat := leNat ((l.drop o).take k)
  if n 16 1 ≤ 16 ∧ n 17 1 ≤ 1 ∧ n 18 6 = 0 ∧ n 88 8 = 0 ∧ n 224 32 = 0 ∧
     (List.range 16).all (fun i => decide (i < n 16 1) || n (24 + 4 * i) 4 == 0) ∧
     (List.range 32).all (fun i => decide (n (96 + 4 * i) 4 ≤ 65536)) then
    some { bound := true, seed := BitVec.ofNat 64 (n 0 8), seq := BitVec.ofNat 32 (n 8 4), pos := n 12 4, nstop := n 16 1,
           retired := n 17 1 == 1, stops := SMap.tab 0 16 (fun i => BitVec.ofNat 32 (n (24 + 4 * i) 4)),
           draws := SMap.tab 0 32 (fun i => n (96 + 4 * i) 4), mask := BitVec.allOnes 262144 }
  else none

/-- The record of a context. -/
def ctxBytes (c : AsyCtx) : List Byte :=
  leBytes 8 c.seed.toNat ++ leBytes 4 c.seq.toNat ++ leBytes 4 c.pos ++ leBytes 1 c.nstop ++ leBytes 1 (if c.retired then 1 else 0) ++
  leBytes 6 0 ++ (List.range 16).flatMap (fun i => leBytes 4 (SMap.get 0 c.stops i).toNat) ++ leBytes 8 0 ++
  (List.range 32).flatMap (fun i => leBytes 4 (SMap.get 0 c.draws i)) ++ leBytes 32 0

/-- `asy.bind` of a record. -/
def asyBind (s : State) (u c : Nat) (l : List Byte) : SeqRes :=
  match parseCtx l with
  | none => seqSt s stBadcmd
  | some x => seqOk (setAsyCtx s u c x)

/-- `asy.stat`. -/
def asyStat (s : State) (w : Who) (u c addr : Nat) : SeqRes :=
  if !(asyCtx s u c).bound then seqSt s stNoctx else seqWrite s w addr (ctxBytes (asyCtx s u c))

/-! ## Runs (R268) -/

/-- On whose behalf a run reads and writes memory. -/
def runWho (r : Run) : Who := { core := r.core, eng := .h, part := r.part, ctx := r.hctx, fore := r.fore, agent := .seq }

/-- A run descriptor read, or none where a field is outside its limits. -/
def parseRun (l : List Byte) : Option Run :=
  let n (o k : Nat) : Nat := leNat ((l.drop o).take k)
  if 1 ≤ n 32 4 ∧ n 32 4 ≤ 262144 ∧ n 36 4 % 4 = 0 ∧ n 40 4 % 4 = 0 ∧ n 44 1 ≤ 2 ∧ n 45 19 = 0 ∧
     (n 16 8 = 0 ∨ n 16 8 / 2 ^ 48 = 0xFFFE) then
    some { prog := BitVec.ofNat 64 (n 0 8), logits := BitVec.ofNat 64 (n 8 8), draftp := BitVec.ofNat 64 (n 16 8),
           result := BitVec.ofNat 64 (n 24 8), vocab := n 32 4, lpitch := n 36 4, dpitch := n 40 4, ltype := n 44 1,
           regs := SMap.tab 0 16 (fun i => BitVec.ofNat 32 (n (64 + 4 * i) 4)) }
  else none

/-- The bytes of a run descriptor. -/
def runBytes (r : Run) : List Byte :=
  leBytes 8 r.prog.toNat ++ leBytes 8 r.logits.toNat ++ leBytes 8 r.draftp.toNat ++ leBytes 8 r.result.toNat ++ leBytes 4 r.vocab ++
  leBytes 4 r.lpitch ++ leBytes 4 r.dpitch ++ leBytes 1 r.ltype ++ leBytes 19 0 ++
  (List.range 16).flatMap (fun i => leBytes 4 (SMap.get 0 r.regs i).toNat)

/-- Where the generation loop keeps its run descriptor in the Foreman pair store, by location; its result block comes 128 bytes
later (R289; log entry 91). -/
def loopPlace : Nat := pairBase + Config.loopArea % 2 ^ 15 * 256

/-- Bytes that the loop or a run of its writes to the Foreman pair store (R289). -/
def loopWrite (s : State) (at_ : Nat) (l : List Byte) : State := writeMem s (((List.range l.length).map (fun i => at_ + i)).zip l)

/-- What a run is refused for, and then the state of its context. -/
def runRefusal (s : State) (w : Who) (r : Run) (u c : Nat) : Option Nat :=
  match worst (seqSrcBad s w r.prog.toNat ++ seqSrcBad s w r.logits.toNat ++ seqDstBad s w r.result.toNat) with
  | some st => some st
  | none => if !(asyCtx s u c).bound then some stNoctx else if (asyCtx s u c).retired then some stRetired else none

/-- A run started on a unit. -/
def startRun (s : State) (u : Nat) (r : Run) : State := upAsy s u (fun a => { a with run := some r })

def areg (r : Run) (a : BitVec 4) : W32 := SMap.get 0 r.regs a.toNat
def setAreg (r : Run) (d : BitVec 4) (v : W32) : Run := { r with regs := SMap.set 0 r.regs d.toNat v }

/-- The result block of a run that ends with a halt code. -/
def resultBytes (r : Run) (c : AsyCtx) (code : Nat) : List Byte :=
  (List.range 8).flatMap (fun i => leBytes 4 (r.tokens.getD i 0).toNat) ++ leBytes 4 r.tokens.length ++ leBytes 4 c.pos ++
  leBytes 4 code ++ leBytes 1 ((if r.stopped then 1 else 0) + if r.nan then 2 else 0) ++ leBytes 3 0 ++
  (List.range 4).flatMap (fun i => leBytes 4 (SMap.get 0 r.regs (12 + i)).toNat)

/-- A run ended: its result block is written, then its completion is there. A block that cannot be written turns OK into
the status of that write. -/
def endRun (s : State) (u : Nat) (r : Run) (st : Stop) (code : Nat) : State :=
  let s := upAsy s u (fun a => { a with run := none })
  let block := resultBytes r (asyCtx s u r.ctx) code
  let s := if st.status = stE2e then seqReport s r.core st.addr else s
  let res : CRes := { status := st.status, fcode := st.fcode, e2e := st.e2e, flags := if r.nan then 4 else 0, count := r.count,
                      findex := r.idx, tick := s.tick }
  match r.loop with
  | some _ => upAsy (loopWrite s (loopPlace + 128) block) u (fun a => { a with fin := some (block, res) })
  | none =>
    let p := seqWrite s (runWho r) r.result.toNat block
    let s := if p.res.status = stE2e then seqReport p.s r.core p.addr else p.s
    let res := if st.status = 0 ∧ p.res.status ≠ 0 then { res with status := p.res.status, fcode := p.res.fcode, e2e := p.res.e2e } else res
    upCmd s r.core .store r.cmd (fun c => { c with done := some { res with flags := res.flags ||| c.flags } })

/-! ## Words (R269, R270)

The unit whose word executes is `asyCur`. -/

/-- What a word comes to: the run and context after it and how far the next word lies; or the run's end, with a halt code
or a status. -/
inductive AEff where
  | go (r : Run) (c : AsyCtx) (dist : Int)
  | mem (s : State) (r : Run)
  | halt (r : Run) (c : AsyCtx) (code : Nat)
  | fail (s : State) (st : Stop)

/-- A word that only changes the run. -/
def aRun (c : AsyCtx) (r : Run) : AEff := .go r c 1
def aFail (s : State) (st : Nat) : AEff := .fail s { status := st }

/-- A word of the current Assayer's run: it counts as executed, and the run goes on, ends, or has reached its limit of
words. -/
def asyWord (s : State) (f : State → Run → AsyCtx → AEff) : Out :=
  let u := s.asyCur
  .next (match (asyAt s u).run with
  | none => s
  | some r0 =>
    let r0 := { r0 with count := r0.count + 1 }
    let on (s : State) (r : Run) (c : AsyCtx) (dist : Int) : State :=
      let s := setAsyCtx s u r.ctx c
      if r.count = 65536 then endRun s u r { status := stAsyloop } 0
      else startRun s u { r with idx := ((r.idx : Int) + dist).toNat }
    match f s r0 (asyCtx s u r0.ctx) with
    | .go r c dist => on s r c dist
    | .mem s r => on s r (asyCtx s u r.ctx) 1
    | .halt r c code => endRun (setAsyCtx s u r.ctx c) u r { status := 0 } code
    | .fail s st => endRun s u r0 st 0)

/-! ## Candidates (R269) -/

def f32 (x : W32) : FpVal := fpDecode fmt32 x.toNat
def w32 (r : FpRes) : W32 := BitVec.ofNat 32 r.bits
def isNanW (x : W32) : Bool := isNan (f32 x)

/-- The candidates with those that have become NaN no longer live. -/
def dropNans (r : Run) (l : List Cand) : Run :=
  { r with cand := l.map (fun e => if e.live && isNanW e.val then { e with live := false } else e),
           nan := r.nan || l.any (fun e => e.live && isNanW e.val) }

/-- Every live candidate's VALUE rewritten. -/
def mapCand (r : Run) (f : Cand → W32) : Run := dropNans r (r.cand.map (fun e => if e.live then { e with val := f e } else e))

/-- LIVE cleared where a live candidate fails a test. -/
def keepCand (r : Run) (f : Cand → Bool) : Run := { r with cand := r.cand.map (fun e => if e.live && !f e then { e with live := false } else e) }

/-- The operands of a tree: live values in candidate order. -/
def candVals (r : Run) : List (Option TVal) := r.cand.map (fun e => if e.live then some { bits := e.val.toNat } else none)

/-- The smallest k with 2^k ≥ n. -/
def log2Up (n : Nat) : Nat := if n ≤ 1 then 0 else Nat.log2 (n - 1) + 1

def padTo (n : Nat) (l : List (Option TVal)) : List (Option TVal) := l ++ List.replicate (n - l.length) none

def maxOp (a b : TVal) : TVal := { bits := (minMax fmt32 true a.bits b.bits).bits }
def addOp (a b : TVal) : TVal := { bits := (addVal fmt32 .rne (fpDecode fmt32 a.bits) (fpDecode fmt32 b.bits)).bits }

/-- A tree reduction of the candidates (R72), `base` where none is live. -/
def candTree (r : Run) (op : TVal → TVal → TVal) (base : Nat) : W32 :=
  let k := log2Up r.cand.length
  BitVec.ofNat 32 (match treeReduce op k (padTo (2 ^ k) (candVals r)) with | some t => t.bits | none => base)

def candMax (r : Run) : W32 := candTree r maxOp (withSign fmt32 true (fmtInf fmt32))

/-- The inclusive prefix sums of the live candidates (R272). -/
def candScan (r : Run) : List (Option TVal) :=
  let k := log2Up r.cand.length
  (treeScan addOp k (padTo (2 ^ k) (candVals r))).take r.cand.length

/-! ## Rows of logits and draft probabilities (R271) -/

/-- A FP32 value at a column of a draft row. -/
def draftAddr (r : Run) (row col : Nat) : Except Stop Nat := addOff r.draftp.toNat (row * r.dpitch + 4 * col)

def readDraft (s : State) (r : Run) (row col : Nat) : Except Stop W32 :=
  match draftAddr r row col with
  | .error x => .error x
  | .ok a => (engBytes s (runWho r) a 4).map (fun l => BitVec.ofNat 32 (leNat l))

/-- Values read one by one up to the first failure. -/
def readAll {α : Type} (f : α → Except Stop W32) (l : List α) : Except Stop (List W32) :=
  l.foldr (fun a (r : Except Stop (List W32)) =>
    match f a, r with
    | .error x, _ => .error x
    | .ok _, .error x => .error x
    | .ok v, .ok l => .ok (v :: l)) (.ok [])

def logSize (r : Run) : Nat := if r.ltype = 0 then 4 else 2

/-- A logit widened exactly. -/
def widen (ltype : Nat) (x : Nat) : W32 :=
  if ltype = 0 then BitVec.ofNat 32 x
  else if ltype = 1 then BitVec.ofNat 32 (2 ^ 16 * x)
  else w32 (roundVal fmt32 .rne (fpDecode fmt16 x))

def readLogit (s : State) (r : Run) (row i : Nat) : Except Stop W32 :=
  match addOff r.logits.toNat (row * r.lpitch + i * logSize r) with
  | .error x => .error x
  | .ok a => (engBytes s (runWho r) a (logSize r)).map (fun l => widen r.ltype (leNat l))

/-! ## The words -/

def execAsyHalt (imm : BitVec 14) (s : State) : Out := asyWord s fun _ r c => .halt r c imm.toNat

def execAsyLdlog (a : BitVec 4) (s : State) : Out :=
  asyWord s fun s r c =>
    match readAll (readLogit s r (areg r a).toNat) (List.range r.vocab) with
    | .error x => .fail s x
    | .ok l => aRun c (dropNans r ((List.range r.vocab).map (fun i => { val := l.getD i 0, id := i, live := true })))

def execAsyScl (a : BitVec 4) (s : State) : Out :=
  asyWord s fun _ r c => aRun c (mapCand r (fun e => w32 (mulVal fmt32 .rne (f32 e.val) (f32 (areg r a)))))
def execAsySub (a : BitVec 4) (s : State) : Out :=
  asyWord s fun _ r c => aRun c (mapCand r (fun e => w32 (addVal fmt32 .rne (f32 e.val) (fpNeg (f32 (areg r a))))))
def execAsyExp (s : State) : Out :=
  asyWord s fun _ r c => aRun c (mapCand r (fun e => w32 (fnLane .exp fmt32 .rne false e.val.toNat)))
def execAsyDiv (a : BitVec 4) (s : State) : Out :=
  asyWord s fun _ r c => aRun c (mapCand r (fun e => w32 (divVal fmt32 .rne (f32 e.val) (f32 (areg r a)))))
def execAsyDivS (d a b : BitVec 4) (s : State) : Out :=
  asyWord s fun _ r c => aRun c (setAreg r d (w32 (divVal fmt32 .rne (f32 (areg r a)) (f32 (areg r b)))))
def execAsyTmax (d : BitVec 4) (s : State) : Out := asyWord s fun _ r c => aRun c (setAreg r d (candMax r))
def execAsyTsum (d : BitVec 4) (s : State) : Out := asyWord s fun _ r c => aRun c (setAreg r d (candTree r addOp 0))

def execAsyMinp (a : BitVec 4) (s : State) : Out :=
  asyWord s fun _ r c =>
    let t := w32 (mulVal fmt32 .rne (f32 (candMax r)) (f32 (areg r a)))
    aRun c (keepCand r (fun e => !ltVal false (f32 e.val) (f32 t)))

def execAsyMask (s : State) : Out := asyWord s fun _ r c => aRun c (keepCand r (fun e => c.mask.getLsbD e.id))

/-- The order of `sort` (R272): whether the first of two entries stands before the second. -/
def candBefore (x y : Cand) : Bool :=
  if x.live && y.live then ltVal true (f32 y.val) (f32 x.val) || (!ltVal true (f32 x.val) (f32 y.val) && decide (x.id ≤ y.id))
  else if x.live != y.live then x.live
  else decide (x.id ≤ y.id)

def insertCand (x : Cand) : List Cand → List Cand
  | [] => [x]
  | y :: l => if candBefore x y then x :: y :: l else y :: insertCand x l

def sortCands (l : List Cand) : List Cand := l.foldr insertCand []

def execAsySort (s : State) : Out := asyWord s fun _ r c => aRun c { r with cand := sortCands r.cand }

def execAsyScan (s : State) : Out :=
  asyWord s fun _ r c =>
    aRun c (dropNans r ((r.cand.zip (candScan r)).map (fun p =>
      match p.1.live, p.2 with | true, some t => { p.1 with val := BitVec.ofNat 32 t.bits } | _, _ => p.1)))

/-- The nucleus cut (R272). -/
def toppCut (r : Run) (p : W32) : List Cand :=
  let sums := candScan r
  let at_ := (List.range r.cand.length).find? (fun i =>
    (r.cand.getD i {}).live && (match sums.getD i none with
      | some t => !isNan (fpDecode fmt32 t.bits) && !isNanW p && !ltVal false (fpDecode fmt32 t.bits) (f32 p)
      | none => false))
  match at_ with
  | none => r.cand
  | some k =>
    let v := f32 (r.cand.getD k {}).val
    (List.range r.cand.length).map (fun i =>
      let e := r.cand.getD i {}
      if k < i ∧ e.live ∧ !eqVal (f32 e.val) v then { e with live := false } else e)

def execAsyTopp (a : BitVec 4) (s : State) : Out := asyWord s fun _ r c => aRun c { r with cand := toppCut r (areg r a) }

/-- The message of a draw (R274). -/
def drawMsg (seed seq pos purpose c : Nat) : List Byte :=
  [0x43, 0x56, 0x52, 0x47] ++ beBytes 8 seed ++ beBytes 4 seq ++ beBytes 4 pos ++ beBytes 2 purpose ++ beBytes 2 (c / 8) ++ beBytes 8 0

/-- `draw_value` (R274): 24 bits of the digest's word as an exact FP32 in [0, 1). -/
def drawValue (seed seq pos purpose c : Nat) : W32 :=
  let n := ((sm3Words (drawMsg seed seq pos purpose c)).getD (c % 8) 0).toNat / 256
  if n = 0 then 0 else w32 (roundFin fmt32 .rne false n (-24) false)

def execAsyDraw (d a : BitVec 4) (p : BitVec 2) (s : State) : Out :=
  asyWord s fun s r c =>
    let o := (areg r a).toNat
    let n := drawCnt c p.toNat o
    if 7 < o then aFail s stAsyill
    else if n = 65536 then aFail s stStrexh
    else if 2 ^ 32 ≤ c.pos + o then aFail s stPoslimit
    else .go (setAreg r d (drawValue c.seed.toNat c.seq.toNat (c.pos + o) p.toNat n))
             { c with draws := SMap.set 0 c.draws (8 * p.toNat + o) (n + 1) } 1

def execAsyPick (d a : BitVec 4) (s : State) : Out :=
  asyWord s fun s r c =>
    let live := r.cand.filter (fun e => e.live)
    match live.find? (fun e => ltVal false (f32 (areg r a)) (f32 e.val)), live.getLast? with
    | some e, _ => aRun c (setAreg r d (BitVec.ofNat 32 e.id))
    | none, some e => aRun c (setAreg r d (BitVec.ofNat 32 e.id))
    | none, none => aFail s stEmpty

/-- The VALUE of the live entry with an ID, or +0. -/
def valOf (r : Run) (id : Nat) : W32 := match r.cand.find? (fun e => e.live && e.id == id) with | some e => e.val | none => 0

def execAsyVal (d a : BitVec 4) (s : State) : Out := asyWord s fun _ r c => aRun c (setAreg r d (valOf r (areg r a).toNat))

def execAsyValQ (d a b : BitVec 4) (s : State) : Out :=
  asyWord s fun s r c =>
    if r.draftp = 0 then aFail s stBadcmd
    else match readDraft s r (areg r b).toNat (areg r a).toNat with
      | .error x => .fail s x
      | .ok v => aRun c (setAreg r d v)

def execAsyStp (a : BitVec 4) (s : State) : Out :=
  asyWord s fun s r _ =>
    if r.draftp = 0 then aFail s stBadcmd
    else
      let p := putAll s (runWho r) ((List.range r.vocab).map (fun i => (draftAddr r (areg r a).toNat i, leBytes 4 (valOf r i).toNat)))
      match p.2.1 with
      | some x => .fail p.1 x
      | none => .mem p.1 r

/-- Whether a token is in the stop set. -/
def inStops (c : AsyCtx) (t : W32) : Bool := (List.range c.nstop).any (fun i => SMap.get 0 c.stops i == t)

def execAsyStop (d a : BitVec 4) (s : State) : Out :=
  asyWord s fun _ r c => aRun c (setAreg r d (if inStops c (areg r a) then 1 else 0))

/-- The draw counts moved down by one position (R273). -/
def shiftDraws (c : AsyCtx) : AsyCtx :=
  { c with pos := c.pos + 1, draws := SMap.tab 0 32 (fun i => if i % 8 = 7 then 0 else SMap.get 0 c.draws (i + 1)) }

def execAsyCommit (a : BitVec 4) (s : State) : Out :=
  asyWord s fun s r c =>
    let t := areg r a
    if c.pos = 2 ^ 32 - 1 then aFail s stPoslimit
    else if 8 ≤ r.tokens.length then aFail s stBadcmd
    else
      let r := { r with tokens := r.tokens ++ [t] }
      if inStops c t then .halt { r with stopped := true } { shiftDraws c with retired := true } 0
      else .go r (shiftDraws c) 1

def execAsyAccept (d a b : BitVec 4) (s : State) : Out :=
  asyWord s fun _ r c =>
    let x := mulExact (f32 (areg r d)) (f32 (areg r b))
    let p := f32 (areg r a)
    aRun c (setAreg r d (if !isNan x && !isNan p && ltVal false x p then 1 else 0))

def execAsyResid (a : BitVec 4) (s : State) : Out :=
  asyWord s fun s r c =>
    if r.draftp = 0 then aFail s stBadcmd
    else match readAll (fun (e : Cand) => if e.live then readDraft s r (areg r a).toNat e.id else .ok 0) r.cand with
      | .error x => .fail s x
      | .ok q =>
        let diff (e : Cand) (q : W32) : W32 :=
          BitVec.ofNat 32 (minMax fmt32 true (addVal fmt32 .rne (f32 e.val) (fpNeg (f32 q))).bits 0).bits
        aRun c (dropNans r ((r.cand.zip q).map (fun p => if p.1.live then { p.1 with val := diff p.1 p.2 } else p.1)))

def execAsyMov (d a : BitVec 4) (s : State) : Out := asyWord s fun _ r c => aRun c (setAreg r d (areg r a))
def execAsyMovi (d : BitVec 4) (imm : BitVec 14) (s : State) : Out := asyWord s fun _ r c => aRun c (setAreg r d (imm.signExtend 32))
def execAsyAddF (d a b : BitVec 4) (s : State) : Out :=
  asyWord s fun _ r c => aRun c (setAreg r d (w32 (addVal fmt32 .rne (f32 (areg r a)) (f32 (areg r b)))))
def execAsyAddI (d a b : BitVec 4) (s : State) : Out := asyWord s fun _ r c => aRun c (setAreg r d (areg r a + areg r b))
def execAsyMulF (d a b : BitVec 4) (s : State) : Out :=
  asyWord s fun _ r c => aRun c (setAreg r d (w32 (mulVal fmt32 .rne (f32 (areg r a)) (f32 (areg r b)))))
def execAsyMulI (d a b : BitVec 4) (s : State) : Out := asyWord s fun _ r c => aRun c (setAreg r d (areg r a * areg r b))

/-- The extent of the memory that an address lies in. -/
def extentOf (s : State) (w : Who) (addr : Nat) : Nat :=
  if addr / 2 ^ 48 = 0xFFFE then 2 ^ 26 else match htAt s w.part w.ctx (addr / 2 ^ 48) with | some e => e.ext | none => 0

/-- A branch that is taken where `on` holds: its target must lie within the text's handle (R270). -/
def asyBranch (s : State) (r : Run) (c : AsyCtx) (on : Bool) (dist : BitVec 12) : AEff :=
  if !on then aRun c r
  else
    let t : Int := (r.idx : Int) + dist.toInt
    if t < 0 ∨ extentOf s (runWho r) r.prog.toNat < r.prog.toNat % 2 ^ 48 + 4 * t.toNat + 4 then aFail s stAsyill
    else .go r c dist.toInt

def execAsyBrAl (dist : BitVec 12) (s : State) : Out := asyWord s fun s r c => asyBranch s r c true dist
def execAsyBrZ (a : BitVec 4) (dist : BitVec 12) (s : State) : Out := asyWord s fun s r c => asyBranch s r c (areg r a == 0) dist
def execAsyBrNz (a : BitVec 4) (dist : BitVec 12) (s : State) : Out := asyWord s fun s r c => asyBranch s r c (areg r a != 0) dist

/-- What `stat` selects (R271). -/
def asySel (r : Run) (c : AsyCtx) (sel : Nat) : Nat :=
  match sel with
  | 0 => (r.cand.filter (fun e => e.live)).length
  | 1 => r.cand.length
  | 2 => c.pos
  | 3 => c.seq.toNat
  | 4 => r.tokens.length
  | 5 => if c.retired then 1 else 0
  | n => SMap.get 0 c.draws (n - 0x40)

def execAsyStatRead (d : BitVec 4) (sel : BitVec 8) (s : State) : Out :=
  asyWord s fun s r c => if asyStatOk sel then aRun c (setAreg r d (BitVec.ofNat 32 (asySel r c sel.toNat))) else aFail s stAsyill

/-! ## The commands `asy.bind`, `asy.run` and `asy.stat` (R264–R268) -/

def asyRefusal (s : State) (w : Who) (c : Cmd) : Option Nat :=
  worst (selBad s w false c.rb ++
    (match c.op with
     | .aBind => [(c.ra.toNat % 64 != 0, stBadcmd)]
     | .aStat => (c.ra.toNat % 64 != 0, stBadcmd) :: seqDstBad s w c.ra.toNat
     | _ => [((parseRun c.desc).isNone, stBadcmd)]))

/-- An Assayer command at the head of its queue. It waits while its unit runs a program (R268). -/
def runAsy (s : State) (core : Nat) (c : Cmd) : State :=
  let w := seqWho s core
  let u := selUnit c.rb
  let x := selCtx c.rb
  match asyRefusal s w c with
  | some st => finishCmd s core .store { status := st }
  | none =>
    if c.started || (asyAt s u).run.isSome then s
    else match c.op with
      | .aBind => finishSeq s core (asyBind s u x c.desc)
      | .aStat => finishSeq s core (asyStat s w u x c.ra.toNat)
      | _ =>
        match parseRun c.desc with
        | none => finishCmd s core .store { status := stBadcmd }
        | some r =>
          match runRefusal s w r u x with
          | some st => finishCmd s core .store { status := st }
          | none =>
            startRun (upHead s core .store (fun c => { c with started := true })) u
              { r with core := core, cmd := c.id, part := w.part, hctx := w.ctx, fore := w.fore, ctx := x }

def execAsyBind (h : Hd) (d a b : Reg) (imm : W32) (s : State) : Out := seqWord .aBind 256 h d a b 0 imm s
def execAsyRun (h : Hd) (d a b : Reg) (imm : W32) (s : State) : Out := seqWord .aRun 128 h d a b 0 imm s
def execAsyStat (h : Hd) (d a b : Reg) (imm : W32) (s : State) : Out := seqWord .aStat 0 h d a b 0 imm s

/-! ## The turn of an Assayer -/

/-- The meaning of an Assayer word by its fields: the same meanings that `exec` gives the instructions that `buildAsy`
names. -/
def asyExec (r : AsyRaw) (s : State) : Out :=
  let i12 : BitVec 12 := r.imm.extractLsb' 0 12
  match r.op.toNat with
  | 0x00 => execAsyHalt r.imm s
  | 0x01 => execAsyLdlog r.a s
  | 0x02 => execAsyScl r.a s
  | 0x03 => execAsySub r.a s
  | 0x04 => execAsyExp s
  | 0x05 => if r.imm = 0 then execAsyDiv r.a s else execAsyDivS r.d r.a r.b s
  | 0x06 => execAsyTmax r.d s
  | 0x07 => execAsyTsum r.d s
  | 0x08 => execAsyMinp r.a s
  | 0x09 => execAsyMask s
  | 0x0A => execAsySort s
  | 0x0B => execAsyScan s
  | 0x0C => execAsyTopp r.a s
  | 0x0D => execAsyDraw r.d r.a (r.imm.extractLsb' 0 2) s
  | 0x0E => execAsyPick r.d r.a s
  | 0x0F => if r.imm = 0 then execAsyVal r.d r.a s else execAsyValQ r.d r.a r.b s
  | 0x10 => execAsyStp r.a s
  | 0x11 => execAsyStop r.d r.a s
  | 0x12 => execAsyCommit r.a s
  | 0x13 => execAsyAccept r.d r.a r.b s
  | 0x14 => execAsyResid r.a s
  | 0x15 => execAsyMov r.d r.a s
  | 0x16 => execAsyMovi r.d r.imm s
  | 0x17 => if r.imm = 0 then execAsyAddF r.d r.a r.b s else execAsyAddI r.d r.a r.b s
  | 0x18 => if r.imm = 0 then execAsyMulF r.d r.a r.b s else execAsyMulI r.d r.a r.b s
  | 0x19 =>
    match (r.imm.extractLsb' 12 2).toNat with
    | 0 => execAsyBrAl i12 s
    | 1 => execAsyBrZ r.a i12 s
    | _ => execAsyBrNz r.a i12 s
  | _ => execAsyStatRead r.d (r.imm.extractLsb' 0 8) s

/-- A word that is none of R271's ends its run (R270). -/
def asyIllegal (s : State) : Out := asyWord s fun s _ _ => aFail s stAsyill

/-- The word at the index of an Assayer's run. -/
def fetchAsy (s : State) (r : Run) : Except Stop W32 :=
  match addOff r.prog.toNat (4 * r.idx) with
  | .error x => .error x
  | .ok a => (engBytes s (runWho r) a 4).map (fun l => BitVec.ofNat 32 (leNat l))

/-- An Assayer with a run fetches and executes one word; a fetch that fails ends the run. -/
def asyTurn (s : State) (u : Nat) : Out :=
  let s := { s with asyCur := u }
  match (asyAt s u).run with
  | none => .next s
  | some r =>
    match fetchAsy s r with
    | .error x => .next (endRun s u r x 0)
    | .ok w => if asyWordOk (unpackAsy w) then asyExec (unpackAsy w) s else asyIllegal s

end Sys2Proof.Machine
end

