-- ==== Sys2Proof/Machine/Care.lean ====
section
/-! DEFINITION. Shoring's steals and refreshes (R382–R385), and the bond self-test (R386–R388). -/

namespace Sys2Proof.Machine

/-! ## Blocks (R382) -/

def planeExists (s : State) (stack die plane : Nat) : Bool := decide (stack < stackCount s) && decide (die < 8) && decide (plane < 128)

/-- Whether a page lies in a fast block (R377). -/
def pageFast (s : State) (p : Nat × Nat × Nat) : Bool :=
  match regionAt s p.1 with
  | some r => p.2.2 == 8 || (if r.layout = 0 then isFast r p.2.2 else r.fastn == 1)
  | none => false

/-- The thresholds of R382. -/
def urgentCount (fast : Bool) : Nat := if fast then 996148 else 249037
def refreshCount (fast : Bool) : Nat := if fast then 786432 else 196608
def ageLimit (fast : Bool) : Nat := if fast then 2 ^ 46 else 2 ^ 45
def retryLimit : Nat := 16
/-- Whether a block's counters call for a refresh (R382). -/
def refreshDue (s : State) (fast : Bool) (b : Block) : Bool :=
  decide (refreshCount fast ≤ b.disturb) || decide (ageLimit fast ≤ poweredAge s - b.born) || decide (retryLimit ≤ b.retries)

/-! ## Steals (R384) -/

/-- Whether a block of the plane group has reached its urgent count. -/
def groupUrgent (s : State) (stack die plane : Nat) : Bool :=
  s.blocks.any (fun p =>
    p.1 / (8192 * 128) == stack * 8 + die && p.1 / 8192 % 128 / 16 == plane / 16 &&
    (let pages := blockPages s stack die (p.1 / 8192 % 128) (p.1 % 8192)
     decide (urgentCount (pages.any (pageFast s)) ≤ p.2.disturb)))

/-- An array plane taken from the next tick on, for 10 ticks, at most once per plane group in any 64 ticks. -/
def stealPlane (s : State) (stack die plane : Nat) : State :=
  let late := (List.range 16).any (fun i =>
    let t := SMap.get 0 s.steals (planeKey stack die (plane / 16 * 16 + i))
    t != 0 && decide (s.tick + 1 < t + 64))
  if planeExists s stack die plane && groupUrgent s stack die plane && !late then
    { s with steals := SMap.set 0 s.steals (planeKey stack die plane) (s.tick + 1) }
  else s

def execShoringSteal (stack die plane : Nat) (s : State) : Out := .next (stealPlane s stack die plane)

/-! ## Refreshes (R385) -/

/-- Whether Shoring may work on a plane in this tick: a reserved one, or one in which it has taken the plane (R382–R384). -/
def shoringTick (s : State) (stack die plane : Nat) : Bool := reservedTick s.tick die plane || stolenTick s stack die plane

/-- The block that a refresh writes into, if there is one: where its program fails it is retired, and a spare takes its place if one is
left (R385). -/
def refreshTarget (s : State) (stack die plane start : Nat) (fails : Bool) : State × Option Nat :=
  match freeBlock s stack die plane start with
  | some b =>
    if fails then
      let left := spareLeft s stack die plane
      let s := spareFor s stack die plane b
      (s, if left = 0 then none else freeBlock s stack die plane start)
    else (s, some b)
  | none => (s, none)

/-- A block refreshed: its good pages move into a free block that the controller chooses, at one instant; the page at
place `i` of the block's pages cannot be corrected where `bad` holds `i`. Where `wrErr`, the program of the new block fails or the erase
of the old one, which is the outside's affair: a new block whose program fails is retired, and a spare takes its place. The old block is
retired for a spare where its erase fails or its soft retries have reached their limit; with no spare left its pages are lost. Where
nothing has failed and no block is free, the refresh waits. Shoring acts from Stage M on, in its own ticks, on blocks whose counters call
for it and, once it has read them at the mount, on any whose hard decode fails. -/
def refreshBlock (s : State) (stack die plane blk : Nat) (bad : List Nat) (wrErr : Bool) : State :=
  let key := blockKey stack die plane blk
  let pages := blockPages s stack die plane blk
  let b := blockAt s key
  if !planeExists s stack die plane || s.stage < 2 || b.retired || 8192 ≤ blk || !shoringTick s stack die plane ||
     pages.any (fun p => lregBusy s p.1) ||
     !((s.stage == 2 && SMap.get false s.scanned key) || refreshDue s (pages.any (pageFast s)) b) then s
  else
    let lost := ((List.range pages.length).zip pages).filter (fun p => bad.contains p.1)
    let good := ((List.range pages.length).zip pages).filter (fun p => !bad.contains p.1)
    let s := losePages s 3 (lost.map (fun p => p.2))
    let erase := wrErr && Config.freeBit s.free
    let retire := erase || decide (retryLimit ≤ b.retries)
    let s := { s with free := s.free + 2 }
    let p := refreshTarget s stack die plane (Config.freeWord (s.free - 1)).toNat (wrErr && !erase)
    match (if retire ∧ spareLeft p.1 stack die plane = 0 then none else p.2) with
    | none => if retire then losePages (spareFor p.1 stack die plane blk) 4 (good.map (fun p => p.2)) else p.1
    | some new =>
      let s := if retire then spareFor p.1 stack die plane blk else p.1
      let s := upBlock s key (fun b => { b with disturb := 0, retries := 0, born := poweredAge s })
      let s := upBlock s (blockKey stack die plane new) (fun b => { b with disturb := 0, retries := 0, born := poweredAge s })
      movePages s stack die plane new (good.map (fun p => p.2))

/-- Shoring's read of a block at the mount, made once: each of its pages is sensed, in a tick of Shoring's (R382). -/
def mountScan (s : State) (key : Nat) : State :=
  let plane := key / 8192 % 128
  let die := key / 2 ^ 20 % 8
  let pages := blockPages s (key / 2 ^ 23) die plane (key % 8192)
  if s.stage == 2 && !SMap.get false s.scanned key && planeExists s (key / 2 ^ 23) die plane && shoringTick s (key / 2 ^ 23) die plane then
    senseBlock { s with scanned := SMap.set false s.scanned key true } key pages.length false
  else s

/-- Whether Shoring has read every block that holds a page at this mount (R382). -/
def mountDone (s : State) : Bool :=
  s.regions.all (fun p =>
    match p.2 with
    | none => true
    | some r =>
      (List.range (regTiles r)).all (fun n => (List.range (regPages r)).all (fun i =>
        let l := tilePlace r n
        let k := blockKey l.1 l.2.1 l.2.2 (pageBlock p.1 r n i)
        SMap.get false s.scanned k || !planeExists s l.1 l.2.1 l.2.2)) &&
      r.smap.all (fun q => SMap.get false s.scanned (q.2 - 1)))

/-! ## Errors of LPDDR-6 (R89, R310) -/

/-- A corrected error of a channel, reported at each multiple of 65,536 (R310). -/
def correctedError (s : State) (ch : Nat) : State :=
  let n := SMap.get 0 s.corr ch + 1
  let s := { s with corr := SMap.set 0 s.corr ch n }
  if n % 65536 = 0 then holdReport s { cls := 2, code := 3, info := ch, tick := s.tick } else s

/-- A DRAM error on a block of 64 bytes: one that is corrected only counts; one that is not fails the block's check and is
reported. Which of a group's 16 channels holds the block is not stated (R89, R310; log entry 90). -/
def dramError (s : State) (pa : Nat) (lost : Bool) : State :=
  if pa / 2 ^ 37 < dramGroups s then
    let ch := 16 * (pa / 2 ^ 37) + (Config.freeWord s.free).toNat % 16
    let s := { s with free := s.free + 1 }
    if lost then
      holdReport { s with bad := SMap.set false s.bad (pa / 64) true } { cls := 2, code := 2, info := ch, addr := pa / 64 * 64, len := 64, tick := s.tick }
    else correctedError s ch
  else s

def execShoringRefresh (stack die plane blk : Nat) (bad : List Nat) (wrErr : Bool) (s : State) : Out :=
  .next (refreshBlock s stack die plane blk bad wrErr)

/-! ## The bond self-test (R386, R388) -/

def bondRec (s : State) (cls bus grp n : Nat) : FRec :=
  { cls := 2, code := 7, info := cls * 2 ^ 24 + bus * 2 ^ 16 + grp % 256 * 2 ^ 8 + n, tick := s.tick }

/-- The fatal error E2E of the context of the team on a retired pair's core (R306, R386). The spec says neither which engine's
word the record names nor which 64-byte range failed: both are free. -/
def failResident (s : State) (core : Nat) : State :=
  let c := coreAt s core
  let t := teamAt s c.tid
  if c.tid = 0x3FF then s
  else if c.tid = 0x3FE then foremanFault s
  else if liveState t.st then
    let cur := s.cur
    let g := engOfNum ((Config.freeWord s.free).toNat % 4)
    let a := (Config.freeWord (s.free + 1)).toNat % 2 ^ 58 * 64
    let s := { s with cur := { core := core, eng := g }, free := s.free + 2 }
    { fatalHere s ⟨5, 0, a, 64⟩ with cur := cur }
  else s

/-- Running records that no cluster can hold any more (R350). -/
def recheckRecords (s : State) : State :=
  { s with queues := s.queues.map (fun p => (p.1, { p.2 with rcd := p.2.rcd.map (recheckRec s (queuePart p.2)) })) }

/-- The row tiles of a region that reload requests name: runs of consecutive ones. -/
def tileRuns (l : List Nat) : List (Nat × Nat) :=
  l.foldl (fun acc k =>
    match acc.getLast? with
    | some (a, n) => if a + n = k then acc.dropLast ++ [(a, n + 1)] else acc ++ [(k, 1)]
    | none => [(k, 1)]) []

/-- The row tile, or first row of a row page, that a tile belongs to. -/
def reloadRow (r : Region) (n : Nat) : Nat := if r.layout = 0 then n / r.ncols else n

/-- The requests that ask the host to reload the tiles of a region: in row layout rows, else row tiles. -/
def reloadsOf (num : Nat) (r : Region) (tiles : List Nat) : List (Nat × Nat × Nat) :=
  (tileRuns ((tiles.map (reloadRow r)).eraseDups)).map (fun p =>
    if r.layout = 0 then (num, p.1, p.2)
    else (num, p.1 * rowsPerPage r, min (p.2 * rowsPerPage r) (r.nrows - p.1 * rowsPerPage r)))

/-- The copies of scale pages that lie in a plane group lost (R386). -/
def loseCopies (s : State) (num group : Nat) : State :=
  match regionAt s num with
  | none => s
  | some r => (r.smap.filter (fun q => (q.2 - 1) / 2 ^ 17 == group)).foldl (fun s q => loseCopy s 5 num q.1) s

/-- A plane group retired: its tiles are marked failed, and the host is asked to reload them. -/
def retireGroup (s : State) (stack die grp : Nat) : State :=
  let s := { s with deadGroups := SMap.set false s.deadGroups ((stack * 8 + die) * 8 + grp) true }
  (s.regions.map (fun p => p.1)).foldl (fun s num =>
    match regionAt s num with
    | none => s
    | some r =>
      let tiles := (List.range (regTiles r)).filter (fun n => let p := tilePlace r n; p.1 == stack && p.2.1 == die && p.2.2 / 16 == grp)
      let s := loseCopies s num ((stack * 8 + die) * 8 + grp)
      if tiles.isEmpty then s
      else
        let s := tiles.foldl (fun s n => loseTile s num n 5 0 (regPages r)) s
        let s := { s with reloads := s.reloads ++ reloadsOf num r tiles }
        eventFn (eventFn s 0 1) (r.part + 1) 1) s

/-- What lies behind a repair group that has lost its fifth wire is disabled. -/
def disableBehind (s : State) (cls bus grp : Nat) : State :=
  match cls with
  | 0 =>
    if SMap.get false s.deadPairs bus then s
    else
      let s := failResident (failResident s (2 * bus)) (2 * bus + 1)
      signalEvent (recheckRecords { s with deadPairs := SMap.set false s.deadPairs bus true }) 2
  | 1 =>
    if SMap.get false s.deadArrays bus then s
    else
      let s := upCluster s bus (fun c => { c with lease := { c.lease with tiles := [] } })
      signalEvent (recheckRecords { s with deadArrays := SMap.set false s.deadArrays bus true }) 2
  | _ =>
    let g := Config.bondPlaneGroup bus grp % 8
    if SMap.get false s.deadGroups (bus * 8 + g) then s else signalEvent (retireGroup s (bus / 8) (bus % 8) g) 2

/-- One more failed wire of a repair group: a spare takes its place, or the fifth disables the group. -/
def failWire (s : State) (cls bus grp : Nat) : State :=
  let key := (cls * 256 + bus) * 256 + grp
  let n := SMap.get 0 s.bonds key + 1
  if 5 < n then s
  else
    let s := holdReport { s with bonds := SMap.set 0 s.bonds key n } (bondRec s cls bus grp n)
    if n = 5 then disableBehind s cls bus grp else s

/-- The buses of each class: core pairs, arrays, Lode array dies (8 × stack + die). -/
def busCount (s : State) (cls : Nat) : Nat := match cls with | 0 => 160 | 1 => 20 | 2 => 8 * stackCount s | _ => 0

/-- The self-test of a repair group finds some more of its 68 wires failed. -/
def bondTest (s : State) (cls bus grp wires : Nat) : State :=
  if busCount s cls ≤ bus ∨ 256 ≤ grp ∨ s.stage < 2 then s
  else (List.range (min wires 68)).foldl (fun s _ => failWire s cls bus grp) s

def execBondSelfTest (cls bus grp wires : Nat) (s : State) : Out := .next (bondTest s cls bus grp wires)

end Sys2Proof.Machine
end

