-- ==== Sys2Proof/Machine/Link.lean ====
section
/-! DEFINITION. Falef link commands (R261, R262) and stamped starts (R256, R262). -/

namespace Sys2Proof.Machine

def linkWho (s : State) (core : Nat) : Who := whoCore s core .h .link

/-! ## Where a link command goes -/

/-- The home of a `peer` address whose page is present. -/
def peerHome (s : State) (w : Who) (addr : Nat) : Option Nat :=
  match entryOf s w addr with
  | some e =>
    if e.kind = 6 ∧ addr % 2 ^ 48 < e.ext then
      let pte := leNat (rdDramN s (pteAddr e.base (addr % 2 ^ 48)) 8)
      if pte % 2 = 1 then some (pte / 16 % 8) else none
    else none
  | none => none

/-- Whether an address lies in memory of this module. -/
def ownMemory (s : State) (w : Who) (addr : Nat) : Bool :=
  decide (addr / 2 ^ 48 = 0xFFFE ∨ addr / 2 ^ 48 = 0xFFFF) ||
  (match entryOf s w addr with | some e => e.kind == 1 || e.kind == 2 | none => false)

/-- The port of a destination, if it is on a linked module whose port is up. -/
def linkPort (s : State) (w : Who) (addr : Nat) : Option Nat :=
  match peerHome s w addr with
  | some m => if m < 4 ∧ m ≠ s.modNum then portTo s m else none
  | none => none

/-- A destination on this module, or behind a port that is absent or down (R262). -/
def linkDown (s : State) (w : Who) (addr : Nat) : Bool :=
  ownMemory s w addr || ((peerHome s w addr).isSome && (linkPort s w addr).isNone)

/-- The destination that fixes a link command's port. -/
def linkDst (c : Cmd) : Nat := if c.op = .send then cpDst c else dI c 16 8

/-! ## `link.send` (R261) -/

def sendRefusal (s : State) (w : Who) (c : Cmd) : Option Nat := copyRefusal s w c

def runSend (s : State) (core : Nat) (c : Cmd) : State :=
  let w := linkWho s core
  match (if c.sent then none else sendRefusal s w c) with
  | some st => finishCmd s core .store { status := st }
  | none =>
    if !c.sent && linkDown s w (cpDst c) then finishCmd s core .store { status := stLinkdown }
    else runWalk s core .store c (copyWalk s w c) w 5

/-! ## `link.red` (R261) -/

/-- Formats of a reduction: 0 FP32, 1 BF16, 0xB NBI-8 planewise. -/
def rdFmt (c : Cmd) (i : Nat) : Nat := dI c (52 + i) 1
def redN (c : Cmd) : Nat := dI c 48 4
def rdAny (c : Cmd) : Bool := rdFmt c 0 == 0xB || rdFmt c 1 == 0xB || rdFmt c 2 == 0xB
/-- Elements that travel together: a block where a format is NBI, else one. -/
def rdGroup (c : Cmd) : Nat := if rdAny c then 128 else 1
def rdGroups (c : Cmd) : Nat := redN c / rdGroup c
/-- The bytes of `n` elements of a format. -/
def fmtBytes (f n : Nat) : Nat := if f = 0 then 4 * n else if f = 1 then 2 * n else n

/-- A side of a reduction: where group `g` of an array and its scale lie. -/
def sideKeys (s : State) (w : Who) (write : Bool) (f n base scale g : Nat) : Except Stop (List Nat × List Nat) :=
  let get (a : Except Stop Nat) (n : Nat) : Except Stop (List Nat) :=
    match a with
    | .error e => .error e
    | .ok x => if write then engKeys s w true x n else engRead s w x n
  match get (addOff base (fmtBytes f n * g)) (fmtBytes f n) with
  | .error e => .error e
  | .ok l => if f = 0xB then (get (addOff scale (2 * g)) 2).map (fun k => (l, k)) else .ok (l, [])

/-- One group of a reduction: its source bytes and scale, and where its destination and addend lie on the receiver. -/
structure RdPart where
  src : List Byte
  dst : List Nat
  dscale : List Nat
  add : List Nat
  ascale : List Nat
  deriving DecidableEq, Repr, Inhabited

def rdPart (s : State) (w : Who) (c : Cmd) (g : Nat) : Except Stop RdPart :=
  let n := rdGroup c
  match sideKeys s w false (rdFmt c 0) n (dI c 0 8) (dI c 24 8) g,
        (if dI c 8 8 = 0 then .ok ([], []) else sideKeys s w false (rdFmt c 1) n (dI c 8 8) (dI c 32 8) g),
        sideKeys s w true (rdFmt c 2) n (dI c 16 8) (dI c 40 8) g with
  | .error e, _, _ => .error { e with findex := n * g }
  | _, .error e, _ => .error { e with findex := n * g }
  | _, _, .error e => .error { e with findex := n * g }
  | .ok x, .ok y, .ok z =>
    .ok { src := (x.1 ++ x.2).map (engRd s w), dst := z.1, dscale := z.2, add := y.1, ascale := y.2 }

/-- The groups before the first stop, and that stop. -/
def rdRun (s : State) (w : Who) (c : Cmd) : Nat → Nat → List RdPart × Option Stop
  | 0, _ => ([], none)
  | f + 1, g =>
    match rdPart s w c g with
    | .error x => ([], some x)
    | .ok m => let r := rdRun s w c f (g + 1); (m :: r.1, r.2)

/-- Remote locations in a payload: their runs as 8-byte addresses and 4-byte lengths. -/
def packRuns (l : List Nat) : List Byte :=
  let r := remoteRuns l
  leBytes 2 r.length ++ r.flatMap (fun p => leBytes 8 (remotePa p.1) ++ leBytes 4 p.2)

/-- What a reduction's group sends (log entry 31): formats, count, destination, scale, addend and its scale as runs,
then the source. -/
def redBody (c : Cmd) (p : RdPart) : List Byte :=
  leBytes 1 (rdFmt c 0) ++ leBytes 1 (rdFmt c 1) ++ leBytes 1 (rdFmt c 2) ++ leBytes 1 (rdGroup c) ++
  packRuns p.dst ++ packRuns p.dscale ++ packRuns p.add ++ packRuns p.ascale ++ p.src

/-- The payload of a reduction's group: its length, with these four bytes, and what it sends; it travels in flits of at most 192
bytes (R397). -/
def packRed (c : Cmd) (p : RdPart) : List Byte := leBytes 4 (4 + (redBody c p).length) ++ redBody c p

/-- The destinations of a reduction. -/
def redOuts (c : Cmd) : List Nat := dI c 16 8 :: (if rdFmt c 2 = 0xB then [dI c 40 8] else [])

/-- Whether group `g` of a source on the on-chip map lies out of scope (R85). -/
def redOutside (s : State) (w : Who) (c : Cmd) (g : Nat) : Bool :=
  let n := fmtBytes (rdFmt c 0) (rdGroup c)
  outOfScope s w false n (addOff (dI c 0 8) (n * g)) || (rdFmt c 0 == 0xB && outOfScope s w false 2 (addOff (dI c 24 8) (2 * g)))

/-- What `link.red` is refused for. -/
def redRefusal (s : State) (w : Who) (c : Cmd) : Option Nat :=
  let fs := [rdFmt c 0, rdFmt c 1, rdFmt c 2]
  let ok := decide (1 ≤ redN c ∧ redN c ≤ 2 ^ 24) && fs.all (fun f => f == 0 || f == 1 || f == 0xB) && dI c 55 9 == 0 &&
    !(rdAny c && redN c % 128 != 0)
  let adds := if dI c 8 8 = 0 then [] else dI c 8 8 :: (if rdFmt c 1 = 0xB then [dI c 32 8] else [])
  let outs := redOuts c
  let srcs := dI c 0 8 :: (if rdFmt c 0 = 0xB then [dI c 24 8] else [])
  let peer (a : Nat) : Bool := match entryOf s w a with | some e => e.kind == 6 | none => false
  let homes := (adds ++ outs).filterMap (peerHome s w)
  worst [(!ok || homes.any (fun m => some m != homes.head?), stBadcmd),
    (srcs.any (fun a => !sideKindOk s w false a || peer a) || adds.any (fun a => !sideKindOk s w false a || ownMemory s w a) ||
      outs.any (fun a => !sideKindOk s w true a), stRefused),
    (outs.any (unshadowed s w), stUnshadowed),
    ((List.range (rdGroups c)).any (redOutside s w c), stMapscope)]

/-- The requests of a reduction. -/
def sendParts (s : State) (core : Nat) (c : Cmd) (l : List RdPart) : State :=
  let r := l.foldl (fun (r : State × List Nat) p =>
    let k := p.dst.headD 0
    let x := sendReq r.1 .reduce (.cmd core .store c.id) (remoteHome k) (remotePa k) p.dst.length (packRed c p)
    (x.1, r.2 ++ [x.2])) (s, [])
  upHead r.1 core .store (fun c => { c with reply := { c.reply with tags := c.reply.tags ++ r.2 } })

/-- The addresses that group `g` of a reduction accesses. -/
def redAcc (c : Cmd) (g : Nat) : List (Bool × Nat) :=
  let side (write : Bool) (f base scale : Nat) : List (Bool × Nat) :=
    let n := fmtBytes f (rdGroup c)
    [(write, base + n * g), (write, base + n * g + (n - 1))] ++ (if f = 0xB then [(write, scale + 2 * g)] else [])
  side false (rdFmt c 0) (dI c 0 8) (dI c 24 8) ++ side true (rdFmt c 2) (dI c 16 8) (dI c 40 8) ++
  (if dI c 8 8 = 0 then [] else side false (rdFmt c 1) (dI c 8 8) (dI c 32 8))

def runRed (s : State) (core : Nat) (c : Cmd) : State :=
  let w := linkWho s core
  if c.sent then s
  else match redRefusal s w c with
  | some st => finishCmd s core .store { status := st }
  | none =>
    if (redOuts c).any (linkDown s w) then finishCmd s core .store { status := stLinkdown }
    else
      let r := rdRun s w c (rdGroups c) 0
      let ms := r.1.takeWhile (fun p => (p.dst ++ p.dscale ++ p.add ++ p.ascale).all isRemote)
      let res : CRes := match r.2 with
        | some x => resOf x (fmtBytes (rdFmt c 2) (rdGroup c) * ms.length)
        | none => { count := fmtBytes (rdFmt c 2) (redN c) }
      let s := match r.2 with | some x => stopReport s core 5 x | none => s
      if ms.isEmpty then finishCmd s core .store res
      else
        let s := noteAll (sendParts s core c ms) w ((List.range ms.length).flatMap (redAcc c))
        upHead s core .store (fun c => { c with sent := true, done := some { res with flags := res.flags ||| c.flags } })

/-- Whether a stamped command that started before on the same port has still to send (R262). -/
def startedBefore (s : State) (core : Nat) (c : Cmd) : Bool :=
  let port (n : Nat) (x : Cmd) : Option Nat := linkPort s (linkWho s n) (linkDst x)
  s.cores.any (fun p => match p.2.qs with
    | x :: _ => (x.op == .send || x.op == .red) && x.stamp.isSome && x.started && !x.sent && x.done.isNone && decide (x.stick < c.stick) &&
      (port core c).isSome && port p.1 x == port core c
    | [] => false)

/-- A link command at the head of a store queue; a stamped one has started, and those that started before it on its port have been
sent (R262). -/
def runLink (s : State) (core : Nat) (c : Cmd) : State :=
  if c.stamp.isSome && (!c.started || startedBefore s core c) then s else if c.op = .send then runSend s core c else runRed s core c

/-! ## Issue -/

def linkWord (op : CmdOp) (n : Nat) (h : Hd) (d a e : Reg) (imm : W32) (s : State) : Out :=
  runEff s h fun s => issueCmd s (newCmd s op d a 0 e imm) n (fun _ => .store)
    (fun _ c => { c with stamp := if imm.toNat / 2 ^ 31 = 1 then some c.re.toNat else none }) id

def execLinkSend (h : Hd) (d a e : Reg) (imm : W32) (s : State) : Out := linkWord .send 256 h d a e imm s
def execLinkRed (h : Hd) (d a e : Reg) (imm : W32) (s : State) : Out := linkWord .red 64 h d a e imm s

/-! ## Stamped starts (R256, R262) -/

/-- A stamped link command that waits at the head of a store queue, with its port, stamp and place in the issue order. -/
def waitingLink (s : State) (core : Nat) : Option (Nat × Nat × Nat) :=
  match (coreAt s core).qs with
  | c :: _ =>
    if (c.op == .send || c.op == .red) && !c.started && c.done.isNone then
      match c.stamp, linkPort s (linkWho s core) (linkDst c) with
      | some t, some p => some (p, t, c.ord)
      | _, _ => none
    else none
  | [] => none

/-- A port starts stamped commands in order of stamp and then in issue order, at most one per tick (R17, R262); the commands it
chooses among are the heads of the store queues (log entry 108). -/
def portFree (s : State) (p t n : Nat) : Bool :=
  (SMap.get ({} : Port) s.ports p).lastStamp != s.tick + 1 &&
  s.cores.all (fun x => match waitingLink s x.1 with | some (q, u, m) => q != p || decide (t < u ∨ (t = u ∧ n ≤ m)) | none => true)

/-- The tick has reached the stamp of the command at the head of a queue, and its port is free for it. -/
def stampedGo (s : State) (core : Nat) (q : QId) : State :=
  match q, waitingLink s core with
  | .store, some (p, t, n) =>
    if t ≤ s.tick ∧ portFree s p t n then
      let s := stampStart s core .store
      { s with ports := SMap.set {} s.ports p { (SMap.get {} s.ports p) with lastStamp := s.tick + 1 } }
    else s
  | _, _ => stampStart s core q

def execStampedStart (core : Nat) (q : QId) (s : State) : Out := .next (stampedGo s core q)

end Sys2Proof.Machine
end

