-- ==== Sys2Proof/Machine/Complete.lean ====
section
/-! DEFINITION. The completion of a command (R237, R239–R241): the command at the head of a queue takes its effect, and
its record is written. -/

namespace Sys2Proof.Machine

/-- Whether a command runs on a cluster hoist, and so reads what every store that its core issued before it has written (R105). -/
def onHoist (s : State) (core : Nat) (c : Cmd) : Bool :=
  match c.op with
  | .hcp | .hgat | .hsct | .hmc | .hfill => (copyWho s core c).agent == .hoist
  | .hlay => true
  | _ => false

/-- Whether a store that a core issued before a command is still on its way to another home. -/
def storeAway (s : State) (core : Nat) (c : Cmd) : Bool :=
  (coreAt s core).stq.any (fun p => p.remote && !posted p && decide (p.id < c.id))

/-- The next element of the copy or layout command at the head of a queue moved (R86). -/
def moveHead (s : State) (core : Nat) (q : QId) (c : Cmd) : State :=
  if c.done.isSome ∨ (onHoist s core c && storeAway s core c) then s
  else
    let s := if onHoist s core c then performBefore s core c.id else s
    match c.op with
    | .hcp | .hgat | .hsct | .hmc | .hfill =>
      let w := copyWho s core c
      if c.prog = 0 ∧ (copyRefusal s w c).isSome then s else moveOne s core q c (copyWalk s w c) w
    | .hlay =>
      let w := cmdWho s core
      if c.prog = 0 ∧ (layRefusal s w c).isSome then s else moveOne s core q c (layWalk s w c) w
    | _ => s

/-- The turn in which an element moves. -/
def moveTurn (core : Nat) (q : QId) (s : State) : State :=
  match getQ (coreAt s core) q with
  | [] => s
  | c :: _ => moveHead s core q c

/-- The command at the head of a queue carried on as far as it can go. -/
def runOp (s : State) (core : Nat) (q : QId) (c : Cmd) : State :=
  match c.op with
  | .hcp | .hgat | .hsct | .hmc | .hfill => runCopy s core q c
  | .hlay => runLay s core q c
  | .hpub => runPub s core q c
  | .act | .sacc | .drain | .drainRaw | .ired | .stat => runLode s core c
  | .send | .red => runLink s core c
  | .aBind | .aRun | .aStat => runAsy s core c
  | .rOpen | .rMask | .rMaskM | .rStep | .rFork | .rKeep | .rDrop | .rSave | .rLoad => runRdl s core c

/-- The command at the head of a queue carried on, with the stores that it must see performed before it; it waits for those on their
way to another home (R105). -/
def runHead (s : State) (core : Nat) (q : QId) (c : Cmd) : State :=
  if onHoist s core c then (if storeAway s core c then s else runOp (performBefore s core c.id) core q c) else runOp s core q c

/-- The walk whose writes to other homes a command has sent. -/
def sentWalk (s : State) (core : Nat) (c : Cmd) : Walk :=
  match c.op with
  | .hlay => layWalk s (cmdWho s core) c
  | .send => copyWalk s (linkWho s core) c
  | _ => copyWalk s (copyWho s core c) c

/-- The result of a command one of whose writes to another home has failed: it stops at the first element of its walk
that the failed request carried (R95, R262, R398). -/
def failedSend (s : State) (core : Nat) (c : Cmd) (b : ReqFail) (r : CRes) : CRes × Nat :=
  let x := failStop b.why
  let res (pos count addr : Nat) : CRes × Nat :=
    ({ r with status := x.status, fcode := x.fcode, findex := pos, count := count,
              fstep := if c.op == .hgat || c.op == .hsct then 2 else 0,
              e2e := x.e2e }, addr)
  if c.op = .red then
    let g := ((List.range (rdGroups c)).find? (fun g =>
      match rdPart s (linkWho s core) c g with
      | .ok p => touches b (p.dst ++ p.dscale)
      | .error _ => false)).getD 0
    let n := rdGroup c * g
    res n (fmtBytes (rdFmt c 2) n) (dI c 16 8 + fmtBytes (rdFmt c 2) n)
  else
    let w := sentWalk s core c
    let q := ((List.range w.n).find? (fun q => match w.dst q with | .ok l => touches b l.flatten | .error _ => false)).getD 0
    let o := match w.dst q with | .ok (l :: _) => if touches b l then l.findIdx (fun k => touches b [k]) else 0 | _ => 0
    res (q / w.inner) (w.size * w.copies * (q / w.inner * w.inner)) (elemAddr w true q o)

/-- The result that the record reports: that of the walk, or of a failed write; a command that has written to other homes
completes when the last answer has come. -/
def finalRes (s : State) (core : Nat) (c : Cmd) (r : CRes) : CRes × Option (Nat × Nat) :=
  if !c.sent then (r, none)
  else match c.reply.bad with
    | none => ({ r with flags := r.flags ||| c.flags }, none)
    | some b =>
      let p := failedSend s core c b r
      (p.1, if b.why = 1 ∨ b.why = 5 then some (p.2, b.blocks) else none)

/-- Whether nobody is left to acknowledge a core's records: its context has ended, or the module has gone back to Stage S. -/
def unread (s : State) (core : Nat) : Bool := s.stage == 0 || (teamAt s (coreAt s core).tid).st == .failed

/-- The record of a command that is over written, once its ring has room and a signalling multicast has made its
arrivals (R241, R247). Where the ring is full and nobody can acknowledge its records any more, the command ends without one
(log entry 102). -/
def closeHead (s : State) (core : Nat) (q : QId) : State :=
  match getQ (coreAt s core) q with
  | [] => s
  | c :: _ =>
    match c.done with
    | none => s
    | some r =>
      if !allBack c || (c.op == .hmc && c.mid && c.pairs != 0) then s
      else if !ringRoom (coreAt s core) c then
        (if unread s core then upCore s core (fun k => setQ k q ((getQ k q).drop 1)) else s)
      else
        let p := finalRes s core c r
        let s := match p.2 with
          | some a => cmdReport s core (recConsumer c.op) a.1 a.2
          | none => s
        writeRecord s core q c p.1

/-- The head of a queue runs, and its record is written as soon as that may be. -/
def commandComplete (s : State) (core : Nat) (q : QId) : State :=
  match getQ (coreAt s core) q with
  | [] => s
  | c :: _ => closeHead (if c.done.isNone then runHead s core q c else s) core q

def execCommandComplete (core : Nat) (q : QId) (s : State) : Out := .next (commandComplete s core q)

end Sys2Proof.Machine
end

