-- ==== Sys2Proof/Machine/Functions.lean ====
section
/-! DEFINITION. Function instructions of the V engine and their phase-2 elements (R207–R213). -/

namespace Sys2Proof.Machine

/-- Whether an element goes to a phase-2 unit: never where R209 fixes every lane, else as the device selects (R208). -/
def toPhase2 (s : State) (id : FnId) (ty : ETy) (apx : Bool) (md : BitVec 6) (x : W32) : Bool :=
  !(lanesOf ty x).all (fun v => (fnFixed id (fmtOf ty) (fpDecode (fmtOf ty) v)).isSome) &&
  Config.phase2 (fnOp id) ty apx (if mdMode md = 7 then (curCore s).vmode.toNat % 8 else mdMode md) x

/-- A function instruction: every lane reads before any writes; with `.p2m` the mask of phase-2 elements goes to K
register E; at most 8 instructions with elements outstanding are in flight (R207, R208, R213). -/
def fnWord (id : FnId) (apx : Bool) (h : Hd) (ty : ETy) (md : BitVec 6) (d a e : Reg) (s : State) : Out :=
  runEff s h fun s =>
    let c := curCore s
    if 8 ≤ c.fnFlight then .stall 0 0 0 s
    else
      let f := fmtOf ty
      let p2 (i : Nat) : Bool := toPhase2 s id ty apx md (vget c a.toNat i)
      let m := maskTab p2
      let s1 := writeVec s d.toNat (fun _ => true) (fun i =>
        elOf (etyBits ty) ((lanesOf ty (vget c a.toNat i)).map (fnLane id f (modeIn s md) apx)))
      let s2 := if mdQual md then upCur s1 (fun c => kset c e.toNat m) else s1
      .done (upCur s2 (fun c => { c with fnFlight := c.fnFlight + if m = 0 then 0 else 1 }))

def execVexp := fnWord .exp false
def execVexp2 := fnWord .exp2 false
def execVexpm1 := fnWord .expm1 false
def execVlog := fnWord .log false
def execVlog2 := fnWord .log2 false
def execVlog1p := fnWord .log1p false
def execVrcp := fnWord .rcp false
def execVsqrt := fnWord .sqrt false
def execVrsqrt := fnWord .rsqrt false
def execVsin := fnWord .sin false
def execVcos := fnWord .cos false
def execVtanh := fnWord .tanh false
def execVlogistic := fnWord .logistic false
def execVexpApx := fnWord .exp true
def execVexp2Apx := fnWord .exp2 true
def execVexpm1Apx := fnWord .expm1 true
def execVlogApx := fnWord .log true
def execVlog2Apx := fnWord .log2 true
def execVlog1pApx := fnWord .log1p true
def execVrcpApx := fnWord .rcp true
def execVsqrtApx := fnWord .sqrt true
def execVrsqrtApx := fnWord .rsqrt true
def execVsinApx := fnWord .sin true
def execVcosApx := fnWord .cos true
def execVtanhApx := fnWord .tanh true
def execVlogisticApx := fnWord .logistic true

/-- The oldest function instruction of a core with phase-2 elements completes; its results stand in its destination
already, since no path changes a lane (R75, R208, R213). -/
def phase2Done (s : State) (core : Nat) : State := upCore s core (fun c => { c with fnFlight := c.fnFlight - 1 })

def execPhase2Complete (core : Nat) (s : State) : Out := .next (phase2Done s core)

end Sys2Proof.Machine
end

