-- ==== Sys2Proof/Machine/HostLink.lean ====
section
/-! DEFINITION. The host's side of the link: BAR2 (R391, R392), the function page of BAR0 (R334–R336, R375, R393–R396,
R404), and AtomicOps aimed at the module (R390). -/

namespace Sys2Proof.Machine

/-! ## BAR2 (R391, R392) -/

/-- Whether a function's access to bytes of BAR2 is answered: they lie in its partition's channel groups, the physical
function's in any that is present, and Stage M has completed. -/
def bar2Ok (s : State) (fn pa n : Nat) : Bool :=
  s.stage == 3 && decide (1 ≤ n) &&
  [pa, pa + (n - 1)].all (fun k => decide (k < 2 ^ 39) && decide (k / 2 ^ 37 < dramGroups s) &&
    (fn == 0 || SMap.get 7 s.own.ch (k / 2 ^ 37) == fn - 1)) &&
  decide (n ≤ 2 ^ 37)

/-- Failing blocks among consecutive bytes: the first, and how many. -/
def badRun (s : State) (pa n : Nat) : Option (Nat × Nat) :=
  let bs := (((List.range n).filter (fun i => badByte s (pa + i))).map (fun i => (pa + i) / 64)).eraseDups
  match bs with | [] => none | b :: _ => some (64 * b, bs.length)

/-- The report that the host met a failed check (R310). -/
def hostCons (s : State) (a : Nat × Nat) : State := holdReport s { cls := 2, code := 1, info := 4, addr := a.1, len := 64 * a.2, tick := s.tick }

/-- A posted write of the host: one outside the function's reach, or whose partial word meets a failed check, writes
nothing. -/
def hostStore (s : State) (fn pa : Nat) (l : List Byte) : State :=
  if !bar2Ok s fn pa l.length then s
  else
    let keys := (List.range l.length).map (fun i => pa + i)
    match badWrite s keys with
    | some k => hostCons s (k / 64 * 64, badWriteBlocks s pa keys)
    | none => writeMem s (keys.zip l)

def execHostWrite (fn pa : Nat) (data : List Byte) (s : State) : Out := .next (hostStore s fn pa data)

/-- A host read: its data, Unsupported Request, or Completer Abort with an error-log entry. -/
def hostLoad (s : State) (fn pa n : Nat) : State :=
  if !bar2Ok s fn pa n then hostSay s fn .unsupported
  else match badRun s pa n with
    | some a =>
      let s := holdReport (hostCons s a) { cls := 2, code := 5, info := fn, addr := a.1, len := 64 * a.2, tick := s.tick }
      hostSay s fn .abort
    | none => hostSay (fillReads s ((List.range n).map (fun i => pa + i))) fn (.success (rdBytes s pa n))

def execHostRead (fn pa len : Nat) (s : State) : Out := .next (hostLoad s fn pa len)

/-- A host AtomicOp aimed at the module (R390). -/
def execHostAtomicop (fn _pa : Nat) (s : State) : Out := .next (hostSay s fn .unsupported)

/-! ## Queue registers as a function reaches them (R334–R336) -/

/-- A register of a queue as it reads; RESERVE is read by its own event. -/
def queueReg (q : Queue) (r : Nat) : Word :=
  match r with
  | 0 => q.qcfg
  | 2 => q.commit
  | 3 => qstat q
  | 4 => q.ctrl
  | 5 => q.cqcfg
  | 6 => cqcnt q
  | _ => 0

/-- A write of CTRL: the command acts on the write. -/
def writeCtrl (s : State) (q v : Nat) : State :=
  let s := setCtrl s q v
  match v % 8 with
  | 1 => enableQueue s q
  | 2 => destroyQueue s q (v / 8 % 2 == 1)
  | _ => s

/-- A write of a queue's register. -/
def writeQueueReg (s : State) (fn q r : Nat) (v : Word) : State :=
  match r with
  | 0 => upQueue s q (fun x => if x.st == .disabled then writeQcfg fn x v else x)
  | 2 => upQueue s q (fun x => commitQ x v)
  | 4 => writeCtrl s q v.toNat
  | 5 => upQueue s q (fun x => if x.st == .disabled then writeCqcfg x v else x)
  | 6 => upQueue s q (fun x => if ackOk x.acked x.written (v.toNat / 2 ^ 32) then { x with acked := v.toNat / 2 ^ 32 } else x)
  | _ => s

/-! ## Sessions handed over (R396) -/

/-- The partition of a function; the physical function's doorbell and status block serve partition 0. -/
def fnPart (fn : Nat) : Nat := fn - 1

/-- A session descriptor handed to the loop, or refused with NOSLOT where 16 are pending. -/
def ringSession (s : State) (fn : Nat) (addr : Word) : State :=
  let p := fnPart fn
  let ctx := (fnAt s fn).sessctx
  if s.stage ≠ 3 then s
  else if 16 ≤ (partAt s p).pend.length then
    if addr.toNat % 2 ^ 48 + 104 ≤ 2 ^ 48 then devWrite s (devWho p ctx) (addr.toNat + 100) (leBytes 4 (3 + 6 * 2 ^ 16)) else s
  else upPart s p (fun x => { x with pend := x.pend ++ [(addr, ctx)] })

def execSessionDoorbell (fn : Nat) (addr : Word) (s : State) : Out := .next (ringSession s fn addr)

/-! ## The function page (R393) -/

/-- STAGE (R404). -/
def stageReg (s : State) : Nat := s.cause * 2 ^ 16 + s.bank * 2 ^ 8 + s.stage

/-- MBCTL (R394). -/
def mbctl (f : Fn) : Nat := (if f.busy then 2 ^ 63 else 0) + f.status * 2 ^ 32 + f.seq * 2 ^ 24 + f.cmd

/-- A byte field of the translation status block (R375). -/
def statusBlock (x : Part) (off : Nat) : Nat :=
  match off with
  | 0 => x.pri.length + x.prilate * 2 ^ 32
  | 8 => x.prifail + (if x.pristop then 2 ^ 32 else 0)
  | 16 => x.shootdowns
  | _ => 0

/-- An aligned 64-bit read of a function's page; RESERVE is read by its own event. -/
def readPage (s : State) (fn off : Nat) : Nat :=
  let f := fnAt s fn
  if off % 8 ≠ 0 then 0
  else if off = 0 then stageReg s
  else if off = 8 then f.event
  else if off = 0x100 then mbctl f
  else if 0x108 ≤ off ∧ off < 0x148 then (SMap.get 0 f.args ((off - 0x108) / 8)).toNat
  else if 0x148 ≤ off ∧ off < 0x188 then (SMap.get 0 f.res ((off - 0x148) / 8)).toNat
  else if s.stage ≠ 3 then 0
  else if off = 0x200 then f.sessctx
  else if 0x300 ≤ off ∧ off < 0x340 then statusBlock (partAt s (fnPart fn)) (off - 0x300)
  else if 0x1000 ≤ off ∧ off < 0x5000 then
    let q := (off - 0x1000) / 64
    if fnSees fn (queuePart (queueAt s q)) then (queueReg (queueAt s q) (off / 8 % 8)).toNat else 0
  else 0

/-- The mailbox codes that name a command (R394, R407). -/
def mailboxCodes : List Nat := [1, 2, 3, 0x10, 0x11, 0x20, 0x21, 0x22, 0x23, 0x24, 0x25, 0x26, 0x27, 0x28, 0x29]

/-- The end of a mailbox command: STATUS, then BUSY clears and vector 0 is signalled. -/
def endMailbox (s : State) (fn st : Nat) : State :=
  let s := upFn s fn (fun f => { f with busy := false, status := st })
  { s with irqOut := s.irqOut ++ [(fn, 0)] }

/-- A write of MBCTL: ignored while BUSY, else it takes the arguments and starts the command; a code that names none ends
at once with BADCMD. -/
def writeMbctl (s : State) (fn v : Nat) : State :=
  if (fnAt s fn).busy then s
  else
    let s := upFn { s with mbNext := s.mbNext + 1 } fn
      (fun f => { f with busy := true, seq := v / 2 ^ 24 % 256, cmd := v % 2 ^ 16, taken := f.args, arr := s.mbNext })
    if mailboxCodes.contains (v % 2 ^ 16) then s else endMailbox s fn 1

/-- An aligned 64-bit write of a function's page; other offsets, and registers marked A before Stage A, ignore it. -/
def writePage (s : State) (fn off : Nat) (v : Word) : State :=
  if off % 8 ≠ 0 || !s.powered then s
  else if off = 8 then upFn s fn (fun f => { f with event := f.event &&& ((v.toNat % 8) ^^^ 7) })
  else if off = 0x100 then writeMbctl s fn v.toNat
  else if 0x108 ≤ off ∧ off < 0x148 then upFn s fn (fun f => { f with args := SMap.set 0 f.args ((off - 0x108) / 8) v })
  else if s.stage ≠ 3 then s
  else if off = 0x200 then upFn s fn (fun f => { f with sessctx := v.toNat % 64 })
  else if off = 0x208 then ringSession s fn v
  else if 0x1000 ≤ off ∧ off < 0x5000 then
    let q := (off - 0x1000) / 64
    if fnSees fn (queuePart (queueAt s q)) then writeQueueReg s fn q (off / 8 % 8) v else s
  else s

def execRegisterWrite (fn off : Nat) (v : Word) (s : State) : Out := .next (writePage s fn off v)

/-! ## The queue register page as the Foreman reaches it (R304, R334)

A handle of the privileged table maps the page, as an entry of kind 7, a number of the model's own (log entry 93). -/

/-- The offset in the queue register page that an access of a core in foreman mode names: the page's handle, within its extent. -/
def queuePageAt (s : State) (addr n : Nat) : Option Nat :=
  if foreman s then
    match htAt s 4 0 (addr / 2 ^ 48 % 65536) with
    | some e => if e.kind = 7 ∧ addr % 2 ^ 48 + n ≤ e.ext then some (addr % 2 ^ 48) else none
    | none => none
  else none

/-- A load of the page by a core: an aligned one of 64 bits reads a register, RESERVE taking a ticket; any other reads 0. -/
def loadPage (s : State) (off n : Nat) : Word × State :=
  let q := off / 64
  if n ≠ 8 ∨ off % 8 ≠ 0 then (0, s)
  else if off / 8 % 8 = 1 then (ticketOf (queueAt s q), upQueue s q reserveQ)
  else (queueReg (queueAt s q) (off / 8 % 8), s)

/-- A store to the page by a core: an aligned one of 64 bits writes a register, as the physical function does; any other is
ignored. -/
def storePage (s : State) (off n : Nat) (v : Word) : State :=
  if n ≠ 8 ∨ off % 8 ≠ 0 then s else writeQueueReg s 0 (off / 64) (off / 8 % 8) v

/-- `ld` (R149, R151). -/
def execLd (h : Hd) (ty : ETy) (q : Bool) (d a : Reg) (imm : W32) (s : State) : Out :=
  let n := etyBits ty / 8
  runEff s h fun s => effAddrOr s a imm.toInt n fun x =>
    match queuePageAt s x n with
    | some off => let r := loadPage s off n; .done (wr r.2 d (extendTy ty (8 * n) r.1.toNat))
    | none => effLoad s x n q fun l s => .done (wr s d (extendTy ty (8 * n) (leNat l)))

/-- `st` (R150, R151). -/
def execSt (h : Hd) (ty : ETy) (a b : Reg) (imm : W32) (s : State) : Out :=
  let n := etyBits ty / 8
  runEff s h fun s => effAddrOr s a imm.toInt n fun x =>
    match queuePageAt s x n with
    | some off => .done (storePage s off n (rd s b))
    | none => effStore s x (leBytes n (rd s b).toNat) fun s => .done s

end Sys2Proof.Machine
end

