-- ==== Sys2Proof/Machine/Window.lean ====
section
/-! DEFINITION. Format windows: their registers, encoding and eviction (R76, R91, R371, R372), and the eviction of
level-cache lines (R88). -/

namespace Sys2Proof.Machine

/-! ## Encoding (R76) -/

def setWin (s : State) (n : Nat) (w : Win) : State := { s with wins := SMap.set {} s.wins n w }
def winKey (n off : Nat) : Nat := apBase + n * 2 ^ 36 + off
def winBytes (w : Win) : Nat := 128 * winEsize w
/-- Whether the level cache holds a written word of block `b` of a window. -/
def blockHeld (s : State) (n b : Nat) : Bool :=
  (List.range (winBytes (winAt s n) / 4)).any (fun i => (lcWord s (winKey n (winBytes (winAt s n) * b) + 4 * i)).isSome)
def blockFull (s : State) (n b : Nat) : Bool :=
  (List.range (winBytes (winAt s n) / 4)).all (fun i => (lcWord s (winKey n (winBytes (winAt s n) * b) + 4 * i)).isSome)

/-- The 128 values of a block, words not held coming from the decoded block (R91). -/
def blockVals (s : State) (n b : Nat) : List FpVal :=
  let w := winAt s n
  let e := winEsize w
  (List.range 128).map (fun j => fpDecode (if w.fp32 then fmt32 else fmtBf) (leNat (rdBytes s (winKey n (winBytes w * b + e * j)) e)))

/-- A code quantised under policy SAT, a NaN as code 0 (R76). -/
def encodeCode (v : FpVal) (scale : Nat) : Nat :=
  match quantise v (fpDecode fmtBf scale) .sat with
  | .ok r => if isNan v then 0 else r.bits
  | .trap => 0

/-- A line's words leave the level cache. -/
def dropWords (s : State) (k words : Nat) : State :=
  { s with lc := (List.range words).foldl (fun m i => SMap.set none m (k / 4 + i) none) s.lc }

/-- Words of LPDDR-6 as an encoder writes them: through the level cache, or, over blocks whose check fails and goes on failing, in
DRAM (R88, R94). -/
def putStored (s : State) (k : Nat) (l : List Byte) (failing : Bool) : State :=
  if failing then
    { dropWords s (k / 4 * 4) ((k % 4 + l.length + 3) / 4) with mem := SMap.setAll memDefault s.mem ((List.range l.length).map (fun i => (k + i, l.getD i 0))) }
  else wrRun s k l

/-- The first stored word of a block of a window that DRAM gives with a failing check. -/
def storedBad (s : State) (w : Win) (b : Nat) : Option Nat :=
  ((List.range (4 * w.planes)).map (fun i => w.store + 16 * w.planes * b + 4 * i)).find? (dramBad s)

/-- A modified block encoded into its planes and scale, and evicted. A merging fill over a stored block or scale whose check fails
leaves that check failing, is counted, and is logged as an eviction over a failing block is (R76, R88, R91, R94, R371). -/
def encodeBlock (s : State) (n b : Nat) : State :=
  if !blockHeld s n b then s
  else
    let w := winAt s n
    let vals := blockVals s n b
    let part := if blockFull s n b then none else storedBad s w b
    let badScale := dramBad s (w.scale + 2 * b)
    let fail := part.isSome || badScale
    let scale := blockScale fmtBf vals
    let codes := vals.map (fun v => encodeCode v scale)
    let byte (i j : Nat) : Byte := BitVec.ofNat 8 ((List.range 8).foldl (fun a t => a + planeBit (codes.getD (8 * j + t) 0) i * 2 ^ t) 0)
    let s' := dropWords s (winKey n (winBytes w * b)) (winBytes w / 4)
    let s' := (List.range w.planes).foldl (fun s i =>
      putStored s (w.store + 16 * w.planes * b + 16 * i) ((List.range 16).map (byte i)) part.isSome) s'
    let s' := putStored s' (w.scale + 2 * b) (leBytes 2 scale) badScale
    let s' := if fail then
      holdReport s' { cls := 2, code := 4, addr := (part.getD (w.scale + 2 * b)) / 64 * 64, len := 64, tick := s.tick } else s'
    setWin s' n { w with nancnt := (w.nancnt + (vals.filter isNan).length) % 2 ^ 32, encblk := (w.encblk + 1) % 2 ^ 32,
                         e2efail := (w.e2efail + if fail then 1 else 0) % 2 ^ 32 }

/-- Every line of a window's aperture encoded and evicted (R371). -/
def flushWin (s : State) (n : Nat) : State :=
  let w := winAt s n
  ((s.lc.map (fun p => 4 * p.1)).filter (fun k => decide (winKey n 0 ≤ k ∧ k < winKey n (2 ^ 36)))).foldl
    (fun s k => encodeBlock s n ((k - winKey n 0) / winBytes w)) s

/-! ## `fwin` (R371) -/

/-- The limits of a SET descriptor. -/
def winDescOk (l : List Byte) : Bool :=
  let f := dNat l 2 1
  let planes := f % 16
  decide (dNat l 0 1 < 16) && (planes == 4 || planes == 8) && !(f / 16 % 2 == 1 && planes == 8) && decide (f / 64 = 0) &&
  dNat l 3 5 == 0 && dNat l 8 8 % 2 ^ 21 == 0 && decide (dNat l 8 8 ≤ 2 ^ 36) && dNat l 16 8 % 4096 == 0 && dNat l 24 8 % 128 == 0 &&
  dNat l 32 16 == 0

def winOf (l : List Byte) : Win :=
  let f := dNat l 2 1
  { on := true, part := dNat l 1 1, planes := f % 16, mid := f / 16 % 2 == 1, fp32 := f / 32 % 2 == 1, apsize := dNat l 8 8,
    store := dNat l 16 8, scale := dNat l 24 8 }

def winBlocks (w : Win) : Nat := w.apsize / winBytes w
/-- The store and scale ranges of a window. -/
def winRanges (w : Win) : List (Nat × Nat) := [(w.store, 16 * w.planes * winBlocks w), (w.scale, 2 * winBlocks w)]
def meet (a b : Nat × Nat) : Bool := decide (a.1 < b.1 + b.2 ∧ b.1 < a.1 + a.2 ∧ 0 < a.2 ∧ 0 < b.2)

/-- Whether a range lies in the channel groups of a partition. -/
def rangeOwned (s : State) (part : Nat) (r : Nat × Nat) : Bool :=
  decide (r.1 + r.2 ≤ 2 ^ 39) && (List.range 4).all (fun g => !meet r (g * 2 ^ 37, 2 ^ 37) || dramOwned s part (g * 2 ^ 37))

/-- Bytes 48–63 of the descriptor hold the window's counters on completion. -/
def winReport (s : State) (addr n : Nat) : State :=
  let w := winAt s n
  devWrite s (devWho 4 0) (addr + 48) (leBytes 4 w.nancnt ++ leBytes 4 w.encblk ++ leBytes 4 w.e2efail ++ leBytes 4 0)

def execFwinSet (h : Hd) (d a : Reg) (opx : BitVec 4) (s : State) : Out :=
  privWord h s fun s =>
    if opx ≠ 0 then giveStatus d 4 s
    else let s := fwFill s a 64; match fwDesc s a 64 with
    | none => giveStatus d 4 s
    | some l =>
      let n := dNat l 0 1
      let w := winOf l
      if !winDescOk l then giveStatus d 4 s
      else if !partExists s w.part then giveStatus d 0x101 s
      else if (winAt s n).on || s.wins.any (fun p => p.2.on && p.1 != n && (winRanges p.2).any (fun x => (winRanges w).any (meet x))) then
        giveStatus d 0x107 s
      else if SMap.get 7 s.own.fw n != w.part || !(winRanges w).all (rangeOwned s w.part) then giveStatus d 0x105 s
      else giveStatus d 0 (winReport (setWin s n w) (rd s a).toNat n)

/-- Stores issued through a window's aperture before the command have performed (R372). -/
def settleWin (s : State) (n : Nat) : State :=
  (s.cores.map (fun p => p.1)).foldl (fun s c => performIn s c (fun k => decide (winKey n 0 ≤ k ∧ k < winKey n (2 ^ 36)))) s

/-- CLEAR and FLUSH act on the window WIN; every field keeps the limits of the table (R371). -/
def fwinWord (h : Hd) (d a : Reg) (off : Bool) (s : State) : Out :=
  privWord h s fun s =>
    let s := fwFill s a 64
    match fwDesc s a 64 with
    | none => giveStatus d 4 s
    | some l =>
      let n := dNat l 0 1
      if !winDescOk l then giveStatus d 4 s
      else if !partExists s (winOf l).part then giveStatus d 0x101 s
      else if !(winAt s n).on then giveStatus d 0x108 s
      else
        let s := flushWin (settleWin s n) n
        let s := if off then setWin s n { (winAt s n) with on := false } else s
        giveStatus d 0 (winReport s (rd s a).toNat n)

def execFwinClear (h : Hd) (d a : Reg) (s : State) : Out := fwinWord h d a true s
def execFwinFlush (h : Hd) (d a : Reg) (s : State) : Out := fwinWord h d a false s

/-! ## Eviction (R88) -/

/-- The valid words of a 64-byte block written to DRAM. A block that fails its check as it is read keeps failing it, and LCEVICT names
it. -/
def evictBlock (s : State) (k : Nat) : State :=
  let held := (List.range 16).filter (fun i => (lcWord s (k + 4 * i)).isSome)
  if held.isEmpty then s
  else
    let bytes := held.flatMap (fun i => (List.range 4).map (fun j => (k + 4 * i + j, rdDram s (k + 4 * i + j))))
    let bad := badBlock s k
    let s' := { dropWords s k 16 with mem := SMap.setAll memDefault s.mem bytes }
    if !bad then s'
    else holdReport s' { cls := 2, code := 4, addr := k, len := 64, tick := s.tick }

/-- A line of 128 bytes evicted: of LPDDR-6, or of an aperture, whose block is encoded. -/
def evictLine (s : State) (line : Nat) : State :=
  let k := 128 * line
  if k < dramTop then evictBlock (evictBlock s k) (k + 64)
  else if apBase ≤ k ∧ k < apTop then encodeBlock s ((k - apBase) / 2 ^ 36) (winBlock s k)
  else s

def execCacheEviction (line : Nat) (s : State) : Out := .next (evictLine s line)

end Sys2Proof.Machine
end

