-- ==== Sys2Proof/Machine/Htab.lean ====
section
/-! DEFINITION. `htab`: mapping, binding and unmapping handles and shooting translations down (R358–R361, R365, R367). -/

namespace Sys2Proof.Machine

/-! ## Descriptors (R359) -/

def htHandle (l : List Byte) : Nat := dNat l 0 2
def htCtx (l : List Byte) : Nat := dNat l 2 1
def htPart (l : List Byte) : Nat := dNat l 3 1
def htKind (l : List Byte) : Nat := dNat l 4 1
def htExtent (l : List Byte) : Nat := dNat l 8 8
def htBase (l : List Byte) : Nat := dNat l 16 8
def htSbase (l : List Byte) : Nat := dNat l 24 8
def htShadow (l : List Byte) : Bool := dNat l 5 1 % 2 == 1
def htDims (l : List Byte) : List Nat := (List.range (dNat l 33 1)).map (fun d => dNat l (40 + 4 * d) 4)

/-- Whether the handle, context and partition exist (R361). -/
def htNameOk (s : State) (l : List Byte) : Bool :=
  decide (1 ≤ htHandle l ∧ htHandle l ≤ 0xFFEF) && decide (htCtx l < 64) && partExists s (htPart l)

def htName (l : List Byte) : Nat := htKey (htPart l) (htCtx l) (htHandle l)

/-- The limits of the fields that MAP takes; a field of a kind not mapped must be 0. -/
def mapFieldsOk (l : List Byte) : Bool :=
  let k := htKind l
  let tens := k == 2
  let paged := k == 1 || k == 5 || k == 6
  decide (dNat l 5 1 ≤ if k = 1 ∨ k = 2 then 1 else 0) && decide (1 ≤ htExtent l ∧ htExtent l < 2 ^ 48) &&
  (!paged || htBase l % 4096 == 0) && (k != 4 || decide (htBase l < 2 ^ 16)) &&
  (if htShadow l then !paged || htSbase l % 4096 == 0 else htSbase l == 0) &&
  (if tens then
     decide (dNat l 32 1 ≤ 3) && decide (1 ≤ dNat l 33 1 ∧ dNat l 33 1 ≤ 10) && (htDims l).all (fun x => x != 0) &&
     (List.range 10).all (fun d => decide (d < dNat l 33 1) || dNat l (40 + 4 * d) 4 == 0) &&
     decide ((htDims l).foldl (fun p x => p * x) (2 ^ dNat l 32 1) ≤ htExtent l)
   else dNat l 32 2 == 0 && dNat l 40 40 == 0)

def bindFieldsOk (l : List Byte) : Bool :=
  dNat l 5 1 == 0 && decide (1 ≤ htExtent l ∧ htExtent l < 2 ^ 48) && htBase l % 65536 == 0 && decide (htSbase l < 2 ^ 20) &&
  dNat l 32 2 == 0 && dNat l 40 40 == 0

def unmapFieldsOk (l : List Byte) : Bool := dNat l 4 2 == 0 && dNat l 8 24 == 0 && dNat l 32 2 == 0 && dNat l 40 40 == 0

def shootFieldsOk (l : List Byte) : Bool :=
  dNat l 4 2 == 0 && decide (1 ≤ htExtent l ∧ htExtent l < 2 ^ 48) && dNat l 24 8 == 0 && dNat l 32 2 == 0 && dNat l 40 40 == 0

/-- The bytes of a page table for an extent. -/
def tableBytes (ext : Nat) : Nat := 16 * ((ext + 2 ^ 21 - 1) / 2 ^ 21)

/-- Whether a backing lies within the partition's resources (R360, R374). -/
def backingOwned (s : State) (part kind ext base : Nat) : Bool :=
  match kind with
  | 2 => decide (base + ext ≤ 2 ^ 34) && (List.range 4).all (fun q => !meet (base, ext) (q * 2 ^ 32, 2 ^ 32) || SMap.get 7 s.own.cg q == part)
  | 4 => (match regionAt s base with | some r => r.part == part && stacksOwned s part r | none => false)
  | _ => rangeOwned s part (base, tableBytes ext)

/-- The entry that MAP or BIND writes: its front is the BASE backing. -/
def newEntry (l : List Byte) : HEntry :=
  { kind := htKind l, ext := htExtent l, base := htBase l, sbase := htSbase l, shadow := htShadow l && htKind l != 3,
    esize := dNat l 32 1, dims := htDims l }

/-- A map with the entries of `[a, a + n)` copied to `[b, b + n)`, which holds nothing else then. -/
def copyMap {α : Type} [DecidableEq α] (d : α) (m : SMap α) (a b n : Nat) : SMap α :=
  SMap.setAll d (m.filter (fun p => !(decide (b ≤ p.1 ∧ p.1 < b + n))))
    ((m.filter (fun p => decide (a ≤ p.1 ∧ p.1 < a + n))).map (fun p => (p.1 - a + b, p.2)))

/-- The blocks that fail their check once the bytes of `[a, a + n)` stand in `[b, b + n)`: of those that lie whole in it only the ones
into which a failing block has come. -/
def copyChecks (m : SMap Bool) (a b n : Nat) : SMap Bool :=
  SMap.setAll false (m.filter (fun p => !(decide (b ≤ 64 * p.1 ∧ 64 * p.1 + 64 ≤ b + n))))
    ((m.filter (fun p => p.2)).flatMap (fun p =>
      let lo := max a (64 * p.1)
      let hi := min (a + n) (64 * p.1 + 64)
      if lo < hi then [((lo - a + b) / 64, true), ((hi - 1 - a + b) / 64, true)] else []))

/-- Memory copied as it stands, with its valid words and checks. -/
def copyRange (s : State) (a b n : Nat) : State :=
  { s with mem := copyMap memDefault s.mem a b n, lc := copyMap none s.lc (a / 4) (b / 4) (n / 4), bad := copyChecks s.bad a b n }

/-- The page that an entry of a table names, where it is present and homed here. -/
def tablePage (s : State) (base i : Nat) : Option Nat :=
  let p := (memPte s (base + 16 * i)).toNat
  if p % 2 = 1 ∧ p / 16 % 8 = s.modNum then some (p / 2 ^ 21) else none

/-- The backings of a new shadowed handle hold the same contents: the shadow takes those of the front (R109; log entry 88). -/
def equalBackings (s : State) (e : HEntry) : State :=
  if !e.shadow then s
  else if e.kind = 2 then copyRange s (tensorBase + e.base) (tensorBase + e.sbase) e.ext
  else (List.range ((e.ext + 2 ^ 21 - 1) / 2 ^ 21)).foldl (fun s i =>
    match tablePage s e.base i, tablePage s e.sbase i with
    | some a, some b => if a = b then s else copyRange s (a * 2 ^ 21) (b * 2 ^ 21) (2 ^ 21)
    | _, _ => s) s

/-- `htab` MAP (R360). -/
def execHtabMap (h : Hd) (d a : Reg) (opx : BitVec 4) (s : State) : Out :=
  privWord h s fun s =>
    if opx ≠ 0 then giveStatus d 4 s
    else let s := fwFill s a 128; match fwDesc s a 128 with
    | none => giveStatus d 4 s
    | some l =>
      let e := newEntry l
      if !htNameOk s l then giveStatus d 0x101 s
      else if !(e.kind == 1 || e.kind == 2 || e.kind == 4 || e.kind == 5 || e.kind == 6) then giveStatus d 0x104 s
      else if !mapFieldsOk l then giveStatus d 4 s
      else if (SMap.get none s.ht (htName l)).isSome then giveStatus d 0x102 s
      else if !backingOwned s (htPart l) e.kind e.ext e.base || (e.shadow && !backingOwned s (htPart l) e.kind e.ext e.sbase) then
        giveStatus d 0x105 s
      else giveStatus d 0 (equalBackings { s with ht := SMap.set none s.ht (htName l) (some e) } e)

/-- `htab` BIND (R360, R367). -/
def execHtabBind (h : Hd) (d a : Reg) (s : State) : Out :=
  privWord h s fun s =>
    let s := fwFill s a 128
    match fwDesc s a 128 with
    | none => giveStatus d 4 s
    | some l =>
      if !htNameOk s l then giveStatus d 0x101 s
      else if htKind l ≠ 3 then giveStatus d 0x104 s
      else if !bindFieldsOk l then giveStatus d 4 s
      else if (SMap.get none s.ht (htName l)).isSome then giveStatus d 0x102 s
      else giveStatus d 0 { s with ht := SMap.set none s.ht (htName l) (some (newEntry l)) }

/-! ## Shootdown (R365) -/

/-- The page-table entries of the front and the shadow whose pages meet a range of offsets. -/
def shootPages (e : HEntry) (lo len : Nat) : List Nat :=
  if !(e.kind == 1 || e.kind == 5 || e.kind == 6) || e.ext ≤ lo then []
  else
    let p0 := lo / 2 ^ 21
    let n := (min (lo + len) e.ext - 1) / 2 ^ 21 + 1 - p0
    (List.range n).flatMap (fun i => (e.base + 16 * (p0 + i)) :: (if e.shadow then [e.sbase + 16 * (p0 + i)] else []))

/-- ACCESSED of an entry (R364). -/
def accessed (s : State) (at_ : Nat) : Nat := (rdDram s (at_ + 8)).toNat

/-- The entries of the named pages that a module's dies have loaded, removed from this module's TLBs: cores of die `d`
where the bit of `d` is set, stream TLBs, those of the Lode controllers among them, with die 0. -/
def dropTlb (s : State) (bits : Nat → Bool → Bool) : State :=
  let drop (die1 : Bool) (e : EngSt) : EngSt := { e with tlb := e.tlb.filter (fun x => !bits x.1 die1) }
  { s with cores := s.cores.map (fun p =>
      (p.1, { p.2 with ec := drop (p.1 % 2 == 1) p.2.ec, ev := drop false p.2.ev, em := drop false p.2.em, eh := drop false p.2.eh })),
           ltlb := s.ltlb.filter (fun x => !bits x.1 false) }

/-- This module's TLB entries of the pages invalidated where ACCESSED names their die. -/
def dropLocal (s : State) (pages : List Nat) : State :=
  dropTlb s (fun at_ die1 => pages.contains at_ && accessed s at_ / 2 ^ (2 * s.modNum + if die1 then 1 else 0) % 2 == 1)

/-- The other modules whose bits the pages' companion words hold. -/
def otherMods (s : State) (pages : List Nat) : List Nat :=
  (List.range 4).filter (fun m => m != s.modNum && pages.any (fun x => accessed s x / 4 ^ m % 4 != 0))

/-- The pages that one control flit's payload names: 24 addresses fill its 192 bytes (R397). -/
def pageGroups (pages : List Nat) : List (List Nat) :=
  (List.range ((pages.length + 23) / 24)).map (fun i => (pages.drop (24 * i)).take 24)

/-- The requests to each linked module; one that no port reaches does not answer. -/
def askMods (s : State) (pages : List Nat) : State × List Nat × Bool :=
  (otherMods s pages).foldl (fun (r : State × List Nat × Bool) m =>
    if (portTo r.1 m).isSome then
      (pageGroups pages).foldl (fun (r : State × List Nat × Bool) l =>
        let p := sendReq r.1 .control .shoot m (l.headD 0) 0 (l.flatMap (leBytes 8))
        (p.1, r.2.1 ++ [p.2], r.2.2)) r
    else (r.1, r.2.1, true)) (s, [], false)

/-- The requests on their way that carry accesses already translated. -/
def inFlight (s : State) : List Nat :=
  (s.reqs.filter (fun r => r.kind == .read || r.kind == .write || r.kind == .atomic || r.kind == .reduce)).map (fun r => r.id)

/-- A shootdown begun, the ACCESSED bits it has found noted: local entries go, stores already translated perform, and linked modules are asked. -/
def beginShoot (s : State) (part : Nat) (pages : List Nat) (back : Option (Nat × HEntry)) : State :=
  let waits := if pages.isEmpty then [] else inFlight s
  let bits := SMap.setAll 0 [] (pages.map (fun x => (x, accessed s x)))
  let s := dropLocal s pages
  let s := (s.cores.map (fun p => p.1)).foldl performAll s
  let r := askMods s pages
  { r.1 with shoot := some { core := s.cur.core, start := s.tick, waits := waits, part := part, pages := pages, ids := r.2.1, lost := r.2.2, back := back, bits := bits } }

/-- 10 ms in ticks of 500 ns (R17, R361). -/
def shootTicks : Nat := 20000

/-- Whether a linked module has had its 10 ms (R361). -/
def shootOver (s : State) (x : Shoot) : Bool := decide (x.start + shootTicks ≤ s.tick)

/-- Whether requests with one of the numbers are still on their way. -/
def stillOut (s : State) (ids : List Nat) : Bool := ids.any (fun i => s.reqs.any (fun r => r.id == i))

/-- Whether a shootdown still waits: for a module's answer, for at most 10 ms, or for an access that was translated before (R361,
R365). -/
def shootWaits (s : State) (x : Shoot) : Bool := ((stillOut s x.ids || x.lost) && !shootOver s x) || stillOut s x.waits

/-- The end of a shootdown: the ACCESSED bits that it found cleared and the operation counted, or LINKDOWN, which leaves an entry that
UNMAP removed in place. -/
def endShoot (s : State) (d : Reg) (x : Shoot) : Eff :=
  let lost := x.lost || stillOut s x.ids
  let s := { s with shoot := none, reqs := s.reqs.filter (fun r => !x.ids.contains r.id) }
  if lost then
    giveStatus d 0x106 (match x.back with | some (k, e) => { s with ht := SMap.set none s.ht k (some e) } | none => s)
  else
    let s := x.pages.foldl (fun s at_ => markPte s at_ (fun b => b &&& ~~~(BitVec.ofNat 8 (SMap.get 0 x.bits at_)))) s
    giveStatus d 0 (upPart s x.part (fun p => { p with shootdowns := (p.shootdowns + 1) % 2 ^ 64 }))

/-- A shootdown of this core carried on, or one begun once no other is under way; `go` checks the descriptor. -/
def shootWord (h : Hd) (d a : Reg) (s : State) (go : List Byte → State → Except Nat State) : Out :=
  privWord h s fun s =>
    let fin (s : State) : Eff := match s.shoot with
      | some x => if shootWaits s x then .stall 0 0 0 s else endShoot s d x
      | none => .stall 0 0 0 s
    match s.shoot with
    | some x => if x.core = s.cur.core then fin s else .stall 0 0 0 s
    | none =>
      let s := fwFill s a 128
      match fwDesc s a 128 with
      | none => giveStatus d 4 s
      | some l =>
        match go l s with
        | .error c => giveStatus d c s
        | .ok s => fin s

/-- `htab` SHOOTDOWN. -/
def execHtabShootdown (h : Hd) (d a : Reg) (s : State) : Out :=
  shootWord h d a s fun l s =>
    if !htNameOk s l then .error 0x101
    else if !shootFieldsOk l then .error 4
    else match SMap.get none s.ht (htName l) with
      | none => .error 0x103
      | some e => .ok (beginShoot s (htPart l) (shootPages e (htBase l) (htExtent l)) none)

/-- `htab` UNMAP: the entry is removed, then its whole extent is shot down (R360). -/
def execHtabUnmap (h : Hd) (d a : Reg) (s : State) : Out :=
  shootWord h d a s fun l s =>
    if !htNameOk s l then .error 0x101
    else if !unmapFieldsOk l then .error 4
    else match SMap.get none s.ht (htName l) with
      | none => .error 0x103
      | some e =>
        .ok (beginShoot { s with ht := SMap.set none s.ht (htName l) none } (htPart l) (shootPages e 0 e.ext) (some (htName l, e)))

/-- A linked module that has not answered within 10 ms is given up, and the shootdown is to give LINKDOWN (R361). -/
def loseShoot (s : State) (mods : Nat) : State :=
  let late := match s.shoot with | some x => shootOver s x | none => false
  let gone (r : Req) : Bool := r.kind == .control && r.who == .shoot && r.port.any (fun p => mods / 2 ^ (SMap.get ({} : Port) s.ports p).peer % 2 == 1)
  let any := s.reqs.any gone
  if late then { s with reqs := s.reqs.filter (fun r => !gone r), shoot := s.shoot.map (fun x => { x with lost := x.lost || any }) } else s

def execShootdownTimeout (mods : Nat) (s : State) : Out := .next (loseShoot s mods)

end Sys2Proof.Machine
end

