-- ==== Sys2Proof/Machine/Sm2.lean ====
section
/-! DEFINITION. SM2: the signature of a quote (R407, R408) and the check of a firmware image (R409), on the curve that GB/T 32918 recommends: the spec names SM2 and does not
print it (log entry 92). -/

namespace Sys2Proof.Machine

def sm2P : Nat := 0xFFFFFFFEFFFFFFFFFFFFFFFFFFFFFFFFFFFFFFFF00000000FFFFFFFFFFFFFFFF
def sm2A : Nat := 0xFFFFFFFEFFFFFFFFFFFFFFFFFFFFFFFFFFFFFFFF00000000FFFFFFFFFFFFFFFC
def sm2B : Nat := 0x28E9FA9E9D9F5E344D5A9E4BCF6509A7F39789F515AB8F92DDBCBD414D940E93
def sm2N : Nat := 0xFFFFFFFEFFFFFFFFFFFFFFFFFFFFFFFF7203DF6B21C6052B53BBF40939D54123
def sm2Gx : Nat := 0x32C4AE2C1F1981195F9904466A39C9948FE30BBFF2660BE1715A4589334C74C7
def sm2Gy : Nat := 0xBC3736A2F4F6779C59BDCEE36B692153D0A9877CC62A474002DF32E52139F0A0

/-- `r × x^e` modulo `m`, over the lowest `n` bits of `e`. -/
def powMod (m : Nat) : Nat → Nat → Nat → Nat → Nat
  | 0, _, _, r => r
  | n + 1, x, e, r => powMod m n (x * x % m) (e / 2) (if e % 2 = 1 then r * x % m else r)

/-- The inverse modulo a prime below 2^256. -/
def invMod (m x : Nat) : Nat := powMod m 256 (x % m) (m - 2) 1

/-- The third point of a line of slope `l` through two points, mirrored. -/
def sm2Third (l x1 y1 x2 : Nat) : Nat × Nat :=
  let x := (l * l + (sm2P - x1) + (sm2P - x2)) % sm2P
  (x, (l * (x1 + (sm2P - x)) + (sm2P - y1)) % sm2P)

/-- The sum of two points of the curve; none is the point at infinity. -/
def sm2Add (a b : Option (Nat × Nat)) : Option (Nat × Nat) :=
  match a, b with
  | none, b => b
  | a, none => a
  | some (x1, y1), some (x2, y2) =>
    if x1 ≠ x2 then some (sm2Third ((y2 + (sm2P - y1)) * invMod sm2P (x2 + (sm2P - x1)) % sm2P) x1 y1 x2)
    else if (y1 + y2) % sm2P = 0 then none
    else some (sm2Third ((3 * x1 * x1 + sm2A) * invMod sm2P (2 * y1) % sm2P) x1 y1 x2)

/-- `r + k · a`, over the lowest `n` bits of `k`. -/
def sm2Mul : Nat → Nat → Option (Nat × Nat) → Option (Nat × Nat) → Option (Nat × Nat)
  | 0, _, _, r => r
  | n + 1, k, a, r => sm2Mul n (k / 2) (sm2Add a a) (if k % 2 = 1 then sm2Add r a else r)

/-- k · G, as two coordinates. -/
def sm2Point (k : Nat) : Nat × Nat := (sm2Mul 256 k (some (sm2Gx, sm2Gy)) none).getD (0, 0)

/-- The hash that goes before the message: of the user identifier, the curve and the public key. -/
def sm2Prefix (id : List Byte) (key : Nat × Nat) : List Byte :=
  beBytes 32 (sm3Digest (beBytes 2 (8 * id.length) ++ id ++
    ([sm2A, sm2B, sm2Gx, sm2Gy, key.1, key.2] : List Nat).flatMap (fun x => beBytes 32 x))).toNat

/-- The signature (r, s) of a message under private key `d` with the number `k`. -/
def sm2Sign (d k : Nat) (id msg : List Byte) : Nat × Nat :=
  let e := (sm3Digest (sm2Prefix id (sm2Point d) ++ msg)).toNat
  let r := (e + (sm2Point k).1) % sm2N
  (r, invMod sm2N (1 + d) * ((k + (sm2N - r * d % sm2N)) % sm2N) % sm2N)

/-- Whether (r, s) is a signature of a message under the public key `key`. -/
def sm2Verify (key : Nat × Nat) (id msg : List Byte) (r s : Nat) : Bool :=
  let e := (sm3Digest (sm2Prefix id key ++ msg)).toNat
  let t := (r + s) % sm2N
  decide (1 ≤ r ∧ r < sm2N) && decide (1 ≤ s ∧ s < sm2N) && t != 0 &&
  (match sm2Add (sm2Mul 256 s (some (sm2Gx, sm2Gy)) none) (sm2Mul 256 t (some key) none) with
   | some (x, _) => (e + x) % sm2N == r
   | none => false)

/-- The public firmware key held in ROM (R409): that of a private half from 1 to n − 2. -/
def firmwareKey : Nat × Nat := sm2Point (1 + Config.firmwareKey % (sm2N - 2))

/-- Whether a firmware header carries a signature, r then s, over its bytes 0 to 63 (R409). -/
def headerSigned (l : List Byte) : Bool :=
  sm2Verify firmwareKey Config.firmwareUser (l.take 64) (beNat ((l.drop 64).take 32)) (beNat ((l.drop 96).take 32))

/-! ## The device's identity (R407, R408) -/

/-- The device identity key's private half, from 1 to n − 2. -/
def identitySecret : Nat := 1 + Config.identitySecret % (sm2N - 2)

/-- The public identity key, x then y, big-endian. -/
def identityKey : List Byte := beBytes 32 (sm2Point identitySecret).1 ++ beBytes 32 (sm2Point identitySecret).2

/-- The user identifier ASCII "CAVARLIDIN". -/
def quoteUser : List Byte := [0x43, 0x41, 0x56, 0x41, 0x52, 0x4C, 0x49, 0x44, 0x49, 0x4E]

/-- The signature of a quote's message, r then s, big-endian; the number it takes is a free value of the signer. -/
def quoteSignature (n : Nat) (msg : List Byte) : List Byte :=
  let x := sm2Sign identitySecret (1 + Config.signNumber n % (sm2N - 1)) quoteUser msg
  beBytes 32 x.1 ++ beBytes 32 x.2

end Sys2Proof.Machine
end

