-- ==== Sys2Proof/Machine/Mailbox.lean ====
section
/-! DEFINITION. The mailbox commands (R394, R407–R409), measurements (R406) and quotes (R408). -/

namespace Sys2Proof.Machine

def mbOk : Nat := 0
def mbBadcmd : Nat := 1
def mbDenied : Nat := 2
def mbBadarg : Nat := 3
def mbBadstate : Nat := 4

/-- What a command comes to: a STATUS that changes nothing, or the state and the words of MBRES. -/
inductive MbRes where
  | no (status : Nat)
  | ok (s : State) (res : List Word)

/-- Whether a function's command is the first to have arrived of those under way: they reach the security controller one at a time
(R408). -/
def mailTurn (s : State) (fn : Nat) : Bool :=
  (List.range 5).all (fun g => !(fnAt s g).busy || decide ((fnAt s fn).arr ≤ (fnAt s g).arr))

/-- A mailbox command under way: `pf` where only the physical function may give it, `low` the first stage it works in.
Result registers that it does not name are written 0. -/
def mailbox (fn code : Nat) (pf : Bool) (low : Nat) (run : Fn → State → MbRes) (s : State) : Out :=
  let f := fnAt s fn
  .next (
    if !f.busy || f.cmd != code || !mailTurn s fn then s
    else if pf && fn != 0 then endMailbox s fn mbDenied
    else if s.stage < low then endMailbox s fn mbBadstate
    else match run f s with
      | .no st => endMailbox s fn st
      | .ok s l => endMailbox (upFn s fn (fun f => { f with res := SMap.tab 0 8 (fun i => l.getD i 0) })) fn mbOk)

/-- Argument register `i` as the command took it. -/
def mbArg (f : Fn) (i : Nat) : Nat := (SMap.get 0 f.taken i).toNat
/-- `n` bytes of the argument area from register `i` on (R407). -/
def mbArgBytes (f : Fn) (i n : Nat) : List Byte := ((List.range ((n + 7) / 8)).flatMap (fun j => leBytes 8 (mbArg f (i + j)))).take n
/-- Bytes laid out in result registers (R407). -/
def mbWords (l : List Byte) : List Word := (List.range (l.length / 8)).map (fun i => BitVec.ofNat 64 (leNat ((l.drop (8 * i)).take 8)))
def w64 (n : Nat) : Word := BitVec.ofNat 64 n

/-! ## Identity and health (R394) -/

/-- IDENT's MBRES1: ordering code, module number and count, and the three ports. -/
def identWord (s : State) : Nat :=
  (if s.order4T = 2 then 2 else s.order4T % 2) + s.modNum % 4 * 4 + (s.modCount - 1) % 4 * 16 +
  (List.range 3).foldl (fun a p =>
    let q := SMap.get ({} : Port) s.ports p
    a + (q.peer % 4 + if q.up then 8 else 0) * 2 ^ (8 + 4 * p)) 0

def execIdent (fn : Nat) (s : State) : Out :=
  mailbox fn 0x01 false 0 (fun _ s => .ok s [Config.deviceSerial, w64 (identWord s), w64 (if fn = 0 then 7 else fn - 1)]) s

def execHealth (fn : Nat) (s : State) : Out :=
  mailbox fn 0x02 false 0 (fun _ s =>
    .ok s [w64 (s.deadPairs.length % 256 + (List.range 20).foldl (fun a c => a + if SMap.get false s.deadArrays c then 2 ^ (8 + c) else 0) 0 +
             s.deadGroups.length % 256 * 2 ^ 28), w64 (degradedCount s), w64 s.reloads.length]) s

/-- The partition of a region that a reload request names. -/
def reloadPart (s : State) (r : Nat × Nat × Nat) : Nat := match regionAt s r.1 with | some x => x.part | none => 7

/-- RELOADQ: the oldest request of the function's partition; the physical function takes the oldest of all (log entry 34). -/
def takeReload (fn : Nat) (s : State) : MbRes :=
  match s.reloads.find? (fun r => fn == 0 || reloadPart s r == fn - 1) with
  | some r => .ok { s with reloads := s.reloads.erase r } [w64 (r.1 % 2 ^ 12 + 2 ^ 12), w64 r.2.1, w64 r.2.2]
  | none => .ok s []

def execReloadq (fn : Nat) (s : State) : Out := mailbox fn 0x03 false 3 (fun _ s => takeReload fn s) s

/-! ## Partitioning (R373, R394) -/

/-- Owner fields of three bits from bit `lo` on. -/
def owners (x lo n : Nat) : SMap Nat := SMap.tab 7 n (fun i => x / 2 ^ (lo + 3 * i) % 8)
def ownerWord (m : SMap Nat) (n : Nat) : Nat := (List.range n).foldl (fun a i => a + SMap.get 7 m i * 2 ^ (3 * i)) 0

def ownOf (a0 a1 : Nat) : Own := { cg := owners a0 0 4, sp := owners a0 12 4, ch := owners a0 24 4, su := owners a0 36 4, fw := owners a1 0 16 }

/-- The limits of PARTSET: owners 0–3 or 7, no absent unit, and each partition with all rows of R373 or none. -/
def ownOk (s : State) (o : Own) : Bool :=
  let vals (m : SMap Nat) (n : Nat) : List Nat := (List.range n).map (fun i => SMap.get 7 m i)
  let all := [vals o.cg 4, vals o.sp 4, vals o.ch 4, vals o.su 4, vals o.fw 16]
  all.all (fun l => l.all (fun v => decide (v ≤ 3) || v == 7)) &&
  (s.order4T != 2 || [2, 3].all (fun i => SMap.get 7 o.sp i == 7 && SMap.get 7 o.ch i == 7)) &&
  (List.range 4).all (fun p => all.all (fun l => l.contains p) || all.all (fun l => !l.contains p))

/-- PARTSET: a stack that changes owner loses what its latch and slots hold (R251). -/
def setParts (f : Fn) (s : State) : MbRes :=
  let o := ownOf (mbArg f 0) (mbArg f 1)
  if mbArg f 0 / 2 ^ 48 ≠ 0 ∨ mbArg f 1 / 2 ^ 48 ≠ 0 ∨ !ownOk s o then .no mbBadarg
  else if s.queues.any (fun p => p.2.st != .disabled) then .no mbBadstate
  else
    .ok { s with own := o, lode := s.lode.filter (fun p => SMap.get 7 s.own.sp (p.1 / 2) == SMap.get 7 o.sp (p.1 / 2)) } []

/-- PARTGET's two words. -/
def partWords (s : State) : Nat × Nat :=
  (ownerWord s.own.cg 4 + ownerWord s.own.sp 4 * 2 ^ 12 + ownerWord s.own.ch 4 * 2 ^ 24 + ownerWord s.own.su 4 * 2 ^ 36, ownerWord s.own.fw 16)

def execPartset (fn : Nat) (s : State) : Out := mailbox fn 0x10 true 3 setParts s
def execPartget (fn : Nat) (s : State) : Out :=
  mailbox fn 0x11 false 3 (fun _ s => .ok s [w64 (partWords s).1, w64 (partWords s).2]) s

/-! ## Power (R407, R410) -/

def setCap (f : Fn) (s : State) : MbRes :=
  let a := mbArg f 0
  if 600 ≤ a ∧ a ≤ 2000 then .ok { s with cap := a } [] else .no mbBadarg

/-- The mean power that CAPGET reads: at most 2 % above the cap (R411). -/
def meanPower (s : State) : Nat := min (Config.meanPower s.tick).toNat (s.cap * 102 / 100)

/-- The clock steps of the clusters. -/
def clockSteps (s : State) : Nat := (List.range 20).foldl (fun a c => a + (clusterAt s c).step % 8 * 2 ^ (3 * c)) 0

def execCapset (fn : Nat) (s : State) : Out := mailbox fn 0x20 true 3 setCap s
def execCapget (fn : Nat) (s : State) : Out :=
  mailbox fn 0x21 false 3 (fun _ s => .ok s [w64 s.cap, w64 (meanPower s), w64 (clockSteps s)]) s

/-! ## Measurements and quotes (R406–R408) -/

def mrAt (s : State) (i : Nat) : BitVec 256 := SMap.get 0 s.mrs i

/-- An extension by a digest (R406). -/
def extendMr (s : State) (i : Nat) (d : BitVec 256) : State :=
  { s with mrs := SMap.set 0 s.mrs i (sm3Digest (beBytes 32 (mrAt s i).toNat ++ beBytes 32 d.toNat)) }

/-- The configuration block (R408). -/
def configBlock (s : State) : List Byte :=
  leBytes 8 (identWord s) ++ leBytes 8 (partWords s).1 ++ leBytes 8 (partWords s).2 ++ leBytes 2 s.cap ++ leBytes 2 (stageReg s) ++ leBytes 4 0

/-- MEASURE and CONFIG: the value now, or that of the function's snapshot, BADSTATE before any quote. -/
def snapOr (f : Fn) (k : Option Snap → MbRes) : MbRes :=
  if mbArg f 0 / 2 ^ 8 % 2 = 0 then k none else match f.snap with | some x => k (some x) | none => .no mbBadstate

def measureMr (f : Fn) (s : State) : MbRes :=
  snapOr f (fun o =>
    let m := match o with | some x => SMap.get 0 x.mrs (mbArg f 0 % 8) | none => mrAt s (mbArg f 0 % 8)
    .ok s (mbWords (beBytes 32 m.toNat)))

def execMeasure (fn : Nat) (s : State) : Out := mailbox fn 0x22 false 0 measureMr s

def execIdkey (fn : Nat) (s : State) : Out :=
  mailbox fn 0x23 false 0 (fun _ s => .ok s (mbWords identityKey)) s

/-- The message of a quote (R408). -/
def quoteMsg (s : State) (nonce : List Byte) : List Byte :=
  [0x43, 0x56, 0x4C, 0x51] ++ nonce ++ (List.range 8).flatMap (fun i => beBytes 32 (mrAt s i).toNat) ++ configBlock s ++ beBytes 8 s.qcount

/-- QUOTE: QCOUNT rises, and the values signed become the function's snapshot. -/
def giveQuote (fn : Nat) (f : Fn) (s : State) : MbRes :=
  let s := { s with qcount := (s.qcount + 1) % 2 ^ 64 }
  let sig := quoteSignature s.free (quoteMsg s (mbArgBytes f 0 32))
  let s := upFn s fn (fun x => { x with snap := some { mrs := s.mrs, cfg := configBlock s, qcount := s.qcount } })
  .ok { s with free := s.free + 1 } (mbWords sig)

def execQuote (fn : Nat) (s : State) : Out := mailbox fn 0x24 false 0 (giveQuote fn) s

def readConfig (f : Fn) (s : State) : MbRes :=
  snapOr f (fun o => match o with
    | some x => .ok s (mbWords x.cfg ++ [w64 x.qcount])
    | none => .ok s (mbWords (configBlock s) ++ [w64 s.qcount]))

def execConfig (fn : Nat) (s : State) : Out := mailbox fn 0x25 false 0 readConfig s

def hostExtend (f : Fn) (s : State) : MbRes :=
  let i := mbArg f 0
  if 4 ≤ i ∧ i ≤ 7 then .ok (extendMr s i (BitVec.ofNat 256 (beNat (mbArgBytes f 1 32)))) [] else .no mbBadarg

def execMrext (fn : Nat) (s : State) : Out := mailbox fn 0x26 true 0 hostExtend s

/-! ## Firmware (R405, R407, R409) -/

/-- The layout of a firmware image (R409). -/
def imageLayoutOk (l : List Byte) : Bool :=
  let n (o k : Nat) : Nat := leNat ((l.drop o).take k)
  decide (128 ≤ l.length) && n 0 4 == 0x4957464C && decide (n 8 4 ≤ 2 ^ 24 - 128) && n 12 20 == 0 && l.length == 128 + n 8 4

/-- Digest, signature and version of an image (R409). -/
def imageTrusted (s : State) (l : List Byte) : Bool :=
  beNat ((l.drop 32).take 32) == (sm3Digest (l.drop 128)).toNat && headerSigned l &&
  decide (s.floor ≤ leNat ((l.drop 4).take 4))

def bankAt (s : State) (b : Nat) : FwBank := SMap.get {} s.banks b

/-- FWUPD: an image in LPDDR-6 that passes is written to the bank that is not running, which is marked next. With a block
that fails its check the image is as one with a wrong digest. -/
def updateFw (f : Fn) (s : State) : MbRes :=
  let pa := mbArg f 0
  let n := mbArg f 1
  if pa % 4096 ≠ 0 ∨ 2 ^ 24 < n ∨ n < 128 ∨ dramGroups s * 2 ^ 37 < pa + n then .no mbBadarg
  else
    let l := rdBytes s pa n
    if (List.range n).any (fun i => badByte s (pa + i)) then .no mbDenied
    else if !imageLayoutOk l then .no mbBadarg
    else if !imageTrusted s l then .no mbDenied
    else .ok { s with banks := SMap.set {} s.banks (1 - s.bank) { ver := leNat ((l.drop 4).take 4), valid := true, image := l, fresh := true },
                      next := 1 - s.bank } []

def execFwupd (fn : Nat) (s : State) : Out := mailbox fn 0x27 true 2 updateFw s

def execFwstat (fn : Nat) (s : State) : Out :=
  mailbox fn 0x28 false 0 (fun _ s => .ok s [w64 (bankAt s 0).ver, w64 (bankAt s 1).ver, w64 s.floor, w64 s.next]) s

/-- RESTART completes with OK, and the module returns to Stage S with CAUSE 4. -/
def execRestart (fn : Nat) (s : State) : Out :=
  let f := fnAt s fn
  let go := f.busy && f.cmd == 0x29 && mailTurn s fn && fn == 0 && mbArg f 0 == 0
  match mailbox fn 0x29 true 0 (fun f s => if mbArg f 0 = 0 then .ok s [] else .no mbBadarg) s with
  | .next s' => .next (if go then toStageS s' 4 else s')
  | o => o

end Sys2Proof.Machine
end

