-- ==== Sys2Proof/Machine/VMem.lean ====
section
/-! DEFINITION. Tile, ragged and indexed memory access of the V engine (R81–R83, R178–R184) and `krl` (R204). -/

namespace Sys2Proof.Machine

/-! ## Several accesses of one word -/

/-- An access that is answered goes on; one that waits or fails ends the word's turn. -/
def effRes {α : Type} (r : MRes α) (k : α → State → Eff) : Eff :=
  match r with
  | .ok x s => k x s
  | .wait s => .stall 0 0 0 s
  | .fail f s => .fatal f s

/-- Loads made in turn, each an address and a length, with all their bytes. -/
def loadEach (fresh : Bool) : List (Nat × Nat) → State → MRes (List (List Byte))
  | [], s => .ok [] s
  | (a, n) :: r, s =>
    match coreLoad s a n fresh with
    | .ok b s =>
      (match loadEach fresh r s with
       | .ok l s => .ok (b :: l) s
       | .wait s => .wait s
       | .fail f s => .fail f s)
    | .wait s => .wait s
    | .fail f s => .fail f s

/-- The loads of a word: one element of them ahead of the others, or all (R180). -/
def coreLoads (fresh : Bool) (l : List (Nat × Nat)) (s : State) : MRes (List (List Byte)) :=
  match partLoad s l fresh with
  | some s => .wait s
  | none => loadEach fresh l s

/-- Stores made in turn, the later ones later in text order, the first of them from byte `o` of what the word stores on (R178,
R180). -/
def storeEach : Nat → List (Nat × List Byte) → State → MRes Unit
  | _, [], s => .ok () s
  | o, (a, d) :: r, s =>
    match coreStoreAt o s a d with
    | .ok _ s => storeEach (o + d.length) r s
    | .wait s => .wait s
    | .fail f s => .fail f s

/-- The stores of a word: one element of them ahead of the others, or all (R180). -/
def coreStores (l : List (Nat × List Byte)) (s : State) : MRes Unit :=
  match partStore s l with
  | some s => .wait s
  | none => storeEach 0 l s

/-- An address moved by an exact distance on its offset bits, or the failure of R178, whose record names the address with its offset
modulo 2^48 and the size of the row (log entry 16); a vector element's address is a multiple of 4 (R79). -/
def rowAddr (ea : Nat) (delta : Int) (n : Nat) : Except FInfo Nat :=
  let o : Int := (ea % 2 ^ 48 : Nat) + delta
  let a := ea / 2 ^ 48 * 2 ^ 48 + toTwos 48 o
  if o < 0 ∨ (2 ^ 48 : Int) ≤ o then .error { code := 2, info := 2, addr := a, len := n }
  else if a % 4 ≠ 0 then .error { code := 4, addr := a, len := n }
  else .ok a

/-- The row of R419 that a fault of a vector or operand access stands in; a misaligned access comes first (log entry 15), a check
that fails last. -/
def faultRank (f : FInfo) : Nat := if f.code = 4 then 0 else if f.code = 3 then 1 else if f.code = 2 then 1 + f.info else 9

/-- Of two faults that parts of one access meet, that of the higher row of R419, else that of the earlier part. -/
def pickFault (f g : FInfo) : FInfo := if faultRank g < faultRank f then g else f

/-- The fault that the record of a word names whose accesses, each an address or its failure and a length, end in a fault `f`: where
addresses do not translate, the highest row decides over all of them (R419). -/
def vecFault (s : State) (acc : Acc) (l : List (Except FInfo Nat × Nat)) (f : FInfo) : FInfo :=
  if f.code = 2 ∨ f.code = 3 then
    (l.filterMap (fun p => match p.1 with
      | .error g => some g
      | .ok a => match xlateRange s (curWho s .core) acc false a p.2 with | .error x => some (xInfo x a p.2) | .ok _ => none)).foldl
      (fun b g => match b with | none => some g | some h => some (pickFault h g)) none |>.getD f
  else f

/-- A list of addresses, or the first failure. -/
def allAddrs (l : List (Except FInfo Nat)) : Except FInfo (List Nat) :=
  l.foldr (fun x r => match x, r with
    | .error f, _ => .error f
    | .ok _, .error f => .error f
    | .ok a, .ok t => .ok (a :: t)) (.ok [])

/-- The accesses of a vector word carried out, once all of them have addresses (R180, R419). -/
def effRows {α : Type} (s : State) (acc : Acc) (l : List (Except FInfo Nat × Nat)) (run : List Nat → MRes α) (k : α → State → Eff) : Eff :=
  match allAddrs (l.map (fun p => p.1)) with
  | .error f => .fatal (vecFault s acc l f) s
  | .ok as_ => match run as_ with
    | .ok x s => k x s
    | .wait s => .stall 0 0 0 s
    | .fail f t => .fatal (vecFault s acc l f) t

def groupSize (imm : W32) : Nat := 2 ^ (imm.toNat / 2 ^ 29)
/-- The signed offset in IMM[28:0] (R177). -/
def tileOffset (imm : W32) : Int := (imm.extractLsb' 0 29 : BitVec 29).toInt

/-- The bytes of a register in value order. -/
def regBytes (c : Core) (r : Nat) : List Byte := (List.range 1024).flatMap (fun e => leBytes 4 (vget c r e).toNat)

/-- A register whose element e is bytes 4e to 4e + 3. -/
def elemsFrom (l : List Byte) : List (Nat × W32) :=
  (List.range 1024).map (fun e => (e, BitVec.ofNat 32 (leNat ((l.drop (4 * e)).take 4))))

/-- Rows of 256 bytes written into a register group, 16 rows a register (R178). -/
def putRows (s : State) (d g : Nat) (rows : List (List Byte)) : State :=
  (List.range g).foldl (fun s i => upCur s (fun c => vsetList c (d + i) (elemsFrom ((rows.drop (16 * i)).take 16).flatten))) s

/-- Row ρ of a register group. -/
def groupRow (c : Core) (r row : Nat) : List Byte :=
  (List.range 64).flatMap (fun j => leBytes 4 (vget c (r + row / 16) (row % 16 * 64 + j)).toNat)

/-! ## Tiles at an address and pitch (R178) -/

/-- The rows of a tile: the address of each, or why it has none, and its length. -/
def tileRows (s : State) (a b : Reg) (imm : W32) : Except FInfo (List (Except FInfo Nat × Nat)) :=
  match effAddr (rd s a) (tileOffset imm) with
  | none => .error { code := 2, info := 2, addr := (rd s a).toNat, len := 256 }
  | some ea => .ok ((List.range (16 * groupSize imm)).map (fun row : Nat => (rowAddr ea ((row : Int) * (rd s b).toInt) 256, 256)))

/-- The row addresses of a tile. -/
def tileAddrs (s : State) (a b : Reg) (imm : W32) : Except FInfo (List Nat) :=
  match tileRows s a b imm with
  | .error f => .error f
  | .ok l => allAddrs (l.map (fun p => p.1))

def execVld (h : Hd) (_ty : ETy) (q : Bool) (d a b : Reg) (imm : W32) (s : State) : Out :=
  runEff s h fun s =>
    match tileRows s a b imm with
    | .error f => .fatal f s
    | .ok r => effRows s .r r (fun l => coreLoads q (l.map (fun x => (x, 256))) s) fun rows s => .done (putRows s d.toNat (groupSize imm) rows)

def execVst (h : Hd) (_ty : ETy) (a b e : Reg) (imm : W32) (s : State) : Out :=
  runEff s h fun s =>
    match tileRows s a b imm with
    | .error f => .fatal f s
    | .ok r => effRows s .w r (fun l => coreStores ((List.range l.length).map (fun i => (l.getD i 0, groupRow (curCore s) e.toNat i))) s) fun _ s =>
        .done s

/-! ## Tiles in the scratchpad (R81–R83, R179) -/

/-- The fields of an spa and spb pair (R81). -/
def spBase (spa : Word) : Nat := spa.toNat / 2 ^ 23 % 8 * 2 ^ 23 + spa.toNat % 2 ^ 23
def spRowPitch (spa : Word) : Nat := spa.toNat / 2 ^ 26 % 2 ^ 16
def spType (spb : Word) : Nat := spb.toNat / 2 ^ 28 % 16
def spRot (spb : Word) : Nat := spb.toNat / 2 ^ 24 % 16
def spTilePitch (spb : Word) : Nat := spb.toNat % 2 ^ 24

/-- The conditions of R83, for an operand of an accepted type that is written or only read. -/
def spOk (spa spb : Word) (write : Bool) : Bool :=
  spa.toNat / 2 ^ 42 == 0 && spb.toNat / 2 ^ 32 == 0 && spa.toNat % 16 == 0 && !(write && spRowPitch spa == 0)

/-- `scratch_addr` of R82 before rotation, for a byte offset within the row. -/
def spLinear (spa spb : Word) (t r col : Nat) : Nat := spBase spa + t * 16 * spTilePitch spb + r * 16 * spRowPitch spa + col

/-- The bank rotation of R82. -/
def spRotate (spb : Word) (r b : Nat) : Nat :=
  let k := (b / 16 + r * spRot spb) % 32
  b / 512 * 512 + k * 16 + b % 16

/-- The device address of a granule of a tile, or its translation failure (R83). -/
def spAddr (spa spb : Word) (t r col : Nat) : Except FInfo Nat :=
  let b := spLinear spa spb t r col
  let at_ := 0xFFFE * 2 ^ 48
  if 2 ^ 26 ≤ b then .error { code := 2, info := 2, addr := at_ + b % 2 ^ 48, len := 16 } else .ok (at_ + spRotate spb r b)

/-- The granules of a tile of `n` rows in row order, each with its length. -/
def spRows (spa spb : Word) (t n : Nat) : List (Except FInfo Nat × Nat) :=
  (List.range n).flatMap (fun r => (List.range 16).map (fun q => (spAddr spa spb t r (16 * q), 16)))

/-- The addresses of the granules of a tile. -/
def spGranules (spa spb : Word) (t n : Nat) : Except FInfo (List Nat) := allAddrs ((spRows spa spb t n).map (fun p => p.1))

/-- Pieces of 16 bytes joined into rows of 256. -/
def joinRows (n : Nat) (l : List (List Byte)) : List (List Byte) := (List.range n).map (fun r => ((l.drop (16 * r)).take 16).flatten)

/-- Whether a scratchpad tile word's pair is legal for its type (R83). -/
def spWordOk (s : State) (ty : ETy) (a b : Reg) (write : Bool) : Bool := spOk (rd s a) (rd s b) write && spType (rd s b) == etyCode ty

def execVldSp (h : Hd) (ty : ETy) (_q : Bool) (d a b : Reg) (imm : W32) (s : State) : Out :=
  legalEff s h (fun s => spWordOk s ty a b false) fun s =>
    let n := 16 * groupSize imm
    if !spWordOk s ty a b false then .fatal fIllegal s
    else
      effRows s .r (spRows (rd s a) (rd s b) (imm.toNat % 2 ^ 24) n) (fun l => coreLoads true (l.map (fun x => (x, 16))) s) fun gs s =>
        .done (putRows s d.toNat (groupSize imm) (joinRows n gs))

def execVstSp (h : Hd) (ty : ETy) (a b e : Reg) (imm : W32) (s : State) : Out :=
  legalEff s h (fun s => spWordOk s ty a b true) fun s =>
    let n := 16 * groupSize imm
    if !spWordOk s ty a b true then .fatal fIllegal s
    else
      effRows s .w (spRows (rd s a) (rd s b) (imm.toNat % 2 ^ 24) n) (fun l =>
        coreStores ((List.range l.length).map (fun i =>
          (l.getD i 0, ((groupRow (curCore s) e.toNat (i / 16)).drop (16 * (i % 16))).take 16))) s) fun _ s => .done s

/-! ## Ragged access (R181–R183, R204) -/

/-- A packed row: its index, its first element, its length in values and the elements it takes. -/
structure RRow where
  idx : Nat
  el : Nat
  len : Nat
  need : Nat
  deriving DecidableEq, Repr

/-- The fields of the S pair of R181. -/
def rgCount (x : Word) : Nat := x.toNat / 2 ^ 48
def rgFirst (x : Word) : Nat := x.toNat / 2 ^ 32 % 2 ^ 16
def rgPitch (x : Word) : Nat := x.toNat % 2 ^ 32

/-- The packing of R182 over at most `n` more rows, reading the table as it goes: the rows packed and how many they
are. -/
def packRows (fresh : Bool) (l : Nat) (tab : Word) (first : Nat) : Nat → Nat → Nat → List RRow → State → MRes (List RRow × Nat)
  | 0, used, _, acc, s => .ok (acc, used) s
  | n + 1, used, el, acc, s =>
    match effAddr tab (2 * ((first + used : Nat) : Int)) with
    | none => .fail { code := 2, info := 2, addr := tab.toNat, len := 2 } s
    | some ta =>
      match coreLoad s ta 2 fresh with
      | .wait s => .wait s
      | .fail f s => .fail f s
      | .ok b s =>
        if 1024 * l < leNat b then .fail { code := 10, addr := ta } s
        else if 1024 < el + (leNat b + l - 1) / l then .ok (acc, used) s
        else packRows fresh l tab first n (used + 1) (el + (leNat b + l - 1) / l)
          (acc ++ [{ idx := first + used, el := el, len := leNat b, need := (leNat b + l - 1) / l }]) s

/-- A ragged word: its check and its packing (R182). That the record of a bad PITCH names the word's address, 4 bytes of it, is the
model's choice (log entry 116). -/
def ragged (s : State) (ty : ETy) (fresh : Bool) (ea : Nat) (b : Reg) : MRes (List RRow × Nat) :=
  let s1 := rdN s (b.toNat + 1)
  if rgPitch s1 % 4 ≠ 0 then .fail { code := 4, addr := ea, len := 4 } s
  else packRows fresh (etyLanes ty) (rd s b) (rgFirst s1) (rgCount s1) 0 0 [] s

/-- FIRST and COUNT moved past the packed rows (R182). That FIRST wraps beyond 65,535 is the model's choice (log entry 115). -/
def advanceTable (s : State) (b : Reg) (used : Nat) : State :=
  let x := rdN s (b.toNat + 1)
  wrN s (b.toNat + 1) (BitVec.ofNat 64 ((rgCount x - used) * 2 ^ 48 + (rgFirst x + used) % 2 ^ 16 * 2 ^ 32 + rgPitch x))

/-- The mask of each non-empty row's first element, of its elements, or of its last element (R182, R204). -/
def rowMask (v : KrlVar) (rows : List RRow) : BitVec 1024 :=
  maskTab (fun e => rows.any (fun r => decide (0 < r.len) && (match v with
    | .start => e == r.el
    | .occ => decide (r.el ≤ e ∧ e < r.el + r.need)
    | .last => e + 1 == r.el + r.need)))

/-- The non-empty rows. -/
def fullRows (rows : List RRow) : List RRow := rows.filter (fun r => decide (0 < r.len))

/-- The address of each non-empty row, or why it has none, and the length of what is read or written there. -/
def rowAddrs (ea pitch : Nat) (rows : List RRow) (len : RRow → Nat) : List (Except FInfo Nat × Nat) :=
  (fullRows rows).map (fun r => (rowAddr ea ((r.idx * pitch : Nat) : Int) (4 * r.need), len r))

/-- A row's values as bytes in a cleared register: lanes beyond its end are 0 (R182). -/
def placeRows (w : Nat) (rows : List (RRow × List Byte)) : List (Nat × W32) :=
  (List.range 1024).map (fun e =>
    match rows.find? (fun p => decide (p.1.el ≤ e ∧ e < p.1.el + p.1.need)) with
    | some p => (e, BitVec.ofNat 32 (leNat (((p.2.take (p.1.len * w / 8)).drop (4 * (e - p.1.el))).take 4)))
    | none => (e, 0))

def execVldr (h : Hd) (ty : ETy) (q : Bool) (d a b e : Reg) (imm : W32) (s : State) : Out :=
  runEff s h fun s => effAddrOr s a imm.toInt 4 fun ea =>
    effRes (ragged s ty q ea b) fun p s =>
      let rows := fullRows p.1
      effRows s .r (rowAddrs ea (rgPitch (rdN s (b.toNat + 1))) p.1 (fun r => 4 * r.need))
        (fun l => coreLoads q ((rows.zip l).map (fun p => (p.2, 4 * p.1.need))) s) fun bs s =>
        let s := upCur s (fun c => kset (vsetList c d.toNat (placeRows (etyBits ty) (rows.zip bs))) e.toNat (rowMask .start p.1))
        .done (advanceTable s b p.2)

def execVstr (h : Hd) (ty : ETy) (a b e : Reg) (imm : W32) (s : State) : Out :=
  runEff s h fun s => effAddrOr s a imm.toInt 4 fun ea =>
    effRes (ragged s ty false ea b) fun p s =>
      let rows := fullRows p.1
      let bytes := regBytes (curCore s) e.toNat
      effRows s .w (rowAddrs ea (rgPitch (rdN s (b.toNat + 1))) p.1 (fun r => r.len * etyBits ty / 8))
        (fun l => coreStores ((rows.zip l).map (fun p => (p.2, (bytes.drop (4 * p.1.el)).take (p.1.len * etyBits ty / 8)))) s) fun _ s =>
          .done (advanceTable s b p.2)

def execKrl (h : Hd) (v : KrlVar) (ty : ETy) (d b : Reg) (s : State) : Out :=
  runEff s h fun s => effRes (ragged s ty false (rd s b).toNat b) fun p s => .done (upCur s (fun c => kset c d.toNat (rowMask v p.1)))

/-! ## Gather (R184) -/

/-- The gather (R184). A misaligned base faults whatever the mask holds, the model's choice (log entry 117). -/
def execVldx (h : Hd) (_ty : ETy) (d a b : Reg) (mk : Option Reg) (imm : W32) (s : State) : Out :=
  runEff s h fun s => effAddrOr s a imm.toInt 4 fun ea =>
    let w := curWho s .core
    if ea / 2 ^ 48 ≠ 0xFFFE then
      .fatal { code := 3, info := ((htAt s w.part w.ctx (ea / 2 ^ 48)).map (fun e => e.kind)).getD 0, addr := ea, len := 4 } s
    else if ea % 4 ≠ 0 then .fatal { code := 4, addr := ea, len := 4 } s
    else
      let c := curCore s
      let on := (List.range 1024).filter (maskOn c mk)
      let at_ (e : Nat) : Nat := ea % 2 ^ 48 + 4 * (vget c b.toNat e).toNat
      let addr (e : Nat) : Except FInfo Nat :=
        if 2 ^ 26 ≤ at_ e then .error { code := 2, info := 2, addr := 0xFFFE * 2 ^ 48 + at_ e, len := 4 } else .ok (0xFFFE * 2 ^ 48 + at_ e)
      effRows s .r (on.map (fun e => (addr e, 4))) (fun l => coreLoads true (l.map (fun a => (a, 4))) s) fun bs s =>
        let got := on.zip bs
        .done (upCur s (fun c => vsetList c d.toNat ((List.range 1024).map (fun e =>
          match got.find? (fun p => p.1 == e) with
          | some p => (e, BitVec.ofNat 32 (leNat p.2))
          | none => (e, vget c d.toNat e)))))

end Sys2Proof.Machine
end

