-- ==== Sys2Proof/Machine/Matrix.lean ====
section
/-! DEFINITION. The matrix array: leases (R215–R220), operand descriptors (R221, R222), `mma` (R68, R69, R223–R226) and the
accumulator instructions (R227–R232). -/

namespace Sys2Proof.Machine

/-! ## Leases -/

/-- The team joins those that wait for its cluster's array, once, with the run length it asks for. -/
def joinWaiters (s : State) (cl tid n : Nat) : State :=
  upCluster s cl (fun x => if x.waiters.any (fun p => p.1 == tid) then x else { x with waiters := x.waiters ++ [(tid, n)] })

/-- The waiting team of highest priority, the first to ask among equals (R216). -/
def bestWaiter (s : State) (l : List (Nat × Nat)) : Option (Nat × Nat) :=
  l.foldl (fun (b : Option (Nat × Nat)) p =>
    match b with
    | none => some p
    | some q => if (teamAt s q.1).prio < (teamAt s p.1).prio then some p else b) none

/-- A lease granted: fresh, with every bank +0 and every flag 0, or with the team's own contents, its run starting afresh
(R216, R217, R220). -/
def grantLease (s : State) (cl tid n : Nat) : State :=
  let l : Lease := match (teamAt s tid).lease with
    | some l => { l with runrem := l.runlen }
    | none => { runlen := n, runrem := n }
  let s := upTeam s tid (fun t => { t with lease := none })
  upCluster s cl (fun x => { x with holder := some tid, lease := l, waiters := x.waiters.filter (fun p => p.1 != tid) })

/-- The grant of a free lease. -/
def grantNext (s : State) (cl : Nat) : State :=
  let x := clusterAt s cl
  match x.holder, bestWaiter s x.waiters with
  | none, some p => grantLease s cl p.1 p.2
  | _, _ => s

def execLeaseGrant (cl : Nat) (s : State) : Out := .next (grantNext s cl)

/-- Whether the run of a grant is over and a waiter of equal or higher priority may follow (R217). -/
def handOverDue (s : State) (cl : Nat) : Bool :=
  let x := clusterAt s cl
  match x.holder with
  | none => false
  | some tid =>
    x.lease.runlen != 0 && x.lease.runrem == 0 && !inRegion s (teamAt s tid) &&
    x.waiters.any (fun p => p.1 != tid && decide ((teamAt s tid).prio ≤ (teamAt s p.1).prio))

/-- A hand-over: the holder's contents go to its context area, and the array to the best waiter (R217). -/
def handOver (s : State) (cl : Nat) : State :=
  match (clusterAt s cl).holder with
  | some tid =>
    if handOverDue s cl then
      let l := (clusterAt s cl).lease
      let s := upTeam s tid (fun t => { t with lease := some { l with hover := min 255 (l.hover + 1) } })
      grantNext (upCluster s cl (fun x => { x with holder := none, lease := {} })) cl
    else s
  | none => s

def execLeaseHandOver (cl : Nat) (s : State) : Out := .next (handOver s cl)

/-- A core becomes a participant. -/
def joinLease (s : State) : State := upCur s (fun c => { c with held := true })

def noArray (s : State) (cl : Nat) : Eff := .fatal { code := 0xB, info := cl } s

/-- `lease.acq` (R215, R216). -/
def execLeaseAcq (h : Hd) (imm : W32) (s : State) : Out :=
  runEff s h fun s =>
    let cl := clusterOf s.cur.core
    let tid := (curCore s).tid
    let x := clusterAt s cl
    if SMap.get false s.deadArrays cl then noArray s cl
    else if x.holder = some tid ∨ (curCore s).held then .done (joinLease s)
    else if x.holder = none ∧ x.waiters = [] then .done (joinLease (grantLease s cl tid (imm.toNat % 2 ^ 16)))
    else .stall 11 0 cl (joinWaiters s cl tid (imm.toNat % 2 ^ 16))

/-- A team of which no core waits for the array leaves the waiters. -/
def leaveWaiters (s : State) (cl tid : Nat) : State :=
  if (teamAt s tid).cores.any (fun n => (coreAt s n).em.wait.kind == 11) then s
  else upCluster s cl (fun x => { x with waiters := x.waiters.filter (fun p => p.1 != tid) })

/-- `lease.rel` (R218). -/
def execLeaseRel (h : Hd) (s : State) : Out :=
  runEff s h (effDo (fun s => leaveWaiters (releaseCore s s.cur.core) (clusterOf s.cur.core) (curCore s).tid))

/-- The lease that a core's team holds, or had when it was handed over. -/
def teamLease (s : State) : Lease :=
  let x := clusterAt s (clusterOf s.cur.core)
  if x.holder = some (curCore s).tid then x.lease else ((curTeam s).lease).getD {}

/-- `lease.st` (R219). -/
def execLeaseSt (h : Hd) (d : Reg) (s : State) : Out :=
  setReg s h d (fun s => leaseWord (curCore s).held (arrayWaiter s (clusterOf s.cur.core) (curCore s).tid) (teamLease s))

/-- An instruction that touches the array: by a participant, on a working array, while its team holds the lease (R216–
R218). -/
def arrayEff (s : State) (k : State → Eff) : Eff :=
  let cl := clusterOf s.cur.core
  if !(curCore s).held then .fatal { code := 0xC } s
  else if SMap.get false s.deadArrays cl then noArray s cl
  else if (clusterAt s cl).holder ≠ some (curCore s).tid then .stall 11 0 cl (joinWaiters s cl (curCore s).tid 0)
  else k s

/-! ## Operand descriptors (R221, R222) -/

def odAt (c : Core) (n : Nat) : Od := SMap.get {} c.od n
def setOd (s : State) (d : Reg) (x : Od) : State := upCur s (fun c => { c with od := SMap.set {} c.od d.toNat x })

/-- The ETYPE code of a descriptor. -/
def odType (x : Od) : Nat := if x.kind = 2 then x.sb.toNat / 2 ^ 60 else x.sb.toNat / 2 ^ 28 % 16

/-- The register step of a kind-1 descriptor. -/
def odStep (ty : Nat) : Nat := if ty = 3 then 2 else 4

def odSetWord (h : Hd) (d a b : Reg) (kind : Nat) (ok : Word → Word → Bool) (s : State) : Out :=
  legalEff s h (fun s => ok (rd s a) (rd s b)) fun s =>
    if ok (rd s a) (rd s b) then .done (setOd s d { kind := kind, sa := rd s a, sb := rd s b }) else .fatal fIllegal s

/-- `od.set.sp`. -/
def execOdSetSp (h : Hd) (d a b : Reg) (s : State) : Out :=
  odSetWord h d a b 0 (fun x y => spOk x y false && [1, 2, 3, 0xB].contains (spType y)) s

/-- `od.set.v`. -/
def execOdSetV (h : Hd) (d a b : Reg) (s : State) : Out :=
  odSetWord h d a b 1 (fun x y =>
    x.toNat / 2 ^ 8 == 0 && y.toNat == y.toNat / 2 ^ 28 % 16 * 2 ^ 28 && [1, 2, 3].contains (y.toNat / 2 ^ 28 % 16) &&
    x.toNat % odStep (y.toNat / 2 ^ 28 % 16) == 0) s

/-- `od.set.m`. -/
def execOdSetM (h : Hd) (d a b : Reg) (s : State) : Out :=
  odSetWord h d a b 2 (fun _ y => [1, 2, 3, 0xB].contains (y.toNat / 2 ^ 60)) s

/-! ## Operand fetch (R82, R95, R102, R105, R222, R226) -/

/-- Bytes of an operand at a device address. -/
def mxaBytes (s : State) (addr n : Nat) : Except FInfo (List Byte) :=
  match xlateRange s (curWho s .mxa) .r false addr n with
  | .error x => .error (xInfo x addr n)
  | .ok keys =>
    match keys.find? (fun k => badByte s k) with
    | some k => .error (e2eInfo (addr + keys.idxOf k))
    | none => .ok (keys.map (rdByte s))

/-- The failing blocks of an operand access, by device address. -/
def mxaFails (s : State) (addr n : Nat) : List Nat :=
  match xlateRange s (curWho s .mxa) .r false addr n with
  | .error _ => []
  | .ok keys => (((List.range keys.length).filter (fun i => badByte s (keys.getD i 0))).map (fun i => (addr + i) / 64)).eraseDups

/-- Two results joined, or the fault that decides (R419). -/
def fetchJoin {α β γ : Type} (x : Except FInfo α) (y : Except FInfo β) (f : α → β → γ) : Except FInfo γ :=
  match x, y with
  | .error f, .error g => .error (pickFault f g)
  | .error f, .ok _ => .error f
  | .ok _, .error g => .error g
  | .ok a, .ok b => .ok (f a b)

/-- The address of row `i` of the chunk or plane numbered `t` in a memory operand (R222). For the scratchpad handle, which has no kind
code, the record's INFO is 0, the model's choice (log entry 118). -/
def rowInMem (x : Od) (t i n : Nat) : Except FInfo Nat :=
  let delta : Nat := 16 * (x.sb.toNat / 2 ^ 32 % 2 ^ 28) * t + x.sb.toNat % 2 ^ 32 * i
  match rowAddr x.sa.toNat (delta : Int) n with
  | .error f => .error f
  | .ok a => if a / 2 ^ 48 = 0xFFFE then .error { code := 3, addr := a, len := n } else .ok a

/-- The `n` bytes of row `i` of the chunk or plane numbered `t` of a scratchpad or memory operand; of several words that fail the
highest row of R419 is named, then the first (log entry 71). -/
def rowBytes (s : State) (x : Od) (t i n : Nat) : Except FInfo (List Byte) :=
  if x.kind = 2 then
    match rowInMem x t i n with
    | .error f => .error f
    | .ok a => mxaBytes s a n
  else
    (List.range (n / 4)).foldr (fun q (r : Except FInfo (List Byte)) =>
      fetchJoin (match spAddr x.sa x.sb t i (4 * q) with
        | .error f => .error f
        | .ok a => mxaBytes s a 4) r (fun b l => b ++ l)) (.ok [])

/-- The 32 lane values of a row of chunk `c`, of type BF16, FP16 or I8. -/
def rowLanes (s : State) (x : Od) (ty : ETy) (c i : Nat) : Except FInfo (List Nat) :=
  let z := etyBits ty / 8
  if x.kind = 1 then
    .ok ((List.range 32).map (fun q => groupVal (curCore s) ty (x.sa.toNat + odStep (odType x) * c) (i * 32 + q)))
  else
    match rowBytes s x c i (32 * z) with
    | .error f => .error f
    | .ok l => .ok ((List.range 32).map (fun q => leNat ((l.drop (z * q)).take z)))

/-- The 32 weights of a row of chunk `c` at `k` planes, their midpoint added where asked (R52, R225). -/
def rowWeights (s : State) (x : Od) (k : Nat) (mid : Bool) (c i : Nat) : Except FInfo (List Int) :=
  (((List.range k).foldr (fun p (r : Except FInfo (List Nat)) =>
      fetchJoin (rowBytes s x (k * c + p) i 4) r (fun b l => leNat b :: l)) (.ok [])) : Except FInfo (List Nat)).map (fun ws =>
    (List.range 32).map (fun q =>
      planeVal ((List.range k).foldl (fun a p => a + ws.getD p 0 / 2 ^ q % 2 * 2 ^ (7 - p)) 0) k mid))

/-- All rows of all chunks, or the fault of the highest row of R419, then the first in chunk and row order (log entry 71). -/
def allRows {α : Type} (n : Nat) (row : Nat → Nat → Except FInfo (List α)) : Except FInfo (List (List (List α))) :=
  (List.range n).foldr (fun c (r : Except FInfo (List (List (List α)))) =>
    fetchJoin ((List.range 256).foldr (fun i (r : Except FInfo (List (List α))) => fetchJoin (row c i) r (fun x l => x :: l)) (.ok []) :
      Except FInfo (List (List α))) r (fun x l => x :: l)) (.ok [])

/-- The memory accesses of an operand of `n` chunks or planes, each of `z` bytes a row. -/
def operandRows (x : Od) (n z : Nat) : List Nat :=
  if x.kind = 2 then (List.range (256 * n)).filterMap (fun t => match rowInMem x (t / 256) (t % 256) z with | .ok a => some a | .error _ => none)
  else []

/-- The pages and lines of a memory operand noted (R88, R364). -/
def noteOperand (s : State) (x : Od) (n z : Nat) : State :=
  (operandRows x n z).foldl (fun s a =>
    let s := notePages s (curWho s .mxa) false a z
    match xlateRange s (curWho s .mxa) .r false a z with
    | .ok keys => fillReads s keys
    | .error _ => s) s

/-- The chunks or planes of an operand at a type and plane count, and the bytes of a row of one. -/
def operandShape (ty : ETy) (k n : Nat) (weights : Bool) : Nat × Nat :=
  if ty = .nbi then (if weights then (k * n, 4) else (n, 32)) else (n, 4 * etyBits ty)

/-! ## Multiplication (R68, R69, R224, R225) -/

/-- The exact sum of a chunk's products, rounded once (R68), with whether it overflowed. -/
def chunkSum (f : Fmt) (a b : List Nat) : FpVal × Bool :=
  let ps := (a.zip b).map (fun p => mulExact (fpDecode f p.1) (fpDecode f p.2))
  if ps.any isNan then (.nan false, false)
  else
    let inf (n : Bool) : Bool := ps.any (fun p => p == .inf n)
    if inf false && inf true then (.nan false, false)
    else if inf false then (.inf false, false)
    else if inf true then (.inf true, false)
    else
      let base := ps.foldl (fun m p => match p with | .fin _ _ e => min m e | _ => m) (0 : Int)
      let sum := ps.foldl (fun a p => match p with | .fin n m e => a + finInt n m e base | _ => a) (0 : Int)
      if sum = 0 then (.fin (ps.all signOf) 0 0, false)
      else
        let r := roundFin fmt32 .rne (decide (sum < 0)) sum.natAbs base false
        (fpDecode fmt32 r.bits, r.flags / flOverflow % 2 == 1)

/-- An element of the working bank with its INF, NAN and SAT events. -/
structure AccEl where
  val : W32
  inf : Bool := false
  nan : Bool := false
  sat : Bool := false
  deriving DecidableEq, Repr, Inhabited

/-- One chunk added to an FP32 element (R224). -/
def fpStep (f : Fmt) (x : AccEl) (a b : List Nat) : AccEl :=
  let (cs, o) := chunkSum f a b
  let r := addVal fmt32 .rne (fpDecode fmt32 x.val.toNat) cs
  { x with val := BitVec.ofNat 32 r.bits, inf := x.inf || o || r.flags / flOverflow % 2 == 1,
           nan := x.nan || isNan (fpDecode fmt32 r.bits) }

/-- One chunk added to an I32 element, clamped (R225). -/
def intStep (x : AccEl) (w : List Int) (b : List Nat) : AccEl :=
  let sum : Int := (w.zip b).foldl (fun a p => a + p.1 * codeVal p.2) 0
  let v := x.val.toInt + sum
  let c := max (-(2 ^ 31 : Int)) (min (2 ^ 31 - 1) v)
  { x with val := BitVec.ofInt 32 c, sat := x.sat || decide (c ≠ v) }

/-- A bank with every element moved through the chunks in ascending order. -/
def mulBank (b : Bank) (mode n : Nat) (step : Nat → Nat → Nat → AccEl → AccEl) : Bank :=
  let els := (List.range 65536).map (fun k =>
    (k, (List.range n).foldl (fun x c => step c (k / 256) (k % 256) x) { val := SMap.get 0 b.el k }))
  { el := (els.filter (fun p => p.2.val != 0)).map (fun p => (p.1, p.2.val)), mode := mode,
    inf := b.inf || els.any (fun p => p.2.inf), nan := b.nan || els.any (fun p => p.2.nan), sat := b.sat || els.any (fun p => p.2.sat) }

def tileAt (s : State) (cl n : Nat) : ATile := SMap.get {} (clusterAt s cl).lease.tiles n
def setTile (s : State) (cl n : Nat) (t : ATile) : State :=
  upCluster s cl (fun x => { x with lease := { x.lease with tiles := SMap.set {} x.lease.tiles n t } })

/-- The operand checks of R223. -/
def mmaOk (c : Core) (ty : ETy) (a b : Reg) (n : Nat) : Bool :=
  let x := odAt c a.toNat
  let y := odAt c b.toNat
  let fits (x : Od) : Bool := x.kind != 1 || decide (x.sa.toNat + odStep (odType x) * n ≤ 256)
  (if ty = .nbi then odType x == 0xB && odType y == 3 else odType x == etyCode ty && odType y == etyCode ty) && fits x && fits y

/-- A fault of an operand fetch, with the failing blocks of the memory operands counted (R95, R310). -/
def fetchFault (s : State) (l : List (Od × Nat × Nat)) (f : FInfo) : Eff :=
  .fatal f (fetchReport s (curWho s .mxa) 3 f
    (max 1 ((l.flatMap (fun p => (operandRows p.1 p.2.1 p.2.2).flatMap (fun a => mxaFails s a p.2.2))).eraseDups).length))

def laneRow {α : Type} (l : List (List (List α))) (c i : Nat) : List α := (l.getD c []).getD i []

/-- The effect of an `mma` that reaches its tile: the run counts it (R217), the operands are fetched after the core's own
stores (R105), the bank takes the sums. -/
def mmaTile (s : State) (ty : ETy) (mid : Bool) (k : Nat) (d a b : Reg) (n : Nat) : Eff :=
  let cl := clusterOf s.cur.core
  let s := performAll s s.cur.core
  let x := odAt (curCore s) a.toNat
  let y := odAt (curCore s) b.toNat
  let t := tileAt s cl d.toNat
  let mode := if ty = .nbi then 2 else 1
  let wx := operandShape ty k n true
  let wy := operandShape ty k n false
  let count (s : State) : State := upCluster s cl (fun c => { c with lease := { c.lease with runrem := c.lease.runrem - 1 } })
  let fin (s : State) (bank : Bank) : Eff :=
    .done (bumpClk (count (setTile (noteOperand (noteOperand s x wx.1 wx.2) y wy.1 wy.2) cl d.toNat { t with work := bank })))
  let fault (f : FInfo) : Eff := fetchFault s [(x, wx), (y, wy)] f
  if t.work.mode ≠ 0 ∧ t.work.mode ≠ mode then .fatal { code := 0xD, info := d.toNat } s
  else if ty = .nbi then
    match allRows n (rowWeights s x k mid), allRows n (rowLanes s y .i8) with
    | .error f, .error g => fault (pickFault f g)
    | .error f, _ => fault f
    | _, .error f => fault f
    | .ok w, .ok v => fin s (mulBank t.work mode n (fun c i j e => intStep e (laneRow w c i) (laneRow v c j)))
  else
    match allRows n (rowLanes s x ty), allRows n (rowLanes s y ty) with
    | .error f, .error g => fault (pickFault f g)
    | .error f, _ => fault f
    | _, .error f => fault f
    | .ok u, .ok v => fin s (mulBank t.work mode n (fun c i j e => fpStep (fmtOf ty) e (laneRow u c i) (laneRow v c j)))

/-- `mma` (R223): a participant's operands are checked at issue, before the word can wait for the lease. -/
def execMma (h : Hd) (ty : ETy) (q : Bool) (kk : BitVec 4) (d a b : Reg) (imm : W32) (s : State) : Out :=
  let n := imm.toNat % 256 + 1
  runEff s h fun s =>
    if (curCore s).held && !SMap.get false s.deadArrays (clusterOf s.cur.core) && !mmaOk (curCore s) ty a b n then
      .fatal { code := 10 } s
    else arrayEff s fun s => mmaTile s ty q kk.toNat d a b n

/-! ## Accumulator instructions (R228–R232) -/

/-- `acc.zero`. -/
def execAccZero (h : Hd) (d : Reg) (s : State) : Out :=
  runEff s h fun s => arrayEff s fun s =>
    let cl := clusterOf s.cur.core
    .done (setTile s cl d.toNat { tileAt s cl d.toNat with work := {} })

/-- `acc.swap`. -/
def execAccSwap (h : Hd) (d : Reg) (s : State) : Out :=
  runEff s h fun s => arrayEff s fun s =>
    let cl := clusterOf s.cur.core
    let t := tileAt s cl d.toNat
    .done (setTile s cl d.toNat { work := t.vis, vis := t.work })

/-- `acc.rd` (R231). -/
def execAccRd (h : Hd) (d a : Reg) (imm : W32) (s : State) : Out :=
  let row0 := imm.toNat % 256
  let q := imm.toNat / 256 % 4
  let g := groupSize imm
  runEff s h fun s => arrayEff s fun s =>
    let b := (tileAt s (clusterOf s.cur.core) a.toNat).vis
    .done ((List.range g).foldl (fun s m =>
      writeAll s (d.toNat + m) (fun e => SMap.get 0 b.el (256 * (row0 + 16 * m + e / 64) + 64 * q + e % 64))) s)

/-- `acc.flag`. -/
def execAccFlag (h : Hd) (d a : Reg) (s : State) : Out :=
  runEff s h fun s => arrayEff s fun s =>
    .done (wr s d (BitVec.ofNat 64 (bankFlags (tileAt s (clusterOf s.cur.core) a.toNat).vis)))

end Sys2Proof.Machine
end

