-- ==== Sys2Proof/Machine/Ports.lean ====
section
/-! DEFINITION. Falef ports: received flits, ports that go down, link training and the tick master (R17, R397–R400), and
the clock (R17, R410). -/

namespace Sys2Proof.Machine

def portAt (s : State) (p : Nat) : Port := SMap.get {} s.ports p
def upPort (s : State) (p : Nat) (f : Port → Port) : State := { s with ports := SMap.set {} s.ports p (f (portAt s p)) }

/-! ## The tick (R17) -/

/-- The tick moved to a value: what falls due with it, budgets (R165) and deadlines (R353), takes place. -/
def setTick (s : State) (t : Nat) : State :=
  let s := { s with tick := t % 2 ^ 64 }
  let s := (s.cores.map (fun p => p.1)).foldl nopreFatal s
  (s.queues.map (fun p => p.1)).foldl deadlineExpire s

def execTickAdvance (s : State) : Out := .next (setTick { s with aged := s.aged + 1 } (s.tick + 1))

/-- The step that a cluster's clock takes next toward one the governor wants: it lowers a clock one step at a time (R320, R411). -/
def nextClock (now want : Nat) : Nat := if now < want then now + 1 else want

/-- A cluster's clock step (R410, R411): a program sees it only in time. -/
def execGovernorStep (cl step : Nat) (s : State) : Out := .next (upCluster s cl (fun x => { x with step := nextClock x.step step }))

/-! ## Ports that go down (R398) -/

/-- A port goes down until the next Stage M: what waits on it ends with LINKDOWN or the fatal error, and a shootdown is not
answered (R365). -/
def dropPort (s : State) (p : Nat) : State :=
  let s := upPort s p (fun x => { x with up := false, dead := true, resends := 0, rbuf := [] })
  (s.reqs.filter (fun r => r.port == some p)).foldl (fun s r => failReq s r 2) s

def execPortDown (port : Nat) (s : State) : Out := .next (dropPort s port)

/-- A bad flit is discarded and resent; where that comes back bad after 64 resends in a row, the port goes down. -/
def badFlit (s : State) (p : Nat) : State :=
  if (portAt s p).resends < 64 then upPort s p (fun x => { x with resends := x.resends + 1 }) else dropPort s p

/-- Whether LEN and the payload fit a flit (R397). -/
def flitFits (f : Flit) : Bool := decide (f.len ≤ 192) && decide (f.data.length ≤ 192)

/-- The 64-byte blocks of a flit's payload whose check fails, and whether one does (R93, R397). -/
def flitFails (f : Flit) : List Nat :=
  ((List.range f.checks.length).filter (fun i => f.checks.getD i 0 != (dataChecks f.addr f.data).getD i 0)).map (fun i => f.addr / 64 + i)
def flitBad (f : Flit) : Bool := !(flitFails f).isEmpty

/-- A flit received on a port: a bad one is discarded, one for or from another module is not forwarded, and before Stage M there is
no peer traffic (R397, R398, R400, R403). -/
def onFlit (s : State) (p : Nat) (f : Flit) (go : State → State) : State :=
  if !(portAt s p).up || decide (s.stage < 2) then s
  else if !f.good || !flitFits f then badFlit s p
  else
    let s := upPort s p (fun x => { x with resends := 0 })
    if f.dst = s.modNum ∧ f.src = (portAt s p).peer then go s else s

/-- The checks of a payload, those of some blocks not matching it. -/
def carriedChecks (addr : Nat) (l : List Byte) (bad : Nat → Bool) : List Nat :=
  let cs := dataChecks addr l
  (List.range cs.length).map (fun i => if bad (addr / 64 + i) then (cs.getD i 0 + 1) % 2 ^ 16 else cs.getD i 0)

/-- The flit that answers one received; the checks of the blocks it carries fail where those in memory do (R93). -/
def answerFlit (s : State) (f : Flit) (data : List Byte) (bad : Nat → Bool) : Flit :=
  { src := s.modNum, dst := f.src, tag := f.tag, len := data.length, addr := f.addr, data := data,
    checks := carriedChecks f.addr data bad }

/-- A flit that answers one received. -/
def sendFlit (s : State) (p ty : Nat) (f : Flit) (data : List Byte) (bad : Nat → Bool) : State :=
  upPort s p (fun x => { x with out := x.out ++ [(ty, answerFlit s f data bad)] })

/-! ## Requests of other modules (R400) -/

/-- Whether a run of physical addresses lies in this module's LPDDR-6 or its apertures. -/
def ownRange (s : State) (pa n : Nat) : Bool :=
  (List.range n).all (fun i => let k := pa + i; dramOwned s 4 k || inAperture s 4 k)

/-- The shadowed `dram` handle of this module that maps a page as one of its backings, and which of its pages that is (R109). -/
def linkPlace (s : State) (page : Nat) : Option (HEntry × Nat) :=
  s.ht.findSome? (fun p =>
    match p.2 with
    | some e =>
      if e.shadow && e.kind == 1 then
        ((List.range ((e.ext + 2 ^ 21 - 1) / 2 ^ 21)).find? (fun i =>
          tablePage s e.base i == some page || tablePage s e.sbase i == some page)).map (fun i => (e, i))
      else none
    | none => none)

/-- Where an access of a linked module lands: in a shadowed handle's front or shadow, whichever backing the address names (R109,
R261; log entry 89). -/
def linkAddr (s : State) (shadow : Bool) (pa : Nat) : Nat :=
  match linkPlace s (pa / 2 ^ 21) with
  | some (e, i) => (match tablePage s (backing e shadow) i with | some g => g * 2 ^ 21 + pa % 2 ^ 21 | none => pa)
  | none => pa

/-- Where a linked module's read of an address finds it: the front, or either backing after a publish at a narrower scope than
system (R110). -/
def linkRead (s : State) (pa : Nat) : Nat :=
  match linkPlace s (pa / 2 ^ 21) with
  | some (e, _) => linkAddr s (e.narrow && Config.freeBit s.free) pa
  | none => pa

/-- The report of blocks whose check fails for what a port writes. -/
def landReport (s : State) (bad : Option Nat) (pa blocks : Nat) : State :=
  holdReport ((bad.map (decodeFail s)).getD s)
    { cls := 2, code := 1, info := 5, addr := (bad.getD pa) / 64 * 64, len := 64 * max 1 blocks, tick := s.tick }

/-- What has become of a request of another module: 0 where it was carried out, 1 where a check of what it brought fails, 2 where the
destination of a link command is not shadowed, 5 where a block that it would write in part fails its check (R94, R95, R109); whether a
reduction has produced ±∞ or NaN, the offset of the first failing byte, and how many blocks fail. -/
structure Landed where
  code : Nat := 0
  exc : Bool := false
  off : Nat := 0
  blocks : Nat := 0
  deriving DecidableEq, Repr

/-- A write of another module performed here: an engine's goes to the shadow of a shadowed handle (R109). A failed check is reported,
and nothing is written then. -/
def landWrite (s : State) (eng link : Bool) (pa : Nat) (l : List Byte) (fails : List Nat) : State × Landed :=
  let keys := (List.range l.length).map (fun i => linkAddr s (eng || link) (pa + i))
  if !ownRange s pa l.length then (s, { code := 1, blocks := 1 })
  else if link && (linkPlace s (pa / 2 ^ 21)).isNone then (s, { code := 2 })
  else match fails, badWrite s keys with
    | b :: _, _ => (landReport s none (max pa (64 * b)) fails.length, { code := 1, off := 64 * b - pa, blocks := fails.length })
    | [], some k => (landReport s (some k) pa (badWriteBlocks s pa keys), { code := 5, off := keys.idxOf k, blocks := badWriteBlocks s pa keys })
    | [], none => (writeMem s (keys.zip l), {})

/-- A completion: its payload is empty, or says what has become of the request (log entry 31). -/
def landed (s : State) (p : Nat) (f : Flit) (r : Landed) : State :=
  sendFlit s p 7 f (if r.code = 0 ∧ !r.exc then [] else
    [BitVec.ofNat 8 r.code, if r.exc then 1 else 0, BitVec.ofNat 8 r.off, BitVec.ofNat 8 r.blocks]) (fun _ => false)

def flitWrite (p : Nat) (f : Flit) (s : State) : State :=
  onFlit s p f (fun s => let r := landWrite s f.eng f.link f.addr f.data (flitFails f); landed r.1 p f r.2)

def execFlitWrite (port : Nat) (f : Flit) (s : State) : Out := .next (flitWrite port f s)

/-- A read request: the bytes current at the coherence point, with their checks as they are (R93). -/
def flitReadRequest (p : Nat) (f : Flit) (s : State) : State :=
  onFlit s p f (fun s =>
    if ownRange s f.addr f.len then
      let keys := (List.range f.len).map (fun i => linkRead s (f.addr + i))
      let bad := (List.range f.len).filter (fun i => badByte s (keys.getD i 0))
      let s' := (bad.head?.map (fun i => decodeFail s (keys.getD i 0))).getD s
      sendFlit (fillReads { s' with free := s'.free + 1 } keys) p 3 f (keys.map (rdByte s)) (fun b => bad.any (fun i => (f.addr + i) / 64 == b))
    else sendFlit s p 3 f (List.replicate f.len 0) (fun _ => true))

def execFlitReadRequest (port : Nat) (f : Flit) (s : State) : Out := .next (flitReadRequest port f s)

/-- The atomic that a payload names: variant, type, operands (log entry 31). -/
def atOpOf (n : Nat) : AtOp :=
  ([AtOp.add, .and, .or, .xor, .min, .max, .xchg, .cas, .incb, .addb] : List AtOp).getD n .cas128

def etyOfCode (n : Nat) : ETy :=
  (([ETy.fp32, .bf16, .fp16, .i8, .i16, .i32, .i64, .n8, .n16, .n32, .n64, .nbi] : List ETy).find? (fun t => etyCode t == n)).getD .n64

/-- An atomic of another module, which performs here (R107, R108). -/
def flitAtomic (p : Nat) (f : Flit) (s : State) : State :=
  onFlit s p f (fun s =>
    let b (i : Nat) : Nat := (f.data.getD i 0).toNat
    let n := (f.data.length - 2) / 2
    let keys := (List.range n).map (fun i => linkAddr s false (f.addr + i))
    if !ownRange s f.addr n || keys.any (fun k => badByte s k || decide (apBase ≤ k)) then sendFlit s p 5 f (List.replicate n 0) (fun _ => true)
    else
      let old := leNat (keys.map (rdByte s))
      let v := leNat ((f.data.drop 2).take n)
      let v2 := leNat ((f.data.drop (2 + n)).take n)
      let s' := writeMem (fillReads s keys) (keys.zip (leBytes n (atNew (atOpOf (b 0)) (etyOfCode (b 1)) (8 * n) old v v2)))
      sendFlit s' p 5 f (leBytes n old) (fun _ => false))

def execFlitAtomic (port : Nat) (f : Flit) (s : State) : Out := .next (flitAtomic port f s)

/-! ## Reductions (R261) -/

/-- Runs read back from a payload, and the rest of it. -/
def unpackRuns (l : List Byte) : List Nat × List Byte :=
  let n := leNat (l.take 2)
  let run (i : Nat) : List Nat :=
    let r := (l.drop (2 + 12 * i)).take 12
    (List.range (leNat (r.drop 8))).map (fun j => leNat (r.take 8) + j)
  ((List.range n).flatMap run, l.drop (2 + 12 * n))

/-- The exact values of `n` elements of a format. -/
def fmtVals (f n : Nat) (l scale : List Byte) : List FpVal :=
  let num (o k : Nat) : Nat := leNat ((l.drop o).take k)
  if f = 0 then (List.range n).map (fun j => fpDecode fmt32 (num (4 * j) 4))
  else if f = 1 then (List.range n).map (fun j => fpDecode fmtBf (num (2 * j) 2))
  else
    let sc := fpDecode fmtBf (leNat scale)
    (List.range n).map (fun j =>
      let code := (List.range 8).foldl (fun a i => a + (l.getD (16 * i + j / 8) 0).toNat / 2 ^ (j % 8) % 2 * 2 ^ (7 - i)) 0
      mulExact (.fin (decide (codeVal code < 0)) (codeVal code).natAbs 0) sc)

/-- z = round(x + y, FP32, RNE). -/
def redSum (x y : FpVal) : Nat := (addVal fmt32 .rne x y).bits

/-- A group of sums in the destination's format: its bytes, and its block scale. -/
def redOut (f : Nat) (zs : List Nat) : List Byte × List Byte :=
  if f = 0 then (zs.flatMap (leBytes 4), [])
  else if f = 1 then
    (zs.flatMap (fun z => leBytes 2 (match convert .fp32 .bf16 .rne .sat z with | .ok r => r.bits | .trap => 0)), [])
  else
    let vs := zs.map (fpDecode fmt32)
    let sc := blockScale fmtBf vs
    let codes := vs.map (fun z => encodeCode z sc)
    let byte (i j : Nat) : Byte := BitVec.ofNat 8 ((List.range 8).foldl (fun a t => a + planeBit (codes.getD (8 * j + t) 0) i * 2 ^ t) 0)
    ((List.range 8).flatMap (fun i => (List.range 16).map (byte i)), leBytes 2 sc)

/-- Whether a group written in a format holds ±∞ or NaN (R239); NBI codes hold none, there the sums count. -/
def redExc (f : Nat) (zs : List Nat) : Bool :=
  if f = 1 then zs.any (fun z => match convert .fp32 .bf16 .rne .sat z with | .ok r => isExc fmtBf r.bits | .trap => false)
  else zs.any (isExc fmt32)

/-- The receiving port adds and converts a group, and writes it to the shadow (R109, R239, R261). -/
def reduce (s : State) (data : List Byte) : State × Landed :=
  let b (i : Nat) : Nat := (data.getD i 0).toNat
  let n := b 3
  let d := unpackRuns (data.drop 4)
  let ds := unpackRuns d.2
  let a := unpackRuns ds.2
  let as := unpackRuns a.2
  let outs := d.1 ++ ds.1
  let keys := outs.map (linkAddr s true)
  let reads := (a.1 ++ as.1).map (linkAddr s false)
  let own (l : List Nat) : Bool := l.all (fun k => ownRange s k 1)
  if !own outs || !own (a.1 ++ as.1) then (s, { code := 1, blocks := 1 })
  else if outs.any (fun k => (linkPlace s (k / 2 ^ 21)).isNone) then (s, { code := 2 })
  else
    let bad := match badWrite s keys with | some k => some k | none => reads.find? (badByte s)
    if bad.isSome then
      let blocks := if (badWrite s keys).isSome then badWriteBlocks s 0 keys else ((reads.filter (badByte s)).map (fun k => k / 64)).eraseDups.length
      (landReport s bad (keys.headD 0) blocks, { code := if (badWrite s keys).isSome then 5 else 1, blocks := blocks })
    else
      let sz := fmtBytes (b 0) n
      let xs := fmtVals (b 0) n (as.2.take sz) (as.2.drop sz)
      let ys := if a.1.isEmpty then List.replicate n (.fin false 0 0)
        else fmtVals (b 1) n ((reads.take a.1.length).map (rdByte s)) ((reads.drop a.1.length).map (rdByte s))
      let zs := (List.range n).map (fun j => redSum (xs.getD j (.fin false 0 0)) (ys.getD j (.fin false 0 0)))
      let o := redOut (b 2) zs
      (writeMem (fillReads s reads) (keys.zip (o.1.take d.1.length ++ o.2)), { exc := redExc (b 2) zs })

/-- Reduce data: a payload longer than a flit's comes in several, of one TAG, its length in its first four bytes; the last of them
has the reduction carried out (log entry 31). -/
def flitReduceData (p : Nat) (f : Flit) (s : State) : State :=
  onFlit s p f (fun s =>
    if flitBad f then landed (upPort s p (fun x => { x with rbuf := SMap.set [] x.rbuf f.tag [] })) p f { code := 1, blocks := (flitFails f).length }
    else
      let all := SMap.get [] (portAt s p).rbuf f.tag ++ f.data
      if all.length < leNat (all.take 4) then upPort s p (fun x => { x with rbuf := SMap.set [] x.rbuf f.tag all })
      else
        let r := reduce (upPort s p (fun x => { x with rbuf := SMap.set [] x.rbuf f.tag [] })) (all.drop 4)
        landed r.1 p f r.2)

def execFlitReduceData (port : Nat) (f : Flit) (s : State) : Out := .next (flitReduceData port f s)

/-! ## Answers of other modules -/

/-- Read data: the bytes of a request come back in order; those of a block whose check fails are lost (R95). -/
def flitReadData (p : Nat) (f : Flit) (s : State) : State :=
  onFlit s p f (fun s =>
    match reqByTag s p [.read] f.tag with
    | none => s
    | some r =>
      if f.addr ≠ r.addr + r.back.length then s
      else
        let r' := { r with back := (r.back ++ f.data).take r.len, fails := r.fails ++ flitFails f }
        if r'.back.length < r.len then { s with reqs := s.reqs.map (fun x => if x.id = r.id then r' else x) } else landRead s r' r'.back)

def execFlitReadData (port : Nat) (f : Flit) (s : State) : Out := .next (flitReadData port f s)

def flitAtomicResult (p : Nat) (f : Flit) (s : State) : State :=
  onFlit s p f (fun s =>
    match reqByTag s p [.atomic] f.tag with
    | none => s
    | some r => if flitBad f then failReq s r 1 else finishReq s r (fun x => { x with ans := some (.success f.data) }))

def execFlitAtomicResult (port : Nat) (f : Flit) (s : State) : Out := .next (flitAtomicResult port f s)

/-- A command whose reduction has produced ±∞ or NaN gets EXC (R239). -/
def noteExc (s : State) (r : Req) (exc : Bool) : State :=
  match r.who with
  | .cmd core q id => if exc then upCmd s core q id (fun c => { c with flags := c.flags ||| 4 }) else s
  | _ => s

/-- Whether an answer to a shootdown request comes after its 10 ms: it is not taken then (R361). -/
def shootLate (s : State) (r : Req) : Bool := r.who == .shoot && (match s.shoot with | some x => shootOver s x | none => false)

/-- A completion: a write, a reduction or a shootdown request has been carried out, or has not. -/
def flitCompletion (p : Nat) (f : Flit) (s : State) : State :=
  onFlit s p f (fun s =>
    match reqByTag s p [.write, .reduce, .control] f.tag with
    | none => s
    | some r =>
      let off := (f.data.getD 2 0).toNat
      let blocks := (f.data.getD 3 0).toNat
      match (f.data.headD 0).toNat with
      | 0 => (if shootLate s r then failReq s r 2 else finishReq (noteExc s r (f.data.getD 1 0 != 0)) r id)
      | 2 => failReq s r 4
      | 5 => failReqAt s r 5 off blocks
      | _ => failReqAt s r 1 off blocks)

def execFlitCompletion (port : Nat) (f : Flit) (s : State) : Out := .next (flitCompletion port f s)

/-! ## Tick and control flits (R365, R399) -/

/-- A tick flit of the master: before Stage A the counter is set, later corrected but never backward. -/
def flitTick (p : Nat) (f : Flit) (s : State) : State :=
  onFlit s p f (fun s =>
    if f.src = 0 ∧ s.modNum ≠ 0 then
      if s.stage < 3 then { s with tick := f.addr % 2 ^ 64, tickSet := true } else if s.tick < f.addr % 2 ^ 64 then setTick s f.addr else s
    else s)

def execFlitTick (port : Nat) (f : Flit) (s : State) : Out := .next (flitTick port f s)

/-- The shootdown requests of linked modules whose accesses have all performed are answered, and Invalidate Requests of the host
complete (R365, R367). -/
def sendAnswers (s : State) : State :=
  let ready (l : List Nat) : Bool := !stillOut s l
  let s' := { s with ctls := s.ctls.filter (fun x => !ready x.2.2), inval := s.inval.filter (fun x => !ready x) }
  (s.ctls.filter (fun x => ready x.2.2)).foldl (fun s x => landed s x.1 x.2.1 {}) s'

/-- A shootdown request of another module: the named entries go, the stores translated through them perform, and it is
answered once every access already translated has (R365). -/
def flitControl (p : Nat) (f : Flit) (s : State) : State :=
  onFlit s p f (fun s =>
    let pages := (List.range (f.data.length / 8)).map (fun i => leNat ((f.data.drop (8 * i)).take 8))
    let s := dropTlb s (fun at_ _ => pages.contains at_)
    let s := (s.cores.map (fun x => x.1)).foldl performAll s
    sendAnswers { s with ctls := s.ctls ++ [(p, f, inFlight s)] })

def execFlitControl (port : Nat) (f : Flit) (s : State) : Out := .next (flitControl port f s)

/-- The tick master sends its tick on each port every 64 ticks. -/
def tickFlits (s : State) : State :=
  if s.modNum = 0 ∧ s.tick % 64 = 0 then
    (List.range 3).foldl (fun s p =>
      if (portAt s p).up then
        upPort s p (fun x => { x with out := x.out ++ [(8, { src := 0, dst := x.peer, addr := s.tick })] })
      else s) s
  else s

def execTickFlitSend (s : State) : Out := .next (tickFlits s)

/-! ## Training (R397, R399) -/

/-- A link to another module trains: it carries traffic unless the port has gone down since Stage M, the two modules are joined already,
which leaves it down, or after Stage A the counters are too far apart, which leaves it down until the restart. A CVL-8T512-S has no lanes (R2). -/
def trainLink (s : State) (p peer : Nat) (skewOk : Bool) : State :=
  let dup := (List.range 3).any (fun q => q != p && (portAt s q).up && (portAt s q).peer == peer)
  if s.stage < 2 ∨ s.order4T = 1 ∨ s.modCount ≤ peer ∨ peer = s.modNum ∨ (portAt s p).dead ∨ (portAt s p).up then s
  else if dup then upPort s p (fun x => { x with dead := true })
  else if s.stage = 3 ∧ !skewOk then upPort s p (fun x => { x with dead := true })
  else upPort s p (fun x => { x with up := true, peer := peer, resends := 0 })

def execLinkTrain (port peer : Nat) (skewOk : Bool) (s : State) : Out := .next (trainLink s port peer skewOk)

end Sys2Proof.Machine
end

