-- ==== Sys2Proof/Machine/Session.lean ====
section
/-! DEFINITION. Generation sessions (R285–R292): the loop on the Foreman pair that drives the sequence units and the
forward chain. -/

namespace Sys2Proof.Machine

/-! ## What the loop reads and writes -/

/-- The loop's commands run on behalf of the session's context, with cluster 0's scratchpad. -/
def loopWho (p : Nat) (x : Sess) : Who := { core := 0, part := p, ctx := x.ctx, agent := .seq }

/-- A field of the session descriptor (R285). -/
def sdN (x : Sess) (off n : Nat) : Nat := leNat ((x.desc.drop off).take n)
def sdD (x : Sess) : Nat := sdN x 31 1
def sdNseq (x : Sess) : Nat := sdN x 40 2
def sdMax (x : Sess) : Nat := sdN x 44 4

/-- Bytes of the session's context that do not run past their handle. -/
def loopGet (s : State) (p : Nat) (x : Sess) (addr n : Nat) : Option (List Byte) :=
  if 2 ^ 48 < addr % 2 ^ 48 + n then none else devRead s (devWho p x.ctx) addr n
def loopPut (s : State) (p : Nat) (x : Sess) (addr : Nat) (l : List Byte) : State :=
  if 2 ^ 48 < addr % 2 ^ 48 + l.length then s else devWrite s (devWho p x.ctx) addr l
def loopNat (s : State) (p : Nat) (x : Sess) (addr n : Nat) : Nat := leNat ((loopGet s p x addr n).getD [])

/-- A field of the descriptor in memory, as software or the loop writes it. -/
def sessField (x : Sess) (off : Nat) : Nat := x.addr.toNat + off
def setSessState (s : State) (p : Nat) (x : Sess) (st : Nat) : State := loopPut s p x (sessField x 100) (leBytes 4 st)
/-- The sequence table's entry of sequence `j` (R286). -/
def entryAddr (x : Sess) (j off : Nat) : Nat := sdN x 32 8 + 128 * j + off
def saveAddr (s : State) (p : Nat) (x : Sess) (j : Nat) : Nat := loopNat s p x (entryAddr x j 96) 8

def setSess (s : State) (p : Nat) (x : Option Sess) : State := upPart s p (fun q => { q with sess := x })

/-! ## Sequences -/

abbrev SX := State × Sess

def seqAt (x : Sess) (j : Nat) : SeqSt := x.seqs.getD j {}
def upSeq (x : Sess) (j : Nat) (f : SeqSt → SeqSt) : Sess := { x with seqs := x.seqs.set j (f (seqAt x j)) }
/-- The sequences that take part. -/
def active (x : Sess) : List Nat := (List.range x.seqs.length).filter (fun j => (seqAt x j).st == 0)

def aSel (q : SeqSt) : Word := BitVec.ofNat 64 q.asel
def rSel (q : SeqSt) (b : Nat) : Word := BitVec.ofNat 64 (q.rsel + b * 2 ^ 16)
def hasRdl (q : SeqSt) : Bool := q.rsel != 0xFFFF

/-- The output entries of a round's tokens (R288). -/
def outEntries (x : Sess) (q : SeqSt) : List (W32 × W32 × Nat × Nat) :=
  (List.range q.toks.length).map (fun k =>
    (q.toks.getD k 0, q.sid, q.pos + k,
      (if q.stop ∧ k + 1 = q.toks.length then 1 else 0) + if q.ntok + k + 1 = sdMax x then 2 else 0))

/-- The tokens of a round counted (R289). -/
def countToks (q : SeqSt) : SeqSt :=
  { q with pos := q.pos + q.toks.length, ntok := q.ntok + q.toks.length, last := (q.toks.getLast?).getD q.last, toks := [], drafts := [] }

/-- A command whose selector or operands are refused has no effect (R109, R263, R267). -/
def onSel (w : Who) (br : Bool) (x : Word) (k : State → SeqRes) (s : State) (bad : List (Bool × Nat) := []) : SeqRes :=
  match worst (selBad s w br x ++ bad) with
  | some st => seqSt s st
  | none => k s

/-- A sequence in error (R292): its committed tokens stand, its branches are dropped, an ERROR entry follows. One in error already
stays so. -/
def failSeq (p : Nat) (v : SX) (j : Nat) : SX :=
  let q := seqAt v.2 j
  let drop (s : State) (b : Nat) : State :=
    (onSel (loopWho p v.2) true (rSel q b) (fun s => rdlDrop s (selUnit (rSel q b)) (selCtx (rSel q b)) b) s).s
  let s := if hasRdl q then (List.range 8).foldl drop v.1 else v.1
  if q.st = 3 then (s, v.2) else
  let out := outEntries v.2 q ++ [(0, q.sid, q.pos + q.toks.length, 4)]
  (s, { upSeq v.2 j (fun q => { countToks q with st := 3 }) with outq := v.2.outq ++ out })

/-- A command of the loop for a sequence: a status other than OK puts the sequence in error. -/
def seqCmd (p : Nat) (v : SX) (j : Nat) (k : State → SeqRes) : SX × Bool :=
  let r := k v.1
  let s := if r.res.status = stE2e then seqReport r.s 0 r.addr else r.s
  if r.res.status = 0 then ((s, v.2), true) else (failSeq p (s, v.2) j, false)

/-- Commands in order, up to the first that fails. -/
def seqCmds (p : Nat) (v : SX) (j : Nat) (l : List (State → SeqRes)) : SX × Bool :=
  l.foldl (fun (r : SX × Bool) k => if r.2 then seqCmd p r.1 j k else r) (v, true)

/-- The Riddle commands of a sequence, skipped where it has no Riddle. -/
def withRdl (q : SeqSt) (l : List (State → SeqRes)) : List (State → SeqRes) := if hasRdl q then l else []

def maskCmd (w : Who) (q : SeqSt) (b : Nat) : State → SeqRes :=
  onSel w true (rSel q b) (fun s => rdlMask s w (selUnit (rSel q b)) (selCtx (rSel q b)) b (selUnit (aSel q)) (selCtx (aSel q)))
def stepCmd (w : Who) (q : SeqSt) (b : Nat) (t : W32) : State → SeqRes :=
  onSel w true (rSel q b) (fun s => rdlStep s w (selUnit (rSel q b)) (selCtx (rSel q b)) b t.toNat)

/-! ## Runs of the loop (R289) -/

/-- An Assayer's run carried to its end. -/
def drive (u : Nat) : Nat → State → State
  | 0, s => s
  | n + 1, s =>
    if (asyAt s u).run.isNone then s
    else match asyTurn s u with
      | .next s => drive u n s
      | _ => s

/-- The run descriptor that the loop fills. -/
def loopRun (p : Nat) (x : Sess) (q : SeqSt) (prog row off tok : Nat) : Run :=
  { loop := some p, part := p, hctx := x.ctx, ctx := selCtx (aSel q), prog := BitVec.ofNat 64 prog, logits := BitVec.ofNat 64 (sdN x 16 8),
    draftp := BitVec.ofNat 64 (sdN x 120 8), result := BitVec.ofNat 64 (0xFFFE * 2 ^ 48 + (loopPlace + 128 - pairBase)), vocab := sdN x 112 4, lpitch := sdN x 24 4, dpitch := sdN x 116 4, ltype := sdN x 28 1,
    regs := SMap.setAll 0 [] [(0, BitVec.ofNat 32 row), (1, BitVec.ofNat 32 off), (2, BitVec.ofNat 32 tok), (3, BitVec.ofNat 32 row)] }

/-- A run for a sequence: its descriptor written to the Foreman pair store, and its status, with the completion and result block of
a run that started left in `fin`. -/
def startLoopRun (s : State) (p : Nat) (x : Sess) (q : SeqSt) (prog row off tok : Nat) : State × Nat :=
  let w := loopWho p x
  let u := selUnit (aSel q)
  let s := upAsy s u (fun a => { a with fin := none })
  let r := loopRun p x q prog row off tok
  let s := loopWrite s loopPlace (runBytes r)
  match worst (selBad s w false (aSel q) ++ seqSrcBad s w prog ++ seqSrcBad s w r.logits.toNat) with
  | some st => (s, st)
  | none =>
    let c := asyCtx s u r.ctx
    if !c.bound then (s, stNoctx)
    else if c.retired then (s, stRetired)
    else
      let s := drive u 65537 (startRun s u r)
      (s, ((asyAt s u).fin.map (fun f => f.2.status)).getD 0)

/-- What the loop reads of the latest result block. -/
structure LoopRes where
  toks : List W32
  code : Nat
  stop : Bool
  a12 : W32

def loopRes (s : State) (q : SeqSt) : LoopRes :=
  let l := (((asyAt s (selUnit (aSel q))).fin.map (fun f => f.1)).getD [])
  let n (o k : Nat) : Nat := leNat ((l.drop o).take k)
  { toks := (List.range (n 32 4)).map (fun i => BitVec.ofNat 32 (n (4 * i) 4)), code := n 40 4, stop := n 44 1 % 2 == 1,
    a12 := BitVec.ofNat 32 (n 48 4) }

/-- A run of the loop: the tokens it committed stand, whatever its status. -/
def seqRun (v : SX) (p j prog row off tok : Nat) : SX × Bool :=
  let q := seqAt v.2 j
  let r := startLoopRun v.1 p v.2 q prog row off tok
  let v : SX := (r.1, upSeq v.2 j (fun q => { q with toks := q.toks ++ (loopRes r.1 q).toks, stop := (loopRes r.1 q).stop }))
  if r.2 = 0 then (v, true) else (failSeq p v j, false)

/-! ## OPEN (R285, R286, R289) -/

/-- The limits of a descriptor (R285); VOCAB is compared with an image's whose header can be read. -/
def sessOk (s : State) (p : Nat) (x : Sess) : Bool :=
  let d := sdD x
  let v := sdN x 112 4
  let area := sdN x 120 8 % 2 ^ 48
  decide (1 ≤ sdN x 29 1 ∧ sdN x 29 1 ≤ sdN x 30 1 ∧ sdN x 30 1 ≤ 8) && decide (d ≤ 7) && decide (1 ≤ sdNseq x ∧ sdNseq x ≤ 64) &&
  sdN x 42 2 == 0 && sdMax x != 0 && decide (2 ≤ sdN x 88 1 ∧ sdN x 88 1 ≤ 16) && sdN x 89 3 == 0 && decide (1 ≤ v ∧ v ≤ 262144) &&
  sdN x 24 4 % 4 == 0 && decide (sdN x 28 1 ≤ 2) &&
  (sdN x 72 8 == 0 || (match gramBytes s (loopWho p x) (sdN x 72 8) 0 64 with | .ok l => leNat ((l.drop 8).take 4) == v | .error _ => true)) &&
  (if d = 0 then sdN x 116 4 == 0 && sdN x 120 8 == 0
   else sdN x 116 4 % 4 == 0 && decide (4 * v ≤ sdN x 116 4) && sdN x 120 8 / 2 ^ 48 == 0xFFFE && decide (2 ^ 23 ≤ area) &&
        decide (area + sdNseq x * 8 * sdN x 116 4 ≤ 2 ^ 26))

/-- The sequences as their table entries give them; the last committed token of each is not stated. -/
def readSeqs (s : State) (p : Nat) (x : Sess) : Option (List SeqSt) :=
  (List.range (sdNseq x)).foldr (fun j (r : Option (List SeqSt)) =>
    match loopGet s p x (entryAddr x j 0) 128, r with
    | some l, some t =>
      let n (o k : Nat) : Nat := leNat ((l.drop o).take k)
      some ({ asel := n 16 2, rsel := n 18 2, sid := BitVec.ofNat 32 (n 8 4), st := n 21 1, pos := n 12 4, ntok := n 24 4,
              joins := n 21 1 == 0,
              last := (Config.freeWord (s.free + j)).setWidth 32 } :: t)
    | _, _ => none) (some [])

/-- The context record that a table entry initialises (R286). -/
def entryRecord (l : List Byte) : List Byte :=
  l.take 16 ++ (l.drop 20).take 1 ++ leBytes 7 0 ++ (l.drop 32).take 64 ++ leBytes 168 0

/-- A sequence bound and its Riddle context opened. -/
def openSeq (p : Nat) (v : SX) (j : Nat) : SX :=
  let w := loopWho p v.2
  let q := seqAt v.2 j
  let l := (loopGet v.1 p v.2 (entryAddr v.2 j 0) 128).getD []
  (seqCmds p v j (
    onSel w false (aSel q) (fun s => asyBind s (selUnit (aSel q)) (selCtx (aSel q)) (entryRecord l)) ::
    withRdl q [onSel w false (rSel q 0) (fun s =>
      match worst (seqSrcBad s w (sdN v.2 72 8)) with
      | some st => seqSt s st
      | none => rdlOpen s w (selUnit (rSel q 0)) (selCtx (rSel q 0)) (BitVec.ofNat 64 (sdN v.2 72 8)))])).1

def sessionOpen (s : State) (p : Nat) : State :=
  match (partAt s p).sess, (partAt s p).pend with
  | none, (addr, ctx) :: rest =>
    let s := upPart s p (fun x => { x with pend := rest })
    let x : Sess := { addr := addr, ctx := ctx }
    match loopGet s p x addr.toNat 128 with
    | none => s
    | some l =>
      let x := { x with desc := l }
      match (if sessOk s p x then readSeqs s p x else none) with
      | none => setSessState s p x 3
      | some qs =>
        let x := { x with seqs := qs, phase := .round }
        let v := (active x).foldl (openSeq p) ({ s with free := s.free + qs.length }, x)
        setSess (setSessState v.1 p v.2 1) p (some v.2)
  | _, _ => s

/-! ## The loop's events

An event acts once every output entry before it is written, and while no run of a core holds a unit it uses. -/

/-- A session that stands in a phase and may go on. -/
def sessIn (s : State) (p : Nat) (ph : SPhase) : Option Sess :=
  match (partAt s p).sess with
  | none => none
  | some x =>
    if s.stage == 3 && x.phase == ph && x.outq.isEmpty && x.seqs.all (fun q => (asyAt s (selUnit (aSel q))).run.isNone) then some x else none

def onSess (s : State) (p : Nat) (ph : SPhase) (f : Sess → SX) : State :=
  match sessIn s p ph with
  | none => s
  | some x => let v := f x; setSess v.1 p (some v.2)

/-! ## ROUND (R289, R291) -/

/-- `asy.stat` and `rdl.save` of a sequence into its areas, refused as the commands are (R109, R267). -/
def saveCmds (w : Who) (q : SeqSt) (a : Nat) : List (State → SeqRes) :=
  (fun s => onSel w false (aSel q) (fun s => asyStat s w (selUnit (aSel q)) (selCtx (aSel q)) (a + 16448)) s
      (((a + 16448) % 64 != 0, stBadcmd) :: seqDstBad s w (a + 16448))) ::
    withRdl q [fun s => onSel w false (rSel q 0) (fun s => rdlSave s w (selUnit (rSel q 0)) (selCtx (rSel q 0)) a) s (seqDstBad s w a)]

/-- A sequence saved from its old contexts. -/
def saveOld (p : Nat) (v : SX) (j : Nat) : SX :=
  let w := loopWho p v.2
  let q := seqAt v.2 j
  let a := saveAddr v.1 p v.2 j
  (seqCmds p v j (saveCmds w q a)).1

/-- A sequence bound and loaded into the contexts its entry now names. -/
def loadNew (p : Nat) (v : SX) (j : Nat) : SX :=
  let w := loopWho p v.2
  let a := saveAddr v.1 p v.2 j
  let x := upSeq v.2 j (fun q => { q with asel := loopNat v.1 p v.2 (entryAddr v.2 j 16) 2, rsel := loopNat v.1 p v.2 (entryAddr v.2 j 18) 2 })
  let q := seqAt x j
  (seqCmds p (v.1, x) j ((fun s => onSel w false (aSel q) (fun s =>
      match engBytes s w (a + 16448) 256 with
      | .ok l => asyBind s (selUnit (aSel q)) (selCtx (aSel q)) l
      | .error e => seqStop s e) s [((a + 16448) % 64 != 0, stBadcmd), (!descKind s w (a + 16448), stRefused)]) ::
    withRdl q [fun s => onSel w false (rSel q 0) (fun s => rdlLoad s w (selUnit (rSel q 0)) (selCtx (rSel q 0)) a) s (seqSrcBad s w a)])).1

/-- RESLOT: all sequences whose selectors changed are saved before any is bound; then the bit is cleared. -/
def reslot (s : State) (p : Nat) (x : Sess) (control : Nat) : SX :=
  let moved := (active x).filter (fun j =>
    loopNat s p x (entryAddr x j 16) 2 != (seqAt x j).asel || loopNat s p x (entryAddr x j 18) 2 != (seqAt x j).rsel)
  let v := moved.foldl (saveOld p) (s, x)
  let v := (moved.filter (fun j => (seqAt v.2 j).st == 0)).foldl (loadNew p) v
  (loopPut v.1 p v.2 (sessField v.2 96) (leBytes 4 (control - 2)), v.2)

def roundStart (s : State) (p : Nat) (x : Sess) : SX :=
  let control := loopNat s p x (sessField x 96) 4
  if control % 2 = 1 ∨ (active x).isEmpty then (s, { x with phase := .close, asked := false })
  else
    let v := if control / 2 % 2 = 1 then reslot s p x control else (s, x)
    (v.1, { v.2 with phase := if sdD x = 0 then .verify else .draft, i := 0, asked := false })

def execSessionRound (p : Nat) (s : State) : Out := .next (onSess s p .round (roundStart s p))

/-! ## The parameter area and the chain (R287, R292) -/

/-- The parameter area written before a forward chain; POS0 is not stated. -/
def writeParams (s : State) (p : Nat) (x : Sess) (planes npos : Nat) (toks : SeqSt → List W32) : State :=
  let s := loopPut s p x (sdN x 8 8) (leBytes 4 planes ++ leBytes 4 npos)
  let s := (List.range x.seqs.length).foldl (fun s j =>
    let q := seqAt x j
    let on := q.st == 0
    loopPut s p x (sdN x 8 8 + 64 + 48 * j)
      (leBytes 4 (if on then 1 else 0) ++ leBytes 4 ((Config.freeWord (s.free + j)).toNat % 2 ^ 32) ++
       (List.range 8).flatMap (fun k => leBytes 4 (if on ∧ k < npos then ((toks q).getD k 0).toNat else 0)) ++ leBytes 8 0)) s
  { s with free := s.free + x.seqs.length }

/-- POS, NTOK and STATE of the sequences that take part written to the table. -/
def writeTable (s : State) (p : Nat) (x : Sess) : State :=
  ((List.range x.seqs.length).filter (fun j => (seqAt x j).joins)).foldl (fun s j =>
    let q := seqAt x j
    let s := loopPut s p x (entryAddr x j 12) (leBytes 4 q.pos)
    let s := loopPut s p x (entryAddr x j 24) (leBytes 4 q.ntok)
    loopPut s p x (entryAddr x j 21) (leBytes 1 q.st)) s

/-- A forward chain that failed ends the session: every active sequence takes STATE 3, and the session too; one that failed
before in the round has its STATE written as well. -/
def failSession (s : State) (p : Nat) (x : Sess) (status : Nat) : State :=
  let s := writeTable s p ((active x).foldl (fun x j => upSeq x j (fun q => { q with st := 3 })) x)
  setSess (setSessState s p x (3 + status % 2 ^ 16 * 2 ^ 16)) p none

/-- A chain of a phase: asked for once its parameters are written, then answered with its status. -/
def chainEvent (s : State) (p : Nat) (ph : SPhase) (chain : Nat) (ask go : Sess → SX) : State :=
  match sessIn s p ph with
  | none => s
  | some x =>
    if !x.asked then let v := ask x; setSess v.1 p (some { v.2 with asked := true })
    else if chain % 2 ^ 16 ≠ 0 then failSession s p x chain
    else let v := go { x with asked := false }; setSess v.1 p (some v.2)

/-! ## DRAFT and VERIFY (R289) -/

/-- A mask and then a run for a sequence, up to the first that fails. -/
def maskRun (v : SX) (p j b prog row off tok : Nat) : SX × Bool :=
  let q := seqAt v.2 j
  match seqCmds p v j (withRdl q [maskCmd (loopWho p v.2) q b]) with
  | (v, false) => (v, false)
  | (v, true) => seqRun v p j prog row off tok

/-- Steps 2 and 3 of a draft for a sequence. -/
def draftSeq (p : Nat) (v : SX) (j : Nat) : SX :=
  let w := loopWho p v.2
  let q := seqAt v.2 j
  let i := v.2.i
  match maskRun v p j i (sdN v.2 48 8) (8 * j + i) i 0 with
  | (v, false) => v
  | (v, true) =>
    let t := (loopRes v.1 q).a12
    let v : SX := (v.1, upSeq v.2 j (fun q => { q with drafts := q.drafts ++ [t] }))
    let c := selCtx (rSel q 0)
    let u := selUnit (rSel q 0)
    (seqCmds p v j (withRdl q [onSel w true (rSel q i) (fun s => rdlFork s u c i (i + 1)), stepCmd w q (i + 1) t])).1

def draftInputs (i : Nat) (q : SeqSt) : List W32 := [if i = 0 then q.last else q.drafts.getD (i - 1) 0]

def sessionDraft (s : State) (p chain : Nat) : State :=
  chainEvent s p .draft chain
    (fun x => (writeParams s p x (sdN x 29 1) 1 (draftInputs x.i), x))
    (fun x =>
      let v := (active x).foldl (draftSeq p) (s, x)
      (v.1, { v.2 with i := v.2.i + 1, phase := if v.2.i + 1 = sdD x then .verify else .draft }))

def execSessionDraft (p chain : Nat) (s : State) : Out := .next (sessionDraft s p chain)

def sessionVerify (s : State) (p chain : Nat) : State :=
  chainEvent s p .verify chain
    (fun x => (writeParams s p x (sdN x 30 1) (sdD x + 1) (fun q => q.last :: q.drafts), x))
    (fun x => (s, { x with phase := .decide }))

def execSessionVerify (p chain : Nat) (s : State) : Out := .next (sessionVerify s p chain)

/-! ## DECIDE (R289) -/

def setAccepted (v : SX) (j a : Nat) : SX := (v.1, upSeq v.2 j (fun q => { q with accepted := a }))

/-- Steps 5 and 6 for a sequence, from draft `i` on with `n` left to verify. -/
def decideFrom (p j : Nat) : Nat → Nat → SX → SX
  | 0, i, v => setAccepted (maskRun v p j i (sdN v.2 64 8) (8 * j + i) 0 0).1 j i
  | n + 1, i, v =>
    match maskRun v p j i (sdN v.2 56 8) (8 * j + i) 0 ((seqAt v.2 j).drafts.getD i 0).toNat with
    | (v, false) => v
    | (v, true) =>
      let r := loopRes v.1 (seqAt v.2 j)
      if r.stop || r.code == 0 then setAccepted v j i else decideFrom p j n (i + 1) v

def sessionDecide (s : State) (p : Nat) : State :=
  onSess s p .decide (fun x =>
    let v := (active x).foldl (fun v j => decideFrom p j (sdD x) 0 v) (s, x)
    (v.1, { v.2 with phase := .commit }))

def execSessionDecide (p : Nat) (s : State) : Out := .next (sessionDecide s p)

/-! ## COMMIT and the output ring (R288, R289) -/

/-- Steps 7 and 8 for a sequence, its table entry apart. -/
def commitSeq (p : Nat) (v : SX) (j : Nat) : SX :=
  let w := loopWho p v.2
  let q := seqAt v.2 j
  let sel := rSel q q.accepted
  let keep := onSel w true sel (fun s => rdlKeep s (selUnit sel) (selCtx sel) q.accepted)
  let step := match q.toks.getLast? with | some t => if q.stop then [] else [stepCmd w q 0 t] | none => []
  match seqCmds p v j (withRdl q (keep :: step)) with
  | (v, false) => v
  | (v, true) =>
    (v.1, { upSeq v.2 j (fun q =>
              let c := countToks q
              { c with st := if q.stop then 1 else if sdMax v.2 ≤ c.ntok then 2 else 0 }) with
            outq := v.2.outq ++ outEntries v.2 q })

def sessionCommit (s : State) (p : Nat) : State :=
  onSess s p .commit (fun x =>
    let v := (active x).foldl (commitSeq p) (s, x)
    (v.1, { v.2 with phase := .output }))

def execSessionCommit (p : Nat) (s : State) : Out := .next (sessionCommit s p)

/-- The 16 bytes of an output entry. -/
def outBytes (n w : Nat) (e : W32 × W32 × Nat × Nat) : List Byte :=
  leBytes 4 e.1.toNat ++ leBytes 4 e.2.1.toNat ++ leBytes 4 e.2.2.1 ++ leBytes 2 (e.2.2.2 + (1 - w / n % 2) * 2 ^ 15) ++ leBytes 2 0

/-- The end of a round: the sequence table and ROUNDS are written. -/
def endRound (s : State) (p : Nat) (x : Sess) : SX :=
  (loopPut (writeTable s p x) p x (sessField x 104) (leBytes 8 (x.rounds + 1)), { x with rounds := x.rounds + 1, phase := .round })

/-- The next output entry written once the ring has room, or, with none left, the round's end. -/
def outputEntry (s : State) (p : Nat) : State :=
  match (partAt s p).sess with
  | none => s
  | some x =>
    if s.stage ≠ 3 then s
    else match x.outq with
    | e :: r =>
      let n := 2 ^ sdN x 88 1
      let acked := loopNat s p x (sessField x 92) 4
      if (x.outw + 2 ^ 32 - acked) % 2 ^ 32 < n then
        setSess (loopPut s p x (sdN x 80 8 + 16 * (x.outw % n)) (outBytes n x.outw e)) p
          (some { x with outq := r, outw := (x.outw + 1) % 2 ^ 32 })
      else s
    | [] =>
      if x.phase = .output then let v := endRound s p x; setSess v.1 p (some v.2) else s

def execOutputEntryWrite (p : Nat) (s : State) : Out := .next (outputEntry s p)

def execSessionOpen (p : Nat) (s : State) : Out := .next (if s.stage = 3 then sessionOpen s p else s)

/-! ## CLOSE (R289) -/

/-- A sequence's contexts saved into its areas (R289, R292). -/
def closeSeq (p : Nat) (v : SX) (j : Nat) : SX := (seqCmds p v j (saveCmds (loopWho p v.2) (seqAt v.2 j) (saveAddr v.1 p v.2 j))).1

/-- The session's end: its table and STATE written. -/
def endSession (s : State) (p : Nat) (x : Sess) : State := setSess (setSessState (writeTable s p x) p x 2) p none

/-- CLOSE: the sequences that took part are saved once; the session ends when the output entries of those that failed there have been
written. -/
def sessionClose (s : State) (p : Nat) : State :=
  match sessIn s p .close with
  | none => s
  | some x =>
    if x.asked then endSession s p x
    else
      let v := ((List.range x.seqs.length).filter (fun j => (seqAt x j).joins)).foldl (closeSeq p) (s, { x with asked := true })
      if v.2.outq.isEmpty then endSession v.1 p v.2 else setSess v.1 p (some v.2)

def execSessionClose (p : Nat) (s : State) : Out := .next (sessionClose s p)

end Sys2Proof.Machine
end

