-- ==== Sys2Proof/Machine/Wdt.lean ====
section
/-! DEFINITION. The text of the deadlock watchdog, which core 0 of the Foreman pair runs from Stage A on (R413, R416): the listing of
the spec, word by word, under the labels of its sections and loops. -/

namespace Sys2Proof.Machine

/-- Section `top`: a wait of 20,000 ticks, then the call of the pass at 0x4C. -/
def wdtTop : List Instr := [.tickRead {} 22, .addi {} 22 22 20000, .twait {} 22, .call {} 21 0x4C]

/-- Section `back`: to `top` again. -/
def wdtBack : List Instr := [.steer {} 0]

/-! ## Section `wdog`, between its labels -/

def wdtStart : List Instr :=
  [.movi {} 20 0, .moviHi {} 20 0xFF000000, .ld {} .n64 true 28 20 0, .movi {} 13 16,
   .min {} .n64 28 28 13, .ld {} .n64 true 27 20 8, .movi {} 25 0xFFFFFFFF, .shr {} 25 25 (.imm 32),
   .movi {} 24 0, .movi {} 23 2]

def wdtCores : List Instr :=
  [.wsrd {} 10 23 0, .tickRead {} 26, .and {} 26 26 25, .bfx {} .n64 12 10 0x0300,
   .movi {} 13 8, .cmp {} .ne 1 12 13, .br { pred := 1 } 34, .shr {} 12 10 (.imm 32),
   .sub {} 12 26 12, .and {} 12 12 25, .cmp {} .ltu 1 12 27, .br { pred := 1 } 29,
   .bfx {} .n64 12 10 0x0916, .prd {} 13 12 0x020, .shr {} 14 13 (.imm 61), .movi {} 15 1,
   .cmp {} .ne 1 14 15, .br { pred := 1 } 23, .bfx {} .n64 14 13 0x0718, .movi {} 15 0]

def wdtSlook : List Instr :=
  [.cmp {} .ltu 1 15 28, .br { pred := 1, pneg := true } 19, .shl {} 16 15 (.imm 4), .add {} 16 16 20,
   .ld {} .n64 true 17 16 0x20, .cmp {} .eq 1 17 11, .br { pred := 1 } 3, .addi {} 15 15 1,
   .br {} 0xFFFFFFF8]

def wdtFound : List Instr :=
  [.ld {} .n64 true 17 16 0x28, .bfx {} .n64 17 17 0x0700, .shl {} 18 14 (.imm 8), .or {} 18 18 17,
   .shl {} 16 24 (.imm 3), .add {} 16 16 20, .st {} .n64 16 18 0x200, .addi {} 24 24 1,
   .movi {} 13 64, .cmp {} .eq 1 24 13, .br { pred := 1 } 5]

def wdtCnext : List Instr :=
  [.addi {} 23 23 1, .movi {} 13 320, .cmp {} .ltu 1 23 13, .br { pred := 1 } 0xFFFFFFD5]

def wdtPairs : List Instr :=
  [.phase {} .system, .movi {} 15 0]

def wdtPloop : List Instr :=
  [.cmp {} .ltu 1 15 24, .br { pred := 1, pneg := true } 30, .shl {} 16 15 (.imm 3), .add {} 16 16 20,
   .ld {} .n64 false 17 16 0x200, .bfx {} .n64 18 17 0x0700, .shr {} 19 17 (.imm 8), .cmp {} .eq 1 18 19,
   .br { pred := 1 } 13, .shl {} 9 18 (.imm 8), .or {} 9 9 19, .movi {} 8 0]

def wdtQloop : List Instr :=
  [.cmp {} .ltu 1 8 24, .br { pred := 1, pneg := true } 8, .shl {} 16 8 (.imm 3), .add {} 16 16 20,
   .ld {} .n64 false 7 16 0x200, .cmp {} .eq 1 7 9, .br { pred := 1 } 5, .addi {} 8 8 1,
   .br {} 0xFFFFFFF8]

def wdtPnext : List Instr :=
  [.addi {} 15 15 1, .br {} 0xFFFFFFEA]

def wdtCycle : List Instr :=
  [.qFlushDiscard {} 1 19, .qFlushDiscard {} 2 18, .qResetRestart {} 3 19, .qResetRestart {} 4 18,
   .ld {} .n64 true 5 20 0x10, .addi {} 5 5 1, .st {} .n64 20 5 0x10, .st {} .n64 20 17 0x18]

def wdtDone : List Instr :=
  [.phase {} .system, .ret {} 21]

/-- Section `wdog`. -/
def wdtDog : List Instr :=
  wdtStart ++ wdtCores ++ wdtSlook ++ wdtFound ++ wdtCnext ++ wdtPairs ++ wdtPloop ++ wdtQloop ++ wdtPnext ++ wdtCycle ++ wdtDone

/-- A steer section of C with no waits (R20): its header and its words. -/
def wdtSection (l : List Instr) : List Byte :=
  leBytes 8 (2 ^ 58 + l.length * 2 ^ 47 + 0x2000 * 2 ^ 28 + 0x2000 * 2 ^ 14 + 0x2000) ++
  l.flatMap (fun i => leBytes 12 ((encode i).getD 0).toNat)

/-- The watchdog's text (R413). -/
def wdtText : List Byte := wdtSection wdtTop ++ wdtSection wdtBack ++ wdtSection wdtDog

end Sys2Proof.Machine
end

