-- ==== Sys2Proof/Machine/Stages.lean ====
section
/-! DEFINITION. Power-good, power loss and the stages of start-up (R303, R403–R406). -/

namespace Sys2Proof.Machine

/-! ## What survives (R385, R405, R408, R409) -/

/-- Owners after power-good: partition 0 has every unit that is there; a CVL-4T256 lacks stack pairs and channel groups 2 and 3 (R2;
log entry 9). -/
def firstOwn (order4T : Nat) : Own :=
  if order4T = 2 then { State.reset.own with sp := [(0, 0), (1, 0)], ch := [(0, 0), (1, 0)] } else State.reset.own

/-- The machine with power gone: flash, QCOUNT and the Lode keep what they hold; all else is at its reset value. -/
def coldState (s : State) : State :=
  { State.reset with
    sched := s.sched, free := s.free, powered := false, banks := s.banks, next := s.next, floor := s.floor, newImage := s.newImage,
    qcount := s.qcount, regions := s.regions, blocks := s.blocks, spares := s.spares, order4T := s.order4T,
    own := firstOwn s.order4T, aged := s.aged }

/-- Power loss: a firmware write under way may leave its bank invalid, which one is a free value (R409). -/
def losePower (s : State) : State :=
  let f := fnAt s 0
  let writes := match updateFw f s with | .ok .. => true | .no _ => false
  let cut := f.busy && f.cmd == 0x27 && mailTurn s 0 && decide (2 ≤ s.stage) && writes && Config.freeBit s.free
  let c := { coldState s with free := s.free + 1 }
  if cut then { c with banks := SMap.set {} c.banks (1 - s.bank) { bankAt c (1 - s.bank) with valid := false } } else c

def execPowerLoss (s : State) : Out := .next (losePower s)

/-- Power-good: Stage S with CAUSE 0, all measurement registers zero, then MR0 extended by the security controller's own
firmware (R403, R406). -/
def powerUp (s : State) : State :=
  extendMr { coldState s with powered := true } 0 Config.controllerDigest

def execPowerGood (s : State) : Out := .next (powerUp s)

/-! ## Stage F (R303, R405) -/

/-- A page-table entry: present, homed on this module (R362). -/
def plainPte (s : State) (pa : Nat) : List Byte := leBytes 16 (pa / 2 ^ 21 * 2 ^ 21 + s.modNum * 16 + 1)

/-- Where the firmware's own page tables and text lie, outside what software can reach (log entry 35). -/
def fwTables : Nat := 2 ^ 47
def fwTextPa : Nat := 0
def fwTextHandle : Nat := 0xFF01

/-- The watch block's handle in the privileged table: 2 MiB of `dram` over 0x1F_FFE0_0000. -/
def mapWatch (s : State) : State :=
  let s := wrRun s fwTables (plainPte s 0x1FFFE00000)
  { s with ht := SMap.set none s.ht (htKey 4 0 0xFF00) (some { kind := 1, ext := 2 ^ 21, base := fwTables }) }

/-- The launch view of a Foreman core's text under the text's handle. -/
def fwView (s : State) (body : List Byte) : View :=
  let pages := (body.length + 2 ^ 21 - 1) / 2 ^ 21
  let text : List (Nat × Byte) := (List.range body.length).map (fun i => (fwTextPa + i, body.getD i 0))
  let tab : List (Nat × Byte) := (List.range pages).flatMap (fun p =>
    let e := plainPte s (fwTextPa + p * 2 ^ 21)
    (List.range 16).map (fun i => (fwTables + 2 ^ 20 + 16 * p + i, e.getD i 0)))
  { mem := SMap.setAll memDefault [] (text ++ tab),
    ht := [(htKey 4 0 fwTextHandle, some { kind := 5, ext := body.length, base := fwTables + 2 ^ 20 })] }

/-- A Foreman core in the launch state of R43 at the start of a text. -/
def foreCore (s : State) (i : Nat) (body : List Byte) : Core :=
  { tid := 0x3FE, idx := i, x := SMap.set 0 [] 7 (BitVec.ofNat 64 i), view := fwView s body }

/-- The Foreman team started on cores 0 and 1 with the image's body as their text (R303). -/
def startForeman (s : State) (image : List Byte) : State :=
  let s := setCore (setCore s 0 (foreCore s 0 (image.drop 128))) 1 (foreCore s 1 (image.drop 128))
  setTeam s 0x3FE { st := .running, cores := [0, 1], text := fwTextHandle, nbar := 2 }

/-- Whether a bank passes every check (R405, R409). -/
def bankGood (s : State) (b : Nat) : Bool := (bankAt s b).valid && decide (s.floor ≤ (bankAt s b).ver)

/-- What the contexts that have ended leave behind is gone. -/
def clearTeams (s : State) : State := { s with teams := [], cores := [], reqs := [] }

/-- Stage F, once every command and store of the contexts that ended is done (R238, R306): the bank marked next, then the other; with
neither good the module stays in Stage S with CAUSE 1. -/
def enterF (s : State) : State :=
  if !s.powered || s.stage ≠ 0 || !s.cores.all (fun p => coreDrained p.2) then s
  else match [s.next, 1 - s.next].find? (bankGood s) with
    | none => { s with cause := 1 }
    | some b =>
      let s := extendMr { clearTeams s with stage := 1, bank := b, newImage := (bankAt s b).fresh } 1 (sm3Digest (bankAt s b).image)
      signalEvent (startForeman (mapWatch s) (bankAt s b).image) 4

def execStageFEntry (s : State) : Out := .next (enterF s)

/-! ## Stages M and A (R397, R403, R409) -/

/-- The firmware's pages as homed on the module's number. -/
def rehome (s : State) : State :=
  let v := fwView s ((bankAt s s.bank).image.drop 128)
  upCore (upCore (mapWatch s) 0 (fun c => { c with view := v })) 1 (fun c => { c with view := v })

/-- The handles of the context area and of the queue register page in the privileged table: numbers from 1 to 0xFE00, and from 0xFE01
to 0xFEFF (log entries 93 and 94). -/
def areaHandle : Nat := 1 + Config.ctxHandle % 0xFE00
def queueHandle : Nat := 0xFE01 + Config.queueHandle % 0xFF

/-- The context area mapped for the Foreman, with CTXBASE (R304, R323). -/
def mapArea (s : State) : State :=
  { s with ctxHandle := areaHandle,
           ht := SMap.set none s.ht (htKey 4 0 areaHandle) (some { kind := 2, ext := areaSize s, base := ctxBase - tensorBase }) }

/-- The queue register page mapped for the Foreman (R334). -/
def mapQueues (s : State) : State :=
  { s with ht := SMap.set none s.ht (htKey 4 0 queueHandle) (some { kind := 7, ext := 2 ^ 14 }) }

/-- Stage M: modules are numbered and the ports come up afresh; a failure then, or before M completes, returns the module to Stage S
with CAUSE 2. A CVL-8T512-S has no port, and is module 0 of one (R2, R397). -/
def enterM (s : State) (ok : Bool) (num count : Nat) : State :=
  if s.stage = 2 then if ok then s else toStageS s 2
  else if s.stage ≠ 1 then s
  else if !ok || 4 < count || count ≤ num then toStageS s 2
  else
    let alone := s.order4T == 1
    signalEvent (rehome (mapArea { s with stage := 2, modNum := if alone then 0 else num, modCount := if alone then 1 else count,
                                          ports := [], tickSet := false, scanned := [] })) 4

def execStageMEntry (ok : Bool) (num count : Nat) (s : State) : Out := .next (enterM s ok num count)

/-- The watchdog started on core 0 of the Foreman pair, whose stores before have performed (R413). -/
def startWdt (s : State) : State :=
  let s := performAll s 0
  upCore s 0 (fun c => { foreCore s 0 wdtText with ql := c.ql, qs := c.qs, qd := c.qd, stq := c.stq, nid := c.nid })

/-- RESTARTS of the watch block, which counts from Stage A on, at 0 (R413; log entry 112). -/
def clearRestarts (s : State) : State := writeMem s ((List.range 8).map (fun i => (0x1FFFE00010 + i, 0)))

/-- At the first Stage A reached from a new image the rollback floor rises to its version (R409). -/
def raiseFloor (s : State) : State :=
  if s.newImage then
    { s with floor := (bankAt s s.bank).ver, newImage := false, banks := SMap.set {} s.banks s.bank { bankAt s s.bank with fresh := false } }
  else s

/-- A module of which no link has trained is module 0 (R397). -/
def renumber (s : State) : State :=
  if (List.range 3).any (fun p => (portAt s p).up) then s else rehome { s with modNum := 0, modCount := 1 }

/-- Stage A, once the counter is set to the tick master's (R399) and Shoring has read the blocks (R382). -/
def enterA (s : State) : State :=
  let s' := renumber s
  if s.stage ≠ 2 || !(s'.modNum == 0 || s.tickSet) || !mountDone s then s
  else signalEvent (clearRestarts (startWdt (mapQueues (raiseFloor { s' with stage := 3 })))) 4

def execStageAEntry (s : State) : Out := .next (enterA s)

end Sys2Proof.Machine
end

