-- ==== Sys2Proof/Machine/VConv.lean ====
section
/-! DEFINITION. Conversion (R194, R195), quantisation and bit-planes (R196–R198) in the V engine. -/

namespace Sys2Proof.Machine

/-- The bits of a converted value, 0 for a trap. -/
def convBits : ConvRes → Nat
  | .ok r => r.bits
  | .trap => 0
def convFlags : ConvRes → Nat
  | .ok r => r.flags
  | .trap => 0

/-- Values of `lt` lanes per element converted and written to `n` destination registers, or a trap that names every
trapping lane (R62, R195). -/
def writeConv (s : State) (tt : ETy) (d n : Nat) (on : Nat → Bool) (f : Nat → ConvRes) : Eff :=
  let l := etyLanes tt
  let regs := List.range n
  let el (i e : Nat) : List ConvRes := if on e then (List.range l).map (fun k => f (1024 * l * i + l * e + k)) else []
  let all := regs.map (fun i => (List.range 1024).map (fun e => (e, el i e)))
  let lanes := all.foldl (fun a r => r.foldl (fun a p => a + (p.2.filter (fun x => x == .trap)).length) a) 0
  if lanes = 0 then
    let c := curCore s
    let s := (regs.zip all).foldl (fun s p =>
      upCur s (fun c' => vsetList c' (d + p.1) (p.2.map (fun q =>
        (q.1, if on q.1 then laneElem (etyBits tt) (q.2.map convBits) else vget c (d + p.1) q.1))))) s
    .done (raiseFlags s (orFlags (all.flatMap (fun r => r.map (fun p => orFlags (p.2.map convFlags))))))
  else
    .trap { code := 1 } lanes (maskTab (fun e => all.any (fun r => (r.getD e (0, [])).2.any (fun x => x == .trap)))) s

def etyOr (n : Nat) : ETy := (etyOf? n).getD .fp32

def execVcvt (h : Hd) (tt : ETy) (md : BitVec 6) (d a : Reg) (mk : Option Reg) (imm : W32) (s : State) : Out :=
  let ts := etyOr (imm.toNat % 16)
  runEff s h fun s =>
    let c := curCore s
    writeConv s tt d.toNat (max 1 (etyLanes ts / etyLanes tt)) (maskOn c mk)
      (fun j => convert ts tt (modeIn s md) (policyIn s md) (groupVal c ts a.toNat j))

/-- `vqnt`: the codes of 4,096 values with the scale of each block of 128 (R196). -/
def execVqntBlk (h : Hd) (_ty : ETy) (md : BitVec 6) (d a : Reg) (imm : W32) (s : State) : Out :=
  let ts := etyOr (imm.toNat % 16)
  runEff s h fun s =>
    let c := curCore s
    let x (j : Nat) : FpVal := fpDecode (fmtOf ts) (groupVal c ts a.toNat j)
    let sc := (List.range 32).map (fun b => blockScale fmtBf ((List.range 128).map (fun i => x (128 * b + i))))
    match writeConv s .i8 d.toNat 1 (fun _ => true) (fun j => quantise (x j) (fpDecode fmtBf (sc.getD (j / 128) 0)) (policyIn s md)) with
    | .done s => .done (writeAll s (d.toNat + 1) (groupElem .bf16 (fun b => sc.getD b 0) 0))
    | r => r

/-- `vqnt.s` (R196). A scale it does not take gives code 0 and INVALID in every lane, of NaN and infinite values too, without POLICY
or a trap: the model's choice (log entry 113). -/
def execVqntS (h : Hd) (_ty : ETy) (md : BitVec 6) (d a b : Reg) (imm : W32) (s : State) : Out :=
  let ts := etyOr (imm.toNat % 16)
  runEff s h fun s =>
    let c := curCore s
    let sc := fpDecode fmt32 ((rd s b).toNat % 2 ^ 32)
    if badScale sc then .done (raiseFlags (writeAll s d.toNat (fun _ => 0)) flInvalid)
    else writeConv s .i8 d.toNat 1 (fun _ => true) (fun j => quantise (fpDecode (fmtOf ts) (groupVal c ts a.toNat j)) sc (policyIn s md))

/-- `vdqnt`: value j is the reconstructed code times its block's scale, rounded once (R197). -/
def dequantWord (s : State) (h : Hd) (md : BitVec 6) (d a : Reg) (imm : W32) (scale : State → Nat → FpVal) : Out :=
  let tt := etyOr (imm.toNat % 16)
  let k := imm.toNat / 16 % 16 + 1
  runEff s h fun s =>
    let c := curCore s
    writeConv s tt d.toNat (4 / etyLanes tt) (fun _ => true) (fun j =>
      .ok (dequant (fmtOf tt) (modeIn s md) (planeVal (groupVal c .i8 a.toNat j) k (mdQual md)) (scale s (j / 128))))

def execVdqntBlk (h : Hd) (_ty : ETy) (md : BitVec 6) (d a : Reg) (imm : W32) (s : State) : Out :=
  dequantWord s h md d a imm (fun s b => fpDecode fmtBf (groupVal (curCore s) .bf16 (a.toNat + 1) b))
def execVdqntS (h : Hd) (_ty : ETy) (md : BitVec 6) (d a b : Reg) (imm : W32) (s : State) : Out :=
  dequantWord s h md d a imm (fun s _ => fpDecode fmt32 ((rd s b).toNat % 2 ^ 32))

/-- Byte `n` of the planewise image of 4,096 codes at `k` planes (R198). -/
def planeByte (code : Nat → Nat) (k n : Nat) : Nat :=
  if n < 512 * k then
    let b := n / (16 * k)
    let i := n % (16 * k) / 16
    (List.range 8).foldl (fun acc m => acc + planeBit (code (128 * b + 8 * (n % 16) + m)) i * 2 ^ m) 0
  else 0

/-- Code `j` of a planewise image at `k` planes, its other planes 0 (R198). -/
def planeCode (byte : Nat → Nat) (k j : Nat) : Nat :=
  (List.range k).foldl (fun acc i => acc + byte (16 * k * (j / 128) + 16 * i + j % 128 / 8) / 2 ^ (j % 8) % 2 * 2 ^ (7 - i)) 0

/-- Byte `n` of a register in value order. -/
def regByte (c : Core) (r n : Nat) : Nat := groupVal c .n8 r n

def execVplanePk (h : Hd) (_ty : ETy) (d a : Reg) (imm : W32) (s : State) : Out :=
  runWord s h { eff := effDo (fun s =>
    let c := curCore s
    writeAll s d.toNat (groupElem .n8 (planeByte (regByte c a.toNat) (imm.toNat % 16)) 0)) }
def execVplaneUn (h : Hd) (_ty : ETy) (d a : Reg) (imm : W32) (s : State) : Out :=
  runWord s h { eff := effDo (fun s =>
    let c := curCore s
    writeAll s d.toNat (groupElem .n8 (planeCode (regByte c a.toNat) (imm.toNat % 16)) 0)) }

end Sys2Proof.Machine
end

