-- ==== Sys2Proof/Machine/Dispatch.lean ====
section
/-! DEFINITION. The meaning of each operation of the opcode table: one direct call of its definition. -/

namespace Sys2Proof.Machine

def exec (i : Instr) (s : State) : Host.Outcome State Fault Refusal :=
  match i with
  | .nop h => Sys2Proof.Machine.execNop h s
  | .rep h imm => Sys2Proof.Machine.execRep h imm s
  | .movi h d imm => Sys2Proof.Machine.execMovi h d imm s
  | .moviHi h d imm => Sys2Proof.Machine.execMoviHi h d imm s
  | .mov h d a => Sys2Proof.Machine.execMov h d a s
  | .add h d a b => Sys2Proof.Machine.execAdd h d a b s
  | .sub h d a b => Sys2Proof.Machine.execSub h d a b s
  | .addi h d a imm => Sys2Proof.Machine.execAddi h d a imm s
  | .shl h d a sh => Sys2Proof.Machine.execShl h d a sh s
  | .shr h d a sh => Sys2Proof.Machine.execShr h d a sh s
  | .sar h d a sh => Sys2Proof.Machine.execSar h d a sh s
  | .and h d a b => Sys2Proof.Machine.execAnd h d a b s
  | .or h d a b => Sys2Proof.Machine.execOr h d a b s
  | .xor h d a b => Sys2Proof.Machine.execXor h d a b s
  | .cmp h crel d a b => Sys2Proof.Machine.execCmp h crel d a b s
  | .sel h d a b e => Sys2Proof.Machine.execSel h d a b e s
  | .tsend h a => Sys2Proof.Machine.execTsend h a s
  | .trecv h d => Sys2Proof.Machine.execTrecv h d s
  | .pand h d a b => Sys2Proof.Machine.execPand h d a b s
  | .por h d a b => Sys2Proof.Machine.execPor h d a b s
  | .pxor h d a b => Sys2Proof.Machine.execPxor h d a b s
  | .pnot h d a => Sys2Proof.Machine.execPnot h d a s
  | .pmov h d a => Sys2Proof.Machine.execPmov h d a s
  | .mul h ty d a b => Sys2Proof.Machine.execMul h ty d a b s
  | .mulh h ty d a b => Sys2Proof.Machine.execMulh h ty d a b s
  | .div h ty d a b => Sys2Proof.Machine.execDiv h ty d a b s
  | .rem h ty d a b => Sys2Proof.Machine.execRem h ty d a b s
  | .min h ty d a b => Sys2Proof.Machine.execMin h ty d a b s
  | .max h ty d a b => Sys2Proof.Machine.execMax h ty d a b s
  | .clz h d a => Sys2Proof.Machine.execClz h d a s
  | .popc h d a => Sys2Proof.Machine.execPopc h d a s
  | .bfx h ty d a imm => Sys2Proof.Machine.execBfx h ty d a imm s
  | .bfi h ty d a b imm => Sys2Proof.Machine.execBfi h ty d a b imm s
  | .ld h ty q d a imm => Sys2Proof.Machine.execLd h ty q d a imm s
  | .st h ty a b imm => Sys2Proof.Machine.execSt h ty a b imm s
  | .atomAdd h ty d a b e imm => Sys2Proof.Machine.execAtomAdd h ty d a b e imm s
  | .atomAnd h ty d a b e imm => Sys2Proof.Machine.execAtomAnd h ty d a b e imm s
  | .atomOr h ty d a b e imm => Sys2Proof.Machine.execAtomOr h ty d a b e imm s
  | .atomXor h ty d a b e imm => Sys2Proof.Machine.execAtomXor h ty d a b e imm s
  | .atomMin h ty d a b e imm => Sys2Proof.Machine.execAtomMin h ty d a b e imm s
  | .atomMax h ty d a b e imm => Sys2Proof.Machine.execAtomMax h ty d a b e imm s
  | .atomXchg h ty d a b e imm => Sys2Proof.Machine.execAtomXchg h ty d a b e imm s
  | .atomCas h ty d a b e imm => Sys2Proof.Machine.execAtomCas h ty d a b e imm s
  | .atomIncb h ty d a b e imm => Sys2Proof.Machine.execAtomIncb h ty d a b e imm s
  | .atomAddb h ty d a b e imm => Sys2Proof.Machine.execAtomAddb h ty d a b e imm s
  | .atomCas128 h ty d a b e imm => Sys2Proof.Machine.execAtomCas128 h ty d a b e imm s
  | .br h imm => Sys2Proof.Machine.execBr h imm s
  | .steer h imm => Sys2Proof.Machine.execSteer h imm s
  | .steerX h a => Sys2Proof.Machine.execSteerX h a s
  | .call h d imm => Sys2Proof.Machine.execCall h d imm s
  | .ret h a => Sys2Proof.Machine.execRet h a s
  | .probe h pcl d a e imm => Sys2Proof.Machine.execProbe h pcl d a e imm s
  | .fni h fcl d imm => Sys2Proof.Machine.execFni h fcl d imm s
  | .fnw h a => Sys2Proof.Machine.execFnw h a s
  | .fenceComplete core => Sys2Proof.Machine.execFenceComplete core s
  | .phase h scp => Sys2Proof.Machine.execPhase h scp s
  | .barArr h imm => Sys2Proof.Machine.execBarArr h imm s
  | .barWait h imm => Sys2Proof.Machine.execBarWait h imm s
  | .waitw h wrel ty d a b imm => Sys2Proof.Machine.execWaitw h wrel ty d a b imm s
  | .waitwPoll core => Sys2Proof.Machine.execWaitwPoll core s
  | .twait h a => Sys2Proof.Machine.execTwait h a s
  | .twaitExpiry core => Sys2Proof.Machine.execTwaitExpiry core s
  | .tickRead h d => Sys2Proof.Machine.execTickRead h d s
  | .npre h => Sys2Proof.Machine.execNpre h s
  | .epre h => Sys2Proof.Machine.execEpre h s
  | .nopreOverrun core => Sys2Proof.Machine.execNopreOverrun core s
  | .textsync h a b => Sys2Proof.Machine.execTextsync h a b s
  | .signal h sscp a b imm => Sys2Proof.Machine.execSignal h sscp a b imm s
  | .signalAdd core => Sys2Proof.Machine.execSignalAdd core s
  | .trap h imm => Sys2Proof.Machine.execTrap h imm s
  | .srd h d imm => Sys2Proof.Machine.execSrd h d imm s
  | .wsrd h d a imm => Sys2Proof.Machine.execWsrd h d a imm s
  | .teamHalt h d a => Sys2Proof.Machine.execTeamHalt h d a s
  | .teamKill h d a => Sys2Proof.Machine.execTeamKill h d a s
  | .teamHold h d a => Sys2Proof.Machine.execTeamHold h d a s
  | .teamResumeReexec h d a => Sys2Proof.Machine.execTeamResumeReexec h d a s
  | .teamResumeSkip h d a => Sys2Proof.Machine.execTeamResumeSkip h d a s
  | .qFlushFinish h d a => Sys2Proof.Machine.execQFlushFinish h d a s
  | .qFlushDiscard h d a => Sys2Proof.Machine.execQFlushDiscard h d a s
  | .qResetContinue h d a => Sys2Proof.Machine.execQResetContinue h d a s
  | .qResetRestart h d a => Sys2Proof.Machine.execQResetRestart h d a s
  | .ctxSave h d a b imm => Sys2Proof.Machine.execCtxSave h d a b imm s
  | .ctxRest h d a b imm => Sys2Proof.Machine.execCtxRest h d a b imm s
  | .prd h d a imm => Sys2Proof.Machine.execPrd h d a imm s
  | .pwr h d a b imm => Sys2Proof.Machine.execPwr h d a b imm s
  | .lregCreate h d a opx => Sys2Proof.Machine.execLregCreate h d a opx s
  | .lregWrite h d a => Sys2Proof.Machine.execLregWrite h d a s
  | .lregSeal h d a => Sys2Proof.Machine.execLregSeal h d a s
  | .lregRemap h d a => Sys2Proof.Machine.execLregRemap h d a s
  | .lregDestroy h d a => Sys2Proof.Machine.execLregDestroy h d a s
  | .htabMap h d a opx => Sys2Proof.Machine.execHtabMap h d a opx s
  | .htabUnmap h d a => Sys2Proof.Machine.execHtabUnmap h d a s
  | .htabShootdown h d a => Sys2Proof.Machine.execHtabShootdown h d a s
  | .htabBind h d a => Sys2Proof.Machine.execHtabBind h d a s
  | .fwinSet h d a opx => Sys2Proof.Machine.execFwinSet h d a opx s
  | .fwinClear h d a => Sys2Proof.Machine.execFwinClear h d a s
  | .fwinFlush h d a => Sys2Proof.Machine.execFwinFlush h d a s
  | .vld h ty q d a b imm => Sys2Proof.Machine.execVld h ty q d a b imm s
  | .vldSp h ty q d a b imm => Sys2Proof.Machine.execVldSp h ty q d a b imm s
  | .vst h ty a b e imm => Sys2Proof.Machine.execVst h ty a b e imm s
  | .vstSp h ty a b e imm => Sys2Proof.Machine.execVstSp h ty a b e imm s
  | .vldr h ty q d a b e imm => Sys2Proof.Machine.execVldr h ty q d a b e imm s
  | .vstr h ty a b e imm => Sys2Proof.Machine.execVstr h ty a b e imm s
  | .vldx h ty d a b mk imm => Sys2Proof.Machine.execVldx h ty d a b mk imm s
  | .vmodeRd h d => Sys2Proof.Machine.execVmodeRd h d s
  | .vmodeWr h a => Sys2Proof.Machine.execVmodeWr h a s
  | .vflagsRd h d => Sys2Proof.Machine.execVflagsRd h d s
  | .vflagsWr h a => Sys2Proof.Machine.execVflagsWr h a s
  | .vadd h ty md d a b mk => Sys2Proof.Machine.execVadd h ty md d a b mk s
  | .vsub h ty md d a b mk => Sys2Proof.Machine.execVsub h ty md d a b mk s
  | .vmul h ty md d a b mk => Sys2Proof.Machine.execVmul h ty md d a b mk s
  | .vmin h ty md d a b mk => Sys2Proof.Machine.execVmin h ty md d a b mk s
  | .vmax h ty md d a b mk => Sys2Proof.Machine.execVmax h ty md d a b mk s
  | .vabs h ty d a mk => Sys2Proof.Machine.execVabs h ty d a mk s
  | .vneg h ty d a mk => Sys2Proof.Machine.execVneg h ty d a mk s
  | .vcmp h vrel ty d a b mk => Sys2Proof.Machine.execVcmp h vrel ty d a b mk s
  | .vfma h ty md d a b e => Sys2Proof.Machine.execVfma h ty md d a b e s
  | .vfms h ty md d a b e => Sys2Proof.Machine.execVfms h ty md d a b e s
  | .vfnma h ty md d a b e => Sys2Proof.Machine.execVfnma h ty md d a b e s
  | .vdiv h ty md d a b mk => Sys2Proof.Machine.execVdiv h ty md d a b mk s
  | .vclass h ty md d a mk => Sys2Proof.Machine.execVclass h ty md d a mk s
  | .vrint h ty md d a mk => Sys2Proof.Machine.execVrint h ty md d a mk s
  | .vscale h ty md d a b mk => Sys2Proof.Machine.execVscale h ty md d a b mk s
  | .vmulh h ty d a b mk => Sys2Proof.Machine.execVmulh h ty d a b mk s
  | .vshl h ty d a sh mk => Sys2Proof.Machine.execVshl h ty d a sh mk s
  | .vshr h ty d a sh mk => Sys2Proof.Machine.execVshr h ty d a sh mk s
  | .vsar h ty d a sh mk => Sys2Proof.Machine.execVsar h ty d a sh mk s
  | .vand h ty d a b mk => Sys2Proof.Machine.execVand h ty d a b mk s
  | .vor h ty d a b mk => Sys2Proof.Machine.execVor h ty d a b mk s
  | .vxor h ty d a b mk => Sys2Proof.Machine.execVxor h ty d a b mk s
  | .vnot h ty d a mk => Sys2Proof.Machine.execVnot h ty d a mk s
  | .vpopc h ty d a mk => Sys2Proof.Machine.execVpopc h ty d a mk s
  | .vclz h ty d a mk => Sys2Proof.Machine.execVclz h ty d a mk s
  | .vdot4 h ty q d a b e => Sys2Proof.Machine.execVdot4 h ty q d a b e s
  | .vcvt h ty md d a mk imm => Sys2Proof.Machine.execVcvt h ty md d a mk imm s
  | .vqntBlk h ty md d a imm => Sys2Proof.Machine.execVqntBlk h ty md d a imm s
  | .vqntS h ty md d a b imm => Sys2Proof.Machine.execVqntS h ty md d a b imm s
  | .vdqntBlk h ty md d a imm => Sys2Proof.Machine.execVdqntBlk h ty md d a imm s
  | .vdqntS h ty md d a b imm => Sys2Proof.Machine.execVdqntS h ty md d a b imm s
  | .vplanePk h ty d a imm => Sys2Proof.Machine.execVplanePk h ty d a imm s
  | .vplaneUn h ty d a imm => Sys2Proof.Machine.execVplaneUn h ty d a imm s
  | .vrot h ax ty d a idx mk => Sys2Proof.Machine.execVrot h ax ty d a idx mk s
  | .vbcast h ax ty d a idx mk => Sys2Proof.Machine.execVbcast h ax ty d a idx mk s
  | .vred h rop ax ty md d a mk => Sys2Proof.Machine.execVred h rop ax ty md d a mk s
  | .vscan h rop ax ty md d a mk => Sys2Proof.Machine.execVscan h rop ax ty md d a mk s
  | .vsred h rop ty md d a e => Sys2Proof.Machine.execVsred h rop ty md d a e s
  | .kand h d a b => Sys2Proof.Machine.execKand h d a b s
  | .kor h d a b => Sys2Proof.Machine.execKor h d a b s
  | .kxor h d a b => Sys2Proof.Machine.execKxor h d a b s
  | .knot h d a => Sys2Proof.Machine.execKnot h d a s
  | .kpopc h d a => Sys2Proof.Machine.execKpopc h d a s
  | .kffs h d a => Sys2Proof.Machine.execKffs h d a s
  | .krl h krv ty d b => Sys2Proof.Machine.execKrl h krv ty d b s
  | .kmov h d a => Sys2Proof.Machine.execKmov h d a s
  | .kmovSet h d => Sys2Proof.Machine.execKmovSet h d s
  | .kmovClr h d => Sys2Proof.Machine.execKmovClr h d s
  | .kmovFirst h d a => Sys2Proof.Machine.execKmovFirst h d a s
  | .vext h ty d a idx => Sys2Proof.Machine.execVext h ty d a idx s
  | .vins h ty d a idx => Sys2Proof.Machine.execVins h ty d a idx s
  | .vmov h ty d a mk => Sys2Proof.Machine.execVmov h ty d a mk s
  | .vmovBc h ty d a mk => Sys2Proof.Machine.execVmovBc h ty d a mk s
  | .vsel h ty d a b e => Sys2Proof.Machine.execVsel h ty d a b e s
  | .vexp h ty md d a e => Sys2Proof.Machine.execVexp h ty md d a e s
  | .vexp2 h ty md d a e => Sys2Proof.Machine.execVexp2 h ty md d a e s
  | .vexpm1 h ty md d a e => Sys2Proof.Machine.execVexpm1 h ty md d a e s
  | .vlog h ty md d a e => Sys2Proof.Machine.execVlog h ty md d a e s
  | .vlog2 h ty md d a e => Sys2Proof.Machine.execVlog2 h ty md d a e s
  | .vlog1p h ty md d a e => Sys2Proof.Machine.execVlog1p h ty md d a e s
  | .vrcp h ty md d a e => Sys2Proof.Machine.execVrcp h ty md d a e s
  | .vsqrt h ty md d a e => Sys2Proof.Machine.execVsqrt h ty md d a e s
  | .vrsqrt h ty md d a e => Sys2Proof.Machine.execVrsqrt h ty md d a e s
  | .vsin h ty md d a e => Sys2Proof.Machine.execVsin h ty md d a e s
  | .vcos h ty md d a e => Sys2Proof.Machine.execVcos h ty md d a e s
  | .vtanh h ty md d a e => Sys2Proof.Machine.execVtanh h ty md d a e s
  | .vlogistic h ty md d a e => Sys2Proof.Machine.execVlogistic h ty md d a e s
  | .vexpApx h ty md d a e => Sys2Proof.Machine.execVexpApx h ty md d a e s
  | .vexp2Apx h ty md d a e => Sys2Proof.Machine.execVexp2Apx h ty md d a e s
  | .vexpm1Apx h ty md d a e => Sys2Proof.Machine.execVexpm1Apx h ty md d a e s
  | .vlogApx h ty md d a e => Sys2Proof.Machine.execVlogApx h ty md d a e s
  | .vlog2Apx h ty md d a e => Sys2Proof.Machine.execVlog2Apx h ty md d a e s
  | .vlog1pApx h ty md d a e => Sys2Proof.Machine.execVlog1pApx h ty md d a e s
  | .vrcpApx h ty md d a e => Sys2Proof.Machine.execVrcpApx h ty md d a e s
  | .vsqrtApx h ty md d a e => Sys2Proof.Machine.execVsqrtApx h ty md d a e s
  | .vrsqrtApx h ty md d a e => Sys2Proof.Machine.execVrsqrtApx h ty md d a e s
  | .vsinApx h ty md d a e => Sys2Proof.Machine.execVsinApx h ty md d a e s
  | .vcosApx h ty md d a e => Sys2Proof.Machine.execVcosApx h ty md d a e s
  | .vtanhApx h ty md d a e => Sys2Proof.Machine.execVtanhApx h ty md d a e s
  | .vlogisticApx h ty md d a e => Sys2Proof.Machine.execVlogisticApx h ty md d a e s
  | .phase2Complete core => Sys2Proof.Machine.execPhase2Complete core s
  | .leaseAcq h imm => Sys2Proof.Machine.execLeaseAcq h imm s
  | .leaseGrant cl => Sys2Proof.Machine.execLeaseGrant cl s
  | .leaseHandOver cl => Sys2Proof.Machine.execLeaseHandOver cl s
  | .leaseRel h => Sys2Proof.Machine.execLeaseRel h s
  | .leaseSt h d => Sys2Proof.Machine.execLeaseSt h d s
  | .odSetSp h d a b => Sys2Proof.Machine.execOdSetSp h d a b s
  | .odSetV h d a b => Sys2Proof.Machine.execOdSetV h d a b s
  | .odSetM h d a b => Sys2Proof.Machine.execOdSetM h d a b s
  | .mma h ty q kk d a b imm => Sys2Proof.Machine.execMma h ty q kk d a b imm s
  | .accZero h d => Sys2Proof.Machine.execAccZero h d s
  | .accSwap h d => Sys2Proof.Machine.execAccSwap h d s
  | .accRd h d a imm => Sys2Proof.Machine.execAccRd h d a imm s
  | .accFlag h d a => Sys2Proof.Machine.execAccFlag h d a s
  | .hcp h d a imm => Sys2Proof.Machine.execHcp h d a imm s
  | .hgat h d a b imm => Sys2Proof.Machine.execHgat h d a b imm s
  | .hsct h d a b imm => Sys2Proof.Machine.execHsct h d a b imm s
  | .hmc h d a imm => Sys2Proof.Machine.execHmc h d a imm s
  | .hmcSig h d a imm => Sys2Proof.Machine.execHmcSig h d a imm s
  | .hmcPairArrival core pair => Sys2Proof.Machine.execHmcPairArrival core pair s
  | .hlay h d a b e imm => Sys2Proof.Machine.execHlay h d a b e imm s
  | .hfill h d a b imm => Sys2Proof.Machine.execHfill h d a b imm s
  | .hpub h d a imm => Sys2Proof.Machine.execHpub h d a imm s
  | .cqInit h d a b => Sys2Proof.Machine.execCqInit h d a b s
  | .cqAck h d a => Sys2Proof.Machine.execCqAck h d a s
  | .commandComplete core q => Sys2Proof.Machine.execCommandComplete core q s
  | .lodeAct h d a imm => Sys2Proof.Machine.execLodeAct h d a imm s
  | .lodeSacc h kk q d a b e imm => Sys2Proof.Machine.execLodeSacc h kk q d a b e imm s
  | .stampedStart core q => Sys2Proof.Machine.execStampedStart core q s
  | .lodePageRead core o => Sys2Proof.Machine.execLodePageRead core o s
  | .lodeDrain h d a imm => Sys2Proof.Machine.execLodeDrain h d a imm s
  | .lodeDrainRaw h d a imm => Sys2Proof.Machine.execLodeDrainRaw h d a imm s
  | .lodeIred h d a imm => Sys2Proof.Machine.execLodeIred h d a imm s
  | .lodeStat h d a imm => Sys2Proof.Machine.execLodeStat h d a imm s
  | .linkSend h d a e imm => Sys2Proof.Machine.execLinkSend h d a e imm s
  | .linkRed h d a e imm => Sys2Proof.Machine.execLinkRed h d a e imm s
  | .rdlOpen h d a b imm => Sys2Proof.Machine.execRdlOpen h d a b imm s
  | .rdlMask h d a b imm => Sys2Proof.Machine.execRdlMask h d a b imm s
  | .rdlMaskM h d a b imm => Sys2Proof.Machine.execRdlMaskM h d a b imm s
  | .rdlStep h d b e imm => Sys2Proof.Machine.execRdlStep h d b e imm s
  | .rdlFork h d b imm => Sys2Proof.Machine.execRdlFork h d b imm s
  | .rdlKeep h d b imm => Sys2Proof.Machine.execRdlKeep h d b imm s
  | .rdlDrop h d b imm => Sys2Proof.Machine.execRdlDrop h d b imm s
  | .rdlSave h d a b imm => Sys2Proof.Machine.execRdlSave h d a b imm s
  | .rdlLoad h d a b imm => Sys2Proof.Machine.execRdlLoad h d a b imm s
  | .asyBind h d a b imm => Sys2Proof.Machine.execAsyBind h d a b imm s
  | .asyRun h d a b imm => Sys2Proof.Machine.execAsyRun h d a b imm s
  | .asyStat h d a b imm => Sys2Proof.Machine.execAsyStat h d a b imm s
  | .asyHalt i14 => Sys2Proof.Machine.execAsyHalt i14 s
  | .asyLdlog a => Sys2Proof.Machine.execAsyLdlog a s
  | .asyScl a => Sys2Proof.Machine.execAsyScl a s
  | .asySub a => Sys2Proof.Machine.execAsySub a s
  | .asyExp => Sys2Proof.Machine.execAsyExp s
  | .asyDiv a => Sys2Proof.Machine.execAsyDiv a s
  | .asyDivS d a b => Sys2Proof.Machine.execAsyDivS d a b s
  | .asyTmax d => Sys2Proof.Machine.execAsyTmax d s
  | .asyTsum d => Sys2Proof.Machine.execAsyTsum d s
  | .asyMinp a => Sys2Proof.Machine.execAsyMinp a s
  | .asyMask => Sys2Proof.Machine.execAsyMask s
  | .asySort => Sys2Proof.Machine.execAsySort s
  | .asyScan => Sys2Proof.Machine.execAsyScan s
  | .asyTopp a => Sys2Proof.Machine.execAsyTopp a s
  | .asyDraw d a p2 => Sys2Proof.Machine.execAsyDraw d a p2 s
  | .asyPick d a => Sys2Proof.Machine.execAsyPick d a s
  | .asyVal d a => Sys2Proof.Machine.execAsyVal d a s
  | .asyValQ d a b => Sys2Proof.Machine.execAsyValQ d a b s
  | .asyStp a => Sys2Proof.Machine.execAsyStp a s
  | .asyStop d a => Sys2Proof.Machine.execAsyStop d a s
  | .asyCommit a => Sys2Proof.Machine.execAsyCommit a s
  | .asyAccept d a b => Sys2Proof.Machine.execAsyAccept d a b s
  | .asyResid a => Sys2Proof.Machine.execAsyResid a s
  | .asyMov d a => Sys2Proof.Machine.execAsyMov d a s
  | .asyMovi d i14 => Sys2Proof.Machine.execAsyMovi d i14 s
  | .asyAddF d a b => Sys2Proof.Machine.execAsyAddF d a b s
  | .asyAddI d a b => Sys2Proof.Machine.execAsyAddI d a b s
  | .asyMulF d a b => Sys2Proof.Machine.execAsyMulF d a b s
  | .asyMulI d a b => Sys2Proof.Machine.execAsyMulI d a b s
  | .asyBrAl s12 => Sys2Proof.Machine.execAsyBrAl s12 s
  | .asyBrZ a s12 => Sys2Proof.Machine.execAsyBrZ a s12 s
  | .asyBrNz a s12 => Sys2Proof.Machine.execAsyBrNz a s12 s
  | .asyStatRead d s8 => Sys2Proof.Machine.execAsyStatRead d s8 s
  | .sectionHeaderExamine core g => Sys2Proof.Machine.execSectionHeaderExamine core g s
  | .steerTargetPop core g => Sys2Proof.Machine.execSteerTargetPop core g s
  | .joinRendezvous core g => Sys2Proof.Machine.execJoinRendezvous core g s
  | .retireForTile core g => Sys2Proof.Machine.execRetireForTile core g s
  | .tokenDeadlock core => Sys2Proof.Machine.execTokenDeadlock core s
  | .reserveRead fn q => Sys2Proof.Machine.execReserveRead fn q s
  | .commitWrite fn q v => Sys2Proof.Machine.execCommitWrite fn q v s
  | .queueEnable fn q => Sys2Proof.Machine.execQueueEnable fn q s
  | .queueDestroy fn q discard => Sys2Proof.Machine.execQueueDestroy fn q discard s
  | .registerWrite fn off v => Sys2Proof.Machine.execRegisterWrite fn off v s
  | .recordTake q => Sys2Proof.Machine.execRecordTake q s
  | .waitEvaluation q => Sys2Proof.Machine.execWaitEvaluation q s
  | .walkerChoice => Sys2Proof.Machine.execWalkerChoice s
  | .recordComplete q => Sys2Proof.Machine.execRecordComplete q s
  | .completionEntryWrite q => Sys2Proof.Machine.execCompletionEntryWrite q s
  | .deadlineExpiry q => Sys2Proof.Machine.execDeadlineExpiry q s
  | .haltRequest tid => Sys2Proof.Machine.execHaltRequest tid s
  | .haltComplete tid => Sys2Proof.Machine.execHaltComplete tid s
  | .teamSave tid => Sys2Proof.Machine.execTeamSave tid s
  | .thermalMigration cl hot => Sys2Proof.Machine.execThermalMigration cl hot s
  | .faultRecordWrite => Sys2Proof.Machine.execFaultRecordWrite s
  | .cacheEviction line => Sys2Proof.Machine.execCacheEviction line s
  | .shoringSteal stack die plane => Sys2Proof.Machine.execShoringSteal stack die plane s
  | .shoringRefresh stack die plane blk bad wrErr => Sys2Proof.Machine.execShoringRefresh stack die plane blk bad wrErr s
  | .bondSelfTest cls bus grp wires => Sys2Proof.Machine.execBondSelfTest cls bus grp wires s
  | .hostWrite fn pa data => Sys2Proof.Machine.execHostWrite fn pa data s
  | .hostRead fn pa len => Sys2Proof.Machine.execHostRead fn pa len s
  | .hostAtomicop fn pa => Sys2Proof.Machine.execHostAtomicop fn pa s
  | .pageRequestResponse part idx resp => Sys2Proof.Machine.execPageRequestResponse part idx resp s
  | .atsInvalidate pasid base len => Sys2Proof.Machine.execAtsInvalidate pasid base len s
  | .sessionDoorbell fn addr => Sys2Proof.Machine.execSessionDoorbell fn addr s
  | .ident fn => Sys2Proof.Machine.execIdent fn s
  | .health fn => Sys2Proof.Machine.execHealth fn s
  | .reloadq fn => Sys2Proof.Machine.execReloadq fn s
  | .partset fn => Sys2Proof.Machine.execPartset fn s
  | .partget fn => Sys2Proof.Machine.execPartget fn s
  | .capset fn => Sys2Proof.Machine.execCapset fn s
  | .capget fn => Sys2Proof.Machine.execCapget fn s
  | .measure fn => Sys2Proof.Machine.execMeasure fn s
  | .idkey fn => Sys2Proof.Machine.execIdkey fn s
  | .quote fn => Sys2Proof.Machine.execQuote fn s
  | .config fn => Sys2Proof.Machine.execConfig fn s
  | .mrext fn => Sys2Proof.Machine.execMrext fn s
  | .fwupd fn => Sys2Proof.Machine.execFwupd fn s
  | .fwstat fn => Sys2Proof.Machine.execFwstat fn s
  | .restart fn => Sys2Proof.Machine.execRestart fn s
  | .flitWrite port f => Sys2Proof.Machine.execFlitWrite port f s
  | .flitReadRequest port f => Sys2Proof.Machine.execFlitReadRequest port f s
  | .flitReadData port f => Sys2Proof.Machine.execFlitReadData port f s
  | .flitAtomic port f => Sys2Proof.Machine.execFlitAtomic port f s
  | .flitAtomicResult port f => Sys2Proof.Machine.execFlitAtomicResult port f s
  | .flitReduceData port f => Sys2Proof.Machine.execFlitReduceData port f s
  | .flitCompletion port f => Sys2Proof.Machine.execFlitCompletion port f s
  | .flitTick port f => Sys2Proof.Machine.execFlitTick port f s
  | .flitControl port f => Sys2Proof.Machine.execFlitControl port f s
  | .portDown port => Sys2Proof.Machine.execPortDown port s
  | .tickFlitSend => Sys2Proof.Machine.execTickFlitSend s
  | .linkTrain port peer skewOk => Sys2Proof.Machine.execLinkTrain port peer skewOk s
  | .tickAdvance => Sys2Proof.Machine.execTickAdvance s
  | .governorStep cl step => Sys2Proof.Machine.execGovernorStep cl step s
  | .powerGood => Sys2Proof.Machine.execPowerGood s
  | .powerLoss => Sys2Proof.Machine.execPowerLoss s
  | .stageFEntry => Sys2Proof.Machine.execStageFEntry s
  | .stageMEntry ok modNum modCount => Sys2Proof.Machine.execStageMEntry ok modNum modCount s
  | .stageAEntry => Sys2Proof.Machine.execStageAEntry s
  | .sessionOpen part => Sys2Proof.Machine.execSessionOpen part s
  | .sessionRound part => Sys2Proof.Machine.execSessionRound part s
  | .sessionDraft part chain => Sys2Proof.Machine.execSessionDraft part chain s
  | .sessionVerify part chain => Sys2Proof.Machine.execSessionVerify part chain s
  | .sessionDecide part => Sys2Proof.Machine.execSessionDecide part s
  | .sessionCommit part => Sys2Proof.Machine.execSessionCommit part s
  | .outputEntryWrite part => Sys2Proof.Machine.execOutputEntryWrite part s
  | .sessionClose part => Sys2Proof.Machine.execSessionClose part s
  | .configSpaceWrite fn r v => Sys2Proof.Machine.execConfigSpaceWrite fn r v s
  | .pcieCompletion id c => Sys2Proof.Machine.execPcieCompletion id c s
  | .completionTimeout id => Sys2Proof.Machine.execCompletionTimeout id s
  | .shootdownTimeout mods => Sys2Proof.Machine.execShootdownTimeout mods s

end Sys2Proof.Machine
end

