-- ==== Sys2Proof/WellFormed.lean ====
section
/-! DEFINITION. Which operations are well formed: an engine's word passes every check of R129 in its engine's map, an
Assayer word passes R270 and R271, and a device operation names units that exist. -/

namespace Sys2Proof

/-- The operation field of `lreg`, `htab` and `fwin` is 0 for CREATE, MAP and SET, or a value that names no operation
and that R332 answers with BADARG. -/
def opFieldOk (i : Instr) : Bool :=
  match i with
  | .lregCreate _ _ _ x => x == 0 || decide (5 ≤ x.toNat)
  | .htabMap _ _ _ x => x == 0 || decide (4 ≤ x.toNat)
  | .fwinSet _ _ _ x => x == 0 || decide (3 ≤ x.toNat)
  | _ => true

/-- A device operation names a core below 320 (R9), a queue below 256 (R334), a cluster below 20 (R9), a function of
the five (R390), a partition of the four (R373) or a port of the three (R397). -/
def eventOk (i : Instr) : Bool :=
  match i with
  | .fenceComplete c | .waitwPoll c | .twaitExpiry c | .nopreOverrun c | .signalAdd c | .phase2Complete c
  | .hmcPairArrival c _ | .commandComplete c _ | .stampedStart c _ | .lodePageRead c _ | .sectionHeaderExamine c _
  | .steerTargetPop c _ | .joinRendezvous c _ | .retireForTile c _ | .tokenDeadlock c => decide (c < 320)
  | .leaseGrant cl | .leaseHandOver cl | .thermalMigration cl _ => decide (cl < 20)
  | .governorStep cl st => decide (cl < 20) && decide (st < 8)
  | .reserveRead f q | .commitWrite f q _ | .queueEnable f q | .queueDestroy f q _ => decide (f < 5) && decide (q < 256)
  | .recordTake q | .waitEvaluation q | .recordComplete q | .completionEntryWrite q | .deadlineExpiry q => decide (q < 256)
  | .sessionOpen p | .sessionRound p | .sessionDraft p _ | .sessionVerify p _ | .sessionDecide p | .sessionCommit p
  | .outputEntryWrite p | .sessionClose p | .pageRequestResponse p _ _ => decide (p < 4)
  | .registerWrite f _ _ | .hostWrite f _ _ | .hostRead f _ _ | .hostAtomicop f _ | .sessionDoorbell f _ | .ident f
  | .health f | .reloadq f | .partset f | .partget f | .capset f | .capget f | .measure f | .idkey f | .quote f
  | .config f | .mrext f | .fwupd f | .fwstat f | .restart f | .configSpaceWrite f _ _ => decide (f < 5)
  | .flitWrite p _ | .flitReadRequest p _ | .flitReadData p _ | .flitAtomic p _ | .flitAtomicResult p _
  | .flitReduceData p _ | .flitCompletion p _ | .flitTick p _ | .flitControl p _ | .portDown p | .linkTrain p _ _ =>
    decide (p < 3)
  | _ => true

/-- The engine in whose map an operation outside the common subset has its word (R123–R127). -/
def mapOf (i : Instr) : Eng :=
  match i with
  | .vld _ _ _ _ _ _ _ | .vldSp _ _ _ _ _ _ _ | .vst _ _ _ _ _ _ | .vstSp _ _ _ _ _ _ | .vldr _ _ _ _ _ _ _ _
  | .vstr _ _ _ _ _ _ | .vldx _ _ _ _ _ _ _ | .vmodeRd _ _ | .vmodeWr _ _ | .vflagsRd _ _ | .vflagsWr _ _
  | .vadd _ _ _ _ _ _ _ | .vsub _ _ _ _ _ _ _ | .vmul _ _ _ _ _ _ _ | .vmin _ _ _ _ _ _ _ | .vmax _ _ _ _ _ _ _
  | .vabs _ _ _ _ _ | .vneg _ _ _ _ _ | .vcmp _ _ _ _ _ _ _ | .vfma _ _ _ _ _ _ _ | .vfms _ _ _ _ _ _ _
  | .vfnma _ _ _ _ _ _ _ | .vdiv _ _ _ _ _ _ _ | .vclass _ _ _ _ _ _ | .vrint _ _ _ _ _ _ | .vscale _ _ _ _ _ _ _
  | .vmulh _ _ _ _ _ _ | .vshl _ _ _ _ _ _ | .vshr _ _ _ _ _ _ | .vsar _ _ _ _ _ _ | .vand _ _ _ _ _ _
  | .vor _ _ _ _ _ _ | .vxor _ _ _ _ _ _ | .vnot _ _ _ _ _ | .vpopc _ _ _ _ _ | .vclz _ _ _ _ _
  | .vdot4 _ _ _ _ _ _ _ | .vcvt _ _ _ _ _ _ _ | .vqntBlk _ _ _ _ _ _ | .vqntS _ _ _ _ _ _ _
  | .vdqntBlk _ _ _ _ _ _ | .vdqntS _ _ _ _ _ _ _ | .vplanePk _ _ _ _ _ | .vplaneUn _ _ _ _ _ | .vrot _ _ _ _ _ _ _
  | .vbcast _ _ _ _ _ _ _ | .vred _ _ _ _ _ _ _ _ | .vscan _ _ _ _ _ _ _ _ | .vsred _ _ _ _ _ _ _ | .kand _ _ _ _
  | .kor _ _ _ _ | .kxor _ _ _ _ | .knot _ _ _ | .kpopc _ _ _ | .kffs _ _ _ | .krl _ _ _ _ _ | .kmov _ _ _
  | .kmovSet _ _ | .kmovClr _ _ | .kmovFirst _ _ _ | .vext _ _ _ _ _ | .vins _ _ _ _ _ | .vmov _ _ _ _ _
  | .vmovBc _ _ _ _ _ | .vsel _ _ _ _ _ _ | .vexp _ _ _ _ _ _ | .vexpApx _ _ _ _ _ _ | .vexp2 _ _ _ _ _ _
  | .vexp2Apx _ _ _ _ _ _ | .vexpm1 _ _ _ _ _ _ | .vexpm1Apx _ _ _ _ _ _ | .vlog _ _ _ _ _ _ | .vlogApx _ _ _ _ _ _
  | .vlog2 _ _ _ _ _ _ | .vlog2Apx _ _ _ _ _ _ | .vlog1p _ _ _ _ _ _ | .vlog1pApx _ _ _ _ _ _ | .vrcp _ _ _ _ _ _
  | .vrcpApx _ _ _ _ _ _ | .vsqrt _ _ _ _ _ _ | .vsqrtApx _ _ _ _ _ _ | .vrsqrt _ _ _ _ _ _
  | .vrsqrtApx _ _ _ _ _ _ | .vsin _ _ _ _ _ _ | .vsinApx _ _ _ _ _ _ | .vcos _ _ _ _ _ _ | .vcosApx _ _ _ _ _ _
  | .vtanh _ _ _ _ _ _ | .vtanhApx _ _ _ _ _ _ | .vlogistic _ _ _ _ _ _ | .vlogisticApx _ _ _ _ _ _ => .v
  | .leaseAcq _ _ | .leaseRel _ | .leaseSt _ _ | .odSetSp _ _ _ _ | .odSetV _ _ _ _ | .odSetM _ _ _ _
  | .mma _ _ _ _ _ _ _ _ | .accZero _ _ | .accSwap _ _ | .accRd _ _ _ _ | .accFlag _ _ _ => .m
  | .hcp _ _ _ _ | .hgat _ _ _ _ _ | .hsct _ _ _ _ _ | .hmc _ _ _ _ | .hmcSig _ _ _ _ | .hlay _ _ _ _ _ _
  | .hfill _ _ _ _ _ | .hpub _ _ _ _ | .cqInit _ _ _ _ | .cqAck _ _ _ | .lodeAct _ _ _ _
  | .lodeSacc _ _ _ _ _ _ _ _ | .lodeDrain _ _ _ _ | .lodeDrainRaw _ _ _ _ | .lodeIred _ _ _ _ | .lodeStat _ _ _ _
  | .linkSend _ _ _ _ _ | .linkRed _ _ _ _ _ | .rdlOpen _ _ _ _ _ | .rdlMask _ _ _ _ _ | .rdlMaskM _ _ _ _ _
  | .rdlStep _ _ _ _ _ | .rdlFork _ _ _ _ | .rdlKeep _ _ _ _ | .rdlDrop _ _ _ _ | .rdlSave _ _ _ _ _
  | .rdlLoad _ _ _ _ _ | .asyBind _ _ _ _ _ | .asyRun _ _ _ _ _ | .asyStat _ _ _ _ _ => .h
  | _ => .c

/-- A well-formed operation; an engine's word is judged in the map of engine `g`, which must be its own. -/
def WellFormed (g : Eng) (i : Instr) : Bool :=
  match encodeRaw i, encodeAsyRaw i with
  | some r, _ => decide (checkWord g r = .ok ()) && opFieldOk i && (decide (r.op.toNat < 0x20) || mapOf i == g)
  | none, some r => asyWordOk r
  | none, none => eventOk i

end Sys2Proof
end

