-- ==== Sys2Proof/Machine/Turn.lean ====
section
/-! DEFINITION. One turn of the machine: an engine examines a header or issues the word at its PC (R19–R41), an Assayer
runs one word, a store performs (R97), an element of a copy moves (R86), a part of a load or store goes ahead (R79, R180), answers leave (R365), a DRAM error strikes (R89), a block
is read at the mount (R382), or an operation or event of the device takes place. -/

namespace Sys2Proof.Machine

/-- In a steer section the last word is a posting word (R28). -/
def steerTail (s : State) (g : Eng) (r : RawWord) : Bool :=
  !(g == .c && secKind s == 1 && lastWord s) || [0x41, 0x42, 0x43].contains r.op.toNat

/-- The word that an engine issues now: the word at PC, stepped inside a repeat (R39). -/
def curWord (s : State) : Except FInfo RawWord :=
  match fetchText s (curEng s).pc 12 with
  | .error f => .error f
  | .ok l =>
    let r := unpackWord (BitVec.ofNat 96 (leNat l))
    .ok (if (curEng s).rst.active then stepWord r (curEng s).rst else r)

/-- The executing engine decodes and runs the word at its PC; a word that does not decode is an illegal encoding
(R129). That it faults when the engine reaches it, whatever FIFO its POP names, is the model's choice (log entry 119). -/
def wordTurn (s : State) : Out :=
  let g := s.cur.eng
  match curWord s with
  | .error f => .next (fatalHere (fetchReport s (curWho s .core) 0 f (textFails s (curEng s).pc 12)) f)
  | .ok r =>
    if !steerTail s g r then .next (fatalHere s fIllegal)
    else
      match decodeRaw g r with
      | .error _ => .next (fatalHere s fIllegal)
      | .ok i => exec i s

/-- The turn of an engine. While its team is HALTING, only a load or atomic in flight goes on (R315 step 4). -/
def engineTurn (core : Nat) (g : Eng) (s : State) : Out :=
  if 320 ≤ core then .fault (.noSuchCore core)
  else
    let s := onEng s core g
    let e := curEng s
    if !((curTeam s).st == .running || ((curTeam s).st == .halting && engInFlight s)) || e.retired then .next s
    else
      match e.sec with
      | none => .next (headerStep s)
      | some x =>
        if secEnd x ≤ e.pc then .next (retireTile s core g)
        else if e.pushpend && e.rst.active && e.rst.remain == 0 then .next (afterWord s (repPush s) .seq)
        else wordTurn s

/-- The turn of an engine whose load or store makes one of its parts ahead of the others (R79, R180); any other word is issued as
in a turn of its own. -/
def partTurn (core : Nat) (g : Eng) (i : Nat) (s : State) : Out :=
  let mark (n : Option Nat) (s : State) : State := { upCurEng (onEng s core g) (fun e => { e with reply := { e.reply with part := n } }) with cur := s.cur }
  if 320 ≤ core then .fault (.noSuchCore core)
  else if (curTeam (onEng s core g)).st == .running || engInFlight (onEng s core g) then
    match engineTurn core g (mark (some i) s) with
    | .next t => .next (mark none t)
    | x => x
  else .next s

/-- A turn. An event that names no unit of the device leaves the state as it is. -/
def takeTurn (t : Turn) (s : State) : Out :=
  match t with
  | .engine core g => engineTurn core g s
  | .assayer u => if u < 4 then asyTurn s u else .next s
  | .perform core k => .next (performNth s core k)
  | .move core q => .next (moveTurn core q s)
  | .answer => .next (sendAnswers s)
  | .dram pa lost => .next (dramError s pa lost)
  | .scan blk => .next (mountScan s blk)
  | .part core g i => partTurn core g i s
  | .event i => if (encodeRaw i).isNone && (encodeAsyRaw i).isNone && eventOk i then exec i s else .next s

/-- The turn that comes next and the state without it: the plan's first, or a free one (log entry 1). -/
def nextTurn (s : State) : Turn × State :=
  match s.sched with
  | t :: r => (t, { s with sched := r })
  | [] => (Config.freeTurn s.free, { s with free := s.free + 1 })

/-! ## Placing one instruction -/

/-- The engine in whose map a word is read: the first of C, V, M and H that accepts it. -/
def wordEng (w : BitVec 96) : Eng :=
  let ok (g : Eng) : Bool := match checkWord g (unpackWord w) with | .ok _ => true | .error _ => false
  if ok .c then .c else if ok .v then .v else if ok .m then .m else .h

/-- The kind and length of the section that a word needs around it: a posting word closes a steer section, `br` stands
before the last word of one, `textsync` belongs to a join section, and `rep` needs a word after it. -/
def wordSec (op : Nat) (g : Eng) : Nat × Nat :=
  if g = .c ∧ (op = 0x41 ∨ op = 0x42 ∨ op = 0x43) then (1, 1)
  else if g = .c ∧ op = 0x40 then (1, 2)
  else if g = .c ∧ op = 0x6A then (3, 1)
  else if op = 1 then (0, 2)
  else (0, 1)

/-- A running team of one core, whose named engine stands at the word, which text offset 8 holds. The Foreman team runs
privileged words on core 0, a user team runs the others on core 2. -/
def placeWord (s : State) (w : BitVec 96) : State :=
  let g := wordEng w
  let op := (unpackWord w).op.toNat
  let fore := g == .c && decide (0xE0 ≤ op)
  let core := if fore then 0 else 2
  let tid := if fore then 0x3FE else 0
  let p := wordSec op g
  let text : SMap (Option TByte) := (List.range 24).map (fun i => (8 + i, some (.byte (BitVec.ofNat 8 (if i < 12 then w.toNat / 2 ^ (8 * i) else 0)))))
  let e : EngSt := { pc := 8, sec := some { off := 0, kind := p.1, tag := engNum g, len := p.2 } }
  let s := setCore s core (setEngSt { tid := tid, tnew := text } g e)
  let s := setTeam s tid { st := .running, cores := [core], text := 1, nbar := 2, nopre := 1000 }
  { s with sched := [.engine core g] }


/-- A run of Assayer 0 on its context 0, bound and active, whose text holds one word in the pair store of pair 1. -/
def placeAsy (s : State) (w : Nat) : State :=
  let s := wrRun s (pairBase + 2 ^ 23) (leBytes 4 w)
  let s := setAsyCtx s 0 0 { asyCtx s 0 0 with bound := true, retired := false }
  let s := startRun s 0 { core := 2, prog := BitVec.ofNat 64 (0xFFFE * 2 ^ 48 + 2 ^ 23) }
  { s with sched := [.assayer 0] }

/-- An instruction of a table row placed: a row of at most 32 bits is an Assayer word, a longer one an engine word. -/
def placeInstr (s : State) (nbits w : Nat) : State := if nbits ≤ 32 then placeAsy s w else placeWord s (BitVec.ofNat 96 w)

end Sys2Proof.Machine
end

