-- ==== Sys2Proof/Safety.lean ====
section
/-! DEFINITION. What claims call a good state, a safe step, a word that comes to its effect, and an unchanged part of the
state. -/

namespace Sys2Proof.Machine

/-- Memory and the level cache stand in canonical form; at most 64 fault records are held (R309); LOG2N of the fault
queue is 0 or 2–12 and LOST at most 255 (R323). -/
def State.Good (s : State) : Prop :=
  Memory.wf s.mem = true ∧ SMap.wf none s.lc = true ∧ s.fqHeld.length ≤ 64 ∧
  (s.fqLog = 0 ∨ (2 ≤ s.fqLog ∧ s.fqLog ≤ 12)) ∧ s.fqLost ≤ 255

/-- A core within its bounds: 15 tokens in a FIFO (R33), four targets in a path queue (R28), 64 repetitions to go (R38, R330) and 16
commands in a queue (R236). -/
def Core.Bounded (c : Core) : Prop :=
  (∀ f, (fifoAt c f).length ≤ 15) ∧ (∀ g, (engSt c g).pathq.length ≤ 4 ∧ (engSt c g).rst.remain ≤ 64) ∧ ∀ q, (getQ c q).length ≤ 16

/-- Every core stands within its bounds, on the device and in the image of a saved team. -/
def State.Bounded (s : State) : Prop :=
  (∀ n, (coreAt s n).Bounded) ∧ ∀ t l c, (teamAt s t).image = some l → c ∈ l → c.Bounded

/-- An outcome whose next state is good. -/
def GoodOut (r : Out) : Prop :=
  match r with
  | .next s => s.Good
  | .fault _ => True
  | .refused _ => True

/-- A step that neither stops the machine nor is refused. -/
def SafeStep (s : State) : Prop := ∃ t, step s = .next t

/-! ## A word and its effect -/

/-- The executing engine's word comes to its effect: it does not stand at its pushes, the tokens it pops are there unless
it has popped them, and it is live (R29, R34, R142). -/
def Ready (s : State) (h : Hd) : Prop :=
  (curEng s).pushpend = false ∧ ((curEng s).issued = true ∨ popBlocked (curCore s) s.cur.eng h.pop = none) ∧
  liveWord (curEng s) h = true

/-- The state in which a word takes effect: its tokens popped, once (R34). -/
def atHand (s : State) (h : Hd) : State :=
  if (curEng s).issued then s else upCur s (fun c => (popTokens c s.cur.eng h.pop).1)

/-- A word past its effect: it pushes and retires, or waits to push (R34). -/
def goesOn (h : Hd) (s : State) (w : WordDef := { eff := .done }) : State :=
  retireWord (upCurEng s (fun e => { e with reply := {} })) h (repPush s) true w

/-- A nullified word: it pops and pushes, and has no effect (R29). -/
def passedOver (h : Hd) (s : State) (w : WordDef := { eff := .done }) : State := retireWord s h (repPush s) false w

/-! ## What stays -/

/-- Every byte of the module's memory and its checks read as before. -/
def SameMemory (s t : State) : Prop := ∀ k, rdByte t k = rdByte s k ∧ badByte t k = badByte s k

/-- Nothing but the executing core has changed. -/
def OnlyCore (s t : State) : Prop :=
  t = { s with cores := t.cores } ∧ ∀ n, n ≠ s.cur.core → coreAt t n = coreAt s n

/-- A core but for its engine blocks, FIFOs and scalar registers, and what the end of a join section settles: the text it
refetched and the accesses before it (R96, R114). -/
def coreRest (c : Core) : Core :=
  { c with ec := {}, ev := {}, em := {}, eh := {}, fifos := [], x := [], sv := [], sm := [], sh := [], tnew := [], tsync := [],
           jlast := none, jseen := {} }

/-- No join section ended, so the text that was refetched and the accesses before the last join are as before. -/
def joinKept (c d : Core) : Prop := d.tnew = c.tnew ∧ d.tsync = c.tsync ∧ d.jlast = c.jlast ∧ d.jseen = c.jseen

/-- Of the executing core, only the executing engine's block, its FIFOs and scalar registers that `may` names have
changed; its predicates but those that `mayP` names are as before. -/
def ScalarFrame (s t : State) (may : Nat → Prop) (mayP : Nat → Prop) : Prop :=
  OnlyCore s t ∧ SameMemory s t ∧ coreRest (curCore t) = coreRest (curCore s) ∧
  (secKind s ≠ 3 → joinKept (curCore s) (curCore t)) ∧
  (∀ g r, g ≠ s.cur.eng ∨ ¬ may r → getScal (curCore t) g r = getScal (curCore s) g r) ∧
  (∀ g, g ≠ s.cur.eng → engSt (curCore t) g = engSt (curCore s) g) ∧
  (∀ p, p < 7 → ¬ mayP p → getPred (curEng t) p = getPred (curEng s) p)

end Sys2Proof.Machine
end

