-- ==== Sys2Proof/Certificates/Slice0/Obligations.lean ====
section
/-! DEFINITION. The statements for the provers: what the words, the events and a step of the machine do, by the numbered
rules of spec/. A `Claim` is a part of the statement that names it. -/

namespace Sys2Proof.Machine

/-! ## Words of every engine: scalar registers, predicates, tokens -/

/-- The header and destination of a word that changes, besides its engine's block and FIFOs, one scalar register or
nothing. -/
def scalarDest : Instr → Option (Hd × Option Reg)
  | .nop h | .tsend h _ => some (h, none)
  | .movi h d _ | .moviHi h d _ | .mov h d _ | .add h d _ _ | .sub h d _ _ | .addi h d _ _ | .shl h d _ _ | .shr h d _ _
  | .sar h d _ _ | .and h d _ _ | .or h d _ _ | .xor h d _ _ | .sel h d _ _ _ | .trecv h d | .mul h _ d _ _ | .mulh h _ d _ _
  | .div h _ d _ _ | .rem h _ d _ _ | .min h _ d _ _ | .max h _ d _ _ | .clz h d _ | .popc h d _ | .bfx h _ d _ _
  | .bfi h _ d _ _ _ | .tickRead h d | .vmodeRd h d | .vflagsRd h d | .kpopc h d _ | .kffs h d _ | .vext h _ d _ _
  | .leaseSt h d => some (h, some d)
  | _ => none

/-- The header and destination of a word that changes, besides its engine's block and FIFOs, one predicate. -/
def predDest : Instr → Option (Hd × Reg)
  | .cmp h _ d _ _ | .pand h d _ _ | .por h d _ _ | .pxor h d _ _ | .pnot h d _ | .pmov h d _ => some (h, d)
  | _ => none

/-- The relations of `cmp` on numbers (R143). -/
def relHolds (r : CmpRel) (a b : Word) : Prop :=
  match r with
  | .eq => a = b
  | .ne => a ≠ b
  | .lt => a.toInt < b.toInt
  | .le => a.toInt ≤ b.toInt
  | .ltu => a.toNat < b.toNat
  | .leu => a.toNat ≤ b.toNat

/-- An operand under its type: a signed number for I types, else an unsigned one (R146). -/
def typed (ty : ETy) (x : Word) : Int := if ty = .i64 ∨ ty = .i32 then x.toInt else x.toNat

/-- A location whose byte is held, not decoded or a queue's: outside the apertures of the format windows and the queue page. -/
def held (k : Nat) : Prop := ¬ (apBase ≤ k ∧ k < apTop) ∧ inPage k = false

/-- The page-table bytes in which the pages of an access of `n` bytes are marked as accessed (R364): the entry of the page, and
that of the next page, which the stream may fetch ahead. -/
def markedBy (s : State) (w : Who) (addr n k : Nat) : Prop :=
  ∃ x e, (x = addr ∨ x = addr + (n - 1)) ∧ htAt s w.part w.ctx (x / 2 ^ 48 % 65536) = some e ∧
    (k = pteAddr (backing e false) (x % 2 ^ 48) + 8 ∨ k = pteAddr (backing e false) (x % 2 ^ 48 + 2 ^ 21) + 8)

/-- A location that a store not yet performed of the executing core writes. -/
def heldStore (s : State) (k : Nat) : Prop := ∃ p ∈ (curCore s).stq, ∃ b ∈ p.bytes, b.1 = k

/-- The word at hand stands alone: no repeat is under way and its pushes have room. -/
def Single (s : State) (h : Hd) : Prop := (curEng s).rst.active = false ∧ pushBlocked (curCore s) s.cur.eng h.push = none

/-- A FIFO to engine `f` after the executing engine has pushed a token laden with `v` where PUSH names `f` (R34). -/
def pushedTo (s : State) (h : Hd) (v : Option Word) (f : Nat) : List Token :=
  fifoAt (curCore s) (fifoNum (engNum s.cur.eng) f) ++
    (if f ∈ namedEngs s.cur.eng h.push then [{ laden := v, clk := (curEng s).seen }] else [])

end Sys2Proof.Machine

open Sys2Proof Sys2Proof.Machine

/-- From R143: a word that moves or adds runs to its end and leaves in D what the common subset gives it; `nop` only goes
on. -/
def Claim.MovesAndSums : Prop :=
  ∀ (s : State) (h : Hd) (d a b e : Reg) (imm : W32), Ready s h →
    let p := atHand s h
    exec (.nop h) s = .next (goesOn h p) ∧
    exec (.movi h d imm) s = .next (goesOn h (wr p d (imm.signExtend 64))) ∧
    exec (.moviHi h d imm) s = .next (goesOn h (wr p d (imm ++ (rd p d).extractLsb' 0 32))) ∧
    exec (.mov h d a) s = .next (goesOn h (wr p d (rd p a))) ∧
    exec (.add h d a b) s = .next (goesOn h (wr p d (rd p a + rd p b))) ∧
    exec (.sub h d a b) s = .next (goesOn h (wr p d (rd p a - rd p b))) ∧
    exec (.addi h d a imm) s = .next (goesOn h (wr p d (rd p a + imm.signExtend 64))) ∧
    exec (.sel h d a b e) s = .next (goesOn h (wr p d (if rdP p e then rd p a else rd p b)))

/-- From R144: a shift by m, the whole of register B or an immediate of six bits, as exact arithmetic. -/
def Obligations.ShiftsByAnyAmount : Prop :=
  ∀ (s : State) (h : Hd) (d a : Reg) (sh : Shamt), Ready s h →
    let p := atHand s h
    let m := match sh with | .reg b => (rd p b).toNat | .imm n => n.toNat % 64
    ∃ x y z : Word,
      exec (.shl h d a sh) s = .next (goesOn h (wr p d x)) ∧ x.toNat = (rd p a).toNat * 2 ^ m % 2 ^ 64 ∧
      exec (.shr h d a sh) s = .next (goesOn h (wr p d y)) ∧ y.toNat = (rd p a).toNat / 2 ^ m ∧
      exec (.sar h d a sh) s = .next (goesOn h (wr p d z)) ∧ z.toInt = (rd p a).toInt / 2 ^ m ∧
      (64 ≤ m → x = 0 ∧ y = 0 ∧ z = if (rd p a).getLsbD 63 then BitVec.allOnes 64 else 0)

/-- From R143: bitwise words, comparisons and predicate words run to their end with the bits and relations the table
gives. -/
def Obligations.LogicAndPredicates : Prop :=
  ∀ (s : State) (h : Hd) (d a b : Reg) (r : CmpRel), Ready s h →
    let p := atHand s h
    exec (.and h d a b) s = .next (goesOn h (wr p d (rd p a &&& rd p b))) ∧
    exec (.or h d a b) s = .next (goesOn h (wr p d (rd p a ||| rd p b))) ∧
    exec (.xor h d a b) s = .next (goesOn h (wr p d (rd p a ^^^ rd p b))) ∧
    (∃ x, exec (.cmp h r d a b) s = .next (goesOn h (wrP p d x)) ∧ (x = true ↔ relHolds r (rd p a) (rd p b))) ∧
    exec (.pand h d a b) s = .next (goesOn h (wrP p d (rdP p a && rdP p b))) ∧
    exec (.por h d a b) s = .next (goesOn h (wrP p d (rdP p a || rdP p b))) ∧
    exec (.pxor h d a b) s = .next (goesOn h (wrP p d (rdP p a ^^ rdP p b))) ∧
    exec (.pnot h d a) s = .next (goesOn h (wrP p d (!rdP p a))) ∧
    exec (.pmov h d a) s = .next (goesOn h (wrP p d (rdP p a)))

/-- From R146: the integer words of C over exact numbers. Division has its corners in a statement of its own. -/
def Claim.IntegerArithmetic : Prop :=
  ∀ (s : State) (h : Hd) (ty : ETy) (d a b : Reg), Ready s h → ty = .i64 ∨ ty = .n64 →
    let p := atHand s h
    exec (.mul h ty d a b) s = .next (goesOn h (wr p d (rd p a * rd p b))) ∧
    (∃ x : Word, exec (.mulh h ty d a b) s = .next (goesOn h (wr p d x)) ∧
      typed ty x = typed ty (rd p a) * typed ty (rd p b) / 2 ^ 64) ∧
    (∃ x : Word, exec (.min h ty d a b) s = .next (goesOn h (wr p d x)) ∧
      typed ty x = min (typed ty (rd p a)) (typed ty (rd p b))) ∧
    (∃ x : Word, exec (.max h ty d a b) s = .next (goesOn h (wr p d x)) ∧
      typed ty x = max (typed ty (rd p a)) (typed ty (rd p b))) ∧
    (∃ x : Word, exec (.clz h d a) s = .next (goesOn h (wr p d x)) ∧
      x.toNat ≤ 64 ∧ (∀ i, i < 64 → 64 ≤ i + x.toNat → (rd p a).getLsbD i = false) ∧
      (x.toNat < 64 → (rd p a).getLsbD (63 - x.toNat) = true)) ∧
    (∃ x : Word, exec (.popc h d a) s = .next (goesOn h (wr p d x)) ∧
      x.toNat = ((List.range 64).filter (fun i => (rd p a).getLsbD i)).length)

/-- From R147: division truncates toward zero and the remainder follows a; a zero divisor gives all ones and a; the
quotient of the least number by −1 is that number and its remainder 0. Neither word stops on any operand. -/
def Obligations.DivisionAndItsCorners : Prop :=
  ∀ (s : State) (h : Hd) (ty : ETy) (d a b : Reg), Ready s h → ty = .i64 ∨ ty = .n64 →
    let p := atHand s h
    ∃ q r : Word,
      exec (.div h ty d a b) s = .next (goesOn h (wr p d q)) ∧ exec (.rem h ty d a b) s = .next (goesOn h (wr p d r)) ∧
      (rd p b = 0 → q = 0xFFFFFFFFFFFFFFFF ∧ r = rd p a) ∧
      (ty = .i64 → rd p a = 0x8000000000000000 → rd p b = 0xFFFFFFFFFFFFFFFF → q = 0x8000000000000000 ∧ r = 0) ∧
      (rd p b ≠ 0 → ¬ (ty = .i64 ∧ rd p a = 0x8000000000000000 ∧ rd p b = 0xFFFFFFFFFFFFFFFF) →
        typed ty q = (typed ty (rd p a)).tdiv (typed ty (rd p b)) ∧
        typed ty r = typed ty (rd p a) - typed ty (rd p b) * typed ty q)

/-- From R148: `bfx` and `bfi` bit by bit, for a field that lies within the register. -/
def Claim.BitFields : Prop :=
  ∀ (s : State) (h : Hd) (ty : ETy) (d a b : Reg) (imm : W32), Ready s h → ty = .i64 ∨ ty = .n64 →
    let p := atHand s h
    let pos := imm.toNat % 64
    let w := imm.toNat / 256 % 64 + 1
    pos + w ≤ 64 →
    (∃ x : Word, exec (.bfx h ty d a imm) s = .next (goesOn h (wr p d x)) ∧
      ∀ i, i < 64 → x.getLsbD i =
        if i < w then (rd p a).getLsbD (pos + i) else (ty == .i64 && (rd p a).getLsbD (pos + w - 1))) ∧
    (∃ x : Word, exec (.bfi h ty d a b imm) s = .next (goesOn h (wr p d x)) ∧
      ∀ i, i < 64 → x.getLsbD i =
        if pos ≤ i ∧ i < pos + w then (rd p a).getLsbD (i - pos) else (rd p b).getLsbD i)

/-- From R145: `tsend` runs to its end and pushes a token laden with a, or with 0 where it is nullified; `trecv` runs to its
end and writes what the token it pops carries, 0 for a plain one. -/
def Claim.LadenTokens : Prop :=
  ∀ (s : State) (h : Hd) (d a : Reg),
    let p := atHand s h
    let g := s.cur.eng
    let sends : WordDef := { eff := .done, pay := fun live q => some (if live then rd q a else 0) }
    (Ready s h → exec (.tsend h a) s = .next (goesOn h p sends)) ∧
    (Ready s h → Single s h → ∃ t, exec (.tsend h a) s = .next t ∧ (curEng t).issued = false ∧ (curEng t).pushpend = false ∧
      ∀ f, f < 4 → f ≠ engNum g → fifoAt (curCore t) (fifoNum (engNum g) f) = pushedTo p h (some (rd p a)) f) ∧
    ((curEng s).pushpend = false → liveWord (curEng s) h = false →
      (curEng s).issued = true ∨ popBlocked (curCore s) g h.pop = none → Single s h →
      ∃ t, exec (.tsend h a) s = .next t ∧
        ∀ f, f < 4 → f ≠ engNum g → fifoAt (curCore t) (fifoNum (engNum g) f) = pushedTo p h (some 0) f) ∧
    (Ready s h → exec (.trecv h d) s = .next (goesOn h (wr p d (popPayload s h)))) ∧
    (∀ f tok rest, (curEng s).issued = false → namedEngs g h.pop = [f] →
      fifoAt (curCore s) (fifoNum f (engNum g)) = tok :: rest →
      popPayload s h = tok.laden.getD 0 ∧ fifoAt (curCore p) (fifoNum f (engNum g)) = rest)

/-- From R34: a word with room for its pushes appends one token, laden with its payload, to each FIFO that PUSH names and
to no other FIFO out of its engine, and leaves no trace of its issue; without room it waits and holds its effect. -/
def Claim.PushesOfAWord : Prop :=
  ∀ (s : State) (h : Hd) (w : WordDef), (∀ p, w.post p = p) → (curEng s).rst.active = false →
    let g := s.cur.eng
    let c := curCore s
    (pushBlocked c g h.push = none →
      let t := goesOn h s w
      (∀ f, f < 4 → f ≠ engNum g → fifoAt (curCore t) (fifoNum (engNum g) f) =
        pushedTo s h (w.pay true (upCurEng s (fun e => { e with reply := {} }))) f) ∧
      (curEng t).issued = false ∧ (curEng t).pushpend = false ∧ (curEng t).wait = {}) ∧
    (∀ f, pushBlocked c g h.push = some f →
      let t := goesOn h s w
      (curEng t).pushpend = true ∧ (curEng t).pc = (curEng s).pc ∧ (curCore t).fifos = c.fifos)

/-- From R29, R140 and R143: besides its engine's block and FIFOs, a word that writes one scalar register changes that
register alone, and X0 not even then; a nullified one changes none. -/
def Claim.ScalarWordFrame : Prop :=
  ∀ (i : Instr) (s t : State) (h : Hd) (d : Option Reg), scalarDest i = some (h, d) → exec i s = .next t →
    ScalarFrame s t (fun r => d.map BitVec.toNat = some r ∧ liveWord (curEng s) h = true ∧ (s.cur.eng = .c → r ≠ 0)) (fun _ => False)

/-- From R29 and R143: besides its engine's block and FIFOs, a word that writes a predicate changes that predicate alone,
and a nullified one changes none. -/
def Claim.PredicateWordFrame : Prop :=
  ∀ (i : Instr) (s t : State) (h : Hd) (d : Reg), predDest i = some (h, d) → exec i s = .next t →
    ScalarFrame s t (fun _ => False) (fun q => d.toNat = q ∧ liveWord (curEng s) h = true)

/-- From R140: X0 reads as 0 in C, and in the other engines register 0 is an ordinary one. -/
def Claim.RegisterZero : Prop :=
  ∀ (s : State) (v : Word),
    (s.cur.eng = .c → rd s 0 = 0 ∧ ∀ g r, getScal (curCore (wr s 0 v)) g r = getScal (curCore s) g r) ∧
    (s.cur.eng ≠ .c → rd (wr s 0 v) 0 = v)

/-- From R34 and R142: a word whose tokens are not there does not issue: its engine reports the wait and nothing else
changes. -/
def Claim.WordsWaitForTokens : Prop :=
  ∀ (i : Instr) (s : State) (h : Hd) (f : Nat), (scalarDest i).map (·.1) = some h ∨ (predDest i).map (·.1) = some h →
    (curEng s).pushpend = false → (curEng s).issued = false → popBlocked (curCore s) s.cur.eng h.pop = some f →
    exec i s = .next (upCurEng s (fun e => waitOn s.tick e 1 f 0))

namespace Sys2Proof.Machine

/-! ## Control words -/

/-- The pushes of the word at hand have room. -/
def Room (s : State) (h : Hd) : Prop :=
  pushBlocked (curCore s) s.cur.eng h.push = none ∧ ((curEng s).rst.active = false ∨ (curEng s).rst.remain ≠ 0)

/-- The word at x of this module may take a signal's sum: its address is aligned, its bytes translate to this module outside the
apertures, their checks hold, and the stores and commands before the signal are done (R107, R167). -/
def SignalReady (p : State) (a : Reg) (imm : W32) (x : Nat) (keys : List Nat) : Prop :=
  effAddr (rd p a) imm.toInt = some x ∧ x % 8 = 0 ∧ xlateRange p (curWho p .core) .a false x 8 = .ok keys ∧ keys.Nodup ∧
  (∀ k ∈ keys, isRemote k = false ∧ held k ∧ badByte p k = false) ∧ badWrite p keys = none ∧
  storesBefore p = [] ∧ cmdsBefore p ((curCore p).ql ++ (curCore p).qs ++ (curCore p).qd) = []

/-- Register b has been added to the 64-bit word whose bytes stand at `keys`, in one read and write; no other byte has changed
but those of the core's own earlier stores and the marks of the page. -/
def Added (p : State) (b : Reg) (x : Nat) (keys : List Nat) (old : Nat) (t : State) : Prop :=
  old < 2 ^ 64 ∧
  (∀ k ∈ keys, ¬ heldStore p k → ¬ markedBy p (curWho p .core) x 8 k → BitVec.ofNat 8 (old / 2 ^ (8 * keys.idxOf k)) = rdByte p k) ∧
  (∀ k ∈ keys, rdByte t k = BitVec.ofNat 8 ((old + (rd p b).toNat) % 2 ^ 64 / 2 ^ (8 * keys.idxOf k))) ∧
  (∀ k, held k → k ∉ keys → ¬ heldStore p k → ¬ markedBy p (curWho p .core) x 8 k → rdByte t k = rdByte p k) ∧
  ∀ g r, getScal (curCore t) g r = getScal (curCore p) g r

/-- The engines other than C. -/
def sideEngs : List Eng := [.v, .m, .h]

end Sys2Proof.Machine

/-- From R38–R41: a `rep` that stands before a word it may repeat starts IMM[5:0] + 1 repetitions of it with all offsets 0;
before any other it is an illegal encoding. After k repetitions a field has moved by k times its step. -/
def Claim.RepeatPrefix : Prop :=
  (∀ (s : State) (h : Hd) (imm : W32),
    (∀ l, fetchText s ((curEng s).pc + 12) 12 = .ok l →
      repNextOk s imm = repOk s.cur.eng imm (unpackWord (BitVec.ofNat 96 (leNat l)))) ∧
    (lastWord s = true ∨ repNextOk s imm = false → exec (.rep h imm) s = .next (fatalHere s fIllegal)) ∧
    (lastWord s = false → repNextOk s imm = true → popBlocked (curCore s) s.cur.eng h.pop = none →
      ∃ t, exec (.rep h imm) s = .next t ∧ (curEng t).pc = (curEng s).pc + 12 ∧
        (curEng t).rst = { stepD := imm.extractLsb' 28 4, stepA := imm.extractLsb' 24 4, stepB := imm.extractLsb' 20 4,
                           stepE := imm.extractLsb' 16 4, active := true, remain := imm.toNat % 64 + 1 } ∧
        coreRest (curCore t) = coreRest (curCore s) ∧ ∀ g r, getScal (curCore t) g r = getScal (curCore s) g r)) ∧
  (∀ (imm : W32) (k : Nat), k < 64 →
    (repAt (repOf imm) k).offD.toInt = k * (imm.extractLsb' 28 4 : BitVec 4).toInt ∧
    (repAt (repOf imm) k).offA.toInt = k * (imm.extractLsb' 24 4 : BitVec 4).toInt ∧
    (repAt (repOf imm) k).offB.toInt = k * (imm.extractLsb' 20 4 : BitVec 4).toInt ∧
    (repAt (repOf imm) k).offE.toInt = k * (imm.extractLsb' 16 4 : BitVec 4).toInt)

/-- From R28 and R154: inside a steer section, before its last word, `br` leads to the word at its own offset plus 12 × IMM,
and a nullified one to the next word; a target outside the body, or a `br` elsewhere, is an illegal encoding, live or not. -/
def Claim.BranchWithinASection : Prop :=
  ∀ (s : State) (h : Hd) (imm : W32) (x : Sec), (curEng s).sec = some x →
    let tgt : Int := (curEng s).pc + 12 * imm.toInt
    let ok := x.kind = 1 ∧ (curEng s).pc + 12 < x.off + 8 + 12 * x.len ∧ (x.off : Int) + 8 ≤ tgt ∧ tgt < x.off + 8 + 12 * x.len
    (¬ ok → exec (.br h imm) s = .next (fatalHere s fIllegal)) ∧
    (ok → Ready s h → Single s h → ∃ t, exec (.br h imm) s = .next t ∧ ((curEng t).pc : Int) = tgt ∧
      (curEng t).sec = some x ∧ (curEng t).sc = (curEng s).sc ∧ ∀ r, getScal (curCore t) .c r = getScal (curCore s) .c r) ∧
    (ok → (curEng s).pushpend = false → popBlocked (curCore s) s.cur.eng h.pop = none → liveWord (curEng s) h = false →
      Single s h → ∃ t, exec (.br h imm) s = .next t ∧ (curEng t).pc = (curEng s).pc + 12 ∧ (curEng t).sec = some x)

/-- From R28, R155 and R156: as the last word of a steer section, with room in the path queues, `steer`, `steer.x`, `call`
and `ret` post their target to every other engine that has not retired, retire the section and lead C there; `call`
leaves the offset of the header after the section in D. A posting word elsewhere is an illegal encoding; a target at or
above 2^48 is XLATE, one that is no multiple of 4 MISALIGN, and a full path queue makes C wait. -/
def Claim.SteerPostsItsTarget : Prop :=
  ∀ (s : State) (h : Hd) (d a : Reg) (imm : W32) (x : Sec) (i : Instr) (tgt : Nat),
    s.cur.eng = .c → (curEng s).sec = some x → Ready s h →
    (i = .steer h imm ∧ tgt = imm.toNat) ∨ (i = .steerX h a ∧ tgt = (rd s a).toNat) ∨ (i = .call h d imm ∧ tgt = imm.toNat) ∨
      (i = .ret h a ∧ tgt = (rd s a).toNat) →
    let last := x.kind = 1 ∧ x.off + 8 + 12 * x.len ≤ (curEng s).pc + 12
    let room := ∀ g ∈ sideEngs, (engSt (curCore s) g).retired = false → (engSt (curCore s) g).pathq.length < 4
    let here := (curTeam s).text * 2 ^ 48 + tgt % 2 ^ 48
    (¬ last → exec i s = .next (fatalHere s fIllegal)) ∧
    (last → 2 ^ 48 ≤ tgt → exec i s = .next (fatalHere (atHand s h) { code := 2, info := 2, addr := here, len := 4 })) ∧
    (last → tgt < 2 ^ 48 → tgt % 4 ≠ 0 → exec i s = .next (fatalHere (atHand s h) { code := 4, addr := here, len := 4 })) ∧
    (last → tgt < 2 ^ 48 → tgt % 4 = 0 → ¬ room → ∃ t, exec i s = .next t ∧ (curEng t).wait.kind = 3 ∧ (curEng t).issued = true ∧
      ∀ g ∈ sideEngs, (engSt (curCore t) g).pathq = (engSt (curCore s) g).pathq) ∧
    (last → tgt < 2 ^ 48 → tgt % 4 = 0 → room → Single s h → ∃ t, exec i s = .next t ∧
      (curEng t).pc = tgt ∧ (curEng t).sec = none ∧ (curEng t).sc = (curEng s).sc + 1 ∧
      (∀ g ∈ sideEngs, (engSt (curCore t) g).pathq =
        (engSt (curCore s) g).pathq ++ (if (engSt (curCore s) g).retired then [] else [tgt])) ∧
      (∀ r, getScal (curCore t) .c r =
        if i = .call h d imm ∧ r = d.toNat ∧ r ≠ 0 then BitVec.ofNat 64 (x.off + 8 + 12 * x.len)
        else getScal (curCore s) .c r))

/-- From R103, R104, R159 and R160: `fni` notes what its class covers, `fnw` runs to its end once nothing of that is pending
and leaves its token covering nothing, `phase` runs to its end once the core's earlier stores have performed and empties
L1; where something is pending the last two wait. At scope core, where the core itself is the only observer, the stores
need not have performed (log 82). -/
def Claim.FencesAndPhases : Prop :=
  ∀ (s : State) (h : Hd) (cl : FenceCls) (sc : Scope) (d a : Reg) (imm : W32), Ready s h →
    let p := atHand s h
    let f := SMap.get {} (curCore p).fences a.toNat
    (∃ t, exec (.fni h cl d imm) s = .next (goesOn h t) ∧
      t = upCur p (fun c => { c with fences := (curCore t).fences }) ∧
      SMap.get {} (curCore t).fences d.toNat = { cls := fenceClsCode cl, scope := imm.toNat % 8, ids := covered p cl }) ∧
    let narrow := f.cls = 0 ∧ f.scope = 0
    (f.ids.any (pendingId (curCore p)) = false ∨ narrow → ∃ t, exec (.fnw h a) s = .next (goesOn h t) ∧
      t = upCur p (fun c => { c with fences := (curCore t).fences }) ∧
      SMap.get {} (curCore t).fences a.toNat = { f with ids := [] }) ∧
    (f.ids.any (pendingId (curCore p)) = true → ¬ narrow →
      exec (.fnw h a) s = .next (upCurEng p (fun e => { waitOn p.tick e 10 a.toNat 0 with issued := true }))) ∧
    (storesBefore p = [] ∨ sc = .core → exec (.phase h sc) s = .next (goesOn h (upCur p (fun c => { c with l1 := [] })))) ∧
    (storesBefore p ≠ [] → sc ≠ .core → exec (.phase h sc) s = .next (upCurEng p (fun e => { waitOn p.tick e 10 0 0 with issued := true })))

/-- From R44 and R162: an arrival at a barrier of the record takes the core's round to G + 1 and counts; the last expected
arrival completes the round. `bar.wait` runs to its end once the round the core arrived in is complete. A number at or
above the record's count is a fatal error, a round not yet complete makes either word wait. -/
def Claim.BarrierRounds : Prop :=
  ∀ (s : State) (h : Hd) (imm : W32), Ready s h →
    let p := atHand s h
    let n := imm.toNat % 16
    let own := SMap.get 0 (curCore p).bround n
    let b := SMap.get {} (curTeam p).bars n
    ((curTeam p).nbar ≤ n → exec (.barArr h imm) s = .next (fatalHere p { code := 9, info := n }) ∧
      exec (.barWait h imm) s = .next (fatalHere p { code := 9, info := n })) ∧
    (n < (curTeam p).nbar → b.g < own → ∃ t, exec (.barArr h imm) s = .next t ∧ exec (.barWait h imm) s = .next t ∧
      (curEng t).wait.kind = 7 ∧ (curEng t).issued = true) ∧
    (n < (curTeam p).nbar → own ≤ b.g → exec (.barWait h imm) s = .next (goesOn h p)) ∧
    (n < (curTeam p).nbar → own ≤ b.g → (storesBefore p).any scratchStore = false →
      ∃ t, exec (.barArr h imm) s = .next (goesOn h t) ∧
        SMap.get 0 (curCore t).bround n = b.g + 1 ∧
        SMap.get {} (curTeam t).bars n =
          (if (curTeam p).cores.length + b.extra ≤ b.arr + 1 then { g := b.g + 1 } else { b with arr := b.arr + 1 }) ∧
        (∀ k, k ≠ n → SMap.get {} (curTeam t).bars k = SMap.get {} (curTeam p).bars k))

/-- From R163 and R164: `waitw` runs to its end when the word it polls meets the relation, and leaves it in D; `twait` does
when the tick has reached a, and counts its lateness if it has passed at issue; `tick` reads the counter. Until then the
first two wait, and the events that wake them run the word that stands there again. -/
def Claim.TimedAndPolledWaits : Prop :=
  ∀ (s : State) (h : Hd) (r : WaitRel) (ty : ETy) (d a b : Reg) (imm : W32), Ready s h →
    let p := atHand s h
    let n := etyBits ty / 8
    (∀ x l q, effAddr (rd p a) imm.toInt = some x → x % n = 0 → coreLoad p x n true = .ok l q →
      (waitHolds r ty (8 * n) (leNat l) (rd q b).toNat = true →
        exec (.waitw h r ty d a b imm) s = .next (goesOn h (wr q d (extendTy ty (8 * n) (leNat l))))) ∧
      (waitHolds r ty (8 * n) (leNat l) (rd q b).toNat = false →
        ∃ t, exec (.waitw h r ty d a b imm) s = .next t ∧ (curEng t).wait.kind = 8 ∧ (curEng t).wait.obj = x ∧
          (curEng t).issued = true)) ∧
    (s.tick < (rd p a).toNat → ∃ t, exec (.twait h a) s = .next t ∧ (curEng t).wait.kind = 12 ∧ (curEng t).issued = true) ∧
    ((rd p a).toNat ≤ s.tick → ∃ t, exec (.twait h a) s = .next (goesOn h t) ∧ t.cores = p.cores ∧
      (teamAt t (curCore p).tid).overrun =
        (if (curEng s).issued = false ∧ (rd p a).toNat < s.tick
         then min (2 ^ 64 - 1) ((curTeam p).overrun + (s.tick - (rd p a).toNat)) else (curTeam p).overrun)) ∧
    exec (.tickRead h d) s = .next (goesOn h (wr p d (BitVec.ofNat 64 s.tick)))

/-- From R103, R163, R164 and R167: the events of a stalled word of C run that word again, on a core whose C engine has
issued it and waits as it does; a fence or phase whose accesses have completed then runs to its end, and a signal whose
turn has come adds to its word. -/
def Claim.WakeningEvents : Prop :=
  ∀ (s : State) (core : Nat) (h : Hd) (sc : Scope) (r : WaitRel) (ty : ETy) (d a b : Reg) (imm : W32),
    let p := { s with cur := { core := core, eng := .c } }
    (curEng p).issued = true → (curEng p).pushpend = false → (curTeam p).st = .running →
    let f := SMap.get {} (curCore p).fences a.toNat
    (liveWord (curEng p) h = true → (curEng p).wait.kind = 10 → stalledWord p = some (.fnw h a) →
      f.ids.any (pendingId (curCore p)) = false →
      exec (.fenceComplete core) s = .next (goesOn h (upCur p (fun c =>
        { c with fences := SMap.set {} c.fences a.toNat { f with ids := [] } })))) ∧
    (liveWord (curEng p) h = true → (curEng p).wait.kind = 10 → stalledWord p = some (.phase h sc) → storesBefore p = [] →
      exec (.fenceComplete core) s = .next (goesOn h (upCur p (fun c => { c with l1 := [] })))) ∧
    (liveWord (curEng p) h = true → (curEng p).wait.kind = 10 → stalledWord p = some (.signal h sc a b imm) →
      ∀ x keys, SignalReady p a imm x keys → ∃ old t, exec (.signalAdd core) s = .next (goesOn h t) ∧ Added p b x keys old t) ∧
    ((curEng p).wait.kind = 10 → stalledWord p = some (.fnw h a) → exec (.fenceComplete core) s = exec (.fnw h a) p) ∧
    ((curEng p).wait.kind = 10 → stalledWord p = some (.phase h sc) → exec (.fenceComplete core) s = exec (.phase h sc) p) ∧
    ((curEng p).wait.kind = 8 → stalledWord p = some (.waitw h r ty d a b imm) →
      exec (.waitwPoll core) s = exec (.waitw h r ty d a b imm) p) ∧
    ((curEng p).wait.kind = 12 → stalledWord p = some (.twait h a) → exec (.twaitExpiry core) s = exec (.twait h a) p) ∧
    ((curEng p).wait.kind = 10 → stalledWord p = some (.signal h sc a b imm) →
      exec (.signalAdd core) s = exec (.signal h sc a b imm) p)

/-- From R165: `npre` opens a region where the record has a budget and none is open, else it is a fatal error; `epre`
closes it; and the tick after the budget a region still open ends its context with a NOPRE record. -/
def Claim.RegionsOfNoPreemption : Prop :=
  ∀ (s : State) (h : Hd), (Ready s h →
    let p := atHand s h
    ((curTeam p).nopre = 0 ∨ (curCore p).npre = true → exec (.npre h) s = .next (fatalHere p { code := 8 })) ∧
    ((curTeam p).nopre ≠ 0 → (curCore p).npre = false → Room s h →
      ∃ t, exec (.npre h) s = .next t ∧ (curCore t).npre = true ∧ (curCore t).npt0 = s.tick) ∧
    (Room s h → ∃ t, exec (.epre h) s = .next t ∧ (curCore t).npre = false)) ∧
  ∀ core, let c := coreAt s core
    let t := teamAt s c.tid
    c.npre = true → t.st = .running ∨ t.st = .halting → c.tid ≠ 0x3FE →
    (s.tick ≤ c.npt0 + t.nopre → exec (.nopreOverrun core) s = .next s) ∧
    (c.npt0 + t.nopre + 1 ≤ s.tick → exec (.nopreOverrun core) s =
      .next (failContext (holdFault s { cls := 0, code := 7, tid := c.tid, core := core, queue := t.queue, slot := t.slot,
                                        ctx := t.ctx, part := t.part, info := t.nopre, tick := s.tick }) t.part t.ctx))

/-- From R166–R169: `textsync` in a join section refetches the whole 4-byte units of a range of its own text, as far as the
text's extent, and nothing of any other range; `signal` adds b to its word once what precedes it is done; `trap` retires and
then suspends its team with IMM as its code; `srd` reads one of six status registers, and any other selector is an illegal
encoding. -/
def Obligations.TextSignalsTrapsStatus : Prop :=
  ∀ (s : State) (h : Hd) (sc : Scope) (d a b : Reg) (imm : W32), Ready s h →
    let p := atHand s h
    let at_ := (rd p a).toNat
    let n := (rd p b).toNat
    let ext := ((htAt p (curWho p .core).part (curWho p .core).ctx (curTeam p).text).map (fun e => e.ext)).getD 0
    let none_ := n = 0 ∨ at_ / 2 ^ 48 ≠ (curTeam p).text ∨ ext ≤ at_ % 2 ^ 48
    let lo := at_ % 2 ^ 48 / 4 * 4
    let hi := min ext ((at_ % 2 ^ 48 + n + 3) / 4 * 4)
    (secKind s ≠ 3 → exec (.textsync h a b) s = .next (fatalHere s fIllegal)) ∧
    (secKind s = 3 → none_ → exec (.textsync h a b) s = .next (goesOn h p)) ∧
    (secKind s = 3 → ¬ none_ → exec (.textsync h a b) s = .next (goesOn h (refetch p lo hi)) ∧
      (∀ off, SMap.get none (curCore (refetch p lo hi)).tsync off =
        if lo ≤ off ∧ off < hi then some (newByte p off) else SMap.get none (curCore p).tsync off) ∧
      (curCore (refetch p lo hi)).tnew = (curCore p).tnew ∧
      ∀ g r, getScal (curCore (refetch p lo hi)) g r = getScal (curCore p) g r) ∧
    (∀ x keys, SignalReady p a imm x keys → ∃ old t, exec (.signal h sc a b imm) s = .next (goesOn h t) ∧ Added p b x keys old t) ∧
    (exec (.trap h imm) s = .next (goesOn h p
      { eff := .done, post := fun q => raiseTrap q { code := 2, info := imm.toNat } 0 0 (textAddr s (curEng s).pc) (wordAt s (curEng s).pc).toNat })) ∧
    (Single s h → (curCore s).tid ≠ 0x3FE → (curTeam s).halt = none → s.fqHeld.length < 64 → ∃ t, exec (.trap h imm) s = .next t ∧
      (curTeam t).st = .halting ∧ (curTeam t).halt.map (fun x => x.ends) = some .trapped ∧ ∃ r, t.fqHeld = s.fqHeld ++ [r] ∧
        r.cls = 1 ∧ r.code = 2 ∧ r.info = imm.toNat ∧ r.tid = (curCore s).tid ∧ r.core = s.cur.core ∧
        r.textaddr = textAddr s (curEng s).pc ∧ r.word = (wordAt s (curEng s).pc).toNat) ∧
    (let reads (v : Word) := exec (.srd h d imm) s = .next (goesOn h (wr p d v))
     let r := (curEng p).rst
     let left := (curTeam p).nopre - (s.tick - (curCore p).npt0)
     (imm.toNat = 0 → reads ((curEng p).sc.setWidth 64)) ∧
     (imm.toNat = 1 → reads (BitVec.ofNat 64 (curTeam p).slipw)) ∧
     (imm.toNat = 2 → reads (r.stepE ++ r.stepB ++ r.stepA ++ r.stepD ++ r.offE ++ r.offB ++ r.offA ++ r.offD ++
        BitVec.ofBool r.active ++ BitVec.ofNat 7 (r.remain - 1))) ∧
     (imm.toNat = 3 → reads (BitVec.ofNat 64 (s.cur.core % 2 * 2 ^ 24 + s.cur.core / 2 % 8 * 2 ^ 21 + s.cur.core / 16 * 2 ^ 16 + s.cur.core))) ∧
     (imm.toNat = 4 → reads (BitVec.ofNat 64 ((curTeam p).nbar * 2 ^ 16 + ((curTeam p).cores.length - 1) * 2 ^ 8 + (curCore p).idx))) ∧
     (imm.toNat = 5 → reads (BitVec.ofNat 64 (if (curCore p).npre then 2 ^ 16 + left else (curTeam p).nopre))) ∧
     (6 ≤ imm.toNat → exec (.srd h d imm) s = .next (fatalHere s fIllegal)))
namespace Sys2Proof.Machine

/-! ## Memory -/

/-- A byte with writes over it, the later the later in the list. -/
def overlaid (l : List (Nat × Byte)) (k : Nat) (b : Byte) : Byte := l.foldl (fun b x => if x.1 = k then x.2 else b) b

/-- The atomics of the opcode table but `cas128`, with their operation. -/
def atomOf (op : AtOp) (h : Hd) (ty : ETy) (d a b e : Reg) (imm : W32) : Option Instr :=
  match op with
  | .add => some (.atomAdd h ty d a b e imm)
  | .and => some (.atomAnd h ty d a b e imm)
  | .or => some (.atomOr h ty d a b e imm)
  | .xor => some (.atomXor h ty d a b e imm)
  | .min => some (.atomMin h ty d a b e imm)
  | .max => some (.atomMax h ty d a b e imm)
  | .xchg => some (.atomXchg h ty d a b e imm)
  | .cas => some (.atomCas h ty d a b e imm)
  | .incb => some (.atomIncb h ty d a b e imm)
  | .addb => some (.atomAddb h ty d a b e imm)
  | .cas128 => none

end Sys2Proof.Machine

/-- From R141, R149, R150 and R334: a load whose access is answered runs to its end with the bytes it read, extended by its type,
in D; a store whose access is admitted runs to its end with it issued; an address that leaves its handle, or an access
that fails, ends the context. Only the Foreman's cores have queue pages among their handles; there a 64-bit load or store
is a read or write of a queue's register, and any other reads 0 and is ignored. An access that is to be performed in parts
(log 22) waits while a part alone is performed. -/
def Claim.LoadsAndStoresComplete : Prop :=
  ∀ (s : State) (h : Hd) (ty : ETy) (q : Bool) (d a b : Reg) (imm : W32), Ready s h →
    let p := atHand s h
    let n := etyBits ty / 8
    let page (x : Nat) := queuePageAt p x n
    let whole (x : Nat) := page x = none ∧ partOf p [(x, n)] = none
    (∀ x l t, effAddr (rd p a) imm.toInt = some x → whole x → coreLoad p x n q = .ok l t →
      exec (.ld h ty q d a imm) s = .next (goesOn h (wr t d (extendTy ty (8 * n) (leNat l))))) ∧
    (∀ x t, effAddr (rd p a) imm.toInt = some x → whole x → coreStore p x (leBytes n (rd p b).toNat) = .ok () t →
      exec (.st h ty a b imm) s = .next (goesOn h t)) ∧
    (effAddr (rd p a) imm.toInt = none →
      exec (.ld h ty q d a imm) s = .next (fatalHere p { code := 2, info := 2, addr := (rd p a).toNat, len := n }) ∧
      exec (.st h ty a b imm) s = .next (fatalHere p { code := 2, info := 2, addr := (rd p a).toNat, len := n })) ∧
    (∀ x f t, effAddr (rd p a) imm.toInt = some x → whole x → coreLoad p x n q = .fail f t →
      exec (.ld h ty q d a imm) s = .next (fatalHere t f)) ∧
    (∀ x f t, effAddr (rd p a) imm.toInt = some x → whole x → coreStore p x (leBytes n (rd p b).toNat) = .fail f t →
      exec (.st h ty a b imm) s = .next (fatalHere t f)) ∧
    (∀ x, effAddr (rd p a) imm.toInt = some x → page x = none → partOf p [(x, n)] ≠ none →
      ∃ t u, exec (.ld h ty q d a imm) s = .next t ∧ exec (.st h ty a b imm) s = .next u ∧
        (curEng t).issued = true ∧ (curEng t).pc = (curEng p).pc ∧ (curEng u).issued = true ∧ (curEng u).pc = (curEng p).pc) ∧
    (∀ x off, effAddr (rd p a) imm.toInt = some x → page x = some off → n ≠ 8 ∨ off % 8 ≠ 0 →
      exec (.st h ty a b imm) s = .next (goesOn h p) ∧ exec (.ld h ty q d a imm) s = .next (goesOn h (wr p d 0))) ∧
    (∀ x, (curCore s).tid ≠ 0x3FE → page x = none) ∧
    (∀ x off, effAddr (rd p a) imm.toInt = some x → page x = some off → ty = .n64 → off % 8 = 0 →
      exec (.st h ty a b imm) s = .next (goesOn h (writeQueueReg p 0 (off / 64) (off / 8 % 8) (rd p b))) ∧
      (off / 8 % 8 ≠ 1 → exec (.ld h ty q d a imm) s = .next (goesOn h (wr p d (queueReg (queueAt p (off / 64)) (off / 8 % 8))))) ∧
      (off / 8 % 8 = 1 → exec (.ld h ty q d a imm) s =
        .next (goesOn h (wr (upQueue p (off / 64) reserveQ) d (ticketOf (queueAt p (off / 64)))))))

/-- From R97, R98, R101 and R102: a fresh load of bytes of this module whose checks hold is answered with the bytes at the
coherence point, once the core's own stores to them have performed; it changes no register, and of memory only what the
core's own earlier stores write and the marks of its pages. A byte that a part of the access has read before keeps the value
it had then (R180, log 22). -/
def Claim.FreshLoadReadsItsBytes : Prop :=
  ∀ (s : State) (addr n : Nat) (keys : List Nat), xlateRange s (curWho s .core) .r false addr n = .ok keys → 0 < n →
    (∀ k ∈ keys, isRemote k = false ∧ badByte s k = false) →
    ∃ l t, coreLoad s addr n true = .ok l t ∧ l.length = n ∧
      (∀ i, i < n → ¬ markedBy s (curWho s .core) addr n (keys.getD i 0) →
        l.getD i 0 = (SMap.get none (curEng s).reply.fixed (addr + i)).getD (rdByte t (keys.getD i 0))) ∧
      (∀ p ∈ (curCore t).stq, ∀ b ∈ p.bytes, b.1 ∉ keys) ∧
      (∀ k, held k → ¬ heldStore s k → ¬ markedBy s (curWho s .core) addr n k → rdByte t k = rdByte s k) ∧
      (∀ g r, getScal (curCore t) g r = getScal (curCore s) g r) ∧ t.teams = s.teams ∧ t.ht = s.ht ∧ t.queues = s.queues

/-- From R79, R97, R98 and R109: an admitted store changes no byte of memory but the marks of its pages; it is issued as
stores of the executing engine that hold exactly its bytes at their translated places, where no part of it has been
issued before. A store then performs as a whole, after every earlier one of its core that writes a byte of it: the
bytes it holds are written and no other, and those for a register of the queue page, which only a word of 64 bits
writes, are ignored. The model's choices in it: a part of a store is what stays whole (log 22). -/
def Obligations.StoresAreIssuedThenPerform : Prop :=
  (∀ (s : State) (addr : Nat) (data : List Byte) (keys : List Nat), data ≠ [] →
    xlateRange s (curWho s .core) .w false addr data.length = .ok keys → (∀ k ∈ keys, isRemote k = false) →
    badWrite s keys = none →
    (curEng s).reply.put = [] → ∃ t l, coreStore s addr data = .ok () t ∧ (curCore t).stq = (curCore s).stq ++ l ∧
      l.flatMap (fun p => p.bytes) = keys.zip data ∧ (∀ p ∈ l, p.eng = s.cur.eng ∧ p.remote = false) ∧
      (∀ k, held k → ¬ markedBy s (curWho s .core) addr data.length k → rdByte t k = rdByte s k) ∧
      (∀ g r, getScal (curCore t) g r = getScal (curCore s) g r)) ∧
  (∀ (s : State) (core k : Nat) (p : PendSt), (coreAt s core).stq[k]? = some p → p.remote = false →
    (∀ x ∈ (coreAt s core).stq, x.id = p.id → x = p) →
    ((∃ x ∈ (coreAt s core).stq.take k, overlaps x p = true) → performNth s core k = s) ∧
    ((∀ x ∈ (coreAt s core).stq.take k, overlaps x p = false) →
      (∀ a, held a → rdByte (performNth s core k) a = overlaid p.bytes a (rdByte s a)) ∧
      (∀ a, inPage a = true → rdByte (performNth s core k) a = rdByte s a) ∧
      (∀ x, x ∈ (coreAt (performNth s core k) core).stq ↔ x ∈ (coreAt s core).stq ∧ x ≠ p) ∧
      (performNth s core k).teams = s.teams ∧ (performNth s core k).regions = s.regions))

/-- From R107, R152 and R153: an atomic that performs leaves the old value in D and 1 in its predicate; one that is
declined leaves 0x8000_0000_0000_0000 and 0; an access that fails ends the context. -/
def Claim.AtomicsComplete : Prop :=
  ∀ (s : State) (h : Hd) (op : AtOp) (i : Instr) (ty : ETy) (d a b e : Reg) (imm : W32) (x : Nat), Ready s h →
    let p := atHand s h
    let n := etyBits ty / 8
    let lo (m k : Nat) : Nat := (rdN p (b.toNat + k)).toNat % 2 ^ (8 * m)
    effAddr (rd p a) imm.toInt = some x →
    (atomOf op h ty d a b e imm = some i →
      (∀ old t, coreAtomic p op ty x n (lo n 0) (lo n 1) = .ok (some old) t →
        exec i s = .next (goesOn h (wrPE (wr t d (extendTy ty (8 * n) old)) e true))) ∧
      (∀ t, coreAtomic p op ty x n (lo n 0) (lo n 1) = .ok none t →
        exec i s = .next (goesOn h (wrPE (wr t d 0x8000000000000000) e false))) ∧
      (∀ f t, coreAtomic p op ty x n (lo n 0) (lo n 1) = .fail f t → exec i s = .next (fatalHere t f))) ∧
    (let v := lo 8 0 + 2 ^ 64 * lo 8 1; let v2 := lo 8 2 + 2 ^ 64 * lo 8 3;
      (∀ old t, coreAtomic p .cas128 ty x 16 v v2 = .ok (some old) t →
        exec (.atomCas128 h ty d a b e imm) s =
          .next (goesOn h (wrPE (wrN (wr t d (BitVec.ofNat 64 old)) (d.toNat + 1) (BitVec.ofNat 64 (old / 2 ^ 64))) e true))) ∧
      (∀ t, coreAtomic p .cas128 ty x 16 v v2 = .ok none t →
        exec (.atomCas128 h ty d a b e imm) s =
          .next (goesOn h (wrPE (wrN (wr t d 0x8000000000000000) (d.toNat + 1) 0) e false))))

/-- From R107: the new value of each atomic over exact integers. -/
def Claim.AtomicValues : Prop :=
  ∀ (ty : ETy) (w old v v2 : Nat), 0 < w → old < 2 ^ w → v < 2 ^ w → v2 < 2 ^ w →
    let num (x : Nat) : Int := if etySigned ty then (BitVec.ofNat w x).toInt else x
    let new (op : AtOp) := atNew op ty w old v v2
    new .add = (old + v) % 2 ^ w ∧ new .and = old &&& v ∧ new .or = old ||| v ∧ new .xor = old ^^^ v ∧ new .xchg = v ∧
    num (new .min) = min (num old) (num v) ∧ num (new .max) = max (num old) (num v) ∧
    new .cas = (if old = v then v2 else old) ∧ new .cas128 = (if old = v then v2 else old) ∧
    num (new .incb) = (if num old < num v then num old + 1 else num old) ∧
    num (new .addb) = num old + min (max (num v2 - num old) 0) (max (num v) 0) ∧
    ∀ op, new op < 2 ^ w

/-- From R79, R107 and R153: an atomic on bytes of this module, naturally aligned and outside the apertures, whose checks
hold, is one read and write at the coherence point: it answers the bytes there, with the core's own earlier stores to
them performed, writes the new value over them, and changes no other byte but those of these stores and the marks of
its pages. On the queue page an atomic writes nothing. A misaligned one is MISALIGN and changes nothing. -/
def Claim.AtomicReadsAndWritesOnce : Prop :=
  ∀ (s : State) (op : AtOp) (ty : ETy) (addr n v v2 : Nat), 0 < n →
    (addr % n ≠ 0 → coreAtomic s op ty addr n v v2 = .fail { code := 4, addr := addr, len := n } s) ∧
    (∀ keys, addr % n = 0 → xlateRange s (curWho s .core) .a false addr n = .ok keys → keys.Nodup →
      (∀ k ∈ keys, isRemote k = false ∧ held k ∧ badByte s k = false) → badWrite s keys = none →
      ∃ old t, coreAtomic s op ty addr n v v2 = .ok (some old) t ∧ old < 2 ^ (8 * n) ∧
        (∀ k ∈ keys, ¬ heldStore s k → ¬ markedBy s (curWho s .core) addr n k →
          BitVec.ofNat 8 (old / 2 ^ (8 * keys.idxOf k)) = rdByte s k) ∧
        (∀ k ∈ keys, rdByte t k = BitVec.ofNat 8 (atNew op ty (8 * n) old v v2 / 2 ^ (8 * keys.idxOf k))) ∧
        (∀ k, held k → k ∉ keys → ¬ heldStore s k → ¬ markedBy s (curWho s .core) addr n k → rdByte t k = rdByte s k) ∧
        (∀ g r, getScal (curCore t) g r = getScal (curCore s) g r)) ∧
    (∀ keys, addr % n = 0 → xlateRange s (curWho s .core) .a false addr n = .ok keys → (∀ k ∈ keys, inPage k = true) →
      (∀ k ∈ keys, badByte s k = false) → badWrite s keys = none →
      ∃ old t, coreAtomic s op ty addr n v v2 = .ok (some old) t ∧ ∀ k, inPage k = true → ¬ markedBy s (curWho s .core) addr n k → rdByte t k = rdByte s k)

/-- From R157 and R158: what a probe of a page that the module translates itself answers, by the agent that the handle's
kind names. A page or byte that is present and admitted gives code 0 and predicate 1; a failure of translation gives
its code and 0, but a page not present is the probe fault, a recoverable trap, and a page-table entry whose stored
check fails ends the context (log 107); atomics on `tensor`, `host` and an aperture give code 3. The model's choices
in it: a failing check of the page-table entry (log 107). -/
def Obligations.ProbeAnswers : Prop :=
  ∀ (s : State) (h : Hd) (c : ProbeCls) (d a e : Reg) (imm : W32) (x : Nat), Ready s h →
    let p := atHand s h
    let u := curWho p .core
    let kind := if x / 2 ^ 48 % 65536 < 0xFFF0 then ((htAt p u.part u.ctx (x / 2 ^ 48 % 65536)).map (fun e => e.kind)).getD 1 else 1
    let w := { u with agent := probeAgent kind }
    effAddr (rd p a) imm.toInt = some x →
    (c = .a → kind = 2 ∨ kind = 3 → exec (.probe h c d a e imm) s = .next (goesOn h (wrP (wr p d 3) e false))) ∧
    (kind ≠ 3 → ¬ (c = .a ∧ kind = 2) →
      (∀ k, xlateByte p w (probeAcc c) false x = .ok k → c ≠ .a ∨ (isRemote k = false ∧ ¬ (apBase ≤ k ∧ k < apTop)) →
        exec (.probe h c d a e imm) s = .next (goesOn h (wrP (wr (notePages p w false x 1) d 0) e true))) ∧
      (∀ k, c = .a → xlateByte p w (probeAcc c) false x = .ok k → apBase ≤ k → k < apTop →
        exec (.probe h c d a e imm) s = .next (goesOn h (wrP (wr p d 3) e false))) ∧
      (∀ pa, xlateByte p w (probeAcc c) false x = .error (.check pa) →
        exec (.probe h c d a e imm) s = .next (fatalHere (xReport p (.check pa)) { code := 5, addr := pa / 64 * 64, len := 64 })) ∧
      (∀ code, code ≠ 4 → xlateByte p w (probeAcc c) false x = .error (.xlate code) →
        exec (.probe h c d a e imm) s = .next (goesOn h (wrP (wr p d (BitVec.ofNat 64 code)) e false))) ∧
      (∀ n, xlateByte p w (probeAcc c) false x = .error (.refused n) →
        exec (.probe h c d a e imm) s = .next (goesOn h (wrP (wr p d 3) e false))) ∧
      (xlateByte p w (probeAcc c) false x = .error (.xlate 4) →
        let q := upCurEng p (fun e => { e with issued := true })
        exec (.probe h c d a e imm) s =
          .next (raiseTrap q { code := 3, addr := x } 0 0 (textAddr q (curEng q).pc) (wordAt q (curEng q).pc).toNat)))

/-- From R305–R308: a fatal error of a user core holds one class-0 record that names the core, its engine, its team's queue,
slot and context, the fault and its place, and ends the context: every live team of it becomes FAILED and its queues
are being destroyed; answers that its cores wait for will find no one, and nothing else of cores or memory changes. In
foreman mode the module returns to Stage S with cause 3: no team runs on, what was issued and the records held stay,
and every function has its STAGE event. -/
def Claim.FatalErrorEndsItsContext : Prop :=
  ∀ (s : State) (f : FInfo) (at_ word : Nat),
    let c := curCore s
    let team := curTeam s
    let t := raiseFatal s f at_ word
    (c.tid ≠ 0x3FE →
      (s.fqHeld.length < 64 → t.fqHeld = s.fqHeld ++
        [{ cls := 0, code := f.code, tid := c.tid, core := s.cur.core, eng := engNum s.cur.eng, queue := team.queue,
           slot := team.slot, ctx := team.ctx, part := team.part, textaddr := at_, word := word, info := f.info, addr := f.addr,
           len := f.len, tick := s.tick }] ∧ t.fqWait = s.fqWait) ∧
      (∀ p ∈ t.teams, p.1 ≠ 0x3FE → p.2.part = team.part → p.2.ctx = team.ctx → p.2.st = .free ∨ p.2.st = .failed) ∧
      (∀ p ∈ s.teams, p.2.part ≠ team.part ∨ p.2.ctx ≠ team.ctx → p ∈ t.teams) ∧
      (∀ p ∈ t.queues, p.2.qcfg.toNat / 64 % 4 = team.part → p.2.qcfg.toNat % 64 = team.ctx → p.2.st = .disabled ∨
        (p.2.st = .destroying ∧ p.2.final = 0x103)) ∧
      (∀ n, ∃ q, coreAt t n = { coreAt s n with ec := { (coreAt s n).ec with reply := q } }) ∧
      (∀ n, (teamAt s (coreAt s n).tid).part ≠ team.part ∨ (teamAt s (coreAt s n).tid).ctx ≠ team.ctx → coreAt t n = coreAt s n) ∧
      t.stage = s.stage ∧ SameMemory s t) ∧
    (c.tid = 0x3FE → t.stage = 0 ∧ t.cause = 3 ∧ (∀ p ∈ t.teams, p.2.st = .free ∨ p.2.st = .failed) ∧ t.queues = [] ∧
      t.cores = s.cores ∧ t.fqHeld = s.fqHeld ∧ t.regions = s.regions ∧ SameMemory s t ∧
      ∀ fn, fn < 5 → (fnAt t fn).event.testBit 2 = true)

/-- From R306, R315 and R318: a trap of a user core holds one class-1 record with its lanes, and its team halts to be saved as
TRAPPED, without regard to regions; the trapping elements stand in the core's mask; memory and other teams stay. -/
def Claim.TrapSuspendsItsTeam : Prop :=
  ∀ (s : State) (f : FInfo) (lanes at_ word : Nat) (mask : BitVec 1024),
    let c := curCore s
    let team := curTeam s
    let t := raiseTrap s f lanes mask at_ word
    c.tid ≠ 0x3FE → team.halt = none → s.fqHeld.length < 64 →
      t.fqHeld = s.fqHeld ++
        [{ cls := 1, code := f.code, tid := c.tid, core := s.cur.core, eng := engNum s.cur.eng, queue := team.queue,
           slot := team.slot, ctx := team.ctx, part := team.part, lanes := lanes, textaddr := at_, word := word, info := f.info,
           addr := f.addr, len := f.len, tick := s.tick }] ∧
      curTeam t = { team with st := .halting, stopped := s.tick,
                              halt := some { ends := .trapped, waits := false, begun := true, trapCore := c.idx,
                                             trapEng := engNum s.cur.eng } } ∧
      curCore t = { c with trapmask := mask } ∧ (∀ n, n ≠ c.tid → teamAt t n = teamAt s n) ∧
      (∀ n, n ≠ s.cur.core → coreAt t n = coreAt s n) ∧ t.queues = s.queues ∧ SameMemory s t

namespace Sys2Proof.Machine

/-! ## Exact values and their rounding -/

/-- The exact value of a finite number; 0 of any other. -/
def exactOf : FpVal → ℚ
  | .fin neg m e => (if neg then -1 else 1) * m * 2 ^ e
  | _ => 0

/-- The largest finite magnitude of a format, MAXF (R48). -/
def maxFinite (f : Fmt) : ℚ := (2 ^ f.p - 1) * 2 ^ (fmtEmax f - (f.p - 1))

/-- `n` is the integer that a mode gives for a magnitude `y` of a number of a sign (R55). -/
def RoundsMag (mode : RMode) (neg : Bool) (y : ℝ) (n : Nat) : Prop :=
  let down : Prop := (n : ℝ) ≤ y ∧ y < n + 1
  let up : Prop := (n : ℝ) - 1 < y ∧ y ≤ n
  match mode with
  | .rne => |y - n| < 1 / 2 ∨ (|y - n| = 1 / 2 ∧ n % 2 = 0)
  | .rna => |y - n| < 1 / 2 ∨ (|y - n| = 1 / 2 ∧ y < n)
  | .rtz => down
  | .rup => if neg then down else up
  | .rdn => if neg then up else down

/-- Bits of a format that stand for the finite number of a sign and magnitude. -/
def IsFinite (f : Fmt) (bits : Nat) (neg : Bool) (y : ℝ) : Prop :=
  bits < 2 * fmtSignBit f ∧ ∃ m e, fpDecode f bits = .fin neg m e ∧ (m : ℝ) * 2 ^ e = y

/-- The flags of a rounded result: INEXACT where it differs from the exact value, and UNDERFLOW where it is tiny too (R58). -/
def RoundFlags (inexact tiny : Prop) (flags : Nat) : Prop :=
  (inexact → tiny → flags = 24) ∧ (inexact → ¬ tiny → flags = 16) ∧ (¬ inexact → flags = 0)

/-- `round(x, fmt, mode)` of R56 for x ≠ 0, with the flags of R58: `u` quanta of the precision with unbounded exponent, `n` of the
format's own quantum, which is that of its subnormals below the smallest normal. Beyond MAXF the result overflows. -/
def RoundsTo (f : Fmt) (mode : RMode) (x : ℝ) (r : FpRes) : Prop :=
  ∃ (neg : Bool) (top : Int) (n u : Nat), (neg = true ↔ x < 0) ∧ (2 : ℝ) ^ top ≤ |x| ∧ |x| < 2 ^ (top + 1) ∧
    (let qu : Int := top - (f.p - 1)
     let q : Int := max top (fmtEmin f) - (f.p - 1)
     RoundsMag mode neg (|x| / 2 ^ qu) u ∧ RoundsMag mode neg (|x| / 2 ^ q) n ∧
     ((maxFinite f : ℝ) < u * 2 ^ qu →
       r = { bits := withSign f neg (if mode = .rne ∨ mode = .rna ∨ (mode = .rup ∧ neg = false) ∨ (mode = .rdn ∧ neg = true)
                                     then fmtInf f else fmtInf f - 1), flags := 20 }) ∧
     ((u : ℝ) * 2 ^ qu ≤ (maxFinite f : ℝ) →
       IsFinite f r.bits neg (n * 2 ^ q) ∧ RoundFlags ((n : ℝ) * 2 ^ q ≠ |x|) ((u : ℝ) * 2 ^ qu < 2 ^ fmtEmin f) r.flags))

/-- `round_p` of R74 for y ≠ 0, with its flags measured against the value z. -/
def RoundsApx (f : Fmt) (y : ℝ) (r : FpRes) : Prop :=
  ∃ (neg : Bool) (top : Int) (n : Nat), (neg = true ↔ y < 0) ∧ (2 : ℝ) ^ top ≤ |y| ∧ |y| < 2 ^ (top + 1) ∧
    (let q : Int := max top (fmtEmin f) - (if f.p = 24 then 11 else 7)
     RoundsMag .rne neg (|y| / 2 ^ q) n ∧
     ((maxFinite f : ℝ) < n * 2 ^ q → r = { bits := withSign f neg (fmtInf f), flags := 20 }) ∧
     ((n : ℝ) * 2 ^ q ≤ (maxFinite f : ℝ) →
       IsFinite f r.bits neg (n * 2 ^ q) ∧ RoundFlags ((n : ℝ) * 2 ^ q ≠ |y|) ((n : ℝ) * 2 ^ q < 2 ^ fmtEmin f) r.flags))

/-- The canonical NaN of a format, with INVALID where asked (R49). -/
def canonical (f : Fmt) (invalid : Bool) : FpRes := { bits := fmtNan f, flags := if invalid then 1 else 0 }

/-- A signed infinity or zero, without flags. -/
def signedInf (f : Fmt) (neg : Bool) : FpRes := { bits := withSign f neg (fmtInf f) }
def signedZero (f : Fmt) (neg : Bool) : FpRes := { bits := withSign f neg 0 }

/-- Whether a value is a signalling NaN, an infinity, or a zero. -/
def isSnan (v : FpVal) : Bool := v == .nan true
def isInf : FpVal → Bool | .inf _ => true | _ => false
def isZero : FpVal → Bool | .fin _ m _ => m == 0 | _ => false
def isFin : FpVal → Bool | .fin .. => true | _ => false

/-- The three formats (R48). -/
def formats : List Fmt := [fmt32, fmtBf, fmt16]

/-- A result that a table of R60 or R209 names, and the result that it is. -/
def EndIs (f : Fmt) (r : FpRes) : FnConst → Prop
  | .zero n => r = signedZero f n
  | .one n => IsFinite f r.bits n 1 ∧ r.flags = 0
  | .half => IsFinite f r.bits false (1 / 2) ∧ r.flags = 0
  | .inf n => r = signedInf f n
  | .pole n => r = { signedInf f n with flags := 2 }
  | .invalid => r = canonical f true

/-- The table of R209: the results at −∞, +∞, −0 and +0. -/
def functionTable : List (FnId × FnConst × FnConst × FnConst × FnConst) :=
  [(.exp, .zero false, .inf false, .one false, .one false), (.exp2, .zero false, .inf false, .one false, .one false),
   (.expm1, .one true, .inf false, .zero true, .zero false), (.log, .invalid, .inf false, .pole true, .pole true),
   (.log2, .invalid, .inf false, .pole true, .pole true), (.log1p, .invalid, .inf false, .zero true, .zero false),
   (.rcp, .zero true, .zero false, .pole true, .pole false), (.sqrt, .invalid, .inf false, .zero true, .zero false),
   (.rsqrt, .invalid, .zero false, .pole true, .pole false), (.sin, .invalid, .invalid, .zero true, .zero false),
   (.cos, .invalid, .invalid, .one false, .one false), (.tanh, .one true, .one false, .zero true, .zero false),
   (.logistic, .zero false, .one false, .half, .half)]

/-- The overflow policies (R60): of a finite or an infinite input to an FP target, and of any input to an integer target of `w` bits
between `lo` and `hi`. -/
def outOfFp (f : Fmt) (pol : Policy) (neg finite : Bool) : ConvRes :=
  match pol with
  | .sat => .ok { bits := withSign f neg (fmtInf f - 1), flags := 48 }
  | .inf => .ok { bits := withSign f neg (fmtInf f), flags := if finite then 52 else 32 }
  | .nan => .ok { bits := fmtNan f, flags := 33 }
  | .trap => .trap
def outOfInt (w : Nat) (lo hi : Int) (pol : Policy) (neg : Bool) : ConvRes :=
  let end_ := ((if neg then lo else hi) % (2 ^ w : Nat)).toNat
  match pol with
  | .sat => .ok { bits := end_, flags := 48 }
  | .inf => .ok { bits := end_, flags := 52 }
  | .nan => .ok { bits := 0, flags := 33 }
  | .trap => .trap

end Sys2Proof.Machine

/-- From R49, R55, R56, R58 and R186: sum, product, quotient and fused product round the exact value of their operands once. A NaN
operand gives the canonical NaN, with INVALID where one signals; ∞ − ∞, 0 × ∞, 0 ÷ 0 and ∞ ÷ ∞ give it with INVALID, 0 × ∞ whatever
is added. A finite number over zero is an infinity with DIVZERO. An exact zero product or quotient has the product of the signs, an
exact zero sum is +0, or −0 in RDN, and two zeros of one sign keep it. -/
def Claim.ArithmeticRoundsExactValues : Prop :=
  ∀ (f : Fmt) (m : RMode) (a b c : FpVal), f ∈ formats →
    let nan := isNan a || isNan b
    let snan := isSnan a || isSnan b
    let sign := signOf a != signOf b
    let bad := (isInf a && isZero b) || (isZero a && isInf b)
    let zero (x y : Bool) (z : Bool) : FpRes := signedZero f (if z && x == y then x else m == .rdn)
    (nan = true → addVal f m a b = canonical f snan ∧ mulVal f m a b = canonical f snan ∧ divVal f m a b = canonical f snan) ∧
    (nan = false →
      (isInf a = true → isInf b = true → addVal f m a b = (if sign then canonical f true else signedInf f (signOf a)) ∧
        mulVal f m a b = signedInf f sign ∧ divVal f m a b = canonical f true) ∧
      (isInf a = true → isInf b = false → addVal f m a b = signedInf f (signOf a) ∧ divVal f m a b = signedInf f sign) ∧
      (isInf a = false → isInf b = true → addVal f m a b = signedInf f (signOf b) ∧ divVal f m a b = signedZero f sign) ∧
      (isInf a ≠ isInf b → mulVal f m a b = if bad then canonical f true else signedInf f sign)) ∧
    (isFin a = true → isFin b = true →
      (let x := exactOf a + exactOf b
       (x ≠ 0 → RoundsTo f m x (addVal f m a b)) ∧
       (x = 0 → addVal f m a b = zero (signOf a) (signOf b) (isZero a && isZero b))) ∧
      (let x := exactOf a * exactOf b
       (x ≠ 0 → RoundsTo f m x (mulVal f m a b)) ∧ (x = 0 → mulVal f m a b = signedZero f sign)) ∧
      (isZero b = false → (let x := exactOf a / exactOf b
       (x ≠ 0 → RoundsTo f m x (divVal f m a b)) ∧ (x = 0 → divVal f m a b = signedZero f sign))) ∧
      (isZero b = true → divVal f m a b = if isZero a then canonical f true else { signedInf f sign with flags := 2 })) ∧
    (bad = true → fmaVal f m a b c = canonical f true) ∧
    (bad = false → (nan || isNan c) = true → fmaVal f m a b c = canonical f (snan || isSnan c)) ∧
    (bad = false → (nan || isNan c) = false →
      (isInf a || isInf b) = true → fmaVal f m a b c = if isInf c && signOf c != sign then canonical f true else signedInf f sign) ∧
    (isFin a = true → isFin b = true → isInf c = true → fmaVal f m a b c = signedInf f (signOf c)) ∧
    (isFin a = true → isFin b = true → isFin c = true →
      let x := exactOf a * exactOf b + exactOf c
      (x ≠ 0 → RoundsTo f m x (fmaVal f m a b c)) ∧
      (x = 0 → fmaVal f m a b c = zero sign (signOf c) ((isZero a || isZero b) && isZero c)))

/-- From R49, R56, R60, R61, R190 and R195: `vrint` rounds to an integer in the mode and keeps the sign, `vscale` rounds a × 2^n, and a
conversion rounds its value to the target, where R60's policy acts on what a down-conversion finds out of range, and a NaN gives
the canonical NaN, or 0 with INVALID, or traps. -/
def Claim.IntegralScaledAndConverted : Prop :=
  (∀ (f : Fmt) (m : RMode) (x : Nat) (n : Int), f ∈ formats →
    match fpDecode f x with
    | .nan sig => rintVal f m x = canonical f sig ∧ scaleVal f m x n = canonical f sig
    | .inf neg => rintVal f m x = signedInf f neg ∧ scaleVal f m x n = signedInf f neg
    | .fin neg k e =>
      (∃ i, RoundsMag m neg ((k : ℝ) * 2 ^ e) i ∧ IsFinite f (rintVal f m x).bits neg i ∧
        RoundFlags ((i : ℝ) ≠ (k : ℝ) * 2 ^ e) False (rintVal f m x).flags) ∧
      (k = 0 → scaleVal f m x n = signedZero f neg) ∧
      (k ≠ 0 → RoundsTo f m (exactOf (.fin neg k e) * 2 ^ n : ℚ) (scaleVal f m x n))) ∧
  ∀ (ts tt : ETy) (m : RMode) (pol : Policy) (x : Nat),
    let v := laneVal ts x
    let f := fmtOf tt
    let w := etyBits tt
    let (lo, hi) := etyRange tt
    let down : Bool := [(ETy.fp32, ETy.bf16), (.fp32, .fp16), (.bf16, .fp16), (.i32, .fp16), (.n32, .fp16), (.n16, .fp16)].contains (ts, tt)
    let res := convert ts tt m pol x
    (etyIsFp tt = true →
      match v with
      | .nan sig => res = if down && pol == .trap then .trap else .ok (canonical f sig)
      | .inf neg => res = if down then outOfFp f pol neg false else .ok (signedInf f neg)
      | .fin neg k e =>
        (k = 0 → res = .ok (signedZero f neg)) ∧
        (k ≠ 0 → ∃ r, RoundsTo f m (exactOf (.fin neg k e)) r ∧
          res = if down && r.flags.testBit 2 then outOfFp f pol neg true else .ok r)) ∧
    (etyIsFp tt = false →
      match v with
      | .nan _ => res = if pol = .trap then .trap else .ok { bits := 0, flags := 1 }
      | .inf neg => res = outOfInt w lo hi pol neg
      | .fin neg k e => ∃ i, RoundsMag m neg ((k : ℝ) * 2 ^ e) i ∧
        (let y : Int := if neg then -(i : Int) else i
         (y < lo ∨ hi < y → res = outOfInt w lo hi pol neg) ∧
         (lo ≤ y → y ≤ hi → ∃ r, res = .ok r ∧ r.bits = (y % (2 ^ w : Nat)).toNat ∧
           RoundFlags ((i : ℝ) ≠ (k : ℝ) * 2 ^ e) False r.flags)))

/-- From R49, R73, R74, R209 and R210: a function word's lane is what R209 tables at a NaN, an infinity, a zero, outside the domain and
at a pole; reciprocals, square roots and their reciprocals round the exact value in the mode, or by `round_p` in the `.apx`
form. -/
def Claim.FunctionLanes : Prop :=
  ∀ (f : Fmt) (m : RMode) (apx : Bool), f ∈ formats →
    (∀ id mi pi mz pz, (id, mi, pi, mz, pz) ∈ functionTable →
      EndIs f (fnLane id f m apx (withSign f true (fmtInf f))) mi ∧ EndIs f (fnLane id f m apx (fmtInf f)) pi ∧
      EndIs f (fnLane id f m apx (withSign f true 0)) mz ∧ EndIs f (fnLane id f m apx 0) pz) ∧
    ∀ (x : Nat),
      let v := fpDecode f x
      let y (id : FnId) : FpRes := fnLane id f m apx x
      let rounded (z : ℝ) (r : FpRes) : Prop := if apx then RoundsApx f z r else RoundsTo f m z r
      (∀ sig id, v = .nan sig → y id = canonical f sig) ∧
      (isFin v = true → exactOf v < 0 → ∀ id, id ∈ [FnId.log, .log2, .sqrt, .rsqrt] → y id = canonical f true) ∧
      (isFin v = true → exactOf v = 1 → y .log = signedZero f false ∧ y .log2 = signedZero f false) ∧
      (isFin v = true → exactOf v = -1 → y .log1p = { signedInf f true with flags := 2 }) ∧
      (isFin v = true → exactOf v < -1 → y .log1p = canonical f true) ∧
      (isFin v = true → exactOf v ≠ 0 → rounded (1 / (exactOf v : ℝ)) (y .rcp)) ∧
      (isFin v = true → 0 < exactOf v → rounded (Real.sqrt (exactOf v)) (y .sqrt) ∧ rounded (1 / Real.sqrt (exactOf v)) (y .rsqrt))

/-- From R68 and R224: a chunk's products are summed exactly and rounded once to FP32 in RNE, a NaN product or infinities of both signs
give a NaN and an infinite product its infinity; the chunk sum is added to the element in RNE, and INF and NAN note an overflow and
a NaN. -/
def Claim.ChunksAreSummedExactly : Prop :=
  ∀ (f : Fmt) (el : AccEl) (a b : List Nat), f ∈ formats →
    let ps := (a.zip b).map (fun p => (fpDecode f p.1, fpDecode f p.2))
    let nanP (p : FpVal × FpVal) : Bool := isNan p.1 || isNan p.2 || (isInf p.1 && isZero p.2) || (isZero p.1 && isInf p.2)
    let infP (n : Bool) (p : FpVal × FpVal) : Bool := !nanP p && (isInf p.1 || isInf p.2) && ((signOf p.1 != signOf p.2) == n)
    let sum : ℚ := (ps.map (fun p => exactOf p.1 * exactOf p.2)).sum
    let cs := chunkSum f a b
    let e := fpStep f el a b
    let r := addVal fmt32 .rne (fpDecode fmt32 el.val.toNat) cs.1
    (ps.any nanP = true ∨ (ps.any (infP true) = true ∧ ps.any (infP false) = true) → cs = (.nan false, false)) ∧
    (∀ n, ps.any nanP = false → ps.any (infP n) = true → ps.any (infP (!n)) = false → cs = (.inf n, false)) ∧
    (ps.all (fun p => isFin p.1 && isFin p.2) = true →
      (sum ≠ 0 → ∃ x, RoundsTo fmt32 .rne sum x ∧ cs = (fpDecode fmt32 x.bits, x.flags.testBit 2)) ∧
      (sum = 0 → ∃ n, cs = (.fin n 0 0, false) ∧ (n = true ↔ ∀ p ∈ ps, signOf p.1 ≠ signOf p.2))) ∧
    e.val.toNat = r.bits ∧ e.inf = (el.inf || cs.2 || r.flags.testBit 2) ∧ e.nan = (el.nan || isNan (fpDecode fmt32 r.bits)) ∧
    e.sat = el.sat


namespace Sys2Proof.Machine

/-! ## Vector words -/

/-- Of the vector registers only D has changed: its element e is what `f` gives where `on` lets it be written and else as
before; VFLAGS has gained the flags of the elements written (R58, R174, R175). -/
def VecElems (s t : State) (d : Reg) (on : Nat → Bool) (f : Nat → ElRes) : Prop :=
  (∀ e, e < 1024 → vget (curCore t) d.toNat e = if on e then (f e).val else vget (curCore s) d.toNat e) ∧
  (∀ r e, r ≠ d.toNat → vget (curCore t) r e = vget (curCore s) r e) ∧
  (∀ n, n < 64 → (curCore t).vflags.getLsbD n =
    ((curCore s).vflags.getLsbD n || (decide (n < 6) && (List.range 1024).any (fun e => on e && (f e).flags.testBit n))))

/-- Nothing but the vector registers and VFLAGS has changed, and these as `VecElems` says. -/
def VecResult (s t : State) (d : Reg) (on : Nat → Bool) (f : Nat → ElRes) : Prop :=
  t = upCur s (fun c => { c with v := (curCore t).v, vflags := (curCore t).vflags }) ∧ VecElems s t d on f

/-- The lanes of one element computed from the lanes of one, two or three source elements, packed with their flags (R47). -/
def lanes1 (ty : ETy) (f : Nat → FpRes) (x : W32) : ElRes := elOf (etyBits ty) ((lanesOf ty x).map f)
def lanes2 (ty : ETy) (f : Nat → Nat → FpRes) (x y : W32) : ElRes :=
  elOf (etyBits ty) (((lanesOf ty x).zip (lanesOf ty y)).map (fun p => f p.1 p.2))
def lanes3 (ty : ETy) (f : Nat → Nat → Nat → FpRes) (x y z : W32) : ElRes :=
  elOf (etyBits ty) ((List.range (etyLanes ty)).map (fun k =>
    f (laneGet (etyBits ty) x k) (laneGet (etyBits ty) y k) (laneGet (etyBits ty) z k)))

/-- A value of an FP type. -/
def fpOf (ty : ETy) (x : Nat) : FpVal := fpDecode (fmtOf ty) x

/-- Word `i` runs to its end, element e of D being made of element e of A. -/
def Lane1 (s : State) (h : Hd) (i : Instr) (ty : ETy) (d a : Reg) (mk : Option Reg) (f : Nat → FpRes) : Prop :=
  ∃ t, exec i s = .next (goesOn h t) ∧
    VecResult (atHand s h) t d (maskOn (curCore s) mk) (fun e => lanes1 ty f (vget (curCore s) a.toNat e))

/-- Word `i` runs to its end, element e of D being made of element e of A and of B. -/
def Lane2 (s : State) (h : Hd) (i : Instr) (ty : ETy) (d a b : Reg) (mk : Option Reg) (f : Nat → Nat → FpRes) : Prop :=
  ∃ t, exec i s = .next (goesOn h t) ∧
    VecResult (atHand s h) t d (maskOn (curCore s) mk)
      (fun e => lanes2 ty f (vget (curCore s) a.toNat e) (vget (curCore s) b.toNat e))

/-- Word `i` runs to its end, element e of D being made of element e of A, B and E. -/
def Lane3 (s : State) (h : Hd) (i : Instr) (ty : ETy) (d a b z : Reg) (f : Nat → Nat → Nat → FpRes) : Prop :=
  ∃ t, exec i s = .next (goesOn h t) ∧
    VecResult (atHand s h) t d (fun _ => true)
      (fun e => lanes3 ty f (vget (curCore s) a.toNat e) (vget (curCore s) b.toNat e) (vget (curCore s) z.toNat e))

/-- Word `i` runs to its end, element e of D being what `f` gives, without flags. -/
def Moved (s : State) (h : Hd) (i : Instr) (d : Reg) (on : Nat → Bool) (f : Nat → W32) : Prop :=
  ∃ t, exec i s = .next (goesOn h t) ∧ VecResult (atHand s h) t d on (fun e => { val := f e })

/-- A lane of a wrapped integer (R51). -/
def wrapped (ty : ETy) (x : Int) : FpRes := { bits := (x % 2 ^ etyBits ty).toNat }

/-- The greatest and least value of an integer type (R46). -/
def clamped (ty : ETy) (x : Int) : FpRes :=
  let m : Int := 2 ^ (etyBits ty - 1)
  wrapped ty (if etySigned ty then max (-m) (min (m - 1) x) else max 0 (min (2 * m - 1) x))

end Sys2Proof.Machine

/-- From R50, R55, R58, R186, R187, R189 and R190: the floating-point words of V, lane by lane under the write mask, in the
word's rounding mode. Abs and neg touch the sign bit alone and raise no flag. -/
def Obligations.FloatingPointLanes : Prop :=
  ∀ (s : State) (h : Hd) (ty : ETy) (md : BitVec 6) (d a b e : Reg) (mk : Option Reg), Ready s h → etyIsFp ty = true →
    let f := fmtOf ty
    let m := modeIn s md
    let sign := 2 ^ (etyBits ty - 1)
    Lane2 s h (.vadd h ty md d a b mk) ty d a b mk (fun x y => addVal f m (fpOf ty x) (fpOf ty y)) ∧
    Lane2 s h (.vsub h ty md d a b mk) ty d a b mk (fun x y => addVal f m (fpOf ty x) (fpNeg (fpOf ty y))) ∧
    Lane2 s h (.vmul h ty md d a b mk) ty d a b mk (fun x y => mulVal f m (fpOf ty x) (fpOf ty y)) ∧
    Lane2 s h (.vdiv h ty md d a b mk) ty d a b mk (fun x y => divVal f m (fpOf ty x) (fpOf ty y)) ∧
    Lane2 s h (.vmin h ty md d a b mk) ty d a b mk (fun x y => minMax f false x y) ∧
    Lane2 s h (.vmax h ty md d a b mk) ty d a b mk (fun x y => minMax f true x y) ∧
    Lane1 s h (.vabs h ty d a mk) ty d a mk (fun x => { bits := if x < sign then x else x - sign }) ∧
    Lane1 s h (.vneg h ty d a mk) ty d a mk (fun x => { bits := if x < sign then x + sign else x - sign }) ∧
    Lane3 s h (.vfma h ty md d a b e) ty d a b e (fun x y z => fmaVal f m (fpOf ty x) (fpOf ty y) (fpOf ty z)) ∧
    Lane3 s h (.vfms h ty md d a b e) ty d a b e (fun x y z => fmaVal f m (fpOf ty x) (fpOf ty y) (fpNeg (fpOf ty z))) ∧
    Lane3 s h (.vfnma h ty md d a b e) ty d a b e (fun x y z => fmaVal f m (fpNeg (fpOf ty x)) (fpOf ty y) (fpOf ty z)) ∧
    Lane1 s h (.vclass h ty md d a mk) ty d a mk (fun x => { bits := classBit f x }) ∧
    Lane1 s h (.vrint h ty md d a mk) ty d a mk (fun x => rintVal f m x) ∧
    Lane2 s h (.vscale h ty md d a b mk) ty d a b mk (fun x y => scaleVal f m x (ofTwos (etyBits ty) true y))

/-- From R51 and R191–R193: the integer words of V, lane by lane over exact integers, wrapped, or clamped where the qualifier
asks for it; shifts by the width or more give 0 or copies of the sign; `vdot4` adds the four products of an element to
the element of E. -/
def Claim.IntegerLanes : Prop :=
  ∀ (s : State) (h : Hd) (ty : ETy) (md : BitVec 6) (q : Bool) (d a b e : Reg) (sh : Shamt) (mk : Option Reg), Ready s h →
    ty ∈ [ETy.i8, .i16, .i32, .n8, .n16, .n32] →
    let w := etyBits ty
    let fit (x : Int) : FpRes := if mdQual md then clamped ty x else wrapped ty x
    Lane2 s h (.vadd h ty md d a b mk) ty d a b mk (fun x y => fit (laneInt ty x + laneInt ty y)) ∧
    Lane2 s h (.vsub h ty md d a b mk) ty d a b mk (fun x y => fit (laneInt ty x - laneInt ty y)) ∧
    Lane2 s h (.vmul h ty md d a b mk) ty d a b mk (fun x y => fit (laneInt ty x * laneInt ty y)) ∧
    Lane2 s h (.vmin h ty md d a b mk) ty d a b mk (fun x y => { bits := if laneInt ty x < laneInt ty y then x else y }) ∧
    Lane2 s h (.vmax h ty md d a b mk) ty d a b mk (fun x y => { bits := if laneInt ty x < laneInt ty y then y else x }) ∧
    Lane1 s h (.vabs h ty d a mk) ty d a mk (fun x => wrapped ty |laneInt ty x|) ∧
    Lane1 s h (.vneg h ty d a mk) ty d a mk (fun x => wrapped ty (-laneInt ty x)) ∧
    Lane2 s h (.vmulh h ty d a b mk) ty d a b mk (fun x y => wrapped ty (laneInt ty x * laneInt ty y / 2 ^ w)) ∧
    Lane2 s h (.vand h ty d a b mk) ty d a b mk (fun x y => { bits := x &&& y }) ∧
    Lane2 s h (.vor h ty d a b mk) ty d a b mk (fun x y => { bits := x ||| y }) ∧
    Lane2 s h (.vxor h ty d a b mk) ty d a b mk (fun x y => { bits := x ^^^ y }) ∧
    Lane1 s h (.vnot h ty d a mk) ty d a mk (fun x => { bits := 2 ^ w - 1 - x }) ∧
    Lane1 s h (.vpopc h ty d a mk) ty d a mk (fun x => { bits := ((List.range w).filter (fun i => x.testBit i)).length }) ∧
    Lane1 s h (.vclz h ty d a mk) ty d a mk (fun x => { bits := if x = 0 then w else w - 1 - Nat.log2 x }) ∧
    (let by_ (g : Nat → Nat → FpRes) (i : Instr) : Prop :=
       match sh with
       | .reg r => Lane2 s h i ty d a r mk g
       | .imm n => Lane1 s h i ty d a mk (fun x => g x (n.toNat % 32));
     by_ (fun x m => { bits := if w ≤ m then 0 else x * 2 ^ m % 2 ^ w }) (.vshl h ty d a sh mk) ∧
     by_ (fun x m => { bits := if w ≤ m then 0 else x / 2 ^ m }) (.vshr h ty d a sh mk) ∧
     by_ (fun x m => wrapped ty (ofTwos w true x / 2 ^ (min m w))) (.vsar h ty d a sh mk)) ∧
    (ty = .i8 ∨ ty = .n8 → ∃ t, exec (.vdot4 h ty q d a b e) s = .next (goesOn h t) ∧
      VecResult (atHand s h) t d (fun _ => true) (fun i =>
        let c := curCore s
        let x : Int := ofTwos 32 (etySigned ty) (vget c e.toNat i).toNat +
          ((List.range 4).map (fun k => laneInt ty (laneGet 8 (vget c a.toNat i) k) * laneInt ty (laneGet 8 (vget c b.toNat i) k))).sum
        let wide : ETy := if etySigned ty then .i32 else .n32
        { val := BitVec.ofNat 32 (if q then clamped wide x else wrapped wide x).bits }))

/-- From R50, R199, R205 and R206: words that move whole elements or lanes keep every bit and raise no flag. -/
def Claim.ElementMoves : Prop :=
  ∀ (s : State) (h : Hd) (ax : Axis) (ty : ETy) (d a b e : Reg) (n : Idx) (mk : Option Reg), Ready s h →
    let c := curCore s
    let on := maskOn c mk
    let l := etyLanes ty
    let idx := match n with | .reg r => (rd s r).toNat | .imm k => k.toNat
    let j := idx % (1024 * l)
    Moved s h (.vmov h ty d a mk) d on (vget c a.toNat) ∧
    Moved s h (.vmovBc h ty d a mk) d on (fun _ => laneElem (etyBits ty) (List.replicate l (rd s a).toNat)) ∧
    Moved s h (.vsel h ty d a b e) d (fun _ => true) (fun i => if (kget c e.toNat).getLsbD i then vget c a.toNat i else vget c b.toNat i) ∧
    Moved s h (.vrot h ax ty d a n mk) d on (fun i => vget c a.toNat (match ax with
      | .row => i / 64 * 64 + (i % 64 + 64 - idx % 64) % 64
      | .col => (i / 64 + 16 - idx % 16) % 16 * 64 + i % 64)) ∧
    Moved s h (.vbcast h ax ty d a n mk) d on (fun i => vget c a.toNat (match ax with
      | .row => i / 64 * 64 + idx % 64
      | .col => idx % 16 * 64 + i % 64)) ∧
    exec (.vext h ty d a n) s = .next (goesOn h (wr (atHand s h) d (extendTy ty (etyBits ty) (groupVal c ty a.toNat j)))) ∧
    (∃ t, exec (.vins h ty d a n) s = .next (goesOn h t) ∧ (etyBits ty ≤ 32 →
      t = upCur (atHand s h) (fun c => { c with v := (curCore t).v }) ∧
      (∀ r i, r ≠ d.toNat ∨ i ≠ j / l → vget (curCore t) r i = vget c r i) ∧
      ∀ k, k < l → laneGet (etyBits ty) (vget (curCore t) d.toNat (j / l)) k =
        if k = j % l then (rd s a).toNat % 2 ^ etyBits ty else laneGet (etyBits ty) (vget c d.toNat (j / l)) k))

/-- From R57, R58 and R185: VMODE and VFLAGS are read whole; a write of VMODE takes RMODE 0–4 and SAT and ignores the rest, a
write of VFLAGS takes its six flags. -/
def Claim.VectorModeAndFlags : Prop :=
  ∀ (s : State) (h : Hd) (d a : Reg), Ready s h →
    let p := atHand s h
    exec (.vmodeRd h d) s = .next (goesOn h (wr p d (curCore s).vmode)) ∧
    exec (.vflagsRd h d) s = .next (goesOn h (wr p d (curCore s).vflags)) ∧
    (∃ v : Word, exec (.vmodeWr h a) s = .next (goesOn h (upCur p (fun c => { c with vmode := v }))) ∧
      v.toNat < 32 ∧ v.toNat / 8 = (rd s a).toNat / 8 % 4 ∧
      v.toNat % 8 = if (rd s a).toNat % 8 < 5 then (rd s a).toNat % 8 else (curCore s).vmode.toNat % 8) ∧
    (∃ v : Word, exec (.vflagsWr h a) s = .next (goesOn h (upCur p (fun c => { c with vflags := v }))) ∧
      v.toNat = (rd s a).toNat % 64)

/-- From R58, R175, R188 and R203: a comparison writes, for each lane of the type, the relation of the elements under its mask
and 0 for the others, and VFLAGS gains the flags of those it compares; the mask words compute bit by bit, count, find the first bit and make masks. -/
def Claim.ComparesAndMasks : Prop :=
  ∀ (s : State) (h : Hd) (r : VRel) (ty : ETy) (d a b : Reg) (mk : Option Reg), Ready s h →
    let p := atHand s h
    let c := curCore s
    let masked (i : Instr) (m : BitVec 1024) : Prop := exec i s = .next (goesOn h (upCur p (fun c => kset c d.toNat m)))
    (∃ t, exec (.vcmp h r ty d a b mk) s = .next (goesOn h t) ∧
      t = upCur p (fun c => { c with k := (curCore t).k, vflags := (curCore t).vflags }) ∧
      (∀ i e, i < etyLanes ty → e < 1024 → (kget (curCore t) (d.toNat + i)).getLsbD e =
        (maskOn c mk e && (cmpLane r ty (laneGet (etyBits ty) (vget c a.toNat e) i) (laneGet (etyBits ty) (vget c b.toNat e) i)).1)) ∧
      (∀ j, j < d.toNat ∨ d.toNat + etyLanes ty ≤ j → kget (curCore t) j = kget c j) ∧
      ∀ n, n < 64 → (curCore t).vflags.getLsbD n = (c.vflags.getLsbD n || (decide (n < 6) && (List.range 1024).any (fun e => maskOn c mk e &&
        (List.range (etyLanes ty)).any (fun i =>
          (cmpLane r ty (laneGet (etyBits ty) (vget c a.toNat e) i) (laneGet (etyBits ty) (vget c b.toNat e) i)).2.testBit n))))) ∧
    masked (.kand h d a b) (kget c a.toNat &&& kget c b.toNat) ∧
    masked (.kor h d a b) (kget c a.toNat ||| kget c b.toNat) ∧
    masked (.kxor h d a b) (kget c a.toNat ^^^ kget c b.toNat) ∧
    masked (.knot h d a) (~~~ kget c a.toNat) ∧
    masked (.kmov h d a) (kget c a.toNat) ∧
    masked (.kmovSet h d) (BitVec.allOnes 1024) ∧
    masked (.kmovClr h d) 0 ∧
    (∃ m, masked (.kmovFirst h d a) m ∧ ∀ e, e < 1024 → m.getLsbD e = decide (e < (rd s a).toNat)) ∧
    (∃ v : Word, exec (.kpopc h d a) s = .next (goesOn h (wr p d v)) ∧
      v.toNat = ((List.range 1024).filter (fun e => (kget c a.toNat).getLsbD e)).length) ∧
    (∃ v : Word, exec (.kffs h d a) s = .next (goesOn h (wr p d v)) ∧ v.toNat ≤ 1024 ∧
      (∀ e, e < v.toNat → (kget c a.toNat).getLsbD e = false) ∧ (v.toNat < 1024 → (kget c a.toNat).getLsbD v.toNat = true))

/-- From R65–R67 and R200–R202: a reduction writes to every element of a line the tree over the line's present operands, a
scan the tree's prefix at each position, and a segmented reduction the tree over each element's segment. The model's
choices in it: a canonical NaN from every reduction (log 81), -0 below +0 for argmax (log 114). -/
def Obligations.ReductionsAndScans : Prop :=
  ∀ (s : State) (h : Hd) (op : RedOp) (ax : Axis) (ty : ETy) (md : BitVec 6) (d a e : Reg) (mk : Option Reg), Ready s h →
    let p := atHand s h
    let c := curCore s
    let w := etyBits ty
    let lane (f : Nat → FpRes) : ElRes := elOf w ((List.range (etyLanes ty)).map f)
    (∃ t, exec (.vred h op ax ty md d a mk) s = .next (goesOn h t) ∧
      VecResult p t d (fun _ => true) (fun i => lane (fun k => redResult ty op 0
        (treeReduce (redOp s ty md op) (axisLog ax) (lineVals c ty a.toNat mk ax (axisLine ax i) k))))) ∧
    (∃ t, exec (.vscan h op ax ty md d a mk) s = .next (goesOn h t) ∧
      VecResult p t d (fun _ => true) (fun i => lane (fun k => redResult ty op 0
        ((treeScan (redOp s ty md op) (axisLog ax) (lineVals c ty a.toNat mk ax (axisLine ax i) k)).getD (axisPos ax i) none)))) ∧
    (∃ t, exec (.vsred h op ty md d a e) s = .next (goesOn h t) ∧
      VecResult p t d (fun _ => true) (fun i =>
        let b := segStart (kget c e.toNat) i
        lane (fun k => redResult ty op b (treeReduce (redOp s ty md op) 10 ((List.range 1024).map (fun j =>
          if segStart (kget c e.toNat) j = b then some (lineVal ty (laneGet w (vget c a.toNat j) k) j) else none))))))

namespace Sys2Proof.Machine

/-- Value (r, e, k) of a conversion: lane k of element e of register D + r. -/
def convAt (tt : ETy) (r e k : Nat) : Nat := 1024 * etyLanes tt * r + etyLanes tt * e + k

/-- Element e, which `on` lets be written, has a trapping lane (R62). -/
def ConvTraps (tt : ETy) (n : Nat) (on : Nat → Bool) (f : Nat → ConvRes) (e : Nat) : Prop :=
  on e = true ∧ ∃ r k, r < n ∧ k < etyLanes tt ∧ f (convAt tt r e k) = .trap

/-- VFLAGS has gained the flags of every lane that is written (R58). -/
def ConvFlagged (s t : State) (tt : ETy) (n : Nat) (on : Nat → Bool) (f : Nat → ConvRes) : Prop :=
  ∀ i, i < 64 → (curCore t).vflags.getLsbD i = ((curCore s).vflags.getLsbD i || (decide (i < 6) &&
    (List.range 1024).any (fun e => on e && (List.range n).any (fun r => (List.range (etyLanes tt)).any (fun k =>
      (convFlags (f (convAt tt r e k))).testBit i)))))

/-- The word traps, naming every trapping element and the count of trapping lanes (R62, R308). -/
def ConvTrapped (s : State) (h : Hd) (i : Instr) (tt : ETy) (n : Nat) (on : Nat → Bool) (f : Nat → ConvRes) : Prop :=
  ∃ mask : BitVec 1024, (∀ e, e < 1024 → (mask.getLsbD e = true ↔ ConvTraps tt n on f e)) ∧
    (let lanes := ((List.range n).flatMap (fun r => (List.range 1024).flatMap (fun e =>
       (List.range (etyLanes tt)).filter (fun k => on e && f (convAt tt r e k) == .trap)))).length
     let q := upCurEng (atHand s h) (fun e => { e with issued := true })
     exec i s = .next (raiseTrap q { code := 1 } lanes mask (textAddr q (curEng q).pc) (wordAt q (curEng q).pc).toNat))

/-- What a conversion of values `f` comes to: without a trapping lane the word runs to its end, element e of register D + r
holds the lanes of its values where `on` lets it be written, and VFLAGS gains their flags; with one it traps (R62, R195). -/
def Converts (s : State) (h : Hd) (i : Instr) (tt : ETy) (d n : Nat) (on : Nat → Bool) (f : Nat → ConvRes) : Prop :=
  let p := atHand s h
  ((∀ e, e < 1024 → ¬ ConvTraps tt n on f e) → ∃ t, exec i s = .next (goesOn h t) ∧
    t = upCur p (fun c => { c with v := (curCore t).v, vflags := (curCore t).vflags }) ∧
    (∀ r e, r < n → e < 1024 → vget (curCore t) (d + r) e =
      if on e then laneElem (etyBits tt) ((List.range (etyLanes tt)).map (fun k => convBits (f (convAt tt r e k))))
      else vget (curCore s) (d + r) e) ∧
    (∀ r e, r < d ∨ d + n ≤ r → vget (curCore t) r e = vget (curCore s) r e) ∧ ConvFlagged s t tt n on f) ∧
  ((∃ e, e < 1024 ∧ ConvTraps tt n on f e) → ConvTrapped s h i tt n on f)

/-- The function instruction of a function and variant. -/
def fnInstr (id : FnId) (apx : Bool) (h : Hd) (ty : ETy) (md : BitVec 6) (d a e : Reg) : Instr :=
  match id with
  | .exp => if apx then .vexpApx h ty md d a e else .vexp h ty md d a e
  | .exp2 => if apx then .vexp2Apx h ty md d a e else .vexp2 h ty md d a e
  | .expm1 => if apx then .vexpm1Apx h ty md d a e else .vexpm1 h ty md d a e
  | .log => if apx then .vlogApx h ty md d a e else .vlog h ty md d a e
  | .log2 => if apx then .vlog2Apx h ty md d a e else .vlog2 h ty md d a e
  | .log1p => if apx then .vlog1pApx h ty md d a e else .vlog1p h ty md d a e
  | .rcp => if apx then .vrcpApx h ty md d a e else .vrcp h ty md d a e
  | .sqrt => if apx then .vsqrtApx h ty md d a e else .vsqrt h ty md d a e
  | .rsqrt => if apx then .vrsqrtApx h ty md d a e else .vrsqrt h ty md d a e
  | .sin => if apx then .vsinApx h ty md d a e else .vsin h ty md d a e
  | .cos => if apx then .vcosApx h ty md d a e else .vcos h ty md d a e
  | .tanh => if apx then .vtanhApx h ty md d a e else .vtanh h ty md d a e
  | .logistic => if apx then .vlogisticApx h ty md d a e else .vlogistic h ty md d a e

/-- The header and destination of a word that changes, besides its engine's block and FIFOs, one vector register and
VFLAGS. -/
def vecDest : Instr → Option (Hd × Reg)
  | .vadd h _ _ d _ _ _ | .vsub h _ _ d _ _ _ | .vmul h _ _ d _ _ _ | .vmin h _ _ d _ _ _ | .vmax h _ _ d _ _ _
  | .vdiv h _ _ d _ _ _ | .vscale h _ _ d _ _ _ | .vabs h _ d _ _ | .vneg h _ d _ _ | .vfma h _ _ d _ _ _ | .vfms h _ _ d _ _ _
  | .vfnma h _ _ d _ _ _ | .vclass h _ _ d _ _ | .vrint h _ _ d _ _ | .vmulh h _ d _ _ _ | .vshl h _ d _ _ _ | .vshr h _ d _ _ _
  | .vsar h _ d _ _ _ | .vand h _ d _ _ _ | .vor h _ d _ _ _ | .vxor h _ d _ _ _ | .vnot h _ d _ _ | .vpopc h _ d _ _
  | .vclz h _ d _ _ | .vdot4 h _ _ d _ _ _ | .vins h _ d _ _ | .vmov h _ d _ _ | .vmovBc h _ d _ _ | .vsel h _ d _ _ _
  | .vrot h _ _ d _ _ _ | .vbcast h _ _ d _ _ _ | .vred h _ _ _ _ d _ _ | .vscan h _ _ _ _ d _ _ | .vsred h _ _ _ d _ _
  | .vplanePk h _ d _ _ | .vplaneUn h _ d _ _ => some (h, d)
  | _ => none

/-- The header and destination of a word that changes, besides its engine's block and FIFOs, one mask register. -/
def maskDest : Instr → Option (Hd × Reg)
  | .kand h d _ _ | .kor h d _ _ | .kxor h d _ _ | .knot h d _ | .kmov h d _ | .kmovSet h d | .kmovClr h d | .kmovFirst h d _ =>
    some (h, d)
  | _ => none

end Sys2Proof.Machine

/-- From R194–R198: `vcvt` converts value by value across its groups; `vqnt` gives codes by the scale of their block of 128, or
by the scale in a register, where a NaN, infinite or negative scale gives codes 0 and INVALID; `vdqnt` multiplies
reconstructed codes by their scales; `vplane` packs and unpacks bit-planes. Every written lane's flags enter VFLAGS (R58), and where
a lane traps the word traps, of `vqnt` as of `vcvt` (R62). -/
def Claim.ConversionsAndQuantisation : Prop :=
  ∀ (s : State) (h : Hd) (ty : ETy) (md : BitVec 6) (d a b : Reg) (mk : Option Reg) (imm : W32), Ready s h →
    let c := curCore s
    let ts := etyOr (imm.toNat % 16)
    let m := modeIn s md
    let pol := policyIn s md
    let x (j : Nat) : FpVal := fpDecode (fmtOf ts) (groupVal c ts a.toNat j)
    let block (n : Nat) : Nat := blockScale fmtBf ((List.range 128).map (fun i => x (128 * n + i)))
    let s32 := fpDecode fmt32 ((rd s b).toNat % 2 ^ 32)
    let k := imm.toNat / 16 % 16 + 1
    let code (j : Nat) := planeVal (groupVal c .i8 a.toNat j) k (mdQual md)
    Converts s h (.vcvt h ty md d a mk imm) ty d.toNat (max 1 (etyLanes ts / etyLanes ty)) (maskOn c mk)
      (fun j => convert ts ty m pol (groupVal c ts a.toNat j)) ∧
    (let q (j : Nat) : ConvRes := quantise (x j) (fpDecode fmtBf (block (j / 128))) pol
     ((∀ e, e < 1024 → ¬ ConvTraps .i8 1 (fun _ => true) q e) →
      ∃ t, exec (.vqntBlk h ty md d a imm) s = .next (goesOn h t) ∧
        t = upCur (atHand s h) (fun c => { c with v := (curCore t).v, vflags := (curCore t).vflags }) ∧
        (∀ e, e < 1024 → vget (curCore t) d.toNat e = laneElem 8 ((List.range 4).map (fun i => convBits (q (4 * e + i))))) ∧
        (∀ e, e < 16 → vget (curCore t) (d.toNat + 1) e = laneElem 16 [block (2 * e), block (2 * e + 1)]) ∧
        (∀ e, 16 ≤ e → e < 1024 → vget (curCore t) (d.toNat + 1) e = 0) ∧
        (∀ r e, r ≠ d.toNat → r ≠ d.toNat + 1 → vget (curCore t) r e = vget c r e) ∧
        ConvFlagged s t .i8 1 (fun _ => true) q) ∧
     ((∃ e, e < 1024 ∧ ConvTraps .i8 1 (fun _ => true) q e) → ConvTrapped s h (.vqntBlk h ty md d a imm) .i8 1 (fun _ => true) q)) ∧
    (badScale s32 = false → Converts s h (.vqntS h ty md d a b imm) .i8 d.toNat 1 (fun _ => true) (fun j => quantise (x j) s32 pol)) ∧
    (badScale s32 = true → ∃ t, exec (.vqntS h ty md d a b imm) s = .next (goesOn h t) ∧
      t = upCur (atHand s h) (fun c => { c with v := (curCore t).v, vflags := c.vflags ||| 1 }) ∧
      (∀ e, e < 1024 → vget (curCore t) d.toNat e = 0) ∧ ∀ r e, r ≠ d.toNat → vget (curCore t) r e = vget c r e) ∧
    Converts s h (.vdqntBlk h ty md d a imm) ts d.toNat (4 / etyLanes ts) (fun _ => true)
      (fun j => .ok (dequant (fmtOf ts) m (code j) (fpDecode fmtBf (groupVal c .bf16 (a.toNat + 1) (j / 128))))) ∧
    Converts s h (.vdqntS h ty md d a b imm) ts d.toNat (4 / etyLanes ts) (fun _ => true)
      (fun j => .ok (dequant (fmtOf ts) m (code j) s32)) ∧
    (∃ t, exec (.vplanePk h ty d a imm) s = .next (goesOn h t) ∧ VecResult (atHand s h) t d (fun _ => true)
      (fun e => { val := laneElem 8 ((List.range 4).map (fun i => planeByte (groupVal c .n8 a.toNat) (imm.toNat % 16) (4 * e + i))) })) ∧
    (∃ t, exec (.vplaneUn h ty d a imm) s = .next (goesOn h t) ∧ VecResult (atHand s h) t d (fun _ => true)
      (fun e => { val := laneElem 8 ((List.range 4).map (fun i => planeCode (groupVal c .n8 a.toNat) (imm.toNat % 16) (4 * e + i))) }))

/-- From R52: the first k planes of a code give its floor value, the sum of its bits by their weights, and below eight planes
the midpoint adds 2^(7−k); eight planes give the code. -/
def Claim.BitPlaneValues : Prop :=
  ∀ (c k : Nat), c < 256 → 1 ≤ k → k ≤ 8 →
    let weight (i : Nat) : Int := if i = 0 then -128 else 2 ^ (7 - i)
    let floor : Int := ((List.range k).map (fun i => (if c.testBit (7 - i) then 1 else 0) * weight i)).sum
    planeVal c k false = floor ∧
    planeVal c k true = (if k < 8 then floor + 2 ^ (7 - k) else floor) ∧
    planeVal c 8 false = (BitVec.ofNat 8 c).toInt

/-- From R207, R208 and R213: a function word with a free place among the eight in flight runs to its end, every lane
being the function of its lane; with `.p2m` the mask of its phase-2 elements goes to K register E; it takes a place if
it has such elements, and `phase-2 complete` frees one. With no place free it waits. The model's choices in it: the
results written at issue, a place taken only by a word with phase-2 elements (log 41), the ninth word as an issued one
(log 77). -/
def Obligations.FunctionWords : Prop :=
  (∀ (s : State) (id : FnId) (apx : Bool) (h : Hd) (ty : ETy) (md : BitVec 6) (d a e : Reg), Ready s h →
    let c := curCore s
    let p := atHand s h
    let later (i : Nat) : Bool := toPhase2 s id ty apx md (vget c a.toNat i)
    (c.fnFlight < 8 → ∃ t, exec (fnInstr id apx h ty md d a e) s = .next (goesOn h t) ∧
      t = upCur p (fun c => { c with v := (curCore t).v, vflags := (curCore t).vflags, k := (curCore t).k,
                                     fnFlight := (curCore t).fnFlight }) ∧
      VecElems p t d (fun _ => true) (fun i => lanes1 ty (fnLane id (fmtOf ty) (modeIn s md) apx) (vget c a.toNat i)) ∧
      (mdQual md = true → ∀ i, i < 1024 → (kget (curCore t) e.toNat).getLsbD i = later i) ∧
      (∀ r, mdQual md = false ∨ r ≠ e.toNat → kget (curCore t) r = kget c r) ∧
      (curCore t).fnFlight = c.fnFlight + (if (List.range 1024).any later then 1 else 0)) ∧
    (8 ≤ c.fnFlight → exec (fnInstr id apx h ty md d a e) s =
      .next (upCurEng p (fun e => { waitOn p.tick e 0 0 0 with issued := true })))) ∧
  ∀ (s : State) (core : Nat), ∃ t, exec (.phase2Complete core) s = .next t ∧
    (coreAt t core).fnFlight = (coreAt s core).fnFlight - 1 ∧ (coreAt t core).v = (coreAt s core).v

/-- From R81–R83 and R178–R184: memory words of V whose accesses are all answered run to their end: a tile load with its
rows in the register group, a tile store with its rows issued, a ragged word with the packed rows placed, the row mask
written and the table moved on, a gather with its elements read. -/
def Claim.VectorMemoryWords : Prop :=
  ∀ (s : State) (h : Hd) (ty : ETy) (q : Bool) (v : KrlVar) (d a b e : Reg) (mk : Option Reg) (imm : W32) (t : State), Ready s h →
    let p := atHand s h
    let g := groupSize imm
    (∀ l rows, tileAddrs p a b imm = .ok l → coreLoads q (l.map (fun x => (x, 256))) p = .ok rows t →
      exec (.vld h ty q d a b imm) s = .next (goesOn h (putRows t d.toNat g rows))) ∧
    (∀ l, tileAddrs p a b imm = .ok l →
      coreStores ((List.range l.length).map (fun i => (l.getD i 0, groupRow (curCore p) e.toNat i))) p = .ok () t →
      exec (.vst h ty a b e imm) s = .next (goesOn h t)) ∧
    (∀ l gs, spOk (rd p a) (rd p b) false = true → spType (rd p b) = etyCode ty →
      spGranules (rd p a) (rd p b) (imm.toNat % 2 ^ 24) (16 * g) = .ok l → coreLoads true (l.map (fun x => (x, 16))) p = .ok gs t →
      exec (.vldSp h ty q d a b imm) s = .next (goesOn h (putRows t d.toNat g (joinRows (16 * g) gs)))) ∧
    (∀ l, spOk (rd p a) (rd p b) true = true → spType (rd p b) = etyCode ty →
      spGranules (rd p a) (rd p b) (imm.toNat % 2 ^ 24) (16 * g) = .ok l →
      coreStores ((List.range l.length).map (fun i =>
        (l.getD i 0, ((groupRow (curCore p) e.toNat (i / 16)).drop (16 * (i % 16))).take 16))) p = .ok () t →
      exec (.vstSp h ty a b e imm) s = .next (goesOn h t)) ∧
    (∀ ea rows used u l bs, effAddr (rd p a) imm.toInt = some ea → ragged p ty q ea b = .ok (rows, used) u →
      allAddrs ((rowAddrs ea (rgPitch (rdN u (b.toNat + 1))) rows (fun r => 4 * r.need)).map (fun x => x.1)) = .ok l →
      coreLoads q (((fullRows rows).zip l).map (fun x => (x.2, 4 * x.1.need))) u = .ok bs t →
      exec (.vldr h ty q d a b e imm) s = .next (goesOn h (advanceTable (upCur t (fun c =>
        kset (vsetList c d.toNat (placeRows (etyBits ty) ((fullRows rows).zip bs))) e.toNat (rowMask .start rows))) b used))) ∧
    (∀ ea rows used u l, effAddr (rd p a) imm.toInt = some ea → ragged p ty false ea b = .ok (rows, used) u →
      allAddrs ((rowAddrs ea (rgPitch (rdN u (b.toNat + 1))) rows (fun r => r.len * etyBits ty / 8)).map (fun x => x.1)) = .ok l →
      coreStores (((fullRows rows).zip l).map (fun x =>
        (x.2, ((regBytes (curCore u) e.toNat).drop (4 * x.1.el)).take (x.1.len * etyBits ty / 8)))) u = .ok () t →
      exec (.vstr h ty a b e imm) s = .next (goesOn h (advanceTable t b used))) ∧
    (∀ rows used, ragged p ty false (rd p b).toNat b = .ok (rows, used) t →
      exec (.krl h v ty d b) s = .next (goesOn h (upCur t (fun c => kset c d.toNat (rowMask v rows))))) ∧
    (∀ ea bs, effAddr (rd p a) imm.toInt = some ea → ea / 2 ^ 48 = 0xFFFE → ea % 4 = 0 →
      (let on := (List.range 1024).filter (maskOn (curCore p) mk);
       let off (i : Nat) : Nat := ea % 2 ^ 48 + 4 * (vget (curCore p) b.toNat i).toNat;
       (∀ i ∈ on, off i < 2 ^ 26) → coreLoads true (on.map (fun i => (0xFFFE * 2 ^ 48 + off i, 4))) p = .ok bs t →
       ∃ u, exec (.vldx h ty d a b mk imm) s = .next (goesOn h u) ∧ u = upCur t (fun c => { c with v := (curCore u).v }) ∧
         ∀ i, i < 1024 → vget (curCore u) d.toNat i =
           if maskOn (curCore p) mk i then BitVec.ofNat 32 (leNat (bs.getD (on.idxOf i) [])) else vget (curCore p) d.toNat i))

/-- From R141, R174 and R178: the rows of a tile lie at the effective address plus the row's number times the pitch, as long as
each stays within the handle and is a multiple of 4, and row ρ of a register group is elements 64 × (ρ mod 16) and on of
its register ⌊ρ ÷ 16⌋, both for loads and for stores. -/
def Claim.TileRows : Prop :=
  (∀ (s : State) (a b : Reg) (imm : W32) (ea : Nat), effAddr (rd s a) (imm.extractLsb' 0 29 : BitVec 29).toInt = some ea →
    let at_ (row : Nat) : Int := (ea % 2 ^ 48 : Nat) + row * (rd s b).toInt
    let g := 2 ^ (imm.toNat / 2 ^ 29)
    (∀ row, row < 16 * g → 0 ≤ at_ row ∧ at_ row < 2 ^ 48 ∧ at_ row % 4 = 0) →
    ∃ l, tileAddrs s a b imm = .ok l ∧ l.length = 16 * g ∧
      ∀ row, row < 16 * g → (l.getD row 0 : Int) = (ea / 2 ^ 48 * 2 ^ 48 : Nat) + at_ row) ∧
  (∀ (s : State) (d g : Nat) (rows : List (List Byte)), rows.length = 16 * g → (∀ r ∈ rows, r.length = 256) →
    ∀ row j, row < 16 * g → j < 64 →
      vget (curCore (putRows s d g rows)) (d + row / 16) (row % 16 * 64 + j) =
        BitVec.ofNat 32 (leNat (((rows.getD row []).drop (4 * j)).take 4))) ∧
  ∀ (c : Core) (r row j : Nat), j < 64 →
    leNat (((groupRow c r row).drop (4 * j)).take 4) = (vget c (r + row / 16) (row % 16 * 64 + j)).toNat

/-- From R29, R58 and R175: besides its engine's block and FIFOs, and what its core holds of a join section that it ends, a word that writes one vector
register changes that register and VFLAGS alone, and a word that writes one mask register that register alone. -/
def Obligations.VectorWordFrame : Prop :=
  ∀ (i : Instr) (s t : State) (h : Hd) (d : Reg), exec i s = .next t →
    let c := curCore s
    let u := curCore t
    let kept (x : Core) : Prop := OnlyCore s t ∧ SameMemory s t ∧ (curEng t).preds = (curEng s).preds ∧
      (secKind s ≠ 3 → joinKept c u) ∧
      u = setEngSt { x with fifos := u.fifos, jlast := u.jlast, jseen := u.jseen, tnew := u.tnew, tsync := u.tsync } s.cur.eng (engSt u s.cur.eng)
    (vecDest i = some (h, d) → kept { c with v := u.v, vflags := u.vflags } ∧
      ∀ r e, r ≠ d.toNat ∨ liveWord (curEng s) h = false → vget u r e = vget c r e) ∧
    (maskDest i = some (h, d) → kept { c with k := u.k } ∧ ∀ r, r ≠ d.toNat ∨ liveWord (curEng s) h = false → kget u r = kget c r)
namespace Sys2Proof.Machine

/-! ## The matrix array -/

/-- The executing core takes part in its team's lease of a working array (R215–R218). -/
def ArrayReady (s : State) : Prop :=
  (curCore s).held = true ∧ SMap.get false s.deadArrays (s.cur.core / 16) = false ∧
  (clusterAt s (s.cur.core / 16)).holder = some (curCore s).tid

/-- A word that touches the array. -/
def touchesArray : Instr → Option Hd
  | .accZero h _ | .accSwap h _ | .accRd h _ _ _ | .accFlag h _ _ | .mma h _ _ _ _ _ _ _ => some h
  | _ => none

/-- The operands that R223 admits, of a word that has such operands. -/
def operandsFit (c : Core) : Instr → Prop
  | .mma _ ty _ _ _ a b imm => mmaOk c ty a b (imm.toNat % 256 + 1) = true
  | _ => True

end Sys2Proof.Machine

/-- From R215–R220: `lease.acq` runs to its end for a participant and for a team that holds the lease, is granted a free
array that no team waits for, with every bank fresh or the team's own contents, and waits otherwise; `lease.rel` ends
the core's part, and the lease with its last participant; `lease.st` reads the fields of R219. A cluster without its
array is a fatal error. -/
def Claim.LeasesOfTheArray : Prop :=
  ∀ (s : State) (h : Hd) (d : Reg) (imm : W32), Ready s h →
    let p := atHand s h
    let cl := s.cur.core / 16
    let tid := (curCore s).tid
    let x := clusterAt s cl
    let dead := SMap.get false s.deadArrays cl
    let part := x.holder = some tid ∨ (curCore s).held = true
    let lease := if x.holder = some tid then x.lease else ((curTeam s).lease).getD {}
    (dead = true → exec (.leaseAcq h imm) s = .next (fatalHere p { code := 0xB, info := cl })) ∧
    (dead = false → part → exec (.leaseAcq h imm) s = .next (goesOn h (upCur p (fun c => { c with held := true })))) ∧
    (dead = false → ¬ part → x.holder = none ∧ x.waiters = [] → ∃ t, exec (.leaseAcq h imm) s = .next (goesOn h t) ∧
      (curCore t).held = true ∧ (clusterAt t cl).holder = some tid ∧ (curTeam t).lease = none ∧
      (clusterAt t cl).lease = (match (curTeam s).lease with
        | none => { runlen := imm.toNat % 2 ^ 16, runrem := imm.toNat % 2 ^ 16 }
        | some l => { l with runrem := l.runlen })) ∧
    (dead = false → ¬ part → ¬ (x.holder = none ∧ x.waiters = []) → ∃ t, exec (.leaseAcq h imm) s = .next t ∧
      (curEng t).wait.kind = 11 ∧ (curEng t).issued = true ∧ (clusterAt t cl).holder = x.holder ∧
      ∃ w ∈ (clusterAt t cl).waiters, w.1 = tid) ∧
    (∃ t, exec (.leaseRel h) s = .next (goesOn h t) ∧ (curCore t).held = false ∧
      ((curCore s).held = true → (∀ n ∈ (curTeam s).cores, n ≠ s.cur.core → (coreAt s n).held = false) → (curTeam s).lease = none →
        (clusterAt t cl).holder ≠ some tid)) ∧
    (∃ v : Word, exec (.leaseSt h d) s = .next (goesOn h (wr p d v)) ∧
      (lease.runlen < 2 ^ 16 → lease.runrem < 2 ^ 16 → lease.hover < 256 →
        v.toNat = lease.runlen + lease.runrem * 2 ^ 16 + lease.hover * 2 ^ 32 + (if (curCore s).held then 2 ^ 40 else 0) +
          (if x.waiters.any (fun w => w.1 != tid) then 2 ^ 41 else 0)))

/-- From R216 and R217: a free array goes to a waiting team of highest priority; a holder whose run is over, outside regions,
with a waiter of its priority or above, gives the array up, its contents kept with its count of hand-overs raised. -/
def Claim.LeaseGrantAndHandOver : Prop :=
  ∀ (s : State) (cl : Nat),
    let x := clusterAt s cl
    (x.holder = none → x.waiters ≠ [] → ∃ t w, exec (.leaseGrant cl) s = .next t ∧ w ∈ x.waiters ∧
      (∀ v ∈ x.waiters, (teamAt s v.1).prio ≤ (teamAt s w.1).prio) ∧ (clusterAt t cl).holder = some w.1 ∧
      (∀ v ∈ (clusterAt t cl).waiters, v.1 ≠ w.1)) ∧
    (x.holder ≠ none ∨ x.waiters = [] → exec (.leaseGrant cl) s = .next s) ∧
    (∀ tid, x.holder = some tid → (teamAt s tid).image = none → (∀ v ∈ x.waiters, v.1 ≠ tid) →
      let due := x.lease.runlen ≠ 0 ∧ x.lease.runrem = 0 ∧ (∀ n ∈ (teamAt s tid).cores, (coreAt s n).npre = false) ∧
        ∃ v ∈ x.waiters, (teamAt s tid).prio ≤ (teamAt s v.1).prio
      (¬ due → exec (.leaseHandOver cl) s = .next s) ∧
      (due → ∃ t w, exec (.leaseHandOver cl) s = .next t ∧ w ∈ x.waiters ∧ (clusterAt t cl).holder = some w.1 ∧
        (teamAt t tid).lease = some { x.lease with hover := min 255 (x.lease.hover + 1) }))

/-- From R221, R223 and R227–R232: `od.set` keeps a pair that meets the conditions of its kind and makes any other an illegal
encoding; a participant's accumulator words run to their end: zero empties the working bank, swap exchanges the banks,
`acc.rd` reads the visible bank into its register group, `acc.flag` its flags. -/
def Claim.DescriptorsAndAccumulators : Prop :=
  ∀ (s : State) (h : Hd) (d a b : Reg) (imm : W32), Ready s h →
    let p := atHand s h
    let cl := s.cur.core / 16
    let x := rd s a
    let y := rd s b
    let ty := y.toNat / 2 ^ 28 % 16
    let put (i : Instr) (ok : Prop) (kind : Nat) : Prop :=
      (¬ ok → exec i s = .next (fatalHere s fIllegal)) ∧
      (ok → ∃ t, exec i s = .next (goesOn h t) ∧ t = upCur p (fun c => { c with od := (curCore t).od }) ∧
        odAt (curCore t) d.toNat = { kind := kind, sa := x, sb := y } ∧ ∀ n, n ≠ d.toNat → odAt (curCore t) n = odAt (curCore s) n)
    put (.odSetSp h d a b) (x.toNat < 2 ^ 42 ∧ y.toNat < 2 ^ 32 ∧ x.toNat % 16 = 0 ∧ (ty = 1 ∨ ty = 2 ∨ ty = 3 ∨ ty = 0xB)) 0 ∧
    put (.odSetV h d a b) (x.toNat < 2 ^ 8 ∧ y.toNat = ty * 2 ^ 28 ∧ (ty = 1 ∨ ty = 2 ∨ ty = 3) ∧
      x.toNat % (if ty = 3 then 2 else 4) = 0) 1 ∧
    put (.odSetM h d a b) (y.toNat / 2 ^ 60 = 1 ∨ y.toNat / 2 ^ 60 = 2 ∨ y.toNat / 2 ^ 60 = 3 ∨ y.toNat / 2 ^ 60 = 0xB) 2 ∧
    (ArrayReady s →
      (∃ t, exec (.accZero h d) s = .next (goesOn h t) ∧ tileAt t cl d.toNat = { tileAt s cl d.toNat with work := {} } ∧
        (∀ n, n ≠ d.toNat → tileAt t cl n = tileAt s cl n) ∧ t.cores = p.cores ∧ t.teams = p.teams) ∧
      (∃ t, exec (.accSwap h d) s = .next (goesOn h t) ∧
        tileAt t cl d.toNat = { work := (tileAt s cl d.toNat).vis, vis := (tileAt s cl d.toNat).work } ∧
        (∀ n, n ≠ d.toNat → tileAt t cl n = tileAt s cl n) ∧ t.cores = p.cores ∧ t.teams = p.teams) ∧
      (∃ t, exec (.accRd h d a imm) s = .next (goesOn h t) ∧ t = upCur p (fun c => { c with v := (curCore t).v }) ∧
        ∀ m e, m < groupSize imm → e < 1024 → vget (curCore t) (d.toNat + m) e =
          SMap.get 0 (tileAt s cl a.toNat).vis.el
            (256 * (imm.toNat % 256 + 16 * m + e / 64) + 64 * (imm.toNat / 256 % 4) + e % 64)) ∧
      exec (.accFlag h d a) s = .next (goesOn h (wr p d (BitVec.ofNat 64 (bankFlags (tileAt s cl a.toNat).vis)))))

/-- From R216–R218: a word that touches the array is a fatal error for a core that takes no part in a lease or has no array,
and waits while its team's lease has been handed over. -/
def Claim.ArrayWordsNeedTheLease : Prop :=
  ∀ (i : Instr) (s : State) (h : Hd), touchesArray i = some h → Ready s h →
    let p := atHand s h
    let cl := s.cur.core / 16
    let dead := SMap.get false s.deadArrays cl
    ((curCore s).held = false → exec i s = .next (fatalHere p { code := 0xC })) ∧
    ((curCore s).held = true → dead = true → exec i s = .next (fatalHere p { code := 0xB, info := cl })) ∧
    ((curCore s).held = true → dead = false → operandsFit (curCore s) i → (clusterAt s cl).holder ≠ some (curCore s).tid → ∃ t, exec i s = .next t ∧
      (curEng t).wait.kind = 11 ∧ (curEng t).issued = true ∧ (clusterAt t cl).holder = (clusterAt s cl).holder ∧ t.mem = s.mem)

/-- From R68, R69, R105 and R223–R226: an `mma` of a participant whose descriptors fit and whose operands can be read,
once its core's earlier stores have performed, runs to its end: each element of the working bank of tile D takes the
chunks of its row and column in ascending order, in FP32 or clamped in I32; the visible bank and the other tiles stay,
and the run counts the word. A bank in the other mode is a fatal error. The model's choices in it: the mode of the
bank checked before the operands are fetched (log 71). -/
def Obligations.MatrixMultiply : Prop :=
  ∀ (s : State) (h : Hd) (ty : ETy) (mid : Bool) (kk : BitVec 4) (d a b : Reg) (imm : W32), Ready s h → ArrayReady s →
    let p := atHand s h
    let n := imm.toNat % 256 + 1
    let cl := s.cur.core / 16
    let q := performAll p p.cur.core
    let x := odAt (curCore s) a.toNat
    let y := odAt (curCore s) b.toNat
    let bank := (tileAt s cl d.toNat).work
    let mode := if ty = .nbi then 2 else 1
    let ends (el : Nat → Nat → Nat → AccEl → AccEl) : Prop :=
      ∃ t, exec (.mma h ty mid kk d a b imm) s = .next (goesOn h t) ∧ (tileAt t cl d.toNat).work.mode = mode ∧
        (∀ i j, i < 256 → j < 256 → SMap.get 0 (tileAt t cl d.toNat).work.el (256 * i + j) =
          ((List.range n).foldl (fun e c => el c i j e) { val := SMap.get 0 bank.el (256 * i + j) }).val) ∧
        (tileAt t cl d.toNat).vis = (tileAt s cl d.toNat).vis ∧ (∀ m, m ≠ d.toNat → tileAt t cl m = tileAt s cl m) ∧
        (clusterAt t cl).lease.runrem = (clusterAt s cl).lease.runrem - 1
    (mmaOk (curCore s) ty a b n = false → exec (.mma h ty mid kk d a b imm) s = .next (fatalHere p { code := 10 })) ∧
    (mmaOk (curCore s) ty a b n = true →
      (bank.mode ≠ 0 ∧ bank.mode ≠ mode →
        exec (.mma h ty mid kk d a b imm) s = .next (fatalHere q { code := 0xD, info := d.toNat })) ∧
      (bank.mode = 0 ∨ bank.mode = mode →
        (∀ w v, ty = .nbi → allRows n (rowWeights q x kk.toNat mid) = .ok w → allRows n (rowLanes q y .i8) = .ok v →
          ends (fun c i j e => intStep e (laneRow w c i) (laneRow v c j))) ∧
        (∀ u v, ty ≠ .nbi → allRows n (rowLanes q x ty) = .ok u → allRows n (rowLanes q y ty) = .ok v →
          ends (fun c i j e => fpStep (fmtOf ty) e (laneRow u c i) (laneRow v c j)))))

namespace Sys2Proof.Machine

/-! ## Commands of the H engine -/

/-- The header, operation and registers of a command word, 0 standing for a field it does not use. -/
def cmdOf : Instr → Option (Hd × CmdOp × Reg × Reg × Reg × Reg × W32)
  | .hcp h d a imm => some (h, .hcp, d, a, 0, 0, imm)
  | .hgat h d a b imm => some (h, .hgat, d, a, b, 0, imm)
  | .hsct h d a b imm => some (h, .hsct, d, a, b, 0, imm)
  | .hmc h d a imm => some (h, .hmc, d, a, 0, 0, imm)
  | .hlay h d a b e imm => some (h, .hlay, d, a, b, e, imm)
  | .hfill h d a b imm => some (h, .hfill, d, a, b, 0, imm)
  | .hpub h d a imm => some (h, .hpub, d, a, 0, 0, imm)
  | .lodeAct h d a imm => some (h, .act, d, a, 0, 0, imm)
  | .lodeSacc h _ _ d a b e imm => some (h, .sacc, d, a, b, e, imm)
  | .lodeDrain h d a imm => some (h, .drain, d, a, 0, 0, imm)
  | .lodeDrainRaw h d a imm => some (h, .drainRaw, d, a, 0, 0, imm)
  | .lodeIred h d a imm => some (h, .ired, d, a, 0, 0, imm)
  | .lodeStat h d a imm => some (h, .stat, d, a, 0, 0, imm)
  | .linkSend h d a e imm => some (h, .send, d, a, 0, e, imm)
  | .linkRed h d a e imm => some (h, .red, d, a, 0, e, imm)
  | .rdlOpen h d a b imm => some (h, .rOpen, d, a, b, 0, imm)
  | .rdlMask h d a b imm => some (h, .rMask, d, a, b, 0, imm)
  | .rdlMaskM h d a b imm => some (h, .rMaskM, d, a, b, 0, imm)
  | .rdlStep h d b e imm => some (h, .rStep, d, 0, b, e, imm)
  | .rdlFork h d b imm => some (h, .rFork, d, 0, b, 0, imm)
  | .rdlKeep h d b imm => some (h, .rKeep, d, 0, b, 0, imm)
  | .rdlDrop h d b imm => some (h, .rDrop, d, 0, b, 0, imm)
  | .rdlSave h d a b imm => some (h, .rSave, d, a, b, 0, imm)
  | .rdlLoad h d a b imm => some (h, .rLoad, d, a, b, 0, imm)
  | .asyBind h d a b imm => some (h, .aBind, d, a, b, 0, imm)
  | .asyRun h d a b imm => some (h, .aRun, d, a, b, 0, imm)
  | .asyStat h d a b imm => some (h, .aStat, d, a, b, 0, imm)
  | _ => none

/-- The queues a command may go to (R236). -/
def queuesOf : CmdOp → List QId
  | .hmc => [.load]
  | .hcp | .hgat | .hsct | .hlay | .hfill => [.load, .store]
  | .act | .sacc | .drain | .drainRaw | .ired | .stat => [.lode]
  | _ => [.store]

/-- The commands that R236 routes by their destination. -/
def routed (op : CmdOp) : Prop := op = .hcp ∨ op = .hgat ∨ op = .hsct ∨ op = .hlay ∨ op = .hfill

/-- The size of a command's descriptor, 0 for none (R243, R249, R252, R257, R258, R261, R265, R266). -/
def descSize : CmdOp → Nat
  | .hcp | .hgat | .hsct | .hmc | .hlay | .hfill | .send | .aBind => 256
  | .aRun => 128
  | .drain | .drainRaw | .ired | .red => 64
  | .act => 32
  | _ => 0

/-- The command that a command word leaves at the end of its queue, as far as its word says. -/
def Issued (s : State) (x : Cmd) (op : CmdOp) (d a b e : Reg) (imm : W32) : Prop :=
  x.op = op ∧ x.ring = d.toNat ∧ x.tag = imm.toNat % 2 ^ 16 ∧ x.ra = rd s a ∧ x.rb = rd s b ∧ x.re = rd s e ∧
  x.id = (curCore s).nid ∧ x.ord = s.nissue + 1 ∧ x.prog = 0 ∧ x.started = false ∧ x.sent = false ∧ x.reply = {}

/-- The copy commands, whose walk over elements `runCopy` carries on. -/
def isCopy (op : CmdOp) : Prop := op = .hcp ∨ op = .hgat ∨ op = .hsct ∨ op = .hmc ∨ op = .hfill

end Sys2Proof.Machine

/-- From R105, R234–R236 and R264: a command has one queue, which for a copy, layout or fill is the load queue where its
destination is the scratchpad or an OCPM window and else the store queue; one without a descriptor to name a destination goes
to the store queue (log 69). With room there its word runs to its end, whatever the other queues hold: the command stands at
the end of its queue with what the word and its registers held, with the next number in the order of issue, and with its
descriptor or the failure that completes it at once; only earlier stores of its core to the descriptor need perform for it.
The other queues and all registers are as before. With that queue full the word waits, whatever room the other has. -/
def Claim.CommandsAreIssued : Prop :=
  ∀ (i : Instr) (s : State) (h : Hd) (op : CmdOp) (d a b e : Reg) (imm : W32), cmdOf i = some (h, op, d, a, b, e, imm) →
    Ready s h →
    let p := atHand s h
    ∃ q x, q ∈ queuesOf op ∧ Issued p x op d a b e imm ∧ (descSize op ≠ 0 → x.done.isSome ∨ x.desc.length = descSize op) ∧
    (routed op → (q = .load ↔ x.done = none ∧ (dI x 8 8 / 2 ^ 48 = 0xFFFE ∨ dI x 8 8 / 2 ^ 48 = 0xFFFF))) ∧
    ((getQ (curCore s) q).length < 16 → ∃ t, exec i s = .next (goesOn h t) ∧
      getQ (curCore t) q = getQ (curCore s) q ++ [x] ∧ (∀ r, r ≠ q → getQ (curCore t) r = getQ (curCore s) r) ∧
      (curCore t).nid = (curCore s).nid + 1 ∧ t.nissue = s.nissue + 1 ∧
      (∀ r ∈ (curCore t).stq, r ∈ (curCore s).stq) ∧ (descSize op = 0 → (curCore t).stq = (curCore s).stq) ∧
      (∀ g r, getScal (curCore t) g r = getScal (curCore s) g r) ∧ (∀ r k, vget (curCore t) r k = vget (curCore s) r k)) ∧
    (16 ≤ (getQ (curCore s) q).length → ∃ t, exec i s = .next t ∧ (curEng t).wait.kind = 9 ∧
      (curEng t).issued = true ∧ ∀ r, getQ (curCore t) r = getQ (curCore s) r)

/-- From R235, R239, R240 and R244: a descriptor whose address is no multiple of 8 completes its command with BADCMD, one in
a handle of another kind with REFUSED, at FSTEP 3; else its bytes are those at its address, whose lines the read fills
(R88). -/
def Claim.DescriptorReads : Prop :=
  ∀ (s : State) (c : Cmd) (n : Nat),
    let w := cmdWho s s.cur.core
    let x := c.ra.toNat
    let r := readDesc s c n
    (x % 8 ≠ 0 → r = (s, { c with done := some { status := 9, fstep := 3 } })) ∧
    (x % 8 = 0 → descKind s w x = false → r = (s, { c with done := some { status := 8, fstep := 3 } })) ∧
    (∀ keys, x % 8 = 0 → x / 2 ^ 48 ≠ 0xFFFF → descKind s w x = true → xlateRange s w .r false x n = .ok keys →
      (∀ k ∈ keys, isRemote k = false ∧ k < mapBase ∧ inArea s k = false ∧ badByte s k = false) →
      r = (fillRun (notePages s w false x n) w x n, { c with desc := keys.map (rdByte s) }))

/-- From R162 and R247: `hmc.sig` announces to its barrier one arrival for each pair that its mask names, and is issued to
the load queue; a number at or above the barrier count is a fatal error. A pair's arrival of a multicast that is over
is taken once and counts as an arrival. -/
def Claim.SignallingMulticast : Prop :=
  (∀ (s : State) (h : Hd) (d a : Reg) (imm : W32), Ready s h →
    let p := atHand s h
    let n := imm.toNat / 2 ^ 16 % 16
    let pairs := (List.range 8).filter (fun k => (imm.toNat / 2 ^ 24).testBit k)
    ((curTeam s).nbar ≤ n → exec (.hmcSig h d a imm) s = .next (fatalHere p { code := 9, info := n })) ∧
    (n < (curTeam s).nbar → (getQ (curCore s) .load).length < 16 → ∃ t x, exec (.hmcSig h d a imm) s = .next (goesOn h t) ∧
      getQ (curCore t) .load = getQ (curCore s) .load ++ [x] ∧ x.op = .hmc ∧ x.mid = true ∧ x.arg = n ∧
      x.pairs = imm.toNat / 2 ^ 24 ∧ x.tag = imm.toNat % 2 ^ 16 ∧ x.ring = d.toNat ∧ x.ra = rd s a ∧
      (SMap.get {} (curTeam t).bars n).extra = (SMap.get {} (curTeam s).bars n).extra + pairs.length)) ∧
  ∀ (s : State) (core pair : Nat) (x : Cmd) (rest : List Cmd), (coreAt s core).ql = x :: rest → x.op = .hmc → x.mid = true →
    x.done.isSome = true → x.pairs.testBit pair = true →
    let c := coreAt s core
    let b := SMap.get {} (teamAt s c.tid).bars x.arg
    ∃ t, exec (.hmcPairArrival core pair) s = .next t ∧
      (coreAt t core).ql = { x with pairs := x.pairs - 2 ^ pair } :: rest ∧
      SMap.get {} (teamAt t c.tid).bars x.arg =
        (if (teamAt s c.tid).cores.length + b.extra ≤ b.arr + 1 then { g := b.g + 1 } else { b with arr := b.arr + 1 })

/-- From R242: `cq.init` with LOG2N 0 disables a ring, with 2–12 over memory that may back it sets it empty, and otherwise is
a fatal error; it waits while a command in flight names the ring. `cq.ack` moves the count of records acknowledged on,
by no more than stand unacknowledged. -/
def Claim.CompletionRings : Prop :=
  ∀ (s : State) (h : Hd) (d a b : Reg), Ready s h →
    let p := atHand s h
    let c := curCore s
    let x := (rd s a).toNat
    let n := (rd s b).toNat
    let q := cqAt c d.toNat
    let named := (c.ql ++ c.qs ++ c.qd).any (fun x => x.ring == d.toNat)
    let set_ (base log : Nat) : Prop := ∃ t, exec (.cqInit h d a b) s = .next (goesOn h t) ∧
      t = upCur p (fun c => { c with cq := (curCore t).cq }) ∧ cqAt (curCore t) d.toNat = mkCq 0 0 base log ∧
      ∀ k, k ≠ d.toNat → cqAt (curCore t) k = cqAt c k
    let ok := x % 4096 = 0 ∧ 2 ≤ n ∧ n ≤ 12 ∧ ringHandle p (cmdWho p p.cur.core) x (32 * 2 ^ n) = true
    (named = true → ∃ t, exec (.cqInit h d a b) s = .next t ∧ (curEng t).wait.kind = 9 ∧ (curEng t).issued = true) ∧
    (named = false → n = 0 → set_ 0 0) ∧
    (named = false → n ≠ 0 → ok → set_ (x / 4096) n) ∧
    (named = false → n ≠ 0 → ¬ ok → exec (.cqInit h d a b) s = .next (fatalHere p { code := 10 })) ∧
    (x ≤ cqOut q → ∃ t, exec (.cqAck h d a) s = .next (goesOn h t) ∧
      cqAt (curCore t) d.toNat = mkCq (cqAcked q + x) (cqWritten q) (cqBase q) (cqLog q) ∧
      ∀ k, k ≠ d.toNat → cqAt (curCore t) k = cqAt c k) ∧
    (cqOut q < x → exec (.cqAck h d a) s = .next (fatalHere p { code := 10 }))

/-- From R239–R241: a command at the head of its queue that is over, whose answers have all come, leaves the queue; where its
ring is enabled and has room its record is written and counted, where the ring is full it stays. The command of a context
that has failed, or after a return to Stage S, leaves a full ring without a record, which nothing could read (log 102). -/
def Claim.CommandsComplete : Prop :=
  ∀ (s : State) (core : Nat) (q : QId) (c : Cmd) (rest : List Cmd) (r : CRes), getQ (coreAt s core) q = c :: rest →
    c.done = some r → c.reply.tags = [] → c.sent = false →
    (c.op = .hmc → c.mid = false ∨ c.pairs = 0) →
    let ring := cqAt (coreAt s core) c.ring
    let n := 2 ^ cqLog ring
    let room := cqLog ring = 0 ∨ cqOut ring < n
    let unread := s.stage = 0 ∨ (teamAt s (coreAt s core).tid).st = .failed
    (¬ room → ¬ unread → exec (.commandComplete core q) s = .next s) ∧
    (¬ room → unread → exec (.commandComplete core q) s = .next (upCore s core (fun k => setQ k q rest))) ∧
    (room → ∃ t, exec (.commandComplete core q) s = .next t ∧ getQ (coreAt t core) q = rest ∧
      (∀ k, k ≠ c.ring → cqAt (coreAt t core) k = cqAt (coreAt s core) k) ∧
      (cqLog ring = 0 → t = upCore s core (fun k => setQ k q rest)) ∧
      (cqLog ring ≠ 0 → cqWritten (cqAt (coreAt t core) c.ring) = (cqWritten ring + 1) % 2 ^ 32 ∧
        let w := ringWrite s core (recConsumer c.op) (cqBase ring * 4096 + 32 * (cqWritten ring % n)) (recordBytes (1 - cqWritten ring / n % 2) c r)
        t.mem = w.mem ∧ t.lc = w.lc))

/-- From R17, R256 and R262: a stamped command at the head of a queue starts when the tick has reached its stamp, LATE if it has
passed it, a link command when its port is free too; before its stamp nothing happens. Waves of one stamp on one stack
start in the order of their issue (R17); whether a wave was late is settled at its first sense. -/
def Claim.StampedStarts : Prop :=
  ∀ (s : State) (core stamp : Nat) (q : QId) (c : Cmd) (rest : List Cmd), getQ (coreAt s core) q = c :: rest →
    c.stamp = some stamp → c.started = false → c.done = none →
    (s.tick < stamp → exec (.stampedStart core q) s = .next s) ∧
    (stamp ≤ s.tick → q = .store → c.op = .send ∨ c.op = .red → (∀ p, linkPort s (linkWho s core) (linkDst c) = some p → portFree s p stamp c.ord = true) →
      ∃ t, exec (.stampedStart core q) s = .next t ∧
        (coreAt t core).qs = { c with started := true, stick := s.tick, flags := c.flags ||| (if stamp < s.tick then 16 else 0) } :: rest) ∧
    (stamp ≤ s.tick → q = .lode → c.op = .sacc → waveBefore s c = true → exec (.stampedStart core q) s = .next s) ∧
    (stamp ≤ s.tick → q = .lode → c.op = .sacc → waveBefore s c = false → cmdRegion s c ≠ none →
      ∃ t f, exec (.stampedStart core q) s = .next t ∧ (f = c.flags ∨ f = c.flags ||| 1) ∧
        (coreAt t core).qd = { c with started := true, flags := f } :: rest ∧ t.lode = s.lode)

namespace Sys2Proof.Machine

/-! ## Sections and tiles -/

/-- A well-formed header stands at the engine's PC, which is not that of the join section ended last, and the slip window does
not hold the engine back (R20, R22, R26). -/
def HeaderAt (p : State) (h : Header) : Prop :=
  atText p = true ∧ (∀ n, (curCore p).jlast ≠ some ((curEng p).pc, (curEng p).sc, n)) ∧ slipBlock (curCore p) (curTeam p).slipw p.cur.eng = none ∧ headerOk h = true ∧
  ∃ l, fetchText p (curEng p).pc 8 = .ok l ∧ h = headerOf (leNat l)

/-- A page-table byte in which a page of the text is marked as accessed (R364). -/
def textMark (p : State) (k : Nat) : Prop :=
  ∃ e o, htAt p (curWho p .core).part (curWho p .core).ctx (curTeam p).text = some e ∧ k = pteAddr (backing e false) o + 8

/-- The executing engine past a section: its count one up, its PC at `pc` between sections, its wait over. -/
def PastSection (p t : State) (pc : Nat) : Prop :=
  t = upCurEng p (fun e => { e with sc := e.sc + 1, sec := none, pc := pc, inarm := false, armlive := false, wait := {} })

end Sys2Proof.Machine

/-- From R20, R22–R26 and R29: an engine between sections that stands at a header starts the section where it is its own and the
waits are met, decides an arm there, skips the sections of others, and waits on the first wait field not met; a header
that breaks R22 is an illegal encoding, and an engine that is not between sections does nothing. -/
def Claim.HeadersAreExamined : Prop :=
  ∀ (s : State) (core : Nat) (g : Eng),
    let p := onEng s core g
    let pc := (curEng p).pc
    (atText p = false → exec (.sectionHeaderExamine core g) s = .next p) ∧
    (∀ l, atText p = true → (∀ n, (curCore p).jlast ≠ some (pc, (curEng p).sc, n)) → fetchText p pc 8 = .ok l → headerOk (headerOf (leNat l)) = false →
      exec (.sectionHeaderExamine core g) s = .next (raiseFatal p fIllegal (textAddr p pc) (leNat l))) ∧
    ∀ h, HeaderAt p h → h.kind ≠ 3 →
      (h.tag ≠ engNum g → h.kind ≠ 1 → ∃ t, exec (.sectionHeaderExamine core g) s = .next t ∧ PastSection p t (pc + 8 + 12 * h.len)) ∧
      (h.tag = engNum g → secWait (curCore p) g h = none → ∃ t, exec (.sectionHeaderExamine core g) s = .next t ∧
        (curEng t).pc = pc + 8 ∧ (curEng t).sec = some { off := pc, kind := h.kind, tag := h.tag, len := h.len } ∧
        (curEng t).sc = (curEng p).sc ∧ (curEng t).inarm = (h.kind == 2) ∧
        (h.kind = 2 → (curEng t).armlive = (getPred (curEng p) (h.aux / 4) == (h.aux / 2 % 2 == 1))) ∧
        coreRest (curCore t) = coreRest (curCore p) ∧ joinKept (curCore p) (curCore t) ∧
        ∀ k, held k → ¬ textMark p k → rdByte t k = rdByte s k) ∧
      (∀ o n, h.tag = engNum g → secWait (curCore p) g h = some (o, n) →
        exec (.sectionHeaderExamine core g) s = .next (upCurEng p (fun e => waitOn p.tick e 4 (engNum o) n.toNat)))

/-- From R28 and R31: V, M and H at a steer header pop the oldest target of their path queue and go on there, or wait; at a
join header an engine waits until all stand at it, when its own engine starts the section, seeing all that preceded, and the
others retire it after that one, as it stood before the section, with what had been seen when it retired (R96, R114). -/
def Claim.TargetsAndJoins : Prop :=
  ∀ (s : State) (core : Nat) (g : Eng) (h : Header),
    let p := onEng s core g
    let e := curEng p
    (∀ n, atText p = true → (curCore p).jlast = some (e.pc, e.sc, n) → ∃ t, exec (.joinRendezvous core g) s = .next t ∧
      (curEng t).pc = n ∧ (curEng t).sec = none ∧ (curEng t).sc = e.sc + 1 ∧ (curEng t).seen = clkJoin e.seen (curCore p).jseen) ∧
    (HeaderAt p h →
    (h.kind = 1 → g ≠ .c → ∀ tgt rest, e.pathq = tgt :: rest → ∃ t, exec (.steerTargetPop core g) s = .next t ∧
      t = upCurEng p (fun e => { e with sc := e.sc + 1, sec := none, pc := tgt, inarm := false, armlive := false, wait := {},
                                        pathq := rest })) ∧
    (h.kind = 1 → g ≠ .c → e.pathq = [] → exec (.steerTargetPop core g) s = .next p ∧
      exec (.sectionHeaderExamine core g) s = .next (upCurEng p (fun e => waitOn p.tick e 3 0 0))) ∧
    (h.kind = 3 → h.tag = engNum g →
      (∀ o, o ≠ g → (engSt (curCore p) o).retired = true ∨ atHeader (engSt (curCore p) o) e.pc e.sc = true) →
      ∃ t, exec (.joinRendezvous core g) s = .next t ∧ (curEng t).pc = e.pc + 8 ∧
        (curEng t).sec = some { off := e.pc, kind := 3, tag := h.tag, len := h.len } ∧ (curEng t).seen = joinSeen (curCore p)) ∧
    (h.kind = 3 → h.tag = engNum g →
      ¬ (∀ o, o ≠ g → (engSt (curCore p) o).retired = true ∨ atHeader (engSt (curCore p) o) e.pc e.sc = true) →
      exec (.joinRendezvous core g) s = .next p) ∧
    (h.kind = 3 → h.tag ≠ engNum g →
      (0 < scDiff (engSt (curCore p) (engOfNum h.tag)).sc e.sc → ∃ t, exec (.joinRendezvous core g) s = .next t ∧
        (curEng t).pc = e.pc + 8 + 12 * h.len ∧ (curEng t).sec = none ∧ (curEng t).sc = e.sc + 1 ∧
        (curEng t).seen = clkJoin e.seen (curCore p).jseen) ∧
      (scDiff (engSt (curCore p) (engOfNum h.tag)).sc e.sc ≤ 0 → exec (.joinRendezvous core g) s = .next p)))

/-- From R32, R44 and R218: an engine past its own end section retires for the tile with its path queue emptied; the last
of a core closes its region and its participation in a lease, the last of a team completes the tile, and a team with no
command or store left goes free. -/
def Claim.TilesComplete : Prop :=
  ∀ (s : State) (core : Nat) (g : Eng) (x : Sec),
    let e := engSt (coreAt s core) g
    let a := upCore s core (fun c => upEng c g (fun e =>
      { e with sc := e.sc + 1, sec := none, pc := x.off + 8 + 12 * x.len, inarm := false, armlive := false, retired := true, pathq := [],
               wait := { kind := 14, since := s.tick % 2 ^ 32 } }))
    let tid := (coreAt s core).tid
    let b := releaseCore (upCore a core (fun c => { c with npre := false, npt0 := 0 })) core
    e.sec = some x → x.kind = 4 → x.off + 8 + 12 * x.len ≤ e.pc → e.retired = false → e.pushpend = false →
    (coreFinished (coreAt a core) = false → exec (.retireForTile core g) s = .next a) ∧
    (coreFinished (coreAt a core) = true → tid = 0x3FE ∨ (∃ n ∈ (teamAt s tid).cores, coreFinished (coreAt b n) = false) →
      exec (.retireForTile core g) s = .next b) ∧
    (coreFinished (coreAt a core) = true → tid ≠ 0x3FE → (∀ n ∈ (teamAt s tid).cores, coreFinished (coreAt b n) = true) →
      (teamAt s tid).st = .running → (∀ n ∈ (teamAt s tid).cores, coreDrained (coreAt b n) = true ∧ (coreAt b n).tid = tid) →
      ∃ t, exec (.retireForTile core g) s = .next t ∧ teamAt t tid = {} ∧ (∀ n ∈ (teamAt s tid).cores, (coreAt t n).tid = 0x3FF) ∧
        ∀ r, (queueAt s (teamAt s tid).queue).rcd = some r → ∃ r', (queueAt t (teamAt s tid).queue).rcd = some r' ∧
          r.prefixN ≤ r'.prefixN ∧ ((teamAt s tid).tile = r.prefixN → r.prefixN < r'.prefixN))

/-- From R37: when every engine of a core that has not finished waits on another with nothing to come, the context ends with a TOKENDL
record of the four waits; otherwise nothing happens. -/
def Claim.TokenDeadlock : Prop :=
  ∀ (s : State) (core : Nat),
    let c := coreAt s core
    let t := teamAt s c.tid
    let k (e : EngSt) : Nat := if e.retired then 14 else e.wait.kind
    (t.st = .running → coreFinished c = false → (∀ g, stuck s core g = true) → c.tid ≠ 0x3FE →
      exec (.tokenDeadlock core) s = .next (failContext (holdFault s
        { cls := 0, code := 6, tid := c.tid, core := core, queue := t.queue, slot := t.slot, ctx := t.ctx, part := t.part,
          info := k c.ec * 2 ^ 12 + k c.ev * 2 ^ 8 + k c.em * 2 ^ 4 + k c.eh, tick := s.tick }) t.part t.ctx)) ∧
    (t.st ≠ .running ∨ coreFinished c = true ∨ (∃ g, stuck s core g = false) → exec (.tokenDeadlock core) s = .next s)

namespace Sys2Proof.Machine

/-! ## Queues and records -/

/-- A function reaches a queue's registers: Stage A has been reached and the queue is of its partition (R334, R393). -/
def Reaches (s : State) (fn q : Nat) : Prop := s.stage = 3 ∧ fnSees fn (queuePart (queueAt s q)) = true

/-- Nothing but one queue differs. -/
def OnlyQueue (s t : State) (q : Nat) : Prop := t = { s with queues := t.queues } ∧ ∀ k, k ≠ q → queueAt t k = queueAt s k

/-- Nothing but one queue differs, and the words of memory that the level cache holds valid copies of (R88). -/
def OnlyQueueRead (s t : State) (q : Nat) : Prop :=
  t = { s with queues := t.queues, lc := t.lc } ∧ (∀ k, rdByte t k = rdByte s k) ∧ ∀ k, k ≠ q → queueAt t k = queueAt s k

/-- Nothing but registers of one function's page differs. -/
def OnlyFn (s t : State) (fn : Nat) : Prop :=
  t = { s with fns := t.fns, irqOut := t.irqOut } ∧ ∀ k, k ≠ fn → fnAt t k = fnAt s k

/-- The bytes of a record stand at the head of a queue, read on behalf of its context (R338). -/
def HeadBytes (s : State) (q : Nat) (l : List Byte) : Prop :=
  (queueAt s q).rcd = none ∧ (queueAt s q).st = .active ∧ 0 < (queueAt s q).outst ∧
  SMap.get false (queueAt s q).committed (queueAt s q).head = true ∧
  devRead s (queueWho (queueAt s q)) (slotAddr (queueAt s q) (queueAt s q).head 0) 128 = some l

/-- A word of a queue's context read here and now as `v`. -/
def WordReads (s : State) (q addr v : Nat) : Prop :=
  ∃ keys, xlateRange s (queueWho (queueAt s q)) .r false addr 8 = .ok keys ∧ isRemote (keys.headD 0) = false ∧
    (∀ k ∈ keys, badByte s k = false) ∧ v = leNat (keys.map (rdByte s))

end Sys2Proof.Machine

/-- From R334, R336 and R337: a read of RESERVE of an open queue gives the next slot and its generation and holds it, bit 63 where
the queue is full, bit 62 where it is not open, and 0 to a function that does not reach it; a write of COMMIT commits the slot, or takes
the queue to QERR with the slot and with error 3 for a slot at or beyond the depth, 1 for one not reserved or committed
already, 2 for a stale generation. -/
def Claim.ReservationsAndCommits : Prop :=
  ∀ (s : State) (fn q : Nat) (v : Word),
    let x := queueAt s q
    let slot := (x.head + x.outst) % queueDepth x
    let say (t : State) (n : Nat) : State := { t with hostOut := s.hostOut ++ [(fn, .success (leBytes 8 n))] }
    (¬ Reaches s fn q → exec (.reserveRead fn q) s = .next (say s 0) ∧ exec (.commitWrite fn q v) s = .next s) ∧
    (Reaches s fn q →
      (queueOpen x = false → ∃ t, exec (.reserveRead fn q) s = .next (say t (2 ^ 62)) ∧ OnlyQueue s t q ∧ queueAt t q = x) ∧
      (queueOpen x = true → x.outst = queueDepth x →
        ∃ t, exec (.reserveRead fn q) s = .next (say t (2 ^ 63)) ∧ OnlyQueue s t q ∧ queueAt t q = x) ∧
      (queueOpen x = true → x.outst ≠ queueDepth x → slot < 2 ^ 12 → ∃ t, exec (.reserveRead fn q) s = .next (say t
          (x.rcount / queueDepth x % 16 * 2 ^ 12 + slot)) ∧ OnlyQueue s t q ∧
        (queueAt t q).outst = x.outst + 1 ∧ (queueAt t q).rcount = x.rcount + 1 ∧
        SMap.get 0 (queueAt t q).held slot = x.rcount / queueDepth x % 16 ∧ SMap.get false (queueAt t q).committed slot = false) ∧
      ∃ t, exec (.commitWrite fn q v) s = .next t ∧ OnlyQueue s t q ∧ (queueAt t q).commit.toNat = v.toNat % 2 ^ 16 ∧
        let c := v.toNat % 2 ^ 12
        let good := slotHeld x c = true ∧ SMap.get false x.committed c = false ∧ SMap.get 0 x.held c = v.toNat / 2 ^ 12 % 16
        (queueOpen x = true → good → SMap.get false (queueAt t q).committed c = true ∧ (queueAt t q).st = x.st) ∧
        (queueOpen x = true → ¬ good → (queueAt t q).st = .qerr ∧ (queueAt t q).errslot = c ∧
          (queueAt t q).err = (if queueDepth x ≤ c then 3 else if slotHeld x c = false ∨ SMap.get false x.committed c = true then 1 else 2) ∧
          (queueAt t q).committed = x.committed ∧ (queueAt t q).held = x.held ∧ (queueAt t q).outst = x.outst ∧ (queueAt t q).rcd = x.rcd) ∧
        (queueOpen x = false → (queueAt t q).st = x.st ∧ (queueAt t q).committed = x.committed))

/-- From R6, R335, R339 and R354: ENABLE of a DISABLED queue whose checks pass makes it ACTIVE and empty, else leaves it DISABLED; DESTROY
of an ACTIVE, PARKED or QERR one without a record ends it where no slot is committed, its reserved slots voided, and takes a
committed record at its head to end it as DESTROYED, or MALFORMED; a record under way is to end as DESTROYED unless its status is set;
DESTROY of a DISABLED or DESTROYING queue does nothing; neither touches a queue that the function does not reach. -/
def Claim.QueuesAreEnabledAndDestroyed : Prop :=
  ∀ (s : State) (fn q : Nat) (b : Bool),
    let x := queueAt s q
    (¬ Reaches s fn q → exec (.queueEnable fn q) s = .next s ∧ exec (.queueDestroy fn q b) s = .next s) ∧
    (Reaches s fn q → x.st = .disabled → enableOk (setCtrl s q 1) (queueAt (setCtrl s q 1) q) = true →
      ∃ t, exec (.queueEnable fn q) s = .next t ∧ OnlyQueue s t q ∧
        queueAt t q = { x with ctrl := 1, st := .active, head := 0, outst := 0, rcount := 0, committed := [], held := [], written := 0,
                               acked := 0, rcd := none }) ∧
    (Reaches s fn q → (x.st ≠ .disabled ∨ enableOk (setCtrl s q 1) (queueAt (setCtrl s q 1) q) = false) →
      exec (.queueEnable fn q) s = .next (setCtrl s q 1)) ∧
    let live := x.st = .active ∨ x.st = .parked ∨ x.st = .qerr
    (Reaches s fn q → ¬ live → ∃ t, exec (.queueDestroy fn q b) s = .next t ∧ OnlyQueue s t q ∧
      queueAt t q = { x with ctrl := if b then 10 else 2 }) ∧
    (Reaches s fn q → live → x.rcd = none → recTeams s q = [] → x.outst = 0 →
      ∃ t, exec (.queueDestroy fn q b) s = .next t ∧ OnlyQueue s t q ∧
        queueAt t q = { x with ctrl := if b then 10 else 2, st := .disabled, final := 0x106 }) ∧
    (Reaches s fn q → live → x.rcd = none → recTeams s q = [] → (∀ k, SMap.get false x.committed k = false) →
      ∃ t, exec (.queueDestroy fn q b) s = .next t ∧ OnlyQueue s t q ∧ (queueAt t q).st = .disabled ∧ (queueAt t q).outst = 0 ∧
        (queueAt t q).rcd = none ∧ (queueAt t q).final = 0x106) ∧
    (∀ l, Reaches s fn q → live → x.rcd = none → recTeams s q = [] → 0 < x.outst → SMap.get false x.committed x.head = true →
      devRead s (queueWho x) (slotAddr x x.head 0) 128 = some l →
      ∃ t r, exec (.queueDestroy fn q b) s = .next t ∧ OnlyQueueRead s t q ∧ (queueAt t q).st = .destroying ∧ (queueAt t q).rcd = some r ∧
        r.bytes = l ∧ r.never = true ∧ r.status = some (if recordOk s (queueWho x) { bytes := l } then 0x106 else 0x101) ∧
        (queueAt t q).head = x.head ∧ (queueAt t q).outst = x.outst) ∧
    (∀ r, Reaches s fn q → live → x.rcd = some r → recTeams s q = [] → ∃ t r', exec (.queueDestroy fn q b) s = .next t ∧
      OnlyQueue s t q ∧ (queueAt t q).st = .destroying ∧ (queueAt t q).final = 0x106 ∧ (queueAt t q).outst = x.outst ∧
      (queueAt t q).rcd = some r' ∧ r'.parked = false ∧ r'.flush = none ∧ r'.status = some (r.status.getD 0x106))

/-- From R6, R335, R336 and R393–R396: a write of a function's page changes the register at its offset alone: EVENT bits
written 1 clear, the mailbox takes arguments and a command, SESSCTX takes a context, SESSDB hands a descriptor over or
refuses it, QCFG and CQCFG of a DISABLED queue take what their fields admit, COMMIT and CTRL act as a commit, ENABLE
or DESTROY, CQCNT takes a count within what was written; another offset, a read-only register or a register of Stage A
before it ignores the write. The model's choices in it: SESSDB of the physical function for partition 0 (log 48). -/
def Obligations.FunctionPageWrites : Prop :=
  ∀ (s : State) (fn off : Nat) (v : Word), s.powered = true →
    (off % 8 ≠ 0 ∨ off ≠ 8 ∧ off < 0x100 ∨ 0x148 ≤ off ∧ off < 0x200 ∨ 0x210 ≤ off ∧ off < 0x1000 ∨ 0x5000 ≤ off →
      exec (.registerWrite fn off v) s = .next s) ∧
    (s.stage ≠ 3 → 0x200 ≤ off → exec (.registerWrite fn off v) s = .next s) ∧
    (off = 8 → ∃ t, exec (.registerWrite fn off v) s = .next t ∧ OnlyFn s t fn ∧ t.irqOut = s.irqOut ∧
      ∀ i, (fnAt t fn).event.testBit i = ((fnAt s fn).event.testBit i && i < 3 && !v.getLsbD i)) ∧
    (∀ i, i < 8 → off = 0x108 + 8 * i → ∃ t, exec (.registerWrite fn off v) s = .next t ∧ OnlyFn s t fn ∧ t.irqOut = s.irqOut ∧
      SMap.get 0 (fnAt t fn).args i = v ∧ ∀ j, j ≠ i → SMap.get 0 (fnAt t fn).args j = SMap.get 0 (fnAt s fn).args j) ∧
    (off = 0x100 → (fnAt s fn).busy = true → exec (.registerWrite fn off v) s = .next s) ∧
    (off = 0x100 → (fnAt s fn).busy = false → ∃ t, exec (.registerWrite fn off v) s = .next t ∧
      OnlyFn { s with mbNext := s.mbNext + 1 } t fn ∧ (fnAt t fn).arr = s.mbNext ∧
      (fnAt t fn).seq = v.toNat / 2 ^ 24 % 256 ∧ (fnAt t fn).cmd = v.toNat % 2 ^ 16 ∧ (fnAt t fn).taken = (fnAt s fn).args ∧
      ((fnAt t fn).busy = true ↔ v.toNat % 2 ^ 16 ∈ mailboxCodes) ∧
      (v.toNat % 2 ^ 16 ∉ mailboxCodes → (fnAt t fn).status = 1 ∧ t.irqOut = s.irqOut ++ [(fn, 0)])) ∧
    (off = 0x200 → s.stage = 3 → ∃ t, exec (.registerWrite fn off v) s = .next t ∧ OnlyFn s t fn ∧ t.irqOut = s.irqOut ∧
      (fnAt t fn).sessctx = v.toNat % 64) ∧
    (off = 0x208 → s.stage = 3 → (partAt s (fnPart fn)).pend.length < 16 → exec (.registerWrite fn off v) s =
      .next (upPart s (fnPart fn) (fun x => { x with pend := x.pend ++ [(v, (fnAt s fn).sessctx)] }))) ∧
    (off = 0x208 → s.stage = 3 → 16 ≤ (partAt s (fnPart fn)).pend.length → v.toNat % 2 ^ 48 + 104 ≤ 2 ^ 48 →
      exec (.registerWrite fn off v) s =
        .next (devWrite s (devWho (fnPart fn) (fnAt s fn).sessctx) (v.toNat + 100) (leBytes 4 (3 + 6 * 2 ^ 16)))) ∧
    ∀ q, q < 256 → Reaches s fn q →
      let x := queueAt s q
      let reg (k : Nat) : Prop := off = 0x1000 + 64 * q + 8 * k
      let becomes (y : Queue) : Prop := ∃ t, exec (.registerWrite fn off v) s = .next t ∧ OnlyQueue s t q ∧ queueAt t q = y
      (reg 1 ∨ reg 3 ∨ reg 7 → exec (.registerWrite fn off v) s = .next s) ∧
      (reg 0 ∨ reg 5 → x.st ≠ .disabled → becomes x) ∧
      (reg 0 → x.st = .disabled → ∃ w : Word, becomes { x with qcfg := w } ∧ w.toNat / 2 ^ 12 = v.toNat / 2 ^ 12 ∧ w.toNat % 64 = v.toNat % 64 ∧
        w.toNat / 256 % 16 = (if v.toNat / 256 % 16 ≤ 12 then v.toNat / 256 % 16 else x.qcfg.toNat / 256 % 16) ∧
        w.toNat / 64 % 4 = (if fn = 0 then v.toNat / 64 % 4 else x.qcfg.toNat / 64 % 4)) ∧
      (reg 5 → x.st = .disabled → ∃ w : Word, becomes { x with cqcfg := w } ∧ w.toNat / 2 ^ 12 = v.toNat / 2 ^ 12 ∧
        w.toNat / 16 % 256 = 0 ∧
        w.toNat % 16 = (if 2 ≤ v.toNat % 16 ∧ v.toNat % 16 ≤ 12 then v.toNat % 16 else x.cqcfg.toNat % 16)) ∧
      (reg 6 → let a := v.toNat / 2 ^ 32
        becomes (if (a + 2 ^ 32 - x.acked) % 2 ^ 32 ≤ (x.written + 2 ^ 32 - x.acked) % 2 ^ 32 then { x with acked := a } else x)) ∧
      (reg 2 → exec (.registerWrite fn off v) s = exec (.commitWrite fn q v) s) ∧
      (reg 4 → v.toNat % 16 = 1 → exec (.registerWrite fn off v) s = exec (.queueEnable fn q) s) ∧
      (reg 4 → v.toNat % 8 = 2 → exec (.registerWrite fn off v) s = exec (.queueDestroy fn q (v.getLsbD 3)) s) ∧
      (reg 4 → v.toNat % 8 ≠ 1 → v.toNat % 8 ≠ 2 → becomes { x with ctrl := BitVec.ofNat 64 (v.toNat % 16) })

/-- From R338, R341–R343 and R346: an ACTIVE queue takes the committed record at its head; one that breaks a limit is
MALFORMED; one of no waits and no indirect counts becomes runnable at once with its tile total, UNPLACEABLE where no cluster
can ever hold it. A record whose waits are met becomes runnable, one with a failed wait is UPSTREAM, any other waits. -/
def Claim.RecordsBecomeRunnable : Prop :=
  ∀ (s : State) (q : Nat),
    let w := queueWho (queueAt s q)
    (∀ l, HeadBytes s q l → recordOk s w { bytes := l } = false → ∃ t r, exec (.recordTake q) s = .next t ∧ OnlyQueueRead s t q ∧
      (queueAt t q).rcd = some r ∧ r.bytes = l ∧ r.status = some 0x101 ∧ r.never = true) ∧
    (∀ l, HeadBytes s q l → recordOk s w { bytes := l } = true → recWaits { bytes := l } = [] → anyInd { bytes := l } = false →
      ∃ t r, exec (.recordTake q) s = .next t ∧ OnlyQueueRead s t q ∧ (queueAt t q).rcd = some r ∧ r.bytes = l ∧ r.runnable = true ∧
        r.runtick = s.tick ∧ r.total = some (tileTotal { bytes := l }) ∧ r.next = recResume { bytes := l } ∧
        r.prefixN = recResume { bytes := l } ∧ (r.status = none ∨ r.status = some 0x102)) ∧
    (∀ (r : Rec) (v : Nat → Nat), (queueAt s q).rcd = some r → r.status = none → r.runnable = false → r.parked = false → r.flush = none →
      (∀ x ∈ recWaits r, WordReads s q x.1 (v x.1)) →
      (anyInd r = true → ∃ x ∈ recWaits r, v x.1 < x.2 ∨ (v x.1).testBit 63 = true) →
      ∃ t r', exec (.waitEvaluation q) s = .next t ∧ OnlyQueueRead s t q ∧ (queueAt t q).rcd = some r' ∧
        ((∃ x ∈ recWaits r, (v x.1).testBit 63 = true) → r'.status = some 0x107 ∧ r'.runnable = false) ∧
        ((∀ x ∈ recWaits r, (v x.1).testBit 63 = false ∧ x.2 ≤ v x.1) → anyInd r = false → r'.runnable = true ∧ r'.runtick = s.tick) ∧
        ((∀ x ∈ recWaits r, (v x.1).testBit 63 = false) → (∃ x ∈ recWaits r, v x.1 < x.2) → r'.status = none ∧ r'.runnable = false))

/-- From R342 and R343: a loop's trips are its count over its step, rounded up, or the word that its PARAM page holds; the tile count
is the product of the loops' trips, the last loop the fastest; tile n's register of loop d holds the d-th digit of n times its
step. -/
def Claim.TileIndices : Prop :=
  ∀ (r : Rec), (∀ d, d < recNloop r → recStep r d ≠ 0) →
    (∀ d, d < recNloop r → recInd r d = false →
      recCount r d ≤ trips r d * recStep r d ∧ trips r d * recStep r d < recCount r d + recStep r d) ∧
    (∀ d n, recInd r d = true → SMap.get none r.indT d = some n → trips r d = n) ∧
    tileTotal r = ((List.range (recNloop r)).map (trips r)).prod ∧
    ∀ n, n < tileTotal r →
      (tileIndices r n).length = recNloop r ∧
      ∃ k : Nat → Nat, (∀ d, d < recNloop r → k d < trips r d ∧ (tileIndices r n)[d]? = some (recXreg r d, k d * recStep r d)) ∧
        n = (List.range (recNloop r)).foldl (fun a d => a * trips r d + k d) 0

/-- From R35, R43, R44, R340, R349 and R350: where the first candidate is a record that fits now, one tile of it starts: as many
free cores as it asks for, none of them kept for a candidate of higher priority, of the fitting cluster with the most free
cores, each in the launch state, under the lowest free TID (log 64); the record's next tile is one on and the round robin moves
past its queue. -/
def Claim.TilesAreLaunched : Prop :=
  ∀ (s : State) (q cl tid : Nat) (r : Rec) (rest : List Cnd),
    sweepTeams s = s → candidates s = .rcd q :: rest → (queueAt s q).rcd = some r → freeTid s = some tid →
    pickCluster s (fits s r (queuePart (queueAt s q))) = some cl →
    let cores := (freeFor s (recPrio r) cl).take (recSize r)
    let fit (k : Nat) : Prop := fits s r (queuePart (queueAt s q)) k = true
    fit cl ∧ (∀ k, k < 20 → fit k → (freeCores s k).length ≤ (freeCores s cl).length ∧
      ((freeCores s k).length = (freeCores s cl).length → cl ≤ k)) ∧
    (∀ n ∈ cores, ∀ c, SMap.get none s.kept n = some c → cndWaits s c = true → cndPrio s c ≤ recPrio r) ∧
    (teamAt s tid).st = .free ∧ (∀ k, k < tid → (teamAt s k).st ≠ .free) ∧
    ∃ t, exec .walkerChoice s = .next t ∧ cores.length = recSize r ∧ cores.Nodup ∧
      (∀ k n, cores[k]? = some n → coreAt t n = launchCore s r r.next tid k ∧ (coreAt s n).tid = 0x3FF ∧ 16 * cl ≤ n ∧ n < 16 * cl + 16) ∧
      (∀ n, n ∉ cores → coreAt t n = coreAt s n) ∧
      (teamAt t tid).st = .running ∧ (teamAt t tid).cores = cores ∧ (teamAt t tid).queue = q ∧ (teamAt t tid).tile = r.next ∧
      (teamAt t tid).text = recNat r 0 2 ∧ (teamAt t tid).nbar = recNbar r ∧ (teamAt t tid).cluster = cl ∧
      (∀ n, n ≠ tid → teamAt t n = teamAt s n) ∧
      (queueAt t q).rcd = some { r with next := r.next + 1 } ∧ SMap.get 0 t.rr (recPrio r) = (q + 1) % 256 ∧ t.mem = s.mem

/-- From R349: the candidates are the teams saved that wait to be restored and the records with tiles to launch, of the highest
priority first; within one priority the teams come before the records, the longest saved first, and the records in round robin
from the queue after the one served last. -/
def Claim.CandidatesInOrder : Prop :=
  ∀ (s : State), (s.teams.map (fun p => p.1)).Pairwise (fun a b : Nat => a < b) → (s.queues.map (fun p => p.1)).Pairwise (fun a b : Nat => a < b) →
    (∀ c ∈ candidates s, cndWaits s c = true) ∧
    (∀ tid, tid ∈ s.teams.map (·.1) → cndWaits s (.team tid) = true → (teamAt s tid).prio < 32 → .team tid ∈ candidates s) ∧
    (∀ q, q ∈ s.queues.map (·.1) → launchable s q = true → .rcd q ∈ candidates s) ∧
    ∀ (i j : Nat) (a b : Cnd), i < j → (candidates s)[i]? = some a → (candidates s)[j]? = some b →
      cndPrio s b ≤ cndPrio s a ∧ (cndPrio s a = cndPrio s b →
        let first := SMap.get 0 s.rr (cndPrio s a)
        (∀ p u, a = .team p → b = .team u → (teamAt s p).savedAt ≤ (teamAt s u).savedAt) ∧
        (∀ p u, a = .rcd p → b ≠ .team u) ∧
        (∀ p u, a = .rcd p → b = .rcd u → (first ≤ p ∧ u < first) ∨ (p < u ∧ (first ≤ p ↔ first ≤ u))))

/-- From R349 and R351: a first candidate that fits nowhere asks its victims to halt, for whose cores it is then first, and is
passed over for this choice: the first of the rest that fits is served. Its victims are running teams of lower priority without
NOPREEMPT, of a cluster that could hold it, of one where the fewest free enough room; they are taken lowest priority first, the
latest launched first among equals, and one fewer would not do. -/
def Claim.VictimsAreChosen : Prop :=
  (∀ (s : State) (c : Cnd) (rest : List Cnd), (s.teams.map (fun p => p.1)).Pairwise (fun a b : Nat => a < b) → sweepTeams s = s → candidates s = c :: rest → serve s c = none →
    let t := (victims s c).foldl (haltFor c) s
    exec .walkerChoice s = .next (((rest.findSome? (serve t))).getD t) ∧
    (∀ v, v ∉ victims s c → teamAt t v = teamAt s v) ∧ t.cores = s.cores ∧ t.queues = s.queues ∧
    ∀ v ∈ victims s c, ∃ h, (teamAt t v).halt = some h ∧ h.victim = some c ∧ h.ends = .halted ∧ h.waits = true ∧ h.discard = false) ∧
  (∀ (s : State) (cl p size nbar : Nat) (need w : List Nat), (s.teams.map (fun p => p.1)).Pairwise (fun a b : Nat => a < b) →
    victimsIn s cl p need size nbar = some w →
    (∀ v ∈ w, (teamAt s v).st = .running ∧ (teamAt s v).halt = none ∧ (teamAt s v).prio < p ∧ (teamAt s v).nopreempt = false ∧
      (teamAt s v).cluster = cl) ∧
    roomWithout s cl w need size nbar = true ∧ (∀ k, k < w.length → roomWithout s cl (w.take k) need size nbar = false) ∧
    (need = [] → w.Pairwise (fun a b => (teamAt s a).prio < (teamAt s b).prio ∨
      ((teamAt s a).prio = (teamAt s b).prio ∧ (teamAt s b).order ≤ (teamAt s a).order)))) ∧
  (∀ (s : State) (q : Nat) (r : Rec), (queueAt s q).rcd = some r →
    let from_ (cl : Nat) (w : List Nat) : Prop := cl < 20 ∧ couldHold s r (queuePart (queueAt s q)) cl = true ∧
      (clusterAt s cl).hot = false ∧ victimsIn s cl (recPrio r) [] (recSize r) (recNbar r) = some w
    (victims s (.rcd q) ≠ [] → ∃ cl, from_ cl (victims s (.rcd q))) ∧
    ∀ cl w, from_ cl w → (victims s (.rcd q)).length ≤ w.length) ∧
  (∀ (s : State) (p n : Nat), keptAbove s p n = true ↔
    ∃ c, SMap.get none s.kept n = some c ∧ cndWaits s c = true ∧ p < cndPrio s c)

/-- R43: at a tile launch a core's engines stand at ENTRY with every count, predicate and queue empty; its registers are 0 but for
the indices, X7 and X8; its FIFOs hold the record's plain tokens. -/
def Claim.LaunchState : Prop :=
  ∀ (s : State) (r : Rec) (n tid idx : Nat),
    let c := launchCore s r n tid idx
    (∀ g, engSt c g = { pc := recNat r 2 4 }) ∧ c.tid = tid ∧ c.idx = idx ∧
    (∀ g k, g ≠ .c → getScal c g k = 0) ∧
    getScal c .c 8 = BitVec.ofNat 64 (recNat r 6 2) ∧ getScal c .c 7 = BitVec.ofNat 64 idx ∧
    (∀ k, k ≠ 7 → k ≠ 8 → (∀ x ∈ tileIndices r n, x.1 ≠ k) → getScal c .c k = 0) ∧
    (∀ a b, vget c a b = 0) ∧ (∀ a, kget c a = 0) ∧ c.vmode = 0 ∧ c.vflags = 0 ∧ c.ql = [] ∧ c.qs = [] ∧ c.qd = [] ∧ c.stq = [] ∧ c.l1 = [] ∧
    c.od = [] ∧ c.cq = [] ∧ c.fences = [] ∧ c.held = false ∧
    (((tileIndices r n).map (·.1)).Nodup → ∀ x ∈ tileIndices r n, x.1 ≠ 0 → x.1 ≠ 7 → getScal c .c x.1 = BitVec.ofNat 64 x.2) ∧
    ∀ f, f < 12 → fifoAt c f = List.replicate (recToken r f) {}

/-- From R347 and R348: once its tiles are done, a record publishes its outputs and adds 1 to its signal word on OK, or
sets bit 63 of it on any other status, but writes nothing where a check of the word fails (R94); then, where the completion ring has room, its entry is written and its slot
freed. -/
def Claim.RecordsComplete : Prop :=
  ∀ (s : State) (q : Nat) (r : Rec), (queueAt s q).rcd = some r →
    let x := queueAt s q
    let w := queueWho x
    let p := if r.status.getD 0 = 0 then (recOuts r).foldl (fun s h => publish s (queuePart x) (queueCtx x) h (max 1 (recRelease r))) s else s
    let sig := sigAddr (recNat r 82 2) (recNat r 84 4)
    (sweepTeams s = s → r.step = 0 → r.parked = false → r.flush = none → recTeams s q = [] → r.bytes ≠ [] → r.status ≠ some 0x103 →
      (r.status = none → r.runnable = true ∧ ∃ n, r.total = some n ∧ n ≤ r.prefixN) →
      (recNat r 82 2 = 0 → ∃ t r', exec (.recordComplete q) s = .next t ∧ OnlyQueue p t q ∧
        (queueAt t q).rcd = some r' ∧ r'.step = 4 ∧ r'.status = some (r.status.getD 0)) ∧
      (∀ k, recNat r 82 2 ≠ 0 → sigOk p w sig = true → xlateRange p w .a false sig 8 = .ok k → isRemote (k.headD 0) = false →
        (∀ j ∈ k, ¬ (apBase ≤ j ∧ j < apTop)) → badBlocks p sig k = none →
        let v := leNat (k.map (rdByte p))
        let z := writeMem (fillReads p k) (k.zip (leBytes 8 (if r.status.getD 0 = 0 then v + 1 else v ||| 2 ^ 63)))
        ∃ t r', exec (.recordComplete q) s = .next t ∧ (queueAt t q).rcd = some r' ∧ r'.step = 4 ∧ t.ht = p.ht ∧
          t.mem = z.mem ∧ t.lc = z.lc) ∧
      (∀ k, recNat r 82 2 ≠ 0 → sigOk p w sig = true → xlateRange p w .a false sig 8 = .ok k → isRemote (k.headD 0) = false →
        (∀ j ∈ k, ¬ (apBase ≤ j ∧ j < apTop)) → badBlocks p sig k ≠ none →
        ∃ t r', exec (.recordComplete q) s = .next t ∧ (queueAt t q).rcd = some r' ∧ r'.step = 4 ∧ t.mem = p.mem ∧ t.lc = p.lc)) ∧
    (r.step = 4 → x.st ≠ .destroying →
      (ringSize x ≤ (x.written + 2 ^ 32 - x.acked) % 2 ^ 32 → exec (.completionEntryWrite q) s = .next s) ∧
      ((x.written + 2 ^ 32 - x.acked) % 2 ^ 32 < ringSize x → ∃ t, exec (.completionEntryWrite q) s = .next t ∧
        (queueAt t q).written = (x.written + 1) % 2 ^ 32 ∧ (queueAt t q).rcd = none ∧
        (queueAt t q).head = (x.head + 1) % queueDepth x ∧ (queueAt t q).outst = x.outst - 1 ∧
        let d := devWrite s w (ringAddr x x.written) (completionEntry x r s.tick)
        t.mem = d.mem ∧ t.lc = d.lc))

/-- From R347, R352 and R353: a runnable record whose tiles are not all over at its deadline is late; EXPIRE 1 also raises it and its
teams to priority 31, EXPIRE 2 ends it with CANCELLED unless its status is set; before the deadline, and once step 1 of R347
is complete, nothing happens. -/
def Claim.DeadlinesExpire : Prop :=
  ∀ (s : State) (q : Nat) (r : Rec), (queueAt s q).rcd = some r → r.runnable = true → r.expired = false → r.parked = false → r.step = 0 →
    recDeadline r ≠ 0 →
    (stepOne (sweepTeams s) q r = true → exec (.deadlineExpiry q) s = .next s) ∧
    (s.tick < r.runtick + recDeadline r → exec (.deadlineExpiry q) s = .next s) ∧
    (r.runtick + recDeadline r ≤ s.tick → stepOne (sweepTeams s) q r = false → ∃ t r', exec (.deadlineExpiry q) s = .next t ∧ (queueAt t q).rcd = some r' ∧
      r'.expired = true ∧ r'.late = true ∧ t.mem = s.mem ∧
      (recExpire r = 0 → OnlyQueue s t q ∧ r'.status = r.status) ∧
      (recExpire r = 1 → r'.raised = true ∧ r'.status = r.status ∧ ∀ tid ∈ recTeams s q, (teamAt t tid).prio = 31) ∧
      (2 ≤ recExpire r → r'.status = some (r.status.getD 0x104)))

namespace Sys2Proof.Machine

/-! ## Teams, privileged words and the fault queue -/

/-- A privileged word that ends with a status in D and a state before it: outside foreman mode the same word is an illegal
encoding, which ends its context (R128, R325, R326). -/
def Gives (s : State) (h : Hd) (d : Reg) (out : Out) (code : Nat) (t : State) : Prop :=
  Ready s h → (foreman s = true → out = .next (goesOn h (wr t d (BitVec.ofNat 64 code)))) ∧
    (foreman s = false → out = .next (fatalHere s fIllegal))

/-- A word of the Foreman that waits for what it began. -/
def WaitsOn (out : Out) (t : State) : Prop := out = .next (upCurEng t (fun e => { waitOn t.tick e 0 0 0 with issued := true }))

end Sys2Proof.Machine

/-- From R315, R317, R319 and R324: a halt asked of a running team takes hold where no region holds it back and an image slot is free;
its function instructions complete; once every command has written its record, its loads are back and its stores have performed, the team is
saved as its image and leaves its cores, or is discarded. -/
def Claim.TeamsAreHaltedAndSaved : Prop :=
  ∀ (s : State) (tid : Nat) (h : Halt), (teamAt s tid).halt = some h →
    let t := teamAt s tid
    (t.st = .running → t.image = none → h.begun = false → (h.waits = true → ∀ n ∈ t.cores, (coreAt s n).npre = false) →
      (h.discard = true ∨ slotsUsed s < s.ctxSlots) →
      ∃ u, exec (.haltRequest tid) s = .next u ∧ u = { s with teams := u.teams } ∧
        teamAt u tid = { t with st := .halting, halt := some { h with begun := true }, hasSlot := !h.discard,
                                islot := freeImage s, stopped := s.tick }) ∧
    (t.st = .running → t.image = none → (h.begun = true ∨ (h.waits = true ∧ ∃ n ∈ t.cores, (coreAt s n).npre = true)) →
      exec (.haltRequest tid) s = .next s) ∧
    (t.st = .halting → ∃ u, exec (.haltComplete tid) s = .next u ∧ u = { s with cores := u.cores } ∧
      (∀ n ∈ t.cores, coreAt u n = { coreAt s n with fnFlight := 0 }) ∧ (∀ n, n ∉ t.cores → coreAt u n = coreAt s n)) ∧
    (t.st = .halting → h.begun = true →
      (∀ n ∈ t.cores, (coreAt s n).ql = [] ∧ (coreAt s n).qs = [] ∧ (coreAt s n).qd = [] ∧ (coreAt s n).stq = [] ∧
        ∀ g, engInFlight { s with cur := { core := n, eng := g } } = false) →
      (h.discard = true → ∃ u, exec (.teamSave tid) s = .next u ∧ teamAt u tid = {}) ∧
      (h.discard = false → t.hasSlot = true → (∀ r ∈ unreported s, r.tid = tid → r.cls ≠ 1) →
        ∃ u, exec (.teamSave tid) s = .next u ∧ (teamAt u tid).st = h.ends ∧ (teamAt u tid).halt = none ∧
          (teamAt u tid).savetick = s.tick ∧ (teamAt u tid).cores = t.cores ∧ (∀ n ∈ t.cores, coreAt u n = vacate (coreAt s n)) ∧
          (∀ n, n ∉ t.cores → coreAt u n = coreAt s n) ∧ u.mem = s.mem ∧
          ∃ l : List Core, (teamAt u tid).image = some l ∧ l.length = t.cores.length ∧
            ∀ (k n : Nat) (c : Core), t.cores[k]? = some n → l[k]? = some c →
              (∀ g, ∃ p w t r, engSt c g = { engSt (coreAt s n) g with reply := p, wait := w, tlb := t, rst := r } ∧
                r = (engSt (coreAt s n) g).rst) ∧
              (∀ g r, getScal c g r = getScal (coreAt s n) g r) ∧ c.v = (coreAt s n).v ∧ c.k = (coreAt s n).k ∧
              c.vmode = (coreAt s n).vmode ∧ c.vflags = (coreAt s n).vflags ∧ c.fifos = (coreAt s n).fifos ∧ c.od = (coreAt s n).od ∧
              c.fences = (coreAt s n).fences ∧ c.bround = (coreAt s n).bround ∧ c.cq = (coreAt s n).cq ∧ c.held = (coreAt s n).held ∧
              c.trapmask = (coreAt s n).trapmask ∧ c.npre = (coreAt s n).npre ∧
              (c.npre = true → c.npt0 = s.tick - (coreAt s n).npt0) ∧ c.l1 = []))

/-- From R314, R317 and R349: where the first candidate is a saved team that can go back, the walkers restore it to exactly the cores
it left, with every register of its image, an empty L1 and its region's budget going on, and it runs; no other core changes. A team
whose trapping word is to be skipped has that word go by, at its trapping core alone, as a nullified one that has issued. -/
def Claim.TeamsAreRestored : Prop :=
  ∀ (s : State) (tid : Nat) (imgs : List Core) (rest : List Cnd),
    let t := teamAt s tid
    sweepTeams s = s → candidates s = .team tid :: rest → restorable s t = true → t.image = some imgs → imgs.length = t.cores.length →
    t.cores.Nodup →
    ∃ u, exec .walkerChoice s = .next u ∧
      (∀ n ∈ t.cores, (coreAt s n).tid = 0x3FF) ∧ (∀ n, n ∉ t.cores → coreAt u n = coreAt s n) ∧
      (teamAt u tid).st = .running ∧ (teamAt u tid).image = none ∧ (teamAt u tid).halt = none ∧ (teamAt u tid).hasSlot = false ∧
      (teamAt u tid).cores = t.cores ∧ (teamAt u tid).lease = t.lease ∧ (teamAt u tid).prio = t.prio ∧
      (∀ k, k ≠ tid → teamAt u k = teamAt s k) ∧
      ∀ k n c, t.cores[k]? = some n → imgs[k]? = some c →
        let back := { c with tid := tid, l1 := [], npt0 := if c.npre then s.tick - c.npt0 else 0 }
        (t.skip = false ∨ k ≠ t.trapCore → coreAt u n = back) ∧
        (t.skip = true → k = t.trapCore → (engSt c (engOfNum t.trapEng)).issued = false → coreAt u n = back) ∧
        (t.skip = true → k = t.trapCore → (engSt c (engOfNum t.trapEng)).issued = true →
          ∃ p : State, p.cur = { core := n, eng := engOfNum t.trapEng } ∧
            coreAt p n = upEng back (engOfNum t.trapEng) (fun e => { e with reply := {} }) ∧
            (let hd := hdOf (unpackWord (wordAt p (curEng p).pc)); coreAt u n = curCore (passedOver hd p)))

/-- From R322 and R326: `wsrd` writes WAITST and WAITOBJ of an engine to D and the register after it. -/
def Claim.WaitStateReads : Prop :=
  ∀ (s : State) (h : Hd) (d a : Reg) (imm : W32), Ready s h → foreman s = true →
    let p := atHand s h
    let core := (rd p a).toNat
    let c := coreAt p core
    let e := engSt c (engOfNum (imm.toNat % 4))
    ∃ st obj : Word, exec (.wsrd h d a imm) s = .next (goesOn h (wrN (wr p d st) (d.toNat + 1) obj)) ∧
      (320 ≤ core ∨ c.tid = 0x3FF → st.toNat = 0x3FF * 2 ^ 22 ∧ obj = 0) ∧
      (core < 320 → c.tid < 0x3FF → (teamAt p c.tid).st = .running → e.wait.since < 2 ^ 32 → e.wait.kind < 256 →
        st.toNat / 2 ^ 32 = e.wait.since ∧ st.toNat / 2 ^ 22 % 2 ^ 10 = c.tid ∧ st.toNat / 2 ^ 8 % 2 ^ 8 = e.wait.detail % 256 ∧
        st.toNat % 2 ^ 8 = e.wait.kind ∧ obj = BitVec.ofNat 64 e.wait.obj) ∧
      (core < 320 → c.tid < 0x3FF → (teamAt p c.tid).st ≠ .running → st.toNat % 2 ^ 8 = 13)

/-- From R326–R328: `team.halt` and `team.hold` ask a running team to halt and wait for it, and end with OK once the halt is over;
`team.kill` ends the team's context with a KILLED record; `team.resume` lets a HELD team go on as HALTED and restores a TRAPPED one, its
trapping word again or past it. A number without a live team gives NOTEAM, a wrong state BADSTATE. -/
def Claim.TeamWords : Prop :=
  ∀ (s : State) (h : Hd) (d a : Reg),
    let p := atHand s h
    let tid := (rd p a).toNat
    let t := teamAt p tid
    let live := liveTeam p tid = true
    (¬ live → (curEng s).issued = false →
      Gives s h d (exec (.teamHalt h d a) s) 1 p ∧ Gives s h d (exec (.teamHold h d a) s) 1 p) ∧
    (¬ live → Gives s h d (exec (.teamKill h d a) s) 1 p ∧ Gives s h d (exec (.teamResumeReexec h d a) s) 1 p ∧
      Gives s h d (exec (.teamResumeSkip h d a) s) 1 p) ∧
    (live → t.st = .running → (curEng s).issued = false → Ready s h → foreman s = true →
      WaitsOn (exec (.teamHalt h d a) s) (beginHalt (askHalt p tid .halted false true) tid) ∧
      WaitsOn (exec (.teamHold h d a) s) (beginHalt (askHalt p tid .held false true) tid)) ∧
    ((curEng s).issued = true → haltOver p tid = true →
      Gives s h d (exec (.teamHalt h d a) s) 0 p ∧ Gives s h d (exec (.teamHold h d a) s) 0 p) ∧
    (live → t.st ≠ .running → (curEng s).issued = false → Gives s h d (exec (.teamHalt h d a) s) 2 p) ∧
    (live → t.st = .halted → (curEng s).issued = false →
      Gives s h d (exec (.teamHold h d a) s) 0 (upTeam p tid (fun t => { t with st := .held }))) ∧
    (live → Gives s h d (exec (.teamKill h d a) s) 0 (failContext (holdFault p
      { cls := 0, code := 0x10, tid := tid, queue := t.queue, slot := t.slot, ctx := t.ctx, part := t.part, info := tid,
        tick := p.tick }) t.part t.ctx)) ∧
    (live → t.st = .held → Gives s h d (exec (.teamResumeReexec h d a) s) 0 (upTeam p tid (fun t => { t with st := .halted })) ∧
      Gives s h d (exec (.teamResumeSkip h d a) s) 4 p) ∧
    (live → t.st = .trapped →
      Gives s h d (exec (.teamResumeReexec h d a) s) 0 (upTeam p tid (fun t => { t with st := .resuming, skip := false })) ∧
      Gives s h d (exec (.teamResumeSkip h d a) s) 0 (upTeam p tid (fun t => { t with st := .resuming, skip := true }))) ∧
    (live → t.st ≠ .held → t.st ≠ .trapped → Gives s h d (exec (.teamResumeReexec h d a) s) 2 p ∧
      Gives s h d (exec (.teamResumeSkip h d a) s) 2 p)

/-- From R329 and R326: `q.flush` stops a queue's dispatch and ends with OK once its record is parked; `q.reset` makes a queue take records again, mode 0 ending a parked
record with FLUSHED, mode 1 dispatching it again after its resume index, or ending it with UNPLACEABLE where repair has left no
cluster for it. A queue that is DISABLED gives NOQUEUE, one in a wrong
state BADSTATE. -/
def Claim.QueueWords : Prop :=
  ∀ (s : State) (h : Hd) (d a : Reg),
    let p := atHand s h
    let q := (rd p a).toNat
    let x := queueAt p q
    (256 ≤ q ∨ x.st = .disabled →
      ((curEng s).issued = false → Gives s h d (exec (.qFlushFinish h d a) s) 3 p ∧ Gives s h d (exec (.qFlushDiscard h d a) s) 3 p) ∧
      Gives s h d (exec (.qResetContinue h d a) s) 3 p ∧ Gives s h d (exec (.qResetRestart h d a) s) 3 p) ∧
    (q < 256 → x.st = .active → (curEng s).issued = false → x.rcd = none →
      let t := upQueue p q (fun x => { x with st := .parked, rcd := none })
      Gives s h d (exec (.qFlushFinish h d a) s) 0 t ∧ Gives s h d (exec (.qFlushDiscard h d a) s) 0 t) ∧
    (∀ r, q < 256 → x.st = .active → (curEng s).issued = false → x.rcd = some r → parkable r = true → r.flush = none → recTeams p q ≠ [] →
      Ready s h → foreman s = true →
      WaitsOn (exec (.qFlushFinish h d a) s) (upQueue p q (fun x => { x with st := .parked, rcd := some { r with flush := some 0 } }))) ∧
    (q < 256 → x.st = .active ∨ x.st = .destroying →
      Gives s h d (exec (.qResetContinue h d a) s) 2 p ∧ Gives s h d (exec (.qResetRestart h d a) s) 2 p) ∧
    (∀ r, q < 256 → x.st = .parked ∨ x.st = .qerr → sweepTeams p = p → x.rcd = some r → r.flush = none → r.parked = true →
      Gives s h d (exec (.qResetContinue h d a) s) 0 (upQueue p q (fun x =>
        { x with st := .active, err := 0, errslot := 0, rcd := some { r with parked := false, status := some 0x105 } })) ∧
      Gives s h d (exec (.qResetRestart h d a) s) 0 (deadlineExpire (upQueue p q (fun x =>
        { x with st := .active, err := 0, errslot := 0,
                 rcd := some (let y := { r with parked := false, next := r.prefixN, doneSet := [] }
                   if y.runnable && y.total.isSome && y.status.isNone && !placeable p y (queuePart x) then { y with status := some 0x102 } else y) })) q))

/-- From R330: `ctx.save` copies a part of a saved team's image into the Foreman pair store at b, and `ctx.rest` reads one back where
it keeps the limits of an image, else gives BADIMAGE, once the core's own stores there have performed; a failing check of a block
copied gives BADIMAGE with an E2ECONS record (log 94); both refuse a team that is not live, not saved, or an address that
does not fit. -/
def Claim.SavedContexts : Prop :=
  ∀ (s : State) (h : Hd) (d a b : Reg) (imm : W32),
    let p := atHand s h
    let tid := (rd p a).toNat
    let at_ := (rd p b).toNat
    let m := imm.toNat % 32
    let n := if m = 16 then headerSize else coreImageSize
    let k := pairBase + at_ % 2 ^ 48
    let fits := at_ / 2 ^ 48 = 0xFFFE ∧ at_ % 4096 = 0 ∧ at_ % 2 ^ 48 + n ≤ 2 ^ 23
    (liveTeam p tid = false → Gives s h d (exec (.ctxSave h d a b imm) s) 1 p ∧ Gives s h d (exec (.ctxRest h d a b imm) s) 1 p) ∧
    (liveTeam p tid = true → (teamAt p tid).image = none →
      Gives s h d (exec (.ctxSave h d a b imm) s) 2 p ∧ Gives s h d (exec (.ctxRest h d a b imm) s) 2 p) ∧
    ∀ l, liveTeam p tid = true → (teamAt p tid).image = some l →
      (teamAt p tid).st = .halted ∨ (teamAt p tid).st = .held ∨ (teamAt p tid).st = .trapped →
      (¬ fits ∨ (m ≠ 16 ∧ l.length ≤ m) →
        Gives s h d (exec (.ctxSave h d a b imm) s) 4 p ∧ Gives s h d (exec (.ctxRest h d a b imm) s) 4 p) ∧
      (fits → (m = 16 ∨ m < l.length) →
        (failedFrom p (ctxBase + partPlace (teamAt p tid) m) n = [] → ∃ t, Gives s h d (exec (.ctxSave h d a b imm) s) 0 t ∧ t.teams = p.teams ∧ t.cores = p.cores ∧
          (∀ i, i < n → rdByte t (k + i) =
            pieceByte (if m = 16 then headerPieces (teamAt p tid) else corePieces (teamAt p tid) (l.getD m {})) i) ∧
          (∀ j, j < k ∨ k + n ≤ j → rdByte t j = rdByte p j)) ∧
        (∀ i r, failedFrom p (ctxBase + partPlace (teamAt p tid) m) n = i :: r → Gives s h d (exec (.ctxSave h d a b imm) s) 5
          (holdReport p { cls := 2, code := 1, addr := p.ctxHandle * 2 ^ 48 + partPlace (teamAt p tid) m + 64 * i,
                          len := 64 * (r.length + 1), tick := p.tick })) ∧
        (let u := performIn p p.cur.core (fun j => decide (k ≤ j ∧ j < k + n))
         (∀ i r, failedFrom u k n = i :: r → Gives s h d (exec (.ctxRest h d a b imm) s) 5
           (holdReport u { cls := 2, code := 1, addr := at_ + 64 * i, len := 64 * (r.length + 1), tick := u.tick })) ∧
         (failedFrom u k n = [] →
          let byte (o : Nat) : Byte := rdByte u (k + o)
          (m = 16 → headerImageOk byte = true →
            Gives s h d (exec (.ctxRest h d a b imm) s) 0 (upTeam u tid (fun t => readBars byte t))) ∧
          (m ≠ 16 → coreImageOk byte = true →
            Gives s h d (exec (.ctxRest h d a b imm) s) 0 (upTeam u tid (fun x =>
              { x with image := some (l.set m (readCore byte (teamAt p tid) (l.getD m {}))) }))) ∧
          ((m = 16 → headerImageOk byte = false) → (m ≠ 16 → coreImageOk byte = false) →
            Gives s h d (exec (.ctxRest h d a b imm) s) 5 u))))

/-- From R323, R324 and R331: `prd` reads one of the privileged registers of its selector and index; `pwr` writes those that
may be written, and any other selector is an illegal encoding. -/
def Claim.PrivilegedRegisters : Prop :=
  ∀ (s : State) (h : Hd) (d a b : Reg) (imm : W32), Ready s h → foreman s = true →
    let p := atHand s h
    let sel := imm.toNat % 2 ^ 12
    let idx := (rd p a).toNat
    let v := (rd p b).toNat
    (sel ∉ [0x010, 0x011, 0x020, 0x021, 0x030] →
      exec (.prd h d a imm) s = .next (fatalHere s fIllegal) ∧ exec (.pwr h d a b imm) s = .next (fatalHere s fIllegal)) ∧
    (sel ∈ [0x010, 0x011, 0x020, 0x021, 0x030] →
      (∃ x, exec (.prd h d a imm) s = .next (goesOn h (wr p d x)) ∧
        (sel = 0x010 → x = BitVec.ofNat 64 (p.fqBase * 2 ^ 12 + p.fqLost * 16 + p.fqLog)) ∧
        (sel = 0x011 → x = BitVec.ofNat 64 (p.fqAcked * 2 ^ 32 + p.fqWritten)) ∧
        (sel = 0x020 → x = if liveTeam p idx then teamst p idx else 0) ∧
        (sel = 0x021 → x = if liveTeam p idx then BitVec.ofNat 64 (teamAt p idx).overrun else 0) ∧
        (sel = 0x030 → x = BitVec.ofNat 64 (p.ctxHandle * 2 ^ 48 + p.ctxSlots))) ∧
      ∃ t, exec (.pwr h d a b imm) s = .next (goesOn h (wr t d 0)) ∧
        (sel = 0x010 → t = { p with fqBase := v / 2 ^ 12, fqLog := if v % 16 = 0 ∨ (2 ≤ v % 16 ∧ v % 16 ≤ 12) then v % 16 else p.fqLog,
                                    fqLost := 0, fqWritten := 0, fqAcked := 0 }) ∧
        (sel = 0x011 → t = { p with fqAcked := if ackOk p.fqAcked p.fqWritten (v / 2 ^ 32) then v / 2 ^ 32 else p.fqAcked }) ∧
        (sel = 0x021 → t = if liveTeam p idx then upTeam p idx (fun x => { x with overrun := v }) else p) ∧
        (sel = 0x020 ∨ sel = 0x030 → t = p))

/-- From R308 and R309: the oldest held record is written, with its phase, into the next place of the fault ring where that has room, and a
record waiting at its source takes the place it leaves; a full or disabled ring leaves all as it is. -/
def Claim.FaultRecords : Prop :=
  ∀ s : State,
    (s.fqHeld = [] ∨ faultRoom s = false → exec .faultRecordWrite s = .next s) ∧
    (∀ r rest, s.fqHeld = r :: rest → faultRoom s = true → ∃ t, exec .faultRecordWrite s = .next t ∧
      let d := devWrite s (devWho 4 0) (s.fqBase * 2 ^ 12 + 64 * (s.fqWritten % 2 ^ s.fqLog)) (frecBytes r (1 - s.fqWritten / 2 ^ s.fqLog % 2))
      t.fqHeld = d.fqHeld.drop 1 ++ d.fqWait.take 1 ∧ t.fqWait = d.fqWait.drop 1 ∧ t.fqWritten = (s.fqWritten + 1) % 2 ^ 32 ∧
      d.fqWait = s.fqWait ∧ (d.fqHeld = s.fqHeld ∨ ∃ x, d.fqHeld = s.fqHeld ++ [x] ∧ x.cls = 2) ∧
      t.mem = d.mem ∧ t.lc = d.lc ∧ t.cores = s.cores ∧ t.teams = s.teams)

namespace Sys2Proof.Machine

/-! ## Regions, handle tables and format windows -/

/-- The `lreg` words that take no variant in OPX. -/
def regionWords (h : Hd) (d a : Reg) : List Instr := [.lregWrite h d a, .lregSeal h d a, .lregRemap h d a, .lregDestroy h d a]

/-- Of region r, the rows that a WRITE or REMAP names hold the source's codes and scales where they lie in one of these tiles, in
r'; every other code is as it was (R379). -/
def RowsWritten (p : State) (r r' : Region) (w : WriteDesc) (tiles : List Nat) : Prop :=
  let row (k : Nat) : Nat := (writtenRows r w).1 + k
  (∀ k b, k < (writtenRows r w).2 → b < regRowBytes r → regTile r (row k) b ∈ tiles →
    SMap.get 0 r'.data (regKey (row k) b) = keepPlanes r (rdByte p ((srcKey p (srcAddr w k b)).getD 0))) ∧
  (∀ k, k < (writtenRows r w).2 → regTile r (row k) 0 ∈ tiles → (SMap.get 0 r'.scales (row k)).toNat =
    leNat ((List.range 4).map (fun b => rdByte p ((srcKey p (scaleAddr w k b)).getD 0)))) ∧
  (∀ n b, n < row 0 ∨ row (writtenRows r w).2 ≤ n ∨ regTile r n b ∉ tiles → b < 65536 →
    SMap.get 0 r'.data (regKey n b) = SMap.get 0 r.data (regKey n b))

/-- The codes and scales of every region but one are as before. -/
def OtherRegionsKept (s t : State) (n : Nat) : Prop :=
  ∀ k, k ≠ n → (regionAt t k).map (fun r => (r.data, r.scales)) = (regionAt s k).map (fun r => (r.data, r.scales))

end Sys2Proof.Machine

/-- From R1, R18, R332 and R377: `lreg` CREATE makes a region of its descriptor, not sealed, where the number is free, the stacks are
present and the partition's, and its array planes have room; it reports NOSPACE where a plane would hold more pages than its raw
capacity, where a page or a copy of a scale page finds no block, and in between, where the spec does not say how many pages a block
holds, by a free value; a field outside its limits gives BADARG. -/
def Claim.RegionsAreCreated : Prop :=
  ∀ (s : State) (h : Hd) (d a : Reg) (opx : BitVec 4),
    let p := fwFill (atHand s h) a 64
    let out := exec (.lregCreate h d a opx) s
    (opx ≠ 0 → Gives s h d out 4 (atHand s h)) ∧ (opx = 0 → fwDesc p a 64 = none → Gives s h d out 4 p) ∧
    ∀ l, opx = 0 → fwDesc p a 64 = some l →
      let n := dNat l 0 2
      let sts := stacksOf (dNat l 6 1)
      let present := ∀ x ∈ sts, x < stackCount p
      let owned := ∀ x ∈ sts, SMap.get 7 p.own.sp (x / 2) = dNat l 2 1
      (createOk l = false → Gives s h d out 4 p) ∧
      (createOk l = true → (regionAt p n).isSome → Gives s h d out 0x112 p) ∧
      (createOk l = true → regionAt p n = none → ¬ present → Gives s h d out 0x117 p) ∧
      (createOk l = true → regionAt p n = none → present → ¬ owned → Gives s h d out 0x118 p) ∧
      (createOk l = true → regionAt p n = none → present → owned →
        let r0 := createRegion l
        let u := reserveBlocks (setRegion { p with free := p.free + 1 } n (some r0)) n r0
        let r1 := (regionAt u n).getD r0
        let load := planeLoad p r0
        let full := noSpace p r0 r1
        (load ≤ 8028 → allReserved r1 = true → full = false) ∧ (65536 < load ∨ allReserved r1 = false → full = true) ∧
        (full = true → Gives s h d out 0x113 { p with free := u.free }) ∧
        (full = false → ∃ t r, Gives s h d out 0 t ∧ t = { p with regions := t.regions, free := t.free } ∧
          (∀ k, k ≠ n → regionAt t k = regionAt p k) ∧ regionAt t n = some r ∧ r.isSealed = false ∧ r.part = dNat l 2 1 ∧
          r.layout = dNat l 3 1 ∧ r.planes = dNat l 4 1 ∧ r.nrows = dNat l 8 4 ∧ r.ncols = dNat l 12 2 ∧ r.smask = dNat l 6 1 ∧
          r.data = [] ∧ r.failed = [] ∧ allReserved r = true))

/-- From R326 and R379–R381: WRITE before SEAL, and REMAP after it, put the source's codes, cut to the stored planes, and scales into
the named rows and no other, REMAP tile by tile, each at one instant; a source block whose check fails gives BADIMAGE and nothing
is written; SEAL makes a region usable; DESTROY ends one that no handle and no command names. Each gives its status where the
region is absent or in another state. -/
def Claim.RegionsAreWrittenAndDestroyed : Prop :=
  ∀ (s : State) (h : Hd) (d a : Reg),
    let p := fwFill (atHand s h) a 64
    (fwDesc p a 64 = none → (curCore s).lreg = none → ∀ i ∈ regionWords h d a, Gives s h d (exec i s) 4 p) ∧
    (∀ l w, (curCore s).lreg = none → fwDesc p a 64 = some l → writeDesc l = some w →
      (regionAt p w.region = none → Gives s h d (exec (.lregWrite h d a) s) 0x111 p ∧ Gives s h d (exec (.lregRemap h d a) s) 0x111 p) ∧
      (∀ r, regionAt p w.region = some r →
        (r.isSealed = true → Gives s h d (exec (.lregWrite h d a) s) 0x114 p) ∧
        (r.isSealed = false → Gives s h d (exec (.lregRemap h d a) s) 0x115 p) ∧
        (∀ i, i = (if r.isSealed then Instr.lregRemap h d a else .lregWrite h d a) →
          (r.nrows < w.first + w.count ∨ sourcesOk p r w = false → Gives s h d (exec i s) 4 p) ∧
          (w.first + w.count ≤ r.nrows → sourcesOk p r w = true → ∀ x, firstBad p r w = some x →
            ∃ t, Gives s h d (exec i s) 5 t ∧ t.regions = p.regions ∧ t.blocks = p.blocks)) ∧
        (r.isSealed = false → w.first + w.count ≤ r.nrows → sourcesOk p r w = true → firstBad p r w = none → regRowBytes r ≤ 65536 →
          ∃ t r', Gives s h d (exec (.lregWrite h d a) s) 0 t ∧ regionAt t w.region = some r' ∧ r'.isSealed = false ∧
            RowsWritten p r r' w (namedTiles r w) ∧ SameMemory p t ∧ OtherRegionsKept p t w.region))) ∧
    (∀ l w r i n, writeDesc l = some w → regionAt p w.region = some r → (namedTiles r w)[i]? = some n → regRowBytes r ≤ 65536 →
      (curCore s).lreg = some (l, i) ∨ (i = 0 ∧ (curCore s).lreg = none ∧ fwDesc p a 64 = some l ∧ r.isSealed = true ∧
        w.first + w.count ≤ r.nrows ∧ sourcesOk p r w = true ∧ firstBad p r w = none ∧ lregBusy p w.region = false) →
      ∃ t r', regionAt t w.region = some r' ∧ r'.isSealed = r.isSealed ∧ RowsWritten p r r' w [n] ∧ SameMemory p t ∧
        OtherRegionsKept p t w.region ∧
        (i + 1 = (namedTiles r w).length → (curCore t).lreg = none ∧ Gives s h d (exec (.lregRemap h d a) s) 0 t) ∧
        (i + 1 < (namedTiles r w).length → (curCore t).lreg = some (l, i + 1) ∧
          (Ready s h → foreman s = true → WaitsOn (exec (.lregRemap h d a) s) t))) ∧
    (∀ l, fwDesc p a 64 = some l →
      let n := dNat l 0 2
      let used := ∃ x ∈ p.ht, ∃ e, x.2 = some e ∧ e.kind = 4 ∧ e.base = n
      (regionAt p n = none → Gives s h d (exec (.lregSeal h d a) s) 0x111 p ∧ Gives s h d (exec (.lregDestroy h d a) s) 0x111 p) ∧
      (∀ r, regionAt p n = some r →
        Gives s h d (exec (.lregSeal h d a) s) 0 (setRegion p n (some { r with isSealed := true })) ∧
        (used → Gives s h d (exec (.lregDestroy h d a) s) 0x116 p) ∧
        (¬ used → (regionInUse p n || lregBusy p n) = true → Ready s h → foreman s = true → WaitsOn (exec (.lregDestroy h d a) s) p) ∧
        (¬ used → (regionInUse p n || lregBusy p n) = false → ∃ t, Gives s h d (exec (.lregDestroy h d a) s) 0 t ∧ regionAt t n = none ∧
          ∀ k, k ≠ n → regionAt t k = regionAt p k)))

/-- From R109 and R358–R361: `htab` MAP and BIND write the entry of a handle not mapped, its front the BASE backing, and change nothing
else but the shadow, which holds what the front holds; a bad
name, kind or field, a mapped handle and a base outside the partition give their statuses. -/
def Claim.HandlesAreMapped : Prop :=
  ∀ (s : State) (h : Hd) (d a : Reg) (l : List Byte),
    let p := fwFill (atHand s h) a 128
    let map := exec (.htabMap h d a 0) s
    let bind := exec (.htabBind h d a) s
    let k := htName l
    let e := newEntry l
    let mapKind := e.kind ∈ [1, 2, 4, 5, 6]
    let own := backingOwned p (htPart l) e.kind e.ext e.base = true ∧ (e.shadow = true → backingOwned p (htPart l) e.kind e.ext e.sbase = true)
    (fwDesc p a 128 = none → Gives s h d map 4 p ∧ Gives s h d bind 4 p) ∧
    (fwDesc p a 128 = some l →
      (htNameOk p l = false → Gives s h d map 0x101 p ∧ Gives s h d bind 0x101 p) ∧
      (htNameOk p l = true → (¬ mapKind → Gives s h d map 0x104 p) ∧ (e.kind ≠ 3 → Gives s h d bind 0x104 p) ∧
        (mapKind → mapFieldsOk l = false → Gives s h d map 4 p) ∧ (e.kind = 3 → bindFieldsOk l = false → Gives s h d bind 4 p) ∧
        ((SMap.get none p.ht k).isSome →
          (mapKind → mapFieldsOk l = true → Gives s h d map 0x102 p) ∧ (e.kind = 3 → bindFieldsOk l = true → Gives s h d bind 0x102 p)) ∧
        (SMap.get none p.ht k = none →
          (mapKind → mapFieldsOk l = true → ¬ own → Gives s h d map 0x105 p) ∧
          (mapKind → mapFieldsOk l = true → own →
            let t := equalBackings { p with ht := SMap.set none p.ht k (some e) } e
            Gives s h d map 0 t ∧ t = { p with ht := SMap.set none p.ht k (some e), mem := t.mem, lc := t.lc, bad := t.bad } ∧
            (e.shadow = false → t.mem = p.mem ∧ t.lc = p.lc ∧ t.bad = p.bad) ∧
            (e.kind = 2 → e.shadow = true → p.Good →
              e.base + e.ext ≤ e.sbase ∨ e.sbase + e.ext ≤ e.base →
              ∀ o, o < e.ext → rdByte t (tensorBase + e.sbase + o) = rdByte p (tensorBase + e.base + o))) ∧
          (e.kind = 3 → bindFieldsOk l = true → Gives s h d bind 0 { p with ht := SMap.set none p.ht k (some e) }))))

/-- From R360, R361 and R365: where no linked module has loaded them and no access is on its way, SHOOTDOWN drops the pages' translations from
every TLB that their ACCESSED bits name, clears those bits and counts; UNMAP does so for the whole extent of the handle and
removes it. A shootdown whose module did not answer within 10 ms, which is 20,000 ticks, gives LINKDOWN, and a removed entry is there
again. -/
def Claim.TranslationsAreShotDown : Prop :=
  ∀ (s : State) (h : Hd) (d a : Reg) (l : List Byte) (e : HEntry),
    let p := fwFill (atHand s h) a 128
    let k := htName l
    let bit (n : Nat) (g : Eng) : Nat := 2 * p.modNum + if g = .c ∧ n % 2 = 1 then 1 else 0
    let down (t : State) (pages : List Nat) : Prop :=
      t.shoot = none ∧ (partAt t (htPart l)).shootdowns = ((partAt p (htPart l)).shootdowns + 1) % 2 ^ 64 ∧
      (∀ n g x, x ∈ pages → (accessed p x).testBit (bit n g) = true → SMap.get none (engSt (coreAt t n) g).tlb x = none) ∧
      (∀ x ∈ pages, (accessed p x).testBit (2 * p.modNum) = true → SMap.get none t.ltlb x = none) ∧
      (∀ x ∈ pages, x + 8 < dramTop → dramBad p (x + 8) = false → accessed t x = 0)
    let alone (pages : List Nat) := otherMods p pages = [] ∧ inFlight p = [] ∧ SMap.wf {} p.cores = true ∧ ∀ n, (coreAt p n).stq = []
    (fwDesc p a 128 = none → p.shoot = none → Gives s h d (exec (.htabShootdown h d a) s) 4 p ∧ Gives s h d (exec (.htabUnmap h d a) s) 4 p) ∧
    (fwDesc p a 128 = some l → p.shoot = none →
      (htNameOk p l = false → Gives s h d (exec (.htabShootdown h d a) s) 0x101 p ∧ Gives s h d (exec (.htabUnmap h d a) s) 0x101 p) ∧
      (htNameOk p l = true → SMap.get none p.ht k = none →
        (shootFieldsOk l = true → Gives s h d (exec (.htabShootdown h d a) s) 0x103 p) ∧
        (unmapFieldsOk l = true → Gives s h d (exec (.htabUnmap h d a) s) 0x103 p)) ∧
      (htNameOk p l = true → SMap.get none p.ht k = some e →
        (shootFieldsOk l = true → alone (shootPages e (htBase l) (htExtent l)) → ∃ t, Gives s h d (exec (.htabShootdown h d a) s) 0 t ∧
          down t (shootPages e (htBase l) (htExtent l)) ∧ t.ht = p.ht) ∧
        (unmapFieldsOk l = true → alone (shootPages e 0 e.ext) → ∃ t, Gives s h d (exec (.htabUnmap h d a) s) 0 t ∧
          down t (shootPages e 0 e.ext) ∧ t.ht = SMap.set none p.ht k none))) ∧
    (∀ x : Shoot, let p := atHand s h
      p.shoot = some x → x.core = p.cur.core → shootWaits p x = false → x.lost = true ∨ stillOut p x.ids = true →
      let t := { p with shoot := none, reqs := p.reqs.filter (fun r => !x.ids.contains r.id), ht := match x.back with | some b => SMap.set none p.ht b.1 (some b.2) | none => p.ht }
      Gives s h d (exec (.htabShootdown h d a) s) 0x106 t ∧ Gives s h d (exec (.htabUnmap h d a) s) 0x106 t) ∧
    (∀ mods, ∃ t, exec (.shootdownTimeout mods) s = .next t ∧ t = { s with reqs := t.reqs, shoot := t.shoot } ∧
      (s.shoot = none → t = s) ∧ (∀ x, s.shoot = some x → s.tick < x.start + 20000 → t = s) ∧
      (∀ r ∈ t.reqs, r ∈ s.reqs) ∧ (t.reqs.length < s.reqs.length → ∀ x, t.shoot = some x → x.lost = true))

/-- From R371: `fwin` SET opens a window over its ranges, CLEAR closes one, and FLUSH and CLEAR leave no line of its aperture in the level cache; each
writes the window's counters, and gives its status for a bad field, an open window, overlapping ranges, ranges outside the
partition, or a window that is off. -/
def Claim.FormatWindows : Prop :=
  ∀ (s : State) (h : Hd) (d a : Reg) (l : List Byte),
    let p := fwFill (atHand s h) a 64
    let n := dNat l 0 1
    let w := winOf l
    let set_ := exec (.fwinSet h d a 0) s
    let out := [exec (.fwinClear h d a) s, exec (.fwinFlush h d a) s]
    let busy := (winAt p n).on = true ∨ ∃ x ∈ p.wins, x.2.on = true ∧ x.1 ≠ n ∧ ∃ y ∈ winRanges x.2, ∃ z ∈ winRanges w, meet y z = true
    let owned := SMap.get 7 p.own.fw n = w.part ∧ ∀ y ∈ winRanges w, rangeOwned p w.part y = true
    (fwDesc p a 64 = none → ∀ o ∈ set_ :: out, Gives s h d o 4 p) ∧
    (fwDesc p a 64 = some l →
      (winDescOk l = false → Gives s h d set_ 4 p) ∧
      (winDescOk l = true → partExists p w.part = false → Gives s h d set_ 0x101 p) ∧
      (winDescOk l = true → partExists p w.part = true → busy → Gives s h d set_ 0x107 p) ∧
      (winDescOk l = true → partExists p w.part = true → ¬ busy → ¬ owned → Gives s h d set_ 0x105 p) ∧
      (winDescOk l = true → partExists p w.part = true → ¬ busy → owned →
        Gives s h d set_ 0 (winReport (setWin p n w) (rd p a).toNat n) ∧ (winAt (setWin p n w) n).on = true) ∧
      (winDescOk l = false → ∀ o ∈ out, Gives s h d o 4 p) ∧
      (winDescOk l = true → partExists p w.part = false → ∀ o ∈ out, Gives s h d o 0x101 p) ∧
      (winDescOk l = true → partExists p w.part = true → (winAt p n).on = false → ∀ o ∈ out, Gives s h d o 0x108 p) ∧
      (winDescOk l = true → partExists p w.part = true → (winAt p n).on = true → (winAt p n).planes ≤ 8 → (winAt p n).store + 2 ^ 36 ≤ apBase → (winAt p n).scale + 2 ^ 36 ≤ apBase →
        ∃ u, (∀ k, winKey n 0 ≤ k → k < winKey n (2 ^ 36) → lcWord u k = none) ∧
          Gives s h d (exec (.fwinFlush h d a) s) 0 (winReport u (rd p a).toNat n) ∧ (winAt u n).on = true ∧
          Gives s h d (exec (.fwinClear h d a) s) 0 (winReport (setWin u n { winAt u n with on := false }) (rd p a).toNat n)))

/-- From R88 and R91: a merging fill leaves every byte reading, and every check, as it was; the eviction of a line of LPDDR-6 empties
the level cache of it and leaves every byte reading as it did; a block whose check fails keeps it failing, and where words of it were
held it is reported as LCEVICT. -/
def Claim.EvictionIsInvisible : Prop :=
  (∀ (s : State) (keys : List Nat), SameMemory s (fillReads s keys)) ∧
  ∀ (s : State) (line : Nat), 128 * line < dramTop → ∃ t, exec (.cacheEviction line) s = .next t ∧
    (∀ k, 128 * line ≤ k → k < 128 * line + 128 → lcWord t k = none) ∧
    (∀ k, k < 128 * line ∨ 128 * line + 128 ≤ k → lcWord t k = lcWord s k) ∧
    (∀ k, rdByte t k = rdByte s k) ∧ t.cores = s.cores ∧ t.teams = s.teams ∧
    (∀ b, SMap.get false t.bad b = SMap.get false s.bad b) ∧
    (∀ b, b = 2 * line ∨ b = 2 * line + 1 → SMap.get false s.bad b = true → (∃ i, i < 16 ∧ lcWord s (64 * b + 4 * i) ≠ none) →
      s.fqHeld.length < 63 → ∃ r ∈ t.fqHeld, r.cls = 2 ∧ r.code = 4 ∧ r.addr = 64 * b ∧ r.len = 64)

namespace Sys2Proof.Machine

/-- The command at the head of a queue is over with the result `r` over the state `u`: it leaves its record as `CommandsComplete` says
(R239, R241). -/
def EndsWith (s : State) (core : Nat) (q : QId) (u : State) (r : CRes) : Prop :=
  exec (.commandComplete core q) s = .next (closeHead (finishCmd u core q r) core q)

/-- The command at the head of a queue has moved, sent and asked for nothing yet. -/
def AtHead (s : State) (core : Nat) (q : QId) (c : Cmd) (rest : List Cmd) : Prop :=
  getQ (coreAt s core) q = c :: rest ∧ c.done = none ∧ c.prog = 0 ∧ c.half = 0 ∧ c.sent = false ∧ c.reply = {}

/-- The page-table bytes in which accesses at device addresses are marked, reads and writes as the list says (R364). -/
def markOf (s : State) (w : Who) (l : List (Bool × Nat)) (k : Nat) : Prop :=
  ∃ p ∈ l, ∃ e, htAt s w.part w.ctx (p.2 / 2 ^ 48 % 65536) = some e ∧
    (k = pteAddr (backing e p.1) (p.2 % 2 ^ 48) + 8 ∨ k = pteAddr (backing e p.1) (p.2 % 2 ^ 48 + 2 ^ 21) + 8)

/-- Locations of plain memory of this module: no window's, no register's, no context area's. -/
def plain (s : State) (k : Nat) : Prop := held k ∧ k < mapBase ∧ inArea s k = false

/-- Values to write at device addresses, with the locations that each goes to: all in plain memory, no two the same, and no
block that fails its check is written in part. -/
def Lands (s : State) (w : Who) (l : List (Nat × List Byte)) (ks : List (List Nat)) : Prop :=
  ks.length = l.length ∧ (∀ i p, l[i]? = some p → engKeys s w true p.1 p.2.length = .ok (ks.getD i [])) ∧
  (∀ k ∈ ks.flatten, plain s k) ∧ ks.flatten.Nodup ∧ badWrite s ks.flatten = none

/-- Those values written, and nothing else but the marks of their pages. -/
def PutDown (s u : State) (w : Who) (l : List (Nat × List Byte)) (ks : List (List Nat)) : Prop :=
  let m := markOf s w (l.map (fun p => (true, p.1)))
  (∀ i j p, l[i]? = some p → j < (ks.getD i []).length → ¬ m ((ks.getD i []).getD j 0) → rdByte u ((ks.getD i []).getD j 0) = p.2.getD j 0) ∧
  ∀ k, held k → k ∉ ks.flatten → ¬ m k → rdByte u k = rdByte s k

end Sys2Proof.Machine

/-- From R110, R111 and R248: a publish at the head of the store queue swaps the two backings of a shadowed handle, and of no other: what
its record then says is OK. A store issued before it that names the handle performs first or follows the handle to its new backing; with
none pending only the handle's entry changes. A handle without a shadow is UNSHADOWED, and one of a kind that the hoist may not name
REFUSED. -/
def Claim.PublishSwapsBackings : Prop :=
  ∀ (s : State) (core : Nat) (c : Cmd) (rest : List Cmd), (coreAt s core).qs = c :: rest → c.op = .hpub → c.done = none →
    let w := cmdWho s core
    let h := c.ra.toNat / 2 ^ 48
    (∀ e, htAt s w.part w.ctx h = some e → kindOk w.agent .r e.kind = true → e.kind ≠ 6 → e.shadow = true →
      let key := entKey s w.part w.ctx h
      let ht := SMap.set none s.ht key (some { e with swapped := !e.swapped, narrow := decide (c.k < 4) })
      (∃ u, EndsWith s core .store u {} ∧ u.ht = ht ∧ u.lode = s.lode ∧
        ∀ n p, p ∈ (coreAt u n).stq → ∃ o ∈ (coreAt s n).stq, p = { o with bytes := p.bytes }) ∧
      ((∀ p ∈ s.cores, ∀ x ∈ (coreAt s p.1).stq, storeNames s p.1 key x = false) → EndsWith s core .store { s with ht := ht } {})) ∧
    ((htAt s w.part w.ctx h = none ∨ ∃ e, htAt s w.part w.ctx h = some e ∧ kindOk w.agent .r e.kind = true ∧ e.kind ≠ 6 ∧ e.shadow = false) →
      EndsWith s core .store s { status := 7 }) ∧
    (∀ e, htAt s w.part w.ctx h = some e → e.kind = 6 ∨ kindOk w.agent .r e.kind = false → EndsWith s core .store s { status := 8 })

/-- From R105, R237 and R244–R250: a copy, gather, scatter, multicast, fill or layout command whose elements all lie in plain
memory of this module, whose places do not meet, moves every element's bytes from its source, or the fill value, to each of its
destinations; no other byte changes but the marks of its pages, and its COUNT is that of all its bytes. A command that is refused
moves nothing. A hoist of the cluster waits for stores of its core on their way to another home. -/
def Claim.CopiesMoveTheirElements : Prop :=
  ∀ (s : State) (core : Nat) (q : QId) (c : Cmd) (rest : List Cmd), AtHead s core q c rest → isCopy c.op ∨ c.op = .hlay →
    let w := if c.op = .hlay then cmdWho s core else copyWho s core c
    let m := if c.op = .hlay then layWalk s w c else copyWalk s w c
    let refusal := if c.op = .hlay then layRefusal s w c else copyRefusal s w c
    (onHoist s core c = true → storeAway s core c = true → exec (.commandComplete core q) s = .next s) ∧
    ((∀ p ∈ (coreAt s core).stq, c.id ≤ p.id) → ∀ st, refusal = some st → EndsWith s core q s { status := st }) ∧
    ((∀ p ∈ (coreAt s core).stq, c.id ≤ p.id) → refusal = none →
      ∀ (src : Nat → Option (List Nat)) (dst : Nat → List (List Nat)),
      (∀ i, i < m.n → m.src i = .ok (src i) ∧ m.dst i = .ok (dst i) ∧ (∀ l, src i = some l → l.length = m.size ∧ ∀ k ∈ l, plain s k) ∧
        ∀ d ∈ dst i, d.length = m.size ∧ ∀ k ∈ d, plain s k) →
      ((List.range m.n).flatMap (fun i => (dst i).flatten)).Nodup →
      (∀ i j l, i < m.n → j < m.n → src i = some l → ∀ k ∈ l, k ∉ (dst j).flatten) →
      badWrite s ((List.range m.n).flatMap (fun i => (dst i).flatten)) = none →
      let mark := markOf s w ((List.range m.n).flatMap m.adr)
      ∃ u, EndsWith s core q u { count := m.size * m.copies * m.n } ∧
        (∀ i d j, i < m.n → d ∈ dst i → j < m.size → ¬ mark (d.getD j 0) →
          rdByte u (d.getD j 0) = (match src i with | some l => rdByte s (l.getD j 0) | none => BitVec.ofNat 8 (m.fill / 256 ^ j))) ∧
        (∀ k, held k → k ∉ (List.range m.n).flatMap (fun i => (dst i).flatten) → ¬ mark k → rdByte u k = rdByte s k))

/-- From R90 and R243–R247: the walk of a copy has the product of its extents for its elements, the last dimension fastest. A side in offset form
places an element at its origin plus the sum of index times stride; a gather takes the first index of its source from its index
list, a scatter that of its destination; a multicast writes the scratchpads of the pairs that its mask names; a fill reads nothing. -/
def Claim.WalksOfCopies : Prop :=
  ∀ (s : State) (w : Who) (c : Cmd) (q : Nat), isCopy c.op → 1 ≤ cpDim c → (∀ d, d < cpDim c → cpExt c d ≠ 0) → q < cpCount c →
    let m := copyWalk s w c
    let after_ (d : Nat) : Nat := ((List.range (cpDim c)).drop (d + 1)).foldl (fun p e => p * cpExt c e) 1
    let own (d : Nat) : Nat := q / after_ d % cpExt c d
    let at_ (x : Side) (first : Nat) : Int := ((x.base % 2 ^ 48 : Nat) : Int) +
      ((List.range (cpDim c)).map (fun d => ((if d = 0 then first else own d : Nat) : Int) * (sideWord c x d).toInt)).sum
    let place (write : Bool) (x : Side) (first : Nat) : Prop :=
      (0 ≤ at_ x first → at_ x first < 2 ^ 48 → cpAddr s w c write q = .ok (x.base / 2 ^ 48 * 2 ^ 48 + (at_ x first).toNat)) ∧
      (at_ x first < 0 ∨ 2 ^ 48 ≤ at_ x first → ∃ e, cpAddr s w c write q = .error e ∧ e.status = 2 ∧ e.fcode = 2)
    let listed (v : Nat) : Prop := (c.rb.toNat % 2 ^ 48 + 4 * (q / after_ 0) + 3 < 2 ^ 48) ∧
      ∃ l, engBytes s w (c.rb.toNat + 4 * (q / after_ 0)) 4 = .ok l ∧ leNat l = v
    m.n = ((List.range (cpDim c)).map (cpExt c)).foldl (· * ·) 1 ∧ m.size = cpSize c ∧
    ((srcSide c).coord = false → c.op ≠ .hgat → place false (srcSide c) (own 0)) ∧
    ((dstSide c).coord = false → c.op ≠ .hsct → place true (dstSide c) (own 0)) ∧
    (∀ v, listed v → (c.op = .hgat → (srcSide c).coord = false → place false (srcSide c) v) ∧
      (c.op = .hsct → (dstSide c).coord = false → place true (dstSide c) v)) ∧
    (∀ a, c.op ≠ .hfill → cpAddr s w c false q = .ok a → ∀ l, engRead s w a (cpSize c) = .ok l → m.src q = .ok (some l)) ∧
    (c.op = .hfill → m.src q = .ok none ∧ m.fill = c.rb.toNat) ∧
    (∀ a, c.op ≠ .hmc → cpAddr s w c true q = .ok a → ∀ l, engKeys s w true a (cpSize c) = .ok l → m.dst q = .ok [l]) ∧
    (∀ a, c.op = .hmc → cpAddr s w c true q = .ok a → a % 2 ^ 48 < 2 ^ 23 →
      m.dst q = .ok (((List.range 8).filter (fun p => c.k.testBit p)).map (fun p => (List.range (cpSize c)).map (fun i =>
        scratchKey w.core (p * 2 ^ 23 + a % 2 ^ 48 + i)))))

/-- From R71, R94, R257 and R258: the values that a Lode or sequence unit computes are written in their order, up to the first whose address
fails. -/
def Claim.ComputedWrites : Prop :=
  ∀ (s : State) (w : Who) (l : List (Nat × List Byte)) (ks : List (List Nat)), Lands s w l ks →
    let as_ (l : List (Nat × List Byte)) : List (Except Stop Nat × List Byte) := l.map (fun p => (.ok p.1, p.2))
    (∃ u, putAll s w (as_ l) = (u, none, l.length) ∧ PutDown s u w l ks ∧ u.lode = s.lode ∧ u.regions = s.regions ∧ u.asys = s.asys ∧ u.rdls = s.rdls) ∧
    ∀ (a : Nat) (d : List Byte) (e : Stop) (more : List (Except Stop Nat × List Byte)), engKeys s w true a d.length = .error e →
      ∃ u, putAll s w (as_ l ++ (.ok a, d) :: more) = (u, some { e with findex := l.length }, l.length) ∧ PutDown s u w l ks

/-- From R17, R254–R256 and R380–R384: a page read of a tile that stands does nothing in a reserved tick, nor while an earlier wave of the
same stamp has still to start on its stack; while Shoring holds its plane or block a wave is only marked deferred; else its block takes
one sense, three with a soft retry, and the command goes on with the next bit-plane, its tile failed where the read was. The first read
of a tile takes its mapping, whose blocks the later ones sense, and, for a wave, its codes; the first sense of a stamped wave on a plane
after its tick makes it LATE. -/
def Claim.LodePagesAreRead : Prop :=
  ∀ (s : State) (core : Nat) (o : PageOutcome) (c : Cmd) (rest : List Cmd) (r : Region), (coreAt s core).qd = c :: rest →
    c.done = none → lodeRefusal s core c = none → (c.stamp.isSome → c.started = true) → (c.op = .ired → c.started = true) →
    cmdRegion s c = some r → c.wave.tile < (readUnits r c).1.length →
    let n := (readUnits r c).1.getD c.wave.tile 0
    let p := tilePlace r n
    let i := c.wave.plane
    let fast := if r.layout = 0 then isFast r i else r.fastn == 1
    let key := blockKey p.1 p.2.1 p.2.2 (if i = 0 then pageBlock (c.arg - 1) r n 0 else c.wave.blks.getD i 0)
    let heldBack := stolenTick s p.1 p.2.1 p.2.2 = true ∨ disturbLimit fast ≤ (blockAt s key).disturb
    let retry := r.soft = true ∧ (o = .soft ∨ o = .uncorrectable)
    let fails := o = .uncorrectable ∨ o = .checkFailed ∨ (o = .soft ∧ r.soft = false)
    let reserved := s.tick % 64 = 8 * (p.2.2 / 16) + p.2.1
    (i ≠ 0 ∨ (tileDead s r n = false ∧ SMap.get false r.failed n = false)) → i < (readUnits r c).2 →
    (reserved ∨ startsAfter s c p.1 = true → exec (.lodePageRead core o) s = .next s) ∧
    (startsAfter s c p.1 = true ↔ c.op = .sacc ∧ c.stamp.isSome ∧ (∀ x ∈ c.wave.hit, x.2 = true → x.1 / 1024 ≠ p.1) ∧
      ∃ y ∈ s.cores, ∃ x ∈ y.2.qd, x.op = .sacc ∧ x.done = none ∧ x.stamp = c.stamp ∧ x.ord < c.ord ∧ toStart s x p.1 = true) ∧
    (¬ reserved → startsAfter s c p.1 = false → heldBack → c.op ≠ .sacc → exec (.lodePageRead core o) s = .next s) ∧
    (¬ reserved → startsAfter s c p.1 = false → heldBack → c.op = .sacc → ∃ t c', exec (.lodePageRead core o) s = .next t ∧ t.blocks = s.blocks ∧
      (coreAt t core).qd = c' :: rest ∧ c'.flags % 2 = 1 ∧ c'.wave = c.wave ∧ t.mem = s.mem) ∧
    (¬ reserved → startsAfter s c p.1 = false → ¬ heldBack → i + 1 < (readUnits r c).2 →
      ∃ t c', exec (.lodePageRead core o) s = .next t ∧ (coreAt t core).qd = c' :: rest ∧ c'.started = true ∧ c'.wave.plane = i + 1 ∧
        c'.wave.tile = c.wave.tile ∧ (c'.wave.failed = true ↔ c.wave.failed = true ∨ fails) ∧
        c'.wave.senses = c.wave.senses + (if retry then 3 else 1) ∧
        (i ≠ 0 → c'.wave.blks = c.wave.blks) ∧
        (i = 0 → c'.wave.gen = SMap.get 0 r.gen n ∧ (∀ j, j < (readUnits r c).2 → c'.wave.blks.getD j 0 = pageBlock (c.arg - 1) r n j) ∧ (c.op = .sacc → ∀ k, k < 131072 → SMap.get 0 c'.wave.snap k =
          SMap.get 0 r.data (regKey (128 * (n / r.ncols) + k / 1024) (1024 * (n % r.ncols) + k % 1024)))) ∧
        (c'.flags.testBit 4 = true ↔ c.flags.testBit 4 = true ∨
          (c.op = .sacc ∧ SMap.get false c.wave.hit (planeKey p.1 p.2.1 p.2.2) = false ∧ ∃ u, c.stamp = some u ∧ u < s.tick)) ∧
        (blockAt t key).disturb = (blockAt s key).disturb + (if retry then 3 else 1) ∧
        (blockAt t key).retries = (blockAt s key).retries + (if retry then 1 else 0) ∧
        (∀ k, k ≠ key → blockAt t k = blockAt s k) ∧ t.regions = s.regions ∧ t.lode = s.lode ∧ t.mem = s.mem)

/-- From R70, R254, R255, R260 and R381: the last bit-plane of a tile of a wave ends the tile. A tile that was read adds to its stack's slot, for
each vector of the mask and each of its rows, the sum over its columns of the code's first planes times the vector's code,
clamped to 40 bits; a tile that failed adds nothing, sets its row tile's bit and is marked failed. Nothing else of any slot changes. -/
def Claim.TilesAreAdded : Prop :=
  ∀ (s : State) (core : Nat) (o : PageOutcome) (c : Cmd) (rest : List Cmd) (r : Region), (coreAt s core).qd = c :: rest →
    c.done = none → lodeRefusal s core c = none → (c.stamp.isSome → c.started = true) → c.op = .sacc →
    cmdRegion s c = some r → c.wave.tile < (readUnits r c).1.length → c.wave.plane + 1 = (readUnits r c).2 →
    let n := (readUnits r c).1.getD c.wave.tile 0
    let p := tilePlace r n
    let i := c.wave.plane
    let key := blockKey p.1 p.2.1 p.2.2 (if i = 0 then pageBlock (c.arg - 1) r n 0 else c.wave.blks.getD i 0)
    let fails := o = .uncorrectable ∨ o = .checkFailed ∨ (o = .soft ∧ r.soft = false)
    let code (k : Nat) : Byte := if i = 0 then SMap.get 0 r.data (regKey (128 * (n / r.ncols) + k / 1024) (1024 * (n % r.ncols) + k % 1024))
      else SMap.get 0 c.wave.snap k
    let slot := c.pairs / 256
    let bit := n / r.ncols - c.rb.toNat % 2 ^ 16
    let old := slotAt s p.1 slot
    let place (v row : Nat) : Nat := 8 * (128 * bit + row) + v
    let sum (v row : Nat) : Int := ((List.range 1024).map (fun j =>
      planeVal (code (1024 * row + j)).toNat c.k c.mid * latchCode (latchAt s p.1 v) (1024 * (n % r.ncols) + j))).sum
    s.tick % 64 ≠ 8 * (p.2.2 / 16) + p.2.1 → stolenTick s p.1 p.2.1 p.2.2 = false → (blockAt s key).disturb < disturbLimit (isFast r i) →
    startsAfter s c p.1 = false → r.layout = 0 → (i ≠ 0 ∨ (tileDead s r n = false ∧ SMap.get false r.failed n = false)) →
    (c.wave.failed = false → ¬ fails → ∃ t c', exec (.lodePageRead core o) s = .next t ∧ (coreAt t core).qd = c' :: rest ∧
      c'.wave.tile = c.wave.tile + 1 ∧ c'.wave.plane = 0 ∧ c'.wave.bits = c.wave.bits ∧ t.regions = s.regions ∧
      (∀ v row, v < 8 → c.pairs.testBit v = true → row < 128 →
        SMap.get 0 (slotAt t p.1 slot).acc (place v row) = max (-(2 ^ 39 - 1)) (min (2 ^ 39 - 1) (SMap.get 0 old.acc (place v row) + sum v row))) ∧
      (∀ k, (∀ v row, v < 8 → c.pairs.testBit v = true → row < 128 → k ≠ place v row) →
        SMap.get 0 (slotAt t p.1 slot).acc k = SMap.get 0 old.acc k) ∧
      (slotAt t p.1 slot).bm = old.bm ∧ (slotAt t p.1 slot).scale = old.scale ∧
      ∀ st m, st ≠ p.1 ∨ m ≠ slot → slotAt t st m = slotAt s st m) ∧
    (c.wave.failed = true ∨ fails → ∃ t c', exec (.lodePageRead core o) s = .next t ∧ (coreAt t core).qd = c' :: rest ∧
      c'.wave.tile = c.wave.tile + 1 ∧ c'.wave.plane = 0 ∧ c'.wave.bits = c.wave.bits ||| 2 ^ bit ∧
      slotAt t p.1 slot = { old with bm := old.bm ||| 2 ^ bit } ∧ (∀ st m, st ≠ p.1 ∨ m ≠ slot → slotAt t st m = slotAt s st m) ∧
      (i = 0 ∨ c.wave.gen = SMap.get 0 r.gen n → ∃ r', regionAt t (c.arg - 1) = some r' ∧ SMap.get false r'.failed n = true ∧ r'.data = r.data))

/-- From R251–R254, R259 and R293: `lode.act` loads the codes and scales of its vectors into the latch of every stack it names, once no wave on them is under
way; a wave that has read its rectangle copies its vectors' scales into its slot and reports the row tiles that failed; `lode.stat`
reports the bitmap of a slot and the region's planes and counters. A command that is refused changes nothing. -/
def Claim.LatchesAndWaves : Prop :=
  ∀ (s : State) (core : Nat) (c : Cmd) (rest : List Cmd), (coreAt s core).qd = c :: rest → c.done = none →
    let w := lodeWho s core
    let v0 := dI c 28 1
    let nv := dI c 29 1
    let n := dI c 24 4 + 1
    (c.op = .act → (∀ st, actRefusal s w c = some st → EndsWith s core .lode s { status := st }) ∧
      (actRefusal s w c = none → waveOn s (actStacks c) = true → exec (.commandComplete core .lode) s = .next s) ∧
      (actRefusal s w c = none → waveOn s (actStacks c) = false → ∀ (codes scale : Nat → List Byte),
        (∀ v, v < nv → dI c 0 8 % 2 ^ 48 + dI c 16 8 * v < 2 ^ 48 ∧ engBytes s w (dI c 0 8 + dI c 16 8 * v) n = .ok (codes v) ∧
          dI c 8 8 % 2 ^ 48 + 4 * v < 2 ^ 48 ∧ engBytes s w (dI c 8 8 + 4 * v) 4 = .ok (scale v)) →
        ∃ u, EndsWith s core .lode u { count := n * nv * (actStacks c).length } ∧
          (∀ st v, st ∈ actStacks c → v < nv → (latchAt u st (v0 + v)).len = n ∧
            (latchAt u st (v0 + v)).scale = BitVec.ofNat 32 (leNat (scale v)) ∧
            ∀ i, i < n → SMap.get 0 (latchAt u st (v0 + v)).codes i = (codes v).getD i 0) ∧
          (∀ st v, st ∉ actStacks c ∨ v < v0 ∨ v0 + nv ≤ v → latchAt u st v = latchAt s st v) ∧
          ∀ st m, slotAt u st m = slotAt s st m)) ∧
    (c.op = .sacc ∨ c.op = .drain ∨ c.op = .drainRaw ∨ c.op = .ired ∨ c.op = .stat → ∀ st, lodeRefusal s core c = some st →
      EndsWith s core .lode s { status := st, fcode := if st = 2 then 1 else 0 }) ∧
    ∀ r, cmdRegion s c = some r → lodeRefusal s core c = none →
      let sts := stacksOf r.smask
      (c.op = .sacc → (c.wave.tile < (readUnits r c).1.length → exec (.commandComplete core .lode) s = .next s) ∧
        ((readUnits r c).1.length ≤ c.wave.tile → ∃ u, EndsWith s core .lode u { status := if c.wave.bits = 0 then 0 else 1,
                                                                                 count := c.wave.bits, findex := c.wave.senses, flags := c.wave.flags, e2e := c.wave.e2e } ∧
          (∀ st v, st ∈ sts → v < 8 → c.pairs.testBit v = true → SMap.get 0 (slotAt u st (c.pairs / 256)).scale v = (latchAt s st v).scale) ∧
          ∀ st m, (slotAt u st m).acc = (slotAt s st m).acc ∧ (slotAt u st m).bm = (slotAt s st m).bm ∧ (slotAt u st m).sat = (slotAt s st m).sat ∧
            ∀ v, latchAt u st v = latchAt s st v)) ∧
      (c.op = .stat → ∃ b, EndsWith s core .lode s { count := b, findex := r.deferred * 2 ^ 32 + r.planes * 2 ^ 16 + r.smask * 2 ^ 8 +
          (if sts.any (fun st => (slotAt s st c.k).sat) then 2 else 0) + (if isDegraded r then 1 else 0) } ∧
        ∀ i, b.testBit i = true ↔ ∃ st ∈ sts, (slotAt s st c.k).bm.testBit i = true)

/-- From R71, R257, R258, R297 and R381: a drain writes, for each vector and row, the sum over the stacks times the row's and the vector's
scale, and clears what it has drained; a raw drain writes words of one plane's bits in the operand layout, a failed tile's as 0; an
indexed reduce reads its lists, then writes each bag's sum of scaled rows, rounded once. Each waits until its pages and scales
are read. -/
def Claim.DrainsAndReduces : Prop :=
  ∀ (s : State) (core : Nat) (c : Cmd) (rest : List Cmd) (r : Region), (coreAt s core).qd = c :: rest → c.done = none →
    lodeRefusal s core c = none → cmdRegion s c = some r →
    let w := lodeWho s core
    let sts := stacksOf r.smask
    let x := rectOf c
    let readAll := (readUnits r c).1.length ≤ c.wave.tile ∧ scalesRead r c = true
    let gone (row : Nat) : Bool := SMap.get false c.wave.slost row
    (c.op = .drain → scalesRead r c = true →
      let slot := dI c 41 1
      let row0 := 128 * dI c 32 2
      let sum (v i : Nat) : Int := (sts.map (fun st => SMap.get 0 (slotAt s st slot).acc (8 * i + v))).sum
      let value (v i : Nat) : Nat := if gone (row0 + i) then 0 else
        (drainValue (slotClamp (sum v i)) (SMap.get 0 c.wave.ssnap (row0 + i)) (SMap.get 0 (slotAt s (sts.headD 0) slot).scale v)).bits
      let p := putAll s w ((drainCells c).map (fun y => (drainAddr c y, leBytes 4 (value y.1 y.2))))
      p.2.1 = none → ∃ u n f, EndsWith s core .lode u { status := if n = 0 then 0 else 1, count := n, flags := f } ∧
        { u with lode := s.lode } = { p.1 with lode := s.lode } ∧
        (∀ b, n.testBit b = true ↔ b < dI c 34 2 ∧ ((∃ st ∈ sts, (slotAt s st slot).bm.testBit b = true) ∨
          ∃ i, i < 128 ∧ gone (row0 + 128 * b + i) = true)) ∧
        (f.testBit 1 = true ↔ (∃ st ∈ sts, (slotAt s st slot).sat = true) ∨ ∃ y ∈ drainCells c, slotClamp (sum y.1 y.2) ≠ sum y.1 y.2) ∧
        (f.testBit 2 = true ↔ ∃ y ∈ drainCells c, isExc fmt32 (value y.1 y.2) = true) ∧
        ∀ st, st ∈ sts → (∀ y ∈ drainCells c, SMap.get 0 (slotAt u st slot).acc (8 * y.2 + y.1) = 0) ∧
          (∀ k, (∀ y ∈ drainCells c, k ≠ 8 * y.2 + y.1) → SMap.get 0 (slotAt u st slot).acc k = SMap.get 0 (slotAt s st slot).acc k) ∧
          (∀ b, (slotAt u st slot).bm.testBit b = true ↔ (slotAt s st slot).bm.testBit b = true ∧ dI c 34 2 ≤ b) ∧
          (slotAt u st slot).sat = false ∧ (slotAt u st slot).scale = (slotAt s st slot).scale) ∧
    (c.op = .drainRaw → readAll →
      let word (y : Nat × Nat × Nat) : Nat :=
        if SMap.get false c.wave.lost (r.ncols * (x.r0 + y.1 / 128) + (x.c0 + y.2.1 / 32)) then 0
        else ((List.range 32).map (fun b =>
          planeBit (SMap.get 0 c.wave.snap (regKey (128 * x.r0 + y.1) (1024 * x.c0 + 32 * y.2.1 + b))).toNat y.2.2 * 2 ^ b)).sum
      let scale (i : Nat) : Nat := if gone (128 * x.r0 + i) then 0 else (SMap.get 0 c.wave.ssnap (128 * x.r0 + i)).toNat
      let p := putAll s w ((rawCells c).map (fun y => (rawAddr c y, leBytes 4 (word y))) ++
        (if dI c 16 8 = 0 then [] else (List.range (128 * x.nr)).map (fun i => (rawScaleAddr c i, leBytes 4 (scale i)))))
      p.2.1 = none → ∃ n, EndsWith s core .lode p.1 { status := if n = 0 then 0 else 1, count := n, e2e := c.wave.e2e } ∧
        ∀ b, n.testBit b = true ↔ c.wave.bits.testBit b = true ∨
          (dI c 16 8 ≠ 0 ∧ b < min x.nr 64 ∧ ∃ i, i < 128 ∧ gone (128 * x.r0 + 128 * b + i) = true)) ∧
    (c.op = .drain ∨ c.op = .drainRaw ∨ (c.op = .ired ∧ c.started = true) → ¬ readAll →
      exec (.commandComplete core .lode) s = .next s) ∧
    (c.op = .ired → c.started = false →
      (∀ e, iredLists s w c = .error e → EndsWith s core .lode (stopReport s core 2 e) (resOf e 0)) ∧
      (∀ l, iredLists s w c = .ok l → ∃ t, exec (.commandComplete core .lode) s = .next t ∧
        (coreAt t core).qd = { c with desc := c.desc ++ l, started := true } :: rest) ∧
      ∀ o i : Nat → List Byte, (∀ k, k ≤ irNbags c → addOff (dI c 16 8) (4 * k) = .ok (dI c 16 8 + 4 * k) ∧ engBytes s w (dI c 16 8 + 4 * k) 4 = .ok (o k)) →
        (∀ k, k < leNat (o (irNbags c)) → addOff (dI c 8 8) (4 * k) = .ok (dI c 8 8 + 4 * k) ∧ engBytes s w (dI c 8 8 + 4 * k) 4 = .ok (i k)) →
        iredLists s w c = .ok ((List.range (irNbags c + 1)).flatMap o ++ (List.range (leNat (o (irNbags c)))).flatMap i)) ∧
    (c.op = .ired → c.started = true → readAll →
      let f := if dI c 48 1 = 1 then fmtBf else fmt32
      let bag (b : Nat) : List Nat := (List.range (irOff c (b + 1) - irOff c b)).map (fun i => irIdx c (irOff c b + i))
      let lost (row : Nat) : Bool := SMap.get false c.wave.lost (row / rowsPerPage r) || gone row
      let value (b e : Nat) : Nat := exactSum f (((bag b).filter (fun row => decide (row < r.nrows) && !lost row)).map (fun row =>
        mulExact (rowVal r c.wave.snap row (dI c 40 4 + e)) (fpDecode fmt32 (SMap.get 0 c.wave.ssnap row).toNat)))
      let p := putAll s w ((iredCells c).map (fun y => (iredAddr c y, leBytes (iredSize c) (value y.1 y.2))))
      p.2.1 = none → ∃ res : CRes, EndsWith s core .lode p.1 res ∧ res.count = iredSize c * (iredCells c).length ∧
        (res.flags = if (iredCells c).any (fun y => isExc f (value y.1 y.2)) then 4 else 0) ∧
        (∀ q, q < irOff c (irNbags c) - irOff c 0 → r.nrows ≤ irIdx c (irOff c 0 + q) →
          (∀ j, j < q → irIdx c (irOff c 0 + j) < r.nrows) → res.status = 10 ∧ res.fstep = 2 ∧ res.findex = irOff c 0 + q) ∧
        ((∀ q, q < irOff c (irNbags c) - irOff c 0 → irIdx c (irOff c 0 + q) < r.nrows) →
          (∀ b, b < irNbags c → (∃ row ∈ bag b, row < r.nrows ∧ lost row = true) → (∀ j, j < b → ∀ row ∈ bag j, row < r.nrows → lost row = false) →
            res.status = 1 ∧ res.fstep = 2 ∧ res.findex = b) ∧
          ((∀ b, b < irNbags c → ∀ row ∈ bag b, row < r.nrows → lost row = false) → res.status = 0)))

/-- From R377 and R381–R385: a steal takes its plane from the next tick on where a block of the group is urgent and none was taken within 64 ticks. A
refresh of a block that calls for it, in a tick of Shoring's, moves its pages into a free block of its plane and clears its counters; the
codes of every region stay, the tile of a page that cannot be corrected is marked failed, and a copy of a scale page that cannot be corrected is
gone. A block that has used up its soft retries is retired for a spare while one is left, and else its pages fail; where a program or
an erase fails, the block that failed is retired for a spare. -/
def Claim.ShoringCares : Prop :=
  (∀ (s : State) (stack die plane : Nat),
    let recent := ∃ i, i < 16 ∧ SMap.get 0 s.steals (planeKey stack die (plane / 16 * 16 + i)) ≠ 0 ∧
      s.tick + 1 < SMap.get 0 s.steals (planeKey stack die (plane / 16 * 16 + i)) + 64
    let may := planeExists s stack die plane = true ∧ groupUrgent s stack die plane = true ∧ ¬ recent
    (¬ may → exec (.shoringSteal stack die plane) s = .next s) ∧
    (may → exec (.shoringSteal stack die plane) s =
      .next { s with steals := SMap.set 0 s.steals (planeKey stack die plane) (s.tick + 1) })) ∧
  ∀ (s : State) (stack die plane blk : Nat) (bad : List Nat) (wrErr : Bool),
    let key := blockKey stack die plane blk
    let pages := blockPages s stack die plane blk
    let due := planeExists s stack die plane = true ∧ 2 ≤ s.stage ∧ (blockAt s key).retired = false ∧ blk < 8192 ∧
      (s.tick % 64 = 8 * (plane / 16) + die ∨ stolenTick s stack die plane = true) ∧ (∀ p ∈ pages, lregBusy s p.1 = false) ∧
      ((s.stage = 2 ∧ SMap.get false s.scanned key = true) ∨ refreshDue s (pages.any (pageFast s)) (blockAt s key) = true)
    let free := ∃ b, b < 8192 ∧ b ∉ usedBlocks s stack die plane ∧ (blockAt s (blockKey stack die plane b)).retired = false
    let spare := SMap.get 0 s.spares (planeKey stack die plane)
    (¬ due → exec (.shoringRefresh stack die plane blk bad wrErr) s = .next s) ∧
    (due → (blockAt s key).retries < 16 → wrErr = false → free → ∃ t new, exec (.shoringRefresh stack die plane blk bad wrErr) s = .next t ∧
      new < 8192 ∧ (new = blk ∨ new ∉ usedBlocks s stack die plane) ∧ (blockAt s (blockKey stack die plane new)).retired = false ∧
      (blockAt t key).disturb = 0 ∧ (blockAt t key).retries = 0 ∧ (blockAt t key).retired = false ∧ t.spares = s.spares ∧
      (∀ n r, regionAt s n = some r → ∃ r', regionAt t n = some r' ∧ r'.data = r.data ∧ r'.scales = r.scales ∧
        (∀ k, SMap.get false r'.failed k = true ↔ SMap.get false r.failed k = true ∨
          ∃ i ∈ bad, ∃ page, page ≠ 8 ∧ pages[i]? = some (n, k, page)) ∧
        (∀ i k page, i ∉ bad → pages[i]? = some (n, k, page) →
          (page ≠ 8 → SMap.get 0 r'.map (8 * k + page) = new + 1) ∧
          (page = 8 → SMap.get 0 r'.smap k = blockKey stack die plane new + 1)) ∧
        (∀ i k : Nat, pages[i]? = some (n, k, 8) → (∀ j : Nat, pages[j]? = some (n, k, 8) → j ∈ bad) → SMap.get 0 r'.smap k = 0)) ∧
      t.mem = s.mem) ∧
    (due → 16 ≤ (blockAt s key).retries → wrErr = false → spare < 163 → free → ∃ t, exec (.shoringRefresh stack die plane blk bad wrErr) s = .next t ∧
      (blockAt t key).retired = true ∧ SMap.get 0 t.spares (planeKey stack die plane) = spare + 1 ∧ t.mem = s.mem) ∧
    (due → (blockAt s key).retries < 16 → wrErr = true → spare < 163 → free → ∃ t b, exec (.shoringRefresh stack die plane blk bad wrErr) s = .next t ∧
      (b = blk ∨ b ∉ usedBlocks s stack die plane) ∧ (blockAt t (blockKey stack die plane b)).retired = true ∧
      SMap.get 0 t.spares (planeKey stack die plane) = spare + 1 ∧ t.mem = s.mem) ∧
    (due → 16 ≤ (blockAt s key).retries → wrErr = false → 163 ≤ spare → ∃ t, exec (.shoringRefresh stack die plane blk bad wrErr) s = .next t ∧
      (blockAt t key).retired = true ∧ t.mem = s.mem ∧ ∀ n k page r, (n, k, page) ∈ pages → page ≠ 8 → regionAt s n = some r →
        ∃ r', regionAt t n = some r' ∧ SMap.get false r'.failed k = true ∧ r'.data = r.data)

/-- From R386–R388: each wire of a repair group that fails its self-test takes a spare and gives one BOND report; the fifth retires
the core pair, disables the array with its tiles, or retires the plane group behind it, once, and HEALTH has changed then. -/
def Claim.BondsTakeSpares : Prop :=
  ∀ (s : State) (cls bus grp : Nat), bus < busCount s cls → grp < 256 → 2 ≤ s.stage →
    let key := (cls * 256 + bus) * 256 + grp
    let n := SMap.get 0 s.bonds key
    let report : FRec := { cls := 2, code := 7, info := cls * 2 ^ 24 + bus * 2 ^ 16 + grp * 2 ^ 8 + (n + 1), tick := s.tick }
    exec (.bondSelfTest cls bus grp 0) s = .next s ∧
    (5 ≤ n → exec (.bondSelfTest cls bus grp 1) s = .next s) ∧
    (n < 4 → exec (.bondSelfTest cls bus grp 1) s = .next (holdReport { s with bonds := SMap.set 0 s.bonds key (n + 1) } report)) ∧
    (n = 4 → ∃ g, g < 8 ∧
      let gone : Bool := if cls = 0 then SMap.get false s.deadPairs bus else if cls = 1 then SMap.get false s.deadArrays bus
        else SMap.get false s.deadGroups (bus * 8 + g)
      (gone = true → exec (.bondSelfTest cls bus grp 1) s = .next (holdReport { s with bonds := SMap.set 0 s.bonds key 5 } report)) ∧
      (gone = false → ∃ t, exec (.bondSelfTest cls bus grp 1) s = .next t ∧ SMap.get 0 t.bonds key = 5 ∧
        (cls = 0 → SMap.get false t.deadPairs bus = true) ∧
        (cls = 1 → SMap.get false t.deadArrays bus = true ∧ (clusterAt t bus).lease.tiles = []) ∧
        (cls = 2 → SMap.get false t.deadGroups (bus * 8 + g) = true) ∧
        ∀ fn, fn < 5 → (fnAt t fn).event.testBit 1 = true))

/-- From R17, R318, R351, R410 and R411: the tick goes one on; a governor slows its
cluster's clock by one step at a time, or lets it run as fast as it may, and changes nothing else; a cluster
that turns hot has its running teams that may be pre-empted asked to halt, and one that cools is open again. -/
def Claim.ClocksAndGovernors : Prop :=
  ∀ (s : State) (cl step : Nat),
    (∃ t, exec (.tickAdvance) s = .next t ∧ t.tick = (s.tick + 1) % 2 ^ 64 ∧ t.mem = s.mem ∧
      ((∀ n, (coreAt s n).npre = false) → (∀ q r, (queueAt s q).rcd = some r → recDeadline r = 0) →
        t = { s with tick := (s.tick + 1) % 2 ^ 64, aged := s.aged + 1 })) ∧
    exec (.governorStep cl step) s = .next (upCluster s cl (fun x => { x with step := if x.step < step then x.step + 1 else step })) ∧
    exec (.thermalMigration cl false) s = .next (upCluster s cl (fun x => { x with hot := false })) ∧
    (SMap.wf {} s.teams = true → ∃ t, exec (.thermalMigration cl true) s = .next t ∧ clusterAt t cl = { clusterAt s cl with hot := true } ∧ t.cores = s.cores ∧
      ∀ tid, (teamAt s tid).st = .running → tid ≠ 0x3FE →
        ((teamAt s tid).cluster = cl → (teamAt s tid).nopreempt = false → ∃ h, (teamAt t tid).halt = some h ∧ h.begun = ((teamAt s tid).halt.map Halt.begun).getD false) ∧
        ((teamAt s tid).cluster ≠ cl ∨ (teamAt s tid).nopreempt = true → teamAt t tid = teamAt s tid))

namespace Sys2Proof.Machine

/-! ## The host link, the mailbox, start-up and the ports -/

/-- A function may reach `n` bytes of BAR2 from `pa` on (R391, R373): Stage M is complete, and they lie in channel groups that are
present and, for a virtual function, its partition's. -/
def InBar2 (s : State) (fn pa n : Nat) : Prop :=
  s.stage = 3 ∧ 1 ≤ n ∧ n ≤ 2 ^ 37 ∧ ∀ k, k = pa ∨ k = pa + (n - 1) → k < 2 ^ 39 ∧ k / 2 ^ 37 < dramGroups s ∧
    (fn = 0 ∨ SMap.get 7 s.own.ch (k / 2 ^ 37) = fn - 1)

/-- Of a mailbox command: its function and code, whether only the physical function may give it, and the first stage in
which it works (R394, R407). -/
def mailboxRow : Instr → Option (Nat × Nat × Bool × Nat)
  | .ident fn => some (fn, 1, false, 0)
  | .health fn => some (fn, 2, false, 0)
  | .reloadq fn => some (fn, 3, false, 3)
  | .partset fn => some (fn, 0x10, true, 3)
  | .partget fn => some (fn, 0x11, false, 3)
  | .capset fn => some (fn, 0x20, true, 3)
  | .capget fn => some (fn, 0x21, false, 3)
  | .measure fn => some (fn, 0x22, false, 0)
  | .idkey fn => some (fn, 0x23, false, 0)
  | .quote fn => some (fn, 0x24, false, 0)
  | .config fn => some (fn, 0x25, false, 0)
  | .mrext fn => some (fn, 0x26, true, 0)
  | .fwupd fn => some (fn, 0x27, true, 2)
  | .fwstat fn => some (fn, 0x28, false, 0)
  | .restart fn => some (fn, 0x29, true, 0)
  | _ => none

/-- A command of a function is the first to have arrived of those under way (R408). -/
def MbFirst (s : State) (fn : Nat) : Prop := ∀ g, g < 5 → (fnAt s g).busy = true → (fnAt s fn).arr ≤ (fnAt s g).arr

/-- A command under way, the first of all, that its function may give in this stage. -/
def MbGo (s : State) (fn code : Nat) (pf : Bool) (low : Nat) : Prop :=
  (fnAt s fn).busy = true ∧ (fnAt s fn).cmd = code ∧ MbFirst s fn ∧ (pf = true → fn = 0) ∧ low ≤ s.stage

/-- A command ended with OK and its result registers. -/
def mbDone (s : State) (fn : Nat) (l : List Word) : State :=
  endMailbox (upFn s fn (fun f => { f with res := SMap.tab 0 8 (fun i => l.getD i 0) })) fn 0

/-- A flit that a port takes up from Stage M on: the port is up, the flit is good and no longer than a flit may be, for this module and
from its peer (R397, R400, R403). -/
def Taken (s : State) (p : Nat) (f : Flit) : Prop :=
  (portAt s p).up = true ∧ 2 ≤ s.stage ∧ f.good = true ∧ f.len ≤ 192 ∧ f.data.length ≤ 192 ∧ f.dst = s.modNum ∧ f.src = (portAt s p).peer

/-- The last flit that a port sends in answer to another; of the 64-byte blocks that it carries, the checks of the bad ones fail, and no
others (R93). -/
def Sends (t : State) (p ty : Nat) (f : Flit) (data : List Byte) (bad : Nat → Prop) : Prop :=
  ∃ l g, (portAt t p).out = l ++ [(ty, g)] ∧ g.good = true ∧ g.src = t.modNum ∧ g.dst = f.src ∧ g.tag = f.tag ∧ g.len = data.length ∧
    g.addr = f.addr ∧ g.data = data ∧ g.checks.length = (dataChecks f.addr data).length ∧
    ∀ i, i < g.checks.length → (g.checks.getD i 0 = (dataChecks f.addr data).getD i 0 ↔ ¬ bad (f.addr / 64 + i))

/-- The completion of a request of another module: empty, or a code, whether a result is an exception, the offset of the first failing byte
and how many blocks fail (log entry 31). -/
def Completes (t : State) (p : Nat) (f : Flit) (code exc off blocks : Nat) : Prop :=
  Sends t p 7 f (if code = 0 ∧ exc = 0 then [] else [BitVec.ofNat 8 code, BitVec.ofNat 8 exc, BitVec.ofNat 8 off, BitVec.ofNat 8 blocks])
    (fun _ => False)

end Sys2Proof.Machine

/-- From R94, R95, R390 and R392: a host write within its function's reach performs at the level cache, a host read returns the
current bytes; a read of a failing block gives Completer Abort and two entries, a partial write of one gives an entry and
writes nothing; a read out of reach, and any AtomicOp, give Unsupported Request. -/
def Claim.HostAccesses : Prop :=
  ∀ (s : State) (fn pa n : Nat) (data : List Byte),
    let say (c : PcieResult) : State := { s with hostOut := s.hostOut ++ [(fn, c)] }
    let keys := (List.range data.length).map (fun i => pa + i)
    (¬ InBar2 s fn pa data.length → exec (.hostWrite fn pa data) s = .next s) ∧
    (InBar2 s fn pa data.length → badWrite s keys = none → ∃ t, exec (.hostWrite fn pa data) s = .next t ∧
      (∀ i, i < data.length → rdByte t (pa + i) = data.getD i 0) ∧
      (∀ k, held k → k ∉ keys → rdByte t k = rdByte s k) ∧ t.cores = s.cores ∧ t.fqHeld = s.fqHeld) ∧
    (∀ k, InBar2 s fn pa data.length → badWrite s keys = some k → exec (.hostWrite fn pa data) s =
      .next (holdReport s { cls := 2, code := 1, info := 4, addr := k / 64 * 64, len := 64 * badWriteBlocks s pa keys, tick := s.tick })) ∧
    (¬ InBar2 s fn pa n → exec (.hostRead fn pa n) s = .next (say .unsupported)) ∧
    (InBar2 s fn pa n → (∀ i, i < n → badByte s (pa + i) = false) → ∃ t, exec (.hostRead fn pa n) s = .next t ∧ SameMemory s t ∧
      t.hostOut = s.hostOut ++ [(fn, .success ((List.range n).map (fun i => rdByte s (pa + i))))] ∧ t.cores = s.cores ∧ t.fqHeld = s.fqHeld) ∧
    (InBar2 s fn pa n → (∃ i, i < n ∧ badByte s (pa + i) = true) → ∃ t, exec (.hostRead fn pa n) s = .next t ∧
      t.hostOut = s.hostOut ++ [(fn, .abort)] ∧ t.mem = s.mem ∧
      (s.fqHeld.length < 63 → ∃ a b, t.fqHeld = s.fqHeld ++ [a, b] ∧ a.code = 1 ∧ a.info = 4 ∧ b.code = 5 ∧ a.addr = b.addr)) ∧
    exec (.hostAtomicop fn pa) s = .next (say .unsupported)

/-- From R108, R367, R368, R375 and R401: a completion over PCIe gives the engine that waits for it the bytes or the atomic's answer, and a timeout
is a Completer Abort; a page request's response retires its index and reaches the probe that waits, or is counted as late; an Invalidate
Request waits for the accesses on their way to its range; PRI Enable and AtomicOp Requester Enable take their values. -/
def Claim.AnswersReachTheirAskers : Prop :=
  (∀ (s : State) (id core : Nat) (g : Eng) (r : Req) (l : List Byte), hostReq s id = some r → r.who = .eng core g →
    id ∈ (engSt (coreAt s core) g).reply.tags →
    let gone (t : State) : Prop := t.reqs = s.reqs.filter (fun x => x.id != id) ∧
      (engSt (coreAt t core) g).reply.tags = (engSt (coreAt s core) g).reply.tags.filter (fun x => x != id)
    (r.kind = .read → ∃ t, exec (.pcieCompletion id (.success l)) s = .next t ∧ gone t ∧
      ∀ i, i < r.len → SMap.get none (engSt (coreAt t core) g).reply.got (remoteBase r.home (r.addr + i)) = some (l.getD i 0)) ∧
    (r.kind = .atomic →
      (∃ t, exec (.pcieCompletion id (.success l)) s = .next t ∧ gone t ∧ (engSt (coreAt t core) g).reply.ans = some (.success l)) ∧
      (∃ t, exec (.completionTimeout id) s = .next t ∧ gone t ∧ (engSt (coreAt t core) g).reply.ans = some .abort))) ∧
  (∀ (s : State) (part idx : Nat) (resp : PriResp),
    (SMap.get none (partAt s part).pri idx = none → exec (.pageRequestResponse part idx resp) s = .next s) ∧
    (∀ core id, SMap.get none (partAt s part).pri idx = some (core, id) → ∃ t, exec (.pageRequestResponse part idx resp) s = .next t ∧
      SMap.get none (partAt t part).pri idx = none ∧
      (partAt t part).prifail = (if resp = .success then (partAt s part).prifail else ((partAt s part).prifail + 1) % 2 ^ 32) ∧
      (partAt t part).pristop = ((partAt s part).pristop || resp == .responseFailure) ∧
      (id ∈ (engSt (coreAt s core) .c).reply.tags → (engSt (coreAt t core) .c).reply.pri = some resp ∧
        (partAt t part).prilate = (partAt s part).prilate) ∧
      ((∀ n, id ∉ (engSt (coreAt s n) .c).reply.tags) → (∀ x ∈ s.teams, x.2.image = none) →
        (partAt t part).prilate = ((partAt s part).prilate + 1) % 2 ^ 32))) ∧
  ∀ (s : State) (a b c fn : Nat) (v : Bool), (∃ ids, exec (.atsInvalidate a b c) s = .next { s with inval := s.inval ++ [ids] } ∧
      ∀ id, id ∈ ids ↔ ∃ r ∈ s.reqs, r.id = id ∧ r.home = 8 + a ∧ r.addr < b + c ∧ b < r.addr + max 1 r.len) ∧
    exec (.configSpaceWrite fn .atomicReqEnable v) s = .next (upFn s fn (fun f => { f with atomOn := v })) ∧
    ∃ t, exec (.configSpaceWrite fn .priEnable v) s = .next t ∧ (fnAt t fn).priOn = v ∧ (v = true → 1 ≤ fn → (partAt t (fn - 1)).pristop = false)

/-- From R394, R407 and R408: a mailbox command acts only while it is under way and the first of those to have arrived; from a function that may not give it it ends with
DENIED, before its stage with BADSTATE, and neither changes anything else; at its end BUSY is clear and vector 0 is signalled. -/
def Claim.MailboxRules : Prop :=
  (∀ (s : State) (fn : Nat) (i : Instr) (code : Nat) (pf : Bool) (low : Nat), mailboxRow i = some (fn, code, pf, low) →
    ((fnAt s fn).busy = false ∨ (fnAt s fn).cmd ≠ code ∨ ¬ MbFirst s fn → exec i s = .next s) ∧
    ((fnAt s fn).busy = true → (fnAt s fn).cmd = code → MbFirst s fn →
      (pf = true → fn ≠ 0 → exec i s = .next (endMailbox s fn 2)) ∧
      ((pf = true → fn = 0) → s.stage < low → exec i s = .next (endMailbox s fn 4)))) ∧
  ∀ (s : State) (fn st : Nat), OnlyFn s (endMailbox s fn st) fn ∧ (endMailbox s fn st).irqOut = s.irqOut ++ [(fn, 0)] ∧
    fnAt (endMailbox s fn st) fn = { fnAt s fn with busy := false, status := st }

/-- From R394 and R407: what the reporting mailbox commands return: identity, health, the oldest reload request, the partitioning, the cap, a
measurement, the identity key, the configuration and the firmware banks. -/
def Claim.MailboxReports : Prop :=
  ∀ (s : State) (fn : Nat),
    let f := fnAt s fn
    let snap := (SMap.get 0 f.taken 0).toNat / 2 ^ 8 % 2
    let reg := (SMap.get 0 f.taken 0).toNat % 8
    (MbGo s fn 1 false 0 → ∃ x, exec (.ident fn) s = .next (mbDone s fn [Config.deviceSerial, x, w64 (if fn = 0 then 7 else fn - 1)]) ∧
      (s.modNum < 4 → x.toNat / 4 % 4 = s.modNum)) ∧
    (MbGo s fn 2 false 0 → ∃ x, exec (.health fn) s = .next (mbDone s fn [x, w64 (degradedCount s), w64 s.reloads.length]) ∧
      x.toNat % 256 = s.deadPairs.length % 256 ∧ ∀ c, c < 20 → x.getLsbD (8 + c) = SMap.get false s.deadArrays c) ∧
    (MbGo s fn 3 false 3 →
      let mine (r : Nat × Nat × Nat) : Prop := fn = 0 ∨ ∃ x, regionAt s r.1 = some x ∧ x.part = fn - 1
      ((∀ r ∈ s.reloads, regionAt s r.1 ≠ none) → (∀ r ∈ s.reloads, ¬ mine r) → exec (.reloadq fn) s = .next (mbDone s fn [])) ∧
      ∀ a r rest, s.reloads = a ++ r :: rest → mine r → (∀ x ∈ a, x ≠ r ∧ regionAt s x.1 ≠ none ∧ ¬ mine x) → exec (.reloadq fn) s =
        .next (mbDone { s with reloads := a ++ rest } fn [w64 (r.1 % 2 ^ 12 + 2 ^ 12), w64 r.2.1, w64 r.2.2])) ∧
    (MbGo s fn 0x11 false 3 → exec (.partget fn) s = .next (mbDone s fn [w64 (partWords s).1, w64 (partWords s).2])) ∧
    (MbGo s fn 0x21 false 3 → ∃ x : Nat, 100 * x ≤ 102 * s.cap ∧
      exec (.capget fn) s = .next (mbDone s fn [w64 s.cap, w64 x, w64 (clockSteps s)])) ∧
    (MbGo s fn 0x22 false 0 →
      (snap = 0 → exec (.measure fn) s = .next (mbDone s fn (mbWords (beBytes 32 (mrAt s reg).toNat)))) ∧
      (snap = 1 → (f.snap = none → exec (.measure fn) s = .next (endMailbox s fn 4)) ∧
        ∀ x, f.snap = some x → exec (.measure fn) s = .next (mbDone s fn (mbWords (beBytes 32 (SMap.get 0 x.mrs reg).toNat))))) ∧
    (MbGo s fn 0x23 false 0 → exec (.idkey fn) s = .next (mbDone s fn (mbWords identityKey))) ∧
    (MbGo s fn 0x25 false 0 →
      (snap = 0 → exec (.config fn) s = .next (mbDone s fn (mbWords (configBlock s) ++ [w64 s.qcount]))) ∧
      (snap = 1 → (f.snap = none → exec (.config fn) s = .next (endMailbox s fn 4)) ∧
        ∀ x, f.snap = some x → exec (.config fn) s = .next (mbDone s fn (mbWords x.cfg ++ [w64 x.qcount])))) ∧
    (MbGo s fn 0x28 false 0 → exec (.fwstat fn) s =
      .next (mbDone s fn [w64 (bankAt s 0).ver, w64 (bankAt s 1).ver, w64 s.floor, w64 s.next]))

/-- From R373, R394 and R405–R409: what the acting mailbox commands change: the partitioning while no queue is enabled, with the
latches and slots of stacks that change their owner, the cap within its
limits, a host register by the digest, QCOUNT and a snapshot with each quote, signed by the device's key, the other firmware bank by a trusted image, and
the stage. -/
def Claim.MailboxActions : Prop :=
  ∀ (s : State) (fn : Nat),
    let f := fnAt s fn
    let arg (i : Nat) := (SMap.get 0 f.taken i).toNat
    let bytes (i n : Nat) := mbArgBytes f i n
    (MbGo s fn 0x10 true 3 →
      let o := ownOf (arg 0) (arg 1)
      let ok := arg 0 < 2 ^ 48 ∧ arg 1 < 2 ^ 48 ∧ ownOk s o = true
      (¬ ok → exec (.partset fn) s = .next (endMailbox s fn 3)) ∧
      (ok → (∃ x ∈ s.queues, x.2.st ≠ .disabled) → exec (.partset fn) s = .next (endMailbox s fn 4)) ∧
      (ok → (∀ x ∈ s.queues, x.2.st = .disabled) → ∃ t, exec (.partset fn) s = .next (mbDone t fn []) ∧
        t = { s with own := o, lode := t.lode } ∧
        ∀ st, stackAt t st = if SMap.get 7 s.own.sp (st / 2) = SMap.get 7 o.sp (st / 2) then stackAt s st else {})) ∧
    (MbGo s fn 0x20 true 3 →
      (600 ≤ arg 0 → arg 0 ≤ 2000 → exec (.capset fn) s = .next (mbDone { s with cap := arg 0 } fn [])) ∧
      (arg 0 < 600 ∨ 2000 < arg 0 → exec (.capset fn) s = .next (endMailbox s fn 3))) ∧
    (MbGo s fn 0x26 true 0 →
      (4 ≤ arg 0 → arg 0 ≤ 7 → ∃ t, exec (.mrext fn) s = .next (mbDone t fn []) ∧ t = { s with mrs := t.mrs } ∧
        mrAt t (arg 0) = sm3Digest (beBytes 32 (mrAt s (arg 0)).toNat ++ beBytes 32 (beNat (bytes 1 32) % 2 ^ 256)) ∧
        ∀ i, i ≠ arg 0 → mrAt t i = mrAt s i) ∧
      (arg 0 < 4 ∨ 7 < arg 0 → exec (.mrext fn) s = .next (endMailbox s fn 3))) ∧
    (MbGo s fn 0x24 false 0 → ∃ t k, 1 ≤ k ∧ k < sm2N ∧
      (let sig := sm2Sign identitySecret k quoteUser ([0x43, 0x56, 0x4C, 0x51] ++ bytes 0 32 ++
        (List.range 8).flatMap (fun i => beBytes 32 (mrAt s i).toNat) ++ configBlock s ++ beBytes 8 ((s.qcount + 1) % 2 ^ 64))
       exec (.quote fn) s = .next (mbDone t fn (mbWords (beBytes 32 sig.1 ++ beBytes 32 sig.2)))) ∧
      t = { s with qcount := (s.qcount + 1) % 2 ^ 64, free := t.free, fns := t.fns } ∧
      ∃ x, (fnAt t fn).snap = some x ∧ x.mrs = s.mrs ∧ x.cfg = configBlock s ∧ x.qcount = t.qcount) ∧
    (MbGo s fn 0x27 true 2 →
      let fits := arg 0 % 4096 = 0 ∧ 128 ≤ arg 1 ∧ arg 1 ≤ 2 ^ 24 ∧ arg 0 + arg 1 ≤ dramGroups s * 2 ^ 37
      let l := rdBytes s (arg 0) (arg 1)
      let sound := ∀ i, i < arg 1 → badByte s (arg 0 + i) = false
      (¬ fits → exec (.fwupd fn) s = .next (endMailbox s fn 3)) ∧
      (fits → ¬ sound ∨ (imageLayoutOk l = true ∧ imageTrusted s l = false) → exec (.fwupd fn) s = .next (endMailbox s fn 2)) ∧
      (fits → sound → imageLayoutOk l = true → imageTrusted s l = true → ∃ t, exec (.fwupd fn) s = .next (mbDone t fn []) ∧
        t = { s with banks := t.banks, next := 1 - s.bank } ∧
        bankAt t (1 - s.bank) = { ver := leNat ((l.drop 4).take 4), valid := true, image := l, fresh := true })) ∧
    (MbGo s fn 0x29 true 0 →
      (arg 0 = 0 → exec (.restart fn) s = .next (toStageS (mbDone s fn []) 4)) ∧
      (arg 0 ≠ 0 → exec (.restart fn) s = .next (endMailbox s fn 3)))

/-- From R2, R303, R304, R323, R382, R397, R399, R403–R406, R409 and R413: power-good is Stage S with MR0 alone extended,
power loss keeps flash, QCOUNT and the Lode; Stage F waits until what was under way is done, then starts the Foreman
team of a good bank and measures it; Stage M numbers the module and maps the context area, or fails with cause 2, as
it may later; Stage A waits for the tick master's tick and for every block of the Lode to have been read, maps the
queue page, starts the watchdog on core 0 with RESTARTS at 0, and lifts the floor of a new image; each change of stage
is an event of every function. The model's choices in it: the values at power-good (logs 3, 4 and 9), what power loss
keeps (log 50), the floor and the ports (log 51), the program of core 0 (log 101), the return to Stage S (log 102),
RESTARTS at 0 (log 112). -/
def Obligations.StagesOfStartUp : Prop :=
  ∀ (s : State) (num count : Nat),
    let staged (t : State) : Prop := ∀ fn, fn < 5 → (fnAt t fn).event.testBit 2 = true
    (∃ t, exec .powerGood s = .next t ∧ t.stage = 0 ∧ t.cause = 0 ∧ t.powered = true ∧ t.cores = [] ∧ t.teams = [] ∧ t.queues = [] ∧
      t.mem = [] ∧ t.tick = 0 ∧ t.aged = s.aged ∧ t.regions = s.regions ∧ t.blocks = s.blocks ∧ t.qcount = s.qcount ∧
      t.banks = s.banks ∧ t.floor = s.floor ∧ (s.order4T = 2 → ∀ i, SMap.get 7 t.own.sp i = (if i < 2 then 0 else 7)) ∧
      mrAt t 0 = sm3Digest (beBytes 32 0 ++ beBytes 32 Config.controllerDigest.toNat) ∧ ∀ i, i ≠ 0 → mrAt t i = 0) ∧
    (∃ t, exec .powerLoss s = .next t ∧ t.powered = false ∧ t.regions = s.regions ∧ t.blocks = s.blocks ∧ t.qcount = s.qcount ∧ t.floor = s.floor ∧
      t.mem = [] ∧ t.cores = [] ∧ bankAt t s.bank = bankAt s s.bank ∧ ((fnAt s 0).busy = false → t.banks = s.banks)) ∧
    ((∃ x ∈ s.cores, x.2.ql ≠ [] ∨ x.2.qs ≠ [] ∨ x.2.qd ≠ [] ∨ x.2.stq ≠ []) → exec .stageFEntry s = .next s) ∧
    (s.powered = true → s.stage = 0 → s.next ≤ 1 → (∀ x ∈ s.cores, x.2.ql = [] ∧ x.2.qs = [] ∧ x.2.qd = [] ∧ x.2.stq = []) →
      (bankGood s s.next = false → bankGood s (1 - s.next) = false → exec .stageFEntry s = .next { s with cause := 1 }) ∧
      (∀ b, (bankGood s s.next = true ∧ b = s.next) ∨ (bankGood s s.next = false ∧ bankGood s (1 - s.next) = true ∧ b = 1 - s.next) →
        ∃ t, exec .stageFEntry s = .next t ∧ t.stage = 1 ∧ t.bank = b ∧ t.newImage = (bankAt s b).fresh ∧
          (teamAt t 0x3FE).st = .running ∧ (teamAt t 0x3FE).cores = [0, 1] ∧
          (coreAt t 0).tid = 0x3FE ∧ (coreAt t 1).tid = 0x3FE ∧ getScal (coreAt t 1) .c 7 = 1 ∧ staged t ∧
          mrAt t 1 = sm3Digest (beBytes 32 (mrAt s 1).toNat ++ beBytes 32 (sm3Digest (bankAt s b).image).toNat))) ∧
    (s.stage = 1 → count ≤ 4 → num < count → ∃ t, exec (.stageMEntry true num count) s = .next t ∧ t.stage = 2 ∧
      (s.order4T ≠ 1 → t.modNum = num ∧ t.modCount = count) ∧ (s.order4T = 1 → t.modNum = 0 ∧ t.modCount = 1) ∧
      staged t ∧ (∀ p, (portAt t p).dead = false ∧ (portAt t p).up = false) ∧
      ∃ e, htAt t 4 0 t.ctxHandle = some e ∧ e.kind = 2 ∧ e.ext = areaSize s) ∧
    (s.stage = 1 ∨ s.stage = 2 → exec (.stageMEntry false num count) s = .next (toStageS s 2)) ∧
    (let linked := ∃ p, p < 3 ∧ (portAt s p).up = true
     let ready := (¬ linked ∨ s.modNum = 0 ∨ s.tickSet = true) ∧ mountDone s = true
     (s.stage ≠ 2 ∨ ¬ ready → exec .stageAEntry s = .next s) ∧
     (s.stage = 2 → ready → ∃ t, exec .stageAEntry s = .next t ∧ t.stage = 3 ∧ staged t ∧
       (∀ i, i < 8 → rdByte t (0x1FFFE00010 + i) = 0) ∧ (∃ e, htAt t 4 0 queueHandle = some e ∧ e.kind = 7 ∧ e.ext = 2 ^ 14) ∧
       (linked → t.modNum = s.modNum) ∧ (¬ linked → t.modNum = 0 ∧ t.modCount = 1) ∧
       t.floor = (if s.newImage = true then (bankAt s s.bank).ver else s.floor) ∧ t.newImage = false ∧
       (coreAt t 0).tid = 0x3FE ∧ getScal (coreAt t 0) .c 7 = 0 ∧ (∀ g, (engSt (coreAt t 0) g).pc = 0 ∧ (engSt (coreAt t 0) g).retired = false) ∧
       (∀ i, i < wdtText.length → SMap.get memDefault (coreAt t 0).view.mem i = wdtText.getD i 0)))

/-- From R93–R95, R107, R109–R110, R365, R397 and R400: a good write, read or atomic of the peer on this module's memory performs here and is
answered, an engine's or a link command's write in the shadow; a place of another module, an unshadowed destination of a link command or a
failing check is answered as such and writes nothing; a write's is reported. Blocks of an answer fail as those in memory
do. A shootdown request drops entries; its answer waits for accesses under way. -/
def Claim.FlitRequests : Prop :=
  ∀ (s : State) (p : Nat) (f : Flit), Taken s p f →
    let keys := (List.range f.data.length).map (fun i => linkAddr s (f.eng || f.link) (f.addr + i))
    let still (t : State) : Prop := t.mem = s.mem ∧ t.lc = s.lc
    let noted (t : State) : Prop := s.fqHeld.length < 64 → ∃ r, t.fqHeld = s.fqHeld ++ [r] ∧ r.cls = 2 ∧ r.code = 1 ∧ r.info = 5
    let shut := f.link = true ∧ linkPlace s (f.addr / 2 ^ 21) = none
    (∀ pa b, linkPlace s (pa / 2 ^ 21) = none → linkAddr s b pa = pa ∧ linkRead s pa = pa) ∧
    (ownRange s f.addr f.data.length = true → ¬ shut → flitFails f = [] → badWrite s keys = none → keys.Nodup → (∀ k ∈ keys, held k) →
      ∃ t, exec (.flitWrite p f) s = .next t ∧ Completes t p f 0 0 0 0 ∧
        (∀ i, i < f.data.length → rdByte t (keys.getD i 0) = f.data.getD i 0) ∧ (∀ k, held k → k ∉ keys → rdByte t k = rdByte s k)) ∧
    (ownRange s f.addr f.data.length = false →
      ∃ t, exec (.flitWrite p f) s = .next t ∧ Completes t p f 1 0 0 1 ∧ still t) ∧
    (ownRange s f.addr f.data.length = true → shut →
      ∃ t, exec (.flitWrite p f) s = .next t ∧ Completes t p f 2 0 0 0 ∧ still t) ∧
    (ownRange s f.addr f.data.length = true → ¬ shut →
      (∀ b l, flitFails f = b :: l →
        ∃ t, exec (.flitWrite p f) s = .next t ∧ Completes t p f 1 0 (64 * b - f.addr) (l.length + 1) ∧ still t ∧ noted t) ∧
      (flitFails f = [] → ∀ k, badWrite s keys = some k →
        ∃ t, exec (.flitWrite p f) s = .next t ∧ Completes t p f 5 0 (keys.idxOf k) (badWriteBlocks s f.addr keys) ∧ still t ∧ noted t)) ∧
    (let reads := (List.range f.len).map (fun i => linkRead s (f.addr + i))
     (ownRange s f.addr f.len = true → ∃ t, exec (.flitReadRequest p f) s = .next t ∧ SameMemory s t ∧
       Sends t p 3 f (reads.map (rdByte s)) (fun b => ∃ i, i < f.len ∧ (f.addr + i) / 64 = b ∧ badByte s (reads.getD i 0) = true)) ∧
     (ownRange s f.addr f.len = false → ∃ t, exec (.flitReadRequest p f) s = .next t ∧ still t ∧
       Sends t p 3 f (List.replicate f.len 0) (fun _ => True))) ∧
    (∀ op ty n v v2, f.data = BitVec.ofNat 8 op :: BitVec.ofNat 8 (etyCode ty) :: (leBytes n v ++ leBytes n v2) → op < 11 →
      let at_ := (List.range n).map (fun i => linkAddr s false (f.addr + i))
      let old := at_.map (rdByte s)
      ownRange s f.addr n = true → (∀ k ∈ at_, badByte s k = false ∧ k < apBase) → at_.Nodup →
      ∃ t, exec (.flitAtomic p f) s = .next t ∧ Sends t p 5 f (leBytes n (leNat old)) (fun _ => False) ∧
        (∀ i, i < n → rdByte t (at_.getD i 0) =
          BitVec.ofNat 8 (atNew (atOpOf op) (etyOfCode (etyCode ty)) (8 * n) (leNat old) (v % 2 ^ (8 * n)) (v2 % 2 ^ (8 * n)) / 2 ^ (8 * i))) ∧
        ∀ k, held k → k ∉ at_ → rdByte t k = rdByte s k) ∧
    (∃ t, exec (.flitControl p f) s = .next t ∧ (s.reqs = [] → Completes t p f 0 0 0 0) ∧
      ((∃ r ∈ s.reqs, r.kind = .read ∨ r.kind = .write ∨ r.kind = .atomic ∨ r.kind = .reduce) → ∃ x ∈ t.ctls, x.1 = p ∧ x.2.1 = f) ∧
      ∀ n g i, i < f.data.length / 8 → SMap.get none (engSt (coreAt t n) g).tlb (leNat ((f.data.drop (8 * i)).take 8)) = none)

/-- From R61, R66, R109, R239, R261 and R397: a whole reduction payload is carried out: each element is the FP32 sum of source and addend in
the destination's format, in the shadow; the completion tells ±∞ and NaN. A part is kept under its tag; one that fails its check is
dropped. -/
def Claim.ReductionsLand : Prop :=
  ∀ (s : State) (p : Nat) (f : Flit), Taken s p f →
    (∀ b l, flitFails f = b :: l → ∃ t, exec (.flitReduceData p f) s = .next t ∧ Completes t p f 1 0 0 (l.length + 1) ∧
      SMap.get [] (portAt t p).rbuf f.tag = [] ∧ t.mem = s.mem ∧ t.lc = s.lc) ∧
    (flitFails f = [] →
    let all := SMap.get [] (portAt s p).rbuf f.tag ++ f.data
    let data := all.drop 4
    (all.length < leNat (all.take 4) → ∃ t, exec (.flitReduceData p f) s = .next t ∧ SMap.get [] (portAt t p).rbuf f.tag = all ∧
      (portAt t p).out = (portAt s p).out ∧ t.mem = s.mem ∧ t.lc = s.lc) ∧
    (leNat (all.take 4) ≤ all.length → ∀ (dst ds add as_ : List Nat) (r1 r2 r3 src : List Byte),
      unpackRuns (data.drop 4) = (dst, r1) → unpackRuns r1 = (ds, r2) → unpackRuns r2 = (add, r3) → unpackRuns r3 = (as_, src) →
      let fmt (i : Nat) : Nat := (data.getD i 0).toNat
      let n := fmt 3
      let keys := (dst ++ ds).map (linkAddr s true)
      let reads := (add ++ as_).map (linkAddr s false)
      (∀ k ∈ dst ++ ds ++ add ++ as_, ownRange s k 1 = true) → (∀ k ∈ dst ++ ds, linkPlace s (k / 2 ^ 21) ≠ none) →
      badWrite s keys = none → (∀ k ∈ reads, badByte s k = false) → keys.Nodup → (∀ k ∈ keys, held k) →
      let size := fmtBytes (fmt 0) n
      let xs := fmtVals (fmt 0) n (src.take size) (src.drop size)
      let ys := if add = [] then List.replicate n (.fin false 0 0)
        else fmtVals (fmt 1) n ((reads.take add.length).map (rdByte s)) ((reads.drop add.length).map (rdByte s))
      let zs := (List.range n).map (fun j => (addVal fmt32 .rne (xs.getD j (.fin false 0 0)) (ys.getD j (.fin false 0 0))).bits)
      let out := (redOut (fmt 2) zs).1.take dst.length ++ (redOut (fmt 2) zs).2
      ∃ t, exec (.flitReduceData p f) s = .next t ∧
        Completes t p f 0 (if redExc (fmt 2) zs then 1 else 0) 0 0 ∧
        (∀ i, i < keys.length → i < out.length → rdByte t (keys.getD i 0) = out.getD i 0) ∧
        ∀ k, held k → k ∉ keys → rdByte t k = rdByte s k))

/-- From R17, R95, R105, R239, R261, R262, R265 and R398: a link command waits for its stamp and for those started before it on its port; a
destination here or behind a port that is down is LINKDOWN. A `link.send` from plain memory to one module sends its bytes
as writes, a reduction a request a group; each completes at its last answer's tick. -/
def Claim.LinkCommandsSend : Prop :=
  ∀ (s : State) (core : Nat) (c : Cmd) (rest : List Cmd), c.op = .send ∨ c.op = .red →
    let w := linkWho s core
    let m := copyWalk s w c
    let mark := markOf s w ((List.range m.n).flatMap m.adr)
    let sentBy (t : State) (new : List Req) (count : Nat) : Prop := t.reqs = s.reqs ++ new ∧
      (∀ i r, new[i]? = some r → r.id = s.nreq + i ∧ r.who = .cmd core .store c.id) ∧
      (coreAt t core).qs = { c with reply := { tags := new.map (fun r => r.id) }, sent := true,
                                    done := some { count := count, flags := c.flags } } :: rest
    let ahead := ∃ p ∈ s.cores, ∃ x l q, p.2.qs = x :: l ∧ (x.op = .send ∨ x.op = .red) ∧ x.stamp ≠ none ∧ x.started = true ∧ x.sent = false ∧
      x.done = none ∧ x.stick < c.stick ∧ linkPort s w (linkDst c) = some q ∧ linkPort s (linkWho s p.1) (linkDst x) = some q
    (AtHead s core .store c rest → c.stamp ≠ none → c.started = false ∨ ahead → exec (.commandComplete core .store) s = .next s) ∧
    (AtHead s core .store c rest → (c.stamp = none ∨ (c.started = true ∧ ¬ ahead)) →
      (c.op = .send → ∀ st, copyRefusal s w c = some st → EndsWith s core .store s { status := st }) ∧
      (c.op = .red → ∀ st, redRefusal s w c = some st → EndsWith s core .store s { status := st }) ∧
      (c.op = .send → copyRefusal s w c = none → linkDown s w (cpDst c) = true → EndsWith s core .store s { status := 12 }) ∧
      (c.op = .red → redRefusal s w c = none → (∃ a ∈ redOuts c, linkDown s w a = true) → EndsWith s core .store s { status := 12 }) ∧
      (c.op = .send → copyRefusal s w c = none → linkDown s w (cpDst c) = false → 1 ≤ m.n → ∀ (src dst : Nat → List Nat),
        (∀ i, i < m.n → m.src i = .ok (some (src i)) ∧ m.dst i = .ok [dst i] ∧ (src i).length = m.size ∧ (dst i).length = m.size ∧
          (∀ k ∈ src i, plain s k) ∧ ∀ k ∈ dst i, isRemote k = true ∧ k % 2 ^ 70 + 1 < 2 ^ 70) →
        ∃ t new, exec (.commandComplete core .store) s = .next t ∧ sentBy t new (m.size * m.n) ∧
          (∀ r ∈ new, r.kind = .write) ∧
          new.flatMap (fun r => (List.range r.len).map (fun i => remoteBase r.home (r.addr + i))) = (List.range m.n).flatMap dst ∧
          new.flatMap (fun r => r.data) = ((List.range m.n).flatMap src).map (rdByte s) ∧
          ∀ k, held k → ¬ mark k → rdByte t k = rdByte s k) ∧
      (c.op = .red → redRefusal s w c = none → (∀ a ∈ redOuts c, linkDown s w a = false) → 1 ≤ rdGroups c → ∀ part : Nat → RdPart,
        (∀ g, g < rdGroups c → rdPart s w c g = .ok (part g) ∧
          ∀ k ∈ (part g).dst ++ (part g).dscale ++ (part g).add ++ (part g).ascale, isRemote k = true) →
        ∃ t new, exec (.commandComplete core .store) s = .next t ∧ sentBy t new (fmtBytes (rdFmt c 2) (redN c)) ∧
          new.length = rdGroups c ∧ ∀ g r, new[g]? = some r → r.kind = .reduce ∧ r.data = packRed c (part g) ∧
            r.home = remoteHome ((part g).dst.headD 0))) ∧
    (∀ r, (coreAt s core).qs = c :: rest → c.sent = true → c.done = some r → c.reply.tags ≠ [] → exec (.commandComplete core .store) s = .next s) ∧
    (∀ r, (coreAt s core).qs = c :: rest → c.sent = true → c.done = some r → c.reply.tags = [] → c.reply.bad = none →
      ringRoom (coreAt s core) c = true →
      exec (.commandComplete core .store) s = .next (writeRecord s core .store c { r with flags := r.flags ||| c.flags })) ∧
    ∀ (p : Nat) (f : Flit) (x : Req) (r : CRes), Taken s p f → (coreAt s core).qs = c :: rest → c.done = some r →
      reqByTag s p [.write, .reduce, .control] f.tag = some x → x.who = .cmd core .store c.id → f.data.headD 0 = 0 →
      ∃ t d, exec (.flitCompletion p f) s = .next t ∧ (coreAt t core).qs.head? = some d ∧ d.done = some { r with tick := s.tick } ∧
        d.reply.tags = c.reply.tags.filter (fun y => y != x.id) ∧ d.flags = (if f.data.getD 1 0 = 0 then c.flags else c.flags ||| 4)

/-- From R95, R239 and R397–R400: read data, an atomic's result and a completion end the request of their tag and give its engine what it
waited for, or end it as failed from the byte they name on; bytes of a failing block are lost. A master's tick sets the counter
before Stage A and moves it only on after. -/
def Claim.FlitAnswers : Prop :=
  ∀ (s : State) (p core : Nat) (g : Eng) (f : Flit) (r : Req), Taken s p f →
    let e (t : State) := (engSt (coreAt t core) g).reply
    let gone (t : State) : Prop := t.reqs = s.reqs.filter (fun x => x.id != r.id) ∧ (e t).tags = (e s).tags.filter (fun x => x != r.id)
    let fails (t : State) (why off blocks : Nat) : Prop := gone t ∧ ∃ b, (e t).bad = some b ∧
      ((e s).bad = none → b = { id := r.id, key := remoteBase r.home (r.addr + off), len := max 1 (r.len - off), why := why, blocks := max 1 blocks })
    (r.who = .eng core g → r.id ∈ (e s).tags → (e s).tags.contains r.id = true →
      (reqByTag s p [.read] f.tag = some r → r.back = [] → r.fails = [] → f.addr = r.addr → f.data.length = r.len →
        ∃ t, exec (.flitReadData p f) s = .next t ∧ gone t ∧ ∀ i, i < r.len →
          ((r.addr + i) / 64 ∉ flitFails f → SMap.get none (e t).got (remoteBase r.home (r.addr + i)) = some (f.data.getD i 0)) ∧
          ((r.addr + i) / 64 ∈ flitFails f → SMap.get false (e t).lost (remoteBase r.home (r.addr + i)) = true)) ∧
      (reqByTag s p [.atomic] f.tag = some r → (flitFails f = [] → ∃ t, exec (.flitAtomicResult p f) s = .next t ∧ gone t ∧
          (e t).ans = some (.success f.data)) ∧
        (flitFails f ≠ [] → ∃ t, exec (.flitAtomicResult p f) s = .next t ∧ fails t 1 0 1)) ∧
      (reqByTag s p [.write, .reduce, .control] f.tag = some r → ∃ t, exec (.flitCompletion p f) s = .next t ∧
        let off := (f.data.getD 2 0).toNat
        let n := (f.data.getD 3 0).toNat
        (f.data.headD 0 = 0 → gone t) ∧ (f.data.headD 0 = 2 → fails t 4 0 1) ∧ (f.data.headD 0 = 5 → fails t 5 off n) ∧
        (f.data.headD 0 ≠ 0 → f.data.headD 0 ≠ 2 → f.data.headD 0 ≠ 5 → fails t 1 off n))) ∧
    (f.src = 0 → s.modNum ≠ 0 → ∃ t, exec (.flitTick p f) s = .next t ∧ t.mem = s.mem ∧
      (s.stage < 3 → t.tick = f.addr % 2 ^ 64 ∧ t.tickSet = true) ∧ (3 ≤ s.stage → s.tick < 2 ^ 64 → t.tick = max s.tick (f.addr % 2 ^ 64)))

/-- From R365 and R397–R399: a port that goes down stays down until Stage M, a shootdown over it unanswered; a link trains to another
module of the system, a second one to it staying down; the master sends its tick on ports that are up every 64 ticks; bad
flits are counted, and one after 64 resends takes the port down. No flit is taken up before Stage M. A link that trains after
Stage A with counters too far apart stays down. -/
def Claim.PortsTrainAndFail : Prop :=
  ∀ (s : State) (p peer : Nat) (ok : Bool) (f : Flit),
    (∃ t, exec (.portDown p) s = .next t ∧ (portAt t p).up = false ∧ (portAt t p).dead = true ∧
      ((∀ r ∈ s.reqs, ∀ n i, r.port = some p → r.who = .store n i → (coreAt s n).tid ≠ 0x3FE) → ∀ q, q ≠ p → portAt t q = portAt s q) ∧
      ∀ x, t.shoot = some x → (∃ r ∈ s.reqs, r.port = some p ∧ r.who = .shoot) → x.lost = true) ∧
    (let joined := ∃ q, q < 3 ∧ q ≠ p ∧ (portAt s q).up = true ∧ (portAt s q).peer = peer
     let may := 2 ≤ s.stage ∧ s.order4T ≠ 1 ∧ peer < s.modCount ∧ peer ≠ s.modNum ∧ (portAt s p).dead = false ∧ (portAt s p).up = false
     let stays := joined ∨ (s.stage = 3 ∧ ok = false)
     (may → stays → exec (.linkTrain p peer ok) s = .next (upPort s p (fun x => { x with dead := true }))) ∧
     (may → ¬ stays → exec (.linkTrain p peer ok) s = .next (upPort s p (fun x => { x with up := true, peer := peer, resends := 0 }))) ∧
     (¬ may → exec (.linkTrain p peer ok) s = .next s)) ∧
    ((s.modNum ≠ 0 ∨ s.tick % 64 ≠ 0 → exec .tickFlitSend s = .next s) ∧
     (s.modNum = 0 → s.tick % 64 = 0 → ∃ t, exec .tickFlitSend s = .next t ∧ t = { s with ports := t.ports } ∧
       ∀ q, q < 3 → (portAt t q).out = (portAt s q).out ++
         (if (portAt s q).up then [(8, { src := 0, dst := (portAt s q).peer, addr := s.tick })] else []))) ∧
    ((portAt s p).up = false ∨ s.stage < 2 → exec (.flitReadRequest p f) s = .next s) ∧
    ((portAt s p).up = true → 2 ≤ s.stage → f.good = false → (portAt s p).resends < 64 →
      exec (.flitReadRequest p f) s = .next (upPort s p (fun x => { x with resends := x.resends + 1 }))) ∧
    ((portAt s p).up = true → 2 ≤ s.stage → f.good = false → 64 ≤ (portAt s p).resends → ∃ t, exec (.flitReadRequest p f) s = .next t ∧
      (portAt t p).up = false)

namespace Sys2Proof.Machine

/-- The Assayer whose turn it is runs `r`, and its limit of 65,536 words is more than one away. -/
def AsyRuns (s : State) (r : Run) : Prop := (asyAt s s.asyCur).run = some r ∧ r.count + 1 < 65536

/-- The context that the run of the current Assayer uses. -/
def ctxOf (s : State) (r : Run) : AsyCtx := asyCtx s s.asyCur r.ctx

/-- After a word of the current Assayer: its run as given, one word more counted, `dist` words further; its context `c`. -/
def asyNext (s : State) (r : Run) (c : AsyCtx) (dist : Int) : State :=
  startRun (setAsyCtx s s.asyCur r.ctx c) s.asyCur { r with count := r.count + 1, idx := ((r.idx : Int) + dist).toNat }

/-- The word writes one register of its run. -/
def AsyPuts (s : State) (r : Run) (o : Out) (d : BitVec 4) (v : W32) : Prop := o = .next (asyNext s (setAreg r d v) (ctxOf s r) 1)

/-- The word gives every live candidate the VALUE `f`; one that becomes NaN is no longer live, and the run notes it. -/
def AsyRewrites (s : State) (r : Run) (o : Out) (f : Cand → W32) : Prop :=
  o = .next (asyNext s { r with
    cand := r.cand.map (fun e => if e.live then { e with val := f e, live := !isNanW (f e) } else e),
    nan := r.nan || r.cand.any (fun e => e.live && isNanW (f e)) } (ctxOf s r) 1)

/-- The word leaves live only the live candidates that `f` holds of. -/
def AsyKeeps (s : State) (r : Run) (o : Out) (f : Cand → Bool) : Prop :=
  o = .next (asyNext s { r with cand := r.cand.map (fun e => { e with live := e.live && f e }) } (ctxOf s r) 1)

/-- The word ends its run with a status: the run is gone, and its context is as it was. -/
def AsyEnds (s : State) (r : Run) (o : Out) (status : Nat) : Prop :=
  o = .next (endRun s s.asyCur { r with count := r.count + 1 } { status := status } 0)

end Sys2Proof.Machine

/-- From R270–R274: the Assayer words that write a register of their run: moves, FP32 and integer arithmetic, the maximum
and the sum of the live candidates, an id's VALUE, membership of the stop set, acceptance, the state of the run, a
draw, whose value is its word's upper 24 bits times 2⁻²⁴, and a pick. The model's choices in it: STREXH before
POSLIMIT (log 29). -/
def Obligations.AssayerRegisterWords : Prop :=
  ∀ (s : State) (r : Run) (d a b : BitVec 4) (imm : BitVec 14) (sel : BitVec 8) (p2 : BitVec 2), AsyRuns s r →
    let c := ctxOf s r
    let x (k : BitVec 4) : FpVal := f32 (areg r k)
    let live := r.cand.filter (fun e => e.live)
    AsyPuts s r (exec (.asyMov d a) s) d (areg r a) ∧ AsyPuts s r (exec (.asyMovi d imm) s) d (BitVec.ofInt 32 imm.toInt) ∧
    AsyPuts s r (exec (.asyAddF d a b) s) d (w32 (addVal fmt32 .rne (x a) (x b))) ∧
    AsyPuts s r (exec (.asyAddI d a b) s) d (BitVec.ofNat 32 ((areg r a).toNat + (areg r b).toNat)) ∧
    AsyPuts s r (exec (.asyMulF d a b) s) d (w32 (mulVal fmt32 .rne (x a) (x b))) ∧
    AsyPuts s r (exec (.asyMulI d a b) s) d (BitVec.ofNat 32 ((areg r a).toNat * (areg r b).toNat)) ∧
    AsyPuts s r (exec (.asyDivS d a b) s) d (w32 (divVal fmt32 .rne (x a) (x b))) ∧
    AsyPuts s r (exec (.asyTmax d) s) d (if live = [] then 0xFF800000 else candMax r) ∧
    AsyPuts s r (exec (.asyTsum d) s) d (if live = [] then 0 else candTree r addOp 0) ∧
    AsyPuts s r (exec (.asyVal d a) s) d (((live.find? (fun e => e.id == (areg r a).toNat)).map (fun e => e.val)).getD 0) ∧
    AsyPuts s r (exec (.asyStop d a) s) d (if ∃ i < c.nstop, SMap.get 0 c.stops i = areg r a then 1 else 0) ∧
    AsyPuts s r (exec (.asyAccept d a b) s) d
      (if !isNan (mulExact (x d) (x b)) && !isNan (x a) && ltVal false (mulExact (x d) (x b)) (x a) then 1 else 0) ∧
    (asyStatOk sel = true → AsyPuts s r (exec (.asyStatRead d sel) s) d (BitVec.ofNat 32 (
      if sel = 0 then live.length else if sel = 1 then r.cand.length else if sel = 2 then c.pos else if sel = 3 then c.seq.toNat
      else if sel = 4 then r.tokens.length else if sel = 5 then (if c.retired then 1 else 0) else SMap.get 0 c.draws (sel.toNat - 64)))) ∧
    (let o := (areg r a).toNat
     let n := drawCnt c p2.toNat o
     (o ≤ 7 → n ≠ 65536 → c.pos + o < 2 ^ 32 → exec (.asyDraw d a p2) s = .next (asyNext s (setAreg r d (drawValue c.seed.toNat c.seq.toNat (c.pos + o) p2.toNat n))
       { c with draws := SMap.set 0 c.draws (8 * p2.toNat + o) (n + 1) } 1)) ∧
     (let word := ((sm3Words (drawMsg c.seed.toNat c.seq.toNat (c.pos + o) p2.toNat n)).getD (n % 8) 0).toNat / 256
      word < 2 ^ 24 → ∃ m e, fpDecode fmt32 (drawValue c.seed.toNat c.seq.toNat (c.pos + o) p2.toNat n).toNat = .fin false m e ∧ -200 ≤ e ∧
        m * 2 ^ (e + 200).toNat = word * 2 ^ 176) ∧
     (7 < o → AsyEnds s r (exec (.asyDraw d a p2) s) stAsyill) ∧
     (o ≤ 7 → n = 65536 → AsyEnds s r (exec (.asyDraw d a p2) s) stStrexh) ∧
     (o ≤ 7 → n ≠ 65536 → 2 ^ 32 ≤ c.pos + o → AsyEnds s r (exec (.asyDraw d a p2) s) stPoslimit)) ∧
    (∀ (pre : List Cand) (e : Cand) (post : List Cand), live = pre ++ e :: post →
      (∀ y ∈ pre, ltVal false (x a) (f32 y.val) = false) → ltVal false (x a) (f32 e.val) = true ∨ post = [] →
      AsyPuts s r (exec (.asyPick d a) s) d (BitVec.ofNat 32 e.id)) ∧
    (live = [] → AsyEnds s r (exec (.asyPick d a) s) stEmpty) ∧
    (∀ v, r.draftp ≠ 0 → readDraft s r (areg r b).toNat (areg r a).toNat = .ok v → AsyPuts s r (exec (.asyValQ d a b) s) d v) ∧
    (r.draftp = 0 → AsyEnds s r (exec (.asyValQ d a b) s) stBadcmd)

/-- From R269, R271 and R272: the Assayer words that load, rewrite, thin out and order the candidates. -/
def Obligations.AssayerCandidateWords : Prop :=
  ∀ (s : State) (r : Run) (a : BitVec 4), AsyRuns s r →
    let c := ctxOf s r
    let k := f32 (areg r a)
    let becomes (o : Out) (l : List Cand) : Prop := o = .next (asyNext s { r with cand := l } c 1)
    (∀ l : List W32, (∀ i, i < r.vocab → readLogit s r (areg r a).toNat i = .ok (l.getD i 0)) →
      exec (.asyLdlog a) s = .next (asyNext s { r with
        cand := (List.range r.vocab).map (fun i => { val := l.getD i 0, id := i, live := !isNanW (l.getD i 0) }),
        nan := r.nan || (List.range r.vocab).any (fun i => isNanW (l.getD i 0)) } c 1)) ∧
    AsyRewrites s r (exec (.asyScl a) s) (fun e => w32 (mulVal fmt32 .rne (f32 e.val) k)) ∧
    AsyRewrites s r (exec (.asySub a) s) (fun e => w32 (addVal fmt32 .rne (f32 e.val) (fpNeg k))) ∧
    AsyRewrites s r (exec .asyExp s) (fun e => w32 (fnLane .exp fmt32 .rne false e.val.toNat)) ∧
    AsyRewrites s r (exec (.asyDiv a) s) (fun e => w32 (divVal fmt32 .rne (f32 e.val) k)) ∧
    AsyKeeps s r (exec (.asyMinp a) s) (fun e => !ltVal false (f32 e.val) (f32 (w32 (mulVal fmt32 .rne (f32 (candMax r)) k)))) ∧
    AsyKeeps s r (exec .asyMask s) (fun e => c.mask.getLsbD e.id) ∧
    (∃ l, becomes (exec .asySort s) l ∧ l.Perm r.cand ∧
      ((∀ e ∈ r.cand, e.live = true → isNanW e.val = false) → l.Pairwise (fun x y =>
        (y.live = true → x.live = true ∧ ltVal true (f32 x.val) (f32 y.val) = false ∧
          (ltVal true (f32 y.val) (f32 x.val) = false → x.id ≤ y.id)) ∧
        (x.live = false → y.live = false ∧ x.id ≤ y.id)))) ∧
    (∃ r', exec .asyScan s = .next (asyNext s r' c 1) ∧ r' = { r with cand := r'.cand, nan := r'.nan } ∧ r'.cand.length = r.cand.length ∧
      ∀ (i : Nat) (e : Cand), r.cand[i]? = some e → ∃ e' : Cand, r'.cand[i]? = some e' ∧ e'.id = e.id ∧ (e.live = false → e' = e) ∧
        ∀ v, e.live = true → (candScan r)[i]? = some (some v) →
          e'.val = BitVec.ofNat 32 v.bits ∧ e'.live = !isNanW (BitVec.ofNat 32 v.bits)) ∧
    (let reached (i : Nat) : Bool := (r.cand.getD i {}).live && (match (candScan r).getD i none with
        | some v => !isNan (fpDecode fmt32 v.bits) && !isNanW (areg r a) && !ltVal false (fpDecode fmt32 v.bits) k
        | none => false)
     ((∀ i, i < r.cand.length → reached i = false) → becomes (exec (.asyTopp a) s) r.cand) ∧
     ∀ n, n < r.cand.length → reached n = true → (∀ i, i < n → reached i = false) →
       ∃ l, becomes (exec (.asyTopp a) s) l ∧ l.length = r.cand.length ∧ ∀ (i : Nat) (e : Cand), r.cand[i]? = some e →
         l[i]? = some { e with live := e.live && (decide (i ≤ n) || eqVal (f32 e.val) (f32 (r.cand.getD n {}).val)) }) ∧
    (∀ q : Nat → W32, r.draftp ≠ 0 → (∀ e ∈ r.cand, e.live = true → readDraft s r (areg r a).toNat e.id = .ok (q e.id)) →
      AsyRewrites s r (exec (.asyResid a) s) (fun e =>
        BitVec.ofNat 32 (minMax fmt32 true (addVal fmt32 .rne (f32 e.val) (fpNeg (f32 (q e.id)))).bits 0).bits)) ∧
    (r.draftp = 0 → AsyEnds s r (exec (.asyResid a) s) stBadcmd ∧ AsyEnds s r (exec (.asyStp a) s) stBadcmd)

/-- From R268, R270, R273 and R289: `halt` ends its run and leaves the result block where the run descriptor names it, or in the Foreman pair store for the loop that
started it; a branch goes its distance where its
condition holds and its target lies in the text; `commit` adds a token, moves the position and retires the context at
a stop token; `stp` writes the row of draft probabilities; a run ends at its 65,536th word. -/
def Claim.AssayerControlWords : Prop :=
  ∀ (s : State) (r : Run) (a : BitVec 4) (imm : BitVec 14) (dist : BitVec 12),
    let c := ctxOf s r
    let u := s.asyCur
    let goes (o : Out) (on : Bool) : Prop :=
      (on = false → o = .next (asyNext s r c 1)) ∧
      (on = true → 0 ≤ (r.idx : Int) + dist.toInt →
        r.prog.toNat % 2 ^ 48 + 4 * ((r.idx : Int) + dist.toInt).toNat + 4 ≤ extentOf s (runWho r) r.prog.toNat → o = .next (asyNext s r c dist.toInt)) ∧
      (on = true → (r.idx : Int) + dist.toInt < 0 ∨
        extentOf s (runWho r) r.prog.toNat < r.prog.toNat % 2 ^ 48 + 4 * ((r.idx : Int) + dist.toInt).toNat + 4 → AsyEnds s r o stAsyill)
    ((asyAt s u).run = some r →
      (∃ t, exec (.asyHalt imm) s = .next t ∧ (asyAt t u).run = none ∧
        (r.loop ≠ none → (asyAt t u).fin = some (resultBytes r c imm.toNat,
          { status := 0, flags := if r.nan then 4 else 0, count := r.count + 1, findex := r.idx, tick := s.tick }) ∧
          (∀ k, asyCtx t u k = if k = r.ctx then c else asyCtx s u k) ∧ (∀ v, v ≠ u → asyAt t v = asyAt s v) ∧ t.cores = s.cores ∧
          (∀ i, i < 64 → rdByte t (loopPlace + 128 + i) = (resultBytes r c imm.toNat).getD i 0) ∧
          ∀ k, held k → (k < loopPlace + 128 ∨ loopPlace + 192 ≤ k) → rdByte t k = rdByte s k) ∧
        (r.loop = none →
          let w := seqWrite (upAsy (setAsyCtx s u r.ctx c) u (fun a => { a with run := none })) (runWho r) r.result.toNat (resultBytes r c imm.toNat)
          w.res.status = 0 → t = upCmd w.s r.core .store r.cmd (fun x => { x with done := some { status := 0,
                                                                                                 flags := (if r.nan then 4 else 0) ||| x.flags, count := r.count + 1, findex := r.idx, tick := w.s.tick } }))) ∧
      (r.count + 1 = 65536 → ∀ d b, ∃ t, exec (.asyMov d b) s = .next t ∧ (asyAt t u).run = none ∧
        t = endRun (setAsyCtx s u r.ctx c) u { setAreg r d (areg r b) with count := 65536 } { status := stAsyloop } 0)) ∧
    (AsyRuns s r → goes (exec (.asyBrAl dist) s) true ∧ goes (exec (.asyBrZ a dist) s) (decide (areg r a = 0)) ∧
      goes (exec (.asyBrNz a dist) s) (decide (areg r a ≠ 0)) ∧
      (let down := SMap.tab 0 32 (fun i => if i % 8 = 7 then 0 else SMap.get 0 c.draws (i + 1))
       let moved : AsyCtx := { c with pos := c.pos + 1, draws := down }
       let r' : Run := { r with tokens := r.tokens ++ [areg r a] }
       (c.pos ≠ 2 ^ 32 - 1 → r.tokens.length < 8 → inStops c (areg r a) = false → exec (.asyCommit a) s = .next (asyNext s r' moved 1)) ∧
       (c.pos ≠ 2 ^ 32 - 1 → r.tokens.length < 8 → inStops c (areg r a) = true → exec (.asyCommit a) s =
         .next (endRun (setAsyCtx s u r.ctx { moved with retired := true }) u { r' with count := r.count + 1, stopped := true } { status := 0 } 0)) ∧
       (c.pos = 2 ^ 32 - 1 → AsyEnds s r (exec (.asyCommit a) s) stPoslimit) ∧
       (c.pos ≠ 2 ^ 32 - 1 → 8 ≤ r.tokens.length → AsyEnds s r (exec (.asyCommit a) s) stBadcmd)) ∧
      (r.draftp ≠ 0 →
        let p := putAll s (runWho r) ((List.range r.vocab).map (fun i => (draftAddr r (areg r a).toNat i, leBytes 4 (valOf r i).toNat)))
        (p.2.1 = none → exec (.asyStp a) s = .next (asyNext p.1 r (asyCtx p.1 p.1.asyCur r.ctx) 1)) ∧
        (∀ x, p.2.1 = some x → ∃ t, exec (.asyStp a) s = .next t ∧ (asyAt t u).run = none)))

/-- From R267: the 256-byte record of a bound context, read back, is that context with every id of its mask set. -/
def Claim.ContextRecords : Prop :=
  ∀ c : AsyCtx, c.nstop ≤ 16 → c.pos < 2 ^ 32 → (∀ i, i < 16 → c.nstop ≤ i → SMap.get 0 c.stops i = 0) →
    (∀ i, i < 32 → SMap.get 0 c.draws i ≤ 65536) →
    (ctxBytes c).length = 256 ∧ ∃ x, parseCtx (ctxBytes c) = some x ∧ x.bound = true ∧ x.seed = c.seed ∧ x.seq = c.seq ∧ x.pos = c.pos ∧
      x.nstop = c.nstop ∧ x.retired = c.retired ∧ (∀ i, i < 16 → SMap.get 0 x.stops i = SMap.get 0 c.stops i) ∧
      (∀ i, i < 32 → SMap.get 0 x.draws i = SMap.get 0 c.draws i) ∧ ∀ i, i < 262144 → x.mask.getLsbD i = true

/-- From R263–R268: `asy.bind` sets up a context from its record with every id in the mask; `asy.stat` writes the record of a bound one; `asy.run` starts a
run on an active context of an Assayer that runs none, and waits for one that does. A bad selector, alignment or record is BADCMD, a unit of another
partition REFUSED, an unbound context NOCTX, a retired one RETIRED. -/
def Claim.AssayerCommands : Prop :=
  ∀ (s : State) (core : Nat) (c : Cmd) (rest : List Cmd), (coreAt s core).qs = c :: rest → c.done = none → c.started = false →
    c.op = .aBind ∨ c.op = .aRun ∨ c.op = .aStat →
    let w := seqWho s core
    let u := c.rb.toNat / 2 ^ 8 % 4
    let x := c.rb.toNat % 64
    let selector := c.rb.toNat / 2 ^ 10 = 0 ∧ c.rb.toNat / 2 ^ 6 % 4 = 0
    let own := w.fore = true ∨ SMap.get 7 s.own.su u = w.part
    let ends (u : State) (r : CRes) : Prop := EndsWith s core .store u { r with tick := u.tick }
    (selector → own → c.op ≠ .aRun → c.ra.toNat % 64 ≠ 0 → ends s { status := 9 }) ∧
    (¬ selector → ends s { status := 9 }) ∧
    (selector → ¬ own → c.op = .aBind → c.ra.toNat % 64 = 0 → ends s { status := 8 }) ∧
    (asyRefusal s w c = none → (asyAt s u).run.isSome = true → exec (.commandComplete core .store) s = .next s) ∧
    (asyRefusal s w c = none → (asyAt s u).run = none →
      (c.op = .aBind → (parseCtx c.desc = none → ends s { status := 9 }) ∧
        ∀ k, parseCtx c.desc = some k → ends (setAsyCtx s u x k) {}) ∧
      (c.op = .aStat → ((asyCtx s u x).bound = false → ends s { status := 0x15 }) ∧
        ((asyCtx s u x).bound = true →
          let r := seqWrite s w c.ra.toNat (ctxBytes (asyCtx s u x))
          r.res.status ≠ 6 → ends r.s r.res)) ∧
      (c.op = .aRun → ∀ r, parseRun c.desc = some r →
        (∀ st, runRefusal s w r u x = some st → ends s { status := st }) ∧
        ((asyCtx s u x).bound = true → (asyCtx s u x).retired = true → ∃ st, runRefusal s w r u x = some st ∧ (st = 0x16 ∨ st = 7 ∨ st = 8)) ∧
        (runRefusal s w r u x = none → ∃ t r', exec (.commandComplete core .store) s = .next t ∧ (asyAt t u).run = some r' ∧
          r'.core = core ∧ r'.cmd = c.id ∧ r'.ctx = x ∧ r'.idx = 0 ∧ r'.count = 0 ∧ r'.cand = [] ∧ r'.tokens = [] ∧ r'.prog = r.prog ∧ r'.vocab = r.vocab ∧
          r'.result = r.result ∧ (∀ i, i < 16 → SMap.get 0 r'.regs i = SMap.get 0 r.regs i) ∧ r'.loop = none ∧
          (coreAt t core).qs = { c with started := true } :: rest ∧ ∀ v, v ≠ u → asyAt t v = asyAt s v)))

/-- From R264, R276–R279, R281 and R282: the commands of the Riddle. `rdl.open` leaves branch 0 alone, at the start state with an empty stack; a step takes
its effect's state, pops and pushes, or is REJECT, DEPTH or STACKMEM and changes nothing; a mask goes to the Assayer's buffer or to memory; fork copies a
branch to a free number, keep leaves it alone as branch 0, drop removes it; save writes a context's area, load sets it from one. -/
def Claim.RiddleCommands : Prop :=
  ∀ (s : State) (core : Nat) (c : Cmd) (rest : List Cmd), (coreAt s core).qs = c :: rest → c.done = none →
    let w := seqWho s core
    let u := c.rb.toNat / 2 ^ 8 % 4
    let n := c.rb.toNat % 64
    let b := c.rb.toNat / 2 ^ 16 % 8
    let x := rdlCtx s u n
    let ends (u : State) (r : CRes) : Prop := EndsWith s core .store u { r with tick := u.tick }
    let keeps (t : State) (y : RdlCtx) : Prop := (∀ m, rdlCtx t u m = if m = n then y else rdlCtx s u m) ∧
      (∀ v, v ≠ u → rdlAt t v = rdlAt s v) ∧ { t with rdls := s.rdls } = s
    let onBranch := c.op = .rMask ∨ c.op = .rMaskM ∨ c.op = .rStep ∨ c.op = .rFork ∨ c.op = .rKeep
    let rdl := onBranch ∨ c.op = .rOpen ∨ c.op = .rDrop ∨ c.op = .rSave ∨ c.op = .rLoad
    (rdl → ∀ st, rdlRefusal s w c = some st → ends s { status := st }) ∧
    (rdlRefusal s w c = none → c.op = .rMask → (asyAt s (c.ra.toNat / 2 ^ 8 % 4)).run.isSome = true →
      exec (.commandComplete core .store) s = .next s) ∧
    (rdlRefusal s w c = none → (c.op = .rMask → (asyAt s (c.ra.toNat / 2 ^ 8 % 4)).run = none) →
      (x.isOpen = false → onBranch ∨ c.op = .rDrop ∨ c.op = .rSave → ends s { status := 0x15 }) ∧
      (x.isOpen = true → branchAt x b = none → onBranch → ends s { status := 0x11 }) ∧
      (c.op = .rOpen → (∀ e, gramOpen s w c.ra.toNat = .error e → e.status ≠ 6 → ends s (resOf e 0)) ∧
        ∀ g, gramOpen s w c.ra.toNat = .ok g → ∃ t y, ends t {} ∧ keeps t y ∧ y.isOpen = true ∧ y.image = c.ra ∧
          ∀ k, branchAt y k = if k = 0 then some { st := g.start } else none) ∧
      (x.isOpen = true → c.op = .rDrop → ∃ t, ends t {} ∧ keeps t (setBranch x b none)) ∧
      (x.isOpen = true → c.op = .rSave → let r := seqWrite s w c.ra.toNat (saveBytes x); r.res.status ≠ 6 → ends r.s r.res) ∧
      ∀ br, x.isOpen = true → branchAt x b = some br →
        (c.op = .rFork → (branchAt x c.arg ≠ none → ends s { status := 0x11 }) ∧
          (branchAt x c.arg = none → ∃ t, ends t {} ∧ keeps t (setBranch x c.arg (some br)))) ∧
        (c.op = .rKeep → ∃ t y, ends t {} ∧ keeps t y ∧ y.isOpen = true ∧ y.image = x.image ∧ ∀ k, branchAt y k = if k = 0 then some br else none) ∧
        (c.op = .rStep →
          (gramEffectOf s w x.image.toNat br c.re.toNat = .ok none → ends s { status := 0x10 }) ∧
          (∀ e, gramEffectOf s w x.image.toNat br c.re.toNat = .error e → e.status ≠ 6 → ends s (resOf e 0)) ∧
          ∀ e, gramEffectOf s w x.image.toNat br c.re.toNat = .ok (some e) →
            let depth := br.stack.length - e.pops.length + e.pushes.length
            (1024 < depth → ends s { status := 0x12 }) ∧
            (depth ≤ 1024 → 524288 < nodesUsed (rdlAt s u) + e.pushes.length → ends s { status := 0x13 }) ∧
            (depth ≤ 1024 → nodesUsed (rdlAt s u) + e.pushes.length ≤ 524288 → ∃ t br', ends t { count := depth, findex := e.next } ∧
              keeps t (setBranch x b (some br')) ∧ br'.st = e.next ∧
              br'.stack.map (fun p => p.2) = e.pushes.reverse ++ (br.stack.drop e.pops.length).map (fun p => p.2) ∧
              br.stack.drop e.pops.length <:+ br'.stack)) ∧
        (c.op = .rMask → let au := c.ra.toNat / 2 ^ 8 % 4; let ac := c.ra.toNat % 64
          ((asyCtx s au ac).bound = false → ends s { status := 0x15 }) ∧
          ∀ l, (asyCtx s au ac).bound = true → branchMask s w x.image.toNat br = .ok l → l.length ≤ 262144 → ∃ t, ends t {} ∧ t.rdls = s.rdls ∧
            (∀ i, i < 262144 → (asyCtx t au ac).mask.getLsbD i = l.getD i false) ∧
            { asyCtx t au ac with mask := 0 } = { asyCtx s au ac with mask := 0 } ∧ ∀ v k, v ≠ au ∨ k ≠ ac → asyCtx t v k = asyCtx s v k) ∧
        (c.op = .rMaskM → ∀ l, branchMask s w x.image.toNat br = .ok l →
          let bytes := (List.range ((l.length + 7) / 8)).map (fun i =>
            BitVec.ofNat 8 (((List.range 8).map (fun j => if l.getD (8 * i + j) false then 2 ^ j else 0)).sum))
          let r := seqWrite s w c.ra.toNat bytes
          r.res.status ≠ 6 → ends r.s r.res))

/-- From R278, R279 and R283: a token is taken by the first effect entry of the branch's state whose class is the token's and whose pops match the top of its stack;
a mask's bit is what the effects say of a token on the walk list, and that of the mask table of the state and top symbol for any other. -/
def Claim.GrammarTables : Prop :=
  ∀ (s : State) (w : Who) (image : Nat) (g : Img) (br : Branch) (t cls : Nat) (st : GState) (eff : Nat → Effect),
    gramHead s w image = .ok g → t < g.vocab → gramClass s w g t = .ok cls → gramState s w g br.st = .ok st →
    (∀ i, i < st.neff → gramEffect s w g (st.effidx + i) = .ok (eff i)) →
    let fits (i : Nat) : Prop := (eff i).cls = cls ∧ (eff i).pops.length ≤ br.stack.length ∧
      ∀ k, k < (eff i).pops.length → (eff i).pops.getD k 0 = 0xFFFF ∨ (eff i).pops.getD k 0 = (br.stack.getD k (0, 0)).2
    (∀ i, i < st.neff → fits i → (∀ j, j < i → ¬ fits j) → gramEffectOf s w image br t = .ok (some (eff i))) ∧
    ((∀ i, i < st.neff → ¬ fits i) → gramEffectOf s w image br t = .ok none) ∧
    (∀ v, g.vocab ≤ v → gramEffectOf s w image br v = .ok none) ∧
    (∀ ts bs table, gramWalk s w g = .ok ts → ts.Nodup → walkBits s w g br ts = .ok bs → maskTable s w g br = .ok table →
      ∃ l, branchMask s w image br = .ok l ∧ l.length = g.vocab ∧
        (∀ v, v < g.vocab → v ∉ ts → l.getD v false = (table.getD (v / 8) 0).getLsbD (v % 8)) ∧
        ∀ v, v < g.vocab → v ∈ ts → (l.getD v false = true ↔ ∃ e, gramEffectOf s w image br v = .ok (some e)))

namespace Sys2Proof.Machine

/-- A session of a partition stands in a phase, every output entry written and no run of a core on a unit it uses. -/
def InPhase (s : State) (p : Nat) (ph : SPhase) (x : Sess) : Prop :=
  s.stage = 3 ∧ (partAt s p).sess = some x ∧ x.phase = ph ∧ x.outq = [] ∧
    ∀ q ∈ x.seqs, (asyAt s (selUnit (aSel q))).run = none

end Sys2Proof.Machine

/-- From R285, R286, R289 and R396: a doorbell at Stage A adds a descriptor to its partition's pending sessions, at most 16; the loop takes the
oldest once no session runs, refuses one outside its limits with STATE 3 alone, and binds each sequence of the others. -/
def Claim.SessionsAreOpened : Prop :=
  ∀ (s : State) (fn p : Nat) (addr : Word),
    (s.stage ≠ 3 → exec (.sessionDoorbell fn addr) s = .next s ∧ exec (.sessionOpen p) s = .next s) ∧
    (s.stage = 3 → (partAt s (fn - 1)).pend.length < 16 → exec (.sessionDoorbell fn addr) s =
      .next (upPart s (fn - 1) (fun x => { x with pend := x.pend ++ [(addr, (fnAt s fn).sessctx)] }))) ∧
    (s.stage = 3 → 16 ≤ (partAt s (fn - 1)).pend.length → addr.toNat % 2 ^ 48 + 104 ≤ 2 ^ 48 → exec (.sessionDoorbell fn addr) s =
      .next (devWrite s (devWho (fn - 1) (fnAt s fn).sessctx) (addr.toNat + 100) (leBytes 4 0x60003))) ∧
    (∀ x, (partAt s p).sess = some x → exec (.sessionOpen p) s = .next s) ∧
    ∀ (ctx : Nat) (rest : List (Word × Nat)) (l : List Byte), s.stage = 3 → (partAt s p).sess = none → (partAt s p).pend = (addr, ctx) :: rest →
      let t0 := upPart s p (fun y => { y with pend := rest })
      let x : Sess := { addr := addr, ctx := ctx, desc := l }
      loopGet t0 p x addr.toNat 128 = some l →
      (sessOk t0 p x = false → exec (.sessionOpen p) s = .next (setSessState t0 p x 3)) ∧
      (∀ qs, sessOk t0 p x = true → readSeqs t0 p x = some qs → ∃ t y, exec (.sessionOpen p) s = .next t ∧ (partAt t p).sess = some y ∧
        (partAt t p).pend = rest ∧ y.phase = .round ∧ y.desc = l ∧ y.addr = addr ∧ y.ctx = ctx ∧ y.rounds = 0 ∧ y.outw = 0 ∧ y.seqs.length = sdNseq x ∧
        ∀ j, j < sdNseq x → ((seqAt y j).st = 0 → (asyCtx t (selUnit (aSel (seqAt y j))) (selCtx (aSel (seqAt y j)))).bound = true) ∧
          ((qs.getD j {}).st ≠ 0 → seqAt y j = qs.getD j {}))

/-- From R287, R289, R291 and R292: at a round's start STOPREQ or a session with no active sequence closes it and RESLOT is cleared; a draft or
verify chain is asked for with its inputs in the parameter area, and a chain that fails ends the session; a draft adds one
token to each sequence still active. -/
def Claim.SessionRounds : Prop :=
  ∀ (s : State) (p chain : Nat) (x : Sess),
    let control := loopNat s p x (sessField x 96) 4
    let begun : Sess := { x with phase := if sdD x = 0 then .verify else .draft, i := 0, asked := false }
    (InPhase s p .round x →
      (control % 2 = 1 ∨ active x = [] → exec (.sessionRound p) s = .next (setSess s p (some { x with phase := .close, asked := false }))) ∧
      (control % 4 = 0 → active x ≠ [] → exec (.sessionRound p) s = .next (setSess s p (some begun))) ∧
      (control % 4 = 2 → active x ≠ [] → (∀ j ∈ active x, loopNat s p x (entryAddr x j 16) 2 = (seqAt x j).asel ∧
          loopNat s p x (entryAddr x j 18) 2 = (seqAt x j).rsel) →
        exec (.sessionRound p) s = .next (setSess (loopPut s p x (sessField x 96) (leBytes 4 (control - 2))) p (some begun)))) ∧
    (InPhase s p .draft x →
      (x.asked = false → exec (.sessionDraft p chain) s = .next (setSess (writeParams s p x (sdN x 29 1) 1
        (fun q => [if x.i = 0 then q.last else q.drafts.getD (x.i - 1) 0])) p (some { x with asked := true }))) ∧
      (x.asked = true → chain % 2 ^ 16 ≠ 0 → exec (.sessionDraft p chain) s = .next (failSession s p x chain)) ∧
      (x.asked = true → chain % 2 ^ 16 = 0 → ∃ t y, exec (.sessionDraft p chain) s = .next t ∧ (partAt t p).sess = some y ∧
        y.i = x.i + 1 ∧ y.phase = (if x.i + 1 = sdD x then .verify else .draft) ∧ y.asked = false ∧ y.seqs.length = x.seqs.length ∧
        ∀ j, j < x.seqs.length → ((seqAt x j).st ≠ 0 → seqAt y j = seqAt x j) ∧
          ((seqAt y j).st = 0 → (seqAt y j).drafts.length = (seqAt x j).drafts.length + 1))) ∧
    (InPhase s p .verify x →
      (x.asked = false → exec (.sessionVerify p chain) s =
        .next (setSess (writeParams s p x (sdN x 30 1) (sdD x + 1) (fun q => q.last :: q.drafts)) p (some { x with asked := true }))) ∧
      (x.asked = true → chain % 2 ^ 16 ≠ 0 → exec (.sessionVerify p chain) s = .next (failSession s p x chain) ∧
        (partAt (failSession s p x chain) p).sess = none) ∧
      (x.asked = true → chain % 2 ^ 16 = 0 →
        exec (.sessionVerify p chain) s = .next (setSess s p (some { x with asked := false, phase := .decide }))))

/-- From R288, R289 and R292: a round's drafts are decided on and its tokens committed: at most D are accepted, a sequence that goes on counts its
tokens and takes STATE 1 at a stop and 2 at MAXTOK; then each token's entry is written once the ring has room; the last
ends the round. A session that closes has the sequences that took part saved, and is gone with STATE 2 once the entries of those that failed there are written. -/
def Claim.SessionResults : Prop :=
  ∀ (s : State) (p : Nat) (x : Sess),
    (InPhase s p .decide x → ∃ t y, exec (.sessionDecide p) s = .next t ∧ (partAt t p).sess = some y ∧ y.phase = .commit ∧
      y.seqs.length = x.seqs.length ∧ ∀ j, j < x.seqs.length → ((seqAt x j).st ≠ 0 → seqAt y j = seqAt x j) ∧
        ((seqAt y j).st = 0 → (seqAt y j).accepted ≤ sdD x ∧ (seqAt x j).toks <+: (seqAt y j).toks)) ∧
    (InPhase s p .commit x → ∃ t y, exec (.sessionCommit p) s = .next t ∧ (partAt t p).sess = some y ∧ y.phase = .output ∧
      y.seqs.length = x.seqs.length ∧
      ((∀ j ∈ active x, hasRdl (seqAt x j) = false) → y.outq = (active x).flatMap (fun j => outEntries x (seqAt x j))) ∧
      ∀ j, j < x.seqs.length → ((seqAt x j).st ≠ 0 → seqAt y j = seqAt x j) ∧
        ((seqAt x j).st = 0 → (seqAt y j).pos = (seqAt x j).pos + (seqAt x j).toks.length ∧
          (seqAt y j).ntok = (seqAt x j).ntok + (seqAt x j).toks.length ∧ (seqAt y j).toks = [] ∧
          ((seqAt y j).st ≠ 3 → (seqAt y j).st = if (seqAt x j).stop then 1 else if sdMax x ≤ (seqAt y j).ntok then 2 else 0))) ∧
    (s.stage = 3 → (partAt s p).sess = some x →
      (∀ e r, x.outq = e :: r →
        let n := 2 ^ sdN x 88 1
        let room := (x.outw + 2 ^ 32 - loopNat s p x (sessField x 92) 4) % 2 ^ 32 < n
        (¬ room → exec (.outputEntryWrite p) s = .next s) ∧
        (room → exec (.outputEntryWrite p) s = .next (setSess (loopPut s p x (sdN x 80 8 + 16 * (x.outw % n))
          (leBytes 4 e.1.toNat ++ leBytes 4 e.2.1.toNat ++ leBytes 4 e.2.2.1 ++ leBytes 2 (e.2.2.2 + (1 - x.outw / n % 2) * 2 ^ 15) ++ leBytes 2 0))
          p (some { x with outq := r, outw := (x.outw + 1) % 2 ^ 32 })))) ∧
      (x.outq = [] → x.phase ≠ .output → exec (.outputEntryWrite p) s = .next s) ∧
      (x.outq = [] → x.phase = .output → ∃ t, exec (.outputEntryWrite p) s = .next t ∧
        (partAt t p).sess = some { x with rounds := x.rounds + 1, phase := .round } ∧
        t = setSess (loopPut (writeTable s p x) p x (sessField x 104) (leBytes 8 (x.rounds + 1))) p (some { x with rounds := x.rounds + 1, phase := .round }))) ∧
    (InPhase s p .close x →
      let over_ := setSess (setSessState (writeTable s p x) p x 2) p none
      (x.asked = true ∨ (∀ j, j < x.seqs.length → (seqAt x j).joins = false) → exec (.sessionClose p) s = .next over_) ∧
      (x.asked = false → ∃ t, exec (.sessionClose p) s = .next t ∧ t.asys = s.asys ∧
        ((partAt t p).sess = none ∨ ∃ y, (partAt t p).sess = some y ∧ y.phase = .close ∧ y.asked = true ∧ y.outq ≠ [])))

/-- From R6, R19–R41, R86, R89, R97, R270, R310, R315 and R365: a step takes the next turn of the plan. An engine's turn
at a word runs the decoded word, with nothing around it; a word that is not fetched or does not decode ends its
context; at a section's end the tile retires, between sections a header is examined; a team that does not run is
still, but for a word in flight while it halts. An Assayer's turn runs the word at its index, and a turn of an event
runs the event; a turn of a part is an engine's with one part of its access marked to go ahead. Other turns perform a
store, move an element of a copy, send the answers that are due, strike a block of LPDDR-6 with an error, or read a
block of the Lode at the mount. The model's choices in it: the turns of State.sched and how a step takes one (log 1). -/
def Obligations.AStepRunsTheDecodedWord : Prop :=
  ∀ (s : State) (rest : List Turn),
    let s0 := { s with sched := rest }
    (∀ core g, s.sched = .engine core g :: rest → (320 ≤ core → step s = .fault (.noSuchCore core)) ∧
      (core < 320 → let t := onEng s0 core g
        let goes := (curTeam t).st = .running ∨ ((curTeam t).st = .halting ∧ engInFlight t = true)
        (¬ goes ∨ (curEng t).retired = true → step s = .next t) ∧
        (goes → (curEng t).retired = false →
          ((curEng t).sec = none → step s = .next (headerStep t)) ∧
          ∀ x, (curEng t).sec = some x →
            (secEnd x ≤ (curEng t).pc → step s = .next (retireTile t core g)) ∧
            ((curEng t).pc < secEnd x → (curEng t).rst.active = false →
              (∀ f, fetchText t (curEng t).pc 12 = .error f →
                step s = .next (fatalHere (fetchReport t (curWho t .core) 0 f (textFails t (curEng t).pc 12)) f)) ∧
              ∀ l, fetchText t (curEng t).pc 12 = .ok l →
                let w : BitVec 96 := BitVec.ofNat 96 (leNat l)
                let posts := g = .c ∧ secKind t = 1 ∧ lastWord t = true
                let ends := w.extractLsb' 88 8 = 0x41#8 ∨ w.extractLsb' 88 8 = 0x42#8 ∨ w.extractLsb' 88 8 = 0x43#8
                (posts → ¬ ends → step s = .next (fatalHere t fIllegal)) ∧
                (¬ posts ∨ ends → (∀ i, decode g w = .ok i → step s = exec i t) ∧
                  (∀ e, decode g w = .error e → step s = .next (fatalHere t fIllegal)))) ∧
            ((curEng t).pc < secEnd x → (curEng t).rst.active = true →
              ((curEng t).pushpend = true → (curEng t).rst.remain = 0 → step s = .next (afterWord t (repPush t) .seq)) ∧
              ((curEng t).pushpend = false ∨ (curEng t).rst.remain ≠ 0 → ∀ l i, fetchText t (curEng t).pc 12 = .ok l →
                let r := stepWord (unpackWord (BitVec.ofNat 96 (leNat l))) (curEng t).rst
                steerTail t g r = true → decodeRaw g r = .ok i → step s = exec i t))))) ∧
    (∀ u r, s.sched = .assayer u :: rest → u < 4 → let t := { s0 with asyCur := u }
      (asyAt s u).run = some r →
        (∀ w i, fetchAsy t r = .ok w → decodeAsy w = some i → step s = exec i t) ∧
        (∀ w, fetchAsy t r = .ok w → decodeAsy w = none → step s = .next (endRun t u { r with count := r.count + 1 } { status := stAsyill } 0)) ∧
        (∀ x, fetchAsy t r = .error x → step s = .next (endRun t u r x 0))) ∧
    (∀ core k, s.sched = .perform core k :: rest → step s = .next (performNth s0 core k)) ∧
    (∀ core q, s.sched = .move core q :: rest → (getQ (coreAt s core) q = [] → step s = .next s0) ∧
      ∀ c l, getQ (coreAt s core) q = c :: l → step s = .next (moveHead s0 core q c)) ∧
    (s.sched = .answer :: rest → step s = .next (sendAnswers s0)) ∧
    (∀ pa lost, s.sched = .dram pa lost :: rest → dramGroups s ≤ pa / 2 ^ 37 → step s = .next s0) ∧
    (∀ pa, s.sched = .dram pa true :: rest → pa / 2 ^ 37 < dramGroups s → ∃ t, step s = .next t ∧ SMap.get false t.bad (pa / 64) = true ∧
      (∀ k, k ≠ pa / 64 → SMap.get false t.bad k = SMap.get false s.bad k) ∧ t.mem = s.mem ∧
      (s.fqHeld.length < 63 → ∃ r, t.fqHeld = s.fqHeld ++ [r] ∧ r.cls = 2 ∧ r.code = 2 ∧ r.addr = pa / 64 * 64 ∧ r.info / 16 = pa / 2 ^ 37)) ∧
    (∀ core g i, s.sched = .part core g i :: rest → (320 ≤ core → step s = .fault (.noSuchCore core)) ∧
      (core < 320 → let mark (n : Option Nat) (t : State) : State :=
          { upCurEng (onEng t core g) (fun e => { e with reply := { e.reply with part := n } }) with cur := t.cur }
        let t := onEng s0 core g
        ((curTeam t).st ≠ .running → engInFlight t = false → step s = .next s0) ∧
        ((curTeam t).st = .running ∨ engInFlight t = true → ∀ u, engineTurn core g (mark (some i) s0) = .next u →
          step s = .next (mark none u)))) ∧
    (∀ blk, s.sched = .scan blk :: rest → s.stage ≠ 2 → step s = .next s0) ∧
    (∀ i, s.sched = .event i :: rest → encode i = none → encodeAsy i = none →
      (WellFormed .c i = true → step s = exec i s0) ∧ (WellFormed .c i = false → step s = .next s0))

/-- From R117, R118, R123–R127, R129 and R271: words written out bit by bit decode to the instructions they stand for, the worked example of R130 among
them; an unassigned opcode, a register outside its class,
a non-zero unused field, a type or a MOD that is not accepted and a predicate on a posting word are refused by name. -/
def Obligations.WordsDecodeAsWritten : Prop :=
  decode .v 0x3847B8080004080000000000 = .ok (.vfma { pop := 2, push := 1, pred := 7, pneg := false } .fp32 0x38 8 0 4 8) ∧
  decode .c 0x040380030102000000000000 = .ok (.add { pop := 0, push := 0, pred := 7, pneg := false } 3 1 2) ∧
  decode .c 0x02C1C01F00000000FFFFFFFE = .ok (.movi { pop := 6, push := 0, pred := 3, pneg := true } 31 0xFFFFFFFE) ∧
  decode .c 0x3003810A0B00009000000040 = .ok (.ld { pop := 0, push := 0, pred := 7, pneg := false } .n32 true 10 11 0x40) ∧
  decode .m 0x30038101020300B300000000 = .ok (.mma { pop := 0, push := 0, pred := 7, pneg := false } .nbi true 3 1 2 3 0) ∧
  decodeAsy 0x61DD4000 = some (.asyMulF 7 7 5) ∧ decodeAsy 0x35C40003 = some (.asyDraw 7 1 3) ∧ decodeAsy 0x48200000 = some (.asyCommit 8) ∧
  decodeAsy 0x64003000 = none ∧
  decode .c 0x120380000000000000000000 = .error .unassignedOpcode ∧ decode .c 0x040380400102000000000000 = .error .registerRange ∧
  decode .c 0x000380010000000000000000 = .error .unusedField ∧ decode .c 0x200380030102000000000000 = .error .elementType ∧
  decode .c 0x410000000000000000000000 = .error .predicateForbidden ∧ decode .c 0x040381030102000000000000 = .error .modOutsideClass

/-- From R117–R129, R270 and R271: every well-formed instruction comes back from its word, with every operand at every value that its encoding admits. -/
def Obligations.EveryWordDecodesToItsInstruction : Prop :=
  (∀ (g : Eng) (i : Instr) (w : BitVec 96), WellFormed g i = true → encode i = some w → decode g w = .ok i) ∧
  (∀ (g : Eng) (i : Instr) (w : W32), WellFormed g i = true → encodeAsy i = some w → decodeAsy w = some i) ∧
  (∀ (w : BitVec 96), packWord (unpackWord w) = w) ∧ (∀ w : W32, packAsy (unpackAsy w) = w)

/-- From R309 and R323 and the model's own form of memory (log entry 4): a step from a good state leads to a good state: memory and the level cache
in canonical form, at most 64 fault records held, LOG2N of the fault queue 0 or 2–12, LOST at most 255. -/
def Obligations.EveryStepKeepsGood : Prop :=
  ∀ s t : State, s.Good → step s = .next t → t.Good

/-- From R28, R33, R34, R38, R236 and R330: a step from a state whose cores stand within their bounds leads to such a
state: at most 15 tokens in a FIFO, four targets in a path queue, 64 repetitions to go and 16 commands in a queue, on
every core and in every saved image. The model's choices in it: counts of an image beyond their bounds cut to them
(log 120). -/
def Obligations.EveryStepKeepsBounds : Prop :=
  ∀ s t : State, s.Bounded → step s = .next t → t.Bounded

/-- From R89, R317, R366, R393, R397 and R404: right after reset nothing runs, no memory is listed, no queue is open, no
port is up, and the state is good and within its bounds. That scalar, vector and mask registers hold 0 is the model's
choice (log entry 2), and so is that unwritten memory reads 0 (log entry 4). The model's choices in it: tick 0 (log
3), the empty plan (log 1), zero in the registers and in memory (logs 2 and 4). -/
def Obligations.ResetIsAsStated : Prop :=
  let s := State.reset
  s.Good ∧ s.Bounded ∧ s.mem = [] ∧ s.lc = [] ∧ s.stage = 0 ∧ s.powered = true ∧ s.tick = 0 ∧ s.sched = [] ∧
  (∀ n g, coreAt s n = {} ∧ engSt (coreAt s n) g = {}) ∧ (∀ n r, getScal (coreAt s n) .c r = 0 ∧ vget (coreAt s n) 0 r = 0 ∧ kget (coreAt s n) r = 0) ∧
  (∀ t, teamAt s t = {}) ∧ (∀ q, (queueAt s q).st = .disabled) ∧ (∀ p, (portAt s p).up = false) ∧ (∀ k, held k → rdByte s k = 0) ∧
  (∀ u, (asyAt s u).run = none)


/-! ## Statements of several claims -/

/-- Moves, sums, differences and select complete with the words the table gives; X0 reads 0 and takes no write. -/
def Obligations.MovesAndSums : Prop :=
  Claim.MovesAndSums ∧ Claim.RegisterZero

/-- Products, extremes, counts and bit fields complete with the values the tables give. -/
def Obligations.IntegerArithmetic : Prop :=
  Claim.IntegerArithmetic ∧ Claim.BitFields

/-- tsend and trecv, the tokens that a word pushes, and a word that waits for its tokens. -/
def Obligations.TokensOfAWord : Prop :=
  Claim.LadenTokens ∧ Claim.PushesOfAWord ∧ Claim.WordsWaitForTokens

/-- What the words that write a scalar or a predicate leave unchanged. -/
def Obligations.FramesOfScalarWords : Prop :=
  Claim.ScalarWordFrame ∧ Claim.PredicateWordFrame

/-- rep, br, steer, call and ret complete: the repetition, the way to go on, the posted target. The model's choices in it:
INFO 2, ADDR and LENGTH 4 of a target at or above 2^48 (log 83), the record that names the rep word (log 80), a full
path queue as a wait of an issued word (log 77). -/
def Obligations.ControlFlowWords : Prop :=
  Claim.RepeatPrefix ∧ Claim.BranchWithinASection ∧ Claim.SteerPostsItsTarget

/-- Fences, phases and barriers complete, and when they wait. -/
def Obligations.FencesPhasesAndBarriers : Prop :=
  Claim.FencesAndPhases ∧ Claim.BarrierRounds

/-- Waits by time and by memory, their wakening, and regions without pre-emption. -/
def Obligations.TimedWordsAndRegions : Prop :=
  Claim.TimedAndPolledWaits ∧ Claim.WakeningEvents ∧ Claim.RegionsOfNoPreemption

/-- Loads and stores complete where their bytes translate; a fresh load reads its bytes. The model's choices in it: INFO 2
and ADDR of an address that leaves its handle (log 16), the queue page under a privileged handle of its own (log 93),
the parts of an access (log 22), alignment before translation (log 15). -/
def Obligations.LoadsAndStoresComplete : Prop :=
  Claim.LoadsAndStoresComplete ∧ Claim.FreshLoadReadsItsBytes

/-- Atomics complete: they give the old value and write the new one of their operation, and nothing else. The model's
choices in it: MISALIGN whatever the translation would give (log 15). -/
def Obligations.AtomicWords : Prop :=
  Claim.AtomicsComplete ∧ Claim.AtomicReadsAndWritesOnce ∧ Claim.AtomicValues

/-- A fatal error ends its context and a trap suspends its team, with the fault record that each leaves. The model's
choices in it: what stays as the module returns to Stage S (log 102). -/
def Obligations.ExceptionsAreTaken : Prop :=
  Claim.FatalErrorEndsItsContext ∧ Claim.TrapSuspendsItsTeam

/-- Sums, products, quotients, conversions, functions and chunk sums round the exact value once, with the flags and
special results. -/
def Obligations.ExactResultsAreRounded : Prop :=
  Claim.ArithmeticRoundsExactValues ∧ Claim.IntegralScaledAndConverted ∧ Claim.FunctionLanes ∧ Claim.ChunksAreSummedExactly

/-- Integer vector words and element moves complete with the lane that the tables give. -/
def Obligations.IntegerLanesAndMoves : Prop :=
  Claim.IntegerLanes ∧ Claim.ElementMoves

/-- VMODE and VFLAGS words, compares and mask words complete with the bits that the tables give. -/
def Obligations.ModesComparesAndMasks : Prop :=
  Claim.VectorModeAndFlags ∧ Claim.ComparesAndMasks

/-- Conversions, quantisation and bit-plane words complete with the values the rules give, and what the first planes of a
code are worth. The model's choices in it: vqnt.s with a bad scale (log 113). -/
def Obligations.ConversionsAndQuantisation : Prop :=
  Claim.ConversionsAndQuantisation ∧ Claim.BitPlaneValues

/-- Vector loads and stores complete where their bytes translate, row by row. The model's choices in it: a row that leaves
its handle (log 16), the parts of an access (log 22), the record of a bad PITCH and the wrap of FIRST (logs 116 and
115), a misaligned gather without elements (log 117), a nullified word (log 109). -/
def Obligations.VectorMemoryWords : Prop :=
  Claim.VectorMemoryWords ∧ Claim.TileRows

/-- The lease of a matrix array is asked for, granted, handed over and released. The model's choices in it: a lease.acq
that waits as an issued word (log 77), the contents of a lease granted again (log 70). -/
def Obligations.LeasesOfTheArray : Prop :=
  Claim.LeasesOfTheArray ∧ Claim.LeaseGrantAndHandOver

/-- Operand descriptors and accumulators: the words complete, and need the lease. The model's choices in it: NOARRAY for
an accumulator word on a dead array and the order of the checks (log 71), a wait of an issued word (log 77). -/
def Obligations.MatrixWords : Prop :=
  Claim.DescriptorsAndAccumulators ∧ Claim.ArrayWordsNeedTheLease

/-- The words that issue commands complete: the command joins its queue with its descriptor, and a stamped one starts at
its tick. The model's choices in it: a full queue as a wait of an issued word (log 77), LATE as the command may start
(log 39), the queue of a copy whose descriptor cannot be read (log 69), the moment a port is free (log 30). -/
def Obligations.CommandsAreIssued : Prop :=
  Claim.CommandsAreIssued ∧ Claim.DescriptorReads ∧ Claim.SignallingMulticast ∧ Claim.StampedStarts

/-- Completion rings are set and acknowledged, and a finished command writes its record. The model's choices in it: a
cq.init that waits as an issued word (log 77), commands that can no longer be recorded (log 102). -/
def Obligations.CommandsComplete : Prop :=
  Claim.CompletionRings ∧ Claim.CommandsComplete

/-- Headers are examined, steer targets popped and joins met. -/
def Obligations.SectionsAreEntered : Prop :=
  Claim.HeadersAreExamined ∧ Claim.TargetsAndJoins

/-- A tile completes once every engine has retired; a deadlock of tokens is a fault. -/
def Obligations.TilesComplete : Prop :=
  Claim.TilesComplete ∧ Claim.TokenDeadlock

/-- Slots are reserved and committed; queues are enabled and destroyed. -/
def Obligations.SubmissionQueues : Prop :=
  Claim.ReservationsAndCommits ∧ Claim.QueuesAreEnabledAndDestroyed

/-- The indices of a tile, the order of the candidates, launch on free cores of a cluster, and the choice of victims. The
model's choices in it: the lowest free TID (log 64). -/
def Obligations.TilesAreLaunched : Prop :=
  Claim.TileIndices ∧ Claim.LaunchState ∧ Claim.TilesAreLaunched ∧ Claim.CandidatesInOrder ∧ Claim.VictimsAreChosen

/-- A record becomes runnable or malformed, completes with its outputs, signal and entry, and may pass its deadline. The
model's choices in it: a record that already has a status keeps it when EXPIRE 2 acts (log 87). -/
def Obligations.RecordsRunAndComplete : Prop :=
  Claim.RecordsBecomeRunnable ∧ Claim.RecordsComplete ∧ Claim.DeadlinesExpire

/-- A halt takes hold, a team is saved as its image, goes back to its cores, and parts of an image are copied. The model's
choices in it: parts 17–31 as BADARG (log 86), the own stores performed first (log 79), the blocks of a copy that fail
(log 94). -/
def Obligations.TeamsAreHaltedSavedRestored : Prop :=
  Claim.TeamsAreHaltedAndSaved ∧ Claim.TeamsAreRestored ∧ Claim.SavedContexts

/-- The Foreman words for teams, queues and wait state complete with the code of what they found. -/
def Obligations.ForemanWords : Prop :=
  Claim.WaitStateReads ∧ Claim.TeamWords ∧ Claim.QueueWords

/-- Privileged registers are read and written by the Foreman; fault records are reported in order. -/
def Obligations.PrivilegedRegistersAndFaults : Prop :=
  Claim.PrivilegedRegisters ∧ Claim.FaultRecords

/-- Lode regions are created, written, sealed, remapped and destroyed, or refused by code. The model's choices in it: the
order of the status codes (log 56), the bounds of pages, blocks and reservation (log 55), the latches that a remap
leaves (log 99). -/
def Obligations.LodeRegions : Prop :=
  Claim.RegionsAreCreated ∧ Claim.RegionsAreWrittenAndDestroyed

/-- Handles are mapped and unmapped, and translations shot down. The model's choices in it: the shadow made equal to the
front by MAP (log 88), the order of the statuses (log 56). -/
def Obligations.HandlesAndShootdowns : Prop :=
  Claim.HandlesAreMapped ∧ Claim.TranslationsAreShotDown

/-- Format windows are set, cleared and flushed; an eviction changes no value that is read. The model's choices in it:
every field checked by CLEAR and FLUSH (log 105), the encodings and the order of the checks (logs 57 and 56). -/
def Obligations.FormatWindows : Prop :=
  Claim.FormatWindows ∧ Claim.EvictionIsInvisible

/-- A publication swaps backings, and copies, layouts and computed writes move their elements and nothing else. The
model's choices in it: how a copy is split (log 18), the statuses of a publication (log 38). -/
def Obligations.CopiesAndPublication : Prop :=
  Claim.PublishSwapsBackings ∧ Claim.CopiesMoveTheirElements ∧ Claim.WalksOfCopies ∧ Claim.ComputedWrites

/-- Lode commands: latches are loaded, pages read one by one, tiles added up, sums drained and rows reduced. The model's
choices in it: scale pages (log 33), the sign of a zero (log 60), the COUNT of lode.act (log 40), E2E 3 (log 61). -/
def Obligations.LodePagesAreRead : Prop :=
  Claim.LodePagesAreRead ∧ Claim.TilesAreAdded ∧ Claim.LatchesAndWaves ∧ Claim.DrainsAndReduces

/-- Refreshes and reloads of the Lode, spare planes, and the steps of the clocks. The model's choices in it: the spares
and the free block taken (log 52), the group behind a bus and one record a tile (log 53), the governor by single steps
(log 104). -/
def Obligations.CareOfTheLode : Prop :=
  Claim.ShoringCares ∧ Claim.BondsTakeSpares ∧ Claim.ClocksAndGovernors

/-- What the host may reach and what a host access does; an answer reaches who asked. The model's choices in it: BAR2 in
Stage A only, posted writes out of reach and the two records (log 47), PRI Enable (log 65), Invalidate Requests and
what stands for a kept translation (log 97). -/
def Obligations.HostAccesses : Prop :=
  Claim.HostAccesses ∧ Claim.AnswersReachTheirAskers

/-- Mailbox commands by stage and function: who may give them and what each does. The model's choices in it: the order of
the checks and the ignored bits (log 49), RELOADQ of the physical function (log 34), the user of the signatures (log
92, PRESUMED), the mean power (log 104). -/
def Obligations.MailboxCommands : Prop :=
  Claim.MailboxRules ∧ Claim.MailboxReports ∧ Claim.MailboxActions

/-- Link commands, requests and answers of a peer module, and ports that train, tick and fail. The model's choices in it:
payloads of flits (log 31), the backing another module reaches (log 89), LINKDOWN of an own place (log 67), checks of
part of a block (log 106). -/
def Obligations.LinksBetweenModules : Prop :=
  Claim.FlitRequests ∧ Claim.ReductionsLand ∧ Claim.FlitAnswers ∧ Claim.PortsTrainAndFail ∧ Claim.LinkCommandsSend

/-- The Assayer words that halt, branch, commit and store complete; a context record reads back. The model's choices in
it: a target checked only where the branch is taken (log 29), the result block behind the descriptor (log 91). -/
def Obligations.AssayerControlWords : Prop :=
  Claim.AssayerControlWords ∧ Claim.ContextRecords

/-- The commands of the sequence units: contexts are bound, run and read, grammars opened, stepped, masked, forked and
saved. The model's choices in it: the kinds that a sequence command may reach (log 27), the order of its refusals and
the image read anew (log 28). -/
def Obligations.SequenceCommands : Prop :=
  Claim.AssayerCommands ∧ Claim.RiddleCommands ∧ Claim.GrammarTables

/-- Generation sessions are opened, go round by round, write their entries and close. The model's choices in it: the
status of a chain as event data (log 44), the free last token (log 45), the order of the writes of a round (log 46),
the partition of the physical function (log 48). -/
def Obligations.GenerationSessions : Prop :=
  Claim.SessionsAreOpened ∧ Claim.SessionRounds ∧ Claim.SessionResults
end

