-- ==== Sys2Proof/Laws/SMap.lean ====
section
/-! SUPPORT. Sparse maps: what a key reads as after a write, and that every write keeps the canonical form. -/

namespace Sys2Proof.Machine

variable {α : Type}

theorem SMap.get_del_same (d : α) (m : SMap α) (k : Nat) : SMap.get d (m.del k) k = d := by
  induction m with
  | nil => rfl
  | cons p r ih =>
    obtain ⟨j, v⟩ := p
    by_cases e : j = k
    · simpa [SMap.del, e] using ih
    · simpa [SMap.del, SMap.get, e] using ih

theorem SMap.get_del_of_ne (d : α) (m : SMap α) (k j : Nat) (h : k ≠ j) : SMap.get d (m.del k) j = SMap.get d m j := by
  induction m with
  | nil => rfl
  | cons p r ih =>
    obtain ⟨i, v⟩ := p
    by_cases e : i = k
    · subst e; simpa [SMap.del, SMap.get, h] using ih
    · simp only [SMap.del, SMap.get] at ih ⊢
      simp [e, SMap.get, ih]

theorem SMap.get_put_same (d : α) (m : SMap α) (k : Nat) (v : α) : SMap.get d (m.put k v) k = v := by
  induction m with
  | nil => simp [SMap.put, SMap.get]
  | cons p r ih =>
    obtain ⟨j, w⟩ := p
    unfold SMap.put
    split
    · simp [SMap.get]
    · split
      · simp [SMap.get]
      · next e e' => simp [SMap.get, e, ih]

theorem SMap.get_put_of_ne (d : α) (m : SMap α) (k j : Nat) (v : α) (h : k ≠ j) :
    SMap.get d (m.put k v) j = SMap.get d m j := by
  induction m with
  | nil => simp [SMap.put, SMap.get, h]
  | cons p r ih =>
    obtain ⟨i, w⟩ := p
    unfold SMap.put
    split
    · next e => subst e; simp [SMap.get, h]
    · split
      · simp only [SMap.get, if_neg h]
      · simp only [SMap.get, ih]

theorem SMap.get_lt_of_wfFrom [DecidableEq α] (d : α) (m : SMap α) (lo k : Nat) (h : SMap.wfFrom d lo m = true) (hk : k < lo) :
    SMap.get d m k = d := by
  induction m generalizing lo with
  | nil => rfl
  | cons p r ih =>
    obtain ⟨j, v⟩ := p
    simp only [SMap.wfFrom, Bool.and_eq_true, decide_eq_true_eq] at h
    have : ¬ j = k := by omega
    simp only [SMap.get, if_neg this]
    exact ih (j + 1) h.2 (by omega)

/-- A key that has been set reads as what was written. -/
@[simp] theorem SMap.get_set_same [DecidableEq α] (d : α) (m : SMap α) (k : Nat) (v : α) :
    SMap.get d (SMap.set d m k v) k = v := by
  unfold SMap.set
  split
  · next e => rw [e, SMap.get_del_same d m k]
  · exact SMap.get_put_same d m k v

/-- Setting one key leaves every other key alone. -/
theorem SMap.get_set_of_ne [DecidableEq α] (d : α) (m : SMap α) (k j : Nat) (v : α) (hk : k ≠ j) :
    SMap.get d (SMap.set d m k v) j = SMap.get d m j := by
  unfold SMap.set
  split
  · exact SMap.get_del_of_ne d m k j hk
  · exact SMap.get_put_of_ne d m k j v hk

/-- What any key reads as after one has been set. -/
theorem SMap.get_set [DecidableEq α] (d : α) (m : SMap α) (k j : Nat) (v : α) :
    SMap.get d (SMap.set d m k v) j = if k = j then v else SMap.get d m j := by
  split
  · next e => subst e; exact SMap.get_set_same d m k v
  · next e => exact SMap.get_set_of_ne d m k j v e

theorem SMap.wfFrom_mono [DecidableEq α] (d : α) (m : SMap α) {lo lo' : Nat} (h : SMap.wfFrom d lo m = true) (hl : lo' ≤ lo) :
    SMap.wfFrom d lo' m = true := by
  cases m with
  | nil => rfl
  | cons p r =>
    obtain ⟨j, v⟩ := p
    simp only [SMap.wfFrom, Bool.and_eq_true, decide_eq_true_eq] at h ⊢
    exact ⟨⟨by omega, h.1.2⟩, h.2⟩

theorem SMap.wfFrom_del [DecidableEq α] (d : α) (m : SMap α) (lo k : Nat) (h : SMap.wfFrom d lo m = true) :
    SMap.wfFrom d lo (m.del k) = true := by
  induction m generalizing lo with
  | nil => rfl
  | cons p r ih =>
    obtain ⟨j, v⟩ := p
    simp only [SMap.wfFrom, Bool.and_eq_true, decide_eq_true_eq] at h
    by_cases e : j = k
    · have := ih (j + 1) h.2
      simp only [SMap.del, e, bne_self_eq_false, Bool.false_eq_true, not_false_eq_true, List.filter_cons_of_neg] at this ⊢
      exact SMap.wfFrom_mono d _ this (by omega)
    · have := ih (j + 1) h.2
      simp only [SMap.del] at this ⊢
      rw [List.filter_cons_of_pos (by simpa using e)]
      simp only [SMap.wfFrom, Bool.and_eq_true, decide_eq_true_eq]
      exact ⟨h.1, this⟩

theorem SMap.wfFrom_put [DecidableEq α] (d : α) (m : SMap α) (lo k : Nat) (v : α) (h : SMap.wfFrom d lo m = true) (hk : lo ≤ k)
    (hv : v ≠ d) : SMap.wfFrom d lo (m.put k v) = true := by
  induction m generalizing lo with
  | nil => simp [SMap.put, SMap.wfFrom, hk, hv]
  | cons p r ih =>
    obtain ⟨j, w⟩ := p
    have h' := h
    simp only [SMap.wfFrom, Bool.and_eq_true, decide_eq_true_eq] at h'
    unfold SMap.put
    split
    · next e => subst e; simp [SMap.wfFrom, hk, hv, h'.2]
    · split
      · next e e' =>
        simp only [SMap.wfFrom, Bool.and_eq_true, decide_eq_true_eq]
        exact ⟨⟨hk, by simpa using hv⟩, ⟨⟨by omega, h'.1.2⟩, h'.2⟩⟩
      · next e e' =>
        simp only [SMap.wfFrom, Bool.and_eq_true, decide_eq_true_eq]
        exact ⟨h'.1, ih (j + 1) h'.2 (by omega)⟩

/-- A write keeps the canonical form. -/
theorem SMap.wf_set [DecidableEq α] (d : α) (m : SMap α) (k : Nat) (v : α) (h : SMap.wf d m = true) :
    SMap.wf d (SMap.set d m k v) = true := by
  unfold SMap.set
  split
  · exact SMap.wfFrom_del d m 0 k h
  · next hv => exact SMap.wfFrom_put d m 0 k v h (Nat.zero_le k) hv

/-- Several writes keep the canonical form. -/
theorem SMap.wf_setAll [DecidableEq α] (d : α) (l : List (Nat × α)) (m : SMap α) (h : SMap.wf d m = true) :
    SMap.wf d (SMap.setAll d m l) = true := by
  induction l generalizing m with
  | nil => exact h
  | cons p r ih => exact ih _ (SMap.wf_set d m p.1 p.2 h)

theorem SMap.wf_nil [DecidableEq α] (d : α) : SMap.wf d ([] : SMap α) = true := rfl

theorem SMap.wfFrom_tabAux [DecidableEq α] (d : α) (f : Nat → α) (n i lo : Nat) (h : lo ≤ i) :
    SMap.wfFrom d lo (SMap.tabAux d f n i) = true := by
  induction n generalizing i lo with
  | zero => rfl
  | succ n ih =>
    unfold SMap.tabAux
    split
    · exact ih (i + 1) lo (by omega)
    · next hv =>
      simp only [SMap.wfFrom, Bool.and_eq_true, decide_eq_true_eq]
      exact ⟨⟨h, by simpa using hv⟩, ih (i + 1) (i + 1) (Nat.le_refl _)⟩

/-- A table is in canonical form. -/
theorem SMap.wf_tab [DecidableEq α] (d : α) (f : Nat → α) (n : Nat) : SMap.wf d (SMap.tab d n f) = true :=
  SMap.wfFrom_tabAux d f n 0 0 (Nat.le_refl 0)

theorem SMap.get_tabAux [DecidableEq α] (d : α) (f : Nat → α) (n i k : Nat) (hi : i ≤ k) :
    SMap.get d (SMap.tabAux d f n i) k = if k < i + n then f k else d := by
  induction n generalizing i with
  | zero => simp [SMap.tabAux, SMap.get, Nat.not_lt.mpr hi]
  | succ n ih =>
    unfold SMap.tabAux
    by_cases e : i = k
    · subst e
      split
      · next hv =>
        rw [SMap.get_lt_of_wfFrom d _ (i + 1) i (SMap.wfFrom_tabAux d f n (i + 1) (i + 1) (Nat.le_refl _)) (by omega)]
        simp [hv]
      · simp [SMap.get]
    · have h1 := ih (i + 1) (by omega)
      rw [Nat.add_assoc, Nat.add_comm 1 n] at h1
      split
      · exact h1
      · simp [SMap.get, e, h1]

/-- What a key of a table reads as. -/
theorem SMap.get_tab [DecidableEq α] (d : α) (f : Nat → α) (n k : Nat) :
    SMap.get d (SMap.tab d n f) k = if k < n then f k else d := by
  unfold SMap.tab
  rw [SMap.get_tabAux d f n 0 k (Nat.zero_le k), Nat.zero_add]

end Sys2Proof.Machine
end

