-- ==== Sys2Proof/Laws/State.lean ====
section
/-! SUPPORT. What each update of the state leaves and what it gives: one lemma per field and update, and the laws of reading back. -/

namespace Sys2Proof.Machine

variable (s : State)

/-! ## `setCore` -/

@[simp] theorem setCore_cur (n : Nat) (c : Core) : (setCore s n c).cur = s.cur := rfl
@[simp] theorem setCore_sched (n : Nat) (c : Core) : (setCore s n c).sched = s.sched := rfl
@[simp] theorem setCore_free (n : Nat) (c : Core) : (setCore s n c).free = s.free := rfl
@[simp] theorem setCore_tick (n : Nat) (c : Core) : (setCore s n c).tick = s.tick := rfl
@[simp] theorem setCore_teams (n : Nat) (c : Core) : (setCore s n c).teams = s.teams := rfl
@[simp] theorem setCore_clusters (n : Nat) (c : Core) : (setCore s n c).clusters = s.clusters := rfl
@[simp] theorem setCore_mem (n : Nat) (c : Core) : (setCore s n c).mem = s.mem := rfl
@[simp] theorem setCore_lc (n : Nat) (c : Core) : (setCore s n c).lc = s.lc := rfl
@[simp] theorem setCore_bad (n : Nat) (c : Core) : (setCore s n c).bad = s.bad := rfl
@[simp] theorem setCore_ht (n : Nat) (c : Core) : (setCore s n c).ht = s.ht := rfl
@[simp] theorem setCore_wins (n : Nat) (c : Core) : (setCore s n c).wins = s.wins := rfl
@[simp] theorem setCore_queues (n : Nat) (c : Core) : (setCore s n c).queues = s.queues := rfl
@[simp] theorem setCore_rr (n : Nat) (c : Core) : (setCore s n c).rr = s.rr := rfl
@[simp] theorem setCore_kept (n : Nat) (c : Core) : (setCore s n c).kept = s.kept := rfl
@[simp] theorem setCore_order (n : Nat) (c : Core) : (setCore s n c).order = s.order := rfl
@[simp] theorem setCore_lode (n : Nat) (c : Core) : (setCore s n c).lode = s.lode := rfl
@[simp] theorem setCore_regions (n : Nat) (c : Core) : (setCore s n c).regions = s.regions := rfl
@[simp] theorem setCore_blocks (n : Nat) (c : Core) : (setCore s n c).blocks = s.blocks := rfl
@[simp] theorem setCore_spares (n : Nat) (c : Core) : (setCore s n c).spares = s.spares := rfl
@[simp] theorem setCore_corr (n : Nat) (c : Core) : (setCore s n c).corr = s.corr := rfl
@[simp] theorem setCore_aged (n : Nat) (c : Core) : (setCore s n c).aged = s.aged := rfl
@[simp] theorem setCore_scanned (n : Nat) (c : Core) : (setCore s n c).scanned = s.scanned := rfl
@[simp] theorem setCore_nissue (n : Nat) (c : Core) : (setCore s n c).nissue = s.nissue := rfl
@[simp] theorem setCore_ltlb (n : Nat) (c : Core) : (setCore s n c).ltlb = s.ltlb := rfl
@[simp] theorem setCore_steals (n : Nat) (c : Core) : (setCore s n c).steals = s.steals := rfl
@[simp] theorem setCore_deadGroups (n : Nat) (c : Core) : (setCore s n c).deadGroups = s.deadGroups := rfl
@[simp] theorem setCore_reloads (n : Nat) (c : Core) : (setCore s n c).reloads = s.reloads := rfl
@[simp] theorem setCore_asys (n : Nat) (c : Core) : (setCore s n c).asys = s.asys := rfl
@[simp] theorem setCore_rdls (n : Nat) (c : Core) : (setCore s n c).rdls = s.rdls := rfl
@[simp] theorem setCore_parts (n : Nat) (c : Core) : (setCore s n c).parts = s.parts := rfl
@[simp] theorem setCore_fqBase (n : Nat) (c : Core) : (setCore s n c).fqBase = s.fqBase := rfl
@[simp] theorem setCore_fqLog (n : Nat) (c : Core) : (setCore s n c).fqLog = s.fqLog := rfl
@[simp] theorem setCore_fqLost (n : Nat) (c : Core) : (setCore s n c).fqLost = s.fqLost := rfl
@[simp] theorem setCore_fqWritten (n : Nat) (c : Core) : (setCore s n c).fqWritten = s.fqWritten := rfl
@[simp] theorem setCore_fqAcked (n : Nat) (c : Core) : (setCore s n c).fqAcked = s.fqAcked := rfl
@[simp] theorem setCore_fqHeld (n : Nat) (c : Core) : (setCore s n c).fqHeld = s.fqHeld := rfl
@[simp] theorem setCore_fqWait (n : Nat) (c : Core) : (setCore s n c).fqWait = s.fqWait := rfl
@[simp] theorem setCore_ctxHandle (n : Nat) (c : Core) : (setCore s n c).ctxHandle = s.ctxHandle := rfl
@[simp] theorem setCore_ctxSlots (n : Nat) (c : Core) : (setCore s n c).ctxSlots = s.ctxSlots := rfl
@[simp] theorem setCore_fns (n : Nat) (c : Core) : (setCore s n c).fns = s.fns := rfl
@[simp] theorem setCore_stage (n : Nat) (c : Core) : (setCore s n c).stage = s.stage := rfl
@[simp] theorem setCore_cause (n : Nat) (c : Core) : (setCore s n c).cause = s.cause := rfl
@[simp] theorem setCore_bank (n : Nat) (c : Core) : (setCore s n c).bank = s.bank := rfl
@[simp] theorem setCore_next (n : Nat) (c : Core) : (setCore s n c).next = s.next := rfl
@[simp] theorem setCore_floor (n : Nat) (c : Core) : (setCore s n c).floor = s.floor := rfl
@[simp] theorem setCore_banks (n : Nat) (c : Core) : (setCore s n c).banks = s.banks := rfl
@[simp] theorem setCore_newImage (n : Nat) (c : Core) : (setCore s n c).newImage = s.newImage := rfl
@[simp] theorem setCore_mrs (n : Nat) (c : Core) : (setCore s n c).mrs = s.mrs := rfl
@[simp] theorem setCore_qcount (n : Nat) (c : Core) : (setCore s n c).qcount = s.qcount := rfl
@[simp] theorem setCore_mbNext (n : Nat) (c : Core) : (setCore s n c).mbNext = s.mbNext := rfl
@[simp] theorem setCore_cap (n : Nat) (c : Core) : (setCore s n c).cap = s.cap := rfl
@[simp] theorem setCore_powered (n : Nat) (c : Core) : (setCore s n c).powered = s.powered := rfl
@[simp] theorem setCore_order4T (n : Nat) (c : Core) : (setCore s n c).order4T = s.order4T := rfl
@[simp] theorem setCore_deadPairs (n : Nat) (c : Core) : (setCore s n c).deadPairs = s.deadPairs := rfl
@[simp] theorem setCore_deadArrays (n : Nat) (c : Core) : (setCore s n c).deadArrays = s.deadArrays := rfl
@[simp] theorem setCore_bonds (n : Nat) (c : Core) : (setCore s n c).bonds = s.bonds := rfl
@[simp] theorem setCore_own (n : Nat) (c : Core) : (setCore s n c).own = s.own := rfl
@[simp] theorem setCore_modNum (n : Nat) (c : Core) : (setCore s n c).modNum = s.modNum := rfl
@[simp] theorem setCore_tickSet (n : Nat) (c : Core) : (setCore s n c).tickSet = s.tickSet := rfl
@[simp] theorem setCore_modCount (n : Nat) (c : Core) : (setCore s n c).modCount = s.modCount := rfl
@[simp] theorem setCore_ports (n : Nat) (c : Core) : (setCore s n c).ports = s.ports := rfl
@[simp] theorem setCore_reqs (n : Nat) (c : Core) : (setCore s n c).reqs = s.reqs := rfl
@[simp] theorem setCore_nreq (n : Nat) (c : Core) : (setCore s n c).nreq = s.nreq := rfl
@[simp] theorem setCore_shoot (n : Nat) (c : Core) : (setCore s n c).shoot = s.shoot := rfl
@[simp] theorem setCore_ctls (n : Nat) (c : Core) : (setCore s n c).ctls = s.ctls := rfl
@[simp] theorem setCore_inval (n : Nat) (c : Core) : (setCore s n c).inval = s.inval := rfl
@[simp] theorem setCore_asyCur (n : Nat) (c : Core) : (setCore s n c).asyCur = s.asyCur := rfl
@[simp] theorem setCore_hostOut (n : Nat) (c : Core) : (setCore s n c).hostOut = s.hostOut := rfl
@[simp] theorem setCore_irqOut (n : Nat) (c : Core) : (setCore s n c).irqOut = s.irqOut := rfl

/-! ## `upCore` -/

@[simp] theorem upCore_cur (n : Nat) (f : Core → Core) : (upCore s n f).cur = s.cur := rfl
@[simp] theorem upCore_sched (n : Nat) (f : Core → Core) : (upCore s n f).sched = s.sched := rfl
@[simp] theorem upCore_free (n : Nat) (f : Core → Core) : (upCore s n f).free = s.free := rfl
@[simp] theorem upCore_tick (n : Nat) (f : Core → Core) : (upCore s n f).tick = s.tick := rfl
@[simp] theorem upCore_teams (n : Nat) (f : Core → Core) : (upCore s n f).teams = s.teams := rfl
@[simp] theorem upCore_clusters (n : Nat) (f : Core → Core) : (upCore s n f).clusters = s.clusters := rfl
@[simp] theorem upCore_mem (n : Nat) (f : Core → Core) : (upCore s n f).mem = s.mem := rfl
@[simp] theorem upCore_lc (n : Nat) (f : Core → Core) : (upCore s n f).lc = s.lc := rfl
@[simp] theorem upCore_bad (n : Nat) (f : Core → Core) : (upCore s n f).bad = s.bad := rfl
@[simp] theorem upCore_ht (n : Nat) (f : Core → Core) : (upCore s n f).ht = s.ht := rfl
@[simp] theorem upCore_wins (n : Nat) (f : Core → Core) : (upCore s n f).wins = s.wins := rfl
@[simp] theorem upCore_queues (n : Nat) (f : Core → Core) : (upCore s n f).queues = s.queues := rfl
@[simp] theorem upCore_rr (n : Nat) (f : Core → Core) : (upCore s n f).rr = s.rr := rfl
@[simp] theorem upCore_kept (n : Nat) (f : Core → Core) : (upCore s n f).kept = s.kept := rfl
@[simp] theorem upCore_order (n : Nat) (f : Core → Core) : (upCore s n f).order = s.order := rfl
@[simp] theorem upCore_lode (n : Nat) (f : Core → Core) : (upCore s n f).lode = s.lode := rfl
@[simp] theorem upCore_regions (n : Nat) (f : Core → Core) : (upCore s n f).regions = s.regions := rfl
@[simp] theorem upCore_blocks (n : Nat) (f : Core → Core) : (upCore s n f).blocks = s.blocks := rfl
@[simp] theorem upCore_spares (n : Nat) (f : Core → Core) : (upCore s n f).spares = s.spares := rfl
@[simp] theorem upCore_corr (n : Nat) (f : Core → Core) : (upCore s n f).corr = s.corr := rfl
@[simp] theorem upCore_aged (n : Nat) (f : Core → Core) : (upCore s n f).aged = s.aged := rfl
@[simp] theorem upCore_scanned (n : Nat) (f : Core → Core) : (upCore s n f).scanned = s.scanned := rfl
@[simp] theorem upCore_nissue (n : Nat) (f : Core → Core) : (upCore s n f).nissue = s.nissue := rfl
@[simp] theorem upCore_ltlb (n : Nat) (f : Core → Core) : (upCore s n f).ltlb = s.ltlb := rfl
@[simp] theorem upCore_steals (n : Nat) (f : Core → Core) : (upCore s n f).steals = s.steals := rfl
@[simp] theorem upCore_deadGroups (n : Nat) (f : Core → Core) : (upCore s n f).deadGroups = s.deadGroups := rfl
@[simp] theorem upCore_reloads (n : Nat) (f : Core → Core) : (upCore s n f).reloads = s.reloads := rfl
@[simp] theorem upCore_asys (n : Nat) (f : Core → Core) : (upCore s n f).asys = s.asys := rfl
@[simp] theorem upCore_rdls (n : Nat) (f : Core → Core) : (upCore s n f).rdls = s.rdls := rfl
@[simp] theorem upCore_parts (n : Nat) (f : Core → Core) : (upCore s n f).parts = s.parts := rfl
@[simp] theorem upCore_fqBase (n : Nat) (f : Core → Core) : (upCore s n f).fqBase = s.fqBase := rfl
@[simp] theorem upCore_fqLog (n : Nat) (f : Core → Core) : (upCore s n f).fqLog = s.fqLog := rfl
@[simp] theorem upCore_fqLost (n : Nat) (f : Core → Core) : (upCore s n f).fqLost = s.fqLost := rfl
@[simp] theorem upCore_fqWritten (n : Nat) (f : Core → Core) : (upCore s n f).fqWritten = s.fqWritten := rfl
@[simp] theorem upCore_fqAcked (n : Nat) (f : Core → Core) : (upCore s n f).fqAcked = s.fqAcked := rfl
@[simp] theorem upCore_fqHeld (n : Nat) (f : Core → Core) : (upCore s n f).fqHeld = s.fqHeld := rfl
@[simp] theorem upCore_fqWait (n : Nat) (f : Core → Core) : (upCore s n f).fqWait = s.fqWait := rfl
@[simp] theorem upCore_ctxHandle (n : Nat) (f : Core → Core) : (upCore s n f).ctxHandle = s.ctxHandle := rfl
@[simp] theorem upCore_ctxSlots (n : Nat) (f : Core → Core) : (upCore s n f).ctxSlots = s.ctxSlots := rfl
@[simp] theorem upCore_fns (n : Nat) (f : Core → Core) : (upCore s n f).fns = s.fns := rfl
@[simp] theorem upCore_stage (n : Nat) (f : Core → Core) : (upCore s n f).stage = s.stage := rfl
@[simp] theorem upCore_cause (n : Nat) (f : Core → Core) : (upCore s n f).cause = s.cause := rfl
@[simp] theorem upCore_bank (n : Nat) (f : Core → Core) : (upCore s n f).bank = s.bank := rfl
@[simp] theorem upCore_next (n : Nat) (f : Core → Core) : (upCore s n f).next = s.next := rfl
@[simp] theorem upCore_floor (n : Nat) (f : Core → Core) : (upCore s n f).floor = s.floor := rfl
@[simp] theorem upCore_banks (n : Nat) (f : Core → Core) : (upCore s n f).banks = s.banks := rfl
@[simp] theorem upCore_newImage (n : Nat) (f : Core → Core) : (upCore s n f).newImage = s.newImage := rfl
@[simp] theorem upCore_mrs (n : Nat) (f : Core → Core) : (upCore s n f).mrs = s.mrs := rfl
@[simp] theorem upCore_qcount (n : Nat) (f : Core → Core) : (upCore s n f).qcount = s.qcount := rfl
@[simp] theorem upCore_mbNext (n : Nat) (f : Core → Core) : (upCore s n f).mbNext = s.mbNext := rfl
@[simp] theorem upCore_cap (n : Nat) (f : Core → Core) : (upCore s n f).cap = s.cap := rfl
@[simp] theorem upCore_powered (n : Nat) (f : Core → Core) : (upCore s n f).powered = s.powered := rfl
@[simp] theorem upCore_order4T (n : Nat) (f : Core → Core) : (upCore s n f).order4T = s.order4T := rfl
@[simp] theorem upCore_deadPairs (n : Nat) (f : Core → Core) : (upCore s n f).deadPairs = s.deadPairs := rfl
@[simp] theorem upCore_deadArrays (n : Nat) (f : Core → Core) : (upCore s n f).deadArrays = s.deadArrays := rfl
@[simp] theorem upCore_bonds (n : Nat) (f : Core → Core) : (upCore s n f).bonds = s.bonds := rfl
@[simp] theorem upCore_own (n : Nat) (f : Core → Core) : (upCore s n f).own = s.own := rfl
@[simp] theorem upCore_modNum (n : Nat) (f : Core → Core) : (upCore s n f).modNum = s.modNum := rfl
@[simp] theorem upCore_tickSet (n : Nat) (f : Core → Core) : (upCore s n f).tickSet = s.tickSet := rfl
@[simp] theorem upCore_modCount (n : Nat) (f : Core → Core) : (upCore s n f).modCount = s.modCount := rfl
@[simp] theorem upCore_ports (n : Nat) (f : Core → Core) : (upCore s n f).ports = s.ports := rfl
@[simp] theorem upCore_reqs (n : Nat) (f : Core → Core) : (upCore s n f).reqs = s.reqs := rfl
@[simp] theorem upCore_nreq (n : Nat) (f : Core → Core) : (upCore s n f).nreq = s.nreq := rfl
@[simp] theorem upCore_shoot (n : Nat) (f : Core → Core) : (upCore s n f).shoot = s.shoot := rfl
@[simp] theorem upCore_ctls (n : Nat) (f : Core → Core) : (upCore s n f).ctls = s.ctls := rfl
@[simp] theorem upCore_inval (n : Nat) (f : Core → Core) : (upCore s n f).inval = s.inval := rfl
@[simp] theorem upCore_asyCur (n : Nat) (f : Core → Core) : (upCore s n f).asyCur = s.asyCur := rfl
@[simp] theorem upCore_hostOut (n : Nat) (f : Core → Core) : (upCore s n f).hostOut = s.hostOut := rfl
@[simp] theorem upCore_irqOut (n : Nat) (f : Core → Core) : (upCore s n f).irqOut = s.irqOut := rfl

/-! ## `upCur` -/

@[simp] theorem upCur_cur (f : Core → Core) : (upCur s f).cur = s.cur := rfl
@[simp] theorem upCur_sched (f : Core → Core) : (upCur s f).sched = s.sched := rfl
@[simp] theorem upCur_free (f : Core → Core) : (upCur s f).free = s.free := rfl
@[simp] theorem upCur_tick (f : Core → Core) : (upCur s f).tick = s.tick := rfl
@[simp] theorem upCur_teams (f : Core → Core) : (upCur s f).teams = s.teams := rfl
@[simp] theorem upCur_clusters (f : Core → Core) : (upCur s f).clusters = s.clusters := rfl
@[simp] theorem upCur_mem (f : Core → Core) : (upCur s f).mem = s.mem := rfl
@[simp] theorem upCur_lc (f : Core → Core) : (upCur s f).lc = s.lc := rfl
@[simp] theorem upCur_bad (f : Core → Core) : (upCur s f).bad = s.bad := rfl
@[simp] theorem upCur_ht (f : Core → Core) : (upCur s f).ht = s.ht := rfl
@[simp] theorem upCur_wins (f : Core → Core) : (upCur s f).wins = s.wins := rfl
@[simp] theorem upCur_queues (f : Core → Core) : (upCur s f).queues = s.queues := rfl
@[simp] theorem upCur_rr (f : Core → Core) : (upCur s f).rr = s.rr := rfl
@[simp] theorem upCur_kept (f : Core → Core) : (upCur s f).kept = s.kept := rfl
@[simp] theorem upCur_order (f : Core → Core) : (upCur s f).order = s.order := rfl
@[simp] theorem upCur_lode (f : Core → Core) : (upCur s f).lode = s.lode := rfl
@[simp] theorem upCur_regions (f : Core → Core) : (upCur s f).regions = s.regions := rfl
@[simp] theorem upCur_blocks (f : Core → Core) : (upCur s f).blocks = s.blocks := rfl
@[simp] theorem upCur_spares (f : Core → Core) : (upCur s f).spares = s.spares := rfl
@[simp] theorem upCur_corr (f : Core → Core) : (upCur s f).corr = s.corr := rfl
@[simp] theorem upCur_aged (f : Core → Core) : (upCur s f).aged = s.aged := rfl
@[simp] theorem upCur_scanned (f : Core → Core) : (upCur s f).scanned = s.scanned := rfl
@[simp] theorem upCur_nissue (f : Core → Core) : (upCur s f).nissue = s.nissue := rfl
@[simp] theorem upCur_ltlb (f : Core → Core) : (upCur s f).ltlb = s.ltlb := rfl
@[simp] theorem upCur_steals (f : Core → Core) : (upCur s f).steals = s.steals := rfl
@[simp] theorem upCur_deadGroups (f : Core → Core) : (upCur s f).deadGroups = s.deadGroups := rfl
@[simp] theorem upCur_reloads (f : Core → Core) : (upCur s f).reloads = s.reloads := rfl
@[simp] theorem upCur_asys (f : Core → Core) : (upCur s f).asys = s.asys := rfl
@[simp] theorem upCur_rdls (f : Core → Core) : (upCur s f).rdls = s.rdls := rfl
@[simp] theorem upCur_parts (f : Core → Core) : (upCur s f).parts = s.parts := rfl
@[simp] theorem upCur_fqBase (f : Core → Core) : (upCur s f).fqBase = s.fqBase := rfl
@[simp] theorem upCur_fqLog (f : Core → Core) : (upCur s f).fqLog = s.fqLog := rfl
@[simp] theorem upCur_fqLost (f : Core → Core) : (upCur s f).fqLost = s.fqLost := rfl
@[simp] theorem upCur_fqWritten (f : Core → Core) : (upCur s f).fqWritten = s.fqWritten := rfl
@[simp] theorem upCur_fqAcked (f : Core → Core) : (upCur s f).fqAcked = s.fqAcked := rfl
@[simp] theorem upCur_fqHeld (f : Core → Core) : (upCur s f).fqHeld = s.fqHeld := rfl
@[simp] theorem upCur_fqWait (f : Core → Core) : (upCur s f).fqWait = s.fqWait := rfl
@[simp] theorem upCur_ctxHandle (f : Core → Core) : (upCur s f).ctxHandle = s.ctxHandle := rfl
@[simp] theorem upCur_ctxSlots (f : Core → Core) : (upCur s f).ctxSlots = s.ctxSlots := rfl
@[simp] theorem upCur_fns (f : Core → Core) : (upCur s f).fns = s.fns := rfl
@[simp] theorem upCur_stage (f : Core → Core) : (upCur s f).stage = s.stage := rfl
@[simp] theorem upCur_cause (f : Core → Core) : (upCur s f).cause = s.cause := rfl
@[simp] theorem upCur_bank (f : Core → Core) : (upCur s f).bank = s.bank := rfl
@[simp] theorem upCur_next (f : Core → Core) : (upCur s f).next = s.next := rfl
@[simp] theorem upCur_floor (f : Core → Core) : (upCur s f).floor = s.floor := rfl
@[simp] theorem upCur_banks (f : Core → Core) : (upCur s f).banks = s.banks := rfl
@[simp] theorem upCur_newImage (f : Core → Core) : (upCur s f).newImage = s.newImage := rfl
@[simp] theorem upCur_mrs (f : Core → Core) : (upCur s f).mrs = s.mrs := rfl
@[simp] theorem upCur_qcount (f : Core → Core) : (upCur s f).qcount = s.qcount := rfl
@[simp] theorem upCur_mbNext (f : Core → Core) : (upCur s f).mbNext = s.mbNext := rfl
@[simp] theorem upCur_cap (f : Core → Core) : (upCur s f).cap = s.cap := rfl
@[simp] theorem upCur_powered (f : Core → Core) : (upCur s f).powered = s.powered := rfl
@[simp] theorem upCur_order4T (f : Core → Core) : (upCur s f).order4T = s.order4T := rfl
@[simp] theorem upCur_deadPairs (f : Core → Core) : (upCur s f).deadPairs = s.deadPairs := rfl
@[simp] theorem upCur_deadArrays (f : Core → Core) : (upCur s f).deadArrays = s.deadArrays := rfl
@[simp] theorem upCur_bonds (f : Core → Core) : (upCur s f).bonds = s.bonds := rfl
@[simp] theorem upCur_own (f : Core → Core) : (upCur s f).own = s.own := rfl
@[simp] theorem upCur_modNum (f : Core → Core) : (upCur s f).modNum = s.modNum := rfl
@[simp] theorem upCur_tickSet (f : Core → Core) : (upCur s f).tickSet = s.tickSet := rfl
@[simp] theorem upCur_modCount (f : Core → Core) : (upCur s f).modCount = s.modCount := rfl
@[simp] theorem upCur_ports (f : Core → Core) : (upCur s f).ports = s.ports := rfl
@[simp] theorem upCur_reqs (f : Core → Core) : (upCur s f).reqs = s.reqs := rfl
@[simp] theorem upCur_nreq (f : Core → Core) : (upCur s f).nreq = s.nreq := rfl
@[simp] theorem upCur_shoot (f : Core → Core) : (upCur s f).shoot = s.shoot := rfl
@[simp] theorem upCur_ctls (f : Core → Core) : (upCur s f).ctls = s.ctls := rfl
@[simp] theorem upCur_inval (f : Core → Core) : (upCur s f).inval = s.inval := rfl
@[simp] theorem upCur_asyCur (f : Core → Core) : (upCur s f).asyCur = s.asyCur := rfl
@[simp] theorem upCur_hostOut (f : Core → Core) : (upCur s f).hostOut = s.hostOut := rfl
@[simp] theorem upCur_irqOut (f : Core → Core) : (upCur s f).irqOut = s.irqOut := rfl

/-! ## `upCurEng` -/

@[simp] theorem upCurEng_cur (f : EngSt → EngSt) : (upCurEng s f).cur = s.cur := rfl
@[simp] theorem upCurEng_sched (f : EngSt → EngSt) : (upCurEng s f).sched = s.sched := rfl
@[simp] theorem upCurEng_free (f : EngSt → EngSt) : (upCurEng s f).free = s.free := rfl
@[simp] theorem upCurEng_tick (f : EngSt → EngSt) : (upCurEng s f).tick = s.tick := rfl
@[simp] theorem upCurEng_teams (f : EngSt → EngSt) : (upCurEng s f).teams = s.teams := rfl
@[simp] theorem upCurEng_clusters (f : EngSt → EngSt) : (upCurEng s f).clusters = s.clusters := rfl
@[simp] theorem upCurEng_mem (f : EngSt → EngSt) : (upCurEng s f).mem = s.mem := rfl
@[simp] theorem upCurEng_lc (f : EngSt → EngSt) : (upCurEng s f).lc = s.lc := rfl
@[simp] theorem upCurEng_bad (f : EngSt → EngSt) : (upCurEng s f).bad = s.bad := rfl
@[simp] theorem upCurEng_ht (f : EngSt → EngSt) : (upCurEng s f).ht = s.ht := rfl
@[simp] theorem upCurEng_wins (f : EngSt → EngSt) : (upCurEng s f).wins = s.wins := rfl
@[simp] theorem upCurEng_queues (f : EngSt → EngSt) : (upCurEng s f).queues = s.queues := rfl
@[simp] theorem upCurEng_rr (f : EngSt → EngSt) : (upCurEng s f).rr = s.rr := rfl
@[simp] theorem upCurEng_kept (f : EngSt → EngSt) : (upCurEng s f).kept = s.kept := rfl
@[simp] theorem upCurEng_order (f : EngSt → EngSt) : (upCurEng s f).order = s.order := rfl
@[simp] theorem upCurEng_lode (f : EngSt → EngSt) : (upCurEng s f).lode = s.lode := rfl
@[simp] theorem upCurEng_regions (f : EngSt → EngSt) : (upCurEng s f).regions = s.regions := rfl
@[simp] theorem upCurEng_blocks (f : EngSt → EngSt) : (upCurEng s f).blocks = s.blocks := rfl
@[simp] theorem upCurEng_spares (f : EngSt → EngSt) : (upCurEng s f).spares = s.spares := rfl
@[simp] theorem upCurEng_corr (f : EngSt → EngSt) : (upCurEng s f).corr = s.corr := rfl
@[simp] theorem upCurEng_aged (f : EngSt → EngSt) : (upCurEng s f).aged = s.aged := rfl
@[simp] theorem upCurEng_scanned (f : EngSt → EngSt) : (upCurEng s f).scanned = s.scanned := rfl
@[simp] theorem upCurEng_nissue (f : EngSt → EngSt) : (upCurEng s f).nissue = s.nissue := rfl
@[simp] theorem upCurEng_ltlb (f : EngSt → EngSt) : (upCurEng s f).ltlb = s.ltlb := rfl
@[simp] theorem upCurEng_steals (f : EngSt → EngSt) : (upCurEng s f).steals = s.steals := rfl
@[simp] theorem upCurEng_deadGroups (f : EngSt → EngSt) : (upCurEng s f).deadGroups = s.deadGroups := rfl
@[simp] theorem upCurEng_reloads (f : EngSt → EngSt) : (upCurEng s f).reloads = s.reloads := rfl
@[simp] theorem upCurEng_asys (f : EngSt → EngSt) : (upCurEng s f).asys = s.asys := rfl
@[simp] theorem upCurEng_rdls (f : EngSt → EngSt) : (upCurEng s f).rdls = s.rdls := rfl
@[simp] theorem upCurEng_parts (f : EngSt → EngSt) : (upCurEng s f).parts = s.parts := rfl
@[simp] theorem upCurEng_fqBase (f : EngSt → EngSt) : (upCurEng s f).fqBase = s.fqBase := rfl
@[simp] theorem upCurEng_fqLog (f : EngSt → EngSt) : (upCurEng s f).fqLog = s.fqLog := rfl
@[simp] theorem upCurEng_fqLost (f : EngSt → EngSt) : (upCurEng s f).fqLost = s.fqLost := rfl
@[simp] theorem upCurEng_fqWritten (f : EngSt → EngSt) : (upCurEng s f).fqWritten = s.fqWritten := rfl
@[simp] theorem upCurEng_fqAcked (f : EngSt → EngSt) : (upCurEng s f).fqAcked = s.fqAcked := rfl
@[simp] theorem upCurEng_fqHeld (f : EngSt → EngSt) : (upCurEng s f).fqHeld = s.fqHeld := rfl
@[simp] theorem upCurEng_fqWait (f : EngSt → EngSt) : (upCurEng s f).fqWait = s.fqWait := rfl
@[simp] theorem upCurEng_ctxHandle (f : EngSt → EngSt) : (upCurEng s f).ctxHandle = s.ctxHandle := rfl
@[simp] theorem upCurEng_ctxSlots (f : EngSt → EngSt) : (upCurEng s f).ctxSlots = s.ctxSlots := rfl
@[simp] theorem upCurEng_fns (f : EngSt → EngSt) : (upCurEng s f).fns = s.fns := rfl
@[simp] theorem upCurEng_stage (f : EngSt → EngSt) : (upCurEng s f).stage = s.stage := rfl
@[simp] theorem upCurEng_cause (f : EngSt → EngSt) : (upCurEng s f).cause = s.cause := rfl
@[simp] theorem upCurEng_bank (f : EngSt → EngSt) : (upCurEng s f).bank = s.bank := rfl
@[simp] theorem upCurEng_next (f : EngSt → EngSt) : (upCurEng s f).next = s.next := rfl
@[simp] theorem upCurEng_floor (f : EngSt → EngSt) : (upCurEng s f).floor = s.floor := rfl
@[simp] theorem upCurEng_banks (f : EngSt → EngSt) : (upCurEng s f).banks = s.banks := rfl
@[simp] theorem upCurEng_newImage (f : EngSt → EngSt) : (upCurEng s f).newImage = s.newImage := rfl
@[simp] theorem upCurEng_mrs (f : EngSt → EngSt) : (upCurEng s f).mrs = s.mrs := rfl
@[simp] theorem upCurEng_qcount (f : EngSt → EngSt) : (upCurEng s f).qcount = s.qcount := rfl
@[simp] theorem upCurEng_mbNext (f : EngSt → EngSt) : (upCurEng s f).mbNext = s.mbNext := rfl
@[simp] theorem upCurEng_cap (f : EngSt → EngSt) : (upCurEng s f).cap = s.cap := rfl
@[simp] theorem upCurEng_powered (f : EngSt → EngSt) : (upCurEng s f).powered = s.powered := rfl
@[simp] theorem upCurEng_order4T (f : EngSt → EngSt) : (upCurEng s f).order4T = s.order4T := rfl
@[simp] theorem upCurEng_deadPairs (f : EngSt → EngSt) : (upCurEng s f).deadPairs = s.deadPairs := rfl
@[simp] theorem upCurEng_deadArrays (f : EngSt → EngSt) : (upCurEng s f).deadArrays = s.deadArrays := rfl
@[simp] theorem upCurEng_bonds (f : EngSt → EngSt) : (upCurEng s f).bonds = s.bonds := rfl
@[simp] theorem upCurEng_own (f : EngSt → EngSt) : (upCurEng s f).own = s.own := rfl
@[simp] theorem upCurEng_modNum (f : EngSt → EngSt) : (upCurEng s f).modNum = s.modNum := rfl
@[simp] theorem upCurEng_tickSet (f : EngSt → EngSt) : (upCurEng s f).tickSet = s.tickSet := rfl
@[simp] theorem upCurEng_modCount (f : EngSt → EngSt) : (upCurEng s f).modCount = s.modCount := rfl
@[simp] theorem upCurEng_ports (f : EngSt → EngSt) : (upCurEng s f).ports = s.ports := rfl
@[simp] theorem upCurEng_reqs (f : EngSt → EngSt) : (upCurEng s f).reqs = s.reqs := rfl
@[simp] theorem upCurEng_nreq (f : EngSt → EngSt) : (upCurEng s f).nreq = s.nreq := rfl
@[simp] theorem upCurEng_shoot (f : EngSt → EngSt) : (upCurEng s f).shoot = s.shoot := rfl
@[simp] theorem upCurEng_ctls (f : EngSt → EngSt) : (upCurEng s f).ctls = s.ctls := rfl
@[simp] theorem upCurEng_inval (f : EngSt → EngSt) : (upCurEng s f).inval = s.inval := rfl
@[simp] theorem upCurEng_asyCur (f : EngSt → EngSt) : (upCurEng s f).asyCur = s.asyCur := rfl
@[simp] theorem upCurEng_hostOut (f : EngSt → EngSt) : (upCurEng s f).hostOut = s.hostOut := rfl
@[simp] theorem upCurEng_irqOut (f : EngSt → EngSt) : (upCurEng s f).irqOut = s.irqOut := rfl

/-! ## `wr` -/

@[simp] theorem wr_cur (r : Reg) (v : Word) : (wr s r v).cur = s.cur := rfl
@[simp] theorem wr_sched (r : Reg) (v : Word) : (wr s r v).sched = s.sched := rfl
@[simp] theorem wr_free (r : Reg) (v : Word) : (wr s r v).free = s.free := rfl
@[simp] theorem wr_tick (r : Reg) (v : Word) : (wr s r v).tick = s.tick := rfl
@[simp] theorem wr_teams (r : Reg) (v : Word) : (wr s r v).teams = s.teams := rfl
@[simp] theorem wr_clusters (r : Reg) (v : Word) : (wr s r v).clusters = s.clusters := rfl
@[simp] theorem wr_mem (r : Reg) (v : Word) : (wr s r v).mem = s.mem := rfl
@[simp] theorem wr_lc (r : Reg) (v : Word) : (wr s r v).lc = s.lc := rfl
@[simp] theorem wr_bad (r : Reg) (v : Word) : (wr s r v).bad = s.bad := rfl
@[simp] theorem wr_ht (r : Reg) (v : Word) : (wr s r v).ht = s.ht := rfl
@[simp] theorem wr_wins (r : Reg) (v : Word) : (wr s r v).wins = s.wins := rfl
@[simp] theorem wr_queues (r : Reg) (v : Word) : (wr s r v).queues = s.queues := rfl
@[simp] theorem wr_rr (r : Reg) (v : Word) : (wr s r v).rr = s.rr := rfl
@[simp] theorem wr_kept (r : Reg) (v : Word) : (wr s r v).kept = s.kept := rfl
@[simp] theorem wr_order (r : Reg) (v : Word) : (wr s r v).order = s.order := rfl
@[simp] theorem wr_lode (r : Reg) (v : Word) : (wr s r v).lode = s.lode := rfl
@[simp] theorem wr_regions (r : Reg) (v : Word) : (wr s r v).regions = s.regions := rfl
@[simp] theorem wr_blocks (r : Reg) (v : Word) : (wr s r v).blocks = s.blocks := rfl
@[simp] theorem wr_spares (r : Reg) (v : Word) : (wr s r v).spares = s.spares := rfl
@[simp] theorem wr_corr (r : Reg) (v : Word) : (wr s r v).corr = s.corr := rfl
@[simp] theorem wr_aged (r : Reg) (v : Word) : (wr s r v).aged = s.aged := rfl
@[simp] theorem wr_scanned (r : Reg) (v : Word) : (wr s r v).scanned = s.scanned := rfl
@[simp] theorem wr_nissue (r : Reg) (v : Word) : (wr s r v).nissue = s.nissue := rfl
@[simp] theorem wr_ltlb (r : Reg) (v : Word) : (wr s r v).ltlb = s.ltlb := rfl
@[simp] theorem wr_steals (r : Reg) (v : Word) : (wr s r v).steals = s.steals := rfl
@[simp] theorem wr_deadGroups (r : Reg) (v : Word) : (wr s r v).deadGroups = s.deadGroups := rfl
@[simp] theorem wr_reloads (r : Reg) (v : Word) : (wr s r v).reloads = s.reloads := rfl
@[simp] theorem wr_asys (r : Reg) (v : Word) : (wr s r v).asys = s.asys := rfl
@[simp] theorem wr_rdls (r : Reg) (v : Word) : (wr s r v).rdls = s.rdls := rfl
@[simp] theorem wr_parts (r : Reg) (v : Word) : (wr s r v).parts = s.parts := rfl
@[simp] theorem wr_fqBase (r : Reg) (v : Word) : (wr s r v).fqBase = s.fqBase := rfl
@[simp] theorem wr_fqLog (r : Reg) (v : Word) : (wr s r v).fqLog = s.fqLog := rfl
@[simp] theorem wr_fqLost (r : Reg) (v : Word) : (wr s r v).fqLost = s.fqLost := rfl
@[simp] theorem wr_fqWritten (r : Reg) (v : Word) : (wr s r v).fqWritten = s.fqWritten := rfl
@[simp] theorem wr_fqAcked (r : Reg) (v : Word) : (wr s r v).fqAcked = s.fqAcked := rfl
@[simp] theorem wr_fqHeld (r : Reg) (v : Word) : (wr s r v).fqHeld = s.fqHeld := rfl
@[simp] theorem wr_fqWait (r : Reg) (v : Word) : (wr s r v).fqWait = s.fqWait := rfl
@[simp] theorem wr_ctxHandle (r : Reg) (v : Word) : (wr s r v).ctxHandle = s.ctxHandle := rfl
@[simp] theorem wr_ctxSlots (r : Reg) (v : Word) : (wr s r v).ctxSlots = s.ctxSlots := rfl
@[simp] theorem wr_fns (r : Reg) (v : Word) : (wr s r v).fns = s.fns := rfl
@[simp] theorem wr_stage (r : Reg) (v : Word) : (wr s r v).stage = s.stage := rfl
@[simp] theorem wr_cause (r : Reg) (v : Word) : (wr s r v).cause = s.cause := rfl
@[simp] theorem wr_bank (r : Reg) (v : Word) : (wr s r v).bank = s.bank := rfl
@[simp] theorem wr_next (r : Reg) (v : Word) : (wr s r v).next = s.next := rfl
@[simp] theorem wr_floor (r : Reg) (v : Word) : (wr s r v).floor = s.floor := rfl
@[simp] theorem wr_banks (r : Reg) (v : Word) : (wr s r v).banks = s.banks := rfl
@[simp] theorem wr_newImage (r : Reg) (v : Word) : (wr s r v).newImage = s.newImage := rfl
@[simp] theorem wr_mrs (r : Reg) (v : Word) : (wr s r v).mrs = s.mrs := rfl
@[simp] theorem wr_qcount (r : Reg) (v : Word) : (wr s r v).qcount = s.qcount := rfl
@[simp] theorem wr_mbNext (r : Reg) (v : Word) : (wr s r v).mbNext = s.mbNext := rfl
@[simp] theorem wr_cap (r : Reg) (v : Word) : (wr s r v).cap = s.cap := rfl
@[simp] theorem wr_powered (r : Reg) (v : Word) : (wr s r v).powered = s.powered := rfl
@[simp] theorem wr_order4T (r : Reg) (v : Word) : (wr s r v).order4T = s.order4T := rfl
@[simp] theorem wr_deadPairs (r : Reg) (v : Word) : (wr s r v).deadPairs = s.deadPairs := rfl
@[simp] theorem wr_deadArrays (r : Reg) (v : Word) : (wr s r v).deadArrays = s.deadArrays := rfl
@[simp] theorem wr_bonds (r : Reg) (v : Word) : (wr s r v).bonds = s.bonds := rfl
@[simp] theorem wr_own (r : Reg) (v : Word) : (wr s r v).own = s.own := rfl
@[simp] theorem wr_modNum (r : Reg) (v : Word) : (wr s r v).modNum = s.modNum := rfl
@[simp] theorem wr_tickSet (r : Reg) (v : Word) : (wr s r v).tickSet = s.tickSet := rfl
@[simp] theorem wr_modCount (r : Reg) (v : Word) : (wr s r v).modCount = s.modCount := rfl
@[simp] theorem wr_ports (r : Reg) (v : Word) : (wr s r v).ports = s.ports := rfl
@[simp] theorem wr_reqs (r : Reg) (v : Word) : (wr s r v).reqs = s.reqs := rfl
@[simp] theorem wr_nreq (r : Reg) (v : Word) : (wr s r v).nreq = s.nreq := rfl
@[simp] theorem wr_shoot (r : Reg) (v : Word) : (wr s r v).shoot = s.shoot := rfl
@[simp] theorem wr_ctls (r : Reg) (v : Word) : (wr s r v).ctls = s.ctls := rfl
@[simp] theorem wr_inval (r : Reg) (v : Word) : (wr s r v).inval = s.inval := rfl
@[simp] theorem wr_asyCur (r : Reg) (v : Word) : (wr s r v).asyCur = s.asyCur := rfl
@[simp] theorem wr_hostOut (r : Reg) (v : Word) : (wr s r v).hostOut = s.hostOut := rfl
@[simp] theorem wr_irqOut (r : Reg) (v : Word) : (wr s r v).irqOut = s.irqOut := rfl

/-! ## `wrP` -/

@[simp] theorem wrP_cur (p : Reg) (b : Bool) : (wrP s p b).cur = s.cur := rfl
@[simp] theorem wrP_sched (p : Reg) (b : Bool) : (wrP s p b).sched = s.sched := rfl
@[simp] theorem wrP_free (p : Reg) (b : Bool) : (wrP s p b).free = s.free := rfl
@[simp] theorem wrP_tick (p : Reg) (b : Bool) : (wrP s p b).tick = s.tick := rfl
@[simp] theorem wrP_teams (p : Reg) (b : Bool) : (wrP s p b).teams = s.teams := rfl
@[simp] theorem wrP_clusters (p : Reg) (b : Bool) : (wrP s p b).clusters = s.clusters := rfl
@[simp] theorem wrP_mem (p : Reg) (b : Bool) : (wrP s p b).mem = s.mem := rfl
@[simp] theorem wrP_lc (p : Reg) (b : Bool) : (wrP s p b).lc = s.lc := rfl
@[simp] theorem wrP_bad (p : Reg) (b : Bool) : (wrP s p b).bad = s.bad := rfl
@[simp] theorem wrP_ht (p : Reg) (b : Bool) : (wrP s p b).ht = s.ht := rfl
@[simp] theorem wrP_wins (p : Reg) (b : Bool) : (wrP s p b).wins = s.wins := rfl
@[simp] theorem wrP_queues (p : Reg) (b : Bool) : (wrP s p b).queues = s.queues := rfl
@[simp] theorem wrP_rr (p : Reg) (b : Bool) : (wrP s p b).rr = s.rr := rfl
@[simp] theorem wrP_kept (p : Reg) (b : Bool) : (wrP s p b).kept = s.kept := rfl
@[simp] theorem wrP_order (p : Reg) (b : Bool) : (wrP s p b).order = s.order := rfl
@[simp] theorem wrP_lode (p : Reg) (b : Bool) : (wrP s p b).lode = s.lode := rfl
@[simp] theorem wrP_regions (p : Reg) (b : Bool) : (wrP s p b).regions = s.regions := rfl
@[simp] theorem wrP_blocks (p : Reg) (b : Bool) : (wrP s p b).blocks = s.blocks := rfl
@[simp] theorem wrP_spares (p : Reg) (b : Bool) : (wrP s p b).spares = s.spares := rfl
@[simp] theorem wrP_corr (p : Reg) (b : Bool) : (wrP s p b).corr = s.corr := rfl
@[simp] theorem wrP_aged (p : Reg) (b : Bool) : (wrP s p b).aged = s.aged := rfl
@[simp] theorem wrP_scanned (p : Reg) (b : Bool) : (wrP s p b).scanned = s.scanned := rfl
@[simp] theorem wrP_nissue (p : Reg) (b : Bool) : (wrP s p b).nissue = s.nissue := rfl
@[simp] theorem wrP_ltlb (p : Reg) (b : Bool) : (wrP s p b).ltlb = s.ltlb := rfl
@[simp] theorem wrP_steals (p : Reg) (b : Bool) : (wrP s p b).steals = s.steals := rfl
@[simp] theorem wrP_deadGroups (p : Reg) (b : Bool) : (wrP s p b).deadGroups = s.deadGroups := rfl
@[simp] theorem wrP_reloads (p : Reg) (b : Bool) : (wrP s p b).reloads = s.reloads := rfl
@[simp] theorem wrP_asys (p : Reg) (b : Bool) : (wrP s p b).asys = s.asys := rfl
@[simp] theorem wrP_rdls (p : Reg) (b : Bool) : (wrP s p b).rdls = s.rdls := rfl
@[simp] theorem wrP_parts (p : Reg) (b : Bool) : (wrP s p b).parts = s.parts := rfl
@[simp] theorem wrP_fqBase (p : Reg) (b : Bool) : (wrP s p b).fqBase = s.fqBase := rfl
@[simp] theorem wrP_fqLog (p : Reg) (b : Bool) : (wrP s p b).fqLog = s.fqLog := rfl
@[simp] theorem wrP_fqLost (p : Reg) (b : Bool) : (wrP s p b).fqLost = s.fqLost := rfl
@[simp] theorem wrP_fqWritten (p : Reg) (b : Bool) : (wrP s p b).fqWritten = s.fqWritten := rfl
@[simp] theorem wrP_fqAcked (p : Reg) (b : Bool) : (wrP s p b).fqAcked = s.fqAcked := rfl
@[simp] theorem wrP_fqHeld (p : Reg) (b : Bool) : (wrP s p b).fqHeld = s.fqHeld := rfl
@[simp] theorem wrP_fqWait (p : Reg) (b : Bool) : (wrP s p b).fqWait = s.fqWait := rfl
@[simp] theorem wrP_ctxHandle (p : Reg) (b : Bool) : (wrP s p b).ctxHandle = s.ctxHandle := rfl
@[simp] theorem wrP_ctxSlots (p : Reg) (b : Bool) : (wrP s p b).ctxSlots = s.ctxSlots := rfl
@[simp] theorem wrP_fns (p : Reg) (b : Bool) : (wrP s p b).fns = s.fns := rfl
@[simp] theorem wrP_stage (p : Reg) (b : Bool) : (wrP s p b).stage = s.stage := rfl
@[simp] theorem wrP_cause (p : Reg) (b : Bool) : (wrP s p b).cause = s.cause := rfl
@[simp] theorem wrP_bank (p : Reg) (b : Bool) : (wrP s p b).bank = s.bank := rfl
@[simp] theorem wrP_next (p : Reg) (b : Bool) : (wrP s p b).next = s.next := rfl
@[simp] theorem wrP_floor (p : Reg) (b : Bool) : (wrP s p b).floor = s.floor := rfl
@[simp] theorem wrP_banks (p : Reg) (b : Bool) : (wrP s p b).banks = s.banks := rfl
@[simp] theorem wrP_newImage (p : Reg) (b : Bool) : (wrP s p b).newImage = s.newImage := rfl
@[simp] theorem wrP_mrs (p : Reg) (b : Bool) : (wrP s p b).mrs = s.mrs := rfl
@[simp] theorem wrP_qcount (p : Reg) (b : Bool) : (wrP s p b).qcount = s.qcount := rfl
@[simp] theorem wrP_mbNext (p : Reg) (b : Bool) : (wrP s p b).mbNext = s.mbNext := rfl
@[simp] theorem wrP_cap (p : Reg) (b : Bool) : (wrP s p b).cap = s.cap := rfl
@[simp] theorem wrP_powered (p : Reg) (b : Bool) : (wrP s p b).powered = s.powered := rfl
@[simp] theorem wrP_order4T (p : Reg) (b : Bool) : (wrP s p b).order4T = s.order4T := rfl
@[simp] theorem wrP_deadPairs (p : Reg) (b : Bool) : (wrP s p b).deadPairs = s.deadPairs := rfl
@[simp] theorem wrP_deadArrays (p : Reg) (b : Bool) : (wrP s p b).deadArrays = s.deadArrays := rfl
@[simp] theorem wrP_bonds (p : Reg) (b : Bool) : (wrP s p b).bonds = s.bonds := rfl
@[simp] theorem wrP_own (p : Reg) (b : Bool) : (wrP s p b).own = s.own := rfl
@[simp] theorem wrP_modNum (p : Reg) (b : Bool) : (wrP s p b).modNum = s.modNum := rfl
@[simp] theorem wrP_tickSet (p : Reg) (b : Bool) : (wrP s p b).tickSet = s.tickSet := rfl
@[simp] theorem wrP_modCount (p : Reg) (b : Bool) : (wrP s p b).modCount = s.modCount := rfl
@[simp] theorem wrP_ports (p : Reg) (b : Bool) : (wrP s p b).ports = s.ports := rfl
@[simp] theorem wrP_reqs (p : Reg) (b : Bool) : (wrP s p b).reqs = s.reqs := rfl
@[simp] theorem wrP_nreq (p : Reg) (b : Bool) : (wrP s p b).nreq = s.nreq := rfl
@[simp] theorem wrP_shoot (p : Reg) (b : Bool) : (wrP s p b).shoot = s.shoot := rfl
@[simp] theorem wrP_ctls (p : Reg) (b : Bool) : (wrP s p b).ctls = s.ctls := rfl
@[simp] theorem wrP_inval (p : Reg) (b : Bool) : (wrP s p b).inval = s.inval := rfl
@[simp] theorem wrP_asyCur (p : Reg) (b : Bool) : (wrP s p b).asyCur = s.asyCur := rfl
@[simp] theorem wrP_hostOut (p : Reg) (b : Bool) : (wrP s p b).hostOut = s.hostOut := rfl
@[simp] theorem wrP_irqOut (p : Reg) (b : Bool) : (wrP s p b).irqOut = s.irqOut := rfl

/-! ## `setTeam` -/

@[simp] theorem setTeam_cur (n : Nat) (x : Team) : (setTeam s n x).cur = s.cur := rfl
@[simp] theorem setTeam_sched (n : Nat) (x : Team) : (setTeam s n x).sched = s.sched := rfl
@[simp] theorem setTeam_free (n : Nat) (x : Team) : (setTeam s n x).free = s.free := rfl
@[simp] theorem setTeam_tick (n : Nat) (x : Team) : (setTeam s n x).tick = s.tick := rfl
@[simp] theorem setTeam_cores (n : Nat) (x : Team) : (setTeam s n x).cores = s.cores := rfl
@[simp] theorem setTeam_clusters (n : Nat) (x : Team) : (setTeam s n x).clusters = s.clusters := rfl
@[simp] theorem setTeam_mem (n : Nat) (x : Team) : (setTeam s n x).mem = s.mem := rfl
@[simp] theorem setTeam_lc (n : Nat) (x : Team) : (setTeam s n x).lc = s.lc := rfl
@[simp] theorem setTeam_bad (n : Nat) (x : Team) : (setTeam s n x).bad = s.bad := rfl
@[simp] theorem setTeam_ht (n : Nat) (x : Team) : (setTeam s n x).ht = s.ht := rfl
@[simp] theorem setTeam_wins (n : Nat) (x : Team) : (setTeam s n x).wins = s.wins := rfl
@[simp] theorem setTeam_queues (n : Nat) (x : Team) : (setTeam s n x).queues = s.queues := rfl
@[simp] theorem setTeam_rr (n : Nat) (x : Team) : (setTeam s n x).rr = s.rr := rfl
@[simp] theorem setTeam_kept (n : Nat) (x : Team) : (setTeam s n x).kept = s.kept := rfl
@[simp] theorem setTeam_order (n : Nat) (x : Team) : (setTeam s n x).order = s.order := rfl
@[simp] theorem setTeam_lode (n : Nat) (x : Team) : (setTeam s n x).lode = s.lode := rfl
@[simp] theorem setTeam_regions (n : Nat) (x : Team) : (setTeam s n x).regions = s.regions := rfl
@[simp] theorem setTeam_blocks (n : Nat) (x : Team) : (setTeam s n x).blocks = s.blocks := rfl
@[simp] theorem setTeam_spares (n : Nat) (x : Team) : (setTeam s n x).spares = s.spares := rfl
@[simp] theorem setTeam_corr (n : Nat) (x : Team) : (setTeam s n x).corr = s.corr := rfl
@[simp] theorem setTeam_aged (n : Nat) (x : Team) : (setTeam s n x).aged = s.aged := rfl
@[simp] theorem setTeam_scanned (n : Nat) (x : Team) : (setTeam s n x).scanned = s.scanned := rfl
@[simp] theorem setTeam_nissue (n : Nat) (x : Team) : (setTeam s n x).nissue = s.nissue := rfl
@[simp] theorem setTeam_ltlb (n : Nat) (x : Team) : (setTeam s n x).ltlb = s.ltlb := rfl
@[simp] theorem setTeam_steals (n : Nat) (x : Team) : (setTeam s n x).steals = s.steals := rfl
@[simp] theorem setTeam_deadGroups (n : Nat) (x : Team) : (setTeam s n x).deadGroups = s.deadGroups := rfl
@[simp] theorem setTeam_reloads (n : Nat) (x : Team) : (setTeam s n x).reloads = s.reloads := rfl
@[simp] theorem setTeam_asys (n : Nat) (x : Team) : (setTeam s n x).asys = s.asys := rfl
@[simp] theorem setTeam_rdls (n : Nat) (x : Team) : (setTeam s n x).rdls = s.rdls := rfl
@[simp] theorem setTeam_parts (n : Nat) (x : Team) : (setTeam s n x).parts = s.parts := rfl
@[simp] theorem setTeam_fqBase (n : Nat) (x : Team) : (setTeam s n x).fqBase = s.fqBase := rfl
@[simp] theorem setTeam_fqLog (n : Nat) (x : Team) : (setTeam s n x).fqLog = s.fqLog := rfl
@[simp] theorem setTeam_fqLost (n : Nat) (x : Team) : (setTeam s n x).fqLost = s.fqLost := rfl
@[simp] theorem setTeam_fqWritten (n : Nat) (x : Team) : (setTeam s n x).fqWritten = s.fqWritten := rfl
@[simp] theorem setTeam_fqAcked (n : Nat) (x : Team) : (setTeam s n x).fqAcked = s.fqAcked := rfl
@[simp] theorem setTeam_fqHeld (n : Nat) (x : Team) : (setTeam s n x).fqHeld = s.fqHeld := rfl
@[simp] theorem setTeam_fqWait (n : Nat) (x : Team) : (setTeam s n x).fqWait = s.fqWait := rfl
@[simp] theorem setTeam_ctxHandle (n : Nat) (x : Team) : (setTeam s n x).ctxHandle = s.ctxHandle := rfl
@[simp] theorem setTeam_ctxSlots (n : Nat) (x : Team) : (setTeam s n x).ctxSlots = s.ctxSlots := rfl
@[simp] theorem setTeam_fns (n : Nat) (x : Team) : (setTeam s n x).fns = s.fns := rfl
@[simp] theorem setTeam_stage (n : Nat) (x : Team) : (setTeam s n x).stage = s.stage := rfl
@[simp] theorem setTeam_cause (n : Nat) (x : Team) : (setTeam s n x).cause = s.cause := rfl
@[simp] theorem setTeam_bank (n : Nat) (x : Team) : (setTeam s n x).bank = s.bank := rfl
@[simp] theorem setTeam_next (n : Nat) (x : Team) : (setTeam s n x).next = s.next := rfl
@[simp] theorem setTeam_floor (n : Nat) (x : Team) : (setTeam s n x).floor = s.floor := rfl
@[simp] theorem setTeam_banks (n : Nat) (x : Team) : (setTeam s n x).banks = s.banks := rfl
@[simp] theorem setTeam_newImage (n : Nat) (x : Team) : (setTeam s n x).newImage = s.newImage := rfl
@[simp] theorem setTeam_mrs (n : Nat) (x : Team) : (setTeam s n x).mrs = s.mrs := rfl
@[simp] theorem setTeam_qcount (n : Nat) (x : Team) : (setTeam s n x).qcount = s.qcount := rfl
@[simp] theorem setTeam_mbNext (n : Nat) (x : Team) : (setTeam s n x).mbNext = s.mbNext := rfl
@[simp] theorem setTeam_cap (n : Nat) (x : Team) : (setTeam s n x).cap = s.cap := rfl
@[simp] theorem setTeam_powered (n : Nat) (x : Team) : (setTeam s n x).powered = s.powered := rfl
@[simp] theorem setTeam_order4T (n : Nat) (x : Team) : (setTeam s n x).order4T = s.order4T := rfl
@[simp] theorem setTeam_deadPairs (n : Nat) (x : Team) : (setTeam s n x).deadPairs = s.deadPairs := rfl
@[simp] theorem setTeam_deadArrays (n : Nat) (x : Team) : (setTeam s n x).deadArrays = s.deadArrays := rfl
@[simp] theorem setTeam_bonds (n : Nat) (x : Team) : (setTeam s n x).bonds = s.bonds := rfl
@[simp] theorem setTeam_own (n : Nat) (x : Team) : (setTeam s n x).own = s.own := rfl
@[simp] theorem setTeam_modNum (n : Nat) (x : Team) : (setTeam s n x).modNum = s.modNum := rfl
@[simp] theorem setTeam_tickSet (n : Nat) (x : Team) : (setTeam s n x).tickSet = s.tickSet := rfl
@[simp] theorem setTeam_modCount (n : Nat) (x : Team) : (setTeam s n x).modCount = s.modCount := rfl
@[simp] theorem setTeam_ports (n : Nat) (x : Team) : (setTeam s n x).ports = s.ports := rfl
@[simp] theorem setTeam_reqs (n : Nat) (x : Team) : (setTeam s n x).reqs = s.reqs := rfl
@[simp] theorem setTeam_nreq (n : Nat) (x : Team) : (setTeam s n x).nreq = s.nreq := rfl
@[simp] theorem setTeam_shoot (n : Nat) (x : Team) : (setTeam s n x).shoot = s.shoot := rfl
@[simp] theorem setTeam_ctls (n : Nat) (x : Team) : (setTeam s n x).ctls = s.ctls := rfl
@[simp] theorem setTeam_inval (n : Nat) (x : Team) : (setTeam s n x).inval = s.inval := rfl
@[simp] theorem setTeam_asyCur (n : Nat) (x : Team) : (setTeam s n x).asyCur = s.asyCur := rfl
@[simp] theorem setTeam_hostOut (n : Nat) (x : Team) : (setTeam s n x).hostOut = s.hostOut := rfl
@[simp] theorem setTeam_irqOut (n : Nat) (x : Team) : (setTeam s n x).irqOut = s.irqOut := rfl

/-! ## `upTeam` -/

@[simp] theorem upTeam_cur (n : Nat) (f : Team → Team) : (upTeam s n f).cur = s.cur := rfl
@[simp] theorem upTeam_sched (n : Nat) (f : Team → Team) : (upTeam s n f).sched = s.sched := rfl
@[simp] theorem upTeam_free (n : Nat) (f : Team → Team) : (upTeam s n f).free = s.free := rfl
@[simp] theorem upTeam_tick (n : Nat) (f : Team → Team) : (upTeam s n f).tick = s.tick := rfl
@[simp] theorem upTeam_cores (n : Nat) (f : Team → Team) : (upTeam s n f).cores = s.cores := rfl
@[simp] theorem upTeam_clusters (n : Nat) (f : Team → Team) : (upTeam s n f).clusters = s.clusters := rfl
@[simp] theorem upTeam_mem (n : Nat) (f : Team → Team) : (upTeam s n f).mem = s.mem := rfl
@[simp] theorem upTeam_lc (n : Nat) (f : Team → Team) : (upTeam s n f).lc = s.lc := rfl
@[simp] theorem upTeam_bad (n : Nat) (f : Team → Team) : (upTeam s n f).bad = s.bad := rfl
@[simp] theorem upTeam_ht (n : Nat) (f : Team → Team) : (upTeam s n f).ht = s.ht := rfl
@[simp] theorem upTeam_wins (n : Nat) (f : Team → Team) : (upTeam s n f).wins = s.wins := rfl
@[simp] theorem upTeam_queues (n : Nat) (f : Team → Team) : (upTeam s n f).queues = s.queues := rfl
@[simp] theorem upTeam_rr (n : Nat) (f : Team → Team) : (upTeam s n f).rr = s.rr := rfl
@[simp] theorem upTeam_kept (n : Nat) (f : Team → Team) : (upTeam s n f).kept = s.kept := rfl
@[simp] theorem upTeam_order (n : Nat) (f : Team → Team) : (upTeam s n f).order = s.order := rfl
@[simp] theorem upTeam_lode (n : Nat) (f : Team → Team) : (upTeam s n f).lode = s.lode := rfl
@[simp] theorem upTeam_regions (n : Nat) (f : Team → Team) : (upTeam s n f).regions = s.regions := rfl
@[simp] theorem upTeam_blocks (n : Nat) (f : Team → Team) : (upTeam s n f).blocks = s.blocks := rfl
@[simp] theorem upTeam_spares (n : Nat) (f : Team → Team) : (upTeam s n f).spares = s.spares := rfl
@[simp] theorem upTeam_corr (n : Nat) (f : Team → Team) : (upTeam s n f).corr = s.corr := rfl
@[simp] theorem upTeam_aged (n : Nat) (f : Team → Team) : (upTeam s n f).aged = s.aged := rfl
@[simp] theorem upTeam_scanned (n : Nat) (f : Team → Team) : (upTeam s n f).scanned = s.scanned := rfl
@[simp] theorem upTeam_nissue (n : Nat) (f : Team → Team) : (upTeam s n f).nissue = s.nissue := rfl
@[simp] theorem upTeam_ltlb (n : Nat) (f : Team → Team) : (upTeam s n f).ltlb = s.ltlb := rfl
@[simp] theorem upTeam_steals (n : Nat) (f : Team → Team) : (upTeam s n f).steals = s.steals := rfl
@[simp] theorem upTeam_deadGroups (n : Nat) (f : Team → Team) : (upTeam s n f).deadGroups = s.deadGroups := rfl
@[simp] theorem upTeam_reloads (n : Nat) (f : Team → Team) : (upTeam s n f).reloads = s.reloads := rfl
@[simp] theorem upTeam_asys (n : Nat) (f : Team → Team) : (upTeam s n f).asys = s.asys := rfl
@[simp] theorem upTeam_rdls (n : Nat) (f : Team → Team) : (upTeam s n f).rdls = s.rdls := rfl
@[simp] theorem upTeam_parts (n : Nat) (f : Team → Team) : (upTeam s n f).parts = s.parts := rfl
@[simp] theorem upTeam_fqBase (n : Nat) (f : Team → Team) : (upTeam s n f).fqBase = s.fqBase := rfl
@[simp] theorem upTeam_fqLog (n : Nat) (f : Team → Team) : (upTeam s n f).fqLog = s.fqLog := rfl
@[simp] theorem upTeam_fqLost (n : Nat) (f : Team → Team) : (upTeam s n f).fqLost = s.fqLost := rfl
@[simp] theorem upTeam_fqWritten (n : Nat) (f : Team → Team) : (upTeam s n f).fqWritten = s.fqWritten := rfl
@[simp] theorem upTeam_fqAcked (n : Nat) (f : Team → Team) : (upTeam s n f).fqAcked = s.fqAcked := rfl
@[simp] theorem upTeam_fqHeld (n : Nat) (f : Team → Team) : (upTeam s n f).fqHeld = s.fqHeld := rfl
@[simp] theorem upTeam_fqWait (n : Nat) (f : Team → Team) : (upTeam s n f).fqWait = s.fqWait := rfl
@[simp] theorem upTeam_ctxHandle (n : Nat) (f : Team → Team) : (upTeam s n f).ctxHandle = s.ctxHandle := rfl
@[simp] theorem upTeam_ctxSlots (n : Nat) (f : Team → Team) : (upTeam s n f).ctxSlots = s.ctxSlots := rfl
@[simp] theorem upTeam_fns (n : Nat) (f : Team → Team) : (upTeam s n f).fns = s.fns := rfl
@[simp] theorem upTeam_stage (n : Nat) (f : Team → Team) : (upTeam s n f).stage = s.stage := rfl
@[simp] theorem upTeam_cause (n : Nat) (f : Team → Team) : (upTeam s n f).cause = s.cause := rfl
@[simp] theorem upTeam_bank (n : Nat) (f : Team → Team) : (upTeam s n f).bank = s.bank := rfl
@[simp] theorem upTeam_next (n : Nat) (f : Team → Team) : (upTeam s n f).next = s.next := rfl
@[simp] theorem upTeam_floor (n : Nat) (f : Team → Team) : (upTeam s n f).floor = s.floor := rfl
@[simp] theorem upTeam_banks (n : Nat) (f : Team → Team) : (upTeam s n f).banks = s.banks := rfl
@[simp] theorem upTeam_newImage (n : Nat) (f : Team → Team) : (upTeam s n f).newImage = s.newImage := rfl
@[simp] theorem upTeam_mrs (n : Nat) (f : Team → Team) : (upTeam s n f).mrs = s.mrs := rfl
@[simp] theorem upTeam_qcount (n : Nat) (f : Team → Team) : (upTeam s n f).qcount = s.qcount := rfl
@[simp] theorem upTeam_mbNext (n : Nat) (f : Team → Team) : (upTeam s n f).mbNext = s.mbNext := rfl
@[simp] theorem upTeam_cap (n : Nat) (f : Team → Team) : (upTeam s n f).cap = s.cap := rfl
@[simp] theorem upTeam_powered (n : Nat) (f : Team → Team) : (upTeam s n f).powered = s.powered := rfl
@[simp] theorem upTeam_order4T (n : Nat) (f : Team → Team) : (upTeam s n f).order4T = s.order4T := rfl
@[simp] theorem upTeam_deadPairs (n : Nat) (f : Team → Team) : (upTeam s n f).deadPairs = s.deadPairs := rfl
@[simp] theorem upTeam_deadArrays (n : Nat) (f : Team → Team) : (upTeam s n f).deadArrays = s.deadArrays := rfl
@[simp] theorem upTeam_bonds (n : Nat) (f : Team → Team) : (upTeam s n f).bonds = s.bonds := rfl
@[simp] theorem upTeam_own (n : Nat) (f : Team → Team) : (upTeam s n f).own = s.own := rfl
@[simp] theorem upTeam_modNum (n : Nat) (f : Team → Team) : (upTeam s n f).modNum = s.modNum := rfl
@[simp] theorem upTeam_tickSet (n : Nat) (f : Team → Team) : (upTeam s n f).tickSet = s.tickSet := rfl
@[simp] theorem upTeam_modCount (n : Nat) (f : Team → Team) : (upTeam s n f).modCount = s.modCount := rfl
@[simp] theorem upTeam_ports (n : Nat) (f : Team → Team) : (upTeam s n f).ports = s.ports := rfl
@[simp] theorem upTeam_reqs (n : Nat) (f : Team → Team) : (upTeam s n f).reqs = s.reqs := rfl
@[simp] theorem upTeam_nreq (n : Nat) (f : Team → Team) : (upTeam s n f).nreq = s.nreq := rfl
@[simp] theorem upTeam_shoot (n : Nat) (f : Team → Team) : (upTeam s n f).shoot = s.shoot := rfl
@[simp] theorem upTeam_ctls (n : Nat) (f : Team → Team) : (upTeam s n f).ctls = s.ctls := rfl
@[simp] theorem upTeam_inval (n : Nat) (f : Team → Team) : (upTeam s n f).inval = s.inval := rfl
@[simp] theorem upTeam_asyCur (n : Nat) (f : Team → Team) : (upTeam s n f).asyCur = s.asyCur := rfl
@[simp] theorem upTeam_hostOut (n : Nat) (f : Team → Team) : (upTeam s n f).hostOut = s.hostOut := rfl
@[simp] theorem upTeam_irqOut (n : Nat) (f : Team → Team) : (upTeam s n f).irqOut = s.irqOut := rfl

/-! ## `upCluster` -/

@[simp] theorem upCluster_cur (n : Nat) (f : Cluster → Cluster) : (upCluster s n f).cur = s.cur := rfl
@[simp] theorem upCluster_sched (n : Nat) (f : Cluster → Cluster) : (upCluster s n f).sched = s.sched := rfl
@[simp] theorem upCluster_free (n : Nat) (f : Cluster → Cluster) : (upCluster s n f).free = s.free := rfl
@[simp] theorem upCluster_tick (n : Nat) (f : Cluster → Cluster) : (upCluster s n f).tick = s.tick := rfl
@[simp] theorem upCluster_cores (n : Nat) (f : Cluster → Cluster) : (upCluster s n f).cores = s.cores := rfl
@[simp] theorem upCluster_teams (n : Nat) (f : Cluster → Cluster) : (upCluster s n f).teams = s.teams := rfl
@[simp] theorem upCluster_mem (n : Nat) (f : Cluster → Cluster) : (upCluster s n f).mem = s.mem := rfl
@[simp] theorem upCluster_lc (n : Nat) (f : Cluster → Cluster) : (upCluster s n f).lc = s.lc := rfl
@[simp] theorem upCluster_bad (n : Nat) (f : Cluster → Cluster) : (upCluster s n f).bad = s.bad := rfl
@[simp] theorem upCluster_ht (n : Nat) (f : Cluster → Cluster) : (upCluster s n f).ht = s.ht := rfl
@[simp] theorem upCluster_wins (n : Nat) (f : Cluster → Cluster) : (upCluster s n f).wins = s.wins := rfl
@[simp] theorem upCluster_queues (n : Nat) (f : Cluster → Cluster) : (upCluster s n f).queues = s.queues := rfl
@[simp] theorem upCluster_rr (n : Nat) (f : Cluster → Cluster) : (upCluster s n f).rr = s.rr := rfl
@[simp] theorem upCluster_kept (n : Nat) (f : Cluster → Cluster) : (upCluster s n f).kept = s.kept := rfl
@[simp] theorem upCluster_order (n : Nat) (f : Cluster → Cluster) : (upCluster s n f).order = s.order := rfl
@[simp] theorem upCluster_lode (n : Nat) (f : Cluster → Cluster) : (upCluster s n f).lode = s.lode := rfl
@[simp] theorem upCluster_regions (n : Nat) (f : Cluster → Cluster) : (upCluster s n f).regions = s.regions := rfl
@[simp] theorem upCluster_blocks (n : Nat) (f : Cluster → Cluster) : (upCluster s n f).blocks = s.blocks := rfl
@[simp] theorem upCluster_spares (n : Nat) (f : Cluster → Cluster) : (upCluster s n f).spares = s.spares := rfl
@[simp] theorem upCluster_corr (n : Nat) (f : Cluster → Cluster) : (upCluster s n f).corr = s.corr := rfl
@[simp] theorem upCluster_aged (n : Nat) (f : Cluster → Cluster) : (upCluster s n f).aged = s.aged := rfl
@[simp] theorem upCluster_scanned (n : Nat) (f : Cluster → Cluster) : (upCluster s n f).scanned = s.scanned := rfl
@[simp] theorem upCluster_nissue (n : Nat) (f : Cluster → Cluster) : (upCluster s n f).nissue = s.nissue := rfl
@[simp] theorem upCluster_ltlb (n : Nat) (f : Cluster → Cluster) : (upCluster s n f).ltlb = s.ltlb := rfl
@[simp] theorem upCluster_steals (n : Nat) (f : Cluster → Cluster) : (upCluster s n f).steals = s.steals := rfl
@[simp] theorem upCluster_deadGroups (n : Nat) (f : Cluster → Cluster) : (upCluster s n f).deadGroups = s.deadGroups := rfl
@[simp] theorem upCluster_reloads (n : Nat) (f : Cluster → Cluster) : (upCluster s n f).reloads = s.reloads := rfl
@[simp] theorem upCluster_asys (n : Nat) (f : Cluster → Cluster) : (upCluster s n f).asys = s.asys := rfl
@[simp] theorem upCluster_rdls (n : Nat) (f : Cluster → Cluster) : (upCluster s n f).rdls = s.rdls := rfl
@[simp] theorem upCluster_parts (n : Nat) (f : Cluster → Cluster) : (upCluster s n f).parts = s.parts := rfl
@[simp] theorem upCluster_fqBase (n : Nat) (f : Cluster → Cluster) : (upCluster s n f).fqBase = s.fqBase := rfl
@[simp] theorem upCluster_fqLog (n : Nat) (f : Cluster → Cluster) : (upCluster s n f).fqLog = s.fqLog := rfl
@[simp] theorem upCluster_fqLost (n : Nat) (f : Cluster → Cluster) : (upCluster s n f).fqLost = s.fqLost := rfl
@[simp] theorem upCluster_fqWritten (n : Nat) (f : Cluster → Cluster) : (upCluster s n f).fqWritten = s.fqWritten := rfl
@[simp] theorem upCluster_fqAcked (n : Nat) (f : Cluster → Cluster) : (upCluster s n f).fqAcked = s.fqAcked := rfl
@[simp] theorem upCluster_fqHeld (n : Nat) (f : Cluster → Cluster) : (upCluster s n f).fqHeld = s.fqHeld := rfl
@[simp] theorem upCluster_fqWait (n : Nat) (f : Cluster → Cluster) : (upCluster s n f).fqWait = s.fqWait := rfl
@[simp] theorem upCluster_ctxHandle (n : Nat) (f : Cluster → Cluster) : (upCluster s n f).ctxHandle = s.ctxHandle := rfl
@[simp] theorem upCluster_ctxSlots (n : Nat) (f : Cluster → Cluster) : (upCluster s n f).ctxSlots = s.ctxSlots := rfl
@[simp] theorem upCluster_fns (n : Nat) (f : Cluster → Cluster) : (upCluster s n f).fns = s.fns := rfl
@[simp] theorem upCluster_stage (n : Nat) (f : Cluster → Cluster) : (upCluster s n f).stage = s.stage := rfl
@[simp] theorem upCluster_cause (n : Nat) (f : Cluster → Cluster) : (upCluster s n f).cause = s.cause := rfl
@[simp] theorem upCluster_bank (n : Nat) (f : Cluster → Cluster) : (upCluster s n f).bank = s.bank := rfl
@[simp] theorem upCluster_next (n : Nat) (f : Cluster → Cluster) : (upCluster s n f).next = s.next := rfl
@[simp] theorem upCluster_floor (n : Nat) (f : Cluster → Cluster) : (upCluster s n f).floor = s.floor := rfl
@[simp] theorem upCluster_banks (n : Nat) (f : Cluster → Cluster) : (upCluster s n f).banks = s.banks := rfl
@[simp] theorem upCluster_newImage (n : Nat) (f : Cluster → Cluster) : (upCluster s n f).newImage = s.newImage := rfl
@[simp] theorem upCluster_mrs (n : Nat) (f : Cluster → Cluster) : (upCluster s n f).mrs = s.mrs := rfl
@[simp] theorem upCluster_qcount (n : Nat) (f : Cluster → Cluster) : (upCluster s n f).qcount = s.qcount := rfl
@[simp] theorem upCluster_mbNext (n : Nat) (f : Cluster → Cluster) : (upCluster s n f).mbNext = s.mbNext := rfl
@[simp] theorem upCluster_cap (n : Nat) (f : Cluster → Cluster) : (upCluster s n f).cap = s.cap := rfl
@[simp] theorem upCluster_powered (n : Nat) (f : Cluster → Cluster) : (upCluster s n f).powered = s.powered := rfl
@[simp] theorem upCluster_order4T (n : Nat) (f : Cluster → Cluster) : (upCluster s n f).order4T = s.order4T := rfl
@[simp] theorem upCluster_deadPairs (n : Nat) (f : Cluster → Cluster) : (upCluster s n f).deadPairs = s.deadPairs := rfl
@[simp] theorem upCluster_deadArrays (n : Nat) (f : Cluster → Cluster) : (upCluster s n f).deadArrays = s.deadArrays := rfl
@[simp] theorem upCluster_bonds (n : Nat) (f : Cluster → Cluster) : (upCluster s n f).bonds = s.bonds := rfl
@[simp] theorem upCluster_own (n : Nat) (f : Cluster → Cluster) : (upCluster s n f).own = s.own := rfl
@[simp] theorem upCluster_modNum (n : Nat) (f : Cluster → Cluster) : (upCluster s n f).modNum = s.modNum := rfl
@[simp] theorem upCluster_tickSet (n : Nat) (f : Cluster → Cluster) : (upCluster s n f).tickSet = s.tickSet := rfl
@[simp] theorem upCluster_modCount (n : Nat) (f : Cluster → Cluster) : (upCluster s n f).modCount = s.modCount := rfl
@[simp] theorem upCluster_ports (n : Nat) (f : Cluster → Cluster) : (upCluster s n f).ports = s.ports := rfl
@[simp] theorem upCluster_reqs (n : Nat) (f : Cluster → Cluster) : (upCluster s n f).reqs = s.reqs := rfl
@[simp] theorem upCluster_nreq (n : Nat) (f : Cluster → Cluster) : (upCluster s n f).nreq = s.nreq := rfl
@[simp] theorem upCluster_shoot (n : Nat) (f : Cluster → Cluster) : (upCluster s n f).shoot = s.shoot := rfl
@[simp] theorem upCluster_ctls (n : Nat) (f : Cluster → Cluster) : (upCluster s n f).ctls = s.ctls := rfl
@[simp] theorem upCluster_inval (n : Nat) (f : Cluster → Cluster) : (upCluster s n f).inval = s.inval := rfl
@[simp] theorem upCluster_asyCur (n : Nat) (f : Cluster → Cluster) : (upCluster s n f).asyCur = s.asyCur := rfl
@[simp] theorem upCluster_hostOut (n : Nat) (f : Cluster → Cluster) : (upCluster s n f).hostOut = s.hostOut := rfl
@[simp] theorem upCluster_irqOut (n : Nat) (f : Cluster → Cluster) : (upCluster s n f).irqOut = s.irqOut := rfl

/-! ## `upQueue` -/

@[simp] theorem upQueue_cur (n : Nat) (f : Queue → Queue) : (upQueue s n f).cur = s.cur := rfl
@[simp] theorem upQueue_sched (n : Nat) (f : Queue → Queue) : (upQueue s n f).sched = s.sched := rfl
@[simp] theorem upQueue_free (n : Nat) (f : Queue → Queue) : (upQueue s n f).free = s.free := rfl
@[simp] theorem upQueue_tick (n : Nat) (f : Queue → Queue) : (upQueue s n f).tick = s.tick := rfl
@[simp] theorem upQueue_cores (n : Nat) (f : Queue → Queue) : (upQueue s n f).cores = s.cores := rfl
@[simp] theorem upQueue_teams (n : Nat) (f : Queue → Queue) : (upQueue s n f).teams = s.teams := rfl
@[simp] theorem upQueue_clusters (n : Nat) (f : Queue → Queue) : (upQueue s n f).clusters = s.clusters := rfl
@[simp] theorem upQueue_mem (n : Nat) (f : Queue → Queue) : (upQueue s n f).mem = s.mem := rfl
@[simp] theorem upQueue_lc (n : Nat) (f : Queue → Queue) : (upQueue s n f).lc = s.lc := rfl
@[simp] theorem upQueue_bad (n : Nat) (f : Queue → Queue) : (upQueue s n f).bad = s.bad := rfl
@[simp] theorem upQueue_ht (n : Nat) (f : Queue → Queue) : (upQueue s n f).ht = s.ht := rfl
@[simp] theorem upQueue_wins (n : Nat) (f : Queue → Queue) : (upQueue s n f).wins = s.wins := rfl
@[simp] theorem upQueue_rr (n : Nat) (f : Queue → Queue) : (upQueue s n f).rr = s.rr := rfl
@[simp] theorem upQueue_kept (n : Nat) (f : Queue → Queue) : (upQueue s n f).kept = s.kept := rfl
@[simp] theorem upQueue_order (n : Nat) (f : Queue → Queue) : (upQueue s n f).order = s.order := rfl
@[simp] theorem upQueue_lode (n : Nat) (f : Queue → Queue) : (upQueue s n f).lode = s.lode := rfl
@[simp] theorem upQueue_regions (n : Nat) (f : Queue → Queue) : (upQueue s n f).regions = s.regions := rfl
@[simp] theorem upQueue_blocks (n : Nat) (f : Queue → Queue) : (upQueue s n f).blocks = s.blocks := rfl
@[simp] theorem upQueue_spares (n : Nat) (f : Queue → Queue) : (upQueue s n f).spares = s.spares := rfl
@[simp] theorem upQueue_corr (n : Nat) (f : Queue → Queue) : (upQueue s n f).corr = s.corr := rfl
@[simp] theorem upQueue_aged (n : Nat) (f : Queue → Queue) : (upQueue s n f).aged = s.aged := rfl
@[simp] theorem upQueue_scanned (n : Nat) (f : Queue → Queue) : (upQueue s n f).scanned = s.scanned := rfl
@[simp] theorem upQueue_nissue (n : Nat) (f : Queue → Queue) : (upQueue s n f).nissue = s.nissue := rfl
@[simp] theorem upQueue_ltlb (n : Nat) (f : Queue → Queue) : (upQueue s n f).ltlb = s.ltlb := rfl
@[simp] theorem upQueue_steals (n : Nat) (f : Queue → Queue) : (upQueue s n f).steals = s.steals := rfl
@[simp] theorem upQueue_deadGroups (n : Nat) (f : Queue → Queue) : (upQueue s n f).deadGroups = s.deadGroups := rfl
@[simp] theorem upQueue_reloads (n : Nat) (f : Queue → Queue) : (upQueue s n f).reloads = s.reloads := rfl
@[simp] theorem upQueue_asys (n : Nat) (f : Queue → Queue) : (upQueue s n f).asys = s.asys := rfl
@[simp] theorem upQueue_rdls (n : Nat) (f : Queue → Queue) : (upQueue s n f).rdls = s.rdls := rfl
@[simp] theorem upQueue_parts (n : Nat) (f : Queue → Queue) : (upQueue s n f).parts = s.parts := rfl
@[simp] theorem upQueue_fqBase (n : Nat) (f : Queue → Queue) : (upQueue s n f).fqBase = s.fqBase := rfl
@[simp] theorem upQueue_fqLog (n : Nat) (f : Queue → Queue) : (upQueue s n f).fqLog = s.fqLog := rfl
@[simp] theorem upQueue_fqLost (n : Nat) (f : Queue → Queue) : (upQueue s n f).fqLost = s.fqLost := rfl
@[simp] theorem upQueue_fqWritten (n : Nat) (f : Queue → Queue) : (upQueue s n f).fqWritten = s.fqWritten := rfl
@[simp] theorem upQueue_fqAcked (n : Nat) (f : Queue → Queue) : (upQueue s n f).fqAcked = s.fqAcked := rfl
@[simp] theorem upQueue_fqHeld (n : Nat) (f : Queue → Queue) : (upQueue s n f).fqHeld = s.fqHeld := rfl
@[simp] theorem upQueue_fqWait (n : Nat) (f : Queue → Queue) : (upQueue s n f).fqWait = s.fqWait := rfl
@[simp] theorem upQueue_ctxHandle (n : Nat) (f : Queue → Queue) : (upQueue s n f).ctxHandle = s.ctxHandle := rfl
@[simp] theorem upQueue_ctxSlots (n : Nat) (f : Queue → Queue) : (upQueue s n f).ctxSlots = s.ctxSlots := rfl
@[simp] theorem upQueue_fns (n : Nat) (f : Queue → Queue) : (upQueue s n f).fns = s.fns := rfl
@[simp] theorem upQueue_stage (n : Nat) (f : Queue → Queue) : (upQueue s n f).stage = s.stage := rfl
@[simp] theorem upQueue_cause (n : Nat) (f : Queue → Queue) : (upQueue s n f).cause = s.cause := rfl
@[simp] theorem upQueue_bank (n : Nat) (f : Queue → Queue) : (upQueue s n f).bank = s.bank := rfl
@[simp] theorem upQueue_next (n : Nat) (f : Queue → Queue) : (upQueue s n f).next = s.next := rfl
@[simp] theorem upQueue_floor (n : Nat) (f : Queue → Queue) : (upQueue s n f).floor = s.floor := rfl
@[simp] theorem upQueue_banks (n : Nat) (f : Queue → Queue) : (upQueue s n f).banks = s.banks := rfl
@[simp] theorem upQueue_newImage (n : Nat) (f : Queue → Queue) : (upQueue s n f).newImage = s.newImage := rfl
@[simp] theorem upQueue_mrs (n : Nat) (f : Queue → Queue) : (upQueue s n f).mrs = s.mrs := rfl
@[simp] theorem upQueue_qcount (n : Nat) (f : Queue → Queue) : (upQueue s n f).qcount = s.qcount := rfl
@[simp] theorem upQueue_mbNext (n : Nat) (f : Queue → Queue) : (upQueue s n f).mbNext = s.mbNext := rfl
@[simp] theorem upQueue_cap (n : Nat) (f : Queue → Queue) : (upQueue s n f).cap = s.cap := rfl
@[simp] theorem upQueue_powered (n : Nat) (f : Queue → Queue) : (upQueue s n f).powered = s.powered := rfl
@[simp] theorem upQueue_order4T (n : Nat) (f : Queue → Queue) : (upQueue s n f).order4T = s.order4T := rfl
@[simp] theorem upQueue_deadPairs (n : Nat) (f : Queue → Queue) : (upQueue s n f).deadPairs = s.deadPairs := rfl
@[simp] theorem upQueue_deadArrays (n : Nat) (f : Queue → Queue) : (upQueue s n f).deadArrays = s.deadArrays := rfl
@[simp] theorem upQueue_bonds (n : Nat) (f : Queue → Queue) : (upQueue s n f).bonds = s.bonds := rfl
@[simp] theorem upQueue_own (n : Nat) (f : Queue → Queue) : (upQueue s n f).own = s.own := rfl
@[simp] theorem upQueue_modNum (n : Nat) (f : Queue → Queue) : (upQueue s n f).modNum = s.modNum := rfl
@[simp] theorem upQueue_tickSet (n : Nat) (f : Queue → Queue) : (upQueue s n f).tickSet = s.tickSet := rfl
@[simp] theorem upQueue_modCount (n : Nat) (f : Queue → Queue) : (upQueue s n f).modCount = s.modCount := rfl
@[simp] theorem upQueue_ports (n : Nat) (f : Queue → Queue) : (upQueue s n f).ports = s.ports := rfl
@[simp] theorem upQueue_reqs (n : Nat) (f : Queue → Queue) : (upQueue s n f).reqs = s.reqs := rfl
@[simp] theorem upQueue_nreq (n : Nat) (f : Queue → Queue) : (upQueue s n f).nreq = s.nreq := rfl
@[simp] theorem upQueue_shoot (n : Nat) (f : Queue → Queue) : (upQueue s n f).shoot = s.shoot := rfl
@[simp] theorem upQueue_ctls (n : Nat) (f : Queue → Queue) : (upQueue s n f).ctls = s.ctls := rfl
@[simp] theorem upQueue_inval (n : Nat) (f : Queue → Queue) : (upQueue s n f).inval = s.inval := rfl
@[simp] theorem upQueue_asyCur (n : Nat) (f : Queue → Queue) : (upQueue s n f).asyCur = s.asyCur := rfl
@[simp] theorem upQueue_hostOut (n : Nat) (f : Queue → Queue) : (upQueue s n f).hostOut = s.hostOut := rfl
@[simp] theorem upQueue_irqOut (n : Nat) (f : Queue → Queue) : (upQueue s n f).irqOut = s.irqOut := rfl

/-! ## `upPart` -/

@[simp] theorem upPart_cur (n : Nat) (f : Part → Part) : (upPart s n f).cur = s.cur := rfl
@[simp] theorem upPart_sched (n : Nat) (f : Part → Part) : (upPart s n f).sched = s.sched := rfl
@[simp] theorem upPart_free (n : Nat) (f : Part → Part) : (upPart s n f).free = s.free := rfl
@[simp] theorem upPart_tick (n : Nat) (f : Part → Part) : (upPart s n f).tick = s.tick := rfl
@[simp] theorem upPart_cores (n : Nat) (f : Part → Part) : (upPart s n f).cores = s.cores := rfl
@[simp] theorem upPart_teams (n : Nat) (f : Part → Part) : (upPart s n f).teams = s.teams := rfl
@[simp] theorem upPart_clusters (n : Nat) (f : Part → Part) : (upPart s n f).clusters = s.clusters := rfl
@[simp] theorem upPart_mem (n : Nat) (f : Part → Part) : (upPart s n f).mem = s.mem := rfl
@[simp] theorem upPart_lc (n : Nat) (f : Part → Part) : (upPart s n f).lc = s.lc := rfl
@[simp] theorem upPart_bad (n : Nat) (f : Part → Part) : (upPart s n f).bad = s.bad := rfl
@[simp] theorem upPart_ht (n : Nat) (f : Part → Part) : (upPart s n f).ht = s.ht := rfl
@[simp] theorem upPart_wins (n : Nat) (f : Part → Part) : (upPart s n f).wins = s.wins := rfl
@[simp] theorem upPart_queues (n : Nat) (f : Part → Part) : (upPart s n f).queues = s.queues := rfl
@[simp] theorem upPart_rr (n : Nat) (f : Part → Part) : (upPart s n f).rr = s.rr := rfl
@[simp] theorem upPart_kept (n : Nat) (f : Part → Part) : (upPart s n f).kept = s.kept := rfl
@[simp] theorem upPart_order (n : Nat) (f : Part → Part) : (upPart s n f).order = s.order := rfl
@[simp] theorem upPart_lode (n : Nat) (f : Part → Part) : (upPart s n f).lode = s.lode := rfl
@[simp] theorem upPart_regions (n : Nat) (f : Part → Part) : (upPart s n f).regions = s.regions := rfl
@[simp] theorem upPart_blocks (n : Nat) (f : Part → Part) : (upPart s n f).blocks = s.blocks := rfl
@[simp] theorem upPart_spares (n : Nat) (f : Part → Part) : (upPart s n f).spares = s.spares := rfl
@[simp] theorem upPart_corr (n : Nat) (f : Part → Part) : (upPart s n f).corr = s.corr := rfl
@[simp] theorem upPart_aged (n : Nat) (f : Part → Part) : (upPart s n f).aged = s.aged := rfl
@[simp] theorem upPart_scanned (n : Nat) (f : Part → Part) : (upPart s n f).scanned = s.scanned := rfl
@[simp] theorem upPart_nissue (n : Nat) (f : Part → Part) : (upPart s n f).nissue = s.nissue := rfl
@[simp] theorem upPart_ltlb (n : Nat) (f : Part → Part) : (upPart s n f).ltlb = s.ltlb := rfl
@[simp] theorem upPart_steals (n : Nat) (f : Part → Part) : (upPart s n f).steals = s.steals := rfl
@[simp] theorem upPart_deadGroups (n : Nat) (f : Part → Part) : (upPart s n f).deadGroups = s.deadGroups := rfl
@[simp] theorem upPart_reloads (n : Nat) (f : Part → Part) : (upPart s n f).reloads = s.reloads := rfl
@[simp] theorem upPart_asys (n : Nat) (f : Part → Part) : (upPart s n f).asys = s.asys := rfl
@[simp] theorem upPart_rdls (n : Nat) (f : Part → Part) : (upPart s n f).rdls = s.rdls := rfl
@[simp] theorem upPart_fqBase (n : Nat) (f : Part → Part) : (upPart s n f).fqBase = s.fqBase := rfl
@[simp] theorem upPart_fqLog (n : Nat) (f : Part → Part) : (upPart s n f).fqLog = s.fqLog := rfl
@[simp] theorem upPart_fqLost (n : Nat) (f : Part → Part) : (upPart s n f).fqLost = s.fqLost := rfl
@[simp] theorem upPart_fqWritten (n : Nat) (f : Part → Part) : (upPart s n f).fqWritten = s.fqWritten := rfl
@[simp] theorem upPart_fqAcked (n : Nat) (f : Part → Part) : (upPart s n f).fqAcked = s.fqAcked := rfl
@[simp] theorem upPart_fqHeld (n : Nat) (f : Part → Part) : (upPart s n f).fqHeld = s.fqHeld := rfl
@[simp] theorem upPart_fqWait (n : Nat) (f : Part → Part) : (upPart s n f).fqWait = s.fqWait := rfl
@[simp] theorem upPart_ctxHandle (n : Nat) (f : Part → Part) : (upPart s n f).ctxHandle = s.ctxHandle := rfl
@[simp] theorem upPart_ctxSlots (n : Nat) (f : Part → Part) : (upPart s n f).ctxSlots = s.ctxSlots := rfl
@[simp] theorem upPart_fns (n : Nat) (f : Part → Part) : (upPart s n f).fns = s.fns := rfl
@[simp] theorem upPart_stage (n : Nat) (f : Part → Part) : (upPart s n f).stage = s.stage := rfl
@[simp] theorem upPart_cause (n : Nat) (f : Part → Part) : (upPart s n f).cause = s.cause := rfl
@[simp] theorem upPart_bank (n : Nat) (f : Part → Part) : (upPart s n f).bank = s.bank := rfl
@[simp] theorem upPart_next (n : Nat) (f : Part → Part) : (upPart s n f).next = s.next := rfl
@[simp] theorem upPart_floor (n : Nat) (f : Part → Part) : (upPart s n f).floor = s.floor := rfl
@[simp] theorem upPart_banks (n : Nat) (f : Part → Part) : (upPart s n f).banks = s.banks := rfl
@[simp] theorem upPart_newImage (n : Nat) (f : Part → Part) : (upPart s n f).newImage = s.newImage := rfl
@[simp] theorem upPart_mrs (n : Nat) (f : Part → Part) : (upPart s n f).mrs = s.mrs := rfl
@[simp] theorem upPart_qcount (n : Nat) (f : Part → Part) : (upPart s n f).qcount = s.qcount := rfl
@[simp] theorem upPart_mbNext (n : Nat) (f : Part → Part) : (upPart s n f).mbNext = s.mbNext := rfl
@[simp] theorem upPart_cap (n : Nat) (f : Part → Part) : (upPart s n f).cap = s.cap := rfl
@[simp] theorem upPart_powered (n : Nat) (f : Part → Part) : (upPart s n f).powered = s.powered := rfl
@[simp] theorem upPart_order4T (n : Nat) (f : Part → Part) : (upPart s n f).order4T = s.order4T := rfl
@[simp] theorem upPart_deadPairs (n : Nat) (f : Part → Part) : (upPart s n f).deadPairs = s.deadPairs := rfl
@[simp] theorem upPart_deadArrays (n : Nat) (f : Part → Part) : (upPart s n f).deadArrays = s.deadArrays := rfl
@[simp] theorem upPart_bonds (n : Nat) (f : Part → Part) : (upPart s n f).bonds = s.bonds := rfl
@[simp] theorem upPart_own (n : Nat) (f : Part → Part) : (upPart s n f).own = s.own := rfl
@[simp] theorem upPart_modNum (n : Nat) (f : Part → Part) : (upPart s n f).modNum = s.modNum := rfl
@[simp] theorem upPart_tickSet (n : Nat) (f : Part → Part) : (upPart s n f).tickSet = s.tickSet := rfl
@[simp] theorem upPart_modCount (n : Nat) (f : Part → Part) : (upPart s n f).modCount = s.modCount := rfl
@[simp] theorem upPart_ports (n : Nat) (f : Part → Part) : (upPart s n f).ports = s.ports := rfl
@[simp] theorem upPart_reqs (n : Nat) (f : Part → Part) : (upPart s n f).reqs = s.reqs := rfl
@[simp] theorem upPart_nreq (n : Nat) (f : Part → Part) : (upPart s n f).nreq = s.nreq := rfl
@[simp] theorem upPart_shoot (n : Nat) (f : Part → Part) : (upPart s n f).shoot = s.shoot := rfl
@[simp] theorem upPart_ctls (n : Nat) (f : Part → Part) : (upPart s n f).ctls = s.ctls := rfl
@[simp] theorem upPart_inval (n : Nat) (f : Part → Part) : (upPart s n f).inval = s.inval := rfl
@[simp] theorem upPart_asyCur (n : Nat) (f : Part → Part) : (upPart s n f).asyCur = s.asyCur := rfl
@[simp] theorem upPart_hostOut (n : Nat) (f : Part → Part) : (upPart s n f).hostOut = s.hostOut := rfl
@[simp] theorem upPart_irqOut (n : Nat) (f : Part → Part) : (upPart s n f).irqOut = s.irqOut := rfl

/-! ## `upFn` -/

@[simp] theorem upFn_cur (n : Nat) (f : Fn → Fn) : (upFn s n f).cur = s.cur := rfl
@[simp] theorem upFn_sched (n : Nat) (f : Fn → Fn) : (upFn s n f).sched = s.sched := rfl
@[simp] theorem upFn_free (n : Nat) (f : Fn → Fn) : (upFn s n f).free = s.free := rfl
@[simp] theorem upFn_tick (n : Nat) (f : Fn → Fn) : (upFn s n f).tick = s.tick := rfl
@[simp] theorem upFn_cores (n : Nat) (f : Fn → Fn) : (upFn s n f).cores = s.cores := rfl
@[simp] theorem upFn_teams (n : Nat) (f : Fn → Fn) : (upFn s n f).teams = s.teams := rfl
@[simp] theorem upFn_clusters (n : Nat) (f : Fn → Fn) : (upFn s n f).clusters = s.clusters := rfl
@[simp] theorem upFn_mem (n : Nat) (f : Fn → Fn) : (upFn s n f).mem = s.mem := rfl
@[simp] theorem upFn_lc (n : Nat) (f : Fn → Fn) : (upFn s n f).lc = s.lc := rfl
@[simp] theorem upFn_bad (n : Nat) (f : Fn → Fn) : (upFn s n f).bad = s.bad := rfl
@[simp] theorem upFn_ht (n : Nat) (f : Fn → Fn) : (upFn s n f).ht = s.ht := rfl
@[simp] theorem upFn_wins (n : Nat) (f : Fn → Fn) : (upFn s n f).wins = s.wins := rfl
@[simp] theorem upFn_queues (n : Nat) (f : Fn → Fn) : (upFn s n f).queues = s.queues := rfl
@[simp] theorem upFn_rr (n : Nat) (f : Fn → Fn) : (upFn s n f).rr = s.rr := rfl
@[simp] theorem upFn_kept (n : Nat) (f : Fn → Fn) : (upFn s n f).kept = s.kept := rfl
@[simp] theorem upFn_order (n : Nat) (f : Fn → Fn) : (upFn s n f).order = s.order := rfl
@[simp] theorem upFn_lode (n : Nat) (f : Fn → Fn) : (upFn s n f).lode = s.lode := rfl
@[simp] theorem upFn_regions (n : Nat) (f : Fn → Fn) : (upFn s n f).regions = s.regions := rfl
@[simp] theorem upFn_blocks (n : Nat) (f : Fn → Fn) : (upFn s n f).blocks = s.blocks := rfl
@[simp] theorem upFn_spares (n : Nat) (f : Fn → Fn) : (upFn s n f).spares = s.spares := rfl
@[simp] theorem upFn_corr (n : Nat) (f : Fn → Fn) : (upFn s n f).corr = s.corr := rfl
@[simp] theorem upFn_aged (n : Nat) (f : Fn → Fn) : (upFn s n f).aged = s.aged := rfl
@[simp] theorem upFn_scanned (n : Nat) (f : Fn → Fn) : (upFn s n f).scanned = s.scanned := rfl
@[simp] theorem upFn_nissue (n : Nat) (f : Fn → Fn) : (upFn s n f).nissue = s.nissue := rfl
@[simp] theorem upFn_ltlb (n : Nat) (f : Fn → Fn) : (upFn s n f).ltlb = s.ltlb := rfl
@[simp] theorem upFn_steals (n : Nat) (f : Fn → Fn) : (upFn s n f).steals = s.steals := rfl
@[simp] theorem upFn_deadGroups (n : Nat) (f : Fn → Fn) : (upFn s n f).deadGroups = s.deadGroups := rfl
@[simp] theorem upFn_reloads (n : Nat) (f : Fn → Fn) : (upFn s n f).reloads = s.reloads := rfl
@[simp] theorem upFn_asys (n : Nat) (f : Fn → Fn) : (upFn s n f).asys = s.asys := rfl
@[simp] theorem upFn_rdls (n : Nat) (f : Fn → Fn) : (upFn s n f).rdls = s.rdls := rfl
@[simp] theorem upFn_parts (n : Nat) (f : Fn → Fn) : (upFn s n f).parts = s.parts := rfl
@[simp] theorem upFn_fqBase (n : Nat) (f : Fn → Fn) : (upFn s n f).fqBase = s.fqBase := rfl
@[simp] theorem upFn_fqLog (n : Nat) (f : Fn → Fn) : (upFn s n f).fqLog = s.fqLog := rfl
@[simp] theorem upFn_fqLost (n : Nat) (f : Fn → Fn) : (upFn s n f).fqLost = s.fqLost := rfl
@[simp] theorem upFn_fqWritten (n : Nat) (f : Fn → Fn) : (upFn s n f).fqWritten = s.fqWritten := rfl
@[simp] theorem upFn_fqAcked (n : Nat) (f : Fn → Fn) : (upFn s n f).fqAcked = s.fqAcked := rfl
@[simp] theorem upFn_fqHeld (n : Nat) (f : Fn → Fn) : (upFn s n f).fqHeld = s.fqHeld := rfl
@[simp] theorem upFn_fqWait (n : Nat) (f : Fn → Fn) : (upFn s n f).fqWait = s.fqWait := rfl
@[simp] theorem upFn_ctxHandle (n : Nat) (f : Fn → Fn) : (upFn s n f).ctxHandle = s.ctxHandle := rfl
@[simp] theorem upFn_ctxSlots (n : Nat) (f : Fn → Fn) : (upFn s n f).ctxSlots = s.ctxSlots := rfl
@[simp] theorem upFn_stage (n : Nat) (f : Fn → Fn) : (upFn s n f).stage = s.stage := rfl
@[simp] theorem upFn_cause (n : Nat) (f : Fn → Fn) : (upFn s n f).cause = s.cause := rfl
@[simp] theorem upFn_bank (n : Nat) (f : Fn → Fn) : (upFn s n f).bank = s.bank := rfl
@[simp] theorem upFn_next (n : Nat) (f : Fn → Fn) : (upFn s n f).next = s.next := rfl
@[simp] theorem upFn_floor (n : Nat) (f : Fn → Fn) : (upFn s n f).floor = s.floor := rfl
@[simp] theorem upFn_banks (n : Nat) (f : Fn → Fn) : (upFn s n f).banks = s.banks := rfl
@[simp] theorem upFn_newImage (n : Nat) (f : Fn → Fn) : (upFn s n f).newImage = s.newImage := rfl
@[simp] theorem upFn_mrs (n : Nat) (f : Fn → Fn) : (upFn s n f).mrs = s.mrs := rfl
@[simp] theorem upFn_qcount (n : Nat) (f : Fn → Fn) : (upFn s n f).qcount = s.qcount := rfl
@[simp] theorem upFn_mbNext (n : Nat) (f : Fn → Fn) : (upFn s n f).mbNext = s.mbNext := rfl
@[simp] theorem upFn_cap (n : Nat) (f : Fn → Fn) : (upFn s n f).cap = s.cap := rfl
@[simp] theorem upFn_powered (n : Nat) (f : Fn → Fn) : (upFn s n f).powered = s.powered := rfl
@[simp] theorem upFn_order4T (n : Nat) (f : Fn → Fn) : (upFn s n f).order4T = s.order4T := rfl
@[simp] theorem upFn_deadPairs (n : Nat) (f : Fn → Fn) : (upFn s n f).deadPairs = s.deadPairs := rfl
@[simp] theorem upFn_deadArrays (n : Nat) (f : Fn → Fn) : (upFn s n f).deadArrays = s.deadArrays := rfl
@[simp] theorem upFn_bonds (n : Nat) (f : Fn → Fn) : (upFn s n f).bonds = s.bonds := rfl
@[simp] theorem upFn_own (n : Nat) (f : Fn → Fn) : (upFn s n f).own = s.own := rfl
@[simp] theorem upFn_modNum (n : Nat) (f : Fn → Fn) : (upFn s n f).modNum = s.modNum := rfl
@[simp] theorem upFn_tickSet (n : Nat) (f : Fn → Fn) : (upFn s n f).tickSet = s.tickSet := rfl
@[simp] theorem upFn_modCount (n : Nat) (f : Fn → Fn) : (upFn s n f).modCount = s.modCount := rfl
@[simp] theorem upFn_ports (n : Nat) (f : Fn → Fn) : (upFn s n f).ports = s.ports := rfl
@[simp] theorem upFn_reqs (n : Nat) (f : Fn → Fn) : (upFn s n f).reqs = s.reqs := rfl
@[simp] theorem upFn_nreq (n : Nat) (f : Fn → Fn) : (upFn s n f).nreq = s.nreq := rfl
@[simp] theorem upFn_shoot (n : Nat) (f : Fn → Fn) : (upFn s n f).shoot = s.shoot := rfl
@[simp] theorem upFn_ctls (n : Nat) (f : Fn → Fn) : (upFn s n f).ctls = s.ctls := rfl
@[simp] theorem upFn_inval (n : Nat) (f : Fn → Fn) : (upFn s n f).inval = s.inval := rfl
@[simp] theorem upFn_asyCur (n : Nat) (f : Fn → Fn) : (upFn s n f).asyCur = s.asyCur := rfl
@[simp] theorem upFn_hostOut (n : Nat) (f : Fn → Fn) : (upFn s n f).hostOut = s.hostOut := rfl
@[simp] theorem upFn_irqOut (n : Nat) (f : Fn → Fn) : (upFn s n f).irqOut = s.irqOut := rfl

/-! ## `upAsy` -/

@[simp] theorem upAsy_cur (n : Nat) (f : Assayer → Assayer) : (upAsy s n f).cur = s.cur := rfl
@[simp] theorem upAsy_sched (n : Nat) (f : Assayer → Assayer) : (upAsy s n f).sched = s.sched := rfl
@[simp] theorem upAsy_free (n : Nat) (f : Assayer → Assayer) : (upAsy s n f).free = s.free := rfl
@[simp] theorem upAsy_tick (n : Nat) (f : Assayer → Assayer) : (upAsy s n f).tick = s.tick := rfl
@[simp] theorem upAsy_cores (n : Nat) (f : Assayer → Assayer) : (upAsy s n f).cores = s.cores := rfl
@[simp] theorem upAsy_teams (n : Nat) (f : Assayer → Assayer) : (upAsy s n f).teams = s.teams := rfl
@[simp] theorem upAsy_clusters (n : Nat) (f : Assayer → Assayer) : (upAsy s n f).clusters = s.clusters := rfl
@[simp] theorem upAsy_mem (n : Nat) (f : Assayer → Assayer) : (upAsy s n f).mem = s.mem := rfl
@[simp] theorem upAsy_lc (n : Nat) (f : Assayer → Assayer) : (upAsy s n f).lc = s.lc := rfl
@[simp] theorem upAsy_bad (n : Nat) (f : Assayer → Assayer) : (upAsy s n f).bad = s.bad := rfl
@[simp] theorem upAsy_ht (n : Nat) (f : Assayer → Assayer) : (upAsy s n f).ht = s.ht := rfl
@[simp] theorem upAsy_wins (n : Nat) (f : Assayer → Assayer) : (upAsy s n f).wins = s.wins := rfl
@[simp] theorem upAsy_queues (n : Nat) (f : Assayer → Assayer) : (upAsy s n f).queues = s.queues := rfl
@[simp] theorem upAsy_rr (n : Nat) (f : Assayer → Assayer) : (upAsy s n f).rr = s.rr := rfl
@[simp] theorem upAsy_kept (n : Nat) (f : Assayer → Assayer) : (upAsy s n f).kept = s.kept := rfl
@[simp] theorem upAsy_order (n : Nat) (f : Assayer → Assayer) : (upAsy s n f).order = s.order := rfl
@[simp] theorem upAsy_lode (n : Nat) (f : Assayer → Assayer) : (upAsy s n f).lode = s.lode := rfl
@[simp] theorem upAsy_regions (n : Nat) (f : Assayer → Assayer) : (upAsy s n f).regions = s.regions := rfl
@[simp] theorem upAsy_blocks (n : Nat) (f : Assayer → Assayer) : (upAsy s n f).blocks = s.blocks := rfl
@[simp] theorem upAsy_spares (n : Nat) (f : Assayer → Assayer) : (upAsy s n f).spares = s.spares := rfl
@[simp] theorem upAsy_corr (n : Nat) (f : Assayer → Assayer) : (upAsy s n f).corr = s.corr := rfl
@[simp] theorem upAsy_aged (n : Nat) (f : Assayer → Assayer) : (upAsy s n f).aged = s.aged := rfl
@[simp] theorem upAsy_scanned (n : Nat) (f : Assayer → Assayer) : (upAsy s n f).scanned = s.scanned := rfl
@[simp] theorem upAsy_nissue (n : Nat) (f : Assayer → Assayer) : (upAsy s n f).nissue = s.nissue := rfl
@[simp] theorem upAsy_ltlb (n : Nat) (f : Assayer → Assayer) : (upAsy s n f).ltlb = s.ltlb := rfl
@[simp] theorem upAsy_steals (n : Nat) (f : Assayer → Assayer) : (upAsy s n f).steals = s.steals := rfl
@[simp] theorem upAsy_deadGroups (n : Nat) (f : Assayer → Assayer) : (upAsy s n f).deadGroups = s.deadGroups := rfl
@[simp] theorem upAsy_reloads (n : Nat) (f : Assayer → Assayer) : (upAsy s n f).reloads = s.reloads := rfl
@[simp] theorem upAsy_rdls (n : Nat) (f : Assayer → Assayer) : (upAsy s n f).rdls = s.rdls := rfl
@[simp] theorem upAsy_parts (n : Nat) (f : Assayer → Assayer) : (upAsy s n f).parts = s.parts := rfl
@[simp] theorem upAsy_fqBase (n : Nat) (f : Assayer → Assayer) : (upAsy s n f).fqBase = s.fqBase := rfl
@[simp] theorem upAsy_fqLog (n : Nat) (f : Assayer → Assayer) : (upAsy s n f).fqLog = s.fqLog := rfl
@[simp] theorem upAsy_fqLost (n : Nat) (f : Assayer → Assayer) : (upAsy s n f).fqLost = s.fqLost := rfl
@[simp] theorem upAsy_fqWritten (n : Nat) (f : Assayer → Assayer) : (upAsy s n f).fqWritten = s.fqWritten := rfl
@[simp] theorem upAsy_fqAcked (n : Nat) (f : Assayer → Assayer) : (upAsy s n f).fqAcked = s.fqAcked := rfl
@[simp] theorem upAsy_fqHeld (n : Nat) (f : Assayer → Assayer) : (upAsy s n f).fqHeld = s.fqHeld := rfl
@[simp] theorem upAsy_fqWait (n : Nat) (f : Assayer → Assayer) : (upAsy s n f).fqWait = s.fqWait := rfl
@[simp] theorem upAsy_ctxHandle (n : Nat) (f : Assayer → Assayer) : (upAsy s n f).ctxHandle = s.ctxHandle := rfl
@[simp] theorem upAsy_ctxSlots (n : Nat) (f : Assayer → Assayer) : (upAsy s n f).ctxSlots = s.ctxSlots := rfl
@[simp] theorem upAsy_fns (n : Nat) (f : Assayer → Assayer) : (upAsy s n f).fns = s.fns := rfl
@[simp] theorem upAsy_stage (n : Nat) (f : Assayer → Assayer) : (upAsy s n f).stage = s.stage := rfl
@[simp] theorem upAsy_cause (n : Nat) (f : Assayer → Assayer) : (upAsy s n f).cause = s.cause := rfl
@[simp] theorem upAsy_bank (n : Nat) (f : Assayer → Assayer) : (upAsy s n f).bank = s.bank := rfl
@[simp] theorem upAsy_next (n : Nat) (f : Assayer → Assayer) : (upAsy s n f).next = s.next := rfl
@[simp] theorem upAsy_floor (n : Nat) (f : Assayer → Assayer) : (upAsy s n f).floor = s.floor := rfl
@[simp] theorem upAsy_banks (n : Nat) (f : Assayer → Assayer) : (upAsy s n f).banks = s.banks := rfl
@[simp] theorem upAsy_newImage (n : Nat) (f : Assayer → Assayer) : (upAsy s n f).newImage = s.newImage := rfl
@[simp] theorem upAsy_mrs (n : Nat) (f : Assayer → Assayer) : (upAsy s n f).mrs = s.mrs := rfl
@[simp] theorem upAsy_qcount (n : Nat) (f : Assayer → Assayer) : (upAsy s n f).qcount = s.qcount := rfl
@[simp] theorem upAsy_mbNext (n : Nat) (f : Assayer → Assayer) : (upAsy s n f).mbNext = s.mbNext := rfl
@[simp] theorem upAsy_cap (n : Nat) (f : Assayer → Assayer) : (upAsy s n f).cap = s.cap := rfl
@[simp] theorem upAsy_powered (n : Nat) (f : Assayer → Assayer) : (upAsy s n f).powered = s.powered := rfl
@[simp] theorem upAsy_order4T (n : Nat) (f : Assayer → Assayer) : (upAsy s n f).order4T = s.order4T := rfl
@[simp] theorem upAsy_deadPairs (n : Nat) (f : Assayer → Assayer) : (upAsy s n f).deadPairs = s.deadPairs := rfl
@[simp] theorem upAsy_deadArrays (n : Nat) (f : Assayer → Assayer) : (upAsy s n f).deadArrays = s.deadArrays := rfl
@[simp] theorem upAsy_bonds (n : Nat) (f : Assayer → Assayer) : (upAsy s n f).bonds = s.bonds := rfl
@[simp] theorem upAsy_own (n : Nat) (f : Assayer → Assayer) : (upAsy s n f).own = s.own := rfl
@[simp] theorem upAsy_modNum (n : Nat) (f : Assayer → Assayer) : (upAsy s n f).modNum = s.modNum := rfl
@[simp] theorem upAsy_tickSet (n : Nat) (f : Assayer → Assayer) : (upAsy s n f).tickSet = s.tickSet := rfl
@[simp] theorem upAsy_modCount (n : Nat) (f : Assayer → Assayer) : (upAsy s n f).modCount = s.modCount := rfl
@[simp] theorem upAsy_ports (n : Nat) (f : Assayer → Assayer) : (upAsy s n f).ports = s.ports := rfl
@[simp] theorem upAsy_reqs (n : Nat) (f : Assayer → Assayer) : (upAsy s n f).reqs = s.reqs := rfl
@[simp] theorem upAsy_nreq (n : Nat) (f : Assayer → Assayer) : (upAsy s n f).nreq = s.nreq := rfl
@[simp] theorem upAsy_shoot (n : Nat) (f : Assayer → Assayer) : (upAsy s n f).shoot = s.shoot := rfl
@[simp] theorem upAsy_ctls (n : Nat) (f : Assayer → Assayer) : (upAsy s n f).ctls = s.ctls := rfl
@[simp] theorem upAsy_inval (n : Nat) (f : Assayer → Assayer) : (upAsy s n f).inval = s.inval := rfl
@[simp] theorem upAsy_asyCur (n : Nat) (f : Assayer → Assayer) : (upAsy s n f).asyCur = s.asyCur := rfl
@[simp] theorem upAsy_hostOut (n : Nat) (f : Assayer → Assayer) : (upAsy s n f).hostOut = s.hostOut := rfl
@[simp] theorem upAsy_irqOut (n : Nat) (f : Assayer → Assayer) : (upAsy s n f).irqOut = s.irqOut := rfl

/-! ## `upRdl` -/

@[simp] theorem upRdl_cur (n : Nat) (f : Riddle → Riddle) : (upRdl s n f).cur = s.cur := rfl
@[simp] theorem upRdl_sched (n : Nat) (f : Riddle → Riddle) : (upRdl s n f).sched = s.sched := rfl
@[simp] theorem upRdl_free (n : Nat) (f : Riddle → Riddle) : (upRdl s n f).free = s.free := rfl
@[simp] theorem upRdl_tick (n : Nat) (f : Riddle → Riddle) : (upRdl s n f).tick = s.tick := rfl
@[simp] theorem upRdl_cores (n : Nat) (f : Riddle → Riddle) : (upRdl s n f).cores = s.cores := rfl
@[simp] theorem upRdl_teams (n : Nat) (f : Riddle → Riddle) : (upRdl s n f).teams = s.teams := rfl
@[simp] theorem upRdl_clusters (n : Nat) (f : Riddle → Riddle) : (upRdl s n f).clusters = s.clusters := rfl
@[simp] theorem upRdl_mem (n : Nat) (f : Riddle → Riddle) : (upRdl s n f).mem = s.mem := rfl
@[simp] theorem upRdl_lc (n : Nat) (f : Riddle → Riddle) : (upRdl s n f).lc = s.lc := rfl
@[simp] theorem upRdl_bad (n : Nat) (f : Riddle → Riddle) : (upRdl s n f).bad = s.bad := rfl
@[simp] theorem upRdl_ht (n : Nat) (f : Riddle → Riddle) : (upRdl s n f).ht = s.ht := rfl
@[simp] theorem upRdl_wins (n : Nat) (f : Riddle → Riddle) : (upRdl s n f).wins = s.wins := rfl
@[simp] theorem upRdl_queues (n : Nat) (f : Riddle → Riddle) : (upRdl s n f).queues = s.queues := rfl
@[simp] theorem upRdl_rr (n : Nat) (f : Riddle → Riddle) : (upRdl s n f).rr = s.rr := rfl
@[simp] theorem upRdl_kept (n : Nat) (f : Riddle → Riddle) : (upRdl s n f).kept = s.kept := rfl
@[simp] theorem upRdl_order (n : Nat) (f : Riddle → Riddle) : (upRdl s n f).order = s.order := rfl
@[simp] theorem upRdl_lode (n : Nat) (f : Riddle → Riddle) : (upRdl s n f).lode = s.lode := rfl
@[simp] theorem upRdl_regions (n : Nat) (f : Riddle → Riddle) : (upRdl s n f).regions = s.regions := rfl
@[simp] theorem upRdl_blocks (n : Nat) (f : Riddle → Riddle) : (upRdl s n f).blocks = s.blocks := rfl
@[simp] theorem upRdl_spares (n : Nat) (f : Riddle → Riddle) : (upRdl s n f).spares = s.spares := rfl
@[simp] theorem upRdl_corr (n : Nat) (f : Riddle → Riddle) : (upRdl s n f).corr = s.corr := rfl
@[simp] theorem upRdl_aged (n : Nat) (f : Riddle → Riddle) : (upRdl s n f).aged = s.aged := rfl
@[simp] theorem upRdl_scanned (n : Nat) (f : Riddle → Riddle) : (upRdl s n f).scanned = s.scanned := rfl
@[simp] theorem upRdl_nissue (n : Nat) (f : Riddle → Riddle) : (upRdl s n f).nissue = s.nissue := rfl
@[simp] theorem upRdl_ltlb (n : Nat) (f : Riddle → Riddle) : (upRdl s n f).ltlb = s.ltlb := rfl
@[simp] theorem upRdl_steals (n : Nat) (f : Riddle → Riddle) : (upRdl s n f).steals = s.steals := rfl
@[simp] theorem upRdl_deadGroups (n : Nat) (f : Riddle → Riddle) : (upRdl s n f).deadGroups = s.deadGroups := rfl
@[simp] theorem upRdl_reloads (n : Nat) (f : Riddle → Riddle) : (upRdl s n f).reloads = s.reloads := rfl
@[simp] theorem upRdl_asys (n : Nat) (f : Riddle → Riddle) : (upRdl s n f).asys = s.asys := rfl
@[simp] theorem upRdl_parts (n : Nat) (f : Riddle → Riddle) : (upRdl s n f).parts = s.parts := rfl
@[simp] theorem upRdl_fqBase (n : Nat) (f : Riddle → Riddle) : (upRdl s n f).fqBase = s.fqBase := rfl
@[simp] theorem upRdl_fqLog (n : Nat) (f : Riddle → Riddle) : (upRdl s n f).fqLog = s.fqLog := rfl
@[simp] theorem upRdl_fqLost (n : Nat) (f : Riddle → Riddle) : (upRdl s n f).fqLost = s.fqLost := rfl
@[simp] theorem upRdl_fqWritten (n : Nat) (f : Riddle → Riddle) : (upRdl s n f).fqWritten = s.fqWritten := rfl
@[simp] theorem upRdl_fqAcked (n : Nat) (f : Riddle → Riddle) : (upRdl s n f).fqAcked = s.fqAcked := rfl
@[simp] theorem upRdl_fqHeld (n : Nat) (f : Riddle → Riddle) : (upRdl s n f).fqHeld = s.fqHeld := rfl
@[simp] theorem upRdl_fqWait (n : Nat) (f : Riddle → Riddle) : (upRdl s n f).fqWait = s.fqWait := rfl
@[simp] theorem upRdl_ctxHandle (n : Nat) (f : Riddle → Riddle) : (upRdl s n f).ctxHandle = s.ctxHandle := rfl
@[simp] theorem upRdl_ctxSlots (n : Nat) (f : Riddle → Riddle) : (upRdl s n f).ctxSlots = s.ctxSlots := rfl
@[simp] theorem upRdl_fns (n : Nat) (f : Riddle → Riddle) : (upRdl s n f).fns = s.fns := rfl
@[simp] theorem upRdl_stage (n : Nat) (f : Riddle → Riddle) : (upRdl s n f).stage = s.stage := rfl
@[simp] theorem upRdl_cause (n : Nat) (f : Riddle → Riddle) : (upRdl s n f).cause = s.cause := rfl
@[simp] theorem upRdl_bank (n : Nat) (f : Riddle → Riddle) : (upRdl s n f).bank = s.bank := rfl
@[simp] theorem upRdl_next (n : Nat) (f : Riddle → Riddle) : (upRdl s n f).next = s.next := rfl
@[simp] theorem upRdl_floor (n : Nat) (f : Riddle → Riddle) : (upRdl s n f).floor = s.floor := rfl
@[simp] theorem upRdl_banks (n : Nat) (f : Riddle → Riddle) : (upRdl s n f).banks = s.banks := rfl
@[simp] theorem upRdl_newImage (n : Nat) (f : Riddle → Riddle) : (upRdl s n f).newImage = s.newImage := rfl
@[simp] theorem upRdl_mrs (n : Nat) (f : Riddle → Riddle) : (upRdl s n f).mrs = s.mrs := rfl
@[simp] theorem upRdl_qcount (n : Nat) (f : Riddle → Riddle) : (upRdl s n f).qcount = s.qcount := rfl
@[simp] theorem upRdl_mbNext (n : Nat) (f : Riddle → Riddle) : (upRdl s n f).mbNext = s.mbNext := rfl
@[simp] theorem upRdl_cap (n : Nat) (f : Riddle → Riddle) : (upRdl s n f).cap = s.cap := rfl
@[simp] theorem upRdl_powered (n : Nat) (f : Riddle → Riddle) : (upRdl s n f).powered = s.powered := rfl
@[simp] theorem upRdl_order4T (n : Nat) (f : Riddle → Riddle) : (upRdl s n f).order4T = s.order4T := rfl
@[simp] theorem upRdl_deadPairs (n : Nat) (f : Riddle → Riddle) : (upRdl s n f).deadPairs = s.deadPairs := rfl
@[simp] theorem upRdl_deadArrays (n : Nat) (f : Riddle → Riddle) : (upRdl s n f).deadArrays = s.deadArrays := rfl
@[simp] theorem upRdl_bonds (n : Nat) (f : Riddle → Riddle) : (upRdl s n f).bonds = s.bonds := rfl
@[simp] theorem upRdl_own (n : Nat) (f : Riddle → Riddle) : (upRdl s n f).own = s.own := rfl
@[simp] theorem upRdl_modNum (n : Nat) (f : Riddle → Riddle) : (upRdl s n f).modNum = s.modNum := rfl
@[simp] theorem upRdl_tickSet (n : Nat) (f : Riddle → Riddle) : (upRdl s n f).tickSet = s.tickSet := rfl
@[simp] theorem upRdl_modCount (n : Nat) (f : Riddle → Riddle) : (upRdl s n f).modCount = s.modCount := rfl
@[simp] theorem upRdl_ports (n : Nat) (f : Riddle → Riddle) : (upRdl s n f).ports = s.ports := rfl
@[simp] theorem upRdl_reqs (n : Nat) (f : Riddle → Riddle) : (upRdl s n f).reqs = s.reqs := rfl
@[simp] theorem upRdl_nreq (n : Nat) (f : Riddle → Riddle) : (upRdl s n f).nreq = s.nreq := rfl
@[simp] theorem upRdl_shoot (n : Nat) (f : Riddle → Riddle) : (upRdl s n f).shoot = s.shoot := rfl
@[simp] theorem upRdl_ctls (n : Nat) (f : Riddle → Riddle) : (upRdl s n f).ctls = s.ctls := rfl
@[simp] theorem upRdl_inval (n : Nat) (f : Riddle → Riddle) : (upRdl s n f).inval = s.inval := rfl
@[simp] theorem upRdl_asyCur (n : Nat) (f : Riddle → Riddle) : (upRdl s n f).asyCur = s.asyCur := rfl
@[simp] theorem upRdl_hostOut (n : Nat) (f : Riddle → Riddle) : (upRdl s n f).hostOut = s.hostOut := rfl
@[simp] theorem upRdl_irqOut (n : Nat) (f : Riddle → Riddle) : (upRdl s n f).irqOut = s.irqOut := rfl

/-! ## `upPort` -/

@[simp] theorem upPort_cur (n : Nat) (f : Port → Port) : (upPort s n f).cur = s.cur := rfl
@[simp] theorem upPort_sched (n : Nat) (f : Port → Port) : (upPort s n f).sched = s.sched := rfl
@[simp] theorem upPort_free (n : Nat) (f : Port → Port) : (upPort s n f).free = s.free := rfl
@[simp] theorem upPort_tick (n : Nat) (f : Port → Port) : (upPort s n f).tick = s.tick := rfl
@[simp] theorem upPort_cores (n : Nat) (f : Port → Port) : (upPort s n f).cores = s.cores := rfl
@[simp] theorem upPort_teams (n : Nat) (f : Port → Port) : (upPort s n f).teams = s.teams := rfl
@[simp] theorem upPort_clusters (n : Nat) (f : Port → Port) : (upPort s n f).clusters = s.clusters := rfl
@[simp] theorem upPort_mem (n : Nat) (f : Port → Port) : (upPort s n f).mem = s.mem := rfl
@[simp] theorem upPort_lc (n : Nat) (f : Port → Port) : (upPort s n f).lc = s.lc := rfl
@[simp] theorem upPort_bad (n : Nat) (f : Port → Port) : (upPort s n f).bad = s.bad := rfl
@[simp] theorem upPort_ht (n : Nat) (f : Port → Port) : (upPort s n f).ht = s.ht := rfl
@[simp] theorem upPort_wins (n : Nat) (f : Port → Port) : (upPort s n f).wins = s.wins := rfl
@[simp] theorem upPort_queues (n : Nat) (f : Port → Port) : (upPort s n f).queues = s.queues := rfl
@[simp] theorem upPort_rr (n : Nat) (f : Port → Port) : (upPort s n f).rr = s.rr := rfl
@[simp] theorem upPort_kept (n : Nat) (f : Port → Port) : (upPort s n f).kept = s.kept := rfl
@[simp] theorem upPort_order (n : Nat) (f : Port → Port) : (upPort s n f).order = s.order := rfl
@[simp] theorem upPort_lode (n : Nat) (f : Port → Port) : (upPort s n f).lode = s.lode := rfl
@[simp] theorem upPort_regions (n : Nat) (f : Port → Port) : (upPort s n f).regions = s.regions := rfl
@[simp] theorem upPort_blocks (n : Nat) (f : Port → Port) : (upPort s n f).blocks = s.blocks := rfl
@[simp] theorem upPort_spares (n : Nat) (f : Port → Port) : (upPort s n f).spares = s.spares := rfl
@[simp] theorem upPort_corr (n : Nat) (f : Port → Port) : (upPort s n f).corr = s.corr := rfl
@[simp] theorem upPort_aged (n : Nat) (f : Port → Port) : (upPort s n f).aged = s.aged := rfl
@[simp] theorem upPort_scanned (n : Nat) (f : Port → Port) : (upPort s n f).scanned = s.scanned := rfl
@[simp] theorem upPort_nissue (n : Nat) (f : Port → Port) : (upPort s n f).nissue = s.nissue := rfl
@[simp] theorem upPort_ltlb (n : Nat) (f : Port → Port) : (upPort s n f).ltlb = s.ltlb := rfl
@[simp] theorem upPort_steals (n : Nat) (f : Port → Port) : (upPort s n f).steals = s.steals := rfl
@[simp] theorem upPort_deadGroups (n : Nat) (f : Port → Port) : (upPort s n f).deadGroups = s.deadGroups := rfl
@[simp] theorem upPort_reloads (n : Nat) (f : Port → Port) : (upPort s n f).reloads = s.reloads := rfl
@[simp] theorem upPort_asys (n : Nat) (f : Port → Port) : (upPort s n f).asys = s.asys := rfl
@[simp] theorem upPort_rdls (n : Nat) (f : Port → Port) : (upPort s n f).rdls = s.rdls := rfl
@[simp] theorem upPort_parts (n : Nat) (f : Port → Port) : (upPort s n f).parts = s.parts := rfl
@[simp] theorem upPort_fqBase (n : Nat) (f : Port → Port) : (upPort s n f).fqBase = s.fqBase := rfl
@[simp] theorem upPort_fqLog (n : Nat) (f : Port → Port) : (upPort s n f).fqLog = s.fqLog := rfl
@[simp] theorem upPort_fqLost (n : Nat) (f : Port → Port) : (upPort s n f).fqLost = s.fqLost := rfl
@[simp] theorem upPort_fqWritten (n : Nat) (f : Port → Port) : (upPort s n f).fqWritten = s.fqWritten := rfl
@[simp] theorem upPort_fqAcked (n : Nat) (f : Port → Port) : (upPort s n f).fqAcked = s.fqAcked := rfl
@[simp] theorem upPort_fqHeld (n : Nat) (f : Port → Port) : (upPort s n f).fqHeld = s.fqHeld := rfl
@[simp] theorem upPort_fqWait (n : Nat) (f : Port → Port) : (upPort s n f).fqWait = s.fqWait := rfl
@[simp] theorem upPort_ctxHandle (n : Nat) (f : Port → Port) : (upPort s n f).ctxHandle = s.ctxHandle := rfl
@[simp] theorem upPort_ctxSlots (n : Nat) (f : Port → Port) : (upPort s n f).ctxSlots = s.ctxSlots := rfl
@[simp] theorem upPort_fns (n : Nat) (f : Port → Port) : (upPort s n f).fns = s.fns := rfl
@[simp] theorem upPort_stage (n : Nat) (f : Port → Port) : (upPort s n f).stage = s.stage := rfl
@[simp] theorem upPort_cause (n : Nat) (f : Port → Port) : (upPort s n f).cause = s.cause := rfl
@[simp] theorem upPort_bank (n : Nat) (f : Port → Port) : (upPort s n f).bank = s.bank := rfl
@[simp] theorem upPort_next (n : Nat) (f : Port → Port) : (upPort s n f).next = s.next := rfl
@[simp] theorem upPort_floor (n : Nat) (f : Port → Port) : (upPort s n f).floor = s.floor := rfl
@[simp] theorem upPort_banks (n : Nat) (f : Port → Port) : (upPort s n f).banks = s.banks := rfl
@[simp] theorem upPort_newImage (n : Nat) (f : Port → Port) : (upPort s n f).newImage = s.newImage := rfl
@[simp] theorem upPort_mrs (n : Nat) (f : Port → Port) : (upPort s n f).mrs = s.mrs := rfl
@[simp] theorem upPort_qcount (n : Nat) (f : Port → Port) : (upPort s n f).qcount = s.qcount := rfl
@[simp] theorem upPort_mbNext (n : Nat) (f : Port → Port) : (upPort s n f).mbNext = s.mbNext := rfl
@[simp] theorem upPort_cap (n : Nat) (f : Port → Port) : (upPort s n f).cap = s.cap := rfl
@[simp] theorem upPort_powered (n : Nat) (f : Port → Port) : (upPort s n f).powered = s.powered := rfl
@[simp] theorem upPort_order4T (n : Nat) (f : Port → Port) : (upPort s n f).order4T = s.order4T := rfl
@[simp] theorem upPort_deadPairs (n : Nat) (f : Port → Port) : (upPort s n f).deadPairs = s.deadPairs := rfl
@[simp] theorem upPort_deadArrays (n : Nat) (f : Port → Port) : (upPort s n f).deadArrays = s.deadArrays := rfl
@[simp] theorem upPort_bonds (n : Nat) (f : Port → Port) : (upPort s n f).bonds = s.bonds := rfl
@[simp] theorem upPort_own (n : Nat) (f : Port → Port) : (upPort s n f).own = s.own := rfl
@[simp] theorem upPort_modNum (n : Nat) (f : Port → Port) : (upPort s n f).modNum = s.modNum := rfl
@[simp] theorem upPort_tickSet (n : Nat) (f : Port → Port) : (upPort s n f).tickSet = s.tickSet := rfl
@[simp] theorem upPort_modCount (n : Nat) (f : Port → Port) : (upPort s n f).modCount = s.modCount := rfl
@[simp] theorem upPort_reqs (n : Nat) (f : Port → Port) : (upPort s n f).reqs = s.reqs := rfl
@[simp] theorem upPort_nreq (n : Nat) (f : Port → Port) : (upPort s n f).nreq = s.nreq := rfl
@[simp] theorem upPort_shoot (n : Nat) (f : Port → Port) : (upPort s n f).shoot = s.shoot := rfl
@[simp] theorem upPort_ctls (n : Nat) (f : Port → Port) : (upPort s n f).ctls = s.ctls := rfl
@[simp] theorem upPort_inval (n : Nat) (f : Port → Port) : (upPort s n f).inval = s.inval := rfl
@[simp] theorem upPort_asyCur (n : Nat) (f : Port → Port) : (upPort s n f).asyCur = s.asyCur := rfl
@[simp] theorem upPort_hostOut (n : Nat) (f : Port → Port) : (upPort s n f).hostOut = s.hostOut := rfl
@[simp] theorem upPort_irqOut (n : Nat) (f : Port → Port) : (upPort s n f).irqOut = s.irqOut := rfl

/-! ## Reading back -/

@[simp] theorem coreAt_setCore (n m : Nat) (c : Core) : coreAt (setCore s n c) m = if n = m then c else coreAt s m :=
  SMap.get_set _ _ _ _ _
@[simp] theorem coreAt_upCore (n m : Nat) (f : Core → Core) : coreAt (upCore s n f) m = if n = m then f (coreAt s n) else coreAt s m :=
  SMap.get_set _ _ _ _ _
@[simp] theorem coreAt_upCur (m : Nat) (f : Core → Core) : coreAt (upCur s f) m = if s.cur.core = m then f (curCore s) else coreAt s m :=
  SMap.get_set _ _ _ _ _
@[simp] theorem curCore_upCur (f : Core → Core) : curCore (upCur s f) = f (curCore s) := SMap.get_set_same _ _ _ _
@[simp] theorem curCore_upCurEng (f : EngSt → EngSt) : curCore (upCurEng s f) = upEng (curCore s) s.cur.eng f := SMap.get_set_same _ _ _ _
@[simp] theorem teamAt_setTeam (n m : Nat) (x : Team) : teamAt (setTeam s n x) m = if n = m then x else teamAt s m :=
  SMap.get_set _ _ _ _ _
@[simp] theorem teamAt_upTeam (n m : Nat) (f : Team → Team) : teamAt (upTeam s n f) m = if n = m then f (teamAt s n) else teamAt s m :=
  SMap.get_set _ _ _ _ _
@[simp] theorem clusterAt_upCluster (n m : Nat) (f : Cluster → Cluster) :
    clusterAt (upCluster s n f) m = if n = m then f (clusterAt s n) else clusterAt s m := SMap.get_set _ _ _ _ _
@[simp] theorem queueAt_upQueue (n m : Nat) (f : Queue → Queue) :
    queueAt (upQueue s n f) m = if n = m then f (queueAt s n) else queueAt s m := SMap.get_set _ _ _ _ _
@[simp] theorem partAt_upPart (n m : Nat) (f : Part → Part) : partAt (upPart s n f) m = if n = m then f (partAt s n) else partAt s m :=
  SMap.get_set _ _ _ _ _
@[simp] theorem fnAt_upFn (n m : Nat) (f : Fn → Fn) : fnAt (upFn s n f) m = if n = m then f (fnAt s n) else fnAt s m :=
  SMap.get_set _ _ _ _ _
@[simp] theorem asyAt_upAsy (n m : Nat) (f : Assayer → Assayer) : asyAt (upAsy s n f) m = if n = m then f (asyAt s n) else asyAt s m :=
  SMap.get_set _ _ _ _ _
@[simp] theorem rdlAt_upRdl (n m : Nat) (f : Riddle → Riddle) : rdlAt (upRdl s n f) m = if n = m then f (rdlAt s n) else rdlAt s m :=
  SMap.get_set _ _ _ _ _
@[simp] theorem portAt_upPort (n m : Nat) (f : Port → Port) : portAt (upPort s n f) m = if n = m then f (portAt s n) else portAt s m :=
  SMap.get_set _ _ _ _ _

@[simp] theorem engSt_setEngSt (c : Core) (g k : Eng) (e : EngSt) : engSt (setEngSt c g e) k = if g = k then e else engSt c k := by
  cases g <;> cases k <;> rfl
@[simp] theorem engSt_upEng (c : Core) (g k : Eng) (f : EngSt → EngSt) : engSt (upEng c g f) k = if g = k then f (engSt c g) else engSt c k := by
  cases g <;> cases k <;> rfl
@[simp] theorem curEng_upCurEng (f : EngSt → EngSt) : curEng (upCurEng s f) = f (curEng s) := by
  show engSt (curCore (upCurEng s f)) s.cur.eng = _
  simp [curEng]

theorem scalFile_setScalFile (c : Core) (g k : Eng) (m : SMap Word) : scalFile (setScalFile c g m) k = if g = k then m else scalFile c k := by
  cases g <;> cases k <;> rfl

/-- A scalar register after a write of one: X0 of the C engine stays 0. -/
theorem getScal_setScal (c : Core) (g k : Eng) (r q : Nat) (v : Word) :
    getScal (setScal c g r v) k q = if g = k ∧ r = q ∧ ¬ (g = .c ∧ r = 0) then v else getScal c k q := by
  by_cases h0 : g = .c ∧ r = 0
  · simp [setScal, h0]
  · have h1 : setScal c g r v = setScalFile c g (SMap.set 0 (scalFile c g) r v) := if_neg h0
    have h2 : getScal (setScalFile c g (SMap.set 0 (scalFile c g) r v)) k q =
        if k = .c ∧ q = 0 then 0 else if g = k then SMap.get 0 (SMap.set 0 (scalFile c g) r v) q else SMap.get 0 (scalFile c k) q := by
      simp only [getScal, scalFile_setScalFile]
      split <;> [rfl; (split <;> rfl)]
    rw [h1, h2, SMap.get_set]
    by_cases hg : g = k
    · subst hg
      by_cases hr : r = q
      · subst hr; simp [h0]
      · simp [hr, getScal]
    · simp [hg, getScal]

@[simp] theorem engSt_setScal (c : Core) (g k : Eng) (r : Nat) (v : Word) : engSt (setScal c g r v) k = engSt c k := by
  unfold setScal; split
  · rfl
  · cases g <;> cases k <;> rfl

/-- What the executing engine reads of a register after it wrote one. -/
theorem rd_wr (r q : Reg) (v : Word) :
    rd (wr s r v) q = if r = q ∧ ¬ (s.cur.eng = .c ∧ r = 0) then v else rd s q := by
  show getScal (curCore (wr s r v)) s.cur.eng q.toNat = _
  rw [show curCore (wr s r v) = setScal (curCore s) s.cur.eng r.toNat v from curCore_upCur _ _, getScal_setScal]
  have h1 : (r.toNat = q.toNat) = (r = q) := propext ⟨BitVec.eq_of_toNat_eq, fun h => by rw [h]⟩
  have h2 : (r.toNat = 0) = (r = 0) := propext ⟨fun h => BitVec.eq_of_toNat_eq h, fun h => by rw [h]; rfl⟩
  simp only [h1, h2, true_and, rd]

theorem getPred_setPredE (e : EngSt) (p q : Nat) (b : Bool) (hq : q < 7) :
    getPred (setPredE e p b) q = if p = q then b else getPred e q := by
  have key : (1#7 <<< p).getLsbD q = decide (p = q) := by
    simp only [BitVec.getLsbD_shiftLeft, BitVec.getLsbD_one]
    by_cases h : p = q
    · subst h; simp [hq]
    · simp only [h, decide_false, hq, decide_true, Bool.true_and, Bool.and_eq_false_imp, Bool.not_eq_true', decide_eq_false_iff_not]
      intro h1
      simp only [Nat.not_lt] at h1 ⊢
      simp; omega
  have hz : (0#7).getLsbD q = false := by simp
  show ((e.preds &&& ~~~(1#7 <<< p)) ||| (if b then 1#7 <<< p else 0)).getLsbD q = _
  rw [BitVec.getLsbD_or, BitVec.getLsbD_and, BitVec.getLsbD_not, key]
  cases b
  · rw [if_neg (by decide), show (0 : BitVec 7) = 0#7 from rfl, hz]
    by_cases h : p = q <;> simp only [h, hq, getPred] <;> simp
  · rw [if_pos rfl, key]
    by_cases h : p = q <;> simp only [h, hq, getPred] <;> simp

/-- What a predicate of the executing engine reads after a write of one. -/
theorem rdP_wrP (p q : Reg) (b : Bool) (hq : q.toNat < 7) : rdP (wrP s p b) q = if p = q then b else rdP s q := by
  show getPred (curEng (upCurEng s _)) q.toNat = _
  rw [curEng_upCurEng, getPred_setPredE _ _ _ _ hq]
  have h1 : (p.toNat = q.toNat) = (p = q) := propext ⟨BitVec.eq_of_toNat_eq, fun h => by rw [h]⟩
  simp only [h1, rdP]

@[simp] theorem fifoAt_setFifo (c : Core) (f k : Nat) (l : List Token) : fifoAt (setFifo c f l) k = if f = k then l else fifoAt c k :=
  SMap.get_set _ _ _ _ _
@[simp] theorem kget_kset (c : Core) (r q : Nat) (m : BitVec 1024) : kget (kset c r m) q = if r = q then m else kget c q :=
  SMap.get_set _ _ _ _ _

/-- An element after a vector register was written whole. -/
theorem vget_vset (c : Core) (r q e : Nat) (f : Nat → W32) (he : e < 1024) : vget (vset c r f) q e = if r = q then f e else vget c q e := by
  simp only [vget, vset, SMap.get_set]
  split
  · rw [SMap.get_tab, if_pos he]
  · rfl
theorem vget_vput (c : Core) (r q e k : Nat) (w : W32) : vget (vput c r e w) q k = if r = q ∧ e = k then w else vget c q k := by
  simp only [vget, vput, SMap.get_set]
  by_cases h : r = q
  · subst h; simp [SMap.get_set]
  · simp [h]

end Sys2Proof.Machine
end

