-- ==== Sys2Proof/Laws/Assayer.lean ====
section
/-! SUPPORT. The turn of an Assayer runs the instruction that its word names, and what a word does to a run that has words left (R268–R271). -/

namespace Sys2Proof.Machine

/-- The meaning by fields is the meaning of the instruction that the fields name. -/
theorem asyExec_eq_exec {r : AsyRaw} {i : Instr} (hb : buildAsy r = some i) (s : State) : asyExec r s = exec i s := by
  have h0 : ∀ {n : Nat}, n < 2 ^ 14 → r.imm.toNat = n → r.imm = BitVec.ofNat 14 n := fun hn h =>
    BitVec.eq_of_toNat_eq (by rw [h, BitVec.toNat_ofNat, Nat.mod_eq_of_lt hn])
  unfold buildAsy at hb
  split at hb <;> (try split at hb) <;> first
    | (cases hb; done)
    | (cases hb; simp only [asyExec, *]; rfl)
    | (cases hb; rename_i _ h1 _ h2; simp only [asyExec, h1, h0 (by decide) h2]; rfl)

/-- A word of the Assayer whose run goes on. -/
theorem asyWord_go {s : State} {f : State → Run → AsyCtx → AEff} {r r' : Run} {c : AsyCtx} {dist : Int}
    (hr : (asyAt s s.asyCur).run = some r) (hf : f s { r with count := r.count + 1 } (asyCtx s s.asyCur r.ctx) = .go r' c dist)
    (hn : r'.count ≠ 65536) :
    asyWord s f = .next (startRun (setAsyCtx s s.asyCur r'.ctx c) s.asyCur { r' with idx := ((r'.idx : Int) + dist).toNat }) := by
  simp only [asyWord, hr, hf, if_neg hn]

/-- A word that ends its run with a status. -/
theorem asyWord_fail {s t : State} {f : State → Run → AsyCtx → AEff} {r : Run} {st : Stop}
    (hr : (asyAt s s.asyCur).run = some r) (hf : f s { r with count := r.count + 1 } (asyCtx s s.asyCur r.ctx) = .fail t st) :
    asyWord s f = .next (endRun t s.asyCur { r with count := r.count + 1 } st 0) := by
  simp only [asyWord, hr, hf]

/-- A word that halts its run. -/
theorem asyWord_halt {s : State} {f : State → Run → AsyCtx → AEff} {r r' : Run} {c : AsyCtx} {code : Nat}
    (hr : (asyAt s s.asyCur).run = some r) (hf : f s { r with count := r.count + 1 } (asyCtx s s.asyCur r.ctx) = .halt r' c code) :
    asyWord s f = .next (endRun (setAsyCtx s s.asyCur r'.ctx c) s.asyCur r' { status := 0 } code) := by
  simp only [asyWord, hr, hf]

/-- A word always leads to a next state. -/
theorem asyWord_next (s : State) (f : State → Run → AsyCtx → AEff) : ∃ t, asyWord s f = .next t := ⟨_, rfl⟩

end Sys2Proof.Machine
end

