-- ==== Sys2Proof/Laws/GoodOps.lean ====
section
/-! SUPPORT. The shared operations of a core and of memory keep a good state good. -/

namespace Sys2Proof.Machine

variable {s : State}

theorem reset_good : State.reset.Good := ⟨rfl, rfl, Nat.zero_le _, Or.inl rfl, Nat.zero_le _⟩

/-- A fold of a good-keeping step keeps good states good. -/
theorem good_foldl {β : Type} (f : State → β → State) (hf : ∀ s b, s.Good → (f s b).Good) (l : List β) (s : State) (h : s.Good) :
    (l.foldl f s).Good := by
  induction l generalizing s with
  | nil => exact h
  | cons b r ih => exact ih _ (hf s b h)

/-- A fold that carries a state beside other things. -/
theorem good_foldl_fst {β γ : Type} (f : State × γ → β → State × γ) (hf : ∀ p b, p.1.Good → (f p b).1.Good) (l : List β)
    (p : State × γ) (h : p.1.Good) : (l.foldl f p).1.Good := by
  induction l generalizing p with
  | nil => exact h
  | cons b r ih => exact ih _ (hf p b h)

theorem good_foldl_snd {β γ : Type} (f : γ × State → β → γ × State) (hf : ∀ p b, p.2.Good → (f p b).2.Good) (l : List β)
    (p : γ × State) (h : p.2.Good) : (l.foldl f p).2.Good := by
  induction l generalizing p with
  | nil => exact h
  | cons b r ih => exact ih _ (hf p b h)

theorem setCore_good (n : Nat) (c : Core) (h : s.Good) : (setCore s n c).Good := h
theorem upCore_good (n : Nat) (f : Core → Core) (h : s.Good) : (upCore s n f).Good := h
theorem setTeam_good (t : Nat) (x : Team) (h : s.Good) : (setTeam s t x).Good := h
theorem upTeam_good (t : Nat) (f : Team → Team) (h : s.Good) : (upTeam s t f).Good := h
theorem upCluster_good (n : Nat) (f : Cluster → Cluster) (h : s.Good) : (upCluster s n f).Good := h
theorem upQueue_good (n : Nat) (f : Queue → Queue) (h : s.Good) : (upQueue s n f).Good := h
theorem upPart_good (n : Nat) (f : Part → Part) (h : s.Good) : (upPart s n f).Good := h
theorem upFn_good (n : Nat) (f : Fn → Fn) (h : s.Good) : (upFn s n f).Good := h
theorem upCur_good (f : Core → Core) (h : s.Good) : (upCur s f).Good := h
theorem upCurEng_good (f : EngSt → EngSt) (h : s.Good) : (upCurEng s f).Good := h
theorem wr_good (r : Reg) (v : Word) (h : s.Good) : (wr s r v).Good := h
theorem wrN_good (r : Nat) (v : Word) (h : s.Good) : (wrN s r v).Good := h
theorem wrP_good (p : Reg) (b : Bool) (h : s.Good) : (wrP s p b).Good := h
theorem bumpClk_good (h : s.Good) : (bumpClk s).Good := h
theorem eventFn_good (n b : Nat) (h : s.Good) : (eventFn s n b).Good := h
theorem hostSay_good (n : Nat) (c : PcieResult) (h : s.Good) : (hostSay s n c).Good := h
theorem failContext_good (p c : Nat) (h : s.Good) : (failContext s p c).Good := h
theorem resumeTrapped_good (t : Nat) (b : Bool) (h : s.Good) : (resumeTrapped s t b).Good := h

theorem holdFault_good (r : FRec) (h : s.Good) : (holdFault s r).Good := by
  unfold holdFault
  split
  · next hl => exact ⟨h.1, h.2.1, by simpa using hl, h.2.2.2⟩
  · exact h

theorem holdReport_good (r : FRec) (h : s.Good) : (holdReport s r).Good := by
  unfold holdReport
  split
  · next hl => exact ⟨h.1, h.2.1, by simpa using hl, h.2.2.2⟩
  · split
    · exact h
    · exact ⟨h.1, h.2.1, h.2.2.1, h.2.2.2.1, Nat.min_le_left _ _⟩

theorem signalEvent_good (b : Nat) (h : s.Good) : (signalEvent s b).Good :=
  good_foldl _ (fun _ n h => eventFn_good n b h) _ s h

theorem toStageS_good (c : Nat) (h : s.Good) : (toStageS s c).Good :=
  signalEvent_good 4 h

theorem foremanFault_good (h : s.Good) : (foremanFault s).Good := toStageS_good 3 h

theorem raiseFatal_good (f : FInfo) (a w : Nat) (h : s.Good) : (raiseFatal s f a w).Good := by
  unfold raiseFatal
  split
  · exact foremanFault_good h
  · exact failContext_good _ _ (holdFault_good _ h)

theorem raiseTrap_good (f : FInfo) (l : Nat) (m : BitVec 1024) (a w : Nat) (h : s.Good) : (raiseTrap s f l m a w).Good := by
  unfold raiseTrap
  split
  · exact foremanFault_good h
  · dsimp only
    split
    · split
      · exact h
      · exact holdFault_good _ h
    · exact holdFault_good _ h

theorem afterWord_good (p : BitVec 3) (n : Nxt) (h : s.Good) : (afterWord s p n).Good := by
  unfold afterWord
  dsimp only
  split
  · split
    · exact h
    · split <;> exact h
  · exact h

theorem retireWord_good (hd : Hd) (p : BitVec 3) (live : Bool) (w : WordDef) (hw : ∀ s : State, s.Good → (w.post s).Good) (h : s.Good) :
    (retireWord s hd p live w).Good := by
  unfold retireWord
  dsimp only
  split
  · exact afterWord_good _ _ h
  · split
    · exact h
    · split
      · exact hw _ (afterWord_good _ _ h)
      · exact afterWord_good _ _ h

/-! ## Memory -/

theorem setLc_good (m : SMap (Option W32)) (hm : SMap.wf none m = true) (h : s.Good) : State.Good { s with lc := m } :=
  ⟨h.1, hm, h.2.2⟩

theorem setMem_good (m : List Host.Cell) (hm : Memory.wf m = true) (h : s.Good) : State.Good { s with mem := m } :=
  ⟨hm, h.2⟩

theorem wrByte_good (k : Nat) (b : Byte) (h : s.Good) : (wrByte s k b).Good := by
  unfold wrByte
  dsimp only
  split
  · exact setLc_good _ (SMap.wf_set none s.lc _ _ h.2.1) h
  · exact setMem_good _ (SMap.wf_set memDefault s.mem _ _ h.1) h

theorem wrBytes_good (l : List (Nat × Byte)) (h : s.Good) : (wrBytes s l).Good :=
  good_foldl _ (fun _ p h => wrByte_good p.1 p.2 h) l s h

theorem wrRun_good (k : Nat) (l : List Byte) (h : s.Good) : (wrRun s k l).Good := wrBytes_good _ h

theorem newChecks_good (l : List Nat) (h : s.Good) : (newChecks s l).Good := h

theorem decodeFail_good (k : Nat) (h : s.Good) : (decodeFail s k).Good := by
  unfold decodeFail
  split <;> exact h

theorem fillLine_good (k : Nat) (h : s.Good) : (fillLine s k).Good := setLc_good _ (SMap.wf_setAll none _ _ h.2.1) h

theorem fillLines_good (l : List Nat) (h : s.Good) : (fillLines s l).Good := good_foldl _ (fun _ _ h => fillLine_good _ h) _ s h

theorem writeMem_good (l : List (Nat × Byte)) (h : s.Good) : (writeMem s l).Good :=
  newChecks_good _ (wrBytes_good l (fillLines_good _ h))

theorem holdPte_good (w : Who) (a : Nat) (p : Word) (h : s.Good) : (holdPte s w a p).Good := by
  unfold holdPte
  split <;> exact h

theorem markPte_good (a : Nat) (f : Byte → Byte) (h : s.Good) : (markPte s a f).Good := by
  unfold markPte
  split
  · exact h
  · exact writeMem_good _ h

theorem fillAll_good (l : List Nat) (h : s.Good) : (fillAll s l).Good := good_foldl _ (fun _ _ h => fillLine_good _ h) _ s h

theorem fillReads_good (l : List Nat) (h : s.Good) : (fillReads s l).Good := fillAll_good _ h

theorem fillRun_good (w : Who) (a n : Nat) (h : s.Good) : (fillRun s w a n).Good := by
  unfold fillRun
  split
  · exact fillReads_good _ h
  · exact h

theorem loadPte_good (w : Who) (a : Nat) (h : s.Good) : (loadPte s w a).Good := by
  unfold loadPte
  dsimp only
  split
  · exact holdPte_good _ _ _ (markPte_good _ _ h)
  · exact h

theorem notePage_good (w : Who) (sh : Bool) (a : Nat) (h : s.Good) : (notePage s w sh a).Good := by
  unfold notePage
  split
  · exact h
  · split
    · exact h
    · dsimp only
      split
      · exact loadPte_good _ _ (loadPte_good _ _ h)
      · exact loadPte_good _ _ h

theorem notePages_good (w : Who) (sh : Bool) (a n : Nat) (h : s.Good) : (notePages s w sh a n).Good := by
  unfold notePages
  dsimp only
  split
  · exact notePage_good w sh a h
  · exact notePage_good w sh _ (notePage_good w sh a h)

theorem noteAll_good (w : Who) (l : List (Bool × Nat)) (h : s.Good) : (noteAll s w l).Good :=
  good_foldl _ (fun _ _ h => fillRun_good w _ _ h) _ _ (good_foldl _ (fun _ _ h => notePage_good w _ _ h) _ s h)

theorem e2eReport_good (c a b : Nat) (h : s.Good) : (e2eReport s c a b).Good := holdReport_good _ h

theorem windowFail_good (w : Who) (a : Nat) (h : s.Good) : (windowFail s w a).Good := by
  unfold windowFail
  split
  · exact decodeFail_good _ h
  · exact h

theorem xReport_good (x : XFail) (h : s.Good) : (xReport s x).Good := by
  unfold xReport
  split
  · exact e2eReport_good _ _ _ h
  · exact h

theorem fetchReport_good (w : Who) (c : Nat) (f : FInfo) (b : Nat) (h : s.Good) : (fetchReport s w c f b).Good := by
  unfold fetchReport
  split
  · exact e2eReport_good _ _ _ (windowFail_good _ _ h)
  · exact h

theorem performStore_good (c i : Nat) (h : s.Good) : (performStore s c i).Good := by
  unfold performStore
  split
  · exact h
  · dsimp only
    split
    · exact h
    · exact writeMem_good _ h

theorem performNth_good (c k : Nat) (h : s.Good) : (performNth s c k).Good := by
  unfold performNth
  dsimp only
  split
  · exact h
  · split
    · exact h
    · split
      · exact performStore_good c _ h
      · exact performStore_good c _ h

theorem performFirst_good (c n : Nat) (h : s.Good) : (performFirst s c n).Good :=
  good_foldl _ (fun _ _ h => performStore_good c _ h) _ s h

theorem noteTextPage_good (o : Nat) (h : s.Good) : (noteTextPage s o).Good := by
  unfold noteTextPage
  dsimp only
  split
  · exact h
  · split
    · exact markPte_good _ _ h
    · exact h

theorem noteText_good (o n : Nat) (h : s.Good) : (noteText s o n).Good := good_foldl _ (fun _ _ h => noteTextPage_good _ h) _ s h

theorem performAll_good (c : Nat) (h : s.Good) : (performAll s c).Good :=
  good_foldl _ (fun _ _ h => performStore_good c _ h) _ s h

theorem performIn_good (c : Nat) (f : Nat → Bool) (h : s.Good) : (performIn s c f).Good :=
  good_foldl _ (fun _ _ h => performStore_good c _ h) _ s h

theorem performKeys_good (c : Nat) (l : List Nat) (h : s.Good) : (performKeys s c l).Good := performIn_good c _ h

theorem dropLines_good (c a n : Nat) (l : List Nat) (h : s.Good) : (dropLines s c a n l).Good := h

theorem snapLine_good (a : Nat) (l : List Nat) (h : s.Good) : (snapLine s a l).2.Good := by
  unfold snapLine
  dsimp only
  split
  · exact h
  · exact upCur_good _ (fillReads_good _ h)

theorem loadBytes_good (a : Nat) (k : List Nat) (b : Bool) (h : s.Good) : (loadBytes s a k b).2.Good := by
  unfold loadBytes
  dsimp only
  refine good_foldl_snd _ ?_ _ _ ?_
  · intro p q hp
    split
    · exact snapLine_good _ _ hp
    · exact fillReads_good _ hp
  · split
    · exact h
    · exact performKeys_good _ _ h

theorem keepPart_good (a : Nat) (b : List Byte) (h : s.Good) : (keepPart s a b).Good := by
  unfold keepPart
  split
  · exact upCurEng_good _ h
  · exact h

theorem clearPart_good (h : s.Good) : (clearPart s).Good := h

theorem sendReq_good (k : ReqKind) (w : Asker) (a b c : Nat) (d : List Byte) (h : s.Good) : (sendReq s k w a b c d).1.Good := h

/-- What an access answers is good. -/
def GoodM {α : Type} (r : MRes α) : Prop :=
  match r with
  | .ok _ s => s.Good
  | .wait s => s.Good
  | .fail _ s => s.Good

def GoodNeed (r : Need) : Prop :=
  match r with
  | .wait s => s.Good
  | _ => True

/-- What an effect comes to is good. -/
def GoodEff (r : Eff) : Prop :=
  match r with
  | .done s => s.Good
  | .stall _ _ _ s => s.Good
  | .fatal _ s => s.Good
  | .trap _ _ _ s => s.Good

theorem needRemote_good (l : List Nat) (h : s.Good) : GoodNeed (needRemote s l) := by
  unfold needRemote
  dsimp only
  split
  · trivial
  · trivial
  · split
    · exact upCurEng_good _ (sendReq_good _ _ _ _ _ _ h)
    · exact h

theorem coreLoad_good (a n : Nat) (f : Bool) (h : s.Good) : GoodM (coreLoad s a n f) := by
  unfold coreLoad
  dsimp only
  split
  · exact xReport_good _ h
  · split
    · exact h
    · have hn : ∀ l, GoodNeed (needRemote s l) := fun l => needRemote_good l h
      split
      · next he => exact (congrArg GoodNeed he).mp (hn _)
      · exact h
      · split
        · exact e2eReport_good _ _ _ (decodeFail_good _ h)
        · exact keepPart_good _ _ (bumpClk_good (notePages_good _ _ _ _ (loadBytes_good _ _ _ h)))

theorem issuePart_good (a : Nat) (k : List Nat) (d : List Byte) (h : s.Good) : (issuePart s a k d).Good := by
  unfold issuePart
  dsimp only
  repeat' split
  all_goals exact h

theorem issueStore_good (a : Nat) (k : List Nat) (d : List Byte) (f : Nat → Bool) (h : s.Good) : (issueStore s a k d f).Good :=
  good_foldl _ (fun _ _ h => issuePart_good _ _ _ h) _ _ (dropLines_good _ _ _ _ (bumpClk_good (notePages_good _ _ _ _ h)))

theorem coreStoreAt_good (o a : Nat) (d : List Byte) (h : s.Good) : GoodM (coreStoreAt o s a d) := by
  unfold coreStoreAt
  dsimp only
  split
  · exact xReport_good _ h
  · split
    · exact e2eReport_good _ _ _ (decodeFail_good _ h)
    · exact issueStore_good _ _ _ _ h

theorem coreStore_good (a : Nat) (d : List Byte) (h : s.Good) : GoodM (coreStore s a d) := coreStoreAt_good 0 a d h

/-- What a partial access leaves is good. -/
def GoodPart (r : Option State) : Prop :=
  match r with
  | some s => s.Good
  | none => True

theorem partLoad_good (l : List (Nat × Nat)) (f : Bool) (h : s.Good) : GoodPart (partLoad s l f) := by
  unfold partLoad
  cases partOf s l with
  | none => trivial
  | some i =>
    have h1 := coreLoad_good ((accParts s.cur.eng l).getD i (0, 0)).1 ((accParts s.cur.eng l).getD i (0, 0)).2 f h
    show State.Good _
    dsimp only
    split <;> next he => rw [he] at h1; first | exact clearPart_good h1 | exact clearPart_good h

theorem partStore_good (l : List (Nat × List Byte)) (h : s.Good) : GoodPart (partStore s l) := by
  unfold partStore
  dsimp only
  cases partOf s (l.map (fun p => (p.1, p.2.length))) with
  | none => trivial
  | some i =>
    show State.Good _
    dsimp only
    split
    · exact clearPart_good h
    · have h1 := fun o a d => coreStoreAt_good o a d h
      split <;> next he => first | exact clearPart_good ((congrArg GoodM he).mp (h1 _ _ _)) | exact clearPart_good h

/-! ## Words -/

theorem fatalHere_good (f : FInfo) (h : s.Good) : (fatalHere s f).Good := raiseFatal_good f _ _ h

theorem runWordS_good (hd : Hd) (w : WordDef) (he : ∀ s : State, s.Good → GoodEff (w.eff s)) (hp : ∀ s : State, s.Good → (w.post s).Good)
    (h : s.Good) : (runWordS s hd w).Good := by
  unfold runWordS
  dsimp only
  split
  · exact retireWord_good hd _ _ w hp h
  · split
    · exact h
    · split
      · have h1 : (if (curEng s).issued = true then s else upCur s fun c => (popTokens c s.cur.eng hd.pop).1).Good := by
          split <;> exact h
        have h2 := he _ h1
        split
        · next hd2 => rw [hd2] at h2; exact retireWord_good hd _ _ w hp h2
        · next hd2 => rw [hd2] at h2; exact h2
        · next hd2 => rw [hd2] at h2; exact fatalHere_good _ h2
        · next hd2 => rw [hd2] at h2; exact raiseTrap_good _ _ _ _ _ h2
      · refine retireWord_good hd _ _ w hp ?_
        split <;> exact h

theorem runWord_good (hd : Hd) (w : WordDef) (he : ∀ s : State, s.Good → GoodEff (w.eff s)) (hp : ∀ s : State, s.Good → (w.post s).Good)
    (h : s.Good) : GoodOut (runWord s hd w) := runWordS_good hd w he hp h

theorem runEff_good (hd : Hd) (e : State → Eff) (he : ∀ s : State, s.Good → GoodEff (e s)) (h : s.Good) : GoodOut (runEff s hd e) :=
  runWord_good hd _ he (fun _ h => h) h

theorem effLoad_good (a n : Nat) (f : Bool) (k : List Byte → State → Eff) (hk : ∀ l (s : State), s.Good → GoodEff (k l s)) (h : s.Good) :
    GoodEff (effLoad s a n f k) := by
  have h0 := partLoad_good [(a, n)] f h
  have h1 := coreLoad_good a n f h
  unfold effLoad
  split
  · next he => rw [he] at h0; exact h0
  · split <;> next he => rw [he] at h1; first | exact hk _ _ h1 | exact h1

theorem effStore_good (a : Nat) (d : List Byte) (k : State → Eff) (hk : ∀ s : State, s.Good → GoodEff (k s)) (h : s.Good) :
    GoodEff (effStore s a d k) := by
  have h0 := partStore_good [(a, d)] h
  have h1 := coreStore_good a d h
  unfold effStore
  split
  · next he => rw [he] at h0; exact h0
  · split <;> next he => rw [he] at h1; first | exact hk _ h1 | exact h1

theorem effAddrOr_good (a : Reg) (i : Int) (n : Nat) (k : Nat → Eff) (hk : ∀ x, GoodEff (k x)) (h : s.Good) :
    GoodEff (effAddrOr s a i n k) := by
  unfold effAddrOr
  split
  · exact hk _
  · exact h

end Sys2Proof.Machine
end

