-- ==== Sys2Proof/Laws/GoodCore.lean ====
section
/-! SUPPORT. Scalar and control words, probes, teams and the walk of text keep a good state good. -/

namespace Sys2Proof.Machine

variable {s : State}

theorem ite_good {c : Prop} [Decidable c] {a b : State} (ha : a.Good) (hb : b.Good) : (if c then a else b).Good := by
  split
  · exact ha
  · exact hb


/-! ## Scalar -/

theorem setReg_good (h : Hd) (d : Reg) (f : State → Word) (hs : State.Good s) : GoodOut (setReg s h d f) := by
  unfold setReg
  try dsimp only
  solve_by_elim (maxDepth := 14) [wr_good, runWord_good]

theorem setPr_good (h : Hd) (d : Reg) (f : State → Bool) (hs : State.Good s) : GoodOut (setPr s h d f) := by
  unfold setPr
  try dsimp only
  solve_by_elim (maxDepth := 14) [wrP_good, runWord_good]

theorem execNop_good (h : Hd) (hs : State.Good s) : GoodOut (execNop h s) := by
  unfold execNop
  try dsimp only
  solve_by_elim (maxDepth := 14) [runWord_good]

theorem execMovi_good (h : Hd) (d : Reg) (imm : W32) (hs : State.Good s) : GoodOut (execMovi h d imm s) := setReg_good _ _ _ hs

theorem execMoviHi_good (h : Hd) (d : Reg) (imm : W32) (hs : State.Good s) : GoodOut (execMoviHi h d imm s) := setReg_good _ _ _ hs

theorem execMov_good (h : Hd) (d a : Reg) (hs : State.Good s) : GoodOut (execMov h d a s) := setReg_good _ _ _ hs

theorem execAdd_good (h : Hd) (d a b : Reg) (hs : State.Good s) : GoodOut (execAdd h d a b s) := setReg_good _ _ _ hs

theorem execSub_good (h : Hd) (d a b : Reg) (hs : State.Good s) : GoodOut (execSub h d a b s) := setReg_good _ _ _ hs

theorem execAddi_good (h : Hd) (d a : Reg) (imm : W32) (hs : State.Good s) : GoodOut (execAddi h d a imm s) := setReg_good _ _ _ hs

theorem execShl_good (h : Hd) (d a : Reg) (sh : Shamt) (hs : State.Good s) : GoodOut (execShl h d a sh s) := setReg_good _ _ _ hs

theorem execShr_good (h : Hd) (d a : Reg) (sh : Shamt) (hs : State.Good s) : GoodOut (execShr h d a sh s) := setReg_good _ _ _ hs

theorem execSar_good (h : Hd) (d a : Reg) (sh : Shamt) (hs : State.Good s) : GoodOut (execSar h d a sh s) := setReg_good _ _ _ hs

theorem execAnd_good (h : Hd) (d a b : Reg) (hs : State.Good s) : GoodOut (execAnd h d a b s) := setReg_good _ _ _ hs

theorem execOr_good (h : Hd) (d a b : Reg) (hs : State.Good s) : GoodOut (execOr h d a b s) := setReg_good _ _ _ hs

theorem execXor_good (h : Hd) (d a b : Reg) (hs : State.Good s) : GoodOut (execXor h d a b s) := setReg_good _ _ _ hs

theorem execCmp_good (h : Hd) (r : CmpRel) (d a b : Reg) (hs : State.Good s) : GoodOut (execCmp h r d a b s) := setPr_good _ _ _ hs

theorem execSel_good (h : Hd) (d a b e : Reg) (hs : State.Good s) : GoodOut (execSel h d a b e s) := setReg_good _ _ _ hs

theorem execTsend_good (h : Hd) (a : Reg) (hs : State.Good s) : GoodOut (execTsend h a s) := by
  unfold execTsend
  try dsimp only
  solve_by_elim (maxDepth := 14) [runWord_good]

theorem execTrecv_good (h : Hd) (d : Reg) (hs : State.Good s) : GoodOut (execTrecv h d s) := setReg_good _ _ _ hs

theorem execPand_good (h : Hd) (d a b : Reg) (hs : State.Good s) : GoodOut (execPand h d a b s) := setPr_good _ _ _ hs

theorem execPor_good (h : Hd) (d a b : Reg) (hs : State.Good s) : GoodOut (execPor h d a b s) := setPr_good _ _ _ hs

theorem execPxor_good (h : Hd) (d a b : Reg) (hs : State.Good s) : GoodOut (execPxor h d a b s) := setPr_good _ _ _ hs

theorem execPnot_good (h : Hd) (d a : Reg) (hs : State.Good s) : GoodOut (execPnot h d a s) := setPr_good _ _ _ hs

theorem execPmov_good (h : Hd) (d a : Reg) (hs : State.Good s) : GoodOut (execPmov h d a s) := setPr_good _ _ _ hs

theorem repS_good (h : Hd) (imm : W32) (hs : State.Good s) : (repS h imm s).Good := by
  unfold repS
  try dsimp only
  repeat' split
  all_goals solve_by_elim (maxDepth := 14) [upCur_good, upCurEng_good, fatalHere_good]

theorem execRep_good (h : Hd) (imm : W32) (hs : State.Good s) : GoodOut (execRep h imm s) := by
  unfold execRep
  try dsimp only
  solve_by_elim (maxDepth := 14) [repS_good]

theorem execMul_good (h : Hd) (_ty : ETy) (d a b : Reg) (hs : State.Good s) : GoodOut (execMul h _ty d a b s) := setReg_good _ _ _ hs

theorem execMulh_good (h : Hd) (ty : ETy) (d a b : Reg) (hs : State.Good s) : GoodOut (execMulh h ty d a b s) := setReg_good _ _ _ hs

theorem execDiv_good (h : Hd) (ty : ETy) (d a b : Reg) (hs : State.Good s) : GoodOut (execDiv h ty d a b s) := setReg_good _ _ _ hs

theorem execRem_good (h : Hd) (ty : ETy) (d a b : Reg) (hs : State.Good s) : GoodOut (execRem h ty d a b s) := setReg_good _ _ _ hs

theorem execMin_good (h : Hd) (ty : ETy) (d a b : Reg) (hs : State.Good s) : GoodOut (execMin h ty d a b s) := setReg_good _ _ _ hs

theorem execMax_good (h : Hd) (ty : ETy) (d a b : Reg) (hs : State.Good s) : GoodOut (execMax h ty d a b s) := setReg_good _ _ _ hs

theorem execClz_good (h : Hd) (d a : Reg) (hs : State.Good s) : GoodOut (execClz h d a s) := setReg_good _ _ _ hs

theorem execPopc_good (h : Hd) (d a : Reg) (hs : State.Good s) : GoodOut (execPopc h d a s) := setReg_good _ _ _ hs

theorem execBfx_good (h : Hd) (ty : ETy) (d a : Reg) (imm : W32) (hs : State.Good s) : GoodOut (execBfx h ty d a imm s) := setReg_good _ _ _ hs

theorem execBfi_good (h : Hd) (_ty : ETy) (d a b : Reg) (imm : W32) (hs : State.Good s) : GoodOut (execBfi h _ty d a b imm s) := setReg_good _ _ _ hs


/-! ## Control -/

theorem coreAtomic_good (op : AtOp) (ty : ETy) (addr n : Nat) (v v2 : Nat) (hs : s.Good) : GoodM (coreAtomic s op ty addr n v v2) := by
  unfold coreAtomic
  dsimp only
  split
  · exact hs
  · split
    · exact xReport_good _ hs
    · split
      · exact hs
      · split
        · exact hs
        · split
          · split
            · split
              · exact e2eReport_good _ _ _ hs
              · exact hs
            · exact bumpClk_good (dropLines_good _ _ _ _ hs)
            · exact bumpClk_good hs
            · exact hs
            · split
              · exact bumpClk_good (notePages_good _ _ _ _ hs)
              · split
                · exact upCurEng_good _ (sendReq_good _ _ _ _ _ _ (notePages_good _ _ _ _ hs))
                · exact hs
          · split
            · exact bumpClk_good (dropLines_good _ _ _ _ (newChecks_good _ (wrBytes_good _
                (fillReads_good _ (performKeys_good _ _ (notePages_good _ _ _ _ hs))))))
            · exact e2eReport_good _ _ _ hs

theorem wrPE_good (e : Reg) (b : Bool) (hs : State.Good s) : (wrPE s e b).Good := by
  unfold wrPE
  try dsimp only
  repeat' split
  all_goals solve_by_elim (maxDepth := 14) [wrP_good]

theorem atomWord_good (op : AtOp) (h : Hd) (ty : ETy) (d a b e : Reg) (imm : W32) (hs : s.Good) :
    GoodOut (atomWord op h ty d a b e imm s) := by
  refine runEff_good _ _ (fun s hs => effAddrOr_good _ _ _ _ (fun x => ?_) hs) hs
  have h1 := coreAtomic_good op ty x (etyBits ty / 8) (atV s b (etyBits ty / 8) 0) (atV s b (etyBits ty / 8) 1) hs
  split <;> next he => rw [he] at h1; first | exact wrPE_good _ _ (wr_good _ _ h1) | exact h1

theorem execAtomCas128_good (h : Hd) (ty : ETy) (d a b e : Reg) (imm : W32) (hs : s.Good) :
    GoodOut (execAtomCas128 h ty d a b e imm s) := by
  refine runEff_good _ _ (fun s hs => effAddrOr_good _ _ _ _ (fun x => ?_) hs) hs
  extract_lets v v2
  have h1 := coreAtomic_good .cas128 ty x 16 v v2 hs
  split <;> next he => rw [he] at h1; first | exact wrPE_good _ _ (wrN_good _ _ (wr_good _ _ h1)) | exact h1

theorem execBr_good (h : Hd) (imm : W32) (hs : State.Good s) : GoodOut (execBr h imm s) := by
  unfold execBr
  try dsimp only
  repeat' split
  all_goals solve_by_elim (maxDepth := 14) [fatalHere_good, runWord_good]

theorem postTarget_good (t : Nat) (hs : State.Good s) : GoodEff (postTarget s t) := by
  unfold postTarget
  try dsimp only
  repeat' split
  all_goals solve_by_elim (maxDepth := 14) [upCur_good, good_foldl, good_foldl_fst, good_foldl_snd]

theorem steerWord_good (h : Hd) (target : State → Nat) (also : State → State) (ha : ∀ s : State, s.Good → (also s).Good) (hs : s.Good) :
    GoodOut (steerWord s h target also) := by
  unfold steerWord
  split
  · refine runWord_good _ _ (fun s hs => ?_) (fun _ h => h) hs
    have h1 := postTarget_good (target s) hs
    dsimp only
    split
    · next he => rw [he] at h1; exact ha _ h1
    · exact h1
  · exact fatalHere_good _ hs

theorem execSteer_good (h : Hd) (imm : W32) (hs : State.Good s) : GoodOut (execSteer h imm s) := by
  unfold execSteer
  try dsimp only
  solve_by_elim (maxDepth := 14) [steerWord_good]

theorem execSteerX_good (h : Hd) (a : Reg) (hs : State.Good s) : GoodOut (execSteerX h a s) := by
  unfold execSteerX
  try dsimp only
  solve_by_elim (maxDepth := 14) [steerWord_good]

theorem execCall_good (h : Hd) (d : Reg) (imm : W32) (hs : State.Good s) : GoodOut (execCall h d imm s) := by
  unfold execCall
  try dsimp only
  solve_by_elim (maxDepth := 14) [wr_good, steerWord_good]

theorem execRet_good (h : Hd) (a : Reg) (hs : State.Good s) : GoodOut (execRet h a s) := by
  unfold execRet
  try dsimp only
  solve_by_elim (maxDepth := 14) [steerWord_good]

theorem execFni_good (h : Hd) (cl : FenceCls) (d : Reg) (imm : W32) (hs : State.Good s) : GoodOut (execFni h cl d imm s) := by
  unfold execFni
  try dsimp only
  solve_by_elim (maxDepth := 14) [upCur_good, runEff_good]

theorem execFnw_good (h : Hd) (a : Reg) (hs : s.Good) : GoodOut (execFnw h a s) := by
  refine runEff_good _ _ (fun s hs => ?_) hs
  dsimp only
  split <;> exact hs

theorem execPhase_good (h : Hd) (sc : Scope) (hs : s.Good) : GoodOut (execPhase h sc s) := by
  refine runEff_good _ _ (fun s hs => ?_) hs
  split <;> exact hs

theorem arriveBar_good (tid n : Nat) (hs : State.Good s) : (arriveBar s tid n).Good := by
  unfold arriveBar
  try dsimp only
  solve_by_elim (maxDepth := 14) [upTeam_good]

theorem execBarArr_good (h : Hd) (imm : W32) (hs : s.Good) : GoodOut (execBarArr h imm s) := by
  refine runEff_good _ _ (fun s hs => ?_) hs
  dsimp only
  repeat' split
  all_goals first | exact hs | exact arriveBar_good _ _ (upCur_good _ hs)

theorem execBarWait_good (h : Hd) (imm : W32) (hs : s.Good) : GoodOut (execBarWait h imm s) := by
  refine runEff_good _ _ (fun s hs => ?_) hs
  dsimp only
  repeat' split
  all_goals exact hs

theorem execWaitw_good (h : Hd) (r : WaitRel) (ty : ETy) (d a b : Reg) (imm : W32) (hs : s.Good) :
    GoodOut (execWaitw h r ty d a b imm s) := by
  refine runEff_good _ _ (fun s hs => effAddrOr_good _ _ _ _ (fun x => ?_) hs) hs
  split
  · exact hs
  · refine effLoad_good _ _ _ _ (fun l s hs => ?_) hs
    split <;> exact hs

theorem addOverrun_good (tid late : Nat) (hs : State.Good s) : (addOverrun s tid late).Good := by
  unfold addOverrun
  try dsimp only
  solve_by_elim (maxDepth := 14) [upTeam_good]

theorem execTwait_good (h : Hd) (a : Reg) (hs : s.Good) : GoodOut (execTwait h a s) := by
  refine runEff_good _ _ (fun s hs => ?_) hs
  dsimp only
  split
  · exact hs
  · show State.Good (if _ then _ else _)
    split
    · exact addOverrun_good _ _ hs
    · exact hs

theorem execTickRead_good (h : Hd) (d : Reg) (hs : State.Good s) : GoodOut (execTickRead h d s) := setReg_good _ _ _ hs

theorem execNpre_good (h : Hd) (hs : s.Good) : GoodOut (execNpre h s) := by
  refine runWord_good _ _ (fun s hs => ?_) (fun _ h => h) hs
  dsimp only
  split <;> exact hs

theorem execEpre_good (h : Hd) (hs : State.Good s) : GoodOut (execEpre h s) := by
  unfold execEpre
  try dsimp only
  solve_by_elim (maxDepth := 14) [upCur_good, runWord_good]

theorem nopreFatal_good (core : Nat) (hs : s.Good) : (nopreFatal s core).Good := by
  unfold nopreFatal
  dsimp only
  split
  · split
    · exact foremanFault_good hs
    · exact failContext_good _ _ (holdFault_good _ hs)
  · exact hs

theorem execNopreOverrun_good (core : Nat) (hs : State.Good s) : GoodOut (execNopreOverrun core s) := by
  unfold execNopreOverrun
  try dsimp only
  solve_by_elim (maxDepth := 14) [nopreFatal_good]

theorem refetch_good (lo hi : Nat) (hs : State.Good s) : (refetch s lo hi).Good := by
  unfold refetch
  try dsimp only
  solve_by_elim (maxDepth := 14) [upCur_good, notePage_good, good_foldl, good_foldl_fst, good_foldl_snd]

theorem execTextsync_good (h : Hd) (a b : Reg) (hs : s.Good) : GoodOut (execTextsync h a b s) := by
  unfold execTextsync
  split
  · refine runEff_good _ _ (fun s hs => ?_) hs
    dsimp only
    refine ite_good ?_ ?_
    · exact hs
    · exact refetch_good _ _ hs
  · exact fatalHere_good _ hs

theorem execSignal_good (h : Hd) (sc : Scope) (a b : Reg) (imm : W32) (hs : s.Good) : GoodOut (execSignal h sc a b imm s) := by
  refine runEff_good _ _ (fun s hs => effAddrOr_good _ _ _ _ (fun x => ?_) hs) hs
  have h1 := coreAtomic_good .add .n64 x 8 (rd s b).toNat 0 hs
  dsimp only
  split
  · exact hs
  · split
    · split <;> next he => rw [he] at h1; exact h1
    · exact hs

theorem execTrap_good (h : Hd) (imm : W32) (hs : State.Good s) : GoodOut (execTrap h imm s) := by
  unfold execTrap
  try dsimp only
  solve_by_elim (maxDepth := 14) [raiseTrap_good, runWord_good]

theorem execSrd_good (h : Hd) (d : Reg) (imm : W32) (hs : State.Good s) : GoodOut (execSrd h d imm s) := by
  unfold execSrd
  try dsimp only
  repeat' split
  all_goals solve_by_elim (maxDepth := 14) [fatalHere_good, setReg_good]

theorem retryC_good (core : Nat) (kinds : List Nat) (run : State → Out) (hr : ∀ s : State, s.Good → GoodOut (run s)) (hs : s.Good) :
    GoodOut (retryC s core kinds run) := by
  unfold retryC
  dsimp only
  split
  · exact hr _ hs
  · exact hs


/-! ## Probe -/

theorem probeDone_good (d e : Reg) (code : Nat) (p : Bool) (hs : State.Good s) : GoodEff (probeDone s d e code p) := by
  unfold probeDone
  try dsimp only
  solve_by_elim (maxDepth := 14) [wr_good, wrP_good]

theorem askHost_good (home pa : Nat) (hs : State.Good s) : (askHost s home pa).Good := by
  unfold askHost
  try dsimp only
  solve_by_elim (maxDepth := 14) [upCurEng_good, sendReq_good]

theorem probeHost_good (c : ProbeCls) (d e : Reg) (part home pa : Nat) (hs : State.Good s) : GoodEff (probeHost s c d e part home pa) := by
  unfold probeHost
  try dsimp only
  repeat' split
  all_goals solve_by_elim (maxDepth := 14) [upPart_good, upCurEng_good, sendReq_good, probeDone_good, askHost_good]

theorem probeHit_good (c : ProbeCls) (d e : Reg) (w : Who) (addr key : Nat) (hs : State.Good s) : GoodEff (probeHit s c d e w addr key) := by
  unfold probeHit
  try dsimp only
  repeat' split
  all_goals solve_by_elim (maxDepth := 14) [notePages_good, probeDone_good]

theorem probeAt_good (c : ProbeCls) (d e : Reg) (addr : Nat) (hs : State.Good s) : GoodEff (probeAt s c d e addr) := by
  unfold probeAt
  dsimp only
  split
  · exact probeDone_good _ _ _ _ hs
  · split
    · split
      · exact probeHost_good _ _ _ _ _ _ hs
      · exact probeHit_good _ _ _ _ _ _ hs
    · exact xReport_good _ hs
    · exact hs
    · exact probeDone_good _ _ _ _ hs

theorem execProbe_good (h : Hd) (c : ProbeCls) (d a e : Reg) (imm : W32) (hs : State.Good s) : GoodOut (execProbe h c d a e imm s) := by
  unfold execProbe
  try dsimp only
  solve_by_elim (maxDepth := 14) [runEff_good, effAddrOr_good, probeAt_good]

theorem answerEng_good (core : Nat) (g : Eng) (id : Nat) (f : Reply → Reply) (hs : s.Good) :
    ∀ t, answerEng s core g id f = some t → t.Good := by
  unfold answerEng
  dsimp only
  intro t
  split
  · rintro ⟨⟩; exact hs
  · split
    · rintro ⟨⟩; exact hs
    · rintro ⟨⟩

theorem pageResponse_good (part idx : Nat) (resp : PriResp) (hs : s.Good) : (pageResponse part idx resp s).Good := by
  unfold pageResponse
  split
  · exact hs
  · extract_lets s1 s2
    split
    · next he => exact answerEng_good _ _ _ _ (s := s2) hs _ he
    · exact hs

theorem execPageRequestResponse_good (part idx : Nat) (resp : PriResp) (hs : State.Good s) : GoodOut (execPageRequestResponse part idx resp s) := by
  unfold execPageRequestResponse
  try dsimp only
  solve_by_elim (maxDepth := 14) [pageResponse_good]

theorem execFenceComplete_good (core : Nat) (hs : s.Good) : GoodOut (execFenceComplete core s) := by
  refine retryC_good _ _ _ (fun s hs => ?_) hs
  split
  · exact execFnw_good _ _ hs
  · exact execPhase_good _ _ hs
  · exact hs

theorem execWaitwPoll_good (core : Nat) (hs : s.Good) : GoodOut (execWaitwPoll core s) := by
  refine retryC_good _ _ _ (fun s hs => ?_) hs
  split
  · exact execWaitw_good _ _ _ _ _ _ _ hs
  · exact hs

theorem execTwaitExpiry_good (core : Nat) (hs : s.Good) : GoodOut (execTwaitExpiry core s) := by
  refine retryC_good _ _ _ (fun s hs => ?_) hs
  split
  · exact execTwait_good _ _ hs
  · exact hs

theorem execSignalAdd_good (core : Nat) (hs : s.Good) : GoodOut (execSignalAdd core s) := by
  refine retryC_good _ _ _ (fun s hs => ?_) hs
  split
  · exact execSignal_good _ _ _ _ _ hs
  · exact hs


/-! ## Teams -/

theorem devReport_good (addr blocks : Nat) (hs : State.Good s) : (devReport s addr blocks).Good := by
  unfold devReport
  try dsimp only
  solve_by_elim (maxDepth := 14) [holdReport_good]

theorem devWrite_good (w : Who) (addr : Nat) (l : List Byte) (hs : State.Good s) : (devWrite s w addr l).Good := by
  unfold devWrite
  try dsimp only
  repeat' split
  all_goals solve_by_elim (maxDepth := 14) [decodeFail_good, writeMem_good, devReport_good]

theorem dropLease_good (cl tid : Nat) (hs : State.Good s) : (dropLease s cl tid).Good := by
  unfold dropLease
  try dsimp only
  repeat' split
  all_goals solve_by_elim (maxDepth := 14) [upCluster_good]

theorem releaseCore_good (core : Nat) (hs : State.Good s) : (releaseCore s core).Good := by
  unfold releaseCore
  try dsimp only
  repeat' split
  all_goals solve_by_elim (maxDepth := 14) [upCore_good, upTeam_good, dropLease_good]

theorem recTileDone_good (q tile : Nat) (hs : s.Good) : (recTileDone s q tile).Good := by
  unfold recTileDone
  dsimp only
  split
  · exact hs
  · exact ite_good hs (devWrite_good _ _ _ (upQueue_good _ _ hs))

theorem dropKept_good (c : Cnd) (hs : s.Good) : (dropKept s c).Good := hs

theorem takeCores_good (l : List Nat) (hs : s.Good) : (takeCores s l).Good := hs

theorem keepCores_good (t : Team) (hs : s.Good) : (keepCores s t).Good := by
  unfold keepCores
  split <;> exact hs

theorem freeTeam_good (tid : Nat) (hs : s.Good) : (freeTeam s tid).Good := by
  unfold freeTeam
  dsimp only
  refine setTeam_good _ _ (upCluster_good _ _ ?_)
  refine good_foldl _ (fun s n h => ?_) _ _ (dropKept_good _ (keepCores_good _ hs))
  exact ite_good (setCore_good _ _ h) h

theorem finishTeam_good (tid : Nat) (hs : State.Good s) : (finishTeam s tid).Good := by
  unfold finishTeam
  try dsimp only
  repeat' split
  all_goals solve_by_elim (maxDepth := 14) [freeTeam_good]

theorem sweepTeams_good  (hs : State.Good s) : (sweepTeams s).Good := by
  unfold sweepTeams
  try dsimp only
  solve_by_elim (maxDepth := 14) [finishTeam_good, good_foldl, good_foldl_fst, good_foldl_snd]

theorem tileComplete_good (tid : Nat) (hs : State.Good s) : (tileComplete s tid).Good := by
  unfold tileComplete
  try dsimp only
  repeat' split
  all_goals solve_by_elim (maxDepth := 14) [upCore_good, recTileDone_good, finishTeam_good, good_foldl, good_foldl_fst, good_foldl_snd]

theorem retireTile_good (core : Nat) (g : Eng) (hs : s.Good) : (retireTile s core g).Good := by
  unfold retireTile
  dsimp only
  split
  · split
    · split
      · exact tileComplete_good _ (releaseCore_good _ hs)
      · exact hs
    · exact hs
  · exact hs

theorem execRetireForTile_good (core : Nat) (g : Eng) (hs : State.Good s) : GoodOut (execRetireForTile core g s) := by
  unfold execRetireForTile
  try dsimp only
  solve_by_elim (maxDepth := 14) [retireTile_good]

theorem askHalt_good (tid : Nat) (ends : TState) (discard waits : Bool) (hs : State.Good s) : (askHalt s tid ends discard waits).Good := by
  unfold askHalt
  try dsimp only
  repeat' split
  all_goals solve_by_elim (maxDepth := 14) [upTeam_good]

theorem beginHalt_good (tid : Nat) (hs : State.Good s) : (beginHalt s tid).Good := by
  unfold beginHalt
  try dsimp only
  repeat' split
  all_goals solve_by_elim (maxDepth := 14) [upTeam_good]

theorem execHaltRequest_good (tid : Nat) (hs : State.Good s) : GoodOut (execHaltRequest tid s) := by
  unfold execHaltRequest
  try dsimp only
  solve_by_elim (maxDepth := 14) [beginHalt_good]

theorem endHalt_good (tid : Nat) (hs : State.Good s) : (endHalt s tid).Good := by
  unfold endHalt
  try dsimp only
  repeat' split
  all_goals solve_by_elim (maxDepth := 14) [upCore_good, good_foldl, good_foldl_fst, good_foldl_snd]

theorem execHaltComplete_good (tid : Nat) (hs : State.Good s) : GoodOut (execHaltComplete tid s) := by
  unfold execHaltComplete
  try dsimp only
  solve_by_elim (maxDepth := 14) [endHalt_good]

theorem freshImage_good (slot : Nat) (hs : s.Good) : (freshImage s slot).Good := hs

theorem saveTeam_good (tid : Nat) (hs : s.Good) : (saveTeam s tid).Good := by
  have h2 : ∀ l : List Nat, (l.foldl (fun s n => upCore s n (fun c => { c with fnFlight := 0 })) (l.foldl performAll s)).Good := by
    intro l
    refine good_foldl _ (fun _ _ h => upCore_good _ _ h) _ _ ?_
    exact good_foldl _ (fun _ n h => performAll_good n h) _ s hs
  unfold saveTeam
  dsimp only
  split
  · refine ite_good (ite_good (freeTeam_good _ (h2 _)) ?_) hs
    refine freshImage_good _ (upTeam_good _ _ ?_)
    refine upTeam_good (s := { upCluster (keepCores (List.foldl _ _ _) _) _ _ with order := _ }) _ _ ?_
    exact keepCores_good _ (good_foldl _ (fun _ _ h => upCore_good _ _ h) _ _ (h2 _))
  · exact hs


theorem execTeamSave_good (tid : Nat) (hs : State.Good s) : GoodOut (execTeamSave tid s) := by
  unfold execTeamSave
  try dsimp only
  solve_by_elim (maxDepth := 14) [saveTeam_good]

theorem restoreTeam_good (tid : Nat) (hs : s.Good) : (restoreTeam s tid).Good := by
  unfold restoreTeam
  extract_lets t put
  split
  · exact hs
  · extract_lets s1 s2 cur
    have h2 : s2.Good := by
      refine upTeam_good _ _ ?_
      refine good_foldl _ (fun s p h => ?_) _ _ hs
      exact ite_good (addOverrun_good _ _ (setCore_good _ _ h)) (setCore_good _ _ h)
    refine ite_good ?_ h2
    split
    · extract_lets s3
      exact ite_good (retireWord_good _ _ _ { eff := effDo id } (fun _ h => h) (upCurEng_good _ h2)) h2
    · exact h2

theorem execThermalMigration_good (cl : Nat) (hot : Bool) (hs : State.Good s) : GoodOut (execThermalMigration cl hot s) := by
  unfold execThermalMigration
  try dsimp only
  repeat' split
  all_goals solve_by_elim (maxDepth := 14) [upCluster_good, askHalt_good, good_foldl, good_foldl_fst, good_foldl_snd]


/-! ## Walk -/

theorem headerStep_good  (hs : State.Good s) : (headerStep s).Good := by
  unfold headerStep
  try dsimp only
  repeat' split
  all_goals solve_by_elim (maxDepth := 14) [upCurEng_good, raiseFatal_good, fetchReport_good, noteText_good]

theorem onEng_good (core : Nat) (g : Eng) (hs : State.Good s) : (onEng s core g).Good := by
  unfold onEng
  try dsimp only
  solve_by_elim (maxDepth := 14) []

theorem execSectionHeaderExamine_good (core : Nat) (g : Eng) (hs : State.Good s) : GoodOut (execSectionHeaderExamine core g s) := by
  unfold execSectionHeaderExamine
  try dsimp only
  repeat' split
  all_goals solve_by_elim (maxDepth := 14) [headerStep_good, onEng_good]

theorem execSteerTargetPop_good (core : Nat) (g : Eng) (hs : State.Good s) : GoodOut (execSteerTargetPop core g s) := by
  unfold execSteerTargetPop
  try dsimp only
  repeat' split
  all_goals solve_by_elim (maxDepth := 14) [headerStep_good, onEng_good]

theorem execJoinRendezvous_good (core : Nat) (g : Eng) (hs : State.Good s) : GoodOut (execJoinRendezvous core g s) := by
  unfold execJoinRendezvous
  try dsimp only
  repeat' split
  all_goals solve_by_elim (maxDepth := 14) [headerStep_good, onEng_good]

theorem execTokenDeadlock_good (core : Nat) (hs : s.Good) : GoodOut (execTokenDeadlock core s) := by
  show State.Good (if _ then _ else _)
  split
  · split
    · exact foremanFault_good hs
    · exact failContext_good _ _ (holdFault_good _ hs)
  · exact hs

end Sys2Proof.Machine
end

