-- ==== Sys2Proof/Laws/GoodFlow.lean ====
section
/-! SUPPORT. Queues, the walkers, images, privileged words and Lode regions keep a good state good. -/

namespace Sys2Proof.Machine

variable {s : State}

/-! ## Queues -/

theorem enableQueue_good (q : Nat) (hs : State.Good s) : (enableQueue s q).Good := by
  unfold enableQueue
  try dsimp only
  repeat' split
  all_goals solve_by_elim (maxDepth := 14) [upQueue_good]

theorem discardTeams_good (q : Nat) (resident : Bool) (hs : s.Good) : (discardTeams s q resident).Good := by
  refine good_foldl _ (fun s tid h => ?_) _ _ hs
  exact ite_good (freeTeam_good _ h) (ite_good (beginHalt_good _ (askHalt_good _ _ _ _ h)) h)

theorem queueWord_good (q addr : Nat) (hs : s.Good) :
    (queueWord s q addr).2.Good ∧ ∀ v t, (queueWord s q addr).1 = some (v, t) → t.Good := by
  unfold queueWord
  dsimp only
  split
  · exact ⟨hs, by rintro _ _ ⟨⟩⟩
  · split
    · split
      · exact ⟨hs, by rintro _ _ ⟨⟩⟩
      · split
        · exact ⟨hs, by rintro _ _ ⟨⟩; exact hs⟩
        · split
          · exact ⟨upQueue_good _ _ (sendReq_good _ _ _ _ _ _ hs), by rintro _ _ ⟨⟩⟩
          · exact ⟨hs, by rintro _ _ ⟨⟩⟩
    · split
      · exact ⟨hs, by rintro _ _ ⟨⟩⟩
      · exact ⟨fillReads_good _ hs, by rintro _ _ ⟨⟩; exact fillReads_good _ hs⟩

theorem waitWords_good (q : Nat) (r : Rec) (hs : s.Good) : (waitWords s q r).2.Good := by
  refine good_foldl_snd _ (fun p w h => ?_) _ _ hs
  have h1 := queueWord_good q w.1 h
  split
  · next he => rw [he] at h1; exact h1.2 _ _ rfl
  · next he => rw [he] at h1; exact h1.1

theorem slotReport_good (part addr blocks : Nat) (hs : State.Good s) : (slotReport s part addr blocks).Good := by
  unfold slotReport
  try dsimp only
  solve_by_elim (maxDepth := 14) [holdReport_good]

def GoodRead (r : CountRead) : Prop :=
  match r with
  | .value _ s => s.Good
  | .wait s => s.Good
  | .fail s => s.Good

theorem readCount_good (q d : Nat) (r : Rec) (hs : s.Good) : GoodRead (readCount s q d r) := by
  unfold readCount
  extract_lets x addr
  clear_value addr
  split
  · exact hs
  · split
    · exact hs
    · split
      · split
        · exact hs
        · split
          · exact hs
          · split
            · exact upQueue_good _ _ (sendReq_good _ _ _ _ _ _ hs)
            · exact hs
      · split
        · exact slotReport_good _ _ _ (decodeFail_good _ hs)
        · exact fillReads_good _ hs

theorem readCounts_good (n q : Nat) (hs : s.Good) : (readCounts n q s).Good := by
  induction n generalizing s with
  | zero => exact hs
  | succ n ih =>
    unfold readCounts
    split
    · exact hs
    · split
      · exact upQueue_good _ _ hs
      · split
        · next r _ _ d _ _ _ _ he =>
          have h := readCount_good q d r hs
          rw [he] at h
          exact ih (upQueue_good _ _ h)
        · next r _ _ d _ _ t he =>
          have h := readCount_good q d r hs
          rw [he] at h
          exact h
        · next r _ _ d _ _ t he =>
          have h := readCount_good q d r hs
          rw [he] at h
          exact upQueue_good _ _ h

theorem becomeRunnable_good (q : Nat) (r : Rec) (hs : s.Good) : (becomeRunnable s q r).Good :=
  readCounts_good _ _ (upQueue_good _ _ hs)


theorem evalWaits_good (q : Nat) (hs : s.Good) : (evalWaits s q).Good := by
  unfold evalWaits
  extract_lets x
  split
  · exact hs
  · next r _ =>
    have h := waitWords_good q r hs
    extract_lets p r1
    change p.2.Good at h
    exact ite_good hs (ite_good (readCounts_good _ _ hs) (ite_good (upQueue_good _ _ h)
      (ite_good (becomeRunnable_good _ _ h) (ite_good (upQueue_good _ _ h) h))))


theorem execWaitEvaluation_good (q : Nat) (hs : State.Good s) : GoodOut (execWaitEvaluation q s) := by
  unfold execWaitEvaluation
  try dsimp only
  solve_by_elim (maxDepth := 14) [evalWaits_good]

theorem takeUnread_good (q : Nat) (keys : Except XFail (List Nat)) (hs : s.Good) : (takeUnread s q keys).Good := by
  unfold takeUnread
  refine upQueue_good _ _ ?_
  split
  · split
    · exact slotReport_good _ _ _ (decodeFail_good _ hs)
    · exact hs
  · exact hs

theorem takeBytes_good (q : Nat) (final : Option Nat) (got : Option (List Byte)) (keys : Except XFail (List Nat)) (hs : State.Good s) : (takeBytes s q final got keys).Good := by
  unfold takeBytes
  try dsimp only
  repeat' split
  all_goals solve_by_elim (maxDepth := 14) [upQueue_good, takeUnread_good]

theorem takeHead_good (q : Nat) (final : Option Nat) (hs : s.Good) : (takeHead s q final).Good :=
  takeBytes_good _ _ _ _ (fillRun_good _ _ _ hs)

theorem destroyNext_good (n q : Nat) (hs : s.Good) : (destroyNext n q s).Good := by
  induction n generalizing s with
  | zero => exact upQueue_good _ _ hs
  | succ n ih =>
    unfold destroyNext
    exact ite_good (upQueue_good _ _ hs) (ite_good (takeHead_good _ _ hs) (ih (upQueue_good _ _ hs)))

theorem takeRecord_good (q : Nat) (hs : s.Good) : (takeRecord s q).Good :=
  ite_good hs (ite_good (evalWaits_good _ (takeHead_good _ _ hs)) (ite_good (destroyNext_good _ _ hs) hs))

theorem execRecordTake_good (q : Nat) (hs : State.Good s) : GoodOut (execRecordTake q s) := by
  unfold execRecordTake
  try dsimp only
  solve_by_elim (maxDepth := 14) [takeRecord_good]

theorem deadlineExpire_good (q : Nat) (hs : State.Good s) : (deadlineExpire s q).Good := by
  unfold deadlineExpire
  try dsimp only
  repeat' split
  all_goals solve_by_elim (maxDepth := 14) [sweepTeams_good, upTeam_good, upQueue_good, discardTeams_good, good_foldl, good_foldl_fst, good_foldl_snd]

theorem execDeadlineExpiry_good (q : Nat) (hs : State.Good s) : GoodOut (execDeadlineExpiry q s) := by
  unfold execDeadlineExpiry
  try dsimp only
  solve_by_elim (maxDepth := 14) [deadlineExpire_good]

theorem finishFlush_good (q : Nat) (hs : State.Good s) : (finishFlush s q).Good := by
  unfold finishFlush
  try dsimp only
  repeat' split
  all_goals solve_by_elim (maxDepth := 14) [upQueue_good]

theorem flushQueue_good (q mode : Nat) (hs : State.Good s) : (flushQueue s q mode).Good := by
  unfold flushQueue
  try dsimp only
  repeat' split
  all_goals solve_by_elim (maxDepth := 14) [upQueue_good, discardTeams_good, finishFlush_good]

theorem resetContinue_good (q : Nat) (hs : State.Good s) : (resetContinue s q).Good := by
  unfold resetContinue
  try dsimp only
  solve_by_elim (maxDepth := 14) [upQueue_good]

theorem resetRestart_good (q : Nat) (hs : State.Good s) : (resetRestart s q).Good := by
  unfold resetRestart
  try dsimp only
  solve_by_elim (maxDepth := 14) [upQueue_good, deadlineExpire_good]

theorem destroyQueue_good (q : Nat) (discard : Bool) (hs : s.Good) : (destroyQueue s q discard).Good := by
  unfold destroyQueue
  dsimp only
  have h1 := discardTeams_good q discard (upQueue_good q (fun x =>
      { x with st := .destroying, final := 0x106,
               rcd := x.rcd.map (fun r => { r with parked := false, flush := none, status := if r.status.isNone then some 0x106 else r.status }) }) hs)
  exact ite_good hs (ite_good (destroyNext_good _ _ h1) h1)

theorem execReserveRead_good (fn q : Nat) (hs : State.Good s) : GoodOut (execReserveRead fn q s) := by
  unfold execReserveRead
  try dsimp only
  repeat' split
  all_goals solve_by_elim (maxDepth := 14) [upQueue_good, hostSay_good]

theorem execCommitWrite_good (fn q : Nat) (v : Word) (hs : State.Good s) : GoodOut (execCommitWrite fn q v s) := by
  unfold execCommitWrite
  try dsimp only
  repeat' split
  all_goals solve_by_elim (maxDepth := 14) [upQueue_good]

theorem setCtrl_good (q v : Nat) (hs : State.Good s) : (setCtrl s q v).Good := by
  unfold setCtrl
  try dsimp only
  solve_by_elim (maxDepth := 14) [upQueue_good]

theorem execQueueEnable_good (fn q : Nat) (hs : State.Good s) : GoodOut (execQueueEnable fn q s) := by
  unfold execQueueEnable
  try dsimp only
  repeat' split
  all_goals solve_by_elim (maxDepth := 14) [enableQueue_good, setCtrl_good]

theorem execQueueDestroy_good (fn q : Nat) (discard : Bool) (hs : s.Good) : GoodOut (execQueueDestroy fn q discard s) :=
  ite_good (destroyQueue_good _ _ (setCtrl_good _ _ hs)) hs

theorem pubStores_good (key : Nat) (swap : State → State) (core : Nat) (hs : State.Good s) : (pubStores key swap s core).Good := by
  unfold pubStores
  try dsimp only
  repeat' split
  all_goals solve_by_elim (maxDepth := 14) [upCore_good, performFirst_good]

theorem publish_good (part ctx h scope : Nat) (hs : State.Good s) : (publish s part ctx h scope).Good := by
  unfold publish
  try dsimp only
  repeat' split
  all_goals solve_by_elim (maxDepth := 14) [pubStores_good, good_foldl, good_foldl_fst, good_foldl_snd]

theorem signalRecord_good (q : Nat) (r : Rec) (hs : s.Good) : ∀ t, signalRecord s q r = some t → t.Good := by
  intro t
  unfold signalRecord
  extract_lets x addr ok
  split
  · rintro ⟨⟩; exact hs
  · split
    · rintro ⟨⟩; exact hs
    · extract_lets k
      split
      · split
        · rintro ⟨⟩; exact hs
        · split
          · rintro ⟨⟩; exact upQueue_good _ _ (sendReq_good _ _ _ _ _ _ hs)
          · rintro ⟨⟩
      · split
        · rintro ⟨⟩; exact hs
        · split
          · rintro ⟨⟩; exact slotReport_good _ _ _ (decodeFail_good _ hs)
          · rintro ⟨⟩; exact writeMem_good _ (fillReads_good _ hs)

theorem completeRecord_good (s0 : State) (q : Nat) (hs : s0.Good) : (completeRecord s0 q).Good := by
  have h1 : (finishFlush (sweepTeams s0) q).Good := finishFlush_good _ (sweepTeams_good hs)
  unfold completeRecord
  extract_lets s x
  split
  · exact h1
  · extract_lets s1 r1 first s2 s3
    have h2 : s1.Good := ite_good (good_foldl _ (fun _ _ h => freeTeam_good _ h) _ _ h1) h1
    refine ite_good h2 (ite_good h2 ?_)
    have h3 : s3.Good := ite_good (good_foldl _ (fun _ _ h => publish_good _ _ _ _ h) _ _ (upQueue_good _ _ h2)) (upQueue_good _ _ h2)
    split
    · exact h3
    · next he =>
      have h4 := signalRecord_good _ _ h3 _ he
      split
      · exact ite_good (upQueue_good _ _ h4) h4
      · exact h4

theorem execRecordComplete_good (q : Nat) (hs : s.Good) : GoodOut (execRecordComplete q s) := completeRecord_good s q hs

theorem writeEntry_good (q : Nat) (hs : s.Good) : (writeEntry s q).Good := by
  unfold writeEntry
  dsimp only
  split
  · exact hs
  · have h1 : ∀ (w : Who) (a : Nat) (l : List Byte) (f : Queue → Queue) (c : Cnd), (dropKept (upQueue (devWrite s w a l) q f) c).Good :=
      fun _ _ _ _ _ => dropKept_good _ (upQueue_good _ _ (devWrite_good _ _ _ hs))
    exact ite_good (ite_good (destroyNext_good _ _ (h1 _ _ _ _ _)) (h1 _ _ _ _ _)) hs

theorem execCompletionEntryWrite_good (q : Nat) (hs : s.Good) : GoodOut (execCompletionEntryWrite q s) := writeEntry_good q hs


/-! ## Launch -/

theorem launchCores_good (r : Rec) (n tid : Nat) (l : List (Nat × Nat)) (hs : s.Good) :
    (l.foldl (fun s p => setCore s p.2 (launchCore s r n tid p.1)) s).Good :=
  good_foldl _ (fun _ _ h => setCore_good _ _ h) _ _ hs

theorem launchTile_good (q cl : Nat) (hs : s.Good) : (launchTile s q cl).Good := by
  unfold launchTile
  extract_lets x
  split
  · next r tid _ _ =>
    have h1 := fun c l => launchCores_good r r.next tid l (takeCores_good c hs)
    revert h1
    dsimp only
    generalize hg : List.foldl _ (takeCores s _) _ = t
    intro h1
    have h2 : t.Good := by rw [← hg]; exact h1 _ _
    exact h2
  · exact hs

theorem serve_good (c : Cnd) (hs : s.Good) : ∀ t, serve s c = some t → t.Good := by
  intro t h
  unfold serve at h
  obtain ⟨u, hu, rfl⟩ := Option.map_eq_some_iff.mp h
  refine dropKept_good c ?_
  cases c with
  | team tid =>
    dsimp only at hu
    split at hu
    · cases hu; exact restoreTeam_good _ hs
    · cases hu
  | rcd q =>
    dsimp only at hu
    split at hu
    · split at hu
      · cases hu
      · obtain ⟨cl, -, rfl⟩ := Option.map_eq_some_iff.mp hu
        exact launchTile_good _ _ hs
    · cases hu

theorem serveFirst_good (l : List Cnd) (hs : s.Good) : (serveFirst s l).Good := by
  unfold serveFirst
  cases h : l.findSome? (serve s) with
  | none => exact hs
  | some t =>
    obtain ⟨c, -, hc⟩ := List.exists_of_findSome?_eq_some h
    exact serve_good c hs t hc

theorem haltFor_good (c : Cnd) (tid : Nat) (hs : s.Good) : (haltFor c s tid).Good :=
  beginHalt_good _ (upTeam_good _ _ (askHalt_good _ _ _ _ hs))

theorem walkerChoice_good (s0 : State) (hs : s0.Good) : (walkerChoice s0).Good := by
  have h1 : (sweepTeams s0).Good := sweepTeams_good hs
  unfold walkerChoice
  extract_lets s
  split
  · exact h1
  · split
    · next he => exact serve_good _ h1 _ he
    · exact serveFirst_good _ (good_foldl _ (fun _ _ h => haltFor_good _ _ h) _ _ h1)

theorem execWalkerChoice_good (hs : s.Good) : GoodOut (execWalkerChoice s) := walkerChoice_good s hs


/-! ## Image -/

theorem areaWrite_good (l : List (Nat × Byte)) (hs : State.Good s) : (areaWrite s l).Good := by
  unfold areaWrite
  try dsimp only
  solve_by_elim (maxDepth := 14) [upTeam_good, good_foldl, good_foldl_fst, good_foldl_snd]


/-! ## Priv -/

theorem privWord_good (h : Hd) (eff : State → Eff) (he : ∀ s : State, s.Good → GoodEff (eff s)) (hs : s.Good) :
    GoodOut (privWord h s eff) := by
  unfold privWord
  split
  · exact runEff_good _ _ he hs
  · exact fatalHere_good _ hs

theorem giveStatus_good (d : Reg) (code : Nat) (hs : State.Good s) : GoodEff (giveStatus d code s) := by
  unfold giveStatus
  try dsimp only
  solve_by_elim (maxDepth := 14) [wr_good]

theorem execWsrd_good (h : Hd) (d a : Reg) (imm : W32) (hs : State.Good s) : GoodOut (execWsrd h d a imm s) := by
  unfold execWsrd
  try dsimp only
  solve_by_elim (maxDepth := 14) [wr_good, wrN_good, privWord_good]

theorem haltWord_good (h : Hd) (d a : Reg) (ends : TState) (hs : s.Good) : GoodOut (haltWord h d a ends s) := by
  refine privWord_good _ _ (fun s hs => ?_) hs
  dsimp only
  repeat' split
  all_goals first | exact hs | exact beginHalt_good _ (askHalt_good _ _ _ _ hs) | exact beginHalt_good _ hs | exact wr_good _ _ (askHalt_good _ _ _ _ hs)

theorem execTeamHalt_good (h : Hd) (d a : Reg) (hs : State.Good s) : GoodOut (execTeamHalt h d a s) := by
  unfold execTeamHalt
  try dsimp only
  solve_by_elim (maxDepth := 14) [haltWord_good]

theorem execTeamHold_good (h : Hd) (d a : Reg) (hs : State.Good s) : GoodOut (execTeamHold h d a s) := by
  unfold execTeamHold
  try dsimp only
  solve_by_elim (maxDepth := 14) [haltWord_good]

theorem execTeamKill_good (h : Hd) (d a : Reg) (hs : s.Good) : GoodOut (execTeamKill h d a s) := by
  refine privWord_good _ _ (fun s hs => ?_) hs
  dsimp only
  split
  · exact hs
  · exact wr_good _ _ (failContext_good _ _ (holdFault_good _ hs))

theorem resumeWord_good (h : Hd) (d a : Reg) (skip : Bool) (hs : s.Good) : GoodOut (resumeWord h d a skip s) := by
  refine privWord_good _ _ (fun s hs => ?_) hs
  dsimp only
  repeat' split
  all_goals exact hs

theorem execTeamResumeReexec_good (h : Hd) (d a : Reg) (hs : State.Good s) : GoodOut (execTeamResumeReexec h d a s) := by
  unfold execTeamResumeReexec
  try dsimp only
  solve_by_elim (maxDepth := 14) [resumeWord_good]

theorem execTeamResumeSkip_good (h : Hd) (d a : Reg) (hs : State.Good s) : GoodOut (execTeamResumeSkip h d a s) := by
  unfold execTeamResumeSkip
  try dsimp only
  solve_by_elim (maxDepth := 14) [resumeWord_good]

theorem flushWord_good (h : Hd) (d a : Reg) (mode : Nat) (hs : s.Good) : GoodOut (flushWord h d a mode s) := by
  refine privWord_good _ _ (fun s hs => ?_) hs
  have h1 := fun q => finishFlush_good q (sweepTeams_good hs)
  have h2 := fun q => flushQueue_good q mode hs
  dsimp only
  repeat' split
  all_goals first | exact hs | exact h1 _ | exact h2 _ | exact wr_good _ _ (h1 _) | exact wr_good _ _ (h2 _)

theorem execQFlushFinish_good (h : Hd) (d a : Reg) (hs : State.Good s) : GoodOut (execQFlushFinish h d a s) := by
  unfold execQFlushFinish
  try dsimp only
  solve_by_elim (maxDepth := 14) [flushWord_good]

theorem execQFlushDiscard_good (h : Hd) (d a : Reg) (hs : State.Good s) : GoodOut (execQFlushDiscard h d a s) := by
  unfold execQFlushDiscard
  try dsimp only
  solve_by_elim (maxDepth := 14) [flushWord_good]

theorem resetWord_good (h : Hd) (d a : Reg) (restart : Bool) (hs : s.Good) : GoodOut (resetWord h d a restart s) := by
  refine privWord_good _ _ (fun s hs => ?_) hs
  have h1 := fun q => finishFlush_good q (sweepTeams_good hs)
  dsimp only
  repeat' split
  all_goals first | exact hs | exact h1 _ | exact wr_good _ _ (resetRestart_good _ (h1 _)) | exact wr_good _ _ (resetContinue_good _ (h1 _)) | exact wr_good _ _ (h1 _)

theorem execQResetContinue_good (h : Hd) (d a : Reg) (hs : State.Good s) : GoodOut (execQResetContinue h d a s) := by
  unfold execQResetContinue
  try dsimp only
  solve_by_elim (maxDepth := 14) [resetWord_good]

theorem execQResetRestart_good (h : Hd) (d a : Reg) (hs : State.Good s) : GoodOut (execQResetRestart h d a s) := by
  unfold execQResetRestart
  try dsimp only
  solve_by_elim (maxDepth := 14) [resetWord_good]

theorem execCtxSave_good (h : Hd) (d a b : Reg) (imm : W32) (hs : s.Good) : GoodOut (execCtxSave h d a b imm s) := by
  refine privWord_good _ _ (fun s hs => ?_) hs
  split
  · exact hs
  · dsimp only
    split
    · exact giveStatus_good _ _ (holdReport_good _ hs)
    · exact giveStatus_good _ _ (newChecks_good _ (wrBytes_good _ hs))

theorem execCtxRest_good (h : Hd) (d a b : Reg) (imm : W32) (hs : s.Good) : GoodOut (execCtxRest h d a b imm s) := by
  refine privWord_good _ _ (fun s hs => ?_) hs
  split
  · exact giveStatus_good _ _ hs
  · extract_lets n k tid s1
    have h1 : s1.Good := performIn_good _ _ hs
    clear_value s1
    split
    · exact giveStatus_good _ _ (holdReport_good _ h1)
    · generalize headerImageOk _ = b1
      generalize coreImageOk _ = b2
      split
      · cases b1
        · exact giveStatus_good _ _ h1
        · exact giveStatus_good _ _ (upTeam_good _ _ h1)
      · cases b2
        · exact giveStatus_good _ _ h1
        · exact giveStatus_good _ _ (upTeam_good _ _ h1)


theorem writePriv_good (sel idx : Nat) (v : Word) (hs : s.Good) : (writePriv s sel idx v).Good := by
  unfold writePriv
  split
  · refine ⟨hs.1, hs.2.1, hs.2.2.1, ?_, Nat.zero_le _⟩
    have h := hs.2.2.2.1
    dsimp only
    split
    · exact h
    · omega
  · exact ite_good hs hs
  · exact ite_good (upTeam_good _ _ hs) hs
  · exact hs

theorem execPrd_good (h : Hd) (d a : Reg) (imm : W32) (hs : State.Good s) : GoodOut (execPrd h d a imm s) := by
  unfold execPrd
  try dsimp only
  repeat' split
  all_goals solve_by_elim (maxDepth := 14) [wr_good, fatalHere_good, privWord_good]

theorem execPwr_good (h : Hd) (d a b : Reg) (imm : W32) (hs : State.Good s) : GoodOut (execPwr h d a b imm s) := by
  unfold execPwr
  try dsimp only
  repeat' split
  all_goals solve_by_elim (maxDepth := 14) [fatalHere_good, privWord_good, giveStatus_good, writePriv_good]

theorem popHeld_good (rest : List FRec) (n : Nat) (hn : rest.length + 1 ≤ 64) (hs : s.Good) :
    State.Good { s with fqHeld := rest ++ s.fqWait.take 1, fqWait := s.fqWait.drop 1, fqWritten := n } := by
  refine ⟨hs.1, hs.2.1, ?_, hs.2.2.2⟩
  show (rest ++ List.take 1 _).length ≤ 64
  rw [List.length_append, List.length_take]
  exact Nat.le_trans (Nat.add_le_add_left (Nat.min_le_left _ _) _) hn

theorem writeFault_good (hs : s.Good) : (writeFault s).Good := by
  unfold writeFault
  split
  · exact hs
  · next r rest he =>
    extract_lets n ph t
    have h : t.Good := devWrite_good _ _ _ hs
    clear_value t
    split
    · refine ⟨h.1, h.2.1, ?_, h.2.2.2⟩
      have hl := h.2.2.1
      show (List.drop 1 t.fqHeld ++ List.take 1 t.fqWait).length ≤ 64
      rw [List.length_append, List.length_take, List.length_drop]
      omega
    · exact hs


theorem execFaultRecordWrite_good (hs : s.Good) : GoodOut (execFaultRecordWrite s) := writeFault_good hs


/-! ## Regions -/

theorem setRegion_good (n : Nat) (r : Option Region) (hs : State.Good s) : (setRegion s n r).Good := by
  unfold setRegion
  try dsimp only
  solve_by_elim (maxDepth := 14) []

theorem upBlock_good (k : Nat) (f : Block → Block) (hs : State.Good s) : (upBlock s k f).Good := by
  unfold upBlock
  try dsimp only
  solve_by_elim (maxDepth := 14) []

theorem noteHealth_good (old s : State) (hs : s.Good) : (noteHealth old s).Good :=
  ite_good hs (signalEvent_good _ hs)

theorem markFailed_good (num tile : Nat) (hs : s.Good) : (markFailed s num tile).Good := by
  unfold markFailed
  split
  · exact noteHealth_good _ _ (setRegion_good _ _ hs)
  · exact hs

theorem reservePage_good (num : Nat) (n p : Nat) (hs : State.Good s) : (reservePage num s n p).Good := by
  unfold reservePage
  try dsimp only
  repeat' split
  all_goals solve_by_elim (maxDepth := 14) [setRegion_good]

theorem reserveScale_good (num : Nat) (g stack i : Nat) (hs : State.Good s) : (reserveScale num s g stack i).Good := by
  unfold reserveScale
  try dsimp only
  repeat' split
  all_goals solve_by_elim (maxDepth := 14) [setRegion_good]

theorem reserveScales_good (num : Nat) (r : Region) (l : List Nat) (hs : s.Good) : (reserveScales s num r l).Good :=
  good_foldl _ (fun _ _ h => good_foldl _ (fun _ _ h => reserveScale_good _ _ _ _ (reserveScale_good _ _ _ _ h)) _ _ h) _ _ hs

theorem reserveBlocks_good (num : Nat) (r : Region) (hs : s.Good) : (reserveBlocks s num r).Good :=
  reserveScales_good _ _ _ (good_foldl _ (fun _ _ h => good_foldl _ (fun _ _ h => reservePage_good _ _ _ h) _ _ h) _ _ hs)

theorem fwFill_good (a : Reg) (n : Nat) (hs : s.Good) : (fwFill s a n).Good := fillRun_good _ _ _ hs


theorem execLregCreate_good (h : Hd) (d a : Reg) (opx : BitVec 4) (hs : s.Good) : GoodOut (execLregCreate h d a opx s) := by
  refine privWord_good _ _ (fun s hs => ?_) hs
  split
  · exact giveStatus_good _ _ hs
  · extract_lets s1
    have h0 : s1.Good := fwFill_good a 64 hs
    clear_value s1
    split
    · exact giveStatus_good _ _ h0
    · extract_lets sts n r t
      have h1 : t.Good := reserveBlocks_good _ _ (setRegion_good _ _ (s := { s1 with free := s1.free + 1 }) h0)
      clear_value t
      repeat' split
      all_goals first | exact giveStatus_good _ _ h0 | exact giveStatus_good _ _ h1 |
        exact giveStatus_good _ _ (show State.Good { s1 with free := t.free } from h0)

theorem loseTile_good (num tile reason plane pages : Nat) (hs : s.Good) : (loseTile s num tile reason plane pages).Good := by
  unfold loseTile
  split
  · exact holdReport_good _ (markFailed_good _ _ hs)
  · exact hs

theorem loseCopy_good (reason num key : Nat) (hs : s.Good) : (loseCopy s reason num key).Good := by
  unfold loseCopy
  split
  · exact ite_good hs (holdReport_good _ (noteHealth_good _ _ (setRegion_good _ _ hs)))
  · exact hs

theorem losePages_good (reason : Nat) (l : List (Nat × Nat × Nat)) (hs : s.Good) : (losePages s reason l).Good :=
  good_foldl _ (fun _ _ h => loseTile_good _ _ _ _ _ h) _ _ (good_foldl _ (fun _ _ h => loseCopy_good _ _ _ h) _ _ hs)

theorem movePages_good (stack die plane blk : Nat) (l : List (Nat × Nat × Nat)) (hs : s.Good) : (movePages s stack die plane blk l).Good := by
  refine good_foldl _ (fun s p h => ?_) _ _ hs
  split
  · exact setRegion_good _ _ h
  · exact h

theorem spareFor_good (stack die plane blk : Nat) (hs : s.Good) : (spareFor s stack die plane blk).Good := hs

theorem retireBlock_good (stack die plane blk : Nat) (hs : s.Good) : (retireBlock s stack die plane blk).Good := by
  unfold retireBlock
  have h0 := spareFor_good stack die plane blk hs
  extract_lets pages left s1
  have h1 : s1.Good := h0
  clear_value s1
  split
  · exact movePages_good _ _ _ _ _ (s := { s1 with free := s1.free + 1 }) h1
  · exact losePages_good _ _ (s := { s1 with free := s1.free + 1 }) h1

theorem programPage_good (num : Nat) (fresh : Bool) (n p : Nat) (hs : s.Good) : (programPage num fresh s n p).Good := by
  unfold programPage
  extract_lets s1 fails s2
  have h2 : s2.Good := ite_good (reservePage_good _ _ _ hs) hs
  clear_value s2
  split
  · exact h2
  · exact upBlock_good _ _ (ite_good (retireBlock_good _ _ _ _ h2) h2)


theorem programTiles_good (num : Nat) (fresh : Bool) (r : Region) (tiles : List Nat) (hs : s.Good) : (programTiles num fresh s r tiles).Good := by
  unfold programTiles
  exact good_foldl _ (fun _ _ h => good_foldl _ (fun _ _ h => programPage_good _ _ _ _ h) _ _ h) _ _ hs


theorem giveBadImage_good (d : Reg) (r : Region) (w : WriteDesc) (x : Nat) (hs : State.Good s) : GoodEff (giveBadImage d r w x s) := by
  unfold giveBadImage
  try dsimp only
  solve_by_elim (maxDepth := 14) [holdReport_good, giveStatus_good]

theorem writeNamed_good (r : Region) (w : WriteDesc) (l : List Nat) (hs : s.Good) : (writeNamed s r w l).Good :=
  reserveScales_good _ _ _ (noteHealth_good _ _ (setRegion_good _ _ hs))

theorem execLregWrite_good (h : Hd) (d a : Reg) (hs : s.Good) : GoodOut (execLregWrite h d a s) := by
  refine privWord_good _ _ (fun s hs => ?_) hs
  extract_lets s1
  have h1 : s1.Good := fwFill_good a 64 hs
  clear_value s1
  repeat' split
  all_goals first | exact giveStatus_good _ _ h1 | exact giveBadImage_good _ _ _ _ h1 |
    exact giveStatus_good _ _ (programTiles_good _ _ _ _ (writeNamed_good _ _ _ (fillReads_good _ h1)))


theorem remapTile_good (w : WriteDesc) (n : Nat) (hs : s.Good) : (remapTile s w n).Good := by
  unfold remapTile
  split
  · exact hs
  · exact programTiles_good _ _ _ _ (writeNamed_good _ _ _ hs)


theorem remapOn_good (d : Reg) (w : WriteDesc) (l : List Byte) (i : Nat) (hs : s.Good) : GoodEff (remapOn d w l i s) := by
  unfold remapOn
  split
  · exact giveStatus_good _ _ hs
  · extract_lets tiles s1
    have h1 : s1.Good := remapTile_good _ _ hs
    clear_value s1
    split
    · exact upCur_good _ h1
    · exact giveStatus_good _ _ (upCur_good _ h1)


theorem execLregRemap_good (h : Hd) (d a : Reg) (hs : s.Good) : GoodOut (execLregRemap h d a s) := by
  refine privWord_good _ _ (fun s hs => ?_) hs
  split
  · split
    · exact remapOn_good _ _ _ _ hs
    · exact giveStatus_good _ _ hs
  · extract_lets s1
    have h1 : s1.Good := fwFill_good a 64 hs
    clear_value s1
    repeat' split
    all_goals first | exact giveStatus_good _ _ h1 | exact giveBadImage_good _ _ _ _ h1 |
      exact remapOn_good _ _ _ _ (fillReads_good _ h1) | exact h1


theorem execLregSeal_good (h : Hd) (d a : Reg) (hs : s.Good) : GoodOut (execLregSeal h d a s) := by
  refine privWord_good _ _ (fun s hs => ?_) hs
  extract_lets s1
  have h1 : s1.Good := fwFill_good a 64 hs
  clear_value s1
  repeat' split
  all_goals exact giveStatus_good _ _ h1

theorem execLregDestroy_good (h : Hd) (d a : Reg) (hs : s.Good) : GoodOut (execLregDestroy h d a s) := by
  refine privWord_good _ _ (fun s hs => ?_) hs
  extract_lets s1
  have h1 : s1.Good := fwFill_good a 64 hs
  clear_value s1
  repeat' split
  all_goals first | exact h1 | exact giveStatus_good _ _ h1 | exact giveStatus_good _ _ (noteHealth_good _ _ (setRegion_good _ _ h1))

end Sys2Proof.Machine
end

