-- ==== Sys2Proof/Laws/GoodCmds.lean ====
section
/-! SUPPORT. Hoist commands, copies, Lode commands and maintenance, link commands and answers from outside keep a good state good. -/

namespace Sys2Proof.Machine

variable {s : State}

/-! ## Hoist -/

theorem upHead_good (core : Nat) (q : QId) (f : Cmd → Cmd) (hs : State.Good s) : (upHead s core q f).Good := by
  unfold upHead
  try dsimp only
  solve_by_elim (maxDepth := 14) [upCore_good]

theorem engWr_good (k : Nat) (b : Byte) (hs : s.Good) : (engWr s k b).Good :=
  ite_good (upCore_good _ _ hs) (wrByte_good _ _ hs)

theorem engWrs_good (l : List (Nat × Byte)) (hs : s.Good) : (engWrs s l).Good := by
  unfold engWrs
  extract_lets r a
  have h : r.Good := good_foldl _ (fun _ _ h => engWr_good _ _ h) _ _ hs
  exact ite_good h (areaWrite_good _ h)


theorem setCur_good (c : Cur) (h : s.Good) : State.Good { s with cur := c } := h

theorem cmdReport_good (core consumer addr blocks : Nat) (hs : s.Good) : (cmdReport s core consumer addr blocks).Good := by
  unfold cmdReport
  exact setCur_good _ (e2eReport_good _ _ _ (setCur_good _ (windowFail_good _ _ hs)))


theorem stopReport_good (core consumer : Nat) (x : Stop) (hs : s.Good) : (stopReport s core consumer x).Good :=
  ite_good (cmdReport_good _ _ _ _ hs) hs


theorem readDesc_good (c : Cmd) (n : Nat) (hs : State.Good s) : (readDesc s c n).1.Good := by
  unfold readDesc
  dsimp only
  repeat' split
  all_goals first | exact hs | exact fillRun_good _ _ _ (notePages_good _ _ _ _ hs) | exact stopReport_good _ _ _ hs

theorem settleDesc_good (addr n : Nat) (hs : State.Good s) : (settleDesc s addr n).Good := by
  unfold settleDesc
  try dsimp only
  repeat' split
  all_goals solve_by_elim (maxDepth := 14) [performKeys_good]

theorem issueCmd_good (s0 : State) (c : Cmd) (n : Nat) (route : Cmd → QId) (prep : State → Cmd → Cmd) (also : State → State)
    (ha : ∀ s : State, s.Good → (also s).Good) (hs : s0.Good) : GoodEff (issueCmd s0 c n route prep also) := by
  unfold issueCmd
  extract_lets s1 p p2 q s2 seq
  have h1 : s1.Good := ite_good hs (settleDesc_good _ _ hs)
  have h3 : p.1.Good := by
    by_cases hn : n = 0
    · simpa only [p, if_pos hn] using h1
    · simpa only [p, if_neg hn] using readDesc_good c n h1
  clear_value p
  by_cases hc : 16 ≤ (getQ (curCore s1) q).length
  · rw [if_pos hc]; exact h1
  · rw [if_neg hc]; exact ha _ h3


theorem ringWrite_good (core consumer addr : Nat) (l : List Byte) (hs : s.Good) : (ringWrite s core consumer addr l).Good := by
  unfold ringWrite
  split
  · refine ite_good hs ?_
    split
    · exact cmdReport_good _ _ _ _ hs
    · exact writeMem_good _ (notePage_good _ _ _ hs)
  · exact hs


theorem writeRecord_good (core : Nat) (q : QId) (x : Cmd) (r : CRes) (hs : s.Good) : (writeRecord s core q x r).Good := by
  unfold writeRecord
  dsimp only
  refine upCore_good _ _ ?_
  exact ite_good hs (upCore_good _ _ (ringWrite_good _ _ _ _ hs))

theorem execCqInit_good (h : Hd) (d a b : Reg) (hs : s.Good) : GoodOut (execCqInit h d a b s) := by
  refine runEff_good _ _ (fun s hs => ?_) hs
  dsimp only
  repeat' split
  all_goals exact hs

theorem execCqAck_good (h : Hd) (d a : Reg) (hs : s.Good) : GoodOut (execCqAck h d a s) := by
  refine runEff_good _ _ (fun s hs => ?_) hs
  dsimp only
  split <;> exact hs


/-! ## Answer -/

theorem upCmd_good (core : Nat) (q : QId) (id : Nat) (f : Cmd → Cmd) (hs : State.Good s) : (upCmd s core q id f).Good := by
  unfold upCmd
  try dsimp only
  solve_by_elim (maxDepth := 14) [upCore_good]

theorem giveReply_good (r : Req) (f : Reply → Reply) (hs : s.Good) : (giveReply s r f).Good := by
  unfold giveReply
  split
  · next core g _ =>
    cases he : answerEng s core g r.id f with
    | none => exact hs
    | some t => exact answerEng_good _ _ _ _ hs _ he
  · exact upCmd_good _ _ _ _ hs
  · exact performStore_good _ _ hs
  · exact upQueue_good _ _ hs
  · exact hs

theorem finishReq_good (r : Req) (f : Reply → Reply) (hs : s.Good) : (finishReq s r f).Good :=
  giveReply_good (s := { s with reqs := _ }) _ _ hs

theorem keepReq_good (r : Req) (f : Reply → Reply) (hs : State.Good s) : (keepReq s r f).Good := by
  unfold keepReq
  try dsimp only
  solve_by_elim (maxDepth := 14) [giveReply_good]

theorem landRead_good (r : Req) (l : List Byte) (hs : State.Good s) : (landRead s r l).Good := by
  unfold landRead
  try dsimp only
  solve_by_elim (maxDepth := 14) [finishReq_good]

theorem storeFails_good (core : Nat) (p : PendSt) (why : ReqFail) (hs : s.Good) : (storeFails s core p why).Good := by
  unfold storeFails
  dsimp only
  refine ite_good (foremanFault_good (s := { s with cur := { core := core, eng := p.eng } }) hs) ?_
  refine setCur_good _ (failContext_good _ _ (holdFault_good _ (ite_good (e2eReport_good _ _ _ ?_) ?_)))
  · exact setCur_good _ hs
  · exact setCur_good _ hs


theorem dropStore_good (core id : Nat) (why : ReqFail) (hs : State.Good s) : (dropStore s core id why).Good := by
  unfold dropStore
  try dsimp only
  repeat' split
  all_goals solve_by_elim (maxDepth := 14) [performStore_good, storeFails_good]

theorem failReqAt_good (r : Req) (why o b : Nat) (hs : s.Good) : (failReqAt s r why o b).Good := by
  unfold failReqAt
  dsimp only
  split
  · exact dropStore_good (s := { s with reqs := _ }) _ _ _ hs
  · exact hs
  · exact finishReq_good _ _ hs
  · exact finishReq_good _ _ hs

theorem failReq_good (r : Req) (why : Nat) (hs : s.Good) : (failReq s r why).Good := failReqAt_good _ _ _ _ hs

theorem hostAnswer_good (r : Req) (c : PcieResult) (hs : s.Good) : (hostAnswer s r c).Good := by
  unfold hostAnswer
  split
  all_goals first | exact keepReq_good _ _ hs | exact landRead_good _ _ hs | exact finishReq_good _ _ hs | exact failReq_good _ _ hs | exact hs

theorem execPcieCompletion_good (id : Nat) (c : PcieResult) (hs : State.Good s) : GoodOut (execPcieCompletion id c s) := by
  unfold execPcieCompletion
  try dsimp only
  repeat' split
  all_goals solve_by_elim (maxDepth := 14) [hostAnswer_good]

theorem execCompletionTimeout_good (id : Nat) (hs : State.Good s) : GoodOut (execCompletionTimeout id s) := by
  unfold execCompletionTimeout
  try dsimp only
  repeat' split
  all_goals solve_by_elim (maxDepth := 14) [hostAnswer_good]

theorem execAtsInvalidate_good (pasid base len : Nat) (hs : State.Good s) : GoodOut (execAtsInvalidate pasid base len s) := by
  unfold execAtsInvalidate
  try dsimp only
  solve_by_elim (maxDepth := 14) []

theorem configWrite_good (fn : Nat) (r : CfgReg) (v : Bool) (hs : State.Good s) : (configWrite s fn r v).Good := by
  unfold configWrite
  try dsimp only
  repeat' split
  all_goals solve_by_elim (maxDepth := 14) [upPart_good, upFn_good]

theorem execConfigSpaceWrite_good (fn : Nat) (r : CfgReg) (v : Bool) (hs : State.Good s) : GoodOut (execConfigSpaceWrite fn r v s) := by
  unfold execConfigSpaceWrite
  try dsimp only
  solve_by_elim (maxDepth := 14) [configWrite_good]


/-! ## Copy -/

theorem askRemote_good (core : Nat) (q : QId) (c : Cmd) (miss : List Nat) (hs : s.Good) : (askRemote s core q c miss).Good := by
  refine upHead_good _ _ _ ?_
  refine good_foldl_fst _ ?_ _ (s, _) hs
  intro p b h
  exact sendReq_good _ _ _ _ _ _ h

theorem moveEl_good (w : Who) (c : Cmd) (fill size : Nat) (r : State × List (Nat × Byte)) (m : Option (List Nat) × List (List Nat))
    (hs : r.1.Good) : (moveEl w c fill size r m).1.Good :=
  good_foldl_fst _ (fun p b h => engWrs_good _ h) _ _ hs

theorem sendRemote_good (core : Nat) (q : QId) (id : Nat) (l : List (Nat × Byte)) (hs : s.Good) : (sendRemote s core q id l).Good := by
  refine upHead_good _ _ _ ?_
  refine good_foldl_fst _ ?_ _ (s, _) hs
  intro p b h
  exact sendReq_good _ _ _ _ _ _ h

theorem finishCmd_good (core : Nat) (q : QId) (r : CRes) (hs : State.Good s) : (finishCmd s core q r).Good := by
  unfold finishCmd
  try dsimp only
  solve_by_elim (maxDepth := 14) [upHead_good]

theorem moveOne_good (core : Nat) (q : QId) (c : Cmd) (w : Walk) (who : Who) (hs : s.Good) : (moveOne s core q c w who).Good := by
  unfold moveOne
  extract_lets w1
  refine ite_good hs ?_
  split
  · exact hs
  · refine ite_good hs ?_
    exact upHead_good _ _ _ (newChecks_good _ (noteAll_good _ _ (moveEl_good _ _ _ _ (s, []) _ hs)))

theorem walkMoves_good (who : Who) (c : Cmd) (fill size : Nat) (l : List (Option (List Nat) × List (List Nat))) (hs : s.Good) :
    (l.foldl (moveEl who c fill size) (s, [])).1.Good :=
  good_foldl_fst _ (fun p b h => moveEl_good who c fill size p b h) _ _ hs

theorem reportStop_good (core consumer : Nat) (o : Option Stop) (hs : s.Good) :
    State.Good (match o with | some x => stopReport s core consumer x | none => s) := by
  cases o with
  | none => exact hs
  | some x => exact stopReport_good _ _ _ hs

theorem runWalk_good (core : Nat) (q : QId) (c : Cmd) (w : Walk) (who : Who) (consumer : Nat) (hs : s.Good) :
    (runWalk s core q c w who consumer).Good := by
  unfold runWalk
  extract_lets w1 r miss bad ms stop m s1 s2 res s3
  refine ite_good hs (ite_good (askRemote_good _ _ _ _ hs) ?_)
  have hm : m.1.Good := good_foldl_fst _ (fun p b h => moveEl_good who _ _ _ p b h) _ _ (walkMoves_good _ _ _ _ _ hs)
  clear_value m
  have h1 : s1.Good := newChecks_good _ (noteAll_good _ _ hm)
  clear_value s1
  have h2 : s2.Good := reportStop_good _ _ _ h1
  exact ite_good (finishCmd_good _ _ _ h2) (upHead_good _ _ _ (sendRemote_good _ _ _ _ h2))


theorem runCopy_good (core : Nat) (q : QId) (c : Cmd) (hs : s.Good) : (runCopy s core q c).Good := by
  unfold runCopy
  dsimp only
  generalize (if c.sent = true ∨ 0 < c.prog then _ else _ : Option Nat) = o
  cases o with
  | some st => exact finishCmd_good _ _ _ hs
  | none => exact runWalk_good _ _ _ _ _ _ hs

theorem runLay_good (core : Nat) (q : QId) (c : Cmd) (hs : s.Good) : (runLay s core q c).Good := by
  unfold runLay
  dsimp only
  generalize (if c.sent = true ∨ 0 < c.prog then _ else _ : Option Nat) = o
  cases o with
  | some st => exact finishCmd_good _ _ _ hs
  | none => exact runWalk_good _ _ _ _ _ _ hs

theorem runPub_good (core : Nat) (q : QId) (c : Cmd) (hs : State.Good s) : (runPub s core q c).Good := by
  unfold runPub
  try dsimp only
  repeat' split
  all_goals solve_by_elim (maxDepth := 14) [publish_good, finishCmd_good]

theorem copyWord_good (op : CmdOp) (h : Hd) (d a b e : Reg) (imm : W32) (hs : s.Good) : GoodOut (copyWord op h d a b e imm s) :=
  runEff_good _ _ (fun _ hs => issueCmd_good _ _ _ _ _ _ (fun _ h => h) hs) hs

theorem execHcp_good (h : Hd) (d a : Reg) (imm : W32) (hs : State.Good s) : GoodOut (execHcp h d a imm s) := by
  unfold execHcp
  try dsimp only
  solve_by_elim (maxDepth := 14) [copyWord_good]

theorem execHgat_good (h : Hd) (d a b : Reg) (imm : W32) (hs : State.Good s) : GoodOut (execHgat h d a b imm s) := by
  unfold execHgat
  try dsimp only
  solve_by_elim (maxDepth := 14) [copyWord_good]

theorem execHsct_good (h : Hd) (d a b : Reg) (imm : W32) (hs : State.Good s) : GoodOut (execHsct h d a b imm s) := by
  unfold execHsct
  try dsimp only
  solve_by_elim (maxDepth := 14) [copyWord_good]

theorem execHlay_good (h : Hd) (d a b e : Reg) (imm : W32) (hs : State.Good s) : GoodOut (execHlay h d a b e imm s) := by
  unfold execHlay
  try dsimp only
  solve_by_elim (maxDepth := 14) [copyWord_good]

theorem execHfill_good (h : Hd) (d a b : Reg) (imm : W32) (hs : State.Good s) : GoodOut (execHfill h d a b imm s) := by
  unfold execHfill
  try dsimp only
  solve_by_elim (maxDepth := 14) [copyWord_good]

theorem execHmc_good (h : Hd) (d a : Reg) (imm : W32) (hs : s.Good) : GoodOut (execHmc h d a imm s) :=
  runEff_good _ _ (fun _ hs => issueCmd_good _ _ _ _ _ _ (fun _ h => h) hs) hs

theorem execHmcSig_good (h : Hd) (d a : Reg) (imm : W32) (hs : s.Good) : GoodOut (execHmcSig h d a imm s) := by
  refine runEff_good _ _ (fun s hs => ?_) hs
  dsimp only
  split
  · exact hs
  · exact issueCmd_good _ _ _ _ _ _ (fun _ h => h) hs

theorem execHpub_good (h : Hd) (d a : Reg) (imm : W32) (hs : s.Good) : GoodOut (execHpub h d a imm s) :=
  runEff_good _ _ (fun _ hs => issueCmd_good _ _ _ _ _ _ (fun _ h => h) hs) hs

theorem pairArrival_good (core pair : Nat) (hs : State.Good s) : (pairArrival s core pair).Good := by
  unfold pairArrival
  try dsimp only
  repeat' split
  all_goals solve_by_elim (maxDepth := 14) [arriveBar_good, upCore_good]

theorem execHmcPairArrival_good (core pair : Nat) (hs : State.Good s) : GoodOut (execHmcPairArrival core pair s) := by
  unfold execHmcPairArrival
  try dsimp only
  solve_by_elim (maxDepth := 14) [pairArrival_good]


/-! ## Lode -/

theorem setStack_good (n : Nat) (x : LStack) (hs : State.Good s) : (setStack s n x).Good := by
  unfold setStack
  try dsimp only
  solve_by_elim (maxDepth := 14) []

theorem upSlot_good (st n : Nat) (f : LSlot → LSlot) (hs : State.Good s) : (upSlot s st n f).Good := by
  unfold upSlot
  try dsimp only
  solve_by_elim (maxDepth := 14) [setStack_good]

theorem lodeWord_good (op : CmdOp) (n : Nat) (h : Hd) (d a b e : Reg) (imm : W32) (more : State → Cmd → Cmd) (hs : s.Good) :
    GoodOut (lodeWord op n h d a b e imm more s) :=
  runEff_good _ _ (fun _ hs => issueCmd_good _ _ _ _ _ _ (fun _ h => h) hs) hs

theorem execLodeAct_good (h : Hd) (d a : Reg) (imm : W32) (hs : State.Good s) : GoodOut (execLodeAct h d a imm s) := by
  unfold execLodeAct
  try dsimp only
  solve_by_elim (maxDepth := 14) [lodeWord_good]

theorem execLodeSacc_good (h : Hd) (kk : BitVec 4) (q : Bool) (d a b e : Reg) (imm : W32) (hs : State.Good s) : GoodOut (execLodeSacc h kk q d a b e imm s) := by
  unfold execLodeSacc
  try dsimp only
  repeat' split
  all_goals solve_by_elim (maxDepth := 14) [lodeWord_good]

theorem execLodeDrain_good (h : Hd) (d a : Reg) (imm : W32) (hs : State.Good s) : GoodOut (execLodeDrain h d a imm s) := by
  unfold execLodeDrain
  try dsimp only
  solve_by_elim (maxDepth := 14) [lodeWord_good]

theorem execLodeDrainRaw_good (h : Hd) (d a : Reg) (imm : W32) (hs : State.Good s) : GoodOut (execLodeDrainRaw h d a imm s) := by
  unfold execLodeDrainRaw
  try dsimp only
  solve_by_elim (maxDepth := 14) [lodeWord_good]

theorem execLodeIred_good (h : Hd) (d a : Reg) (imm : W32) (hs : State.Good s) : GoodOut (execLodeIred h d a imm s) := by
  unfold execLodeIred
  try dsimp only
  solve_by_elim (maxDepth := 14) [lodeWord_good]

theorem execLodeStat_good (h : Hd) (d a : Reg) (imm : W32) (hs : State.Good s) : GoodOut (execLodeStat h d a imm s) := by
  unfold execLodeStat
  try dsimp only
  solve_by_elim (maxDepth := 14) [lodeWord_good]

theorem putAll_good (w : Who) (l : List (Except Stop Nat × List Byte)) (hs : State.Good s) : (putAll s w l).1.Good := by
  unfold putAll
  try dsimp only
  repeat' split
  all_goals solve_by_elim (maxDepth := 14) [newChecks_good, noteAll_good, engWrs_good, good_foldl, good_foldl_fst, good_foldl_snd]

theorem actLatch_good (l : List Nat) (m : Nat → LStack) (hs : s.Good) : (l.foldl (fun s st => setStack s st (m st)) s).Good :=
  good_foldl _ (fun _ _ h => setStack_good _ _ h) _ _ hs

theorem runAct_good (core : Nat) (c : Cmd) (hs : s.Good) : (runAct s core c).Good := by
  unfold runAct
  extract_lets w
  split
  · exact finishCmd_good _ _ _ hs
  · refine ite_good hs ?_
    split
    · exact finishCmd_good _ _ _ (stopReport_good _ _ _ hs)
    · refine finishCmd_good _ _ _ ?_
      exact good_foldl _ (fun _ _ h => setStack_good _ _ h) _ _ (noteAll_good _ _ hs)

theorem teamReport_good (core : Nat) (r : FRec) (hs : s.Good) : (teamReport s core r).Good := holdReport_good _ hs

theorem addTile_good (r : Region) (c : Cmd) (n : Nat) (hs : State.Good s) : (addTile s r c n).1.Good := by
  unfold addTile
  try dsimp only
  solve_by_elim (maxDepth := 14) [upSlot_good]

theorem endTile_good (core : Nat) (r : Region) (c : Cmd) (n : Nat) (hs : s.Good) : (endTile s core r c n).Good := by
  unfold endTile
  extract_lets num next bit stale s1
  have h1 : s1.Good := teamReport_good _ _ (ite_good hs (markFailed_good _ _ hs))
  have hn : ∀ (t : State) f, t.Good → (next t f).Good := fun _ _ h => upHead_good _ _ _ h
  clear_value s1 next
  split
  · split
    · exact hn _ _ (upSlot_good _ _ _ h1)
    · exact hn _ _ h1
    · exact hn _ _ h1
  · exact ite_good (hn _ _ (addTile_good _ _ _ hs)) (hn _ _ hs)


theorem deferHead_good (core : Nat) (c : Cmd) (hs : State.Good s) : (deferHead s core c).Good := by
  unfold deferHead
  try dsimp only
  repeat' split
  all_goals solve_by_elim (maxDepth := 14) [setRegion_good, upHead_good]

theorem senseBlock_good (key senses : Nat) (retry : Bool) (hs : State.Good s) : (senseBlock s key senses retry).Good := by
  unfold senseBlock
  try dsimp only
  repeat' split
  all_goals solve_by_elim (maxDepth := 14) [upBlock_good]

theorem sensePage_good (core : Nat) (r : Region) (c : Cmd) (units : List Nat) (planes : Nat) (o : PageOutcome) (hs : s.Good) :
    (sensePage s core r c units planes o).Good := by
  have h1 : ∀ (k n : Nat) (b : Bool) (g : Cmd → Cmd), (upHead (senseBlock s k n b) core .lode g).Good :=
    fun _ _ _ _ => upHead_good _ _ _ (senseBlock_good _ _ _ hs)
  unfold sensePage
  exact ite_good hs (ite_good (deferHead_good _ _ hs) (ite_good (h1 _ _ _ _) (endTile_good _ _ _ _ (h1 _ _ _ _))))

theorem takeScales_good (core : Nat) (r : Region) (c : Cmd) (g : Nat) (ok : Bool) (hs : State.Good s) : (takeScales s core r c g ok).Good := by
  unfold takeScales
  try dsimp only
  repeat' split
  all_goals solve_by_elim (maxDepth := 14) [setRegion_good, upHead_good]

theorem scaleFailed_good (core : Nat) (r : Region) (c : Cmd) (g key reason : Nat) (hs : s.Good) :
    (scaleFailed s core r c g key reason).Good := by
  unfold scaleFailed
  extract_lets s1
  have h1 : s1.Good := teamReport_good _ _ hs
  clear_value s1
  exact ite_good (upHead_good _ _ _ h1) (noteHealth_good _ _ (takeScales_good _ _ _ _ _ h1))

theorem readScales_good (core : Nat) (r : Region) (c : Cmd) (o : PageOutcome) (hs : s.Good) : (readScales s core r c o).Good := by
  unfold readScales
  split
  · exact hs
  · extract_lets k key die plane x s1 s2
    have h0 : State.Good { s with free := s.free + 1 } := hs
    have h1 : s1.Good := senseBlock_good _ _ _ h0
    have h2 : s2.Good := upHead_good _ _ _ h1
    clear_value s2
    exact ite_good (scaleFailed_good _ _ _ _ _ _ h0)
      (ite_good hs (ite_good (takeScales_good _ _ _ _ _ h2) (scaleFailed_good _ _ _ _ _ _ h2)))


theorem pageRead_good (core : Nat) (o : PageOutcome) (hs : s.Good) : (pageRead s core o).Good := by
  unfold pageRead
  split
  · exact hs
  · next c _ _ =>
    refine ite_good hs ?_
    split
    · exact hs
    · exact ite_good (readScales_good _ _ _ _ hs) (ite_good (endTile_good _ _ _ _ hs)
        (ite_good hs (sensePage_good _ _ _ _ _ _ hs)))

theorem execLodePageRead_good (core : Nat) (o : PageOutcome) (hs : State.Good s) : GoodOut (execLodePageRead core o s) := by
  unfold execLodePageRead
  try dsimp only
  solve_by_elim (maxDepth := 14) [pageRead_good]

theorem startWave_good (core : Nat) (c : Cmd) (hs : State.Good s) : (startWave s core c).Good := by
  unfold startWave
  try dsimp only
  repeat' split
  all_goals solve_by_elim (maxDepth := 14) [upHead_good, deferHead_good]

theorem stampStart_good (core : Nat) (q : QId) (hs : State.Good s) : (stampStart s core q).Good := by
  unfold stampStart
  try dsimp only
  repeat' split
  all_goals solve_by_elim (maxDepth := 14) [upHead_good, startWave_good]

theorem runSacc_good (core : Nat) (c : Cmd) (r : Region) (hs : s.Good) : (runSacc s core c r).Good :=
  ite_good (finishCmd_good _ _ _ (good_foldl _ (fun _ _ h => upSlot_good _ _ _ h) _ _ hs)) hs

theorem runDrain_good (core : Nat) (c : Cmd) (r : Region) (hs : s.Good) : (runDrain s core c r).Good := by
  unfold runDrain
  refine ite_good hs ?_
  extract_lets w sts slot row0 blocks sum low cells val p noScale count sat exc flags drained zero s1
  have h1 : p.1.Good := putAll_good _ _ hs
  clear_value p
  split
  · exact finishCmd_good _ _ _ (good_foldl _ (fun _ _ h => upSlot_good _ _ _ h) _ _ (stopReport_good _ _ _ h1))
  · exact finishCmd_good _ _ _ (good_foldl _ (fun _ _ h => upSlot_good _ _ _ h) _ _ h1)


theorem runRaw_good (core : Nat) (c : Cmd) (r : Region) (hs : s.Good) : (runRaw s core c r).Good := by
  unfold runRaw
  extract_lets x w cells row0 scs bits p
  have h1 : p.1.Good := putAll_good _ _ hs
  clear_value p
  refine ite_good ?_ hs
  split
  · exact finishCmd_good _ _ _ (stopReport_good _ _ _ h1)
  · exact finishCmd_good _ _ _ h1


theorem runIred_good (core : Nat) (c : Cmd) (r : Region) (hs : s.Good) : (runIred s core c r).Good := by
  unfold runIred
  extract_lets w f z bag lost rows val cells p flags badq badb count res
  have h1 : p.1.Good := putAll_good _ _ hs
  clear_value p res
  refine ite_good ?_ (ite_good ?_ hs)
  · split
    · exact finishCmd_good _ _ _ (stopReport_good _ _ _ hs)
    · exact upHead_good _ _ _ (noteAll_good _ _ hs)
  · refine finishCmd_good _ _ _ ?_
    split
    · exact stopReport_good _ _ _ h1
    · exact h1


theorem runStat_good (core : Nat) (c : Cmd) (r : Region) (hs : State.Good s) : (runStat s core c r).Good := by
  unfold runStat
  try dsimp only
  repeat' split
  all_goals solve_by_elim (maxDepth := 14) [finishCmd_good, good_foldl, good_foldl_fst, good_foldl_snd]

theorem runLode_good (core : Nat) (c : Cmd) (hs : s.Good) : (runLode s core c).Good := by
  unfold runLode
  refine ite_good (runAct_good _ _ hs) ?_
  split
  · exact finishCmd_good _ _ _ hs
  · split
    · exact hs
    · split
      · exact runSacc_good _ _ _ hs
      · exact runDrain_good _ _ _ hs
      · exact runRaw_good _ _ _ hs
      · exact runIred_good _ _ _ hs
      · exact runStat_good _ _ _ hs
      · exact hs


/-! ## Care -/

theorem stealPlane_good (stack die plane : Nat) (hs : State.Good s) : (stealPlane s stack die plane).Good := by
  unfold stealPlane
  try dsimp only
  repeat' split
  all_goals solve_by_elim (maxDepth := 14) []

theorem execShoringSteal_good (stack die plane : Nat) (hs : State.Good s) : GoodOut (execShoringSteal stack die plane s) := by
  unfold execShoringSteal
  try dsimp only
  solve_by_elim (maxDepth := 14) [stealPlane_good]

theorem refreshTarget_good (stack die plane start : Nat) (fails : Bool) (hs : s.Good) : (refreshTarget s stack die plane start fails).1.Good := by
  unfold refreshTarget
  repeat' split
  all_goals exact hs

theorem refreshBlock_good (stack die plane blk : Nat) (bad : List Nat) (wrErr : Bool) (hs : s.Good) :
    (refreshBlock s stack die plane blk bad wrErr).Good := by
  unfold refreshBlock
  extract_lets key pages b lost good s1 erase retire s2 p s3 s4 s5
  have h1 : s1.Good := losePages_good _ _ hs
  have h2 : s2.Good := h1
  have hp : p.1.Good := refreshTarget_good _ _ _ _ _ h2
  clear_value p
  refine ite_good hs ?_
  split
  · exact ite_good (losePages_good _ _ (spareFor_good _ _ _ _ hp)) hp
  · have h3 : s3.Good := ite_good (spareFor_good _ _ _ _ hp) hp
    clear_value s3
    exact movePages_good _ _ _ _ _ (upBlock_good _ _ (upBlock_good _ _ h3))


theorem mountScan_good (key : Nat) (hs : s.Good) : (mountScan s key).Good := by
  unfold mountScan
  exact ite_good (senseBlock_good _ _ _ (s := { s with scanned := _ }) hs) hs

theorem correctedError_good (ch : Nat) (hs : State.Good s) : (correctedError s ch).Good := by
  unfold correctedError
  try dsimp only
  repeat' split
  all_goals solve_by_elim (maxDepth := 14) [holdReport_good]

theorem dramError_good (pa : Nat) (lost : Bool) (hs : State.Good s) : (dramError s pa lost).Good := by
  unfold dramError
  try dsimp only
  repeat' split
  all_goals solve_by_elim (maxDepth := 14) [holdReport_good, correctedError_good]

theorem execShoringRefresh_good (stack die plane blk : Nat) (bad : List Nat) (wrErr : Bool) (hs : s.Good) :
    GoodOut (execShoringRefresh stack die plane blk bad wrErr s) := refreshBlock_good _ _ _ _ _ _ hs

theorem failResident_good (core : Nat) (hs : s.Good) : (failResident s core).Good := by
  unfold failResident
  extract_lets c t cur g a s1
  have h1 : s1.Good := hs
  exact ite_good hs (ite_good (foremanFault_good hs) (ite_good (setCur_good _ (fatalHere_good _ h1)) hs))


theorem recheckRecords_good  (hs : State.Good s) : (recheckRecords s).Good := by
  unfold recheckRecords
  try dsimp only
  solve_by_elim (maxDepth := 14) []

theorem setReloads_good (m : List (Nat × Nat × Nat)) (h : s.Good) : State.Good { s with reloads := m } := h

theorem retireOne_good (num n : Nat) (l : List Nat) (m : List (Nat × Nat × Nat)) (p : Nat) (hs : s.Good) :
    State.Good (eventFn (eventFn { l.foldl (fun s k => loseTile s num k 5 0 n) s with reloads := m } 0 1) p 1) :=
  eventFn_good _ _ (eventFn_good _ _ (setReloads_good _ (good_foldl _ (fun _ _ h => loseTile_good _ _ _ _ _ h) _ _ hs)))

theorem loseCopies_good (num group : Nat) (hs : s.Good) : (loseCopies s num group).Good := by
  unfold loseCopies
  split
  · exact hs
  · exact good_foldl _ (fun _ _ h => loseCopy_good _ _ _ h) _ _ hs

theorem retireGroup_good (stack die grp : Nat) (hs : s.Good) : (retireGroup s stack die grp).Good := by
  unfold retireGroup
  dsimp only
  refine good_foldl _ (fun s num h => ?_) _ { s with deadGroups := _ } hs
  split
  · exact h
  · have h1 := fun g => loseCopies_good num g h
    exact ite_good (h1 _) (retireOne_good _ _ _ _ _ (h1 _))

theorem disableBehind_good (cls bus grp : Nat) (hs : s.Good) : (disableBehind s cls bus grp).Good := by
  unfold disableBehind
  dsimp only
  split
  · have h1 := failResident_good (2 * bus + 1) (failResident_good (2 * bus) hs)
    exact ite_good hs (signalEvent_good _ (recheckRecords_good (s := { failResident (failResident s (2 * bus)) (2 * bus + 1) with deadPairs := _ }) h1))
  · exact ite_good hs (signalEvent_good _ (recheckRecords_good (s := { s with clusters := _, deadArrays := _ }) hs))
  · exact ite_good hs (signalEvent_good _ (retireGroup_good _ _ _ hs))

theorem failWire_good (cls bus grp : Nat) (hs : State.Good s) : (failWire s cls bus grp).Good := by
  unfold failWire
  try dsimp only
  repeat' split
  all_goals solve_by_elim (maxDepth := 14) [holdReport_good, disableBehind_good]

theorem bondTest_good (cls bus grp wires : Nat) (hs : State.Good s) : (bondTest s cls bus grp wires).Good := by
  unfold bondTest
  try dsimp only
  repeat' split
  all_goals solve_by_elim (maxDepth := 14) [failWire_good, good_foldl, good_foldl_fst, good_foldl_snd]

theorem execBondSelfTest_good (cls bus grp wires : Nat) (hs : State.Good s) : GoodOut (execBondSelfTest cls bus grp wires s) := by
  unfold execBondSelfTest
  try dsimp only
  solve_by_elim (maxDepth := 14) [bondTest_good]


/-! ## Link -/

theorem runSend_good (core : Nat) (c : Cmd) (hs : s.Good) : (runSend s core c).Good := by
  unfold runSend
  dsimp only
  generalize (if c.sent = true then _ else _ : Option Nat) = o
  cases o with
  | some st => exact finishCmd_good _ _ _ hs
  | none => exact ite_good (finishCmd_good _ _ _ hs) (runWalk_good _ _ _ _ _ _ hs)

theorem sendParts_good (core : Nat) (c : Cmd) (l : List RdPart) (hs : State.Good s) : (sendParts s core c l).Good := by
  unfold sendParts
  try dsimp only
  solve_by_elim (maxDepth := 14) [sendReq_good, upHead_good, good_foldl, good_foldl_fst, good_foldl_snd]

theorem runRed_good (core : Nat) (c : Cmd) (hs : s.Good) : (runRed s core c).Good := by
  unfold runRed
  refine ite_good hs ?_
  split
  · exact finishCmd_good _ _ _ hs
  · refine ite_good (finishCmd_good _ _ _ hs) ?_
    dsimp only
    refine ite_good (finishCmd_good _ _ _ (reportStop_good _ _ _ hs)) ?_
    exact upHead_good _ _ _ (noteAll_good _ _ (sendParts_good _ _ _ (reportStop_good _ _ _ hs)))

theorem runLink_good (core : Nat) (c : Cmd) (hs : s.Good) : (runLink s core c).Good :=
  ite_good hs (ite_good (runSend_good _ _ hs) (runRed_good _ _ hs))

theorem linkWord_good (op : CmdOp) (n : Nat) (h : Hd) (d a e : Reg) (imm : W32) (hs : s.Good) : GoodOut (linkWord op n h d a e imm s) :=
  runEff_good _ _ (fun _ hs => issueCmd_good _ _ _ _ _ _ (fun _ h => h) hs) hs

theorem execLinkSend_good (h : Hd) (d a e : Reg) (imm : W32) (hs : State.Good s) : GoodOut (execLinkSend h d a e imm s) := by
  unfold execLinkSend
  try dsimp only
  solve_by_elim (maxDepth := 14) [linkWord_good]

theorem execLinkRed_good (h : Hd) (d a e : Reg) (imm : W32) (hs : State.Good s) : GoodOut (execLinkRed h d a e imm s) := by
  unfold execLinkRed
  try dsimp only
  solve_by_elim (maxDepth := 14) [linkWord_good]

theorem stampedGo_good (core : Nat) (q : QId) (hs : State.Good s) : (stampedGo s core q).Good := by
  unfold stampedGo
  try dsimp only
  repeat' split
  all_goals solve_by_elim (maxDepth := 14) [stampStart_good]

theorem execStampedStart_good (core : Nat) (q : QId) (hs : State.Good s) : GoodOut (execStampedStart core q s) := by
  unfold execStampedStart
  try dsimp only
  solve_by_elim (maxDepth := 14) [stampedGo_good]


/-! ## Complete -/

theorem performBefore_good (core id : Nat) (hs : s.Good) : (performBefore s core id).Good := performFirst_good _ _ hs

theorem moveHead_good (core : Nat) (q : QId) (c : Cmd) (hs : s.Good) : (moveHead s core q c).Good := by
  unfold moveHead
  refine ite_good hs ?_
  extract_lets s1 w w2
  have h1 : s1.Good := ite_good (performBefore_good _ _ hs) hs
  clear_value s1
  split <;> first | exact h1 | exact ite_good h1 (moveOne_good _ _ _ _ _ h1)


theorem moveTurn_good (core : Nat) (q : QId) (hs : State.Good s) : (moveTurn core q s).Good := by
  unfold moveTurn
  try dsimp only
  repeat' split
  all_goals solve_by_elim (maxDepth := 14) [moveHead_good]

theorem closeHead_good (core : Nat) (q : QId) (hs : s.Good) : (closeHead s core q).Good := by
  unfold closeHead
  split
  · exact hs
  · split
    · exact hs
    · refine ite_good hs (ite_good (ite_good (upCore_good _ _ hs) hs) (writeRecord_good _ _ _ _ ?_))
      split
      · exact cmdReport_good _ _ _ _ hs
      · exact hs


end Sys2Proof.Machine
end

