-- ==== Sys2Proof/Laws/Memory.lean ====
section
/-! SUPPORT. Reading memory back after a write (R88, R97): the byte written reads as written, every other byte of the module's own memory reads
as before, and the canonical form stays. -/

namespace Sys2Proof.Machine

theorem getLsbD_byteOfW32 (w : W32) (j i : Nat) (hi : i < 8) : (byteOfW32 w j).getLsbD i = w.getLsbD (8 * j + i) := by
  simp [byteOfW32, hi]

/-- Four bytes as a word. -/
def wordOfBytes (f : Nat → Byte) : W32 := (List.range 4).foldr (fun i acc => (acc <<< 8) ||| (f i).setWidth 32) 0

theorem byteOfW32_wordOfBytes (f : Nat → Byte) (j : Nat) (hj : j < 4) : byteOfW32 (wordOfBytes f) j = f j := by
  apply BitVec.eq_of_getLsbD_eq
  intro i hi
  rw [getLsbD_byteOfW32 _ _ _ hi]
  simp only [wordOfBytes, show List.range 4 = [0, 1, 2, 3] from rfl, List.foldr_cons, List.foldr_nil, BitVec.getLsbD_or, BitVec.getLsbD_shiftLeft,
    BitVec.getLsbD_setWidth]
  have h0 : ∀ (k n : Nat), 8 ≤ n → (f k).getLsbD n = false := fun k n h => BitVec.getLsbD_of_ge _ _ h
  interval_cases j
  · simp [hi, show i < 32 by omega]
  · simp [show 8 + i < 32 by omega, hi, show i < 32 by omega]
  · have := h0 0 (16 + i) (by omega)
    simp [show 16 + i < 32 by omega, show ¬ 16 + i < 8 by omega, show 16 + i - 8 = 8 + i by omega, hi, show i < 32 by omega, show 8 + i < 32 by omega, this]
  · have h1 := h0 0 (24 + i) (by omega)
    have h2 := h0 1 (16 + i) (by omega)
    simp [show 24 + i < 32 by omega, show ¬ 24 + i < 8 by omega, show 24 + i - 8 = 16 + i by omega, show 16 + i - 8 = 8 + i by omega, hi,
      show i < 32 by omega, show 8 + i < 32 by omega, show 16 + i < 32 by omega, show ¬ 16 + i < 8 by omega, h1, h2]

/-- A byte put into a word. -/
def putByte (w : W32) (j : Nat) (b : Byte) : W32 := (w &&& ~~~((0xFF : W32) <<< (8 * j))) ||| (b.setWidth 32 <<< (8 * j))

theorem byteOfW32_putByte (w : W32) (j k : Nat) (b : Byte) (hk : k < 4) :
    byteOfW32 (putByte w j b) k = if j = k then b else byteOfW32 w k := by
  apply BitVec.eq_of_getLsbD_eq
  intro i hi
  have hff : ∀ n, (0xFF : W32).getLsbD n = decide (n < 8) := by
    intro n
    by_cases h : n < 8
    · interval_cases n <;> rfl
    · have : (0xFF : W32) = (0xFF : BitVec 8).setWidth 32 := rfl
      rw [this, BitVec.getLsbD_setWidth, BitVec.getLsbD_of_ge _ _ (by omega)]; simp [h]
  have hb : (if j = k then b else byteOfW32 w k).getLsbD i = if j = k then b.getLsbD i else w.getLsbD (8 * k + i) := by
    split
    · rfl
    · exact getLsbD_byteOfW32 _ _ _ hi
  rw [getLsbD_byteOfW32 _ _ _ hi, hb]
  simp only [putByte, BitVec.getLsbD_or, BitVec.getLsbD_and, BitVec.getLsbD_not, BitVec.getLsbD_shiftLeft, BitVec.getLsbD_setWidth, hff]
  have h32 : 8 * k + i < 32 := by omega
  by_cases h : j = k
  · subst h
    simp [h32, hi, show ¬ 8 * j + i < 8 * j by omega, show 8 * j + i - 8 * j = i by omega, show i < 32 by omega]
  · by_cases hl : 8 * k + i < 8 * j
    · simp [h32, hl, h]
    · have : ¬ 8 * k + i - 8 * j < 8 := by omega
      simp [h32, hl, h, this, BitVec.getLsbD_of_ge b (8 * k + i - 8 * j) (by omega)]

theorem wrByte_low (s : State) (k : Nat) (b : Byte) (hk : k < apTop) :
    wrByte s k b = { s with lc := SMap.set none s.lc (k / 4) (some (putByte (wordOfBytes (fun i => rdByte s (k / 4 * 4 + i))) (k % 4) b)) } := by
  simp only [wrByte, if_pos hk, putByte, wordOfBytes]

theorem wrByte_high (s : State) (k : Nat) (b : Byte) (hk : ¬ k < apTop) : wrByte s k b = { s with mem := SMap.set memDefault s.mem k b } := by
  simp only [wrByte, if_neg hk]

theorem lcWord_set (s : State) (k j : Nat) (w : Option W32) :
    lcWord { s with lc := SMap.set none s.lc (k / 4) w } j = if k / 4 = j / 4 then w else lcWord s j := by
  show SMap.get none (SMap.set none s.lc (k / 4) w) (j / 4) = _
  rw [SMap.get_set]; rfl

/-- A byte of an aperture or of LPDDR-6 that the level cache holds. -/
theorem rdByte_of_lcWord {s : State} {k : Nat} {w : W32} (hk : k < apTop) (h : lcWord s k = some w) : rdByte s k = byteOfW32 w (k % 4) := by
  have : apBase = dramTop := rfl
  simp only [rdByte, rdDram, h, hk, and_true]
  split
  · rfl
  · rw [if_pos (by omega)]

/-- A byte of LPDDR-6. -/
theorem rdByte_dram (s : State) (k : Nat) (hk : k < dramTop) : rdByte s k = rdDram s k := by
  have h : ¬ (apBase ≤ k ∧ k < apTop) := fun h => absurd h.1 (Nat.not_le_of_lt hk)
  rw [rdByte, if_neg h, if_pos hk]

/-- A byte of the memories that the level cache does not hold. -/
theorem rdByte_high (s : State) (k : Nat) (hk : ¬ k < apTop) : rdByte s k = SMap.get memDefault s.mem k := by
  have h2 : dramTop ≤ apTop := by decide
  rw [rdByte, if_neg (fun h => hk h.2), if_neg (fun h => hk (Nat.lt_of_lt_of_le h h2))]

/-- A byte written reads as written. -/
@[simp] theorem rdByte_wrByte_same (s : State) (k : Nat) (b : Byte) : rdByte (wrByte s k b) k = b := by
  by_cases hk : k < apTop
  · rw [wrByte_low s k b hk]
    generalize wordOfBytes (fun i => rdByte s (k / 4 * 4 + i)) = w
    rw [rdByte_of_lcWord (w := putByte w (k % 4) b) hk (by rw [lcWord_set, if_pos rfl]), byteOfW32_putByte _ _ _ _ (Nat.mod_lt _ (by decide)), if_pos rfl]
  · rw [wrByte_high s k b hk, rdByte_high _ _ hk]
    exact SMap.get_set_same _ _ _ _

/-- A byte of the module's own memory other than the one written reads as before. -/
theorem rdByte_wrByte_ne (s : State) (k j : Nat) (b : Byte) (hj : ¬ (apBase ≤ j ∧ j < apTop)) (hne : j ≠ k) :
    rdByte (wrByte s k b) j = rdByte s j := by
  have hd : dramTop ≤ apBase := by decide
  by_cases hj2 : j < dramTop
  · by_cases hk : k < apTop
    · rw [wrByte_low s k b hk, rdByte_dram _ j hj2, rdByte_dram _ j hj2]
      by_cases hw : k / 4 = j / 4
      · have hb : byteOfW32 (wordOfBytes (fun i => rdByte s (k / 4 * 4 + i))) (j % 4) = rdDram s j := by
          rw [byteOfW32_wordOfBytes _ _ (Nat.mod_lt _ (by decide)), show k / 4 * 4 + j % 4 = j by omega, rdByte_dram s j hj2]
        revert hb
        generalize wordOfBytes (fun i => rdByte s (k / 4 * 4 + i)) = w
        intro hb
        have h1 : lcWord { s with lc := SMap.set none s.lc (k / 4) (some (putByte w (k % 4) b)) } j = some (putByte w (k % 4) b) := by
          rw [lcWord_set, if_pos hw]
        rw [← hb]
        simp only [rdDram, h1]
        rw [byteOfW32_putByte _ _ _ _ (Nat.mod_lt _ (by decide)), if_neg (by omega)]
      · generalize wordOfBytes (fun i => rdByte s (k / 4 * 4 + i)) = w
        have h1 : lcWord { s with lc := SMap.set none s.lc (k / 4) (some (putByte w (k % 4) b)) } j = lcWord s j := by
          rw [lcWord_set, if_neg hw]
        simp only [rdDram, h1]
    · rw [wrByte_high s k b hk, rdByte_dram _ j hj2, rdByte_dram _ j hj2]
      simp only [rdDram, lcWord, SMap.get_set_of_ne _ _ _ _ _ (Ne.symm hne)]
  · have hj3 : ¬ j < apTop := fun h => hj ⟨Nat.le_of_not_lt hj2, h⟩
    rw [rdByte_high _ j hj3, rdByte_high _ j hj3]
    by_cases hk : k < apTop
    · rw [wrByte_low s k b hk]
    · rw [wrByte_high s k b hk]
      exact SMap.get_set_of_ne _ _ _ _ _ (Ne.symm hne)

/-- Bytes written in order: a byte at none of the addresses reads as before. -/
theorem rdByte_wrBytes_ne (l : List (Nat × Byte)) : ∀ (s : State) (j : Nat), ¬ (apBase ≤ j ∧ j < apTop) → (∀ p ∈ l, p.1 ≠ j) →
    rdByte (wrBytes s l) j = rdByte s j := by
  induction l with
  | nil => intro s j _ _; rfl
  | cons p l ih =>
    intro s j hj hl
    show rdByte (wrBytes (wrByte s p.1 p.2) l) j = _
    rw [ih _ _ hj (fun q hq => hl q (List.mem_cons_of_mem _ hq)),
      rdByte_wrByte_ne _ _ _ _ hj (fun h => hl p (List.mem_cons_self) h.symm)]

/-- Bytes written at different addresses: each reads as written. -/
theorem rdByte_wrBytes_mem (l : List (Nat × Byte)) : ∀ (s : State), (l.map (·.1)).Nodup → (∀ p ∈ l, ¬ (apBase ≤ p.1 ∧ p.1 < apTop)) →
    ∀ p ∈ l, rdByte (wrBytes s l) p.1 = p.2 := by
  induction l with
  | nil => intro s _ _ p hp; cases hp
  | cons q l ih =>
    intro s hn ha p hp
    show rdByte (wrBytes (wrByte s q.1 q.2) l) p.1 = _
    rw [List.map_cons, List.nodup_cons] at hn
    rcases List.mem_cons.mp hp with rfl | hp
    · rw [rdByte_wrBytes_ne l _ _ (ha p (List.mem_cons_self)) (fun x hx h => hn.1 (by rw [← h]; exact List.mem_map_of_mem hx)), rdByte_wrByte_same]
    · exact ih _ hn.2 (fun x hx => ha x (List.mem_cons_of_mem _ hx)) p hp

/-- A write touches memory and the level cache only. -/
theorem wrByte_frame (s : State) (k : Nat) (b : Byte) : wrByte s k b = { s with mem := (wrByte s k b).mem, lc := (wrByte s k b).lc } := by
  by_cases hk : k < apTop
  · rw [wrByte_low s k b hk]
  · rw [wrByte_high s k b hk]

theorem wrBytes_frame (l : List (Nat × Byte)) : ∀ s : State, wrBytes s l = { s with mem := (wrBytes s l).mem, lc := (wrBytes s l).lc } := by
  induction l with
  | nil => intro s; rfl
  | cons p l ih =>
    intro s
    show wrBytes (wrByte s p.1 p.2) l = { s with mem := (wrBytes (wrByte s p.1 p.2) l).mem, lc := (wrBytes (wrByte s p.1 p.2) l).lc }
    generalize he : wrBytes (wrByte s p.1 p.2) l = t
    have h := ih (wrByte s p.1 p.2)
    rw [he, wrByte_frame s p.1 p.2] at h
    exact h

end Sys2Proof.Machine
end

