-- ==== Sys2Proof/Laws/PerInstr.lean ====
section
/-! SUPPORT. Each instruction comes back from the fields of its own word: one lemma per constructor, over the round trip of the two encoders. -/

namespace Sys2Proof.Laws.RoundTrip
set_option Elab.async false
open Sys2Proof
set_option linter.unusedSimpArgs false
set_option linter.unnecessarySeqFocus false

/-- A well-formed instruction that has an engine's or an Assayer's fields comes back from them. -/
def Statement (i : Instr) : Prop :=
  (∀ g r, WellFormed g i = true → encodeRaw i = some r → decodeRaw g r = .ok i) ∧
  (∀ g r, WellFormed g i = true → encodeAsyRaw i = some r → buildAsy r = some i)

/-- An event has neither. -/
theorem event {i : Instr} (h0 : encodeRaw i = none) (ha : encodeAsyRaw i = none) : Statement i :=
  ⟨fun _ _ _ he => absurd (h0.symm.trans he) (by simp), fun _ _ _ he => absurd (ha.symm.trans he) (by simp)⟩

/-- An Assayer's operation. -/
theorem assayer {i : Instr} {r0 : AsyRaw} (h0 : encodeRaw i = none) (ha : encodeAsyRaw i = some r0)
    (hb : asyWordOk r0 = true → buildAsy r0 = some i) : Statement i := by
  refine ⟨fun _ _ _ he => absurd (h0.symm.trans he) (by simp), fun g r hw he => ?_⟩
  rw [ha] at he
  obtain rfl := Option.some.inj he
  simp only [WellFormed, h0, ha] at hw
  exact hb hw

/-- An engine's operation. -/
theorem word {i : Instr} {r0 : RawWord} (h0 : encodeRaw i = some r0) (ha : encodeAsyRaw i = none)
    (hb : ∀ g, (decide (r0.op.toNat < 0x20) || mapOf i == g) = true → opFieldOk i = true → checkWord g r0 = .ok () → buildWord g r0 = some i) :
    Statement i := by
  refine ⟨fun g r hw he => ?_, fun _ _ _ he => absurd (ha.symm.trans he) (by simp)⟩
  rw [h0] at he
  obtain rfl := Option.some.inj he
  simp only [WellFormed, h0, Bool.and_eq_true, decide_eq_true_eq] at hw
  rw [decodeRaw, hw.1.1]
  simp only [hb g hw.2 hw.1.2 hw.1.1]

/-- An operation of one engine's map. -/
theorem wordOf (eng : Eng) {i : Instr} {r0 : RawWord} (h0 : encodeRaw i = some r0) (ha : encodeAsyRaw i = none)
    (hop : decide (r0.op.toNat < 0x20) = false) (hm : mapOf i = eng) (hb : opFieldOk i = true → checkWord eng r0 = .ok () → buildWord eng r0 = some i) : Statement i := by
  refine word h0 ha fun g hg ho hc => ?_
  rw [hop, Bool.false_or, hm, beq_iff_eq] at hg
  subst hg
  exact hb ho hc

theorem low_mk {ty low : Nat} (hl : low < 16) (ht : ty < 16) : (BitVec.ofNat 8 (16 * ty + low)).toNat = 16 * ty + low := by
  simp only [BitVec.toNat_ofNat]; omega

@[simp] theorem subTy_mk (op h md d a b e) (ty : ETy) {low : Nat} (imm) (hl : low < 16) :
    subTy (mkRaw op h md d a b e (etyCode ty) low imm) = some ty := by
  have hc : etyCode ty < 16 := by cases ty <;> decide
  simp only [subTy, mkRaw, low_mk hl hc]
  rw [show (16 * etyCode ty + low) / 16 = etyCode ty by omega]
  cases ty <;> rfl

@[simp] theorem subVar_mk (op h md d a b e) {ty low : Nat} (imm) (hl : low < 16) (ht : ty < 16) :
    subVar (mkRaw op h md d a b e ty low imm) = low := by
  simp only [subVar, mkRaw, low_mk hl ht]; omega

@[simp] theorem mkRaw_op (op h md d a b e ty low imm) : (mkRaw op h md d a b e ty low imm).op = BitVec.ofNat 8 op := rfl
@[simp] theorem mkRaw_pop (op h md d a b e ty low imm) : (mkRaw op h md d a b e ty low imm).pop = h.pop := rfl
@[simp] theorem mkRaw_push (op h md d a b e ty low imm) : (mkRaw op h md d a b e ty low imm).push = h.push := rfl
@[simp] theorem mkRaw_pred (op h md d a b e ty low imm) : (mkRaw op h md d a b e ty low imm).pred = h.pred := rfl
@[simp] theorem mkRaw_pneg (op h md d a b e ty low imm) : (mkRaw op h md d a b e ty low imm).pneg = h.pneg := rfl
@[simp] theorem mkRaw_md (op h md d a b e ty low imm) : (mkRaw op h md d a b e ty low imm).md = md := rfl
@[simp] theorem mkRaw_d (op h md d a b e ty low imm) : (mkRaw op h md d a b e ty low imm).d = d := rfl
@[simp] theorem mkRaw_a (op h md d a b e ty low imm) : (mkRaw op h md d a b e ty low imm).a = a := rfl
@[simp] theorem mkRaw_b (op h md d a b e ty low imm) : (mkRaw op h md d a b e ty low imm).b = b := rfl
@[simp] theorem mkRaw_e (op h md d a b e ty low imm) : (mkRaw op h md d a b e ty low imm).e = e := rfl
@[simp] theorem mkRaw_imm (op h md d a b e ty low imm) : (mkRaw op h md d a b e ty low imm).imm = imm := rfl

@[simp] theorem etyCode_lt (ty : ETy) : etyCode ty < 16 := by cases ty <;> decide

theorem sub_mk (op h md d a b e) {ty low : Nat} (imm) (hl : low < 16) (ht : ty < 16) :
    (mkRaw op h md d a b e ty low imm).sub.toNat = 16 * ty + low := low_mk hl ht

@[simp] theorem subVar3_mk (op h md d a b e) {ty low : Nat} (imm) (hl : low < 16) (ht : ty < 16) :
    subVar3 (mkRaw op h md d a b e ty low imm) = low % 8 := by
  simp only [subVar3, sub_mk op h md d a b e imm hl ht]; omega

/-- A bit of the variant. -/
@[simp] theorem subBit_mk (op h md d a b e) {ty low : Nat} (imm) (k : Nat) (hk : k < 4) (hl : low < 16) (ht : ty < 16) :
    (mkRaw op h md d a b e ty low imm).sub.getLsbD k = decide (low / 2 ^ k % 2 = 1) := by
  rw [← BitVec.testBit_toNat, sub_mk op h md d a b e imm hl ht]
  have : 16 * ty + low = 2 ^ 4 * ty + low := by ring
  rw [this, Nat.testBit_two_pow_mul_add _ (by omega)]
  simp [hk, Nat.testBit_eq_decide_div_mod_eq]

@[simp] theorem redOf_mk (op h md d a b e) {ty low : Nat} (imm) (hl : low < 16) (ht : ty < 16) :
    redOf (mkRaw op h md d a b e ty low imm) = match low / 2 % 4 with | 0 => .add | 1 => .max | 2 => .min | _ => .amax := by
  simp only [redOf, sub_mk op h md d a b e imm hl ht]
  have e : (16 * ty + low) / 2 % 4 = low / 2 % 4 := by omega
  rw [e] <;> (generalize low / 2 % 4 = k; match k with | 0 | 1 | 2 | _ + 3 => rfl)

@[simp] theorem kk_mk (op h md d a b e) {ty : Nat} (kk : BitVec 4) (imm) (ht : ty < 16) :
    (mkRaw op h md d a b e ty kk.toNat imm).sub.extractLsb' 0 4 = kk := by
  have hk := kk.isLt
  apply BitVec.eq_of_toNat_eq
  rw [BitVec.extractLsb'_toNat, sub_mk op h md d a b e imm hk ht, Nat.shiftRight_zero]
  omega

theorem zext_low {n : Nat} (x : BitVec n) (hn : n ≤ 14) : (BitVec.zeroExtend 14 x).extractLsb' 0 n = x := by
  apply BitVec.eq_of_toNat_eq
  have h := x.isLt
  have : 2 ^ n ≤ 2 ^ 14 := Nat.pow_le_pow_right (by norm_num) hn
  simp only [BitVec.extractLsb'_toNat, Nat.shiftRight_zero, BitVec.toNat_setWidth]
  rw [Nat.mod_eq_of_lt (lt_of_lt_of_le h this), Nat.mod_eq_of_lt h]

theorem branch_low (k : BitVec 14) (hk : k.extractLsb' 0 12 = 0) (x : BitVec 12) :
    (k ||| BitVec.zeroExtend 14 x).extractLsb' 0 12 = x := by
  rw [BitVec.extractLsb'_or, hk, zext_low x (by norm_num)]
  simp

theorem branch_high (k : BitVec 14) (x : BitVec 12) : (k ||| BitVec.zeroExtend 14 x).extractLsb' 12 2 = k.extractLsb' 12 2 := by
  rw [BitVec.extractLsb'_or, show (BitVec.zeroExtend 14 x).extractLsb' 12 2 = 0#2 from ?_, BitVec.or_zero]
  apply BitVec.eq_of_toNat_eq
  have h := x.isLt
  simp only [BitVec.extractLsb'_toNat, BitVec.toNat_setWidth, Nat.shiftRight_eq_div_pow, BitVec.toNat_ofNat]
  omega

/-- The codes of a field of four bits. -/
theorem fields4 (x : BitVec 4) : x = 0 ∨ x = 1 ∨ x = 2 ∨ x = 3 ∨ x = 4 ∨ x = 5 ∨ x = 6 ∨ x = 7 ∨ x = 8 ∨ x = 9 ∨ x = 10 ∨ x = 11 ∨ x = 12 ∨
    x = 13 ∨ x = 14 ∨ x = 15 := by revert x; decide


theorem nop (h) : Statement (.nop h) := word rfl rfl fun _ _ _ _ => rfl
theorem rep (h imm) : Statement (.rep h imm) := word rfl rfl fun _ _ _ _ => rfl
theorem movi (h d imm) : Statement (.movi h d imm) := word rfl rfl fun _ _ _ _ => by
  simp [buildWord, buildCommon, hdOf]
theorem moviHi (h d imm) : Statement (.moviHi h d imm) := word rfl rfl fun _ _ _ _ => by
  simp [buildWord, buildCommon, hdOf]
theorem mov (h d a) : Statement (.mov h d a) := word rfl rfl fun _ _ _ _ => rfl
theorem add (h d a b) : Statement (.add h d a b) := word rfl rfl fun _ _ _ _ => rfl
theorem sub (h d a b) : Statement (.sub h d a b) := word rfl rfl fun _ _ _ _ => rfl
theorem addi (h d a imm) : Statement (.addi h d a imm) := word rfl rfl fun _ _ _ _ => rfl
theorem shl (h d a sh) : Statement (.shl h d a sh) := word rfl rfl fun _ _ _ _ => by
  cases sh <;> simp [buildWord, buildCommon, hdOf, shOf, shLow, shB, shImm, -BitVec.getLsbD_eq_getElem]
theorem shr (h d a sh) : Statement (.shr h d a sh) := word rfl rfl fun _ _ _ _ => by
  cases sh <;> simp [buildWord, buildCommon, hdOf, shOf, shLow, shB, shImm, -BitVec.getLsbD_eq_getElem]
theorem sar (h d a sh) : Statement (.sar h d a sh) := word rfl rfl fun _ _ _ _ => by
  cases sh <;> simp [buildWord, buildCommon, hdOf, shOf, shLow, shB, shImm, -BitVec.getLsbD_eq_getElem]
theorem and (h d a b) : Statement (.and h d a b) := word rfl rfl fun _ _ _ _ => rfl
theorem or (h d a b) : Statement (.or h d a b) := word rfl rfl fun _ _ _ _ => rfl
theorem xor (h d a b) : Statement (.xor h d a b) := word rfl rfl fun _ _ _ _ => rfl
theorem cmp (h crel d a b) : Statement (.cmp h crel d a b) := word rfl rfl fun _ _ _ _ => by
  cases crel <;> simp [buildWord, buildCommon, hdOf, cmpRelOf, cmpRelCode]
theorem sel (h d a b e) : Statement (.sel h d a b e) := word rfl rfl fun _ _ _ _ => rfl
theorem tsend (h a) : Statement (.tsend h a) := word rfl rfl fun _ _ _ _ => rfl
theorem trecv (h d) : Statement (.trecv h d) := word rfl rfl fun _ _ _ _ => rfl
theorem pand (h d a b) : Statement (.pand h d a b) := word rfl rfl fun _ _ _ _ => by
  simp [buildWord, buildCommon, hdOf]
theorem por (h d a b) : Statement (.por h d a b) := word rfl rfl fun _ _ _ _ => by
  simp [buildWord, buildCommon, hdOf]
theorem pxor (h d a b) : Statement (.pxor h d a b) := word rfl rfl fun _ _ _ _ => by
  simp [buildWord, buildCommon, hdOf]
theorem pnot (h d a) : Statement (.pnot h d a) := word rfl rfl fun _ _ _ _ => by
  simp [buildWord, buildCommon, hdOf]
theorem pmov (h d a) : Statement (.pmov h d a) := word rfl rfl fun _ _ _ _ => by
  simp [buildWord, buildCommon, hdOf]
theorem mul (h ty d a b) : Statement (.mul h ty d a b) := wordOf .c rfl rfl rfl rfl fun _ _ => by
  show (subTy _).map _ = _
  rw [subTy_mk _ _ _ _ _ _ _ _ _ (by decide)] <;> rfl
theorem mulh (h ty d a b) : Statement (.mulh h ty d a b) := wordOf .c rfl rfl rfl rfl fun _ _ => by
  show (subTy _).map _ = _
  rw [subTy_mk _ _ _ _ _ _ _ _ _ (by decide)] <;> rfl
theorem div (h ty d a b) : Statement (.div h ty d a b) := wordOf .c rfl rfl rfl rfl fun _ _ => by
  show (subTy _).map _ = _
  rw [subTy_mk _ _ _ _ _ _ _ _ _ (by decide)] <;> rfl
theorem rem (h ty d a b) : Statement (.rem h ty d a b) := wordOf .c rfl rfl rfl rfl fun _ _ => by
  show (subTy _).map _ = _
  rw [subTy_mk _ _ _ _ _ _ _ _ _ (by decide)] <;> rfl
theorem min (h ty d a b) : Statement (.min h ty d a b) := wordOf .c rfl rfl rfl rfl fun _ _ => by
  show (subTy _).map _ = _
  rw [subTy_mk _ _ _ _ _ _ _ _ _ (by decide)] <;> rfl
theorem max (h ty d a b) : Statement (.max h ty d a b) := wordOf .c rfl rfl rfl rfl fun _ _ => by
  show (subTy _).map _ = _
  rw [subTy_mk _ _ _ _ _ _ _ _ _ (by decide)] <;> rfl
theorem clz (h d a) : Statement (.clz h d a) := wordOf .c rfl rfl rfl rfl fun _ _ => rfl
theorem popc (h d a) : Statement (.popc h d a) := wordOf .c rfl rfl rfl rfl fun _ _ => rfl
theorem bfx (h ty d a imm) : Statement (.bfx h ty d a imm) := wordOf .c rfl rfl rfl rfl fun _ _ => by
  show (subTy _).map _ = _
  rw [subTy_mk _ _ _ _ _ _ _ _ _ (by decide)] <;> rfl
theorem bfi (h ty d a b imm) : Statement (.bfi h ty d a b imm) := wordOf .c rfl rfl rfl rfl fun _ _ => by
  show (subTy _).map _ = _
  rw [subTy_mk _ _ _ _ _ _ _ _ _ (by decide)] <;> rfl
theorem ld (h ty q d a imm) : Statement (.ld h ty q d a imm) := wordOf .c rfl rfl rfl rfl fun _ _ => by
  cases q <;> simp [buildWord, buildC, hdOf, qualMd, mdQual]
theorem st (h ty a b imm) : Statement (.st h ty a b imm) := wordOf .c rfl rfl rfl rfl fun _ _ => by
  show (subTy _).map _ = _
  rw [subTy_mk _ _ _ _ _ _ _ _ _ (by decide)] <;> rfl
theorem atomAdd (h ty d a b e imm) : Statement (.atomAdd h ty d a b e imm) := wordOf .c rfl rfl rfl rfl fun _ _ => by
  simp [buildWord, buildC, hdOf]
theorem atomAnd (h ty d a b e imm) : Statement (.atomAnd h ty d a b e imm) := wordOf .c rfl rfl rfl rfl fun _ _ => by
  simp [buildWord, buildC, hdOf]
theorem atomOr (h ty d a b e imm) : Statement (.atomOr h ty d a b e imm) := wordOf .c rfl rfl rfl rfl fun _ _ => by
  simp [buildWord, buildC, hdOf]
theorem atomXor (h ty d a b e imm) : Statement (.atomXor h ty d a b e imm) := wordOf .c rfl rfl rfl rfl fun _ _ => by
  simp [buildWord, buildC, hdOf]
theorem atomMin (h ty d a b e imm) : Statement (.atomMin h ty d a b e imm) := wordOf .c rfl rfl rfl rfl fun _ _ => by
  simp [buildWord, buildC, hdOf]
theorem atomMax (h ty d a b e imm) : Statement (.atomMax h ty d a b e imm) := wordOf .c rfl rfl rfl rfl fun _ _ => by
  simp [buildWord, buildC, hdOf]
theorem atomXchg (h ty d a b e imm) : Statement (.atomXchg h ty d a b e imm) := wordOf .c rfl rfl rfl rfl fun _ _ => by
  simp [buildWord, buildC, hdOf]
theorem atomCas (h ty d a b e imm) : Statement (.atomCas h ty d a b e imm) := wordOf .c rfl rfl rfl rfl fun _ _ => by
  simp [buildWord, buildC, hdOf]
theorem atomIncb (h ty d a b e imm) : Statement (.atomIncb h ty d a b e imm) := wordOf .c rfl rfl rfl rfl fun _ _ => by
  simp [buildWord, buildC, hdOf]
theorem atomAddb (h ty d a b e imm) : Statement (.atomAddb h ty d a b e imm) := wordOf .c rfl rfl rfl rfl fun _ _ => by
  simp [buildWord, buildC, hdOf]
theorem atomCas128 (h ty d a b e imm) : Statement (.atomCas128 h ty d a b e imm) := wordOf .c rfl rfl rfl rfl fun _ _ => by
  simp [buildWord, buildC, hdOf]
theorem br (h imm) : Statement (.br h imm) := wordOf .c rfl rfl rfl rfl fun _ _ => rfl
theorem steer (h imm) : Statement (.steer h imm) := wordOf .c rfl rfl rfl rfl fun _ _ => by
  simp [buildWord, buildC, hdOf]
theorem steerX (h a) : Statement (.steerX h a) := wordOf .c rfl rfl rfl rfl fun _ _ => by
  simp [buildWord, buildC, hdOf]
theorem call (h d imm) : Statement (.call h d imm) := wordOf .c rfl rfl rfl rfl fun _ _ => rfl
theorem ret (h a) : Statement (.ret h a) := wordOf .c rfl rfl rfl rfl fun _ _ => rfl
theorem probe (h pcl d a e imm) : Statement (.probe h pcl d a e imm) := wordOf .c rfl rfl rfl rfl fun _ _ => by
  cases pcl <;> simp [buildWord, buildC, hdOf, probeClsOf, probeClsCode]
theorem fni (h fcl d imm) : Statement (.fni h fcl d imm) := wordOf .c rfl rfl rfl rfl fun _ _ => by
  cases fcl <;> simp [buildWord, buildC, hdOf, fenceClsOf, fenceClsCode]
theorem fnw (h a) : Statement (.fnw h a) := wordOf .c rfl rfl rfl rfl fun _ _ => rfl
theorem fenceComplete (core) : Statement (.fenceComplete core) := event rfl rfl
theorem phase (h scp) : Statement (.phase h scp) := wordOf .c rfl rfl rfl rfl fun _ _ => by
  cases scp <;> simp [buildWord, buildC, hdOf, scopeOf, scopeCode]
theorem barArr (h imm) : Statement (.barArr h imm) := wordOf .c rfl rfl rfl rfl fun _ _ => rfl
theorem barWait (h imm) : Statement (.barWait h imm) := wordOf .c rfl rfl rfl rfl fun _ _ => rfl
theorem waitw (h wrel ty d a b imm) : Statement (.waitw h wrel ty d a b imm) := wordOf .c rfl rfl rfl rfl fun _ _ => by
  cases wrel <;> simp [buildWord, buildC, hdOf, waitRelOf, waitRelCode]
theorem waitwPoll (core) : Statement (.waitwPoll core) := event rfl rfl
theorem twait (h a) : Statement (.twait h a) := wordOf .c rfl rfl rfl rfl fun _ _ => rfl
theorem twaitExpiry (core) : Statement (.twaitExpiry core) := event rfl rfl
theorem tickRead (h d) : Statement (.tickRead h d) := wordOf .c rfl rfl rfl rfl fun _ _ => rfl
theorem npre (h) : Statement (.npre h) := wordOf .c rfl rfl rfl rfl fun _ _ => rfl
theorem epre (h) : Statement (.epre h) := wordOf .c rfl rfl rfl rfl fun _ _ => rfl
theorem nopreOverrun (core) : Statement (.nopreOverrun core) := event rfl rfl
theorem textsync (h a b) : Statement (.textsync h a b) := wordOf .c rfl rfl rfl rfl fun _ _ => rfl
theorem signal (h sscp a b imm) : Statement (.signal h sscp a b imm) := wordOf .c rfl rfl rfl rfl fun _ _ => by
  cases sscp <;> simp [buildWord, buildC, hdOf, scopeOf, scopeCode]
theorem signalAdd (core) : Statement (.signalAdd core) := event rfl rfl
theorem trap (h imm) : Statement (.trap h imm) := wordOf .c rfl rfl rfl rfl fun _ _ => rfl
theorem srd (h d imm) : Statement (.srd h d imm) := wordOf .c rfl rfl rfl rfl fun _ _ => rfl
theorem wsrd (h d a imm) : Statement (.wsrd h d a imm) := wordOf .c rfl rfl rfl rfl fun _ _ => rfl
theorem teamHalt (h d a) : Statement (.teamHalt h d a) := wordOf .c rfl rfl rfl rfl fun _ _ => by
  simp [buildWord, buildC, hdOf]
theorem teamKill (h d a) : Statement (.teamKill h d a) := wordOf .c rfl rfl rfl rfl fun _ _ => by
  simp [buildWord, buildC, hdOf]
theorem teamHold (h d a) : Statement (.teamHold h d a) := wordOf .c rfl rfl rfl rfl fun _ _ => by
  simp [buildWord, buildC, hdOf]
theorem teamResumeReexec (h d a) : Statement (.teamResumeReexec h d a) := wordOf .c rfl rfl rfl rfl fun _ _ => by
  simp [buildWord, buildC, hdOf]
theorem teamResumeSkip (h d a) : Statement (.teamResumeSkip h d a) := wordOf .c rfl rfl rfl rfl fun _ _ => by
  simp [buildWord, buildC, hdOf]
theorem qFlushFinish (h d a) : Statement (.qFlushFinish h d a) := wordOf .c rfl rfl rfl rfl fun _ _ => by
  simp [buildWord, buildC, hdOf]
theorem qFlushDiscard (h d a) : Statement (.qFlushDiscard h d a) := wordOf .c rfl rfl rfl rfl fun _ _ => by
  simp [buildWord, buildC, hdOf]
theorem qResetContinue (h d a) : Statement (.qResetContinue h d a) := wordOf .c rfl rfl rfl rfl fun _ _ => by
  simp [buildWord, buildC, hdOf]
theorem qResetRestart (h d a) : Statement (.qResetRestart h d a) := wordOf .c rfl rfl rfl rfl fun _ _ => by
  simp [buildWord, buildC, hdOf]
theorem ctxSave (h d a b imm) : Statement (.ctxSave h d a b imm) := wordOf .c rfl rfl rfl rfl fun _ _ => rfl
theorem ctxRest (h d a b imm) : Statement (.ctxRest h d a b imm) := wordOf .c rfl rfl rfl rfl fun _ _ => rfl
theorem prd (h d a imm) : Statement (.prd h d a imm) := wordOf .c rfl rfl rfl rfl fun _ _ => rfl
theorem pwr (h d a b imm) : Statement (.pwr h d a b imm) := wordOf .c rfl rfl rfl rfl fun _ _ => rfl
theorem lregCreate (h d a opx) : Statement (.lregCreate h d a opx) := wordOf .c rfl rfl rfl rfl fun ho _ => by
  rcases fields4 opx with h | h | h | h | h | h | h | h | h | h | h | h | h | h | h | h <;> subst h <;> first | rfl | exact absurd ho (by simp [opFieldOk])
theorem lregWrite (h d a) : Statement (.lregWrite h d a) := wordOf .c rfl rfl rfl rfl fun _ _ => by
  simp [buildWord, buildC, hdOf]
theorem lregSeal (h d a) : Statement (.lregSeal h d a) := wordOf .c rfl rfl rfl rfl fun _ _ => by
  simp [buildWord, buildC, hdOf]
theorem lregRemap (h d a) : Statement (.lregRemap h d a) := wordOf .c rfl rfl rfl rfl fun _ _ => by
  simp [buildWord, buildC, hdOf]
theorem lregDestroy (h d a) : Statement (.lregDestroy h d a) := wordOf .c rfl rfl rfl rfl fun _ _ => by
  simp [buildWord, buildC, hdOf]
theorem htabMap (h d a opx) : Statement (.htabMap h d a opx) := wordOf .c rfl rfl rfl rfl fun ho _ => by
  rcases fields4 opx with h | h | h | h | h | h | h | h | h | h | h | h | h | h | h | h <;> subst h <;> first | rfl | exact absurd ho (by simp [opFieldOk])
theorem htabUnmap (h d a) : Statement (.htabUnmap h d a) := wordOf .c rfl rfl rfl rfl fun _ _ => by
  simp [buildWord, buildC, hdOf]
theorem htabShootdown (h d a) : Statement (.htabShootdown h d a) := wordOf .c rfl rfl rfl rfl fun _ _ => by
  simp [buildWord, buildC, hdOf]
theorem htabBind (h d a) : Statement (.htabBind h d a) := wordOf .c rfl rfl rfl rfl fun _ _ => by
  simp [buildWord, buildC, hdOf]
theorem fwinSet (h d a opx) : Statement (.fwinSet h d a opx) := wordOf .c rfl rfl rfl rfl fun ho _ => by
  rcases fields4 opx with h | h | h | h | h | h | h | h | h | h | h | h | h | h | h | h <;> subst h <;> first | rfl | exact absurd ho (by simp [opFieldOk])
theorem fwinClear (h d a) : Statement (.fwinClear h d a) := wordOf .c rfl rfl rfl rfl fun _ _ => by
  simp [buildWord, buildC, hdOf]
theorem fwinFlush (h d a) : Statement (.fwinFlush h d a) := wordOf .c rfl rfl rfl rfl fun _ _ => by
  simp [buildWord, buildC, hdOf]
theorem vld (h ty q d a b imm) : Statement (.vld h ty q d a b imm) := wordOf .v rfl rfl rfl rfl fun _ _ => by
  cases q <;> simp [buildWord, buildV, hdOf, qualMd, mdQual]
theorem vldSp (h ty q d a b imm) : Statement (.vldSp h ty q d a b imm) := wordOf .v rfl rfl rfl rfl fun _ _ => by
  cases q <;> simp [buildWord, buildV, hdOf, qualMd, mdQual]
theorem vst (h ty a b e imm) : Statement (.vst h ty a b e imm) := wordOf .v rfl rfl rfl rfl fun _ _ => by
  simp [buildWord, buildV, hdOf]
theorem vstSp (h ty a b e imm) : Statement (.vstSp h ty a b e imm) := wordOf .v rfl rfl rfl rfl fun _ _ => by
  simp [buildWord, buildV, hdOf]
theorem vldr (h ty q d a b e imm) : Statement (.vldr h ty q d a b e imm) := wordOf .v rfl rfl rfl rfl fun _ _ => by
  cases q <;> simp [buildWord, buildV, hdOf, qualMd, mdQual]
theorem vstr (h ty a b e imm) : Statement (.vstr h ty a b e imm) := wordOf .v rfl rfl rfl rfl fun _ _ => by
  show (subTy _).map _ = _
  rw [subTy_mk _ _ _ _ _ _ _ _ _ (by decide)] <;> rfl
theorem vldx (h ty d a b mk imm) : Statement (.vldx h ty d a b mk imm) := wordOf .v rfl rfl rfl rfl fun _ _ => by
  cases mk <;> simp [buildWord, buildV, hdOf, subM, maskOf, maskE, maskLow, -BitVec.getLsbD_eq_getElem]
theorem vmodeRd (h d) : Statement (.vmodeRd h d) := wordOf .v rfl rfl rfl rfl fun _ _ => by
  simp [buildWord, buildV, hdOf]
theorem vmodeWr (h a) : Statement (.vmodeWr h a) := wordOf .v rfl rfl rfl rfl fun _ _ => by
  simp [buildWord, buildV, hdOf]
theorem vflagsRd (h d) : Statement (.vflagsRd h d) := wordOf .v rfl rfl rfl rfl fun _ _ => by
  simp [buildWord, buildV, hdOf]
theorem vflagsWr (h a) : Statement (.vflagsWr h a) := wordOf .v rfl rfl rfl rfl fun _ _ => by
  simp [buildWord, buildV, hdOf]
theorem vadd (h ty md d a b mk) : Statement (.vadd h ty md d a b mk) := wordOf .v rfl rfl rfl rfl fun _ _ => by
  cases mk <;> simp [buildWord, buildV, hdOf, subM, maskOf, maskE, maskLow, -BitVec.getLsbD_eq_getElem]
theorem vsub (h ty md d a b mk) : Statement (.vsub h ty md d a b mk) := wordOf .v rfl rfl rfl rfl fun _ _ => by
  cases mk <;> simp [buildWord, buildV, hdOf, subM, maskOf, maskE, maskLow, -BitVec.getLsbD_eq_getElem]
theorem vmul (h ty md d a b mk) : Statement (.vmul h ty md d a b mk) := wordOf .v rfl rfl rfl rfl fun _ _ => by
  cases mk <;> simp [buildWord, buildV, hdOf, subM, maskOf, maskE, maskLow, -BitVec.getLsbD_eq_getElem]
theorem vmin (h ty md d a b mk) : Statement (.vmin h ty md d a b mk) := wordOf .v rfl rfl rfl rfl fun _ _ => by
  cases mk <;> simp [buildWord, buildV, hdOf, subM, maskOf, maskE, maskLow, -BitVec.getLsbD_eq_getElem]
theorem vmax (h ty md d a b mk) : Statement (.vmax h ty md d a b mk) := wordOf .v rfl rfl rfl rfl fun _ _ => by
  cases mk <;> simp [buildWord, buildV, hdOf, subM, maskOf, maskE, maskLow, -BitVec.getLsbD_eq_getElem]
theorem vabs (h ty d a mk) : Statement (.vabs h ty d a mk) := wordOf .v rfl rfl rfl rfl fun _ _ => by
  cases mk <;> simp [buildWord, buildV, hdOf, subM, maskOf, maskE, maskLow, -BitVec.getLsbD_eq_getElem]
theorem vneg (h ty d a mk) : Statement (.vneg h ty d a mk) := wordOf .v rfl rfl rfl rfl fun _ _ => by
  cases mk <;> simp [buildWord, buildV, hdOf, subM, maskOf, maskE, maskLow, -BitVec.getLsbD_eq_getElem]
theorem vcmp (h vrel ty d a b mk) : Statement (.vcmp h vrel ty d a b mk) := wordOf .v rfl rfl rfl rfl fun _ _ => by
  cases vrel <;> cases mk <;> simp [buildWord, buildV, hdOf, vRelOf, vRelCode, subM, maskOf, maskE, maskLow, -BitVec.getLsbD_eq_getElem]
theorem vfma (h ty md d a b e) : Statement (.vfma h ty md d a b e) := wordOf .v rfl rfl rfl rfl fun _ _ => by
  show (subTy _).map _ = _
  rw [subTy_mk _ _ _ _ _ _ _ _ _ (by decide)] <;> rfl
theorem vfms (h ty md d a b e) : Statement (.vfms h ty md d a b e) := wordOf .v rfl rfl rfl rfl fun _ _ => by
  show (subTy _).map _ = _
  rw [subTy_mk _ _ _ _ _ _ _ _ _ (by decide)] <;> rfl
theorem vfnma (h ty md d a b e) : Statement (.vfnma h ty md d a b e) := wordOf .v rfl rfl rfl rfl fun _ _ => by
  show (subTy _).map _ = _
  rw [subTy_mk _ _ _ _ _ _ _ _ _ (by decide)] <;> rfl
theorem vdiv (h ty md d a b mk) : Statement (.vdiv h ty md d a b mk) := wordOf .v rfl rfl rfl rfl fun _ _ => by
  cases mk <;> simp [buildWord, buildV, hdOf, subM, maskOf, maskE, maskLow, -BitVec.getLsbD_eq_getElem]
theorem vclass (h ty md d a mk) : Statement (.vclass h ty md d a mk) := wordOf .v rfl rfl rfl rfl fun _ _ => by
  cases mk <;> simp [buildWord, buildV, hdOf, subM, maskOf, maskE, maskLow, -BitVec.getLsbD_eq_getElem]
theorem vrint (h ty md d a mk) : Statement (.vrint h ty md d a mk) := wordOf .v rfl rfl rfl rfl fun _ _ => by
  cases mk <;> simp [buildWord, buildV, hdOf, subM, maskOf, maskE, maskLow, -BitVec.getLsbD_eq_getElem]
theorem vscale (h ty md d a b mk) : Statement (.vscale h ty md d a b mk) := wordOf .v rfl rfl rfl rfl fun _ _ => by
  cases mk <;> simp [buildWord, buildV, hdOf, subM, maskOf, maskE, maskLow, -BitVec.getLsbD_eq_getElem]
theorem vmulh (h ty d a b mk) : Statement (.vmulh h ty d a b mk) := wordOf .v rfl rfl rfl rfl fun _ _ => by
  cases mk <;> simp [buildWord, buildV, hdOf, subM, maskOf, maskE, maskLow, -BitVec.getLsbD_eq_getElem]
theorem vshl (h ty d a sh mk) : Statement (.vshl h ty d a sh mk) := wordOf .v rfl rfl rfl rfl fun _ _ => by
  cases sh <;> cases mk <;> simp [buildWord, buildV, hdOf, shOf, shLow, shB, shImm, subM, maskOf, maskE, maskLow, -BitVec.getLsbD_eq_getElem]
theorem vshr (h ty d a sh mk) : Statement (.vshr h ty d a sh mk) := wordOf .v rfl rfl rfl rfl fun _ _ => by
  cases sh <;> cases mk <;> simp [buildWord, buildV, hdOf, shOf, shLow, shB, shImm, subM, maskOf, maskE, maskLow, -BitVec.getLsbD_eq_getElem]
theorem vsar (h ty d a sh mk) : Statement (.vsar h ty d a sh mk) := wordOf .v rfl rfl rfl rfl fun _ _ => by
  cases sh <;> cases mk <;> simp [buildWord, buildV, hdOf, shOf, shLow, shB, shImm, subM, maskOf, maskE, maskLow, -BitVec.getLsbD_eq_getElem]
theorem vand (h ty d a b mk) : Statement (.vand h ty d a b mk) := wordOf .v rfl rfl rfl rfl fun _ _ => by
  cases mk <;> simp [buildWord, buildV, hdOf, subM, maskOf, maskE, maskLow, -BitVec.getLsbD_eq_getElem]
theorem vor (h ty d a b mk) : Statement (.vor h ty d a b mk) := wordOf .v rfl rfl rfl rfl fun _ _ => by
  cases mk <;> simp [buildWord, buildV, hdOf, subM, maskOf, maskE, maskLow, -BitVec.getLsbD_eq_getElem]
theorem vxor (h ty d a b mk) : Statement (.vxor h ty d a b mk) := wordOf .v rfl rfl rfl rfl fun _ _ => by
  cases mk <;> simp [buildWord, buildV, hdOf, subM, maskOf, maskE, maskLow, -BitVec.getLsbD_eq_getElem]
theorem vnot (h ty d a mk) : Statement (.vnot h ty d a mk) := wordOf .v rfl rfl rfl rfl fun _ _ => by
  cases mk <;> simp [buildWord, buildV, hdOf, subM, maskOf, maskE, maskLow, -BitVec.getLsbD_eq_getElem]
theorem vpopc (h ty d a mk) : Statement (.vpopc h ty d a mk) := wordOf .v rfl rfl rfl rfl fun _ _ => by
  cases mk <;> simp [buildWord, buildV, hdOf, subM, maskOf, maskE, maskLow, -BitVec.getLsbD_eq_getElem]
theorem vclz (h ty d a mk) : Statement (.vclz h ty d a mk) := wordOf .v rfl rfl rfl rfl fun _ _ => by
  cases mk <;> simp [buildWord, buildV, hdOf, subM, maskOf, maskE, maskLow, -BitVec.getLsbD_eq_getElem]
theorem vdot4 (h ty q d a b e) : Statement (.vdot4 h ty q d a b e) := wordOf .v rfl rfl rfl rfl fun _ _ => by
  cases q <;> simp [buildWord, buildV, hdOf, qualMd, mdQual]
theorem vcvt (h ty md d a mk imm) : Statement (.vcvt h ty md d a mk imm) := wordOf .v rfl rfl rfl rfl fun _ _ => by
  cases mk <;> simp [buildWord, buildV, hdOf, subM, maskOf, maskE, maskLow, -BitVec.getLsbD_eq_getElem]
theorem vqntBlk (h ty md d a imm) : Statement (.vqntBlk h ty md d a imm) := wordOf .v rfl rfl rfl rfl fun _ _ => by
  simp [buildWord, buildV, hdOf]
theorem vqntS (h ty md d a b imm) : Statement (.vqntS h ty md d a b imm) := wordOf .v rfl rfl rfl rfl fun _ _ => by
  simp [buildWord, buildV, hdOf]
theorem vdqntBlk (h ty md d a imm) : Statement (.vdqntBlk h ty md d a imm) := wordOf .v rfl rfl rfl rfl fun _ _ => by
  simp [buildWord, buildV, hdOf]
theorem vdqntS (h ty md d a b imm) : Statement (.vdqntS h ty md d a b imm) := wordOf .v rfl rfl rfl rfl fun _ _ => by
  simp [buildWord, buildV, hdOf]
theorem vplanePk (h ty d a imm) : Statement (.vplanePk h ty d a imm) := wordOf .v rfl rfl rfl rfl fun _ _ => by
  simp [buildWord, buildV, hdOf]
theorem vplaneUn (h ty d a imm) : Statement (.vplaneUn h ty d a imm) := wordOf .v rfl rfl rfl rfl fun _ _ => by
  simp [buildWord, buildV, hdOf]
theorem vrot (h ax ty d a idx mk) : Statement (.vrot h ax ty d a idx mk) := wordOf .v rfl rfl rfl rfl fun _ _ => by
  cases ax <;> cases idx <;> cases mk <;> simp [buildWord, buildV, hdOf, axisOf, axisCode, idxOf, idxLow, idxB, idxImm, subM, maskOf, maskE, maskLow, -BitVec.getLsbD_eq_getElem]
theorem vbcast (h ax ty d a idx mk) : Statement (.vbcast h ax ty d a idx mk) := wordOf .v rfl rfl rfl rfl fun _ _ => by
  cases ax <;> cases idx <;> cases mk <;> simp [buildWord, buildV, hdOf, axisOf, axisCode, idxOf, idxLow, idxB, idxImm, subM, maskOf, maskE, maskLow, -BitVec.getLsbD_eq_getElem]
theorem vred (h rop ax ty md d a mk) : Statement (.vred h rop ax ty md d a mk) := wordOf .v rfl rfl rfl rfl fun _ _ => by
  cases rop <;> cases ax <;> cases mk <;> simp [buildWord, buildV, hdOf, redCode, axisOf, axisCode, subM, maskOf, maskE, maskLow, -BitVec.getLsbD_eq_getElem]
theorem vscan (h rop ax ty md d a mk) : Statement (.vscan h rop ax ty md d a mk) := wordOf .v rfl rfl rfl rfl fun _ _ => by
  cases rop <;> cases ax <;> cases mk <;> simp [buildWord, buildV, hdOf, redCode, axisOf, axisCode, subM, maskOf, maskE, maskLow, -BitVec.getLsbD_eq_getElem]
theorem vsred (h rop ty md d a e) : Statement (.vsred h rop ty md d a e) := wordOf .v rfl rfl rfl rfl fun _ _ => by
  cases rop <;> simp [buildWord, buildV, hdOf, redCode]
theorem kand (h d a b) : Statement (.kand h d a b) := wordOf .v rfl rfl rfl rfl fun _ _ => rfl
theorem kor (h d a b) : Statement (.kor h d a b) := wordOf .v rfl rfl rfl rfl fun _ _ => rfl
theorem kxor (h d a b) : Statement (.kxor h d a b) := wordOf .v rfl rfl rfl rfl fun _ _ => rfl
theorem knot (h d a) : Statement (.knot h d a) := wordOf .v rfl rfl rfl rfl fun _ _ => rfl
theorem kpopc (h d a) : Statement (.kpopc h d a) := wordOf .v rfl rfl rfl rfl fun _ _ => rfl
theorem kffs (h d a) : Statement (.kffs h d a) := wordOf .v rfl rfl rfl rfl fun _ _ => rfl
theorem krl (h krv ty d b) : Statement (.krl h krv ty d b) := wordOf .v rfl rfl rfl rfl fun _ _ => by
  cases krv <;> simp [buildWord, buildV, hdOf, krlVarOf, krlVarCode]
theorem kmov (h d a) : Statement (.kmov h d a) := wordOf .v rfl rfl rfl rfl fun _ _ => by
  simp [buildWord, buildV, hdOf]
theorem kmovSet (h d) : Statement (.kmovSet h d) := wordOf .v rfl rfl rfl rfl fun _ _ => by
  simp [buildWord, buildV, hdOf]
theorem kmovClr (h d) : Statement (.kmovClr h d) := wordOf .v rfl rfl rfl rfl fun _ _ => by
  simp [buildWord, buildV, hdOf]
theorem kmovFirst (h d a) : Statement (.kmovFirst h d a) := wordOf .v rfl rfl rfl rfl fun _ _ => by
  simp [buildWord, buildV, hdOf]
theorem vext (h ty d a idx) : Statement (.vext h ty d a idx) := wordOf .v rfl rfl rfl rfl fun _ _ => by
  cases idx <;> simp [buildWord, buildV, hdOf, idxOf, idxLow, idxB, idxImm, -BitVec.getLsbD_eq_getElem]
theorem vins (h ty d a idx) : Statement (.vins h ty d a idx) := wordOf .v rfl rfl rfl rfl fun _ _ => by
  cases idx <;> simp [buildWord, buildV, hdOf, idxOf, idxLow, idxB, idxImm, -BitVec.getLsbD_eq_getElem]
theorem vmov (h ty d a mk) : Statement (.vmov h ty d a mk) := wordOf .v rfl rfl rfl rfl fun _ _ => by
  cases mk <;> simp [buildWord, buildV, hdOf, subM, maskOf, maskE, maskLow, -BitVec.getLsbD_eq_getElem]
theorem vmovBc (h ty d a mk) : Statement (.vmovBc h ty d a mk) := wordOf .v rfl rfl rfl rfl fun _ _ => by
  cases mk <;> simp [buildWord, buildV, hdOf, subM, maskOf, maskE, maskLow, -BitVec.getLsbD_eq_getElem]
theorem vsel (h ty d a b e) : Statement (.vsel h ty d a b e) := wordOf .v rfl rfl rfl rfl fun _ _ => by
  show (subTy _).map _ = _
  rw [subTy_mk _ _ _ _ _ _ _ _ _ (by decide)] <;> rfl
theorem vexp (h ty md d a e) : Statement (.vexp h ty md d a e) := wordOf .v rfl rfl rfl rfl fun _ _ => by
  simp [buildWord, buildV, hdOf]
theorem vexp2 (h ty md d a e) : Statement (.vexp2 h ty md d a e) := wordOf .v rfl rfl rfl rfl fun _ _ => by
  simp [buildWord, buildV, hdOf]
theorem vexpm1 (h ty md d a e) : Statement (.vexpm1 h ty md d a e) := wordOf .v rfl rfl rfl rfl fun _ _ => by
  simp [buildWord, buildV, hdOf]
theorem vlog (h ty md d a e) : Statement (.vlog h ty md d a e) := wordOf .v rfl rfl rfl rfl fun _ _ => by
  simp [buildWord, buildV, hdOf]
theorem vlog2 (h ty md d a e) : Statement (.vlog2 h ty md d a e) := wordOf .v rfl rfl rfl rfl fun _ _ => by
  simp [buildWord, buildV, hdOf]
theorem vlog1p (h ty md d a e) : Statement (.vlog1p h ty md d a e) := wordOf .v rfl rfl rfl rfl fun _ _ => by
  simp [buildWord, buildV, hdOf]
theorem vrcp (h ty md d a e) : Statement (.vrcp h ty md d a e) := wordOf .v rfl rfl rfl rfl fun _ _ => by
  simp [buildWord, buildV, hdOf]
theorem vsqrt (h ty md d a e) : Statement (.vsqrt h ty md d a e) := wordOf .v rfl rfl rfl rfl fun _ _ => by
  simp [buildWord, buildV, hdOf]
theorem vrsqrt (h ty md d a e) : Statement (.vrsqrt h ty md d a e) := wordOf .v rfl rfl rfl rfl fun _ _ => by
  simp [buildWord, buildV, hdOf]
theorem vsin (h ty md d a e) : Statement (.vsin h ty md d a e) := wordOf .v rfl rfl rfl rfl fun _ _ => by
  simp [buildWord, buildV, hdOf]
theorem vcos (h ty md d a e) : Statement (.vcos h ty md d a e) := wordOf .v rfl rfl rfl rfl fun _ _ => by
  simp [buildWord, buildV, hdOf]
theorem vtanh (h ty md d a e) : Statement (.vtanh h ty md d a e) := wordOf .v rfl rfl rfl rfl fun _ _ => by
  simp [buildWord, buildV, hdOf]
theorem vlogistic (h ty md d a e) : Statement (.vlogistic h ty md d a e) := wordOf .v rfl rfl rfl rfl fun _ _ => by
  simp [buildWord, buildV, hdOf]
theorem vexpApx (h ty md d a e) : Statement (.vexpApx h ty md d a e) := wordOf .v rfl rfl rfl rfl fun _ _ => by
  simp [buildWord, buildV, hdOf]
theorem vexp2Apx (h ty md d a e) : Statement (.vexp2Apx h ty md d a e) := wordOf .v rfl rfl rfl rfl fun _ _ => by
  simp [buildWord, buildV, hdOf]
theorem vexpm1Apx (h ty md d a e) : Statement (.vexpm1Apx h ty md d a e) := wordOf .v rfl rfl rfl rfl fun _ _ => by
  simp [buildWord, buildV, hdOf]
theorem vlogApx (h ty md d a e) : Statement (.vlogApx h ty md d a e) := wordOf .v rfl rfl rfl rfl fun _ _ => by
  simp [buildWord, buildV, hdOf]
theorem vlog2Apx (h ty md d a e) : Statement (.vlog2Apx h ty md d a e) := wordOf .v rfl rfl rfl rfl fun _ _ => by
  simp [buildWord, buildV, hdOf]
theorem vlog1pApx (h ty md d a e) : Statement (.vlog1pApx h ty md d a e) := wordOf .v rfl rfl rfl rfl fun _ _ => by
  simp [buildWord, buildV, hdOf]
theorem vrcpApx (h ty md d a e) : Statement (.vrcpApx h ty md d a e) := wordOf .v rfl rfl rfl rfl fun _ _ => by
  simp [buildWord, buildV, hdOf]
theorem vsqrtApx (h ty md d a e) : Statement (.vsqrtApx h ty md d a e) := wordOf .v rfl rfl rfl rfl fun _ _ => by
  simp [buildWord, buildV, hdOf]
theorem vrsqrtApx (h ty md d a e) : Statement (.vrsqrtApx h ty md d a e) := wordOf .v rfl rfl rfl rfl fun _ _ => by
  simp [buildWord, buildV, hdOf]
theorem vsinApx (h ty md d a e) : Statement (.vsinApx h ty md d a e) := wordOf .v rfl rfl rfl rfl fun _ _ => by
  simp [buildWord, buildV, hdOf]
theorem vcosApx (h ty md d a e) : Statement (.vcosApx h ty md d a e) := wordOf .v rfl rfl rfl rfl fun _ _ => by
  simp [buildWord, buildV, hdOf]
theorem vtanhApx (h ty md d a e) : Statement (.vtanhApx h ty md d a e) := wordOf .v rfl rfl rfl rfl fun _ _ => by
  simp [buildWord, buildV, hdOf]
theorem vlogisticApx (h ty md d a e) : Statement (.vlogisticApx h ty md d a e) := wordOf .v rfl rfl rfl rfl fun _ _ => by
  simp [buildWord, buildV, hdOf]
theorem phase2Complete (core) : Statement (.phase2Complete core) := event rfl rfl
theorem leaseAcq (h imm) : Statement (.leaseAcq h imm) := wordOf .m rfl rfl rfl rfl fun _ _ => rfl
theorem leaseGrant (cl) : Statement (.leaseGrant cl) := event rfl rfl
theorem leaseHandOver (cl) : Statement (.leaseHandOver cl) := event rfl rfl
theorem leaseRel (h) : Statement (.leaseRel h) := wordOf .m rfl rfl rfl rfl fun _ _ => rfl
theorem leaseSt (h d) : Statement (.leaseSt h d) := wordOf .m rfl rfl rfl rfl fun _ _ => rfl
theorem odSetSp (h d a b) : Statement (.odSetSp h d a b) := wordOf .m rfl rfl rfl rfl fun _ _ => by
  simp [buildWord, buildM, hdOf]
theorem odSetV (h d a b) : Statement (.odSetV h d a b) := wordOf .m rfl rfl rfl rfl fun _ _ => by
  simp [buildWord, buildM, hdOf]
theorem odSetM (h d a b) : Statement (.odSetM h d a b) := wordOf .m rfl rfl rfl rfl fun _ _ => by
  simp [buildWord, buildM, hdOf]
theorem mma (h ty q kk d a b imm) : Statement (.mma h ty q kk d a b imm) := wordOf .m rfl rfl rfl rfl fun _ _ => by
  cases q <;> simp [buildWord, buildM, hdOf, qualMd, mdQual, show kk.toNat < 16 from kk.isLt]
theorem accZero (h d) : Statement (.accZero h d) := wordOf .m rfl rfl rfl rfl fun _ _ => rfl
theorem accSwap (h d) : Statement (.accSwap h d) := wordOf .m rfl rfl rfl rfl fun _ _ => rfl
theorem accRd (h d a imm) : Statement (.accRd h d a imm) := wordOf .m rfl rfl rfl rfl fun _ _ => rfl
theorem accFlag (h d a) : Statement (.accFlag h d a) := wordOf .m rfl rfl rfl rfl fun _ _ => rfl
theorem hcp (h d a imm) : Statement (.hcp h d a imm) := wordOf .h rfl rfl rfl rfl fun _ _ => rfl
theorem hgat (h d a b imm) : Statement (.hgat h d a b imm) := wordOf .h rfl rfl rfl rfl fun _ _ => rfl
theorem hsct (h d a b imm) : Statement (.hsct h d a b imm) := wordOf .h rfl rfl rfl rfl fun _ _ => rfl
theorem hmc (h d a imm) : Statement (.hmc h d a imm) := wordOf .h rfl rfl rfl rfl fun _ _ => by
  simp [buildWord, buildH, hdOf]
theorem hmcSig (h d a imm) : Statement (.hmcSig h d a imm) := wordOf .h rfl rfl rfl rfl fun _ _ => by
  simp [buildWord, buildH, hdOf]
theorem hmcPairArrival (core pair) : Statement (.hmcPairArrival core pair) := event rfl rfl
theorem hlay (h d a b e imm) : Statement (.hlay h d a b e imm) := wordOf .h rfl rfl rfl rfl fun _ _ => rfl
theorem hfill (h d a b imm) : Statement (.hfill h d a b imm) := wordOf .h rfl rfl rfl rfl fun _ _ => rfl
theorem hpub (h d a imm) : Statement (.hpub h d a imm) := wordOf .h rfl rfl rfl rfl fun _ _ => rfl
theorem cqInit (h d a b) : Statement (.cqInit h d a b) := wordOf .h rfl rfl rfl rfl fun _ _ => rfl
theorem cqAck (h d a) : Statement (.cqAck h d a) := wordOf .h rfl rfl rfl rfl fun _ _ => rfl
theorem commandComplete (core q) : Statement (.commandComplete core q) := event rfl rfl
theorem lodeAct (h d a imm) : Statement (.lodeAct h d a imm) := wordOf .h rfl rfl rfl rfl fun _ _ => rfl
theorem lodeSacc (h kk q d a b e imm) : Statement (.lodeSacc h kk q d a b e imm) := wordOf .h rfl rfl rfl rfl fun _ _ => by
  cases q <;> simp [buildWord, buildH, hdOf, qualMd, mdQual]
theorem stampedStart (core q) : Statement (.stampedStart core q) := event rfl rfl
theorem lodePageRead (core o) : Statement (.lodePageRead core o) := event rfl rfl
theorem lodeDrain (h d a imm) : Statement (.lodeDrain h d a imm) := wordOf .h rfl rfl rfl rfl fun _ _ => by
  simp [buildWord, buildH, hdOf]
theorem lodeDrainRaw (h d a imm) : Statement (.lodeDrainRaw h d a imm) := wordOf .h rfl rfl rfl rfl fun _ _ => by
  simp [buildWord, buildH, hdOf]
theorem lodeIred (h d a imm) : Statement (.lodeIred h d a imm) := wordOf .h rfl rfl rfl rfl fun _ _ => rfl
theorem lodeStat (h d a imm) : Statement (.lodeStat h d a imm) := wordOf .h rfl rfl rfl rfl fun _ _ => rfl
theorem linkSend (h d a e imm) : Statement (.linkSend h d a e imm) := wordOf .h rfl rfl rfl rfl fun _ _ => rfl
theorem linkRed (h d a e imm) : Statement (.linkRed h d a e imm) := wordOf .h rfl rfl rfl rfl fun _ _ => rfl
theorem rdlOpen (h d a b imm) : Statement (.rdlOpen h d a b imm) := wordOf .h rfl rfl rfl rfl fun _ _ => rfl
theorem rdlMask (h d a b imm) : Statement (.rdlMask h d a b imm) := wordOf .h rfl rfl rfl rfl fun _ _ => by
  simp [buildWord, buildH, hdOf]
theorem rdlMaskM (h d a b imm) : Statement (.rdlMaskM h d a b imm) := wordOf .h rfl rfl rfl rfl fun _ _ => by
  simp [buildWord, buildH, hdOf]
theorem rdlStep (h d b e imm) : Statement (.rdlStep h d b e imm) := wordOf .h rfl rfl rfl rfl fun _ _ => rfl
theorem rdlFork (h d b imm) : Statement (.rdlFork h d b imm) := wordOf .h rfl rfl rfl rfl fun _ _ => rfl
theorem rdlKeep (h d b imm) : Statement (.rdlKeep h d b imm) := wordOf .h rfl rfl rfl rfl fun _ _ => rfl
theorem rdlDrop (h d b imm) : Statement (.rdlDrop h d b imm) := wordOf .h rfl rfl rfl rfl fun _ _ => rfl
theorem rdlSave (h d a b imm) : Statement (.rdlSave h d a b imm) := wordOf .h rfl rfl rfl rfl fun _ _ => rfl
theorem rdlLoad (h d a b imm) : Statement (.rdlLoad h d a b imm) := wordOf .h rfl rfl rfl rfl fun _ _ => rfl
theorem asyBind (h d a b imm) : Statement (.asyBind h d a b imm) := wordOf .h rfl rfl rfl rfl fun _ _ => rfl
theorem asyRun (h d a b imm) : Statement (.asyRun h d a b imm) := wordOf .h rfl rfl rfl rfl fun _ _ => rfl
theorem asyStat (h d a b imm) : Statement (.asyStat h d a b imm) := wordOf .h rfl rfl rfl rfl fun _ _ => rfl
theorem asyHalt (i14) : Statement (.asyHalt i14) := assayer rfl rfl fun _ => rfl
theorem asyLdlog (a) : Statement (.asyLdlog a) := assayer rfl rfl fun _ => rfl
theorem asyScl (a) : Statement (.asyScl a) := assayer rfl rfl fun _ => rfl
theorem asySub (a) : Statement (.asySub a) := assayer rfl rfl fun _ => rfl
theorem asyExp : Statement (.asyExp) := assayer rfl rfl fun _ => rfl
theorem asyDiv (a) : Statement (.asyDiv a) := assayer rfl rfl fun _ => rfl
theorem asyDivS (d a b) : Statement (.asyDivS d a b) := assayer rfl rfl fun _ => rfl
theorem asyTmax (d) : Statement (.asyTmax d) := assayer rfl rfl fun _ => rfl
theorem asyTsum (d) : Statement (.asyTsum d) := assayer rfl rfl fun _ => rfl
theorem asyMinp (a) : Statement (.asyMinp a) := assayer rfl rfl fun _ => rfl
theorem asyMask : Statement (.asyMask) := assayer rfl rfl fun _ => rfl
theorem asySort : Statement (.asySort) := assayer rfl rfl fun _ => rfl
theorem asyScan : Statement (.asyScan) := assayer rfl rfl fun _ => rfl
theorem asyTopp (a) : Statement (.asyTopp a) := assayer rfl rfl fun _ => rfl
theorem asyDraw (d a p2) : Statement (.asyDraw d a p2) := assayer rfl rfl fun _ => by
  show some _ = some _
  rw [zext_low _ (by norm_num)]
theorem asyPick (d a) : Statement (.asyPick d a) := assayer rfl rfl fun _ => rfl
theorem asyVal (d a) : Statement (.asyVal d a) := assayer rfl rfl fun _ => rfl
theorem asyValQ (d a b) : Statement (.asyValQ d a b) := assayer rfl rfl fun _ => rfl
theorem asyStp (a) : Statement (.asyStp a) := assayer rfl rfl fun _ => rfl
theorem asyStop (d a) : Statement (.asyStop d a) := assayer rfl rfl fun _ => rfl
theorem asyCommit (a) : Statement (.asyCommit a) := assayer rfl rfl fun _ => rfl
theorem asyAccept (d a b) : Statement (.asyAccept d a b) := assayer rfl rfl fun _ => rfl
theorem asyResid (a) : Statement (.asyResid a) := assayer rfl rfl fun _ => rfl
theorem asyMov (d a) : Statement (.asyMov d a) := assayer rfl rfl fun _ => rfl
theorem asyMovi (d i14) : Statement (.asyMovi d i14) := assayer rfl rfl fun _ => rfl
theorem asyAddF (d a b) : Statement (.asyAddF d a b) := assayer rfl rfl fun _ => rfl
theorem asyAddI (d a b) : Statement (.asyAddI d a b) := assayer rfl rfl fun _ => rfl
theorem asyMulF (d a b) : Statement (.asyMulF d a b) := assayer rfl rfl fun _ => rfl
theorem asyMulI (d a b) : Statement (.asyMulI d a b) := assayer rfl rfl fun _ => rfl
theorem asyBrAl (s12) : Statement (.asyBrAl s12) := assayer rfl rfl fun _ => by
  rw [buildAsy]
  simp only [branch_high, branch_low 0#14 rfl]
  rfl
theorem asyBrZ (a s12) : Statement (.asyBrZ a s12) := assayer rfl rfl fun _ => by
  simp [buildAsy, branch_low, branch_high]
theorem asyBrNz (a s12) : Statement (.asyBrNz a s12) := assayer rfl rfl fun _ => by
  simp [buildAsy, branch_low, branch_high]
theorem asyStatRead (d s8) : Statement (.asyStatRead d s8) := assayer rfl rfl fun _ => by
  show some _ = some _
  rw [zext_low _ (by norm_num)]
theorem sectionHeaderExamine (core g) : Statement (.sectionHeaderExamine core g) := event rfl rfl
theorem steerTargetPop (core g) : Statement (.steerTargetPop core g) := event rfl rfl
theorem joinRendezvous (core g) : Statement (.joinRendezvous core g) := event rfl rfl
theorem retireForTile (core g) : Statement (.retireForTile core g) := event rfl rfl
theorem tokenDeadlock (core) : Statement (.tokenDeadlock core) := event rfl rfl
theorem reserveRead (fn q) : Statement (.reserveRead fn q) := event rfl rfl
theorem commitWrite (fn q v) : Statement (.commitWrite fn q v) := event rfl rfl
theorem queueEnable (fn q) : Statement (.queueEnable fn q) := event rfl rfl
theorem queueDestroy (fn q discard) : Statement (.queueDestroy fn q discard) := event rfl rfl
theorem registerWrite (fn off v) : Statement (.registerWrite fn off v) := event rfl rfl
theorem recordTake (q) : Statement (.recordTake q) := event rfl rfl
theorem waitEvaluation (q) : Statement (.waitEvaluation q) := event rfl rfl
theorem walkerChoice : Statement (.walkerChoice) := event rfl rfl
theorem recordComplete (q) : Statement (.recordComplete q) := event rfl rfl
theorem completionEntryWrite (q) : Statement (.completionEntryWrite q) := event rfl rfl
theorem deadlineExpiry (q) : Statement (.deadlineExpiry q) := event rfl rfl
theorem haltRequest (tid) : Statement (.haltRequest tid) := event rfl rfl
theorem haltComplete (tid) : Statement (.haltComplete tid) := event rfl rfl
theorem teamSave (tid) : Statement (.teamSave tid) := event rfl rfl
theorem thermalMigration (cl hot) : Statement (.thermalMigration cl hot) := event rfl rfl
theorem faultRecordWrite : Statement (.faultRecordWrite) := event rfl rfl
theorem cacheEviction (line) : Statement (.cacheEviction line) := event rfl rfl
theorem shoringSteal (stack die plane) : Statement (.shoringSteal stack die plane) := event rfl rfl
theorem shoringRefresh (stack die plane blk bad wrErr) : Statement (.shoringRefresh stack die plane blk bad wrErr) := event rfl rfl
theorem bondSelfTest (cls bus grp wires) : Statement (.bondSelfTest cls bus grp wires) := event rfl rfl
theorem hostWrite (fn pa data) : Statement (.hostWrite fn pa data) := event rfl rfl
theorem hostRead (fn pa len) : Statement (.hostRead fn pa len) := event rfl rfl
theorem hostAtomicop (fn pa) : Statement (.hostAtomicop fn pa) := event rfl rfl
theorem pageRequestResponse (part idx resp) : Statement (.pageRequestResponse part idx resp) := event rfl rfl
theorem atsInvalidate (pasid base len) : Statement (.atsInvalidate pasid base len) := event rfl rfl
theorem sessionDoorbell (fn addr) : Statement (.sessionDoorbell fn addr) := event rfl rfl
theorem ident (fn) : Statement (.ident fn) := event rfl rfl
theorem health (fn) : Statement (.health fn) := event rfl rfl
theorem reloadq (fn) : Statement (.reloadq fn) := event rfl rfl
theorem partset (fn) : Statement (.partset fn) := event rfl rfl
theorem partget (fn) : Statement (.partget fn) := event rfl rfl
theorem capset (fn) : Statement (.capset fn) := event rfl rfl
theorem capget (fn) : Statement (.capget fn) := event rfl rfl
theorem measure (fn) : Statement (.measure fn) := event rfl rfl
theorem idkey (fn) : Statement (.idkey fn) := event rfl rfl
theorem quote (fn) : Statement (.quote fn) := event rfl rfl
theorem config (fn) : Statement (.config fn) := event rfl rfl
theorem mrext (fn) : Statement (.mrext fn) := event rfl rfl
theorem fwupd (fn) : Statement (.fwupd fn) := event rfl rfl
theorem fwstat (fn) : Statement (.fwstat fn) := event rfl rfl
theorem restart (fn) : Statement (.restart fn) := event rfl rfl
theorem flitWrite (port f) : Statement (.flitWrite port f) := event rfl rfl
theorem flitReadRequest (port f) : Statement (.flitReadRequest port f) := event rfl rfl
theorem flitReadData (port f) : Statement (.flitReadData port f) := event rfl rfl
theorem flitAtomic (port f) : Statement (.flitAtomic port f) := event rfl rfl
theorem flitAtomicResult (port f) : Statement (.flitAtomicResult port f) := event rfl rfl
theorem flitReduceData (port f) : Statement (.flitReduceData port f) := event rfl rfl
theorem flitCompletion (port f) : Statement (.flitCompletion port f) := event rfl rfl
theorem flitTick (port f) : Statement (.flitTick port f) := event rfl rfl
theorem flitControl (port f) : Statement (.flitControl port f) := event rfl rfl
theorem portDown (port) : Statement (.portDown port) := event rfl rfl
theorem tickFlitSend : Statement (.tickFlitSend) := event rfl rfl
theorem linkTrain (port peer skewOk) : Statement (.linkTrain port peer skewOk) := event rfl rfl
theorem tickAdvance : Statement (.tickAdvance) := event rfl rfl
theorem governorStep (cl step) : Statement (.governorStep cl step) := event rfl rfl
theorem powerGood : Statement (.powerGood) := event rfl rfl
theorem powerLoss : Statement (.powerLoss) := event rfl rfl
theorem stageFEntry : Statement (.stageFEntry) := event rfl rfl
theorem stageMEntry (ok modNum modCount) : Statement (.stageMEntry ok modNum modCount) := event rfl rfl
theorem stageAEntry : Statement (.stageAEntry) := event rfl rfl
theorem sessionOpen (part) : Statement (.sessionOpen part) := event rfl rfl
theorem sessionRound (part) : Statement (.sessionRound part) := event rfl rfl
theorem sessionDraft (part chain) : Statement (.sessionDraft part chain) := event rfl rfl
theorem sessionVerify (part chain) : Statement (.sessionVerify part chain) := event rfl rfl
theorem sessionDecide (part) : Statement (.sessionDecide part) := event rfl rfl
theorem sessionCommit (part) : Statement (.sessionCommit part) := event rfl rfl
theorem outputEntryWrite (part) : Statement (.outputEntryWrite part) := event rfl rfl
theorem sessionClose (part) : Statement (.sessionClose part) := event rfl rfl
theorem configSpaceWrite (fn r v) : Statement (.configSpaceWrite fn r v) := event rfl rfl
theorem pcieCompletion (id c) : Statement (.pcieCompletion id c) := event rfl rfl
theorem completionTimeout (id) : Statement (.completionTimeout id) := event rfl rfl
theorem shootdownTimeout (mods) : Statement (.shootdownTimeout mods) := event rfl rfl

end Sys2Proof.Laws.RoundTrip
end

