-- ==== Sys2Proof/Laws/Regions.lean ====
section
/-! SUPPORT. A plane of few blocks in use and none retired has a free block for every page and every copy of a scale page, wherever the
search begins. -/

namespace Sys2Proof.Machine

theorem unused_length (l : List Nat) (n : Nat) : n ≤ ((List.range n).filter (fun b => !l.contains b)).length + l.length := by
  induction l with
  | nil => simp
  | cons x r ih =>
    have h : (List.range n).filter (fun b => !(x :: r).contains b) = ((List.range n).filter (fun b => !r.contains b)).erase x := by
      rw [(List.nodup_range.filter _).erase_eq_filter, List.filter_filter]
      congr 1; funext b; by_cases e : b = x <;> simp [e]
    have := List.length_erase (a := x) (l := (List.range n).filter (fun b => !r.contains b))
    simp only [h, List.length_cons]
    split at this <;> omega

/-- The free blocks of a plane without retired blocks. -/
theorem freeCount_ge (s : State) (stack die plane : Nat) (hb : s.blocks = []) :
    8192 ≤ freeCount s stack die plane + (usedBlocks s stack die plane).length := by
  have := unused_length (usedBlocks s stack die plane) 8192
  simpa [freeCount, blockAt, hb, SMap.get] using this

theorem freeBlock_isSome (s : State) (stack die plane start : Nat) (hb : s.blocks = [])
    (hu : (usedBlocks s stack die plane).length < 8192) : ∃ b, freeBlock s stack die plane start = some b := by
  have h := freeCount_ge s stack die plane hb
  have hp : 0 < ((List.range 8192).filter (fun b => !(usedBlocks s stack die plane).contains b)).length := by
    have := unused_length (usedBlocks s stack die plane) 8192; omega
  obtain ⟨b, hm⟩ := List.exists_mem_of_length_pos hp
  obtain ⟨hr, hn⟩ := List.mem_filter.mp hm
  rw [List.mem_range] at hr
  refine Option.isSome_iff_exists.mp ?_
  unfold freeBlock
  rw [List.find?_isSome]
  refine ⟨b, List.mem_map.mpr ⟨(b + 8192 - start % 8192) % 8192, List.mem_range.mpr (Nat.mod_lt _ (by decide)), by omega⟩, ?_⟩
  simpa [blockAt, hb, SMap.get] using hn

theorem freshBlock_isSome (s : State) (stack die plane start : Nat) (hb : s.blocks = [])
    (hu : (usedBlocks s stack die plane).length < 4000) : ∃ b, freshBlock s stack die plane start = some b := by
  have h := freeCount_ge s stack die plane hb
  have hs : spareLeft s stack die plane ≤ 163 := Nat.sub_le _ _
  obtain ⟨b, hf⟩ := freeBlock_isSome s stack die plane start hb (by omega)
  exact ⟨b, by unfold freshBlock; rw [if_pos (by omega), hf]⟩

/-- Regions that hold few pages use few blocks of a plane. -/
theorem regionBlocks_length (stack die plane : Nat) (r : Region) : (regionBlocks stack die plane r).length ≤ r.map.length + r.smap.length := by
  unfold regionBlocks
  rw [List.length_append]
  exact Nat.add_le_add (List.length_filterMap_le _ _) (List.length_filterMap_le _ _)

/-- The one region of the module takes a block for a page. -/
theorem reservePage_takes (s : State) (r : Region) (n p : Nat) (hr : s.regions = [(0, some r)]) (hb : s.blocks = [])
    (hl : r.map.length + r.smap.length < 4000) :
    ∃ b, reservePage 0 s n p = setRegion { s with free := s.free + 1 } 0 (some { r with map := SMap.set 0 r.map (8 * n + p) (b + 1) }) := by
  have ha : regionAt s 0 = some r := by simp [regionAt, hr, SMap.get]
  obtain ⟨b, h⟩ := freshBlock_isSome s (tilePlace r n).1 (tilePlace r n).2.1 (tilePlace r n).2.2 (Config.freeWord s.free).toNat hb
    (by simp only [usedBlocks, hr, List.flatMap_cons, List.flatMap_nil, List.append_nil]
        exact Nat.lt_of_le_of_lt (regionBlocks_length _ _ _ _) hl)
  exact ⟨b, by simp [reservePage, ha, h]⟩

/-- The one region of a module without dead plane groups takes a block for a copy of a scale page, on another die than the other copy's. -/
theorem reserveScale_takes (s : State) (r : Region) (g stack i : Nat) (hr : s.regions = [(0, some r)]) (hb : s.blocks = [])
    (hd : s.deadGroups = []) (hl : r.map.length + r.smap.length < 4000) (hk : SMap.get 0 r.smap (scaleKey g stack i) = 0) :
    ∃ k, k ≠ 0 ∧ reserveScale 0 s g stack i =
      setRegion { s with free := s.free + 1 } 0 (some { r with smap := SMap.set 0 r.smap (scaleKey g stack i) k }) := by
  have ha : regionAt s 0 = some r := by simp [regionAt, hr, SMap.get]
  let key := scaleKey g stack i
  let x := (Config.freeWord s.free).toNat
  let u : State := { s with free := s.free + 1 }
  let f : Nat × Nat → Option Nat := fun p => (freshBlock u stack p.1 p.2 (x / 1024)).map (fun b => blockKey stack p.1 p.2 b + 1)
  have hf : ∀ p, (f p).isSome = true := by
    intro p
    obtain ⟨b, h⟩ := freshBlock_isSome u stack p.1 p.2 (x / 1024) hb
      (by simp only [u, usedBlocks, hr, List.flatMap_cons, List.flatMap_nil, List.append_nil]
          exact Nat.lt_of_le_of_lt (regionBlocks_length _ _ _ _) hl)
    simp [f, h]
  have hp : ∃ p, p ∈ scalePlaces u r key stack x := by
    let d := (SMap.get 0 r.smap (key / 2 * 2 + (1 - key % 2)) - 1) / 2 ^ 20 % 8
    refine ⟨((x + ((d + 1) + 1024 - x % 1024) % 1024) % 1024 % 8, (x + ((d + 1) + 1024 - x % 1024) % 1024) % 1024 / 8), List.mem_filter.mpr ⟨?_, ?_⟩⟩
    · exact List.mem_map.mpr ⟨((d + 1) + 1024 - x % 1024) % 1024, List.mem_range.mpr (Nat.mod_lt _ (by decide)), rfl⟩
    · have hne : d ≠ (x + ((d + 1) + 1024 - x % 1024) % 1024) % 1024 % 8 := by
        have : d < 8 := Nat.mod_lt _ (by decide)
        omega
      simp only [u, hd, SMap.get, Bool.not_false, Bool.and_true, Bool.or_eq_true, bne_iff_ne]
      exact .inr hne
  obtain ⟨p, hm⟩ := hp
  have hs : ((scalePlaces u r key stack x).findSome? f).isSome = true := by
    rw [List.findSome?_isSome_iff]
    exact ⟨p, hm, hf p⟩
  obtain ⟨k, hk'⟩ := Option.isSome_iff_exists.mp hs
  refine ⟨k, ?_, ?_⟩
  · obtain ⟨q, -, hq⟩ := List.exists_of_findSome?_eq_some hk'
    obtain ⟨b, -, rfl⟩ := Option.map_eq_some_iff.mp hq
    exact Nat.succ_ne_zero _
  · have hk2 : (scalePlaces u r (scaleKey g stack i) stack (Config.freeWord s.free).toNat).findSome?
        (fun p => (freshBlock u stack p.1 p.2 ((Config.freeWord s.free).toNat / 1024)).map (fun b => blockKey stack p.1 p.2 b + 1)) = some k := hk'
    simp only [u] at hk2
    simp [reserveScale, ha, hk, hk2]

end Sys2Proof.Machine
end

