-- ==== Sys2Proof/Laws/Words.lean ====
section
/-! SUPPORT. What a word does on each of its paths: waits for its tokens, is nullified, or takes effect and goes on. -/

namespace Sys2Proof.Machine

variable {s t : State} {h : Hd} {w : WordDef}

/-- A word that comes to its effect and is done goes on from the state its effect leaves (R34). -/
theorem runWord_ready (hr : Ready s h) (he : w.eff (atHand s h) = .done t) : runWord s h w = .next (goesOn h t w) := by
  obtain ⟨h1, h2, h3⟩ := hr
  unfold runWord runWordS goesOn atHand at *
  dsimp only at *
  rcases h2 with h2 | h2
  · simp only [h1, h2, h3, if_true, Bool.false_eq_true, if_false] at he ⊢
    rw [he]
  · cases hi : (curEng s).issued
    · simp only [h1, h2, h3, hi, if_true, Bool.false_eq_true, if_false] at he ⊢
      rw [he]
    · simp only [h1, h3, hi, if_true, Bool.false_eq_true, if_false] at he ⊢
      rw [he]

/-- A word that comes to its effect and must wait there keeps its issue (R142). -/
theorem runWord_stall {k d o : Nat} (hr : Ready s h) (he : w.eff (atHand s h) = .stall k d o t) :
    runWord s h w = .next (upCurEng t (fun e => { waitOn t.tick e k d o with issued := true })) := by
  obtain ⟨h1, h2, h3⟩ := hr
  unfold runWord runWordS atHand at *
  dsimp only at *
  rcases h2 with h2 | h2
  · simp only [h1, h2, h3, if_true, Bool.false_eq_true, if_false] at he ⊢
    rw [he]
  · cases hi : (curEng s).issued
    · simp only [h1, h2, h3, hi, if_true, Bool.false_eq_true, if_false] at he ⊢
      rw [he]
    · simp only [h1, h3, hi, if_true, Bool.false_eq_true, if_false] at he ⊢
      rw [he]

/-- A word that comes to its effect and fails ends its context (R306). -/
theorem runWord_fatal {f : FInfo} (hr : Ready s h) (he : w.eff (atHand s h) = .fatal f t) :
    runWord s h w = .next (fatalHere t f) := by
  obtain ⟨h1, h2, h3⟩ := hr
  unfold runWord runWordS atHand at *
  dsimp only at *
  rcases h2 with h2 | h2
  · simp only [h1, h2, h3, if_true, Bool.false_eq_true, if_false] at he ⊢
    rw [he]
  · cases hi : (curEng s).issued
    · simp only [h1, h2, h3, hi, if_true, Bool.false_eq_true, if_false] at he ⊢
      rw [he]
    · simp only [h1, h3, hi, if_true, Bool.false_eq_true, if_false] at he ⊢
      rw [he]

/-- A nullified word (R29). -/
theorem runWord_dead (hp : (curEng s).pushpend = false)
    (hi : (curEng s).issued = true ∨ popBlocked (curCore s) s.cur.eng h.pop = none) (hl : liveWord (curEng s) h = false) :
    runWord s h w = .next (passedOver h (atHand s h) w) := by
  unfold runWord runWordS passedOver atHand
  dsimp only
  rcases hi with hi | hi
  · simp only [hp, hi, hl, if_true, Bool.false_eq_true, if_false]
  · cases h2 : (curEng s).issued
    · simp only [hp, hi, hl, h2, if_true, Bool.false_eq_true, if_false]
    · simp only [hp, hl, h2, if_true, Bool.false_eq_true, if_false]

/-- A word whose tokens are not there waits for them (R34). -/
theorem runWord_noTokens {f : Nat} (hp : (curEng s).pushpend = false) (hi : (curEng s).issued = false)
    (hb : popBlocked (curCore s) s.cur.eng h.pop = some f) :
    runWord s h w = .next (upCurEng s (fun e => waitOn s.tick e 1 f 0)) := by
  unfold runWord runWordS
  simp only [hp, hi, hb, Bool.false_eq_true, if_false]

/-- A word that stands at its pushes (R34). -/
theorem runWord_pushing (hp : (curEng s).pushpend = true) :
    runWord s h w = .next (retireWord s h (repPush s) (liveWord (curEng s) h) w) := by
  unfold runWord runWordS
  simp only [hp, if_true]

/-- The paths of a word: every one of them answers a next state. -/
theorem runWord_cases (s : State) (h : Hd) (w : WordDef) :
    (∃ t, w.eff (atHand s h) = .done t ∧ runWord s h w = .next (goesOn h t w)) ∨
    (∃ k d o t, w.eff (atHand s h) = .stall k d o t ∧
      runWord s h w = .next (upCurEng t (fun e => { waitOn t.tick e k d o with issued := true }))) ∨
    (∃ f t, w.eff (atHand s h) = .fatal f t ∧ runWord s h w = .next (fatalHere t f)) ∨
    (∃ f lanes mask t, w.eff (atHand s h) = .trap f lanes mask t) ∨
    runWord s h w = .next (passedOver h (atHand s h) w) ∨
    (∃ f, runWord s h w = .next (upCurEng s (fun e => waitOn s.tick e 1 f 0))) ∨
    runWord s h w = .next (retireWord s h (repPush s) (liveWord (curEng s) h) w) := by
  cases hp : (curEng s).pushpend with
  | true => exact .inr (.inr (.inr (.inr (.inr (.inr (runWord_pushing hp))))))
  | false =>
    by_cases hb : (curEng s).issued = true ∨ popBlocked (curCore s) s.cur.eng h.pop = none
    · cases hl : liveWord (curEng s) h with
      | false => exact .inr (.inr (.inr (.inr (.inl (runWord_dead hp hb hl)))))
      | true =>
        have hr : Ready s h := ⟨hp, hb, hl⟩
        cases he : w.eff (atHand s h) with
        | done t => exact .inl ⟨t, rfl, runWord_ready hr he⟩
        | stall k d o t => exact .inr (.inl ⟨k, d, o, t, rfl, runWord_stall hr he⟩)
        | fatal f t => exact .inr (.inr (.inl ⟨f, t, rfl, runWord_fatal hr he⟩))
        | trap f l m t => exact .inr (.inr (.inr (.inl ⟨f, l, m, t, rfl⟩)))
    · simp only [not_or, Bool.not_eq_true] at hb
      obtain ⟨hi, hb⟩ := hb
      cases hb2 : popBlocked (curCore s) s.cur.eng h.pop with
      | none => exact absurd hb2 hb
      | some f => exact .inr (.inr (.inr (.inr (.inr (.inl ⟨f, runWord_noTokens hp hi hb2⟩)))))

end Sys2Proof.Machine
end

