-- ==== Sys2Proof/Tests/Slice0.lean ====
section
/-! SUPPORT. Tests of the model: words written out from the spec's encodings, ill-formed terms that the checks refuse, and for every
statement that has hypotheses a state and operands that meet them (test_w_…). Expected values come from the spec's text. -/

namespace Sys2Proof.Machine.Slice0Tests
open Sys2Proof Sys2Proof.Machine
set_option Elab.async false

/-- A head that pops and pushes nothing and is live. -/
def hd : Hd := { pop := 0, push := 0, pred := 7, pneg := false }
/-- A nullified head. -/
def hdDead : Hd := { pop := 0, push := 0, pred := 7, pneg := true }
/-- Engine `g` of core 2 at hand; its core and its team 0 as given, the team running. -/
def at2 (g : Eng) (c : Core := {}) (t : Team := {}) : State :=
  setTeam (setCore { State.reset with cur := { core := 2, eng := g } } 2 { c with tid := 0 }) 0 { t with st := .running, cores := [2] }
/-- The same with the engine's block given. -/
def eng2 (g : Eng) (e : EngSt) (c : Core := {}) (t : Team := {}) : State := at2 g (setEngSt c g e) t

/-! ## Words of every engine -/

theorem test_ready : Ready (at2 .c) hd ∧ Ready (at2 .v) hd ∧ Ready (at2 .m) hd ∧ Ready (at2 .h) hd := by unfold Ready; decide
theorem test_dead : liveWord (curEng (at2 .c)) hdDead = false ∧ (curEng (at2 .c)).pushpend = false ∧
    popBlocked (curCore (at2 .c)) .c hdDead.pop = none := by decide
theorem test_w_shift_large : 64 ≤ (rd (at2 .c { x := [(5, 64)] }) 5).toNat := by decide
theorem test_w_division : rd (at2 .c) 1 = 0 ∧ rd (at2 .c { x := [(1, 0x8000000000000000), (2, 0xFFFFFFFFFFFFFFFF)] }) 2 = 0xFFFFFFFFFFFFFFFF := by decide
theorem test_w_laden : namedEngs .c 1 = [1] ∧ fifoAt (curCore (at2 .c (setFifo {} (fifoNum 1 0) [{}]))) (fifoNum 1 (engNum .c)) = {} :: [] := by decide
theorem test_w_pushes : pushBlocked (curCore (at2 .c)) .c 1 = none ∧
    (pushBlocked (curCore (at2 .c (setFifo {} (fifoNum 0 1) (List.replicate 64 {})))) .c 1).isSome = true := by decide
theorem test_w_waits : (popBlocked (curCore (at2 .c)) .c 1).isSome = true := by decide
theorem test_w_frame : scalarDest (.add hd 3 1 2) = some (hd, some 3) ∧ exec (.add hd 3 1 2) (at2 .c) = .next (goesOn hd (wr (at2 .c) 3 0)) :=
  ⟨rfl, rfl⟩
theorem test_w_pred_frame : predDest (.pnot hd 3 1) = some (hd, 3) ∧ exec (.pnot hd 3 1) (at2 .v) = .next (goesOn hd (wrP (at2 .v) 3 true)) := ⟨rfl, rfl⟩
/-! ## Control words -/

/-- Bytes of text that the core holds from offset `off` on. -/
def textAt (off : Nat) (w : BitVec 96) : SMap (Option TByte) :=
  (List.range 12).map (fun i => (off + i, some (.byte (BitVec.ofNat 8 (w.toNat / 2 ^ (8 * i))))))
/-- Engine C in a section of `len` words at offset 0, at its first word. -/
def inSec (kind len : Nat) : EngSt := { pc := 8, sec := some { off := 0, kind := kind, tag := 0, len := len } }
/-- `add x3, x1, x2`. -/
def addWord : BitVec 96 := 0x040380030102000000000000

theorem test_w_rep : let s := eng2 .c (inSec 0 2) { tnew := textAt 20 addWord } { text := 1 }
    lastWord s = false ∧ repNextOk s 0x11000003 = true ∧ repNextOk s 0x00010003 = false ∧ repOk .c 0x11000003 (unpackWord (wordAt s ((curEng s).pc + 12))) = true ∧ popBlocked (curCore s) .c hd.pop = none := by decide +kernel
theorem test_w_rep_illegal : lastWord (eng2 .c (inSec 0 1)) = true := by decide
theorem test_w_branch : let s := eng2 .c (inSec 1 2)
    Ready s hd ∧ Single s hd ∧ (curEng s).sec = some { off := 0, kind := 1, tag := 0, len := 2 } ∧ (curEng s).pc + 12 < 0 + 8 + 12 * 2 := by
  unfold Ready Single; decide
theorem test_w_branch_dead : let s := eng2 .c (inSec 1 2)
    liveWord (curEng s) hdDead = false ∧ Single s hdDead ∧ popBlocked (curCore s) .c hdDead.pop = none := by unfold Single; decide
theorem test_w_steer : let s := eng2 .c (inSec 1 1) { x := [(5, 2 ^ 48)] }
    Ready s hd ∧ Single s hd ∧ 0 + 8 + 12 * 1 ≤ (curEng s).pc + 12 ∧ 2 ^ 48 ≤ (rd s 5).toNat ∧
    (∀ g ∈ sideEngs, (engSt (curCore s) g).pathq.length < 4) := by unfold Ready Single; decide
theorem test_w_steer_full : let s := eng2 .c (inSec 1 1) { ev := { pathq := [0, 0, 0, 0] } }
    ¬ (∀ g ∈ sideEngs, (engSt (curCore s) g).retired = false → (engSt (curCore s) g).pathq.length < 4) := by decide
theorem test_w_fences : storesBefore (at2 .c) = [] ∧ (SMap.get {} (curCore (at2 .c)).fences 0).ids.any (pendingId (curCore (at2 .c))) = false ∧
    storesBefore (at2 .c { stq := [{ id := 5, eng := .c, seq := 0, bytes := [] }] }) ≠ [] := by decide
theorem test_w_fence_pending : let s := at2 .c { stq := [{ id := 5, eng := .c, seq := 0, bytes := [] }], fences := [(0, { ids := [5] })] }
    (SMap.get {} (curCore s).fences 0).ids.any (pendingId (curCore s)) = true ∧ (SMap.get {} (curCore s).fences 0).scope = 0 ∧
    (SMap.get {} (curCore s).fences 0).cls = 0 ∧ (3 : Nat) ≠ 0 := by decide
theorem test_w_barrier : let s := at2 .c { bround := [(1, 2)] } { nbar := 2, bars := [(1, { g := 1 })] }
    (curTeam s).nbar ≤ 2 ∧ 1 < (curTeam s).nbar ∧ (SMap.get {} (curTeam s).bars 1).g < SMap.get 0 (curCore s).bround 1 ∧
    SMap.get 0 (curCore s).bround 0 ≤ (SMap.get {} (curTeam s).bars 0).g ∧ (storesBefore s).any scratchStore = false := by decide
theorem test_w_twait : (at2 .c { x := [(5, 1)] }).tick < (rd (at2 .c { x := [(5, 1)] }) 5).toNat ∧ (rd (at2 .c) 5).toNat ≤ (at2 .c).tick := by decide
/-- The C engine issued the word of a one-word section and waits as kind `k`. -/
def stalled (k : Nat) (w : BitVec 96) : State :=
  eng2 .c { inSec 0 1 with issued := true, wait := { kind := k } } { tnew := textAt 8 w } { text := 1 }
theorem test_w_events : stalledWord (stalled 10 0x510380000000000000000000) = some (.fnw hd 0) ∧
    stalledWord (stalled 10 0x520380000000000000000000) = some (.phase hd .core) ∧
    stalledWord (stalled 12 0x610380000000000000000000) = some (.twait hd 0) ∧
    stalledWord (stalled 10 0x6B0380000500000000000000) = some (.signal hd .core 5 0 0) ∧
    stalledWord (stalled 8 0x60038003050000A000000000) = some (.waitw hd .eq .n64 3 5 0 0) ∧
    (curTeam (stalled 10 0)).st = .running ∧ (curEng (stalled 10 0)).wait.kind = 10 := by
  refine ⟨rfl, rfl, rfl, rfl, rfl, rfl, rfl⟩
/-- X5 names the word at byte 64 of the core's pair store. -/
def pairPtr : Core := { x := [(5, BitVec.ofNat 64 (0xFFFE * 2 ^ 48 + 2 ^ 23))] }
/-- The keys of that word. -/
def pairKeys : List Nat := (List.range 8).map (fun i => pairBase + 2 ^ 23 + i)
/-- A word of C waits to add to the word at byte 64. -/
def signalling : State :=
  eng2 .c { inSec 0 1 with issued := true, wait := { kind := 10 } } { pairPtr with tnew := textAt 8 0x6B0380000500000000000000 } { text := 1 }
theorem test_w_signal_event : (curEng signalling).issued = true ∧ (curEng signalling).wait.kind = 10 ∧ (curTeam signalling).st = .running ∧
    stalledWord signalling = some (.signal hd .core 5 0 0) ∧ effAddr (rd signalling 5) 0 = some (0xFFFE * 2 ^ 48 + 2 ^ 23) ∧
    xlateRange signalling (curWho signalling .core) .a false (0xFFFE * 2 ^ 48 + 2 ^ 23) 8 = .ok pairKeys ∧ storesBefore signalling = [] := by decide +kernel
theorem test_w_npre : let s := at2 .c {} { nopre := 1 }
    (curTeam s).nopre ≠ 0 ∧ (curCore s).npre = false ∧ Room s hd ∧ (curTeam (at2 .c)).nopre = 0 := by unfold Room; decide
theorem test_w_nopre_over : let s := { at2 .c { npre := true } {} with tick := 1 }
    (coreAt s 2).npre = true ∧ (teamAt s (coreAt s 2).tid).st = .running ∧ (coreAt s 2).npt0 + 0 + 1 ≤ s.tick ∧
    (at2 .c).tick ≤ (coreAt s 2).npt0 ∧ (coreAt s 2).tid ≠ 0x3FE := by decide
theorem test_w_textsync : secKind (eng2 .c (inSec 3 1)) = 3 ∧ secKind (at2 .c) ≠ 3 ∧
    (rd (eng2 .c (inSec 3 1)) 1).toNat = 0 := by decide
/-- The same for 8 bytes at byte 8 of a text of 4 KiB. -/
def syncing : State :=
  { eng2 .c (inSec 3 1) { x := [(1, BitVec.ofNat 64 (2 ^ 48 + 8)), (2, 8)] } { text := 1 } with ht := [(htKey 0 0 1, some { kind := 1, ext := 4096 })] }
theorem test_w_textsync_range : secKind syncing = 3 ∧ (rd syncing 1).toNat / 2 ^ 48 = (curTeam syncing).text ∧
    (htAt syncing (curWho syncing .core).part (curWho syncing .core).ctx (curTeam syncing).text).map (fun e => e.ext) = some 4096 ∧
    (rd syncing 1).toNat % 2 ^ 48 < 4096 ∧ (rd syncing 2).toNat ≠ 0 := by decide +kernel
theorem test_w_signal : SignalReady (at2 .c pairPtr) 5 0 (0xFFFE * 2 ^ 48 + 2 ^ 23) pairKeys := by
  refine ⟨?_, ?_, ?_, ?_, ?_, ?_, ?_, ?_⟩
  · decide +kernel
  · decide +kernel
  · decide +kernel
  · decide +kernel
  · unfold held; decide +kernel
  · decide +kernel
  · decide
  · decide
theorem test_w_waitw : let s := at2 .c pairPtr
    (match coreLoad s (0xFFFE * 2 ^ 48 + 2 ^ 23) 8 true with
      | .ok l _ => waitHolds .eq .n64 64 (leNat l) 0 && !waitHolds .ne .n64 64 (leNat l) 0
      | _ => false) = true := by decide +kernel
/-! ## Memory -/

/-- The device address of byte `k` of the core's pair store. -/
def pairAt (k : Nat) : Nat := 0xFFFE * 2 ^ 48 + 2 ^ 23 + k
def isOk {α : Type} (r : MRes α) : Bool := match r with | .ok _ _ => true | _ => false
def isFail {α : Type} (r : MRes α) : Bool := match r with | .fail _ _ => true | _ => false
def xOk (r : Except XFail (List Nat)) : Bool := match r with | .ok l => decide (l.Nodup) && l.all (fun k => !isRemote k && !decide (apBase ≤ k ∧ k < apTop)) | _ => false

theorem test_w_loads : let s := at2 .c pairPtr
    effAddr (rd s 5) 0 = some (pairAt 0) ∧ isOk (coreLoad s (pairAt 0) 8 false) = true ∧ isOk (coreStore s (pairAt 0) (leBytes 8 1)) = true ∧
    effAddr (rd s 5) (-1) = some (pairAt 0 - 1) ∧ isFail (coreLoad s (2 ^ 48 + 8) 8 false) = true ∧ isFail (coreStore s (2 ^ 48 + 8) [0]) = true ∧
    effAddr (rd (at2 .c { x := [(5, 2 ^ 48 - 1)] }) 5) 1 = none := by decide +kernel
theorem test_w_fresh : xOk (xlateRange (at2 .c) (curWho (at2 .c) .core) .r false (pairAt 0) 2) = true ∧
    xOk (xlateRange (at2 .c) (curWho (at2 .c) .core) .w false (pairAt 0) 2) = true ∧
    xOk (xlateRange (at2 .c) (curWho (at2 .c) .core) .a false (pairAt 0) 8) = true := by decide +kernel
/-- Two stores of core 2 that write the same byte. -/
def twoStores : State := at2 .c { stq := [{ id := 1, eng := .c, seq := 0, bytes := [(pairBase, 7)] }, { id := 2, eng := .c, seq := 1, bytes := [(pairBase, 9)] }] }
theorem test_w_stores : (coreAt twoStores 2).stq[0]? = some { id := 1, eng := .c, seq := 0, bytes := [(pairBase, 7)] } ∧
    ((coreAt twoStores 2).stq.take 1).any (fun x => overlaps x { id := 2, eng := .c, seq := 1, bytes := [(pairBase, 9)] }) = true := by decide +kernel
theorem test_store_performs : rdByte (performNth twoStores 2 0) pairBase = 7 ∧ performNth twoStores 2 1 = twoStores := by decide +kernel
/-- Handle 5 of partition 0, context 0, is a peer handle whose page lies on the host (HOME 4). -/
def hostHandle (s : State) : State := { s with ht := [(htKey 0 0 5, some { kind := 6, ext := 4096 })], mem := [(0, 0x41)] }
theorem test_w_atomics : let s := at2 .c pairPtr
    (match coreAtomic s .add .n64 (pairAt 0) 8 1 0 with | .ok (some _) _ => true | _ => false) = true ∧
    (match coreAtomic (hostHandle s) .add .n64 (5 * 2 ^ 48) 8 1 0 with | .ok none _ => true | _ => false) = true ∧
    isFail (coreAtomic s .add .n64 (pairAt 1) 8 1 0) = true ∧
    (match coreAtomic s .cas128 .n64 (pairAt 0) 16 1 0 with | .ok (some _) _ => true | _ => false) = true := by decide +kernel
theorem test_atomic_values : atNew .incb .i32 32 5 5 0 = 5 ∧ atNew .addb .n32 32 5 4 7 = 7 ∧ atNew .min .i32 32 (2 ^ 32 - 1) 1 0 = 2 ^ 32 - 1 := by decide +kernel
theorem test_w_probe : let s := at2 .c pairPtr
    (match xlateByte s (curWho s .core) .r false (pairAt 0) with | .ok k => !isRemote k | _ => false) = true ∧
    xlateByte s (curWho s .core) .r false 8 = .error (.xlate 1) ∧
    xlateByte s (curWho s .core) .r false (0xFFFF * 2 ^ 48) = .error (.refused 0) := by decide +kernel
theorem test_w_fatal : (curCore (at2 .c)).tid ≠ 0x3FE ∧ (at2 .c).fqHeld.length < 64 ∧
    (curCore { State.reset with cores := [(0, { tid := 0x3FE })] }).tid = 0x3FE := by decide
theorem test_w_trap : (curTeam (at2 .c)).halt = none := by decide
/-! ## Vector words and the matrix array -/

theorem test_w_lanes : etyIsFp .fp32 = true ∧ etyIsFp .bf16 = true ∧ ETy.i8 ∈ [ETy.i8, .i16, .i32, .n8, .n16, .n32] ∧ etyBits .n32 ≤ 32 := by decide
theorem test_fp_lanes : (addVal fmt32 .rne (fpOf .fp32 0x3F800000) (fpOf .fp32 0x40000000)).bits = 0x40400000 ∧
    (mulVal fmt32 .rne (fpOf .fp32 0x7F800000) (fpOf .fp32 0)).bits = 0x7FC00000 ∧ (minMax fmt32 true 0x80000000 0).bits = 0 := by decide +kernel
theorem test_clamped : (clamped .i8 200).bits = 127 ∧ (clamped .n8 (-5)).bits = 0 ∧ (wrapped .i8 200).bits = 200 := by decide +kernel
theorem test_w_quantise : badScale (fpDecode fmt32 0xBF800000) = true ∧ badScale (fpDecode fmt32 0) = false := by decide +kernel
/-- Value 0 of v0 is an infinity, and the policy is TRAP: element 0 traps. -/
theorem test_w_convert_traps : (match convert .fp32 .i8 .rne .trap 0x7F800000 with | .trap => true | _ => false) = true ∧
    (match convert .fp32 .i8 .rne .sat 0x7F800000 with | .trap => false | _ => true) = true := by decide +kernel
theorem test_planes : planeVal 0xFF 1 false = -128 ∧ planeVal 0xFF 1 true = -64 ∧ planeVal 0xFF 8 true = -1 := by decide +kernel
theorem test_w_functions : (curCore (at2 .v)).fnFlight < 8 ∧ 8 ≤ (curCore (at2 .v { fnFlight := 8 })).fnFlight := by decide
/-- S1 names the pair store, S2 is a pitch or a scratchpad operand. -/
def vecPtr (b : Word) : Core := { sv := [(1, BitVec.ofNat 64 (0xFFFE * 2 ^ 48 + 2 ^ 23)), (2, b)] }
theorem test_w_tile : let s := at2 .v (vecPtr 256)
    effAddr (rd s 1) 0 = some (pairAt 0) ∧ (match tileAddrs s 1 2 0 with | .ok l => decide (l.length = 16) | _ => false) = true ∧
    isOk (coreLoads false [(pairAt 0, 256), (pairAt 256, 256)] s) = true ∧ isOk (coreStores [(pairAt 0, groupRow {} 0 0)] s) = true := by decide +kernel
theorem test_w_tile_edge : (pairAt 0 % 2 ^ 48 : Nat) + 15 * (256 : Int) < 2 ^ 48 ∧ ((pairAt 0 % 2 ^ 48 : Nat) + 15 * (256 : Int)) % 4 = 0 := by decide
theorem test_w_gather : pairAt 0 / 2 ^ 48 = 0xFFFE ∧ pairAt 0 % 4 = 0 ∧ pairAt 0 % 2 ^ 48 + 4 * 0 < 2 ^ 26 ∧
    isOk (coreLoads true [(pairAt 0, 4)] (at2 .v (vecPtr 0))) = true := by decide +kernel
theorem test_w_ragged : let s := at2 .v (vecPtr (BitVec.ofNat 64 (pairAt 64)))
    isOk (ragged s .fp32 false (pairAt 0) 2) = true := by decide +kernel
theorem test_w_vec_frame : vecDest (.vmov hd .fp32 3 1 none) = some (hd, 3) ∧ maskDest (.kmovSet hd 3) = some (hd, 3) ∧
    ∃ t, exec (.kmovSet hd 3) (at2 .v) = .next t := ⟨rfl, rfl, _, rfl⟩

/-- Team 0 holds the array of cluster 0 and core 2 takes part, its engine M at hand. -/
def leased (c : Core := {}) (lease : Lease := {}) : State :=
  { at2 .m { c with held := true } with clusters := [(0, { holder := some 0, lease := lease })] }
theorem test_w_array : ArrayReady leased ∧ Ready leased hd := by unfold ArrayReady Ready; decide
theorem test_w_lease : (clusterAt (at2 .m) 0).holder = none ∧ (clusterAt (at2 .m) 0).waiters = [] ∧ (curTeam (at2 .m)).lease = none ∧
    SMap.get false (at2 .m).deadArrays 0 = false ∧ SMap.get false { at2 .m with deadArrays := [(0, true)] }.deadArrays 0 = true := by decide
theorem test_w_lease_waits : let s := { at2 .m with clusters := [(0, { holder := some 7 })] }
    (clusterAt s 0).holder ≠ some (curCore s).tid ∧ (curCore s).held = false := by decide
/-- Teams 3 and 4 wait for the array of cluster 0, which team 0 holds with its run over. -/
def contended (holder : Option Nat) : State :=
  { at2 .m {} { prio := 5 } with clusters := [(0, { holder := holder, lease := { runlen := 1 }, waiters := [(3, 0), (4, 0)] })],
                                 teams := [(0, { prio := 5 }), (3, { prio := 5 }), (4, { prio := 2 })] }
theorem test_w_grant : (clusterAt (contended none) 0).holder = none ∧ (clusterAt (contended none) 0).waiters ≠ [] := by decide
theorem test_w_hand_over : let s := contended (some 0)
    (teamAt s 0).image = none ∧ (clusterAt s 0).lease.runlen ≠ 0 ∧ (clusterAt s 0).lease.runrem = 0 ∧ (∀ n ∈ (teamAt s 0).cores, (coreAt s n).npre = false) ∧
    (∀ v ∈ (clusterAt s 0).waiters, v.1 ≠ 0) ∧ (∃ v ∈ (clusterAt s 0).waiters, (teamAt s 0).prio ≤ (teamAt s v.1).prio) := by decide
theorem test_w_lease_handed : let s := { leased with clusters := [(0, { holder := some 3 })] }
    (curCore s).held = true ∧ (clusterAt s 0).holder ≠ some (curCore s).tid := by decide
theorem test_w_descriptors : let x : Word := 16
    let y : Word := 0x10000000
    x.toNat < 2 ^ 42 ∧ y.toNat < 2 ^ 32 ∧ x.toNat % 16 = 0 ∧ y.toNat / 2 ^ 28 % 16 = 1 ∧ ¬ ((17 : Word).toNat % 16 = 0) ∧
    (0x1000000000000000 : Word).toNat / 2 ^ 60 = 1 := by decide
/-- Descriptors of BF16 operands in the vector registers 0 and 4. -/
def bfOps : Core := { od := [(0, { kind := 1, sa := 0, sb := 0x10000000 }), (1, { kind := 1, sa := 4, sb := 0x10000000 })] }
theorem test_w_mma : mmaOk (curCore (leased bfOps)) .bf16 0 1 1 = true ∧ mmaOk (curCore leased) .nbi 0 1 1 = false ∧
    (tileAt (leased bfOps) 0 0).work.mode = 0 := by decide +kernel
theorem test_w_touches : touchesArray (.accZero hd 0) = some hd := rfl
/-! ## Commands, sections and tiles -/

theorem test_w_issue : cmdOf (.hcp hd 0 1 0) = some (hd, .hcp, 0, 1, 0, 0, 0) ∧ (∀ q ∈ queuesOf .hcp, (getQ (curCore (at2 .h)) q).length < 16) ∧
    (∀ q ∈ queuesOf .act, 16 ≤ (getQ (curCore (at2 .h { qd := List.replicate 16 { id := 0, op := .act } })) q).length) :=
  ⟨rfl, by decide, by decide⟩
theorem test_w_descriptor : let s := at2 .h
    descKind s (cmdWho s 2) (pairAt 8) = true ∧ (pairAt 8) % 8 = 0 ∧ (pairAt 8) / 2 ^ 48 ≠ 0xFFFF ∧ descKind s (cmdWho s 2) 0xFFFF000000000000 = false ∧
    (match xlateRange s (cmdWho s 2) .r false (pairAt 8) 64 with | .ok l => l.all (fun k => !isRemote k && decide (k < mapBase) && !badByte s k) | _ => false) = true := by
  decide +kernel
theorem test_w_multicast : let s := at2 .h {} { nbar := 1 }
    (curTeam s).nbar ≤ 1 ∧ 0 < (curTeam s).nbar ∧ (getQ (curCore s) .load).length < 16 := by decide
theorem test_w_arrival : let x : Cmd := { id := 0, op := .hmc, mid := true, done := some {}, pairs := 5 }
    x.done.isSome = true ∧ x.pairs.testBit 2 = true ∧ (coreAt (at2 .h { ql := [x] }) 2).ql = [x] := by decide
theorem test_w_rings : let s := at2 .h { sh := [(1, BitVec.ofNat 64 (pairAt 0)), (2, 2)] }
    (rd s 1).toNat % 4096 = 0 ∧ 2 ≤ (rd s 2).toNat ∧ (rd s 2).toNat ≤ 12 ∧ ringHandle s (cmdWho s 2) (rd s 1).toNat (32 * 2 ^ 2) = true ∧
    (rd s 3).toNat ≤ cqOut (cqAt (curCore s) 0) ∧ cqOut (cqAt (curCore s) 0) < (rd s 2).toNat := by decide +kernel
theorem test_w_ring_named : ((curCore (at2 .h { ql := [{ id := 0, op := .hcp, ring := 1 }] })).ql).any (fun x => x.ring == 1) = true := by decide
theorem test_w_complete : let r : CRes := {}
    let c : Cmd := { id := 0, op := .hcp, done := some r, ring := 1 }
    getQ (coreAt (at2 .h { ql := [c] }) 2) .load = c :: [] ∧ c.reply.tags = [] ∧ c.sent = false ∧ cqLog (cqAt (curCore (at2 .h)) 1) = 0 := by decide
theorem test_w_complete_full : let q := mkCq 0 4 1 2
    cqLog q ≠ 0 ∧ ¬ (cqOut q < 2 ^ cqLog q) ∧ cqOut (mkCq 1 4 1 2) < 2 ^ cqLog (mkCq 1 4 1 2) := by decide
theorem test_w_stamped : let c : Cmd := { id := 0, op := .sacc, stamp := some 1 }
    (at2 .h).tick < 1 ∧ c.started = false ∧ c.done = none := by decide

/-- The worked example of R22: `.section v wait=c:0` with one word. -/
theorem test_header_example : headerOf 0x4000820008000000 = { tag := 1, kind := 0, len := 1, aux := 0, w1 := 0x2000, w2 := 0x2000, w3 := 0 } := by
  decide +kernel
/-- A core of a team with slip window 16 whose text begins with a header; the engine's block as given. -/
def atHead (g : Eng) (x : Nat) (e : EngSt := {}) : State :=
  eng2 g e { tnew := (List.range 8).map (fun i => (i, some (.byte (BitVec.ofNat 8 (x / 2 ^ (8 * i)))))) } { text := 1, slipw := 16 }
/-- Headers of one word without waits: a plain and a steer section of C, an arm of P1, a join and an end section of V. -/
def plainC : Nat := 0x0000820008002000
def steerC : Nat := 0x0400820008002000
def armV : Nat := 0x4800EA0008002000
def joinV : Nat := 0x4C00820008002000
def waitV : Nat := 0x4000820008000001
def headIs (s : State) (x : Nat) : Bool :=
  atText s && (slipBlock (curCore s) (curTeam s).slipw s.cur.eng).isNone && headerOk (headerOf x) &&
    (match fetchText s (curEng s).pc 8 with | .ok l => leNat l == x | _ => false)
theorem test_w_headers : headIs (onEng (atHead .v plainC) 2 .v) plainC = true ∧ (headerOf plainC).tag ≠ engNum .v ∧ (headerOf plainC).kind = 0 ∧
    headIs (atHead .v armV) armV = true ∧ (headerOf armV).tag = engNum .v ∧ (headerOf armV).kind = 2 ∧
    secWait (curCore (atHead .v armV)) .v (headerOf armV) = none ∧
    headIs (atHead .v waitV) waitV = true ∧ (secWait (curCore (atHead .v waitV)) .v (headerOf waitV)).isSome = true ∧
    headerOk (headerOf 0) = false := by decide +kernel
theorem test_w_targets : let s := atHead .v steerC { pathq := [64] }
    headIs s steerC = true ∧ (headerOf steerC).kind = 1 ∧ (curEng s).pathq = [64] ∧ (curEng (atHead .v steerC)).pathq = [] := by decide +kernel
theorem test_w_join : let s := atHead .v joinV
    headIs s joinV = true ∧ (headerOf joinV).kind = 3 ∧ (headerOf joinV).tag = engNum .v ∧
    (∀ o ∈ [Eng.c, .m, .h], atHeader (engSt (curCore s) o) (curEng s).pc (curEng s).sc = true) ∧
    headIs (atHead .m joinV) joinV = true ∧ (headerOf joinV).tag ≠ engNum .m ∧
    scDiff (engSt (curCore (atHead .m joinV)) .v).sc (curEng (atHead .m joinV)).sc ≤ 0 ∧
    0 < scDiff (engSt (setEngSt {} .v { sc := 1 }) .v).sc 0 := by decide +kernel
theorem test_w_tile_end : let e : EngSt := { pc := 20, sec := some { off := 0, kind := 4, tag := 1, len := 1 } }
    e.sec = some { off := 0, kind := 4, tag := 1, len := 1 } ∧ 0 + 8 + 12 * 1 ≤ e.pc ∧ e.retired = false ∧ e.pushpend = false ∧
    coreFinished (setEngSt { ec := { retired := true }, em := { retired := true }, eh := { retired := true } } .v { e with retired := true }) = true ∧
    coreFinished (setEngSt {} .v e) = false ∧ coreDrained {} = true := by decide
/-- V waits for a token of a retired engine. -/
def deadlocked : State :=
  eng2 .v { wait := { kind := 1 }, pc := 8 }
    { ec := { retired := true }, em := { retired := true }, eh := { retired := true }, tnew := textAt 8 0x002380000000000000000000 } { text := 1 }
theorem test_w_deadlock : let s := deadlocked
    (teamAt s 0).st = .running ∧ coreFinished (coreAt s 2) = false ∧ (∀ g ∈ [Eng.c, .v, .m, .h], stuck s 2 g = true) := by decide +kernel
/-- The last engine of the only core of a running team past its end section: every core has finished and is drained. -/
theorem test_w_tile_last : let x : Sec := { off := 0, kind := 4, tag := 1, len := 1 }
    let s := eng2 .v { pc := 20, sec := some x } { ec := { retired := true }, em := { retired := true }, eh := { retired := true } } { queue := 3 }
    let a := upCore s 2 (fun c => upEng c .v (fun e =>
      { e with sc := e.sc + 1, sec := none, pc := 20, inarm := false, armlive := false, retired := true, pathq := [],
               wait := { kind := 14, since := s.tick % 2 ^ 32 } }))
    let b := releaseCore (upCore a 2 (fun c => { c with npre := false, npt0 := 0 })) 2
    coreFinished (coreAt a 2) = true ∧ (coreAt s 2).tid ≠ 0x3FE ∧ (teamAt s 0).st = .running ∧
    (∀ n ∈ (teamAt s 0).cores, coreFinished (coreAt b n) = true ∧ coreDrained (coreAt b n) = true ∧ (coreAt b n).tid = 0) := by decide +kernel
/-! ## Queues and records -/

/-- Handle 7 of partition 0, context 0, maps one page, whose PTE is at physical 0; the listed memory besides. -/
def mapped (s : State) (m : List Host.Cell := []) : State :=
  { s with stage := 3, ht := [(htKey 0 0 7, some { kind := 1, ext := 2 ^ 21 })], mem := (0, 1) :: m }
/-- A queue of 4 slots at offset 4096 of handle 7 and a ring of 4 entries at 8192. -/
def queue4 : Queue := { qcfg := 0x0007000000001200, cqcfg := 0x0007000000002002 }
def withQueue (s : State) (x : Queue) : State := { s with queues := [(0, x)] }
/-- A record's bytes: those listed, 0 elsewhere. -/
def recWith (l : List (Nat × Nat)) : List Byte :=
  (List.range 128).map (fun i => BitVec.ofNat 8 (((l.find? (fun x => x.1 == i)).map (fun x => x.2)).getD 0))
/-- One tile of one core of cluster 0, slip window 64. -/
def plainRec : List (Nat × Nat) := [(10, 1), (14, 64)]
/-- The same with a wait on the word at 16,384 of handle 7 for 1. -/
def waitRec : List (Nat × Nat) := plainRec ++ [(88, 7), (90, 1), (93, 8)]
/-- Two loops: 5 by 2 into X1, 3 by 1 into X2. -/
def loopRec : List (Nat × Nat) := [(10, 1), (13, 4), (14, 64), (24, 5), (28, 2), (32, 3), (36, 1), (72, 0x21)]

theorem test_w_queue_reach : let s := withQueue (mapped State.reset) { queue4 with st := .active }
    Reaches s 0 0 ∧ Reaches s 1 0 ∧ ¬ Reaches s 2 0 ∧ queueOpen (queueAt s 0) = true ∧ (queueAt s 0).outst ≠ queueDepth (queueAt s 0) ∧
    ((queueAt s 0).head + (queueAt s 0).outst) % queueDepth (queueAt s 0) < 2 ^ 12 ∧ queueOpen queue4 = false ∧
    queueDepth { queue4 with st := .active, outst := 4 } = 4 := by unfold Reaches; decide
theorem test_w_commit : let x := { queue4 with st := .active, outst := 1, held := [(0, 3)] }
    slotHeld x (0x3000 % 2 ^ 12) = true ∧ SMap.get false x.committed 0 = false ∧ SMap.get 0 x.held 0 = 0x3000 / 2 ^ 12 % 16 ∧
    slotHeld x 1 = false ∧ queueOpen x = true ∧ queueDepth x ≤ 4 ∧ SMap.get 0 x.held 0 ≠ 0x2000 / 2 ^ 12 % 16 ∧
    SMap.get false { x with committed := [(0, true)] }.committed 0 = true := by decide
theorem test_w_enable : let s := withQueue (mapped State.reset) queue4
    Reaches s 0 0 ∧ (queueAt s 0).st = .disabled ∧ enableOk (setCtrl s 0 1) (queueAt (setCtrl s 0 1) 0) = true ∧
    enableOk s { queue4 with cqcfg := 0 } = false := by unfold Reaches; decide
theorem test_w_destroy : let s := withQueue (mapped State.reset) { queue4 with st := .active }
    Reaches s 0 0 ∧ (queueAt s 0).st = .active ∧ (queueAt s 0).rcd = none ∧ recTeams s 0 = [] ∧ (queueAt s 0).outst = 0 ∧
    recTeams (withQueue s { queue4 with st := .active, rcd := some {} }) 0 = [] := by unfold Reaches; decide
theorem test_w_pages : (withQueue (mapped State.reset) queue4).powered = true ∧ (fnAt State.reset 0).busy = false ∧
    (1 : Nat) ∈ mailboxCodes ∧ (0 : Nat) ∉ mailboxCodes ∧ State.reset.stage ≠ 3 := by decide
/-- The record's bytes at the head of the queue. -/
def headRec (l : List (Nat × Nat)) : State :=
  withQueue (mapped State.reset ((l.filter (fun x => x.2 != 0)).map (fun x => (4096 + x.1, BitVec.ofNat 8 x.2))))
    { queue4 with st := .active, outst := 1, committed := [(0, true)] }
theorem test_w_head : HeadBytes (headRec plainRec) 0 (recWith plainRec) ∧ HeadBytes (headRec [(14, 64)]) 0 (recWith [(14, 64)]) := by
  unfold HeadBytes; decide +kernel
theorem test_w_record : let w := queueWho (queueAt (headRec plainRec) 0)
    recordOk (headRec plainRec) w { bytes := recWith plainRec } = true ∧ recWaits { bytes := recWith plainRec } = [] ∧
    anyInd { bytes := recWith plainRec } = false ∧ recordOk (headRec [(14, 64)]) w { bytes := recWith [(14, 64)] } = false := by decide +kernel
/-- A dispatched record of four forms. -/
def waiting (m : List Host.Cell) : State :=
  withQueue (mapped State.reset m) { queue4 with st := .active, outst := 1, rcd := some { bytes := recWith waitRec } }
theorem test_w_waitword : recWaits { bytes := recWith waitRec } = [(7 * 2 ^ 48 + 16384, 1)] ∧ WordReads (waiting []) 0 (7 * 2 ^ 48 + 16384) 0 ∧
    WordReads (waiting [(16384, 1)]) 0 (7 * 2 ^ 48 + 16384) 1 ∧ WordReads (waiting [(16391, 128)]) 0 (7 * 2 ^ 48 + 16384) (2 ^ 63) := by
  refine ⟨by decide +kernel, ⟨(List.range 8).map (fun i => 16384 + i), ?_⟩, ⟨(List.range 8).map (fun i => 16384 + i), ?_⟩,
    ⟨(List.range 8).map (fun i => 16384 + i), ?_⟩⟩ <;> decide +kernel
/-- The head's record that a DESTROY takes, and a queue with a record under way. -/
theorem test_w_destroy_slots : let s := headRec plainRec
    Reaches s 0 0 ∧ (queueAt s 0).rcd = none ∧ recTeams s 0 = [] ∧ 0 < (queueAt s 0).outst ∧ SMap.get false (queueAt s 0).committed (queueAt s 0).head = true ∧
    (devRead s (queueWho (queueAt s 0)) (slotAddr (queueAt s 0) (queueAt s 0).head 0) 128).isSome = true ∧
    SMap.get false { queue4 with st := .qerr, outst := 1 }.committed 0 = false ∧
    (queueAt (withQueue (mapped State.reset) { queue4 with st := .parked, rcd := some {} }) 0).rcd.isSome = true := by unfold Reaches; decide +kernel
theorem test_w_registers : let s := withQueue (mapped State.reset) { queue4 with st := .active, written := 3, acked := 1 }
    Reaches s 0 0 ∧ (queueAt s 0).st ≠ .disabled ∧ (2 + 2 ^ 32 - (queueAt s 0).acked) % 2 ^ 32 ≤ ((queueAt s 0).written + 2 ^ 32 - (queueAt s 0).acked) % 2 ^ 32 ∧
    (partAt s (fnPart 0)).pend.length < 16 ∧ (2 : Word).toNat % 8 = 2 ∧ (9 : Word).toNat % 8 = 1 ∧ (9 : Word).toNat % 16 ≠ 1 ∧
    (partAt { s with parts := [(0, { pend := List.replicate 16 (0, 0) })] } 0).pend.length = 16 ∧ (2 ^ 48 - 104) % 2 ^ 48 + 104 ≤ 2 ^ 48 := by
  unfold Reaches; decide
theorem test_w_indices : let r : Rec := { bytes := recWith loopRec }
    recNloop r = 2 ∧ (∀ d, d < recNloop r → recStep r d ≠ 0) ∧ tileTotal r = 9 ∧ tileIndices r 5 = [(1, 2), (2, 2)] := by decide +kernel
/-- The second loop's count is the word 7 that its PARAM page held. -/
theorem test_w_indirect : let r : Rec := { bytes := recWith ((72, 0xA1) :: loopRec), indT := [(1, some 7)] }
    recInd r 1 = true ∧ SMap.get none r.indT 1 = some 7 ∧ recInd r 0 = false ∧ tileTotal r = 21 := by decide +kernel
/-- A runnable record that fits cluster 0. -/
def runnableRec (r : Rec) : State :=
  withQueue (mapped State.reset) { queue4 with st := .active, outst := 1, rcd := some { r with bytes := recWith plainRec, runnable := true, total := some 1 } }
theorem test_w_launch : let s := runnableRec {}
    sweepTeams s = s ∧ candidates s = .rcd 0 :: [] ∧ freeTid s = some 0 ∧
    pickCluster s (fits s { bytes := recWith plainRec, runnable := true, total := some 1 } 0) = some 0 := by decide +kernel
/-- A record whose tile is done, with a signal word at 16,384 of handle 7 or none. -/
def doneRec (l : List (Nat × Nat)) (r : Rec) : Rec := { r with bytes := recWith (plainRec ++ l), runnable := true, total := some 1, prefixN := 1 }
def completing (l : List (Nat × Nat)) (r : Rec := {}) (written : Nat := 0) : State :=
  withQueue (mapped State.reset) { queue4 with st := .active, outst := 1, written := written, rcd := some (doneRec l r) }
theorem test_w_complete_record : let s := completing []
    sweepTeams s = s ∧ (doneRec [] {}).step = 0 ∧ recTeams s 0 = [] ∧ (doneRec [] {}).bytes ≠ [] ∧ (doneRec [] {}).status = none ∧
    (doneRec [] {}).total = some 1 ∧ recNat (doneRec [] {}) 82 2 = 0 := by decide +kernel
theorem test_w_complete_signal : let s := completing [(82, 7), (85, 8)]
    let r := doneRec [(82, 7), (85, 8)] {}
    recNat r 82 2 ≠ 0 ∧ sigOk s (queueWho (queueAt s 0)) (sigAddr (recNat r 82 2) (recNat r 84 4)) = true ∧
    xlateRange s (queueWho (queueAt s 0)) .a false (sigAddr (recNat r 82 2) (recNat r 84 4)) 8 = .ok ((List.range 8).map (fun i => 16384 + i)) := by decide +kernel
theorem test_w_ring : let x := queueAt (completing [] { step := 4 }) 0
    let y := queueAt (completing [] { step := 4 } 4) 0
    (x.written + 2 ^ 32 - x.acked) % 2 ^ 32 < ringSize x ∧ ringSize y ≤ (y.written + 2 ^ 32 - y.acked) % 2 ^ 32 := by decide
/-- A record with a deadline of one tick and the EXPIRE given. -/
def lateRec (e : Nat) : Rec := { bytes := recWith (plainRec ++ [(8, 64 * e), (16, 1)]), runnable := true }
theorem test_w_deadline : let r := lateRec 1
    r.expired = false ∧ r.parked = false ∧ r.step = 0 ∧ r.status = none ∧ recDeadline r ≠ 0 ∧ recExpire r = 1 ∧ recExpire (lateRec 0) = 0 ∧
    2 ≤ recExpire (lateRec 2) ∧ (0 : Nat) < r.runtick + recDeadline r ∧ r.runtick + recDeadline r ≤ 1 ∧
    stepOne (sweepTeams (withQueue (mapped State.reset) { queue4 with st := .active, rcd := some r })) 0 r = false ∧
    stepOne State.reset 0 { r with total := some 1, prefixN := 1 } = true := by decide +kernel
/-! ## Teams, privileged words, the fault queue, regions, handle tables and windows -/

/-- Engine C of core 0 of the Foreman team at hand; X1 = `x`, X2 the start of its pair store. -/
def fm (x : Word) (c : Core := {}) : State :=
  { State.reset with cur := { core := 0, eng := .c }, teams := [(0x3FE, { st := .running, cores := [0, 1] })],
                     cores := [(0, { c with tid := 0x3FE, x := [(1, x), (2, 0xFFFE000000000000)] })] }
/-- Team 5 in the state given, on core 2. -/
def fmTeam (t : Team) : State := { fm 5 with teams := [(5, { t with cores := [2] }), (0x3FE, { st := .running, cores := [0, 1] })] }
/-- A descriptor of bytes at offset 0 of the Foreman pair store, where X1 points. -/
def fmDesc (l : List (Nat × Nat)) : State :=
  { fm 0xFFFE000000000000 with mem := l.map (fun x => (pairBase + x.1, BitVec.ofNat 8 x.2)) }
def descIs (s : State) (n : Nat) (p : List Byte → Bool) : Bool := match fwDesc s 1 n with | some l => p l | none => false

theorem test_w_foreman : Ready (fm 0) hd ∧ foreman (fm 0) = true ∧ foreman (at2 .c) = false ∧ Ready (at2 .c) hd := by unfold Ready; decide
theorem test_w_halt : let s := fmTeam { st := .running, halt := some { ends := .halted } }
    (teamAt s 5).st = .running ∧ (teamAt s 5).image = none ∧ (∀ n ∈ (teamAt s 5).cores, (coreAt s n).npre = false) ∧ slotsUsed s < s.ctxSlots := by decide
theorem test_w_halt_held : let s := { fmTeam { st := .running, halt := some { ends := .halted } } with cores := [(2, { npre := true })] }
    (∃ n ∈ (teamAt s 5).cores, (coreAt s n).npre = true) := by decide
theorem test_w_save : let s := fmTeam { st := .halting, hasSlot := true, halt := some { ends := .halted, begun := true } }
    (teamAt s 5).hasSlot = true ∧ (∀ n ∈ (teamAt s 5).cores, (coreAt s n).ql = [] ∧ (coreAt s n).qs = [] ∧ (coreAt s n).qd = [] ∧ (coreAt s n).stq = [] ∧
      ∀ g ∈ [Eng.c, .v, .m, .h], engInFlight { s with cur := { core := n, eng := g } } = false) ∧
    (∀ r ∈ unreported s, r.tid = 5 → r.cls ≠ 1) := by decide
theorem test_w_wait_state : let s := { fmTeam { st := .running } with
      cores := [(0, { tid := 0x3FE, x := [(1, 2)] }), (2, { tid := 5, ec := { wait := { kind := 9, since := 7 } } })] }
    (rd s 1).toNat < 320 ∧ (coreAt s 2).tid < 0x3FF ∧ (teamAt s (coreAt s 2).tid).st = .running ∧ (coreAt s 2).ec.wait.since < 2 ^ 32 ∧
    (coreAt s 2).ec.wait.kind < 256 ∧ (coreAt s 3).tid = 0x3FF := by decide
theorem test_w_teams : liveTeam (fmTeam { st := .running }) 5 = true ∧ liveTeam (fm 5) 5 = false ∧ (rd (fmTeam {}) 1).toNat = 5 ∧
    haltOver (fmTeam { st := .halted }) 5 = true ∧ (curEng (fm 5)).issued = false ∧
    liveTeam (fmTeam { st := .held }) 5 = true ∧ liveTeam (fmTeam { st := .trapped }) 5 = true := by decide
theorem test_w_wsrd_issued : (curEng (fm 5 { ec := { issued := true } })).issued = true := by decide
/-- Queue 5 in the state given. -/
def fmQueue (x : Queue) (l : List (Nat × Team) := []) : State := { fm 5 with queues := [(5, x)], teams := l ++ [(0x3FE, { st := .running })] }
theorem test_w_queue_words : let s := fmQueue { st := .active }
    let r : Rec := { bytes := recWith plainRec }
    let p := fmQueue { st := .parked, rcd := some { r with parked := true } }
    (rd s 1).toNat = 5 ∧ (queueAt s 5).st = .active ∧ (queueAt s 5).rcd = none ∧ (queueAt (fm 5) 5).st = .disabled ∧ parkable r = true ∧
    recTeams (fmQueue { st := .active, rcd := some r } [(1, { st := .running, queue := 5 })]) 5 ≠ [] ∧
    sweepTeams p = p ∧ (queueAt p 5).st = .parked := by decide +kernel
theorem test_w_image : let s := fmTeam { st := .halted, image := some [{}] }
    liveTeam s 5 = true ∧ (teamAt s 5).image = some [{}] ∧ (rd s 2).toNat / 2 ^ 48 = 0xFFFE ∧ (rd s 2).toNat % 4096 = 0 ∧
    headerImageOk (fun o => rdByte s (pairBase + o)) = true ∧ headerImageOk (fun _ => 1) = false := by decide +kernel
theorem test_w_selectors : (0x021 : W32).toNat % 2 ^ 12 ∈ [0x010, 0x011, 0x020, 0x021, 0x030] ∧ (5 : W32).toNat % 2 ^ 12 ∉ [0x010, 0x011, 0x020, 0x021, 0x030] ∧
    liveTeam (fmTeam { st := .running }) (rd (fmTeam {}) 1).toNat = true := by decide
theorem test_w_fault_ring : let r : FRec := { cls := 0, code := 1 }
    faultRoom { State.reset with fqLog := 2, fqHeld := [r] } = true ∧ faultRoom { State.reset with fqLog := 2, fqWritten := 4, fqHeld := [r] } = false ∧
    faultRoom State.reset = false := by decide

/-- A plane region of 64 tiles side by side in stack 0. -/
def createBytes : List (Nat × Nat) := [(4, 8), (6, 1), (8, 1), (12, 64)]
theorem test_w_create : descIs (fmDesc createBytes) 64 (fun l => createOk l && stacksOf (dNat l 6 1) == [0] && decide (dNat l 0 2 = 0)) = true ∧
    regionAt (fmDesc createBytes) 0 = none ∧ 0 < stackCount (fmDesc createBytes) ∧ SMap.get 7 (fmDesc createBytes).own.sp (0 / 2) = 0 ∧
    descIs (fmDesc []) 64 (fun l => !createOk l) = true ∧ fwDesc (fm 8) 1 64 = none := by decide +kernel
/-- A row region of one row of one element of 4 bytes. -/
def rowRegion : Region :=
  { part := 0, layout := 1, planes := 0, fastn := 0, smask := 1, rtype := 2, nrows := 1, ncols := 1, soft := false }
/-- WRITE or REMAP of one row from handle 7 of the Foreman, whose PTE is at physical 0, its scale from byte 4096. -/
def writing (sealed : Bool) : State :=
  { fmDesc [(8, 1), (22, 7), (33, 16), (38, 7)] with
    regions := [(0, some { rowRegion with isSealed := sealed })], ht := [(htKey 4 0 7, some { kind := 1, ext := 2 ^ 21 })],
    mem := (0, 1) :: ([(8, 1), (22, 7), (33, 16), (38, 7)].map (fun x => (pairBase + x.1, BitVec.ofNat 8 x.2))) }
theorem test_w_region_write : descIs (writing false) 64 (fun l => match writeDesc l with
      | some w => w.region == 0 && w.first == 0 && w.count == 1 && sourcesOk (writing false) rowRegion w && (firstBad (writing false) rowRegion w).isNone
      | none => false) = true ∧ regionAt (writing false) 0 = some rowRegion ∧ rowRegion.isSealed = false ∧
    (writtenRows rowRegion { region := 0, first := 0, count := 1, src := 0, pitch := 0, scales := 0 }) = (0, 1) := by decide +kernel
/-- REMAP tile by tile: its first tile, and one under way. -/
theorem test_w_remap : descIs (writing true) 64 (fun l => match writeDesc l with
      | some w => sourcesOk (writing true) { rowRegion with isSealed := true } w && (firstBad (writing true) { rowRegion with isSealed := true } w).isNone &&
        decide ((namedTiles rowRegion w)[0]? = some 0) && decide (w.first + w.count ≤ rowRegion.nrows)
      | none => false) = true ∧ (curCore (writing true)).lreg = none ∧ lregBusy (writing true) 0 = false ∧ regRowBytes rowRegion ≤ 65536 ∧
    (namedTiles { rowRegion with nrows := 65536, ncols := 1024 } { region := 0, first := 0, count := 65536, src := 0, pitch := 0, scales := 0 })[1]? = some 1 := by
  decide +kernel
/-- A source whose block fails its check. -/
theorem test_w_bad_source : let s := { writing false with bad := [(0, true)] }
    descIs s 64 (fun l => match writeDesc l with | some w => (firstBad s rowRegion w).isSome | none => false) = true := by decide +kernel
theorem test_w_region_used : let s := { writing true with ht := [(htKey 0 0 9, some { kind := 4, ext := 1, base := 0 })] }
    (∃ x ∈ s.ht, ∃ e, x.2 = some e ∧ e.kind = 4 ∧ e.base = 0) ∧ regionInUse (writing true) 0 = false ∧
    regionInUse { writing true with cores := [(2, { qd := [{ id := 0, op := .act, arg := 1 }] })] } 0 = true :=
  ⟨⟨_, .head _, _, rfl, rfl, rfl⟩, by decide, by decide⟩
/-- MAP of handle 7 of partition 0 to a page table at 4096, and BIND of it to the host. -/
def mapBytes : List (Nat × Nat) := [(0, 7), (4, 1), (9, 16), (17, 16)]
def bindBytes : List (Nat × Nat) := [(0, 7), (4, 3), (9, 16)]
theorem test_w_map : let s := fmDesc mapBytes
    descIs s 128 (fun l => htNameOk s l && mapFieldsOk l && (newEntry l).kind == 1 && !(newEntry l).shadow && backingOwned s (htPart l) 1 (newEntry l).ext (newEntry l).base &&
      (SMap.get none s.ht (htName l)).isNone) = true ∧
    descIs (fmDesc bindBytes) 128 (fun l => htNameOk s l && bindFieldsOk l && (newEntry l).kind == 3) = true ∧
    descIs (fmDesc []) 128 (fun l => !htNameOk s l) = true ∧ SMap.get 7 s.own.ch 0 = 0 := by decide +kernel
/-- SHOOTDOWN and UNMAP of handle 7. -/
def shootBytes : List (Nat × Nat) := [(0, 7), (9, 16)]
theorem test_w_shootdown : let s := { fmDesc shootBytes with ht := [(htKey 0 0 7, some { kind := 1, ext := 4096 })] }
    s.shoot = none ∧ descIs s 128 (fun l => htNameOk s l && shootFieldsOk l && (SMap.get none s.ht (htName l)).isSome &&
      (shootPages { kind := 1, ext := 4096 } (htBase l) (htExtent l)) == [0] && (otherMods s [0]).isEmpty) = true ∧ SMap.wf {} s.cores = true ∧
    descIs (fmDesc [(0, 7)]) 128 unmapFieldsOk = true ∧ (coreAt s 0).stq = [] := by decide +kernel
theorem test_w_shoot_lost : let x : Shoot := { core := 0, part := 0, lost := true }
    shootWaits { fm 0 with shoot := some x, tick := 20000 } x = false ∧ shootWaits { fm 0 with shoot := some x, tick := 19999 } x = true ∧
    (fm 0).cur.core = 0 ∧ inFlight (fm 0) = [] := by decide
/-- SET of window 1 over 2 MiB with its store at 0 and its scales at 2^22. -/
def winBytes : List (Nat × Nat) := [(0, 1), (2, 8), (10, 32), (26, 64)]
def winDesc : State := { fmDesc winBytes with own := { State.reset.own with fw := SMap.tab 7 16 (fun _ => 0) } }
theorem test_w_window : descIs winDesc 64 (fun l => winDescOk l && partExists winDesc (winOf l).part && !(winAt winDesc 1).on && winDesc.wins.isEmpty &&
      SMap.get 7 winDesc.own.fw 1 == (winOf l).part && (winRanges (winOf l)).all (rangeOwned winDesc (winOf l).part) &&
      decide ((winOf l).planes ≤ 8 ∧ (winOf l).store + 2 ^ 36 ≤ apBase ∧ (winOf l).scale + 2 ^ 36 ≤ apBase)) = true := by decide +kernel
/-- A block of LPDDR-6 whose check fails, one word of it held in the level cache. -/
theorem test_w_evict : let s := { State.reset with bad := [(1, true)], lc := [(16, some 5)] }
    128 * 0 < dramTop ∧ SMap.get false s.bad 1 = true ∧ lcWord s (64 * 1 + 4 * 0) ≠ none ∧ s.fqHeld.length < 63 := by decide
/-- A queue page of the Foreman: handle 9 of its table, of kind 7. -/
def pageCore : State := { fm (9 * 2 ^ 48 + 64) with ht := [(htKey 4 0 9, some { kind := 7, ext := 2 ^ 14 })] }
theorem test_w_queue_page : Ready pageCore hd ∧ effAddr (rd pageCore 1) 8 = some (9 * 2 ^ 48 + 72) ∧ queuePageAt pageCore (9 * 2 ^ 48 + 72) 8 = some 72 ∧
    queuePageAt pageCore (9 * 2 ^ 48 + 64) 8 = some 64 ∧ queuePageAt (at2 .c) (9 * 2 ^ 48 + 72) 8 = none ∧ (curCore (at2 .c)).tid ≠ 0x3FE := by
  refine ⟨by unfold Ready; decide, ?_⟩
  decide +kernel
/-! ## The hoist, the Lode and Shoring, clocks -/

def bytesWith (n : Nat) (l : List (Nat × Nat)) : List Byte :=
  (List.range n).map (fun i => BitVec.ofNat 8 (((l.find? (fun x => x.1 == i)).map (fun x => x.2)).getD 0))
/-- A copy of 4 bytes from byte 0 to byte 64 of the core's pair store. -/
def copyCmd : Cmd :=
  { id := 0, op := .hcp, desc := bytesWith 256 [(2, 0x80), (6, 0xFE), (7, 0xFF), (8, 0x40), (10, 0x80), (14, 0xFE), (15, 0xFF), (16, 1),
                                                (24, 4), (64, 1), (144, 1)] }
def copying : State := at2 .h { ql := [copyCmd] }
theorem test_w_copy : let w := copyWho copying 2 copyCmd
    let m := copyWalk copying w copyCmd
    getQ (coreAt copying 2) .load = copyCmd :: [] ∧ copyRefusal copying w copyCmd = none ∧ m.n = 4 ∧ cqLog (cqAt (coreAt copying 2) 0) = 0 ∧
    (List.range 4).all (fun i => (match m.src i with | .ok (some l) => l == [pairBase + 2 ^ 23 + i] | _ => false) &&
      (match m.dst i with | .ok [l] => l == [pairBase + 2 ^ 23 + 64 + i] | _ => false)) = true ∧
    badWrite copying ((List.range 4).map (fun i => pairBase + 2 ^ 23 + 64 + i)) = none := by decide +kernel
theorem test_w_publish : let e : HEntry := { kind := 1, ext := 1, shadow := true }
    let s := { at2 .h { qs := [{ id := 0, op := .hpub, ra := 0x0007000000000000 }] } with ht := [(htKey 0 0 7, some e)] }
    htAt s (cmdWho s 2).part (cmdWho s 2).ctx 7 = some e ∧ kindOk (cmdWho s 2).agent .r e.kind = true ∧ e.kind ≠ 6 ∧ e.shadow = true ∧
    htAt (at2 .h) 0 0 7 = none := by decide
/-- Two bit-planes of the one tile of region 0 are asked for, and `tick` ticks have passed. -/
def planeRegion : Region := { part := 0, layout := 0, planes := 8, fastn := 0, smask := 1, rtype := 0, nrows := 1, ncols := 1, soft := true }
def senseCmd : Cmd := { id := 0, op := .sacc, k := 2, arg := 1, rb := 0x0000010000010000 }
def sensing (tick : Nat) : State := { at2 .h { qd := [senseCmd] } with regions := [(0, some planeRegion)], tick := tick }
theorem test_w_page : let s := sensing 1
    (coreAt s 2).qd = senseCmd :: [] ∧ lodeRefusal s 2 senseCmd = none ∧ cmdRegion s senseCmd = some planeRegion ∧
    senseCmd.wave.tile < (readUnits planeRegion senseCmd).1.length ∧ tilePlace planeRegion 0 = (0, 0, 0) ∧ s.tick % 64 ≠ 8 * (0 / 16) + 0 ∧
    senseCmd.wave.plane + 1 < (readUnits planeRegion senseCmd).2 ∧ tileDead s planeRegion 0 = false ∧ stolenTick s 0 0 0 = false ∧
    (sensing 0).tick % 64 = 8 * (0 / 16) + 0 ∧ stolenTick { s with steals := [(0, 1)] } 0 0 0 = true := by decide +kernel
/-- A block whose count has come within the urgent limit. -/
def worn (n : Nat) : State := { State.reset with blocks := [(blockKey 0 0 0 3, { disturb := n })], stage := 2 }
theorem test_w_steal : planeExists (worn 249037) 0 0 0 = true ∧ groupUrgent (worn 249037) 0 0 0 = true ∧ groupUrgent (worn 5) 0 0 0 = false ∧
    (∀ i, i < 16 → SMap.get 0 (worn 249037).steals (planeKey 0 0 (0 / 16 * 16 + i)) = 0) := by decide +kernel
theorem test_w_refresh : planeExists (worn 5) 0 0 0 = true ∧ (2 : Nat) ≤ (worn 5).stage ∧ (blockAt (worn 5) (blockKey 0 0 0 3)).retired = false ∧
    (blockAt (worn 5) (blockKey 0 0 0 3)).retries < retryLimit ∧ ¬ (2 ≤ State.reset.stage) := by decide +kernel
theorem test_w_bond : let s := { State.reset with stage := 2, bonds := [((0 * 256 + 1) * 256 + 0, 4)] }
    (1 : Nat) < busCount s 0 ∧ SMap.get 0 s.bonds ((0 * 256 + 1) * 256 + 0) = 4 ∧ SMap.get 0 s.bonds 0 = 0 ∧ (19 : Nat) < busCount s 1 ∧
    (63 : Nat) < busCount s 2 := by decide
theorem test_w_hot : SMap.wf {} (at2 .c).teams = true ∧ (teamAt (at2 .c) 0).st = .running ∧ (teamAt (at2 .c) 0).cluster = 0 ∧
    (teamAt (at2 .c) 0).nopreempt = false ∧ (∀ n, n < 3 → (coreAt (at2 .c) n).npre = false) := by decide

/-! ## The host link, the mailbox, start-up and the ports -/

theorem test_w_bar2 : InBar2 (mapped State.reset) 0 4096 8 ∧ InBar2 (mapped State.reset) 1 (2 ^ 39 - 8) 8 ∧ ¬ InBar2 (mapped State.reset) 2 4096 8 ∧
    ¬ InBar2 State.reset 0 4096 8 ∧ ¬ InBar2 (mapped State.reset) 0 (2 ^ 39 - 8) 9 := by
  refine ⟨⟨rfl, by decide, by decide, ?_⟩, ⟨rfl, by decide, by decide, ?_⟩, ?_, ?_, ?_⟩
  · rintro k (rfl | rfl) <;> decide
  · rintro k (rfl | rfl) <;> decide
  · intro h; exact absurd (h.2.2.2 4096 (.inl rfl)).2.2 (by decide)
  · intro h; exact absurd h.1 (by decide)
  · intro h; exact absurd (h.2.2.2 (2 ^ 39 - 8 + 8) (.inr rfl)).1 (by decide)
theorem test_w_host_bad : let s := { mapped State.reset with bad := [(64, true)] }
    badWrite s ((List.range 2).map (fun i => 4096 + i)) = some 4096 ∧ badByte s 4096 = true ∧ badByte s 64 = false ∧
    badWrite s ((List.range 8).map (fun i => 64 + i)) = none ∧ s.fqHeld.length < 63 := by decide +kernel
/-- Engine C of core 2 waits for request 9 to the host. -/
def asking (k : ReqKind) : State :=
  { eng2 .c { reply := { tags := [9] } } with reqs := [{ id := 9, port := none, home := 4, kind := k, who := .eng 2 .c, addr := 64, len := 4 }] }
theorem test_w_answer : hostReq (asking .read) 9 = some { id := 9, port := none, home := 4, kind := .read, who := .eng 2 .c, addr := 64, len := 4 } ∧
    9 ∈ (engSt (coreAt (asking .read) 2) .c).reply.tags ∧ hostReq (asking .atomic) 9 ≠ none := by decide
theorem test_w_page_answer : let s := { asking .page with parts := [(0, { pri := [(3, some (2, 9))] })] }
    SMap.get none (partAt s 0).pri 3 = some (2, 9) ∧ 9 ∈ (engSt (coreAt s 2) .c).reply.tags ∧ SMap.get none (partAt s 0).pri 4 = none ∧
    (∀ x ∈ s.teams, x.2.image = none) := by decide
/-- Function `fn` has the command under way, in Stage A. -/
def commanded (fn code : Nat) (taken : SMap Word := []) : State := { State.reset with stage := 3, fns := [(fn, { busy := true, cmd := code, taken := taken })] }
theorem test_w_mailbox : MbGo (commanded 0 0x10) 0 0x10 true 3 ∧ MbGo (commanded 0 1) 0 1 false 0 ∧ MbGo (commanded 0 3) 0 3 false 3 ∧
    MbGo (commanded 0 0x27) 0 0x27 true 2 ∧ MbGo (commanded 0 0x26) 0 0x26 true 0 ∧ MbGo (commanded 0 0x24) 0 0x24 false 0 ∧
    mailboxRow (.partset 1) = some (1, 0x10, true, 3) ∧ ¬ MbGo (commanded 1 0x10) 1 0x10 true 3 ∧
    (fnAt (commanded 1 0x10) 1).busy = true ∧ State.reset.stage < 3 := by
  refine ⟨?_, ?_, ?_, ?_, ?_, ?_, rfl, ?_, ?_, ?_⟩ <;> first | decide | (unfold MbGo MbFirst; decide)
theorem test_w_partset : ownOk State.reset (ownOf 0 0) = true ∧ (∀ x ∈ (commanded 0 0x10).queues, x.2.st = .disabled) ∧
    (∃ x ∈ (withQueue (commanded 0 0x10) { st := .active }).queues, x.2.st ≠ .disabled) ∧ ownOk State.reset (ownOf (2 ^ 48 - 1) 0) = false :=
  ⟨by decide, by decide, ⟨_, .head _, by decide⟩, by decide⟩
theorem test_w_firmware : let s := commanded 0 0x27 [(1, 128)]
    (SMap.get 0 (fnAt s 0).taken 0).toNat % 4096 = 0 ∧ 128 ≤ (SMap.get 0 (fnAt s 0).taken 1).toNat ∧
    imageLayoutOk (bytesWith 128 [(0, 0x4C), (1, 0x46), (2, 0x57), (3, 0x49)]) = true ∧ imageLayoutOk (bytesWith 128 []) = false := by decide +kernel
theorem test_w_banks : let s := { State.reset with banks := [(0, { ver := 1, valid := true })] }
    s.powered = true ∧ s.stage = 0 ∧ s.next ≤ 1 ∧ bankGood s s.next = true ∧ bankGood State.reset 0 = false ∧ bankGood State.reset 1 = false ∧
    bankGood { s with next := 1 } 1 = false ∧ bankGood { s with next := 1 } (1 - 1) = true := by decide
/-- Port 1 leads to module 2, with request 9 to it under way. -/
def linked (k : ReqKind) : State :=
  let s := eng2 .c { reply := { tags := [9] } }
  { s with ports := [(1, { up := true, peer := 2 })], stage := 3, reqs := [{ id := 9, port := some 1, home := 2, kind := k, who := .eng 2 .c, addr := 64, len := 4 }] }
def peerFlit : Flit := { src := 2, tag := 9, addr := 64, data := [1, 2, 3, 4], len := 4 }
theorem test_w_flit : Taken (linked .read) 1 peerFlit ∧ ownRange (linked .read) 64 4 = true ∧ badWrite (linked .read) [64, 65, 66, 67] = none ∧
    ownRange (linked .read) (2 ^ 39) 4 = false ∧ badByte (linked .read) 64 = false := by unfold Taken; decide +kernel
theorem test_w_flit_answer :
    (reqByTag (linked .read) 1 [.read] 9).map (fun r => r.id) = some 9 ∧ (reqByTag (linked .atomic) 1 [.atomic] 9).map (fun r => r.id) = some 9 ∧
    (reqByTag (linked .write) 1 [.write, .reduce, .control] 9).map (fun r => r.id) = some 9 ∧ 9 ∈ (engSt (coreAt (linked .read) 2) .c).reply.tags := by decide
theorem test_w_flit_atomic : ([6, BitVec.ofNat 8 (etyCode .n32)] ++ (leBytes 4 5 ++ leBytes 4 0) : List Byte).length = 10 ∧ (6 : Nat) < 11 := by decide
theorem test_w_tick_flit : let s := { linked .read with modNum := 1, ports := [(1, { up := true, peer := 0 })] }
    Taken s 1 { src := 0, dst := 1, addr := 128 } ∧ s.modNum ≠ 0 ∧ s.tick < 2 ^ 64 := by unfold Taken; decide
theorem test_w_train : let s := { State.reset with stage := 2 }
    2 ≤ s.stage ∧ s.order4T ≠ 1 ∧ (portAt s 0).dead = false ∧ (∀ q, q < 3 → (portAt s q).up = false) ∧
    (portAt (linked .read) 1).up = true ∧ (portAt (linked .read) 1).resends < 63 ∧ s.modNum = 0 ∧ s.tick % 64 = 0 := by decide

/-! ## Assayers and sessions -/

/-- Assayer 0 runs a program of a core on context 1, over two candidates, with draft probabilities where named. -/
def asyRun (draftp : Word := 0) : Run :=
  { core := 2, ctx := 1, prog := BitVec.ofNat 64 (pairAt 0), logits := BitVec.ofNat 64 (pairAt 0), ltype := 2, vocab := 2, draftp := draftp,
    cand := [{ val := 0x3F800000, id := 0, live := true }, { val := 0x40000000, id := 1, live := true }], regs := [(1, 8)] }
def asying (r : Run) (c : AsyCtx := {}) : State :=
  { State.reset with asys := [(0, { run := some r, ctxs := [(1, { c with bound := true })] })] }
theorem test_w_asy : AsyRuns (asying asyRun) asyRun := by unfold AsyRuns; decide
theorem test_w_asy_draw : let c := ctxOf (asying asyRun) asyRun
    (areg asyRun 0).toNat ≤ 7 ∧ 7 < (areg asyRun 1).toNat ∧ drawCnt c 0 0 ≠ 65536 ∧ c.pos + 0 < 2 ^ 32 ∧
    drawCnt { c with draws := [(0, 65536)] } 0 0 = 65536 ∧ (2 : Nat) ^ 32 ≤ (2 ^ 32 - 1) + 1 ∧ c.pos ≠ 2 ^ 32 - 1 ∧
    inStops c (areg asyRun 1) = false ∧ inStops { c with nstop := 1, stops := [(0, 8)] } (areg asyRun 1) = true ∧ asyStatOk 64 = true := by decide
theorem test_w_asy_pick : asyRun.cand.filter (fun e => e.live) = [] ++ { val := 0x3F800000, id := 0, live := true } :: [{ val := 0x40000000, id := 1, live := true }] ∧
    ltVal false (f32 (areg asyRun 0)) (f32 0x3F800000) = true := by decide +kernel
theorem test_w_asy_reads : (match readDraft (asying (asyRun (BitVec.ofNat 64 (pairAt 64)))) (asyRun (BitVec.ofNat 64 (pairAt 64))) 0 0 with
      | .ok _ => true | .error _ => false) = true ∧
    (List.range 2).all (fun i => match readLogit (asying asyRun) asyRun 0 i with | .ok l => l == 0 | .error _ => false) = true ∧
    (match fetchAsy (asying asyRun) asyRun with | .ok _ => true | .error _ => false) = true := by decide +kernel
theorem test_w_asy_branch : (0 : Int) ≤ (asyRun.idx : Int) + (5 : BitVec 12).toInt ∧ (asyRun.idx : Int) + (0xFFF : BitVec 12).toInt < 0 ∧
    asyRun.prog.toNat % 2 ^ 48 + 4 * 5 + 4 ≤ extentOf (asying asyRun) (runWho asyRun) asyRun.prog.toNat ∧
    extentOf (asying { asyRun with prog := BitVec.ofNat 64 (pairAt (2 ^ 26 - 2 ^ 23 - 4)) }) (runWho asyRun) (pairAt (2 ^ 26 - 2 ^ 23 - 4)) <
      pairAt (2 ^ 26 - 2 ^ 23 - 4) % 2 ^ 48 + 4 * 1 + 4 := by decide +kernel
theorem test_w_record_of_context : let c : AsyCtx := { nstop := 1, stops := [(0, 5)], pos := 3, draws := [(0, 2)] }
    c.nstop ≤ 16 ∧ c.pos < 2 ^ 32 ∧ (∀ i, i < 16 → c.nstop ≤ i → SMap.get 0 c.stops i = 0) ∧ (∀ i, i < 32 → SMap.get 0 c.draws i ≤ 65536) := by decide

/-- The session descriptor at 4096 of handle 7: one sequence, no drafts, chains 1 and 1, 4 output entries, 16 ids, at most 5 tokens;
its table at 8192, its outputs at 12,288 of the same handle. -/
def sessBytes : List (Nat × Nat) := [(29, 1), (30, 1), (33, 32), (38, 7), (40, 1), (44, 5), (81, 48), (86, 7), (88, 2), (112, 16)]
def sessAt : Word := 0x0007000000001000
def opening : State :=
  { mapped State.reset ((sessBytes.map (fun x => (4096 + x.1, BitVec.ofNat 8 x.2))) ++ [(8208, 0x01)]) with parts := [(0, { pend := [(sessAt, 0)] })] }
def sessOf : Sess := { addr := sessAt, desc := bytesWith 128 sessBytes }
theorem test_w_open : let t := upPart opening 0 (fun y => { y with pend := [] })
    opening.stage = 3 ∧ (partAt opening 0).sess = none ∧ (partAt opening 0).pend = (sessAt, 0) :: [] ∧
    loopGet t 0 sessOf sessAt.toNat 128 = some (bytesWith 128 sessBytes) ∧ sessOk t 0 sessOf = true ∧ (readSeqs t 0 sessOf).isSome = true ∧
    sessOk t 0 { sessOf with desc := bytesWith 128 [] } = false := by decide +kernel
/-- A session of partition 0 in the phase given, with one sequence. -/
def sessIn (ph : SPhase) (q : SeqSt := { joins := true, asel := 1 }) : Sess := { sessOf with phase := ph, seqs := [q] }
def looping (x : Sess) (m : List Host.Cell := []) : State :=
  { mapped State.reset m with parts := [(0, { sess := some x })] }
theorem test_w_phase : InPhase (looping (sessIn .round)) 0 .round (sessIn .round) ∧ InPhase (looping (sessIn .draft)) 0 .draft (sessIn .draft) ∧
    InPhase (looping (sessIn .verify)) 0 .verify (sessIn .verify) ∧ InPhase (looping (sessIn .decide)) 0 .decide (sessIn .decide) ∧
    InPhase (looping (sessIn .commit)) 0 .commit (sessIn .commit) ∧ InPhase (looping (sessIn .close)) 0 .close (sessIn .close) ∧
    active (sessIn .round) = [0] ∧ active (sessIn .round { st := 1 }) = [] := by unfold InPhase; decide
theorem test_w_control : let c (b : Byte) := loopNat (looping (sessIn .round) [(4192, b)]) 0 (sessIn .round) (sessField (sessIn .round) 96) 4
    c 0 % 4 = 0 ∧ c 1 % 2 = 1 ∧ c 2 % 4 = 2 ∧
    loopNat (looping (sessIn .round) [(8208, 0x01), (8210, 0xFF), (8211, 0xFF)]) 0 (sessIn .round) (entryAddr (sessIn .round) 0 18) 2 = 0xFFFF := by
  decide +kernel
theorem test_w_outputs : let x : Sess := { sessIn .output with outq := [(1, 2, 3, 4)] }
    let y : Sess := { x with outw := 4 }
    let n := 2 ^ sdN x 88 1
    (x.outw + 2 ^ 32 - loopNat (looping x) 0 x (sessField x 92) 4) % 2 ^ 32 < n ∧
    ¬ ((y.outw + 2 ^ 32 - loopNat (looping y) 0 y (sessField y 92) 4) % 2 ^ 32 < n) := by decide +kernel
/-! ## Every word as the spec encodes it -/

/-- The word of R117 with POP 0, PUSH 0, PRED 7 and PNEG 0: OP, MOD, D, A, B, E, SUB, IMM. -/
def wd (op md d a b e sub imm : Nat) : BitVec 96 :=
  BitVec.ofNat 96 (2 ^ 88 * op + 2 ^ 79 * 7 + 2 ^ 72 * md + 2 ^ 64 * d + 2 ^ 56 * a + 2 ^ 48 * b + 2 ^ 40 * e + 2 ^ 32 * sub + imm)
def decodes (g : Eng) (l : List (BitVec 96 × Instr)) : Bool := l.all (fun x => decide (decode g x.1 = .ok x.2))

/-- The common subset (R123, R143), in the map of C. -/
theorem test_words_common : decodes .c [
    (0x000380000000000000000000, .nop hd), (wd 0x01 0 0 0 0 0 0 0x11000003, .rep hd 0x11000003),
    (wd 0x02 0 5 0 0 0 0 0xFFFFFFFE, .movi hd 5 0xFFFFFFFE), (wd 0x02 0 5 0 0 0 1 0x12345678, .moviHi hd 5 0x12345678),
    (0x030380030100000000000000, .mov hd 3 1), (0x040380030102000000000000, .add hd 3 1 2), (wd 0x05 0 3 1 2 0 0 0, .sub hd 3 1 2),
    (wd 0x06 0 3 1 0 0 0 0x10, .addi hd 3 1 0x10), (wd 0x07 0 3 1 2 0 0 0, .shl hd 3 1 (.reg 2)), (wd 0x07 0 3 1 0 0 1 63, .shl hd 3 1 (.imm 63)),
    (wd 0x08 0 3 1 2 0 0 0, .shr hd 3 1 (.reg 2)), (wd 0x09 0 3 1 0 0 1 1, .sar hd 3 1 (.imm 1)), (wd 0x0A 0 3 1 2 0 0 0, .and hd 3 1 2),
    (wd 0x0B 0 3 1 2 0 0 0, .or hd 3 1 2), (wd 0x0C 0 3 1 2 0 0 0, .xor hd 3 1 2), (0x0D0380010304000200000000, .cmp hd .lt 1 3 4),
    (wd 0x0D 0 1 3 4 0 5 0, .cmp hd .leu 1 3 4), (wd 0x0E 0 3 1 2 6 0 0, .sel hd 3 1 2 6), (0x0F0780000300000000000000, .tsend { hd with push := 1 } 3),
    (0x104380030000000000000000, .trecv { hd with pop := 2 } 3), (wd 0x11 0 1 2 3 0 0 0, .pand hd 1 2 3), (wd 0x11 0 1 2 3 0 1 0, .por hd 1 2 3),
    (wd 0x11 0 1 2 3 0 2 0, .pxor hd 1 2 3), (wd 0x11 0 1 2 0 0 3 0, .pnot hd 1 2), (wd 0x11 0 1 2 0 0 4 0, .pmov hd 1 2)] = true := by
  decide +kernel
/-- Arithmetic and memory of C (R124); the words of R153 are its worked example. -/
theorem test_words_control : decodes .c [
    (wd 0x20 0 3 1 2 0 0x60 0, .mul hd .i64 3 1 2), (wd 0x21 0 3 1 2 0 0xA0 0, .mulh hd .n64 3 1 2), (0x22038003010200A000000000, .div hd .n64 3 1 2),
    (wd 0x23 0 3 1 2 0 0x60 0, .rem hd .i64 3 1 2), (wd 0x24 0 3 1 2 0 0x60 0, .min hd .i64 3 1 2), (wd 0x25 0 3 1 2 0 0xA0 0, .max hd .n64 3 1 2),
    (wd 0x26 0 3 1 0 0 0 0, .clz hd 3 1), (wd 0x27 0 3 1 0 0 0 0, .popc hd 3 1), (wd 0x28 0 3 4 0 0 0x60 0x00000B0C, .bfx hd .i64 3 4 0x00000B0C),
    (wd 0x29 0 3 1 2 0 0xA0 0x00000B0C, .bfi hd .n64 3 1 2 0x00000B0C), (wd 0x30 1 3 5 0 0 0x30 8, .ld hd .i8 true 3 5 8),
    (0x310380000506008000000010, .st hd .n16 5 6 0x10), (0x38038009040C015900000010, .atomAddb hd .i32 9 4 12 1 0x10),
    (wd 0x38 0 3 4 5 7 0x60 8, .atomAdd hd .i64 3 4 5 7 8), (wd 0x38 0 3 4 5 7 0xA1 8, .atomAnd hd .n64 3 4 5 7 8),
    (wd 0x38 0 3 4 5 7 0x92 8, .atomOr hd .n32 3 4 5 7 8), (wd 0x38 0 3 4 5 7 0x93 8, .atomXor hd .n32 3 4 5 7 8),
    (wd 0x38 0 3 4 5 7 0x54 8, .atomMin hd .i32 3 4 5 7 8), (wd 0x38 0 3 4 5 7 0x55 8, .atomMax hd .i32 3 4 5 7 8),
    (wd 0x38 0 3 4 5 7 0x96 8, .atomXchg hd .n32 3 4 5 7 8), (wd 0x38 0 3 4 6 7 0x97 8, .atomCas hd .n32 3 4 6 7 8),
    (wd 0x38 0 3 4 6 7 0x98 8, .atomIncb hd .n32 3 4 6 7 8), (wd 0x38 0 4 5 8 7 0xAA 16, .atomCas128 hd .n64 4 5 8 7 16),
    (wd 0x40 0 0 0 0 0 0 0xFFFFFFFF, .br hd 0xFFFFFFFF), (wd 0x41 0 0 0 0 0 0 0x40, .steer hd 0x40), (0x410380000C00000100000000, .steerX hd 12),
    (wd 0x42 0 3 0 0 0 0 0x40, .call hd 3 0x40), (wd 0x43 0 0 3 0 0 0 0, .ret hd 3), (wd 0x48 0 3 5 0 1 2 8, .probe hd .a 3 5 1 8),
    (wd 0x50 0 3 0 0 0 0 4, .fni hd .st 3 4), (wd 0x51 0 0 3 0 0 0 0, .fnw hd 3), (wd 0x52 0 0 0 0 0 0 3, .phase hd .module),
    (wd 0x58 0 0 0 0 0 0 2, .barArr hd 2), (wd 0x59 0 0 0 0 0 0 2, .barWait hd 2), (wd 0x60 0 3 5 6 0 0xA5 0, .waitw hd .ge .n64 3 5 6 0),
    (wd 0x61 0 0 3 0 0 0 0, .twait hd 3), (wd 0x62 0 3 0 0 0 0 0, .tickRead hd 3), (wd 0x68 0 0 0 0 0 0 0, .npre hd), (wd 0x69 0 0 0 0 0 0 0, .epre hd),
    (wd 0x6A 0 0 3 4 0 0 0, .textsync hd 3 4), (wd 0x6B 0 0 5 6 0 4 8, .signal hd .system 5 6 8), (wd 0x6C 0 0 0 0 0 0 7, .trap hd 7),
    (wd 0x6D 0 3 0 0 0 0 5, .srd hd 3 5)] = true := by decide +kernel
/-- The privileged words (R325, R332). -/
theorem test_words_privileged : decodes .c [
    (wd 0xE0 0 4 1 0 0 0 3, .wsrd hd 4 1 3), (wd 0xE1 0 3 1 0 0 0 0, .teamHalt hd 3 1), (wd 0xE1 0 3 1 0 0 0 1, .teamKill hd 3 1),
    (wd 0xE1 0 3 1 0 0 0 2, .teamHold hd 3 1), (wd 0xE2 0 3 1 0 0 0 0, .teamResumeReexec hd 3 1), (wd 0xE2 0 3 1 0 0 0 1, .teamResumeSkip hd 3 1),
    (wd 0xE3 0 3 1 0 0 0 0, .qFlushFinish hd 3 1), (wd 0xE3 0 3 1 0 0 0 1, .qFlushDiscard hd 3 1), (wd 0xE4 0 3 1 0 0 0 0, .qResetContinue hd 3 1),
    (wd 0xE4 0 3 1 0 0 0 1, .qResetRestart hd 3 1), (wd 0xE5 0 3 1 2 0 0 16, .ctxSave hd 3 1 2 16), (wd 0xE6 0 3 1 2 0 0 0, .ctxRest hd 3 1 2 0),
    (wd 0xE7 0 3 1 0 0 0 0x20, .prd hd 3 1 0x20), (wd 0xE8 0 3 1 2 0 0 0x21, .pwr hd 3 1 2 0x21), (wd 0xE9 0 3 1 0 0 0 0, .lregCreate hd 3 1 0),
    (wd 0xE9 0 3 1 0 0 0 9, .lregCreate hd 3 1 9), (wd 0xE9 0 3 1 0 0 0 1, .lregWrite hd 3 1), (wd 0xE9 0 3 1 0 0 0 2, .lregSeal hd 3 1),
    (wd 0xE9 0 3 1 0 0 0 3, .lregRemap hd 3 1), (wd 0xE9 0 3 1 0 0 0 4, .lregDestroy hd 3 1), (wd 0xEA 0 3 1 0 0 0 0, .htabMap hd 3 1 0),
    (wd 0xEA 0 3 1 0 0 0 1, .htabUnmap hd 3 1), (wd 0xEA 0 3 1 0 0 0 2, .htabShootdown hd 3 1), (wd 0xEA 0 3 1 0 0 0 3, .htabBind hd 3 1),
    (wd 0xEB 0 3 1 0 0 0 0, .fwinSet hd 3 1 0), (wd 0xEB 0 3 1 0 0 0 1, .fwinClear hd 3 1), (wd 0xEB 0 3 1 0 0 0 2, .fwinFlush hd 3 1)] = true := by
  decide +kernel
/-- The words of V (R125, R177); vcvt is the worked example of R195, vfma that of R130. MOD 0x38 is mode 7 of class F. -/
theorem test_words_vector : decodes .v [
    (wd 0x20 1 4 1 2 0 0x10 0x20000400, .vld hd .bf16 true 4 1 2 0x20000400), (wd 0x20 0 4 1 2 0 0x01 5, .vldSp hd .fp32 false 4 1 2 5),
    (wd 0x21 0 0 1 2 4 0x30 0x400, .vst hd .i8 1 2 4 0x400), (wd 0x21 0 0 1 2 4 0x31 5, .vstSp hd .i8 1 2 4 5),
    (wd 0x22 0 4 1 2 3 0x20 8, .vldr hd .fp16 false 4 1 2 3 8), (wd 0x23 0 0 1 2 4 0x20 8, .vstr hd .fp16 1 2 4 8),
    (wd 0x24 0 4 1 5 0 0x50 8, .vldx hd .i32 4 1 5 none 8), (wd 0x24 0 4 1 5 3 0x58 8, .vldx hd .i32 4 1 5 (some 3) 8),
    (wd 0x28 0 3 0 0 0 0 0, .vmodeRd hd 3), (wd 0x28 0 0 3 0 0 1 0, .vmodeWr hd 3), (wd 0x29 0 3 0 0 0 0 0, .vflagsRd hd 3), (wd 0x29 0 0 3 0 0 1 0, .vflagsWr hd 3),
    (wd 0x30 1 3 1 2 0 0x30 0, .vadd hd .i8 1 3 1 2 none), (wd 0x30 0x38 3 1 2 5 0x08 0, .vadd hd .fp32 0x38 3 1 2 (some 5)),
    (wd 0x31 0 3 1 2 0 0x50 0, .vsub hd .i32 0 3 1 2 none), (wd 0x32 8 3 1 2 0 0x10 0, .vmul hd .bf16 8 3 1 2 none),
    (wd 0x33 0 3 1 2 0 0x90 0, .vmin hd .n32 0 3 1 2 none), (wd 0x34 0x38 3 1 2 0 0x20 0, .vmax hd .fp16 0x38 3 1 2 none),
    (wd 0x35 0 3 1 0 0 0 0, .vabs hd .fp32 3 1 none), (wd 0x36 0 3 1 0 2 0x58 0, .vneg hd .i32 3 1 (some 2)), (wd 0x37 0 1 3 4 0 6 0, .vcmp hd .un .fp32 1 3 4 none),
    (0x3847B8080004080000000000, .vfma { hd with pop := 2, push := 1 } .fp32 0x38 8 0 4 8), (wd 0x39 0 3 1 2 4 0x10 0, .vfms hd .bf16 0 3 1 2 4),
    (wd 0x3A 0 3 1 2 4 0x10 0, .vfnma hd .bf16 0 3 1 2 4), (wd 0x3B 0x20 3 1 2 0 0 0, .vdiv hd .fp32 0x20 3 1 2 none), (wd 0x3C 0x38 3 1 0 0 0 0, .vclass hd .fp32 0x38 3 1 none),
    (wd 0x3D 0x10 3 1 0 0 0 0, .vrint hd .fp32 0x10 3 1 none), (wd 0x3E 0x38 3 1 2 0 0 0, .vscale hd .fp32 0x38 3 1 2 none),
    (wd 0x40 0 3 1 2 0 0x40 0, .vmulh hd .i16 3 1 2 none), (wd 0x41 0 3 1 2 0 0x40 0, .vshl hd .i16 3 1 (.reg 2) none), (wd 0x42 0 3 1 0 0 0x91 31, .vshr hd .n32 3 1 (.imm 31) none),
    (wd 0x43 0 3 1 0 6 0x59 31, .vsar hd .i32 3 1 (.imm 31) (some 6)), (wd 0x44 0 3 1 2 0 0x90 0, .vand hd .n32 3 1 2 none), (wd 0x45 0 3 1 2 0 0x90 0, .vor hd .n32 3 1 2 none),
    (wd 0x46 0 3 1 2 0 0x90 0, .vxor hd .n32 3 1 2 none), (wd 0x47 0 3 1 0 0 0x90 0, .vnot hd .n32 3 1 none), (wd 0x48 0 3 1 0 0 0x70 0, .vpopc hd .n8 3 1 none),
    (wd 0x49 0 3 1 0 0 0x80 0, .vclz hd .n16 3 1 none), (wd 0x4A 1 3 1 2 4 0x70 0, .vdot4 hd .n8 true 3 1 2 4),
    (0x500380060000001000000000, .vcvt hd .bf16 0 6 0 none 0), (wd 0x51 0x0A 4 8 0 0 0xB0 0, .vqntBlk hd .nbi 0x0A 4 8 0),
    (wd 0x51 0x38 4 8 3 0 0xB1 1, .vqntS hd .nbi 0x38 4 8 3 1), (wd 0x52 0x39 8 4 0 0 0xB0 0x30, .vdqntBlk hd .nbi 0x39 8 4 0x30),
    (wd 0x52 0x38 8 4 3 0 0xB1 0x71, .vdqntS hd .nbi 0x38 8 4 3 0x71), (wd 0x53 0 3 1 0 0 0xB0 8, .vplanePk hd .nbi 3 1 8), (wd 0x53 0 3 1 0 0 0xB1 4, .vplaneUn hd .nbi 3 1 4),
    (wd 0x60 0 3 1 0 0 0x00 63, .vrot hd .row .fp32 3 1 (.imm 63) none), (wd 0x60 0 3 1 2 0 0x05 0, .vrot hd .col .fp32 3 1 (.reg 2) none),
    (wd 0x61 0 3 1 0 4 0x09 15, .vbcast hd .col .fp32 3 1 (.imm 15) (some 4)), (wd 0x62 0x38 3 1 0 0 0x02 0, .vred hd .max .row .fp32 0x38 3 1 none),
    (wd 0x62 0 3 1 0 0 0x57 0, .vred hd .amax .col .i32 0 3 1 none), (wd 0x63 0x38 3 1 0 0 0x00 0, .vscan hd .add .row .fp32 0x38 3 1 none),
    (wd 0x64 0x38 3 1 0 5 0x04 0, .vsred hd .min .fp32 0x38 3 1 5)] = true := by decide +kernel
theorem test_words_masks : decodes .v [
    (wd 0x70 0 1 2 3 0 0 0, .kand hd 1 2 3), (wd 0x71 0 1 2 3 0 0 0, .kor hd 1 2 3), (wd 0x72 0 1 2 3 0 0 0, .kxor hd 1 2 3), (wd 0x73 0 1 2 0 0 0 0, .knot hd 1 2),
    (wd 0x74 0 31 2 0 0 0 0, .kpopc hd 31 2), (wd 0x75 0 31 2 0 0 0 0, .kffs hd 31 2), (wd 0x76 0 1 0 4 0 0x11 0, .krl hd .occ .bf16 1 4),
    (wd 0x77 0 1 2 0 0 0 0, .kmov hd 1 2), (wd 0x77 0 1 0 0 0 1 0, .kmovSet hd 1), (wd 0x77 0 1 0 0 0 2 0, .kmovClr hd 1), (wd 0x77 0 1 31 0 0 3 0, .kmovFirst hd 1 31),
    (wd 0x78 0 3 200 0 0 0x30 4095, .vext hd .i8 3 200 (.imm 4095)), (wd 0x79 0 200 3 5 0 0x34 0, .vins hd .i8 200 3 (.reg 5)), (wd 0x7A 0 3 1 0 0 0 0, .vmov hd .fp32 3 1 none),
    (wd 0x7A 0 3 1 0 2 9 0, .vmovBc hd .fp32 3 1 (some 2)), (wd 0x7B 0 3 1 2 4 0 0, .vsel hd .fp32 3 1 2 4)] = true := by decide +kernel
/-- The functions (R125, R208): variant 1 is the `.apx` form; MOD[0] is `.p2m`, whose mask register is E. -/
theorem test_words_functions : decodes .v [
    (wd 0x80 0x38 3 1 0 0 0 0, .vexp hd .fp32 0x38 3 1 0), (wd 0x80 0x39 3 1 0 5 0 0, .vexp hd .fp32 0x39 3 1 5), (wd 0x81 0 3 1 0 0 0 0, .vexp2 hd .fp32 0 3 1 0),
    (wd 0x82 0 3 1 0 0 0 0, .vexpm1 hd .fp32 0 3 1 0), (wd 0x83 0 3 1 0 0 0 0, .vlog hd .fp32 0 3 1 0), (wd 0x84 0 3 1 0 0 0 0, .vlog2 hd .fp32 0 3 1 0),
    (wd 0x85 0 3 1 0 0 0 0, .vlog1p hd .fp32 0 3 1 0), (wd 0x86 0 3 1 0 0 0 0, .vrcp hd .fp32 0 3 1 0), (wd 0x87 0 3 1 0 0 0 0, .vsqrt hd .fp32 0 3 1 0),
    (wd 0x88 0 3 1 0 0 0 0, .vrsqrt hd .fp32 0 3 1 0), (wd 0x89 0 3 1 0 0 0 0, .vsin hd .fp32 0 3 1 0), (wd 0x8A 0 3 1 0 0 0 0, .vcos hd .fp32 0 3 1 0),
    (wd 0x8B 0 3 1 0 0 0x10 0, .vtanh hd .bf16 0 3 1 0), (wd 0x8C 0 3 1 0 0 0x20 0, .vlogistic hd .fp16 0 3 1 0), (wd 0x80 0 3 1 0 0 1 0, .vexpApx hd .fp32 0 3 1 0),
    (wd 0x81 0 3 1 0 0 1 0, .vexp2Apx hd .fp32 0 3 1 0), (wd 0x82 0 3 1 0 0 1 0, .vexpm1Apx hd .fp32 0 3 1 0), (wd 0x83 0 3 1 0 0 1 0, .vlogApx hd .fp32 0 3 1 0),
    (wd 0x84 0 3 1 0 0 1 0, .vlog2Apx hd .fp32 0 3 1 0), (wd 0x85 0 3 1 0 0 1 0, .vlog1pApx hd .fp32 0 3 1 0), (wd 0x86 0 3 1 0 0 1 0, .vrcpApx hd .fp32 0 3 1 0),
    (wd 0x87 0 3 1 0 0 1 0, .vsqrtApx hd .fp32 0 3 1 0), (wd 0x88 0 3 1 0 0 1 0, .vrsqrtApx hd .fp32 0 3 1 0), (wd 0x89 0 3 1 0 0 1 0, .vsinApx hd .fp32 0 3 1 0),
    (wd 0x8A 0 3 1 0 0 1 0, .vcosApx hd .fp32 0 3 1 0), (wd 0x8B 0 3 1 0 0 1 0, .vtanhApx hd .fp32 0 3 1 0), (wd 0x8C 0x38 3 1 0 0 1 0, .vlogisticApx hd .fp32 0x38 3 1 0)] = true := by
  decide +kernel
/-- The words of M (R126, R215–R228). -/
theorem test_words_matrix : decodes .m [
    (wd 0x20 0 0 0 0 0 0 100, .leaseAcq hd 100), (wd 0x21 0 0 0 0 0 0 0, .leaseRel hd), (wd 0x22 0 3 0 0 0 0 0, .leaseSt hd 3), (wd 0x28 0 7 1 2 0 0 0, .odSetSp hd 7 1 2),
    (wd 0x28 0 7 1 2 0 1 0, .odSetV hd 7 1 2), (wd 0x28 0 7 1 2 0 2 0, .odSetM hd 7 1 2), (wd 0x30 0 3 1 2 0 0x10 255, .mma hd .bf16 false 0 3 1 2 255),
    (wd 0x30 1 3 1 2 0 0xB3 0, .mma hd .nbi true 3 3 1 2 0), (wd 0x38 0 15 0 0 0 0 0, .accZero hd 15), (wd 0x39 0 15 0 0 0 0 0, .accSwap hd 15),
    (wd 0x3A 0 4 15 0 0 0 0x40000330, .accRd hd 4 15 0x40000330), (wd 0x3B 0 3 15 0 0 0 0, .accFlag hd 3 15)] = true := by decide +kernel
/-- The words of H (R127, R234, R264), the worked examples of R234 and R264 among them. -/
theorem test_words_hoist : decodes .h [
    (wd 0x20 0 1 2 0 0 0 0x51, .hcp hd 1 2 0x51), (wd 0x21 0 1 2 3 0 0 0x51, .hgat hd 1 2 3 0x51), (wd 0x22 0 1 2 3 0 0 0x51, .hsct hd 1 2 3 0x51),
    (wd 0x23 0 1 2 0 0 0 0xFE000051, .hmc hd 1 2 0xFE000051), (wd 0x23 0 1 2 0 0 1 0xFE030051, .hmcSig hd 1 2 0xFE030051), (wd 0x24 0 1 2 3 4 0 0x51, .hlay hd 1 2 3 4 0x51),
    (wd 0x25 0 1 2 3 0 0 0x51, .hfill hd 1 2 3 0x51), (wd 0x26 0 1 2 0 0 0 0x30051, .hpub hd 1 2 0x30051), (wd 0x28 0 3 2 4 0 0 0, .cqInit hd 3 2 4), (wd 0x29 0 3 2 0 0 0 0, .cqAck hd 3 2),
    (wd 0x30 0 1 2 0 0 0 0x51, .lodeAct hd 1 2 0x51), (0x310381010203040480030051, .lodeSacc hd 4 true 1 2 3 4 0x80030051), (wd 0x32 0 1 2 0 0 0 0x51, .lodeDrain hd 1 2 0x51),
    (wd 0x32 0 1 2 0 0 1 0x51, .lodeDrainRaw hd 1 2 0x51), (wd 0x33 0 1 2 0 0 0 0x51, .lodeIred hd 1 2 0x51), (wd 0x34 0 1 2 0 0 0 0x30051, .lodeStat hd 1 2 0x30051),
    (wd 0x38 0 1 2 0 4 0 0x80000051, .linkSend hd 1 2 4 0x80000051), (wd 0x39 0 1 2 0 0 0 0x51, .linkRed hd 1 2 0 0x51), (wd 0x40 0 1 2 3 0 0 0x51, .rdlOpen hd 1 2 3 0x51),
    (wd 0x41 0 1 2 3 0 0 0x51, .rdlMask hd 1 2 3 0x51), (wd 0x41 0 1 2 3 0 1 0x51, .rdlMaskM hd 1 2 3 0x51), (wd 0x42 0 1 0 3 4 0 0x51, .rdlStep hd 1 3 4 0x51),
    (wd 0x43 0 1 0 3 0 0 0x70051, .rdlFork hd 1 3 0x70051), (wd 0x44 0 1 0 3 0 0 0x51, .rdlKeep hd 1 3 0x51), (wd 0x45 0 1 0 3 0 0 0x51, .rdlDrop hd 1 3 0x51),
    (wd 0x46 0 1 2 3 0 0 0x51, .rdlSave hd 1 2 3 0x51), (wd 0x47 0 1 2 3 0 0 0x51, .rdlLoad hd 1 2 3 0x51), (wd 0x48 0 1 4 5 0 0 0x21, .asyBind hd 1 4 5 0x21),
    (0x490380000405000000000021, .asyRun hd 0 4 5 0x21), (wd 0x4A 0 1 4 5 0 0 0x21, .asyStat hd 1 4 5 0x21)] = true := by decide +kernel

/-- The word of R270: OP, A[d], A[a], A[b], IMM. -/
def aw (op d a b imm : Nat) : W32 := BitVec.ofNat 32 (2 ^ 26 * op + 2 ^ 22 * d + 2 ^ 18 * a + 2 ^ 14 * b + imm)
theorem test_words_assayer : ([
    (0x00000005, .asyHalt 5), (0x04000000, .asyLdlog 0), (aw 2 0 3 0 0, .asyScl 3), (aw 3 0 3 0 0, .asySub 3), (aw 4 0 0 0 0, .asyExp), (aw 5 0 3 0 0, .asyDiv 3),
    (aw 5 7 3 5 1, .asyDivS 7 3 5), (aw 6 7 0 0 0, .asyTmax 7), (aw 7 7 0 0 0, .asyTsum 7), (aw 8 0 3 0 0, .asyMinp 3), (0x24000000, .asyMask), (aw 0xA 0 0 0 0, .asySort),
    (aw 0xB 0 0 0 0, .asyScan), (aw 0xC 0 3 0 0, .asyTopp 3), (0x35C40003, .asyDraw 7 1 3), (0x3A1C0000, .asyPick 8 7), (aw 0xF 7 3 0 0, .asyVal 7 3), (aw 0xF 7 3 5 1, .asyValQ 7 3 5),
    (aw 0x10 0 3 0 0, .asyStp 3), (aw 0x11 7 3 0 0, .asyStop 7 3), (0x48200000, .asyCommit 8), (aw 0x13 7 3 5 0, .asyAccept 7 3 5), (aw 0x14 0 3 0 0, .asyResid 3), (aw 0x15 7 3 0 0, .asyMov 7 3),
    (aw 0x16 7 0 0 0x3FFF, .asyMovi 7 0x3FFF), (aw 0x17 7 3 5 0, .asyAddF 7 3 5), (aw 0x17 7 3 5 1, .asyAddI 7 3 5), (0x61DD4000, .asyMulF 7 7 5), (aw 0x18 7 3 5 1, .asyMulI 7 3 5),
    (aw 0x19 0 0 0 0xFFF, .asyBrAl 0xFFF), (aw 0x19 0 3 0 0x1002, .asyBrZ 3 2), (aw 0x19 0 3 0 0x2002, .asyBrNz 3 2), (aw 0x1A 7 0 0 0x5F, .asyStatRead 7 0x5F)] : List (W32 × Instr)).all
    (fun x => decide (decodeAsy x.1 = some x.2)) = true ∧ decodeAsy 0x64003000 = none ∧ decodeAsy (aw 0x1B 0 0 0 0) = none := by decide +kernel

/-! ## Well-formedness: one ill-formed term for each check -/

theorem test_wellformed : WellFormed .c (.add hd 3 1 2) = true ∧ WellFormed .v (.vadd hd .fp32 0x38 3 1 2 none) = true ∧ WellFormed .c (.asyMask) = true ∧
    WellFormed .c (.recordTake 255) = true := by decide +kernel
theorem test_ill_formed :
    WellFormed .v (.vfma hd .fp32 0x28 3 1 2 4) = false ∧          -- MOD outside its class: mode 5 (R120)
    WellFormed .c (.mul hd .fp32 3 1 2) = false ∧                  -- an element type not accepted (R122)
    WellFormed .m (.mma hd .nbi false 9 3 1 2 0) = false ∧         -- a variant not defined: K = 9 (R223)
    WellFormed .c (.add hd 64 1 2) = false ∧                       -- a register outside its class (R118)
    WellFormed .v (.vld hd .fp32 false 3 1 2 0x20000000) = false ∧ -- a group misaligned (R42)
    WellFormed .v (.vexp hd .fp32 0x38 3 1 5) = false ∧            -- an unused field not 0: E without `.p2m` (R117)
    WellFormed .c (.shl hd 3 1 (.imm 64)) = false ∧                -- an immediate outside its field (R143)
    WellFormed .c (.steer { hd with pred := 0 } 0) = false ∧       -- a predicate on a word that must be live (R119)
    WellFormed .c (.tsend hd 3) = false ∧                          -- not one token named (R145)
    WellFormed .c (.lregCreate hd 3 1 1) = false ∧                 -- the number of another operation (R332)
    WellFormed .c (.vadd hd .fp32 0x38 3 1 2 none) = false ∧       -- the word of another engine's map (R123)
    WellFormed .c (.commandComplete 320 .load) = false ∧           -- a core that does not exist (R9)
    WellFormed .c (.asyStatRead 7 0x48) = true ∧ WellFormed .c (.asyStatRead 7 6) = false := by decide +kernel -- a selector not defined (R271)

/-! ## A step runs the decoded word -/

/-- `add x3, x1, x2` in a section of one word, with the turn given first in the plan. -/
def plan (t : Turn) : State :=
  { eng2 .c (inSec 0 1) { tnew := textAt 8 addWord, x := [(1, 40), (2, 2)] } { text := 1 } with sched := [t] }
def after (s : State) (p : State → Bool) : Bool := match step s with | .next t => p t | _ => false
theorem test_step_word : let s := plan (.engine 2 .c)
    let t := onEng { s with sched := [] } 2 .c
    (curTeam t).st = .running ∧ (curEng t).retired = false ∧ (curEng t).sec = some { off := 0, kind := 0, tag := 0, len := 1 } ∧
    (curEng t).pc < secEnd { off := 0, kind := 0, tag := 0, len := 1 } ∧ (curEng t).rst.active = false ∧
    fetchText t (curEng t).pc 12 = .ok ((List.range 12).map (fun i => BitVec.ofNat 8 (addWord.toNat / 2 ^ (8 * i)))) ∧
    BitVec.ofNat 96 (leNat ((List.range 12).map (fun i => BitVec.ofNat 8 (addWord.toNat / 2 ^ (8 * i))))) = addWord ∧
    decode .c addWord = .ok (.add hd 3 1 2) ∧ after s (fun t => rd t 3 == 42 && (curEng t).pc == 20) = true := by decide +kernel
theorem test_step_section_end : secEnd { off := 0, kind := 0, tag := 0, len := 1 } ≤ (inSec 0 1).pc + 12 ∧
    (curEng (onEng { eng2 .c {} with sched := [] } 2 .c)).sec = none := by decide
/-- Word 0 is `rep` of 3 over the word after it, which is at hand. -/
def repeating (push : Bool) (remain : Nat) : State :=
  { eng2 .c { inSec 0 2 with pc := 20, pushpend := push, rst := { active := true, remain := remain } } { tnew := textAt 20 addWord } { text := 1 } with
    sched := [.engine 2 .c] }
theorem test_step_rep : (curEng (onEng (repeating true 0) 2 .c)).rst.remain = 0 ∧ (curEng (onEng (repeating true 0) 2 .c)).pushpend = true ∧
    (let t := onEng { repeating false 2 with sched := [] } 2 .c
     let r := stepWord (unpackWord addWord) (curEng t).rst
     (curEng t).rst.active = true ∧ steerTail t .c r = true ∧ decodeRaw .c r = .ok (.add hd 3 1 2)) := by decide +kernel
theorem test_step_no_core : step { State.reset with sched := [.engine 320 .c] } = .fault (.noSuchCore 320) := by rfl
/-- An Assayer whose program at its core's pair store is `mov`, and a turn of it. -/
theorem test_step_assayer : let s := { asying asyRun with sched := [.assayer 0], mem := [(pairBase + 2 ^ 23 + 2, 0xC4), (pairBase + 2 ^ 23 + 3, 0x55)] }
    (asyAt s 0).run = some asyRun ∧ (match fetchAsy { s with sched := [] } asyRun with | .ok w => decide (decodeAsy w = some (.asyMov 7 1)) | _ => false) = true := by
  decide +kernel
theorem test_step_event : encode (.recordTake 0) = none ∧ encodeAsy (.recordTake 0) = none ∧ WellFormed .c (.recordTake 256) = false := by decide
/-- The word placed by `withFetchWord` is the one that the next step runs. -/
theorem test_fetch_word : after (State.reset.withFetchWord 96 0x000281050000000000000000FFFF) (fun _ => true) = true ∧
    decodeTableWord 32 0x61DD4000 = some (.asyMulF 7 7 5) := by decide +kernel
theorem test_good_reset : { State.reset with sched := [.event .tickAdvance] }.Good ∧ ∃ t, step { State.reset with sched := [.event .tickAdvance] } = .next t :=
  ⟨by unfold State.Good; decide, _, rfl⟩

/-! ## Commands at the head of their queue -/

theorem test_w_copy_plain : AtHead copying 2 .load copyCmd [] ∧ onHoist copying 2 copyCmd = true ∧ storeAway copying 2 copyCmd = false ∧
    (∀ p ∈ (coreAt copying 2).stq, copyCmd.id ≤ p.id) ∧
    ((List.range 4).map (fun i => pairBase + 2 ^ 23 + 64 + i)).Nodup ∧
    (∀ k ∈ (List.range 128).map (fun i => pairBase + 2 ^ 23 + i), plain copying k) := by
  refine ⟨⟨by decide +kernel, by decide +kernel, by decide +kernel, by decide +kernel, by decide +kernel⟩, by decide +kernel, by decide +kernel, by decide +kernel, by decide +kernel, ?_⟩
  unfold plain held
  decide +kernel
/-- A copy behind a store of its core to another module, one of a descriptor that is all zero, and one of a pair store to a handle that is not mapped. -/
theorem test_w_copy_waits : let c : Cmd := { copyCmd with id := 1 }
    let s := at2 .h { ql := [c], stq := [{ id := 0, eng := .c, seq := 0, bytes := [(remoteBase 2 64, 7)], remote := true }] }
    onHoist s 2 c = true ∧ storeAway s 2 c = true ∧ copyRefusal copying (copyWho copying 2 copyCmd) { copyCmd with desc := bytesWith 256 [] } = some 9 := by
  decide +kernel
theorem test_w_walk : isCopy copyCmd.op ∧ 1 ≤ cpDim copyCmd ∧ (∀ d, d < cpDim copyCmd → cpExt copyCmd d ≠ 0) ∧ 3 < cpCount copyCmd ∧
    (srcSide copyCmd).coord = false ∧ (dstSide copyCmd).coord = false ∧
    (match cpAddr copying (copyWho copying 2 copyCmd) copyCmd false 3 with | .ok a => a == pairAt 3 | _ => false) = true ∧
    (match engRead copying (copyWho copying 2 copyCmd) (pairAt 3) 1 with | .ok l => l.length == 1 | _ => false) = true ∧
    (match engKeys copying (copyWho copying 2 copyCmd) true (pairAt 67) 1 with | .ok l => l.length == 1 | _ => false) = true ∧
    ((0xFFFE000000800000 : Nat) % 2 ^ 48 : Nat) + 3 * (-(2 ^ 23) : Int) < 0 := by
  refine ⟨.inl rfl, ?_⟩
  decide +kernel
/-- A gather whose indices are the words from byte 128 on, and a multicast to the pairs 0 and 1 at byte 64. -/
theorem test_w_walk_lists : let g : Cmd := { copyCmd with op := .hgat, rb := BitVec.ofNat 64 (pairAt 128) }
    let m : Cmd := { copyCmd with op := .hmc, k := 3, desc := bytesWith 256 [(2, 0x80), (6, 0xFE), (7, 0xFF), (8, 0x40), (14, 0xFE), (15, 0xFF), (16, 1), (24, 4), (64, 1), (144, 1)] }
    g.rb.toNat % 2 ^ 48 + 4 * 3 + 3 < 2 ^ 48 ∧ (match engBytes copying (copyWho copying 2 g) (g.rb.toNat + 4 * 3) 4 with | .ok l => leNat l == 0 | _ => false) = true ∧
    (match cpAddr copying (copyWho copying 2 m) m true 3 with | .ok a => decide (a % 2 ^ 48 < 2 ^ 23) | _ => false) = true := by decide +kernel
theorem test_w_publish_kinds : let e : HEntry := { kind := 1, ext := 1 }
    let s := { at2 .h { qs := [{ id := 0, op := .hpub, ra := 0x0007000000000000 }] } with ht := [(htKey 0 0 7, some e)] }
    htAt s (cmdWho s 2).part (cmdWho s 2).ctx 7 = some e ∧ e.kind ≠ 6 ∧ kindOk (cmdWho s 2).agent .r 4 = false ∧
    (∀ p ∈ s.cores, ∀ x ∈ (coreAt s p.1).stq, storeNames s p.1 (htKey 0 0 7) x = false) := by decide
/-- Two bytes at byte 64 of the pair store, and an address of no handle. -/
theorem test_w_lands : Lands copying (cmdWho copying 2) [(pairAt 64, [1, 2])] [[pairBase + 2 ^ 23 + 64, pairBase + 2 ^ 23 + 65]] ∧
    (match engKeys copying (cmdWho copying 2) true (5 * 2 ^ 48) 1 with | .error _ => true | _ => false) = true := by
  refine ⟨⟨rfl, ?_, ?_, by decide, by decide +kernel⟩, by decide +kernel⟩
  · rintro (_ | i) p h
    · cases h; decide +kernel
    · cases h
  · unfold plain held
    decide +kernel

/-- One bit-plane of the tile of region 0 is asked for by vector 0. -/
def lastPlane : Cmd := { senseCmd with k := 1, pairs := 1 }
def adding : State := { at2 .h { qd := [lastPlane] } with regions := [(0, some planeRegion)], tick := 1 }
theorem test_w_tile_added : (coreAt adding 2).qd = lastPlane :: [] ∧ lodeRefusal adding 2 lastPlane = none ∧ cmdRegion adding lastPlane = some planeRegion ∧
    lastPlane.wave.tile < (readUnits planeRegion lastPlane).1.length ∧ lastPlane.wave.plane + 1 = (readUnits planeRegion lastPlane).2 ∧
    adding.tick % 64 ≠ 8 * (0 / 16) + 0 ∧ stolenTick adding 0 0 0 = false ∧ (blockAt adding 0).disturb < disturbLimit (isFast planeRegion 0) ∧
    planeRegion.layout = 0 ∧ tileDead adding planeRegion 0 = false ∧ SMap.get false planeRegion.failed 0 = false ∧ lastPlane.pairs.testBit 0 = true := by
  decide +kernel
/-- A wave of the same stamp and an earlier issue on another core's queue, and one whose rectangle has been read. -/
theorem test_w_waves : let x : Cmd := { lastPlane with stamp := some 1, ord := 1 }
    let y : Cmd := { x with ord := 2 }
    let s := setCore { adding with cores := [] } 3 { qd := [x] }
    waveBefore s y = true ∧ waveBefore s x = false ∧ cmdRegion s x ≠ none ∧ (1 : Nat) ≤ s.tick ∧
    (readUnits planeRegion lastPlane).1.length ≤ 1 := by decide +kernel
/-- `lode.act` of one vector of four codes into the latch of stack 0, its codes at byte 0 and its scale at byte 64 of the pair store. -/
def actCmd : Cmd :=
  { id := 0, op := .act, desc := bytesWith 32 [(2, 0x80), (6, 0xFE), (7, 0xFF), (8, 0x40), (10, 0x80), (14, 0xFE), (15, 0xFF), (24, 3), (29, 1), (30, 1)] }
theorem test_w_act : let s := at2 .h { qd := [actCmd] }
    actRefusal s (lodeWho s 2) actCmd = none ∧ waveOn s (actStacks actCmd) = false ∧ dI actCmd 0 8 % 2 ^ 48 + dI actCmd 16 8 * 0 < 2 ^ 48 ∧
    (match engBytes s (lodeWho s 2) (dI actCmd 0 8) 4 with | .ok l => l.length == 4 | _ => false) = true ∧
    (match engBytes s (lodeWho s 2) (dI actCmd 8 8) 4 with | .ok l => l.length == 4 | _ => false) = true ∧
    actRefusal s (lodeWho s 2) { actCmd with desc := [] } = some 9 ∧
    waveOn { adding with cores := [(2, { qd := [{ lastPlane with started := true }] })] } (actStacks actCmd) = true := by decide +kernel
/-- A drain of vector 0 of one row tile to the pair store, its scale pages read; the same before that. -/
def drainCmd : Cmd :=
  { id := 0, op := .drain, arg := 1, desc := bytesWith 64 [(10, 0x80), (14, 0xFE), (15, 0xFF), (34, 1), (40, 1)], wave := { plane := 2 } }
theorem test_w_drain : let s := { at2 .h { qd := [drainCmd] } with regions := [(0, some planeRegion)] }
    lodeRefusal s 2 drainCmd = none ∧ cmdRegion s drainCmd = some planeRegion ∧ scalesRead planeRegion drainCmd = true ∧
    scalesRead planeRegion { drainCmd with wave := {} } = false ∧
    (putAll s (lodeWho s 2) ((drainCells drainCmd).map (fun y => (drainAddr drainCmd y, leBytes 4 0)))).2.1 = none := by decide +kernel
/-- An indexed reduce of one empty bag of one element from a row region: before its lists are read, and after its pages are. -/
def iredCmd : Cmd :=
  { id := 0, op := .ired, arg := 1,
    desc := bytesWith 64 [(10, 0x80), (14, 0xFE), (15, 0xFF), (16, 0x40), (18, 0x80), (22, 0xFE), (23, 0xFF), (24, 0x80), (26, 0x80), (30, 0xFE), (31, 0xFF),
                          (32, 1), (44, 1)] }
theorem test_w_ired : let s := { at2 .h { qd := [iredCmd] } with regions := [(0, some rowRegion)] }
    let d : Cmd := { iredCmd with desc := iredCmd.desc ++ List.replicate 8 0, started := true }
    lodeRefusal s 2 iredCmd = none ∧ (match iredLists s (lodeWho s 2) iredCmd with | .ok l => l == List.replicate 8 0 | _ => false) = true ∧
    (readUnits rowRegion d).1.length ≤ d.wave.tile ∧ scalesRead rowRegion d = true ∧ lodeRefusal s 2 d = none ∧
    (putAll s (lodeWho s 2) ((iredCells d).map (fun y => (iredAddr d y, leBytes (iredSize d) 0)))).2.1 = none ∧
    (readUnits rowRegion { d with desc := iredCmd.desc ++ leBytes 4 0 ++ leBytes 4 1 ++ leBytes 4 0 }).1.length = 1 := by decide +kernel
/-- A raw drain of one bit-plane of one tile, its page read. -/
def rawCmd : Cmd :=
  { id := 0, op := .drainRaw, arg := 1, desc := bytesWith 64 [(10, 0x80), (14, 0xFE), (15, 0xFF), (24, 128), (34, 1), (38, 1), (40, 1)], wave := { tile := 1 } }
theorem test_w_raw : let s := { at2 .h { qd := [rawCmd] } with regions := [(0, some planeRegion)] }
    cmdRegion s rawCmd = some planeRegion ∧ (readUnits planeRegion rawCmd).1.length ≤ rawCmd.wave.tile ∧ scalesRead planeRegion rawCmd = true ∧
    (readUnits planeRegion { rawCmd with wave := {} }).1.length = 1 := by decide +kernel
/-- In the tick of Shoring's for plane 0 a block that holds the one tile's first page is due at the mount, another block is free. -/
theorem test_w_refresh_due : let s := { State.reset with stage := 2, scanned := [(blockKey 0 0 0 3, true)], regions := [(0, some { planeRegion with map := (List.range 8).map (fun i => (i, 4 + i)) })] }
    planeExists s 0 0 0 = true ∧ s.tick % 64 = 8 * (0 / 16) + 0 ∧ blockPages s 0 0 0 3 = [(0, 0, 0)] ∧ lregBusy s 0 = false ∧
    (1 : Nat) ∉ usedBlocks s 0 0 0 ∧ (blockAt s (blockKey 0 0 0 1)).retired = false ∧ SMap.get 0 s.spares (planeKey 0 0 0) < 163 := by decide +kernel

/-! ## Linked modules -/

/-- Handle 6 is a peer handle whose page lies on module 2, behind port 1; handle 7 is shadowed, its pages at 2 MiB and 4 MiB. -/
def peered (c : Core) : State :=
  { at2 .h c with ports := [(1, { up := true, peer := 2 })], stage := 3, modCount := 4,
                  ht := [(htKey 0 0 6, some { kind := 6, ext := 2 ^ 21 }), (htKey 0 0 7, some { kind := 1, ext := 2 ^ 21, base := 4096, shadow := true, sbase := 8192 })],
                  mem := [(0, 0x21), (4096, 1), (4098, 0x20), (8192, 1), (8194, 0x40)] }
/-- `link.send` of the byte 0 of the pair store to byte 0 of the peer handle. -/
def sendCmd : Cmd := { id := 0, op := .send, desc := bytesWith 256 [(2, 0x80), (6, 0xFE), (7, 0xFF), (14, 6), (16, 1), (24, 1)] }
theorem test_w_send : let s := peered { qs := [sendCmd] }
    let w := linkWho s 2
    AtHead s 2 .store sendCmd [] ∧ copyRefusal s w sendCmd = none ∧ linkDown s w (cpDst sendCmd) = false ∧ (copyWalk s w sendCmd).n = 1 ∧
    (match (copyWalk s w sendCmd).src 0 with | .ok (some l) => l == [pairBase + 2 ^ 23] | _ => false) = true ∧
    (match (copyWalk s w sendCmd).dst 0 with | .ok [l] => l == [remoteBase 2 0] && l.all isRemote | _ => false) = true ∧
    linkDown { s with ports := [] } w (cpDst sendCmd) = true ∧ plain s (pairBase + 2 ^ 23) := by
  unfold AtHead plain held
  decide +kernel
/-- `link.red` of one FP32 value, without an addend, to the peer handle; and one that waits for its answer. -/
def redCmd : Cmd := { id := 0, op := .red, desc := bytesWith 64 [(2, 0x80), (6, 0xFE), (7, 0xFF), (22, 6), (48, 1)] }
theorem test_w_red : let s := peered { qs := [redCmd] }
    let w := linkWho s 2
    redRefusal s w redCmd = none ∧ (redOuts redCmd).all (fun a => !linkDown s w a) = true ∧ rdGroups redCmd = 1 ∧
    (match rdPart s w redCmd 0 with | .ok p => (p.dst ++ p.dscale ++ p.add ++ p.ascale).all isRemote && p.dst.length == 4 | _ => false) = true ∧
    ringRoom (coreAt s 2) redCmd = true ∧ redRefusal s w { redCmd with desc := [] } = some 9 := by decide +kernel
/-- A write of two bytes by the peer, of a link command and not. -/
def goodFlit (pa : Nat) (l : List Byte) : Flit := { src := 2, tag := 9, addr := pa, data := l, len := l.length, checks := dataChecks pa l }
theorem test_w_flit_places : let s := peered {}
    Taken s 1 (goodFlit (2 ^ 21) [1, 2]) ∧ flitFails (goodFlit (2 ^ 21) [1, 2]) = [] ∧ flitFails { goodFlit 64 [1, 2] with checks := [0] } = [1] ∧
    ownRange s (2 ^ 21) 2 = true ∧ (linkPlace s 1).isSome = true ∧ (linkPlace s 2).isSome = true ∧ linkPlace s 0 = none ∧
    linkAddr s true (2 ^ 21) = 2 ^ 22 ∧ linkAddr s false (2 ^ 21) = 2 ^ 21 ∧ badWrite s [2 ^ 22, 2 ^ 22 + 1] = none ∧ s.reqs = [] := by
  unfold Taken
  decide +kernel
/-- The payload of a reduction of 1.0 into four bytes at 2 MiB, whole and not. -/
def redLoad : List Byte :=
  leBytes 4 32 ++ [0, 0, 0, 1] ++ (leBytes 2 1 ++ leBytes 8 (2 ^ 21) ++ leBytes 4 4) ++ leBytes 2 0 ++ leBytes 2 0 ++ leBytes 2 0 ++ leBytes 4 0x3F800000
theorem test_w_reduction : let s := peered {}
    Taken s 1 (goodFlit 0 redLoad) ∧ flitFails (goodFlit 0 redLoad) = [] ∧ leNat (redLoad.take 4) ≤ redLoad.length ∧
    (redLoad.take 8).length < leNat ((redLoad.take 8).take 4) ∧
    unpackRuns ((redLoad.drop 4).drop 4) = (List.range' (2 ^ 21) 4, leBytes 2 0 ++ leBytes 2 0 ++ leBytes 2 0 ++ leBytes 4 0x3F800000) ∧
    (∀ k ∈ List.range' (2 ^ 21) 4, ownRange s k 1 = true ∧ linkPlace s (k / 2 ^ 21) ≠ none) ∧
    badWrite s ((List.range' (2 ^ 21) 4).map (linkAddr s true)) = none := by unfold Taken; decide +kernel
theorem test_w_port_limits : (portAt { linked .read with ports := [(1, { up := true, peer := 2, resends := 64 })] } 1).resends = 64 ∧
    (portAt (linked .read) 1).resends < 64 ∧ State.reset.stage < 2 ∧ (linked .read).modNum = 0 ∧
    (portAt { linked .read with tickSet := true } 1).peer ≠ 0 := by decide

/-! ## Commands of the sequence units -/

/-- A grammar image at byte 0 of core 2's pair store: one state, two ids of class 0, one effect that takes the class, id 0 on the walk list. -/
def gramList : List (Nat × Nat) :=
  [(0, 0x4C), (1, 0x47), (2, 0x49), (3, 0x4D), (4, 1), (6, 1), (8, 2), (16, 1), (20, 64), (24, 80), (28, 88), (32, 112), (36, 112), (40, 1), (44, 120), (68, 1)]
def ruled (c : Cmd) (x : RdlCtx) : State :=
  { at2 .h { qs := [c] } with mem := gramList.map (fun p => (pairBase + 2 ^ 23 + p.1, BitVec.ofNat 8 p.2)), rdls := [(0, { ctxs := [(0, x)] })] }
def openCmd : Cmd := { id := 0, op := .rOpen, ra := BitVec.ofNat 64 (pairAt 0) }
/-- Context 0 open on that image, branch 0 alone. -/
def opened : RdlCtx := { isOpen := true, image := BitVec.ofNat 64 (pairAt 0), br := [(0, some {})] }
theorem test_w_riddle : let s := ruled openCmd {}
    let w := seqWho s 2
    (coreAt s 2).qs = openCmd :: [] ∧ rdlRefusal s w openCmd = none ∧ (match gramOpen s w openCmd.ra.toNat with | .ok _ => true | _ => false) = true ∧
    (match gramOpen s w (pairAt 64) with | .error e => e.status != 6 | _ => false) = true ∧ rdlRefusal s w { openCmd with rb := 2 ^ 19 } = some 9 := by decide +kernel
theorem test_w_riddle_branch : let c : Cmd := { id := 0, op := .rStep }
    let s := ruled c opened
    let w := seqWho s 2
    rdlRefusal s w c = none ∧ (rdlCtx s 0 0).isOpen = true ∧ branchAt (rdlCtx s 0 0) 0 = some {} ∧ branchAt (rdlCtx s 0 0) 1 = none ∧
    (match gramEffectOf s w (pairAt 0) {} 0 with | .ok (some e) => e.pops.isEmpty && e.pushes.isEmpty | _ => false) = true ∧
    (match gramEffectOf s w (pairAt 0) {} 2 with | .ok none => true | _ => false) = true ∧ (rdlCtx (ruled c {}) 0 0).isOpen = false ∧
    (match branchMask s w (pairAt 0) {} with | .ok l => l == [true, false] | _ => false) = true ∧
    (asyCtx { s with asys := [(0, { ctxs := [(0, { bound := true })] })] } 0 0).bound = true := by decide +kernel
theorem test_w_grammar : let s := ruled openCmd {}
    let w := seqWho s 2
    (match gramHead s w (pairAt 0) with
     | .ok g => decide (0 < g.vocab) && (match gramClass s w g 0 with | .ok c => c == 0 | _ => false) &&
         (match gramState s w g 0 with | .ok st => st.neff == 1 && (match gramEffect s w g st.effidx with | .ok e => e.cls == 0 && e.pops == [] | _ => false) | _ => false) &&
         (match gramWalk s w g with | .ok l => l == [0] && (match walkBits s w g {} l with | .ok b => b.length == 1 | _ => false) | _ => false) &&
         (match maskTable s w g {} with | .ok l => l == [] | _ => false)
     | _ => false) = true := by decide +kernel
/-- `asy.bind`, `asy.stat` and `asy.run` of context 0 of Assayer 0, their record or result at byte 0 of the pair store. -/
def bindCmd : Cmd := { id := 0, op := .aBind, ra := BitVec.ofNat 64 (pairAt 0), desc := List.replicate 256 0 }
def statCmd : Cmd := { id := 0, op := .aStat, ra := BitVec.ofNat 64 (pairAt 0) }
def runCmd : Cmd :=
  { id := 0, op := .aRun, desc := bytesWith 128 [(2, 0x80), (6, 0xFE), (7, 0xFF), (10, 0x80), (14, 0xFE), (15, 0xFF), (26, 0x80), (30, 0xFE), (31, 0xFF), (32, 1)] }
/-- The commands' core, with context 0 of Assayer 0 as given. -/
def binding (c : Cmd) (x : AsyCtx) : State := { at2 .h { qs := [c] } with asys := [(0, { ctxs := [(0, x)] })] }
theorem test_w_sequence : let s := binding bindCmd {}
    let w := seqWho s 2
    (coreAt s 2).qs = bindCmd :: [] ∧ asyRefusal s w bindCmd = none ∧ (parseCtx bindCmd.desc).isSome = true ∧ (asyAt s 0).run.isSome = false ∧
    parseCtx (bytesWith 256 [(16, 17)]) = none ∧ asyRefusal s w statCmd = none ∧ SMap.get 7 s.own.su 0 = w.part ∧ SMap.get 7 s.own.su 3 = w.part ∧
    (seqWrite s w statCmd.ra.toNat (ctxBytes {})).res.status ≠ 6 := by decide +kernel
theorem test_w_sequence_run : let s := binding runCmd { bound := true }
    let w := seqWho s 2
    asyRefusal s w runCmd = none ∧
    (match parseRun runCmd.desc with
     | some r => (runRefusal s w r 0 0).isNone && runRefusal (binding runCmd {}) w r 0 0 == some 0x15 && runRefusal (binding runCmd { bound := true, retired := true }) w r 0 0 == some 0x16
     | none => false) = true ∧ (asyAt (asying asyRun) 0).run.isSome = true := by decide +kernel

/-! ## More forms and corners -/

/-- An access of 16 bytes that crosses a line of 128 bytes is performed in parts where the plan says which one; the page's registers
are 64-bit words at multiples of 8. -/
theorem test_w_parts : partOf (at2 .c { ec := { reply := { part := some 0 } } }) [(pairAt 120, 16)] ≠ none ∧ partOf (at2 .c) [(pairAt 120, 16)] = none ∧
    queuePageAt pageCore (9 * 2 ^ 48 + 72) 4 = some 72 ∧ queuePageAt pageCore (9 * 2 ^ 48 + 76) 8 = some 76 ∧ (76 : Nat) % 8 ≠ 0 := by decide +kernel
/-- An atomic of the Foreman on its queue page; a probe of a page whose PTE fails its check, and of an aperture. -/
theorem test_w_page_atomic : (match xlateRange pageCore (curWho pageCore .core) .a false (9 * 2 ^ 48 + 64) 8 with
      | .ok l => l.all (fun k => inPage k && !badByte pageCore k) && (badWrite pageCore l).isNone | _ => false) = true := by decide +kernel
def failingPte : State :=
  { at2 .c with stage := 3, ht := [(htKey 0 0 7, some { kind := 1, ext := 2 ^ 21 })], mem := [(0, 1)], bad := [(0, true)] }
theorem test_w_probe_checks : xlateByte failingPte { curWho failingPte .core with agent := probeAgent 1 } .r false (7 * 2 ^ 48) = .error (.check 0) ∧
    (let s := { at2 .c with stage := 3, wins := [(0, { on := true, apsize := 4096 })], ht := [(htKey 0 0 7, some { kind := 1, ext := 2 ^ 21 })],
                            mem := [(0, 1), (5, 1)] }
     match xlateByte s { curWho s .core with agent := probeAgent 1 } .a false (7 * 2 ^ 48) with
     | .ok k => decide (apBase ≤ k ∧ k < apTop) | _ => false) = true := by decide +kernel
/-- Numbers, infinities and NaNs of the three formats, and operands for each case of R49 and R186. -/
theorem test_w_values : formats = [fmt32, fmtBf, fmt16] ∧ fpDecode fmt32 0x3F800000 = .fin false (2 ^ 23) (-23) ∧ isZero (fpDecode fmt16 0x8000) = true ∧
    fpDecode fmtBf 0x7F80 = .inf false ∧ fpDecode fmt32 0xFF800001 = .nan true ∧ isFin (fpDecode fmt32 1) = true ∧
    (isInf (FpVal.inf true) && isZero (FpVal.fin false 0 0)) = true ∧ signOf (FpVal.inf true) ≠ signOf (FpVal.inf false) := by decide +kernel
theorem test_w_exact : exactOf (.fin false 1 0) = 1 ∧ exactOf (.fin true 1 0) = -1 ∧ exactOf (.fin true 2 0) < -1 ∧ 0 < exactOf (.fin false 1 (-3)) ∧
    exactOf (.fin false 1 0) + exactOf (.fin true 1 0) = 0 ∧ exactOf (.fin false 1 0) * exactOf (.fin false 3 1) ≠ 0 ∧ exactOf (.fin true 0 0) = 0 := by
  norm_num [exactOf]
/-- Products of a chunk: a NaN, infinities of one sign and of both, and finite ones whose sum is 0 and is not. -/
theorem test_w_chunk : (let p (l : List (Nat × Nat)) := l.map (fun x => (fpDecode fmtBf x.1, fpDecode fmtBf x.2));
    (p [(0x7F80, 0)]).any (fun x => isInf x.1 && isZero x.2) = true ∧ (p [(0x7F80, 0x3F80), (0xFF80, 0x3F80)]).length = 2 ∧
    (p [(0x3F80, 0x3F80), (0xBF80, 0x3F80)]).all (fun x => isFin x.1 && isFin x.2) = true) := by decide +kernel
/-- What the conversions of R60 and R196 give where the value is out of range, and elements that trap and that do not. -/
theorem test_w_trapping : (∃ e, e < 1024 ∧ ConvTraps .i8 1 (fun _ => true) (fun _ => convert .fp32 .i8 .rne .trap 0x7F800000) e) ∧
    (∀ e, e < 1024 → ¬ ConvTraps .i8 1 (fun _ => true) (fun _ => .ok { bits := 0 }) e) ∧
    (match quantise (.inf false) (fpDecode fmtBf 0x3F80) .trap with | .trap => true | _ => false) = true ∧
    (ETy.fp32, ETy.bf16) ∈ [(ETy.fp32, ETy.bf16), (.fp32, .fp16)] := by
  refine ⟨⟨0, by decide, rfl, 0, 0, by decide, by decide, by decide +kernel⟩, ?_, by decide +kernel, .head _⟩
  rintro e - ⟨-, r, k, -, -, h⟩
  cases h
/-- A full ring whose team's context has failed, and one whose records can still be read. -/
theorem test_w_complete_unread : let s := at2 .h { ql := [{ id := 0, op := .hcp, done := some {}, ring := 1 }], cq := [(1, mkCq 0 4 1 2)] }
    ¬ (cqLog (cqAt (coreAt s 2) 1) = 0 ∨ cqOut (cqAt (coreAt s 2) 1) < 2 ^ cqLog (cqAt (coreAt s 2) 1)) ∧ (teamAt s (coreAt s 2).tid).st = .running ∧
    s.stage = 0 ∧ { s with stage := 3 }.stage ≠ 0 ∧ (teamAt (upTeam s 0 (fun t => { t with st := .failed })) 0).st = .failed := by decide +kernel
/-- An engine at the join that core 2's tagged engine has left last. -/
theorem test_w_join_left : (coreAt (at2 .v { jlast := some (0, 1, 3) }) 2).jlast = some (0, 1, 3) := by decide
/-- Team 7 of priority 5 waits to be restored to core 2; there runs team 5 of priority 1, or none. -/
def returning (busy : Bool) (t : Team := {}) (c : Core := {}) : State :=
  { State.reset with
    teams := (if busy then [(5, { st := .running, cores := [2], prio := 1 })] else []) ++
      [(7, { t with st := .resuming, image := some [c], cores := [2], prio := 5, hasSlot := true })],
    cores := if busy then [(2, { tid := 5 })] else [(2, { tid := 0x3FF })] }
theorem test_w_restored : let s := returning false
    sweepTeams s = s ∧ candidates s = .team 7 :: [] ∧ restorable s (teamAt s 7) = true ∧ (teamAt s 7).image = some [{}] ∧ (teamAt s 7).cores.Nodup ∧
    (teamAt s 7).skip = false ∧ (teamAt (returning false { skip := true, trapCore := 0 }) 7).skip = true ∧
    (engSt { ec := { issued := true } } (engOfNum 0)).issued = true := by decide +kernel
theorem test_w_victims : let s := returning true
    (s.teams.map (fun p => p.1)).Pairwise (fun a b : Nat => a < b) ∧ (s.queues.map (fun p => p.1)).Pairwise (fun a b : Nat => a < b) ∧
    sweepTeams s = s ∧ candidates s = .team 7 :: [] ∧ (serve s (.team 7)).isNone = true ∧ victims s (.team 7) = [5] ∧
    victimsIn s 0 5 [] 14 0 = some [5] ∧ 7 ∈ s.teams.map (·.1) ∧ cndWaits s (.team 7) = true ∧ (teamAt s 7).prio < 32 := by decide +kernel
/-- A record that asks for the 14 cores of cluster 0 which the Foreman leaves, all other clusters being hot, and team 5 on one of them. -/
def crowded : State :=
  let r : Rec := { bytes := recWith [(8, 13), (10, 1), (12, 0x50), (14, 64)], runnable := true, total := some 1 }
  { withQueue (mapped State.reset) { queue4 with st := .active, outst := 1, rcd := some r } with
    teams := [(5, { st := .running, cores := [2] })], cores := [(0, { tid := 0x3FE }), (1, { tid := 0x3FE }), (2, { tid := 5 })],
    clusters := (List.range 19).map (fun i => (i + 1, { hot := true })) }
theorem test_w_record_victims : (match (queueAt crowded 0).rcd with
    | some r => couldHold crowded r 0 0 && !(clusterAt crowded 0).hot && victimsIn crowded 0 (recPrio r) [] (recSize r) (recNbar r) == some [5] &&
        victims crowded (.rcd 0) == [5] && launchable crowded 0 && decide (0 < recPrio r)
    | none => false) = true ∧
    keptAbove { crowded with kept := [(4, some (.rcd 0))] } 0 4 = true := by decide +kernel
/-- The signal word's block fails its check. -/
theorem test_w_signal_bad : let s := { completing [(82, 7), (85, 8)] with bad := [(256, true)] }
    badBlocks s (sigAddr 7 8) ((List.range 8).map (fun i => 16384 + i)) ≠ none := by decide +kernel
/-- A saved part, and the window of the pair store for one, of which a block fails its check. -/
theorem test_w_image_checks : failedFrom { fm 5 with bad := [(ctxBase / 64, true)] } (ctxBase + partPlace {} 16) headerSize = 0 :: [] ∧
    failedFrom (fm 5) (ctxBase + partPlace {} 16) headerSize = [] ∧
    (failedFrom { fm 5 with bad := [(pairBase / 64, true)] } pairBase headerSize).head? = some 0 := by decide +kernel
/-- A plane region of one tile of one bit-plane, created on a module without regions: there is a block for its page and for both copies of
its scale page, wherever the search for them begins. -/
def smallBytes : List (Nat × Nat) := [(4, 1), (6, 1), (8, 1), (12, 1)]
def smallRegion : Region :=
  { part := 0, layout := 0, planes := 1, fastn := 0, smask := 1, rtype := 0, nrows := 1, ncols := 1, soft := false }
theorem test_w_create_room : let p := fmDesc smallBytes
    let u := reserveBlocks (setRegion { p with free := p.free + 1 } 0 (some smallRegion)) 0 smallRegion
    let r1 := (regionAt u 0).getD smallRegion
    descIs p 64 (fun l => createOk l && createRegion l == smallRegion && decide (dNat l 0 2 = 0)) = true ∧
    planeLoad p smallRegion ≤ 8028 ∧ allReserved r1 = true ∧ noSpace p smallRegion r1 = false ∧ noSpace p smallRegion smallRegion = true := by
  intro p u r1
  have hall : allReserved r1 = true := by
    let s0 := setRegion { p with free := p.free + 1 } 0 (some smallRegion)
    obtain ⟨b, h1⟩ := reservePage_takes s0 smallRegion 0 0 rfl rfl (by decide)
    let r2 : Region := { smallRegion with map := SMap.set 0 smallRegion.map (8 * 0 + 0) (b + 1) }
    obtain ⟨k, hk, h2⟩ := reserveScale_takes (setRegion { s0 with free := s0.free + 1 } 0 (some r2)) r2 0 0 0 rfl rfl rfl
      (by simp [r2, smallRegion, SMap.set, SMap.put]) rfl
    let r3 : Region := { r2 with smap := SMap.set 0 r2.smap (scaleKey 0 0 0) k }
    let s3 := setRegion { setRegion { s0 with free := s0.free + 1 } 0 (some r2) with free := s0.free + 1 + 1 } 0 (some r3)
    obtain ⟨j, hj, h3⟩ := reserveScale_takes s3 r3 0 0 1 rfl rfl rfl
      (by simp [r3, r2, smallRegion, SMap.set, SMap.put, hk])
      (by simp [r3, r2, smallRegion, SMap.set, SMap.put, SMap.get, hk, scaleKey])
    have hu : u = reserveScale 0 (reserveScale 0 (reservePage 0 s0 0 0) 0 0 0) 0 0 1 := by
      have e1 : List.range (regTiles smallRegion) = [0] := by decide +kernel
      have e2 : List.range (regPages smallRegion) = [0] := by decide +kernel
      have e3 : List.range (scaleTables smallRegion) = [0] := by decide +kernel
      have e4 : stacksOf smallRegion.smask = [0] := by decide +kernel
      simp only [u, reserveBlocks, reserveScales, e1, e2, e3, e4, List.foldl_cons, List.foldl_nil, s0]
    have hr : r1 = { r3 with smap := SMap.set 0 r3.smap (scaleKey 0 0 1) j } := by
      show (regionAt u 0).getD smallRegion = _
      rw [hu, h1, h2]
      show (regionAt (reserveScale 0 s3 0 0 1) 0).getD smallRegion = _
      rw [h3]
      simp [regionAt, setRegion]
    rw [hr]
    simp [allReserved, r3, r2, smallRegion, regTiles, regPages, scaleTables, regRows, stacksOf, scaleKey, SMap.set, SMap.put, SMap.get, hk, hj, List.range_succ]
  refine ⟨by decide +kernel, by decide +kernel, hall, ?_, by decide +kernel⟩
  have hp : planeLoad p smallRegion = 1 := by decide +kernel
  simp [noSpace, hall, hp, planePages, surePages, spareBlocks]
/-- A shootdown over 10 ms of age, one that lost its module and one whose module has not answered. -/
theorem test_w_shoot_late : let x : Shoot := { core := 0, part := 0, ids := [4] }
    let s : State := { fm 0 with shoot := some x, tick := 20000, reqs := [{ id := 4, port := some 1, home := 2, kind := .control, who := .shoot, addr := 0, len := 8 }] }
    shootWaits s x = false ∧ stillOut s x.ids = true ∧ shootWaits { s with tick := 19999 } x = true := by decide
/-- A later wave of the same stamp on the same stack, an earlier one that has not begun, and planes that are held. -/
theorem test_w_wave_order : let y : Cmd := { lastPlane with stamp := some 1, ord := 2, started := true }
    let s := setCore { adding with cores := [(2, { qd := [y] })] } 3 { qd := [{ lastPlane with stamp := some 1, ord := 1 }] }
    startsAfter s y 0 = true ∧ startsAfter s { y with ord := 0 } 0 = false ∧ y.op = .sacc ∧ y.stamp.isSome = true := by decide +kernel
theorem test_w_page_later : let c : Cmd := { senseCmd with started := true, wave := { plane := 1, blks := [4, 5] } }
    let s := { sensing 1 with cores := [(2, { qd := [c] })] }
    lodeRefusal s 2 c = none ∧ c.wave.plane ≠ 0 ∧ c.wave.plane < (readUnits planeRegion c).2 ∧
    disturbLimit (isFast planeRegion 1) ≤ (blockAt { s with blocks := [(blockKey 0 0 0 5, { disturb := disturbLimit (isFast planeRegion 1) })] }
      (blockKey 0 0 0 (c.wave.blks.getD 1 0))).disturb := by decide +kernel
/-- A block that is due: at the mount once it has been read, or for its retries; with spares and without. -/
theorem test_w_refresh_due_mount : let s := { State.reset with stage := 2, scanned := [(blockKey 0 0 0 3, true)], blocks := [(blockKey 0 0 0 3, { retries := 16 })], spares := [(planeKey 0 0 0, 163)] }
    SMap.get false s.scanned (blockKey 0 0 0 3) = true ∧ 16 ≤ (blockAt s (blockKey 0 0 0 3)).retries ∧ 163 ≤ SMap.get 0 s.spares (planeKey 0 0 0) ∧
    SMap.get 0 State.reset.spares (planeKey 0 0 0) < 163 ∧ (1 : Nat) ∉ usedBlocks s 0 0 0 ∧ s.tick % 64 = 0 := by decide +kernel
/-- Links: a module of a system of four, its other ports down; one joined already; a dead one. -/
theorem test_w_train_more : let s := { State.reset with stage := 2, modCount := 4, ports := [(1, { up := true, peer := 2 })] }
    (3 : Nat) < s.modCount ∧ 3 ≠ s.modNum ∧ (portAt s 0).dead = false ∧ (portAt s 0).up = false ∧
    ((portAt s 1).up = true ∧ (portAt s 1).peer = 2) ∧ s.order4T ≠ 1 ∧ (portAt (linked .read) 1).up = true ∧
    (∃ r ∈ { linked .control with reqs := [{ id := 9, port := some 1, home := 2, kind := .control, who := .shoot, addr := 0, len := 8 }] }.reqs,
      r.port = some 1 ∧ r.who = .shoot) := by
  refine ⟨by decide, by decide, by decide, by decide, by decide, by decide, by decide, _, .head _, by decide⟩
/-- The Lode's blocks are all read at the mount where none of its pages stands, and a region's block that is not yet. -/
theorem test_w_mount : mountDone { State.reset with stage := 2 } = true ∧
    mountDone { State.reset with stage := 2, regions := [(0, some { rowRegion with map := [(0, 4)] })] } = false := by
  decide +kernel
/-- A write of the peer whose second byte's block fails a check in memory, one of an own place that fails its own, and one that is not shadowed. -/
theorem test_w_flit_more : let s := peered {}
    badWrite { s with bad := [(2 ^ 22 / 64, true)] } [2 ^ 22, 2 ^ 22 + 1] = some (2 ^ 22) ∧ (flitFails { goodFlit 64 [1, 2] with checks := [0] }).head? = some 1 ∧
    ({ goodFlit 64 [1, 2] with link := true }.link = true ∧ linkPlace s (64 / 2 ^ 21) = none) ∧ ownRange s 64 2 = true ∧
    (∃ r ∈ (linked .read).reqs, r.kind = .read) ∧ badByte { s with bad := [(2 ^ 22 / 64, true)] } (2 ^ 22) = true := by
  refine ⟨by decide +kernel, by decide +kernel, ⟨rfl, by decide +kernel⟩, by decide +kernel, ⟨_, .head _, rfl⟩, by decide +kernel⟩
/-- The answer of a link command's last request, read data of which a block fails its check, and a command that stands ahead on the port. -/
theorem test_w_flit_command : let c : Cmd := { sendCmd with sent := true, done := some {}, reply := { tags := [9] } }
    let s := { peered { qs := [c] } with reqs := [{ id := 9, port := some 1, home := 2, kind := .write, who := .cmd 2 .store 0, addr := 64, len := 4 }] }
    Taken s 1 peerFlit ∧ (reqByTag s 1 [.write, .reduce, .control] 9).map (fun x => x.who) = some (.cmd 2 .store 0) ∧
    (1 : Nat) ∈ flitFails { peerFlit with checks := [0] } ∧ c.reply.tags ≠ [] := by unfold Taken; decide +kernel
theorem test_w_ahead : let x : Cmd := { sendCmd with stamp := some 1, started := true, stick := 1 }
    let c : Cmd := { x with stick := 2 }
    let s := peered { qs := [c] }
    let s := { s with cores := s.cores ++ [(3, { tid := 0, qs := [x] })] }
    AtHead s 2 .store c [] ∧ x.stick < c.stick ∧ linkPort s (linkWho s 2) (linkDst c) = some 1 ∧ linkPort s (linkWho s 3) (linkDst x) = some 1 := by
  unfold AtHead; decide +kernel
/-- A read of the host in its reach over a block that fails; requests to reload of a function's region and of another's. -/
theorem test_w_reloads : let s := { commanded 1 3 with regions := [(0, some planeRegion), (1, some { planeRegion with part := 1 })], reloads := [(1, 5, 1), (0, 4, 1)] }
    MbGo s 1 3 false 3 ∧ (∃ x, regionAt s 0 = some x ∧ x.part = 1 - 1) ∧ (∃ x, regionAt s 1 = some x ∧ x.part ≠ 1 - 1) := by
  refine ⟨by unfold MbGo MbFirst; decide, ⟨_, rfl, rfl⟩, ⟨_, rfl, by decide⟩⟩
theorem test_w_host_read_bad : InBar2 { mapped State.reset with bad := [(64, true)] } 0 4096 8 ∧
    badByte { mapped State.reset with bad := [(64, true)] } (4096 + 3) = true := by
  refine ⟨⟨rfl, by decide, by decide, ?_⟩, by decide +kernel⟩
  rintro k (rfl | rfl) <;> decide
/-! A turn of a part, one of the mount's scan, and a good state within its bounds that steps. -/
theorem test_w_part_turn : let s := plan (.part 2 .c 0)
    (match engineTurn 2 .c { upCurEng (onEng { s with sched := [] } 2 .c) (fun e => { e with reply := { e.reply with part := some 0 } }) with cur := s.cur } with
     | .next _ => true | _ => false) = true ∧ (curTeam (onEng s 2 .c)).st = .running ∧ State.reset.stage ≠ 2 := by decide +kernel
theorem test_bounded_reset : { State.reset with sched := [.event .tickAdvance] }.Bounded ∧ ∃ t, step { State.reset with sched := [.event .tickAdvance] } = .next t :=
  ⟨⟨fun _ => ⟨fun _ => Nat.zero_le _, fun g => by cases g <;> exact ⟨Nat.zero_le _, Nat.zero_le _⟩, fun q => by cases q <;> exact Nat.zero_le _⟩, fun _ _ _ h => by cases h⟩, _, rfl⟩

end Sys2Proof.Machine.Slice0Tests
end

section
/-! PROOFS. A step and its turns: what each kind of turn does with the word, the command or the error it finds (R6, R19–R41, R270). -/

namespace Sys2Proof.Machine

/-! ## A step takes the plan's next turn -/

/-- A step takes the first turn of the plan in the state without it. -/
theorem step_of_sched {s : State} {t : Turn} {rest : List Turn} (h : s.sched = t :: rest) :
    step s = takeTurn t { s with sched := rest } := by
  simp only [step, nextTurn, h]

/-! ## The turn of an engine -/

theorem engineTurn_noSuchCore {core : Nat} (g : Eng) (s : State) (h : 320 ≤ core) :
    engineTurn core g s = .fault (.noSuchCore core) := if_pos h

/-- The engine's team runs, or it halts with a word of the engine in flight (R315 step 4). -/
def Goes (t : State) : Prop := (curTeam t).st = .running ∨ ((curTeam t).st = .halting ∧ engInFlight t = true)

/-- The test by which an engine's turn lets it move. -/
theorem goes_iff (t : State) : Goes t ↔ ((curTeam t).st == .running || ((curTeam t).st == .halting && engInFlight t)) = true := by
  simp [Goes]

section
variable {core : Nat} {g : Eng} {s t : State} (ht : onEng s core g = t) (hc : core < 320)
include ht hc

theorem engineTurn_still (h : ¬ Goes t ∨ (curEng t).retired = true) : engineTurn core g s = .next t := by
  subst ht
  simp only [engineTurn, if_neg (Nat.not_le.mpr hc)]
  refine if_pos ?_
  rw [goes_iff, Bool.not_eq_true] at h
  rw [Bool.or_eq_true, Bool.not_eq_true']
  exact h

variable (hgo : Goes t) (hret : (curEng t).retired = false)
include hgo hret

theorem engineTurn_header (hx : (curEng t).sec = none) : engineTurn core g s = .next (headerStep t) := by
  subst ht
  simp only [engineTurn, if_neg (Nat.not_le.mpr hc), (goes_iff _).mp hgo, hret, hx, Bool.not_true, Bool.or_false, Bool.false_eq_true, if_false]

variable {x : Sec} (hx : (curEng t).sec = some x)
include hx

theorem engineTurn_sectionEnd (he : secEnd x ≤ (curEng t).pc) : engineTurn core g s = .next (retireTile t core g) := by
  subst ht
  simp only [engineTurn, if_neg (Nat.not_le.mpr hc), (goes_iff _).mp hgo, hret, hx, Bool.not_true, Bool.or_false, Bool.false_eq_true, if_false,
    if_pos he]

variable (he : (curEng t).pc < secEnd x)
include he

theorem engineTurn_lastPush (ha : (curEng t).rst.active = true) (hp : (curEng t).pushpend = true) (h0 : (curEng t).rst.remain = 0) :
    engineTurn core g s = .next (afterWord t (repPush t) .seq) := by
  subst ht
  simp only [engineTurn, if_neg (Nat.not_le.mpr hc), (goes_iff _).mp hgo, hret, hx, Bool.not_true, Bool.or_false, Bool.false_eq_true, if_false,
    if_neg (Nat.not_le.mpr he), ha, hp, h0, Bool.true_and, beq_self_eq_true, if_true]

theorem engineTurn_word (h : (curEng t).rst.active = false ∨ (curEng t).pushpend = false ∨ (curEng t).rst.remain ≠ 0) :
    engineTurn core g s = wordTurn t := by
  have hb : ((curEng t).pushpend && (curEng t).rst.active && (curEng t).rst.remain == 0) = false := by
    rcases h with h | h | h <;> simp [h]
  subst ht
  simp only [engineTurn, if_neg (Nat.not_le.mpr hc), (goes_iff _).mp hgo, hret, hx, Bool.not_true, Bool.or_false, Bool.false_eq_true, if_false,
    if_neg (Nat.not_le.mpr he), hb]
end

/-! ## The word at PC -/

/-- Whether the word is one of the three that post a steer target, by its opcode's value (R28, R118). -/
theorem postingOp_iff (b : BitVec 8) : [0x41, 0x42, 0x43].contains b.toNat = true ↔ b = 0x41#8 ∨ b = 0x42#8 ∨ b = 0x43#8 := by
  have h (k : Nat) (hk : k < 2 ^ 8) : b.toNat = k ↔ b = BitVec.ofNat 8 k :=
    ⟨fun e => BitVec.eq_of_toNat_eq (by rw [e, BitVec.toNat_ofNat, Nat.mod_eq_of_lt hk]), fun e => by rw [e, BitVec.toNat_ofNat, Nat.mod_eq_of_lt hk]⟩
  simp [h]

/-- A word may stand at PC unless it closes a steer section without posting (R28). -/
theorem steerTail_iff (s : State) (g : Eng) (r : RawWord) :
    steerTail s g r = true ↔ ¬ (g = .c ∧ secKind s = 1 ∧ lastWord s = true) ∨ r.op = 0x41#8 ∨ r.op = 0x42#8 ∨ r.op = 0x43#8 := by
  rw [← postingOp_iff]
  simp only [steerTail, Bool.or_eq_true, Bool.not_eq_true', Bool.and_eq_false_iff]
  simp [beq_eq_false_iff_ne]
  tauto

theorem wordTurn_fetchFails {s : State} {f : FInfo} (h : fetchText s (curEng s).pc 12 = .error f) :
    wordTurn s = .next (fatalHere (fetchReport s (curWho s .core) 0 f (textFails s (curEng s).pc 12)) f) := by
  simp only [wordTurn, curWord, h]

section
variable {s : State} {l : List Byte} (h : fetchText s (curEng s).pc 12 = .ok l)
include h

theorem curWord_idle (ha : (curEng s).rst.active = false) : curWord s = .ok (unpackWord (BitVec.ofNat 96 (leNat l))) := by
  simp [curWord, h, ha]

theorem curWord_repeating (ha : (curEng s).rst.active = true) :
    curWord s = .ok (stepWord (unpackWord (BitVec.ofNat 96 (leNat l))) (curEng s).rst) := by
  simp [curWord, h, ha]
end

section
variable {s : State} {r : RawWord} (hw : curWord s = .ok r)
include hw

theorem wordTurn_badTail (ht : steerTail s s.cur.eng r = false) : wordTurn s = .next (fatalHere s fIllegal) := by
  simp [wordTurn, hw, ht]

theorem wordTurn_exec {i : Instr} (ht : steerTail s s.cur.eng r = true) (hd : decodeRaw s.cur.eng r = .ok i) : wordTurn s = exec i s := by
  simp [wordTurn, hw, ht, hd]

theorem wordTurn_illegal {e : DecodeError} (ht : steerTail s s.cur.eng r = true) (hd : decodeRaw s.cur.eng r = .error e) :
    wordTurn s = .next (fatalHere s fIllegal) := by
  simp [wordTurn, hw, ht, hd]
end

/-- What an engine's turn does at a word outside a repeat. -/
theorem wordTurn_onEng_idle (s : State) (core : Nat) (g : Eng) (ha : (curEng (onEng s core g)).rst.active = false) :
    let t := onEng s core g
    (∀ f, fetchText t (curEng t).pc 12 = .error f →
      wordTurn t = .next (fatalHere (fetchReport t (curWho t .core) 0 f (textFails t (curEng t).pc 12)) f)) ∧
    ∀ l, fetchText t (curEng t).pc 12 = .ok l →
      let w : BitVec 96 := BitVec.ofNat 96 (leNat l)
      let posts := g = .c ∧ secKind t = 1 ∧ lastWord t = true
      let ends := w.extractLsb' 88 8 = 0x41#8 ∨ w.extractLsb' 88 8 = 0x42#8 ∨ w.extractLsb' 88 8 = 0x43#8
      (posts → ¬ ends → wordTurn t = .next (fatalHere t fIllegal)) ∧
      (¬ posts ∨ ends → (∀ i, decode g w = .ok i → wordTurn t = exec i t) ∧
        (∀ e, decode g w = .error e → wordTurn t = .next (fatalHere t fIllegal))) := by
  intro t
  refine ⟨fun f h => wordTurn_fetchFails h, fun l h => ?_⟩
  intro w posts ends
  have hw := curWord_idle h ha
  have ht := steerTail_iff t g (unpackWord w)
  refine ⟨fun hp he => wordTurn_badTail hw ?_, fun hpe => ?_⟩
  · exact Bool.eq_false_iff.mpr fun h => (ht.mp h).elim (· hp) he
  · exact ⟨fun i hd => wordTurn_exec hw (ht.mpr hpe) hd, fun e hd => wordTurn_illegal hw (ht.mpr hpe) hd⟩

/-! ## The turn of an Assayer -/

theorem asyTurn_fetchFails {s : State} {u : Nat} {r : Run} {x : Stop} (hr : (asyAt s u).run = some r)
    (h : fetchAsy { s with asyCur := u } r = .error x) : asyTurn s u = .next (endRun { s with asyCur := u } u r x 0) := by
  have hr' : (asyAt { s with asyCur := u } u).run = some r := hr
  simp only [asyTurn, hr', h]

theorem asyTurn_exec {s : State} {u : Nat} {r : Run} {w : W32} {i : Instr} (hr : (asyAt s u).run = some r)
    (h : fetchAsy { s with asyCur := u } r = .ok w) (hd : decodeAsy w = some i) : asyTurn s u = exec i { s with asyCur := u } := by
  have hr' : (asyAt { s with asyCur := u } u).run = some r := hr
  obtain ⟨hok, hb⟩ := Option.ite_none_right_eq_some.mp hd
  simp only [asyTurn, hr', h, hok, if_true, asyExec_eq_exec hb]

/-- The variant of a word that has two is named by its immediate (R271). -/
theorem imm_le_one_of_asyWordOk {r : AsyRaw} (h : asyWordOk r = true) (ho : r.op.toNat ∈ [0x05, 0x0F, 0x17, 0x18]) : r.imm.toNat ≤ 1 := by
  by_cases h0 : r.imm = 0#14
  · simp [h0]
  · simp only [List.mem_cons, List.not_mem_nil, or_false] at ho
    obtain e | e | e | e := ho <;> simpa [asyWordOk, e, h0] using h

/-- Fields that pass the checks of R270 and R271 name an operation. -/
theorem buildAsy_ne_none {r : AsyRaw} (h : asyWordOk r = true) : buildAsy r ≠ none := by
  intro hn
  have himm := imm_le_one_of_asyWordOk h
  unfold buildAsy at hn
  split at hn <;> try split at hn
  all_goals try cases hn
  case h_4.refl e _ h0 h1 h2 =>
    have hbr : (BitVec.extractLsb' 12 2 r.imm).toNat ≤ 2 := by
      simp only [asyWordOk, e, Bool.and_eq_true, decide_eq_true_eq] at h
      exact h.1.2
    obtain e | e | e := (by omega : (BitVec.extractLsb' 12 2 r.imm).toNat = 0 ∨ (BitVec.extractLsb' 12 2 r.imm).toNat = 1 ∨
      (BitVec.extractLsb' 12 2 r.imm).toNat = 2)
    exacts [h0 e, h1 e, h2 e]
  case h_28.refl =>
    simp [asyWordOk, *] at h
  all_goals
    rename_i e _ h0 h1
    exact (Nat.le_one_iff_eq_zero_or_eq_one.mp (himm (by rw [e]; decide))).elim h0 h1

theorem asyTurn_illegal {s : State} {u : Nat} {r : Run} {w : W32} (hr : (asyAt s u).run = some r)
    (h : fetchAsy { s with asyCur := u } r = .ok w) (hd : decodeAsy w = none) :
    asyTurn s u = .next (endRun { s with asyCur := u } u { r with count := r.count + 1 } { status := stAsyill } 0) := by
  have hr' : (asyAt { s with asyCur := u } u).run = some r := hr
  have hok : asyWordOk (unpackAsy w) = false := by
    by_contra hc
    rw [Bool.not_eq_false] at hc
    exact buildAsy_ne_none hc (by simpa [decodeAsy, hc] using hd)
  simp only [asyTurn, hr', h, hok, Bool.false_eq_true, if_false]
  exact asyWord_fail hr' rfl

/-! ## Turns of errors, parts and events -/

theorem dramError_absent {s : State} {pa : Nat} (lost : Bool) (h : dramGroups s ≤ pa / 2 ^ 37) : dramError s pa lost = s :=
  if_neg (Nat.not_lt.mpr h)

theorem holdReport_fqHeld (s : State) (r : FRec) (h : s.fqHeld.length < 64) : (holdReport s r).fqHeld = s.fqHeld ++ [r] := by
  rw [holdReport, if_pos h]

/-- A report changes the fault queue alone. -/
theorem holdReport_bad (s : State) (r : FRec) : (holdReport s r).bad = s.bad := by
  unfold holdReport; split <;> [rfl; split <;> rfl]

theorem holdReport_mem (s : State) (r : FRec) : (holdReport s r).mem = s.mem := by
  unfold holdReport; split <;> [rfl; split <;> rfl]

/-- The record of a block of LPDDR-6 that fails its check: which of its group's channels it names is free (log 90). -/
def lostRec (s : State) (pa : Nat) : FRec :=
  { cls := 2, code := 2, info := 16 * (pa / 2 ^ 37) + (Config.freeWord s.free).toNat % 16, addr := pa / 64 * 64, len := 64, tick := s.tick }

theorem dramError_lost {s : State} {pa : Nat} (h : pa / 2 ^ 37 < dramGroups s) :
    dramError s pa true = holdReport { s with free := s.free + 1, bad := SMap.set false s.bad (pa / 64) true } (lostRec s pa) := by
  simp only [dramError, if_pos h, if_true]; rfl

theorem partTurn_still {core : Nat} {g : Eng} (i : Nat) {s : State} (hc : core < 320) (h : (curTeam (onEng s core g)).st ≠ .running)
    (hf : engInFlight (onEng s core g) = false) : partTurn core g i s = .next s := by
  simp [partTurn, Nat.not_le.mpr hc, h, hf]

theorem mountScan_outsideM {s : State} (blk : Nat) (h : s.stage ≠ 2) : mountScan s blk = s := by
  simp [mountScan, h]

theorem takeTurn_event {i : Instr} (he : encode i = none) (ha : encodeAsy i = none) (s : State) :
    takeTurn (.event i) s = if WellFormed .c i then exec i s else .next s := by
  have he' : encodeRaw i = none := Option.map_eq_none_iff.mp he
  have ha' : encodeAsyRaw i = none := Option.map_eq_none_iff.mp ha
  simp only [takeTurn, WellFormed, he', ha', Option.isNone_none, Bool.true_and]

theorem partTurn_noSuchCore {core : Nat} (g : Eng) (i : Nat) (s : State) (h : 320 ≤ core) :
    partTurn core g i s = .fault (.noSuchCore core) := if_pos h

/-- An engine whose next part of an access is named, or is none. -/
def markPart (core : Nat) (g : Eng) (n : Option Nat) (s : State) : State :=
  { upCurEng (onEng s core g) (fun e => { e with reply := { e.reply with part := n } }) with cur := s.cur }

theorem partTurn_goes {core : Nat} {g : Eng} {i : Nat} {s u : State} (hc : core < 320)
    (h : (curTeam (onEng s core g)).st = .running ∨ engInFlight (onEng s core g) = true)
    (hu : engineTurn core g (markPart core g (some i) s) = .next u) : partTurn core g i s = .next (markPart core g none u) := by
  have hb : ((curTeam (onEng s core g)).st == .running || engInFlight (onEng s core g)) = true := by simpa using h
  simp only [markPart] at hu ⊢
  simp only [partTurn, if_neg (Nat.not_le.mpr hc), hb, if_true, hu]

/-- What a turn of an engine does, by the state it finds. -/
theorem engineTurn_cases (s : State) (core : Nat) (g : Eng) (hc : core < 320) :
    let t := onEng s core g
    (¬ Goes t ∨ (curEng t).retired = true → engineTurn core g s = .next t) ∧
    (Goes t → (curEng t).retired = false →
      ((curEng t).sec = none → engineTurn core g s = .next (headerStep t)) ∧
      ∀ x, (curEng t).sec = some x →
        (secEnd x ≤ (curEng t).pc → engineTurn core g s = .next (retireTile t core g)) ∧
        ((curEng t).pc < secEnd x → (curEng t).rst.active = false → engineTurn core g s = wordTurn t) ∧
        ((curEng t).pc < secEnd x → (curEng t).rst.active = true →
          ((curEng t).pushpend = true → (curEng t).rst.remain = 0 → engineTurn core g s = .next (afterWord t (repPush t) .seq)) ∧
          ((curEng t).pushpend = false ∨ (curEng t).rst.remain ≠ 0 → engineTurn core g s = wordTurn t))) := by
  refine ⟨engineTurn_still rfl hc, fun hgo hret => ⟨engineTurn_header rfl hc hgo hret, fun x hx => ⟨engineTurn_sectionEnd rfl hc hgo hret hx, ?_, ?_⟩⟩⟩
  · exact fun he ha => engineTurn_word rfl hc hgo hret hx he (.inl ha)
  · exact fun he ha => ⟨engineTurn_lastPush rfl hc hgo hret hx he ha, fun h => engineTurn_word rfl hc hgo hret hx he (.inr h)⟩

/-- Settles O55: each turn by the lemma of its kind; a word outside a repeat by `wordTurn_onEng_idle`. -/
theorem aStepRunsTheDecodedWord : Obligations.AStepRunsTheDecodedWord := by
  intro s rest s0
  have turn {t : Turn} (h : s.sched = t :: rest) : step s = takeTurn t s0 := step_of_sched h
  refine ⟨fun core g h => ?engine, fun u r h hu => ?assayer, fun core k h => turn h, fun core q h => ?move, fun h => turn h,
    fun pa lost h hp => ?absent, fun pa h hp => ?lost, fun core g i h => ?part, fun blk h hm => ?scan, fun i h he ha => ?event⟩
  case engine =>
    have hs : step s = engineTurn core g s0 := turn h
    simp only [hs]
    refine ⟨engineTurn_noSuchCore g s0, fun hc => ?_⟩
    obtain ⟨hstill, hgoes⟩ := engineTurn_cases s0 core g hc
    refine ⟨hstill, fun hgo hret => ?_⟩
    obtain ⟨hhdr, hsec⟩ := hgoes hgo hret
    refine ⟨hhdr, fun x hx => ?_⟩
    obtain ⟨hend, hword, hrep⟩ := hsec x hx
    refine ⟨hend, fun he ha => ?_, fun he ha => ⟨(hrep he ha).1, fun hp l i hl ht hd => ?_⟩⟩
    · rw [hword he ha]; exact wordTurn_onEng_idle s0 core g ha
    · rw [(hrep he ha).2 hp]; exact wordTurn_exec (curWord_repeating hl ha) ht hd
  case assayer =>
    intro t hr
    have hs : step s = asyTurn s0 u := (turn h).trans (if_pos hu)
    simp only [hs]
    exact ⟨fun w i hf hd => asyTurn_exec hr hf hd, fun w hf hd => asyTurn_illegal hr hf hd, fun x hf => asyTurn_fetchFails hr hf⟩
  case move =>
    have hs : step s = .next (moveTurn core q s0) := turn h
    refine ⟨fun hq => ?_, fun c l hq => ?_⟩ <;> rw [hs, moveTurn, show getQ (coreAt s0 core) q = _ from hq]
  case absent =>
    exact (turn h).trans (congrArg Host.Outcome.next (dramError_absent (s := s0) lost hp))
  case lost =>
    refine ⟨dramError s0 pa true, turn h, ?_⟩
    rw [dramError_lost (s := s0) hp]
    simp only [holdReport_bad, holdReport_mem]
    refine ⟨SMap.get_set_same _ _ _ _, fun k hk => SMap.get_set_of_ne _ _ _ _ _ (Ne.symm hk), rfl, fun hlen => ?_⟩
    refine ⟨lostRec s0 pa, ?_, rfl, rfl, rfl, ?_⟩
    · exact holdReport_fqHeld _ _ (show s.fqHeld.length < 64 by omega)
    · simp only [lostRec]; omega
  case part =>
    have hs : step s = partTurn core g i s0 := turn h
    simp only [hs]
    exact ⟨partTurn_noSuchCore g i s0, fun hc => ⟨partTurn_still i hc, fun hgo u hu => partTurn_goes hc hgo hu⟩⟩
  case scan =>
    exact (turn h).trans (congrArg Host.Outcome.next (mountScan_outsideM (s := s0) blk hm))
  case event =>
    rw [turn h, takeTurn_event he ha]
    exact ⟨fun hw => if_pos hw, fun hw => if_neg (by simp [hw])⟩

end Sys2Proof.Machine
end

section
/-! PROOFS. The registers of a function page and of a queue: what a write of each changes (R335, R336, R393–R396). -/

namespace Sys2Proof.Machine

/-! ## The part of the state that a register stands in -/

theorem onlyFn_upFn (s : State) (fn : Nat) (f : Fn → Fn) : OnlyFn s (upFn s fn f) fn :=
  ⟨rfl, fun k hk => by rw [fnAt_upFn, if_neg (Ne.symm hk)]⟩

theorem onlyQueue_upQueue (s : State) (q : Nat) (f : Queue → Queue) : OnlyQueue s (upQueue s q f) q :=
  ⟨rfl, fun k hk => by rw [queueAt_upQueue, if_neg (Ne.symm hk)]⟩

/-! ## The registers of a function -/

section
variable {s : State} {fn off : Nat} {v : Word}

theorem exec_registerWrite (s : State) (fn off : Nat) (v : Word) : exec (.registerWrite fn off v) s = .next (writePage s fn off v) := rfl

theorem writePage_unaligned (h : off % 8 ≠ 0) : writePage s fn off v = s := by simp [writePage, h]

theorem writePage_beforeA (hs : s.stage ≠ 3) (ho : 0x200 ≤ off) : writePage s fn off v = s := by
  unfold writePage
  rw [if_neg (by omega : off ≠ 8), if_neg (by omega : off ≠ 0x100), if_neg (by omega : ¬ (0x108 ≤ off ∧ off < 0x148)), if_pos hs, ite_self]

theorem writePage_noRegister (h8 : off ≠ 8) (ho : off < 0x100 ∨ 0x148 ≤ off ∧ off < 0x200 ∨ 0x210 ≤ off ∧ off < 0x1000 ∨ 0x5000 ≤ off) :
    writePage s fn off v = s := by
  by_cases ha : off % 8 = 0
  · unfold writePage
    rw [if_neg h8, if_neg (by omega : off ≠ 0x100), if_neg (by omega : ¬ (0x108 ≤ off ∧ off < 0x148)), if_neg (by omega : off ≠ 0x200),
      if_neg (by omega : off ≠ 0x208), if_neg (by omega : ¬ (0x1000 ≤ off ∧ off < 0x5000)), ite_self, ite_self]
  · exact writePage_unaligned ha

variable (hp : s.powered = true)
include hp

theorem writePage_event : writePage s fn 8 v = upFn s fn (fun f => { f with event := f.event &&& ((v.toNat % 8) ^^^ 7) }) := by
  simp [writePage, hp]

theorem writePage_mbctl : writePage s fn 0x100 v = writeMbctl s fn v.toNat := by simp [writePage, hp]

theorem writePage_arg {i : Nat} (hi : i < 8) :
    writePage s fn (0x108 + 8 * i) v = upFn s fn (fun f => { f with args := SMap.set 0 f.args i v }) := by
  unfold writePage
  rw [if_neg (by simp [hp]), if_neg (by omega), if_neg (by omega), if_pos (by omega), show (0x108 + 8 * i - 0x108) / 8 = i by omega]

theorem writePage_sessctx (hs : s.stage = 3) : writePage s fn 0x200 v = upFn s fn (fun f => { f with sessctx := v.toNat % 64 }) := by
  simp [writePage, hp, hs]

theorem writePage_sessdb (hs : s.stage = 3) : writePage s fn 0x208 v = ringSession s fn v := by simp [writePage, hp, hs]

/-- A register of a queue that the function sees (R334). -/
theorem writePage_queue {q k : Nat} (hr : Reaches s fn q) (hq : q < 256) (hk : k < 8) (ho : off = 0x1000 + 64 * q + 8 * k) :
    writePage s fn off v = writeQueueReg s fn q k v := by
  obtain ⟨hs, hsees⟩ := hr
  unfold writePage
  rw [if_neg (by simp [hp]; omega), if_neg (by omega), if_neg (by omega), if_neg (by omega), if_neg (by simp [hs]), if_neg (by omega),
    if_neg (by omega), if_pos (by omega)]
  simp only [show (off - 0x1000) / 64 = q by omega, show off / 8 % 8 = k by omega, hsees, if_true]
end

/-- The bits of EVENT that a write leaves: those set that it does not write 1 (R395). -/
theorem testBit_clearEvent (e n i : Nat) : (e &&& ((n % 8) ^^^ 7)).testBit i = (e.testBit i && decide (i < 3) && !n.testBit i) := by
  have h7 : Nat.testBit 7 i = decide (i < 3) := Nat.testBit_two_pow_sub_one 3 i
  rw [Nat.testBit_and, Nat.testBit_xor, show n % 8 = n % 2 ^ 3 from rfl, Nat.testBit_mod_two_pow, h7]
  by_cases h : i < 3 <;> simp [h]

/-! ## The mailbox -/

/-- The function as a command is put into its mailbox, under the number `n` (R394). -/
def mailed (f : Fn) (v n : Nat) : Fn := { f with busy := true, seq := v / 2 ^ 24 % 256, cmd := v % 2 ^ 16, taken := f.args, arr := n }

theorem writeMbctl_busy {s : State} {fn : Nat} (v : Nat) (h : (fnAt s fn).busy = true) : writeMbctl s fn v = s := if_pos h

theorem writeMbctl_known {s : State} {fn v : Nat} (h : (fnAt s fn).busy = false) (hc : v % 2 ^ 16 ∈ mailboxCodes) :
    writeMbctl s fn v = upFn { s with mbNext := s.mbNext + 1 } fn (fun f => mailed f v s.mbNext) := by
  have hc : mailboxCodes.contains (v % 2 ^ 16) = true := List.contains_iff_mem.mpr hc
  simp only [writeMbctl, h, hc, Bool.false_eq_true, if_false, if_true, mailed]

theorem writeMbctl_unknown {s : State} {fn v : Nat} (h : (fnAt s fn).busy = false) (hc : v % 2 ^ 16 ∉ mailboxCodes) :
    writeMbctl s fn v = endMailbox (upFn { s with mbNext := s.mbNext + 1 } fn (fun f => mailed f v s.mbNext)) fn 1 := by
  have hc : mailboxCodes.contains (v % 2 ^ 16) = false := by simpa using hc
  simp only [writeMbctl, h, hc, Bool.false_eq_true, if_false, mailed]

theorem fnAt_endMailbox (s : State) (fn st k : Nat) :
    fnAt (endMailbox s fn st) k = if fn = k then { fnAt s fn with busy := false, status := st } else fnAt s k :=
  SMap.get_set _ _ _ _ _

theorem endMailbox_frame (s : State) (fn st : Nat) :
    endMailbox s fn st = { s with fns := (endMailbox s fn st).fns, irqOut := s.irqOut ++ [(fn, 0)] } := rfl

/-- A command in a mailbox that is not busy: under a code that names none it ends at once with BADCMD (R394). -/
theorem writeMbctl_starts {s : State} {fn v : Nat} (h : (fnAt s fn).busy = false) :
    let t := writeMbctl s fn v
    OnlyFn { s with mbNext := s.mbNext + 1 } t fn ∧
      fnAt t fn = (if v % 2 ^ 16 ∈ mailboxCodes then mailed (fnAt s fn) v s.mbNext
        else { mailed (fnAt s fn) v s.mbNext with busy := false, status := 1 }) ∧
      t.irqOut = if v % 2 ^ 16 ∈ mailboxCodes then s.irqOut else s.irqOut ++ [(fn, 0)] := by
  intro t
  have hf : fnAt { s with mbNext := s.mbNext + 1 } fn = fnAt s fn := rfl
  by_cases hc : v % 2 ^ 16 ∈ mailboxCodes
  · simp only [t, writeMbctl_known h hc, if_pos hc]
    exact ⟨onlyFn_upFn _ _ _, by rw [fnAt_upFn, if_pos rfl, hf], rfl⟩
  · simp only [t, writeMbctl_unknown h hc, if_neg hc]
    refine ⟨⟨rfl, fun k hk => ?_⟩, ?_, rfl⟩
    · rw [fnAt_endMailbox, if_neg (Ne.symm hk), fnAt_upFn, if_neg (Ne.symm hk)]
    · rw [fnAt_endMailbox, if_pos rfl, fnAt_upFn, if_pos rfl, hf]

/-! ## The doorbell of sessions (R396) -/

theorem ringSession_hands {s : State} {fn : Nat} (v : Word) (hs : s.stage = 3) (h : (partAt s (fnPart fn)).pend.length < 16) :
    ringSession s fn v = upPart s (fnPart fn) (fun x => { x with pend := x.pend ++ [(v, (fnAt s fn).sessctx)] }) := by
  simp only [ringSession, hs, if_neg (Nat.not_le.mpr h), ne_eq, not_true_eq_false, if_false]

theorem ringSession_noSlot {s : State} {fn : Nat} {v : Word} (hs : s.stage = 3) (h : 16 ≤ (partAt s (fnPart fn)).pend.length)
    (hv : v.toNat % 2 ^ 48 + 104 ≤ 2 ^ 48) :
    ringSession s fn v = devWrite s (devWho (fnPart fn) (fnAt s fn).sessctx) (v.toNat + 100) (leBytes 4 (3 + 6 * 2 ^ 16)) := by
  simp only [ringSession, hs, if_pos h, if_pos hv, ne_eq, not_true_eq_false, if_false]

/-! ## The registers of a queue (R335, R336) -/

section
variable (s : State) (fn q : Nat) (v : Word)

theorem writeQueueReg_qcfg : writeQueueReg s fn q 0 v = upQueue s q (fun x => if x.st == .disabled then writeQcfg fn x v else x) := rfl
theorem writeQueueReg_commit : writeQueueReg s fn q 2 v = upQueue s q (fun x => commitQ x v) := rfl
theorem writeQueueReg_ctrl : writeQueueReg s fn q 4 v = writeCtrl s q v.toNat := rfl
theorem writeQueueReg_cqcfg : writeQueueReg s fn q 5 v = upQueue s q (fun x => if x.st == .disabled then writeCqcfg x v else x) := rfl
theorem writeQueueReg_cqcnt : writeQueueReg s fn q 6 v =
    upQueue s q (fun x => if ackOk x.acked x.written (v.toNat / 2 ^ 32) then { x with acked := v.toNat / 2 ^ 32 } else x) := rfl
end

/-- QCFG takes every field as written, but LOG2D above 12, and PART of a virtual function's write (R335). -/
theorem writeQcfg_fields (fn : Nat) (x : Queue) (v : Word) : ∃ w : Word, writeQcfg fn x v = { x with qcfg := w } ∧
    w.toNat / 2 ^ 12 = v.toNat / 2 ^ 12 ∧ w.toNat % 64 = v.toNat % 64 ∧
    w.toNat / 256 % 16 = (if v.toNat / 256 % 16 ≤ 12 then v.toNat / 256 % 16 else x.qcfg.toNat / 256 % 16) ∧
    w.toNat / 64 % 4 = (if fn = 0 then v.toNat / 64 % 4 else x.qcfg.toNat / 64 % 4) := by
  have hv := v.isLt
  let d := if 13 ≤ v.toNat / 256 % 16 then x.qcfg.toNat / 256 % 16 else v.toNat / 256 % 16
  let p := if fn = 0 then v.toNat / 64 % 4 else x.qcfg.toNat / 64 % 4
  have hd : d < 16 := by simp only [d]; split <;> omega
  have hp : p < 4 := by simp only [p]; split <;> omega
  have hdv : d = if v.toNat / 256 % 16 ≤ 12 then v.toNat / 256 % 16 else x.qcfg.toNat / 256 % 16 := by
    simp only [d]; split <;> split <;> first | rfl | omega
  refine ⟨_, rfl, ?_⟩
  rw [← hdv, BitVec.toNat_ofNat]
  change (v.toNat / 2 ^ 12 * 2 ^ 12 + d * 256 + p * 64 + v.toNat % 64) % 2 ^ 64 / 2 ^ 12 = _ ∧
    (v.toNat / 2 ^ 12 * 2 ^ 12 + d * 256 + p * 64 + v.toNat % 64) % 2 ^ 64 % 64 = _ ∧
    (v.toNat / 2 ^ 12 * 2 ^ 12 + d * 256 + p * 64 + v.toNat % 64) % 2 ^ 64 / 256 % 16 = d ∧
    (v.toNat / 2 ^ 12 * 2 ^ 12 + d * 256 + p * 64 + v.toNat % 64) % 2 ^ 64 / 64 % 4 = p
  clear_value d p
  rw [Nat.mod_eq_of_lt (by omega)]
  omega

/-- CQCFG takes LOG2N from 2 to 12 and clears the bits above it (R335). -/
theorem writeCqcfg_fields (x : Queue) (v : Word) : ∃ w : Word, writeCqcfg x v = { x with cqcfg := w } ∧
    w.toNat / 2 ^ 12 = v.toNat / 2 ^ 12 ∧ w.toNat / 16 % 256 = 0 ∧
    w.toNat % 16 = (if 2 ≤ v.toNat % 16 ∧ v.toNat % 16 ≤ 12 then v.toNat % 16 else x.cqcfg.toNat % 16) := by
  have hv := v.isLt
  refine ⟨_, rfl, ?_⟩
  have hn : (if 2 ≤ v.toNat % 16 ∧ v.toNat % 16 ≤ 12 then v.toNat % 16 else x.cqcfg.toNat % 16) < 16 := by split <;> omega
  revert hn
  generalize (if 2 ≤ v.toNat % 16 ∧ v.toNat % 16 ≤ 12 then v.toNat % 16 else x.cqcfg.toNat % 16) = n
  intro hn
  rw [BitVec.toNat_ofNat, Nat.mod_eq_of_lt (by omega)]
  omega

theorem setCtrl_congr (s : State) (q : Nat) {v w : Nat} (h : v % 16 = w % 16) : setCtrl s q v = setCtrl s q w := by
  simp only [setCtrl, h]

theorem writeCtrl_enable {s : State} {q v : Nat} (h : v % 16 = 1) : writeCtrl s q v = enableQueue (setCtrl s q 1) q := by
  simp only [writeCtrl, show v % 8 = 1 by omega, setCtrl_congr s q (show v % 16 = 1 % 16 from h)]

theorem writeCtrl_destroy {s : State} {q v : Nat} (h : v % 8 = 2) :
    writeCtrl s q v = destroyQueue (setCtrl s q (if v / 8 % 2 == 1 then 10 else 2)) q (v / 8 % 2 == 1) := by
  have hc : v % 16 = (if v / 8 % 2 == 1 then 10 else 2) % 16 := by
    by_cases e : v / 8 % 2 = 1 <;> simp only [e, beq_iff_eq, if_true, if_false] <;> omega
  simp only [writeCtrl, h, setCtrl_congr s q hc]

theorem writeCtrl_other {s : State} {q v : Nat} (h1 : v % 8 ≠ 1) (h2 : v % 8 ≠ 2) : writeCtrl s q v = setCtrl s q v := by
  unfold writeCtrl
  split
  · next h => exact absurd h h1
  · next h => exact absurd h h2
  · rfl

theorem exec_commitWrite_reaches {s : State} {fn q : Nat} (v : Word) (h : Reaches s fn q) :
    exec (.commitWrite fn q v) s = .next (upQueue s q (fun x => commitQ x v)) := congrArg Host.Outcome.next (if_pos h)

theorem exec_queueEnable_reaches {s : State} {fn q : Nat} (h : Reaches s fn q) :
    exec (.queueEnable fn q) s = .next (enableQueue (setCtrl s q 1) q) := congrArg Host.Outcome.next (if_pos h)

theorem exec_queueDestroy_reaches {s : State} {fn q : Nat} (b : Bool) (h : Reaches s fn q) :
    exec (.queueDestroy fn q b) s = .next (destroyQueue (setCtrl s q (if b then 10 else 2)) q b) := congrArg Host.Outcome.next (if_pos h)

/-- A queue's registers, written by a function that sees the queue. -/
theorem queueRegisterWrites {s : State} {fn off q : Nat} {v : Word} (hp : s.powered = true) (hq : q < 256) (hr : Reaches s fn q) :
    let x := queueAt s q
    let reg (k : Nat) : Prop := off = 0x1000 + 64 * q + 8 * k
    let becomes (y : Queue) : Prop := ∃ t, exec (.registerWrite fn off v) s = .next t ∧ OnlyQueue s t q ∧ queueAt t q = y
    (reg 1 ∨ reg 3 ∨ reg 7 → exec (.registerWrite fn off v) s = .next s) ∧
    (reg 0 ∨ reg 5 → x.st ≠ .disabled → becomes x) ∧
    (reg 0 → x.st = .disabled → becomes (writeQcfg fn x v)) ∧
    (reg 5 → x.st = .disabled → becomes (writeCqcfg x v)) ∧
    (reg 6 → becomes (if ackOk x.acked x.written (v.toNat / 2 ^ 32) then { x with acked := v.toNat / 2 ^ 32 } else x)) ∧
    (reg 2 → exec (.registerWrite fn off v) s = exec (.commitWrite fn q v) s) ∧
    (reg 4 → exec (.registerWrite fn off v) s = .next (writeCtrl s q v.toNat)) := by
  intro x reg becomes
  have write {k : Nat} (hk : k < 8) (ho : reg k) : exec (.registerWrite fn off v) s = .next (writeQueueReg s fn q k v) := by
    rw [exec_registerWrite, writePage_queue hp hr hq hk ho]
  have becomes_of {k : Nat} {y : Queue} (f : Queue → Queue) (hk : k < 8) (ho : reg k) (hw : writeQueueReg s fn q k v = upQueue s q f)
      (hf : f x = y) : becomes y :=
    ⟨_, write hk ho, by rw [hw]; exact onlyQueue_upQueue s q f, by rw [hw, queueAt_upQueue, if_pos rfl]; exact hf⟩
  refine ⟨?_, ?_, fun h hd => ?_, fun h hd => ?_, fun h => ?_, fun h => ?_, fun h => ?_⟩
  · rintro (h | h | h) <;> exact write (by decide) h
  · rintro (h | h) hd <;> exact becomes_of _ (by decide) h rfl (if_neg (by simpa using hd))
  · exact becomes_of _ (by decide) h (writeQueueReg_qcfg s fn q v) (if_pos (by simpa using hd))
  · exact becomes_of _ (by decide) h (writeQueueReg_cqcfg s fn q v) (if_pos (by simpa using hd))
  · exact becomes_of _ (by decide) h (writeQueueReg_cqcnt s fn q v) rfl
  · rw [write (by decide) h, exec_commitWrite_reaches v hr, writeQueueReg_commit]
  · rw [write (by decide) h, writeQueueReg_ctrl]

/-- Settles O34: register by register, the queues' by `queueRegisterWrites`. -/
theorem functionPageWrites : Obligations.FunctionPageWrites := by
  intro s fn off v hp
  simp only [exec_registerWrite]
  refine ⟨?_, fun hs ho => ?_, ?_, ?_, ?_, ?_, ?_, ?_, ?_, fun q hq hr => ?_⟩
  · rintro (h | ⟨h8, h⟩ | h | h | h)
    · rw [writePage_unaligned h]
    · rw [writePage_noRegister h8 (.inl h)]
    · rw [writePage_noRegister (by omega) (.inr (.inl h))]
    · rw [writePage_noRegister (by omega) (.inr (.inr (.inl h)))]
    · rw [writePage_noRegister (by omega) (.inr (.inr (.inr h)))]
  · rw [writePage_beforeA hs ho]
  · rintro rfl
    rw [writePage_event hp]
    refine ⟨_, rfl, onlyFn_upFn _ _ _, rfl, fun i => ?_⟩
    rw [fnAt_upFn, if_pos rfl]
    exact testBit_clearEvent _ _ _
  · rintro i hi rfl
    rw [writePage_arg hp hi]
    refine ⟨_, rfl, onlyFn_upFn _ _ _, rfl, ?_⟩
    rw [fnAt_upFn, if_pos rfl]
    exact ⟨SMap.get_set_same _ _ _ _, fun j hj => SMap.get_set_of_ne _ _ _ _ _ (Ne.symm hj)⟩
  · rintro rfl hb
    rw [writePage_mbctl hp, writeMbctl_busy _ hb]
  · rintro rfl hb
    rw [writePage_mbctl hp]
    obtain ⟨honly, hfn, hirq⟩ := writeMbctl_starts (v := v.toNat) hb
    refine ⟨_, rfl, honly, ?_⟩
    rw [hfn, hirq]
    by_cases hc : v.toNat % 2 ^ 16 ∈ mailboxCodes
    · rw [if_pos hc, if_pos hc]
      exact ⟨rfl, rfl, rfl, rfl, ⟨fun _ => hc, fun _ => rfl⟩, fun h => absurd hc h⟩
    · rw [if_neg hc, if_neg hc]
      exact ⟨rfl, rfl, rfl, rfl, ⟨fun h => absurd h Bool.false_ne_true, fun h => absurd h hc⟩, fun _ => ⟨rfl, rfl⟩⟩
  · rintro rfl hs
    rw [writePage_sessctx hp hs]
    exact ⟨_, rfl, onlyFn_upFn _ _ _, rfl, by rw [fnAt_upFn, if_pos rfl]⟩
  · rintro rfl hs h
    rw [writePage_sessdb hp hs, ringSession_hands v hs h]
  · rintro rfl hs h hv
    rw [writePage_sessdb hp hs, ringSession_noSlot hs h hv]
  · obtain ⟨hro, hkept, hqcfg, hcqcfg, hcqcnt, hcommit, hctrl⟩ := queueRegisterWrites (off := off) (v := v) hp hq hr
    refine ⟨hro, hkept, fun h hd => ?_, fun h hd => ?_, fun h => ?_, hcommit, fun h h1 => ?_, fun h h2 => ?_, fun h h1 h2 => ?_⟩
    · obtain ⟨w, hw, hfields⟩ := writeQcfg_fields fn (queueAt s q) v
      exact ⟨w, hw ▸ hqcfg h hd, hfields⟩
    · obtain ⟨w, hw, hfields⟩ := writeCqcfg_fields (queueAt s q) v
      exact ⟨w, hw ▸ hcqcfg h hd, hfields⟩
    · simpa only [ackOk, decide_eq_true_eq, exec_registerWrite] using hcqcnt h
    · rw [← exec_registerWrite, hctrl h, writeCtrl_enable h1, exec_queueEnable_reaches hr]
    · have hb : v.getLsbD 3 = (v.toNat / 8 % 2 == 1) := by
        rw [← BitVec.testBit_toNat, Nat.testBit_eq_decide_div_mod_eq, beq_eq_decide]
      rw [← exec_registerWrite, hctrl h, writeCtrl_destroy h2, exec_queueDestroy_reaches _ hr, hb]
    · rw [← exec_registerWrite, hctrl h, writeCtrl_other h1 h2]
      exact ⟨_, rfl, onlyQueue_upQueue _ _ _, by rw [setCtrl, queueAt_upQueue, if_pos rfl]⟩

end Sys2Proof.Machine
end

section
/-! PROOFS. Power-good, power loss and the stages of start-up: what each leaves and what it gives (R303, R397, R403–R406, R409, R413). -/

namespace Sys2Proof.Machine

/-! ## What the operations of start-up leave as it is -/

/-- A fold relates its start to its end as each step relates its own. -/
theorem foldl_rel {β : Type} {R : State → State → Prop} (hrefl : ∀ s, R s s) (htrans : ∀ s t u, R s t → R t u → R s u) {f : State → β → State}
    (hf : ∀ s b, R s (f s b)) (l : List β) : ∀ s, R s (l.foldl f s) := by
  induction l with
  | nil => exact hrefl
  | cons b l ih => exact fun s => htrans s _ _ (hf s b) (ih (f s b))

/-- Nothing has changed but memory, the level cache and the checks. -/
def OnlyMem (s t : State) : Prop := t = { s with mem := t.mem, lc := t.lc, bad := t.bad }

theorem OnlyMem.refl (s : State) : OnlyMem s s := rfl
theorem OnlyMem.trans (s t u : State) (h : OnlyMem s t) (k : OnlyMem t u) : OnlyMem s u := Eq.trans k (by rw [h])

/-- What does not read memory, the level cache or the checks reads as before. -/
theorem OnlyMem.field {α : Type} {s t : State} (h : OnlyMem s t) (F : State → α)
    (hF : ∀ s m l b, F { s with mem := m, lc := l, bad := b } = F s) : F t = F s := (congrArg F h).trans (hF _ _ _ _)

theorem onlyMem_wrBytes (s : State) (l : List (Nat × Byte)) : OnlyMem s (wrBytes s l) := by
  rw [wrBytes_frame]; rfl
theorem onlyMem_fillAll (s : State) (l : List Nat) : OnlyMem s (fillAll s l) :=
  foldl_rel (R := OnlyMem) OnlyMem.refl OnlyMem.trans (f := fillLine) (fun _ _ => rfl) _ s
theorem onlyMem_writeMem (s : State) (l : List (Nat × Byte)) : OnlyMem s (writeMem s l) :=
  .trans _ _ _ (.trans _ _ _ (onlyMem_fillAll s _) (onlyMem_wrBytes _ l)) rfl

/-- Nothing has changed but the cores and memory. -/
def OnlyCoresMem (s t : State) : Prop := t = { s with cores := t.cores, mem := t.mem, lc := t.lc, bad := t.bad }

theorem OnlyCoresMem.refl (s : State) : OnlyCoresMem s s := rfl
theorem OnlyCoresMem.trans (s t u : State) (h : OnlyCoresMem s t) (k : OnlyCoresMem t u) : OnlyCoresMem s u := Eq.trans k (by rw [h])
/-- What reads neither the cores nor memory reads as before. -/
theorem OnlyCoresMem.field {α : Type} {s t : State} (h : OnlyCoresMem s t) (F : State → α)
    (hF : ∀ s c m l b, F { s with cores := c, mem := m, lc := l, bad := b } = F s) : F t = F s := (congrArg F h).trans (hF _ _ _ _ _)

theorem OnlyMem.toCores {s t : State} (h : OnlyMem s t) : OnlyCoresMem s t := Eq.trans h (by rw [h])

theorem onlyCoresMem_performStore (s : State) (core id : Nat) : OnlyCoresMem s (performStore s core id) := by
  unfold performStore
  split
  · exact OnlyCoresMem.refl s
  · dsimp only
    split
    · rfl
    · exact .trans _ _ _ (show OnlyCoresMem s (upCore s core _) from rfl) (onlyMem_writeMem _ _).toCores

theorem onlyCoresMem_performAll (s : State) (core : Nat) : OnlyCoresMem s (performAll s core) :=
  foldl_rel (R := OnlyCoresMem) .refl .trans (f := fun s (p : PendSt) => performStore s core p.id)
    (fun s p => onlyCoresMem_performStore s core p.id) _ s

/-! ## Events and measurements -/

theorem fnAt_eventFn (s : State) (n b k : Nat) :
    fnAt (eventFn s n b) k = if n = k then { fnAt s n with event := (fnAt s n).event ||| b } else fnAt s k := SMap.get_set _ _ _ _ _

/-- A signalled event stands in EVENT of every function (R395). -/
theorem event_signalEvent (s : State) (b : Nat) {fn : Nat} (h : fn < 5) : (fnAt (signalEvent s b) fn).event = (fnAt s fn).event ||| b := by
  simp only [signalEvent, show List.range 5 = [0, 1, 2, 3, 4] from rfl, List.foldl_cons, List.foldl_nil, fnAt_eventFn]
  interval_cases fn <;> rfl

/-- The change of the stage is bit 2 of EVENT (R395). -/
theorem staged_signalEvent (s : State) {fn : Nat} (h : fn < 5) : (fnAt (signalEvent s 4) fn).event.testBit 2 = true := by
  rw [event_signalEvent s 4 h, Nat.testBit_or, show Nat.testBit 4 2 = true from rfl, Bool.or_true]

/-- Nothing has changed but the functions and their interrupts. -/
def OnlyFns (s t : State) : Prop := t = { s with fns := t.fns, irqOut := t.irqOut }

theorem OnlyFns.refl (s : State) : OnlyFns s s := rfl
theorem OnlyFns.trans (s t u : State) (h : OnlyFns s t) (k : OnlyFns t u) : OnlyFns s u := Eq.trans k (by rw [h])

/-- What reads neither the functions nor their interrupts reads as before. -/
theorem OnlyFns.field {α : Type} {s t : State} (h : OnlyFns s t) (F : State → α)
    (hF : ∀ s f q, F { s with fns := f, irqOut := q } = F s) : F t = F s := (congrArg F h).trans (hF _ _ _)

theorem onlyFns_signalEvent (s : State) (b : Nat) : OnlyFns s (signalEvent s b) :=
  foldl_rel (R := OnlyFns) .refl .trans (f := fun s n => eventFn s n b) (fun _ _ => rfl) _ s

theorem mrAt_extendMr (s : State) (i j : Nat) (d : BitVec 256) :
    mrAt (extendMr s i d) j = if i = j then sm3Digest (beBytes 32 (mrAt s i).toNat ++ beBytes 32 d.toNat) else mrAt s j := SMap.get_set _ _ _ _ _

/-! ## Power -/

/-- The bank that a firmware write cut off by a loss of power leaves invalid: the one that does not run (R409). -/
def cutBanks (s : State) : SMap FwBank := SMap.set {} s.banks (1 - s.bank) { bankAt s (1 - s.bank) with valid := false }

/-- The loss of power keeps what a cold state keeps, but for a bank in which a write was under way. -/
theorem losePower_cases (s : State) : losePower s = { coldState s with free := s.free + 1 } ∨
    (fnAt s 0).busy = true ∧ losePower s = { coldState s with free := s.free + 1, banks := cutBanks s } := by
  unfold losePower
  dsimp only
  split_ifs with h
  · simp only [Bool.and_eq_true] at h
    obtain ⟨⟨⟨⟨⟨hbusy, -⟩, -⟩, -⟩, -⟩, -⟩ := h
    exact .inr ⟨hbusy, rfl⟩
  · exact .inl rfl

theorem bankAt_losePower (s : State) : bankAt (losePower s) s.bank = bankAt s s.bank := by
  obtain h | ⟨-, h⟩ := losePower_cases s <;> rw [h]
  · rfl
  · exact SMap.get_set_of_ne _ _ _ _ _ (by omega)


theorem powerUp_own (s : State) : (powerUp s).own = firstOwn s.order4T := rfl

/-- The stack pairs of a CVL-4T256 after power-good: 0 and 1 are partition 0's, the others are not there (R2; log entry 9). -/
theorem get_firstOwn_sp {order4T : Nat} (h : order4T = 2) (i : Nat) : SMap.get 7 (firstOwn order4T).sp i = if i < 2 then 0 else 7 := by
  subst h
  match i with
  | 0 => rfl
  | 1 => rfl
  | n + 2 => simp [firstOwn, SMap.get]

/-! ## Stage F (R303, R405) -/

/-- The entry of the watch block (R413; log entry 35). -/
def watchEntry : HEntry := { kind := 1, ext := 2 ^ 21, base := fwTables }

theorem mapWatch_frame (s : State) :
    mapWatch s = { s with mem := (mapWatch s).mem, lc := (mapWatch s).lc, ht := SMap.set none s.ht (htKey 4 0 0xFF00) (some watchEntry) } := by
  unfold mapWatch wrRun watchEntry
  rw [wrBytes_frame]

/-- What reads neither memory nor the handle tables reads as before the watch block was mapped. -/
theorem mapWatch_field {α : Type} (s : State) (F : State → α) (hF : ∀ s m l h, F { s with mem := m, lc := l, ht := h } = F s) :
    F (mapWatch s) = F s := (congrArg F (mapWatch_frame s)).trans (hF _ _ _ _)

/-- The state in which Stage F starts the Foreman team: the image of the bank measured (R406). -/
def measured (s : State) (b : Nat) : State :=
  extendMr { clearTeams s with stage := 1, bank := b, newImage := (bankAt s b).fresh } 1 (sm3Digest (bankAt s b).image)

/-- The module as Stage F leaves it, started from a bank. -/
def bootedFrom (s : State) (b : Nat) : State := signalEvent (startForeman (mapWatch (measured s b)) (bankAt s b).image) 4

theorem enterF_waits {s : State} (h : ∃ x ∈ s.cores, x.2.ql ≠ [] ∨ x.2.qs ≠ [] ∨ x.2.qd ≠ [] ∨ x.2.stq ≠ []) : enterF s = s := by
  have hd : s.cores.all (fun p => coreDrained p.2) = false := by
    obtain ⟨x, hx, h⟩ := h
    refine List.all_eq_false.mpr ⟨x, hx, ?_⟩
    simp only [coreDrained, Bool.and_eq_true, List.isEmpty_iff]
    tauto
  simp [enterF, hd]

section
variable {s : State} (hp : s.powered = true) (h0 : s.stage = 0)
  (hd : ∀ x ∈ s.cores, x.2.ql = [] ∧ x.2.qs = [] ∧ x.2.qd = [] ∧ x.2.stq = [])
include hp h0 hd

theorem enterF_noGoodBank (h : [s.next, 1 - s.next].find? (bankGood s) = none) : enterF s = { s with cause := 1 } := by
  have hd : s.cores.all (fun p => coreDrained p.2) = true := by simpa [coreDrained, and_assoc] using hd
  simp only [enterF, hp, h0, hd, h, ne_eq, not_true_eq_false, decide_false, Bool.not_true, Bool.or_false, Bool.false_eq_true, if_false]

theorem enterF_boots {b : Nat} (h : [s.next, 1 - s.next].find? (bankGood s) = some b) : enterF s = bootedFrom s b := by
  have hd : s.cores.all (fun p => coreDrained p.2) = true := by simpa [coreDrained, and_assoc] using hd
  simp only [enterF, hp, h0, hd, h, ne_eq, not_true_eq_false, decide_false, Bool.not_true, Bool.or_false, Bool.false_eq_true, if_false]
  rfl
end

theorem coreAt_setTeam (s : State) (n i : Nat) (x : Team) : coreAt (setTeam s n x) i = coreAt s i := rfl

theorem coreAt_startForeman (s : State) (image : List Byte) {i : Nat} (hi : i ≤ 1) :
    coreAt (startForeman s image) i = foreCore s i (image.drop 128) := by
  unfold startForeman
  rw [coreAt_setTeam, coreAt_setCore, coreAt_setCore]
  interval_cases i <;> rfl

theorem teamAt_startForeman (s : State) (image : List Byte) :
    teamAt (startForeman s image) 0x3FE = { st := .running, cores := [0, 1], text := fwTextHandle, nbar := 2 } := by
  unfold startForeman
  rw [teamAt_setTeam, if_pos rfl]

/-- What reads neither cores nor teams reads as before the Foreman team was started. -/
theorem startForeman_field {α : Type} (s : State) (image : List Byte) (F : State → α)
    (hF : ∀ s c m, F { s with cores := c, teams := m } = F s) : F (startForeman s image) = F s := hF s _ _

theorem getScal_foreCore (s : State) {i : Nat} (hi : i ≤ 1) (body : List Byte) : getScal (foreCore s i body) .c 7 = BitVec.ofNat 64 i := by
  interval_cases i <;> rfl

/-- What reads neither functions, cores, teams, memory nor handle tables reads as Stage F has measured it. -/
theorem bootedFrom_field {α : Type} (s : State) (b : Nat) (F : State → α) (h1 : ∀ s f q, F { s with fns := f, irqOut := q } = F s)
    (h2 : ∀ s c m, F { s with cores := c, teams := m } = F s) (h3 : ∀ s m l h, F { s with mem := m, lc := l, ht := h } = F s) :
    F (bootedFrom s b) = F (measured s b) := by
  rw [bootedFrom, (onlyFns_signalEvent _ 4).field F h1, startForeman_field _ _ F h2, mapWatch_field _ F h3]

/-- What Stage F makes of the module. -/
theorem bootedFrom_facts (s : State) (b : Nat) :
    let t := bootedFrom s b
    t.stage = 1 ∧ t.bank = b ∧ t.newImage = (bankAt s b).fresh ∧ (teamAt t 0x3FE).st = .running ∧ (teamAt t 0x3FE).cores = [0, 1] ∧
      (coreAt t 0).tid = 0x3FE ∧ (coreAt t 1).tid = 0x3FE ∧ getScal (coreAt t 1) .c 7 = 1 ∧ (∀ fn, fn < 5 → (fnAt t fn).event.testBit 2 = true) ∧
      mrAt t 1 = sm3Digest (beBytes 32 (mrAt s 1).toNat ++ beBytes 32 (sm3Digest (bankAt s b).image).toNat) := by
  intro t
  have field {α : Type} (F : State → α) := bootedFrom_field (α := α) s b F
  have hteam : teamAt t 0x3FE = { st := .running, cores := [0, 1], text := fwTextHandle, nbar := 2 } :=
    ((onlyFns_signalEvent _ 4).field (teamAt · 0x3FE) (fun _ _ _ => rfl)).trans (teamAt_startForeman _ _)
  have hcore (i : Nat) (hi : i ≤ 1) : coreAt t i = foreCore (mapWatch (measured s b)) i ((bankAt s b).image.drop 128) :=
    ((onlyFns_signalEvent _ 4).field (coreAt · i) (fun _ _ _ => rfl)).trans (coreAt_startForeman _ _ hi)
  refine ⟨field State.stage (fun _ _ _ => rfl) (fun _ _ _ => rfl) (fun _ _ _ _ => rfl),
    field State.bank (fun _ _ _ => rfl) (fun _ _ _ => rfl) (fun _ _ _ _ => rfl),
    field State.newImage (fun _ _ _ => rfl) (fun _ _ _ => rfl) (fun _ _ _ _ => rfl),
    by rw [hteam], by rw [hteam], by rw [hcore 0 (by decide)]; rfl, by rw [hcore 1 (by decide)]; rfl, ?_, fun _ => staged_signalEvent _, ?_⟩
  · rw [hcore 1 (by decide), getScal_foreCore _ (by decide)]; rfl
  · rw [field (mrAt · 1) (fun _ _ _ => rfl) (fun _ _ _ => rfl) (fun _ _ _ _ => rfl), measured, mrAt_extendMr, if_pos rfl]
    rfl

/-! ## Handles of the Foreman's own -/

/-- A handle that the privileged table holds as the Foreman's own names its entry (R304). -/
theorem htAt_own {s : State} {h : Nat} {e : HEntry} (he : SMap.get none s.ht (htKey 4 0 h) = some e) : htAt s 4 0 h = some e := by
  have hk : entKey s 4 0 h = htKey 4 0 h := if_neg (by rw [he]; simp)
  rw [htAt, hk, he]

theorem htKey_injective {h k : Nat} (e : htKey 4 0 h = htKey 4 0 k) : h = k := by
  unfold htKey at e; omega

theorem areaHandle_ne_watch : areaHandle ≠ 0xFF00 := by
  unfold areaHandle; omega

theorem queueHandle_ne_watch : queueHandle ≠ 0xFF00 := by
  unfold queueHandle; omega

/-! ## Stage M (R397, R403) -/

/-- The entry of the context area (R304, R323). -/
def areaEntry (s : State) : HEntry := { kind := 2, ext := areaSize s, base := ctxBase - tensorBase }

theorem get_mapArea (s : State) : SMap.get none (mapArea s).ht (htKey 4 0 areaHandle) = some (areaEntry s) := by
  rw [mapArea, SMap.get_set_same, areaEntry]

theorem get_mapQueues (s : State) : SMap.get none (mapQueues s).ht (htKey 4 0 queueHandle) = some { kind := 7, ext := 2 ^ 14 } := by
  rw [mapQueues, SMap.get_set_same]

/-- What does not read the cores reads as before one of them changed. -/
theorem upCore_field {α : Type} (s : State) (n : Nat) (f : Core → Core) (F : State → α) (hF : ∀ s c, F { s with cores := c } = F s) :
    F (upCore s n f) = F s := hF s _

/-- What reads neither cores, memory nor handle tables reads as before the firmware's pages were homed. -/
theorem rehome_field {α : Type} (s : State) (F : State → α)
    (hF : ∀ s c m l h, F { s with cores := c, mem := m, lc := l, ht := h } = F s) : F (rehome s) = F s := by
  have hc (s : State) (c : SMap Core) : F { s with cores := c } = F s := hF s c s.mem s.lc s.ht
  rw [rehome, upCore_field _ _ _ F hc, upCore_field _ _ _ F hc, mapWatch_field s F (fun s m l h => hF s s.cores m l h)]

theorem rehome_ht (s : State) : (rehome s).ht = SMap.set none s.ht (htKey 4 0 0xFF00) (some watchEntry) := by
  rw [rehome, upCore_ht, upCore_ht, mapWatch_frame]

/-- The module as it is numbered in Stage M, its ports afresh (R397). -/
def numbered (s : State) (num count : Nat) : State :=
  { s with stage := 2, modNum := if s.order4T == 1 then 0 else num, modCount := if s.order4T == 1 then 1 else count,
           ports := [], tickSet := false, scanned := [] }

theorem enterM_numbers {s : State} {num count : Nat} (h : s.stage = 1) (hc : count ≤ 4) (hn : num < count) :
    enterM s true num count = signalEvent (rehome (mapArea (numbered s num count))) 4 := by
  simp [enterM, h, Nat.not_lt.mpr hc, Nat.not_le.mpr hn, numbered]

theorem enterM_fails {s : State} (num count : Nat) (h : s.stage = 1 ∨ s.stage = 2) : enterM s false num count = toStageS s 2 := by
  obtain h | h := h <;> simp [enterM, h]

/-- What Stage M makes of a module that is numbered. -/
theorem enterM_facts {s : State} {num count : Nat} (h : s.stage = 1) (hc : count ≤ 4) (hn : num < count) :
    let t := enterM s true num count
    t.stage = 2 ∧ (s.order4T ≠ 1 → t.modNum = num ∧ t.modCount = count) ∧ (s.order4T = 1 → t.modNum = 0 ∧ t.modCount = 1) ∧
      (∀ fn, fn < 5 → (fnAt t fn).event.testBit 2 = true) ∧ (∀ p, (portAt t p).dead = false ∧ (portAt t p).up = false) ∧
      ∃ e, htAt t 4 0 t.ctxHandle = some e ∧ e.kind = 2 ∧ e.ext = areaSize s := by
  intro t
  let u := mapArea (numbered s num count)
  have ht : t = signalEvent (rehome u) 4 := enterM_numbers h hc hn
  have field {α : Type} (F : State → α) (h1 : ∀ s f q, F { s with fns := f, irqOut := q } = F s)
      (h2 : ∀ s c m l h, F { s with cores := c, mem := m, lc := l, ht := h } = F s) : F t = F u := by
    rw [ht, (onlyFns_signalEvent _ 4).field F h1, rehome_field u F h2]
  have hnum : t.modNum = if s.order4T == 1 then 0 else num := field State.modNum (fun _ _ _ => rfl) (fun _ _ _ _ _ => rfl)
  have hcount : t.modCount = if s.order4T == 1 then 1 else count := field State.modCount (fun _ _ _ => rfl) (fun _ _ _ _ _ => rfl)
  have hports : t.ports = [] := field State.ports (fun _ _ _ => rfl) (fun _ _ _ _ _ => rfl)
  have harea : t.ctxHandle = areaHandle := field State.ctxHandle (fun _ _ _ => rfl) (fun _ _ _ _ _ => rfl)
  have hht : t.ht = SMap.set none u.ht (htKey 4 0 0xFF00) (some watchEntry) := by
    rw [ht, (onlyFns_signalEvent _ 4).field State.ht (fun _ _ _ => rfl), rehome_ht]
  refine ⟨field State.stage (fun _ _ _ => rfl) (fun _ _ _ _ _ => rfl), fun ho => ?_, fun ho => ?_, ?_, fun p => ?_, ?_⟩
  · simp [hnum, hcount, ho]
  · simp [hnum, hcount, ho]
  · rw [ht]; exact fun _ => staged_signalEvent _
  · simp [portAt, hports, SMap.get]
  · refine ⟨areaEntry s, htAt_own ?_, rfl, rfl⟩
    rw [hht, harea, SMap.get_set_of_ne _ _ _ _ _ (fun e => areaHandle_ne_watch (htKey_injective e).symm)]
    exact get_mapArea (numbered s num count)

/-! ## The text of a Foreman core -/

theorem get_setAll_of_not_mem {α : Type} [DecidableEq α] (d : α) (l : List (Nat × α)) (k : Nat) :
    ∀ m : SMap α, (∀ p ∈ l, p.1 ≠ k) → SMap.get d (SMap.setAll d m l) k = SMap.get d m k := by
  induction l with
  | nil => intro m _; rfl
  | cons p l ih =>
    intro m h
    rw [List.forall_mem_cons] at h
    exact (ih _ h.2).trans (SMap.get_set_of_ne _ _ _ _ _ h.1)

/-- A table of `n` values set over a map. -/
theorem get_setAll_range {α : Type} [DecidableEq α] (d : α) (m : SMap α) (f : Nat → α) (n k : Nat) :
    SMap.get d (SMap.setAll d m ((List.range n).map (fun i => (i, f i)))) k = if k < n then f k else SMap.get d m k := by
  induction n with
  | zero => rfl
  | succ n ih =>
    rw [List.range_succ, List.map_append, SMap.setAll, List.foldl_append]
    show SMap.get d (SMap.set d (SMap.setAll d m _) n (f n)) k = _
    rw [SMap.get_set, ih]
    by_cases e : n = k
    · subst e; simp
    · by_cases hk : k < n
      · rw [if_neg e, if_pos hk, if_pos (by omega)]
      · rw [if_neg e, if_neg hk, if_neg (by omega)]

/-- A Foreman core's view holds its text, which lies below the firmware's page tables (log entry 35). -/
theorem get_fwView_text (s : State) {body : List Byte} {i : Nat} (hi : i < body.length) (hlen : body.length ≤ fwTables) :
    SMap.get memDefault (fwView s body).mem i = body.getD i 0 := by
  unfold fwView
  dsimp only
  rw [SMap.setAll, List.foldl_append]
  refine (get_setAll_of_not_mem memDefault _ i _ (fun p hp => ?_)).trans ?_
  · simp only [List.mem_flatMap, List.mem_map] at hp
    obtain ⟨q, -, j, -, rfl⟩ := hp
    dsimp only
    omega
  · simp only [fwTextPa, Nat.zero_add]
    exact (get_setAll_range memDefault [] (fun i => body.getD i 0) body.length i).trans (if_pos hi)

theorem length_leBytes (n x : Nat) : (leBytes n x).length = n := by
  induction n generalizing x with
  | zero => rfl
  | succ n ih => simp [leBytes, ih]

theorem length_wdtSection (l : List Instr) : (wdtSection l).length = 8 + 12 * l.length := by
  simp [wdtSection, length_leBytes, List.length_flatMap, Nat.mul_comm]

theorem length_wdtText_le : wdtText.length ≤ fwTables := by
  simp only [wdtText, List.length_append, length_wdtSection]
  decide


/-! ## Stage A (R397, R399, R403, R409, R413) -/

/-- Some port of the module is up. -/
def Linked (s : State) : Prop := ∃ p, p < 3 ∧ (portAt s p).up = true

theorem anyPortUp_iff (s : State) : (List.range 3).any (fun p => (portAt s p).up) = true ↔ Linked s := by
  simp [Linked]

theorem renumber_linked {s : State} (h : Linked s) : renumber s = s := if_pos ((anyPortUp_iff s).mpr h)

theorem renumber_alone {s : State} (h : ¬ Linked s) : renumber s = rehome { s with modNum := 0, modCount := 1 } :=
  if_neg (fun e => h ((anyPortUp_iff s).mp e))

theorem modNum_renumber_alone {s : State} (h : ¬ Linked s) : (renumber s).modNum = 0 ∧ (renumber s).modCount = 1 := by
  rw [renumber_alone h]
  exact ⟨rehome_field _ State.modNum (fun _ _ _ _ _ => rfl), rehome_field _ State.modCount (fun _ _ _ _ _ => rfl)⟩

/-- What reads neither the module's number, cores, memory nor handle tables reads as before the module was renumbered. -/
theorem renumber_field {α : Type} (s : State) (F : State → α) (h1 : ∀ s n c, F { s with modNum := n, modCount := c } = F s)
    (h2 : ∀ s c m l h, F { s with cores := c, mem := m, lc := l, ht := h } = F s) : F (renumber s) = F s := by
  by_cases h : Linked s
  · rw [renumber_linked h]
  · rw [renumber_alone h, rehome_field _ F h2, h1]

/-- What Stage A waits for (R382, R399). -/
def ReadyForA (s : State) : Prop := (¬ Linked s ∨ s.modNum = 0 ∨ s.tickSet = true) ∧ mountDone s = true

theorem readyForA_iff (s : State) : ReadyForA s ↔ (((renumber s).modNum == 0 || s.tickSet) && mountDone s) = true := by
  by_cases h : Linked s
  · simp [ReadyForA, h, renumber_linked]
  · simp [ReadyForA, h, (modNum_renumber_alone h).1]

theorem enterA_waits {s : State} (h : s.stage ≠ 2 ∨ ¬ ReadyForA s) : enterA s = s := by
  refine if_pos ?_
  rw [readyForA_iff] at h
  generalize ((renumber s).modNum == 0 || s.tickSet) = numbered at h ⊢
  cases numbered
  · simp
  · simpa using h

/-- The module in Stage A before its watchdog starts: numbered, the floor raised and the queue page mapped. -/
def readied (s : State) : State := mapQueues (raiseFloor { renumber s with stage := 3 })

theorem enterA_goes {s : State} (hs : s.stage = 2) (h : ReadyForA s) : enterA s = signalEvent (clearRestarts (startWdt (readied s))) 4 := by
  refine if_neg ?_
  rw [readyForA_iff] at h
  generalize ((renumber s).modNum == 0 || s.tickSet) = numbered at h ⊢
  cases numbered <;> simp [hs] at h ⊢
  exact h

theorem onlyCoresMem_upCore (s : State) (n : Nat) (f : Core → Core) : OnlyCoresMem s (upCore s n f) := rfl

theorem onlyCoresMem_startWdt (s : State) : OnlyCoresMem s (startWdt s) := by
  unfold startWdt
  exact .trans _ _ _ (onlyCoresMem_performAll s 0) (onlyCoresMem_upCore _ _ _)

/-- Core 0 as the watchdog starts on it: the text of R413, and the stores and commands that are still out. -/
theorem coreAt_startWdt (s : State) : ∃ ql qs qd stq nid,
    coreAt (startWdt s) 0 = { foreCore (performAll s 0) 0 wdtText with ql := ql, qs := qs, qd := qd, stq := stq, nid := nid } :=
  ⟨_, _, _, _, _, (coreAt_upCore _ _ _ _).trans (if_pos rfl)⟩

/-- Bytes written at different places of the memories themselves read as written. -/
theorem rdByte_writeMem_mem (s : State) (l : List (Nat × Byte)) (hn : (l.map (·.1)).Nodup) (ha : ∀ p ∈ l, ¬ (apBase ≤ p.1 ∧ p.1 < apTop)) :
    ∀ p ∈ l, rdByte (writeMem s l) p.1 = p.2 := rdByte_wrBytes_mem l _ hn ha

theorem rdByte_clearRestarts (s : State) {i : Nat} (hi : i < 8) : rdByte (clearRestarts s) (0x1FFFE00010 + i) = 0 := by
  refine rdByte_writeMem_mem s _ (by decide) (fun p hp => ?_) (0x1FFFE00010 + i, 0) (List.mem_map.mpr ⟨i, List.mem_range.mpr hi, rfl⟩)
  obtain ⟨j, hj, rfl⟩ := List.mem_map.mp hp
  rw [List.mem_range] at hj
  simp only [apBase, apTop]
  omega

theorem onlyMem_clearRestarts (s : State) : OnlyMem s (clearRestarts s) := onlyMem_writeMem _ _

theorem raiseFloor_facts (s : State) : (raiseFloor s).newImage = false ∧
    (raiseFloor s).floor = (if s.newImage = true then (bankAt s s.bank).ver else s.floor) := by
  unfold raiseFloor
  cases h : s.newImage <;> simp [h]

/-- What reads neither the floor, the banks nor the mark of a new image reads as before. -/
theorem raiseFloor_field {α : Type} (s : State) (F : State → α) (hF : ∀ s f n b, F { s with floor := f, newImage := n, banks := b } = F s) :
    F (raiseFloor s) = F s := by
  unfold raiseFloor
  split
  · exact hF s _ _ _
  · rfl

/-- What Stage A makes of a module that is ready for it. -/
theorem enterA_facts {s : State} (hs : s.stage = 2) (h : ReadyForA s) :
    let t := enterA s
    t.stage = 3 ∧ (∀ fn, fn < 5 → (fnAt t fn).event.testBit 2 = true) ∧ (∀ i, i < 8 → rdByte t (0x1FFFE00010 + i) = 0) ∧
      (∃ e, htAt t 4 0 queueHandle = some e ∧ e.kind = 7 ∧ e.ext = 2 ^ 14) ∧
      (Linked s → t.modNum = s.modNum) ∧ (¬ Linked s → t.modNum = 0 ∧ t.modCount = 1) ∧
      t.floor = (if s.newImage = true then (bankAt s s.bank).ver else s.floor) ∧ t.newImage = false ∧
      (coreAt t 0).tid = 0x3FE ∧ getScal (coreAt t 0) .c 7 = 0 ∧ (∀ g, (engSt (coreAt t 0) g).pc = 0 ∧ (engSt (coreAt t 0) g).retired = false) ∧
      (∀ i, i < wdtText.length → SMap.get memDefault (coreAt t 0).view.mem i = wdtText.getD i 0) := by
  intro t
  let u := readied s
  let a := { renumber s with stage := 3 }
  have ht : t = signalEvent (clearRestarts (startWdt u)) 4 := enterA_goes hs h
  have field {α : Type} (F : State → α) (h1 : ∀ s f q, F { s with fns := f, irqOut := q } = F s)
      (h2 : ∀ s c m l b, F { s with cores := c, mem := m, lc := l, bad := b } = F s) : F t = F u := by
    rw [ht, (onlyFns_signalEvent _ 4).field F h1, (onlyMem_clearRestarts _).field F (fun s m l b => h2 s s.cores m l b),
      (onlyCoresMem_startWdt u).field F h2]
  have hmodNum : t.modNum = (renumber s).modNum :=
    (field State.modNum (fun _ _ _ => rfl) (fun _ _ _ _ _ => rfl)).trans (raiseFloor_field a State.modNum (fun _ _ _ _ => rfl))
  have hmodCount : t.modCount = (renumber s).modCount :=
    (field State.modCount (fun _ _ _ => rfl) (fun _ _ _ _ _ => rfl)).trans (raiseFloor_field a State.modCount (fun _ _ _ _ => rfl))
  obtain ⟨hnew, hfloor⟩ := raiseFloor_facts a
  have hcore : coreAt t 0 = coreAt (startWdt u) 0 := by
    rw [ht, (onlyFns_signalEvent _ 4).field (coreAt · 0) (fun _ _ _ => rfl),
      (onlyMem_clearRestarts _).field (coreAt · 0) (fun _ _ _ _ => rfl)]
  obtain ⟨ql, qs, qd, stq, nid, hwdt⟩ := coreAt_startWdt u
  rw [← hcore] at hwdt
  refine ⟨?_, ?_, fun i hi => ?_, ?_, fun hl => ?_, fun hl => ?_, ?_, ?_, ?_, ?_, fun g => ?_, fun i hi => ?_⟩
  · exact (field State.stage (fun _ _ _ => rfl) (fun _ _ _ _ _ => rfl)).trans (raiseFloor_field a State.stage (fun _ _ _ _ => rfl))
  · rw [ht]; exact fun _ => staged_signalEvent _
  · rw [ht, (onlyFns_signalEvent _ 4).field (rdByte · (0x1FFFE00010 + i)) (fun _ _ _ => rfl)]
    exact rdByte_clearRestarts _ hi
  · refine ⟨{ kind := 7, ext := 2 ^ 14 }, htAt_own ?_, rfl, rfl⟩
    rw [field State.ht (fun _ _ _ => rfl) (fun _ _ _ _ _ => rfl)]
    exact get_mapQueues _
  · rw [hmodNum, renumber_linked hl]
  · rw [hmodNum, hmodCount]; exact modNum_renumber_alone hl
  · rw [field State.floor (fun _ _ _ => rfl) (fun _ _ _ _ _ => rfl)]
    refine hfloor.trans ?_
    exact renumber_field s (fun s => if s.newImage = true then (bankAt s s.bank).ver else s.floor) (fun _ _ _ => rfl) (fun _ _ _ _ _ => rfl)
  · exact (field State.newImage (fun _ _ _ => rfl) (fun _ _ _ _ _ => rfl)).trans hnew
  · rw [hwdt]; rfl
  · rw [hwdt]; rfl
  · rw [hwdt]; cases g <;> exact ⟨rfl, rfl⟩
  · rw [hwdt]; exact get_fwView_text _ hi length_wdtText_le

/-- Settles O48: power and each stage by the lemma that says what it makes of the module. -/
theorem stagesOfStartUp : Obligations.StagesOfStartUp := by
  intro s num count staged
  refine ⟨⟨powerUp s, rfl, ?_⟩, ⟨losePower s, rfl, ?_⟩, fun h => ?_, fun hp h0 hnext hd => ⟨fun hb hb' => ?_, fun b hb => ?_⟩, fun h hc hn => ?_,
    fun h => ?_, fun h => ?_, fun hs h => ?_⟩
  · refine ⟨rfl, rfl, rfl, rfl, rfl, rfl, rfl, rfl, rfl, rfl, rfl, rfl, rfl, rfl, fun ho i => ?_, ?_, fun i hi => ?_⟩
    · rw [powerUp_own, get_firstOwn_sp ho]
    · rw [powerUp, mrAt_extendMr, if_pos rfl]; rfl
    · rw [powerUp, mrAt_extendMr, if_neg (Ne.symm hi)]; rfl
  · have hbank := bankAt_losePower s
    obtain h | ⟨hbusy, h⟩ := losePower_cases s
    · rw [h] at hbank ⊢
      exact ⟨rfl, rfl, rfl, rfl, rfl, rfl, rfl, hbank, fun _ => rfl⟩
    · rw [h] at hbank ⊢
      exact ⟨rfl, rfl, rfl, rfl, rfl, rfl, rfl, hbank, fun hb => absurd (hb ▸ hbusy) Bool.false_ne_true⟩
  · exact congrArg Host.Outcome.next (enterF_waits h)
  · exact congrArg Host.Outcome.next (enterF_noGoodBank hp h0 hd (by simp [hb, hb']))
  · have hfind : [s.next, 1 - s.next].find? (bankGood s) = some b := by
      obtain ⟨hg, rfl⟩ | ⟨hg, hg', rfl⟩ := hb
      · simp [hg]
      · simp [hg, hg']
    refine ⟨_, congrArg Host.Outcome.next (enterF_boots hp h0 hd hfind), ?_⟩
    exact bootedFrom_facts s b
  · exact ⟨_, rfl, enterM_facts h hc hn⟩
  · exact congrArg Host.Outcome.next (enterM_fails num count h)
  · exact congrArg Host.Outcome.next (enterA_waits h)
  · exact ⟨_, rfl, enterA_facts hs h⟩

end Sys2Proof.Machine
end

section
/-! PROOFS. A step of a REMAP: what it leaves of memory, and what a read of its descriptor may change where a format window's stored
planes run into its own aperture (R88, R91, R371, R380). -/

namespace Sys2Proof.Machine

/-! ## What bytes read as depends on -/

/-- Memory, the level cache, the checks and the format windows are as before: all that a byte's value depends on. -/
def SameMedia (s t : State) : Prop := t.mem = s.mem ∧ t.lc = s.lc ∧ t.bad = s.bad ∧ t.wins = s.wins

theorem SameMedia.refl (s : State) : SameMedia s s := ⟨rfl, rfl, rfl, rfl⟩

theorem SameMedia.trans (s t u : State) (h : SameMedia s t) (k : SameMedia t u) : SameMedia s u := by
  obtain ⟨hm, hl, hb, hw⟩ := h
  obtain ⟨km, kl, kb, kw⟩ := k
  exact ⟨km.trans hm, kl.trans hl, kb.trans hb, kw.trans hw⟩

theorem SameMedia.rdByte_eq {s t : State} (h : SameMedia s t) (k : Nat) : rdByte t k = rdByte s k := by
  obtain ⟨hm, hl, hb, hw⟩ := h
  have ht : t = { t with mem := s.mem, lc := s.lc, bad := s.bad, wins := s.wins } := by rw [← hm, ← hl, ← hb, ← hw]
  rw [ht]
  rfl

/-- A step that keeps what bytes read as, folded. -/
theorem sameMedia_foldl {β : Type} {f : State → β → State} (hf : ∀ s b, SameMedia s (f s b)) (l : List β) (s : State) : SameMedia s (l.foldl f s) :=
  foldl_rel .refl .trans hf l s

theorem sameMedia_upCore (s : State) (n : Nat) (f : Core → Core) : SameMedia s (upCore s n f) := .refl s
theorem sameMedia_upCur (s : State) (f : Core → Core) : SameMedia s (upCur s f) := .refl s
theorem sameMedia_upCurEng (s : State) (f : EngSt → EngSt) : SameMedia s (upCurEng s f) := .refl s
theorem sameMedia_setRegion (s : State) (n : Nat) (r : Option Region) : SameMedia s (setRegion s n r) := .refl s
theorem sameMedia_upBlock (s : State) (k : Nat) (f : Block → Block) : SameMedia s (upBlock s k f) := .refl s
theorem sameMedia_free (s : State) (n : Nat) : SameMedia s { s with free := n } := .refl s

theorem sameMedia_holdReport (s : State) (r : FRec) : SameMedia s (holdReport s r) := by
  unfold holdReport; split <;> [exact .refl s; split <;> exact .refl s]

theorem sameMedia_noteHealth (s t : State) : SameMedia t (noteHealth s t) := by
  unfold noteHealth; split
  · exact .refl t
  · exact sameMedia_foldl (f := fun s n => eventFn s n 2) (fun s _ => .refl s) _ t

/-! ## Blocks and pages of a region -/

theorem sameMedia_reserveScale (num : Nat) (s : State) (g stack i : Nat) : SameMedia s (reserveScale num s g stack i) := by
  unfold reserveScale
  split
  · exact .refl s
  · dsimp only
    split
    · exact sameMedia_free s _
    · split
      · exact sameMedia_setRegion _ _ _
      · exact sameMedia_free s _

theorem sameMedia_reserveScales (s : State) (num : Nat) (r : Region) (pages : List Nat) : SameMedia s (reserveScales s num r pages) :=
  sameMedia_foldl (fun s g => sameMedia_foldl (fun s st =>
    .trans _ _ _ (sameMedia_reserveScale num s g st 0) (sameMedia_reserveScale num _ g st 1)) _ s) _ s

theorem sameMedia_reservePage (num : Nat) (s : State) (n p : Nat) : SameMedia s (reservePage num s n p) := by
  unfold reservePage
  split
  · exact .refl s
  · dsimp only
    split
    · exact sameMedia_setRegion _ _ _
    · exact sameMedia_free s _

theorem sameMedia_movePages (s : State) (stack die plane blk : Nat) (l : List (Nat × Nat × Nat)) :
    SameMedia s (movePages s stack die plane blk l) :=
  sameMedia_foldl (fun s p => by split <;> [exact sameMedia_setRegion _ _ _; exact .refl s]) _ s

theorem sameMedia_markFailed (s : State) (num tile : Nat) : SameMedia s (markFailed s num tile) := by
  unfold markFailed
  split
  · exact .trans _ _ _ (sameMedia_setRegion s _ _) (sameMedia_noteHealth _ _)
  · exact .refl s

theorem sameMedia_loseTile (s : State) (num tile reason plane pages : Nat) : SameMedia s (loseTile s num tile reason plane pages) := by
  unfold loseTile
  split
  · exact .trans _ _ _ (sameMedia_markFailed s _ _) (sameMedia_holdReport _ _)
  · exact .refl s

theorem sameMedia_loseCopy (s : State) (reason num key : Nat) : SameMedia s (loseCopy s reason num key) := by
  unfold loseCopy
  split
  · dsimp only
    split
    · exact .refl s
    · exact .trans _ _ _ (.trans _ _ _ (sameMedia_setRegion s _ _) (sameMedia_noteHealth _ _)) (sameMedia_holdReport _ _)
  · exact .refl s

theorem sameMedia_losePages (s : State) (reason : Nat) (l : List (Nat × Nat × Nat)) : SameMedia s (losePages s reason l) :=
  .trans _ _ _ (sameMedia_foldl (fun s (p : Nat × Nat × Nat) => sameMedia_loseCopy s reason p.1 p.2.1) _ s)
    (sameMedia_foldl (fun s _ => sameMedia_loseTile s _ _ reason _ _) _ _)

theorem sameMedia_retireBlock (s : State) (stack die plane blk : Nat) : SameMedia s (retireBlock s stack die plane blk) := by
  unfold retireBlock
  dsimp only
  split
  · exact .trans _ _ _ (.refl s) (sameMedia_movePages _ _ _ _ _ _)
  · exact .trans _ _ _ (.refl s) (sameMedia_losePages _ _ _)

theorem sameMedia_programPage (num : Nat) (fresh : Bool) (s : State) (n p : Nat) : SameMedia s (programPage num fresh s n p) := by
  have hres : SameMedia s (if fresh then reservePage num s n p else s) := by
    split <;> [exact sameMedia_reservePage _ _ _ _; exact .refl s]
  unfold programPage
  dsimp only
  refine .trans _ _ _ hres ?_
  generalize (if fresh = true then reservePage num s n p else s) = u
  split
  · exact sameMedia_free _ _
  · refine .trans _ _ _ (sameMedia_free u (u.free + 1)) (.trans _ _ _ ?_ (sameMedia_upBlock _ _ _))
    split <;> [exact sameMedia_retireBlock _ _ _ _ _; exact .refl _]

theorem sameMedia_programTiles (num : Nat) (fresh : Bool) (s : State) (r : Region) (tiles : List Nat) :
    SameMedia s (programTiles num fresh s r tiles) :=
  sameMedia_foldl (fun s n => sameMedia_foldl (fun s p => sameMedia_programPage num fresh s n p) _ s) _ s

/-! ## A step of a REMAP -/

theorem sameMedia_writeNamed (s : State) (r : Region) (w : WriteDesc) (tiles : List Nat) : SameMedia s (writeNamed s r w tiles) :=
  .trans _ _ _ (.trans _ _ _ (sameMedia_setRegion s _ _) (sameMedia_noteHealth _ _)) (sameMedia_reserveScales _ _ _ _)

/-- Rewriting a tile of the Lode changes no byte of memory (R380). -/
theorem sameMedia_remapTile (s : State) (w : WriteDesc) (n : Nat) : SameMedia s (remapTile s w n) := by
  unfold remapTile
  split
  · exact .refl s
  · exact .trans _ _ _ (sameMedia_writeNamed _ _ _ _) (sameMedia_programTiles _ _ _ _ _)

/-- The REMAP under way rewrites its last tile and completes. -/
theorem exec_lregRemap_last {s : State} {h : Hd} {d a : Reg} {l : List Byte} {i : Nat} {w : WriteDesc} {r : Region} (hr : Ready s h)
    (hf : foreman s = true) (hl : (curCore (atHand s h)).lreg = some (l, i)) (hw : writeDesc l = some w)
    (hreg : regionAt (atHand s h) w.region = some r) (hi : ¬ i + 1 < (namedTiles r w).length) :
    exec (.lregRemap h d a) s = .next (goesOn h (wr (upCur (remapTile (atHand s h) w ((namedTiles r w).getD i (regTiles r)))
      (fun c => { c with lreg := none })) d (BitVec.ofNat 64 0))) := by
  have hx : exec (.lregRemap h d a) s = execLregRemap h d a s := rfl
  rw [hx, execLregRemap, privWord, if_pos hf]
  refine runWord_ready hr ?_
  simp only [hl, hw, remapOn, hreg, if_neg hi, giveStatus]

/-- What a word does past its effect changes no byte of memory (R34). -/
theorem sameMedia_afterWord (s : State) (push : BitVec 3) (n : Nxt) : SameMedia s (afterWord s push n) := by
  unfold afterWord
  dsimp only
  split
  · split
    · exact sameMedia_upCore _ _ _
    · split <;> exact sameMedia_upCore _ _ _
  · exact sameMedia_upCore _ _ _

theorem sameMedia_retireWord (s : State) (h : Hd) (push : BitVec 3) (live : Bool) : SameMedia s (retireWord s h push live { eff := .done }) := by
  unfold retireWord
  dsimp only
  split
  · exact sameMedia_afterWord s push _
  · split
    · exact sameMedia_upCurEng s _
    · rw [ite_self]
      exact .trans _ _ _ (sameMedia_upCur s _) (sameMedia_afterWord _ _ _)

theorem sameMedia_goesOn (h : Hd) (s : State) : SameMedia s (goesOn h s) :=
  .trans _ _ _ (sameMedia_upCurEng s _) (sameMedia_retireWord _ _ _ _)

theorem sameMedia_goesOn_wr (h : Hd) (s : State) (d : Reg) (v : Word) : SameMedia s (goesOn h (wr s d v)) :=
  .trans _ _ _ (sameMedia_upCur s _) (sameMedia_goesOn h _)

/-- However the state is told that the last step of a REMAP leaves, its bytes read as the word found them. -/
theorem rdByte_of_lregRemap_last {s t : State} {h : Hd} {d a : Reg} {l : List Byte} {i : Nat} {w : WriteDesc} {r : Region} (hr : Ready s h)
    (hf : foreman s = true) (hl : (curCore (atHand s h)).lreg = some (l, i)) (hw : writeDesc l = some w)
    (hreg : regionAt (atHand s h) w.region = some r) (hi : ¬ i + 1 < (namedTiles r w).length)
    (hout : exec (.lregRemap h d a) s = .next (goesOn h (wr t d (BitVec.ofNat 64 0)))) (k : Nat) : rdByte t k = rdByte (atHand s h) k := by
  rw [exec_lregRemap_last hr hf hl hw hreg hi] at hout
  have hgo := Host.Outcome.next.inj hout
  have htile := SameMedia.trans _ _ _ (sameMedia_remapTile (atHand s h) w ((namedTiles r w).getD i (regTiles r)))
    (sameMedia_upCur _ (fun c => { c with lreg := none }))
  rw [← (sameMedia_goesOn_wr h t d _).rdByte_eq k, ← hgo, (sameMedia_goesOn_wr h _ d _).rdByte_eq k, htile.rdByte_eq k]

/-! ## A window whose stored planes run into its own aperture -/

/-- A window of eight planes whose stored blocks begin one page below the apertures, so that blocks 32 and on lie in its own aperture.
`fwin` SET refuses it (R371); the state's type does not. -/
def overlappingWindow : Win := { on := true, planes := 8, apsize := 2 ^ 21, store := apBase - 4096, scale := 4096 }

/-- The descriptor of a REMAP of the one row of region 0. -/
def oneRowDesc : List Byte := (List.replicate 64 0).set 8 1

/-- What `oneRowDesc` names: the first row of region 0. -/
def oneRow : WriteDesc := { region := 0, first := 0, count := 1, src := 0, pitch := 0, scales := 0 }

theorem writeDesc_oneRow : writeDesc oneRowDesc = some oneRow := by decide +kernel

/-- A sealed region of one row. -/
def oneRowRegion : Region :=
  { part := 0, layout := 1, planes := 0, fastn := 0, smask := 1, rtype := 0xB, nrows := 1, ncols := 1, soft := false, isSealed := true }

theorem namedTiles_oneRow : namedTiles oneRowRegion oneRow = [0] := by decide +kernel

/-- The Foreman's core 0 in a REMAP of a region's one row page, whose address register names a page of the window's aperture: handle 1,
its page-table entry at 0. The scales of stored blocks 0 and 32 are 1, and element 0 of block 0 is −128. -/
def overlappingState : State :=
  { State.reset with
    cores := [(0, { tid := 0x3FE, x := [(1, 2 ^ 48)], lreg := some (oneRowDesc, 0) })],
    regions := [(0, some oneRowRegion)],
    ht := [(htKey 4 0 1, some { kind := 1, ext := 2 ^ 21 })],
    wins := [(0, overlappingWindow)],
    mem := [(0, 1), (5, 1), (4096, 0x80), (4097, 0x3F), (4160, 0x80), (4161, 0x3F), (apBase - 4096, 1)] }

/-- Element 8 of block 32, whose code lies at the aperture's second byte. -/
def decodedByte : Nat := apBase + 32 * 256 + 17

theorem rdByte_overlappingState : rdByte (atHand overlappingState {}) decodedByte = 0 := by decide +kernel

/-- The fill of block 0 changes the code of block 32. -/
theorem rdByte_fwFill_overlappingState : rdByte (fwFill (atHand overlappingState {}) 1 64) decodedByte = 0xC3 := by decide +kernel

theorem regionAt_fwFill_overlappingState : regionAt (fwFill (atHand overlappingState {}) 1 64) oneRow.region = some oneRowRegion := by
  decide +kernel

/-- Refutes O40: the REMAP under way of `overlappingState` does not read its descriptor again and changes no byte of memory, while the
statement compares what it leaves with the state after that read, whose merging fill makes the decoded values of block 0 the stored
codes of block 32. -/
theorem not_lodeRegions : ¬ Obligations.LodeRegions := by
  rintro ⟨-, hclaim⟩
  obtain ⟨-, -, hremap, -⟩ := hclaim overlappingState {} 2 1
  have hready : Ready overlappingState {} := by unfold Ready; decide +kernel
  have hforeman : foreman overlappingState = true := by decide +kernel
  have hlreg : (curCore overlappingState).lreg = some (oneRowDesc, 0) := rfl
  have hregion : regionAt overlappingState oneRow.region = some oneRowRegion := rfl
  obtain ⟨t, r', -, -, -, hsame, -, hlast, -⟩ := hremap oneRowDesc oneRow oneRowRegion 0 0 writeDesc_oneRow regionAt_fwFill_overlappingState
    (by rw [namedTiles_oneRow]; rfl) (by decide) (.inl hlreg)
  obtain ⟨-, hgives⟩ := hlast (by rw [namedTiles_oneRow]; rfl)
  have hout := (hgives hready).1 hforeman
  have hleft := rdByte_of_lregRemap_last hready hforeman hlreg writeDesc_oneRow hregion (by rw [namedTiles_oneRow]; decide) hout decodedByte
  have h0 : (0 : Byte) = 0xC3 :=
    calc (0 : Byte) = rdByte (atHand overlappingState {}) decodedByte := rdByte_overlappingState.symm
      _ = rdByte t decodedByte := hleft.symm
      _ = rdByte (fwFill (atHand overlappingState {}) 1 64) decodedByte := (hsame decodedByte).1
      _ = 0xC3 := rdByte_fwFill_overlappingState
  exact absurd h0 (by decide)

end Sys2Proof.Machine
end

section
/-! PROOFS. What the operations of a Lode command act on: the head of its queue, the slots and latches of a stack, bitmaps, and what a
report or an access of a Lode controller leaves as it is (R251, R254, R364). -/

namespace Sys2Proof.Machine

/-! ## Maps and bitmaps -/

/-- A key that a list of writes names, always with one value, reads as that value. -/
theorem get_setAll_of_mem {α : Type} [DecidableEq α] (d : α) (k : Nat) (v : α) (l : List (Nat × α)) (hv : ∀ p ∈ l, p.1 = k → p.2 = v) :
    ∀ m : SMap α, (∃ p ∈ l, p.1 = k) → SMap.get d (SMap.setAll d m l) k = v := by
  induction l with
  | nil => rintro m ⟨p, hp, -⟩; cases hp
  | cons q l ih =>
    intro m hk
    change SMap.get d (SMap.setAll d (SMap.set d m q.1 q.2) l) k = v
    by_cases h : ∃ p ∈ l, p.1 = k
    · exact ih (fun p hp => hv p (List.mem_cons_of_mem _ hp)) _ h
    · have hq : q.1 = k := by
        obtain ⟨p, hp, hpk⟩ := hk
        obtain rfl | hp := List.mem_cons.mp hp
        · exact hpk
        · exact absurd ⟨p, hp, hpk⟩ h
      rw [get_setAll_of_not_mem d l k _ (fun p hp hpk => h ⟨p, hp, hpk⟩), hq, SMap.get_set_same]
      exact hv q List.mem_cons_self hq

/-- Bits set one by one where a condition holds. -/
theorem testBit_foldl_setBit (p : Nat → Prop) [DecidablePred p] (i : Nat) (l : List Nat) : ∀ m : Nat,
    (l.foldl (fun m b => if p b then m ||| 2 ^ b else m) m).testBit i = true ↔ m.testBit i = true ∨ (i ∈ l ∧ p i) := by
  induction l with
  | nil => simp
  | cons b l ih =>
    intro m
    rw [List.foldl_cons, ih]
    by_cases hb : p b
    · by_cases hi : b = i
      · subst hi; simp [hb]
      · simp [hb, hi, Ne.symm hi]
    · by_cases hi : b = i
      · subst hi; simp [hb]
      · simp [hb, Ne.symm hi]

/-- Bitmaps joined. -/
theorem testBit_foldl_or {β : Type} (f : β → Nat) (i : Nat) (l : List β) : ∀ m : Nat,
    (l.foldl (fun m b => m ||| f b) m).testBit i = true ↔ m.testBit i = true ∨ ∃ b ∈ l, (f b).testBit i = true := by
  induction l with
  | nil => simp
  | cons b l ih => intro m; rw [List.foldl_cons, ih]; simp [or_assoc]

/-- A bitmap without its low bits. -/
theorem testBit_sub_low (x n i : Nat) : (x - (x &&& (2 ^ n - 1))).testBit i = true ↔ x.testBit i = true ∧ n ≤ i := by
  have hx : x - (x &&& (2 ^ n - 1)) = x / 2 ^ n * 2 ^ n := by
    rw [Nat.and_two_pow_sub_one_eq_mod]
    have := Nat.div_add_mod' x (2 ^ n)
    omega
  rw [hx, Nat.testBit_mul_two_pow, Nat.testBit_div_two_pow, Bool.and_eq_true, decide_eq_true_eq]
  by_cases hi : n ≤ i
  · rw [Nat.sub_add_cancel hi]; tauto
  · simp [hi]

/-- A sum added up from the left. -/
theorem foldl_add_eq_sum {α β : Type} [AddMonoid α] (f : β → α) (l : List β) : ∀ a : α, l.foldl (fun a b => a + f b) a = a + (l.map f).sum := by
  induction l with
  | nil => simp
  | cons b l ih => intro a; rw [List.foldl_cons, ih, List.map_cons, List.sum_cons, add_assoc]

/-! ## The head of a Lode queue -/

section
variable {s : State} {core : Nat} {c : Cmd} {rest : List Cmd} (hq : (coreAt s core).qd = c :: rest)

include hq in
theorem qd_upHead (f : Cmd → Cmd) : (coreAt (upHead s core .lode f) core).qd = f c :: rest := by
  rw [upHead, coreAt_upCore, if_pos rfl]
  simp only [getQ, hq, setQ]

theorem slotAt_upHead (f : Cmd → Cmd) (st n : Nat) : slotAt (upHead s core .lode f) st n = slotAt s st n := rfl
theorem regionAt_upHead (f : Cmd → Cmd) (n : Nat) : regionAt (upHead s core .lode f) n = regionAt s n := rfl
theorem blockAt_upHead (f : Cmd → Cmd) (k : Nat) : blockAt (upHead s core .lode f) k = blockAt s k := rfl

theorem blockAt_senseBlock (k senses j : Nat) (retry : Bool) : blockAt (senseBlock s k senses retry) j = if k = j then
    { blockAt s k with disturb := (blockAt s k).disturb + senses, retries := (blockAt s k).retries + if retry then 1 else 0 } else blockAt s j :=
  SMap.get_set _ _ _ _ _
end

/-! ## Slots and latches of a stack (R251, R254) -/

theorem stackAt_setStack (s : State) (st : Nat) (x : LStack) (k : Nat) : stackAt (setStack s st x) k = if st = k then x else stackAt s k :=
  SMap.get_set _ _ _ _ _

theorem slotAt_upSlot (s : State) (st n : Nat) (f : LSlot → LSlot) (k m : Nat) :
    slotAt (upSlot s st n f) k m = if st = k ∧ n = m then f (slotAt s st n) else slotAt s k m := by
  rw [slotAt, upSlot, stackAt_setStack]
  by_cases hk : st = k
  · subst hk
    simp only [if_true, SMap.get_set, true_and]
    rfl
  · simp only [hk, if_false, false_and]
    rfl

theorem regionAt_upSlot (s : State) (st n : Nat) (f : LSlot → LSlot) (k : Nat) : regionAt (upSlot s st n f) k = regionAt s k := rfl

theorem latchAt_upSlot (s : State) (st n : Nat) (f : LSlot → LSlot) (k v : Nat) : latchAt (upSlot s st n f) k v = latchAt s k v := by
  rw [latchAt, upSlot, stackAt_setStack]
  by_cases hk : st = k
  · subst hk; simp only [if_true]; rfl
  · simp only [hk, if_false]; rfl

/-- One slot of each of some stacks changed, as the stack's latches say. -/
def upSlots (s : State) (sts : List Nat) (n : Nat) (g : (Nat → LEntry) → LSlot → LSlot) : State :=
  sts.foldl (fun s st => upSlot s st n (g (latchAt s st))) s

theorem latchAt_upSlots (n : Nat) (g : (Nat → LEntry) → LSlot → LSlot) (k v : Nat) (sts : List Nat) :
    ∀ s : State, latchAt (upSlots s sts n g) k v = latchAt s k v := by
  induction sts with
  | nil => exact fun s => rfl
  | cons st sts ih => exact fun s => (ih _).trans (latchAt_upSlot s st n _ k v)

theorem slotAt_upSlots (n : Nat) (g : (Nat → LEntry) → LSlot → LSlot) (k m : Nat) (sts : List Nat) : ∀ s : State, sts.Nodup →
    slotAt (upSlots s sts n g) k m = if k ∈ sts ∧ n = m then g (latchAt s k) (slotAt s k n) else slotAt s k m := by
  induction sts with
  | nil => intro s _; rw [if_neg (by simp)]; rfl
  | cons st sts ih =>
    intro s hn
    obtain ⟨hst, hn⟩ := List.nodup_cons.mp hn
    change slotAt (upSlots (upSlot s st n (g (latchAt s st))) sts n g) k m = _
    have hl : latchAt (upSlot s st n (g (latchAt s st))) k = latchAt s k := funext fun v => latchAt_upSlot s st n _ k v
    rw [ih _ hn, hl, slotAt_upSlot, slotAt_upSlot]
    by_cases hm : n = m
    · subst hm
      by_cases hk : st = k
      · subst hk; simp [hst]
      · simp [hk, Ne.symm hk]
    · simp [hm]

/-- Nothing has changed but the stacks of the Lode. -/
def OnlyLode (s t : State) : Prop := t = { s with lode := t.lode }

theorem OnlyLode.refl (s : State) : OnlyLode s s := rfl
theorem OnlyLode.trans (s t u : State) (h : OnlyLode s t) (k : OnlyLode t u) : OnlyLode s u := Eq.trans k (by rw [h])

theorem OnlyLode.withLode {s t : State} (h : OnlyLode s t) (m : SMap LStack) : { t with lode := m } = { s with lode := m } := by rw [h]

theorem onlyLode_upSlots (s : State) (sts : List Nat) (n : Nat) (g : (Nat → LEntry) → LSlot → LSlot) : OnlyLode s (upSlots s sts n g) :=
  foldl_rel (R := OnlyLode) .refl .trans (f := fun s st => upSlot s st n (g (latchAt s st))) (fun _ _ => rfl) sts s

theorem nodup_stacksOf (mask : Nat) : (stacksOf mask).Nodup := List.nodup_range.filter _

/-! ## What reports, marks and accesses of a controller leave -/

/-- The stacks of the Lode are as before. -/
def SameLode (s t : State) : Prop := t.lode = s.lode

theorem SameLode.refl (s : State) : SameLode s s := rfl
theorem SameLode.trans (s t u : State) (h : SameLode s t) (k : SameLode t u) : SameLode s u := Eq.trans k h

section
variable {s t : State} (h : SameLode s t)
include h

theorem SameLode.stackAt_eq (n : Nat) : stackAt t n = stackAt s n := congrArg (fun m => SMap.get ({} : LStack) m n) h
theorem SameLode.slotAt_eq (st n : Nat) : slotAt t st n = slotAt s st n := by rw [slotAt, h.stackAt_eq]; rfl
theorem SameLode.latchAt_eq (st v : Nat) : latchAt t st v = latchAt s st v := by rw [latchAt, h.stackAt_eq]; rfl
end

/-- The cores and the stacks of the Lode are as before. -/
def SameUnits (s t : State) : Prop := t.cores = s.cores ∧ t.lode = s.lode

theorem SameUnits.refl (s : State) : SameUnits s s := ⟨rfl, rfl⟩
theorem SameUnits.trans (s t u : State) (h : SameUnits s t) (k : SameUnits t u) : SameUnits s u :=
  ⟨k.1.trans h.1, k.2.trans h.2⟩

theorem SameUnits.sameLode {s t : State} (h : SameUnits s t) : SameLode s t := h.2
theorem SameUnits.coreAt_eq {s t : State} (h : SameUnits s t) (n : Nat) : coreAt t n = coreAt s n :=
  congrArg (fun m => SMap.get ({} : Core) m n) h.1

theorem sameUnits_teamReport (s : State) (core : Nat) (r : FRec) : SameUnits s (teamReport s core r) := by
  unfold teamReport holdReport
  dsimp only
  split <;> [exact .refl s; split <;> exact .refl s]

theorem regionAt_teamReport (s : State) (core : Nat) (r : FRec) (n : Nat) : regionAt (teamReport s core r) n = regionAt s n := by
  unfold teamReport holdReport
  dsimp only
  split <;> [rfl; split <;> rfl]

theorem onlyFns_noteHealth (s t : State) : OnlyFns t (noteHealth s t) := by
  unfold noteHealth
  split <;> [exact .refl t; exact onlyFns_signalEvent t 2]

theorem markFailed_of_region {s : State} {num : Nat} {r : Region} (hr : regionAt s num = some r) (n : Nat) :
    markFailed s num n = noteHealth s (setRegion s num (some { r with failed := SMap.set false r.failed n true })) := by
  rw [markFailed, hr]

theorem sameUnits_markFailed (s : State) (num n : Nat) : SameUnits s (markFailed s num n) := by
  unfold markFailed
  split
  · exact ⟨(onlyFns_noteHealth s _).field State.cores (fun _ _ _ => rfl), (onlyFns_noteHealth s _).field State.lode (fun _ _ _ => rfl)⟩
  · exact .refl s

theorem regionAt_setRegion (s : State) (n : Nat) (r : Option Region) (k : Nat) : regionAt (setRegion s n r) k = if n = k then r else regionAt s k :=
  SMap.get_set _ _ _ _ _

theorem regionAt_markFailed {s : State} {num : Nat} {r : Region} (hr : regionAt s num = some r) (n : Nat) :
    regionAt (markFailed s num n) num = some { r with failed := SMap.set false r.failed n true } := by
  rw [markFailed_of_region hr, (onlyFns_noteHealth s _).field (regionAt · num) (fun _ _ _ => rfl), regionAt_setRegion, if_pos rfl]

theorem OnlyMem.sameUnits {s t : State} (h : OnlyMem s t) : SameUnits s t :=
  ⟨h.field State.cores (fun _ _ _ _ => rfl), h.field State.lode (fun _ _ _ _ => rfl)⟩

theorem sameUnits_markPte (s : State) (k : Nat) (f : Byte → Byte) : SameUnits s (markPte s k f) := by
  unfold markPte
  split <;> [exact .refl s; exact (onlyMem_writeMem s _).sameUnits]

section
variable {w : Who} (hw : w.agent = .lode)
include hw

theorem sameUnits_loadPte (s : State) (k : Nat) : SameUnits s (loadPte s w k) := by
  unfold loadPte
  dsimp only
  split
  · simp only [holdPte, hw]
    exact sameUnits_markPte s k _
  · exact .refl s

theorem sameUnits_notePage (s : State) (sh : Bool) (a : Nat) : SameUnits s (notePage s w sh a) := by
  unfold notePage
  split
  · exact .refl s
  · split
    · exact .refl s
    · dsimp only
      split
      · exact .trans _ _ _ (sameUnits_loadPte hw s _) (sameUnits_loadPte hw _ _)
      · exact sameUnits_loadPte hw s _

omit hw in
theorem sameUnits_fillRun (s : State) (a n : Nat) : SameUnits s (fillRun s w a n) := by
  unfold fillRun
  split <;> [exact (onlyMem_fillAll s _).sameUnits; exact .refl s]

/-- The accesses of a Lode controller, noted, leave cores and stacks: it holds its translations apart from the cores (R365). -/
theorem sameUnits_noteAll (s : State) (l : List (Bool × Nat)) : SameUnits s (noteAll s w l) :=
  .trans _ _ _ (foldl_rel (R := SameUnits) .refl .trans (f := fun s (p : Bool × Nat) => notePage s w p.1 (p.2 * 2 ^ 21))
      (fun s p => sameUnits_notePage hw s p.1 _) _ s)
    (foldl_rel (R := SameUnits) .refl .trans (f := fun s (p : Bool × Nat) => fillRun s w p.2 1) (fun s p => sameUnits_fillRun s p.2 1) _ _)
end

theorem lodeWho_agent (s : State) (core : Nat) : (lodeWho s core).agent = .lode := by
  simp only [lodeWho, whoCore]
  split <;> rfl

/-! ## Computed writes -/

theorem sameLode_engWr (s : State) (k : Nat) (b : Byte) : SameLode s (engWr s k b) := by
  unfold engWr
  split
  · exact upCore_lode _ _ _
  · unfold wrByte; split <;> rfl

theorem sameLode_areaWrite (s : State) (l : List (Nat × Byte)) : SameLode s (areaWrite s l) :=
  foldl_rel (R := SameLode) .refl .trans (f := fun s tid => upTeam s tid _) (fun _ _ => rfl) _ s

theorem sameLode_engWrs (s : State) (l : List (Nat × Byte)) : SameLode s (engWrs s l) := by
  have h := foldl_rel (R := SameLode) .refl .trans (f := fun s (p : Nat × Byte) => engWr s p.1 p.2) (fun s p => sameLode_engWr s p.1 p.2)
    (l.filter (fun p => !inArea s p.1)) s
  unfold engWrs
  dsimp only
  split <;> [exact h; exact .trans _ _ _ h (sameLode_areaWrite _ _)]

/-- Values that a controller writes leave the stacks. -/
theorem sameLode_putAll {w : Who} (hw : w.agent = .lode) (s : State) (l : List (Except Stop Nat × List Byte)) : SameLode s (putAll s w l).1 :=
  SameLode.trans _ _ _ (sameUnits_noteAll hw s _).sameLode
    (foldl_rel (R := SameLode) .refl .trans (f := fun s (p : List Nat × List Byte) => engWrs s (p.1.zip p.2)) (fun s _ => sameLode_engWrs s _) _ _)

theorem length_resolvePuts {s : State} {w : Who} (l : List (Except Stop Nat × List Byte)) : ∀ q, (resolvePuts s w l q).2 = none →
    (resolvePuts s w l q).1.length = l.length := by
  induction l with
  | nil => exact fun q _ => rfl
  | cons p l ih =>
    obtain ⟨a, d⟩ := p
    intro q h
    unfold resolvePuts at h ⊢
    split at h
    · cases h
    · simp only [List.length_cons, ih _ h]

/-- Values that are written without a stop are all written. -/
theorem putAll_complete {s : State} {w : Who} {l : List (Except Stop Nat × List Byte)} (h : (putAll s w l).2.1 = none) :
    (putAll s w l).2.2 = l.length := by
  unfold putAll at h ⊢
  dsimp only at h ⊢
  split at h
  · cases h
  · exact length_resolvePuts l 0 h

end Sys2Proof.Machine
end

section
/-! PROOFS. Page reads of a Lode command: what holds a sense back, what one takes, and how a tile of a wave ends (R17, R70, R254–R256,
R380–R384). -/

namespace Sys2Proof.Machine

/-! ## The outcome of a sense (R255) -/

theorem senseOutcome_fails (soft : Bool) (o : PageOutcome) : (senseOutcome soft o).2.1 = true ↔
    o = .uncorrectable ∨ o = .checkFailed ∨ (o = .soft ∧ soft = false) := by
  simp [senseOutcome, or_assoc]

theorem senseOutcome_retries (soft : Bool) (o : PageOutcome) : (senseOutcome soft o).1 = true ↔
    soft = true ∧ (o = .soft ∨ o = .uncorrectable) := by
  simp [senseOutcome]

theorem senseOutcome_senses (soft : Bool) (o : PageOutcome) : (senseOutcome soft o).2.2.2 = if (senseOutcome soft o).1 then 3 else 1 := rfl

/-! ## A page read of a tile that stands -/

/-- The blocks of a tile's pages, as the mapping of its first page names them (R380). -/
def unitBlocks (r : Region) (c : Cmd) (n planes : Nat) : List Nat :=
  if c.wave.plane = 0 then (List.range planes).map (pageBlock (c.arg - 1) r n) else c.wave.blks

/-- The block that is sensed (R382). -/
def senseKey (r : Region) (c : Cmd) (n : Nat) : Nat :=
  blockKey (tilePlace r n).1 (tilePlace r n).2.1 (tilePlace r n).2.2
    (if c.wave.plane = 0 then pageBlock (c.arg - 1) r n 0 else c.wave.blks.getD c.wave.plane 0)

theorem getD_unitBlocks_first {r : Region} {c : Cmd} {n planes j : Nat} (h0 : c.wave.plane = 0) (hj : j < planes) :
    (unitBlocks r c n planes).getD j 0 = pageBlock (c.arg - 1) r n j := by
  simp [unitBlocks, h0, hj]

theorem blockKey_unitBlocks {r : Region} {c : Cmd} {n planes : Nat} (hi : c.wave.plane < planes) :
    blockKey (tilePlace r n).1 (tilePlace r n).2.1 (tilePlace r n).2.2 ((unitBlocks r c n planes).getD c.wave.plane 0) = senseKey r c n := by
  rw [senseKey]
  by_cases h0 : c.wave.plane = 0
  · rw [getD_unitBlocks_first h0 hi, if_pos h0, h0]
  · rw [if_neg h0, unitBlocks, if_neg h0]

/-- A tick reserved for the tile's plane group (R383). -/
def InReserved (s : State) (r : Region) (n : Nat) : Prop := s.tick % 64 = 8 * ((tilePlace r n).2.2 / 16) + (tilePlace r n).2.1

/-- Shoring holds the plane or the block (R384). -/
def HeldBack (s : State) (r : Region) (c : Cmd) (n : Nat) : Prop :=
  stolenTick s (tilePlace r n).1 (tilePlace r n).2.1 (tilePlace r n).2.2 = true ∨
    disturbLimit (if r.layout = 0 then isFast r c.wave.plane else r.fastn == 1) ≤ (blockAt s (senseKey r c n)).disturb

/-- A command after a sense of the page at `c`'s place. -/
def senseHead (s : State) (r : Region) (c : Cmd) (n planes : Nat) (o : PageOutcome) (x : Cmd) : Cmd :=
  let p := planeKey (tilePlace r n).1 (tilePlace r n).2.1 (tilePlace r n).2.2
  let z := senseOutcome r.soft o
  { x with
    started := true
    flags := x.flags ||| (if z.1 && showsRetry x.op then 8 else 0) ||| (if senseLate s x p then 16 else 0)
    wave := { x.wave with
      plane := c.wave.plane + 1, blks := unitBlocks r c n planes, senses := x.wave.senses + z.2.2.2, failed := x.wave.failed || z.2.1,
      e2e := if o = .checkFailed then 3 else x.wave.e2e,
      nfail := x.wave.nfail + if z.2.1 then 1 else 0,
      first := if z.2.1 && !x.wave.failed then 8 * z.2.2.1 + c.wave.plane else x.wave.first,
      hit := SMap.set false x.wave.hit p true,
      gen := if c.wave.plane = 0 then SMap.get 0 r.gen n else x.wave.gen,
      snap := if c.wave.plane = 0 then (if x.op == .sacc then tileCodes r n else SMap.setAll 0 x.wave.snap (unitBytes r n)) else x.wave.snap } }

/-- The state after that sense. -/
def sensed (s : State) (core : Nat) (r : Region) (c : Cmd) (n planes : Nat) (o : PageOutcome) : State :=
  upHead (senseBlock s (senseKey r c n) (senseOutcome r.soft o).2.2.2 (senseOutcome r.soft o).1) core .lode (senseHead s r c n planes o)

section
variable {s : State} {core : Nat} {r : Region} {c : Cmd} {units : List Nat} {planes : Nat} {o : PageOutcome} {n : Nat}
  (hn : units.getD c.wave.tile 0 = n)
include hn

theorem sensePage_reserved (h : InReserved s r n) : sensePage s core r c units planes o = s := by
  subst hn
  exact if_pos (beq_iff_eq.mpr h)

variable (h : ¬ InReserved s r n) (hi : c.wave.plane < planes)
include h hi

theorem sensePage_heldBack (hb : HeldBack s r c n) : sensePage s core r c units planes o = deferHead s core c := by
  subst hn
  refine (if_neg (fun e => h (beq_iff_eq.mp e))).trans (if_pos ?_)
  change (_ || decide (_ ≤ (blockAt s (blockKey _ _ _ ((unitBlocks r c _ planes).getD c.wave.plane 0))).disturb)) = true
  rw [blockKey_unitBlocks hi, Bool.or_eq_true, decide_eq_true_eq]
  exact hb

theorem sensePage_senses (hb : ¬ HeldBack s r c n) : sensePage s core r c units planes o =
    if c.wave.plane + 1 < planes then sensed s core r c n planes o
    else endTile (sensed s core r c n planes o) core r (senseHead s r c n planes o c) n := by
  subst hn
  refine (if_neg (fun e => h (beq_iff_eq.mp e))).trans ((if_neg ?_).trans ?_)
  · change ¬ (_ || decide (_ ≤ (blockAt s (blockKey _ _ _ ((unitBlocks r c _ planes).getD c.wave.plane 0))).disturb)) = true
    rw [blockKey_unitBlocks hi, Bool.or_eq_true, decide_eq_true_eq]
    exact hb
  · rw [sensed, ← blockKey_unitBlocks hi]
    rfl
end

/-- A wave of an earlier place in the issue order still to start on the stack (R17, R256). -/
theorem startsAfter_iff (s : State) (c : Cmd) (st : Nat) : startsAfter s c st = true ↔
    c.op = .sacc ∧ c.stamp.isSome ∧ (∀ x ∈ c.wave.hit, x.2 = true → x.1 / 1024 ≠ st) ∧
      ∃ y ∈ s.cores, ∃ x ∈ y.2.qd, x.op = .sacc ∧ x.done = none ∧ x.stamp = c.stamp ∧ x.ord < c.ord ∧ toStart s x st = true := by
  simp [startsAfter, and_assoc]

section
variable {s : State} {core : Nat} {c : Cmd} {rest : List Cmd} {r : Region} (hq : (coreAt s core).qd = c :: rest)
  (hd : c.done = none) (href : lodeRefusal s core c = none) (hst : c.stamp.isSome → c.started = true)
  (hired : c.op = .ired → c.started = true) (hr : cmdRegion s c = some r) (ht : c.wave.tile < (readUnits r c).1.length)
include hq hd href hst hired hr ht

theorem pageRead_of_stands (o : PageOutcome)
    (hstand : c.wave.plane ≠ 0 ∨ (tileDead s r ((readUnits r c).1.getD c.wave.tile 0) = false ∧
      SMap.get false r.failed ((readUnits r c).1.getD c.wave.tile 0) = false)) :
    pageRead s core o = if startsAfter s c (tilePlace r ((readUnits r c).1.getD c.wave.tile 0)).1 then s
      else sensePage s core r c (readUnits r c).1 (readUnits r c).2 o := by
  have hrun : (c.done.isSome || (lodeRefusal s core c).isSome || (c.stamp.isSome && !c.started) || (c.op == .ired && !c.started)) = false := by
    simp only [hd, href, Option.isSome_none, Bool.false_or, Bool.or_eq_false_iff, Bool.and_eq_false_imp, Bool.not_eq_false', beq_iff_eq]
    exact ⟨hst, hired⟩
  have hlive : ¬ (c.wave.plane = 0 ∧ (tileDead s r ((readUnits r c).1.getD c.wave.tile 0) ||
      SMap.get false r.failed ((readUnits r c).1.getD c.wave.tile 0)) = true) := by
    rintro ⟨h0, h⟩
    obtain h1 | ⟨h1, h2⟩ := hstand
    · exact h1 h0
    · rw [h1, h2] at h; exact absurd h (by decide)
  simp only [pageRead, hq, hrun, hr, Bool.false_eq_true, if_false, if_neg (Nat.not_le.mpr ht), if_neg hlive]
end

/-! ## A sense held back (R256, R384) -/

theorem deferHead_of_ne_sacc {s : State} {core : Nat} {c : Cmd} (hop : c.op ≠ .sacc) : deferHead s core c = s := if_pos (.inr hop)

/-- A wave held back shows DEFER, and no more of it has changed. -/
theorem deferHead_defers {s : State} {core : Nat} {c : Cmd} {rest : List Cmd} (hq : (coreAt s core).qd = c :: rest) (hop : c.op = .sacc) :
    ∃ c', (deferHead s core c).blocks = s.blocks ∧ (coreAt (deferHead s core c) core).qd = c' :: rest ∧ c'.flags % 2 = 1 ∧ c'.wave = c.wave ∧
      (deferHead s core c).mem = s.mem := by
  by_cases hf : c.flags % 2 = 1
  · rw [deferHead, if_pos (.inl hf)]
    exact ⟨c, rfl, hq, hf, rfl, rfl⟩
  · have hh := qd_upHead hq (fun c => { c with flags := c.flags ||| 1 })
    refine ⟨{ c with flags := c.flags ||| 1 }, ?_⟩
    rw [deferHead, if_neg (not_or.mpr ⟨hf, not_not.mpr hop⟩)]
    dsimp only
    split <;> exact ⟨rfl, hh, Nat.or_mod_two_eq_one.mpr (.inr rfl), rfl, rfl⟩

/-! ## What a sense takes -/

section
variable (s : State) (core : Nat) (r : Region) (c : Cmd) (n planes : Nat) (o : PageOutcome)

theorem senseHead_failed : (senseHead s r c n planes o c).wave.failed = true ↔
    c.wave.failed = true ∨ o = .uncorrectable ∨ o = .checkFailed ∨ (o = .soft ∧ r.soft = false) := by
  rw [← senseOutcome_fails]
  exact Bool.or_eq_true_iff

/-- LATE of the command after a sense (R256). -/
theorem senseHead_late : (senseHead s r c n planes o c).flags.testBit 4 = true ↔ c.flags.testBit 4 = true ∨
    (c.op = .sacc ∧ SMap.get false c.wave.hit (planeKey (tilePlace r n).1 (tilePlace r n).2.1 (tilePlace r n).2.2) = false ∧
      ∃ u, c.stamp = some u ∧ u < s.tick) := by
  have h8 : ∀ b : Bool, (if b = true then 8 else 0).testBit 4 = false := by decide
  have h16 : ∀ b : Bool, (if b = true then 16 else 0).testBit 4 = b := by decide
  simp only [senseHead, Nat.testBit_or, h8, h16, Bool.or_false, Bool.or_eq_true]
  refine or_congr_right ?_
  cases hs : c.stamp with
  | none => simp [senseLate, hs]
  | some t => simp [senseLate, hs]; tauto

/-- The codes that a wave holds of its tile after a sense: those of the region as its first page is read (R380). -/
theorem senseHead_snap (hop : c.op = .sacc) {k : Nat} (hk : k < 131072) : SMap.get 0 (senseHead s r c n planes o c).wave.snap k =
    if c.wave.plane = 0 then SMap.get 0 r.data (regKey (128 * (n / r.ncols) + k / 1024) (1024 * (n % r.ncols) + k % 1024))
    else SMap.get 0 c.wave.snap k := by
  by_cases h0 : c.wave.plane = 0
  · simp only [senseHead, h0, hop, beq_self_eq_true, if_true, tileCodes, SMap.get_tab, if_pos hk]
  · simp only [senseHead, h0, if_false]

theorem qd_sensed {rest : List Cmd} (hq : (coreAt s core).qd = c :: rest) :
    (coreAt (sensed s core r c n planes o) core).qd = senseHead s r c n planes o c :: rest :=
  qd_upHead (s := senseBlock s (senseKey r c n) (senseOutcome r.soft o).2.2.2 (senseOutcome r.soft o).1) hq _

theorem blockAt_sensed_same : blockAt (sensed s core r c n planes o) (senseKey r c n) =
    { blockAt s (senseKey r c n) with
      disturb := (blockAt s (senseKey r c n)).disturb + (senseOutcome r.soft o).2.2.2
      retries := (blockAt s (senseKey r c n)).retries + if (senseOutcome r.soft o).1 then 1 else 0 } := by
  rw [sensed, blockAt_upHead, blockAt_senseBlock, if_pos rfl]

theorem blockAt_sensed_of_ne {k : Nat} (h : k ≠ senseKey r c n) : blockAt (sensed s core r c n planes o) k = blockAt s k := by
  rw [sensed, blockAt_upHead, blockAt_senseBlock, if_neg (Ne.symm h)]

theorem sensed_regions : (sensed s core r c n planes o).regions = s.regions := rfl
theorem sensed_lode : (sensed s core r c n planes o).lode = s.lode := rfl
theorem sensed_mem : (sensed s core r c n planes o).mem = s.mem := rfl
end

/-- Page reads of a tile that stands, up to its last plane (R17, R254–R256, R380–R384). -/
theorem pagesAreReadOneByOne : Claim.LodePagesAreRead := by
  intro s core o c rest r hq hd href hst hired hr ht n p i fast key heldBack retry fails reserved hstand hi
  have hread : exec (.lodePageRead core o) s = .next (pageRead s core o) := rfl
  rw [hread, pageRead_of_stands hq hd href hst hired hr ht o hstand]
  have hretry : (senseOutcome r.soft o).1 = decide retry := Bool.eq_iff_iff.mpr (by rw [senseOutcome_retries, decide_eq_true_eq])
  have hsenses : (senseOutcome r.soft o).2.2.2 = if retry then 3 else 1 := by simp only [senseOutcome_senses, hretry, decide_eq_true_eq]
  refine ⟨fun h => ?_, startsAfter_iff s c p.1, fun hres hsa hb hop => ?_, fun hres hsa hb hop => ?_, fun hres hsa hb hmore => ?_⟩
  · obtain h | h := h
    · rw [sensePage_reserved rfl h, ite_self]
    · rw [if_pos h]
  · rw [if_neg (by rw [hsa]; decide), sensePage_heldBack rfl hres hi hb, deferHead_of_ne_sacc hop]
  · rw [if_neg (by rw [hsa]; decide), sensePage_heldBack rfl hres hi hb]
    obtain ⟨c', hblocks, hqd, hflags, hwave, hmem⟩ := deferHead_defers hq hop
    exact ⟨_, c', rfl, hblocks, hqd, hflags, hwave, hmem⟩
  · rw [if_neg (by rw [hsa]; decide), sensePage_senses rfl hres hi hb, if_pos hmore]
    refine ⟨_, _, rfl, qd_sensed s core r c n _ o hq, rfl, rfl, rfl, senseHead_failed s r c n _ o, ?_, fun h0 => if_neg h0, fun h0 => ?_,
      senseHead_late s r c n _ o, ?_, ?_, fun k hk => ?_, sensed_regions .., sensed_lode .., sensed_mem ..⟩
    · exact congrArg (c.wave.senses + ·) hsenses
    · refine ⟨if_pos h0, fun j hj => getD_unitBlocks_first h0 hj, fun hop k hk => ?_⟩
      rw [senseHead_snap s r c n _ o hop hk, if_pos h0]
    · exact (congrArg Block.disturb (blockAt_sensed_same s core r c n _ o)).trans (congrArg ((blockAt s key).disturb + ·) hsenses)
    · refine (congrArg Block.retries (blockAt_sensed_same s core r c n _ o)).trans ?_
      simp only [hretry, decide_eq_true_eq]
      rfl
    · exact blockAt_sensed_of_ne s core r c n _ o hk

end Sys2Proof.Machine
end

section
/-! PROOFS. The end of a tile of a wave: a tile that was read is added to its stack's slot, one that failed is marked (R70, R254, R255,
R260, R381). -/

namespace Sys2Proof.Machine

/-! ## The sums of a tile (R70, R254) -/

theorem mem_saccVecs {c : Cmd} {v : Nat} : v ∈ saccVecs c ↔ v < 8 ∧ c.pairs.testBit v = true := by
  simp [saccVecs, Nat.testBit_eq_decide_div_mod_eq]

theorem rectOf_sacc_r0 {c : Cmd} (hop : c.op = .sacc) : (rectOf c).r0 = c.rb.toNat % 2 ^ 16 := by
  rw [rectOf, if_pos hop]

theorem tilePart_eq_sum (c : Cmd) (e : LEntry) (col0 row : Nat) : tilePart c e col0 row = ((List.range 1024).map (fun j =>
    planeVal (SMap.get 0 c.wave.snap (1024 * row + j)).toNat c.k c.mid * latchCode e (col0 + j))).sum := by
  have hterm (a : Int) (j : Nat) : (if latchCode e (col0 + j) = 0 then a
      else a + planeVal (SMap.get 0 c.wave.snap (1024 * row + j)).toNat c.k c.mid * latchCode e (col0 + j)) =
      a + planeVal (SMap.get 0 c.wave.snap (1024 * row + j)).toNat c.k c.mid * latchCode e (col0 + j) := by
    split
    · next h => rw [h, mul_zero, add_zero]
    · rfl
  simp only [tilePart, hterm, foldl_add_eq_sum, zero_add]

/-- The bit of a tile's row in the bitmaps of its wave (R254). -/
def rowBit (r : Region) (c : Cmd) (n : Nat) : Nat := n / r.ncols - (rectOf c).r0

/-- What the slot's elements come to, before the clamp: by vector and row of the tile. -/
def tileAdds (s : State) (r : Region) (c : Cmd) (n : Nat) : List (Nat × Int) :=
  (saccVecs c).flatMap (fun v => (List.range 128).map (fun i =>
    (8 * (128 * rowBit r c n + i) + v,
      SMap.get 0 (slotAt s (tilePlace r n).1 (saccSlot c)).acc (8 * (128 * rowBit r c n + i) + v) +
        tilePart c (latchAt s (tilePlace r n).1 v) (1024 * (n % r.ncols)) i)))

/-- The slot with the tile added. -/
def addedSlot (s : State) (r : Region) (c : Cmd) (n : Nat) (x : LSlot) : LSlot :=
  { x with acc := SMap.setAll 0 x.acc ((tileAdds s r c n).map (fun p => (p.1, slotClamp p.2)))
           sat := x.sat || (tileAdds s r c n).any (fun p => slotClamp p.2 != p.2) }

theorem addTile_eq (s : State) (r : Region) (c : Cmd) (n : Nat) : addTile s r c n =
    (upSlot s (tilePlace r n).1 (saccSlot c) (addedSlot s r c n), (tileAdds s r c n).any (fun p => slotClamp p.2 != p.2)) := rfl

section
variable (s : State) (r : Region) (c : Cmd) (n : Nat)

theorem mem_clampedAdds {p : Nat × Int} : p ∈ (tileAdds s r c n).map (fun p => (p.1, slotClamp p.2)) ↔
    ∃ v row, v < 8 ∧ c.pairs.testBit v = true ∧ row < 128 ∧ p = (8 * (128 * rowBit r c n + row) + v,
      slotClamp (SMap.get 0 (slotAt s (tilePlace r n).1 (saccSlot c)).acc (8 * (128 * rowBit r c n + row) + v) +
        tilePart c (latchAt s (tilePlace r n).1 v) (1024 * (n % r.ncols)) row)) := by
  simp only [tileAdds, List.map_flatMap, List.map_map, List.mem_flatMap, List.mem_map, mem_saccVecs, List.mem_range, Function.comp]
  constructor
  · rintro ⟨v, ⟨hv, hp⟩, row, hrow, rfl⟩
    exact ⟨v, row, hv, hp, hrow, rfl⟩
  · rintro ⟨v, row, hv, hp, hrow, rfl⟩
    exact ⟨v, ⟨hv, hp⟩, row, hrow, rfl⟩

theorem acc_addedSlot {v row : Nat} (hv : v < 8) (hp : c.pairs.testBit v = true) (hrow : row < 128) (x : LSlot) :
    SMap.get 0 (addedSlot s r c n x).acc (8 * (128 * rowBit r c n + row) + v) =
      slotClamp (SMap.get 0 (slotAt s (tilePlace r n).1 (saccSlot c)).acc (8 * (128 * rowBit r c n + row) + v) +
        tilePart c (latchAt s (tilePlace r n).1 v) (1024 * (n % r.ncols)) row) := by
  refine get_setAll_of_mem 0 _ _ _ (fun p hmem hk => ?_) _ ⟨_, (mem_clampedAdds s r c n).mpr ⟨v, row, hv, hp, hrow, rfl⟩, rfl⟩
  obtain ⟨v', row', hv', -, -, rfl⟩ := (mem_clampedAdds s r c n).mp hmem
  dsimp only at hk ⊢
  obtain rfl : v' = v := by omega
  obtain rfl : row' = row := by omega
  rfl

theorem acc_addedSlot_of_ne {k : Nat} (h : ∀ v row, v < 8 → c.pairs.testBit v = true → row < 128 →
    k ≠ 8 * (128 * rowBit r c n + row) + v) (x : LSlot) : SMap.get 0 (addedSlot s r c n x).acc k = SMap.get 0 x.acc k := by
  refine get_setAll_of_not_mem 0 _ k _ (fun p hmem hk => ?_)
  obtain ⟨v, row, hv, hp, hrow, rfl⟩ := (mem_clampedAdds s r c n).mp hmem
  exact h v row hv hp hrow hk.symm
end

/-! ## The end of a tile -/

/-- A command with its tile over. -/
def nextTile (f : Wave → Wave) (c : Cmd) : Cmd :=
  upWave c (fun w => { f w with tile := w.tile + 1, plane := 0, failed := false, nfail := 0, first := 0,
                                snap := if c.op == .sacc then [] else w.snap })

/-- The state with a failed tile marked, unless it has a new mapping since its first page was sensed, and reported (R380, R381). -/
def tileFailed (s : State) (core : Nat) (r : Region) (c : Cmd) (n : Nat) : State :=
  teamReport (if c.wave.gen != SMap.get 0 r.gen n then s else markFailed s (c.arg - 1) n) core
    (eccRec s (c.arg - 1) r n (c.wave.first / 8) (c.wave.first % 8) c.wave.nfail (c.wave.blks.getD (c.wave.first % 8) 0))

theorem sameUnits_tileFailed (s : State) (core : Nat) (r : Region) (c : Cmd) (n : Nat) : SameUnits s (tileFailed s core r c n) := by
  refine .trans _ _ _ ?_ (sameUnits_teamReport _ _ _)
  split <;> [exact .refl s; exact sameUnits_markFailed s _ n]

theorem regionAt_tileFailed {s : State} {r : Region} {c : Cmd} {n : Nat} (core : Nat) (hr : regionAt s (c.arg - 1) = some r)
    (hg : c.wave.gen = SMap.get 0 r.gen n) :
    regionAt (tileFailed s core r c n) (c.arg - 1) = some { r with failed := SMap.set false r.failed n true } := by
  rw [tileFailed, regionAt_teamReport, if_neg (by rw [hg, bne_self_eq_false]; decide), regionAt_markFailed hr]

section
variable {s : State} {core : Nat} {c : Cmd} {rest : List Cmd} (r : Region) (n : Nat) (hop : c.op = .sacc)
include hop

theorem endTile_of_read (hf : c.wave.failed = false) : endTile s core r c n = upHead (addTile s r c n).1 core .lode
    (nextTile (fun w => { w with flags := w.flags ||| if (addTile s r c n).2 then 2 else 0 })) := by
  simp only [endTile, hf, hop, Bool.false_eq_true, if_false, if_true]
  rfl

theorem slotAt_endTile_of_read (hf : c.wave.failed = false) (st m : Nat) : slotAt (endTile s core r c n) st m =
    if (tilePlace r n).1 = st ∧ saccSlot c = m then addedSlot s r c n (slotAt s (tilePlace r n).1 (saccSlot c)) else slotAt s st m := by
  rw [endTile_of_read r n hop hf, slotAt_upHead, addTile_eq, slotAt_upSlot]

theorem qd_endTile_of_read (hq : (coreAt s core).qd = c :: rest) (hf : c.wave.failed = false) : (coreAt (endTile s core r c n) core).qd =
    nextTile (fun w => { w with flags := w.flags ||| if (addTile s r c n).2 then 2 else 0 }) c :: rest := by
  rw [endTile_of_read r n hop hf]
  exact qd_upHead (s := (addTile s r c n).1) hq _

theorem regions_endTile_of_read (hf : c.wave.failed = false) : (endTile s core r c n).regions = s.regions := by
  rw [endTile_of_read r n hop hf, addTile_eq]
  rfl

theorem endTile_of_failed (hf : c.wave.failed = true) : endTile s core r c n =
    upHead (upSlot (tileFailed s core r c n) (tilePlace r n).1 (saccSlot c) (fun x => { x with bm := x.bm ||| 2 ^ rowBit r c n }))
      core .lode (nextTile (fun w => { w with bits := w.bits ||| 2 ^ rowBit r c n })) := by
  simp only [endTile, hf, hop, if_true]
  rfl

theorem slotAt_endTile_of_failed (hf : c.wave.failed = true) (st m : Nat) : slotAt (endTile s core r c n) st m =
    if (tilePlace r n).1 = st ∧ saccSlot c = m then
      { slotAt s (tilePlace r n).1 (saccSlot c) with bm := (slotAt s (tilePlace r n).1 (saccSlot c)).bm ||| 2 ^ rowBit r c n } else slotAt s st m := by
  rw [endTile_of_failed r n hop hf, slotAt_upHead, slotAt_upSlot]
  simp only [(sameUnits_tileFailed s core r c n).sameLode.slotAt_eq]

theorem qd_endTile_of_failed (hq : (coreAt s core).qd = c :: rest) (hf : c.wave.failed = true) : (coreAt (endTile s core r c n) core).qd =
    nextTile (fun w => { w with bits := w.bits ||| 2 ^ rowBit r c n }) c :: rest := by
  rw [endTile_of_failed r n hop hf]
  exact qd_upHead (s := upSlot _ _ _ _) ((congrArg Core.qd ((sameUnits_tileFailed s core r c n).coreAt_eq core)).trans hq) _

theorem regionAt_endTile_of_failed (hf : c.wave.failed = true) (hr : regionAt s (c.arg - 1) = some r) (hg : c.wave.gen = SMap.get 0 r.gen n) :
    regionAt (endTile s core r c n) (c.arg - 1) = some { r with failed := SMap.set false r.failed n true } := by
  rw [endTile_of_failed r n hop hf, regionAt_upHead, regionAt_upSlot, regionAt_tileFailed core hr hg]
end

theorem regionAt_of_cmdRegion {s : State} {c : Cmd} {r : Region} (hr : cmdRegion s c = some r) : regionAt s (c.arg - 1) = some r := by
  unfold cmdRegion at hr
  split at hr
  · cases hr
  · exact hr

/-- The end of a tile of a wave (R70, R254, R255, R260, R381). -/
theorem tilesOfAWaveAreAdded : Claim.TilesAreAdded := by
  intro s core o c rest r hq hd href hst hop hr ht hlast n p i key fails code slot bit old place sum hres hsteal hdist hsa hlay hstand
  have hread : exec (.lodePageRead core o) s = .next (pageRead s core o) := rfl
  have hi : c.wave.plane < (readUnits r c).2 := by omega
  have hb : ¬ HeldBack s r c n := by
    rw [HeldBack, if_pos hlay]
    exact not_or.mpr ⟨by rw [hsteal]; decide, Nat.not_le.mpr hdist⟩
  let c1 := senseHead s r c n (readUnits r c).2 o c
  let s1 := sensed s core r c n (readUnits r c).2 o
  have hq1 : (coreAt s1 core).qd = c1 :: rest := qd_sensed s core r c n _ o hq
  have hend : pageRead s core o = endTile s1 core r c1 n := by
    rw [pageRead_of_stands hq hd href hst (by rw [hop]; nofun) hr ht o hstand, if_neg (by rw [hsa]; decide), sensePage_senses rfl hres hi hb,
      if_neg (by omega)]
  have hfail : c1.wave.failed = true ↔ c.wave.failed = true ∨ fails := senseHead_failed s r c n _ o
  have hbit : rowBit r c1 n = bit := by rw [rowBit, rectOf_sacc_r0 (c := c1) hop]; rfl
  rw [hread, hend]
  refine ⟨fun hf hnf => ?_, fun hf => ?_⟩
  · have hf1 : c1.wave.failed = false := Bool.eq_false_iff.mpr fun h => (hfail.mp h).elim (by rw [hf]; decide) hnf
    have hslot := slotAt_endTile_of_read (s := s1) (core := core) r n (c := c1) hop hf1
    have hsame : slotAt (endTile s1 core r c1 n) p.1 slot = addedSlot s1 r c1 n old := (hslot p.1 slot).trans (if_pos ⟨rfl, rfl⟩)
    have hsum {v row : Nat} (hrow : row < 128) : tilePart c1 (latchAt s1 p.1 v) (1024 * (n % r.ncols)) row = sum v row := by
      rw [tilePart_eq_sum]
      refine congrArg List.sum (List.map_congr_left fun j hj => ?_)
      have hj : j < 1024 := List.mem_range.mp hj
      rw [senseHead_snap s r c n _ o hop (by omega)]
      rfl
    refine ⟨_, _, rfl, qd_endTile_of_read r n (c := c1) hop hq1 hf1, rfl, rfl, rfl, regions_endTile_of_read r n (c := c1) hop hf1,
      fun v row hv hp hrow => ?_, fun k hk => ?_, by rw [hsame]; rfl, by rw [hsame]; rfl,
      fun st m h => (hslot st m).trans (if_neg fun e => h.elim (· e.1.symm) (· e.2.symm))⟩
    · have h := acc_addedSlot s1 r c1 n hv hp hrow old
      rw [hbit, hsum hrow] at h
      rw [hsame]
      exact h
    · rw [hsame]
      exact acc_addedSlot_of_ne s1 r c1 n (by rw [hbit]; exact hk) old
  · have hf1 : c1.wave.failed = true := hfail.mpr hf
    have hslot := slotAt_endTile_of_failed (s := s1) (core := core) r n (c := c1) hop hf1
    have hqd := qd_endTile_of_failed r n (c := c1) hop hq1 hf1
    rw [hbit] at hslot hqd
    refine ⟨_, _, rfl, hqd, rfl, rfl, rfl, (hslot p.1 slot).trans (if_pos ⟨rfl, rfl⟩),
      fun st m h => (hslot st m).trans (if_neg fun e => h.elim (· e.1.symm) (· e.2.symm)), fun hg => ?_⟩
    have hgen : c1.wave.gen = SMap.get 0 r.gen n := by
      change (if c.wave.plane = 0 then SMap.get 0 r.gen n else c.wave.gen) = _
      split
      · rfl
      · next h0 => exact hg.resolve_left h0
    exact ⟨_, regionAt_endTile_of_failed (s := s1) (c := c1) r n hop hf1 (regionAt_of_cmdRegion hr) hgen,
      SMap.get_set_same false r.failed n true, rfl⟩

end Sys2Proof.Machine
end

section
/-! PROOFS. Commands of the Lode queue carried on: their refusals, latch loads, the end of a wave and status (R251–R254, R259, R293). -/

namespace Sys2Proof.Machine

/-! ## The command at the head of a Lode queue -/

/-- The operations of the Lode queue (R252–R259). -/
def lodeOps : List CmdOp := [.act, .sacc, .drain, .drainRaw, .ired, .stat]

theorem runHead_lode (s : State) (core : Nat) {c : Cmd} (hop : c.op ∈ lodeOps) : runHead s core .lode c = runLode s core c := by
  simp only [lodeOps, List.mem_cons, List.not_mem_nil, or_false] at hop
  obtain h | h | h | h | h | h := hop <;> simp [runHead, onHoist, runOp, h]

section
variable {s : State} {core : Nat} {c : Cmd} {rest : List Cmd} (hq : (coreAt s core).qd = c :: rest) (hd : c.done = none)
include hq hd

theorem closeHead_unfinished : closeHead s core .lode = s := by
  simp only [closeHead, getQ, hq, hd]

theorem exec_commandComplete_lode (hop : c.op ∈ lodeOps) :
    exec (.commandComplete core .lode) s = .next (closeHead (runLode s core c) core .lode) := by
  have h : exec (.commandComplete core .lode) s = .next (commandComplete s core .lode) := rfl
  rw [h]
  simp only [commandComplete, getQ, hq, hd, Option.isNone_none, if_true, runHead_lode s core hop]

theorem endsWith_of_runLode {u : State} {res : CRes} (hop : c.op ∈ lodeOps) (h : runLode s core c = finishCmd u core .lode res) :
    EndsWith s core .lode u res := by
  rw [EndsWith, exec_commandComplete_lode hq hd hop, h]

theorem waits_of_runLode (hop : c.op ∈ lodeOps) (h : runLode s core c = s) : exec (.commandComplete core .lode) s = .next s := by
  rw [exec_commandComplete_lode hq hd hop, h, closeHead_unfinished hq hd]
end

section
variable {s : State} {core : Nat} {c : Cmd}

theorem runLode_act (hop : c.op = .act) : runLode s core c = runAct s core c := if_pos hop

theorem runLode_refused (hop : c.op ≠ .act) {st : Nat} (h : lodeRefusal s core c = some st) :
    runLode s core c = finishCmd s core .lode { status := st, fcode := if st = 2 then 1 else 0 } := by
  simp only [runLode, if_neg hop, h]
  rfl

section
variable {r : Region} (href : lodeRefusal s core c = none) (hr : cmdRegion s c = some r)
include href hr

theorem runLode_sacc (hop : c.op = .sacc) : runLode s core c = runSacc s core c r := by
  simp only [runLode, hop, href, hr, reduceCtorEq, if_false]
theorem runLode_drain (hop : c.op = .drain) : runLode s core c = runDrain s core c r := by
  simp only [runLode, hop, href, hr, reduceCtorEq, if_false]
theorem runLode_drainRaw (hop : c.op = .drainRaw) : runLode s core c = runRaw s core c r := by
  simp only [runLode, hop, href, hr, reduceCtorEq, if_false]
theorem runLode_ired (hop : c.op = .ired) : runLode s core c = runIred s core c r := by
  simp only [runLode, hop, href, hr, reduceCtorEq, if_false]
theorem runLode_stat (hop : c.op = .stat) : runLode s core c = runStat s core c r := by
  simp only [runLode, hop, href, hr, reduceCtorEq, if_false]
end
end

/-! ## Latch loads (R252, R253, R293) -/

/-- A vector as its latch holds it. -/
def vectorEntry (n : Nat) (codes scale : List Byte) : LEntry :=
  { len := n, codes := SMap.tab 0 n (fun i => codes.getD i 0), scale := BitVec.ofNat 32 (leNat scale) }

theorem addOff_ok {base o : Nat} (h : base % 2 ^ 48 + o < 2 ^ 48) : addOff base o = .ok (base + o) := if_neg (Nat.not_le.mpr h)

section
variable {s : State} {w : Who} {c : Cmd} {codes scale : Nat → List Byte}

theorem actVector_ok {v : Nat} (ha : dI c 0 8 % 2 ^ 48 + dI c 16 8 * v < 2 ^ 48)
    (hc : engBytes s w (dI c 0 8 + dI c 16 8 * v) (dI c 24 4 + 1) = .ok (codes v)) (hb : dI c 8 8 % 2 ^ 48 + 4 * v < 2 ^ 48)
    (hs : engBytes s w (dI c 8 8 + 4 * v) 4 = .ok (scale v)) :
    actVector s w c v = .ok (vectorEntry (dI c 24 4 + 1) (codes v) (scale v)) := by
  simp only [actVector, addOff_ok ha, addOff_ok hb, hc, hs]
  rfl

theorem actVectors_ok {f : Nat → LEntry} (h : ∀ v, v < dI c 29 1 → actVector s w c v = .ok (f v)) :
    actVectors s w c = .ok ((List.range (dI c 29 1)).map f) := by
  have h' : ∀ v ∈ List.range (dI c 29 1), actVector s w c v = .ok (f v) := fun v hv => h v (List.mem_range.mp hv)
  rw [actVectors]
  generalize List.range (dI c 29 1) = l at h' ⊢
  induction l with
  | nil => rfl
  | cons v l ih =>
    rw [List.forall_mem_cons] at h'
    rw [List.foldr_cons, ih h'.2, h'.1]
    rfl
end

/-- The latches of a stack with entries loaded from `v0` on. -/
def loadedLatch (m : SMap LEntry) (v0 : Nat) (es : List LEntry) : SMap LEntry :=
  SMap.setAll {} m ((List.range es.length).map (fun v => (v0 + v, es.getD v {})))

/-- Entries loaded into the latches of each of some stacks. -/
def loadLatches (s : State) (sts : List Nat) (v0 : Nat) (es : List LEntry) : State :=
  sts.foldl (fun s st => setStack s st { stackAt s st with latch := loadedLatch (stackAt s st).latch v0 es }) s

theorem get_loadedLatch (m : SMap LEntry) (v0 : Nat) (es : List LEntry) (k : Nat) :
    SMap.get {} (loadedLatch m v0 es) k = if v0 ≤ k ∧ k < v0 + es.length then es.getD (k - v0) {} else SMap.get {} m k := by
  split
  · next h =>
    refine get_setAll_of_mem _ _ _ _ (fun p hp hk => ?_) _ ⟨(v0 + (k - v0), es.getD (k - v0) {}), ?_, by dsimp only; omega⟩
    · obtain ⟨v, -, rfl⟩ := List.mem_map.mp hp
      dsimp only at hk ⊢
      rw [← hk, Nat.add_sub_cancel_left]
    · exact List.mem_map.mpr ⟨k - v0, List.mem_range.mpr (by omega), rfl⟩
  · next h =>
    refine get_setAll_of_not_mem _ _ _ _ (fun p hp hk => ?_)
    obtain ⟨v, hv, rfl⟩ := List.mem_map.mp hp
    have hv := List.mem_range.mp hv
    dsimp only at hk
    omega

section
variable (v0 : Nat) (es : List LEntry) (st : Nat)

theorem slotAt_loadLatches (m : Nat) (sts : List Nat) : ∀ s : State, slotAt (loadLatches s sts v0 es) st m = slotAt s st m := by
  induction sts with
  | nil => exact fun s => rfl
  | cons x sts ih =>
    intro s
    refine (ih _).trans ?_
    rw [slotAt, stackAt_setStack]
    by_cases hx : x = st
    · subst hx; rw [if_pos rfl]; rfl
    · rw [if_neg hx]; rfl

theorem latchAt_loadLatches (v : Nat) (sts : List Nat) : ∀ s : State, sts.Nodup → latchAt (loadLatches s sts v0 es) st v =
    if st ∈ sts then SMap.get {} (loadedLatch (stackAt s st).latch v0 es) v else latchAt s st v := by
  induction sts with
  | nil => exact fun s _ => (if_neg List.not_mem_nil).symm
  | cons x sts ih =>
    intro s hn
    obtain ⟨hx, hn⟩ := List.nodup_cons.mp hn
    refine (ih _ hn).trans ?_
    rw [latchAt, stackAt_setStack]
    by_cases hxs : x = st
    · subst hxs
      rw [if_neg hx, if_pos rfl, if_pos List.mem_cons_self]
    · simp only [if_neg hxs, List.mem_cons, Ne.symm hxs, false_or]
      rfl
end

theorem nodup_actStacks (c : Cmd) : (actStacks c).Nodup := nodup_stacksOf _

/-- The accesses of a latch load noted, with `n` vectors read (R88, R364). -/
def actNoted (s : State) (core : Nat) (c : Cmd) (n : Nat) : State :=
  noteAll s (lodeWho s core) ((List.range n).flatMap (fun v =>
    (List.range ((dI c 24 4 + 128) / 128)).map (fun i => (false, dI c 0 8 + dI c 16 8 * v + 128 * i)) ++
    [(false, dI c 0 8 + dI c 16 8 * v + dI c 24 4), (false, dI c 8 8 + 4 * v)]))

section
variable {s : State} {core : Nat} {c : Cmd}

theorem runAct_refused {st : Nat} (h : actRefusal s (lodeWho s core) c = some st) : runAct s core c = finishCmd s core .lode { status := st } := by
  simp only [runAct, h]

section
variable (href : actRefusal s (lodeWho s core) c = none)
include href

theorem runAct_waits (h : waveOn s (actStacks c) = true) : runAct s core c = s := by
  simp only [runAct, href, h, if_true]

theorem runAct_loads (h : waveOn s (actStacks c) = false) {es : List LEntry} (hv : actVectors s (lodeWho s core) c = .ok es) :
    runAct s core c = finishCmd (loadLatches (actNoted s core c es.length) (actStacks c) (dI c 28 1) es) core .lode
      { count := (dI c 24 4 + 1) * dI c 29 1 * (actStacks c).length } := by
  simp only [runAct, href, h, hv, Bool.false_eq_true, if_false]
  rfl
end
end

/-! ## The end of a wave and status (R254, R259) -/

/-- A slot with the scales of a wave's vectors. -/
def scaledSlot (c : Cmd) (latch : Nat → LEntry) (x : LSlot) : LSlot :=
  { x with scale := SMap.setAll 0 x.scale ((saccVecs c).map (fun v => (v, (latch v).scale))) }

theorem scale_scaledSlot {c : Cmd} {v : Nat} (hv : v < 8) (hp : c.pairs.testBit v = true) (latch : Nat → LEntry) (x : LSlot) :
    SMap.get 0 (scaledSlot c latch x).scale v = (latch v).scale := by
  refine get_setAll_of_mem 0 v _ _ (fun p hmem hk => ?_) _ ⟨(v, (latch v).scale), List.mem_map.mpr ⟨v, mem_saccVecs.mpr ⟨hv, hp⟩, rfl⟩, rfl⟩
  obtain ⟨v', -, rfl⟩ := List.mem_map.mp hmem
  exact congrArg (fun v => (latch v).scale) hk

section
variable {s : State} {core : Nat} {c : Cmd} {r : Region}

theorem runSacc_waits (h : c.wave.tile < (readUnits r c).1.length) : runSacc s core c r = s := if_neg (Nat.not_le.mpr h)

theorem runSacc_ends (h : (readUnits r c).1.length ≤ c.wave.tile) : runSacc s core c r =
    finishCmd (upSlots s (stacksOf r.smask) (saccSlot c) (scaledSlot c)) core .lode
      { status := if c.wave.bits = 0 then 0 else 1, count := c.wave.bits, findex := c.wave.senses, flags := c.wave.flags, e2e := c.wave.e2e } :=
  if_pos h
end

/-- Latches, the end of a wave and status (R251–R254, R259, R293). -/
theorem latchesAreLoadedAndWavesEnd : Claim.LatchesAndWaves := by
  intro s core c rest hq hd w v0 nv n
  have ends {u : State} {res : CRes} := endsWith_of_runLode (u := u) (res := res) hq hd
  have waits := waits_of_runLode hq hd
  refine ⟨fun hop => ?_, fun hop st h => ?_, fun r hr href => ⟨fun hop => ?_, fun hop => ?_⟩⟩
  · have hrun := runLode_act (s := s) (core := core) hop
    have hmem : c.op ∈ lodeOps := by rw [hop]; decide
    refine ⟨fun st h => ends hmem (hrun.trans (runAct_refused h)), fun h hw => waits hmem (hrun.trans (runAct_waits h hw)),
      fun h hw codes scale hread => ?_⟩
    let f (v : Nat) : LEntry := vectorEntry n (codes v) (scale v)
    let es := (List.range nv).map f
    have hes : es.length = nv := by simp [es]
    have hvs : actVectors s w c = .ok es := actVectors_ok fun v hv => by
      obtain ⟨ha, hc, hb, hs⟩ := hread v hv
      exact actVector_ok ha hc hb hs
    have hnote : SameUnits s (actNoted s core c es.length) := sameUnits_noteAll (lodeWho_agent s core) s _
    have hlatch (st v : Nat) := latchAt_loadLatches v0 es st v (actStacks c) (actNoted s core c es.length) (nodup_actStacks c)
    refine ⟨_, ends hmem (hrun.trans (runAct_loads h hw hvs)), fun st v hst hv => ?_, fun st v hout => ?_, fun st m => ?_⟩
    · have hload : latchAt (loadLatches (actNoted s core c es.length) (actStacks c) v0 es) st (v0 + v) = f v := by
        rw [hlatch, if_pos hst, get_loadedLatch, if_pos (by omega), Nat.add_sub_cancel_left]
        simp [es, hv]
      rw [hload]
      refine ⟨rfl, rfl, fun i hi => ?_⟩
      exact (SMap.get_tab (0 : Byte) (fun i => (codes v).getD i 0) n i).trans (if_pos hi)
    · rw [hlatch]
      split
      · next hst =>
        rw [get_loadedLatch, if_neg (by rw [hes]; obtain h | h | h := hout <;> [exact absurd hst h; omega; omega])]
        exact hnote.sameLode.latchAt_eq st v
      · exact hnote.sameLode.latchAt_eq st v
    · rw [slotAt_loadLatches]
      exact hnote.sameLode.slotAt_eq st m
  · have hmem : c.op ∈ lodeOps ∧ c.op ≠ .act := by
      obtain h | h | h | h | h := hop <;> rw [h] <;> decide
    exact ends hmem.1 (runLode_refused hmem.2 h)
  · have hrun := runLode_sacc href hr hop
    have hmem : c.op ∈ lodeOps := by rw [hop]; decide
    refine ⟨fun h => waits hmem (hrun.trans (runSacc_waits h)), fun h => ⟨_, ends hmem (hrun.trans (runSacc_ends h)), fun st v hst hv hp => ?_,
      fun st m => ?_⟩⟩
    · rw [slotAt_upSlots _ _ _ _ _ _ (nodup_stacksOf _), if_pos ⟨hst, rfl⟩]
      exact scale_scaledSlot hv hp _ _
    · rw [slotAt_upSlots _ _ _ _ _ _ (nodup_stacksOf _)]
      have hlatch (v : Nat) := latchAt_upSlots (saccSlot c) (scaledSlot c) st v (stacksOf r.smask) s
      split
      · next h =>
        obtain ⟨-, rfl⟩ := h
        exact ⟨rfl, rfl, rfl, hlatch⟩
      · exact ⟨rfl, rfl, rfl, hlatch⟩
  · have hmem : c.op ∈ lodeOps := by rw [hop]; decide
    refine ⟨_, ends hmem (runLode_stat href hr hop), fun i => ?_⟩
    rw [testBit_foldl_or]
    simp

end Sys2Proof.Machine
end

section
/-! PROOFS. Drains and indexed reduces: what they write, report and clear (R71, R257, R258, R297, R381). -/

namespace Sys2Proof.Machine

/-! ## Bytes that a command reads at once -/

theorem length_mapKeys {s : State} {w : Who} {write : Bool} {o n : Nat} {l : List Nat} (h : mapKeys s w write o n = some l) : l.length = n := by
  unfold mapKeys at h
  rw [← List.length_range (n := n)]
  generalize hr : List.range n = is at h ⊢
  clear hr
  induction is generalizing l with
  | nil => cases h; rfl
  | cons i is ih =>
    rw [List.foldr_cons] at h
    split at h
    · next hl => cases h; rw [List.length_cons, List.length_cons, ih hl]
    · cases h

theorem xmerge_ok {α : Type} {x : Except XFail α} {y : Except XFail (List α)} {l : List α} (h : xmerge x y = .ok l) :
    ∃ k l', y = .ok l' ∧ l = k :: l' := by
  unfold xmerge at h
  split at h <;> cases h
  exact ⟨_, _, rfl, rfl⟩

theorem length_xlateRange {s : State} {w : Who} {acc : Acc} {sh : Bool} {a n : Nat} {l : List Nat} (h : xlateRange s w acc sh a n = .ok l) :
    l.length = n := by
  unfold xlateRange at h
  rw [← List.length_range (n := n)]
  generalize List.range n = is at h ⊢
  induction is generalizing l with
  | nil => cases h; rfl
  | cons i is ih =>
    obtain ⟨k, l', hl, rfl⟩ := xmerge_ok h
    rw [List.length_cons, List.length_cons, ih hl]

theorem length_engKeys {s : State} {w : Who} {write : Bool} {a n : Nat} {l : List Nat} (h : engKeys s w write a n = .ok l) : l.length = n := by
  unfold engKeys at h
  split at h
  · split at h <;> cases h
    next hm => exact length_mapKeys hm
  · split at h <;> cases h
    next hx => exact length_xlateRange hx

theorem length_engBytes {s : State} {w : Who} {a n : Nat} {l : List Byte} (h : engBytes s w a n = .ok l) : l.length = n := by
  unfold engBytes engRead at h
  split at h
  · cases h
  · next ks hk =>
    split at hk
    · cases hk
    · next ks' hks =>
      split at hk <;> cases hk
      split at h <;> cases h
      rw [List.length_map, length_engKeys hks]

/-! ## Drains (R71, R257) -/

/-- The sum of a vector's row over the stacks. -/
def drainSum (s : State) (r : Region) (c : Cmd) (v i : Nat) : Int :=
  ((stacksOf r.smask).map (fun st => SMap.get 0 (slotAt s st (dI c 41 1)).acc (8 * i + v))).sum

/-- What a drain writes for a vector's row. -/
def drainWord (s : State) (r : Region) (c : Cmd) (v i : Nat) : Nat :=
  if SMap.get false c.wave.slost (128 * dI c 32 2 + i) then 0
  else (drainValue (slotClamp (drainSum s r c v i)) (SMap.get 0 c.wave.ssnap (128 * dI c 32 2 + i))
    (SMap.get 0 (slotAt s ((stacksOf r.smask).headD 0) (dI c 41 1)).scale v)).bits

def drainPuts (s : State) (r : Region) (c : Cmd) : List (Except Stop Nat × List Byte) :=
  (drainCells c).map (fun y => (drainAddr c y, leBytes 4 (drainWord s r c y.1 y.2)))

/-- The row tiles that a drain reports: those that failed, and those with a row whose scale is lost. -/
def drainBits (s : State) (r : Region) (c : Cmd) : Nat :=
  (stacksOf r.smask).foldl (fun m st => m ||| ((slotAt s st (dI c 41 1)).bm &&& (2 ^ dI c 34 2 - 1)))
    ((List.range (dI c 34 2)).foldl (fun m b =>
      if (List.range 128).any (fun i => SMap.get false c.wave.slost (128 * dI c 32 2 + 128 * b + i)) then m ||| 2 ^ b else m) 0)

/-- SAT and EXC of a drain's record. -/
def drainFlags (s : State) (r : Region) (c : Cmd) : Nat :=
  (if (stacksOf r.smask).any (fun st => (slotAt s st (dI c 41 1)).sat) ||
      (drainCells c).any (fun x => slotClamp (drainSum s r c x.1 x.2) != drainSum s r c x.1 x.2) then 2 else 0) +
    if (drainCells c).any (fun x => isExc fmt32 (drainWord s r c x.1 x.2)) then 4 else 0

/-- A slot as a drain leaves it. -/
def drainedSlot (c : Cmd) (x : LSlot) : LSlot :=
  { x with acc := SMap.setAll 0 x.acc ((drainCells c).map (fun y => (8 * y.2 + y.1, 0)))
           bm := x.bm - (x.bm &&& (2 ^ dI c 34 2 - 1)), sat := false }

section
variable {s : State} {core : Nat} {c : Cmd} {r : Region}

theorem runDrain_waits (h : scalesRead r c = false) : runDrain s core c r = s := by simp only [runDrain, h, Bool.not_false, if_true]

theorem runDrain_complete (h : scalesRead r c = true) (hp : (putAll s (lodeWho s core) (drainPuts s r c)).2.1 = none) :
    runDrain s core c r = finishCmd
      (upSlots (putAll s (lodeWho s core) (drainPuts s r c)).1 (stacksOf r.smask) (dI c 41 1) (fun _ => drainedSlot c)) core .lode
      { status := if drainBits s r c = 0 then 0 else 1, count := drainBits s r c, flags := drainFlags s r c } := by
  have hsum (v i : Nat) : (stacksOf r.smask).foldl (fun a st => a + SMap.get 0 (slotAt s st (dI c 41 1)).acc (8 * i + v)) 0 = drainSum s r c v i := by
    rw [foldl_add_eq_sum, zero_add, drainSum]
  have hlen : (putAll s (lodeWho s core) (drainPuts s r c)).2.2 = (drainCells c).length := by rw [putAll_complete hp, drainPuts, List.length_map]
  unfold drainPuts drainWord at hp hlen
  simp only [runDrain, h, hsum, hp, hlen, Bool.not_true, Bool.false_eq_true, if_false, List.take_length]
  rfl

theorem testBit_drainBits (b : Nat) : (drainBits s r c).testBit b = true ↔ b < dI c 34 2 ∧
    ((∃ st ∈ stacksOf r.smask, (slotAt s st (dI c 41 1)).bm.testBit b = true) ∨
      ∃ i, i < 128 ∧ SMap.get false c.wave.slost (128 * dI c 32 2 + 128 * b + i) = true) := by
  rw [drainBits, testBit_foldl_or, testBit_foldl_setBit]
  simp only [Nat.zero_testBit, Bool.false_eq_true, false_or, List.mem_range, List.any_eq_true, Nat.testBit_and, Nat.testBit_two_pow_sub_one,
    Bool.and_eq_true, decide_eq_true_eq]
  constructor
  · rintro (⟨hb, i, hi⟩ | ⟨st, hst, hbm, hb⟩)
    · exact ⟨hb, .inr ⟨i, hi⟩⟩
    · exact ⟨hb, .inl ⟨st, hst, hbm⟩⟩
  · rintro ⟨hb, ⟨st, hst, hbm⟩ | ⟨i, hi⟩⟩
    · exact .inr ⟨st, hst, hbm, hb⟩
    · exact .inl ⟨hb, i, hi⟩

theorem testBit_flags (a b : Bool) : ((if a then 2 else 0) + if b then 4 else 0).testBit 1 = a ∧ ((if a then 2 else 0) + if b then 4 else 0).testBit 2 = b := by
  revert a b; decide

theorem drainFlags_sat : (drainFlags s r c).testBit 1 = true ↔ (∃ st ∈ stacksOf r.smask, (slotAt s st (dI c 41 1)).sat = true) ∨
    ∃ y ∈ drainCells c, slotClamp (drainSum s r c y.1 y.2) ≠ drainSum s r c y.1 y.2 := by
  rw [drainFlags, (testBit_flags _ _).1, Bool.or_eq_true, List.any_eq_true, List.any_eq_true]
  simp only [bne_iff_ne]

theorem drainFlags_exc : (drainFlags s r c).testBit 2 = true ↔ ∃ y ∈ drainCells c, isExc fmt32 (drainWord s r c y.1 y.2) = true := by
  rw [drainFlags, (testBit_flags _ _).2, List.any_eq_true]

theorem acc_drainedSlot (x : LSlot) {y : Nat × Nat} (hy : y ∈ drainCells c) : SMap.get 0 (drainedSlot c x).acc (8 * y.2 + y.1) = 0 := by
  refine get_setAll_of_mem 0 _ 0 _ (fun p hp _ => ?_) _ ⟨_, List.mem_map.mpr ⟨y, hy, rfl⟩, rfl⟩
  obtain ⟨z, -, rfl⟩ := List.mem_map.mp hp
  rfl

theorem acc_drainedSlot_of_ne (x : LSlot) {k : Nat} (h : ∀ y ∈ drainCells c, k ≠ 8 * y.2 + y.1) :
    SMap.get 0 (drainedSlot c x).acc k = SMap.get 0 x.acc k := by
  refine get_setAll_of_not_mem 0 _ k _ (fun p hp hk => ?_)
  obtain ⟨y, hy, rfl⟩ := List.mem_map.mp hp
  exact h y hy hk.symm
end

/-! ## Raw drains (R222, R257) -/

theorem rawWord_eq_sum (r : Region) (c : Cmd) (y : Nat × Nat × Nat) : rawWord r c y =
    if SMap.get false c.wave.lost (r.ncols * ((rectOf c).r0 + y.1 / 128) + ((rectOf c).c0 + y.2.1 / 32)) then 0
    else ((List.range 32).map (fun b =>
      planeBit (SMap.get 0 c.wave.snap (regKey (128 * (rectOf c).r0 + y.1) (1024 * (rectOf c).c0 + 32 * y.2.1 + b))).toNat y.2.2 * 2 ^ b)).sum := by
  simp only [rawWord, foldl_add_eq_sum, zero_add]

/-- What a raw drain writes: the words of its plane bits, then the row scales. -/
def rawPuts (r : Region) (c : Cmd) : List (Except Stop Nat × List Byte) :=
  (rawCells c).map (fun y => (rawAddr c y, leBytes 4 (rawWord r c y))) ++
    if dI c 16 8 = 0 then [] else (List.range (128 * (rectOf c).nr)).map (fun i =>
      (rawScaleAddr c i, leBytes 4 (if SMap.get false c.wave.slost (128 * (rectOf c).r0 + i) then 0
        else (SMap.get 0 c.wave.ssnap (128 * (rectOf c).r0 + i)).toNat)))

/-- The row tiles that a raw drain reports. -/
def rawBits (c : Cmd) : Nat :=
  (List.range (min (rectOf c).nr 64)).foldl (fun m b =>
    if dI c 16 8 ≠ 0 ∧ (List.range 128).any (fun i => SMap.get false c.wave.slost (128 * (rectOf c).r0 + 128 * b + i)) then m ||| 2 ^ b else m)
    c.wave.bits

section
variable {s : State} {core : Nat} {c : Cmd} {r : Region}

theorem runRaw_waits (h : ¬ ((readUnits r c).1.length ≤ c.wave.tile ∧ scalesRead r c = true)) : runRaw s core c r = s := if_neg h

theorem runRaw_complete (h : (readUnits r c).1.length ≤ c.wave.tile ∧ scalesRead r c = true)
    (hp : (putAll s (lodeWho s core) (rawPuts r c)).2.1 = none) :
    runRaw s core c r = finishCmd (putAll s (lodeWho s core) (rawPuts r c)).1 core .lode
      { status := if rawBits c = 0 then 0 else 1, count := rawBits c, e2e := c.wave.e2e } := by
  unfold rawPuts at hp
  simp only [runRaw, if_pos h, hp]
  rfl

theorem testBit_rawBits (b : Nat) : (rawBits c).testBit b = true ↔ c.wave.bits.testBit b = true ∨ (dI c 16 8 ≠ 0 ∧ b < min (rectOf c).nr 64 ∧
    ∃ i, i < 128 ∧ SMap.get false c.wave.slost (128 * (rectOf c).r0 + 128 * b + i) = true) := by
  rw [rawBits, testBit_foldl_setBit]
  simp only [List.mem_range, List.any_eq_true]
  exact or_congr_right and_left_comm
end

/-! ## Indexed reduces (R258) -/

section
variable {s : State} {w : Who}

theorem iredList_ok {base n : Nat} {o : Nat → List Byte}
    (h : ∀ k, k < n → addOff base (4 * k) = .ok (base + 4 * k) ∧ engBytes s w (base + 4 * k) 4 = .ok (o k)) :
    iredList s w base n = .ok ((List.range n).flatMap o) := by
  have h' : ∀ k ∈ List.range n, iredEntry s w base k = .ok (o k) := fun k hk => by
    obtain ⟨ha, hb⟩ := h k (List.mem_range.mp hk)
    simp only [iredEntry, ha, hb]
  rw [iredList]
  generalize List.range n = l at h' ⊢
  induction l with
  | nil => rfl
  | cons k l ih =>
    rw [List.forall_mem_cons] at h'
    rw [List.foldr_cons, ih h'.2, h'.1]
    rfl

/-- An entry of a list of offsets, read word by word. -/
theorem offAt_flatMap {o : Nat → List Byte} {n : Nat} (h : ∀ k, k ≤ n → (o k).length = 4) :
    offAt ((List.range (n + 1)).flatMap o) n = leNat (o n) := by
  have hlen : ((List.range n).flatMap o).length = 4 * n := by
    rw [List.length_flatMap, List.map_congr_left (g := fun _ => 4) (fun k hk => h k (List.mem_range.mp hk).le)]
    simp [mul_comm]
  rw [offAt, List.range_succ, List.flatMap_append, List.flatMap_singleton, List.drop_left' hlen, List.take_of_length_le (h n le_rfl).le]

theorem iredLists_ok {c : Cmd} {o i : Nat → List Byte}
    (ho : ∀ k, k ≤ irNbags c → addOff (dI c 16 8) (4 * k) = .ok (dI c 16 8 + 4 * k) ∧ engBytes s w (dI c 16 8 + 4 * k) 4 = .ok (o k))
    (hi : ∀ k, k < leNat (o (irNbags c)) → addOff (dI c 8 8) (4 * k) = .ok (dI c 8 8 + 4 * k) ∧ engBytes s w (dI c 8 8 + 4 * k) 4 = .ok (i k)) :
    iredLists s w c = .ok ((List.range (irNbags c + 1)).flatMap o ++ (List.range (leNat (o (irNbags c)))).flatMap i) := by
  have hoff := offAt_flatMap (o := o) (n := irNbags c) fun k hk => length_engBytes (ho k hk).2
  simp only [iredLists, iredList_ok fun k hk => ho k (Nat.le_of_lt_succ hk), hoff, iredList_ok hi]
end

/-- The rows that a bag names. -/
def iredBag (c : Cmd) (b : Nat) : List Nat := (List.range (irOff c (b + 1) - irOff c b)).map (fun i => irIdx c (irOff c b + i))

/-- A row whose page failed, or whose scale is lost. -/
def rowLost (r : Region) (c : Cmd) (row : Nat) : Bool := SMap.get false c.wave.lost (row / rowsPerPage r) || SMap.get false c.wave.slost row

/-- The format of a reduce's sums. -/
def iredFmt (c : Cmd) : Fmt := if dI c 48 1 = 1 then fmtBf else fmt32

/-- An element of a bag's sum. -/
def iredVal (r : Region) (c : Cmd) (b e : Nat) : Nat :=
  exactSum (iredFmt c) (((iredBag c b).filter (fun row => decide (row < r.nrows) && !rowLost r c row)).map (fun row =>
    mulExact (rowVal r c.wave.snap row (dI c 40 4 + e)) (fpDecode fmt32 (SMap.get 0 c.wave.ssnap row).toNat)))

def iredPuts (r : Region) (c : Cmd) : List (Except Stop Nat × List Byte) :=
  (iredCells c).map (fun y => (iredAddr c y, leBytes (iredSize c) (iredVal r c y.1 y.2)))

/-- The first index beyond the region. -/
def badIndex (r : Region) (c : Cmd) : Option Nat :=
  (List.range (irOff c (irNbags c) - irOff c 0)).find? (fun q => decide (r.nrows ≤ irIdx c (irOff c 0 + q)))

/-- The first bag with a row that is lost. -/
def lostBag (r : Region) (c : Cmd) : Option Nat :=
  (List.range (irNbags c)).find? (fun b => (iredBag c b).any (fun row => decide (row < r.nrows) && rowLost r c row))

/-- The result of a reduce that has written all. -/
def iredRes (r : Region) (c : Cmd) : CRes :=
  let res : CRes := { count := iredSize c * (iredCells c).length, e2e := c.wave.e2e,
                      flags := if (iredCells c).any (fun y => isExc (iredFmt c) (iredVal r c y.1 y.2)) then 4 else 0 }
  match badIndex r c, lostBag r c with
  | some q, _ => { res with status := 10, fstep := 2, findex := irOff c 0 + q }
  | none, some b => { res with status := 1, fstep := 2, findex := b }
  | none, none => res

section
variable {s : State} {core : Nat} {c : Cmd} {r : Region}

/-- The accesses of a reduce's lists noted (R88, R364). -/
def iredNoted (s : State) (core : Nat) (c : Cmd) (l : List Byte) : State :=
  noteAll s (lodeWho s core) ((List.range (irNbags c + 1)).map (fun i => (false, dI c 16 8 + 4 * i)) ++
    (List.range (l.length / 4 - (irNbags c + 1))).map (fun i => (false, dI c 8 8 + 4 * i)))

theorem runIred_stops (h : c.started = false) {e : Stop} (hl : iredLists s (lodeWho s core) c = .error e) :
    runIred s core c r = finishCmd (stopReport s core 2 e) core .lode (resOf e 0) := by
  simp only [runIred, h, hl, Bool.not_false, if_true]

theorem runIred_reads (h : c.started = false) {l : List Byte} (hl : iredLists s (lodeWho s core) c = .ok l) :
    runIred s core c r = upHead (iredNoted s core c l) core .lode (fun c => { c with desc := c.desc ++ l, started := true }) := by
  simp only [runIred, h, hl, Bool.not_false, if_true]
  rfl

variable (hst : c.started = true)
include hst

theorem runIred_waits (h : ¬ ((readUnits r c).1.length ≤ c.wave.tile ∧ scalesRead r c = true)) : runIred s core c r = s := by
  simp only [runIred, hst, Bool.not_true, Bool.false_eq_true, if_false, if_neg h]

theorem runIred_complete (h : (readUnits r c).1.length ≤ c.wave.tile ∧ scalesRead r c = true)
    (hp : (putAll s (lodeWho s core) (iredPuts r c)).2.1 = none) :
    runIred s core c r = finishCmd (putAll s (lodeWho s core) (iredPuts r c)).1 core .lode (iredRes r c) := by
  have hfilter (row : Nat) : (decide (row < r.nrows) && !(decide (row < r.nrows) && rowLost r c row)) = (decide (row < r.nrows) && !rowLost r c row) := by
    cases decide (row < r.nrows) <;> rfl
  have hlen : (putAll s (lodeWho s core) (iredPuts r c)).2.2 = (iredCells c).length := by rw [putAll_complete hp, iredPuts, List.length_map]
  unfold iredPuts iredVal iredBag rowLost iredFmt at hp hlen
  unfold rowLost at hfilter
  simp only [runIred, hst, Bool.not_true, Bool.false_eq_true, if_false, if_pos h, hfilter, hp, hlen]
  unfold iredRes badIndex lostBag iredPuts iredVal iredBag rowLost iredFmt
  generalize List.find? _ (List.range (irOff c (irNbags c) - irOff c 0)) = q
  generalize List.find? _ (List.range (irNbags c)) = b
  cases q <;> cases b <;> rfl
end

theorem find?_range_first {n i : Nat} {p : Nat → Bool} (hi : i < n) (h : p i = true) (hlt : ∀ j, j < i → p j = false) :
    (List.range n).find? p = some i :=
  List.find?_range_eq_some.mpr ⟨h, List.mem_range.mpr hi, fun j hj => by rw [hlt j hj]; rfl⟩

theorem find?_range_none {n : Nat} {p : Nat → Bool} (h : ∀ i, i < n → p i = false) : (List.range n).find? p = none :=
  List.find?_eq_none.mpr fun i hi => by rw [h i (List.mem_range.mp hi)]; decide

section
variable {c : Cmd} {r : Region}

theorem iredRes_count : (iredRes r c).count = iredSize c * (iredCells c).length := by
  unfold iredRes
  dsimp only
  split <;> rfl

theorem iredRes_flags : (iredRes r c).flags = if (iredCells c).any (fun y => isExc (iredFmt c) (iredVal r c y.1 y.2)) then 4 else 0 := by
  unfold iredRes
  dsimp only
  split <;> rfl

theorem iredRes_badIndex {q : Nat} (hq : q < irOff c (irNbags c) - irOff c 0) (h : r.nrows ≤ irIdx c (irOff c 0 + q))
    (hlt : ∀ j, j < q → irIdx c (irOff c 0 + j) < r.nrows) :
    (iredRes r c).status = 10 ∧ (iredRes r c).fstep = 2 ∧ (iredRes r c).findex = irOff c 0 + q := by
  have hbad : badIndex r c = some q := find?_range_first hq (decide_eq_true h) fun j hj => decide_eq_false (Nat.not_le.mpr (hlt j hj))
  simp only [iredRes, hbad, and_self]

theorem badIndex_none (h : ∀ q, q < irOff c (irNbags c) - irOff c 0 → irIdx c (irOff c 0 + q) < r.nrows) : badIndex r c = none :=
  find?_range_none fun q hq => decide_eq_false (Nat.not_le.mpr (h q hq))

theorem any_rowLost_eq_false {b : Nat} (h : ∀ row ∈ iredBag c b, row < r.nrows → rowLost r c row = false) :
    (iredBag c b).any (fun row => decide (row < r.nrows) && rowLost r c row) = false :=
  List.any_eq_false.mpr fun row hrow e => by
    rw [Bool.and_eq_true, decide_eq_true_eq] at e
    rw [h row hrow e.1] at e
    exact Bool.false_ne_true e.2

variable (hin : ∀ q, q < irOff c (irNbags c) - irOff c 0 → irIdx c (irOff c 0 + q) < r.nrows)
include hin

theorem iredRes_lostBag {b : Nat} (hb : b < irNbags c) (h : ∃ row ∈ iredBag c b, row < r.nrows ∧ rowLost r c row = true)
    (hlt : ∀ j, j < b → ∀ row ∈ iredBag c j, row < r.nrows → rowLost r c row = false) :
    (iredRes r c).status = 1 ∧ (iredRes r c).fstep = 2 ∧ (iredRes r c).findex = b := by
  have hany : (iredBag c b).any (fun row => decide (row < r.nrows) && rowLost r c row) = true := by
    obtain ⟨row, hrow, hlt, hl⟩ := h
    exact List.any_eq_true.mpr ⟨row, hrow, by rw [decide_eq_true hlt, hl]; rfl⟩
  have hlost : lostBag r c = some b := find?_range_first hb hany fun j hj => any_rowLost_eq_false (hlt j hj)
  simp only [iredRes, badIndex_none hin, hlost, and_self]

theorem iredRes_whole (h : ∀ b, b < irNbags c → ∀ row ∈ iredBag c b, row < r.nrows → rowLost r c row = false) : (iredRes r c).status = 0 := by
  have hlost : lostBag r c = none := find?_range_none fun b hb => any_rowLost_eq_false (h b hb)
  simp only [iredRes, badIndex_none hin, hlost]
end

/-! ## The claim -/

/-- Drains and indexed reduces (R71, R257, R258, R297, R381). -/
theorem drainsAndReducesWriteSums : Claim.DrainsAndReduces := by
  intro s core c rest r hq hd href hr w sts x readAll gone
  have ends {u : State} {res : CRes} := endsWith_of_runLode (u := u) (res := res) hq hd
  have waits := waits_of_runLode hq hd
  have mem {op : CmdOp} (h : c.op = op) (hop : op ∈ lodeOps) : c.op ∈ lodeOps := h ▸ hop
  refine ⟨?drain, ?raw, ?wait, ?lists, ?reduce⟩
  case drain =>
    intro hop hs slot row0 sum value p hp
    have hp' : (putAll s w (drainPuts s r c)).2.1 = none := hp
    refine ⟨_, _, _, ends (mem hop (by decide)) ((runLode_drain href hr hop).trans (runDrain_complete hs hp')),
      (onlyLode_upSlots p.1 sts slot (fun _ => drainedSlot c)).withLode s.lode,
      fun b => testBit_drainBits b, drainFlags_sat, drainFlags_exc, fun st hst => ?_⟩
    have hslot : slotAt (upSlots p.1 sts slot (fun _ => drainedSlot c)) st slot = drainedSlot c (slotAt s st slot) := by
      rw [slotAt_upSlots _ _ _ _ _ _ (nodup_stacksOf _), if_pos ⟨hst, rfl⟩]
      exact congrArg (drainedSlot c) ((sameLode_putAll (lodeWho_agent s core) s _).slotAt_eq st slot)
    refine hslot ▸ ⟨fun y hy => acc_drainedSlot _ hy, fun k hk => acc_drainedSlot_of_ne _ hk, fun b => testBit_sub_low _ _ b, rfl, rfl⟩
  case raw =>
    intro hop hread word scale p hp
    have hword : word = rawWord r c := funext fun y => (rawWord_eq_sum r c y).symm
    have hputs : p = putAll s w (rawPuts r c) := by
      change putAll s w ((rawCells c).map (fun y => (rawAddr c y, leBytes 4 (word y))) ++ _) = _
      rw [hword]
      rfl
    rw [hputs] at hp ⊢
    exact ⟨_, ends (mem hop (by decide)) ((runLode_drainRaw href hr hop).trans (runRaw_complete hread hp)), fun b => testBit_rawBits b⟩
  case wait =>
    intro hop hn
    obtain hop | hop | ⟨hop, hst⟩ := hop
    · have hs : scalesRead r c = false := Bool.eq_false_iff.mpr fun hs => hn ⟨by simp [readUnits, hop], hs⟩
      exact waits (mem hop (by decide)) ((runLode_drain href hr hop).trans (runDrain_waits hs))
    · exact waits (mem hop (by decide)) ((runLode_drainRaw href hr hop).trans (runRaw_waits hn))
    · exact waits (mem hop (by decide)) ((runLode_ired href hr hop).trans (runIred_waits hst hn))
  case lists =>
    intro hop hst
    have hrun := runLode_ired href hr hop
    refine ⟨fun e he => ends (mem hop (by decide)) (hrun.trans (runIred_stops hst he)), fun l hl => ?_, fun o i ho hi => iredLists_ok ho hi⟩
    have hqn : (coreAt (iredNoted s core c l) core).qd = c :: rest :=
      (congrArg Core.qd ((sameUnits_noteAll (lodeWho_agent s core) s _).coreAt_eq core)).trans hq
    have hqd := qd_upHead hqn (fun c => { c with desc := c.desc ++ l, started := true })
    refine ⟨_, exec_commandComplete_lode hq hd (mem hop (by decide)), ?_⟩
    rw [hrun, runIred_reads hst hl, closeHead_unfinished hqd hd, hqd]
  case reduce =>
    intro hop hst hread f bag lost value p hp
    have hp' : (putAll s w (iredPuts r c)).2.1 = none := hp
    exact ⟨_, ends (mem hop (by decide)) ((runLode_ired href hr hop).trans (runIred_complete hst hread hp')), iredRes_count, iredRes_flags,
      fun q => iredRes_badIndex, fun hin => ⟨fun b => iredRes_lostBag hin, iredRes_whole hin⟩⟩

/-- Settles O44: page reads, the ends of tiles, latches and waves, drains and reduces, each by its own theorem. -/
theorem lodePagesAreRead : Obligations.LodePagesAreRead :=
  ⟨pagesAreReadOneByOne, tilesOfAWaveAreAdded, latchesAreLoadedAndWavesEnd, drainsAndReducesWriteSums⟩

end Sys2Proof.Machine
end

section
/-! PROOFS. Every step keeps the bounds of FIFOs, path queues, repeats and command queues (R28, R33, R34, R38, R236, R330): one lemma for each function of the model
that makes a state, a core, an engine, an effect or an outcome, in the order of the definitions, then the words, the turns and the step. -/

-- The lemmas below wait for one another when elaborated side by side, and every waiting thread keeps a stack of its
-- own; one after another they need half the memory.
set_option Elab.async false

namespace Sys2Proof.Machine

/-! ## Engines, cores and teams within their bounds -/

/-- An engine's path queue and repeat state within their bounds (R28, R38). -/
def EngSt.Bounded (e : EngSt) : Prop := e.pathq.length ≤ 4 ∧ e.rst.remain ≤ 64

/-- Every core of a saved image within its bounds (R330). -/
def Team.Bounded (t : Team) : Prop := ∀ l c, t.image = some l → c ∈ l → c.Bounded

variable {s t : State} {c : Core}

theorem Core.Bounded.eng (hc : c.Bounded) (g : Eng) : (engSt c g).Bounded := hc.2.1 g

theorem State.Bounded.core (hs : s.Bounded) (n : Nat) : (coreAt s n).Bounded := hs.1 n

theorem State.Bounded.team (hs : s.Bounded) (n : Nat) : (teamAt s n).Bounded := hs.2 n

theorem State.Bounded.curCore (hs : s.Bounded) : (curCore s).Bounded := hs.core _

theorem EngSt.bounded_default : ({} : EngSt).Bounded := ⟨Nat.zero_le _, Nat.zero_le _⟩

theorem Core.bounded_default : ({} : Core).Bounded := by
  refine ⟨fun f => Nat.zero_le _, fun g => ?_, fun q => ?_⟩
  · cases g <;> exact EngSt.bounded_default
  · cases q <;> exact Nat.zero_le _

theorem Team.bounded_of_image_none {t : Team} (h : t.image = none) : t.Bounded := fun l c hl => by rw [h] at hl; cases hl

/-- The bounds speak of the cores and the teams alone. -/
theorem State.Bounded.crew (hs : s.Bounded) (hc : t.cores = s.cores := by rfl) (ht : t.teams = s.teams := by rfl) : t.Bounded := by
  refine ⟨fun n => ?_, fun n => ?_⟩
  · rw [coreAt, hc]; exact hs.core n
  · rw [teamAt, ht]; exact hs.team n

/-- Reading a map whose entries have been changed in place. -/
theorem SMap.get_map_of {α : Type} {P : α → Prop} {d : α} {m : SMap α} {k : Nat} {f : Nat × α → Nat × α} (hk : ∀ p, (f p).1 = p.1)
    (hf : ∀ p, P p.2 → P (f p).2) (h : P (SMap.get d m k)) : P (SMap.get d (m.map f) k) := by
  induction m with
  | nil => exact h
  | cons p r ih =>
    simp only [List.map_cons, SMap.get, hk] at h ⊢
    split
    · next e => rw [if_pos e] at h; exact hf p h
    · next e => rw [if_neg e] at h; exact ih h

theorem length_get_tab_le {α : Type} [DecidableEq α] {n k m : Nat} {f : Nat → List α} (hf : ∀ i, (f i).length ≤ m) :
    (SMap.get [] (SMap.tab [] n f) k).length ≤ m := by
  rw [SMap.get_tab]
  split
  · exact hf k
  · exact Nat.zero_le _

theorem ite_bounded {p : Prop} [Decidable p] (hs : s.Bounded) (ht : t.Bounded) : (if p then s else t).Bounded := by
  split <;> assumption

theorem foldl_bounded {β : Type} {f : State → β → State} {l : List β} (hf : ∀ {s b}, s.Bounded → (f s b).Bounded) (hs : s.Bounded) :
    (l.foldl f s).Bounded := by
  induction l generalizing s with
  | nil => exact hs
  | cons b r ih => exact ih (hf hs)

theorem foldl_fst_bounded {β γ : Type} {f : State × γ → β → State × γ} {l : List β} {p : State × γ}
    (hf : ∀ {p b}, p.1.Bounded → (f p b).1.Bounded) (hp : p.1.Bounded) : (l.foldl f p).1.Bounded := by
  induction l generalizing p with
  | nil => exact hp
  | cons b r ih => exact ih (hf hp)

theorem foldl_snd_bounded {β γ : Type} {f : γ × State → β → γ × State} {l : List β} {p : γ × State}
    (hf : ∀ {p b}, p.2.Bounded → (f p b).2.Bounded) (hp : p.2.Bounded) : (l.foldl f p).2.Bounded := by
  induction l generalizing p with
  | nil => exact hp
  | cons b r ih => exact ih (hf hp)

/-! ## Updates of one core or team -/

theorem setEngSt_bounded {g : Eng} {e : EngSt} (hc : c.Bounded) (he : e.Bounded) : (setEngSt c g e).Bounded := by
  obtain ⟨hf, hg, hq⟩ := hc
  have hgs (k : Eng) : (engSt (setEngSt c g e) k).Bounded := by
    rw [engSt_setEngSt]
    split
    · exact he
    · exact hg k
  cases g <;> exact ⟨hf, hgs, hq⟩

theorem upEng_bounded {g : Eng} {f : EngSt → EngSt} (hc : c.Bounded) (hf : ∀ {e}, e.Bounded → (f e).Bounded) : (upEng c g f).Bounded :=
  setEngSt_bounded hc (hf (hc.eng g))

theorem setCore_bounded {n : Nat} (hs : s.Bounded) (hc : c.Bounded) : (setCore s n c).Bounded := by
  refine ⟨fun m => ?_, hs.2⟩
  rw [coreAt_setCore]
  split
  · exact hc
  · exact hs.core m

theorem upCore_bounded {n : Nat} {f : Core → Core} (hs : s.Bounded) (hf : ∀ {c}, c.Bounded → (f c).Bounded) : (upCore s n f).Bounded :=
  setCore_bounded hs (hf (hs.core n))

theorem upCur_bounded {f : Core → Core} (hs : s.Bounded) (hf : ∀ {c}, c.Bounded → (f c).Bounded) : (upCur s f).Bounded := upCore_bounded hs hf

theorem upCurEng_bounded {f : EngSt → EngSt} (hs : s.Bounded) (hf : ∀ {e}, e.Bounded → (f e).Bounded) : (upCurEng s f).Bounded :=
  upCur_bounded hs fun hc => upEng_bounded hc hf

theorem setTeam_bounded {n : Nat} {x : Team} (hs : s.Bounded) (hx : x.Bounded) : (setTeam s n x).Bounded := by
  refine ⟨hs.1, fun m => ?_⟩
  rw [teamAt_setTeam]
  split
  · exact hx
  · exact hs.team m

theorem upTeam_bounded {n : Nat} {f : Team → Team} (hs : s.Bounded) (hf : ∀ {x}, x.Bounded → (f x).Bounded) : (upTeam s n f).Bounded :=
  setTeam_bounded hs (hf (hs.team n))

/-! ## What an effect, an access or an outcome leads to -/

def Eff.Bounded : Eff → Prop
  | .done s => s.Bounded
  | .stall _ _ _ s => s.Bounded
  | .fatal _ s => s.Bounded
  | .trap _ _ _ s => s.Bounded

def MRes.Bounded {α : Type} : MRes α → Prop
  | .ok _ s => s.Bounded
  | .wait s => s.Bounded
  | .fail _ s => s.Bounded

def Need.Bounded : Need → Prop
  | .wait s => s.Bounded
  | .ready => True
  | .failed _ => True

def AEff.Bounded : AEff → Prop
  | .go _ _ _ => True
  | .mem s _ => s.Bounded
  | .halt _ _ _ => True
  | .fail s _ => s.Bounded

def MbRes.Bounded : MbRes → Prop
  | .no _ => True
  | .ok s _ => s.Bounded

def SeqRes.Bounded (r : SeqRes) : Prop := r.s.Bounded

def OutBounded : Out → Prop
  | .next s => s.Bounded
  | .fault _ => True
  | .refused _ => True

def OptBounded : Option State → Prop
  | some s => s.Bounded
  | none => True

theorem Eff.ite_bounded {p : Prop} [Decidable p] {x y : Eff} (hx : x.Bounded) (hy : y.Bounded) : (if p then x else y).Bounded := by
  split <;> assumption

theorem out_ite_bounded {p : Prop} [Decidable p] {x y : Out} (hx : OutBounded x) (hy : OutBounded y) : OutBounded (if p then x else y) := by
  split <;> assumption

section
variable {α : Type} {r : MRes α} {e : Eff} {d : Need} {a : AEff} {m : MbRes} {o : Option State} {x : Out}

theorem MRes.Bounded.ok {v : α} (h : r.Bounded) (hr : r = .ok v s) : s.Bounded := by rw [hr] at h; exact h

theorem MRes.Bounded.wait (h : r.Bounded) (hr : r = .wait s) : s.Bounded := by rw [hr] at h; exact h

theorem MRes.Bounded.fail {why} (h : r.Bounded) (hr : r = .fail why s) : s.Bounded := by rw [hr] at h; exact h

theorem Eff.Bounded.done (h : e.Bounded) (he : e = .done s) : s.Bounded := by rw [he] at h; exact h

theorem Eff.Bounded.stall {k d n} (h : e.Bounded) (he : e = .stall k d n s) : s.Bounded := by rw [he] at h; exact h

theorem Eff.Bounded.fatal {n} (h : e.Bounded) (he : e = .fatal n s) : s.Bounded := by rw [he] at h; exact h

theorem Eff.Bounded.trap {f l n} (h : e.Bounded) (he : e = .trap f l n s) : s.Bounded := by rw [he] at h; exact h

theorem Need.Bounded.wait (h : d.Bounded) (hd : d = .wait s) : s.Bounded := by rw [hd] at h; exact h

theorem AEff.Bounded.mem {n} (h : a.Bounded) (ha : a = .mem s n) : s.Bounded := by rw [ha] at h; exact h

theorem AEff.Bounded.fail {n} (h : a.Bounded) (ha : a = .fail s n) : s.Bounded := by rw [ha] at h; exact h

theorem MbRes.Bounded.ok {n} (h : m.Bounded) (hm : m = .ok s n) : s.Bounded := by rw [hm] at h; exact h

theorem OptBounded.some (h : OptBounded o) (ho : o = some s) : s.Bounded := by rw [ho] at h; exact h

theorem OptBounded.getD (h : OptBounded o) (hs : s.Bounded) : (o.getD s).Bounded := by
  cases o with
  | none => exact hs
  | some t => exact h

theorem OutBounded.next (h : OutBounded x) (hx : x = .next s) : s.Bounded := by rw [hx] at h; exact h

theorem optMap_bounded_of {f : State → State} (ho : OptBounded o) (hf : ∀ {s : State}, s.Bounded → (f s).Bounded) : OptBounded (o.map f) := by
  cases o with
  | none => trivial
  | some t => exact hf ho

theorem optMap_bounded {β : Type} {f : β → State} {l : Option β} (hf : ∀ {b}, (f b).Bounded) : OptBounded (l.map f) := by
  cases l with
  | none => trivial
  | some b => exact hf

end

/-! ## The definitions of Sys2Proof/Machine/State.lean -/

theorem State.reset_bounded : State.reset.Bounded := ⟨fun _ => Core.bounded_default, fun _ => Team.bounded_of_image_none rfl⟩

/-! ## The definitions of Sys2Proof/Machine/Ops.lean -/

theorem coreAt_bounded {s n} (hs : s.Bounded) : (coreAt s n).Bounded := hs.core n

theorem upCluster_bounded {s n f} (hs : s.Bounded) : (upCluster s n f).Bounded := hs

theorem upQueue_bounded {s q f} (hs : s.Bounded) : (upQueue s q f).Bounded := hs

theorem upPart_bounded {s p f} (hs : s.Bounded) : (upPart s p f).Bounded := hs

theorem upFn_bounded {s n f} (hs : s.Bounded) : (upFn s n f).Bounded := hs

theorem engSt_bounded {c g} (hc : c.Bounded) : (engSt c g).Bounded := hc.eng g

theorem curCore_bounded {s} (hs : s.Bounded) : (curCore s).Bounded := coreAt_bounded hs

theorem curEng_bounded {s} (hs : s.Bounded) : (curEng s).Bounded := engSt_bounded (curCore_bounded hs)

theorem setScal_bounded {c g r v} (hc : c.Bounded) : (setScal c g r v).Bounded := by
  unfold setScal
  split
  · exact hc
  · cases g <;> exact hc

theorem wr_bounded {s r v} (hs : s.Bounded) : (wr s r v).Bounded := upCur_bounded hs setScal_bounded

theorem wrN_bounded {s r v} (hs : s.Bounded) : (wrN s r v).Bounded := upCur_bounded hs setScal_bounded

theorem setPredE_bounded {e p b} (he : e.Bounded) : (setPredE e p b).Bounded := he

theorem wrP_bounded {s p b} (hs : s.Bounded) : (wrP s p b).Bounded := upCurEng_bounded hs setPredE_bounded

theorem vput_bounded {c r e w} (hc : c.Bounded) : (vput c r e w).Bounded := hc

theorem kset_bounded {c r m} (hc : c.Bounded) : (kset c r m).Bounded := hc

theorem bumpClk_bounded {s} (hs : s.Bounded) : (bumpClk s).Bounded := upCurEng_bounded hs (fun h1 => h1)

theorem setFifo_bounded {c f l} (hc : c.Bounded) (hl : l.length ≤ 15) : (setFifo c f l).Bounded := by
  obtain ⟨hf, hg, hq⟩ := hc
  refine ⟨fun k => ?_, hg, hq⟩
  rw [fifoAt_setFifo]
  split
  · exact hl
  · exact hf k

theorem popTokens_bounded {c : Core} {g pop} (hc : c.Bounded) : (popTokens c g pop).1.Bounded := by
  refine List.foldlRecOn (motive := fun p : Core × List Token => p.1.Bounded) _ _ hc fun p hp f _ => ?_
  split
  · exact hp
  · next t q hq =>
    have hlen := hp.1 (fifoNum f (engNum g))
    rw [hq, List.length_cons] at hlen
    exact upEng_bounded (setFifo_bounded hp (Nat.le_of_succ_le hlen)) fun he => he

/-- The FIFOs that a PUSH field names are different ones (R33). -/
theorem nodup_pushed (g : Eng) (push : BitVec 3) : ((namedEngs g push).map (fifoNum (engNum g))).Nodup := by
  have h : ((List.range 3).map fun j => fifoNum (engNum g) (otherEng (engNum g) j)).Nodup := by cases g <;> decide
  rw [namedEngs, List.map_map]
  exact h.sublist (List.filter_sublist.map _)

/-- Tokens pushed into FIFOs with room (R33). -/
theorem pushTokens_bounded {c : Core} {g push pay} (hc : c.Bounded) (hp : pushBlocked c g push = none) : (pushTokens c g push pay).Bounded := by
  have hroom : ∀ f ∈ namedEngs g push, (fifoAt c (fifoNum (engNum g) f)).length < 15 := fun f hf => by
    have hlen := List.find?_eq_none.mp hp f hf
    rwa [decide_eq_true_eq, Nat.not_le] at hlen
  have hd := nodup_pushed g push
  unfold pushTokens
  generalize namedEngs g push = l at hroom hd
  clear hp
  induction l generalizing c with
  | nil => exact hc
  | cons f r ih =>
    obtain ⟨hnot, hd⟩ := List.nodup_cons.mp hd
    refine ih (setFifo_bounded hc ?_) (fun k hk => ?_) hd
    · rw [List.length_append]
      exact hroom f List.mem_cons_self
    · have hne : fifoNum (engNum g) f ≠ fifoNum (engNum g) k := fun e => hnot (List.mem_map.mpr ⟨k, hk, e.symm⟩)
      rw [fifoAt_setFifo, if_neg hne]
      exact hroom k (List.mem_cons_of_mem _ hk)

theorem waitOn_bounded {tick e kind detail obj} (he : e.Bounded) : (waitOn tick e kind detail obj).Bounded := by
  unfold waitOn
  split <;> exact he

theorem noWait_bounded {e} (he : e.Bounded) : (noWait e).Bounded := he

theorem retireSec_bounded {e pc} (he : e.Bounded) : (retireSec e pc).Bounded := he

theorem advance_bounded {e} (he : e.Bounded) : (advance e).Bounded := by
  unfold advance
  split
  · exact he
  · split
    · exact he
    · exact retireSec_bounded he

theorem leaveJoin_bounded {old g c} (hc : c.Bounded) : (leaveJoin old g c).Bounded := by
  unfold leaveJoin
  split
  · exact hc
  · exact hc

theorem holdFault_bounded {s r} (hs : s.Bounded) : (holdFault s r).Bounded := ite_bounded hs hs

theorem holdReport_bounded {s r} (hs : s.Bounded) : (holdReport s r).Bounded := ite_bounded hs (ite_bounded hs hs)

theorem eventFn_bounded {s fn bit} (hs : s.Bounded) : (eventFn s fn bit).Bounded := hs.crew

theorem signalEvent_bounded {s bit} (hs : s.Bounded) : (signalEvent s bit).Bounded := foldl_bounded eventFn_bounded hs

theorem hostSay_bounded {s fn c} (hs : s.Bounded) : (hostSay s fn c).Bounded := hs

theorem endTeam_bounded {t} (ht : t.Bounded) : (endTeam t).Bounded := by
  unfold endTeam
  split
  · exact ht
  · exact Team.bounded_of_image_none rfl

theorem toStageS_bounded {s cause} (hs : s.Bounded) : (toStageS s cause).Bounded :=
  signalEvent_bounded ⟨hs.1, fun n => SMap.get_map_of (P := Team.Bounded) (fun _ => rfl) (fun _ => endTeam_bounded) (hs.team n)⟩

theorem foremanFault_bounded {s} (hs : s.Bounded) : (foremanFault s).Bounded := toStageS_bounded hs

theorem failContext_bounded {s part ctx} (hs : s.Bounded) : (failContext s part ctx).Bounded := by
  refine ⟨fun n => SMap.get_map_of (P := Core.Bounded) (fun p => ?_) (fun p hp => ?_) (hs.core n),
    fun n => SMap.get_map_of (P := Team.Bounded) (fun p => ?_) (fun p hp => ?_) (hs.team n)⟩
  · split <;> rfl
  · split
    · exact setEngSt_bounded (g := .c) hp (hp.eng .c)
    · exact hp
  · split <;> rfl
  · split
    · exact Team.bounded_of_image_none rfl
    · exact hp

theorem raiseFatal_bounded {s f textaddr word} (hs : s.Bounded) : (raiseFatal s f textaddr word).Bounded :=
  ite_bounded (foremanFault_bounded hs) (failContext_bounded (holdFault_bounded hs))

theorem raiseTrap_bounded {s f lanes mask textaddr word} (hs : s.Bounded) : (raiseTrap s f lanes mask textaddr word).Bounded :=
  ite_bounded (foremanFault_bounded hs) (ite_bounded hs (upTeam_bounded (upCur_bounded (holdFault_bounded hs) (fun h1 => h1)) (fun h1 => h1)))

theorem resumeTrapped_bounded {s tid skip} (hs : s.Bounded) : (resumeTrapped s tid skip).Bounded := upTeam_bounded hs (fun h1 => h1)

theorem afterWord_bounded {s repPush n} (hs : s.Bounded) : (afterWord s repPush n).Bounded := by
  have hrem : (curEng s).rst.remain ≤ 64 := (curEng_bounded hs).2
  unfold afterWord
  dsimp only
  split
  · split
    · exact upCurEng_bounded hs fun he => ⟨he.1, Nat.sub_le_of_le_add (Nat.le_succ_of_le he.2)⟩
    · split
      · exact upCurEng_bounded hs fun he => ⟨(waitOn_bounded he).1, Nat.zero_le _⟩
      · next hp =>
        refine setCore_bounded hs (leaveJoin_bounded (upEng_bounded (pushTokens_bounded hs.curCore hp) fun he => ?_))
        exact advance_bounded ⟨he.1, Nat.zero_le _⟩
  · refine upCur_bounded hs fun hc => leaveJoin_bounded (upEng_bounded hc fun he => ?_)
    split
    · exact advance_bounded he
    · exact he
    · exact retireSec_bounded he

theorem retireWord_bounded {s h repPush live w} (hs : s.Bounded) (hw : ∀ {s : State}, s.Bounded → (w.post s).Bounded) :
    (retireWord s h repPush live w).Bounded := by
  unfold retireWord
  dsimp only
  split
  · exact afterWord_bounded hs
  · split
    · exact upCurEng_bounded hs fun he => waitOn_bounded he
    · next hp =>
      have hpush : (upCur s fun c => pushTokens c s.cur.eng h.push (w.pay live s)).Bounded := setCore_bounded hs
          (pushTokens_bounded hs.curCore hp)
      split
      · exact hw (afterWord_bounded hpush)
      · exact afterWord_bounded hpush

/-! ## The definitions of Sys2Proof/Machine/Mem.lean -/

theorem decodeFail_bounded {s k} (hs : s.Bounded) : (decodeFail s k).Bounded := ite_bounded hs hs

theorem wrByte_bounded {s k b} (hs : s.Bounded) : (wrByte s k b).Bounded := ite_bounded hs hs

theorem wrBytes_bounded {s l} (hs : s.Bounded) : (wrBytes s l).Bounded := foldl_bounded wrByte_bounded hs

theorem wrRun_bounded {s k l} (hs : s.Bounded) : (wrRun s k l).Bounded := wrBytes_bounded hs

theorem newChecks_bounded {s keys} (hs : s.Bounded) : (newChecks s keys).Bounded := hs

theorem fillLine_bounded {s k} (hs : s.Bounded) : (fillLine s k).Bounded := hs

theorem fillAll_bounded {s keys} (hs : s.Bounded) : (fillAll s keys).Bounded := foldl_bounded fillLine_bounded hs

theorem fillLines_bounded {s keys} (hs : s.Bounded) : (fillLines s keys).Bounded := fillAll_bounded hs

theorem fillReads_bounded {s keys} (hs : s.Bounded) : (fillReads s keys).Bounded := fillAll_bounded hs

theorem writeMem_bounded {s l} (hs : s.Bounded) : (writeMem s l).Bounded := newChecks_bounded (wrBytes_bounded (fillLines_bounded hs))

theorem holdPte_bounded {s w at_ p} (hs : s.Bounded) : (holdPte s w at_ p).Bounded := by
  unfold holdPte
  split
  · exact hs
  · exact hs
  · exact hs
  · exact upCore_bounded hs (fun h1 => upEng_bounded h1 (fun h2 => h2))

theorem markPte_bounded {s at_ f} (hs : s.Bounded) : (markPte s at_ f).Bounded := ite_bounded hs (writeMem_bounded hs)

theorem loadPte_bounded {s w at_} (hs : s.Bounded) : (loadPte s w at_).Bounded := ite_bounded (holdPte_bounded (markPte_bounded hs)) hs

theorem notePage_bounded {s w shadow addr} (hs : s.Bounded) : (notePage s w shadow addr).Bounded := by
  unfold notePage
  dsimp only
  split
  · exact hs
  · exact ite_bounded hs (ite_bounded (loadPte_bounded (loadPte_bounded hs)) (loadPte_bounded hs))

theorem notePages_bounded {s w shadow addr n} (hs : s.Bounded) : (notePages s w shadow addr n).Bounded :=
  ite_bounded (notePage_bounded hs) (notePage_bounded (notePage_bounded hs))

theorem fillRun_bounded {s w addr n} (hs : s.Bounded) : (fillRun s w addr n).Bounded := by
  unfold fillRun
  split
  · exact fillReads_bounded hs
  · exact hs

theorem noteAll_bounded {s w l} (hs : s.Bounded) : (noteAll s w l).Bounded := foldl_bounded fillRun_bounded (foldl_bounded notePage_bounded hs)

theorem e2eReport_bounded {s consumer addr blocks} (hs : s.Bounded) : (e2eReport s consumer addr blocks).Bounded := holdReport_bounded hs

theorem windowFail_bounded {s w addr} (hs : s.Bounded) : (windowFail s w addr).Bounded := by
  unfold windowFail
  split
  · exact decodeFail_bounded hs
  · exact hs

theorem fetchReport_bounded {s w consumer f blocks} (hs : s.Bounded) : (fetchReport s w consumer f blocks).Bounded :=
  ite_bounded (e2eReport_bounded (windowFail_bounded hs)) hs

theorem xReport_bounded {s x} (hs : s.Bounded) : (xReport s x).Bounded := by
  unfold xReport
  split
  · exact e2eReport_bounded hs
  · exact hs

theorem performStore_bounded {s core id} (hs : s.Bounded) : (performStore s core id).Bounded := by
  unfold performStore
  dsimp only
  split
  · exact hs
  · exact ite_bounded (upCore_bounded hs (fun h1 => h1)) (writeMem_bounded (upCore_bounded hs (fun h1 => h1)))

theorem performNth_bounded {s core k} (hs : s.Bounded) : (performNth s core k).Bounded := by
  unfold performNth
  dsimp only
  split
  · exact hs
  · exact ite_bounded hs (ite_bounded (performStore_bounded hs) (performStore_bounded hs))

theorem performFirst_bounded {s core n} (hs : s.Bounded) : (performFirst s core n).Bounded := foldl_bounded performStore_bounded hs

theorem performBefore_bounded {s core id} (hs : s.Bounded) : (performBefore s core id).Bounded := performFirst_bounded hs

theorem performAll_bounded {s core} (hs : s.Bounded) : (performAll s core).Bounded := foldl_bounded performStore_bounded hs

theorem performIn_bounded {s core f} (hs : s.Bounded) : (performIn s core f).Bounded := foldl_bounded performStore_bounded hs

theorem performKeys_bounded {s core keys} (hs : s.Bounded) : (performKeys s core keys).Bounded := performIn_bounded hs

theorem dropLines_bounded {s core addr n keys} (hs : s.Bounded) : (dropLines s core addr n keys).Bounded := upCore_bounded hs (fun h1 => h1)

theorem snapLine_bounded {s addr keys} (hs : s.Bounded) : (snapLine s addr keys).2.Bounded := by
  unfold snapLine
  dsimp only
  split
  · exact hs
  · exact upCur_bounded (fillReads_bounded hs) (fun h1 => h1)

theorem noteTextPage_bounded {s off} (hs : s.Bounded) : (noteTextPage s off).Bounded := by
  unfold noteTextPage
  dsimp only
  split
  · exact hs
  · exact ite_bounded (markPte_bounded hs) hs

theorem noteText_bounded {s off n} (hs : s.Bounded) : (noteText s off n).Bounded := foldl_bounded noteTextPage_bounded hs

theorem sendReq_bounded {s kind who home pa len data} (hs : s.Bounded) : (sendReq s kind who home pa len data).1.Bounded := hs

theorem needRemote_bounded {s keys} (hs : s.Bounded) : (needRemote s keys).Bounded := by
  unfold needRemote
  dsimp only
  split
  · exact trivial
  · exact trivial
  · split
    · exact upCurEng_bounded hs (fun h1 => h1)
    · exact hs

theorem keepPart_bounded {s addr bs} (hs : s.Bounded) : (keepPart s addr bs).Bounded := ite_bounded (upCurEng_bounded hs (fun h1 => h1)) hs

theorem loadBytes_bounded {s addr keys snap} (hs : s.Bounded) : (loadBytes s addr keys snap).2.Bounded := by
  unfold loadBytes
  dsimp only
  refine foldl_snd_bounded (fun h1 => ?_) (ite_bounded hs (performKeys_bounded hs))
  split
  · exact snapLine_bounded h1
  · exact fillReads_bounded h1

theorem coreLoad_bounded {s addr n fresh} (hs : s.Bounded) : (coreLoad s addr n fresh).Bounded := by
  unfold coreLoad
  dsimp only
  split
  · exact xReport_bounded hs
  · split
    · exact hs
    · split
      · next hr1 => exact (needRemote_bounded hs).wait hr1
      · exact hs
      · split
        · exact e2eReport_bounded (decodeFail_bounded hs)
        · exact keepPart_bounded (bumpClk_bounded (notePages_bounded (loadBytes_bounded hs)))

theorem issuePart_bounded {s addr ks ds} (hs : s.Bounded) : (issuePart s addr ks ds).Bounded :=
  ite_bounded (sendReq_bounded (upCur_bounded hs (fun h1 => h1))) (upCur_bounded hs (fun h1 => h1))

theorem issueStore_bounded {s addr keys data put} (hs : s.Bounded) : (issueStore s addr keys data put).Bounded :=
  foldl_bounded issuePart_bounded (dropLines_bounded (bumpClk_bounded (notePages_bounded hs)))

theorem coreStoreAt_bounded {o s addr data} (hs : s.Bounded) : (coreStoreAt o s addr data).Bounded := by
  unfold coreStoreAt
  dsimp only
  split
  · exact xReport_bounded hs
  · split
    · exact e2eReport_bounded (decodeFail_bounded hs)
    · exact issueStore_bounded hs

theorem coreStore_bounded {s addr data} (hs : s.Bounded) : (coreStore s addr data).Bounded := coreStoreAt_bounded hs

theorem clearPart_bounded {s} (hs : s.Bounded) : (clearPart s).Bounded := upCurEng_bounded hs (fun h1 => h1)

theorem partLoad_bounded {s l fresh} (hs : s.Bounded) : OptBounded (partLoad s l fresh) := by
  unfold partLoad
  dsimp only
  refine optMap_bounded ?_
  intros
  split
  · next hr1 => exact clearPart_bounded ((coreLoad_bounded hs).ok hr1)
  · next hr1 => exact clearPart_bounded ((coreLoad_bounded hs).wait hr1)
  · exact clearPart_bounded hs

theorem partStore_bounded {s l} (hs : s.Bounded) : OptBounded (partStore s l) := by
  unfold partStore
  dsimp only
  refine optMap_bounded ?_
  intros
  split
  · exact clearPart_bounded hs
  · split
    · next hr1 => exact clearPart_bounded (upCurEng_bounded ((coreStoreAt_bounded hs).ok hr1) (fun h2 => h2))
    · next hr1 => exact clearPart_bounded ((coreStoreAt_bounded hs).wait hr1)
    · exact clearPart_bounded hs

theorem fatalHere_bounded {s f} (hs : s.Bounded) : (fatalHere s f).Bounded := raiseFatal_bounded hs

/-- A word keeps the bounds where its effect and what its retirement adds do. -/
theorem runWordS_bounded {s : State} {h w} (he : ∀ {s : State}, s.Bounded → (w.eff s).Bounded)
    (hw : ∀ {s : State}, s.Bounded → (w.post s).Bounded)
    (hs : s.Bounded) : (runWordS s h w).Bounded := by
  unfold runWordS
  dsimp only
  split
  · exact retireWord_bounded hs hw
  · split
    · exact upCurEng_bounded hs fun he => waitOn_bounded he
    · have hp : (if (curEng s).issued = true then s else upCur s fun c => (popTokens c s.cur.eng h.pop).1).Bounded :=
        ite_bounded hs (upCur_bounded hs fun hc => popTokens_bounded hc)
      have heff := he hp
      split
      · split
        · next hr => exact retireWord_bounded (upCurEng_bounded (heff.done hr) fun he => he) hw
        · next hr => exact upCurEng_bounded (heff.stall hr) fun he => waitOn_bounded he
        · next hr => exact fatalHere_bounded (heff.fatal hr)
        · next hr => exact raiseTrap_bounded (upCurEng_bounded (heff.trap hr) fun he => he)
      · exact retireWord_bounded hp hw

theorem runWord_bounded {s : State} {h w} (he : ∀ {s : State}, s.Bounded → (w.eff s).Bounded)
    (hw : ∀ {s : State}, s.Bounded → (w.post s).Bounded)
    (hs : s.Bounded) : OutBounded (runWord s h w) := runWordS_bounded he hw hs

theorem runEff_bounded {s : State} {h eff} (he : ∀ {s : State}, s.Bounded → (eff s).Bounded) (hs : s.Bounded) : OutBounded (runEff s h eff) :=
  runWord_bounded he (fun hs => hs) hs

theorem legalEff_bounded {s a1 ok eff} (hs : s.Bounded) (heff : ∀ {s : State}, s.Bounded → (eff s).Bounded) :
    OutBounded (legalEff s a1 ok eff) :=
  out_ite_bounded (fatalHere_bounded hs) (runEff_bounded (fun h1 => heff h1) hs)

theorem effLoad_bounded {s addr n fresh k} (hs : s.Bounded) (hk : ∀ {x0} {s : State}, s.Bounded → (k x0 s).Bounded) :
    (effLoad s addr n fresh k).Bounded := by
  unfold effLoad
  split
  · next hr1 => exact (partLoad_bounded hs).some hr1
  · split
    · next hr1 => exact hk ((coreLoad_bounded hs).ok hr1)
    · next hr1 => exact (coreLoad_bounded hs).wait hr1
    · next hr1 => exact (coreLoad_bounded hs).fail hr1

theorem effStore_bounded {s addr data k} (hs : s.Bounded) (hk : ∀ {s : State}, s.Bounded → (k s).Bounded) :
    (effStore s addr data k).Bounded := by
  unfold effStore
  split
  · next hr1 => exact (partStore_bounded hs).some hr1
  · split
    · next hr1 => exact hk ((coreStore_bounded hs).ok hr1)
    · next hr1 => exact (coreStore_bounded hs).wait hr1
    · next hr1 => exact (coreStore_bounded hs).fail hr1

theorem effAddrOr_bounded {s a imm n k} (hk : ∀ {x}, (k x).Bounded) (hs : s.Bounded) : (effAddrOr s a imm n k).Bounded := by
  unfold effAddrOr
  split
  · exact hk
  · exact hs

/-! ## The definitions of Sys2Proof/Machine/Scalar.lean -/

theorem setReg_bounded {s h d f} (hs : s.Bounded) : OutBounded (setReg s h d f) := runEff_bounded (fun hs => wr_bounded hs) hs

theorem setPr_bounded {s h d f} (hs : s.Bounded) : OutBounded (setPr s h d f) := runEff_bounded (fun hs => wrP_bounded hs) hs

theorem repS_bounded {h imm s} (hs : s.Bounded) : (repS h imm s).Bounded := by
  unfold repS
  dsimp only
  refine ite_bounded (fatalHere_bounded hs) ?_
  split
  · exact upCurEng_bounded hs fun he => waitOn_bounded he
  · exact upCurEng_bounded (upCur_bounded hs fun hc => popTokens_bounded hc) fun he => ⟨he.1, Nat.mod_lt imm.toNat (by decide)⟩

/-! ## The definitions of Sys2Proof/Machine/Control.lean -/

theorem coreAtomic_bounded {s op ty addr n v v2} (hs : s.Bounded) : (coreAtomic s op ty addr n v v2).Bounded := by
  unfold coreAtomic
  dsimp only
  split
  · exact hs
  · split
    · exact xReport_bounded hs
    · split
      · exact hs
      · split
        · exact hs
        · split
          · split
            · exact ite_bounded (e2eReport_bounded hs) hs
            · exact bumpClk_bounded (dropLines_bounded hs)
            · exact bumpClk_bounded hs
            · exact hs
            · split
              · exact bumpClk_bounded (notePages_bounded hs)
              · split
                · exact upCurEng_bounded (notePages_bounded hs) (fun h1 => h1)
                · exact hs
          · split
            · exact bumpClk_bounded (dropLines_bounded (newChecks_bounded (wrBytes_bounded (fillReads_bounded (performKeys_bounded
                  (notePages_bounded hs))))))
            · exact e2eReport_bounded hs

theorem wrPE_bounded {s e b} (hs : s.Bounded) : (wrPE s e b).Bounded := ite_bounded hs (wrP_bounded hs)

theorem atomWord_bounded {op a1 ty d a b e imm s} (hs : s.Bounded) : OutBounded (atomWord op a1 ty d a b e imm s) := by
  unfold atomWord
  dsimp only
  refine runEff_bounded (fun h1 => ?_) hs
  refine effAddrOr_bounded ?_ h1
  intros
  split
  · next hr2 => exact wrPE_bounded (wr_bounded ((coreAtomic_bounded h1).ok hr2))
  · next hr2 => exact wrPE_bounded (wr_bounded ((coreAtomic_bounded h1).ok hr2))
  · next hr2 => exact (coreAtomic_bounded h1).wait hr2
  · next hr2 => exact (coreAtomic_bounded h1).fail hr2

theorem execAtomCas128_bounded {a0 ty d a b e imm s} (hs : s.Bounded) : OutBounded (execAtomCas128 a0 ty d a b e imm s) := by
  unfold execAtomCas128
  dsimp only
  refine runEff_bounded (fun h1 => ?_) hs
  refine effAddrOr_bounded ?_ h1
  intros
  split
  · next hr2 => exact wrPE_bounded (wrN_bounded (wr_bounded ((coreAtomic_bounded h1).ok hr2)))
  · next hr2 => exact wrPE_bounded (wrN_bounded (wr_bounded ((coreAtomic_bounded h1).ok hr2)))
  · next hr2 => exact (coreAtomic_bounded h1).wait hr2
  · next hr2 => exact (coreAtomic_bounded h1).fail hr2

/-- A target posted to engines that have room for it. -/
theorem post_bounded {c : Core} {l : List Eng} {t} (hc : c.Bounded) (hl : l.Nodup) (hroom : ∀ g ∈ l, (engSt c g).pathq.length < 4) :
    (l.foldl (fun c g => upEng c g fun e => { e with pathq := e.pathq ++ [t] }) c).Bounded := by
  induction l generalizing c with
  | nil => exact hc
  | cons g r ih =>
    obtain ⟨hg, hl⟩ := List.nodup_cons.mp hl
    refine ih (setEngSt_bounded hc ⟨?_, (hc.eng g).2⟩) hl fun k hk => ?_
    · simpa [Nat.succ_le_iff] using hroom g List.mem_cons_self
    · have hne : g ≠ k := fun e => hg (e ▸ hk)
      rw [engSt_upEng, if_neg hne]
      exact hroom k (List.mem_cons_of_mem _ hk)

theorem postTarget_bounded {s t} (hs : s.Bounded) : (postTarget s t).Bounded := by
  unfold postTarget
  dsimp only
  refine Eff.ite_bounded hs (Eff.ite_bounded hs ?_)
  split
  · exact hs
  · next hfull =>
    refine setCore_bounded hs (post_bounded hs.curCore (List.Nodup.filter _ (by decide)) fun g hg => ?_)
    by_contra hlen
    exact hfull (List.any_eq_true.mpr ⟨g, hg, decide_eq_true (Nat.not_lt.mp hlen)⟩)

theorem steerWord_bounded {s a1 target also} (hs : s.Bounded) (halso : ∀ {s : State}, s.Bounded → (also s).Bounded) :
    OutBounded (steerWord s a1 target also) := by
  unfold steerWord
  split
  · refine runWord_bounded (fun {s} hs => ?_) (fun hs => hs) hs
    have hp := postTarget_bounded (t := target s) hs
    dsimp only
    split
    · next hd => exact halso (hp.done hd)
    · exact hp
  · exact fatalHere_bounded hs

theorem execFnw_bounded {a0 a s} (hs : s.Bounded) : OutBounded (execFnw a0 a s) :=
  runEff_bounded (fun h1 => Eff.ite_bounded h1 (upCur_bounded h1 (fun h2 => h2))) hs

theorem execPhase_bounded {a0 sc s} (hs : s.Bounded) : OutBounded (execPhase a0 sc s) :=
  runEff_bounded (fun h1 => Eff.ite_bounded (upCur_bounded h1 (fun h2 => h2)) h1) hs

theorem arriveBar_bounded {s tid n} (hs : s.Bounded) : (arriveBar s tid n).Bounded := upTeam_bounded hs (fun h1 => h1)

theorem execWaitw_bounded {a0 r ty d a b imm s} (hs : s.Bounded) : OutBounded (execWaitw a0 r ty d a b imm s) :=
  runEff_bounded (fun h1 => effAddrOr_bounded (Eff.ite_bounded h1 (effLoad_bounded h1 (fun h2 => Eff.ite_bounded (wr_bounded h2)
  (upCurEng_bounded h2 (fun h3 => h3))))) h1) hs

theorem addOverrun_bounded {s tid late} (hs : s.Bounded) : (addOverrun s tid late).Bounded := upTeam_bounded hs (fun h1 => h1)

theorem execTwait_bounded {a0 a s} (hs : s.Bounded) : OutBounded (execTwait a0 a s) :=
  runEff_bounded (fun h1 => Eff.ite_bounded h1 (ite_bounded (addOverrun_bounded h1) h1)) hs

theorem nopreFatal_bounded {s core} (hs : s.Bounded) : (nopreFatal s core).Bounded :=
  ite_bounded (ite_bounded (foremanFault_bounded hs) (failContext_bounded (holdFault_bounded hs))) hs

theorem refetch_bounded {s lo hi} (hs : s.Bounded) : (refetch s lo hi).Bounded :=
  upCur_bounded (foldl_bounded notePage_bounded hs) (fun h1 => h1)

theorem execSignal_bounded {a0 sc a b imm s} (hs : s.Bounded) : OutBounded (execSignal a0 sc a b imm s) := by
  unfold execSignal
  dsimp only
  refine runEff_bounded (fun h1 => ?_) hs
  refine effAddrOr_bounded ?_ h1
  intros
  split
  · exact h1
  · split
    · split
      · next hr2 => exact (coreAtomic_bounded h1).ok hr2
      · next hr2 => exact (coreAtomic_bounded h1).ok hr2
      · next hr2 => exact (coreAtomic_bounded h1).wait hr2
      · next hr2 => exact (coreAtomic_bounded h1).fail hr2
    · exact h1

theorem retryC_bounded {s core kinds run} (hs : s.Bounded) (hrun : ∀ {s : State}, s.Bounded → OutBounded (run s)) :
    OutBounded (retryC s core kinds run) :=
  out_ite_bounded (hrun hs) hs

/-! ## The definitions of Sys2Proof/Machine/Teams.lean -/

theorem devReport_bounded {s addr blocks} (hs : s.Bounded) : (devReport s addr blocks).Bounded := holdReport_bounded hs

theorem devWrite_bounded {s w addr l} (hs : s.Bounded) : (devWrite s w addr l).Bounded := by
  unfold devWrite
  split
  · exact hs
  · split
    · exact devReport_bounded (decodeFail_bounded hs)
    · exact writeMem_bounded hs

theorem dropLease_bounded {s cl tid} (hs : s.Bounded) : (dropLease s cl tid).Bounded := ite_bounded (upCluster_bounded hs) hs

theorem releaseCore_bounded {s core} (hs : s.Bounded) : (releaseCore s core).Bounded :=
  ite_bounded (ite_bounded (upTeam_bounded (upCore_bounded hs (fun h1 => h1)) (fun h1 => h1)) (dropLease_bounded (upCore_bounded hs
  (fun h1 => h1)))) hs

theorem recTileDone_bounded {s q tile} (hs : s.Bounded) : (recTileDone s q tile).Bounded := by
  unfold recTileDone
  dsimp only
  split
  · exact hs
  · exact ite_bounded (upQueue_bounded hs) (devWrite_bounded (upQueue_bounded hs))

theorem vacate_bounded {c} : (vacate c).Bounded := Core.bounded_default

theorem keepCores_bounded {s t} (hs : s.Bounded) : (keepCores s t).Bounded := by
  unfold keepCores
  split <;> exact hs

theorem takeCores_bounded {s cores} (hs : s.Bounded) : (takeCores s cores).Bounded := hs

theorem dropKept_bounded {s c} (hs : s.Bounded) : (dropKept s c).Bounded := hs

theorem freeTeam_bounded {s tid} (hs : s.Bounded) : (freeTeam s tid).Bounded :=
  setTeam_bounded (upCluster_bounded (foldl_bounded (fun h1 => ite_bounded (upCore_bounded h1 (fun _ => vacate_bounded)) h1)
  (dropKept_bounded (keepCores_bounded hs)))) (Team.bounded_of_image_none rfl)

theorem finishTeam_bounded {s tid} (hs : s.Bounded) : (finishTeam s tid).Bounded := by
  unfold finishTeam
  dsimp only
  split
  · exact ite_bounded (freeTeam_bounded hs) hs
  · exact ite_bounded (freeTeam_bounded hs) hs
  · exact hs

theorem sweepTeams_bounded {s} (hs : s.Bounded) : (sweepTeams s).Bounded := foldl_bounded finishTeam_bounded hs

theorem emptied_bounded {c : Core} (hc : c.Bounded) :
    { c with fifos := [], ev := { c.ev with pathq := [] }, em := { c.em with pathq := [] }, eh := { c.eh with pathq := [] } }.Bounded := by
  obtain ⟨-, hg, hq⟩ := hc
  refine ⟨fun f => Nat.zero_le _, fun g => ?_, hq⟩
  cases g
  · exact hg .c
  · exact ⟨Nat.zero_le _, (hg .v).2⟩
  · exact ⟨Nat.zero_le _, (hg .m).2⟩
  · exact ⟨Nat.zero_le _, (hg .h).2⟩

theorem tileComplete_bounded {s tid} (hs : s.Bounded) : (tileComplete s tid).Bounded := by
  unfold tileComplete
  exact ite_bounded (finishTeam_bounded (recTileDone_bounded (foldl_bounded (fun hs => upCore_bounded hs emptied_bounded) hs))) hs

theorem retireTile_bounded {s core g} (hs : s.Bounded) : (retireTile s core g).Bounded := by
  unfold retireTile
  dsimp only
  split
  · next x _ =>
    refine ite_bounded ?_ hs
    have hr : (upCore s core fun c => upEng c g fun e =>
        { retireSec e (secEnd x) with retired := true, wait := { kind := 14, since := s.tick % 2 ^ 32 }, pathq := [] }).Bounded :=
      upCore_bounded hs fun hc => upEng_bounded hc fun he => ⟨Nat.zero_le _, (retireSec_bounded (pc := secEnd x) he).2⟩
    exact ite_bounded (tileComplete_bounded (releaseCore_bounded (upCore_bounded hr fun hc => hc))) hr
  · exact hs

theorem freshImage_bounded {s slot} (hs : s.Bounded) : (freshImage s slot).Bounded := hs

theorem askHalt_bounded {s tid ends discard waits} (hs : s.Bounded) : (askHalt s tid ends discard waits).Bounded := by
  unfold askHalt
  refine upTeam_bounded hs (fun h1 => ?_)
  split
  · split <;> exact h1
  · exact h1
  · split <;> exact h1
  · exact h1

theorem beginHalt_bounded {s tid} (hs : s.Bounded) : (beginHalt s tid).Bounded := by
  unfold beginHalt
  dsimp only
  split
  · exact ite_bounded (upTeam_bounded hs (fun h1 => h1)) hs
  · exact hs

theorem endHalt_bounded {s tid} (hs : s.Bounded) : (endHalt s tid).Bounded :=
  ite_bounded (foldl_bounded (fun h1 => upCore_bounded h1 (fun h2 => h2)) hs) hs

theorem noTlb_bounded {e} (he : e.Bounded) : (noTlb e).Bounded := he

theorem pollAfresh_bounded {s n e} (he : e.Bounded) : (pollAfresh s n e).Bounded := by
  unfold pollAfresh
  dsimp only
  split
  · exact he
  · split
    · exact he
    · split <;> exact he

theorem savedCore_bounded {s : State} {n : Nat} {c : Core} (hc : c.Bounded) :
    { c with l1 := [], npt0 := if c.npre then s.tick - c.npt0 else 0, ec := noTlb (pollAfresh s n c.ec), ev := noTlb c.ev, em := noTlb c.em,
             eh := noTlb c.eh }.Bounded := by
  refine ⟨hc.1, fun g => ?_, hc.2.2⟩
  cases g
  · exact noTlb_bounded (pollAfresh_bounded (hc.eng .c))
  · exact hc.eng .v
  · exact hc.eng .m
  · exact hc.eng .h

theorem saveTeam_bounded {s tid} (hs : s.Bounded) : (saveTeam s tid).Bounded := by
  unfold saveTeam
  extract_lets t quiet room recorded s1 s2 holds lease imgs s3 s4
  have h2 : s2.Bounded := foldl_bounded (fun hs => upCore_bounded hs fun hc => hc) (foldl_bounded performAll_bounded hs)
  have h4 : s4.Bounded := upCluster_bounded (keepCores_bounded (foldl_bounded (fun hs => upCore_bounded hs fun _ => vacate_bounded) h2))
  have himgs {c} (hc : c ∈ imgs) : c.Bounded := by
    obtain ⟨n, -, rfl⟩ := List.mem_map.mp hc
    exact savedCore_bounded (h2.core n)
  split
  · extract_lets s5
    have h5 : s5.Bounded := upTeam_bounded (s := { s4 with order := s4.order + 1 }) h4.crew fun _ l c hl hc => by
      cases hl
      exact himgs hc
    exact ite_bounded (ite_bounded (freeTeam_bounded h2) (freshImage_bounded (upTeam_bounded h5 fun ht => ht))) hs
  · exact hs

theorem restoredCore_bounded {s : State} {n tid : Nat} {c : Core} {k : Nat} (hs : s.Bounded) (hc : c.Bounded) :
    (setCore s n { c with tid := tid, l1 := [], npt0 := k }).Bounded := setCore_bounded hs hc

theorem restoreTeam_bounded {s tid} (hs0 : s.Bounded) : (restoreTeam s tid).Bounded := by
  unfold restoreTeam
  extract_lets t put
  split
  · exact hs0
  · next imgs himgs =>
    extract_lets s1 s2 cur
    have h1 : s1.Bounded := by
      refine takeCores_bounded (List.foldlRecOn (motive := State.Bounded) (t.cores.zip imgs) put hs0 fun s hs p hp => ?_)
      have hc := restoredCore_bounded (n := p.1) (tid := tid) (k := if p.2.npre then s.tick - p.2.npt0 else 0) hs
        (hs0.2 _ _ _ himgs (List.of_mem_zip hp).2)
      exact ite_bounded (addOverrun_bounded hc) hc
    have h2 : s2.Bounded := upTeam_bounded h1 fun _ => Team.bounded_of_image_none rfl
    split
    · split
      · next n _ =>
        extract_lets s3 hd s4
        have h3 : s3.Bounded := h2.crew
        have h4 : s4.Bounded := ite_bounded (retireWord_bounded (upCurEng_bounded h3 fun he => he) fun hs => hs) h3
        exact h4.crew
      · exact h2
    · exact h2

/-! ## The definitions of Sys2Proof/Machine/Walk.lean -/

theorem popTarget_bounded {e} (he : e.Bounded) : (popTarget e).Bounded := by
  unfold popTarget
  split
  · next t r hq =>
    have hlen := he.1
    rw [hq, List.length_cons] at hlen
    exact retireSec_bounded ⟨Nat.le_of_succ_le hlen, he.2⟩
  · exact he

theorem startSec_bounded {e x a2} (he : e.Bounded) : (startSec e x a2).Bounded := noWait_bounded he

theorem headerStep_bounded {s} (hs : s.Bounded) : (headerStep s).Bounded := by
  unfold headerStep
  dsimp only
  split
  · exact raiseFatal_bounded (fetchReport_bounded hs)
  · exact upCurEng_bounded hs fun he => waitOn_bounded he
  · exact upCurEng_bounded hs fun he => retireSec_bounded (noWait_bounded he)
  · exact upCurEng_bounded hs fun he => popTarget_bounded he
  · next x h _ =>
    refine upCurEng_bounded (noteText_bounded hs) fun {e} he => ?_
    have hstart : (startSec (noWait e) x h).Bounded := startSec_bounded (noWait_bounded he)
    split <;> exact hstart
  · next n _ => exact upCurEng_bounded hs fun {e} he => retireSec_bounded (e := noWait e) (pc := n) (noWait_bounded he)

theorem onEng_bounded {s core g} (hs : s.Bounded) : (onEng s core g).Bounded := hs

theorem execSteerTargetPop_bounded {core g s} (hs : s.Bounded) : OutBounded (execSteerTargetPop core g s) := by
  unfold execSteerTargetPop
  dsimp only
  split
  · split
    · exact headerStep_bounded (onEng_bounded hs)
    · exact onEng_bounded hs
  · exact onEng_bounded hs

theorem execJoinRendezvous_bounded {core g s} (hs : s.Bounded) : OutBounded (execJoinRendezvous core g s) := by
  unfold execJoinRendezvous
  dsimp only
  split
  · split
    · exact ite_bounded (headerStep_bounded (onEng_bounded hs)) (onEng_bounded hs)
    · exact headerStep_bounded (onEng_bounded hs)
    · exact onEng_bounded hs
  · exact onEng_bounded hs

/-! ## The definitions of Sys2Proof/Machine/Queues.lean -/

theorem enableQueue_bounded {s q} (hs : s.Bounded) : (enableQueue s q).Bounded := ite_bounded (upQueue_bounded hs) hs

theorem discardTeams_bounded {s q resident} (hs : s.Bounded) : (discardTeams s q resident).Bounded :=
  foldl_bounded (fun h1 => ite_bounded (freeTeam_bounded h1) (ite_bounded (beginHalt_bounded (askHalt_bounded h1)) h1)) hs

theorem queueWord_bounded {s q addr} (hs : s.Bounded) : (queueWord s q addr).2.Bounded := by
  unfold queueWord
  dsimp only
  split
  · exact hs
  · split
    · split
      · exact hs
      · split
        · exact hs
        · split
          · exact upQueue_bounded hs
          · exact hs
    · split
      · exact hs
      · exact fillReads_bounded hs

theorem State.Bounded.queueWord_some {s t : State} {q addr v} (hs : s.Bounded) (h : (queueWord s q addr).1 = some (v, t)) : t.Bounded := by
  unfold queueWord at h
  dsimp only at h
  split at h
  · cases h
  · split at h
    · split at h
      · cases h
      · split at h
        · cases h; exact hs
        · split at h <;> cases h
    · split at h
      · cases h
      · cases h; exact fillReads_bounded hs

theorem waitWords_bounded {s q r} (hs : s.Bounded) : (waitWords s q r).2.Bounded := by
  refine foldl_snd_bounded (fun {p w} hp => ?_) hs
  split
  · next h1 => exact hp.queueWord_some (congrArg Prod.fst h1)
  · next h1 =>
    have hq := queueWord_bounded (q := q) (addr := w.1) hp
    rw [h1] at hq
    exact hq

theorem slotReport_bounded {s part addr blocks} (hs : s.Bounded) : (slotReport s part addr blocks).Bounded := holdReport_bounded hs

def CountRead.Bounded : CountRead → Prop
  | .value _ s => s.Bounded
  | .wait s => s.Bounded
  | .fail s => s.Bounded

theorem readCount_bounded {s q d r} (hs : s.Bounded) : (readCount s q d r).Bounded := by
  unfold readCount
  extract_lets x addr
  clear_value addr
  split
  · exact hs
  · split
    · exact hs
    · split
      · split
        · exact hs
        · split
          · exact hs
          · split
            · exact upQueue_bounded (sendReq_bounded hs)
            · exact hs
      · split
        · exact slotReport_bounded (decodeFail_bounded hs)
        · exact fillReads_bounded hs

theorem readCounts_bounded {n q s} (hs : s.Bounded) : (readCounts n q s).Bounded := by
  induction n generalizing s with
  | zero => exact hs
  | succ n ih =>
    rw [readCounts]
    split
    · exact hs
    · next r _ =>
      split
      · exact upQueue_bounded hs
      · next d _ =>
        have hr := readCount_bounded (q := q) (d := d) (r := r) hs
        split
        · next h1 => rw [h1] at hr; exact ih (upQueue_bounded hr)
        · next h1 => rw [h1] at hr; exact hr
        · next h1 => rw [h1] at hr; exact upQueue_bounded hr

theorem becomeRunnable_bounded {s q r} (hs : s.Bounded) : (becomeRunnable s q r).Bounded := readCounts_bounded (upQueue_bounded hs)

theorem evalWaits_bounded {s q} (hs : s.Bounded) : (evalWaits s q).Bounded := by
  unfold evalWaits
  dsimp only
  split
  · exact hs
  · exact ite_bounded hs (ite_bounded (readCounts_bounded hs) (ite_bounded (upQueue_bounded (waitWords_bounded hs)) (ite_bounded
        (becomeRunnable_bounded (waitWords_bounded hs)) (ite_bounded (upQueue_bounded (waitWords_bounded hs)) (waitWords_bounded hs)))))

theorem takeUnread_bounded {s q keys} (hs : s.Bounded) : (takeUnread s q keys).Bounded := by
  unfold takeUnread
  dsimp only
  refine upQueue_bounded ?_
  split
  · split
    · exact slotReport_bounded (decodeFail_bounded hs)
    · exact hs
  · exact hs

theorem takeBytes_bounded {s q final got keys} (hs : s.Bounded) : (takeBytes s q final got keys).Bounded := by
  unfold takeBytes
  split
  · exact takeUnread_bounded hs
  · exact upQueue_bounded hs

theorem takeHead_bounded {s q final} (hs : s.Bounded) : (takeHead s q final).Bounded := takeBytes_bounded (fillRun_bounded hs)

theorem destroyNext_bounded {n q} {s : State} (hs : s.Bounded) : (destroyNext n q s).Bounded := by
  induction n generalizing s with
  | zero => exact upQueue_bounded hs
  | succ n ih =>
    rw [destroyNext]
    exact ite_bounded (upQueue_bounded hs) (ite_bounded (takeHead_bounded hs) (ih (upQueue_bounded hs)))

theorem takeRecord_bounded {s q} (hs : s.Bounded) : (takeRecord s q).Bounded :=
  ite_bounded hs (ite_bounded (evalWaits_bounded (takeHead_bounded hs)) (ite_bounded (destroyNext_bounded hs) hs))

theorem deadlineExpire_bounded {s q} (hs : s.Bounded) : (deadlineExpire s q).Bounded := by
  unfold deadlineExpire
  dsimp only
  split
  · exact hs
  · split
    · split
      · exact upQueue_bounded hs
      · exact foldl_bounded (fun h1 => upTeam_bounded h1 (fun h2 => h2)) (upQueue_bounded hs)
      · exact discardTeams_bounded (upQueue_bounded hs)
    · exact hs

theorem finishFlush_bounded {s q} (hs : s.Bounded) : (finishFlush s q).Bounded := by
  unfold finishFlush
  split
  · exact ite_bounded (upQueue_bounded hs) hs
  · exact hs

theorem flushQueue_bounded {s q mode} (hs : s.Bounded) : (flushQueue s q mode).Bounded :=
  finishFlush_bounded (ite_bounded (discardTeams_bounded (upQueue_bounded hs)) (upQueue_bounded hs))

theorem resetContinue_bounded {s q} (hs : s.Bounded) : (resetContinue s q).Bounded := upQueue_bounded hs

theorem resetRestart_bounded {s q} (hs : s.Bounded) : (resetRestart s q).Bounded := deadlineExpire_bounded (upQueue_bounded hs)

theorem destroyQueue_bounded {s q discard} (hs : s.Bounded) : (destroyQueue s q discard).Bounded :=
  ite_bounded hs (ite_bounded (destroyNext_bounded (discardTeams_bounded (upQueue_bounded hs))) (discardTeams_bounded (upQueue_bounded hs)))

theorem setCtrl_bounded {s q v} (hs : s.Bounded) : (setCtrl s q v).Bounded := upQueue_bounded hs

theorem pubStores_bounded {key swap s core} (hs : s.Bounded) : (pubStores key swap s core).Bounded :=
  ite_bounded (upCore_bounded (performFirst_bounded hs) (fun h1 => h1)) hs

theorem publish_bounded {s part ctx a3 scope} (hs : s.Bounded) : (publish s part ctx a3 scope).Bounded := by
  unfold publish
  dsimp only
  split
  · exact ite_bounded (foldl_bounded pubStores_bounded hs) hs
  · exact hs

theorem signalRecord_bounded {s q r} (hs : s.Bounded) : OptBounded (signalRecord s q r) := by
  unfold signalRecord
  extract_lets x addr ok
  split
  · exact hs
  · split
    · exact hs
    · dsimp only
      split
      · split
        · exact hs
        · split
          · exact upQueue_bounded (sendReq_bounded hs)
          · trivial
      · split
        · exact hs
        · split
          · exact slotReport_bounded (decodeFail_bounded hs)
          · exact writeMem_bounded (fillReads_bounded hs)

theorem completeRecord_bounded {s0 q} (hs0 : s0.Bounded) : (completeRecord s0 q).Bounded := by
  unfold completeRecord
  extract_lets s x
  have hs : s.Bounded := finishFlush_bounded (sweepTeams_bounded hs0)
  clear_value s
  split
  · exact hs
  · next r _ =>
    extract_lets s1 r1 first s2 s3
    have h1 : s1.Bounded := ite_bounded (foldl_bounded freeTeam_bounded hs) hs
    have h3 : s3.Bounded := ite_bounded (foldl_bounded publish_bounded (upQueue_bounded h1)) (upQueue_bounded h1)
    refine ite_bounded h1 (ite_bounded h1 ?_)
    split
    · exact h3
    · next hr =>
      have h4 := (signalRecord_bounded h3).some hr
      split
      · exact ite_bounded (upQueue_bounded h4) h4
      · exact h4

theorem writeEntry_bounded {s q} (hs : s.Bounded) : (writeEntry s q).Bounded := by
  unfold writeEntry
  dsimp only
  split
  · exact hs
  · exact ite_bounded (ite_bounded (destroyNext_bounded (dropKept_bounded (upQueue_bounded (devWrite_bounded hs)))) (dropKept_bounded
        (upQueue_bounded (devWrite_bounded hs)))) hs

/-! ## The definitions of Sys2Proof/Machine/Launch.lean -/

theorem launchCore_bounded {s r n tid idx} : (launchCore s r n tid idx).Bounded := by
  refine ⟨fun f => length_get_tab_le fun i => ?_, fun g => ?_, fun q => ?_⟩
  · rw [List.length_replicate, recToken]
    omega
  · cases g <;> exact ⟨Nat.zero_le _, Nat.zero_le _⟩
  · cases q <;> exact Nat.zero_le _

theorem launchTile_bounded {s q cl} (hs : s.Bounded) : (launchTile s q cl).Bounded := by
  unfold launchTile
  extract_lets x
  split
  · next r tid _ _ =>
    extract_lets cores s1 s2 t s3 s4
    have h2 : s2.Bounded := foldl_bounded (fun hs => setCore_bounded hs launchCore_bounded) (takeCores_bounded hs)
    have h3 : (setTeam s2 tid t).Bounded := setTeam_bounded h2 (Team.bounded_of_image_none rfl)
    exact h3.crew
  · exact hs

theorem serve_bounded {s c} (hs : s.Bounded) : OptBounded (serve s c) := by
  refine optMap_bounded_of ?_ fun hs => dropKept_bounded hs
  cases c with
  | team tid =>
    dsimp only
    split
    · exact restoreTeam_bounded hs
    · trivial
  | rcd q =>
    generalize freeTid s = o
    dsimp only
    cases (queueAt s q).rcd with
    | none => trivial
    | some r =>
      cases o with
      | none => trivial
      | some _ => exact optMap_bounded (launchTile_bounded hs)

theorem haltFor_bounded {c s tid} (hs : s.Bounded) : (haltFor c s tid).Bounded :=
  beginHalt_bounded (upTeam_bounded (askHalt_bounded hs) (fun h1 => h1))

theorem serveFirst_bounded {s l} (hs : s.Bounded) : (serveFirst s l).Bounded := by
  refine OptBounded.getD ?_ hs
  induction l with
  | nil => trivial
  | cons c r ih =>
    rw [List.findSome?_cons]
    have hc := serve_bounded (c := c) hs
    split
    · next hr => exact hc.some hr
    · exact ih

theorem walkerChoice_bounded {s0} (hs0 : s0.Bounded) : (walkerChoice s0).Bounded := by
  have hs := sweepTeams_bounded hs0
  unfold walkerChoice
  dsimp only
  split
  · exact hs
  · split
    · next hr => exact (serve_bounded hs).some hr
    · exact serveFirst_bounded (foldl_bounded haltFor_bounded hs)

/-! ## The definitions of Sys2Proof/Machine/Image.lean -/

theorem readEngine_bounded {b o e} : (readEngine b o e).Bounded := by
  refine ⟨?_, Nat.min_le_left _ _⟩
  rw [readEngine, List.length_map, List.length_range]
  exact Nat.min_le_left _ _

theorem readFifo_length_le {b o old} : (readFifo b o old).length ≤ 15 := by
  rw [readFifo, List.length_map, List.length_range]
  exact Nat.min_le_left _ _

theorem readCore_bounded {b t c} (hc : c.Bounded) : (readCore b t c).Bounded := by
  refine ⟨fun f => length_get_tab_le fun _ => readFifo_length_le, fun g => ?_, hc.2.2⟩
  cases g <;> exact readEngine_bounded

theorem readBars_bounded {b t} (ht : t.Bounded) : (readBars b t).Bounded := ht

theorem Team.Bounded.map_image {t : Team} {f : Core → Core} (ht : t.Bounded) (hf : ∀ {c}, c.Bounded → (f c).Bounded) :
    { t with image := t.image.map (List.map f) }.Bounded := by
  intro l c hl hc
  obtain ⟨m, hm, rfl⟩ := Option.map_eq_some_iff.mp hl
  obtain ⟨d, hd, rfl⟩ := List.mem_map.mp hc
  exact hf (ht m d hm hd)

theorem putImage_bounded {t l} (ht : t.Bounded) : (putImage t l).Bounded := by
  have hb (b : Nat → Byte) : (if t.image.isSome && l.any (fun p => decide (p.1 < 0x1000)) then readBars b t else t).Bounded := by
    split
    · exact ht
    · exact ht
  exact (hb _).map_image fun hc => by
    split
    · exact readCore_bounded hc
    · exact hc

theorem areaWrite_bounded {s l} (hs : s.Bounded) : (areaWrite s l).Bounded :=
  foldl_bounded (fun hs => upTeam_bounded hs fun ht => putImage_bounded ht) hs

/-! ## The definitions of Sys2Proof/Machine/Hoist.lean -/

theorem setQ_bounded {c : Core} {q l} (hc : c.Bounded) (hl : l.length ≤ 16) : (setQ c q l).Bounded := by
  obtain ⟨hf, hg, hq⟩ := hc
  cases q
  · exact ⟨hf, hg, fun k => by cases k; exacts [hl, hq .store, hq .lode]⟩
  · exact ⟨hf, hg, fun k => by cases k; exacts [hq .load, hl, hq .lode]⟩
  · exact ⟨hf, hg, fun k => by cases k; exacts [hq .load, hq .store, hl]⟩

/-- Taking commands from the front of a queue. -/
theorem setQ_drop_bounded {c : Core} {q n} (hc : c.Bounded) : (setQ c q ((getQ c q).drop n)).Bounded :=
  setQ_bounded hc ((List.drop_sublist _ _).length_le.trans (hc.2.2 q))

theorem upHead_bounded {s core q f} (hs : s.Bounded) : (upHead s core q f).Bounded := by
  refine upCore_bounded hs fun {c} hc => ?_
  split
  · next x r hq =>
    have hlen := hc.2.2 q
    rw [hq] at hlen
    exact setQ_bounded hc hlen
  · exact hc

theorem engWr_bounded {s k b} (hs : s.Bounded) : (engWr s k b).Bounded := by
  unfold engWr
  dsimp only
  split
  · refine upCore_bounded hs (fun h1 => ?_)
    split
    · exact vput_bounded h1
    · split
      · exact kset_bounded h1
      · exact setScal_bounded h1
  · exact wrByte_bounded hs

theorem engWrs_bounded {s l} (hs : s.Bounded) : (engWrs s l).Bounded :=
  ite_bounded (foldl_bounded engWr_bounded hs) (areaWrite_bounded (foldl_bounded engWr_bounded hs))

theorem cmdReport_bounded {s core consumer addr blocks} (hs : s.Bounded) : (cmdReport s core consumer addr blocks).Bounded :=
  e2eReport_bounded (windowFail_bounded hs)

theorem stopReport_bounded {s core consumer x} (hs : s.Bounded) : (stopReport s core consumer x).Bounded := ite_bounded (cmdReport_bounded hs) hs

theorem readDesc_bounded {s c n} (hs : s.Bounded) : (readDesc s c n).1.Bounded := by
  unfold readDesc
  dsimp only
  split
  · exact hs
  · split
    · exact hs
    · split
      · exact fillRun_bounded (notePages_bounded hs)
      · exact stopReport_bounded hs

theorem settleDesc_bounded {s addr n} (hs : s.Bounded) : (settleDesc s addr n).Bounded := by
  unfold settleDesc
  split
  · exact performKeys_bounded hs
  · exact hs

/-- The cores' command queues are as before, and the same core is at work. -/
def SameQueues (s t : State) : Prop := t.cur = s.cur ∧ ∀ n q, getQ (coreAt t n) q = getQ (coreAt s n) q

theorem SameQueues.refl (s : State) : SameQueues s s := ⟨rfl, fun _ _ => rfl⟩

theorem SameQueues.trans {s t u : State} (h : SameQueues s t) (k : SameQueues t u) : SameQueues s u :=
  ⟨k.1.trans h.1, fun n q => (k.2 n q).trans (h.2 n q)⟩

theorem SameQueues.curCore_eq {s t : State} (h : SameQueues s t) (q : QId) : getQ (curCore t) q = getQ (curCore s) q := by
  rw [curCore, h.1]
  exact h.2 _ q

theorem SameQueues.of_cores {s t : State} (hcur : t.cur = s.cur) (hc : t.cores = s.cores) : SameQueues s t :=
  ⟨hcur, fun n q => by rw [coreAt, hc]; rfl⟩

theorem OnlyMem.sameQueues {s t : State} (h : OnlyMem s t) : SameQueues s t :=
  .of_cores (h.field State.cur fun _ _ _ _ => rfl) (h.field State.cores fun _ _ _ _ => rfl)

theorem getQ_setEngSt {c : Core} {g e q} : getQ (setEngSt c g e) q = getQ c q := by
  cases g <;> rfl

theorem sameQueues_upCore {s : State} {n : Nat} {f : Core → Core} (hf : ∀ c q, getQ (f c) q = getQ c q) : SameQueues s (upCore s n f) := by
  refine ⟨rfl, fun m q => ?_⟩
  rw [upCore, coreAt_setCore]
  split
  · next h => rw [hf, h]
  · rfl

theorem sameQueues_holdPte {s w k p} : SameQueues s (holdPte s w k p) := by
  unfold holdPte
  split
  · exact .of_cores rfl rfl
  · exact .refl s
  · exact .refl s
  · exact sameQueues_upCore fun c q => getQ_setEngSt

theorem sameQueues_markPte {s k f} : SameQueues s (markPte s k f) := by
  unfold markPte
  split
  · exact .refl s
  · exact (onlyMem_writeMem s _).sameQueues

theorem sameQueues_loadPte {s w k} : SameQueues s (loadPte s w k) := by
  unfold loadPte
  dsimp only
  split
  · exact sameQueues_markPte.trans sameQueues_holdPte
  · exact .refl s

theorem sameQueues_notePage {s w sh a} : SameQueues s (notePage s w sh a) := by
  unfold notePage
  split
  · exact .refl s
  · split
    · exact .refl s
    · dsimp only
      split
      · exact sameQueues_loadPte.trans sameQueues_loadPte
      · exact sameQueues_loadPte

theorem sameQueues_notePages {s w sh a n} : SameQueues s (notePages s w sh a n) := by
  unfold notePages
  dsimp only
  split
  · exact sameQueues_notePage.trans (.of_cores rfl rfl)
  · exact (sameQueues_notePage.trans sameQueues_notePage).trans (.of_cores rfl rfl)

theorem sameQueues_fillRun {s w a n} : SameQueues s (fillRun s w a n) := by
  unfold fillRun
  split
  · exact (onlyMem_fillAll s _).sameQueues
  · exact .refl s

theorem cores_holdReport (s : State) (r : FRec) : (holdReport s r).cores = s.cores := by
  unfold holdReport
  split
  · rfl
  · split <;> rfl

theorem cores_windowFail (s : State) (w : Who) (a : Nat) : (windowFail s w a).cores = s.cores := by
  unfold windowFail
  split
  · unfold decodeFail
    split <;> rfl
  · rfl

theorem sameQueues_stopReport {s core consumer x} : SameQueues s (stopReport s core consumer x) := by
  unfold stopReport
  split
  · exact .of_cores rfl ((cores_holdReport _ _).trans (cores_windowFail s _ _))
  · exact .refl s

theorem sameQueues_readDesc {s c n} : SameQueues s (readDesc s c n).1 := by
  unfold readDesc
  dsimp only
  split
  · exact .refl s
  · split
    · exact .refl s
    · split
      · exact sameQueues_notePages.trans sameQueues_fillRun
      · exact sameQueues_stopReport

theorem issueCmd_bounded {s0 c n route prep also} (hs0 : s0.Bounded) (halso : ∀ {s : State}, s.Bounded → (also s).Bounded) :
    (issueCmd s0 c n route prep also).Bounded := by
  unfold issueCmd
  extract_lets s p p' q _ s' seq
  have hs : s.Bounded := ite_bounded hs0 (settleDesc_bounded hs0)
  have hp : p.1.Bounded := by
    unfold p
    split
    · exact hs
    · exact readDesc_bounded hs
  have hq : SameQueues s s' := by
    have h : SameQueues s p.1 := by
      unfold p
      split
      · exact .refl s
      · exact sameQueues_readDesc
    exact h.trans (.trans (t := { p.1 with nissue := p.1.nissue + 1 }) (.of_cores rfl rfl) (sameQueues_upCore fun c q => getQ_setEngSt))
  split
  · exact hs
  · next hfull =>
    have hs' : s'.Bounded := bumpClk_bounded hp.crew
    refine halso (setCore_bounded hs' (setQ_bounded hs'.curCore ?_))
    rw [List.length_append]
    change (getQ (curCore s') q).length < 16
    rw [hq.curCore_eq]
    exact Nat.not_le.mp hfull

theorem ringWrite_bounded {s core consumer addr l} (hs : s.Bounded) : (ringWrite s core consumer addr l).Bounded := by
  unfold ringWrite
  split
  · split
    · exact hs
    · split
      · exact cmdReport_bounded hs
      · exact writeMem_bounded (notePage_bounded hs)
  · exact hs

theorem cqUpdate_bounded {c : Core} {m} (hc : c.Bounded) : { c with cq := m }.Bounded := hc

theorem writeRecord_bounded {s core q x r} (hs : s.Bounded) : (writeRecord s core q x r).Bounded :=
  upCore_bounded (ite_bounded hs (upCore_bounded (ringWrite_bounded hs) cqUpdate_bounded)) fun hc => setQ_drop_bounded hc

theorem execCqAck_bounded {h d a s} (hs : s.Bounded) : OutBounded (execCqAck h d a s) :=
  runEff_bounded (fun hs => Eff.ite_bounded hs (upCur_bounded hs cqUpdate_bounded)) hs

/-! ## The definitions of Sys2Proof/Machine/Probe.lean -/

theorem probeDone_bounded {s d e code p} (hs : s.Bounded) : (probeDone s d e code p).Bounded := wrP_bounded (wr_bounded hs)

theorem askHost_bounded {s home pa} (hs : s.Bounded) : (askHost s home pa).Bounded := upCurEng_bounded hs (fun h1 => h1)

theorem probeHost_bounded {s c d e part home pa} (hs : s.Bounded) : (probeHost s c d e part home pa).Bounded := by
  unfold probeHost
  dsimp only
  split
  · exact askHost_bounded hs
  · exact hs
  · split
    · exact probeDone_bounded hs
    · split
      · exact probeDone_bounded hs
      · split
        · exact hs
        · exact upCurEng_bounded (upPart_bounded hs) (fun h1 => h1)
  · exact hs
  · exact askHost_bounded hs
  · exact probeDone_bounded hs
  · exact hs
  · exact Eff.ite_bounded (probeDone_bounded hs) (probeDone_bounded hs)

theorem probeHit_bounded {s c d e w addr key} (hs : s.Bounded) : (probeHit s c d e w addr key).Bounded := by
  unfold probeHit
  dsimp only
  split
  · exact Eff.ite_bounded (probeDone_bounded hs) (Eff.ite_bounded (probeDone_bounded (notePages_bounded hs)) (probeDone_bounded
        (notePages_bounded hs)))
  · exact probeDone_bounded (notePages_bounded hs)

theorem probeAt_bounded {s c d e addr} (hs : s.Bounded) : (probeAt s c d e addr).Bounded := by
  unfold probeAt
  dsimp only
  split
  · exact probeDone_bounded hs
  · split
    · exact Eff.ite_bounded (probeHost_bounded hs) (probeHit_bounded hs)
    · exact xReport_bounded hs
    · exact hs
    · exact probeDone_bounded hs

theorem answerEng_bounded {s core g id f} (hs : s.Bounded) : OptBounded (answerEng s core g id f) := by
  have hgive {c : Core} (hc : c.Bounded) : (upEng c g fun e => { e with reply := f e.reply }).Bounded := upEng_bounded hc fun he => he
  unfold answerEng
  dsimp only
  split
  · exact upCore_bounded hs hgive
  · split
    · refine upTeam_bounded hs fun ht => ht.map_image fun hc => ?_
      split
      · exact hgive hc
      · exact hc
    · trivial

theorem pageResponse_bounded {part idx resp s} (hs : s.Bounded) : (pageResponse part idx resp s).Bounded := by
  unfold pageResponse
  split
  · exact hs
  · extract_lets s1 s2
    have h2 : s2.Bounded := hs.crew
    split
    · next hr => exact (answerEng_bounded h2).some hr
    · exact upPart_bounded h2

theorem execFenceComplete_bounded {core s} (hs : s.Bounded) : OutBounded (execFenceComplete core s) := by
  refine retryC_bounded hs fun {s} hs => ?_
  split
  · exact execFnw_bounded hs
  · exact execPhase_bounded hs
  · exact hs

theorem execWaitwPoll_bounded {core s} (hs : s.Bounded) : OutBounded (execWaitwPoll core s) := by
  refine retryC_bounded hs fun {s} hs => ?_
  split
  · exact execWaitw_bounded hs
  · exact hs

theorem execTwaitExpiry_bounded {core s} (hs : s.Bounded) : OutBounded (execTwaitExpiry core s) := by
  refine retryC_bounded hs fun {s} hs => ?_
  split
  · exact execTwait_bounded hs
  · exact hs

theorem execSignalAdd_bounded {core s} (hs : s.Bounded) : OutBounded (execSignalAdd core s) := by
  refine retryC_bounded hs fun {s} hs => ?_
  split
  · exact execSignal_bounded hs
  · exact hs

/-! ## The definitions of Sys2Proof/Machine/Answer.lean -/

theorem upCmd_bounded {s core q id f} (hs : s.Bounded) : (upCmd s core q id f).Bounded :=
  upCore_bounded hs fun hc => setQ_bounded hc ((List.length_map _).trans_le (hc.2.2 q))

theorem giveReply_bounded {s r f} (hs : s.Bounded) : (giveReply s r f).Bounded := by
  unfold giveReply
  split
  · exact (answerEng_bounded hs).getD hs
  · exact upCmd_bounded hs
  · exact performStore_bounded hs
  · exact upQueue_bounded hs
  · exact hs

theorem finishReq_bounded {s r f} (hs : s.Bounded) : (finishReq s r f).Bounded := giveReply_bounded hs

theorem keepReq_bounded {s r f} (hs : s.Bounded) : (keepReq s r f).Bounded := giveReply_bounded hs

theorem landRead_bounded {s r l} (hs : s.Bounded) : (landRead s r l).Bounded := finishReq_bounded hs

theorem storeFails_bounded {s core p b} (hs : s.Bounded) : (storeFails s core p b).Bounded :=
  ite_bounded (foremanFault_bounded hs) (failContext_bounded (holdFault_bounded (ite_bounded (e2eReport_bounded hs) hs)))

theorem dropStore_bounded {s core id b} (hs : s.Bounded) : (dropStore s core id b).Bounded := by
  unfold dropStore
  split
  · exact storeFails_bounded (performStore_bounded hs)
  · exact hs

theorem failReqAt_bounded {s r why off blocks} (hs : s.Bounded) : (failReqAt s r why off blocks).Bounded := by
  unfold failReqAt
  dsimp only
  split
  · exact dropStore_bounded hs
  · exact hs
  · exact finishReq_bounded hs
  · exact finishReq_bounded hs

theorem failReq_bounded {s r why} (hs : s.Bounded) : (failReq s r why).Bounded := failReqAt_bounded hs

theorem hostAnswer_bounded {s r c} (hs : s.Bounded) : (hostAnswer s r c).Bounded := by
  unfold hostAnswer
  split
  · exact keepReq_bounded hs
  · exact keepReq_bounded hs
  · exact landRead_bounded hs
  · exact finishReq_bounded hs
  · exact finishReq_bounded hs
  · exact finishReq_bounded hs
  · exact finishReq_bounded hs
  · exact hs
  · exact failReq_bounded hs

theorem execPcieCompletion_bounded {id c s} (hs : s.Bounded) : OutBounded (execPcieCompletion id c s) := by
  unfold execPcieCompletion
  split
  · exact hostAnswer_bounded hs
  · exact hs

theorem execCompletionTimeout_bounded {id s} (hs : s.Bounded) : OutBounded (execCompletionTimeout id s) := by
  unfold execCompletionTimeout
  split
  · split
    · exact hs
    · exact hostAnswer_bounded hs
  · exact hs

theorem configWrite_bounded {s fn r v} (hs : s.Bounded) : (configWrite s fn r v).Bounded := by
  unfold configWrite
  dsimp only
  split
  · exact upFn_bounded hs
  · exact ite_bounded (upPart_bounded (upFn_bounded hs)) (upFn_bounded hs)

/-! ## The definitions of Sys2Proof/Machine/Copy.lean -/

theorem askRemote_bounded {s core q c miss} (hs : s.Bounded) : (askRemote s core q c miss).Bounded :=
  upHead_bounded (foldl_fst_bounded sendReq_bounded hs)

theorem moveEl_bounded {w c fill size r m} (hr : r.1.Bounded) : (moveEl w c fill size r m).1.Bounded :=
  foldl_fst_bounded (fun hr => engWrs_bounded hr) hr

theorem sendRemote_bounded {s core q id l} (hs : s.Bounded) : (sendRemote s core q id l).Bounded :=
  upHead_bounded (foldl_fst_bounded sendReq_bounded hs)

theorem finishCmd_bounded {s core q r} (hs : s.Bounded) : (finishCmd s core q r).Bounded := upHead_bounded hs

theorem moveOne_bounded {s core q c w0 who} (hs : s.Bounded) : (moveOne s core q c w0 who).Bounded := by
  unfold moveOne
  dsimp only
  split
  · exact hs
  · split
    · exact hs
    · exact ite_bounded hs (upHead_bounded (newChecks_bounded (noteAll_bounded (moveEl_bounded hs))))

theorem runWalk_bounded {s core q c w0 who consumer} (hs : s.Bounded) : (runWalk s core q c w0 who consumer).Bounded := by
  unfold runWalk
  extract_lets w r miss bad ms stop m s1 s2 res s3
  have hm : m.1.Bounded := foldl_fst_bounded moveEl_bounded (foldl_fst_bounded moveEl_bounded hs)
  have h1 : s1.Bounded := newChecks_bounded (noteAll_bounded hm)
  have h2 : s2.Bounded := by
    unfold s2
    cases stop with
    | none => exact h1
    | some x => exact stopReport_bounded h1
  exact ite_bounded hs (ite_bounded (askRemote_bounded hs) (ite_bounded (finishCmd_bounded h2) (upHead_bounded (sendRemote_bounded h2))))

theorem runCopy_bounded {s core q c} (hs : s.Bounded) : (runCopy s core q c).Bounded := by
  unfold runCopy
  dsimp only
  split
  · exact finishCmd_bounded hs
  · exact runWalk_bounded hs

theorem runLay_bounded {s core q c} (hs : s.Bounded) : (runLay s core q c).Bounded := by
  unfold runLay
  dsimp only
  split
  · exact finishCmd_bounded hs
  · exact runWalk_bounded hs

theorem runPub_bounded {s core q c} (hs : s.Bounded) : (runPub s core q c).Bounded := by
  unfold runPub
  dsimp only
  split
  · exact ite_bounded (finishCmd_bounded hs) (ite_bounded (finishCmd_bounded (publish_bounded hs)) (finishCmd_bounded hs))
  · exact finishCmd_bounded hs

theorem copyWord_bounded {op a1 d a b e imm s} (hs : s.Bounded) : OutBounded (copyWord op a1 d a b e imm s) :=
  runEff_bounded (fun h1 => issueCmd_bounded h1 (fun h2 => h2)) hs

theorem pairArrival_bounded {s core pair} (hs : s.Bounded) : (pairArrival s core pair).Bounded := by
  unfold pairArrival
  dsimp only
  split
  · refine arriveBar_bounded (upCore_bounded hs fun {c} hc => ?_)
    exact setQ_bounded (q := .load) hc ((List.length_set ..).trans_le (hc.2.2 .load))
  · exact hs

/-! ## The definitions of Sys2Proof/Machine/Priv.lean -/

theorem privWord_bounded {a0 s eff} (hs : s.Bounded) (heff : ∀ {s : State}, s.Bounded → (eff s).Bounded) : OutBounded (privWord a0 s eff) :=
  out_ite_bounded (runEff_bounded (fun h1 => heff h1) hs) (fatalHere_bounded hs)

theorem giveStatus_bounded {d code s} (hs : s.Bounded) : (giveStatus d code s).Bounded := wr_bounded hs

theorem haltWord_bounded {a0 d a ends s} (hs : s.Bounded) : OutBounded (haltWord a0 d a ends s) :=
  privWord_bounded hs (fun h1 => Eff.ite_bounded (Eff.ite_bounded (giveStatus_bounded h1) (beginHalt_bounded h1)) (Eff.ite_bounded
  (giveStatus_bounded h1) (Eff.ite_bounded (giveStatus_bounded (askHalt_bounded h1)) (Eff.ite_bounded (beginHalt_bounded
  (askHalt_bounded h1)) (giveStatus_bounded h1)))))

theorem resumeWord_bounded {a0 d a skip s} (hs : s.Bounded) : OutBounded (resumeWord a0 d a skip s) := by
  unfold resumeWord
  dsimp only
  refine privWord_bounded hs (fun h1 => ?_)
  split
  · exact giveStatus_bounded h1
  · split
    · exact Eff.ite_bounded (giveStatus_bounded h1) (giveStatus_bounded (upTeam_bounded h1 (fun h2 => h2)))
    · exact giveStatus_bounded (resumeTrapped_bounded h1)
    · exact giveStatus_bounded h1

theorem flushWord_bounded {a0 d a mode s} (hs : s.Bounded) : OutBounded (flushWord a0 d a mode s) :=
  privWord_bounded hs (fun h1 => Eff.ite_bounded (Eff.ite_bounded (finishFlush_bounded (sweepTeams_bounded h1)) (giveStatus_bounded
  (finishFlush_bounded (sweepTeams_bounded h1)))) (Eff.ite_bounded (giveStatus_bounded h1) (Eff.ite_bounded (giveStatus_bounded h1)
  (Eff.ite_bounded (flushQueue_bounded h1) (giveStatus_bounded (flushQueue_bounded h1))))))

theorem resetWord_bounded {a0 d a restart s} (hs : s.Bounded) : OutBounded (resetWord a0 d a restart s) :=
  privWord_bounded hs (fun h1 => Eff.ite_bounded (giveStatus_bounded h1) (Eff.ite_bounded (giveStatus_bounded h1) (Eff.ite_bounded
  (finishFlush_bounded (sweepTeams_bounded h1)) (Eff.ite_bounded (Eff.ite_bounded (giveStatus_bounded (resetRestart_bounded
  (finishFlush_bounded (sweepTeams_bounded h1)))) (giveStatus_bounded (finishFlush_bounded (sweepTeams_bounded h1)))) (giveStatus_bounded
  (resetContinue_bounded (finishFlush_bounded (sweepTeams_bounded h1))))))))

theorem badCopy_bounded {d addr blocks s} (hs : s.Bounded) : (badCopy d addr blocks s).Bounded := giveStatus_bounded (holdReport_bounded hs)

theorem execCtxSave_bounded {a0 d a b imm s} (hs : s.Bounded) : OutBounded (execCtxSave a0 d a b imm s) := by
  unfold execCtxSave
  dsimp only
  refine privWord_bounded hs (fun h1 => ?_)
  split
  · exact giveStatus_bounded h1
  · split
    · exact badCopy_bounded h1
    · exact giveStatus_bounded (newChecks_bounded (wrBytes_bounded h1))

theorem image_of_imagePart {s : State} {tid addr m t l} (h : imagePart s tid addr m = .ok (t, l)) : (teamAt s tid).image = some l := by
  unfold imagePart at h
  dsimp only at h
  rcases ite_eq_iff.mp h with ⟨-, h⟩ | ⟨-, h⟩
  · cases h
  rcases ite_eq_iff.mp h with ⟨-, h⟩ | ⟨-, h⟩
  · cases h
  split at h
  · cases h
  · next him =>
    rcases ite_eq_iff.mp h with ⟨-, h⟩ | ⟨-, h⟩
    · cases h
    · cases h
      exact him

theorem execCtxRest_bounded {h d a b imm s} (hs : s.Bounded) : OutBounded (execCtxRest h d a b imm s) := by
  refine privWord_bounded hs fun {s} hs => ?_
  split
  · exact giveStatus_bounded hs
  · next t l hl =>
    have him {c} (hc : c ∈ l) : c.Bounded := hs.2 _ l c (image_of_imagePart hl) hc
    extract_lets n k tid s1 byte
    have h1 : s1.Bounded := performIn_bounded hs
    have h2 {code : Nat} : (giveStatus d code s1).Bounded := giveStatus_bounded h1
    clear_value s1
    generalize headerImageOk byte = b1, coreImageOk byte = b2
    split
    · exact badCopy_bounded h1
    · split
      · split
        · exact giveStatus_bounded (upTeam_bounded h1 fun hx => readBars_bounded hx)
        · exact h2
      · split
        · refine giveStatus_bounded (upTeam_bounded h1 fun _ l' c hl' hc => ?_)
          cases hl'
          rcases List.mem_or_eq_of_mem_set hc with hc | rfl
          · exact him hc
          · refine readCore_bounded ?_
            rw [List.getD_eq_getElem?_getD]
            cases hm : l[imm.toNat % 32]? with
            | none => exact Core.bounded_default
            | some c => exact him (List.mem_of_getElem? hm)
        · exact h2

theorem writePriv_bounded {s sel idx v} (hs : s.Bounded) : (writePriv s sel idx v).Bounded := by
  unfold writePriv
  dsimp only
  split
  · exact hs
  · exact ite_bounded hs hs
  · exact ite_bounded (upTeam_bounded hs (fun h1 => h1)) hs
  · exact hs

theorem writeFault_bounded {s} (hs : s.Bounded) : (writeFault s).Bounded := by
  unfold writeFault
  split
  · exact hs
  · dsimp only
    split
    · generalize frecBytes _ _ = b
      have h := devWrite_bounded (w := devWho 4 0) (addr := s.fqBase * 2 ^ 12 + 64 * (s.fqWritten % 2 ^ s.fqLog)) (l := b) hs
      exact h.crew
    · exact hs

/-! ## The definitions of Sys2Proof/Machine/Regions.lean -/

theorem fwFill_bounded {s a n} (hs : s.Bounded) : (fwFill s a n).Bounded := fillRun_bounded hs

theorem setRegion_bounded {s n r} (hs : s.Bounded) : (setRegion s n r).Bounded := hs

theorem upBlock_bounded {s k f} (hs : s.Bounded) : (upBlock s k f).Bounded := hs

theorem noteHealth_bounded {old s} (hs : s.Bounded) : (noteHealth old s).Bounded := ite_bounded hs (signalEvent_bounded hs)

theorem markFailed_bounded {s num tile} (hs : s.Bounded) : (markFailed s num tile).Bounded := by
  unfold markFailed
  split
  · exact noteHealth_bounded (setRegion_bounded hs)
  · exact hs

theorem reservePage_bounded {num s n p} (hs : s.Bounded) : (reservePage num s n p).Bounded := by
  unfold reservePage
  cases regionAt s num with
  | none => exact hs
  | some r =>
    dsimp only
    split
    · exact setRegion_bounded hs.crew
    · exact hs.crew

theorem reserveScale_bounded {num s g stack i} (hs : s.Bounded) : (reserveScale num s g stack i).Bounded := by
  unfold reserveScale
  cases regionAt s num with
  | none => exact hs
  | some r =>
    refine ite_bounded hs ?_
    split
    · exact setRegion_bounded hs
    · exact hs

theorem reserveScales_bounded {s num r pages} (hs : s.Bounded) : (reserveScales s num r pages).Bounded :=
  foldl_bounded (fun h1 => foldl_bounded (fun h2 => reserveScale_bounded (reserveScale_bounded h2)) h1) hs

theorem reserveBlocks_bounded {s num r} (hs : s.Bounded) : (reserveBlocks s num r).Bounded :=
  reserveScales_bounded (foldl_bounded (fun h1 => foldl_bounded reservePage_bounded h1) hs)

theorem execLregCreate_bounded {a0 d a opx s} (hs : s.Bounded) : OutBounded (execLregCreate a0 d a opx s) := by
  unfold execLregCreate
  dsimp only
  refine privWord_bounded hs (fun h1 => ?_)
  split
  · exact giveStatus_bounded h1
  · split
    · exact giveStatus_bounded (fwFill_bounded h1)
    · exact Eff.ite_bounded (giveStatus_bounded (fwFill_bounded h1)) (Eff.ite_bounded (giveStatus_bounded (fwFill_bounded h1))
          (Eff.ite_bounded (giveStatus_bounded (fwFill_bounded h1)) (Eff.ite_bounded (giveStatus_bounded (fwFill_bounded h1))
          (Eff.ite_bounded (giveStatus_bounded (fwFill_bounded h1)) (giveStatus_bounded (reserveBlocks_bounded (setRegion_bounded
          (fwFill_bounded h1))))))))

theorem loseTile_bounded {s num tile reason plane pages} (hs : s.Bounded) : (loseTile s num tile reason plane pages).Bounded := by
  unfold loseTile
  split
  · exact holdReport_bounded (markFailed_bounded hs)
  · exact hs

theorem loseCopy_bounded {s reason num key} (hs : s.Bounded) : (loseCopy s reason num key).Bounded := by
  unfold loseCopy
  dsimp only
  split
  · exact ite_bounded hs (holdReport_bounded (noteHealth_bounded (setRegion_bounded hs)))
  · exact hs

theorem losePages_bounded {s reason l} (hs : s.Bounded) : (losePages s reason l).Bounded :=
  foldl_bounded loseTile_bounded (foldl_bounded loseCopy_bounded hs)

theorem movePages_bounded {s stack die plane blk l} (hs : s.Bounded) : (movePages s stack die plane blk l).Bounded := by
  unfold movePages
  refine foldl_bounded (fun h1 => ?_) hs
  split
  · exact setRegion_bounded h1
  · exact h1

theorem spareFor_bounded {s stack die plane blk} (hs : s.Bounded) : (spareFor s stack die plane blk).Bounded := hs.crew

theorem retireBlock_bounded {s stack die plane blk} (hs : s.Bounded) : (retireBlock s stack die plane blk).Bounded := by
  unfold retireBlock
  dsimp only
  split
  · exact movePages_bounded hs.crew
  · exact losePages_bounded hs.crew

theorem programPage_bounded {num fresh s n p} (hs : s.Bounded) : (programPage num fresh s n p).Bounded := by
  unfold programPage
  dsimp only
  split
  · exact ite_bounded (reservePage_bounded hs) hs
  · exact upBlock_bounded (ite_bounded (retireBlock_bounded (ite_bounded (reservePage_bounded hs) hs)) (ite_bounded (reservePage_bounded hs) hs))

theorem programTiles_bounded {num fresh s r tiles} (hs : s.Bounded) : (programTiles num fresh s r tiles).Bounded :=
  foldl_bounded (fun h1 => foldl_bounded programPage_bounded h1) hs

theorem writeNamed_bounded {s r w tiles} (hs : s.Bounded) : (writeNamed s r w tiles).Bounded :=
  reserveScales_bounded (noteHealth_bounded (setRegion_bounded hs))

theorem giveBadImage_bounded {d r w x s} (hs : s.Bounded) : (giveBadImage d r w x s).Bounded := giveStatus_bounded (holdReport_bounded hs)

theorem execLregWrite_bounded {a0 d a s} (hs : s.Bounded) : OutBounded (execLregWrite a0 d a s) := by
  unfold execLregWrite
  dsimp only
  refine privWord_bounded hs (fun h1 => ?_)
  split
  · exact giveStatus_bounded (fwFill_bounded h1)
  · split
    · exact giveStatus_bounded (fwFill_bounded h1)
    · exact giveStatus_bounded (fwFill_bounded h1)
    · split
      · exact giveBadImage_bounded (fwFill_bounded h1)
      · exact giveStatus_bounded (programTiles_bounded (writeNamed_bounded (fillReads_bounded (fwFill_bounded h1))))

theorem remapTile_bounded {s w n} (hs : s.Bounded) : (remapTile s w n).Bounded := by
  unfold remapTile
  dsimp only
  split
  · exact hs
  · exact programTiles_bounded (writeNamed_bounded hs)

theorem remapOn_bounded {d w l i s} (hs : s.Bounded) : (remapOn d w l i s).Bounded := by
  unfold remapOn
  dsimp only
  split
  · exact giveStatus_bounded hs
  · exact Eff.ite_bounded (upCur_bounded (remapTile_bounded hs) (fun h1 => h1)) (giveStatus_bounded (upCur_bounded (remapTile_bounded hs)
        (fun h1 => h1)))

theorem execLregRemap_bounded {a0 d a s} (hs : s.Bounded) : OutBounded (execLregRemap a0 d a s) := by
  unfold execLregRemap
  dsimp only
  refine privWord_bounded hs (fun h1 => ?_)
  split
  · split
    · exact remapOn_bounded h1
    · exact giveStatus_bounded h1
  · split
    · exact giveStatus_bounded (fwFill_bounded h1)
    · split
      · exact giveStatus_bounded (fwFill_bounded h1)
      · split
        · exact giveStatus_bounded (fwFill_bounded h1)
        · exact giveStatus_bounded (fwFill_bounded h1)
        · split
          · exact giveBadImage_bounded (fwFill_bounded h1)
          · exact Eff.ite_bounded (fwFill_bounded h1) (remapOn_bounded (fillReads_bounded (fwFill_bounded h1)))

theorem execLregSeal_bounded {a0 d a s} (hs : s.Bounded) : OutBounded (execLregSeal a0 d a s) := by
  unfold execLregSeal
  dsimp only
  refine privWord_bounded hs (fun h1 => ?_)
  split
  · exact giveStatus_bounded (fwFill_bounded h1)
  · split
    · exact giveStatus_bounded (fwFill_bounded h1)
    · exact giveStatus_bounded (setRegion_bounded (fwFill_bounded h1))

theorem execLregDestroy_bounded {a0 d a s} (hs : s.Bounded) : OutBounded (execLregDestroy a0 d a s) := by
  unfold execLregDestroy
  dsimp only
  refine privWord_bounded hs (fun h1 => ?_)
  split
  · exact giveStatus_bounded (fwFill_bounded h1)
  · exact Eff.ite_bounded (giveStatus_bounded (fwFill_bounded h1)) (Eff.ite_bounded (giveStatus_bounded (fwFill_bounded h1))
        (Eff.ite_bounded (fwFill_bounded h1) (giveStatus_bounded (noteHealth_bounded (setRegion_bounded (fwFill_bounded h1))))))

/-! ## The definitions of Sys2Proof/Machine/Lode.lean -/

theorem setStack_bounded {s n x} (hs : s.Bounded) : (setStack s n x).Bounded := hs

theorem upSlot_bounded {s st n f} (hs : s.Bounded) : (upSlot s st n f).Bounded := setStack_bounded hs

theorem lodeWord_bounded {op n a2 d a b e imm more s} (hs : s.Bounded) : OutBounded (lodeWord op n a2 d a b e imm more s) :=
  runEff_bounded (fun h1 => issueCmd_bounded h1 (fun h2 => h2)) hs

theorem putAll_bounded {s w l} (hs : s.Bounded) : (putAll s w l).1.Bounded :=
  newChecks_bounded (foldl_bounded engWrs_bounded (noteAll_bounded hs))

theorem runAct_bounded {s core c} (hs : s.Bounded) : (runAct s core c).Bounded := by
  unfold runAct
  dsimp only
  split
  · exact finishCmd_bounded hs
  · split
    · exact hs
    · split
      · exact finishCmd_bounded (stopReport_bounded hs)
      · exact finishCmd_bounded (foldl_bounded setStack_bounded (noteAll_bounded hs))

theorem teamReport_bounded {s core r} (hs : s.Bounded) : (teamReport s core r).Bounded := holdReport_bounded hs

theorem addTile_bounded {s r c n} (hs : s.Bounded) : (addTile s r c n).1.Bounded := upSlot_bounded hs

theorem endTile_bounded {s core r c n} (hs : s.Bounded) : (endTile s core r c n).Bounded := by
  unfold endTile
  dsimp only
  split
  · split
    · exact upHead_bounded (upSlot_bounded (teamReport_bounded (ite_bounded hs (markFailed_bounded hs))))
    · exact upHead_bounded (teamReport_bounded (ite_bounded hs (markFailed_bounded hs)))
    · exact upHead_bounded (teamReport_bounded (ite_bounded hs (markFailed_bounded hs)))
  · exact ite_bounded (upHead_bounded (addTile_bounded hs)) (upHead_bounded hs)

theorem deferHead_bounded {s core c} (hs : s.Bounded) : (deferHead s core c).Bounded := by
  unfold deferHead
  dsimp only
  split
  · exact hs
  · split
    · exact setRegion_bounded (upHead_bounded hs)
    · exact upHead_bounded hs

theorem senseBlock_bounded {s key senses retry} (hs : s.Bounded) : (senseBlock s key senses retry).Bounded := upBlock_bounded hs

theorem sensePage_bounded {s core r c units planes o} (hs : s.Bounded) : (sensePage s core r c units planes o).Bounded :=
  ite_bounded hs (ite_bounded (deferHead_bounded hs) (ite_bounded (upHead_bounded (senseBlock_bounded hs)) (endTile_bounded
  (upHead_bounded (senseBlock_bounded hs)))))

theorem takeScales_bounded {s core r c g ok} (hs : s.Bounded) : (takeScales s core r c g ok).Bounded :=
  upHead_bounded (ite_bounded hs (setRegion_bounded hs))

theorem scaleFailed_bounded {s core r c g key reason} (hs : s.Bounded) : (scaleFailed s core r c g key reason).Bounded :=
  ite_bounded (upHead_bounded (teamReport_bounded hs)) (noteHealth_bounded (takeScales_bounded (teamReport_bounded hs)))

theorem readScales_bounded {s core r c o} (hs : s.Bounded) : (readScales s core r c o).Bounded := by
  unfold readScales
  dsimp only
  split
  · exact hs
  · exact ite_bounded (scaleFailed_bounded hs) (ite_bounded hs (ite_bounded (takeScales_bounded (upHead_bounded (senseBlock_bounded hs)))
        (scaleFailed_bounded (upHead_bounded (senseBlock_bounded hs)))))

theorem pageRead_bounded {s core o} (hs : s.Bounded) : (pageRead s core o).Bounded := by
  unfold pageRead
  dsimp only
  split
  · exact hs
  · split
    · exact hs
    · split
      · exact hs
      · exact ite_bounded (readScales_bounded hs) (ite_bounded (endTile_bounded (upHead_bounded hs)) (ite_bounded hs (sensePage_bounded hs)))

theorem startWave_bounded {s core c} (hs : s.Bounded) : (startWave s core c).Bounded := by
  unfold startWave
  dsimp only
  split
  · exact upHead_bounded hs
  · exact ite_bounded (deferHead_bounded (upHead_bounded hs)) (upHead_bounded hs)

theorem stampStart_bounded {s core q} (hs : s.Bounded) : (stampStart s core q).Bounded := by
  unfold stampStart
  split
  · exact hs
  · split
    · exact ite_bounded (ite_bounded (ite_bounded hs (startWave_bounded hs)) (upHead_bounded hs)) hs
    · exact hs

theorem runSacc_bounded {s core c r} (hs : s.Bounded) : (runSacc s core c r).Bounded :=
  ite_bounded (finishCmd_bounded (foldl_bounded upSlot_bounded hs)) hs

theorem runDrain_bounded {s core c r} (hs : s.Bounded) : (runDrain s core c r).Bounded := by
  unfold runDrain
  dsimp only
  split
  · exact hs
  · split
    · exact finishCmd_bounded (foldl_bounded upSlot_bounded (stopReport_bounded (putAll_bounded hs)))
    · exact finishCmd_bounded (foldl_bounded upSlot_bounded (putAll_bounded hs))

theorem runRaw_bounded {s core c r} (hs : s.Bounded) : (runRaw s core c r).Bounded := by
  unfold runRaw
  dsimp only
  split
  · split
    · exact finishCmd_bounded (stopReport_bounded (putAll_bounded hs))
    · exact finishCmd_bounded (putAll_bounded hs)
  · exact hs

theorem runIred_bounded {s core c r} (hs : s.Bounded) : (runIred s core c r).Bounded := by
  unfold runIred
  dsimp only
  split
  · split
    · exact finishCmd_bounded (stopReport_bounded hs)
    · exact upHead_bounded (noteAll_bounded hs)
  · split
    · refine finishCmd_bounded ?_
      split
      · exact stopReport_bounded (putAll_bounded hs)
      · exact putAll_bounded hs
    · exact hs

theorem runStat_bounded {s core c r} (hs : s.Bounded) : (runStat s core c r).Bounded := finishCmd_bounded hs

theorem runLode_bounded {s core c} (hs : s.Bounded) : (runLode s core c).Bounded := by
  unfold runLode
  split
  · exact runAct_bounded hs
  · split
    · exact finishCmd_bounded hs
    · split
      · exact hs
      · split
        · exact runSacc_bounded hs
        · exact runDrain_bounded hs
        · exact runRaw_bounded hs
        · exact runIred_bounded hs
        · exact runStat_bounded hs
        · exact hs

/-! ## The definitions of Sys2Proof/Machine/Riddle.lean -/

theorem upAsy_bounded {s u f} (hs : s.Bounded) : (upAsy s u f).Bounded := hs

theorem setAsyCtx_bounded {s u c x} (hs : s.Bounded) : (setAsyCtx s u c x).Bounded := upAsy_bounded hs

theorem upRdl_bounded {s u f} (hs : s.Bounded) : (upRdl s u f).Bounded := hs

theorem setRdlCtx_bounded {s u c x} (hs : s.Bounded) : (setRdlCtx s u c x).Bounded := upRdl_bounded hs

theorem withBranch_bounded {s u c b k} (hs : s.Bounded) (hk : ∀ {x0} {x1}, (k x0 x1).Bounded) : (withBranch s u c b k).Bounded := by
  unfold withBranch
  dsimp only
  split
  · exact hs
  · split
    · exact hs
    · exact hk

theorem rdlOpen_bounded {s w u c image} (hs : s.Bounded) : (rdlOpen s w u c image).Bounded := by
  unfold rdlOpen
  split
  · exact hs
  · exact setRdlCtx_bounded hs

theorem rdlStep_bounded {s w u c b t} (hs : s.Bounded) : (rdlStep s w u c b t).Bounded := by
  unfold rdlStep
  dsimp only
  refine withBranch_bounded hs ?_
  intros
  split
  · exact hs
  · exact hs
  · split
    · exact hs
    · split
      · exact hs
      · exact setRdlCtx_bounded (upRdl_bounded hs)

theorem rdlMask_bounded {s w u c b au ac} (hs : s.Bounded) : (rdlMask s w u c b au ac).Bounded := by
  unfold rdlMask
  dsimp only
  refine withBranch_bounded hs ?_
  intros
  split
  · exact hs
  · split
    · exact hs
    · exact setAsyCtx_bounded hs

theorem seqWrite_bounded {s w addr l} (hs : s.Bounded) : (seqWrite s w addr l).Bounded := by
  unfold seqWrite
  dsimp only
  split <;> exact putAll_bounded hs

theorem rdlMaskM_bounded {s w u c b addr} (hs : s.Bounded) : (rdlMaskM s w u c b addr).Bounded := by
  unfold rdlMaskM
  refine withBranch_bounded hs ?_
  intros
  split
  · exact hs
  · exact seqWrite_bounded hs

theorem rdlFork_bounded {s u c b dst} (hs : s.Bounded) : (rdlFork s u c b dst).Bounded := by
  unfold rdlFork
  refine withBranch_bounded hs ?_
  intros
  split
  · exact hs
  · exact setRdlCtx_bounded hs

theorem rdlKeep_bounded {s u c b} (hs : s.Bounded) : (rdlKeep s u c b).Bounded := withBranch_bounded hs (setRdlCtx_bounded hs)

theorem rdlDrop_bounded {s u c b} (hs : s.Bounded) : (rdlDrop s u c b).Bounded := by
  unfold rdlDrop
  dsimp only
  split
  · exact hs
  · exact setRdlCtx_bounded hs

theorem rdlSave_bounded {s w u c addr} (hs : s.Bounded) : (rdlSave s w u c addr).Bounded := by
  unfold rdlSave
  dsimp only
  split
  · exact hs
  · exact seqWrite_bounded hs

theorem rdlLoad_bounded {s w u c addr} (hs : s.Bounded) : (rdlLoad s w u c addr).Bounded := by
  unfold rdlLoad
  dsimp only
  split
  · exact hs
  · split
    · exact hs
    · split
      · exact hs
      · split
        · exact hs
        · exact setRdlCtx_bounded (upRdl_bounded hs)

theorem seqReport_bounded {s core addr} (hs : s.Bounded) : (seqReport s core addr).Bounded := cmdReport_bounded hs

theorem finishSeq_bounded {s core r} (hr : r.Bounded) : (finishSeq s core r).Bounded := finishCmd_bounded (ite_bounded (seqReport_bounded hr) hr)

theorem rdlDo_bounded {s w x} (hs : s.Bounded) : (rdlDo s w x).Bounded := by
  unfold rdlDo
  dsimp only
  split
  · exact rdlOpen_bounded hs
  · exact rdlMask_bounded hs
  · exact rdlMaskM_bounded hs
  · exact rdlStep_bounded hs
  · exact rdlFork_bounded hs
  · exact rdlKeep_bounded hs
  · exact rdlDrop_bounded hs
  · exact rdlSave_bounded hs
  · exact rdlLoad_bounded hs

theorem runRdl_bounded {s core c} (hs : s.Bounded) : (runRdl s core c).Bounded := by
  unfold runRdl
  dsimp only
  split
  · exact finishCmd_bounded hs
  · exact ite_bounded hs (finishSeq_bounded (rdlDo_bounded hs))

theorem seqWord_bounded {op n a2 d a b e imm s} (hs : s.Bounded) : OutBounded (seqWord op n a2 d a b e imm s) :=
  runEff_bounded (fun h1 => issueCmd_bounded h1 (fun h2 => h2)) hs

/-! ## The definitions of Sys2Proof/Machine/Operands.lean -/

theorem vsetList_bounded {c r l} (hc : c.Bounded) : (vsetList c r l).Bounded := hc

/-! ## The definitions of Sys2Proof/Machine/Flags.lean -/

theorem raiseFlags_bounded {s f} (hs : s.Bounded) : (raiseFlags s f).Bounded := upCur_bounded hs (fun h1 => h1)

theorem writeVec_bounded {s d on f} (hs : s.Bounded) : (writeVec s d on f).Bounded := raiseFlags_bounded (upCur_bounded hs vsetList_bounded)

theorem writeAll_bounded {s d f} (hs : s.Bounded) : (writeAll s d f).Bounded := upCur_bounded hs vsetList_bounded

/-! ## The definitions of Sys2Proof/Machine/Vector.lean -/

theorem lane1_bounded {s a1 ty d a mk f} (hs : s.Bounded) : OutBounded (lane1 s a1 ty d a mk f) :=
  runWord_bounded writeVec_bounded (fun h1 => h1) hs

theorem lane2_bounded {s a1 ty d a b mk f} (hs : s.Bounded) : OutBounded (lane2 s a1 ty d a b mk f) :=
  runWord_bounded writeVec_bounded (fun h1 => h1) hs

theorem lane3_bounded {s a1 ty d a b e f} (hs : s.Bounded) : OutBounded (lane3 s a1 ty d a b e f) :=
  runWord_bounded writeVec_bounded (fun h1 => h1) hs

theorem arith2_bounded {fp int s a3 ty md d a b mk} (hs : s.Bounded) : OutBounded (arith2 fp int s a3 ty md d a b mk) := lane2_bounded hs

theorem fusedWord_bounded {np ne s a3 ty md d a b e} (hs : s.Bounded) : OutBounded (fusedWord np ne s a3 ty md d a b e) := lane3_bounded hs

theorem shiftWord_bounded {op s a2 ty d a sh mk} (hs : s.Bounded) : OutBounded (shiftWord op s a2 ty d a sh mk) :=
  runWord_bounded writeVec_bounded (fun h1 => h1) hs

/-! ## The definitions of Sys2Proof/Machine/VAxis.lean -/

theorem moveWord_bounded {src a1 ax d a n mk s} (hs : s.Bounded) : OutBounded (moveWord src a1 ax d a n mk s) :=
  runWord_bounded writeVec_bounded (fun h1 => h1) hs

theorem maskWord_bounded {s a1 d f} (hs : s.Bounded) : OutBounded (maskWord s a1 d f) :=
  runWord_bounded (fun h1 => upCur_bounded h1 kset_bounded) (fun h1 => h1) hs

/-! ## The definitions of Sys2Proof/Machine/Assayer.lean -/

theorem asyBind_bounded {s u c l} (hs : s.Bounded) : (asyBind s u c l).Bounded := by
  unfold asyBind
  split
  · exact hs
  · exact setAsyCtx_bounded hs

theorem asyStat_bounded {s w u c addr} (hs : s.Bounded) : (asyStat s w u c addr).Bounded := by
  unfold asyStat
  split
  · exact hs
  · exact seqWrite_bounded hs

theorem loopWrite_bounded {s at_ l} (hs : s.Bounded) : (loopWrite s at_ l).Bounded := writeMem_bounded hs

theorem startRun_bounded {s u r} (hs : s.Bounded) : (startRun s u r).Bounded := upAsy_bounded hs

theorem endRun_bounded {s u r st code} (hs : s.Bounded) : (endRun s u r st code).Bounded := by
  unfold endRun
  dsimp only
  split
  · exact upAsy_bounded (loopWrite_bounded (ite_bounded (seqReport_bounded (upAsy_bounded hs)) (upAsy_bounded hs)))
  · exact upCmd_bounded (ite_bounded (seqReport_bounded (seqWrite_bounded (ite_bounded (seqReport_bounded (upAsy_bounded hs))
        (upAsy_bounded hs)))) (seqWrite_bounded (ite_bounded (seqReport_bounded (upAsy_bounded hs)) (upAsy_bounded hs))))

theorem aRun_bounded {c r} : (aRun c r).Bounded := trivial

theorem aFail_bounded {s st} (hs : s.Bounded) : (aFail s st).Bounded := hs

theorem asyWord_bounded {s f} (hs : s.Bounded) (hf : ∀ {s : State} {x1} {x2}, s.Bounded → (f s x1 x2).Bounded) : OutBounded (asyWord s f) := by
  unfold asyWord
  dsimp only
  split
  · exact hs
  · split
    · exact ite_bounded (endRun_bounded (setAsyCtx_bounded hs)) (startRun_bounded (setAsyCtx_bounded hs))
    · next hr1 =>
        exact ite_bounded (endRun_bounded (setAsyCtx_bounded ((hf hs).mem hr1))) (startRun_bounded (setAsyCtx_bounded ((hf hs).mem hr1)))
    · exact endRun_bounded (setAsyCtx_bounded hs)
    · next hr1 => exact endRun_bounded ((hf hs).fail hr1)

theorem asyBranch_bounded {s r c on dist} (hs : s.Bounded) : (asyBranch s r c on dist).Bounded := by
  unfold asyBranch
  dsimp only
  split
  · exact aRun_bounded
  · split
    · exact aFail_bounded hs
    · exact trivial

theorem runAsy_bounded {s core c} (hs : s.Bounded) : (runAsy s core c).Bounded := by
  unfold runAsy
  dsimp only
  split
  · exact finishCmd_bounded hs
  · split
    · exact hs
    · split
      · exact finishSeq_bounded (asyBind_bounded hs)
      · exact finishSeq_bounded (asyStat_bounded hs)
      · split
        · exact finishCmd_bounded hs
        · split
          · exact finishCmd_bounded hs
          · exact startRun_bounded (upHead_bounded hs)

theorem execAsyLdlog_bounded {a s} (hs : s.Bounded) : OutBounded (execAsyLdlog a s) := by
  unfold execAsyLdlog
  refine asyWord_bounded hs (fun h1 => ?_)
  split
  · exact h1
  · exact aRun_bounded

theorem execAsyDraw_bounded {d a p s} (hs : s.Bounded) : OutBounded (execAsyDraw d a p s) := by
  unfold execAsyDraw
  dsimp only
  refine asyWord_bounded hs (fun h1 => ?_)
  split
  · exact aFail_bounded h1
  · split
    · exact aFail_bounded h1
    · split
      · exact aFail_bounded h1
      · exact trivial

theorem execAsyPick_bounded {d a s} (hs : s.Bounded) : OutBounded (execAsyPick d a s) := by
  unfold execAsyPick
  dsimp only
  refine asyWord_bounded hs (fun h1 => ?_)
  split
  · exact aRun_bounded
  · exact aRun_bounded
  · exact aFail_bounded h1

theorem execAsyValQ_bounded {d a b s} (hs : s.Bounded) : OutBounded (execAsyValQ d a b s) := by
  unfold execAsyValQ
  refine asyWord_bounded hs (fun h1 => ?_)
  split
  · exact aFail_bounded h1
  · split
    · exact h1
    · exact aRun_bounded

theorem execAsyStp_bounded {a s} (hs : s.Bounded) : OutBounded (execAsyStp a s) := by
  unfold execAsyStp
  dsimp only
  refine asyWord_bounded hs (fun h1 => ?_)
  split
  · exact aFail_bounded h1
  · split <;> exact putAll_bounded h1

theorem execAsyCommit_bounded {a s} (hs : s.Bounded) : OutBounded (execAsyCommit a s) := by
  unfold execAsyCommit
  dsimp only
  refine asyWord_bounded hs (fun h1 => ?_)
  split
  · exact aFail_bounded h1
  · split
    · exact aFail_bounded h1
    · split <;> exact trivial

theorem execAsyResid_bounded {a s} (hs : s.Bounded) : OutBounded (execAsyResid a s) := by
  unfold execAsyResid
  dsimp only
  refine asyWord_bounded hs (fun h1 => ?_)
  split
  · exact aFail_bounded h1
  · split
    · exact h1
    · exact aRun_bounded

theorem execAsyStatRead_bounded {d sel s} (hs : s.Bounded) : OutBounded (execAsyStatRead d sel s) := by
  unfold execAsyStatRead
  refine asyWord_bounded hs (fun h1 => ?_)
  split
  · exact aRun_bounded
  · exact aFail_bounded h1

theorem asyExec_bounded {r s} (hs : s.Bounded) : OutBounded (asyExec r s) := by
  unfold asyExec
  dsimp only
  split
  · exact asyWord_bounded hs (fun _ => trivial)
  · exact execAsyLdlog_bounded hs
  · exact asyWord_bounded hs fun _ => aRun_bounded
  · exact asyWord_bounded hs fun _ => aRun_bounded
  · exact asyWord_bounded hs fun _ => aRun_bounded
  · split <;> exact asyWord_bounded hs fun _ => aRun_bounded
  · exact asyWord_bounded hs fun _ => aRun_bounded
  · exact asyWord_bounded hs fun _ => aRun_bounded
  · exact asyWord_bounded hs fun _ => aRun_bounded
  · exact asyWord_bounded hs fun _ => aRun_bounded
  · exact asyWord_bounded hs fun _ => aRun_bounded
  · exact asyWord_bounded hs fun _ => aRun_bounded
  · exact asyWord_bounded hs fun _ => aRun_bounded
  · exact execAsyDraw_bounded hs
  · exact execAsyPick_bounded hs
  · split
    · exact asyWord_bounded hs fun _ => aRun_bounded
    · exact execAsyValQ_bounded hs
  · exact execAsyStp_bounded hs
  · exact asyWord_bounded hs fun _ => aRun_bounded
  · exact execAsyCommit_bounded hs
  · exact asyWord_bounded hs fun _ => aRun_bounded
  · exact execAsyResid_bounded hs
  · exact asyWord_bounded hs fun _ => aRun_bounded
  · exact asyWord_bounded hs fun _ => aRun_bounded
  · split <;> exact asyWord_bounded hs fun _ => aRun_bounded
  · split <;> exact asyWord_bounded hs fun _ => aRun_bounded
  · split <;> exact asyWord_bounded hs asyBranch_bounded
  · exact execAsyStatRead_bounded hs

theorem asyIllegal_bounded {s} (hs : s.Bounded) : OutBounded (asyIllegal s) := asyWord_bounded hs aFail_bounded

theorem asyTurn_bounded {s u} (hs : s.Bounded) : OutBounded (asyTurn s u) := by
  have hs' : { s with asyCur := u }.Bounded := hs
  unfold asyTurn
  dsimp only
  split
  · exact hs'
  · split
    · exact endRun_bounded hs'
    · exact out_ite_bounded (asyExec_bounded hs') (asyIllegal_bounded hs')

/-! ## The definitions of Sys2Proof/Machine/Care.lean -/

theorem stealPlane_bounded {s stack die plane} (hs : s.Bounded) : (stealPlane s stack die plane).Bounded := ite_bounded hs hs

theorem refreshTarget_bounded {s stack die plane start fails} (hs : s.Bounded) : (refreshTarget s stack die plane start fails).1.Bounded := by
  unfold refreshTarget
  cases freeBlock s stack die plane start with
  | none => exact hs
  | some b => cases fails <;> exact hs

theorem refreshBlock_bounded {s stack die plane blk bad wrErr} (hs : s.Bounded) : (refreshBlock s stack die plane blk bad wrErr).Bounded := by
  unfold refreshBlock
  dsimp only
  split
  · exact hs
  · split
    · exact ite_bounded (losePages_bounded (spareFor_bounded (refreshTarget_bounded (losePages_bounded hs)))) (refreshTarget_bounded
          (losePages_bounded hs))
    · exact movePages_bounded (upBlock_bounded (upBlock_bounded (ite_bounded (spareFor_bounded (refreshTarget_bounded
          (losePages_bounded hs))) (refreshTarget_bounded (losePages_bounded hs)))))

theorem mountScan_bounded {s key} (hs : s.Bounded) : (mountScan s key).Bounded := ite_bounded (senseBlock_bounded hs) hs

theorem correctedError_bounded {s ch} (hs : s.Bounded) : (correctedError s ch).Bounded := ite_bounded (holdReport_bounded hs) hs

theorem dramError_bounded {s pa lost} (hs : s.Bounded) : (dramError s pa lost).Bounded :=
  ite_bounded (ite_bounded (holdReport_bounded hs) (correctedError_bounded hs)) hs

theorem failResident_bounded {s core} (hs : s.Bounded) : (failResident s core).Bounded :=
  ite_bounded hs (ite_bounded (foremanFault_bounded hs) (ite_bounded (fatalHere_bounded hs) hs))

theorem recheckRecords_bounded {s} (hs : s.Bounded) : (recheckRecords s).Bounded := hs

theorem loseCopies_bounded {s num group} (hs : s.Bounded) : (loseCopies s num group).Bounded := by
  unfold loseCopies
  split
  · exact hs
  · exact foldl_bounded loseCopy_bounded hs

theorem retireGroup_bounded {s stack die grp} (hs : s.Bounded) : (retireGroup s stack die grp).Bounded := by
  unfold retireGroup
  dsimp only
  refine foldl_bounded (fun h1 => ?_) hs
  split
  · exact h1
  · exact ite_bounded (loseCopies_bounded h1) (eventFn_bounded (eventFn_bounded (foldl_bounded loseTile_bounded (loseCopies_bounded h1))))

theorem disableBehind_bounded {s cls bus grp} (hs : s.Bounded) : (disableBehind s cls bus grp).Bounded := by
  unfold disableBehind
  dsimp only
  split
  · have h := failResident_bounded (core := 2 * bus + 1) (failResident_bounded (core := 2 * bus) hs)
    exact ite_bounded hs (signalEvent_bounded (recheckRecords_bounded h.crew))
  · exact ite_bounded hs (signalEvent_bounded (recheckRecords_bounded hs.crew))
  · exact ite_bounded hs (signalEvent_bounded (retireGroup_bounded hs))

theorem failWire_bounded {s cls bus grp} (hs : s.Bounded) : (failWire s cls bus grp).Bounded :=
  ite_bounded hs (ite_bounded (disableBehind_bounded (holdReport_bounded hs)) (holdReport_bounded hs))

theorem bondTest_bounded {s cls bus grp wires} (hs : s.Bounded) : (bondTest s cls bus grp wires).Bounded :=
  ite_bounded hs (foldl_bounded failWire_bounded hs)

/-! ## The definitions of Sys2Proof/Machine/Link.lean -/

theorem runSend_bounded {s core c} (hs : s.Bounded) : (runSend s core c).Bounded := by
  unfold runSend
  dsimp only
  split
  · exact finishCmd_bounded hs
  · exact ite_bounded (finishCmd_bounded hs) (runWalk_bounded hs)

theorem sendParts_bounded {s core c l} (hs : s.Bounded) : (sendParts s core c l).Bounded := upHead_bounded (foldl_fst_bounded sendReq_bounded hs)

theorem runRed_bounded {s core c} (hs : s.Bounded) : (runRed s core c).Bounded := by
  unfold runRed
  dsimp only
  split
  · exact hs
  · split
    · exact finishCmd_bounded hs
    · split
      · exact finishCmd_bounded hs
      · split
        · refine finishCmd_bounded ?_
          split
          · exact stopReport_bounded hs
          · exact hs
        · refine upHead_bounded ?_
          refine noteAll_bounded ?_
          refine sendParts_bounded ?_
          split
          · exact stopReport_bounded hs
          · exact hs

theorem runLink_bounded {s core c} (hs : s.Bounded) : (runLink s core c).Bounded :=
  ite_bounded hs (ite_bounded (runSend_bounded hs) (runRed_bounded hs))

theorem linkWord_bounded {op n a2 d a e imm s} (hs : s.Bounded) : OutBounded (linkWord op n a2 d a e imm s) :=
  runEff_bounded (fun h1 => issueCmd_bounded h1 (fun h2 => h2)) hs

theorem stampedGo_bounded {s core q} (hs : s.Bounded) : (stampedGo s core q).Bounded := by
  unfold stampedGo
  dsimp only
  split
  · exact ite_bounded (stampStart_bounded hs) hs
  · exact stampStart_bounded hs

/-! ## The definitions of Sys2Proof/Machine/Complete.lean -/

theorem moveHead_bounded {s core q c} (hs : s.Bounded) : (moveHead s core q c).Bounded := by
  unfold moveHead
  dsimp only
  split
  · exact hs
  · split
    · exact ite_bounded (ite_bounded (performBefore_bounded hs) hs) (moveOne_bounded (ite_bounded (performBefore_bounded hs) hs))
    · exact ite_bounded (ite_bounded (performBefore_bounded hs) hs) (moveOne_bounded (ite_bounded (performBefore_bounded hs) hs))
    · exact ite_bounded (ite_bounded (performBefore_bounded hs) hs) (moveOne_bounded (ite_bounded (performBefore_bounded hs) hs))
    · exact ite_bounded (ite_bounded (performBefore_bounded hs) hs) (moveOne_bounded (ite_bounded (performBefore_bounded hs) hs))
    · exact ite_bounded (ite_bounded (performBefore_bounded hs) hs) (moveOne_bounded (ite_bounded (performBefore_bounded hs) hs))
    · exact ite_bounded (ite_bounded (performBefore_bounded hs) hs) (moveOne_bounded (ite_bounded (performBefore_bounded hs) hs))
    · exact ite_bounded (performBefore_bounded hs) hs

theorem moveTurn_bounded {core q s} (hs : s.Bounded) : (moveTurn core q s).Bounded := by
  unfold moveTurn
  split
  · exact hs
  · exact moveHead_bounded hs

theorem runOp_bounded {s core q c} (hs : s.Bounded) : (runOp s core q c).Bounded := by
  unfold runOp
  split
  · exact runCopy_bounded hs
  · exact runCopy_bounded hs
  · exact runCopy_bounded hs
  · exact runCopy_bounded hs
  · exact runCopy_bounded hs
  · exact runLay_bounded hs
  · exact runPub_bounded hs
  · exact runLode_bounded hs
  · exact runLode_bounded hs
  · exact runLode_bounded hs
  · exact runLode_bounded hs
  · exact runLode_bounded hs
  · exact runLode_bounded hs
  · exact runLink_bounded hs
  · exact runLink_bounded hs
  · exact runAsy_bounded hs
  · exact runAsy_bounded hs
  · exact runAsy_bounded hs
  · exact runRdl_bounded hs
  · exact runRdl_bounded hs
  · exact runRdl_bounded hs
  · exact runRdl_bounded hs
  · exact runRdl_bounded hs
  · exact runRdl_bounded hs
  · exact runRdl_bounded hs
  · exact runRdl_bounded hs
  · exact runRdl_bounded hs

theorem runHead_bounded {s core q c} (hs : s.Bounded) : (runHead s core q c).Bounded :=
  ite_bounded (ite_bounded hs (runOp_bounded (performBefore_bounded hs))) (runOp_bounded hs)

theorem closeHead_bounded {s core q} (hs : s.Bounded) : (closeHead s core q).Bounded := by
  unfold closeHead
  split
  · exact hs
  · split
    · exact hs
    · refine ite_bounded hs (ite_bounded (ite_bounded (upCore_bounded hs fun hc => setQ_drop_bounded hc) hs) (writeRecord_bounded ?_))
      split
      · exact cmdReport_bounded hs
      · exact hs

theorem commandComplete_bounded {s core q} (hs : s.Bounded) : (commandComplete s core q).Bounded := by
  unfold commandComplete
  split
  · exact hs
  · exact closeHead_bounded (ite_bounded (runHead_bounded hs) hs)

/-! ## The definitions of Sys2Proof/Machine/Functions.lean -/

theorem fnWord_bounded {fn apx h ty md d a e s} (hs : s.Bounded) : OutBounded (fnWord fn apx h ty md d a e s) := by
  refine runEff_bounded (fun {s} hs => ?_) hs
  extract_lets c f p2 m s1 s2
  have h1 : s1.Bounded := writeVec_bounded hs
  have h2 : s2.Bounded := ite_bounded (upCur_bounded h1 fun hc => kset_bounded hc) h1
  clear_value m
  exact Eff.ite_bounded hs (upCur_bounded h2 fun hc => ⟨hc.1, hc.2.1, hc.2.2⟩)

theorem phase2Done_bounded {s core} (hs : s.Bounded) : (phase2Done s core).Bounded := upCore_bounded hs (fun h1 => h1)

/-! ## The definitions of Sys2Proof/Machine/HostLink.lean -/

theorem hostCons_bounded {s a} (hs : s.Bounded) : (hostCons s a).Bounded := holdReport_bounded hs

theorem hostStore_bounded {s fn pa l} (hs : s.Bounded) : (hostStore s fn pa l).Bounded := by
  unfold hostStore
  dsimp only
  split
  · exact hs
  · split
    · exact hostCons_bounded hs
    · exact writeMem_bounded hs

theorem hostLoad_bounded {s fn pa n} (hs : s.Bounded) : (hostLoad s fn pa n).Bounded := by
  unfold hostLoad
  dsimp only
  split
  · exact hostSay_bounded hs
  · split
    · exact hostSay_bounded (holdReport_bounded (hostCons_bounded hs))
    · exact hostSay_bounded (fillReads_bounded hs)

theorem writeCtrl_bounded {s q v} (hs : s.Bounded) : (writeCtrl s q v).Bounded := by
  unfold writeCtrl
  dsimp only
  split
  · exact enableQueue_bounded (setCtrl_bounded hs)
  · exact destroyQueue_bounded (setCtrl_bounded hs)
  · exact setCtrl_bounded hs

theorem writeQueueReg_bounded {s fn q r v} (hs : s.Bounded) : (writeQueueReg s fn q r v).Bounded := by
  unfold writeQueueReg
  split
  · exact upQueue_bounded hs
  · exact upQueue_bounded hs
  · exact writeCtrl_bounded hs
  · exact upQueue_bounded hs
  · exact upQueue_bounded hs
  · exact hs

theorem ringSession_bounded {s fn addr} (hs : s.Bounded) : (ringSession s fn addr).Bounded :=
  ite_bounded hs (ite_bounded (ite_bounded (devWrite_bounded hs) hs) (upPart_bounded hs))

theorem endMailbox_bounded {s fn st} (hs : s.Bounded) : (endMailbox s fn st).Bounded := hs.crew

theorem writeMbctl_bounded {s fn v} (hs : s.Bounded) : (writeMbctl s fn v).Bounded :=
  ite_bounded hs (ite_bounded (upFn_bounded hs) (endMailbox_bounded (upFn_bounded hs)))

theorem writePage_bounded {s fn off v} (hs : s.Bounded) : (writePage s fn off v).Bounded :=
  ite_bounded hs (ite_bounded (upFn_bounded hs) (ite_bounded (writeMbctl_bounded hs) (ite_bounded (upFn_bounded hs) (ite_bounded hs
  (ite_bounded (upFn_bounded hs) (ite_bounded (ringSession_bounded hs) (ite_bounded (ite_bounded (writeQueueReg_bounded hs) hs) hs)))))))

theorem loadPage_bounded {s off n} (hs : s.Bounded) : (loadPage s off n).2.Bounded := by
  unfold loadPage
  dsimp only
  split
  · exact hs
  · split
    · exact upQueue_bounded hs
    · exact hs

theorem storePage_bounded {s off n v} (hs : s.Bounded) : (storePage s off n v).Bounded := ite_bounded hs (writeQueueReg_bounded hs)

theorem execLd_bounded {a0 ty q d a imm s} (hs : s.Bounded) : OutBounded (execLd a0 ty q d a imm s) := by
  unfold execLd
  dsimp only
  refine runEff_bounded (fun h1 => ?_) hs
  refine effAddrOr_bounded ?_ h1
  intros
  split
  · exact wr_bounded (loadPage_bounded h1)
  · exact effLoad_bounded h1 wr_bounded

theorem execSt_bounded {a0 ty a b imm s} (hs : s.Bounded) : OutBounded (execSt a0 ty a b imm s) := by
  unfold execSt
  dsimp only
  refine runEff_bounded (fun h1 => ?_) hs
  refine effAddrOr_bounded ?_ h1
  intros
  split
  · exact storePage_bounded h1
  · exact effStore_bounded h1 (fun h2 => h2)

/-! ## The definitions of Sys2Proof/Machine/Window.lean -/

theorem setWin_bounded {s n w} (hs : s.Bounded) : (setWin s n w).Bounded := hs

theorem dropWords_bounded {s k words} (hs : s.Bounded) : (dropWords s k words).Bounded := hs

theorem putStored_bounded {s k l failing} (hs : s.Bounded) : (putStored s k l failing).Bounded := by
  unfold putStored
  exact ite_bounded hs.crew (wrRun_bounded hs)

theorem encodeBlock_bounded {s n b} (hs : s.Bounded) : (encodeBlock s n b).Bounded :=
  ite_bounded hs (setWin_bounded (ite_bounded (holdReport_bounded (putStored_bounded (foldl_bounded putStored_bounded
  (dropWords_bounded hs)))) (putStored_bounded (foldl_bounded putStored_bounded (dropWords_bounded hs)))))

theorem flushWin_bounded {s n} (hs : s.Bounded) : (flushWin s n).Bounded := foldl_bounded encodeBlock_bounded hs

theorem winReport_bounded {s addr n} (hs : s.Bounded) : (winReport s addr n).Bounded := devWrite_bounded hs

theorem execFwinSet_bounded {a0 d a opx s} (hs : s.Bounded) : OutBounded (execFwinSet a0 d a opx s) := by
  unfold execFwinSet
  dsimp only
  refine privWord_bounded hs (fun h1 => ?_)
  split
  · exact giveStatus_bounded h1
  · split
    · exact giveStatus_bounded (fwFill_bounded h1)
    · exact Eff.ite_bounded (giveStatus_bounded (fwFill_bounded h1)) (Eff.ite_bounded (giveStatus_bounded (fwFill_bounded h1))
          (Eff.ite_bounded (giveStatus_bounded (fwFill_bounded h1)) (Eff.ite_bounded (giveStatus_bounded (fwFill_bounded h1))
          (giveStatus_bounded (winReport_bounded (setWin_bounded (fwFill_bounded h1)))))))

theorem settleWin_bounded {s n} (hs : s.Bounded) : (settleWin s n).Bounded := foldl_bounded performIn_bounded hs

theorem fwinWord_bounded {a0 d a off s} (hs : s.Bounded) : OutBounded (fwinWord a0 d a off s) := by
  unfold fwinWord
  dsimp only
  refine privWord_bounded hs (fun h1 => ?_)
  split
  · exact giveStatus_bounded (fwFill_bounded h1)
  · exact Eff.ite_bounded (giveStatus_bounded (fwFill_bounded h1)) (Eff.ite_bounded (giveStatus_bounded (fwFill_bounded h1))
        (Eff.ite_bounded (giveStatus_bounded (fwFill_bounded h1)) (giveStatus_bounded (winReport_bounded (ite_bounded (setWin_bounded
        (flushWin_bounded (settleWin_bounded (fwFill_bounded h1)))) (flushWin_bounded (settleWin_bounded (fwFill_bounded h1))))))))

theorem evictBlock_bounded {s k} (hs : s.Bounded) : (evictBlock s k).Bounded := by
  unfold evictBlock
  dsimp only
  generalize SMap.setAll memDefault s.mem _ = m
  have h : { dropWords s k 16 with mem := m }.Bounded := (dropWords_bounded (k := k) (words := 16) hs).crew
  exact ite_bounded hs (ite_bounded h (holdReport_bounded h))

theorem evictLine_bounded {s line} (hs : s.Bounded) : (evictLine s line).Bounded :=
  ite_bounded (evictBlock_bounded (evictBlock_bounded hs)) (ite_bounded (encodeBlock_bounded hs) hs)

/-! ## The definitions of Sys2Proof/Machine/Htab.lean -/

theorem copyRange_bounded {s a b n} (hs : s.Bounded) : (copyRange s a b n).Bounded := hs

theorem equalBackings_bounded {s e} (hs : s.Bounded) : (equalBackings s e).Bounded := by
  unfold equalBackings
  refine ite_bounded hs (ite_bounded (copyRange_bounded hs) (foldl_bounded (fun hs => ?_) hs))
  split
  · exact ite_bounded hs (copyRange_bounded hs)
  · exact hs

theorem execHtabMap_bounded {a0 d a opx s} (hs : s.Bounded) : OutBounded (execHtabMap a0 d a opx s) := by
  unfold execHtabMap
  dsimp only
  refine privWord_bounded hs (fun h1 => ?_)
  split
  · exact giveStatus_bounded h1
  · split
    · exact giveStatus_bounded (fwFill_bounded h1)
    · exact Eff.ite_bounded (giveStatus_bounded (fwFill_bounded h1)) (Eff.ite_bounded (giveStatus_bounded (fwFill_bounded h1))
          (Eff.ite_bounded (giveStatus_bounded (fwFill_bounded h1)) (Eff.ite_bounded (giveStatus_bounded (fwFill_bounded h1))
          (Eff.ite_bounded (giveStatus_bounded (fwFill_bounded h1)) (giveStatus_bounded (equalBackings_bounded (fwFill_bounded h1)))))))

theorem execHtabBind_bounded {a0 d a s} (hs : s.Bounded) : OutBounded (execHtabBind a0 d a s) := by
  unfold execHtabBind
  dsimp only
  refine privWord_bounded hs (fun h1 => ?_)
  split
  · exact giveStatus_bounded (fwFill_bounded h1)
  · exact Eff.ite_bounded (giveStatus_bounded (fwFill_bounded h1)) (Eff.ite_bounded (giveStatus_bounded (fwFill_bounded h1))
        (Eff.ite_bounded (giveStatus_bounded (fwFill_bounded h1)) (Eff.ite_bounded (giveStatus_bounded (fwFill_bounded h1))
        (giveStatus_bounded (fwFill_bounded h1)))))

theorem dropTlb_bounded {s bits} (hs : s.Bounded) : (dropTlb s bits).Bounded := by
  refine ⟨fun n => SMap.get_map_of (P := Core.Bounded) (fun _ => rfl) (fun p hp => ?_) (hs.core n), hs.2⟩
  obtain ⟨hf, hg, hq⟩ := hp
  refine ⟨hf, fun g => ?_, hq⟩
  cases g
  · exact hg .c
  · exact hg .v
  · exact hg .m
  · exact hg .h

theorem dropLocal_bounded {s pages} (hs : s.Bounded) : (dropLocal s pages).Bounded := dropTlb_bounded hs

theorem askMods_bounded {s pages} (hs : s.Bounded) : (askMods s pages).1.Bounded := by
  refine foldl_fst_bounded (fun hp => ?_) hs
  split
  · exact foldl_fst_bounded (fun hp => sendReq_bounded hp) hp
  · exact hp

theorem beginShoot_bounded {s part pages back} (hs : s.Bounded) : (beginShoot s part pages back).Bounded :=
  askMods_bounded (foldl_bounded performAll_bounded (dropLocal_bounded hs))

theorem endShoot_bounded {s d x} (hs : s.Bounded) : (endShoot s d x).Bounded := by
  unfold endShoot
  dsimp only
  split
  · refine giveStatus_bounded ?_
    split <;> exact hs
  · exact giveStatus_bounded (upPart_bounded (foldl_bounded markPte_bounded hs))

theorem shootWord_bounded {h d a s go} (hs : s.Bounded) (hgo : ∀ {l} {s t : State}, s.Bounded → go l s = .ok t → t.Bounded) :
    OutBounded (shootWord h d a s go) := by
  refine privWord_bounded hs fun {s} hs => ?_
  extract_lets fin s1
  have hfin {s : State} (hs : s.Bounded) : (fin s).Bounded := by
    unfold fin
    split
    · exact Eff.ite_bounded hs (endShoot_bounded hs)
    · exact hs
  have h1 : s1.Bounded := fwFill_bounded hs
  split
  · exact Eff.ite_bounded (hfin hs) hs
  · split
    · exact giveStatus_bounded h1
    · split
      · exact giveStatus_bounded h1
      · next ht => exact hfin (hgo h1 ht)

theorem execHtabShootdown_bounded {h d a s} (hs : s.Bounded) : OutBounded (execHtabShootdown h d a s) := by
  refine shootWord_bounded hs fun {l s t} hs ht => ?_
  split at ht
  · cases ht
  · split at ht
    · cases ht
    · split at ht
      · cases ht
      · cases ht
        exact beginShoot_bounded hs

theorem execHtabUnmap_bounded {h d a s} (hs : s.Bounded) : OutBounded (execHtabUnmap h d a s) := by
  refine shootWord_bounded hs fun {l s t} hs ht => ?_
  split at ht
  · cases ht
  · split at ht
    · cases ht
    · split at ht
      · cases ht
      · cases ht
        exact beginShoot_bounded hs.crew

theorem loseShoot_bounded {s mods} (hs : s.Bounded) : (loseShoot s mods).Bounded := ite_bounded hs hs

/-! ## The definitions of Sys2Proof/Machine/Mailbox.lean -/

theorem mailbox_bounded {fn code pf low run s} (hrun : ∀ {x0} {s : State}, s.Bounded → (run x0 s).Bounded) (hs : s.Bounded) :
    OutBounded (mailbox fn code pf low run s) := by
  unfold mailbox
  dsimp only
  split
  · exact hs
  · split
    · exact endMailbox_bounded hs
    · split
      · exact endMailbox_bounded hs
      · split
        · exact endMailbox_bounded hs
        · next hr1 => exact endMailbox_bounded (upFn_bounded ((hrun hs).ok hr1))

theorem takeReload_bounded {fn s} (hs : s.Bounded) : (takeReload fn s).Bounded := by
  unfold takeReload
  split <;> exact hs

theorem setParts_bounded {f s} (hs : s.Bounded) : (setParts f s).Bounded := by
  unfold setParts
  dsimp only
  split
  · exact trivial
  · split
    · exact trivial
    · exact hs

theorem setCap_bounded {f s} (hs : s.Bounded) : (setCap f s).Bounded := by
  unfold setCap
  dsimp only
  split
  · exact hs
  · exact trivial

theorem extendMr_bounded {s i d} (hs : s.Bounded) : (extendMr s i d).Bounded := by
  unfold extendMr
  generalize SMap.set 0 s.mrs i _ = m
  exact hs.crew

theorem snapOr_bounded {f k} (hk : ∀ {x0}, (k x0).Bounded) : (snapOr f k).Bounded := by
  unfold snapOr
  split
  · exact hk
  · split
    · exact hk
    · exact trivial

theorem measureMr_bounded {f s} (hs : s.Bounded) : (measureMr f s).Bounded := snapOr_bounded hs

theorem giveQuote_bounded {fn f s} (hs : s.Bounded) : (giveQuote fn f s).Bounded := hs.crew

theorem readConfig_bounded {f s} (hs : s.Bounded) : (readConfig f s).Bounded := by
  unfold readConfig
  refine snapOr_bounded ?_
  intros
  split <;> exact hs

theorem hostExtend_bounded {f s} (hs : s.Bounded) : (hostExtend f s).Bounded := by
  unfold hostExtend
  dsimp only
  split
  · exact extendMr_bounded hs
  · exact trivial

theorem updateFw_bounded {f s} (hs : s.Bounded) : (updateFw f s).Bounded := by
  unfold updateFw
  dsimp only
  split
  · exact trivial
  · split
    · exact trivial
    · split
      · exact trivial
      · split
        · exact trivial
        · exact hs

theorem execRestart_bounded {fn s} (hs : s.Bounded) : OutBounded (execRestart fn s) := by
  have hm : OutBounded (mailbox fn 0x29 true 0 (fun f s => if mbArg f 0 = 0 then .ok s [] else .no mbBadarg) s) :=
    mailbox_bounded (fun {f s} hs => by split <;> [exact hs; trivial]) hs
  unfold execRestart
  dsimp only
  split
  · next hr => exact ite_bounded (toStageS_bounded (hm.next hr)) (hm.next hr)
  · exact hm

/-! ## The definitions of Sys2Proof/Machine/VMem.lean -/

theorem effRes_bounded {α : Type} {r : MRes α} {k : α → State → Eff} (hr : r.Bounded) (hk : ∀ {x} {s : State}, s.Bounded → (k x s).Bounded) :
    (effRes r k).Bounded := by
  cases r with
  | ok x s => exact hk hr
  | wait s => exact hr
  | fail f s => exact hr

theorem loadEach_bounded {fresh l s} (hs : s.Bounded) : (loadEach fresh l s).Bounded := by
  induction l generalizing s with
  | nil => exact hs
  | cons p r ih =>
    have hp := coreLoad_bounded (addr := p.1) (n := p.2) (fresh := fresh) hs
    unfold loadEach
    split
    · next h1 =>
      have hr := ih (hp.ok h1)
      split
      · next h2 => exact hr.ok h2
      · next h2 => exact hr.wait h2
      · next h2 => exact hr.fail h2
    · next h1 => exact hp.wait h1
    · next h1 => exact hp.fail h1

theorem coreLoads_bounded {fresh l s} (hs : s.Bounded) : (coreLoads fresh l s).Bounded := by
  unfold coreLoads
  split
  · next hr1 => exact (partLoad_bounded hs).some hr1
  · exact loadEach_bounded hs

theorem storeEach_bounded {o l} {s : State} (hs : s.Bounded) : (storeEach o l s).Bounded := by
  induction l generalizing o s with
  | nil => exact hs
  | cons p r ih =>
    have hp := coreStoreAt_bounded (o := o) (addr := p.1) (data := p.2) hs
    unfold storeEach
    split
    · next h1 => exact ih (hp.ok h1)
    · next h1 => exact hp.wait h1
    · next h1 => exact hp.fail h1

theorem coreStores_bounded {l s} (hs : s.Bounded) : (coreStores l s).Bounded := by
  unfold coreStores
  split
  · next hr1 => exact (partStore_bounded hs).some hr1
  · exact storeEach_bounded hs

theorem effRows_bounded {α : Type} {s acc l} {run : List Nat → MRes α} {k : α → State → Eff} (hs : s.Bounded) (hrun : ∀ {as}, (run as).Bounded)
    (hk : ∀ {x} {s : State}, s.Bounded → (k x s).Bounded) : (effRows s acc l run k).Bounded := by
  unfold effRows
  split
  · exact hs
  · split
    · next hr => exact hk (hrun.ok hr)
    · next hr => exact hrun.wait hr
    · next hr => exact hrun.fail hr

theorem putRows_bounded {s d g rows} (hs : s.Bounded) : (putRows s d g rows).Bounded :=
  foldl_bounded (fun h1 => upCur_bounded h1 vsetList_bounded) hs

theorem execVld_bounded {a0 a1 q d a b imm s} (hs : s.Bounded) : OutBounded (execVld a0 a1 q d a b imm s) := by
  unfold execVld
  refine runEff_bounded (fun h1 => ?_) hs
  split
  · exact h1
  · exact effRows_bounded h1 (coreLoads_bounded h1) putRows_bounded

theorem execVst_bounded {a0 a1 a b e imm s} (hs : s.Bounded) : OutBounded (execVst a0 a1 a b e imm s) := by
  unfold execVst
  refine runEff_bounded (fun h1 => ?_) hs
  split
  · exact h1
  · exact effRows_bounded h1 (coreStores_bounded h1) (fun h2 => h2)

theorem packRows_bounded {fresh l tab first n used el acc} {s : State} (hs : s.Bounded) :
    (packRows fresh l tab first n used el acc s).Bounded := by
  induction n generalizing used el acc s with
  | zero => exact hs
  | succ n ih =>
    rw [packRows]
    split
    · exact hs
    · next ta _ =>
      have hp := coreLoad_bounded (addr := ta) (n := 2) (fresh := fresh) hs
      split
      · next h1 => exact hp.wait h1
      · next h1 => exact hp.fail h1
      · next h1 =>
        have hb := hp.ok h1
        split
        · exact hb
        · split
          · exact hb
          · exact ih hb

theorem ragged_bounded {s ty fresh ea b} (hs : s.Bounded) : (ragged s ty fresh ea b).Bounded := by
  unfold ragged
  dsimp only
  split
  · exact hs
  · exact packRows_bounded hs

theorem advanceTable_bounded {s b used} (hs : s.Bounded) : (advanceTable s b used).Bounded := wrN_bounded hs

theorem execVldx_bounded {h ty d a b mk imm s} (hs : s.Bounded) : OutBounded (execVldx h ty d a b mk imm s) := by
  refine runEff_bounded (fun {s} hs => effAddrOr_bounded (fun {ea} => ?_) hs) hs
  extract_lets w c on at_ addr
  clear_value on
  refine Eff.ite_bounded hs (Eff.ite_bounded hs (effRows_bounded hs (coreLoads_bounded hs) fun {bs s} hs => ?_))
  exact upCur_bounded hs fun hc => vsetList_bounded hc

/-! ## The definitions of Sys2Proof/Machine/Matrix.lean -/

theorem joinWaiters_bounded {s cl tid n} (hs : s.Bounded) : (joinWaiters s cl tid n).Bounded := upCluster_bounded hs

theorem grantLease_bounded {s cl tid n} (hs : s.Bounded) : (grantLease s cl tid n).Bounded :=
  upCluster_bounded (upTeam_bounded hs (fun h1 => h1))

theorem grantNext_bounded {s cl} (hs : s.Bounded) : (grantNext s cl).Bounded := by
  unfold grantNext
  dsimp only
  split
  · exact grantLease_bounded hs
  · exact hs

theorem handOver_bounded {s cl} (hs : s.Bounded) : (handOver s cl).Bounded := by
  unfold handOver
  dsimp only
  split
  · exact ite_bounded (grantNext_bounded (upCluster_bounded (upTeam_bounded hs (fun h1 => h1)))) hs
  · exact hs

theorem joinLease_bounded {s} (hs : s.Bounded) : (joinLease s).Bounded := upCur_bounded hs (fun h1 => h1)

theorem noArray_bounded {s cl} (hs : s.Bounded) : (noArray s cl).Bounded := hs

theorem leaveWaiters_bounded {s cl tid} (hs : s.Bounded) : (leaveWaiters s cl tid).Bounded := ite_bounded hs (upCluster_bounded hs)

theorem arrayEff_bounded {s k} (hs : s.Bounded) (hk : ∀ {s : State}, s.Bounded → (k s).Bounded) : (arrayEff s k).Bounded :=
  Eff.ite_bounded hs (Eff.ite_bounded (noArray_bounded hs) (Eff.ite_bounded (joinWaiters_bounded hs) (hk hs)))

theorem setOd_bounded {s d x} (hs : s.Bounded) : (setOd s d x).Bounded := upCur_bounded hs (fun h1 => h1)

theorem odSetWord_bounded {a0 d a b kind ok s} (hs : s.Bounded) : OutBounded (odSetWord a0 d a b kind ok s) :=
  legalEff_bounded hs (fun h1 => Eff.ite_bounded (setOd_bounded h1) h1)

theorem noteOperand_bounded {s x n z} (hs : s.Bounded) : (noteOperand s x n z).Bounded := by
  unfold noteOperand
  dsimp only
  refine foldl_bounded (fun h1 => ?_) hs
  split
  · exact fillReads_bounded (notePages_bounded h1)
  · exact notePages_bounded h1

theorem setTile_bounded {s cl n t} (hs : s.Bounded) : (setTile s cl n t).Bounded := upCluster_bounded hs

theorem fetchFault_bounded {s l f} (hs : s.Bounded) : (fetchFault s l f).Bounded := fetchReport_bounded hs

theorem mmaTile_bounded {s ty mid k d a b n} (hs : s.Bounded) : (mmaTile s ty mid k d a b n).Bounded := by
  have hp : (performAll s s.cur.core).Bounded := performAll_bounded hs
  unfold mmaTile
  extract_lets cl s' x y t mode wx wy count fin fault
  have hfin {bank} : (fin s' bank).Bounded :=
    bumpClk_bounded (upCluster_bounded (setTile_bounded (noteOperand_bounded (noteOperand_bounded hp))))
  have hfault {f} : (fault f).Bounded := fetchFault_bounded hp
  refine Eff.ite_bounded hp (Eff.ite_bounded ?_ ?_) <;> split
  · exact hfault
  · exact hfault
  · exact hfault
  · exact hfin
  · exact hfault
  · exact hfault
  · exact hfault
  · exact hfin

/-! ## The definitions of Sys2Proof/Machine/Ports.lean -/

theorem upPort_bounded {s p f} (hs : s.Bounded) : (upPort s p f).Bounded := hs

theorem setTick_bounded {s t} (hs : s.Bounded) : (setTick s t).Bounded :=
  foldl_bounded deadlineExpire_bounded (foldl_bounded nopreFatal_bounded hs)

theorem dropPort_bounded {s p} (hs : s.Bounded) : (dropPort s p).Bounded := foldl_bounded failReq_bounded (upPort_bounded hs)

theorem badFlit_bounded {s p} (hs : s.Bounded) : (badFlit s p).Bounded := ite_bounded (upPort_bounded hs) (dropPort_bounded hs)

theorem onFlit_bounded {s p f go} (hs : s.Bounded) (hgo : ∀ {s : State}, s.Bounded → (go s).Bounded) : (onFlit s p f go).Bounded :=
  ite_bounded hs (ite_bounded (badFlit_bounded hs) (ite_bounded (hgo (upPort_bounded hs)) (upPort_bounded hs)))

theorem sendFlit_bounded {s p ty f data bad} (hs : s.Bounded) : (sendFlit s p ty f data bad).Bounded := upPort_bounded hs

theorem landReport_bounded {s bad pa blocks} (hs : s.Bounded) : (landReport s bad pa blocks).Bounded :=
  holdReport_bounded ((optMap_bounded (decodeFail_bounded hs)).getD hs)

theorem landWrite_bounded {s eng link pa l fails} (hs : s.Bounded) : (landWrite s eng link pa l fails).1.Bounded := by
  unfold landWrite
  dsimp only
  split
  · exact hs
  · split
    · exact hs
    · split
      · exact landReport_bounded hs
      · exact landReport_bounded hs
      · exact writeMem_bounded hs

theorem landed_bounded {s p f r} (hs : s.Bounded) : (landed s p f r).Bounded := sendFlit_bounded hs

theorem flitWrite_bounded {p f s} (hs : s.Bounded) : (flitWrite p f s).Bounded :=
  onFlit_bounded hs (fun h1 => landed_bounded (landWrite_bounded h1))

theorem flitReadRequest_bounded {p f s} (hs : s.Bounded) : (flitReadRequest p f s).Bounded :=
  onFlit_bounded hs (fun h1 => ite_bounded (sendFlit_bounded (fillReads_bounded ((optMap_bounded (decodeFail_bounded h1)).getD h1)))
  (sendFlit_bounded h1))

theorem flitAtomic_bounded {p f s} (hs : s.Bounded) : (flitAtomic p f s).Bounded :=
  onFlit_bounded hs (fun h1 => ite_bounded (sendFlit_bounded h1) (sendFlit_bounded (writeMem_bounded (fillReads_bounded h1))))

theorem reduce_bounded {s data} (hs : s.Bounded) : (reduce s data).1.Bounded := by
  unfold reduce
  extract_lets b n d ds a as outs keys reads own bad
  split
  · exact hs
  · split
    · exact hs
    · split
      · exact landReport_bounded hs
      · exact writeMem_bounded (fillReads_bounded hs)

theorem flitReduceData_bounded {p f s} (hs : s.Bounded) : (flitReduceData p f s).Bounded :=
  onFlit_bounded hs (fun h1 => ite_bounded (landed_bounded (upPort_bounded h1)) (ite_bounded (upPort_bounded h1) (landed_bounded
  (reduce_bounded (upPort_bounded h1)))))

theorem flitReadData_bounded {p f s} (hs : s.Bounded) : (flitReadData p f s).Bounded := by
  unfold flitReadData
  dsimp only
  refine onFlit_bounded hs (fun h1 => ?_)
  split
  · exact h1
  · exact ite_bounded h1 (ite_bounded h1 (landRead_bounded h1))

theorem flitAtomicResult_bounded {p f s} (hs : s.Bounded) : (flitAtomicResult p f s).Bounded := by
  unfold flitAtomicResult
  refine onFlit_bounded hs (fun h1 => ?_)
  split
  · exact h1
  · exact ite_bounded (failReq_bounded h1) (finishReq_bounded h1)

theorem noteExc_bounded {s r exc} (hs : s.Bounded) : (noteExc s r exc).Bounded := by
  unfold noteExc
  split
  · exact ite_bounded (upCmd_bounded hs) hs
  · exact hs

theorem flitCompletion_bounded {p f s} (hs : s.Bounded) : (flitCompletion p f s).Bounded := by
  unfold flitCompletion
  dsimp only
  refine onFlit_bounded hs (fun h1 => ?_)
  split
  · exact h1
  · split
    · exact ite_bounded (failReq_bounded h1) (finishReq_bounded (noteExc_bounded h1))
    · exact failReq_bounded h1
    · exact failReqAt_bounded h1
    · exact failReqAt_bounded h1

theorem flitTick_bounded {p f s} (hs : s.Bounded) : (flitTick p f s).Bounded :=
  onFlit_bounded hs (fun h1 => ite_bounded (ite_bounded h1 (ite_bounded (setTick_bounded h1) h1)) h1)

theorem sendAnswers_bounded {s} (hs : s.Bounded) : (sendAnswers s).Bounded := foldl_bounded landed_bounded hs

theorem flitControl_bounded {p f s} (hs : s.Bounded) : (flitControl p f s).Bounded :=
  onFlit_bounded hs (fun h1 => sendAnswers_bounded (foldl_bounded performAll_bounded (dropTlb_bounded h1)))

theorem tickFlits_bounded {s} (hs : s.Bounded) : (tickFlits s).Bounded :=
  ite_bounded (foldl_bounded (fun h1 => ite_bounded (upPort_bounded h1) h1) hs) hs

theorem trainLink_bounded {s p peer skewOk} (hs : s.Bounded) : (trainLink s p peer skewOk).Bounded :=
  ite_bounded hs (ite_bounded (upPort_bounded hs) (ite_bounded (upPort_bounded hs) (upPort_bounded hs)))

/-! ## The definitions of Sys2Proof/Machine/Session.lean -/

theorem loopPut_bounded {s p x addr l} (hs : s.Bounded) : (loopPut s p x addr l).Bounded := ite_bounded hs (devWrite_bounded hs)

theorem setSessState_bounded {s p x st} (hs : s.Bounded) : (setSessState s p x st).Bounded := loopPut_bounded hs

theorem setSess_bounded {s p x} (hs : s.Bounded) : (setSess s p x).Bounded := upPart_bounded hs

theorem onSel_bounded {w br x k s bad} (hk : ∀ {s : State}, s.Bounded → (k s).Bounded) (hs : s.Bounded) : (onSel w br x k s bad).Bounded := by
  unfold onSel
  split
  · exact hs
  · exact hk hs

theorem failSeq_bounded {p v j} (hv : v.1.Bounded) : (failSeq p v j).1.Bounded := by
  unfold failSeq
  dsimp only
  split <;> exact ite_bounded (foldl_bounded (fun h1 => onSel_bounded rdlDrop_bounded h1) hv) hv

theorem seqCmd_bounded {p v j k} (hv : v.1.Bounded) (hk : ∀ {s : State}, s.Bounded → (k s).Bounded) : (seqCmd p v j k).1.1.Bounded := by
  unfold seqCmd
  dsimp only
  split
  · exact ite_bounded (seqReport_bounded (hk hv)) (hk hv)
  · exact failSeq_bounded (ite_bounded (seqReport_bounded (hk hv)) (hk hv))

/-- Commands each of which keeps the bounds. -/
def CmdsBounded (l : List (State → SeqRes)) : Prop := ∀ k ∈ l, ∀ {s : State}, s.Bounded → (k s).Bounded

theorem CmdsBounded.nil : CmdsBounded [] := fun _ hk => nomatch hk

theorem CmdsBounded.cons {k l} (hk : ∀ {s : State}, s.Bounded → (k s).Bounded) (hl : CmdsBounded l) : CmdsBounded (k :: l) := by
  intro j hj
  rcases List.mem_cons.mp hj with rfl | hj
  · exact hk
  · exact hl j hj

theorem seqCmds_bounded {p v j l} (hv : v.1.Bounded) (hl : CmdsBounded l) : (seqCmds p v j l).1.1.Bounded := by
  refine List.foldlRecOn (motive := fun r : SX × Bool => r.1.1.Bounded) l _ hv fun r hr k hk => ?_
  split
  · exact seqCmd_bounded hr (hl k hk)
  · exact hr

theorem withRdl_bounded {q l} (hl : CmdsBounded l) : CmdsBounded (withRdl q l) := by
  unfold withRdl
  split
  · exact hl
  · exact CmdsBounded.nil

theorem maskCmd_bounded {w q b a3} (ha3 : a3.Bounded) : (maskCmd w q b a3).Bounded := onSel_bounded rdlMask_bounded ha3

theorem stepCmd_bounded {w q b t a4} (ha4 : a4.Bounded) : (stepCmd w q b t a4).Bounded := onSel_bounded rdlStep_bounded ha4

theorem drive_bounded {u n} {s : State} (hs : s.Bounded) : (drive u n s).Bounded := by
  induction n generalizing s with
  | zero => exact hs
  | succ n ih =>
    rw [drive]
    refine ite_bounded hs ?_
    split
    · next hr => exact ih ((asyTurn_bounded hs).next hr)
    · exact hs

theorem startLoopRun_bounded {s p x q prog row off tok} (hs : s.Bounded) : (startLoopRun s p x q prog row off tok).1.Bounded := by
  unfold startLoopRun
  extract_lets w u s1 r s2 c
  have h2 : s2.Bounded := loopWrite_bounded (upAsy_bounded hs)
  clear_value s2
  split
  · exact h2
  · split
    · exact h2
    · split
      · exact h2
      · exact drive_bounded (startRun_bounded h2)

theorem seqRun_bounded {v p j prog row off tok} (hv : v.1.Bounded) : (seqRun v p j prog row off tok).1.1.Bounded := by
  have h := startLoopRun_bounded (p := p) (x := v.2) (q := seqAt v.2 j) (prog := prog) (row := row) (off := off) (tok := tok) hv
  unfold seqRun
  dsimp only
  split
  · exact h
  · exact failSeq_bounded h

theorem openSeq_bounded {p v j} (hv : v.1.Bounded) : (openSeq p v j).1.Bounded := by
  refine seqCmds_bounded hv (.cons (fun hs => onSel_bounded (fun hs => asyBind_bounded hs) hs) (withRdl_bounded (.cons
      (fun hs => onSel_bounded (fun hs => ?_) hs) .nil)))
  split
  · exact hs
  · exact rdlOpen_bounded hs

theorem sessionOpen_bounded {s p} (hs : s.Bounded) : (sessionOpen s p).Bounded := by
  unfold sessionOpen
  split
  · extract_lets s1 x
    have h1 : s1.Bounded := upPart_bounded hs
    split
    · exact h1
    · extract_lets x
      split
      · exact setSessState_bounded h1
      · exact setSess_bounded (setSessState_bounded (foldl_fst_bounded openSeq_bounded h1.crew))
  · exact hs

theorem onSess_bounded {s p ph f} (hs : s.Bounded) (hf : ∀ {x}, (f x).1.Bounded) : (onSess s p ph f).Bounded := by
  unfold onSess
  split
  · exact hs
  · exact setSess_bounded hf

theorem saveCmds_bounded {w q a} : CmdsBounded (saveCmds w q a) :=
  .cons (fun hs => onSel_bounded (fun hs => asyStat_bounded hs) hs)
    (withRdl_bounded (.cons (fun hs => onSel_bounded (fun hs => rdlSave_bounded hs) hs) .nil))

theorem saveOld_bounded {p v j} (hv : v.1.Bounded) : (saveOld p v j).1.Bounded := seqCmds_bounded hv saveCmds_bounded

theorem loadNew_bounded {p v j} (hv : v.1.Bounded) : (loadNew p v j).1.Bounded := by
  unfold loadNew
  refine seqCmds_bounded hv (.cons (fun hs => onSel_bounded (fun hs => ?_) hs)
    (withRdl_bounded (.cons (fun hs => onSel_bounded (fun hs => rdlLoad_bounded hs) hs) .nil)))
  split
  · exact asyBind_bounded hs
  · exact hs

theorem reslot_bounded {s p x control} (hs : s.Bounded) : (reslot s p x control).1.Bounded :=
  loopPut_bounded (foldl_fst_bounded loadNew_bounded (foldl_fst_bounded saveOld_bounded hs))

theorem roundStart_bounded {s p x} (hs : s.Bounded) : (roundStart s p x).1.Bounded := by
  unfold roundStart
  dsimp only
  split
  · exact hs
  · split
    · exact reslot_bounded hs
    · exact hs

theorem writeParams_bounded {s p x planes npos toks} (hs : s.Bounded) : (writeParams s p x planes npos toks).Bounded :=
  foldl_bounded loopPut_bounded (loopPut_bounded hs)

theorem writeTable_bounded {s p x} (hs : s.Bounded) : (writeTable s p x).Bounded :=
  foldl_bounded (fun h1 => loopPut_bounded (loopPut_bounded (loopPut_bounded h1))) hs

theorem failSession_bounded {s p x status} (hs : s.Bounded) : (failSession s p x status).Bounded :=
  setSess_bounded (setSessState_bounded (writeTable_bounded hs))

theorem chainEvent_bounded {s p ph chain ask go} (hs : s.Bounded) (hask : ∀ {x}, (ask x).1.Bounded) (hgo : ∀ {x}, (go x).1.Bounded) :
    (chainEvent s p ph chain ask go).Bounded := by
  unfold chainEvent
  split
  · exact hs
  · exact ite_bounded (setSess_bounded hask) (ite_bounded (failSession_bounded hs) (setSess_bounded hgo))

theorem maskRun_bounded {v p j b prog row off tok} (hv : v.1.Bounded) : (maskRun v p j b prog row off tok).1.1.Bounded := by
  unfold maskRun
  have hm := seqCmds_bounded (p := p) (j := j) hv (withRdl_bounded (q := seqAt v.2 j) (.cons (k := maskCmd (loopWho p v.2)
      (seqAt v.2 j) b) maskCmd_bounded .nil))
  dsimp only
  split
  · next hr => rw [hr] at hm; exact hm
  · next hr => rw [hr] at hm; exact seqRun_bounded hm

theorem draftSeq_bounded {p v j} (hv : v.1.Bounded) : (draftSeq p v j).1.Bounded := by
  unfold draftSeq
  have hm := maskRun_bounded (p := p) (j := j) (b := v.2.i) (prog := sdN v.2 48 8) (row := 8 * j + v.2.i) (off := v.2.i) (tok := 0) hv
  dsimp only
  split
  · next hr => rw [hr] at hm; exact hm
  · next hr =>
    rw [hr] at hm
    exact seqCmds_bounded (v := (_, _)) hm (withRdl_bounded (.cons (fun hs => onSel_bounded (fun hs => rdlFork_bounded hs) hs)
        (.cons stepCmd_bounded .nil)))

theorem sessionDraft_bounded {s p chain} (hs : s.Bounded) : (sessionDraft s p chain).Bounded :=
  chainEvent_bounded hs (writeParams_bounded hs) (foldl_fst_bounded draftSeq_bounded hs)

theorem sessionVerify_bounded {s p chain} (hs : s.Bounded) : (sessionVerify s p chain).Bounded := by
  unfold sessionVerify
  refine chainEvent_bounded hs (fun {x} => ?_) fun {x} => ?_
  · show (writeParams s p x (sdN x 30 1) (sdD x + 1) fun q => q.last :: q.drafts).Bounded
    exact writeParams_bounded hs
  · exact hs

theorem setAccepted_bounded {v j a} (hv : v.1.Bounded) : (setAccepted v j a).1.Bounded := hv

theorem decideFrom_bounded {p j n i} {v : SX} (hv : v.1.Bounded) : (decideFrom p j n i v).1.Bounded := by
  induction n generalizing i v with
  | zero => exact setAccepted_bounded (maskRun_bounded hv)
  | succ n ih =>
    have hm := maskRun_bounded (p := p) (j := j) (b := i) (prog := sdN v.2 56 8) (row := 8 * j + i) (off := 0)
      (tok := ((seqAt v.2 j).drafts.getD i 0).toNat) hv
    rw [decideFrom]
    split
    · next hr => rw [hr] at hm; exact hm
    · next hr =>
      rw [hr] at hm
      dsimp only
      split
      · exact setAccepted_bounded hm
      · exact ih hm

theorem sessionDecide_bounded {s p} (hs : s.Bounded) : (sessionDecide s p).Bounded := onSess_bounded hs (foldl_fst_bounded decideFrom_bounded hs)

theorem commitSeq_bounded {p v j} (hv : v.1.Bounded) : (commitSeq p v j).1.Bounded := by
  unfold commitSeq
  extract_lets w q sel keep step
  have hstep : CmdsBounded step := by
    unfold step
    split
    · split
      · exact .nil
      · exact .cons stepCmd_bounded .nil
    · exact .nil
  have hm := seqCmds_bounded (p := p) (j := j) hv (withRdl_bounded (q := q) (.cons (k := keep) (fun hs => onSel_bounded
      (fun hs => rdlKeep_bounded hs) hs) hstep))
  split
  · next hr => rw [hr] at hm; exact hm
  · next hr => rw [hr] at hm; exact hm

theorem sessionCommit_bounded {s p} (hs : s.Bounded) : (sessionCommit s p).Bounded := onSess_bounded hs (foldl_fst_bounded commitSeq_bounded hs)

theorem endRound_bounded {s p x} (hs : s.Bounded) : (endRound s p x).1.Bounded := loopPut_bounded (writeTable_bounded hs)

theorem outputEntry_bounded {s p} (hs : s.Bounded) : (outputEntry s p).Bounded := by
  unfold outputEntry
  dsimp only
  split
  · exact hs
  · split
    · exact hs
    · split
      · exact ite_bounded (setSess_bounded (loopPut_bounded hs)) hs
      · exact ite_bounded (setSess_bounded (endRound_bounded hs)) hs

theorem closeSeq_bounded {p v j} (hv : v.1.Bounded) : (closeSeq p v j).1.Bounded := seqCmds_bounded hv saveCmds_bounded

theorem endSession_bounded {s p x} (hs : s.Bounded) : (endSession s p x).Bounded :=
  setSess_bounded (setSessState_bounded (writeTable_bounded hs))

theorem sessionClose_bounded {s p} (hs : s.Bounded) : (sessionClose s p).Bounded := by
  unfold sessionClose
  dsimp only
  split
  · exact hs
  · exact ite_bounded (endSession_bounded hs) (ite_bounded (endSession_bounded (foldl_fst_bounded closeSeq_bounded hs)) (setSess_bounded
        (foldl_fst_bounded closeSeq_bounded hs)))

/-! ## The definitions of Sys2Proof/Machine/Stages.lean -/

theorem coldState_bounded {s} : (coldState s).Bounded := State.reset_bounded

theorem losePower_bounded {s} : (losePower s).Bounded := by
  unfold losePower
  exact ite_bounded (coldState_bounded (s := s)).crew (coldState_bounded (s := s)).crew

theorem powerUp_bounded {s} : (powerUp s).Bounded := extendMr_bounded (coldState_bounded (s := s)).crew

theorem mapWatch_bounded {s} (hs : s.Bounded) : (mapWatch s).Bounded := by
  have h := wrRun_bounded (k := fwTables) (l := plainPte s 0x1FFFE00000) hs
  unfold mapWatch
  generalize wrRun s fwTables (plainPte s 0x1FFFE00000) = t at h
  exact h.crew

theorem foreCore_bounded {s i body} : (foreCore s i body).Bounded := Core.bounded_default

theorem startForeman_bounded {s image} (hs : s.Bounded) : (startForeman s image).Bounded :=
  setTeam_bounded (setCore_bounded (setCore_bounded hs foreCore_bounded) foreCore_bounded) (Team.bounded_of_image_none rfl)

theorem clearTeams_bounded {s} : (clearTeams s).Bounded := State.reset_bounded

theorem enterF_bounded {s} (hs : s.Bounded) : (enterF s).Bounded := by
  unfold enterF
  refine ite_bounded hs ?_
  split
  · exact hs.crew
  · next b _ =>
    exact signalEvent_bounded (startForeman_bounded (mapWatch_bounded (extendMr_bounded (clearTeams_bounded (s := s)).crew)))

theorem rehome_bounded {s} (hs : s.Bounded) : (rehome s).Bounded := by
  unfold rehome
  dsimp only
  exact upCore_bounded (upCore_bounded (mapWatch_bounded hs) (fun h1 => h1)) (fun h1 => h1)

theorem mapArea_bounded {s} (hs : s.Bounded) : (mapArea s).Bounded := hs

theorem mapQueues_bounded {s} (hs : s.Bounded) : (mapQueues s).Bounded := hs

theorem enterM_bounded {s ok num count} (hs : s.Bounded) : (enterM s ok num count).Bounded :=
  ite_bounded (ite_bounded hs (toStageS_bounded hs)) (ite_bounded hs (ite_bounded (toStageS_bounded hs) (signalEvent_bounded
  (rehome_bounded (mapArea_bounded hs)))))

theorem startWdt_bounded {s} (hs : s.Bounded) : (startWdt s).Bounded := by
  refine upCore_bounded (performAll_bounded hs) fun hc => ⟨fun f => Nat.zero_le _, fun g => ?_, hc.2.2⟩
  cases g <;> exact EngSt.bounded_default

theorem clearRestarts_bounded {s} (hs : s.Bounded) : (clearRestarts s).Bounded := writeMem_bounded hs

theorem raiseFloor_bounded {s} (hs : s.Bounded) : (raiseFloor s).Bounded := ite_bounded hs hs

theorem renumber_bounded {s} (hs : s.Bounded) : (renumber s).Bounded := ite_bounded hs (rehome_bounded hs)

theorem enterA_bounded {s} (hs : s.Bounded) : (enterA s).Bounded :=
  ite_bounded hs (signalEvent_bounded (clearRestarts_bounded (startWdt_bounded (mapQueues_bounded (raiseFloor_bounded (renumber_bounded hs))))))

/-! ## The definitions of Sys2Proof/Machine/VConv.lean -/

theorem writeConv_bounded {s tt d n on f} (hs : s.Bounded) : (writeConv s tt d n on f).Bounded :=
  Eff.ite_bounded (raiseFlags_bounded (foldl_bounded (fun h1 => upCur_bounded h1 vsetList_bounded) hs)) hs

theorem execVqntBlk_bounded {h ty md d a imm s} (hs : s.Bounded) : OutBounded (execVqntBlk h ty md d a imm s) := by
  refine runEff_bounded (fun {s} hs => ?_) hs
  dsimp only
  generalize (1 : Nat) = n
  split
  · next hr => exact writeAll_bounded ((writeConv_bounded hs).done hr)
  · exact writeConv_bounded hs

theorem execVqntS_bounded {h ty md d a b imm s} (hs : s.Bounded) : OutBounded (execVqntS h ty md d a b imm s) := by
  refine runEff_bounded (fun {s} hs => ?_) hs
  dsimp only
  generalize (1 : Nat) = n
  exact Eff.ite_bounded (raiseFlags_bounded (writeAll_bounded hs)) (writeConv_bounded hs)

theorem dequantWord_bounded {s a1 md d a imm scale} (hs : s.Bounded) : OutBounded (dequantWord s a1 md d a imm scale) :=
  runEff_bounded writeConv_bounded hs

/-! ## The definitions of Sys2Proof/Machine/Turn.lean -/

theorem nextTurn_bounded {s} (hs : s.Bounded) : (nextTurn s).2.Bounded := by
  unfold nextTurn
  split <;> exact hs

/-! ## Words, turns and steps -/

theorem exec_bounded {i s} (hs : s.Bounded) : OutBounded (exec i s) := by
  unfold exec
  cases i with
  | nop | tsend => exact runWord_bounded (fun h1 => h1) (fun h1 => h1) hs
  | rep => exact repS_bounded hs
  | movi | moviHi | mov | add | sub | addi | shl | shr | sar | and | or | xor | sel | trecv | mul | mulh | div | rem | min | max | clz
  | popc | bfx | bfi | tickRead | vmodeRd | vflagsRd | kpopc | kffs | vext | leaseSt => exact setReg_bounded hs
  | cmp | pand | por | pxor | pnot | pmov => exact setPr_bounded hs
  | ld => exact execLd_bounded hs
  | st => exact execSt_bounded hs
  | atomAdd | atomAnd | atomOr | atomXor | atomMin | atomMax | atomXchg | atomCas | atomIncb | atomAddb => exact atomWord_bounded hs
  | atomCas128 => exact execAtomCas128_bounded hs
  | br => exact out_ite_bounded (runWord_bounded (fun h1 => h1) (fun h1 => h1) hs) (fatalHere_bounded hs)
  | steer | steerX | ret => exact steerWord_bounded hs (fun h1 => h1)
  | call => exact steerWord_bounded hs wr_bounded
  | probe => exact runEff_bounded (fun h1 => effAddrOr_bounded (probeAt_bounded h1) h1) hs
  | fni => exact runEff_bounded (fun h1 => upCur_bounded h1 (fun h2 => h2)) hs
  | fnw => exact execFnw_bounded hs
  | fenceComplete => exact execFenceComplete_bounded hs
  | phase => exact execPhase_bounded hs
  | barArr =>
    exact runEff_bounded (fun h1 => Eff.ite_bounded h1 (Eff.ite_bounded h1 (Eff.ite_bounded h1 (arriveBar_bounded (upCur_bounded h1
        (fun h2 => h2)))))) hs
  | barWait => exact runEff_bounded (fun h1 => Eff.ite_bounded h1 (Eff.ite_bounded h1 h1)) hs
  | waitw => exact execWaitw_bounded hs
  | waitwPoll => exact execWaitwPoll_bounded hs
  | twait => exact execTwait_bounded hs
  | twaitExpiry => exact execTwaitExpiry_bounded hs
  | npre => exact runWord_bounded (fun h1 => Eff.ite_bounded h1 h1) (fun h1 => upCur_bounded h1 (fun h2 => h2)) hs
  | epre => exact runWord_bounded (fun h1 => h1) (fun h1 => upCur_bounded h1 (fun h2 => h2)) hs
  | nopreOverrun => exact nopreFatal_bounded hs
  | textsync => exact out_ite_bounded (runEff_bounded (fun h1 => ite_bounded h1 (refetch_bounded h1)) hs) (fatalHere_bounded hs)
  | signal => exact execSignal_bounded hs
  | signalAdd => exact execSignalAdd_bounded hs
  | trap => exact runWord_bounded (fun h1 => h1) raiseTrap_bounded hs
  | srd => exact out_ite_bounded (setReg_bounded hs) (fatalHere_bounded hs)
  | wsrd => exact privWord_bounded hs (fun h1 => wrN_bounded (wr_bounded h1))
  | teamHalt | teamHold => exact haltWord_bounded hs
  | teamKill =>
    exact privWord_bounded hs (fun h1 => Eff.ite_bounded (giveStatus_bounded h1) (giveStatus_bounded (failContext_bounded
        (holdFault_bounded h1))))
  | teamResumeReexec | teamResumeSkip => exact resumeWord_bounded hs
  | qFlushFinish | qFlushDiscard => exact flushWord_bounded hs
  | qResetContinue | qResetRestart => exact resetWord_bounded hs
  | ctxSave => exact execCtxSave_bounded hs
  | ctxRest => exact execCtxRest_bounded hs
  | prd => exact out_ite_bounded (privWord_bounded hs wr_bounded) (fatalHere_bounded hs)
  | pwr => exact out_ite_bounded (privWord_bounded hs (fun h1 => giveStatus_bounded (writePriv_bounded h1))) (fatalHere_bounded hs)
  | lregCreate => exact execLregCreate_bounded hs
  | lregWrite => exact execLregWrite_bounded hs
  | lregSeal => exact execLregSeal_bounded hs
  | lregRemap => exact execLregRemap_bounded hs
  | lregDestroy => exact execLregDestroy_bounded hs
  | htabMap => exact execHtabMap_bounded hs
  | htabUnmap => exact execHtabUnmap_bounded hs
  | htabShootdown => exact execHtabShootdown_bounded hs
  | htabBind => exact execHtabBind_bounded hs
  | fwinSet => exact execFwinSet_bounded hs
  | fwinClear | fwinFlush => exact fwinWord_bounded hs
  | vld => exact execVld_bounded hs
  | vldSp => exact legalEff_bounded hs (fun h1 => Eff.ite_bounded h1 (effRows_bounded h1 (coreLoads_bounded h1) putRows_bounded))
  | vst => exact execVst_bounded hs
  | vstSp => exact legalEff_bounded hs (fun h1 => Eff.ite_bounded h1 (effRows_bounded h1 (coreStores_bounded h1) (fun h2 => h2)))
  | vldr =>
    exact runEff_bounded (fun h1 => effAddrOr_bounded (effRes_bounded (ragged_bounded h1) (fun h2 => effRows_bounded h2
        (coreLoads_bounded h2) (fun h3 => advanceTable_bounded (upCur_bounded h3 (fun h4 => kset_bounded (vsetList_bounded h4)))))) h1) hs
  | vstr =>
    exact runEff_bounded (fun h1 => effAddrOr_bounded (effRes_bounded (ragged_bounded h1) (fun h2 => effRows_bounded h2
        (coreStores_bounded h2) advanceTable_bounded)) h1) hs
  | vldx => exact execVldx_bounded hs
  | vmodeWr | vflagsWr => exact runWord_bounded (fun h1 => upCur_bounded h1 (fun h2 => h2)) (fun h1 => h1) hs
  | vadd | vsub | vmul => exact arith2_bounded hs
  | vmin | vmax | vdiv | vscale | vmulh | vand | vor | vxor => exact lane2_bounded hs
  | vabs | vneg | vclass | vrint | vnot | vpopc | vclz => exact lane1_bounded hs
  | vcmp =>
    exact runWord_bounded (fun h1 => foldl_bounded (fun h2 => raiseFlags_bounded (upCur_bounded h2 kset_bounded)) h1) (fun h1 => h1) hs
  | vfma | vfms | vfnma => exact fusedWord_bounded hs
  | vshl | vshr | vsar => exact shiftWord_bounded hs
  | vdot4 | vplanePk | vplaneUn | vsel => exact runWord_bounded writeAll_bounded (fun h1 => h1) hs
  | vcvt => exact runEff_bounded writeConv_bounded hs
  | vqntBlk => exact execVqntBlk_bounded hs
  | vqntS => exact execVqntS_bounded hs
  | vdqntBlk | vdqntS => exact dequantWord_bounded hs
  | vrot | vbcast => exact moveWord_bounded hs
  | vred | vscan | vsred | vmov | vmovBc => exact runWord_bounded writeVec_bounded (fun h1 => h1) hs
  | kand | kor | kxor | knot | kmov | kmovSet | kmovClr | kmovFirst => exact maskWord_bounded hs
  | krl => exact runEff_bounded (fun h1 => effRes_bounded (ragged_bounded h1) (fun h2 => upCur_bounded h2 kset_bounded)) hs
  | vins => exact runWord_bounded (fun h1 => upCur_bounded h1 vput_bounded) (fun h1 => h1) hs
  | vexp | vexp2 | vexpm1 | vlog | vlog2 | vlog1p | vrcp | vsqrt | vrsqrt | vsin | vcos | vtanh | vlogistic | vexpApx | vexp2Apx
  | vexpm1Apx | vlogApx | vlog2Apx | vlog1pApx | vrcpApx | vsqrtApx | vrsqrtApx | vsinApx | vcosApx | vtanhApx | vlogisticApx =>
    exact fnWord_bounded hs
  | phase2Complete => exact phase2Done_bounded hs
  | leaseAcq =>
    exact runEff_bounded (fun h1 => Eff.ite_bounded (noArray_bounded h1) (Eff.ite_bounded (joinLease_bounded h1) (Eff.ite_bounded
        (joinLease_bounded (grantLease_bounded h1)) (joinWaiters_bounded h1)))) hs
  | leaseGrant => exact grantNext_bounded hs
  | leaseHandOver => exact handOver_bounded hs
  | leaseRel => exact runEff_bounded (fun h1 => leaveWaiters_bounded (releaseCore_bounded h1)) hs
  | odSetSp | odSetV | odSetM => exact odSetWord_bounded hs
  | mma => exact runEff_bounded (fun h1 => Eff.ite_bounded h1 (arrayEff_bounded h1 mmaTile_bounded)) hs
  | accZero | accSwap => exact runEff_bounded (fun h1 => arrayEff_bounded h1 setTile_bounded) hs
  | accRd => exact runEff_bounded (fun h1 => arrayEff_bounded h1 (fun h2 => foldl_bounded writeAll_bounded h2)) hs
  | accFlag => exact runEff_bounded (fun h1 => arrayEff_bounded h1 wr_bounded) hs
  | hcp | hgat | hsct | hlay | hfill => exact copyWord_bounded hs
  | hmc | hpub => exact runEff_bounded (fun h1 => issueCmd_bounded h1 (fun h2 => h2)) hs
  | hmcSig => exact runEff_bounded (fun h1 => Eff.ite_bounded h1 (issueCmd_bounded h1 (fun h2 => upTeam_bounded h2 (fun h3 => h3)))) hs
  | hmcPairArrival => exact pairArrival_bounded hs
  | cqInit =>
    exact runEff_bounded (fun h1 => Eff.ite_bounded h1 (Eff.ite_bounded (upCur_bounded h1 (fun h2 => h2)) (Eff.ite_bounded
        (upCur_bounded h1 (fun h2 => h2)) h1))) hs
  | cqAck => exact execCqAck_bounded hs
  | commandComplete => exact commandComplete_bounded hs
  | lodeAct | lodeSacc | lodeDrain | lodeDrainRaw | lodeIred | lodeStat => exact lodeWord_bounded hs
  | stampedStart => exact stampedGo_bounded hs
  | lodePageRead => exact pageRead_bounded hs
  | linkSend | linkRed => exact linkWord_bounded hs
  | rdlOpen | rdlMask | rdlMaskM | rdlStep | rdlFork | rdlKeep | rdlDrop | rdlSave | rdlLoad | asyBind | asyRun | asyStat =>
    exact seqWord_bounded hs
  | asyHalt => exact asyWord_bounded hs (fun _ => trivial)
  | asyLdlog => exact execAsyLdlog_bounded hs
  | asyScl | asySub | asyExp | asyDiv | asyDivS | asyTmax | asyTsum | asyMinp | asyMask | asySort | asyScan | asyTopp | asyVal | asyStop
  | asyAccept | asyMov | asyMovi | asyAddF | asyAddI | asyMulF | asyMulI => exact asyWord_bounded hs (fun _ => aRun_bounded)
  | asyDraw => exact execAsyDraw_bounded hs
  | asyPick => exact execAsyPick_bounded hs
  | asyValQ => exact execAsyValQ_bounded hs
  | asyStp => exact execAsyStp_bounded hs
  | asyCommit => exact execAsyCommit_bounded hs
  | asyResid => exact execAsyResid_bounded hs
  | asyBrAl | asyBrZ | asyBrNz => exact asyWord_bounded hs asyBranch_bounded
  | asyStatRead => exact execAsyStatRead_bounded hs
  | sectionHeaderExamine => exact ite_bounded (headerStep_bounded (onEng_bounded hs)) (onEng_bounded hs)
  | steerTargetPop => exact execSteerTargetPop_bounded hs
  | joinRendezvous => exact execJoinRendezvous_bounded hs
  | retireForTile => exact retireTile_bounded hs
  | tokenDeadlock => exact ite_bounded (ite_bounded (foremanFault_bounded hs) (failContext_bounded (holdFault_bounded hs))) hs
  | reserveRead => exact ite_bounded (hostSay_bounded (upQueue_bounded hs)) (hostSay_bounded hs)
  | commitWrite => exact ite_bounded (upQueue_bounded hs) hs
  | queueEnable => exact ite_bounded (enableQueue_bounded (setCtrl_bounded hs)) hs
  | queueDestroy => exact ite_bounded (destroyQueue_bounded (setCtrl_bounded hs)) hs
  | registerWrite => exact writePage_bounded hs
  | recordTake => exact takeRecord_bounded hs
  | waitEvaluation => exact evalWaits_bounded hs
  | walkerChoice => exact walkerChoice_bounded hs
  | recordComplete => exact completeRecord_bounded hs
  | completionEntryWrite => exact writeEntry_bounded hs
  | deadlineExpiry => exact deadlineExpire_bounded hs
  | haltRequest => exact beginHalt_bounded hs
  | haltComplete => exact endHalt_bounded hs
  | teamSave => exact saveTeam_bounded hs
  | thermalMigration => exact ite_bounded (foldl_bounded askHalt_bounded (upCluster_bounded hs)) (upCluster_bounded hs)
  | faultRecordWrite => exact writeFault_bounded hs
  | cacheEviction => exact evictLine_bounded hs
  | shoringSteal => exact stealPlane_bounded hs
  | shoringRefresh => exact refreshBlock_bounded hs
  | bondSelfTest => exact bondTest_bounded hs
  | hostWrite => exact hostStore_bounded hs
  | hostRead => exact hostLoad_bounded hs
  | hostAtomicop => exact hostSay_bounded hs
  | pageRequestResponse => exact pageResponse_bounded hs
  | atsInvalidate => exact hs
  | sessionDoorbell => exact ringSession_bounded hs
  | ident | health | partget | capget | idkey | fwstat => exact mailbox_bounded (fun h1 => h1) hs
  | reloadq => exact mailbox_bounded takeReload_bounded hs
  | partset => exact mailbox_bounded setParts_bounded hs
  | capset => exact mailbox_bounded setCap_bounded hs
  | measure => exact mailbox_bounded measureMr_bounded hs
  | quote => exact mailbox_bounded giveQuote_bounded hs
  | config => exact mailbox_bounded readConfig_bounded hs
  | mrext => exact mailbox_bounded hostExtend_bounded hs
  | fwupd => exact mailbox_bounded updateFw_bounded hs
  | restart => exact execRestart_bounded hs
  | flitWrite => exact flitWrite_bounded hs
  | flitReadRequest => exact flitReadRequest_bounded hs
  | flitReadData => exact flitReadData_bounded hs
  | flitAtomic => exact flitAtomic_bounded hs
  | flitAtomicResult => exact flitAtomicResult_bounded hs
  | flitReduceData => exact flitReduceData_bounded hs
  | flitCompletion => exact flitCompletion_bounded hs
  | flitTick => exact flitTick_bounded hs
  | flitControl => exact flitControl_bounded hs
  | portDown => exact dropPort_bounded hs
  | tickFlitSend => exact tickFlits_bounded hs
  | linkTrain => exact trainLink_bounded hs
  | tickAdvance => exact setTick_bounded hs
  | governorStep => exact upCluster_bounded hs
  | powerGood => exact powerUp_bounded
  | powerLoss => exact losePower_bounded
  | stageFEntry => exact enterF_bounded hs
  | stageMEntry => exact enterM_bounded hs
  | stageAEntry => exact enterA_bounded hs
  | sessionOpen => exact ite_bounded (sessionOpen_bounded hs) hs
  | sessionRound => exact onSess_bounded hs (roundStart_bounded hs)
  | sessionDraft => exact sessionDraft_bounded hs
  | sessionVerify => exact sessionVerify_bounded hs
  | sessionDecide => exact sessionDecide_bounded hs
  | sessionCommit => exact sessionCommit_bounded hs
  | outputEntryWrite => exact outputEntry_bounded hs
  | sessionClose => exact sessionClose_bounded hs
  | configSpaceWrite => exact configWrite_bounded hs
  | pcieCompletion => exact execPcieCompletion_bounded hs
  | completionTimeout => exact execCompletionTimeout_bounded hs
  | shootdownTimeout => exact loseShoot_bounded hs

theorem wordTurn_bounded {s} (hs : s.Bounded) : OutBounded (wordTurn s) := by
  unfold wordTurn
  dsimp only
  split
  · exact fatalHere_bounded (fetchReport_bounded hs)
  · refine out_ite_bounded (fatalHere_bounded hs) ?_
    split
    · exact fatalHere_bounded hs
    · exact exec_bounded hs

theorem engineTurn_bounded {core g s} (hs : s.Bounded) : OutBounded (engineTurn core g s) := by
  unfold engineTurn
  refine out_ite_bounded trivial ?_
  extract_lets s1 e
  have h1 : s1.Bounded := onEng_bounded hs
  refine out_ite_bounded h1 ?_
  split
  · exact headerStep_bounded h1
  · exact out_ite_bounded (retireTile_bounded h1) (out_ite_bounded (afterWord_bounded h1) (wordTurn_bounded h1))

theorem partTurn_bounded {core g i s} (hs : s.Bounded) : OutBounded (partTurn core g i s) := by
  unfold partTurn
  extract_lets mark
  have hmark {n} {s : State} (hs : s.Bounded) : (mark n s).Bounded := by
    have h : (upCurEng (onEng s core g) fun e => { e with reply := { e.reply with part := n } }).Bounded :=
      upCurEng_bounded (onEng_bounded hs) fun he => he
    exact h.crew
  refine out_ite_bounded trivial (out_ite_bounded ?_ hs)
  split
  · next ht => exact hmark ((engineTurn_bounded (hmark hs)).next ht)
  · exact engineTurn_bounded (hmark hs)

theorem takeTurn_bounded {t s} (hs : s.Bounded) : OutBounded (takeTurn t s) := by
  cases t with
  | engine core g => exact engineTurn_bounded hs
  | assayer u => exact out_ite_bounded (asyTurn_bounded hs) hs
  | perform core k => exact performNth_bounded hs
  | move core q => exact moveTurn_bounded hs
  | answer => exact sendAnswers_bounded hs
  | dram pa lost => exact dramError_bounded hs
  | scan blk => exact mountScan_bounded hs
  | part core g i => exact partTurn_bounded hs
  | event i => exact out_ite_bounded (exec_bounded hs) hs

/-- Settles O59: every helper of the step keeps the bounds; the words, the engines' turns and the events follow. -/
theorem everyStepKeepsBounds : Obligations.EveryStepKeepsBounds := fun _ _ hs ht =>
  (takeTurn_bounded (nextTurn_bounded hs)).next ht

end Sys2Proof.Machine
end

section
/-! PROOFS. The retirement of engines, cores and teams for a tile, and deadlocks of tokens (R32, R37, R44, R218). -/
namespace Sys2Proof.Machine

variable {s : State} {tid : Nat}

/-! ## Cores, teams and queues through the steps that end a tile -/

/-- Cores, teams and queues are as before. -/
def SameCrews (s t : State) : Prop := t.cores = s.cores ∧ t.teams = s.teams ∧ t.queues = s.queues

theorem OnlyMem.sameCrews {t : State} (h : OnlyMem s t) : SameCrews s t :=
  ⟨h.field State.cores fun _ _ _ _ => rfl, h.field State.teams fun _ _ _ _ => rfl, h.field State.queues fun _ _ _ _ => rfl⟩

theorem sameCrews_devReport (addr blocks : Nat) : SameCrews s (devReport s addr blocks) := by
  unfold devReport holdReport
  split <;> [exact ⟨rfl, rfl, rfl⟩; split <;> exact ⟨rfl, rfl, rfl⟩]

theorem sameCrews_decodeFail (k : Nat) : SameCrews s (decodeFail s k) := by
  unfold decodeFail
  split <;> exact ⟨rfl, rfl, rfl⟩

theorem sameCrews_devWrite (w : Who) (addr : Nat) (l : List Byte) : SameCrews s (devWrite s w addr l) := by
  unfold devWrite
  split
  · exact ⟨rfl, rfl, rfl⟩
  · split
    · next k _ =>
      obtain ⟨hc, ht, hq⟩ := sameCrews_decodeFail (s := s) k
      obtain ⟨hc', ht', hq'⟩ := sameCrews_devReport (s := decodeFail s k) (addr + List.idxOf k _) (badWriteBlocks s addr _)
      exact ⟨hc'.trans hc, ht'.trans ht, hq'.trans hq⟩
    · exact (onlyMem_writeMem s _).sameCrews

/-- A change of each of some cores leaves what it leaves of one core. -/
theorem coreAt_foldl_upCore {α : Type} {f : Core → Core} (F : Core → α) (hF : ∀ c, F (f c) = F c) (l : List Nat) (n : Nat) :
    F (coreAt (l.foldl (fun s n => upCore s n f) s) n) = F (coreAt s n) :=
  foldl_rel (R := fun s t => F (coreAt t n) = F (coreAt s n)) (fun _ => rfl) (fun _ _ _ h k => k.trans h) (fun s b => by
    rw [coreAt_upCore]
    split
    · next h => subst h; exact hF _
    · rfl) l s

theorem teams_foldl_upCore (f : Core → Core) (l : List Nat) : (l.foldl (fun s n => upCore s n f) s).teams = s.teams :=
  foldl_rel (R := fun s t => t.teams = s.teams) (f := fun s n => upCore s n f) (fun _ => rfl) (fun _ _ _ h k => k.trans h) (fun _ _ => rfl) l s

theorem queues_foldl_upCore (f : Core → Core) (l : List Nat) : (l.foldl (fun s n => upCore s n f) s).queues = s.queues :=
  foldl_rel (R := fun s t => t.queues = s.queues) (f := fun s n => upCore s n f) (fun _ => rfl) (fun _ _ _ h k => k.trans h) (fun _ _ => rfl) l s

/-! ## The tiles done, counted from the first -/

theorem le_prefixFrom (done : List Nat) (f n : Nat) : n ≤ prefixFrom done f n := by
  induction f generalizing n with
  | zero => exact Nat.le_refl n
  | succ f ih =>
    unfold prefixFrom
    split
    · exact Nat.le_of_succ_le (ih (n + 1))
    · exact Nat.le_refl n

theorem lt_prefixFrom_of_mem {done : List Nat} {n : Nat} (f : Nat) (h : n ∈ done) : n < prefixFrom done (f + 1) n := by
  rw [prefixFrom, if_pos (by simpa using h)]
  exact le_prefixFrom done f (n + 1)

/-- A record with one more tile done. -/
def noteTile (r : Rec) (tile : Nat) : Rec :=
  { r with doneSet := (tile :: r.doneSet).filter (fun n => decide (prefixFrom (tile :: r.doneSet) (tile :: r.doneSet).length r.prefixN ≤ n)),
           prefixN := prefixFrom (tile :: r.doneSet) (tile :: r.doneSet).length r.prefixN }

theorem prefixN_noteTile (r : Rec) (tile : Nat) :
    r.prefixN ≤ (noteTile r tile).prefixN ∧ (tile = r.prefixN → r.prefixN < (noteTile r tile).prefixN) :=
  ⟨le_prefixFrom _ _ _, fun h => lt_prefixFrom_of_mem _ (h ▸ List.mem_cons_self)⟩

theorem recTileDone_of_none {q : Nat} (hr : (queueAt s q).rcd = none) (tile : Nat) : recTileDone s q tile = s := by
  unfold recTileDone
  dsimp only
  rw [hr]

/-- A tile done is noted in its queue's record; cores, teams and queues are otherwise as before. -/
theorem sameCrews_recTileDone {q : Nat} {r : Rec} (hr : (queueAt s q).rcd = some r) (tile : Nat) :
    SameCrews (upQueue s q fun x => { x with rcd := some (noteTile r tile) }) (recTileDone s q tile) := by
  unfold recTileDone
  dsimp only
  rw [hr]
  dsimp only
  split
  · exact ⟨rfl, rfl, rfl⟩
  · exact sameCrews_devWrite _ _ _

theorem crew_recTileDone (q tile : Nat) : (recTileDone s q tile).cores = s.cores ∧ (recTileDone s q tile).teams = s.teams := by
  cases hr : (queueAt s q).rcd with
  | none => rw [recTileDone_of_none hr]; exact ⟨rfl, rfl⟩
  | some r =>
    obtain ⟨hc, ht, -⟩ := sameCrews_recTileDone hr tile
    exact ⟨hc, ht⟩

theorem rcd_recTileDone {q : Nat} {r : Rec} (hr : (queueAt s q).rcd = some r) (tile : Nat) :
    (queueAt (recTileDone s q tile) q).rcd = some (noteTile r tile) := by
  obtain ⟨-, -, hq⟩ := sameCrews_recTileDone hr tile
  rw [queueAt, hq]
  exact congrArg Queue.rcd ((queueAt_upQueue s q q _).trans (if_pos rfl))

/-! ## A team set free -/

theorem tid_vacateIf (m n : Nat) : (coreAt (if (coreAt s m).tid = tid then upCore s m vacate else s) n).tid =
    if m = n ∧ (coreAt s n).tid = tid then 0x3FF else (coreAt s n).tid := by
  by_cases hm : m = n
  · subst hm
    by_cases ht : (coreAt s m).tid = tid <;> simp [ht, vacate]
  · split <;> simp [hm]

/-- The loop of a team's cores leaves each that is of the team, or of none, without a team. -/
theorem tid_vacated (l : List Nat) {n : Nat} (h : (coreAt s n).tid = 0x3FF ∨ n ∈ l ∧ (coreAt s n).tid = tid) :
    (coreAt (l.foldl (fun s n => if (coreAt s n).tid = tid then upCore s n vacate else s) s) n).tid = 0x3FF := by
  induction l generalizing s with
  | nil => simpa using h
  | cons m l ih =>
    refine ih ?_
    rw [tid_vacateIf]
    rcases h with h | ⟨hmem, ht⟩
    · exact .inl (by rw [h, ite_self])
    · by_cases hm : m = n
      · exact .inl (if_pos ⟨hm, ht⟩)
      · rw [if_neg fun h => hm h.1]
        exact .inr ⟨(List.mem_cons.mp hmem).resolve_left (Ne.symm hm), ht⟩

theorem queues_vacated (l : List Nat) :
    (l.foldl (fun s n => if (coreAt s n).tid = tid then upCore s n vacate else s) s).queues = s.queues :=
  foldl_rel (R := fun s t => t.queues = s.queues) (f := fun s n => if (coreAt s n).tid = tid then upCore s n vacate else s)
    (fun _ => rfl) (fun _ _ _ h k => k.trans h) (fun s n => by split <;> rfl) l s

theorem keepCores_crew (x : Team) : (keepCores s x).cores = s.cores ∧ (keepCores s x).queues = s.queues := by
  unfold keepCores
  split <;> exact ⟨rfl, rfl⟩

/-- A team set free is gone, its cores are of no team, and the queues are as before. -/
theorem freeTeam_spec (s : State) (tid : Nat) : teamAt (freeTeam s tid) tid = {} ∧
    (∀ n ∈ (teamAt s tid).cores, (coreAt s n).tid = tid → (coreAt (freeTeam s tid) n).tid = 0x3FF) ∧ (freeTeam s tid).queues = s.queues := by
  obtain ⟨hc, hq⟩ := keepCores_crew (s := s) (teamAt s tid)
  have hcore (n : Nat) : coreAt (dropKept (keepCores s (teamAt s tid)) (.team tid)) n = coreAt s n := congrArg (fun m => SMap.get ({} : Core) m n) hc
  refine ⟨(teamAt_setTeam _ _ _ _).trans (if_pos rfl), fun n hn ht => ?_, (queues_vacated _).trans hq⟩
  exact tid_vacated _ (.inr ⟨hn, by rw [hcore, ht]⟩)

/-! ## A tile complete -/

/-- A core's end of the tile: its FIFOs and the path queues of V, M and H emptied. -/
def emptied (c : Core) : Core :=
  { c with fifos := [], ev := { c.ev with pathq := [] }, em := { c.em with pathq := [] }, eh := { c.eh with pathq := [] } }

theorem tileComplete_of_not (h : tid = 0x3FE ∨ ∃ n ∈ (teamAt s tid).cores, coreFinished (coreAt s n) = false) :
    tileComplete s tid = s := by
  refine if_neg fun ⟨htid, hall⟩ => ?_
  rcases h with h | ⟨n, hn, hf⟩
  · exact htid h
  · exact absurd (List.all_eq_true.mp hall n hn) (by simp [hf])

/-- The end of a team's tile: the team goes free where no command and no store is left. -/
theorem tileComplete_spec (h0 : tid ≠ 0x3FE) (hfin : ∀ n ∈ (teamAt s tid).cores, coreFinished (coreAt s n) = true)
    (hst : (teamAt s tid).st = .running) (hdr : ∀ n ∈ (teamAt s tid).cores, coreDrained (coreAt s n) = true ∧ (coreAt s n).tid = tid) :
    teamAt (tileComplete s tid) tid = {} ∧ (∀ n ∈ (teamAt s tid).cores, (coreAt (tileComplete s tid) n).tid = 0x3FF) ∧
    ∀ r, (queueAt s (teamAt s tid).queue).rcd = some r →
      (queueAt (tileComplete s tid) (teamAt s tid).queue).rcd = some (noteTile r (teamAt s tid).tile) := by
  let u := (teamAt s tid).cores.foldl (fun s n => upCore s n emptied) s
  let v := recTileDone u (teamAt s tid).queue (teamAt s tid).tile
  have hv : tileComplete s tid = finishTeam v tid := if_pos ⟨h0, List.all_eq_true.mpr hfin⟩
  obtain ⟨hvc, hvt⟩ := crew_recTileDone (s := u) (teamAt s tid).queue (teamAt s tid).tile
  have hteam : teamAt v tid = teamAt s tid := congrArg (fun m => SMap.get ({} : Team) m tid) (hvt.trans (teams_foldl_upCore emptied _))
  have hcore {α : Type} (F : Core → α) (hF : ∀ c, F (emptied c) = F c) (n : Nat) : F (coreAt v n) = F (coreAt s n) :=
    (congrArg (fun m => F (SMap.get ({} : Core) m n)) hvc).trans (coreAt_foldl_upCore F hF _ n)
  have hfree : finishTeam v tid = freeTeam v tid := by
    unfold finishTeam
    dsimp only
    rw [hteam, hst]
    refine if_pos ⟨h0, List.all_eq_true.mpr fun n hn => ?_, List.all_eq_true.mpr fun n hn => ?_⟩
    · rw [hcore coreDrained fun _ => rfl]
      exact (hdr n (List.mem_filter.mp hn).1).1
    · rw [hcore coreFinished fun _ => rfl]
      exact hfin n (List.mem_filter.mp hn).1
  obtain ⟨hgone, hvac, hq⟩ := freeTeam_spec v tid
  rw [hv, hfree]
  refine ⟨hgone, fun n hn => hvac n (hteam ▸ hn) ((hcore Core.tid (fun _ => rfl) n).trans (hdr n hn).2), fun r hr => ?_⟩
  rw [queueAt, hq]
  refine rcd_recTileDone (s := u) ?_ _
  rw [queueAt, queues_foldl_upCore]
  exact hr

/-! ## A core's lease released, an engine retired -/

theorem releaseCore_crew (core n : Nat) : (teamAt (releaseCore s core) n).cores = (teamAt s n).cores ∧
    (teamAt (releaseCore s core) n).queue = (teamAt s n).queue ∧ (teamAt (releaseCore s core) n).tile = (teamAt s n).tile ∧
    (teamAt (releaseCore s core) n).st = (teamAt s n).st ∧ (releaseCore s core).queues = s.queues := by
  unfold releaseCore
  dsimp only
  split
  · split
    · rw [teamAt_upTeam]
      split
      · next h => subst h; exact ⟨rfl, rfl, rfl, rfl, rfl⟩
      · exact ⟨rfl, rfl, rfl, rfl, rfl⟩
    · unfold dropLease
      dsimp only
      split <;> exact ⟨rfl, rfl, rfl, rfl, rfl⟩
  · exact ⟨rfl, rfl, rfl, rfl, rfl⟩

/-- What the retirement at the end of an engine's own end section comes to (R32, R44, R218). -/
theorem retireTile_of_end {core : Nat} {g : Eng} {x : Sec} (hx : (engSt (coreAt s core) g).sec = some x) (hk : x.kind = 4)
    (hpc : secEnd x ≤ (engSt (coreAt s core) g).pc) (hr : (engSt (coreAt s core) g).retired = false)
    (hp : (engSt (coreAt s core) g).pushpend = false) :
    let a := upCore s core (fun c => upEng c g (fun e =>
      { retireSec e (secEnd x) with retired := true, wait := { kind := 14, since := s.tick % 2 ^ 32 }, pathq := [] }))
    retireTile s core g = if coreFinished (coreAt a core) then
      tileComplete (releaseCore (upCore a core (fun c => { c with npre := false, npt0 := 0 })) core) (coreAt s core).tid else a := by
  unfold retireTile
  dsimp only
  rw [hx]
  exact if_pos ⟨hk, hpc, by simp [hr], by simp [hp]⟩

theorem enginesRetireForTile : Claim.TilesComplete := by
  intro s core g x e a tid b hx hk hpc hr hp
  have hret : exec (.retireForTile core g) s = .next (if coreFinished (coreAt a core) then tileComplete b tid else a) :=
    congrArg Host.Outcome.next (retireTile_of_end hx hk hpc hr hp)
  obtain ⟨hcores, hqueue, htile, hst, hqs⟩ : (teamAt b tid).cores = (teamAt s tid).cores ∧ (teamAt b tid).queue = (teamAt s tid).queue ∧
      (teamAt b tid).tile = (teamAt s tid).tile ∧ (teamAt b tid).st = (teamAt s tid).st ∧ b.queues = s.queues := releaseCore_crew _ _
  refine ⟨fun hf => ?_, fun hf hn => ?_, fun hf h0 hall hrun hdr => ?_⟩
  · rw [hret, hf]; rfl
  · rw [hret, hf, if_pos rfl, tileComplete_of_not (hcores ▸ hn)]
  · obtain ⟨hgone, hvac, hrec⟩ := tileComplete_spec (s := b) h0 (hcores ▸ hall) (hst.trans hrun) (hcores ▸ hdr)
    rw [hqueue, htile] at hrec
    refine ⟨_, by rw [hret, hf, if_pos rfl], hgone, fun n hn => hvac n (hcores ▸ hn), fun r hrc => ?_⟩
    obtain ⟨hle, hlt⟩ := prefixN_noteTile r (teamAt s tid).tile
    exact ⟨_, hrec r (by rw [queueAt, hqs]; exact hrc), hle, hlt⟩

/-! ## Deadlocks of tokens -/

theorem allEngines_all (p : Eng → Bool) : [Eng.c, .v, .m, .h].all p = true ↔ ∀ g, p g = true := by
  refine ⟨fun h g => List.all_eq_true.mp h g (by cases g <;> decide), fun h => List.all_eq_true.mpr fun g _ => h g⟩

theorem tokenDeadlockEndsContext : Claim.TokenDeadlock := by
  intro s core c t k
  have hcond : (t.st == .running && !coreFinished c && [Eng.c, .v, .m, .h].all (stuck s core)) = true ↔
      t.st = .running ∧ coreFinished c = false ∧ ∀ g, stuck s core g = true := by
    simp only [Bool.and_eq_true, Bool.not_eq_true', beq_iff_eq, allEngines_all, and_assoc]
  refine ⟨fun hrun hf hst hid => ?_, fun h => ?_⟩
  · exact congrArg Host.Outcome.next ((if_pos (hcond.mpr ⟨hrun, hf, hst⟩)).trans (if_neg hid))
  · refine congrArg Host.Outcome.next (if_neg fun hall => ?_)
    obtain ⟨hrun, hf, hst⟩ := hcond.mp hall
    rcases h with h | h | ⟨g, hg⟩
    · exact h hrun
    · exact Bool.false_ne_true (hf.symm.trans h)
    · exact Bool.false_ne_true (hg.symm.trans (hst g))

/-- Settles O32: the retirement of an engine, of its core and of its team in turn, and the deadlock of four engines that wait. -/
theorem tilesComplete : Obligations.TilesComplete := ⟨enginesRetireForTile, tokenDeadlockEndsContext⟩

end Sys2Proof.Machine
end

section
/-! PROOFS. Section headers examined, steer targets popped and joins met (R20, R22–R29, R31). -/
namespace Sys2Proof.Machine

variable {s p : State} {h : Header} {core : Nat} {g : Eng}

/-! ## Bytes that a page mark leaves -/

/-- A line filled into the level cache leaves the bytes outside the apertures as they read. -/
theorem rdByte_fillLine (s : State) (x : Nat) {k : Nat} (hk : ¬ (apBase ≤ k ∧ k < apTop)) : rdByte (fillLine s x) k = rdByte s k := by
  by_cases hd : k < dramTop
  · rw [rdByte_dram _ k hd, rdByte_dram _ k hd]
    unfold fillLine
    extract_lets span
    generalize hl : ((((List.range span.2).map (fun i => span.1 + 4 * i)).filter _).map (fun a => (a / 4, some (rdWord s a)))) = l
    have hval (q : Nat × Option W32) (hq : q ∈ l) (hqk : q.1 = k / 4) : q.2 = some (rdWord s (k / 4 * 4)) := by
      rw [← hl] at hq
      obtain ⟨a, ha, rfl⟩ := List.mem_map.mp hq
      obtain ⟨i, -, rfl⟩ := List.mem_map.mp (List.mem_filter.mp ha).1
      have hspan : apBase ≤ span.1 ∨ span.1 % 4 = 0 := by
        simp only [span, fillSpan]
        split
        · exact .inl (Nat.le_add_right _ _)
        · exact .inr (by omega)
      dsimp only [apBase, dramTop] at hspan hd hqk
      rw [show span.1 + 4 * i = k / 4 * 4 by omega]
    have hword : lcWord { s with lc := SMap.setAll none s.lc l } k = some (rdWord s (k / 4 * 4)) ∨
        lcWord { s with lc := SMap.setAll none s.lc l } k = lcWord s k := by
      by_cases hmem : ∃ q ∈ l, q.1 = k / 4
      · exact .inl (get_setAll_of_mem _ _ _ _ hval _ hmem)
      · exact .inr (get_setAll_of_not_mem _ _ _ _ fun q hq hqk => hmem ⟨q, hq, hqk⟩)
    rcases hword with hword | hword
    · rw [rdDram, hword]
      refine (byteOfW32_wordOfBytes (fun i => rdByte s (k / 4 * 4 + i)) _ (Nat.mod_lt _ (by decide))).trans ?_
      rw [show k / 4 * 4 + k % 4 = k by omega, rdByte_dram s k hd]
    · rw [rdDram, hword]
      rfl
  · have hk' : ¬ k < apTop := fun h => hk ⟨Nat.le_of_not_lt hd, h⟩
    rw [rdByte_high _ k hk', rdByte_high _ k hk']
    rfl

theorem rdByte_fillAll (s : State) (l : List Nat) {k : Nat} (hk : ¬ (apBase ≤ k ∧ k < apTop)) : rdByte (fillAll s l) k = rdByte s k :=
  foldl_rel (R := fun s t => rdByte t k = rdByte s k) (fun _ => rfl) (fun _ _ _ h k => k.trans h) (fun s x => rdByte_fillLine s x hk) _ s

/-- Bytes written leave those that stand at none of their places. -/
theorem rdByte_writeMem_ne (s : State) (l : List (Nat × Byte)) {k : Nat} (hk : ¬ (apBase ≤ k ∧ k < apTop)) (hl : ∀ q ∈ l, q.1 ≠ k) :
    rdByte (writeMem s l) k = rdByte s k :=
  (rdByte_wrBytes_ne l _ k hk hl).trans (rdByte_fillAll s _ hk)

/-- Memory marked at the text's pages alone (R364). -/
def TextMarked (p t : State) : Prop := OnlyMem p t ∧ ∀ k, held k → ¬ textMark p k → rdByte t k = rdByte p k

theorem textMarked_noteTextPage {t : State} (ht : TextMarked p t) (off : Nat) : TextMarked p (noteTextPage t off) := by
  obtain ⟨hm, hb⟩ := ht
  have hw : curWho t .core = curWho p .core := hm.field (curWho · .core) fun _ _ _ _ => rfl
  have he : htAt t (curWho t .core).part (curWho t .core).ctx (curTeam t).text = htAt p (curWho p .core).part (curWho p .core).ctx (curTeam p).text :=
    hm.field (fun s => htAt s (curWho s .core).part (curWho s .core).ctx (curTeam s).text) fun _ _ _ _ => rfl
  unfold noteTextPage
  dsimp only
  rw [he]
  split
  · exact ⟨hm, hb⟩
  · next e hent =>
    split <;> [skip; exact ⟨hm, hb⟩]
    unfold markPte
    split
    · exact ⟨hm, hb⟩
    · exact ⟨.trans _ _ _ hm (onlyMem_writeMem t _), fun k hk hmark => (rdByte_writeMem_ne t _ hk.1 fun q hq hqk =>
        hmark ⟨e, off, hent, hqk ▸ (congrArg Prod.fst (List.mem_singleton.mp hq)).symm ▸ rfl⟩).trans (hb k hk hmark)⟩

theorem textMarked_noteText (p : State) (off n : Nat) : TextMarked p (noteText p off n) :=
  List.foldlRecOn _ _ ⟨.refl p, fun _ _ _ => rfl⟩ fun _ ht _ _ => textMarked_noteTextPage ht _

/-! ## What an engine does at a header -/

/-- The section that a header at the executing engine's PC opens. -/
def secAt (p : State) (h : Header) : Sec := { off := (curEng p).pc, kind := h.kind, tag := h.tag, len := h.len }

/-- An engine's act at a well-formed header that it may start, skip or wait at (R23, R25, R28, R31). -/
def headerRule (p : State) (h : Header) : HAct :=
  let g := p.cur.eng
  let e := curEng p
  let own := h.tag == engNum g
  if h.kind = 3 then
    if own then
      if (others g).all (fun o => (engSt (curCore p) o).retired || atHeader (engSt (curCore p) o) e.pc e.sc) then
        .start (secAt p h) h else .wait 6 0 e.pc
    else if 0 < scDiff (engSt (curCore p) (engOfNum h.tag)).sc e.sc then .rejoin (secEnd (secAt p h)) else .wait 6 0 e.pc
  else if h.kind = 1 && !own then
    if e.pathq.isEmpty then .wait 3 0 0 else .target
  else if !own then .skip (secEnd (secAt p h))
  else match secWait (curCore p) g h with
    | some q => .wait 4 (engNum q.1) q.2.toNat
    | none => .start (secAt p h) h

theorem jlast_bind_of_ne {c : Core} {e : EngSt} (hj : ∀ n, c.jlast ≠ some (e.pc, e.sc, n)) :
    (c.jlast.bind fun j => if e.pc == j.1 && e.sc == j.2.1 then some j.2.2 else none) = none := by
  refine Option.bind_eq_none_iff.mpr fun j hc => if_neg fun hb => ?_
  obtain ⟨hpc, hsc⟩ := Bool.and_eq_true_iff.mp hb
  refine hj j.2.2 ?_
  rw [hc, beq_iff_eq.mp hpc, beq_iff_eq.mp hsc]

theorem jlast_bind_of_eq {c : Core} {e : EngSt} {n : Nat} (hj : c.jlast = some (e.pc, e.sc, n)) :
    (c.jlast.bind fun j => if e.pc == j.1 && e.sc == j.2.1 then some j.2.2 else none) = some n := by
  rw [hj]
  exact if_pos (Bool.and_eq_true_iff.mpr ⟨beq_self_eq_true _, beq_self_eq_true _⟩)

theorem headerAct_of_headerAt (H : HeaderAt p h) : headerAct p = headerRule p h := by
  obtain ⟨-, hj, hslip, hok, l, hf, rfl⟩ := H
  unfold headerAct
  dsimp only
  rw [jlast_bind_of_ne (e := engSt (curCore p) p.cur.eng) hj, show fetchText p (engSt (curCore p) p.cur.eng).pc 8 = .ok l from hf]
  dsimp only
  rw [hok, hslip]
  rfl

theorem headerAct_of_badHeader {l : List Byte} (hj : ∀ n, (curCore p).jlast ≠ some ((curEng p).pc, (curEng p).sc, n))
    (hf : fetchText p (curEng p).pc 8 = .ok l) (hok : headerOk (headerOf (leNat l)) = false) : headerAct p = .fault fIllegal (leNat l) := by
  unfold headerAct
  dsimp only
  rw [jlast_bind_of_ne (e := engSt (curCore p) p.cur.eng) hj, show fetchText p (engSt (curCore p) p.cur.eng).pc 8 = .ok l from hf]
  dsimp only
  rw [hok]
  rfl

theorem headerAct_of_jlast {n : Nat} (hj : (curCore p).jlast = some ((curEng p).pc, (curEng p).sc, n)) : headerAct p = .rejoin n := by
  unfold headerAct
  dsimp only
  rw [jlast_bind_of_eq (e := engSt (curCore p) p.cur.eng) hj]

/-- A steer header is C's. -/
theorem tag_of_steer (H : HeaderAt p h) (hk : h.kind = 1) : h.tag = 0 := by
  obtain ⟨-, -, -, hok, -⟩ := H
  simp only [headerOk, hk, Bool.and_eq_true] at hok
  simpa using hok.1.2

section
variable (H : HeaderAt p h)
include H

theorem headerAct_skip (hk : h.kind ≠ 3) (ht : h.tag ≠ engNum p.cur.eng) (h1 : h.kind ≠ 1) : headerAct p = .skip (secEnd (secAt p h)) := by
  rw [headerAct_of_headerAt H, headerRule]
  simp only [hk, h1, beq_eq_false_iff_ne.mpr ht]
  rfl

theorem headerAct_steer (hk : h.kind = 1) (hc : p.cur.eng ≠ .c) :
    headerAct p = if (curEng p).pathq.isEmpty then .wait 3 0 0 else .target := by
  have ht : h.tag ≠ engNum p.cur.eng := by
    rw [tag_of_steer H hk]
    revert hc
    cases p.cur.eng <;> decide
  rw [headerAct_of_headerAt H, headerRule]
  simp only [hk, beq_eq_false_iff_ne.mpr ht]
  rfl

theorem headerAct_own (hk : h.kind ≠ 3) (ht : h.tag = engNum p.cur.eng) (hw : secWait (curCore p) p.cur.eng h = none) :
    headerAct p = .start (secAt p h) h := by
  rw [headerAct_of_headerAt H, headerRule]
  simp only [hk, ht, hw, beq_self_eq_true, Bool.not_true, Bool.and_false]
  rfl

theorem headerAct_ownWait (hk : h.kind ≠ 3) (ht : h.tag = engNum p.cur.eng) {o : Eng} {n : W32}
    (hw : secWait (curCore p) p.cur.eng h = some (o, n)) : headerAct p = .wait 4 (engNum o) n.toNat := by
  rw [headerAct_of_headerAt H, headerRule]
  simp only [hk, ht, hw, beq_self_eq_true, Bool.not_true, Bool.and_false]
  rfl

theorem headerAct_ownJoin (hk : h.kind = 3) (ht : h.tag = engNum p.cur.eng) : headerAct p =
    if (others p.cur.eng).all (fun o => (engSt (curCore p) o).retired || atHeader (engSt (curCore p) o) (curEng p).pc (curEng p).sc) then
      .start (secAt p h) h else .wait 6 0 (curEng p).pc := by
  rw [headerAct_of_headerAt H, headerRule]
  simp only [hk, ht, beq_self_eq_true, if_true]

theorem headerAct_otherJoin (hk : h.kind = 3) (ht : h.tag ≠ engNum p.cur.eng) : headerAct p =
    if 0 < scDiff (engSt (curCore p) (engOfNum h.tag)).sc (curEng p).sc then .rejoin (secEnd (secAt p h)) else .wait 6 0 (curEng p).pc := by
  rw [headerAct_of_headerAt H, headerRule]
  simp only [hk, beq_eq_false_iff_ne.mpr ht, if_true]
  rfl
end

theorem mem_others (g o : Eng) : o ∈ others g ↔ o ≠ g := by
  cases g <;> cases o <;> decide

/-- The test of a join's own engine: every other stands at the header or has retired. -/
theorem all_others (g : Eng) (q : Eng → Bool) : (others g).all q = true ↔ ∀ o, o ≠ g → q o = true := by
  simp only [List.all_eq_true, mem_others]

/-! ## What the act does -/

theorem headerStep_wait {k d o : Nat} (ha : headerAct p = .wait k d o) : headerStep p = upCurEng p (fun e => waitOn p.tick e k d o) := by
  rw [headerStep, ha]

theorem headerStep_skip {n : Nat} (ha : headerAct p = .skip n) : headerStep p = upCurEng p (fun e => retireSec (noWait e) n) := by
  rw [headerStep, ha]

theorem headerStep_target (ha : headerAct p = .target) : headerStep p = upCurEng p popTarget := by
  rw [headerStep, ha]

theorem headerStep_rejoin {n : Nat} (ha : headerAct p = .rejoin n) :
    headerStep p = upCurEng p (fun e => { retireSec (noWait e) n with seen := clkJoin e.seen (curCore p).jseen }) := by
  rw [headerStep, ha]

/-- An engine that starts a section: its decision about an arm is made, and a join's own engine sees all that preceded. -/
def started (p : State) (x : Sec) (h : Header) (e : EngSt) : EngSt :=
  if x.kind = 3 then { startSec e x h with seen := joinSeen (curCore p) } else startSec e x h

theorem headerStep_start {x : Sec} (ha : headerAct p = .start x h) :
    headerStep p = upCurEng (noteText p x.off (8 + 12 * x.len)) (started p x h) := by
  rw [headerStep, ha]
  rfl

theorem coreRest_upEng (c : Core) (g : Eng) (f : EngSt → EngSt) : coreRest (upEng c g f) = coreRest c := by
  cases g <;> rfl

theorem joinKept_upEng (c : Core) (g : Eng) (f : EngSt → EngSt) : joinKept c (upEng c g f) := by
  cases g <;> exact ⟨rfl, rfl, rfl, rfl⟩

/-- A section started: the text's pages marked, the engine changed, and nothing else of its core and of memory. -/
theorem headerStep_start_spec {x : Sec} (ha : headerAct p = .start x h) :
    curEng (headerStep p) = started p x h (curEng p) ∧ coreRest (curCore (headerStep p)) = coreRest (curCore p) ∧
    joinKept (curCore p) (curCore (headerStep p)) ∧ ∀ k, held k → ¬ textMark p k → rdByte (headerStep p) k = rdByte p k := by
  obtain ⟨hm, hb⟩ := textMarked_noteText p x.off (8 + 12 * x.len)
  have hc : curCore (noteText p x.off (8 + 12 * x.len)) = curCore p := hm.field curCore fun _ _ _ _ => rfl
  have he : curEng (noteText p x.off (8 + 12 * x.len)) = curEng p := hm.field curEng fun _ _ _ _ => rfl
  rw [headerStep_start ha]
  refine ⟨by rw [curEng_upCurEng, he], ?_, ?_, hb⟩
  · rw [curCore_upCurEng, hc, coreRest_upEng]
  · rw [curCore_upCurEng, hc]
    exact joinKept_upEng _ _ _

theorem upCurEng_congr {f k : EngSt → EngSt} (hf : f (curEng p) = k (curEng p)) : upCurEng p f = upCurEng p k :=
  congrArg (fun e => setCore p p.cur.core (setEngSt (curCore p) p.cur.eng e)) hf

/-! ## The events -/

theorem exec_examine (hat : atText (onEng s core g) = true) :
    exec (.sectionHeaderExamine core g) s = .next (headerStep (onEng s core g)) := congrArg Host.Outcome.next (if_pos hat)

theorem headersAreExamined : Claim.HeadersAreExamined := by
  intro s core g p pc
  refine ⟨fun hat => congrArg Host.Outcome.next (if_neg (Bool.eq_false_iff.mp hat)), fun l hat hj hf hok => ?_, fun h H hk => ⟨fun ht h1 => ?_,
    fun ht hw => ?_, fun o n ht hw => ?_⟩⟩
  · rw [exec_examine hat, headerStep, headerAct_of_badHeader hj hf hok]
    rfl
  · exact ⟨_, exec_examine H.1, headerStep_skip (headerAct_skip H hk ht h1)⟩
  · obtain ⟨he, hrest, hjoin, hb⟩ := headerStep_start_spec (headerAct_own H hk ht hw)
    rw [started, if_neg (show ¬ (secAt p h).kind = 3 from hk)] at he
    refine ⟨_, exec_examine H.1, by rw [he]; rfl, by rw [he]; rfl, by rw [he]; rfl, by rw [he]; rfl, fun h2 => ?_, hrest, hjoin, hb⟩
    rw [he]
    simp only [startSec, secAt, h2]
    rfl
  · rw [exec_examine H.1, headerStep_wait (headerAct_ownWait H hk ht hw)]

/-- The act at a header for which an event of the machine is there is done by that event. -/
theorem exec_steerTargetPop (hat : atText (onEng s core g) = true) (ha : headerAct (onEng s core g) = .target) :
    exec (.steerTargetPop core g) s = .next (headerStep (onEng s core g)) :=
  congrArg Host.Outcome.next ((if_pos hat).trans (by rw [ha]))

theorem exec_steerTargetPop_wait (hat : atText (onEng s core g) = true) {k d o : Nat} (ha : headerAct (onEng s core g) = .wait k d o) :
    exec (.steerTargetPop core g) s = .next (onEng s core g) :=
  congrArg Host.Outcome.next ((if_pos hat).trans (by rw [ha]))

theorem exec_joinRendezvous_start (hat : atText (onEng s core g) = true) {x : Sec} (ha : headerAct (onEng s core g) = .start x h)
    (hx : x.kind = 3) : exec (.joinRendezvous core g) s = .next (headerStep (onEng s core g)) :=
  congrArg Host.Outcome.next ((if_pos hat).trans (by rw [ha]; exact if_pos hx))

theorem exec_joinRendezvous_rejoin (hat : atText (onEng s core g) = true) {n : Nat} (ha : headerAct (onEng s core g) = .rejoin n) :
    exec (.joinRendezvous core g) s = .next (headerStep (onEng s core g)) :=
  congrArg Host.Outcome.next ((if_pos hat).trans (by rw [ha]))

theorem exec_joinRendezvous_wait (hat : atText (onEng s core g) = true) {k d o : Nat} (ha : headerAct (onEng s core g) = .wait k d o) :
    exec (.joinRendezvous core g) s = .next (onEng s core g) :=
  congrArg Host.Outcome.next ((if_pos hat).trans (by rw [ha]))

theorem targetsAndJoins : Claim.TargetsAndJoins := by
  intro s core g h p e
  refine ⟨fun n hat hj => ?_, fun H => ⟨fun hk hc tgt rest hq => ?_, fun hk hc hq => ?_, fun hk ht hall => ?_, fun hk ht hall => ?_,
    fun hk ht => ⟨fun hsc => ?_, fun hsc => ?_⟩⟩⟩
  · have ha := headerAct_of_jlast hj
    refine ⟨_, exec_joinRendezvous_rejoin hat ha, ?_⟩
    rw [headerStep_rejoin ha, curEng_upCurEng]
    exact ⟨rfl, rfl, rfl, rfl⟩
  · have ha := headerAct_steer H hk hc
    rw [hq] at ha
    refine ⟨_, exec_steerTargetPop H.1 ha, ?_⟩
    rw [headerStep_target ha]
    refine upCurEng_congr ?_
    rw [popTarget, hq]
    rfl
  · have ha := headerAct_steer H hk hc
    rw [hq] at ha
    exact ⟨exec_steerTargetPop_wait H.1 ha, (exec_examine H.1).trans (congrArg Host.Outcome.next (headerStep_wait ha))⟩
  · have ha := (headerAct_ownJoin H hk ht).trans (if_pos ((all_others _ _).mpr fun o ho => Bool.or_eq_true_iff.mpr (hall o ho)))
    obtain ⟨he, -⟩ := headerStep_start_spec ha
    rw [started, if_pos (show (secAt p h).kind = 3 from hk)] at he
    refine ⟨_, exec_joinRendezvous_start H.1 ha hk, by rw [he]; rfl, ?_, by rw [he]⟩
    rw [he]
    simp only [startSec, secAt, hk]
    rfl
  · have ha := (headerAct_ownJoin H hk ht).trans
      (if_neg fun h => hall fun o ho => Bool.or_eq_true_iff.mp ((all_others _ _).mp h o ho))
    exact exec_joinRendezvous_wait H.1 ha
  · have ha := (headerAct_otherJoin H hk ht).trans (if_pos hsc)
    refine ⟨_, exec_joinRendezvous_rejoin H.1 ha, ?_⟩
    rw [headerStep_rejoin ha, curEng_upCurEng]
    exact ⟨rfl, rfl, rfl, rfl⟩
  · exact exec_joinRendezvous_wait H.1 ((headerAct_otherJoin H hk ht).trans (if_neg (not_lt.mpr hsc)))

/-- Settles O31: the one rule for the header at an engine's PC, case by case, and the three events that act on it. -/
theorem sectionsAreEntered : Obligations.SectionsAreEntered := ⟨headersAreExamined, targetsAndJoins⟩

end Sys2Proof.Machine
end

section
/-! PROOFS. What the issue and the retirement of a word leave of its core (R29, R34, R39): all but its engine's block, FIFOs and what
the end of a join section settles. The frames of the words that write a register build on it. -/
namespace Sys2Proof.Machine

variable {s t u : State} {c d x : Core} {g : Eng} {h : Hd} {w : WordDef}

/-! ## A core through the issue and the retirement of a word -/

/-- Whether an engine executes the body of a join section. -/
def inJoin (e : EngSt) : Bool := e.sec.any fun x => x.kind == 3

/-- A core that differs in its FIFOs, in the block of engine `g` but for the predicates, and, where `g` executes a join section, in
what the end of that section settles. -/
def CoreMoved (g : Eng) (c d : Core) : Prop :=
  ∃ fi jl js tn ts e, d = setEngSt { c with fifos := fi, jlast := jl, jseen := js, tnew := tn, tsync := ts } g e ∧
    e.preds = (engSt c g).preds ∧
    (inJoin (engSt c g) = false → inJoin e = false ∧ jl = c.jlast ∧ js = c.jseen ∧ tn = c.tnew ∧ ts = c.tsync)

theorem CoreMoved.refl (g : Eng) (c : Core) : CoreMoved g c c :=
  ⟨_, _, _, _, _, engSt c g, by cases g <;> rfl, rfl, fun hj => ⟨hj, rfl, rfl, rfl, rfl⟩⟩

theorem CoreMoved.trans (h1 : CoreMoved g c d) (h2 : CoreMoved g d x) : CoreMoved g c x := by
  obtain ⟨fi, jl, js, tn, ts, e, rfl, hp, hj⟩ := h1
  obtain ⟨fi', jl', js', tn', ts', e', rfl, hp', hj'⟩ := h2
  rw [engSt_setEngSt, if_pos rfl] at hp' hj'
  refine ⟨fi', jl', js', tn', ts', e', by cases g <;> rfl, hp'.trans hp, fun hc => ?_⟩
  obtain ⟨he, rfl, rfl, rfl, rfl⟩ := hj hc
  obtain ⟨he', h1, h2, h3, h4⟩ := hj' he
  refine ⟨he', h1.trans ?_, h2.trans ?_, h3.trans ?_, h4.trans ?_⟩ <;> cases g <;> rfl

theorem coreMoved_upEng {f : EngSt → EngSt} (hp : (f (engSt c g)).preds = (engSt c g).preds)
    (hj : inJoin (engSt c g) = false → inJoin (f (engSt c g)) = false) : CoreMoved g c (upEng c g f) :=
  ⟨_, _, _, _, _, f (engSt c g), rfl, hp, fun hc => ⟨hj hc, rfl, rfl, rfl, rfl⟩⟩

theorem coreMoved_setFifo (g : Eng) (c : Core) (n : Nat) (l : List Token) : CoreMoved g c (setFifo c n l) :=
  ⟨SMap.set [] c.fifos n l, _, _, _, _, engSt c g, by cases g <;> rfl, rfl, fun hj => ⟨hj, rfl, rfl, rfl, rfl⟩⟩

theorem coreMoved_foldl {α β : Type} {F : β → Core} {f : β → α → β} (hf : ∀ b a, CoreMoved g (F b) (F (f b a))) (l : List α) (b : β) :
    CoreMoved g (F b) (F (l.foldl f b)) := by
  induction l generalizing b with
  | nil => exact .refl g _
  | cons a l ih => exact (hf b a).trans (ih _)

theorem coreMoved_popTokens (c : Core) (g : Eng) (pop : BitVec 3) : CoreMoved g c (popTokens c g pop).1 :=
  coreMoved_foldl (F := Prod.fst) (fun p f => by
    split
    · exact .refl g _
    · next t r _ =>
      exact (coreMoved_setFifo g p.1 (fifoNum f (engNum g)) r).trans
        (coreMoved_upEng (f := fun e => { e with seen := clkJoin e.seen t.clk }) rfl fun hj => hj)) _ (c, [])

theorem coreMoved_pushTokens (c : Core) (g : Eng) (push : BitVec 3) (pay : Option Word) : CoreMoved g c (pushTokens c g push pay) :=
  coreMoved_foldl (F := id) (fun c _ => coreMoved_setFifo g c _ _) _ c

/-- The engine's block changed, and what the end of a join section settles settled. -/
theorem coreMoved_leaveJoin {f : EngSt → EngSt} (hp : (f (engSt c g)).preds = (engSt c g).preds)
    (hj : inJoin (engSt c g) = false → inJoin (f (engSt c g)) = false) : CoreMoved g c (leaveJoin (engSt c g) g (upEng c g f)) := by
  unfold leaveJoin
  split
  · next hl =>
    have hin : inJoin (engSt c g) = true := (Bool.and_eq_true_iff.mp hl).1
    exact ⟨c.fifos, (engSt c g).sec.map (fun x => (x.off, (engSt c g).sc, secEnd x)), joinSeen (upEng c g f),
      SMap.setAll none (upEng c g f).tnew (upEng c g f).tsync, [], f (engSt c g), by cases g <;> rfl, hp,
      fun hc => absurd (hc.symm.trans hin) Bool.false_ne_true⟩
  · exact coreMoved_upEng hp hj

theorem engSt_setFifo (c : Core) (k : Eng) (n : Nat) (l : List Token) : engSt (setFifo c n l) k = engSt c k := by
  cases k <;> rfl

theorem engSt_pushTokens (c : Core) (g k : Eng) (push : BitVec 3) (pay : Option Word) : engSt (pushTokens c g push pay) k = engSt c k := by
  unfold pushTokens
  induction namedEngs g push generalizing c with
  | nil => rfl
  | cons f l ih => exact (ih _).trans (engSt_setFifo c k _ _)

theorem preds_waitOn (tick : Nat) (e : EngSt) (k d o : Nat) : (waitOn tick e k d o).preds = e.preds := by
  unfold waitOn
  split <;> rfl

theorem sec_waitOn (tick : Nat) (e : EngSt) (k d o : Nat) : (waitOn tick e k d o).sec = e.sec := by
  unfold waitOn
  split <;> rfl

theorem inJoin_waitOn {e : EngSt} (hj : inJoin e = false) (tick k d o : Nat) : inJoin (waitOn tick e k d o) = false := by
  rw [inJoin, sec_waitOn]
  exact hj

theorem preds_advance (e : EngSt) : (advance e).preds = e.preds := by
  unfold advance
  split
  · rfl
  · split <;> rfl

theorem inJoin_advance {e : EngSt} (hj : inJoin e = false) : inJoin (advance e) = false := by
  unfold advance
  split
  · exact hj
  · split <;> [exact hj; rfl]

theorem secKind_ne_three : secKind s ≠ 3 ↔ inJoin (curEng s) = false := by
  unfold secKind inJoin
  cases (curEng s).sec <;> simp

/-! ## A state through them -/

/-- Only the executing core has changed, and that as the issue and the retirement of a word change it. -/
def WordMove (s t : State) : Prop := OnlyCore s t ∧ CoreMoved s.cur.eng (curCore s) (curCore t)

theorem OnlyCore.refl (s : State) : OnlyCore s s := ⟨rfl, fun _ _ => rfl⟩

theorem OnlyCore.cur_eq (h : OnlyCore s t) : t.cur = s.cur := by rw [h.1]

theorem OnlyCore.sameMemory (h : OnlyCore s t) : SameMemory s t := fun k => by rw [h.1]; exact ⟨rfl, rfl⟩

theorem OnlyCore.trans (h : OnlyCore s t) (k : OnlyCore t u) : OnlyCore s u := by
  refine ⟨k.1.trans (by rw [h.1]), fun n hn => ?_⟩
  rw [k.2 n (by rwa [h.cur_eq]), h.2 n hn]

theorem onlyCore_upCur (s : State) (f : Core → Core) : OnlyCore s (upCur s f) :=
  ⟨rfl, fun n hn => (coreAt_upCur s n f).trans (if_neg (Ne.symm hn))⟩

theorem WordMove.refl (s : State) : WordMove s s := ⟨.refl s, .refl _ _⟩

theorem WordMove.trans (h : WordMove s t) (k : WordMove t u) : WordMove s u := by
  obtain ⟨hs, hm⟩ := h
  obtain ⟨ks, km⟩ := k
  rw [hs.cur_eq] at km
  exact ⟨hs.trans ks, hm.trans km⟩

theorem wordMove_upCur {f : Core → Core} (hf : CoreMoved s.cur.eng (curCore s) (f (curCore s))) : WordMove s (upCur s f) :=
  ⟨onlyCore_upCur s f, by rw [curCore_upCur]; exact hf⟩

theorem wordMove_upCurEng {f : EngSt → EngSt} (hp : (f (curEng s)).preds = (curEng s).preds)
    (hj : inJoin (curEng s) = false → inJoin (f (curEng s)) = false) : WordMove s (upCurEng s f) :=
  wordMove_upCur (coreMoved_upEng hp hj)

theorem wordMove_atHand (s : State) (h : Hd) : WordMove s (atHand s h) := by
  unfold atHand
  split
  · exact .refl s
  · exact wordMove_upCur (coreMoved_popTokens _ _ _)

theorem wordMove_afterWord (s : State) (p : BitVec 3) (n : Nxt) : WordMove s (afterWord s p n) := by
  unfold afterWord
  extract_lets g c e
  split
  · split
    · exact wordMove_upCurEng rfl fun hj => hj
    · split
      · exact wordMove_upCurEng (preds_waitOn _ _ _ _ _) fun hj => inJoin_waitOn hj _ _ _ _
      · refine wordMove_upCur ((coreMoved_pushTokens c g p none).trans ?_)
        rw [show e = engSt (pushTokens c g p none) g from (engSt_pushTokens c g g p none).symm]
        exact coreMoved_leaveJoin (preds_advance _) fun hj => inJoin_advance hj
  · refine wordMove_upCur (coreMoved_leaveJoin ?_ ?_)
    · cases n with
      | seq => exact preds_advance _
      | jump | leave => rfl
    · cases n with
      | seq => exact fun hj => inJoin_advance hj
      | jump => exact fun hj => hj
      | leave => exact fun _ => rfl

theorem wordMove_retireWord (s : State) (h : Hd) (p : BitVec 3) (live : Bool) (hw : ∀ s, w.post s = s) : WordMove s (retireWord s h p live w) := by
  unfold retireWord
  dsimp only
  split
  · exact wordMove_afterWord _ _ _
  · split
    · exact wordMove_upCurEng (preds_waitOn _ _ _ _ _) fun hj => inJoin_waitOn hj _ _ _ _
    · rw [hw, ite_self]
      exact (wordMove_upCur (coreMoved_pushTokens _ _ _ _)).trans (wordMove_afterWord _ _ _)

theorem wordMove_goesOn (h : Hd) (s : State) (hw : ∀ s, w.post s = s) : WordMove s (goesOn h s w) :=
  (wordMove_upCurEng (f := fun e => { e with reply := {} }) rfl fun hj => hj).trans (wordMove_retireWord _ _ _ _ hw)

/-- A word whose effect does not come about moves on its core alone: it waits for tokens, is nullified, or stands at its pushes. -/
theorem wordMove_runWord_of_not_ready (hr : ¬ Ready s h) (hw : ∀ s, w.post s = s) (ht : runWord s h w = .next t) : WordMove s t := by
  cases hp : (curEng s).pushpend with
  | true =>
    cases ht.symm.trans (runWord_pushing hp)
    exact wordMove_retireWord _ _ _ _ hw
  | false =>
    by_cases hi : (curEng s).issued = true ∨ popBlocked (curCore s) s.cur.eng h.pop = none
    · cases ht.symm.trans (runWord_dead hp hi (Bool.eq_false_iff.mpr fun hl => hr ⟨hp, hi, hl⟩))
      exact (wordMove_atHand s h).trans (wordMove_retireWord _ _ _ _ hw)
    · obtain ⟨hi, hb⟩ := not_or.mp hi
      obtain ⟨f, hb⟩ := Option.ne_none_iff_exists'.mp hb
      cases ht.symm.trans (runWord_noTokens hp (Bool.eq_false_iff.mpr hi) hb)
      exact wordMove_upCurEng (preds_waitOn _ _ _ _ _) fun hj => inJoin_waitOn hj _ _ _ _

/-- A word whose effect always runs to its end: its effect, where it is live, stands between two such moves. -/
theorem runWord_frame {f : State → State} (he : ∀ s, w.eff s = .done (f s)) (hw : ∀ s, w.post s = s) (ht : runWord s h w = .next t) :
    WordMove s t ∨ liveWord (curEng s) h = true ∧ ∃ p, WordMove s p ∧ WordMove (f p) t := by
  by_cases hr : Ready s h
  · cases ht.symm.trans (runWord_ready hr (he _))
    obtain ⟨-, -, hl⟩ := hr
    exact .inr ⟨hl, _, wordMove_atHand s h, wordMove_goesOn h _ hw⟩
  · exact .inl (wordMove_runWord_of_not_ready hr hw ht)

/-- A word that always runs to its end, changing what `P` says. -/
def WordWrites (P : State → State → Prop) (s : State) (h : Hd) (o : Out) : Prop :=
  ∃ (w : WordDef) (f : State → State), o = runWord s h w ∧ (∀ s, w.eff s = .done (f s)) ∧ (∀ s, w.post s = s) ∧ ∀ p, P p (f p)

theorem wordWrites_runWord {P : State → State → Prop} {f : State → State} {pay : Bool → State → Option Word} (hf : ∀ p, P p (f p)) :
    WordWrites P s h (runWord s h { eff := effDo f, pay := pay }) :=
  ⟨_, f, rfl, fun _ => rfl, fun _ => rfl, hf⟩

/-- The states before and after the effect of such a word; a nullified one has none. -/
theorem WordWrites.frame {P : State → State → Prop} {o : Out} (hw : WordWrites P s h o) (ht : o = .next t) :
    ∃ p q, WordMove s p ∧ WordMove q t ∧ (q = p ∨ liveWord (curEng s) h = true ∧ P p q) := by
  obtain ⟨w, f, rfl, heff, hpost, hf⟩ := hw
  rcases runWord_frame heff hpost ht with hm | ⟨hl, p, hm, hm'⟩
  · exact ⟨s, s, .refl s, hm, .inl rfl⟩
  · exact ⟨p, f p, hm, hm', .inr ⟨hl, hf p⟩⟩

end Sys2Proof.Machine
end

section
/-! PROOFS. The frame of the words that write one vector register or one mask register (R29, R58, R175). -/
namespace Sys2Proof.Machine

variable {s t p q u : State} {c d : Core} {g : Eng} {h : Hd} {r : Nat}

/-! ## Words that run to their end and write vector and mask registers -/

/-- The change of one vector register and VFLAGS of the executing core. -/
def VecWrite (r : Nat) (p q : State) : Prop :=
  OnlyCore p q ∧ ∃ v fl, curCore q = { curCore p with v := v, vflags := fl } ∧ ∀ k e, k ≠ r → vget (curCore q) k e = vget (curCore p) k e

/-- The change of one mask register of the executing core. -/
def MaskWrite (r : Nat) (p q : State) : Prop :=
  OnlyCore p q ∧ ∃ m, curCore q = { curCore p with k := m } ∧ ∀ k, k ≠ r → kget (curCore q) k = kget (curCore p) k

theorem VecWrite.trans (h : VecWrite r p q) (k : VecWrite r q u) : VecWrite r p u := by
  obtain ⟨ho, v, fl, hc, hv⟩ := h
  obtain ⟨ko, v', fl', kc, kv⟩ := k
  exact ⟨ho.trans ko, v', fl', by rw [kc, hc], fun n e hn => (kv n e hn).trans (hv n e hn)⟩

theorem vecWrite_upCur {f : Core → Core} {v : SMap (SMap W32)} {fl : Word} (hf : f (curCore p) = { curCore p with v := v, vflags := fl })
    (hv : ∀ k e, k ≠ r → vget (f (curCore p)) k e = vget (curCore p) k e) : VecWrite r p (upCur p f) :=
  ⟨onlyCore_upCur p f, v, fl, by rw [curCore_upCur, hf], by rw [curCore_upCur]; exact hv⟩

theorem vget_set_of_ne (c : Core) {r k : Nat} (x : SMap W32) (e : Nat) (hk : k ≠ r) : vget { c with v := SMap.set [] c.v r x } k e = vget c k e :=
  congrArg (SMap.get 0 · e) (SMap.get_set_of_ne _ _ _ _ _ (Ne.symm hk))

theorem vecWrite_vset (p : State) (r : Nat) (x : SMap W32) : VecWrite r p (upCur p fun c => { c with v := SMap.set [] c.v r x }) :=
  vecWrite_upCur (f := fun c => { c with v := SMap.set [] c.v r x }) rfl fun _ e hk => vget_set_of_ne _ _ e hk

theorem vecWrite_raiseFlags (p : State) (r f : Nat) : VecWrite r p (raiseFlags p f) :=
  vecWrite_upCur (f := fun c => { c with vflags := c.vflags ||| BitVec.ofNat 64 (f % 64) }) rfl fun _ _ _ => rfl

theorem vecWrite_writeAll (p : State) (r : Nat) (f : Nat → W32) : VecWrite r p (writeAll p r f) := vecWrite_vset p r _

theorem vecWrite_writeVec (p : State) (r : Nat) (on : Nat → Bool) (f : Nat → ElRes) : VecWrite r p (writeVec p r on f) :=
  (vecWrite_vset p r _).trans (vecWrite_raiseFlags _ r _)

theorem maskWrite_kset (p : State) (r : Nat) (m : BitVec 1024) : MaskWrite r p (upCur p fun c => kset c r m) := by
  refine ⟨onlyCore_upCur p _, SMap.set 0 (curCore p).k r m, curCore_upCur _ _, fun k hk => ?_⟩
  rw [curCore_upCur]
  exact SMap.get_set_of_ne _ _ _ _ _ (Ne.symm hk)

theorem vecDest_writes {i : Instr} {d : Reg} (hd : vecDest i = some (h, d)) : WordWrites (VecWrite d.toNat) s h (exec i s) := by
  cases i with
  | vadd | vsub | vmul | vmin | vmax | vdiv | vscale | vabs | vneg | vfma | vfms | vfnma | vclass | vrint | vmulh | vshl | vshr | vsar | vand | vor
  | vxor | vnot | vpopc | vclz | vmov | vmovBc | vrot | vbcast | vred | vscan | vsred =>
    cases hd
    exact wordWrites_runWord fun p => vecWrite_writeVec p _ _ _
  | vdot4 | vsel | vplanePk | vplaneUn =>
    cases hd
    exact wordWrites_runWord fun p => vecWrite_writeAll p _ _
  | vins =>
    cases hd
    exact wordWrites_runWord fun p => vecWrite_vset p _ _
  | _ => cases hd

theorem maskDest_writes {i : Instr} {d : Reg} (hd : maskDest i = some (h, d)) : WordWrites (MaskWrite d.toNat) s h (exec i s) := by
  cases i with
  | kand | kor | kxor | knot | kmov | kmovSet | kmovClr | kmovFirst =>
    cases hd
    exact wordWrites_runWord fun p => maskWrite_kset p _ _
  | _ => cases hd

/-! ## What stays -/

/-- What a word keeps of its state but for its registers: `x` is its core as before, but with the registers it wrote. -/
def Kept (s t : State) (x : Core) : Prop :=
  OnlyCore s t ∧ SameMemory s t ∧ (curEng t).preds = (curEng s).preds ∧ (secKind s ≠ 3 → joinKept (curCore s) (curCore t)) ∧
  curCore t = setEngSt { x with fifos := (curCore t).fifos, jlast := (curCore t).jlast, jseen := (curCore t).jseen,
                                tnew := (curCore t).tnew, tsync := (curCore t).tsync } s.cur.eng (engSt (curCore t) s.cur.eng)

theorem kept_of_coreMoved {x : Core} (ho : OnlyCore s t) (hm : CoreMoved s.cur.eng x (curCore t)) (he : engSt x s.cur.eng = curEng s)
    (hx : joinKept (curCore s) x) : Kept s t x := by
  obtain ⟨fi, jl, js, tn, ts, e, hc, hp, hj⟩ := hm
  have hte : engSt (curCore t) s.cur.eng = e := by rw [hc, engSt_setEngSt, if_pos rfl]
  refine ⟨ho, ho.sameMemory, ?_, fun hs => ?_, ?_⟩
  · rw [curEng, ho.cur_eq, hte, hp, he]
  · obtain ⟨-, rfl, rfl, rfl, rfl⟩ := hj (he ▸ secKind_ne_three.mp hs)
    rw [hc]
    cases s.cur.eng <;> exact hx
  · rw [hte, hc]
    cases s.cur.eng <;> rfl

theorem CoreMoved.withVec (hm : CoreMoved g c d) (v : SMap (SMap W32)) (fl : Word) :
    CoreMoved g { c with v := v, vflags := fl } { d with v := v, vflags := fl } := by
  obtain ⟨fi, jl, js, tn, ts, e, rfl, hp, hj⟩ := hm
  cases g <;> exact ⟨fi, jl, js, tn, ts, e, rfl, hp, hj⟩

theorem CoreMoved.withMask (hm : CoreMoved g c d) (m : SMap (BitVec 1024)) : CoreMoved g { c with k := m } { d with k := m } := by
  obtain ⟨fi, jl, js, tn, ts, e, rfl, hp, hj⟩ := hm
  cases g <;> exact ⟨fi, jl, js, tn, ts, e, rfl, hp, hj⟩

theorem CoreMoved.vec_eq (hm : CoreMoved g c d) : d.v = c.v ∧ d.vflags = c.vflags ∧ d.k = c.k := by
  obtain ⟨fi, jl, js, tn, ts, e, rfl, -⟩ := hm
  cases g <;> exact ⟨rfl, rfl, rfl⟩

/-- Between two moves, a change of vector registers and VFLAGS alone. -/
theorem kept_of_vec {v : SMap (SMap W32)} {fl : Word} (hs : WordMove s p) (ho : OnlyCore p q)
    (hq : curCore q = { curCore p with v := v, vflags := fl }) (ht : WordMove q t) :
    Kept s t { curCore s with v := (curCore t).v, vflags := (curCore t).vflags } := by
  obtain ⟨hso, hsm⟩ := hs
  obtain ⟨hto, htm⟩ := ht
  obtain ⟨hv, hf, -⟩ := htm.vec_eq
  rw [ho.cur_eq, hso.cur_eq, hq] at htm
  rw [hv, hf, hq]
  refine kept_of_coreMoved ((hso.trans ho).trans hto) ((hsm.withVec v fl).trans htm) ?_ ⟨rfl, rfl, rfl, rfl⟩
  rw [curEng]
  cases s.cur.eng <;> rfl

theorem kept_of_mask {m : SMap (BitVec 1024)} (hs : WordMove s p) (ho : OnlyCore p q) (hq : curCore q = { curCore p with k := m })
    (ht : WordMove q t) : Kept s t { curCore s with k := (curCore t).k } := by
  obtain ⟨hso, hsm⟩ := hs
  obtain ⟨hto, htm⟩ := ht
  obtain ⟨-, -, hk⟩ := htm.vec_eq
  rw [ho.cur_eq, hso.cur_eq, hq] at htm
  rw [hk, hq]
  refine kept_of_coreMoved ((hso.trans ho).trans hto) ((hsm.withMask m).trans htm) ?_ ⟨rfl, rfl, rfl, rfl⟩
  rw [curEng]
  cases s.cur.eng <;> rfl

theorem vget_of_wordMove (hm : WordMove s t) (r e : Nat) : vget (curCore t) r e = vget (curCore s) r e := by
  obtain ⟨hv, -⟩ := hm.2.vec_eq
  rw [vget, hv]
  rfl

theorem kget_of_wordMove (hm : WordMove s t) (r : Nat) : kget (curCore t) r = kget (curCore s) r := by
  obtain ⟨-, -, hk⟩ := hm.2.vec_eq
  rw [kget, hk]
  rfl

/-- Settles O25: a word's registers change in its effect alone, between two moves of its core that leave them. -/
theorem vectorWordFrame : Obligations.VectorWordFrame := by
  intro i s t h d ht c u kept
  refine ⟨fun hd => ?_, fun hd => ?_⟩
  · obtain ⟨p, q, hs, hm, rfl | ⟨hl, ho, v, fl, hq, hv⟩⟩ := (vecDest_writes hd).frame ht
    · refine ⟨kept_of_vec hs (.refl q) (v := (curCore q).v) (fl := (curCore q).vflags) rfl hm, fun r e _ => ?_⟩
      exact (vget_of_wordMove hm r e).trans (vget_of_wordMove hs r e)
    · refine ⟨kept_of_vec hs ho hq hm, fun r e hr => ?_⟩
      have hr : r ≠ d.toNat := hr.resolve_right fun hdead => Bool.false_ne_true (hdead.symm.trans hl)
      exact (vget_of_wordMove hm r e).trans ((hv r e hr).trans (vget_of_wordMove hs r e))
  · obtain ⟨p, q, hs, hm, rfl | ⟨hl, ho, m, hq, hk⟩⟩ := (maskDest_writes hd).frame ht
    · refine ⟨kept_of_mask hs (.refl q) (m := (curCore q).k) rfl hm, fun r _ => ?_⟩
      exact (kget_of_wordMove hm r).trans (kget_of_wordMove hs r)
    · refine ⟨kept_of_mask hs ho hq hm, fun r hr => ?_⟩
      have hr : r ≠ d.toNat := hr.resolve_right fun hdead => Bool.false_ne_true (hdead.symm.trans hl)
      exact (kget_of_wordMove hm r).trans ((hk r hr).trans (kget_of_wordMove hs r))

end Sys2Proof.Machine
end

section
/-! PROOFS. The frame of the words that write one scalar register or one predicate (R29, R140, R143). -/
namespace Sys2Proof.Machine

variable {s t p q : State} {c d x : Core} {g : Eng} {h : Hd} {may mayP : Nat → Prop}

/-! ## A core but for some scalar registers and predicates of one engine -/

/-- A core that differs in the block and the FIFOs of engine `g`, in those of its scalar registers that `may` names and those of its
predicates that `mayP` names, and, where `g` executes a join section, in what the end of that section settles. -/
def ScalarKept (g : Eng) (may mayP : Nat → Prop) (c d : Core) : Prop :=
  coreRest d = coreRest c ∧ (inJoin (engSt c g) = false → inJoin (engSt d g) = false ∧ joinKept c d) ∧
  (∀ k r, k ≠ g ∨ ¬ may r → getScal d k r = getScal c k r) ∧ (∀ k, k ≠ g → engSt d k = engSt c k) ∧
  ∀ n, n < 7 → ¬ mayP n → getPred (engSt d g) n = getPred (engSt c g) n

theorem joinKept.trans (h : joinKept c d) (k : joinKept d x) : joinKept c x := by
  obtain ⟨h1, h2, h3, h4⟩ := h
  obtain ⟨k1, k2, k3, k4⟩ := k
  exact ⟨k1.trans h1, k2.trans h2, k3.trans h3, k4.trans h4⟩

theorem ScalarKept.trans (h : ScalarKept g may mayP c d) (k : ScalarKept g may mayP d x) : ScalarKept g may mayP c x := by
  obtain ⟨hrest, hjoin, hscal, heng, hpred⟩ := h
  obtain ⟨krest, kjoin, kscal, keng, kpred⟩ := k
  refine ⟨krest.trans hrest, fun hj => ?_, fun n r hn => (kscal n r hn).trans (hscal n r hn), fun n hn => (keng n hn).trans (heng n hn),
    fun n hn hm => (kpred n hn hm).trans (hpred n hn hm)⟩
  obtain ⟨hj1, hk1⟩ := hjoin hj
  obtain ⟨hj2, hk2⟩ := kjoin hj1
  exact ⟨hj2, hk1.trans hk2⟩

theorem CoreMoved.scalarKept (hm : CoreMoved g c d) : ScalarKept g may mayP c d := by
  obtain ⟨fi, jl, js, tn, ts, e, rfl, hp, hj⟩ := hm
  refine ⟨by cases g <;> rfl, fun hc => ?_, fun k r _ => by cases g <;> cases k <;> rfl, fun k hk => ?_, fun n _ _ => ?_⟩
  · obtain ⟨he, rfl, rfl, rfl, rfl⟩ := hj hc
    exact ⟨by rw [engSt_setEngSt, if_pos rfl]; exact he, by cases g <;> exact ⟨rfl, rfl, rfl, rfl⟩⟩
  · rw [engSt_setEngSt, if_neg (Ne.symm hk)]
    cases k <;> rfl
  · rw [engSt_setEngSt, if_pos rfl, getPred, hp]
    rfl

theorem scalarKept_setScal (c : Core) (r : Nat) (v : Word) (hr : ¬ (g = .c ∧ r = 0) → may r) : ScalarKept g may mayP c (setScal c g r v) := by
  refine ⟨?_, fun hj => ⟨by rw [engSt_setScal]; exact hj, ?_⟩, fun k q hq => ?_, fun k _ => engSt_setScal c g k r v,
    fun n _ _ => by rw [engSt_setScal]⟩
  · unfold setScal
    split <;> [rfl; cases g <;> rfl]
  · unfold setScal
    split <;> [exact ⟨rfl, rfl, rfl, rfl⟩; cases g <;> exact ⟨rfl, rfl, rfl, rfl⟩]
  · rw [getScal_setScal, if_neg]
    rintro ⟨rfl, rfl, h0⟩
    exact hq.elim (fun h => h rfl) fun h => h (hr h0)

theorem scalarKept_setPred (c : Core) (n : Nat) (b : Bool) (hn : mayP n) : ScalarKept g may mayP c (upEng c g fun e => setPredE e n b) := by
  refine ⟨by cases g <;> rfl, fun hj => ?_, fun k r _ => by cases g <;> cases k <;> rfl, fun k hk => ?_, fun m hm hp => ?_⟩
  · exact ⟨by rw [engSt_upEng, if_pos rfl]; exact hj, by cases g <;> exact ⟨rfl, rfl, rfl, rfl⟩⟩
  · rw [engSt_upEng, if_neg (Ne.symm hk)]
  · rw [engSt_upEng, if_pos rfl, getPred_setPredE _ _ _ _ hm, if_neg]
    rintro rfl
    exact hp hn

/-! ## The frame of a word -/

/-- The executing core alone has changed, and that but for its scalar registers and predicates. -/
def ScalarStep (may mayP : Nat → Prop) (s t : State) : Prop := OnlyCore s t ∧ ScalarKept s.cur.eng may mayP (curCore s) (curCore t)

theorem ScalarStep.trans {u : State} (h : ScalarStep may mayP s t) (k : ScalarStep may mayP t u) : ScalarStep may mayP s u := by
  obtain ⟨ho, hk⟩ := h
  obtain ⟨ko, kk⟩ := k
  rw [ho.cur_eq] at kk
  exact ⟨ho.trans ko, hk.trans kk⟩

theorem WordMove.scalarStep (h : WordMove s t) : ScalarStep may mayP s t := ⟨h.1, h.2.scalarKept⟩

theorem ScalarStep.frame (h : ScalarStep may mayP s t) : ScalarFrame s t may mayP := by
  obtain ⟨ho, hrest, hjoin, hscal, heng, hpred⟩ := h
  refine ⟨ho, ho.sameMemory, hrest, fun hj => (hjoin (secKind_ne_three.mp hj)).2, hscal, heng, fun n hn hm => ?_⟩
  rw [curEng, ho.cur_eq]
  exact hpred n hn hm

theorem scalarStep_wr (d : Reg) (v : Word) (hd : ¬ (p.cur.eng = .c ∧ d.toNat = 0) → may d.toNat) : ScalarStep may mayP p (wr p d v) :=
  ⟨onlyCore_upCur p _, by rw [wr, curCore_upCur]; exact scalarKept_setScal _ _ _ hd⟩

theorem scalarStep_wrP (d : Reg) (b : Bool) (hd : mayP d.toNat) : ScalarStep may mayP p (wrP p d b) :=
  ⟨onlyCore_upCur p fun c => upEng c p.cur.eng fun e => setPredE e d.toNat b, by rw [wrP, curCore_upCurEng]; exact scalarKept_setPred _ _ _ hd⟩

/-- The effect of a word that writes one scalar register or none. -/
def ScalarWrite (r : Option Reg) (p q : State) : Prop := q = p ∨ ∃ d v, r = some d ∧ q = wr p d v

theorem scalarDest_writes {i : Instr} {r : Option Reg} (hd : scalarDest i = some (h, r)) : WordWrites (ScalarWrite r) s h (exec i s) := by
  cases i with
  | nop | tsend =>
    cases hd
    exact wordWrites_runWord fun p => .inl rfl
  | movi | moviHi | mov | add | sub | addi | shl | shr | sar | and | or | xor | sel | trecv | mul | mulh | div | rem | min | max | clz | popc
  | bfx | bfi | tickRead | vmodeRd | vflagsRd | kpopc | kffs | vext | leaseSt =>
    cases hd
    exact wordWrites_runWord fun p => .inr ⟨_, _, rfl, rfl⟩
  | _ => cases hd

theorem predDest_writes {i : Instr} {d : Reg} (hd : predDest i = some (h, d)) :
    WordWrites (fun p q => ∃ b, q = wrP p d b) s h (exec i s) := by
  cases i with
  | cmp | pand | por | pxor | pnot | pmov =>
    cases hd
    exact wordWrites_runWord fun p => ⟨_, rfl⟩
  | _ => cases hd

/-- A word whose effect keeps to what `may` and `mayP` name where it is live keeps to it. -/
theorem WordWrites.scalarFrame {P : State → State → Prop} {o : Out} (hw : WordWrites P s h o) (ht : o = .next t)
    (hP : liveWord (curEng s) h = true → ∀ p q, p.cur = s.cur → P p q → ScalarStep may mayP p q) : ScalarFrame s t may mayP := by
  obtain ⟨p, q, hs, hm, rfl | ⟨hl, hp⟩⟩ := hw.frame ht
  · exact (hs.scalarStep.trans hm.scalarStep).frame
  · exact ((hs.scalarStep.trans (hP hl p q hs.1.cur_eq hp)).trans hm.scalarStep).frame

theorem scalarWordFrame : Claim.ScalarWordFrame := by
  intro i s t h r hd ht
  refine (scalarDest_writes hd).scalarFrame ht fun hl p q hcur hw => ?_
  obtain rfl | ⟨d, v, rfl, rfl⟩ := hw
  · exact (WordMove.refl q).scalarStep
  · exact scalarStep_wr d v fun h0 => ⟨rfl, hl, fun hc hr => h0 ⟨by rw [hcur]; exact hc, hr⟩⟩

theorem predicateWordFrame : Claim.PredicateWordFrame := by
  intro i s t h d hd ht
  refine (predDest_writes hd).scalarFrame ht fun hl p q _ hw => ?_
  obtain ⟨b, rfl⟩ := hw
  exact scalarStep_wrP d b ⟨rfl, hl⟩

/-- Settles O7: a word's register or predicate changes in its effect alone, between two moves of its core that leave them. -/
theorem framesOfScalarWords : Obligations.FramesOfScalarWords := ⟨scalarWordFrame, predicateWordFrame⟩

end Sys2Proof.Machine
end

section
/-! PROOFS. Repeats, branches within a steer section and posted targets (R28, R38–R41, R154–R156). -/
namespace Sys2Proof.Machine

variable {s t p q : State} {c d : Core} {g : Eng} {h : Hd} {w : WordDef}

/-! ## What the moves of a word leave -/

theorem CoreMoved.getScal_eq (hm : CoreMoved g c d) (k : Eng) (r : Nat) : getScal d k r = getScal c k r := by
  obtain ⟨fi, jl, js, tn, ts, e, rfl, -⟩ := hm
  cases g <;> cases k <;> rfl

theorem CoreMoved.engSt_eq (hm : CoreMoved g c d) {k : Eng} (hk : k ≠ g) : engSt d k = engSt c k := by
  obtain ⟨fi, jl, js, tn, ts, e, rfl, -⟩ := hm
  rw [engSt_setEngSt, if_neg (Ne.symm hk)]
  cases k <;> rfl

theorem CoreMoved.tid_eq (hm : CoreMoved g c d) : d.tid = c.tid := by
  obtain ⟨fi, jl, js, tn, ts, e, rfl, -⟩ := hm
  cases g <;> rfl

theorem CoreMoved.coreRest_eq (hm : CoreMoved g c d) : coreRest d = coreRest c := by
  obtain ⟨fi, jl, js, tn, ts, e, rfl, -⟩ := hm
  cases g <;> rfl

theorem WordMove.curTeam_eq (hm : WordMove s t) : curTeam t = curTeam s := by
  obtain ⟨ho, hm⟩ := hm
  rw [curTeam, hm.tid_eq, ho.1]
  rfl

/-! ## Tokens popped -/

theorem engSt_popTokens (c : Core) (g : Eng) (pop : BitVec 3) : ∃ seen, engSt (popTokens c g pop).1 g = { engSt c g with seen := seen } := by
  unfold popTokens
  refine List.foldlRecOn _ _ (motive := fun (p : Core × List Token) => ∃ seen, engSt p.1 g = { engSt c g with seen := seen }) ⟨_, rfl⟩
    fun p hp f _ => ?_
  split
  · exact hp
  · obtain ⟨seen, hp⟩ := hp
    exact ⟨_, by rw [engSt_upEng, if_pos rfl, engSt_setFifo, hp]⟩

theorem fifoAt_upEng (c : Core) (g : Eng) (f : EngSt → EngSt) (k : Nat) : fifoAt (upEng c g f) k = fifoAt c k := by
  cases g <;> rfl

theorem length_fifoAt_popTokens_le (c : Core) (g : Eng) (pop : BitVec 3) (n : Nat) :
    (fifoAt (popTokens c g pop).1 n).length ≤ (fifoAt c n).length := by
  unfold popTokens
  refine List.foldlRecOn _ _ (motive := fun (p : Core × List Token) => (fifoAt p.1 n).length ≤ (fifoAt c n).length)
    (Nat.le_refl _) fun p hp f _ => ?_
  split
  · exact hp
  · next t r hl =>
    rw [fifoAt_upEng, fifoAt_setFifo]
    split
    · next hn =>
      subst hn
      exact (Nat.le_of_succ_le (by rw [hl]; exact Nat.le_refl _)).trans hp
    · exact hp

theorem pushBlocked_eq_none_of_le (hl : ∀ n, (fifoAt d n).length ≤ (fifoAt c n).length) {push : BitVec 3} (hb : pushBlocked c g push = none) :
    pushBlocked d g push = none := by
  simp only [pushBlocked, List.find?_eq_none, decide_eq_true_eq] at hb ⊢
  exact fun f hf hd => hb f hf (hd.trans (hl _))

/-- The state in which a word takes effect: its engine as before but for what it has seen, and room for the pushes where there was. -/
theorem curEng_atHand (s : State) (h : Hd) : ∃ seen, curEng (atHand s h) = { curEng s with seen := seen } := by
  unfold atHand
  split
  · exact ⟨_, rfl⟩
  · rw [curEng, curCore_upCur]
    exact engSt_popTokens _ _ _

theorem single_atHand (hs : Single s h) : Single (atHand s h) h := by
  obtain ⟨hr, hb⟩ := hs
  obtain ⟨seen, he⟩ := curEng_atHand s h
  refine ⟨by rw [he]; exact hr, ?_⟩
  unfold atHand
  split
  · exact hb
  · rw [curCore_upCur]
    exact pushBlocked_eq_none_of_le (length_fifoAt_popTokens_le _ _ _) hb

/-! ## A word that is not repeated and whose pushes have room retires -/

/-- An engine past its word: where the word leads. -/
def ledOn (n : Nxt) (e : EngSt) : EngSt :=
  match n with
  | .seq => advance e
  | .jump pc => { e with pc := pc }
  | .leave t => retireSec e t

/-- An engine whose word has nothing left to wait for. -/
def settled (e : EngSt) : EngSt := { noWait e with issued := false, pushpend := false }

theorem engSt_leaveJoin (old : EngSt) (g k : Eng) (c : Core) : engSt (leaveJoin old g c) k = engSt c k := by
  unfold leaveJoin
  split <;> [cases k <;> rfl; rfl]

theorem curEng_afterWord (hr : (curEng s).rst.active = false) (p : BitVec 3) (n : Nxt) :
    curEng (afterWord s p n) = ledOn n (settled (curEng s)) := by
  unfold afterWord
  dsimp only
  rw [if_neg (show ¬ (engSt (curCore s) s.cur.eng).rst.active = true from Bool.eq_false_iff.mp hr)]
  rw [curEng, curCore_upCur, engSt_leaveJoin, upCur_cur, engSt_upEng, if_pos rfl]
  cases n <;> rfl

theorem curEng_retireWord (hs : Single s h) (p : BitVec 3) (live : Bool) (hw : ∀ s, w.post s = s) :
    curEng (retireWord s h p live w) = ledOn (if live then w.nxt s else .seq) (settled (curEng s)) := by
  obtain ⟨hr, hb⟩ := hs
  have hpush (pay : Option Word) : curEng (upCur s fun c => pushTokens c s.cur.eng h.push pay) = curEng s := by
    rw [curEng, curCore_upCur, upCur_cur, engSt_pushTokens]
    rfl
  unfold retireWord
  dsimp only
  rw [hr, Bool.false_and, if_neg Bool.false_ne_true, hb]
  dsimp only
  rw [hw, ite_self, curEng_afterWord (by rw [hpush]; exact hr), hpush]

theorem curEng_goesOn (hs : Single s h) (hw : ∀ s, w.post s = s) : curEng (goesOn h s w) =
    ledOn (w.nxt (upCurEng s fun e => { e with reply := {} })) (settled { curEng s with reply := {} }) := by
  obtain ⟨hr, hb⟩ := hs
  rw [goesOn, curEng_retireWord ⟨by rw [curEng_upCurEng]; exact hr, ?_⟩ _ _ hw, curEng_upCurEng]
  · rfl
  · rw [curCore_upCurEng]
    exact pushBlocked_eq_none_of_le (fun n => by rw [fifoAt_upEng]) hb

/-! ## Repeats -/

theorem toInt_of_steps {f : Nat → BitVec 10} {x : BitVec 4} (h0 : f 0 = 0) (hs : ∀ n, f (n + 1) = f n + x.signExtend 10) {k : Nat} (hk : k < 64) :
    (f k).toInt = k * x.toInt := by
  have hf (n : Nat) : f n = BitVec.ofInt 10 (n * x.toInt) := by
    induction n with
    | zero => rw [h0]; simp
    | succ n ih =>
      rw [hs, ih, BitVec.signExtend, ← BitVec.ofInt_add]
      push_cast
      rw [add_mul, one_mul]
  have hlo := BitVec.le_toInt x
  have hhi := BitVec.toInt_lt (x := x)
  rw [hf, BitVec.toInt_ofInt]
  refine Int.bmod_eq_of_le ?_ ?_
  · norm_num at hlo ⊢
    nlinarith
  · norm_num at hhi ⊢
    nlinarith

theorem steps_repAt (x : Rep) (n : Nat) : (repAt x n).stepD = x.stepD ∧ (repAt x n).stepA = x.stepA ∧ (repAt x n).stepB = x.stepB ∧
    (repAt x n).stepE = x.stepE := by
  induction n with
  | zero => exact ⟨rfl, rfl, rfl, rfl⟩
  | succ n ih => exact ih

/-- The offsets of a field after some repetitions. -/
theorem toInt_offset {off : Rep → BitVec 10} {step : Rep → BitVec 4} (h0 : ∀ imm, off (repOf imm) = 0)
    (hoff : ∀ x, off (repStep x) = off x + (step x).signExtend 10) (hstep : ∀ x n, step (repAt x n) = step x) (imm : W32)
    {k : Nat} (hk : k < 64) : (off (repAt (repOf imm) k)).toInt = k * (step (repOf imm)).toInt :=
  toInt_of_steps (f := fun n => off (repAt (repOf imm) n)) (h0 imm) (fun n => (hoff _).trans (by rw [hstep])) hk

theorem exec_rep {imm : W32} (hlast : lastWord s = false) (hok : repNextOk s imm = true)
    (hpop : popBlocked (curCore s) s.cur.eng h.pop = none) : exec (.rep h imm) s =
    .next (upCurEng (upCur s fun c => (popTokens c s.cur.eng h.pop).1) fun e => { noWait e with pc := e.pc + 12, rst := repOf imm }) := by
  refine congrArg Host.Outcome.next ((if_neg ?_).trans ?_)
  · simp [hlast, hok]
  · rw [hpop]

theorem repeatPrefix : Claim.RepeatPrefix := by
  refine ⟨fun s h imm => ⟨fun l hl => ?_, fun hbad => ?_, fun hlast hok hpop => ?_⟩, fun imm k hk => ?_⟩
  · rw [repNextOk, hl]
  · exact congrArg Host.Outcome.next (if_pos (by simpa using hbad))
  · have hm : WordMove s (upCurEng (upCur s fun c => (popTokens c s.cur.eng h.pop).1) fun e =>
        { noWait e with pc := e.pc + 12, rst := repOf imm }) :=
      (wordMove_upCur (coreMoved_popTokens _ _ _)).trans (wordMove_upCurEng rfl fun hj => hj)
    obtain ⟨seen, he⟩ := engSt_popTokens (curCore s) s.cur.eng h.pop
    refine ⟨_, exec_rep hlast hok hpop, ?_, ?_, hm.2.coreRest_eq, hm.2.getScal_eq⟩
    · rw [curEng_upCurEng, curEng, curCore_upCur, upCur_cur, he]
      rfl
    · rw [curEng_upCurEng]
      rfl
  · exact ⟨toInt_offset (off := Rep.offD) (step := Rep.stepD) (fun _ => rfl) (fun _ => rfl) (fun x n => (steps_repAt x n).1) imm hk,
      toInt_offset (off := Rep.offA) (step := Rep.stepA) (fun _ => rfl) (fun _ => rfl) (fun x n => (steps_repAt x n).2.1) imm hk,
      toInt_offset (off := Rep.offB) (step := Rep.stepB) (fun _ => rfl) (fun _ => rfl) (fun x n => (steps_repAt x n).2.2.1) imm hk,
      toInt_offset (off := Rep.offE) (step := Rep.stepE) (fun _ => rfl) (fun _ => rfl) (fun x n => (steps_repAt x n).2.2.2) imm hk⟩

/-! ## Branches within a steer section -/

theorem lastWord_of_sec {x : Sec} (hx : (curEng s).sec = some x) : lastWord s = decide (secEnd x ≤ (curEng s).pc + 12) := by
  rw [lastWord, hx]

/-- Where `br` is a legal word (R154). -/
theorem brOk_iff {x : Sec} (hx : (curEng s).sec = some x) (imm : W32) : brOk s imm = true ↔
    x.kind = 1 ∧ (curEng s).pc + 12 < secEnd x ∧ (x.off : Int) + 8 ≤ brTarget s imm ∧ brTarget s imm < secEnd x := by
  rw [brOk, hx]
  simp only [lastWord_of_sec hx, Bool.and_eq_true, Bool.not_eq_true', decide_eq_false_iff_not, decide_eq_true_eq, beq_iff_eq, not_le, and_assoc]

/-- A branch. -/
def branchWord (imm : W32) : WordDef := { eff := effDo id, nxt := fun s => .jump (brTarget s imm).toNat }

theorem curEng_branch (hs : Single s h) (imm : W32) : ∃ seen, curEng (goesOn h (atHand s h) (branchWord imm)) =
    { settled { curEng s with reply := {}, seen := seen } with pc := (brTarget s imm).toNat } := by
  obtain ⟨seen, he⟩ := curEng_atHand s h
  refine ⟨seen, ?_⟩
  rw [curEng_goesOn (w := branchWord imm) (single_atHand hs) fun _ => rfl]
  simp only [branchWord, ledOn, brTarget, curEng_upCurEng, he]

theorem advance_within {e : EngSt} {x : Sec} (hx : e.sec = some x) (hpc : e.pc + 12 < secEnd x) : advance e = { e with pc := e.pc + 12 } := by
  rw [advance, hx]
  exact if_pos (.inl hpc)

theorem curEng_passedOver_within (hs : Single s h) {x : Sec} (hx : (curEng s).sec = some x) (hpc : (curEng s).pc + 12 < secEnd x)
    (hw : ∀ s, w.post s = s) : ∃ seen, curEng (passedOver h (atHand s h) w) =
      { settled { curEng s with seen := seen } with pc := (curEng s).pc + 12 } := by
  obtain ⟨seen, he⟩ := curEng_atHand s h
  refine ⟨seen, ?_⟩
  rw [passedOver, curEng_retireWord (single_atHand hs) _ _ hw, he]
  exact advance_within hx hpc

theorem branchWithinASection : Claim.BranchWithinASection := by
  intro s h imm x hx tgt ok
  have hok : brOk s imm = true ↔ ok := by
    rw [brOk_iff hx]
    simp only [ok, tgt, brTarget, secEnd]
    push_cast
    rfl
  refine ⟨fun hn => if_neg fun h => hn (hok.mp h), fun hy hr hs => ?_, fun hy hp hpop hl hs => ?_⟩
  · obtain ⟨seen, he⟩ := curEng_branch hs imm
    have hm : WordMove s (goesOn h (atHand s h) (branchWord imm)) := (wordMove_atHand s h).trans (wordMove_goesOn h _ fun _ => rfl)
    refine ⟨_, (if_pos (hok.mpr hy)).trans (runWord_ready (w := branchWord imm) (t := atHand s h) hr rfl), ?_, ?_, ?_, hm.2.getScal_eq .c⟩
    · obtain ⟨-, -, hlo, -⟩ := hy
      rw [he]
      exact Int.toNat_of_nonneg (a := tgt) (by omega)
    · rw [he]; exact hx
    · rw [he]; rfl
  · obtain ⟨seen, he⟩ := curEng_passedOver_within (w := branchWord imm) hs hx hy.2.1 fun _ => rfl
    refine ⟨_, (if_pos (hok.mpr hy)).trans (runWord_dead (w := branchWord imm) hp (.inr hpop) hl), ?_, ?_⟩
    · rw [he]
    · rw [he]; exact hx

/-! ## Posted targets -/

theorem getScal_upEng (c : Core) (g k : Eng) (f : EngSt → EngSt) (r : Nat) : getScal (upEng c g f) k r = getScal c k r := by
  cases g <;> cases k <;> rfl

/-- The blocks of some engines of a core changed in turn. -/
theorem foldl_upEng_spec (l : List Eng) (hl : l.Nodup) (f : EngSt → EngSt) (c : Core) :
    let d := l.foldl (fun c g => upEng c g f) c
    (∀ k, engSt d k = if k ∈ l then f (engSt c k) else engSt c k) ∧ (∀ k r, getScal d k r = getScal c k r) ∧
    (∀ n, fifoAt d n = fifoAt c n) ∧ d.tid = c.tid := by
  induction l generalizing c with
  | nil => exact ⟨fun _ => rfl, fun _ _ => rfl, fun _ => rfl, rfl⟩
  | cons g l ih =>
    obtain ⟨hg, hl⟩ := List.nodup_cons.mp hl
    obtain ⟨he, hr, hf, ht⟩ := ih hl (upEng c g f)
    refine ⟨fun k => (he k).trans ?_, fun k r => (hr k r).trans (getScal_upEng c g k f r), fun n => (hf n).trans (fifoAt_upEng c g f n),
      ht.trans (by cases g <;> rfl)⟩
    rw [engSt_upEng]
    by_cases hk : g = k
    · subst hk
      simp [hg]
    · simp [hk, Ne.symm hk]

theorem mem_postEngs (k : Eng) : k ∈ postEngs s ↔ k ∈ sideEngs ∧ (engSt (curCore s) k).retired = false := by
  simp [postEngs, sideEngs]

theorem ne_c_of_mem_sideEngs {k : Eng} (hk : k ∈ sideEngs) : k ≠ .c := by
  revert hk
  cases k <;> simp [sideEngs]

/-- The path queues of the engines that have not retired have room for a target. -/
def PathRoom (s : State) : Prop := ∀ g ∈ sideEngs, (engSt (curCore s) g).retired = false → (engSt (curCore s) g).pathq.length < 4

theorem any_postEngs : (postEngs s).any (fun g => decide (4 ≤ (engSt (curCore s) g).pathq.length)) = true ↔ ¬ PathRoom s := by
  simp only [PathRoom, List.any_eq_true, mem_postEngs, decide_eq_true_eq, not_forall, not_lt, exists_prop, and_assoc]

/-- The state with a target posted. -/
def targetPosted (s : State) (tgt : Nat) : State :=
  upCur s (fun c => (postEngs s).foldl (fun c g => upEng c g (fun e => { e with pathq := e.pathq ++ [tgt] })) c)

theorem targetPosted_spec (s : State) (tgt : Nat) :
    (∀ k, engSt (curCore (targetPosted s tgt)) k =
      if k ∈ postEngs s then { engSt (curCore s) k with pathq := (engSt (curCore s) k).pathq ++ [tgt] } else engSt (curCore s) k) ∧
    (∀ k r, getScal (curCore (targetPosted s tgt)) k r = getScal (curCore s) k r) ∧
    ∀ n, fifoAt (curCore (targetPosted s tgt)) n = fifoAt (curCore s) n := by
  obtain ⟨he, hr, hf, -⟩ := foldl_upEng_spec (postEngs s) (List.Nodup.filter _ (by decide))
    (fun e => { e with pathq := e.pathq ++ [tgt] }) (curCore s)
  rw [targetPosted, curCore_upCur]
  exact ⟨he, hr, hf⟩

/-- C's own engine block is not among those that a target is posted to. -/
theorem curEng_targetPosted (hc : s.cur.eng = .c) (tgt : Nat) : curEng (targetPosted s tgt) = curEng s := by
  obtain ⟨he, -⟩ := targetPosted_spec s tgt
  rw [curEng, show (targetPosted s tgt).cur = s.cur from rfl, he, if_neg]
  · rfl
  · rw [hc, mem_postEngs]
    exact fun hk => ne_c_of_mem_sideEngs hk.1 rfl

/-- What a posting word does beside it: `call` notes the offset of the header after its section. -/
def noteReturn (o : Option Reg) (s : State) : State :=
  match o with
  | none => s
  | some d => wr s d (retOffset s)

theorem noteReturn_spec (o : Option Reg) (s : State) : (noteReturn o s).cur = s.cur ∧
    (∀ k, engSt (curCore (noteReturn o s)) k = engSt (curCore s) k) ∧ (∀ n, fifoAt (curCore (noteReturn o s)) n = fifoAt (curCore s) n) ∧
    ∀ r, s.cur.eng = .c → getScal (curCore (noteReturn o s)) .c r =
      if (∃ d, o = some d ∧ r = d.toNat ∧ r ≠ 0) then retOffset s else getScal (curCore s) .c r := by
  cases o with
  | none => exact ⟨rfl, fun _ => rfl, fun _ => rfl, fun r _ => (if_neg (by simp)).symm⟩
  | some d =>
    have hcur : curCore (noteReturn (some d) s) = setScal (curCore s) s.cur.eng d.toNat (retOffset s) := curCore_upCur _ _
    rw [hcur]
    refine ⟨rfl, fun k => engSt_setScal _ _ k _ _, fun n => ?_, fun r hc => ?_⟩
    · unfold setScal
      split <;> [rfl; cases s.cur.eng <;> rfl]
    · rw [hc, getScal_setScal]
      refine if_congr ⟨fun ⟨_, hr, h0⟩ => ⟨d, rfl, hr.symm, fun hz => h0 ⟨rfl, hr.trans hz⟩⟩, ?_⟩ rfl rfl
      rintro ⟨_, ⟨⟩, rfl, h0⟩
      exact ⟨rfl, rfl, fun hz => h0 hz.2⟩

/-- A word that posts the target that `T` gives. -/
def postWord (T : State → Nat) (o : Option Reg) : WordDef :=
  { eff := fun s => match postTarget s (T s) with | .done s => .done (noteReturn o s) | x => x, nxt := fun s => .leave (T s) }

/-- The target of a posting word: it does not change with the posting. -/
def TargetIs (s : State) (T : State → Nat) (o : Option Reg) (tgt : Nat) : Prop :=
  ∀ q, q.cur = s.cur → ((∀ r, getScal (curCore q) .c r = getScal (curCore s) .c r) ∨ o ≠ none) → T q = tgt

theorem exec_posting {d a : Reg} {imm : W32} {i : Instr} {tgt : Nat} (hc : s.cur.eng = .c)
    (hi : (i = .steer h imm ∧ tgt = imm.toNat) ∨ (i = .steerX h a ∧ tgt = (rd s a).toNat) ∨ (i = .call h d imm ∧ tgt = imm.toNat) ∨
      (i = .ret h a ∧ tgt = (rd s a).toNat)) :
    ∃ T o, exec i s = (if steerOk s then runWord s h (postWord T o) else .next (fatalHere s fIllegal)) ∧ TargetIs s T o tgt ∧
      ∀ e, o = some e ↔ i = .call h d imm ∧ e = d := by
  have hrd : TargetIs s (fun s => (rd s a).toNat) none (rd s a).toNat := fun q hq hs => by
    change (getScal (curCore q) q.cur.eng a.toNat).toNat = _
    rw [hq, rd, hc]
    exact congrArg BitVec.toNat (hs.resolve_right (fun h => h rfl) _)
  rcases hi with ⟨rfl, rfl⟩ | ⟨rfl, rfl⟩ | ⟨rfl, rfl⟩ | ⟨rfl, rfl⟩
  · exact ⟨fun _ => imm.toNat, none, rfl, fun _ _ _ => rfl, by simp⟩
  · exact ⟨fun s => (rd s a).toNat, none, rfl, hrd, by simp⟩
  · exact ⟨fun _ => imm.toNat, some d, rfl, fun _ _ _ => rfl, by simp [eq_comm]⟩
  · exact ⟨fun s => (rd s a).toNat, none, rfl, hrd, by simp⟩

theorem wait_waitOn (tick : Nat) (e : EngSt) (k d o : Nat) : (waitOn tick e k d o).wait.kind = k := by
  unfold waitOn
  split
  · next h => exact h.1
  · rfl

theorem steerOk_iff {x : Sec} (hx : (curEng s).sec = some x) : steerOk s = true ↔ x.kind = 1 ∧ secEnd x ≤ (curEng s).pc + 12 := by
  rw [steerOk, secKind, hx]
  simp only [lastWord_of_sec hx, Bool.and_eq_true, beq_iff_eq, decide_eq_true_eq]

section
variable {T : State → Nat} {o : Option Reg} {tgt : Nat} {x : Sec}

/-- The target that a posting word reads as it takes effect. -/
theorem TargetIs.atHand (hT : TargetIs s T o tgt) : T (Machine.atHand s h) = tgt :=
  hT _ (wordMove_atHand s h).1.cur_eq (.inl ((wordMove_atHand s h).2.getScal_eq .c))

theorem postWord_eff_high (hT : T s = tgt) (ht : 2 ^ 48 ≤ tgt) : (postWord T o).eff s =
    .fatal { code := 2, info := 2, addr := (curTeam s).text * 2 ^ 48 + tgt % 2 ^ 48, len := 4 } s := by
  simp only [postWord, postTarget, hT, if_pos ht]

theorem postWord_eff_misaligned (hT : T s = tgt) (ht : tgt < 2 ^ 48) (h4 : tgt % 4 ≠ 0) : (postWord T o).eff s =
    .fatal { code := 4, addr := (curTeam s).text * 2 ^ 48 + tgt % 2 ^ 48, len := 4 } s := by
  simp only [postWord, postTarget, hT, if_neg (Nat.not_le.mpr ht), if_pos h4]

theorem postWord_eff_full (hT : T s = tgt) (ht : tgt < 2 ^ 48) (h4 : tgt % 4 = 0) (hfull : ¬ PathRoom s) :
    (postWord T o).eff s = .stall 3 0 0 s := by
  simp only [postWord, postTarget, hT, if_neg (Nat.not_le.mpr ht), if_neg (not_not.mpr h4), if_pos (any_postEngs.mpr hfull)]

theorem postWord_eff_room (hT : T s = tgt) (ht : tgt < 2 ^ 48) (h4 : tgt % 4 = 0) (hroom : PathRoom s) :
    (postWord T o).eff s = .done (noteReturn o (targetPosted s tgt)) := by
  simp only [postWord, postTarget, hT, if_neg (Nat.not_le.mpr ht), if_neg (not_not.mpr h4), if_neg fun h => any_postEngs.mp h hroom]
  rfl

/-- What follows a posting: the section retired, C at the target, the path queues longer, the return noted. -/
theorem posting_goesOn (hc : s.cur.eng = .c) (hx : (curEng s).sec = some x) (hs : Single s h) (hT : TargetIs s T o tgt) :
    let t := goesOn h (noteReturn o (targetPosted s tgt)) (postWord T o)
    (curEng t).pc = tgt ∧ (curEng t).sec = none ∧ (curEng t).sc = (curEng s).sc + 1 ∧
    (∀ g ∈ sideEngs, (engSt (curCore t) g).pathq = (engSt (curCore s) g).pathq ++ (if (engSt (curCore s) g).retired then [] else [tgt])) ∧
    ∀ r, getScal (curCore t) .c r =
      if (∃ d, o = some d ∧ r = d.toNat ∧ r ≠ 0) then BitVec.ofNat 64 (secEnd x) else getScal (curCore s) .c r := by
  obtain ⟨hpe, hpr, hpf⟩ := targetPosted_spec s tgt
  obtain ⟨hncur, hne, hnf, hnr⟩ := noteReturn_spec o (targetPosted s tgt)
  have hcur : (noteReturn o (targetPosted s tgt)).cur = s.cur := hncur
  have heng : curEng (noteReturn o (targetPosted s tgt)) = curEng s := by
    rw [curEng, hncur, hne]
    exact curEng_targetPosted hc tgt
  have hret : retOffset (targetPosted s tgt) = BitVec.ofNat 64 (secEnd x) := by
    rw [retOffset, curEng_targetPosted hc, hx]
  have hscal (r : Nat) : getScal (curCore (noteReturn o (targetPosted s tgt))) .c r =
      if (∃ d, o = some d ∧ r = d.toNat ∧ r ≠ 0) then BitVec.ofNat 64 (secEnd x) else getScal (curCore s) .c r := by
    rw [hnr r hc, hret, hpr]
  have hsingle : Single (noteReturn o (targetPosted s tgt)) h := by
    refine ⟨by rw [heng]; exact hs.1, ?_⟩
    rw [hcur]
    exact pushBlocked_eq_none_of_le (fun n => by rw [hnf, hpf]) hs.2
  have htgt : T (upCurEng (noteReturn o (targetPosted s tgt)) fun e => { e with reply := {} }) = tgt := by
    refine hT _ hcur ?_
    cases o with
    | none => exact .inl fun r => by rw [curCore_upCurEng, getScal_upEng]; exact hpr .c r
    | some d => exact .inr nofun
  have hm := wordMove_goesOn (w := postWord T o) h (noteReturn o (targetPosted s tgt)) fun _ => rfl
  have hend : curEng (goesOn h (noteReturn o (targetPosted s tgt)) (postWord T o)) = retireSec (settled { curEng s with reply := {} }) tgt := by
    rw [curEng_goesOn (w := postWord T o) hsingle fun _ => rfl, heng]
    exact congrArg (retireSec _) htgt
  refine ⟨by rw [hend]; rfl, by rw [hend]; rfl, by rw [hend]; rfl, fun g hg => ?_, fun r => (hm.2.getScal_eq .c r).trans (hscal r)⟩
  rw [hm.2.engSt_eq (by rw [hcur, hc]; exact ne_c_of_mem_sideEngs hg), hne, hpe]
  cases hret : (engSt (curCore s) g).retired <;> simp [mem_postEngs, hg, hret]
end

theorem steerPostsItsTarget : Claim.SteerPostsItsTarget := by
  intro s h d a imm x i tgt hc hx hr hi last room here
  obtain ⟨T, o, hex, hT, ho⟩ := exec_posting hc hi
  have hlast : steerOk s = true ↔ last := steerOk_iff hx
  have hm := wordMove_atHand s h
  have hpcur : (atHand s h).cur = s.cur := hm.1.cur_eq
  have hT' : TargetIs (atHand s h) T o tgt := fun q hq hs =>
    hT q (hq.trans hpcur) (hs.imp_left fun h r => (h r).trans (hm.2.getScal_eq .c r))
  have hTp : T (atHand s h) = tgt := hT.atHand
  have hside {g : Eng} (hg : g ∈ sideEngs) {t : State} (ht : WordMove (atHand s h) t) : engSt (curCore t) g = engSt (curCore s) g :=
    (hm.trans ht).2.engSt_eq (by rw [hc]; exact ne_c_of_mem_sideEngs hg)
  have hroom : PathRoom (atHand s h) ↔ room :=
    forall₂_congr fun g hg => by rw [hside hg (.refl _)]
  refine ⟨fun hn => by rw [hex, if_neg fun h => hn (hlast.mp h)], fun hl ht => ?_, fun hl ht h4 => ?_, fun hl ht h4 hn => ?_,
    fun hl ht h4 hro hs => ?_⟩
  all_goals rw [hex, if_pos (hlast.mpr hl)]
  · rw [runWord_fatal hr (postWord_eff_high hTp ht), hm.curTeam_eq]
  · rw [runWord_fatal hr (postWord_eff_misaligned hTp ht h4), hm.curTeam_eq]
  · refine ⟨_, runWord_stall hr (postWord_eff_full hTp ht h4 (fun h => hn (hroom.mp h))), ?_, ?_, fun g hg => ?_⟩
    · rw [curEng_upCurEng]
      exact wait_waitOn _ _ _ _ _
    · rw [curEng_upCurEng]
    · rw [hside hg (wordMove_upCurEng (preds_waitOn _ _ _ _ _) fun hj => inJoin_waitOn hj _ _ _ _)]
  · obtain ⟨seen, he⟩ := curEng_atHand s h
    obtain ⟨hpc, hsec, hsc, hq, hscal⟩ := posting_goesOn (T := T) (o := o) (tgt := tgt) (x := x) (by rw [hpcur]; exact hc)
      (by rw [he]; exact hx) (single_atHand hs) hT'
    refine ⟨_, runWord_ready hr (postWord_eff_room hTp ht h4 (hroom.mpr hro)), hpc, hsec, by rw [hsc, he], fun g hg => ?_, fun r => ?_⟩
    · rw [hq g hg, hside hg (.refl _)]
    · rw [hscal r, hm.2.getScal_eq]
      refine if_congr ?_ rfl rfl
      constructor
      · rintro ⟨e, hoe, hr, h0⟩
        obtain ⟨hie, rfl⟩ := (ho e).mp hoe
        exact ⟨hie, hr, h0⟩
      · rintro ⟨hie, hr, h0⟩
        exact ⟨d, (ho d).mpr ⟨hie, rfl⟩, hr, h0⟩

/-- Settles O8: the repetition a `rep` starts, the way a `br` leads, and the target that a posting word leaves for the other engines. -/
theorem controlFlowWords : Obligations.ControlFlowWords := ⟨repeatPrefix, branchWithinASection, steerPostsItsTarget⟩

end Sys2Proof.Machine
end

section
/-! PROOFS. What the effect of a word of V leaves of its core and gives: registers and modes at the effect, sparse registers read back,
elements written under a mask with their flags, and lanes (R47, R58, R174, R175). The words of V build on it. -/
namespace Sys2Proof.Machine

variable {s t p : State} {c d : Core} {g : Eng} {h : Hd}

/-! ## At its effect a word finds the registers it had -/

theorem CoreMoved.vmode_eq (hm : CoreMoved g c d) : d.vmode = c.vmode := by
  obtain ⟨fi, jl, js, tn, ts, e, rfl, -⟩ := hm
  cases g <;> rfl

@[simp] theorem vget_atHand (s : State) (h : Hd) (r e : Nat) : vget (curCore (atHand s h)) r e = vget (curCore s) r e :=
  vget_of_wordMove (wordMove_atHand s h) r e

@[simp] theorem kget_atHand (s : State) (h : Hd) (r : Nat) : kget (curCore (atHand s h)) r = kget (curCore s) r :=
  kget_of_wordMove (wordMove_atHand s h) r

@[simp] theorem vmode_atHand (s : State) (h : Hd) : (curCore (atHand s h)).vmode = (curCore s).vmode := (wordMove_atHand s h).2.vmode_eq

@[simp] theorem vflags_atHand (s : State) (h : Hd) : (curCore (atHand s h)).vflags = (curCore s).vflags := by
  obtain ⟨-, hf, -⟩ := (wordMove_atHand s h).2.vec_eq
  exact hf

@[simp] theorem rd_atHand (s : State) (h : Hd) (r : Reg) : rd (atHand s h) r = rd s r := by
  rw [rd, (wordMove_atHand s h).1.cur_eq]
  exact (wordMove_atHand s h).2.getScal_eq _ _

@[simp] theorem maskOn_atHand (s : State) (h : Hd) (mk : Option Reg) : maskOn (curCore (atHand s h)) mk = maskOn (curCore s) mk := by
  funext e
  cases mk <;> simp [maskOn]

@[simp] theorem modeIn_atHand (s : State) (h : Hd) (md : BitVec 6) : modeIn (atHand s h) md = modeIn s md := by
  simp [modeIn]

@[simp] theorem idxVal_atHand (s : State) (h : Hd) (n : Idx) : idxVal (atHand s h) n = idxVal s n := by
  cases n <;> simp [idxVal]

/-- A word whose effect only rewrites the state goes on from the state it wrote. -/
theorem runWord_effDo (hr : Ready s h) (F : State → State) : runWord s h { eff := effDo F } = .next (goesOn h (F (atHand s h))) :=
  runWord_ready hr rfl

/-! ## Elements written -/

/-- A sparse map made of a list of keys reads as the list gives it. -/
theorem SMap.get_filter_map {α : Type} [DecidableEq α] (d : α) (f : Nat → α) (l : List Nat) (k : Nat) :
    SMap.get d ((l.filter fun i => f i != d).map fun i => (i, f i)) k = if k ∈ l then f k else d := by
  induction l with
  | nil => rfl
  | cons i l ih =>
    by_cases hi : f i = d
    · rw [List.filter_cons_of_neg (by simp [hi]), ih]
      by_cases hk : k = i
      · subst hk
        simp [hi]
      · simp [hk]
    · rw [List.filter_cons_of_pos (by simp [hi]), List.map_cons, SMap.get, ih]
      by_cases hk : i = k
      · simp [hk]
      · simp [hk, Ne.symm hk]

/-- An element of a register set to the elements of a list, one for each of its places. -/
theorem vget_vsetList (c : Core) (r k e : Nat) (f : Nat → W32) (he : e < 1024) :
    vget (vsetList c r ((List.range 1024).map fun i => (i, f i))) k e = if k = r then f e else vget c k e := by
  by_cases hk : k = r
  · subst hk
    rw [if_pos rfl, vget, vsetList, SMap.get_set_same, elemsOf, List.filter_map]
    exact (SMap.get_filter_map 0 f _ e).trans (if_pos (List.mem_range.mpr he))
  · rw [if_neg hk]
    exact vget_set_of_ne c _ e hk

theorem vsetList_eq (c : Core) (r : Nat) (l : List (Nat × W32)) :
    vsetList c r l = { c with v := (vsetList c r l).v, vflags := (vsetList c r l).vflags } := rfl

theorem vflags_vsetList (c : Core) (r : Nat) (l : List (Nat × W32)) : (vsetList c r l).vflags = c.vflags := rfl

theorem testBit_orFlags (l : List Nat) (n : Nat) : (orFlags l).testBit n = l.any fun x => x.testBit n := by
  have key (a : Nat) : (l.foldl (fun a b => a ||| b) a).testBit n = (a.testBit n || l.any fun x => x.testBit n) := by
    induction l generalizing a with
    | nil => simp
    | cons x l ih => rw [List.foldl_cons, ih, Nat.testBit_or, List.any_cons, Bool.or_assoc]
  simpa [orFlags] using key 0

theorem orFlags_eq_zero {l : List Nat} (hl : ∀ x ∈ l, x = 0) : orFlags l = 0 := by
  refine Nat.eq_of_testBit_eq fun n => ?_
  rw [testBit_orFlags, Nat.zero_testBit, List.any_eq_false]
  exact fun x hx => by simp [hl x hx]

/-- VFLAGS gains the low six of the flags raised (R58). -/
theorem getLsbD_raised (v : Word) (f : Nat) {n : Nat} (hn : n < 64) :
    (v ||| BitVec.ofNat 64 (f % 64)).getLsbD n = (v.getLsbD n || (decide (n < 6) && f.testBit n)) := by
  have h6 : (f % 64).testBit n = (decide (n < 6) && f.testBit n) := Nat.testBit_mod_two_pow f 6 n
  rw [BitVec.getLsbD_or, BitVec.getLsbD_ofNat, h6]
  simp [hn]

theorem any_range_congr {n : Nat} {f f' : Nat → Bool} (hf : ∀ e, e < n → f e = f' e) : (List.range n).any f = (List.range n).any f' :=
  Bool.eq_iff_iff.mpr (by
    simp only [List.any_eq_true, List.mem_range]
    exact exists_congr fun e => and_congr_right fun he => by rw [hf e he])

/-! ## A core written twice -/

theorem SMap.del_del {α : Type} (m : SMap α) (k : Nat) : (m.del k).del k = m.del k := by
  simp [SMap.del, List.filter_filter]

theorem SMap.del_put {α : Type} (m : SMap α) (k : Nat) (v : α) : (m.put k v).del k = m.del k := by
  induction m with
  | nil => simp [SMap.put, SMap.del]
  | cons q m ih =>
    obtain ⟨j, w⟩ := q
    unfold SMap.put
    split
    · next hj => simp [SMap.del, hj]
    · split
      · simp [SMap.del]
      · next hj _ =>
        simp only [SMap.del] at ih ⊢
        rw [List.filter_cons_of_pos (by simpa using hj), List.filter_cons_of_pos (by simpa using hj), ih]

theorem SMap.put_put {α : Type} (m : SMap α) (k : Nat) (v w : α) : (m.put k v).put k w = m.put k w := by
  induction m with
  | nil => simp [SMap.put]
  | cons q m ih =>
    obtain ⟨j, x⟩ := q
    by_cases hj : j = k
    · simp [SMap.put, hj]
    · by_cases hl : k < j
      · simp [SMap.put, hj, hl]
      · simp [SMap.put, hj, hl, ih]

/-- The second of two writes of a key stands alone, unless the first unlists a key that the second lists again. -/
theorem SMap.set_set {α : Type} [DecidableEq α] {d v w : α} (m : SMap α) (k : Nat) (hd : v = d → w = d) :
    SMap.set d (SMap.set d m k v) k w = SMap.set d m k w := by
  by_cases hw : w = d
  · by_cases hv : v = d
    · simp only [SMap.set, if_pos hw, if_pos hv, SMap.del_del]
    · simp only [SMap.set, if_pos hw, if_neg hv, SMap.del_put]
  · simp only [SMap.set, if_neg hw, if_neg fun hv => hw (hd hv), SMap.put_put]

/-- Two changes of the executing core are one, unless the first makes it a core at reset and the second does not leave it one: a core
at reset is not listed, and listing it anew forgets what else a list out of canonical form holds of it. -/
theorem upCur_upCur {f k : Core → Core} (hd : f (curCore s) = {} → k {} = {}) :
    upCur (upCur s f) k = upCur s fun c => k (f c) := by
  change { s with cores := SMap.set {} (SMap.set {} s.cores s.cur.core (f (curCore s))) s.cur.core (k (curCore (upCur s f))) } = _
  rw [curCore_upCur, SMap.set_set _ _ fun he => by rw [he]; exact hd he]
  rfl

theorem upCur_congr {f k : Core → Core} (hf : f (curCore s) = k (curCore s)) : upCur s f = upCur s k := congrArg (setCore s s.cur.core) hf

/-! ## Vector registers written without flags -/

theorem VecResult.congr {r : Reg} {on : Nat → Bool} {f f' : Nat → ElRes} (hr : VecResult s t r on f)
    (hf : ∀ e, e < 1024 → f e = f' e) : VecResult s t r on f' := by
  obtain ⟨ht, hval, hkeep, hflag⟩ := hr
  refine ⟨ht, fun e he => by rw [hval e he, hf e he], hkeep, fun n hn => ?_⟩
  rw [hflag n hn, any_range_congr fun e he => by rw [hf e he]]

/-- A register set to what the lanes give under a mask, where they raise no flag. -/
theorem vecResult_vsetList {r : Reg} {on : Nat → Bool} {f : Nat → ElRes} {x : Nat → W32} (hf : ∀ e, (f e).flags = 0)
    (hx : ∀ e, x e = if on e then (f e).val else vget (curCore p) r.toNat e) :
    VecResult p (upCur p fun c => vsetList c r.toNat ((List.range 1024).map fun e => (e, x e))) r on f := by
  have hc : curCore (upCur p fun c => vsetList c r.toNat ((List.range 1024).map fun e => (e, x e))) =
      vsetList (curCore p) r.toNat ((List.range 1024).map fun e => (e, x e)) := curCore_upCur _ _
  unfold VecResult VecElems
  rw [hc]
  refine ⟨upCur_congr (vsetList_eq _ _ _), fun e he => ?_, fun k e hk => vget_set_of_ne _ _ e hk, fun n hn => ?_⟩
  · rw [vget_vsetList _ _ _ _ _ he, if_pos rfl, hx]
  · have hz : ((List.range 1024).any fun e => on e && (f e).flags.testBit n) = false :=
      List.any_eq_false.mpr fun e _ => by simp [hf e]
    rw [hz, Bool.and_false, Bool.or_false, vflags_vsetList]

theorem vecResult_writeAll (p : State) (r : Reg) (x : Nat → W32) : VecResult p (writeAll p r.toNat x) r (fun _ => true) fun e => { val := x e } :=
  vecResult_vsetList (fun _ => rfl) fun _ => rfl

/-- A register written element by element under a mask, where the elements raise no flag. -/
theorem vecResult_writeVec {r : Reg} {on : Nat → Bool} {f : Nat → ElRes} (hf : ∀ e, (f e).flags = 0) :
    VecResult p (writeVec p r.toNat on f) r on f := by
  let x (e : Nat) : W32 := if on e then (f e).val else vget (curCore p) r.toNat e
  let l := (List.range 1024).map fun e => if on e then (e, f e) else (e, { val := vget (curCore p) r.toNat e })
  have hl : l.map (fun q => (q.1, q.2.val)) = (List.range 1024).map fun e => (e, x e) := by
    rw [List.map_map]
    exact List.map_congr_left fun e _ => by dsimp only [x, Function.comp]; split <;> rfl
  have hz : orFlags (l.map fun q => q.2.flags) = 0 := orFlags_eq_zero fun y hy => by
    rw [List.map_map] at hy
    obtain ⟨e, -, rfl⟩ := List.mem_map.mp hy
    dsimp only [Function.comp]
    split <;> [exact hf e; rfl]
  have hw : writeVec p r.toNat on f = upCur p fun c => vsetList c r.toNat ((List.range 1024).map fun e => (e, x e)) := by
    change raiseFlags (upCur p fun c => vsetList c r.toNat (l.map fun q => (q.1, q.2.val))) (orFlags (l.map fun q => q.2.flags)) = _
    rw [hl, hz, raiseFlags]
    have hsame (c : Core) : { c with vflags := c.vflags ||| BitVec.ofNat 64 (0 % 64) } = c := by simp
    rw [upCur_upCur fun _ => hsame {}]
    simp only [hsame]
  rw [hw]
  exact vecResult_vsetList hf fun _ => rfl

/-! ## Lanes -/

theorem lanesOf_lt (ty : ETy) (x : W32) : ∀ y ∈ lanesOf ty x, y < 2 ^ etyBits ty := by
  intro y hy
  obtain ⟨i, -, rfl⟩ := List.mem_map.mp hy
  exact Nat.mod_lt _ (Nat.two_pow_pos _)

/-- The element computed from lanes of one and of two sources, in the order of the lanes. -/
theorem lanes1_eq (ty : ETy) (f : Nat → FpRes) (x : W32) :
    lanes1 ty f x = elOf (etyBits ty) ((List.range (etyLanes ty)).map fun i => f (laneGet (etyBits ty) x i)) := by
  rw [lanes1, lanesOf, List.map_map]
  rfl

theorem lanes2_eq (ty : ETy) (f : Nat → Nat → FpRes) (x y : W32) : lanes2 ty f x y =
    elOf (etyBits ty) ((List.range (etyLanes ty)).map fun i => f (laneGet (etyBits ty) x i) (laneGet (etyBits ty) y i)) := by
  rw [lanes2, lanesOf, lanesOf, List.zip_map', List.map_map]
  rfl

theorem lanes1_congr {ty : ETy} {f f' : Nat → FpRes} (hf : ∀ x, x < 2 ^ etyBits ty → f x = f' x) (x : W32) :
    lanes1 ty f x = lanes1 ty f' x := by
  rw [lanes1, lanes1, List.map_congr_left fun y hy => hf y (lanesOf_lt ty x y hy)]

theorem elOf_flags_eq_zero {w : Nat} {l : List FpRes} (hl : ∀ r ∈ l, r.flags = 0) : (elOf w l).flags = 0 :=
  orFlags_eq_zero fun x hx => by
    obtain ⟨r, hr, rfl⟩ := List.mem_map.mp hx
    exact hl r hr

theorem lanes1_flags {ty : ETy} {f : Nat → FpRes} (hf : ∀ x, (f x).flags = 0) (x : W32) : (lanes1 ty f x).flags = 0 :=
  elOf_flags_eq_zero fun r hr => by
    obtain ⟨y, -, rfl⟩ := List.mem_map.mp hr
    exact hf y

theorem lanes2_flags {ty : ETy} {f : Nat → Nat → FpRes} (hf : ∀ x y, (f x y).flags = 0) (x y : W32) : (lanes2 ty f x y).flags = 0 :=
  elOf_flags_eq_zero fun r hr => by
    obtain ⟨q, -, rfl⟩ := List.mem_map.mp hr
    exact hf q.1 q.2

end Sys2Proof.Machine
end

section
/-! PROOFS. The integer words of V and the words that move elements (R50, R51, R191–R193, R199, R205, R206). -/
namespace Sys2Proof.Machine

variable {s t p : State} {h : Hd} {i : Instr} {ty : ETy} {d a b e : Reg} {mk : Option Reg}

/-! ## Words that compute lanes without flags -/

theorem lane1_of_noFlags {F : State → Nat → FpRes} {f : Nat → FpRes} (hr : Ready s h) (hi : exec i s = lane1 s h ty d a mk F)
    (hF : ∀ x, x < 2 ^ etyBits ty → F (atHand s h) x = f x) (hf : ∀ x, (f x).flags = 0) : Lane1 s h i ty d a mk f := by
  refine ⟨_, hi.trans (runWord_effDo hr _), ?_⟩
  have hl : (fun n => elOf (etyBits ty) ((lanesOf ty (vget (curCore (atHand s h)) a.toNat n)).map (F (atHand s h)))) =
      fun n => lanes1 ty f (vget (curCore s) a.toNat n) := funext fun n => by rw [vget_atHand]; exact lanes1_congr hF _
  dsimp only
  rw [hl, maskOn_atHand]
  exact vecResult_writeVec fun n => lanes1_flags hf _

theorem lane2_of_noFlags {F : State → Nat → Nat → FpRes} {f : Nat → Nat → FpRes} (hr : Ready s h) (hi : exec i s = lane2 s h ty d a b mk F)
    (hF : ∀ x y, F (atHand s h) x y = f x y) (hf : ∀ x y, (f x y).flags = 0) : Lane2 s h i ty d a b mk f := by
  refine ⟨_, hi.trans (runWord_effDo hr _), ?_⟩
  simp only [hF, vget_atHand, maskOn_atHand]
  exact vecResult_writeVec fun n => lanes2_flags hf _ _

/-- A shift of each lane by the lane of another register. -/
theorem shiftWord_reg {op : ETy → Nat → Nat → Nat} {f : Nat → Nat → FpRes} (hr : Ready s h)
    (hi : exec i s = shiftWord op s h ty d a (.reg b) mk) (hf : ∀ x m, ({ bits := op ty x m } : FpRes) = f x m) : Lane2 s h i ty d a b mk f := by
  refine ⟨_, hi.trans (runWord_effDo hr _), ?_⟩
  simp only [vget_atHand, maskOn_atHand, laneAmount, hf, lanes2_eq]
  exact vecResult_writeVec fun n => by rw [← lanes2_eq]; exact lanes2_flags (fun x m => by rw [← hf]) _ _

/-- A shift of each lane by one amount. -/
theorem shiftWord_imm {op : ETy → Nat → Nat → Nat} {f : Nat → Nat → FpRes} {n : W32} (hr : Ready s h)
    (hi : exec i s = shiftWord op s h ty d a (.imm n) mk) (hf : ∀ x m, ({ bits := op ty x m } : FpRes) = f x m) :
    Lane1 s h i ty d a mk fun x => f x (n.toNat % 32) := by
  refine ⟨_, hi.trans (runWord_effDo hr _), ?_⟩
  simp only [vget_atHand, maskOn_atHand, laneAmount, hf, lanes1_eq]
  exact vecResult_writeVec fun k => by rw [← lanes1_eq ty fun x => f x (n.toNat % 32)]; exact lanes1_flags (fun x => by rw [← hf]) _

/-- A word that moves elements under a mask. -/
theorem moved_of_writeVec {on : Nat → Bool} {f : Nat → W32} (hr : Ready s h) {F : State → State} (hi : exec i s = runWord s h { eff := effDo F })
    (hF : F (atHand s h) = writeVec (atHand s h) d.toNat on fun e => { val := f e }) : Moved s h i d on f :=
  ⟨_, hi.trans (runWord_effDo hr _), by rw [hF]; exact vecResult_writeVec fun _ => rfl⟩

/-! ## Integers as lanes -/

theorem toTwos_eq_wrapped (ty : ETy) (x : Int) : ({ bits := toTwos (etyBits ty) x } : FpRes) = wrapped ty x := by
  simp only [toTwos, wrapped]
  push_cast
  rfl

theorem intLane_wrap (ty : ETy) (x : Int) : intLane ty false x = wrapped ty x := toTwos_eq_wrapped ty x

theorem intLane_clamp (hty : ty ∈ [ETy.i8, .i16, .i32, .n8, .n16, .n32]) (x : Int) : intLane ty true x = clamped ty x := by
  have hrange : etyRange ty = if etySigned ty then (-(2 ^ (etyBits ty - 1)), 2 ^ (etyBits ty - 1) - 1) else (0, 2 * 2 ^ (etyBits ty - 1) - 1) := by
    simp only [List.mem_cons, List.not_mem_nil, or_false] at hty
    rcases hty with rfl | rfl | rfl | rfl | rfl | rfl <;> rfl
  rw [intLane, hrange]
  cases hs : etySigned ty
  · simp only [clamped, hs, Bool.false_eq_true, if_false, if_true]
    exact toTwos_eq_wrapped ty _
  · simp only [clamped, hs, if_true]
    exact toTwos_eq_wrapped ty _

theorem intLane_fit (hty : ty ∈ [ETy.i8, .i16, .i32, .n8, .n16, .n32]) (q : Bool) (x : Int) :
    intLane ty q x = if q then clamped ty x else wrapped ty x := by
  cases q
  · exact intLane_wrap ty x
  · exact intLane_clamp hty x

theorem etyIsFp_int (hty : ty ∈ [ETy.i8, .i16, .i32, .n8, .n16, .n32]) : etyIsFp ty = false := by
  simp only [List.mem_cons, List.not_mem_nil, or_false] at hty
  rcases hty with rfl | rfl | rfl | rfl | rfl | rfl <;> rfl

/-- `vadd`, `vsub` and `vmul` of integers (R51, R191). -/
theorem arith2_int {fp : Fmt → RMode → FpVal → FpVal → FpRes} {op : Int → Int → Int} {md : BitVec 6} (hr : Ready s h)
    (hty : ty ∈ [ETy.i8, .i16, .i32, .n8, .n16, .n32]) (hi : exec i s = arith2 fp op s h ty md d a b mk) :
    Lane2 s h i ty d a b mk fun x y => if mdQual md then clamped ty (op (laneInt ty x) (laneInt ty y)) else
      wrapped ty (op (laneInt ty x) (laneInt ty y)) := by
  refine lane2_of_noFlags hr hi (fun x y => ?_) fun x y => ?_
  · rw [etyIsFp_int hty, if_neg Bool.false_ne_true]
    exact intLane_fit hty _ _
  · split <;> rfl

theorem popcN_eq (w x : Nat) : popcN w x = ((List.range w).filter fun i => x.testBit i).length := by
  unfold popcN
  induction w with
  | zero => rfl
  | succ w ih =>
    rw [List.range_succ, List.foldl_append, ih, List.filter_append, List.length_append]
    simp only [List.foldl_cons, List.foldl_nil, List.filter_cons, List.filter_nil, Nat.testBit_eq_decide_div_mod_eq]
    rcases Nat.mod_two_eq_zero_or_one (x / 2 ^ w) with hb | hb <;> simp [hb]

/-! ## The sum of four products -/

/-- The exact sum of `vdot4` as the element of E and the four products (R193). -/
theorem dot4_eq (hl : etyLanes ty = 4) (hw : etyBits ty = 8) (x y z : W32) : dot4 ty x y z =
    ofTwos 32 (etySigned ty) z.toNat + ((List.range 4).map fun k => laneInt ty (laneGet 8 x k) * laneInt ty (laneGet 8 y k)).sum := by
  rw [dot4, lanesOf, lanesOf, hl, hw, List.zip_map', show List.range 4 = [0, 1, 2, 3] from rfl]
  simp only [List.map_cons, List.map_nil, List.foldl_cons, List.foldl_nil, List.sum_cons, List.sum_nil]
  ring

theorem vdot4_wide (q : Bool) (x : Int) :
    intLane (if etySigned ty then .i32 else .n32) q x =
      if q then clamped (if etySigned ty then .i32 else .n32) x else wrapped (if etySigned ty then .i32 else .n32) x :=
  intLane_fit (by cases etySigned ty <;> simp) q x

theorem integerLanes : Claim.IntegerLanes := by
  intro s h ty md q d a b e sh mk hr hty w fit
  have hfp : etyIsFp ty = false := etyIsFp_int hty
  have hsh (op : ETy → Nat → Nat → Nat) (f : Nat → Nat → FpRes) (i : Instr) (hi : exec i s = shiftWord op s h ty d a sh mk)
      (hf : ∀ x m, ({ bits := op ty x m } : FpRes) = f x m) : match (generalizing := false) sh with
        | .reg r => Lane2 s h i ty d a r mk f
        | .imm n => Lane1 s h i ty d a mk fun x => f x (n.toNat % 32) := by
    cases sh with
    | reg r => exact shiftWord_reg hr hi hf
    | imm n => exact shiftWord_imm hr hi hf
  refine ⟨arith2_int hr hty rfl, arith2_int hr hty rfl, arith2_int hr hty rfl,
    lane2_of_noFlags hr rfl (fun x y => ?_) fun _ _ => rfl, lane2_of_noFlags hr rfl (fun x y => ?_) fun _ _ => rfl,
    lane1_of_noFlags hr rfl (fun x _ => ?_) fun _ => rfl, lane1_of_noFlags hr rfl (fun x _ => ?_) fun _ => rfl,
    lane2_of_noFlags (F := fun _ x y => intLane ty false (laneInt ty x * laneInt ty y / 2 ^ etyBits ty)) hr rfl
      (fun x y => intLane_wrap ty _) fun _ _ => rfl,
    lane2_of_noFlags (F := fun _ x y => { bits := x &&& y }) hr rfl (fun _ _ => rfl) fun _ _ => rfl,
    lane2_of_noFlags (F := fun _ x y => { bits := x ||| y }) hr rfl (fun _ _ => rfl) fun _ _ => rfl,
    lane2_of_noFlags (F := fun _ x y => { bits := x ^^^ y }) hr rfl (fun _ _ => rfl) fun _ _ => rfl,
    lane1_of_noFlags (F := fun _ x => { bits := 2 ^ etyBits ty - 1 - x }) hr rfl (fun _ _ => rfl) fun _ => rfl,
    lane1_of_noFlags (F := fun _ x => { bits := popcN (etyBits ty) x }) hr rfl (fun x _ => by rw [popcN_eq]) fun _ => rfl,
    lane1_of_noFlags (F := fun _ x => { bits := clzN (etyBits ty) x }) hr rfl (fun _ _ => rfl) fun _ => rfl,
    ⟨hsh shlLane _ _ rfl fun _ _ => rfl, hsh shrLane _ _ rfl fun _ _ => rfl, hsh sarLane _ _ rfl fun x m => toTwos_eq_wrapped ty _⟩,
    fun h8 => ⟨_, runWord_effDo hr _, ?_⟩⟩
  · simp [minMaxLane, hfp]
  · simp [minMaxLane, hfp]
  · rw [absLane, hfp, if_neg Bool.false_ne_true, intLane_wrap, Int.natCast_natAbs]
  · rw [negLane, hfp, if_neg Bool.false_ne_true, intLane_wrap]
  · have hl : etyLanes ty = 4 ∧ etyBits ty = 8 := by rcases h8 with rfl | rfl <;> exact ⟨rfl, rfl⟩
    simp only [vget_atHand, vdot4_wide, dot4_eq hl.1 hl.2]
    exact vecResult_writeAll _ _ _

/-! ## Words that move elements and lanes -/

/-- A packed element holds its lanes (R47). -/
theorem lanePack_lt (w : Nat) (l : List Nat) : lanePack w l < 2 ^ (w * l.length) := by
  induction l with
  | nil => simp [lanePack]
  | cons x l ih =>
    have hx : x % 2 ^ w < 2 ^ w := Nat.mod_lt _ (Nat.two_pow_pos w)
    rw [lanePack, List.length_cons, Nat.mul_succ, Nat.pow_add, Nat.mul_comm (2 ^ (w * l.length))]
    calc x % 2 ^ w + 2 ^ w * lanePack w l < 2 ^ w * (lanePack w l + 1) := by rw [Nat.mul_succ]; omega
      _ ≤ 2 ^ w * 2 ^ (w * l.length) := Nat.mul_le_mul_left _ ih

theorem lanePack_lane (w : Nat) (l : List Nat) (k : Nat) (hk : k < l.length) : lanePack w l / 2 ^ (w * k) % 2 ^ w = l[k] % 2 ^ w := by
  induction l generalizing k with
  | nil => exact absurd hk (Nat.not_lt_zero k)
  | cons x l ih =>
    cases k with
    | zero => simp [lanePack]
    | succ k =>
      have hx : x % 2 ^ w < 2 ^ w := Nat.mod_lt _ (Nat.two_pow_pos w)
      rw [lanePack, Nat.mul_succ, Nat.add_comm (w * k), Nat.pow_add, ← Nat.div_div_eq_div_mul,
        Nat.add_mul_div_left _ _ (Nat.two_pow_pos w), Nat.div_eq_of_lt hx, Nat.zero_add]
      exact ih k (Nat.lt_of_succ_lt_succ hk)

theorem laneGet_laneElem {w : Nat} {l : List Nat} (hw : w * l.length ≤ 32) {k : Nat} (hk : k < l.length) :
    laneGet w (laneElem w l) k = l[k] % 2 ^ w := by
  have hlt : lanePack w l < 2 ^ 32 := (lanePack_lt w l).trans_le (Nat.pow_le_pow_right (by decide) hw)
  rw [laneGet, laneElem, BitVec.toNat_ofNat, Nat.mod_eq_of_lt hlt, lanePack_lane w l k hk]

theorem length_lanesOf (ty : ETy) (x : W32) : (lanesOf ty x).length = etyLanes ty := by
  rw [lanesOf, List.length_map, List.length_range]

/-- The lanes of an element of which one was replaced. -/
theorem laneGet_laneSet (hw : etyBits ty ≤ 32) (x : W32) (j v k : Nat) (hk : k < etyLanes ty) :
    laneGet (etyBits ty) (laneSet ty x j v) k = if k = j then v % 2 ^ etyBits ty else laneGet (etyBits ty) x k := by
  have hl : etyBits ty * etyLanes ty ≤ 32 := by
    revert hw
    cases ty <;> decide
  have hlen : ((lanesOf ty x).set j v).length = etyLanes ty := by rw [List.length_set, length_lanesOf]
  rw [laneSet, laneGet_laneElem (hlen ▸ hl) (hlen ▸ hk), List.getElem_set]
  by_cases hkj : j = k
  · rw [if_pos hkj, if_pos hkj.symm]
  · rw [if_neg hkj, if_neg (Ne.symm hkj)]
    simp [lanesOf, laneGet]

theorem etyLanes_pos (ty : ETy) : 0 < etyLanes ty := by cases ty <;> decide

/-- A value of the first register of a group (R174). -/
theorem groupVal_of_lt (c : Core) (ty : ETy) (r : Nat) {j : Nat} (hj : j < 1024 * etyLanes ty) :
    groupVal c ty r j = laneGet (etyBits ty) (vget c r (j / etyLanes ty)) (j % etyLanes ty) := by
  simp only [groupVal, Nat.div_eq_of_lt hj, Nat.mod_eq_of_lt hj, Nat.add_zero]

theorem idxVal_eq (s : State) (n : Idx) : idxVal s n = match n with | .reg r => (rd s r).toNat | .imm k => k.toNat := by
  cases n <;> rfl

theorem elementMoves : Claim.ElementMoves := by
  intro s h ax ty d a b e n mk hr c on l idx j
  have hidx : idxVal (atHand s h) n = idx := (idxVal_atHand s h n).trans (idxVal_eq s n)
  have hj : j < 1024 * l := Nat.mod_lt _ (Nat.mul_pos (by decide) (etyLanes_pos ty))
  have hmove (f : Axis → Nat → Nat → Nat) (i : Instr) (hi : exec i s = moveWord f h ax d a n mk s) :
      Moved s h i d on fun k => vget c a.toNat (f ax idx k) :=
    moved_of_writeVec hr hi (by simp only [vget_atHand, maskOn_atHand, hidx, on, c])
  refine ⟨moved_of_writeVec hr rfl (by simp only [vget_atHand, maskOn_atHand, on, c]),
    moved_of_writeVec hr rfl (by simp only [rd_atHand, maskOn_atHand, on, l, c]),
    ⟨_, runWord_effDo hr _, ?_⟩, ?_, ?_, ?_, _, runWord_effDo hr _, fun hw => ⟨?_, ?_, ?_⟩⟩
  · simp only [vget_atHand, kget_atHand]
    exact vecResult_writeAll _ _ _
  · have hm := hmove rotSrc (.vrot h ax ty d a n mk) rfl
    cases ax <;> exact hm
  · have hm := hmove bcastSrc (.vbcast h ax ty d a n mk) rfl
    cases ax <;> exact hm
  · refine (runWord_effDo hr _).trans ?_
    rw [groupVal_of_lt c ty a.toNat hj]
    simp only [hidx, vget_atHand]
    rfl
  · exact upCur_congr (by rw [curCore_upCur]; rfl)
  · intro r k hk
    rw [curCore_upCur, vget_vput, if_neg, vget_atHand]
    rw [hidx]
    rintro ⟨rfl, rfl⟩
    exact hk.elim (fun h => h rfl) fun h => h rfl
  · intro k hk
    rw [curCore_upCur, vget_vput, if_pos ⟨rfl, by rw [hidx]⟩, laneGet_laneSet hw _ _ _ _ hk]
    simp only [hidx, vget_atHand, rd_atHand]
    rfl

/-- Settles O19: each word by what it does with the elements it finds; none of them raises a flag. -/
theorem integerLanesAndMoves : Obligations.IntegerLanesAndMoves := ⟨integerLanes, elementMoves⟩

end Sys2Proof.Machine
end

section
/-! PROOFS. VMODE and VFLAGS, comparisons and the words on masks (R57, R58, R175, R185, R188, R203). -/
namespace Sys2Proof.Machine

variable {s t p : State} {c : Core} {h : Hd} {i : Instr} {ty : ETy} {d a b : Reg} {mk : Option Reg}

/-! ## VMODE and VFLAGS -/

theorem newVmode_fields (old v : Word) : (newVmode old v).toNat < 32 ∧ (newVmode old v).toNat / 8 = v.toNat / 8 % 4 ∧
    (newVmode old v).toNat % 8 = if v.toNat % 8 < 5 then v.toNat % 8 else old.toNat % 8 := by
  unfold newVmode
  dsimp only
  rw [BitVec.toNat_ofNat]
  split <;> split <;> omega

theorem vectorModeAndFlags : Claim.VectorModeAndFlags := by
  intro s h d a hr p
  refine ⟨?_, ?_, ⟨newVmode (curCore s).vmode (rd s a), ?_, newVmode_fields _ _⟩, ⟨BitVec.ofNat 64 ((rd s a).toNat % 64), ?_, ?_⟩⟩
  · refine (runWord_effDo hr _).trans ?_
    simp only [vmode_atHand]
    rfl
  · refine (runWord_effDo hr _).trans ?_
    simp only [vflags_atHand]
    rfl
  · refine (runWord_effDo hr _).trans ?_
    rw [upCur_congr (k := fun c => { c with vmode := newVmode (curCore s).vmode (rd s a) }) (by rw [vmode_atHand, rd_atHand])]
  · refine (runWord_effDo hr _).trans ?_
    rw [rd_atHand]
  · rw [BitVec.toNat_ofNat]
    omega

/-! ## Masks -/

/-- The bits that a mask is made of. -/
theorem testBit_foldr_bits (n : Nat) (f : Nat → Bool) (e : Nat) :
    ((List.range n).foldr (fun i acc => 2 * acc + if f i then 1 else 0) 0).testBit e = (decide (e < n) && f e) := by
  induction n generalizing f e with
  | zero => simp
  | succ n ih =>
    rw [List.range_succ_eq_map, List.foldr_cons, List.foldr_map]
    cases e with
    | zero => cases f 0 <;> simp [Nat.testBit_zero]
    | succ e =>
      rw [Nat.testBit_succ, show ∀ x : Nat, (2 * x + if f 0 then 1 else 0) / 2 = x from fun x => by split <;> omega, ih fun i => f (i + 1)]
      simp

theorem getLsbD_maskTab (f : Nat → Bool) {e : Nat} (he : e < 1024) : (maskTab f).getLsbD e = f e := by
  rw [maskTab, BitVec.getLsbD_ofNat, testBit_foldr_bits]
  simp [he]

theorem getLsbD_firstMask (n : Nat) {e : Nat} (he : e < 1024) : (firstMask n).getLsbD e = decide (e < n) := by
  rw [firstMask, BitVec.getLsbD_ofNat, Nat.testBit_two_pow_sub_one]
  simp only [he, decide_true, Bool.true_and, decide_eq_decide]
  omega

theorem firstSet_spec (m : BitVec 1024) : firstSet m ≤ 1024 ∧ (∀ e, e < firstSet m → m.getLsbD e = false) ∧
    (firstSet m < 1024 → m.getLsbD (firstSet m) = true) := by
  unfold firstSet
  cases hf : (List.range 1024).find? (fun i => m.getLsbD i) with
  | none =>
    rw [List.find?_eq_none] at hf
    exact ⟨le_refl _, fun e he => Bool.eq_false_iff.mpr (hf e (List.mem_range.mpr he)), fun hlt => absurd hlt (lt_irrefl _)⟩
  | some k =>
    obtain ⟨hk, hlt, hmin⟩ := List.find?_range_eq_some.mp hf
    refine ⟨(List.mem_range.mp hlt).le, fun e he => ?_, fun _ => hk⟩
    simpa using hmin e he

/-- A mask word goes on from the mask it wrote. -/
theorem maskWord_done {f : State → BitVec 1024} {m : BitVec 1024} (hr : Ready s h) (hi : exec i s = maskWord s h d f) (hf : f (atHand s h) = m) :
    exec i s = .next (goesOn h (upCur (atHand s h) fun c => kset c d.toNat m)) := by
  rw [hi, ← hf]
  exact runWord_effDo hr _

theorem rdK_atHand (s : State) (h : Hd) (a : Reg) : rdK (atHand s h) a = kget (curCore s) a.toNat := kget_atHand s h a.toNat

/-! ## Comparisons -/

/-- A core after the comparison of one lane: its mask written, its flags gained. -/
def cmpStep (r : Nat) (m : Nat → BitVec 1024) (fl : Nat → Nat) (c : Core) (i : Nat) : Core :=
  { kset c (r + i) (m i) with vflags := c.vflags ||| BitVec.ofNat 64 (fl i % 64) }

section
variable (r : Nat) (m : Nat → BitVec 1024) (fl : Nat → Nat)

theorem cmpSteps_rest (c : Core) (n : Nat) : let x := (List.range n).foldl (cmpStep r m fl) c
    x = { c with k := x.k, vflags := x.vflags } := by
  induction n with
  | zero => rfl
  | succ n ih =>
    dsimp only at ih ⊢
    rw [List.range_succ, List.foldl_append, List.foldl_cons, List.foldl_nil, ih]
    rfl

theorem kget_cmpStep (c : Core) (i j : Nat) : kget (cmpStep r m fl c i) j = if r + i = j then m i else kget c j := kget_kset c (r + i) j (m i)

theorem kget_cmpSteps (c : Core) (n j : Nat) :
    kget ((List.range n).foldl (cmpStep r m fl) c) j = if r ≤ j ∧ j < r + n then m (j - r) else kget c j := by
  induction n with
  | zero => exact (if_neg (by omega)).symm
  | succ n ih =>
    rw [List.range_succ, List.foldl_append, List.foldl_cons, List.foldl_nil, kget_cmpStep, ih]
    by_cases hj : r + n = j
    · subst hj
      rw [if_pos rfl, if_pos (by omega), Nat.add_sub_cancel_left]
    · rw [if_neg hj]
      exact if_congr (by omega) rfl rfl

theorem vflags_cmpSteps (c : Core) (n : Nat) {k : Nat} (hk : k < 64) : ((List.range n).foldl (cmpStep r m fl) c).vflags.getLsbD k =
    (c.vflags.getLsbD k || (decide (k < 6) && (List.range n).any fun i => (fl i).testBit k)) := by
  induction n with
  | zero => simp
  | succ n ih =>
    rw [List.range_succ, List.foldl_append, List.foldl_cons, List.foldl_nil, List.any_append]
    change (_ ||| BitVec.ofNat 64 _).getLsbD k = _
    rw [getLsbD_raised _ _ hk, ih]
    simp [Bool.and_or_distrib_left, Bool.or_assoc]

/-- Lane by lane a comparison changes the executing core as one change would: its writes never make it a core at reset that a later one
changes, since without vector registers every lane compares alike and raises no flag. -/
theorem foldl_compare (n : Nat) (hc : (curCore p).v ≠ [] ∨ (∀ i, fl i = 0) ∧ ∀ i, m i = m 0) :
    (List.range (n + 1)).foldl (fun s i => raiseFlags (upCur s fun c => kset c (r + i) (m i)) (fl i)) p =
      upCur p fun c => (List.range (n + 1)).foldl (cmpStep r m fl) c := by
  have hone (s : State) (i : Nat) (hs : (curCore s).v = (curCore p).v) :
      raiseFlags (upCur s fun c => kset c (r + i) (m i)) (fl i) = upCur s fun c => cmpStep r m fl c i := by
    refine upCur_upCur fun he => ?_
    have hv : (curCore p).v = [] := hs ▸ congrArg Core.v he
    rw [(hc.resolve_left fun h => h hv).1 i]
    rfl
  induction n with
  | zero => exact hone p 0 rfl
  | succ n ih =>
    let x := (List.range (n + 1)).foldl (cmpStep r m fl) (curCore p)
    have hx : x = { curCore p with k := x.k, vflags := x.vflags } := cmpSteps_rest r m fl (curCore p) (n + 1)
    have hcore : curCore (upCur p fun c => (List.range (n + 1)).foldl (cmpStep r m fl) c) = x := curCore_upCur _ _
    rw [List.range_succ, List.foldl_append, ih, List.foldl_cons, List.foldl_nil, hone _ _ (by rw [hcore, hx]), upCur_upCur fun he => ?_]
    · simp only [List.foldl_append, List.foldl_cons, List.foldl_nil]
    · have he : x = {} := he
      have hv : (curCore p).v = [] := (congrArg Core.v hx).symm.trans (congrArg Core.v he)
      obtain ⟨hfl, hm⟩ := hc.resolve_left fun h => h hv
      have hk : m n = 0 := by
        have hget : kget x (r + n) = m n := by rw [kget_cmpSteps, if_pos (by omega), Nat.add_sub_cancel_left]
        rw [← hget, he]
        rfl
      have hreset (j : Nat) : kset ({} : Core) j 0 = {} := by
        rw [kset, SMap.set, if_pos rfl]
        rfl
      rw [cmpStep, hfl, hm (n + 1), ← hm n, hk, hreset]
      rfl
end

/-- The relation of a lane of two elements where the mask compares them, and its flags. -/
def maskedLane (c : Core) (vr : VRel) (ty : ETy) (a b : Reg) (mk : Option Reg) (i e : Nat) : Bool × Nat :=
  if maskOn c mk e then cmpLane vr ty (laneGet (etyBits ty) (vget c a.toNat e) i) (laneGet (etyBits ty) (vget c b.toNat e) i) else (false, 0)

/-- The mask and the flags that one lane of a comparison gives. -/
def laneMask (c : Core) (vr : VRel) (ty : ETy) (a b : Reg) (mk : Option Reg) (i : Nat) : BitVec 1024 :=
  maskTab fun e => (maskedLane c vr ty a b mk i e).1
def laneFlags (c : Core) (vr : VRel) (ty : ETy) (a b : Reg) (mk : Option Reg) (i : Nat) : Nat :=
  orFlags ((List.range 1024).map fun e => (maskedLane c vr ty a b mk i e).2)

theorem maskTab_congr {f f' : Nat → Bool} (hf : ∀ e, e < 1024 → f e = f' e) : maskTab f = maskTab f' := by
  refine BitVec.eq_of_getLsbD_eq fun e he => ?_
  rw [getLsbD_maskTab f he, getLsbD_maskTab f' he, hf e he]

/-- Two zeros compare without flags. -/
theorem cmpLane_zero_flags (vr : VRel) (ty : ETy) : (cmpLane vr ty 0 0).2 = 0 := by
  cases ty <;> cases vr <;> rfl

theorem maskedLane_of_no_registers (hv : c.v = []) (vr : VRel) (i e : Nat) :
    maskedLane c vr ty a b mk i e = if maskOn c mk e then cmpLane vr ty 0 0 else (false, 0) := by
  have hz (k : Nat) : laneGet (etyBits ty) (vget c k e) i = 0 := by simp [vget, hv, SMap.get, laneGet]
  rw [maskedLane, hz, hz]

theorem getLsbD_laneMask (vr : VRel) (i : Nat) {e : Nat} (he : e < 1024) : (laneMask c vr ty a b mk i).getLsbD e =
    (maskOn c mk e && (cmpLane vr ty (laneGet (etyBits ty) (vget c a.toNat e) i) (laneGet (etyBits ty) (vget c b.toNat e) i)).1) := by
  rw [laneMask, getLsbD_maskTab _ he, maskedLane]
  cases maskOn c mk e <;> rfl

theorem testBit_laneFlags (vr : VRel) (i n : Nat) : (laneFlags c vr ty a b mk i).testBit n = (List.range 1024).any fun e => maskOn c mk e &&
    (cmpLane vr ty (laneGet (etyBits ty) (vget c a.toNat e) i) (laneGet (etyBits ty) (vget c b.toNat e) i)).2.testBit n := by
  rw [laneFlags, testBit_orFlags, List.any_map]
  refine any_range_congr fun e _ => ?_
  rw [Function.comp, maskedLane]
  cases maskOn c mk e <;> simp

theorem any_any_comm (l k : List Nat) (f : Nat → Nat → Bool) : (l.any fun x => k.any fun y => f x y) = k.any fun y => l.any fun x => f x y :=
  Bool.eq_iff_iff.mpr (by simp only [List.any_eq_true]; exact ⟨fun ⟨x, hx, y, hy, h⟩ => ⟨y, hy, x, hx, h⟩, fun ⟨y, hy, x, hx, h⟩ => ⟨x, hx, y, hy, h⟩⟩)

/-- The effect of a comparison: one change of the executing core. -/
theorem compare_effect (p : State) (vr : VRel) (ty : ETy) (d a b : Reg) (mk : Option Reg) :
    (let c := curCore p
     (List.range (etyLanes ty)).foldl (fun s i =>
       let l := (List.range 1024).map fun e => maskedLane c vr ty a b mk i e
       raiseFlags (upCur s fun c => kset c (d.toNat + i) (maskTab fun e => (l.getD e (false, 0)).1)) (orFlags (l.map fun q => q.2))) p) =
    upCur p fun c => (List.range (etyLanes ty)).foldl
      (cmpStep d.toNat (laneMask (curCore p) vr ty a b mk) (laneFlags (curCore p) vr ty a b mk)) c := by
  obtain ⟨n, hn⟩ := Nat.exists_eq_add_one.mpr (etyLanes_pos ty)
  have hmask (i : Nat) : (maskTab fun e => (((List.range 1024).map fun e => maskedLane (curCore p) vr ty a b mk i e).getD e (false, 0)).1) =
      laneMask (curCore p) vr ty a b mk i := maskTab_congr fun e he => by simp [he]
  have hflag (i : Nat) : orFlags (((List.range 1024).map fun e => maskedLane (curCore p) vr ty a b mk i e).map fun q => q.2) =
      laneFlags (curCore p) vr ty a b mk i := by rw [List.map_map]; rfl
  dsimp only
  simp only [hmask, hflag, hn]
  refine foldl_compare _ _ _ n ?_
  refine (em ((curCore p).v = [])).symm.imp_right fun hv => ⟨fun i => orFlags_eq_zero fun x hx => ?_, fun i => maskTab_congr fun e _ => ?_⟩
  · obtain ⟨e, -, rfl⟩ := List.mem_map.mp hx
    rw [maskedLane_of_no_registers hv]
    split <;> [exact cmpLane_zero_flags vr ty; rfl]
  · rw [maskedLane_of_no_registers hv, maskedLane_of_no_registers hv]

theorem compareWord (hr : Ready s h) (vr : VRel) (ty : ETy) (d a b : Reg) (mk : Option Reg) :
    let c := curCore s
    ∃ t, exec (.vcmp h vr ty d a b mk) s = .next (goesOn h t) ∧
      t = upCur (atHand s h) (fun c => { c with k := (curCore t).k, vflags := (curCore t).vflags }) ∧
      (∀ i e, i < etyLanes ty → e < 1024 → (kget (curCore t) (d.toNat + i)).getLsbD e =
        (maskOn c mk e && (cmpLane vr ty (laneGet (etyBits ty) (vget c a.toNat e) i) (laneGet (etyBits ty) (vget c b.toNat e) i)).1)) ∧
      (∀ j, j < d.toNat ∨ d.toNat + etyLanes ty ≤ j → kget (curCore t) j = kget c j) ∧
      ∀ n, n < 64 → (curCore t).vflags.getLsbD n = (c.vflags.getLsbD n || (decide (n < 6) && (List.range 1024).any (fun e => maskOn c mk e &&
        (List.range (etyLanes ty)).any (fun i =>
          (cmpLane vr ty (laneGet (etyBits ty) (vget c a.toNat e) i) (laneGet (etyBits ty) (vget c b.toNat e) i)).2.testBit n)))) := by
  intro c
  let p := atHand s h
  let x := (List.range (etyLanes ty)).foldl (cmpStep d.toNat (laneMask (curCore p) vr ty a b mk) (laneFlags (curCore p) vr ty a b mk)) (curCore p)
  refine ⟨_, (runWord_effDo hr _).trans (congrArg (fun t => (Host.Outcome.next (goesOn h t) : Out)) (compare_effect p vr ty d a b mk)), ?_⟩
  rw [curCore_upCur]
  refine ⟨upCur_congr (cmpSteps_rest _ _ _ (curCore p) _), fun i e hi he => ?_, fun j hj => ?_, fun n hn => ?_⟩
  · rw [kget_cmpSteps, if_pos (by omega), Nat.add_sub_cancel_left, getLsbD_laneMask vr i he]
    simp only [p, c, maskOn_atHand, vget_atHand]
  · rw [kget_cmpSteps, if_neg (by omega), kget_atHand]
  · rw [vflags_cmpSteps _ _ _ _ _ hn, vflags_atHand]
    simp only [testBit_laneFlags, p, c, maskOn_atHand, vget_atHand]
    rw [any_any_comm]
    refine congrArg _ (congrArg _ (any_range_congr fun e _ => ?_))
    cases maskOn (curCore s) mk e <;> simp

theorem comparesAndMasks : Claim.ComparesAndMasks := by
  intro s h r ty d a b mk hr p c masked
  have hk (a : Reg) : rdK (atHand s h) a = kget c a.toNat := rdK_atHand s h a
  refine ⟨compareWord hr r ty d a b mk, maskWord_done hr rfl (by rw [hk, hk]), maskWord_done hr rfl (by rw [hk, hk]),
    maskWord_done hr rfl (by rw [hk, hk]), maskWord_done hr rfl (by rw [hk]), maskWord_done hr rfl (hk a), maskWord_done hr rfl rfl,
    maskWord_done hr rfl rfl, ⟨firstMask (rd s a).toNat, maskWord_done hr rfl (by rw [rd_atHand]), fun e he => getLsbD_firstMask _ he⟩,
    ⟨BitVec.ofNat 64 (popcN 1024 (kget c a.toNat).toNat), ?_, ?_⟩, ⟨BitVec.ofNat 64 (firstSet (kget c a.toNat)), ?_, ?_⟩⟩
  · refine (runWord_effDo hr _).trans ?_
    simp only [hk]
    rfl
  · have hle : ((List.range 1024).filter fun e => (kget c a.toNat).getLsbD e).length ≤ 1024 :=
      (List.length_filter_le _ _).trans_eq List.length_range
    rw [BitVec.toNat_ofNat, popcN_eq]
    exact Nat.mod_eq_of_lt (hle.trans_lt (by decide))
  · refine (runWord_effDo hr _).trans ?_
    simp only [hk]
    rfl
  · have hspec := firstSet_spec (kget c a.toNat)
    have hv : (BitVec.ofNat 64 (firstSet (kget c a.toNat))).toNat = firstSet (kget c a.toNat) := by
      rw [BitVec.toNat_ofNat]
      exact Nat.mod_eq_of_lt (hspec.1.trans_lt (by decide))
    rw [hv]
    exact hspec

/-- Settles O20: what each word writes, a comparison as one change of its core. -/
theorem modesComparesAndMasks : Obligations.ModesComparesAndMasks := ⟨vectorModeAndFlags, comparesAndMasks⟩

end Sys2Proof.Machine
end

section
/-! PROOFS. Where the floating-point words and the reductions do not come about as one change of their core. The list of cores of a state
need not be in canonical form: `twiceListed` lists core 0 twice. The model writes a register first and raises its flags then; where the
first write leaves a core at reset, the core is unlisted with every entry it has, and the flags list it anew, once. One change of the core, as
`VecResult` has it, would have kept the other entry. -/
namespace Sys2Proof.Machine

variable {s t p : State} {h : Hd} {l : SMap Core}

/-! ## What a word leaves of a list of cores that starts with the executing core -/

/-- The list of cores starts with the executing core, which has raised a flag, and goes on with `l`. -/
def HeadFlagged (s : State) (l : SMap Core) : Prop := ∃ c, s.cores = (s.cur.core, c) :: l ∧ c.vflags ≠ 0

theorem cores_upCur_of_head {c : Core} {f : Core → Core} (hs : s.cores = (s.cur.core, c) :: l) (hf : f c ≠ {}) :
    (upCur s f).cores = (s.cur.core, f c) :: l := by
  have hc : curCore s = c := by rw [curCore, coreAt, hs, SMap.get, if_pos rfl]
  change SMap.set {} s.cores s.cur.core (f (curCore s)) = _
  rw [hc, SMap.set, if_neg hf, hs, SMap.put, if_pos rfl]

/-- A core written back to reset is unlisted, and one written anew stands in the list alone. -/
theorem cores_upCur_reset {c : Core} {f : Core → Core} (hs : s.cores = [(s.cur.core, c), (s.cur.core, c)]) (hf : f c = {}) :
    (upCur s f).cores = [] := by
  have hc : curCore s = c := by rw [curCore, coreAt, hs, SMap.get, if_pos rfl]
  change SMap.set {} s.cores s.cur.core (f (curCore s)) = _
  rw [hc, SMap.set, if_pos hf, hs]
  simp [SMap.del]

theorem cores_upCur_of_nil {f : Core → Core} (hs : s.cores = []) (hf : f {} ≠ {}) : (upCur s f).cores = [(s.cur.core, f {})] := by
  have hc : curCore s = {} := by
    rw [curCore, coreAt, hs]
    rfl
  change SMap.set {} s.cores s.cur.core (f (curCore s)) = _
  rw [hc, SMap.set, if_neg hf, hs]
  rfl

theorem ne_reset_of_flagged {c : Core} (hf : c.vflags ≠ 0) : c ≠ {} := fun hc => hf (congrArg Core.vflags hc)

theorem HeadFlagged.upCur {f : Core → Core} (hs : HeadFlagged s l) (hf : ∀ c, (f c).vflags = c.vflags) : HeadFlagged (upCur s f) l := by
  obtain ⟨c, hc, hv⟩ := hs
  have hv' : (f c).vflags ≠ 0 := by rwa [hf]
  exact ⟨f c, cores_upCur_of_head hc (ne_reset_of_flagged hv'), hv'⟩

theorem vflags_upEng (c : Core) (g : Eng) (f : EngSt → EngSt) : (upEng c g f).vflags = c.vflags := by
  cases g <;> rfl

theorem vflags_pushTokens (c : Core) (g : Eng) (push : BitVec 3) (pay : Option Word) : (pushTokens c g push pay).vflags = c.vflags := by
  obtain ⟨-, hf, -⟩ := (coreMoved_pushTokens c g push pay).vec_eq
  exact hf

theorem vflags_leaveJoin (old : EngSt) (g : Eng) (c : Core) : (leaveJoin old g c).vflags = c.vflags := by
  unfold leaveJoin
  split <;> rfl

theorem HeadFlagged.upCurEng {f : EngSt → EngSt} (hs : HeadFlagged s l) : HeadFlagged (upCurEng s f) l :=
  hs.upCur fun _ => vflags_upEng _ _ _

theorem HeadFlagged.afterWord (hs : HeadFlagged s l) (push : BitVec 3) (n : Nxt) : HeadFlagged (afterWord s push n) l := by
  unfold Machine.afterWord
  extract_lets g c e
  split
  · split
    · exact hs.upCurEng
    · split
      · exact hs.upCurEng
      · exact hs.upCur fun _ => by rw [vflags_leaveJoin, vflags_upEng, vflags_pushTokens]
  · exact hs.upCur fun _ => by rw [vflags_leaveJoin, vflags_upEng]

theorem HeadFlagged.goesOn (hs : HeadFlagged s l) (h : Hd) : HeadFlagged (goesOn h s) l := by
  unfold Machine.goesOn retireWord
  dsimp only
  have hs' := hs.upCurEng (f := fun e => { e with reply := {} })
  split
  · exact hs'.afterWord _ _
  · split
    · exact hs'.upCurEng
    · rw [if_pos rfl]
      exact (hs'.upCur fun _ => vflags_pushTokens _ _ _ _).afterWord _ _

/-! ## A core that is listed twice -/

/-- A core at reset but for one element of a vector register. -/
def oneElement (x : W32) : Core := { v := [(0, [(0, x)])] }

/-- A state of which the executing core, at reset but for one element, is listed twice. -/
def twiceListed (x : W32) : State := { cur := { core := 0, eng := .v }, cores := [(0, oneElement x), (0, oneElement x)] }

theorem ready_twiceListed (x : W32) : Ready (twiceListed x) {} := ⟨rfl, .inr rfl, rfl⟩

theorem atHand_twiceListed (x : W32) : atHand (twiceListed x) {} = twiceListed x := by
  have hne : oneElement x ≠ {} := fun he => List.cons_ne_nil _ _ (congrArg Core.v he)
  have hc : (upCur (twiceListed x) fun c => c).cores = (twiceListed x).cores := cores_upCur_of_head rfl hne
  change upCur (twiceListed x) (fun c => c) = _
  exact congrArg (fun l => { twiceListed x with cores := l }) hc

theorem vget_twiceListed (x : W32) (e : Nat) : vget (curCore (twiceListed x)) 0 e = if e = 0 then x else 0 := by
  change (if 0 = e then x else 0) = _
  exact if_congr eq_comm rfl rfl

section
variable {x : W32} {d : Reg} {on : Nat → Bool} {f : Nat → ElRes} {n : Nat}

/-- The model's writes of zeros with a flag unlist the core and list it once. -/
theorem headFlagged_writeVec (hz : ∀ e, e < 1024 → (f e).val = 0) (hn : n < 6) (hf : (f 0).flags.testBit n = true) :
    HeadFlagged (writeVec (twiceListed x) 0 (fun _ => true) f) [] := by
  let l := (List.range 1024).map fun e => (e, f e)
  have hv : elemsOf (l.map fun q => (q.1, q.2.val)) = [] := List.filter_eq_nil_iff.mpr fun q hq => by
    rw [List.map_map] at hq
    obtain ⟨e, he, rfl⟩ := List.mem_map.mp hq
    simpa using hz e (List.mem_range.mp he)
  have hfl : (orFlags (l.map fun q => q.2.flags)).testBit n = true := by
    rw [testBit_orFlags, List.map_map, List.any_map]
    exact List.any_eq_true.mpr ⟨0, List.mem_range.mpr (by decide), hf⟩
  let raise (c : Core) : Core := { c with vflags := c.vflags ||| BitVec.ofNat 64 (orFlags (l.map fun q => q.2.flags) % 64) }
  have hraise : (raise {}).vflags ≠ 0 := fun h0 => by
    have hbit := getLsbD_raised 0 (orFlags (l.map fun q => q.2.flags)) (show n < 64 by omega)
    rw [hfl, decide_eq_true hn] at hbit
    exact absurd ((congrArg (·.getLsbD n) h0).symm.trans hbit) (by simp)
  have hreset : vsetList (oneElement x) 0 (l.map fun q => (q.1, q.2.val)) = {} := by
    rw [vsetList, hv, SMap.set, if_pos rfl]
    rfl
  have hw : writeVec (twiceListed x) 0 (fun _ => true) f =
      upCur (upCur (twiceListed x) fun c => vsetList c 0 (l.map fun q => (q.1, q.2.val))) raise := by
    simp only [writeVec, if_true]
    rfl
  rw [hw]
  exact ⟨_, cores_upCur_of_nil (cores_upCur_reset rfl hreset) (ne_reset_of_flagged hraise), hraise⟩

/-- One change that raises a flag keeps the second entry. -/
theorem VecResult.headFlagged (hr : VecResult (twiceListed x) t d on f) (hon : on 0 = true) (hn : n < 6) (hf : (f 0).flags.testBit n = true) :
    HeadFlagged t [(0, oneElement x)] := by
  obtain ⟨ht, -, -, hfl⟩ := hr
  have hv : (curCore t).vflags ≠ 0 := fun h0 => by
    have hbit := hfl n (by omega)
    have hany : ((List.range 1024).any fun e => on e && (f e).flags.testBit n) = true :=
      List.any_eq_true.mpr ⟨0, List.mem_range.mpr (by decide), by rw [hon, hf]; rfl⟩
    rw [hany, h0, decide_eq_true hn] at hbit
    simp at hbit
  have hcores := cores_upCur_of_head (s := twiceListed x) (f := fun c => { c with v := (curCore t).v, vflags := (curCore t).vflags }) rfl
    (ne_reset_of_flagged hv)
  rw [ht]
  exact ⟨_, hcores, hv⟩

/-- The two do not meet: the word's next state lists the core once, and one change of it would list it twice. -/
theorem goesOn_writeVec_ne (hz : ∀ e, e < 1024 → (f e).val = 0) (hn : n < 6) (hf : (f 0).flags.testBit n = true) {f' : Nat → ElRes}
    (hr : VecResult (twiceListed x) t d on f') (hon : on 0 = true) (hf' : (f' 0).flags.testBit n = true) :
    (Host.Outcome.next (goesOn h (writeVec (twiceListed x) 0 (fun _ => true) f)) : Out) ≠ .next (goesOn h t) := by
  intro he
  obtain ⟨c, hc, -⟩ := (headFlagged_writeVec hz hn hf).goesOn h
  obtain ⟨c', hc', -⟩ := (hr.headFlagged hon hn hf').goesOn h
  rw [Host.Outcome.next.injEq] at he
  rw [he, hc'] at hc
  exact List.cons_ne_nil _ _ (List.cons.inj hc).2
end

/-! ## A value rounded to zero, and the place of a signalling NaN -/

/-- 0.5 rounds to 0 with INEXACT, and 0 to itself. -/
theorem rint_half (e : Nat) : lanes1 .fp32 (fun x => rintVal fmt32 .rne x) (if e = 0 then 0x3F000000 else 0) =
    { val := 0, flags := if e = 0 then 16 else 0 } := by
  split <;> decide +kernel

/-- Refutes O18: `vrint` of 0.5 in a core at reset but for this element, in a state that lists the core twice. -/
theorem not_floatingPointLanes : ¬ Obligations.FloatingPointLanes := by
  intro H
  obtain ⟨-, -, -, -, -, -, -, -, -, -, -, -, ⟨t, ht, hr⟩, -⟩ := H (twiceListed 0x3F000000) {} .fp32 0 0 0 0 0 none (ready_twiceListed _) rfl
  have hw := runWord_effDo (ready_twiceListed 0x3F000000) fun s => writeVec s 0 (fun _ => true) fun e =>
    lanes1 .fp32 (fun x => rintVal fmt32 (modeIn s 0) x) (vget (curCore s) 0 e)
  simp only [atHand_twiceListed] at hw hr
  have hmode : modeIn (twiceListed 0x3F000000) 0 = .rne := rfl
  have hel (e : Nat) : lanes1 .fp32 (fun x => rintVal fmt32 .rne x) (vget (curCore (twiceListed 0x3F000000)) 0 e) =
      { val := 0, flags := if e = 0 then 16 else 0 } := by rw [vget_twiceListed, rint_half]
  refine goesOn_writeVec_ne (n := 4) (h := {}) (fun e _ => ?_) (by decide) ?_ hr rfl ?_ (hw.symm.trans ht)
  · rw [hmode, hel]
  · rw [hmode, hel]
    rfl
  · exact congrArg (fun r => r.flags.testBit 4) (hel 0)

/-- The state whose one element is a signalling NaN. -/
def snanFirst : State := twiceListed 0x7F800001

/-- What argmax gives along row `i` of that register. -/
def amaxOfRow (i : Nat) : ElRes := elOf 32 ((List.range 1).map fun k =>
  redResult .fp32 .amax 0 (treeReduce (redOp snanFirst .fp32 0 .amax) 6 (lineVals (curCore snanFirst) .fp32 0 none .row i k)))

/-- The index of the NaN is 0, and so is that of the first of equal zeros; the NaN is invalid. -/
theorem amaxOfRow_eq : ∀ i, i < 16 → amaxOfRow i = { val := 0, flags := if i = 0 then 1 else 0 } := by decide +kernel

/-- Refutes O21: argmax along the rows, a signalling NaN at place 0, in a state that lists the core twice. -/
theorem not_reductionsAndScans : ¬ Obligations.ReductionsAndScans := by
  intro H
  obtain ⟨⟨t, ht, hr⟩, -⟩ := H snanFirst {} .amax .row .fp32 0 0 0 0 none (ready_twiceListed _)
  have hw := runWord_effDo (ready_twiceListed 0x7F800001) fun s =>
    let res := (List.range 16).map fun i => elOf 32 ((List.range 1).map fun k =>
      redResult .fp32 .amax 0 (treeReduce (redOp s .fp32 0 .amax) 6 (lineVals (curCore s) .fp32 0 none .row i k)))
    writeVec s 0 (fun _ => true) fun e => res.getD (axisLine .row e) { val := 0 }
  have hhand : atHand snanFirst {} = snanFirst := atHand_twiceListed _
  rw [hhand] at hr
  rw [atHand_twiceListed] at hw
  have hel (e : Nat) (he : e < 1024) : (((List.range 16).map amaxOfRow).getD (axisLine .row e) { val := 0 }) =
      { val := 0, flags := if e / 64 = 0 then 1 else 0 } := by
    have hi : e / 64 < 16 := by omega
    rw [axisLine, List.getD_eq_getElem _ _ (by simpa using hi), List.getElem_map, List.getElem_range, amaxOfRow_eq _ hi]
  refine goesOn_writeVec_ne (n := 0) (h := {}) (fun e he => congrArg ElRes.val (hel e he)) (by decide)
    (congrArg (fun r => r.flags.testBit 0) (hel 0 (by decide))) hr rfl ?_ (hw.symm.trans ht)
  exact congrArg (fun r => r.flags.testBit 0) (amaxOfRow_eq 0 (by decide))

end Sys2Proof.Machine
end

section
/-! PROOFS. A matrix multiplication runs to its end (R68, R69, R105, R217, R223–R226): what its reads and notes leave of the array, and what
each element of the bank becomes. -/
namespace Sys2Proof.Machine

variable {s t u : State} {c d : Core} {g : Eng} {h : Hd}

/-! ## What an `mma` leaves of the array before it writes its bank -/

/-- The executing core and engine and the working arrays are as before. -/
def SameArrays (s t : State) : Prop := t.cur = s.cur ∧ t.clusters = s.clusters

theorem SameArrays.refl (s : State) : SameArrays s s := ⟨rfl, rfl⟩

theorem SameArrays.trans (s t u : State) (h : SameArrays s t) (k : SameArrays t u) : SameArrays s u := ⟨k.1.trans h.1, k.2.trans h.2⟩

theorem OnlyCoresMem.sameArrays (h : OnlyCoresMem s t) : SameArrays s t :=
  ⟨h.field State.cur fun _ _ _ _ _ => rfl, h.field State.clusters fun _ _ _ _ _ => rfl⟩

theorem OnlyCore.sameArrays (h : OnlyCore s t) : SameArrays s t := by
  obtain ⟨h, -⟩ := h
  rw [h]
  exact ⟨rfl, rfl⟩

theorem sameArrays_loadPte (s : State) (w : Who) (k : Nat) : SameArrays s (loadPte s w k) := by
  have hmark (f : Byte → Byte) : SameArrays s (markPte s k f) := by
    unfold markPte
    split <;> [exact .refl s; exact (onlyMem_writeMem s _).toCores.sameArrays]
  have hhold (s : State) (p : Word) : SameArrays s (holdPte s w k p) := by
    unfold holdPte
    split <;> exact ⟨rfl, rfl⟩
  unfold loadPte
  dsimp only
  split <;> [exact .trans _ _ _ (hmark _) (hhold _ _); exact .refl s]

theorem sameArrays_notePages (s : State) (w : Who) (sh : Bool) (a n : Nat) : SameArrays s (notePages s w sh a n) := by
  have hpage (s : State) (a : Nat) : SameArrays s (notePage s w sh a) := by
    unfold notePage
    split
    · exact .refl s
    · split
      · exact .refl s
      · dsimp only
        split
        · exact .trans _ _ _ (sameArrays_loadPte _ _ _) (sameArrays_loadPte _ _ _)
        · exact sameArrays_loadPte _ _ _
  unfold notePages
  dsimp only
  split
  · exact hpage s a
  · exact SameArrays.trans s _ _ (hpage s a) (hpage _ _)

theorem sameArrays_noteOperand (s : State) (x : Od) (n z : Nat) : SameArrays s (noteOperand s x n z) := by
  refine foldl_rel (R := SameArrays) .refl .trans (fun s a => ?_) _ s
  dsimp only
  split
  · exact .trans _ _ _ (sameArrays_notePages s _ _ _ _) (onlyMem_fillAll _ _).toCores.sameArrays
  · exact sameArrays_notePages s _ _ _ _

theorem sameArrays_noteOperands (s : State) (x y : Od) (wx wy : Nat × Nat) :
    SameArrays s (noteOperand (noteOperand s x wx.1 wx.2) y wy.1 wy.2) :=
  .trans _ _ _ (sameArrays_noteOperand s x _ _) (sameArrays_noteOperand _ y _ _)

/-- The stores of a core that perform leave the operand descriptors of every core. -/
theorem od_performAll (s : State) (core n : Nat) : (coreAt (performAll s core) n).od = (coreAt s n).od := by
  refine foldl_rel (R := fun s t => (coreAt t n).od = (coreAt s n).od) (fun _ => rfl) (fun _ _ _ h k => k.trans h) (fun s q => ?_) _ s
  have hmem (u : State) (l : List (Nat × Byte)) : coreAt (writeMem u l) n = coreAt u n := by
    rw [coreAt, (onlyMem_writeMem u l).field State.cores fun _ _ _ _ => rfl]
    rfl
  have hcore (f : Core → Core) (hf : ∀ c, (f c).od = c.od) : (coreAt (upCore s core f) n).od = (coreAt s n).od := by
    rw [coreAt_upCore]
    split
    · next hn => rw [hf, hn]
    · rfl
  unfold performStore
  split
  · rfl
  · dsimp only
    split
    · exact hcore _ fun _ => rfl
    · rw [hmem]
      exact hcore _ fun _ => rfl

theorem OnlyCore.deadArrays_eq (h : OnlyCore s t) : t.deadArrays = s.deadArrays := by rw [h.1]

theorem CoreMoved.od_eq (hm : CoreMoved g c d) : d.od = c.od ∧ d.held = c.held := by
  obtain ⟨fi, jl, js, tn, ts, e, rfl, -⟩ := hm
  cases g <;> exact ⟨rfl, rfl⟩

/-- At its effect a word finds its part in the lease and its array. -/
theorem arrayReady_atHand (ha : ArrayReady s) : ArrayReady (atHand s h) := by
  obtain ⟨hheld, hdead, hhold⟩ := ha
  have hm := wordMove_atHand s h
  refine ⟨hm.2.od_eq.2.trans hheld, ?_, ?_⟩
  · rw [hm.1.cur_eq, hm.1.deadArrays_eq]
    exact hdead
  · rw [hm.1.cur_eq, clusterAt, hm.1.sameArrays.2, hm.2.tid_eq]
    exact hhold

theorem mmaOk_congr (hc : d.od = c.od) (ty : ETy) (a b : Reg) (n : Nat) : mmaOk d ty a b n = mmaOk c ty a b n := by
  unfold mmaOk odAt
  rw [hc]

/-! ## The bank -/

/-- An element of a bank that was multiplied: it took the chunks in ascending order (R224, R225). -/
theorem get_mulBank (b : Bank) (mode n : Nat) (step : Nat → Nat → Nat → AccEl → AccEl) {i j : Nat} (hi : i < 256) (hj : j < 256) :
    SMap.get 0 (mulBank b mode n step).el (256 * i + j) =
      ((List.range n).foldl (fun x c => step c i j x) { val := SMap.get 0 b.el (256 * i + j) }).val := by
  let x (k : Nat) : AccEl := (List.range n).foldl (fun x c => step c (k / 256) (k % 256) x) { val := SMap.get 0 b.el k }
  have hel : (mulBank b mode n step).el = ((List.range 65536).filter fun k => (x k).val != 0).map fun k => (k, (x k).val) := by
    simp only [mulBank, List.filter_map, List.map_map]
    rfl
  rw [hel, SMap.get_filter_map 0 (fun k => (x k).val), if_pos (List.mem_range.mpr (by omega))]
  have hdiv : (256 * i + j) / 256 = i := by omega
  have hmod : (256 * i + j) % 256 = j := by omega
  simp only [x, hdiv, hmod]

/-! ## The word -/

theorem clusterAt_bumpClk (s : State) (n : Nat) : clusterAt (bumpClk s) n = clusterAt s n := rfl

/-- A state whose bank an `mma` has written and whose run has counted it (R217, R224). -/
def mmaDone (u : State) (cl d : Nat) (tile : ATile) : State :=
  bumpClk (upCluster (setTile u cl d tile) cl fun c => { c with lease := { c.lease with runrem := c.lease.runrem - 1 } })

/-- The state in which an `mma` leaves its array: its run counted, its bank written (R217, R224). -/
theorem mmaDone_array {cl : Nat} {d : Reg} {bank : Bank} (hu : SameArrays s u) :
    let t := mmaDone u cl d.toNat { tileAt s cl d.toNat with work := bank }
    (tileAt t cl d.toNat).work = bank ∧ (tileAt t cl d.toNat).vis = (tileAt s cl d.toNat).vis ∧
      (∀ m, m ≠ d.toNat → tileAt t cl m = tileAt s cl m) ∧ (clusterAt t cl).lease.runrem = (clusterAt s cl).lease.runrem - 1 := by
  intro t
  have hc : clusterAt u cl = clusterAt s cl := by rw [clusterAt, hu.2]; rfl
  have ht : clusterAt t cl = { clusterAt s cl with lease := { (clusterAt s cl).lease with
      tiles := SMap.set {} (clusterAt s cl).lease.tiles d.toNat { tileAt s cl d.toNat with work := bank },
      runrem := (clusterAt s cl).lease.runrem - 1 } } := by
    unfold t mmaDone
    rw [clusterAt_bumpClk, clusterAt_upCluster, if_pos rfl, setTile, clusterAt_upCluster, if_pos rfl, hc]
  have htile (m : Nat) : tileAt t cl m = if d.toNat = m then { tileAt s cl d.toNat with work := bank } else tileAt s cl m := by
    rw [tileAt, ht]
    exact SMap.get_set _ _ _ _ _
  refine ⟨by rw [htile, if_pos rfl], by rw [htile, if_pos rfl], fun m hm => by rw [htile, if_neg (Ne.symm hm)], by rw [ht]⟩

theorem mulBank_mode (b : Bank) (mode n : Nat) (step : Nat → Nat → Nat → AccEl → AccEl) : (mulBank b mode n step).mode = mode := rfl

/-- A word of a participant that holds its array comes to its effect on it. -/
theorem arrayEff_of_ready (ha : ArrayReady s) (k : State → Eff) : arrayEff s k = k s := by
  obtain ⟨hheld, hdead, hhold⟩ := ha
  unfold arrayEff clusterOf
  simp [hheld, hdead, hhold]

section
variable {q : State} {cl k n : Nat} {x y : Od} {tile : ATile} {ty : ETy} {mid : Bool} {r a b : Reg}
  (hq : performAll s s.cur.core = q) (hcl : clusterOf s.cur.core = cl) (hx : odAt (curCore q) a.toNat = x) (hy : odAt (curCore q) b.toNat = y)
  (htile : tileAt q cl r.toNat = tile)
include hq hcl hx hy htile

/-- The effect of an `mma` whose bank is in the other mode: its core's stores have performed, and it is fatal (R226). -/
theorem mmaTile_otherMode (hm : tile.work.mode ≠ 0 ∧ tile.work.mode ≠ if ty = .nbi then 2 else 1) :
    mmaTile s ty mid k r a b n = .fatal { code := 0xD, info := r.toNat } q := by
  subst hq hcl hx hy htile
  exact if_pos hm

/-- The effect of an `mma` of bit-planes whose operands are read (R225). -/
theorem mmaTile_weights {w : List (List (List Int))} {v : List (List (List Nat))} (hty : ty = .nbi)
    (hm : ¬ (tile.work.mode ≠ 0 ∧ tile.work.mode ≠ if ty = .nbi then 2 else 1))
    (hw : allRows n (rowWeights q x k mid) = .ok w) (hv : allRows n (rowLanes q y .i8) = .ok v) :
    ∃ u, SameArrays q u ∧ mmaTile s ty mid k r a b n = .done (mmaDone u cl r.toNat
      { tile with work := mulBank tile.work (if ty = .nbi then 2 else 1) n fun c i j e => intStep e (laneRow w c i) (laneRow v c j) }) := by
  refine ⟨_, sameArrays_noteOperands q x y (operandShape ty k n true) (operandShape ty k n false), ?_⟩
  subst hq hcl hx hy htile
  refine (if_neg hm).trans ((if_pos hty).trans ?_)
  simp only [hw, hv]
  rfl

/-- The effect of an `mma` of floating-point rows whose operands are read (R224). -/
theorem mmaTile_lanes {v v' : List (List (List Nat))} (hty : ty ≠ .nbi)
    (hm : ¬ (tile.work.mode ≠ 0 ∧ tile.work.mode ≠ if ty = .nbi then 2 else 1))
    (hv : allRows n (rowLanes q x ty) = .ok v) (hv' : allRows n (rowLanes q y ty) = .ok v') :
    ∃ u, SameArrays q u ∧ mmaTile s ty mid k r a b n = .done (mmaDone u cl r.toNat
      { tile with work := mulBank tile.work (if ty = .nbi then 2 else 1) n fun c i j e => fpStep (fmtOf ty) e (laneRow v c i) (laneRow v' c j) }) := by
  refine ⟨_, sameArrays_noteOperands q x y (operandShape ty k n true) (operandShape ty k n false), ?_⟩
  subst hq hcl hx hy htile
  refine (if_neg hm).trans ((if_neg hty).trans ?_)
  simp only [hv, hv']
  rfl
end

/-- Settles O28: the checks at issue, then the effect on the array as the operands can be read or not. -/
theorem matrixMultiply : Obligations.MatrixMultiply := by
  intro s h ty mid kk d a b imm hr ha p n cl q x y bank mode ends
  have hap : ArrayReady p := arrayReady_atHand ha
  have hm := wordMove_atHand s h
  have hok : mmaOk (curCore p) ty a b n = mmaOk (curCore s) ty a b n := mmaOk_congr hm.2.od_eq.1 ty a b n
  have hpq : OnlyCoresMem p q := onlyCoresMem_performAll _ _
  have hsq : SameArrays s q := .trans _ _ _ hm.1.sameArrays hpq.sameArrays
  have hod : (curCore q).od = (curCore s).od := by
    rw [curCore, hpq.sameArrays.1, od_performAll]
    exact hm.2.od_eq.1
  have hx : odAt (curCore q) a.toNat = x := by simp only [odAt, hod, x]
  have hy : odAt (curCore q) b.toNat = y := by simp only [odAt, hod, y]
  have htile (m : Nat) : tileAt q cl m = tileAt s cl m := by rw [tileAt, clusterAt, hsq.2]; rfl
  have hcl : clusterOf p.cur.core = cl := congrArg (fun c : Cur => c.core / 16) hm.1.cur_eq
  have heff : (if (curCore p).held && !SMap.get false p.deadArrays (clusterOf p.cur.core) && !mmaOk (curCore p) ty a b n then
      Eff.fatal { code := 10 } p else arrayEff p fun s => mmaTile s ty mid kk.toNat d a b n) =
      if mmaOk (curCore s) ty a b n then mmaTile p ty mid kk.toNat d a b n else .fatal { code := 10 } p := by
    have ⟨hheld, hdead, _⟩ := hap
    rw [arrayEff_of_ready hap, hok, hheld, clusterOf, hdead]
    cases mmaOk (curCore s) ty a b n <;> rfl
  refine ⟨fun hno => runWord_fatal hr (heff.trans (if_neg (Bool.eq_false_iff.mp hno))), fun hyes => ?_⟩
  rw [if_pos hyes] at heff
  have hends (el : Nat → Nat → Nat → AccEl → AccEl) {u : State} {eff : State → Eff} (hu : SameArrays q u)
      (hex : exec (.mma h ty mid kk d a b imm) s = runEff s h eff)
      (he : eff p = .done (mmaDone u cl d.toNat { tileAt s cl d.toNat with work := mulBank bank mode n el })) : ends el := by
    obtain ⟨hwork, hvis, hrest, hrun⟩ := mmaDone_array (d := d) (cl := cl) (bank := mulBank bank mode n el) (.trans _ _ _ hsq hu)
    refine ⟨_, hex.trans (runWord_ready hr he), ?_, fun i j hi hj => ?_, hvis, hrest, hrun⟩
    · rw [hwork, mulBank_mode]
    · rw [hwork, get_mulBank _ _ _ _ hi hj]
  refine ⟨fun hmode => runWord_fatal hr (heff.trans ?_), fun hmode => ⟨fun w v hty hw hv => ?_, fun u v hty hu hv => ?_⟩⟩
  · exact mmaTile_otherMode rfl hcl hx hy (htile _) hmode
  · obtain ⟨u, hu, ht⟩ := mmaTile_weights rfl hcl hx hy (htile _) hty (not_and_or.mpr (hmode.imp not_not.mpr not_not.mpr)) hw hv
    exact hends _ hu rfl (heff.trans ht)
  · obtain ⟨u', hu', ht⟩ := mmaTile_lanes rfl hcl hx hy (htile _) hty (not_and_or.mpr (hmode.imp not_not.mpr not_not.mpr)) hu hv
    exact hends _ hu' rfl (heff.trans ht)

end Sys2Proof.Machine
end

section
/-! PROOFS. Rounding of exact magnitudes: to an integer in a mode, to the precision and range of a format, and the bits that come of it
(R48, R55, R56, R58, R74). -/
namespace Sys2Proof.Machine

variable {mode : RMode} {neg st : Bool} {y φ : ℝ} {n k m : Nat} {e q : Int}

/-! ## A magnitude rounded to an integer -/

theorem RoundsMag.near (h : RoundsMag mode neg y n) : y - 1 < n ∧ (n : ℝ) < y + 1 := by
  have hhalf : |y - n| ≤ 1 / 2 → y - 1 < n ∧ (n : ℝ) < y + 1 := fun h => by
    obtain ⟨h1, h2⟩ := abs_le.mp h
    constructor <;> linarith
  have hdown : ((n : ℝ) ≤ y ∧ y < n + 1) → y - 1 < n ∧ (n : ℝ) < y + 1 := fun ⟨h1, h2⟩ => by constructor <;> linarith
  have hup : ((n : ℝ) - 1 < y ∧ y ≤ n) → y - 1 < n ∧ (n : ℝ) < y + 1 := fun ⟨h1, h2⟩ => by constructor <;> linarith
  cases mode with
  | rne => exact hhalf (h.elim le_of_lt fun h => h.1.le)
  | rna => exact hhalf (h.elim le_of_lt fun h => h.1.le)
  | rtz => exact hdown h
  | rup => cases neg <;> [exact hup h; exact hdown h]
  | rdn => cases neg <;> [exact hdown h; exact hup h]

theorem roundsMag_natCast (mode : RMode) (neg : Bool) (n : Nat) : RoundsMag mode neg (n : ℝ) n := by
  have hdown : (n : ℝ) ≤ n ∧ (n : ℝ) < n + 1 := ⟨le_refl _, lt_add_one _⟩
  have hup : (n : ℝ) - 1 < n ∧ (n : ℝ) ≤ n := ⟨sub_one_lt _, le_refl _⟩
  cases mode with
  | rne | rna => exact .inl (by simp)
  | rtz => exact hdown
  | rup => cases neg <;> [exact hup; exact hdown]
  | rdn => cases neg <;> [exact hdown; exact hup]

theorem RoundsMag.le_of_le (h : RoundsMag mode neg y n) (hy : y ≤ k) : n ≤ k := by
  obtain ⟨-, h⟩ := h.near
  exact Nat.lt_succ_iff.mp (by exact_mod_cast h.trans_le (add_le_add_left hy 1))

theorem RoundsMag.ge_of_ge (h : RoundsMag mode neg y n) (hy : k ≤ y) : k ≤ n := by
  obtain ⟨h, -⟩ := h.near
  have h' : (k : ℝ) < n + 1 := by linarith
  exact Nat.lt_succ_iff.mp (by exact_mod_cast h')

theorem RoundsMag.eq_of_natCast (h : RoundsMag mode neg (k : ℝ) n) : n = k := le_antisymm (h.le_of_le (le_refl _)) (h.ge_of_ge (le_refl _))

/-- Whether a mode rounds n + φ up (R55). -/
def RoundsUp (mode : RMode) (neg : Bool) (n : Nat) (φ : ℝ) : Prop :=
  match mode with
  | .rne => 1 / 2 < φ ∨ (φ = 1 / 2 ∧ n % 2 = 1)
  | .rna => 1 / 2 ≤ φ
  | .rtz => False
  | .rup => 0 < φ ∧ neg = false
  | .rdn => 0 < φ ∧ neg = true

theorem roundsMag_of_up (h1 : φ < 1) (hu : RoundsUp mode neg n φ) : RoundsMag mode neg (n + φ) (n + 1) := by
  have habs : |(n : ℝ) + φ - (n + 1 : ℕ)| = 1 - φ := by
    rw [Nat.cast_succ, show (n : ℝ) + φ - (n + 1) = -(1 - φ) by ring, abs_neg, abs_of_pos (by linarith)]
  have hup (h0 : 0 < φ) : ((n + 1 : ℕ) : ℝ) - 1 < n + φ ∧ (n : ℝ) + φ ≤ (n + 1 : ℕ) := by
    rw [Nat.cast_succ]
    constructor <;> linarith
  cases mode with
  | rne =>
    rcases hu with hu | ⟨hu, hn⟩
    · exact .inl (by rw [habs]; linarith)
    · exact .inr ⟨by rw [habs, hu]; norm_num, by omega⟩
  | rna =>
    rcases (show 1 / 2 ≤ φ from hu).lt_or_eq with hu | hu
    · exact .inl (by rw [habs]; linarith)
    · exact .inr ⟨by rw [habs, ← hu]; norm_num, by rw [Nat.cast_succ]; linarith⟩
  | rtz => exact hu.elim
  | rup =>
    obtain ⟨h0, rfl⟩ := hu
    exact hup h0
  | rdn =>
    obtain ⟨h0, rfl⟩ := hu
    exact hup h0

theorem roundsMag_of_not_up (h0 : 0 ≤ φ) (h1 : φ < 1) (hu : ¬ RoundsUp mode neg n φ) : RoundsMag mode neg (n + φ) n := by
  have habs : |(n : ℝ) + φ - n| = φ := by rw [add_sub_cancel_left, abs_of_nonneg h0]
  have hdown : (n : ℝ) ≤ n + φ ∧ (n : ℝ) + φ < n + 1 := by constructor <;> linarith
  have hup (hz : ¬ 0 < φ) : (n : ℝ) - 1 < n + φ ∧ (n : ℝ) + φ ≤ n := by constructor <;> linarith
  cases mode with
  | rne =>
    obtain ⟨hle, hodd⟩ := not_or.mp hu
    rcases (not_lt.mp hle).lt_or_eq with hlt | heq
    · exact .inl (by rwa [habs])
    · exact .inr ⟨by rwa [habs], (Nat.mod_two_eq_zero_or_one n).resolve_right fun h => hodd ⟨heq, h⟩⟩
  | rna => exact .inl (by rw [habs]; exact not_le.mp hu)
  | rtz => exact hdown
  | rup => cases neg <;> [exact hup fun h => hu ⟨h, rfl⟩; exact hdown]
  | rdn => cases neg <;> [exact hdown; exact hup fun h => hu ⟨h, rfl⟩]

/-- A magnitude whose leading part is m × 2^e, and whether anything is left of it. -/
def LeadsWith (y : ℝ) (m : Nat) (e : Int) (st : Bool) : Prop :=
  ∃ δ : ℝ, 0 ≤ δ ∧ δ < 1 ∧ (st = true ↔ 0 < δ) ∧ y = (m + δ) * 2 ^ e

theorem leadsWith_exact (m : Nat) (e : Int) : LeadsWith (m * 2 ^ e) m e false := ⟨0, le_refl _, one_pos, by simp, by rw [add_zero]⟩

/-- Where the rest of a magnitude lies about one half of a unit of 2^sh, by what the bits below the unit and the sticky bit say. -/
theorem rest_about_half {sh rem : Nat} {δ : ℝ} (hsh : sh ≠ 0) (h0 : 0 ≤ δ) (h1 : δ < 1) (hst : st = true ↔ 0 < δ) (hφ : φ = (rem + δ) / 2 ^ sh) :
    (1 / 2 < φ ↔ 2 ^ (sh - 1) < rem ∨ (rem = 2 ^ (sh - 1) ∧ st = true)) ∧ (φ = 1 / 2 ↔ rem = 2 ^ (sh - 1) ∧ st = false) ∧
    (1 / 2 ≤ φ ↔ 2 ^ (sh - 1) ≤ rem) ∧ (0 < φ ↔ st = true ∨ rem ≠ 0) := by
  have hpow : (2 : ℝ) ^ sh = 2 * (2 ^ (sh - 1) : ℕ) := by
    push_cast
    rw [← pow_succ', Nat.sub_add_cancel (Nat.one_le_iff_ne_zero.mpr hsh)]
  have hpos : (0 : ℝ) < (2 ^ (sh - 1) : ℕ) := by positivity
  generalize 2 ^ (sh - 1) = half at hpow hpos ⊢
  have hlt : 1 / 2 < φ ↔ (half : ℝ) < rem + δ := by rw [hφ, hpow, lt_div_iff₀ (by positivity)]; constructor <;> intro h <;> linarith
  have hle : 1 / 2 ≤ φ ↔ (half : ℝ) ≤ rem + δ := by rw [hφ, hpow, le_div_iff₀ (by positivity)]; constructor <;> intro h <;> linarith
  have hcmp : rem < half → (rem : ℝ) + δ < half := fun h => by
    have : (rem : ℝ) + 1 ≤ half := by exact_mod_cast h
    linarith
  have hcmp' : half < rem → (half : ℝ) < rem + δ := fun h => by
    have : (half : ℝ) < rem := by exact_mod_cast h
    linarith
  have hz : st = false ↔ δ = 0 := by
    rw [← Bool.not_eq_true, hst, not_lt]
    exact ⟨fun h => le_antisymm h h0, le_of_eq⟩
  have hgt : 1 / 2 < φ ↔ half < rem ∨ (rem = half ∧ st = true) := by
    rw [hlt]
    rcases lt_trichotomy rem half with h | h | h
    · exact iff_of_false (hcmp h).not_gt (by omega)
    · subst h
      simp [hst]
    · exact iff_of_true (hcmp' h) (.inl h)
  have hge : 1 / 2 ≤ φ ↔ half ≤ rem := by
    rw [hle]
    rcases lt_trichotomy rem half with h | h | h
    · exact iff_of_false (hcmp h).not_ge (by omega)
    · subst h
      simp [h0]
    · exact iff_of_true (hcmp' h).le h.le
  refine ⟨hgt, ?_, hge, ?_⟩
  · have heq : φ = 1 / 2 ↔ 1 / 2 ≤ φ ∧ ¬ 1 / 2 < φ := ⟨fun h => ⟨h.ge, h.le.not_gt⟩, fun h => le_antisymm (not_lt.mp h.2) h.1⟩
    rw [heq, hge, hgt]
    cases st <;> simp <;> omega
  · rw [hφ, div_pos_iff_of_pos_right (by positivity)]
    by_cases hr : rem = 0
    · simp [hr, hst]
    · exact iff_of_true (add_pos_of_pos_of_nonneg (by exact_mod_cast Nat.pos_of_ne_zero hr) h0) (.inr hr)

/-- Rounding to a multiple of 2^q is that of the magnitude, and is inexact where the magnitude is no such multiple (R55, R56). -/
theorem roundTo_spec (hy : LeadsWith y m e st) (hq : st = true → e < q) :
    RoundsMag mode neg (y / 2 ^ q) (roundTo mode neg m e st q).1 ∧
    ((roundTo mode neg m e st q).2 = true ↔ ((roundTo mode neg m e st q).1 : ℝ) * 2 ^ q ≠ y) := by
  obtain ⟨δ, h0, h1, hst, rfl⟩ := hy
  have h2 : (2 : ℝ) ^ q ≠ 0 := zpow_ne_zero _ two_ne_zero
  unfold roundTo
  split
  · next hle =>
    have hf : st = false := Bool.eq_false_iff.mpr fun h => absurd (hq h) (by omega)
    have hd : δ = 0 := le_antisymm (not_lt.mp fun h => by simp [hf] at hst; linarith) h0
    have he : ((m * 2 ^ (e - q).toNat : ℕ) : ℝ) * 2 ^ q = (m + δ) * 2 ^ e := by
      push_cast
      rw [hd, add_zero, mul_assoc, ← zpow_natCast, Int.toNat_of_nonneg (by omega), ← zpow_add₀ two_ne_zero, sub_add_cancel]
    refine ⟨?_, iff_of_false (by simp [hf]) (not_not.mpr he)⟩
    rw [← he, mul_div_cancel_right₀ _ h2]
    exact roundsMag_natCast _ _ _
  · next hlt =>
    extract_lets sh u rem half inexact up
    have hsh : sh ≠ 0 := by omega
    let φ : ℝ := (rem + δ) / 2 ^ sh
    obtain ⟨hgt, heq, hge, hpos⟩ := rest_about_half hsh h0 h1 hst (φ := φ) rfl
    have hpow : (0 : ℝ) < 2 ^ sh := by positivity
    have hq2 : (2 : ℝ) ^ q = 2 ^ e * 2 ^ sh := by
      rw [← zpow_natCast, ← zpow_add₀ two_ne_zero, show e + (sh : Int) = q by omega]
    have hm : (m : ℝ) = u * 2 ^ sh + rem := by exact_mod_cast (Nat.div_add_mod' m (2 ^ sh)).symm
    have hval : (m + δ) * 2 ^ e / (2 : ℝ) ^ q = u + φ := by
      simp only [φ]
      rw [hq2, hm]
      field_simp
      ring
    have hφ0 : 0 ≤ φ := by positivity
    have hφ1 : φ < 1 := by
      have hrem : (rem : ℝ) + 1 ≤ 2 ^ sh := by exact_mod_cast Nat.mod_lt m (Nat.two_pow_pos sh)
      rw [div_lt_one hpow]
      linarith
    have hin : inexact = true ↔ 0 < φ := by simp [inexact, hpos]
    have hup : up = true ↔ RoundsUp mode neg u φ := by
      cases mode with
      | rne =>
        simp only [up, RoundsUp, hgt, heq, Bool.or_eq_true, Bool.and_eq_true, beq_iff_eq, decide_eq_true_eq, half]
        cases st <;> simp
      | rna => simp only [up, RoundsUp, hge, decide_eq_true_eq, half]
      | rtz => simp [up, RoundsUp]
      | rup | rdn => simp [up, RoundsUp, hin]
    have hmag : RoundsMag mode neg (u + φ) (if up then u + 1 else u) := by
      by_cases hu : up = true
      · rw [if_pos hu]
        exact roundsMag_of_up hφ1 (hup.mp hu)
      · rw [if_neg hu]
        exact roundsMag_of_not_up hφ0 hφ1 fun h => hu (hup.mpr h)
    rw [← hval] at hmag
    refine ⟨hmag, hin.trans ⟨fun hpos hy => ?_, fun hy => hφ0.lt_of_ne fun hz => hy ?_⟩⟩
    · have hint : ((if up then u + 1 else u : ℕ) : ℝ) = u + φ := by rw [← hval, ← hy, mul_div_cancel_right₀ _ h2]
      generalize (if up then u + 1 else u) = w at hint
      have hlt : (u : ℝ) < w := by linarith
      have hgt : (w : ℝ) < u + 1 := by linarith
      norm_cast at hlt hgt
      omega
    · have hu : (m + δ) * 2 ^ e / (2 : ℝ) ^ q = (u : ℕ) := by rw [hval, ← hz, add_zero]
      rw [hu] at hmag
      rw [hmag.eq_of_natCast, ← hu, div_mul_cancel₀ _ h2]

end Sys2Proof.Machine
end

section
/-! PROOFS. Rounding to a format: its constants, the bits of a finite number, and what `round` and `round_p` give (R48, R56, R58, R74). -/
namespace Sys2Proof.Machine

variable {f : Fmt} {B fb pr m n u Q N F r : Nat} {mode : RMode} {neg st : Bool} {y : ℝ} {e top : Int}

/-! ## The formats -/

/-- The constants of a format with exponent bias B and `fb` bits of fraction. -/
structure Format (f : Fmt) (B fb : Nat) : Prop where
  p : f.p = fb + 1
  fbits : fmtFbits f = fb
  ebits : 2 ^ f.ebits = 2 * (B + 1)
  bias : fmtBias f = B
  emin : fmtEmin f = 1 - B
  emax : fmtEmax f = B
  signBit : fmtSignBit f = 2 * (B + 1) * 2 ^ fb
  inf : fmtInf f = (2 * B + 1) * 2 ^ fb
  wide : 7 ≤ fb
  narrow : fb < B

theorem format32 : Format fmt32 127 23 where
  p := rfl
  fbits := rfl
  ebits := by decide
  bias := by decide
  emin := by decide
  emax := by decide
  signBit := by decide
  inf := by decide
  wide := by decide
  narrow := by decide

theorem formatBf : Format fmtBf 127 7 where
  p := rfl
  fbits := rfl
  ebits := by decide
  bias := by decide
  emin := by decide
  emax := by decide
  signBit := by decide
  inf := by decide
  wide := by decide
  narrow := by decide

theorem format16 : Format fmt16 15 10 where
  p := rfl
  fbits := rfl
  ebits := by decide
  bias := by decide
  emin := by decide
  emax := by decide
  signBit := by decide
  inf := by decide
  wide := by decide
  narrow := by decide

theorem format_of_mem (hf : f ∈ formats) : ∃ B fb, Format f B fb := by
  simp only [formats, List.mem_cons, List.not_mem_nil, or_false] at hf
  rcases hf with rfl | rfl | rfl
  · exact ⟨_, _, format32⟩
  · exact ⟨_, _, formatBf⟩
  · exact ⟨_, _, format16⟩

/-! ## Bits and what they stand for -/

theorem withSign_add (f : Fmt) (neg : Bool) (x : Nat) : withSign f neg x = (if neg then 1 else 0) * fmtSignBit f + x := by
  cases neg <;> simp [withSign]

/-- The three fields of a pattern of bits. -/
theorem fields_withSign (h : Format f B fb) (hF : F < 2 * (B + 1)) (hr : r < 2 ^ fb) :
    withSign f neg (F * 2 ^ fb + r) % 2 ^ fb = r ∧ withSign f neg (F * 2 ^ fb + r) / 2 ^ fb % (2 * (B + 1)) = F ∧
    decide (withSign f neg (F * 2 ^ fb + r) / fmtSignBit f % 2 = 1) = neg := by
  have hlt : F * 2 ^ fb + r < 2 * (B + 1) * 2 ^ fb := by
    calc F * 2 ^ fb + r < (F + 1) * 2 ^ fb := by rw [Nat.succ_mul]; omega
      _ ≤ _ := Nat.mul_le_mul_right _ hF
  have hpos := Nat.two_pow_pos fb
  generalize hs : (if neg then 1 else 0) = s
  have hval : withSign f neg (F * 2 ^ fb + r) = r + 2 ^ fb * (F + 2 * (B + 1) * s) := by
    rw [withSign_add, h.signBit, hs]
    ring
  refine ⟨?_, ?_, ?_⟩
  · rw [hval, Nat.add_mul_mod_self_left, Nat.mod_eq_of_lt hr]
  · rw [hval, Nat.add_mul_div_left _ _ hpos, Nat.div_eq_of_lt hr, zero_add, Nat.add_mul_mod_self_left, Nat.mod_eq_of_lt hF]
  · rw [withSign_add, hs, h.signBit, add_comm, Nat.add_mul_div_right _ _ (by positivity), Nat.div_eq_of_lt hlt, zero_add, ← hs]
    cases neg <;> rfl

theorem fpDecode_finite (h : Format f B fb) (hF : F ≤ 2 * B) (hr : r < 2 ^ fb) :
    fpDecode f (withSign f neg (F * 2 ^ fb + r)) = .fin neg (if F = 0 then r else 2 ^ fb + r) ((max F 1 : ℕ) - B - fb) := by
  obtain ⟨hfrac, hex, hneg⟩ := fields_withSign (neg := neg) h (by omega : F < 2 * (B + 1)) hr
  simp only [fpDecode, h.fbits, h.ebits, h.bias, h.emin, hfrac, hex, hneg]
  rw [if_neg (by omega)]
  split
  · next h0 => simp [h0]
  · next h0 => rw [Nat.max_eq_left (by omega)]

theorem fpDecode_inf (h : Format f B fb) (neg : Bool) : fpDecode f (withSign f neg (fmtInf f)) = .inf neg := by
  obtain ⟨hfrac, hex, hneg⟩ := fields_withSign (neg := neg) h (by omega : 2 * B + 1 < 2 * (B + 1)) (Nat.two_pow_pos fb)
  rw [add_zero, ← h.inf] at hfrac hex hneg
  simp only [fpDecode, h.fbits, h.ebits, hfrac, hex, hneg]
  rw [if_pos (by omega), if_pos trivial]

theorem fpDecode_zero (h : Format f B fb) (neg : Bool) : fpDecode f (withSign f neg 0) = .fin neg 0 (fmtEmin f - fmtFbits f) := by
  have := fpDecode_finite (neg := neg) h (Nat.zero_le _) (Nat.two_pow_pos fb)
  rw [Nat.zero_mul, zero_add] at this
  simp [this, h.emin, h.fbits]

/-- The magnitude that stands for N quanta, `Q` binades above the subnormals. -/
theorem fpDecode_quanta (h : Format f B fb) (hN : N ≤ 2 * 2 ^ fb) (hQ : Q = 0 ∨ 2 ^ fb ≤ N) (hfit : Q * 2 ^ fb + N < fmtInf f) :
    ∃ m e, fpDecode f (withSign f neg (Q * 2 ^ fb + N)) = .fin neg m e ∧ (m : ℝ) * 2 ^ e = N * 2 ^ (Q + fmtEmin f - fb) := by
  have hpos := Nat.two_pow_pos fb
  have bound (F : Nat) (hF : F * 2 ^ fb ≤ Q * 2 ^ fb + N) : F ≤ 2 * B := by
    rw [h.inf] at hfit
    exact Nat.lt_succ_iff.mp (Nat.lt_of_mul_lt_mul_right (hF.trans_lt hfit))
  rcases lt_or_ge N (2 ^ fb) with hlt | hge
  · obtain rfl : Q = 0 := hQ.resolve_right (by omega)
    refine ⟨_, _, fpDecode_finite h (Nat.zero_le _) hlt, ?_⟩
    simp [h.emin]
  · obtain ⟨r, rfl⟩ := Nat.exists_eq_add_of_le hge
    rcases lt_or_eq_of_le (show r ≤ 2 ^ fb by omega) with hr | rfl
    · have hF := bound (Q + 1) (by rw [Nat.succ_mul]; omega)
      have hd := fpDecode_finite (neg := neg) h hF hr
      rw [Nat.succ_mul, Nat.add_assoc] at hd
      refine ⟨_, _, hd, ?_⟩
      rw [if_neg (by omega), h.emin, Nat.max_eq_left (by omega)]
      congr 2
      push_cast
      ring
    · have hF := bound (Q + 2) (by rw [Nat.add_mul]; omega)
      have hd := fpDecode_finite (neg := neg) h hF hpos
      rw [show (Q + 2) * 2 ^ fb + 0 = Q * 2 ^ fb + (2 ^ fb + 2 ^ fb) by ring] at hd
      refine ⟨_, _, hd, ?_⟩
      rw [if_neg (by omega), h.emin, Nat.max_eq_left (by omega),
        show ((Q + 2 : ℕ) : Int) - B - fb = (Q + (1 - B : Int) - fb) + 1 by push_cast; ring, zpow_add_one₀ two_ne_zero]
      push_cast
      ring

end Sys2Proof.Machine
end

section
/-! PROOFS. What `round` and `round_p` give for a magnitude of known leading bits (R56, R58, R74). -/
namespace Sys2Proof.Machine

variable {f : Fmt} {B fb pr m n u Q N : Nat} {mode : RMode} {neg st : Bool} {y : ℝ} {e q top t : Int}

/-! ## Quanta and binades -/

theorem LeadsWith.binade (h : LeadsWith y m e st) (hm : m ≠ 0) : (2 : ℝ) ^ ((Nat.log2 m : Int) + e) ≤ y ∧ y < 2 ^ ((Nat.log2 m : Int) + e + 1) := by
  obtain ⟨δ, h0, h1, -, rfl⟩ := h
  have h2 : (2 : ℝ) ^ e > 0 := by positivity
  have hlo : (2 : ℝ) ^ Nat.log2 m ≤ m := by exact_mod_cast Nat.log2_self_le hm
  have hhi : (m : ℝ) + 1 ≤ 2 ^ (Nat.log2 m + 1) := by exact_mod_cast (Nat.lt_log2_self : m < _)
  rw [show (Nat.log2 m : Int) + e + 1 = ((Nat.log2 m + 1 : ℕ) : Int) + e by push_cast; ring, zpow_add₀ two_ne_zero, zpow_add₀ two_ne_zero,
    zpow_natCast, zpow_natCast]
  constructor
  · gcongr
    linarith
  · gcongr
    linarith

/-- A magnitude below 2^(t + 1) has at most 2^pr quanta of pr bits of t's binade; one from 2^t on at least half of them. -/
theorem RoundsMag.le_quanta (h : RoundsMag mode neg (y / 2 ^ (t - (pr - 1 : ℕ))) n) (hpr : 0 < pr) (hy : y ≤ 2 ^ (t + 1)) : n ≤ 2 ^ pr := by
  refine h.le_of_le ?_
  rw [div_le_iff₀ (by positivity), Nat.cast_pow, Nat.cast_two, ← zpow_natCast, ← zpow_add₀ two_ne_zero]
  rwa [show ((pr : ℕ) : Int) + (t - (pr - 1 : ℕ)) = t + 1 by omega]

theorem RoundsMag.quanta_le (h : RoundsMag mode neg (y / 2 ^ (t - (pr - 1 : ℕ))) n) (hy : 2 ^ t ≤ y) : 2 ^ (pr - 1) ≤ n := by
  refine h.ge_of_ge ?_
  rw [le_div_iff₀ (by positivity), Nat.cast_pow, Nat.cast_two, ← zpow_natCast, ← zpow_add₀ two_ne_zero]
  rwa [show ((pr - 1 : ℕ) : Int) + (t - (pr - 1 : ℕ)) = t by omega]

theorem quanta_eq (n pr : Nat) (t : Int) : (n : ℝ) * 2 ^ (t - (pr - 1 : ℕ)) = (n / 2 ^ (pr - 1) : ℝ) * 2 ^ t := by
  rw [zpow_sub₀ two_ne_zero, zpow_natCast]
  ring

/-- The quanta of one binade lie below a power of two where the binade does and they do not reach it. -/
theorem quanta_lt_two_pow (hlo : 2 ^ (pr - 1) ≤ n) (hhi : n ≤ 2 ^ pr) (hpr : 0 < pr) (k : Int) :
    (n : ℝ) * 2 ^ (t - (pr - 1 : ℕ)) < 2 ^ k ↔ t < k ∧ ¬ (t + 1 = k ∧ n = 2 ^ pr) := by
  have hpow : (2 : ℝ) ^ pr = 2 * 2 ^ (pr - 1) := by rw [← pow_succ', Nat.sub_add_cancel hpr]
  have hlo' : (1 : ℝ) ≤ n / 2 ^ (pr - 1) := by
    rw [one_le_div (by positivity)]
    exact_mod_cast hlo
  have hhi' : (n / 2 ^ (pr - 1) : ℝ) ≤ 2 ∧ (n < 2 ^ pr → (n / 2 ^ (pr - 1) : ℝ) < 2) := by
    rw [div_le_iff₀ (by positivity), div_lt_iff₀ (by positivity), ← hpow]
    exact ⟨by exact_mod_cast hhi, fun h => by exact_mod_cast h⟩
  rw [quanta_eq]
  have hz : (2 : ℝ) ^ (t + 1) = 2 * 2 ^ t := by rw [zpow_add_one₀ two_ne_zero, mul_comm]
  have hmono {a b : Int} (h : a ≤ b) : (2 : ℝ) ^ a ≤ 2 ^ b := zpow_le_zpow_right₀ one_le_two h
  have ht : (0 : ℝ) < 2 ^ t := by positivity
  rcases lt_trichotomy (t + 1) k with h | h | h
  · refine iff_of_true ?_ (by omega)
    have := hmono (show t + 1 + 1 ≤ k by omega)
    rw [zpow_add_one₀ two_ne_zero, hz] at this
    nlinarith
  · subst h
    rw [hz, mul_lt_mul_iff_left₀ ht]
    rcases hhi.lt_or_eq with hn | hn
    · exact iff_of_true (hhi'.2 hn) (by omega)
    · refine iff_of_false ?_ (by simp [hn])
      rw [hn, Nat.cast_pow, Nat.cast_two, hpow]
      simp
  · refine iff_of_false ?_ (by omega)
    have := hmono (show k ≤ t by omega)
    nlinarith

theorem maxFinite_eq (h : Format f B fb) : ((maxFinite f : ℚ) : ℝ) = 2 ^ (B + 1 : Int) - 2 ^ ((B : Int) - fb) := by
  have : (2 : ℝ) ^ (B + 1 : Int) = 2 ^ (fb + 1) * 2 ^ ((B : Int) - fb) := by
    rw [← zpow_natCast, ← zpow_add₀ two_ne_zero]
    congr 1
    push_cast
    ring
  rw [maxFinite, h.p, h.emax, this]
  push_cast
  rw [add_sub_cancel_right]
  ring

/-- The quanta of a binade exceed the largest finite number where the binade does, or where they reach the end of the last one. -/
theorem maxFinite_lt_quanta (h : Format f B fb) (hpr : 0 < pr) (hp : pr ≤ f.p) (hhi : n ≤ 2 ^ pr) (hlo : 2 ^ (pr - 1) ≤ n ∨ t ≤ B) :
    ((maxFinite f : ℚ) : ℝ) < n * 2 ^ (t - (pr - 1 : ℕ)) ↔ (B : Int) < t ∨ (t = B ∧ 2 ^ pr ≤ n) := by
  have hmono {a b : Int} (h : a ≤ b) : (2 : ℝ) ^ a ≤ 2 ^ b := zpow_le_zpow_right₀ one_le_two h
  have hpow (k : Nat) : (2 : ℝ) ^ k * 2 ^ (t - (pr - 1 : ℕ)) = 2 ^ (k + t - (pr - 1 : ℕ)) := by
    rw [← zpow_natCast, ← zpow_add₀ two_ne_zero, add_sub_assoc]
  have hquant : (0 : ℝ) < 2 ^ (t - (pr - 1 : ℕ)) := by positivity
  have hunit : (0 : ℝ) < 2 ^ ((B : Int) - fb) := by positivity
  have hend : (2 : ℝ) ^ ((B : Int) + 1) = 2 * 2 ^ (B : Int) := by rw [zpow_add_one₀ two_ne_zero, mul_comm]
  rw [maxFinite_eq h]
  rcases lt_trichotomy t B with ht | rfl | ht
  · refine iff_of_false (not_lt.mpr ?_) (by omega)
    calc (n : ℝ) * 2 ^ (t - (pr - 1 : ℕ)) ≤ 2 ^ pr * 2 ^ (t - (pr - 1 : ℕ)) := by
          gcongr
          exact_mod_cast hhi
      _ ≤ 2 ^ (B : Int) := by
          rw [hpow]
          exact hmono (by omega)
      _ ≤ _ := by linarith [hmono (show (B : Int) - fb ≤ B by omega)]
  · have hall : (2 : ℝ) ^ ((B : Int) + 1) = 2 ^ pr * 2 ^ ((B : Int) - (pr - 1 : ℕ)) := by
      rw [hpow]
      congr 1
      omega
    rcases lt_or_ge n (2 ^ pr) with hn | hn
    · refine iff_of_false (not_lt.mpr ?_) (by omega)
      have hn' : (n : ℝ) + 1 ≤ 2 ^ pr := by exact_mod_cast hn
      have := hmono (show (B : Int) - fb ≤ B - (pr - 1 : ℕ) by rw [h.p] at hp; omega)
      rw [hall]
      nlinarith
    · refine iff_of_true ?_ (.inr ⟨rfl, hn⟩)
      have hn' : (2 : ℝ) ^ pr ≤ n := by exact_mod_cast hn
      rw [hall]
      nlinarith
  · refine iff_of_true ?_ (.inl ht)
    have hn : (2 : ℝ) ^ (pr - 1) ≤ n := by exact_mod_cast hlo.resolve_right (by omega)
    calc (2 : ℝ) ^ ((B : Int) + 1) - 2 ^ ((B : Int) - fb) < 2 ^ ((B : Int) + 1) := by linarith
      _ ≤ 2 ^ (pr - 1) * 2 ^ (t - (pr - 1 : ℕ)) := by
          rw [hpow]
          exact hmono (by omega)
      _ ≤ _ := by gcongr

end Sys2Proof.Machine
end

section
/-! PROOFS. `round` and `round_p` of a magnitude, by its leading bits (R56, R58, R74). -/
namespace Sys2Proof.Machine

variable {f : Fmt} {B fb pr m n u : Nat} {mode : RMode} {neg st : Bool} {x y : ℝ} {e top t : Int} {r : FpRes}

theorem withSign_lt (h : Format f B fb) {mag : Nat} (hmag : mag ≤ fmtInf f) (neg : Bool) : withSign f neg mag < 2 * fmtSignBit f := by
  have hinf : fmtInf f < fmtSignBit f := by
    rw [h.inf, h.signBit]
    exact Nat.mul_lt_mul_of_pos_right (by omega) (Nat.two_pow_pos fb)
  cases neg <;> simp [withSign] <;> omega

theorem withSign_mod (h : Format f B fb) {mag : Nat} (hmag : mag ≤ fmtInf f) (neg : Bool) : withSign f neg mag % withSign f true 0 = mag := by
  have hinf : fmtInf f < fmtSignBit f := by
    rw [h.inf, h.signBit]
    exact Nat.mul_lt_mul_of_pos_right (by omega) (Nat.two_pow_pos fb)
  rw [withSign_add, withSign_add, if_pos rfl, one_mul, add_zero, Nat.mul_add_mod_self_right, Nat.mod_eq_of_lt (by omega)]

/-- A result that stands for `n` quanta of `pr` bits of a magnitude's binade, with the flags of R58, or overflows. -/
structure RoundedBits (f : Fmt) (pr : Nat) (mode : RMode) (neg : Bool) (y : ℝ) (r : FpRes) (top : Int) (n u : Nat) : Prop where
  low : 2 ^ top ≤ y
  high : y < 2 ^ (top + 1)
  unbounded : RoundsMag mode neg (y / 2 ^ (top - (pr - 1 : ℕ))) u
  bounded : RoundsMag mode neg (y / 2 ^ (max top (fmtEmin f) - (pr - 1 : ℕ))) n
  overflow_iff : ((maxFinite f : ℚ) : ℝ) < u * 2 ^ (top - (pr - 1 : ℕ)) ↔ ((maxFinite f : ℚ) : ℝ) < n * 2 ^ (max top (fmtEmin f) - (pr - 1 : ℕ))
  overflow : ((maxFinite f : ℚ) : ℝ) < n * 2 ^ (max top (fmtEmin f) - (pr - 1 : ℕ)) →
    r = { bits := withSign f neg (overflowMag f mode neg), flags := 20 }
  fits : (n : ℝ) * 2 ^ (max top (fmtEmin f) - (pr - 1 : ℕ)) ≤ ((maxFinite f : ℚ) : ℝ) →
    ∃ mag, r.bits = withSign f neg mag ∧ mag ≤ fmtInf f ∧
      (mag < 2 ^ fmtFbits f ↔ (n : ℝ) * 2 ^ (max top (fmtEmin f) - (pr - 1 : ℕ)) < 2 ^ fmtEmin f) ∧
      IsFinite f r.bits neg (n * 2 ^ (max top (fmtEmin f) - (pr - 1 : ℕ))) ∧
      RoundFlags ((n : ℝ) * 2 ^ (max top (fmtEmin f) - (pr - 1 : ℕ)) ≠ y) ((u : ℝ) * 2 ^ (top - (pr - 1 : ℕ)) < 2 ^ fmtEmin f) r.flags

/-- The bits of `n` quanta of `pr` bits of a binade t below the overflow. -/
theorem quanta_bits (h : Format f B fb) (hpr : 0 < pr) (hp : pr ≤ f.p) (ht : fmtEmin f ≤ t) (hhi : n ≤ 2 ^ pr)
    (hlo : t = fmtEmin f ∨ 2 ^ (pr - 1) ≤ n) (hfin : t < B ∨ (t = B ∧ n < 2 ^ pr)) :
    (t - fmtEmin f).toNat * 2 ^ fb + n * 2 ^ (f.p - pr) < fmtInf f ∧
    ((t - fmtEmin f).toNat * 2 ^ fb + n * 2 ^ (f.p - pr) < 2 ^ fb ↔ (n : ℝ) * 2 ^ (t - (pr - 1 : ℕ)) < 2 ^ fmtEmin f) ∧
    IsFinite f (withSign f neg ((t - fmtEmin f).toNat * 2 ^ fb + n * 2 ^ (f.p - pr))) neg (n * 2 ^ (t - (pr - 1 : ℕ))) := by
  obtain ⟨Q, rfl⟩ : ∃ Q : Nat, t = fmtEmin f + Q := ⟨(t - fmtEmin f).toNat, by omega⟩
  rw [show (fmtEmin f + Q - fmtEmin f).toNat = Q by omega]
  have hemin := h.emin
  have hwide : 2 ^ pr * 2 ^ (f.p - pr) = 2 * 2 ^ fb := by
    rw [← pow_add, Nat.add_sub_cancel' hp, h.p, pow_succ']
  have hhalf : 2 ^ (pr - 1) * 2 ^ (f.p - pr) = 2 ^ fb := by
    rw [← pow_add]
    congr 1
    rw [h.p] at hp ⊢
    omega
  have hpos := Nat.two_pow_pos (f.p - pr)
  have hN : n * 2 ^ (f.p - pr) ≤ 2 * 2 ^ fb := hwide ▸ Nat.mul_le_mul_right _ hhi
  have hNlt : n < 2 ^ pr → n * 2 ^ (f.p - pr) < 2 * 2 ^ fb := fun hn => hwide ▸ Nat.mul_lt_mul_of_pos_right hn hpos
  have hNlo : 2 ^ (pr - 1) ≤ n ↔ 2 ^ fb ≤ n * 2 ^ (f.p - pr) := by rw [← hhalf, Nat.mul_le_mul_right_iff hpos]
  have hQ : Q = 0 ∨ 2 ^ fb ≤ n * 2 ^ (f.p - pr) := hlo.imp (by omega) hNlo.mp
  have hval : ((n * 2 ^ (f.p - pr) : ℕ) : ℝ) * 2 ^ (Q + fmtEmin f - fb) = n * 2 ^ (fmtEmin f + Q - (pr - 1 : ℕ)) := by
    push_cast
    rw [mul_assoc, ← zpow_natCast, ← zpow_add₀ two_ne_zero]
    congr 2
    rw [h.p] at hp ⊢
    omega
  have hfit : Q * 2 ^ fb + n * 2 ^ (f.p - pr) < fmtInf f := by
    rw [h.inf]
    rcases hfin with hlt | ⟨heq, hn⟩
    · have := Nat.mul_le_mul_right (2 ^ fb) (show Q + 3 ≤ 2 * B + 1 by omega)
      have hp := Nat.two_pow_pos fb
      rw [Nat.add_mul] at this
      omega
    · have := Nat.mul_le_mul_right (2 ^ fb) (show Q + 2 ≤ 2 * B + 1 by omega)
      have hlt := hNlt hn
      rw [Nat.add_mul] at this
      omega
  refine ⟨hfit, ?_, withSign_lt h hfit.le neg, ?_⟩
  · rw [← hval, show (2 : ℝ) ^ fmtEmin f = ((2 ^ fb : ℕ) : ℝ) * 2 ^ (fmtEmin f - fb) by
      push_cast
      rw [← zpow_natCast, ← zpow_add₀ two_ne_zero]
      congr 1
      ring]
    rcases Nat.eq_zero_or_pos Q with rfl | hQpos
    · rw [Nat.zero_mul, zero_add, Nat.cast_zero, zero_add, mul_lt_mul_iff_left₀ (by positivity)]
      exact Nat.cast_lt.symm
    · have hfb := hQ.resolve_left hQpos.ne'
      refine iff_of_false (by omega) (not_lt.mpr ?_)
      gcongr
      · exact one_le_two
      · omega
  · obtain ⟨m, e, hd, he⟩ := fpDecode_quanta (neg := neg) h hN hQ hfit
    exact ⟨m, e, hd, he.trans hval⟩

theorem roundGen_spec (h : Format f B fb) (hpr : 0 < pr) (hp : pr ≤ f.p) (hm : m ≠ 0) (hy : LeadsWith y m e st) (hst : st = true → pr ≤ Nat.log2 m) :
    ∃ top n u, RoundedBits f pr mode neg y (roundGen f pr mode neg m e st) top n u := by
  let top : Int := (Nat.log2 m : Int) + e
  let t := max top (fmtEmin f)
  obtain ⟨hlow, hhigh⟩ := hy.binade hm
  have hqu : st = true → e < top - (pr - 1 : ℕ) := fun h => by have := hst h; omega
  have hq : st = true → e < t - (pr - 1 : ℕ) := fun h => by have := hst h; omega
  obtain ⟨hn, hin⟩ := roundTo_spec (mode := mode) (neg := neg) hy hq
  obtain ⟨hu, -⟩ := roundTo_spec (mode := mode) (neg := neg) hy hqu
  have hsame : t = top → (roundTo mode neg m e st (t - (pr - 1 : ℕ))).1 = (roundTo mode neg m e st (top - (pr - 1 : ℕ))).1 := fun h => by rw [h]
  unfold roundGen
  generalize hrn : roundTo mode neg m e st (t - (pr - 1 : ℕ)) = N at hn hin hsame
  generalize hru : roundTo mode neg m e st (top - (pr - 1 : ℕ)) = U at hu hsame
  obtain ⟨n, inexact⟩ := N
  obtain ⟨u, iu⟩ := U
  refine ⟨top, n, u, ?_⟩
  have hmono {a b : Int} (h : a ≤ b) : (2 : ℝ) ^ a ≤ 2 ^ b := zpow_le_zpow_right₀ one_le_two h
  have hnhi : n ≤ 2 ^ pr := hn.le_quanta hpr (hhigh.le.trans (hmono (by omega)))
  have huhi : u ≤ 2 ^ pr := hu.le_quanta hpr hhigh.le
  have hulo : 2 ^ (pr - 1) ≤ u := hu.quanta_le hlow
  have hemin : fmtEmin f ≤ B := by rw [h.emin]; have := h.narrow; omega
  have hnlo : 2 ^ (pr - 1) ≤ n ∨ t ≤ B := by
    rcases le_total top (fmtEmin f) with ht | ht
    · exact .inr (by omega)
    · exact .inl (hulo.trans_eq (hsame (max_eq_left ht)).symm)
  have hovf := maxFinite_lt_quanta h hpr hp hnhi hnlo
  have hovfu := maxFinite_lt_quanta h hpr hp huhi (t := top) (.inl hulo)
  have htiny := quanta_lt_two_pow hulo huhi hpr (fmtEmin f) (t := top)
  have hover : (decide (2 ^ pr ≤ n) && decide (fmtEmax f < t - (pr - 1 : ℕ) + pr) || decide (fmtEmax f < t - (pr - 1 : ℕ) + (pr - 1 : ℕ))) = true ↔
      ((maxFinite f : ℚ) : ℝ) < n * 2 ^ (t - (pr - 1 : ℕ)) := by
    rw [hovf, h.emax, Bool.or_eq_true, Bool.and_eq_true, decide_eq_true_eq, decide_eq_true_eq, decide_eq_true_eq]
    omega
  have htop : (Nat.log2 m : Int) + e = top := rfl
  have ht : max top (fmtEmin f) = t := rfl
  simp only [htop, ht, hrn, hru]
  refine ⟨hlow, hhigh, hu, hn, ?_, ?_, ?_⟩
  · rw [hovf, hovfu]
    rcases lt_or_ge top (fmtEmin f) with hlt | hge
    · have hts : t = fmtEmin f := max_eq_right hlt.le
      have := h.emin
      have := h.narrow
      have := h.wide
      omega
    · have hts : t = top := max_eq_left hge
      rw [hts, show n = u from hsame hts]
  · intro hlt
    rw [if_pos (hover.mpr hlt)]
    rfl
  · intro hle
    rw [if_neg fun hc => hle.not_gt (hover.mp hc)]
    have hnot : ¬ ((B : Int) < t ∨ (t = B ∧ 2 ^ pr ≤ n)) := fun hc => hle.not_gt (hovf.mpr hc)
    have hend : t < B ∨ (t = B ∧ n < 2 ^ pr) := by omega
    have hlo : t = fmtEmin f ∨ 2 ^ (pr - 1) ≤ n := by
      rcases le_total top (fmtEmin f) with hts | hts
      · exact .inl (max_eq_right hts)
      · exact .inr (hulo.trans_eq (hsame (max_eq_left hts)).symm)
    obtain ⟨hlt, hsub, hfin⟩ := quanta_bits (neg := neg) h hpr hp (le_max_right top (fmtEmin f)) hnhi hlo hend
    have hbits : (t - (pr - 1 : ℕ) - (f.p - pr : ℕ) - (fmtEmin f - fmtFbits f)).toNat * 2 ^ fmtFbits f = (t - fmtEmin f).toNat * 2 ^ fb := by
      rw [h.fbits]
      congr 2
      rw [h.p] at hp ⊢
      omega
    rw [hbits]
    refine ⟨_, rfl, hlt.le, by rwa [h.fbits], hfin, ?_⟩
    have hunf : (inexact && (decide (top - (pr - 1 : ℕ) + (pr - 1 : ℕ) < fmtEmin f) &&
        !(decide (top - (pr - 1 : ℕ) + (pr : ℕ) = fmtEmin f) && u == 2 ^ pr))) = true ↔
        inexact = true ∧ (u : ℝ) * 2 ^ (top - (pr - 1 : ℕ)) < 2 ^ fmtEmin f := by
      rw [htiny, Bool.and_eq_true, Bool.and_eq_true, Bool.not_eq_true', ← Bool.not_eq_true, Bool.and_eq_true, decide_eq_true_eq, decide_eq_true_eq, beq_iff_eq]
      constructor <;> intro hc <;> refine ⟨hc.1, ?_⟩ <;> omega
    rw [← hin]
    refine ⟨fun hi htn => ?_, fun hi htn => ?_, fun hi => ?_⟩
    · rw [if_pos hi, if_pos (hunf.mpr ⟨hi, htn⟩)]
      rfl
    · rw [if_pos hi, if_neg fun hc => htn (hunf.mp hc).2]
      rfl
    · rw [if_neg hi, if_neg fun hc => hi (hunf.mp hc).1]

/-! ## `round` and `round_p` -/

theorem overflowMag_eq (f : Fmt) (mode : RMode) (neg : Bool) : overflowMag f mode neg =
    if mode = .rne ∨ mode = .rna ∨ (mode = .rup ∧ neg = false) ∨ (mode = .rdn ∧ neg = true) then fmtInf f else fmtInf f - 1 := by
  cases mode <;> cases neg <;> rfl

theorem roundFin_spec (hf : f ∈ formats) (hm : m ≠ 0) (hy : LeadsWith |x| m e st) (hneg : neg = true ↔ x < 0)
    (hst : st = true → f.p ≤ Nat.log2 m) : RoundsTo f mode x (roundFin f mode neg m e st) := by
  obtain ⟨B, fb, h⟩ := format_of_mem hf
  have hp : ((f.p - 1 : ℕ) : Int) = f.p - 1 := by rw [h.p]; omega
  obtain ⟨top, n, u, hr⟩ := roundGen_spec (mode := mode) (neg := neg) h (by rw [h.p]; omega) le_rfl hm hy hst
  obtain ⟨hlow, hhigh, hu, hn, hiff, hover, hfit⟩ := hr
  simp only [hp] at hu hn hiff hover hfit
  refine ⟨neg, top, n, u, hneg, hlow, hhigh, hu, hn, fun hlt => ?_, fun hle => ?_⟩
  · rw [← overflowMag_eq]
    exact hover (hiff.mp hlt)
  · obtain ⟨-, -, -, -, hfin, hflags⟩ := hfit (not_lt.mp fun hlt => hle.not_gt (hiff.mpr hlt))
    exact ⟨hfin, hflags⟩

/-- The bits that `round_p` keeps. -/
def apxBits (f : Fmt) : Nat := if f.p = 24 then 12 else 8

theorem apxBits_le (hf : f ∈ formats) : apxBits f ≤ f.p := by
  simp only [formats, List.mem_cons, List.not_mem_nil, or_false] at hf
  rcases hf with rfl | rfl | rfl <;> decide

/-- `round_p` keeps the bits of its rounding, and INEXACT, which UNDERFLOW joins where those bits are subnormal. -/
theorem roundApx_of (hr : roundGen f (apxBits f) .rne neg m e st = r) :
    roundApx f neg m e st = { r with flags := (r.flags &&& 55) +
      (if r.flags &&& 16 ≠ 0 ∧ decide (r.bits % withSign f true 0 < 2 ^ fmtFbits f) = true then 8 else 0) } := by
  rw [← hr]
  rfl

theorem RoundFlags.apx {inexact tiny tiny' : Prop} {fl : Nat} {b : Bool} (h : RoundFlags inexact tiny fl) (hb : b = true ↔ tiny') :
    RoundFlags inexact tiny' ((fl &&& 55) + (if fl &&& 16 ≠ 0 ∧ b = true then 8 else 0)) := by
  obtain ⟨h24, h16, h0⟩ := h
  have hfl : inexact → fl = 24 ∨ fl = 16 := fun hi => (em tiny).imp (h24 hi) (h16 hi)
  refine ⟨fun hi ht => ?_, fun hi ht => ?_, fun hi => by rw [h0 hi]; rfl⟩
  · rw [hb.mpr ht]
    rcases hfl hi with rfl | rfl <;> rfl
  · rw [Bool.eq_false_iff.mpr fun h => ht (hb.mp h)]
    rcases hfl hi with rfl | rfl <;> rfl

theorem roundApx_spec (hf : f ∈ formats) (hm : m ≠ 0) (hy : LeadsWith |x| m e st) (hneg : neg = true ↔ x < 0)
    (hst : st = true → f.p ≤ Nat.log2 m) : RoundsApx f x (roundApx f neg m e st) := by
  obtain ⟨B, fb, h⟩ := format_of_mem hf
  have hle := apxBits_le hf
  have hp : ((apxBits f - 1 : ℕ) : Int) = if f.p = 24 then 11 else 7 := by
    unfold apxBits
    split <;> rfl
  obtain ⟨top, n, u, hr⟩ := roundGen_spec (mode := .rne) (neg := neg) h (by unfold apxBits; split <;> decide) hle hm hy fun hs => hle.trans (hst hs)
  obtain ⟨hlow, hhigh, -, hn, -, hover, hfit⟩ := hr
  simp only [hp] at hn hover hfit
  refine ⟨neg, top, n, hneg, hlow, hhigh, hn, fun hlt => ?_, fun hle => ?_⟩
  · have hinf : ¬ fmtInf f < 2 ^ fmtFbits f := by
      rw [h.inf, h.fbits, not_lt]
      exact Nat.le_mul_of_pos_left _ (by omega)
    rw [roundApx_of (hover hlt)]
    simp only [overflowMag, withSign_mod h le_rfl, hinf]
    rfl
  · obtain ⟨mag, hbits, hmag, hsub, hfin, hflags⟩ := hfit hle
    rw [roundApx_of rfl]
    refine ⟨hfin, hflags.apx ?_⟩
    rw [decide_eq_true_eq, hbits, withSign_mod h hmag]
    exact hsub

theorem fnRound_spec (hf : f ∈ formats) (apx : Bool) (hm : m ≠ 0) (hy : LeadsWith |x| m e st) (hneg : neg = true ↔ x < 0)
    (hst : st = true → f.p ≤ Nat.log2 m) :
    if apx then RoundsApx f x (fnRound f mode apx neg m e st) else RoundsTo f mode x (fnRound f mode apx neg m e st) := by
  cases apx
  · exact roundFin_spec hf hm hy hneg hst
  · exact roundApx_spec hf hm hy hneg hst

/-- Rounding of a number given exactly. -/
theorem roundFin_exact (hf : f ∈ formats) (hm : m ≠ 0) (hx : |x| = m * 2 ^ e) (hneg : neg = true ↔ x < 0) :
    RoundsTo f mode x (roundFin f mode neg m e false) :=
  roundFin_spec hf hm (hx ▸ leadsWith_exact m e) hneg nofun

end Sys2Proof.Machine
end

section
/-! PROOFS. Sums, products, quotients and fused products round their exact value once (R49, R55, R56, R58, R186). -/
namespace Sys2Proof.Machine

variable {f : Fmt} {mode : RMode} {neg : Bool} {m k p : Nat} {e base : Int} {a b c v : FpVal} {x : ℚ}

/-! ## Exact values -/

@[simp] theorem exactOf_eq_zero : exactOf (.fin neg m e) = 0 ↔ m = 0 := by
  have h2 : (2 : ℚ) ^ e ≠ 0 := zpow_ne_zero _ two_ne_zero
  cases neg <;> simp [exactOf, h2]

theorem abs_exactOf (neg : Bool) (m : Nat) (e : Int) : |((exactOf (.fin neg m e) : ℚ) : ℝ)| = m * 2 ^ e := by
  have h : (0 : ℝ) ≤ m * 2 ^ e := by positivity
  cases neg
  · simp [exactOf, abs_of_nonneg h]
  · rw [show ((exactOf (.fin true m e) : ℚ) : ℝ) = -(m * 2 ^ e) by simp [exactOf], abs_neg, abs_of_nonneg h]

theorem exactOf_neg_iff (hm : m ≠ 0) : neg = true ↔ exactOf (.fin neg m e) < 0 := by
  have h : (0 : ℚ) < m * 2 ^ e := by
    have : (0 : ℚ) < m := by exact_mod_cast Nat.pos_of_ne_zero hm
    positivity
  cases neg
  · exact iff_of_false (by decide) (by simpa [exactOf] using h.le)
  · exact iff_of_true rfl (by simpa [exactOf] using h)

theorem exactOf_pos_iff (hm : m ≠ 0) : neg = false ↔ 0 < exactOf (.fin neg m e) := by
  rw [← Bool.not_eq_true, exactOf_neg_iff hm (e := e), not_lt, le_iff_lt_or_eq, or_iff_left fun h => hm (exactOf_eq_zero.mp h.symm)]

theorem exactOf_mulExact (ha : isFin a = true) (hb : isFin b = true) : exactOf (mulExact a b) = exactOf a * exactOf b := by
  match a, b, ha, hb with
  | .fin na ma ea, .fin nb mb eb, _, _ =>
    have h2 : (2 : ℚ) ^ (ea + eb) = 2 ^ ea * 2 ^ eb := zpow_add₀ two_ne_zero _ _
    cases na <;> cases nb <;> simp [mulExact, exactOf, h2] <;> ring

theorem finInt_mul (neg : Bool) (m : Nat) (h : base ≤ e) : (finInt neg m e base : ℚ) * 2 ^ base = exactOf (.fin neg m e) := by
  have hpow : (2 : ℚ) ^ (e - base).toNat * 2 ^ base = 2 ^ e := by
    rw [← zpow_natCast, ← zpow_add₀ two_ne_zero]
    congr 1
    omega
  cases neg
  · simp only [finInt, exactOf, Bool.false_eq_true, if_false]
    push_cast
    rw [mul_assoc, hpow, one_mul]
  · simp only [finInt, exactOf, if_true]
    push_cast
    rw [neg_mul, mul_assoc, hpow]
    ring

/-! ## One rounding of an exact value -/

theorem roundFin_int (hf : f ∈ formats) {s : Int} (hs : s ≠ 0) (hx : x = s * 2 ^ e) :
    RoundsTo f mode x (roundFin f mode (decide (s < 0)) s.natAbs e false) := by
  have h2 : (0 : ℝ) < 2 ^ e := by positivity
  have hx' : ((x : ℚ) : ℝ) = s * 2 ^ e := by rw [hx]; push_cast; rfl
  refine roundFin_exact hf (Int.natAbs_ne_zero.mpr hs) ?_ ?_
  · rw [hx', abs_mul, abs_of_pos h2, Nat.cast_natAbs, Int.cast_abs]
  · rw [hx', decide_eq_true_eq, ← not_le, ← not_le, mul_nonneg_iff_of_pos_right h2, Int.cast_nonneg_iff]

theorem roundVal_fin (hf : f ∈ formats) (hm : m ≠ 0) : RoundsTo f mode (exactOf (.fin neg m e)) (roundVal f mode (.fin neg m e)) := by
  rw [roundVal, if_neg hm]
  exact roundFin_exact hf hm (abs_exactOf _ _ _) ((exactOf_neg_iff hm).trans (by norm_cast))

theorem leadsWith_div (a : Nat) (e : Int) {b : Nat} (hb : b ≠ 0) : LeadsWith (a / b * 2 ^ e : ℝ) (a / b) e (a % b != 0) := by
  have hb' : (0 : ℝ) < b := by exact_mod_cast Nat.pos_of_ne_zero hb
  refine ⟨(a % b : ℕ) / b, by positivity, ?_, ?_, ?_⟩
  · rw [div_lt_one hb']
    exact_mod_cast Nat.mod_lt a (Nat.pos_of_ne_zero hb)
  · rw [bne_iff_ne, div_pos_iff_of_pos_right hb', Nat.cast_pos, Nat.pos_iff_ne_zero]
  · congr 1
    rw [div_eq_iff hb'.ne', add_mul, div_mul_cancel₀ _ hb'.ne']
    exact_mod_cast (Nat.div_add_mod' a b).symm

theorem two_pow_le_div (hm : m ≠ 0) (j : Nat) : 2 ^ j ≤ 2 ^ (j + 1 + Nat.log2 m) / m := by
  rw [Nat.le_div_iff_mul_le (Nat.pos_of_ne_zero hm), add_assoc, pow_add, add_comm 1]
  exact Nat.mul_le_mul_left _ Nat.lt_log2_self.le

theorem le_log2_of_two_pow_le {n : Nat} (h : 2 ^ k ≤ n) : n ≠ 0 ∧ k ≤ Nat.log2 n := by
  have h0 : n ≠ 0 := by have := Nat.two_pow_pos k; omega
  exact ⟨h0, (Nat.le_log2 h0).mpr h⟩

/-! ## The four operations -/

theorem nanOf_pair (f : Fmt) (a b : FpVal) : nanOf f [a, b] = canonical f (isSnan a || isSnan b) := by
  simp [nanOf, canonical, isSnan, fpNan, flInvalid]

theorem nanOf_triple (f : Fmt) (a b c : FpVal) : nanOf f [a, b, c] = canonical f (isSnan a || isSnan b || isSnan c) := by
  simp [nanOf, canonical, isSnan, fpNan, flInvalid, or_assoc]

theorem addVal_nan (h : (isNan a || isNan b) = true) : addVal f mode a b = canonical f (isSnan a || isSnan b) := by
  rw [← nanOf_pair]
  match a, b, h with
  | .nan _, .nan _, _ | .nan _, .inf _, _ | .nan _, .fin .., _ | .inf _, .nan _, _ | .fin .., .nan _, _ => rfl

theorem mulVal_nan (h : (isNan a || isNan b) = true) : mulVal f mode a b = canonical f (isSnan a || isSnan b) := by
  rw [mulVal, if_pos h, nanOf_pair]

theorem divVal_nan (h : (isNan a || isNan b) = true) : divVal f mode a b = canonical f (isSnan a || isSnan b) := by
  rw [← nanOf_pair]
  match a, b, h with
  | .nan _, .nan _, _ | .nan _, .inf _, _ | .nan _, .fin .., _ | .inf _, .nan _, _ | .fin .., .nan _, _ => rfl

theorem addVal_fin (hf : f ∈ formats) (ha : isFin a = true) (hb : isFin b = true) :
    (exactOf a + exactOf b ≠ 0 → RoundsTo f mode (exactOf a + exactOf b : ℚ) (addVal f mode a b)) ∧
    (exactOf a + exactOf b = 0 → addVal f mode a b =
      signedZero f (if (isZero a && isZero b) && signOf a == signOf b then signOf a else mode == .rdn)) := by
  match a, b, ha, hb with
  | .fin na ma ea, .fin nb mb eb, _, _ =>
    let base := min ea eb
    have hx : exactOf (.fin na ma ea) + exactOf (.fin nb mb eb) = ((finInt na ma ea base + finInt nb mb eb base : ℤ) : ℚ) * 2 ^ base := by
      rw [Int.cast_add, add_mul, finInt_mul na ma (min_le_left ea eb), finInt_mul nb mb (min_le_right ea eb)]
    have hzero : (isZero (.fin na ma ea) && isZero (.fin nb mb eb) && signOf (.fin na ma ea) == signOf (.fin nb mb eb)) = true ↔
        ma = 0 ∧ mb = 0 ∧ na = nb := by simp [isZero, signOf, and_assoc]
    have h2 : (2 : ℚ) ^ base ≠ 0 := zpow_ne_zero _ two_ne_zero
    have heq : addVal f mode (.fin na ma ea) (.fin nb mb eb) = if ma = 0 ∧ mb = 0 ∧ na = nb then signedZero f na else
        if finInt na ma ea base + finInt nb mb eb base = 0 then signedZero f (mode == .rdn)
        else roundFin f mode (decide (finInt na ma ea base + finInt nb mb eb base < 0)) (finInt na ma ea base + finInt nb mb eb base).natAbs base false := rfl
    refine ⟨fun h0 => ?_, fun h0 => ?_⟩
    · have hs : finInt na ma ea base + finInt nb mb eb base ≠ 0 := fun hs => h0 (by rw [hx, hs]; simp)
      have hnz : ¬ (ma = 0 ∧ mb = 0 ∧ na = nb) := fun ⟨h1, h2, _⟩ => hs (by simp [finInt, h1, h2])
      rw [heq, if_neg hnz, if_neg hs]
      exact roundFin_int hf hs hx
    · have hs : finInt na ma ea base + finInt nb mb eb base = 0 := by
        rw [hx] at h0
        exact_mod_cast (mul_eq_zero.mp h0).resolve_right h2
      rw [heq, if_pos hs, ite_congr (propext hzero) (fun _ => rfl) (fun _ => rfl)]
      split <;> rfl

theorem roundVal_exact (hf : f ∈ formats) (hv : isFin v = true) :
    (exactOf v ≠ 0 → RoundsTo f mode (exactOf v) (roundVal f mode v)) ∧ (exactOf v = 0 → roundVal f mode v = signedZero f (signOf v)) := by
  match v, hv with
  | .fin neg m e, _ =>
    rw [ne_eq, exactOf_eq_zero]
    exact ⟨roundVal_fin hf, fun hm => if_pos hm⟩

theorem isFin_mulExact (ha : isFin a = true) (hb : isFin b = true) : isFin (mulExact a b) = true ∧ signOf (mulExact a b) = (signOf a != signOf b) ∧
    isZero (mulExact a b) = (isZero a || isZero b) := by
  match a, b, ha, hb with
  | .fin _ _ _, .fin _ _ _, _, _ => simp [mulExact, isFin, signOf, isZero, Bool.beq_eq_decide_eq]

theorem isNan_of_isFin (hv : isFin v = true) : isNan v = false := by
  match v, hv with
  | .fin _ _ _, _ => rfl

theorem mulVal_eq (ha : isNan a = false) (hb : isNan b = false) : mulVal f mode a b = roundVal f mode (mulExact a b) := by
  simp [mulVal, ha, hb]

theorem mulVal_fin (hf : f ∈ formats) (ha : isFin a = true) (hb : isFin b = true) :
    (exactOf a * exactOf b ≠ 0 → RoundsTo f mode (exactOf a * exactOf b : ℚ) (mulVal f mode a b)) ∧
    (exactOf a * exactOf b = 0 → mulVal f mode a b = signedZero f (signOf a != signOf b)) := by
  obtain ⟨hfin, hsign, -⟩ := isFin_mulExact ha hb
  rw [mulVal_eq (isNan_of_isFin ha) (isNan_of_isFin hb), ← exactOf_mulExact ha hb, ← hsign]
  exact roundVal_exact hf hfin

theorem divVal_fin (hf : f ∈ formats) (ha : isFin a = true) (hb : isFin b = true) (hz : isZero b = false) :
    (exactOf a / exactOf b ≠ 0 → RoundsTo f mode (exactOf a / exactOf b : ℚ) (divVal f mode a b)) ∧
    (exactOf a / exactOf b = 0 → divVal f mode a b = signedZero f (signOf a != signOf b)) := by
  match a, b, ha, hb with
  | .fin na ma ea, .fin nb mb eb, _, _ =>
    have hmb : mb ≠ 0 := by simpa [isZero] using hz
    have hb0 : exactOf (.fin nb mb eb) ≠ 0 := mt exactOf_eq_zero.mp hmb
    rw [ne_eq, div_eq_zero_iff, or_iff_left hb0, exactOf_eq_zero]
    refine ⟨fun hma => ?_, fun hma => ?_⟩
    · let k := f.p + 4 + Nat.log2 mb
      have heq : divVal f mode (.fin na ma ea) (.fin nb mb eb) =
          roundFin f mode (na != nb) (ma * 2 ^ k / mb) (ea - eb - k) (ma * 2 ^ k % mb != 0) := by
        simp only [divVal, signOf, if_neg hmb, if_neg hma, k]
      have hlog : ma * 2 ^ k / mb ≠ 0 ∧ f.p + 3 ≤ Nat.log2 (ma * 2 ^ k / mb) := le_log2_of_two_pow_le ((two_pow_le_div hmb (f.p + 3)).trans
        (Nat.div_le_div_right (Nat.le_mul_of_pos_left (2 ^ (f.p + 3 + 1 + Nat.log2 mb)) (Nat.pos_of_ne_zero hma))))
      have habs : |((exactOf (.fin na ma ea) / exactOf (.fin nb mb eb) : ℚ) : ℝ)| = ((ma * 2 ^ k : ℕ) / mb : ℝ) * 2 ^ (ea - eb - k) := by
        have hmb' : (mb : ℝ) ≠ 0 := by exact_mod_cast hmb
        rw [Rat.cast_div, abs_div, abs_exactOf, abs_exactOf, zpow_sub₀ two_ne_zero, zpow_sub₀ two_ne_zero, zpow_natCast]
        push_cast
        field_simp
      have hsign : (na != nb) = true ↔ ((exactOf (.fin na ma ea) / exactOf (.fin nb mb eb) : ℚ) : ℝ) < 0 := by
        rw [Rat.cast_lt_zero, div_neg_iff, ← exactOf_neg_iff hma, ← exactOf_neg_iff hmb, ← exactOf_pos_iff hma, ← exactOf_pos_iff hmb]
        cases na <;> cases nb <;> decide
      rw [heq]
      exact roundFin_spec hf hlog.1 (habs ▸ leadsWith_div _ _ hmb) hsign fun _ => by have := hlog.2; omega
    · simp only [divVal, signOf, if_neg hmb, if_pos hma, signedZero]

theorem divVal_zero (ha : isFin a = true) (hb : isFin b = true) (hz : isZero b = true) :
    divVal f mode a b = if isZero a then canonical f true else { signedInf f (signOf a != signOf b) with flags := 2 } := by
  match a, b, ha, hb with
  | .fin na ma ea, .fin nb mb eb, _, _ =>
    have hmb : mb = 0 := by simpa [isZero] using hz
    simp only [divVal, signOf, isZero, if_pos hmb, beq_iff_eq]
    rfl

/-- An infinite operand of a sum, a product and a quotient. -/
theorem arithmetic_inf (hn : (isNan a || isNan b) = false) :
    (isInf a = true → isInf b = true →
      addVal f mode a b = (if signOf a != signOf b then canonical f true else signedInf f (signOf a)) ∧
      mulVal f mode a b = signedInf f (signOf a != signOf b) ∧ divVal f mode a b = canonical f true) ∧
    (isInf a = true → isInf b = false →
      addVal f mode a b = signedInf f (signOf a) ∧ divVal f mode a b = signedInf f (signOf a != signOf b)) ∧
    (isInf a = false → isInf b = true →
      addVal f mode a b = signedInf f (signOf b) ∧ divVal f mode a b = signedZero f (signOf a != signOf b)) ∧
    (isInf a ≠ isInf b → mulVal f mode a b =
      if (isInf a && isZero b) || (isZero a && isInf b) then canonical f true else signedInf f (signOf a != signOf b)) := by
  match a, b, hn with
  | .inf na, .inf nb, _ =>
    refine ⟨fun _ _ => ⟨?_, rfl, rfl⟩, nofun, nofun, fun h => absurd rfl h⟩
    cases na <;> cases nb <;> rfl
  | .inf na, .fin nb mb eb, _ =>
    refine ⟨nofun, fun _ _ => ⟨rfl, rfl⟩, nofun, fun _ => ?_⟩
    rcases eq_or_ne mb 0 with rfl | hm
    · rfl
    · rw [mulVal_eq rfl rfl]
      simp [mulExact, hm, isInf, isZero, roundVal, signedInf, signOf]
  | .fin na ma ea, .inf nb, _ =>
    refine ⟨nofun, nofun, fun _ _ => ⟨rfl, rfl⟩, fun _ => ?_⟩
    rcases eq_or_ne ma 0 with rfl | hm
    · rfl
    · rw [mulVal_eq rfl rfl]
      simp [mulExact, hm, isInf, isZero, roundVal, signedInf, signOf]
  | .fin .., .fin .., _ => exact ⟨nofun, nofun, nofun, fun h => absurd rfl h⟩

/-! ## The fused product -/

/-- An exact product is invalid where it is of 0 and an infinity. -/
theorem isNan_mulExact (ha : isNan a = false) (hb : isNan b = false) :
    isNan (mulExact a b) = ((isInf a && isZero b) || (isZero a && isInf b)) := by
  match a, b, ha, hb with
  | .inf _, .inf _, _, _ => rfl
  | .inf _, .fin _ m _, _, _ | .fin _ m _, .inf _, _, _ => by_cases hm : m = 0 <;> simp [mulExact, hm, isInf, isZero, isNan]
  | .fin .., .fin .., _, _ => simp [mulExact, isInf, isNan]

/-- An exact product with an infinite factor, where it is valid. -/
theorem mulExact_inf (hn : (isNan a || isNan b) = false) (hbad : ((isInf a && isZero b) || (isZero a && isInf b)) = false)
    (hi : (isInf a || isInf b) = true) : mulExact a b = .inf (signOf a != signOf b) := by
  match a, b, hn, hi with
  | .inf _, .inf _, _, _ => rfl
  | .inf _, .fin _ m _, _, _ | .fin _ m _, .inf _, _, _ =>
    have hm : m ≠ 0 := by simpa [isInf, isZero] using hbad
    simp [mulExact, hm, signOf]

theorem isNan_of_bad (h : ((isInf a && isZero b) || (isZero a && isInf b)) = true) : isNan a = false ∧ isNan b = false := by
  match a, b, h with
  | .inf _, .fin .., _ | .fin .., .inf _, _ => exact ⟨rfl, rfl⟩
  | .fin .., .fin .., h | .fin .., .nan _, h => simp [isInf] at h

theorem fmaVal_bad (h : ((isInf a && isZero b) || (isZero a && isInf b)) = true) : fmaVal f mode a b c = canonical f true := by
  obtain ⟨ha, hb⟩ := isNan_of_bad h
  simp [fmaVal, isNan_mulExact ha hb, h, ha, hb, canonical, fpNan, flInvalid]

theorem fmaVal_nan (h : (isNan a || isNan b || isNan c) = true) (hbad : ((isInf a && isZero b) || (isZero a && isInf b)) = false) :
    fmaVal f mode a b c = canonical f (isSnan a || isSnan b || isSnan c) := by
  have hp : (isNan (mulExact a b) && !isNan a && !isNan b) = false := by
    cases ha : isNan a <;> cases hb : isNan b <;> simp [isNan_mulExact, ha, hb, hbad]
  rw [fmaVal, hp, if_neg Bool.false_ne_true, if_pos h, nanOf_triple]

theorem fmaVal_eq (h : (isNan a || isNan b || isNan c) = false) (hbad : ((isInf a && isZero b) || (isZero a && isInf b)) = false) :
    fmaVal f mode a b c = addVal f mode (mulExact a b) c := by
  obtain ⟨⟨ha, hb⟩, hc⟩ : (isNan a = false ∧ isNan b = false) ∧ isNan c = false := by simpa using h
  simp [fmaVal, isNan_mulExact ha hb, hbad, ha, hb, hc]

theorem not_nan_of_isFin (ha : isFin a = true) (hb : isFin b = true) :
    isNan a = false ∧ isNan b = false ∧ (isNan a || isNan b) = false ∧ ((isInf a && isZero b) || (isZero a && isInf b)) = false := by
  match a, b, ha, hb with
  | .fin .., .fin .., _, _ => simp [isNan, isInf]

theorem fmaVal_fin (hf : f ∈ formats) (ha : isFin a = true) (hb : isFin b = true) (hc : isFin c = true) :
    (exactOf a * exactOf b + exactOf c ≠ 0 → RoundsTo f mode (exactOf a * exactOf b + exactOf c : ℚ) (fmaVal f mode a b c)) ∧
    (exactOf a * exactOf b + exactOf c = 0 → fmaVal f mode a b c =
      signedZero f (if ((isZero a || isZero b) && isZero c) && (signOf a != signOf b) == signOf c then signOf a != signOf b else mode == .rdn)) := by
  obtain ⟨-, -, hn, hbad⟩ := not_nan_of_isFin ha hb
  obtain ⟨hfin, hsign, hzero⟩ := isFin_mulExact ha hb
  rw [fmaVal_eq (by rw [hn, isNan_of_isFin hc]; rfl) hbad, ← exactOf_mulExact ha hb, ← hsign, ← hzero]
  exact addVal_fin hf hfin hc

theorem fmaVal_fin_inf (ha : isFin a = true) (hb : isFin b = true) (hc : isInf c = true) : fmaVal f mode a b c = signedInf f (signOf c) := by
  match c, hc with
  | .inf nc, _ =>
    obtain ⟨-, -, hn, hbad⟩ := not_nan_of_isFin ha hb
    rw [fmaVal_eq (by rw [hn]; rfl) hbad]
    match mulExact a b, (isFin_mulExact ha hb).1 with
    | .fin .., _ => rfl

theorem fmaVal_inf (hn : (isNan a || isNan b || isNan c) = false) (hbad : ((isInf a && isZero b) || (isZero a && isInf b)) = false)
    (hi : (isInf a || isInf b) = true) :
    fmaVal f mode a b c = if isInf c && signOf c != (signOf a != signOf b) then canonical f true else signedInf f (signOf a != signOf b) := by
  obtain ⟨hab, hc⟩ := Bool.or_eq_false_iff.mp hn
  rw [fmaVal_eq hn hbad, mulExact_inf hab hbad hi]
  generalize (signOf a != signOf b) = s
  match c, hc with
  | .inf nc, _ => cases s <;> cases nc <;> rfl
  | .fin .., _ => rfl

theorem arithmeticRoundsExactValues : Claim.ArithmeticRoundsExactValues := by
  intro f mode a b c hf nan snan sign bad zero
  refine ⟨fun h => ⟨addVal_nan h, mulVal_nan h, divVal_nan h⟩, arithmetic_inf, fun ha hb => ?_, fmaVal_bad, fun hbad hn => fmaVal_nan hn hbad,
    fun hbad hn hi => fmaVal_inf hn hbad hi, fmaVal_fin_inf, fmaVal_fin hf⟩
  exact ⟨addVal_fin hf ha hb, mulVal_fin hf ha hb, divVal_fin hf ha hb, divVal_zero ha hb⟩

end Sys2Proof.Machine
end

section
/-! PROOFS. Rounding to an integer, scaling by a power of two, and conversions (R49, R56, R60, R61, R190, R195). -/
namespace Sys2Proof.Machine

variable {f : Fmt} {B fb N i k : Nat} {mode : RMode} {neg : Bool} {x : ℝ} {y : ℝ} {e E : Int} {r : FpRes} {v : FpVal}

/-! ## Numbers that a format holds -/

theorem fpDecode_bounds (h : Format f B fb) {z : Nat} (hv : fpDecode f z = .fin neg k e) :
    k < 2 ^ f.p ∧ fmtEmin f - fb ≤ e ∧ e ≤ fmtEmax f - fb := by
  have hfrac := Nat.mod_lt z (Nat.two_pow_pos fb)
  have hex := Nat.mod_lt (z / 2 ^ fb) (show 0 < 2 * (B + 1) by omega)
  have hwide : 2 ^ f.p = 2 ^ fb + 2 ^ fb := by rw [h.p, pow_succ, Nat.mul_two]
  have hB := h.narrow
  simp only [fpDecode, h.fbits, h.ebits, h.bias, h.emin] at hv
  rw [hwide, h.emin, h.emax]
  split at hv
  · split at hv <;> cases hv
  · split at hv <;> cases hv <;> omega

/-- A number with few enough bits is held exactly. -/
theorem RoundsTo.exact (h : Format f B fb) (hr : RoundsTo f mode x r) (hx : |x| = N * 2 ^ E) (hN : N < 2 ^ f.p)
    (hlo : fmtEmin f - fb ≤ E) (hhi : E ≤ fmtEmax f - fb) (hneg : neg = true ↔ x < 0) : IsFinite f r.bits neg |x| := by
  obtain ⟨neg', top, n, u, hneg', hlow, hhigh, hu, hn, -, hfit⟩ := hr
  obtain rfl : neg' = neg := Bool.eq_iff_iff.mpr (hneg'.trans hneg.symm)
  have hN' : (N : ℝ) + 1 ≤ 2 ^ f.p := by exact_mod_cast hN
  have hpow : (2 : ℝ) ^ f.p * 2 ^ E = 2 ^ ((f.p : Int) + E) := by rw [← zpow_natCast, ← zpow_add₀ two_ne_zero]
  have htop : top < f.p + E := by
    refine (zpow_lt_zpow_iff_right₀ (one_lt_two : (1 : ℝ) < 2)).mp (hlow.trans_lt ?_)
    rw [hx, ← hpow]
    gcongr
    linarith
  have hnat (q : Int) (hq : q ≤ E) : |x| / 2 ^ q = ((N * 2 ^ (E - q).toNat : ℕ) : ℝ) := by
    rw [hx, mul_div_assoc, ← zpow_sub₀ two_ne_zero, Nat.cast_mul, Nat.cast_pow, Nat.cast_two, ← zpow_natCast, Int.toNat_of_nonneg (by omega)]
  have hexact {w : Nat} {q : Int} (hq : q ≤ E) (hw : RoundsMag mode neg' (|x| / 2 ^ q) w) : (w : ℝ) * 2 ^ q = |x| := by
    rw [hnat q hq] at hw
    rw [hw.eq_of_natCast, ← hnat q hq, div_mul_cancel₀ _ (zpow_ne_zero _ two_ne_zero)]
  have hp : (f.p : Int) = fb + 1 := by rw [h.p]; rfl
  have hu := hexact (by omega) hu
  have hn := hexact (by omega) hn
  have hmax : |x| ≤ ((maxFinite f : ℚ) : ℝ) := by
    rw [hx, maxFinite]
    push_cast
    have : (2 : ℝ) ^ E ≤ 2 ^ (fmtEmax f - ((f.p : Int) - 1)) := zpow_le_zpow_right₀ one_le_two (by omega)
    have hN0 : (0 : ℝ) ≤ N := Nat.cast_nonneg N
    exact mul_le_mul (by linarith) this (by positivity) (by linarith)
  obtain ⟨hfin, -⟩ := hfit (hu.trans_le hmax)
  rwa [hn] at hfin

/-! ## Rounding to an integer -/

theorem rintMag_spec (mode : RMode) (neg : Bool) (k : Nat) (e : Int) :
    RoundsMag mode neg ((k : ℝ) * 2 ^ e) (rintMag mode neg k e false).1 ∧
    RoundFlags (((rintMag mode neg k e false).1 : ℝ) ≠ (k : ℝ) * 2 ^ e) False (if (rintMag mode neg k e false).2 then flInexact else 0) := by
  obtain ⟨hmag, hin⟩ := roundTo_spec (mode := mode) (neg := neg) (leadsWith_exact k e) (q := 0) nofun
  rw [zpow_zero, div_one] at hmag
  rw [zpow_zero, mul_one] at hin
  refine ⟨hmag, fun _ h => h.elim, fun h _ => if_pos (hin.mpr h), fun h => if_neg (mt hin.mp h)⟩

/-- The integer that a number of a format rounds to is held by it. -/
theorem rounded_held (h : Format f B fb) (hk : k < 2 ^ f.p) (hhi : e ≤ fmtEmax f - fb) (hi : RoundsMag mode neg ((k : ℝ) * 2 ^ e) i) :
    ∃ (N : Nat) (E : Int), (i : ℝ) = N * 2 ^ E ∧ N < 2 ^ f.p ∧ 0 ≤ E ∧ E ≤ fmtEmax f - fb := by
  rcases le_or_gt 0 e with he | he
  · lift e to ℕ using he
    refine ⟨k, e, ?_, hk, by omega, hhi⟩
    have heq : (k : ℝ) * 2 ^ (e : ℤ) = ((k * 2 ^ e : ℕ) : ℝ) := by push_cast; rw [zpow_natCast]
    rw [heq] at hi ⊢
    rw [hi.eq_of_natCast]
  · have hle : i ≤ 2 ^ f.p := by
      refine hi.le_of_le ?_
      calc (k : ℝ) * 2 ^ e ≤ k * 1 := by
            gcongr
            exact zpow_le_one_of_nonpos₀ one_le_two he.le
        _ ≤ _ := by rw [mul_one]; exact_mod_cast hk.le
    have hB := h.narrow
    have hemax := h.emax
    rcases hle.lt_or_eq with hlt | rfl
    · exact ⟨i, 0, by simp, hlt, le_rfl, by omega⟩
    · refine ⟨2 ^ fb, 1, ?_, by rw [h.p]; exact Nat.pow_lt_pow_right one_lt_two (by omega), zero_le_one, by omega⟩
      rw [h.p]
      push_cast
      rw [zpow_one, pow_succ]

theorem signed_neg_iff (hi : i ≠ 0) : neg = true ↔ (if neg then -(i : ℝ) else i) < 0 := by
  cases neg
  · exact iff_of_false (by decide) (by simp)
  · exact iff_of_true rfl (by simp [Nat.pos_of_ne_zero hi])

theorem abs_signed (neg : Bool) (i : Nat) : |if neg then -(i : ℝ) else i| = i := by cases neg <;> simp

theorem isFinite_signedZero (h : Format f B fb) (neg : Bool) : IsFinite f (withSign f neg 0) neg 0 :=
  ⟨withSign_lt h (Nat.zero_le _) neg, _, _, fpDecode_zero h neg, by simp⟩

theorem rintVal_fin (hf : f ∈ formats) {z : Nat} (hv : fpDecode f z = .fin neg k e) :
    ∃ i, RoundsMag mode neg ((k : ℝ) * 2 ^ e) i ∧ IsFinite f (rintVal f mode z).bits neg i ∧
      RoundFlags ((i : ℝ) ≠ (k : ℝ) * 2 ^ e) False (rintVal f mode z).flags := by
  obtain ⟨B, fb, h⟩ := format_of_mem hf
  obtain ⟨hk, -, hhi⟩ := fpDecode_bounds h hv
  obtain ⟨hmag, hflags⟩ := rintMag_spec mode neg k e
  refine ⟨_, hmag, ?_⟩
  simp only [rintVal, hv]
  split
  · next h0 =>
    refine ⟨?_, hflags⟩
    rw [h0, Nat.cast_zero]
    exact isFinite_signedZero h neg
  · next h0 =>
    refine ⟨?_, hflags⟩
    generalize (rintMag mode neg k e false).1 = i at hmag h0
    obtain ⟨N, E, hi, hN, hE, hE'⟩ := rounded_held h hk hhi hmag
    have hsign := signed_neg_iff (neg := neg) h0
    have habs := abs_signed neg i
    have hr : RoundsTo f mode (if neg then -(i : ℝ) else i) (roundFin f mode neg i 0 false) :=
      roundFin_exact hf h0 (by rw [habs, zpow_zero, mul_one]) hsign
    have hB := h.narrow
    have hfin := hr.exact h (habs.trans hi) hN (by rw [h.emin]; omega) hE' hsign
    rwa [habs] at hfin

theorem scaleVal_fin (hf : f ∈ formats) {z : Nat} (hv : fpDecode f z = .fin neg k e) (n : Int) :
    (k = 0 → scaleVal f mode z n = signedZero f neg) ∧
    (k ≠ 0 → RoundsTo f mode (exactOf (.fin neg k e) * 2 ^ n : ℚ) (scaleVal f mode z n)) := by
  have heq : scaleVal f mode z n = roundVal f mode (.fin neg k (e + n)) := by simp only [scaleVal, hv]
  have hx : exactOf (.fin neg k e) * 2 ^ n = exactOf (.fin neg k (e + n)) := by
    simp only [exactOf]
    rw [mul_assoc, ← zpow_add₀ two_ne_zero]
  rw [heq, hx]
  exact ⟨fun h0 => if_pos h0, roundVal_fin hf⟩

/-! ## Conversions -/

theorem policyFp_eq (f : Fmt) (pol : Policy) (neg fromInf : Bool) : policyFp f pol neg fromInf = outOfFp f pol neg !fromInf := by
  cases pol <;> cases fromInf <;> rfl

theorem policyInt_eq (w : Nat) (lo hi : Int) (pol : Policy) (neg : Bool) : policyInt w lo hi pol neg = outOfInt w lo hi pol neg := by
  simp only [policyInt, outOfInt, Int.add_emod_right, Int.emod_emod]
  cases pol <;> rfl

theorem downFp_eq (ts tt : ETy) : downFp ts tt =
    [(ETy.fp32, ETy.bf16), (.fp32, .fp16), (.bf16, .fp16), (.i32, .fp16), (.n32, .fp16), (.n16, .fp16)].contains (ts, tt) := by
  cases ts <;> cases tt <;> decide

theorem fmtOf_mem (t : ETy) : fmtOf t ∈ formats := by cases t <;> decide

theorem testBit_two (n : Nat) : (n / flOverflow % 2 == 1) = n.testBit 2 := by
  rw [Nat.testBit_eq_decide_div_mod_eq, beq_eq_decide]
  rfl

section Convert
variable {ts tt : ETy} {pol : Policy} {z : Nat} {sig : Bool}

theorem convert_fp_nan (htt : etyIsFp tt = true) (hv : laneVal ts z = .nan sig) :
    convert ts tt mode pol z = if downFp ts tt && pol == .trap then .trap else .ok (canonical (fmtOf tt) sig) := by
  simp only [convert, htt, if_true, hv]
  rfl

theorem convert_fp_inf (htt : etyIsFp tt = true) (hv : laneVal ts z = .inf neg) :
    convert ts tt mode pol z = if downFp ts tt then outOfFp (fmtOf tt) pol neg false else .ok (signedInf (fmtOf tt) neg) := by
  simp only [convert, htt, if_true, hv, policyFp_eq]
  rfl

theorem convert_fp_zero (htt : etyIsFp tt = true) (hv : laneVal ts z = .fin neg 0 e) :
    convert ts tt mode pol z = .ok (signedZero (fmtOf tt) neg) := by
  simp only [convert, htt, if_true, hv]
  rfl

theorem convert_fp_fin (htt : etyIsFp tt = true) (hv : laneVal ts z = .fin neg k e) (hk : k ≠ 0) :
    ∃ r, RoundsTo (fmtOf tt) mode (exactOf (.fin neg k e)) r ∧
      convert ts tt mode pol z = if downFp ts tt && r.flags.testBit 2 then outOfFp (fmtOf tt) pol neg true else .ok r := by
  have hr := roundVal_fin (mode := mode) (neg := neg) (e := e) (fmtOf_mem tt) hk
  rw [roundVal, if_neg hk] at hr
  refine ⟨_, hr, ?_⟩
  simp only [convert, htt, if_true, hv, if_neg hk, policyFp_eq, testBit_two, Bool.not_false]

theorem convert_int_nan (htt : etyIsFp tt = false) (hv : laneVal ts z = .nan sig) :
    convert ts tt mode pol z = if pol = .trap then .trap else .ok { bits := 0, flags := 1 } := by
  simp only [convert, htt, Bool.false_eq_true, if_false, hv]
  rfl

theorem convert_int_inf (htt : etyIsFp tt = false) (hv : laneVal ts z = .inf neg) :
    convert ts tt mode pol z = outOfInt (etyBits tt) (etyRange tt).1 (etyRange tt).2 pol neg := by
  simp only [convert, htt, Bool.false_eq_true, if_false, hv, policyInt_eq]

theorem convert_int_fin (htt : etyIsFp tt = false) (hv : laneVal ts z = .fin neg k e) :
    ∃ i, RoundsMag mode neg ((k : ℝ) * 2 ^ e) i ∧
      (let y : Int := if neg then -(i : Int) else i
       (y < (etyRange tt).1 ∨ (etyRange tt).2 < y →
         convert ts tt mode pol z = outOfInt (etyBits tt) (etyRange tt).1 (etyRange tt).2 pol neg) ∧
       ((etyRange tt).1 ≤ y → y ≤ (etyRange tt).2 → ∃ r, convert ts tt mode pol z = .ok r ∧ r.bits = (y % (2 ^ etyBits tt : Nat)).toNat ∧
         RoundFlags ((i : ℝ) ≠ (k : ℝ) * 2 ^ e) False r.flags)) := by
  obtain ⟨hmag, hflags⟩ := rintMag_spec mode neg k e
  refine ⟨_, hmag, fun hout => ?_, fun hlo hhi => ?_⟩
  · simp only [convert, htt, Bool.false_eq_true, if_false, hv, if_pos hout, policyInt_eq]
  · have hin := not_or.mpr ⟨not_lt.mpr hlo, not_lt.mpr hhi⟩
    refine ⟨{ bits := toTwos (etyBits tt) _, flags := if (rintMag mode neg k e false).2 then flInexact else 0 }, ?_, rfl, hflags⟩
    simp only [convert, htt, Bool.false_eq_true, if_false, hv, if_neg hin]

end Convert

theorem integralScaledAndConverted : Claim.IntegralScaledAndConverted := by
  refine ⟨fun f mode z n hf => ?_, fun ts tt mode pol z => ?_⟩
  · split
    · next h =>
      simp only [rintVal, scaleVal, h]
      exact ⟨rfl, rfl⟩
    · next h =>
      simp only [rintVal, scaleVal, h]
      exact ⟨rfl, rfl⟩
    · next h => exact ⟨rintVal_fin hf h, scaleVal_fin hf h n⟩
  · intro v f w
    rw [← downFp_eq]
    have h : laneVal ts z = v := rfl
    clear_value v
    refine ⟨fun htt => ?_, fun htt => ?_⟩
    · cases v with
      | nan sig => exact convert_fp_nan htt h
      | inf neg => exact convert_fp_inf htt h
      | fin neg k e =>
        refine ⟨?_, convert_fp_fin htt h⟩
        rintro rfl
        exact convert_fp_zero htt h
    · cases v with
      | nan sig => exact convert_int_nan htt h
      | inf neg => exact convert_int_inf htt h
      | fin neg k e => exact convert_int_fin htt h

end Sys2Proof.Machine
end

section
/-! PROOFS. Function words: the table of R209, and reciprocals and roots rounded exactly (R73, R74, R209, R210). -/
namespace Sys2Proof.Machine

variable {f : Fmt} {B fb k m z : Nat} {mode : RMode} {apx neg : Bool} {e j : Int} {id : FnId} {c : FnConst}

/-! ## Square roots of integers -/

theorem isqrtAux_eq (x n r : Nat) (hlo : r * r ≤ x) (hhi : x < (r + 2 ^ n) * (r + 2 ^ n)) : isqrtAux x n r = Nat.sqrt x := by
  induction n generalizing r with
  | zero => exact Nat.eq_sqrt.mpr ⟨hlo, hhi⟩
  | succ n ih =>
    simp only [isqrtAux]
    split
    · next h => exact ih _ h (by rwa [add_assoc, ← two_mul, ← pow_succ'])
    · next h => exact ih _ hlo (not_le.mp h)

theorem isqrt_eq (x : Nat) : isqrt x = Nat.sqrt x := by
  refine isqrtAux_eq x _ 0 (Nat.zero_le _) ?_
  rw [zero_add, ← pow_add]
  exact Nat.lt_log2_self.trans_le (Nat.pow_le_pow_right two_pos (by omega))

/-- The root of a quotient leads with the integer root of its integer part. -/
theorem leadsWith_sqrt (a : Nat) (e : Int) {b : Nat} (hb : b ≠ 0) :
    LeadsWith (√(a / b) * 2 ^ e : ℝ) (Nat.sqrt (a / b)) e (Nat.sqrt (a / b) * Nat.sqrt (a / b) * b != a) := by
  have hb' : (0 : ℝ) < b := by exact_mod_cast Nat.pos_of_ne_zero hb
  generalize hr : Nat.sqrt (a / b) = r
  obtain ⟨hlo, hhi⟩ := Nat.eq_sqrt.mp hr.symm
  have hlo' : ((r * r : ℕ) : ℝ) ≤ a / b := by
    rw [le_div_iff₀ hb']
    exact_mod_cast (Nat.le_div_iff_mul_le (Nat.pos_of_ne_zero hb)).mp hlo
  have hhi' : (a / b : ℝ) < ((r + 1) * (r + 1) : ℕ) := by
    rw [div_lt_iff₀ hb']
    exact_mod_cast (Nat.div_lt_iff_lt_mul (Nat.pos_of_ne_zero hb)).mp hhi
  push_cast at hlo' hhi'
  have hr0 : (0 : ℝ) ≤ r := Nat.cast_nonneg r
  have hle : (r : ℝ) ≤ √(a / b) := Real.le_sqrt_of_sq_le (by rw [sq]; exact hlo')
  refine ⟨√(a / b) - r, sub_nonneg.mpr hle, ?_, ?_, by rw [add_sub_cancel]⟩
  · rw [sub_lt_iff_lt_add, Real.sqrt_lt' (by linarith), sq, add_comm]
    exact hhi'
  · rw [bne_iff_ne, sub_pos, Real.lt_sqrt hr0, sq, lt_div_iff₀ hb']
    have hle' : r * r * b ≤ a := (Nat.le_div_iff_mul_le (Nat.pos_of_ne_zero hb)).mp hlo
    rw [← hle'.lt_iff_ne]
    exact_mod_cast Iff.rfl

theorem sqrt_mul_zpow (x : ℝ) (j : Int) : √(x * 2 ^ (2 * j)) = √x * 2 ^ j := by
  have h2 : (0 : ℝ) < 2 ^ j := by positivity
  rw [two_mul, zpow_add₀ two_ne_zero, Real.sqrt_mul' _ (by positivity), Real.sqrt_mul_self h2.le]

/-! ## Reciprocals and roots -/

theorem rcpRound_spec (hf : f ∈ formats) (hm : m ≠ 0) :
    if apx then RoundsApx f (1 / (exactOf (.fin neg m e) : ℝ)) (rcpRound f mode apx neg m e)
    else RoundsTo f mode (1 / (exactOf (.fin neg m e) : ℝ)) (rcpRound f mode apx neg m e) := by
  have hm' : (m : ℝ) ≠ 0 := by exact_mod_cast hm
  let k := f.p + 8 + Nat.log2 m
  have hlog : 2 ^ k / m ≠ 0 ∧ f.p + 7 ≤ Nat.log2 (2 ^ k / m) := le_log2_of_two_pow_le (two_pow_le_div hm (f.p + 7))
  have habs : |1 / ((exactOf (.fin neg m e) : ℚ) : ℝ)| = ((2 ^ k : ℕ) / m : ℝ) * 2 ^ (-e - k) := by
    rw [abs_div, abs_exactOf, abs_one, zpow_sub₀ two_ne_zero, zpow_natCast, zpow_neg]
    push_cast
    field_simp
  refine fnRound_spec hf apx hlog.1 (habs ▸ leadsWith_div _ _ hm) ?_ fun _ => (Nat.le_add_right _ 7).trans hlog.2
  rw [one_div, inv_lt_zero, Rat.cast_lt_zero]
  exact exactOf_neg_iff hm

/-- A power of two whose exponent has the parity of k, taken apart for its root. -/
theorem sqrt_scaled (x : ℝ) (hk : ((k : Int) - j) % 2 = 0) : √(x * 2 ^ j) = √(x * (2 ^ k : ℕ)) * 2 ^ ((j - k) / 2) := by
  rw [← sqrt_mul_zpow, Nat.cast_pow, Nat.cast_two, ← zpow_natCast, mul_assoc, ← zpow_add₀ two_ne_zero]
  congr 3
  omega

theorem sqrtRound_spec (hf : f ∈ formats) (hm : m ≠ 0) :
    if apx then RoundsApx f √(m * 2 ^ e) (sqrtRound f mode apx m e) else RoundsTo f mode √(m * 2 ^ e) (sqrtRound f mode apx m e) := by
  let k := 2 * f.p + 8 + (if e % 2 = 0 then 0 else 1)
  have hk : ((k : Int) - e) % 2 = 0 := by
    simp only [k]
    split <;> omega
  have hval : √((m : ℝ) * 2 ^ e) = √((m * 2 ^ k : ℕ) / (1 : ℕ)) * 2 ^ ((e - k) / 2) := by
    rw [sqrt_scaled _ hk]
    push_cast
    rw [div_one]
  have hlead := leadsWith_sqrt (m * 2 ^ k) ((e - k) / 2) one_ne_zero
  rw [← hval, Nat.div_one, Nat.mul_one, ← abs_of_nonneg (Real.sqrt_nonneg _), ← isqrt_eq] at hlead
  have hlog : isqrt (m * 2 ^ k) ≠ 0 ∧ f.p ≤ Nat.log2 (isqrt (m * 2 ^ k)) := by
    apply le_log2_of_two_pow_le
    rw [isqrt_eq, Nat.le_sqrt, ← pow_add]
    calc 2 ^ (f.p + f.p) ≤ 2 ^ k := Nat.pow_le_pow_right two_pos (by simp only [k]; omega)
      _ ≤ m * 2 ^ k := Nat.le_mul_of_pos_left _ (Nat.pos_of_ne_zero hm)
  exact fnRound_spec hf apx hlog.1 hlead (iff_of_false Bool.false_ne_true (Real.sqrt_nonneg _).not_gt) fun _ => hlog.2

theorem rsqrtRound_spec (hf : f ∈ formats) (hm : m ≠ 0) :
    if apx then RoundsApx f (1 / √(m * 2 ^ e)) (rsqrtRound f mode apx m e) else RoundsTo f mode (1 / √(m * 2 ^ e)) (rsqrtRound f mode apx m e) := by
  have hm' : (m : ℝ) ≠ 0 := by exact_mod_cast hm
  let k := 4 * f.p + 8 + 2 * (Nat.log2 m) + (if e % 2 = 0 then 0 else 1)
  have hk : ((k : Int) - -e) % 2 = 0 := by
    simp only [k]
    split <;> omega
  have hval : 1 / √((m : ℝ) * 2 ^ e) = √((2 ^ k : ℕ) / m) * 2 ^ ((-e - k) / 2) := by
    rw [← Real.sqrt_one, ← Real.sqrt_div zero_le_one, one_div, mul_inv, ← zpow_neg, sqrt_scaled _ hk, inv_mul_eq_div]
  have hlead := leadsWith_sqrt (2 ^ k) ((-e - k) / 2) hm
  have hnonneg : (0 : ℝ) ≤ 1 / √(m * 2 ^ e) := by positivity
  rw [← hval, ← abs_of_nonneg hnonneg, ← isqrt_eq] at hlead
  have hlog : isqrt (2 ^ k / m) ≠ 0 ∧ f.p ≤ Nat.log2 (isqrt (2 ^ k / m)) := by
    apply le_log2_of_two_pow_le
    rw [isqrt_eq, Nat.le_sqrt, ← pow_add]
    exact (two_pow_le_div hm (f.p + f.p)).trans (Nat.div_le_div_right (Nat.pow_le_pow_right two_pos (by simp only [k]; omega)))
  exact fnRound_spec hf apx hlog.1 hlead (iff_of_false Bool.false_ne_true hnonneg.not_gt) fun _ => hlog.2

/-! ## The table of results -/

theorem endIs_fnConst (h : Format f B fb) (c : FnConst) : EndIs f (fnConst f c) c := by
  have hfb := h.wide
  have hB := h.narrow
  have hpos := Nat.two_pow_pos fb
  have hbits (F : Nat) (hF : F ≤ B) : F * 2 ^ fb ≤ fmtInf f := by
    rw [h.inf]
    exact Nat.mul_le_mul_right _ (by omega)
  have hdec (F : Nat) (neg : Bool) (hF : F ≤ B) := fpDecode_finite (neg := neg) h (show F ≤ 2 * B by omega) hpos
  have hfin (F : Nat) (neg : Bool) (h0 : F ≠ 0) (hF : F ≤ B) : IsFinite f (withSign f neg (F * 2 ^ fb)) neg (2 ^ (F - B : Int)) := by
    refine ⟨withSign_lt h (hbits F hF) neg, _, _, hdec F neg hF, ?_⟩
    rw [if_neg h0, add_zero, Nat.cast_pow, Nat.cast_two, ← zpow_natCast, ← zpow_add₀ two_ne_zero, Nat.max_eq_left (by omega)]
    congr 1
    ring
  cases c with
  | zero | inf | pole | invalid => rfl
  | one neg =>
    have hB : (fmtBias f * 2 ^ fmtFbits f).toNat = B * 2 ^ fb := by
      rw [h.bias, h.fbits]
      exact_mod_cast Int.toNat_natCast _
    refine ⟨?_, rfl⟩
    have := hfin B neg (by omega) le_rfl
    rwa [sub_self, zpow_zero, ← hB] at this
  | half =>
    have hB : ((fmtBias f - 1) * 2 ^ fmtFbits f).toNat = (B - 1) * 2 ^ fb := by
      rw [h.bias, h.fbits, show (B : Int) - 1 = (B - 1 : ℕ) by omega]
      exact_mod_cast Int.toNat_natCast _
    refine ⟨?_, rfl⟩
    have := hfin (B - 1) false (by omega) (by omega)
    rwa [show ((B - 1 : ℕ) : Int) - B = -1 by omega, zpow_neg_one, ← one_div, ← hB] at this

theorem functionTable_eq : ∀ t ∈ functionTable,
    t.2.1 = fnInf t.1 true ∧ t.2.2.1 = fnInf t.1 false ∧ t.2.2.2.1 = fnZero t.1 true ∧ t.2.2.2.2 = fnZero t.1 false := by decide

/-! ## One lane -/

theorem fnLane_nan {sig : Bool} (hv : fpDecode f z = .nan sig) : fnLane id f mode apx z = canonical f sig := by
  simp only [fnLane, hv, fnFixed]
  rfl

theorem fnLane_inf (hv : fpDecode f z = .inf neg) : fnLane id f mode apx z = fnConst f (fnInf id neg) := by
  simp only [fnLane, hv, fnFixed]

theorem fnLane_zero (hv : fpDecode f z = .fin neg 0 e) : fnLane id f mode apx z = fnConst f (fnZero id neg) := by
  simp only [fnLane, hv, fnFixed, if_true]

theorem fnLane_point (hv : fpDecode f z = .fin neg m e) (hm : m ≠ 0) (hc : fnPoint id neg m e = some c) :
    fnLane id f mode apx z = fnConst f c := by
  simp only [fnLane, hv, fnFixed, if_neg hm, hc, Option.map_some]

theorem fnLane_finite (hv : fpDecode f z = .fin neg m e) (hm : m ≠ 0) (hc : fnPoint id neg m e = none) :
    fnLane id f mode apx z = fnFinite id f mode apx neg m e := by
  simp only [fnLane, hv, fnFixed, if_neg hm, hc, Option.map_none]

theorem isOne_iff : isOne m e = true ↔ (m : ℚ) * 2 ^ e = 1 := by
  rw [isOne, Bool.and_eq_true, decide_eq_true_eq, beq_iff_eq]
  rcases le_or_gt e 0 with he | he
  · have h2 : (2 : ℚ) ^ e ≠ 0 := zpow_ne_zero _ two_ne_zero
    rw [and_iff_right he, mul_eq_one_iff_eq_inv₀ h2, ← zpow_neg, show -e = ((-e).toNat : Int) by omega, zpow_natCast]
    exact_mod_cast Iff.rfl
  · refine iff_of_false (by omega) fun h => ?_
    lift e to ℕ using he.le
    have h1 : m * 2 ^ e = 1 := by exact_mod_cast h
    have := Nat.one_lt_two_pow (n := e) (by omega)
    have := Nat.dvd_one.mp (Dvd.intro_left m h1)
    omega

/-- −1 compared with a number. -/
theorem ltVal_neg_one (hm : m ≠ 0) (hx : exactOf (.fin true m e) < -1) : ltVal false (.fin true m e) (.fin true 1 0) = true := by
  have h2 : (0 : ℚ) < 2 ^ min e 0 := by positivity
  have hone : exactOf (.fin true 1 0) = -1 := by simp [exactOf]
  rw [← hone, ← finInt_mul true m (min_le_left e 0), ← finInt_mul true 1 (min_le_right e 0), mul_lt_mul_iff_left₀ h2] at hx
  simp only [ltVal, hm, false_and, if_false, decide_eq_true_eq]
  exact_mod_cast hx

theorem fin_of_isFin {v : FpVal} (h : isFin v = true) : ∃ neg m e, v = .fin neg m e := by
  match v, h with
  | .fin neg m e, _ => exact ⟨neg, m, e, rfl⟩

/-- A finite number of a sign, with its magnitude. -/
theorem fin_of_exactOf_neg {v : FpVal} (h : isFin v = true) (hx : exactOf v < 0) :
    ∃ m e, v = .fin true m e ∧ m ≠ 0 ∧ (m : ℚ) * 2 ^ e = -exactOf v := by
  obtain ⟨neg, m, e, rfl⟩ := fin_of_isFin h
  have hm : m ≠ 0 := fun h0 => hx.ne (exactOf_eq_zero.mpr h0)
  obtain rfl := (exactOf_neg_iff hm).mpr hx
  exact ⟨m, e, rfl, hm, by simp [exactOf]⟩

theorem fin_of_exactOf_pos {v : FpVal} (h : isFin v = true) (hx : 0 < exactOf v) :
    ∃ m e, v = .fin false m e ∧ m ≠ 0 ∧ (m : ℚ) * 2 ^ e = exactOf v := by
  obtain ⟨neg, m, e, rfl⟩ := fin_of_isFin h
  have hm : m ≠ 0 := fun h0 => hx.ne' (exactOf_eq_zero.mpr h0)
  obtain rfl := (exactOf_pos_iff hm).mpr hx
  exact ⟨m, e, rfl, hm, by simp [exactOf]⟩

theorem fnLane_outside (hv : isFin (fpDecode f z) = true) (hx : exactOf (fpDecode f z) < 0) (hid : id ∈ [FnId.log, .log2, .sqrt, .rsqrt]) :
    fnLane id f mode apx z = canonical f true := by
  obtain ⟨m, e, hd, hm, -⟩ := fin_of_exactOf_neg hv hx
  simp only [List.mem_cons, List.not_mem_nil, or_false] at hid
  rcases hid with rfl | rfl | rfl | rfl <;> exact fnLane_point (c := .invalid) hd hm rfl

theorem fnLane_log_one (hv : isFin (fpDecode f z) = true) (hx : exactOf (fpDecode f z) = 1) (hid : id = .log ∨ id = .log2) :
    fnLane id f mode apx z = signedZero f false := by
  obtain ⟨m, e, hd, hm, hval⟩ := fin_of_exactOf_pos hv (hx ▸ one_pos)
  have hone := isOne_iff.mpr (hval.trans hx)
  rcases hid with rfl | rfl <;> exact fnLane_point (c := .zero false) hd hm (by simp [fnPoint, hone])

theorem fnLane_log1p_pole (hv : isFin (fpDecode f z) = true) (hx : exactOf (fpDecode f z) = -1) :
    fnLane .log1p f mode apx z = { signedInf f true with flags := 2 } := by
  obtain ⟨m, e, hd, hm, hval⟩ := fin_of_exactOf_neg hv (by rw [hx]; norm_num)
  have hone := isOne_iff.mpr (hval.trans (by rw [hx, neg_neg]))
  exact fnLane_point (c := .pole true) hd hm (by simp [fnPoint, hone])

theorem fnLane_log1p_below (hv : isFin (fpDecode f z) = true) (hx : exactOf (fpDecode f z) < -1) :
    fnLane .log1p f mode apx z = canonical f true := by
  obtain ⟨m, e, hd, hm, hval⟩ := fin_of_exactOf_neg hv (by linarith)
  have hone : isOne m e = false := Bool.eq_false_iff.mpr fun h => by
    have := hval.symm.trans (isOne_iff.mp h)
    linarith
  have hlt := ltVal_neg_one hm (hd ▸ hx)
  exact fnLane_point (c := .invalid) hd hm (by simp [fnPoint, hone, hlt])

theorem fnLane_rcp (hf : f ∈ formats) (hv : isFin (fpDecode f z) = true) (hx : exactOf (fpDecode f z) ≠ 0) :
    if apx then RoundsApx f (1 / (exactOf (fpDecode f z) : ℝ)) (fnLane .rcp f mode apx z)
    else RoundsTo f mode (1 / (exactOf (fpDecode f z) : ℝ)) (fnLane .rcp f mode apx z) := by
  obtain ⟨neg, m, e, hd⟩ := fin_of_isFin hv
  rw [hd] at hx ⊢
  have hm := mt exactOf_eq_zero.mpr hx
  rw [fnLane_finite hd hm rfl]
  exact rcpRound_spec hf hm

theorem fnLane_roots (hf : f ∈ formats) (hv : isFin (fpDecode f z) = true) (hx : 0 < exactOf (fpDecode f z)) :
    (if apx then RoundsApx f √(exactOf (fpDecode f z)) (fnLane .sqrt f mode apx z)
      else RoundsTo f mode √(exactOf (fpDecode f z)) (fnLane .sqrt f mode apx z)) ∧
    (if apx then RoundsApx f (1 / √(exactOf (fpDecode f z))) (fnLane .rsqrt f mode apx z)
      else RoundsTo f mode (1 / √(exactOf (fpDecode f z))) (fnLane .rsqrt f mode apx z)) := by
  obtain ⟨m, e, hd, hm, hval⟩ := fin_of_exactOf_pos hv hx
  have hval' : ((exactOf (fpDecode f z) : ℚ) : ℝ) = m * 2 ^ e := by
    rw [← hval]
    push_cast
    rfl
  rw [hval', fnLane_finite hd hm rfl, fnLane_finite hd hm rfl]
  exact ⟨sqrtRound_spec hf hm, rsqrtRound_spec hf hm⟩

theorem functionLanes : Claim.FunctionLanes := by
  intro f mode apx hf
  obtain ⟨B, fb, h⟩ := format_of_mem hf
  refine ⟨fun id mi pi mz pz hid => ?_, fun z => ?_⟩
  · obtain ⟨(rfl : mi = fnInf id true), (rfl : pi = fnInf id false), (rfl : mz = fnZero id true), (rfl : pz = fnZero id false)⟩ :=
      functionTable_eq _ hid
    have hinf (neg : Bool) : EndIs f (fnLane id f mode apx (withSign f neg (fmtInf f))) (fnInf id neg) := by
      rw [fnLane_inf (fpDecode_inf h neg)]
      exact endIs_fnConst h _
    have hzero (neg : Bool) : EndIs f (fnLane id f mode apx (withSign f neg 0)) (fnZero id neg) := by
      rw [fnLane_zero (fpDecode_zero h neg)]
      exact endIs_fnConst h _
    exact ⟨hinf true, hinf false, hzero true, hzero false⟩
  · exact ⟨fun sig id => fnLane_nan, fun hv hx id => fnLane_outside hv hx,
      fun hv hx => ⟨fnLane_log_one hv hx (.inl rfl), fnLane_log_one hv hx (.inr rfl)⟩, fnLane_log1p_pole, fnLane_log1p_below,
      fnLane_rcp hf, fnLane_roots hf⟩

end Sys2Proof.Machine
end

section
/-! PROOFS. The exact sum of a chunk's products and its addition to an element (R68, R224); O17. -/
namespace Sys2Proof.Machine

variable {f : Fmt} {B fb : Nat} {mode : RMode} {base : Int} {x : ℝ} {r : FpRes} {a b : FpVal} {l : List FpVal} {as bs : List Nat}

/-! ## Products that are no finite number -/

theorem isNan_product (a b : FpVal) :
    isNan (mulExact a b) = (isNan a || isNan b || (isInf a && isZero b) || (isZero a && isInf b)) := by
  by_cases h : (isNan a || isNan b) = true
  · rw [h, Bool.true_or, Bool.true_or]
    match a, b, h with
    | .nan _, .nan _, _ | .nan _, .inf _, _ | .nan _, .fin .., _ | .inf _, .nan _, _ | .fin .., .nan _, _ => rfl
  · obtain ⟨ha, hb⟩ := Bool.or_eq_false_iff.mp (Bool.eq_false_iff.mpr h)
    rw [isNan_mulExact ha hb, ha, hb]
    rfl

theorem product_eq_inf (a b : FpVal) (n : Bool) :
    (mulExact a b == .inf n) = (!isNan (mulExact a b) && (isInf a || isInf b) && ((signOf a != signOf b) == n)) := by
  by_cases hnan : isNan (mulExact a b) = true
  · rw [hnan]
    match mulExact a b, hnan with
    | .nan _, _ => rfl
  · have hp := isNan_product a b
    rw [Bool.eq_false_iff.mpr hnan] at hp
    obtain ⟨⟨hn, hz⟩, hz'⟩ : ((isNan a || isNan b) = false ∧ (isInf a && isZero b) = false) ∧ (isZero a && isInf b) = false := by
      simpa only [Bool.or_eq_false_iff, and_assoc] using hp.symm
    rw [Bool.eq_false_iff.mpr hnan, Bool.not_false, Bool.true_and]
    by_cases hi : (isInf a || isInf b) = true
    · rw [mulExact_inf hn (by rw [hz, hz']; rfl) hi, hi, Bool.true_and]
      generalize (signOf a != signOf b) = s
      cases s <;> cases n <;> rfl
    · rw [Bool.eq_false_iff.mpr hi, Bool.false_and]
      match a, b, hn, hi with
      | .fin .., .fin .., _, _ => rfl

/-! ## The sum of finite products -/

/-- The exact products of a chunk. -/
def exactProducts (f : Fmt) (as bs : List Nat) : List FpVal := (as.zip bs).map (fun p => mulExact (fpDecode f p.1) (fpDecode f p.2))

/-- The lesser of an exponent and a number's. -/
def lowerExp (m : Int) (v : FpVal) : Int := match v with | .fin _ _ e => min m e | _ => m

/-- A number added to a sum of multiples of 2^base. -/
def addAt (base s : Int) (v : FpVal) : Int := match v with | .fin n m e => s + finInt n m e base | _ => s

/-- The exponent that a chunk is summed at, and its sum. -/
def sumBase (l : List FpVal) : Int := l.foldl lowerExp 0
def sumAt (l : List FpVal) : Int := l.foldl (addAt (sumBase l)) 0

/-- The sum of a chunk's products, by what they are. -/
def sumOf (l : List FpVal) : FpVal × Bool :=
  if sumAt l = 0 then (.fin (l.all signOf) 0 0, false)
  else
    let r := roundFin fmt32 .rne (decide (sumAt l < 0)) (sumAt l).natAbs (sumBase l) false
    (fpDecode fmt32 r.bits, r.flags / flOverflow % 2 == 1)

theorem chunkSum_eq (f : Fmt) (as bs : List Nat) : chunkSum f as bs =
    if (exactProducts f as bs).any isNan then (.nan false, false)
    else if (exactProducts f as bs).any (fun p => p == .inf false) && (exactProducts f as bs).any (fun p => p == .inf true) then (.nan false, false)
    else if (exactProducts f as bs).any (fun p => p == .inf false) then (.inf false, false)
    else if (exactProducts f as bs).any (fun p => p == .inf true) then (.inf true, false)
    else sumOf (exactProducts f as bs) := rfl

theorem chunkSum_fin (hfin : ∀ v ∈ exactProducts f as bs, isFin v = true) : chunkSum f as bs = sumOf (exactProducts f as bs) := by
  have hnan : (exactProducts f as bs).any isNan = false := List.any_eq_false.mpr fun v hv => by rw [isNan_of_isFin (hfin v hv)]; decide
  have hinf (n : Bool) : (exactProducts f as bs).any (fun p => p == .inf n) = false := List.any_eq_false.mpr fun v hv => by
    obtain ⟨s, k, e, rfl⟩ := fin_of_isFin (hfin v hv)
    simp
  rw [chunkSum_eq, hnan, hinf, hinf]
  rfl

theorem foldl_lowerExp_le (l : List FpVal) (m : Int) : l.foldl lowerExp m ≤ m ∧ ∀ n k e, .fin n k e ∈ l → l.foldl lowerExp m ≤ e := by
  induction l generalizing m with
  | nil => exact ⟨le_rfl, nofun⟩
  | cons v l ih =>
    obtain ⟨hm, hl⟩ := ih (lowerExp m v)
    have hv : lowerExp m v ≤ m := by cases v <;> simp [lowerExp]
    refine ⟨hm.trans hv, fun n k e hmem => ?_⟩
    rcases List.mem_cons.mp hmem with rfl | hmem
    · exact hm.trans (min_le_right _ _)
    · exact hl n k e hmem

theorem foldl_addAt (hfin : ∀ v ∈ l, isFin v = true) (hbase : ∀ n k e, .fin n k e ∈ l → base ≤ e) (s : Int) :
    ((l.foldl (addAt base) s : ℤ) : ℚ) * 2 ^ base = s * 2 ^ base + (l.map exactOf).sum := by
  induction l generalizing s with
  | nil => simp
  | cons v l ih =>
    obtain ⟨n, k, e, rfl⟩ := fin_of_isFin (hfin v List.mem_cons_self)
    rw [List.foldl_cons, ih (fun v hv => hfin v (List.mem_cons_of_mem _ hv)) (fun n k e hv => hbase n k e (List.mem_cons_of_mem _ hv)),
      List.map_cons, List.sum_cons, ← finInt_mul n k (hbase n k e List.mem_cons_self), addAt]
    push_cast
    ring

theorem sumAt_mul (hfin : ∀ v ∈ l, isFin v = true) : (sumAt l : ℚ) * 2 ^ sumBase l = (l.map exactOf).sum := by
  have h := foldl_addAt hfin (base := sumBase l) (foldl_lowerExp_le l 0).2 0
  rwa [Int.cast_zero, zero_mul, zero_add] at h

theorem sumOf_fin (hfin : ∀ v ∈ l, isFin v = true) :
    ((l.map exactOf).sum ≠ 0 → ∃ r, RoundsTo fmt32 .rne ((l.map exactOf).sum : ℚ) r ∧ sumOf l = (fpDecode fmt32 r.bits, r.flags.testBit 2)) ∧
    ((l.map exactOf).sum = 0 → sumOf l = (.fin (l.all signOf) 0 0, false)) := by
  have hsum := sumAt_mul hfin
  have h2 : (2 : ℚ) ^ sumBase l ≠ 0 := zpow_ne_zero _ two_ne_zero
  refine ⟨fun h0 => ?_, fun h0 => ?_⟩
  · have hs : sumAt l ≠ 0 := fun hs => h0 (by rw [← hsum, hs]; simp)
    refine ⟨_, roundFin_int (by decide) hs hsum.symm, ?_⟩
    simp only [sumOf, if_neg hs, testBit_two]
  · rw [← hsum] at h0
    have hs : sumAt l = 0 := by exact_mod_cast (mul_eq_zero.mp h0).resolve_right h2
    rw [sumOf, if_pos hs]

/-! ## The sum added to an element -/

theorem RoundsTo.bits_lt (h : Format f B fb) (hr : RoundsTo f mode x r) : r.bits < 2 * fmtSignBit f := by
  obtain ⟨neg, top, n, u, -, -, -, -, -, hover, hfit⟩ := hr
  rcases lt_or_ge ((maxFinite f : ℚ) : ℝ) (u * 2 ^ (top - (f.p - 1 : Int))) with hlt | hge
  · rw [hover hlt, ← overflowMag_eq]
    exact withSign_lt h (by rw [overflowMag_eq]; split <;> omega) neg
  · obtain ⟨⟨hbits, -⟩, -⟩ := hfit hge
    exact hbits

theorem isFin_of_not (hn : isNan a = false) (hi : isInf a = false) : isFin a = true := by
  match a, hn, hi with
  | .fin .., _, _ => rfl

theorem addVal_bits_lt (hf : f ∈ formats) (a b : FpVal) : (addVal f mode a b).bits < 2 * fmtSignBit f := by
  obtain ⟨B, fb, h⟩ := format_of_mem hf
  have hinf (neg : Bool) : (signedInf f neg).bits < 2 * fmtSignBit f := withSign_lt h le_rfl neg
  have hzero (neg : Bool) : (signedZero f neg).bits < 2 * fmtSignBit f := withSign_lt h (Nat.zero_le _) neg
  have hnan (s : Bool) : (canonical f s).bits < 2 * fmtSignBit f := by
    have hpow : 2 ^ (fb - 1) ≤ 2 ^ fb := Nat.pow_le_pow_right two_pos (Nat.sub_le _ _)
    have hpos := Nat.two_pow_pos fb
    simp only [canonical, fmtNan, h.inf, h.fbits, h.signBit, Nat.add_mul, Nat.mul_add]
    omega
  cases hn : isNan a || isNan b
  · obtain ⟨hii, hif, hfi, -⟩ := arithmetic_inf (f := f) (mode := mode) hn
    cases ha : isInf a <;> cases hb : isInf b
    · obtain ⟨hna, hnb⟩ := Bool.or_eq_false_iff.mp hn
      obtain ⟨hr, hz⟩ := addVal_fin (mode := mode) hf (isFin_of_not hna ha) (isFin_of_not hnb hb)
      by_cases h0 : exactOf a + exactOf b = 0
      · rw [hz h0]
        exact hzero _
      · exact (hr h0).bits_lt h
    · rw [(hfi ha hb).1]
      exact hinf _
    · rw [(hif ha hb).1]
      exact hinf _
    · rw [(hii ha hb).1]
      split
      · exact hnan _
      · exact hinf _
  · rw [addVal_nan hn]
    exact hnan _

theorem fpStep_eq (f : Fmt) (el : AccEl) (as bs : List Nat) :
    let cs := chunkSum f as bs
    let r := addVal fmt32 .rne (fpDecode fmt32 el.val.toNat) cs.1
    (fpStep f el as bs).val.toNat = r.bits ∧ (fpStep f el as bs).inf = (el.inf || cs.2 || r.flags.testBit 2) ∧
    (fpStep f el as bs).nan = (el.nan || isNan (fpDecode fmt32 r.bits)) ∧ (fpStep f el as bs).sat = el.sat := by
  intro cs r
  refine ⟨?_, ?_, rfl, rfl⟩
  · exact (BitVec.toNat_ofNat _ _).trans (Nat.mod_eq_of_lt (addVal_bits_lt (by decide) _ _))
  · rw [← testBit_two]
    rfl

theorem chunksAreSummedExactly : Claim.ChunksAreSummedExactly := by
  intro f el as bs hf ps nanP infP sum cs e r
  have hps : exactProducts f as bs = ps.map (fun p => mulExact p.1 p.2) := by
    simp only [exactProducts, ps, List.map_map]
    rfl
  have hnan : (exactProducts f as bs).any isNan = ps.any nanP := by
    rw [hps, List.any_map]
    exact congrArg ps.any (funext fun p => isNan_product p.1 p.2)
  have hinf (n : Bool) : (exactProducts f as bs).any (fun p => p == .inf n) = ps.any (infP n) := by
    rw [hps, List.any_map]
    refine congrArg ps.any (funext fun p => (product_eq_inf p.1 p.2 n).trans ?_)
    rw [isNan_product]
  have hcs : cs = _ := chunkSum_eq f as bs
  simp only [hnan, hinf] at hcs
  refine ⟨fun h => ?_, fun n h1 h2 h3 => ?_, fun hfin => ?_, fpStep_eq f el as bs⟩
  · rcases h with h | ⟨h1, h2⟩
    · rw [hcs, if_pos h]
    · rw [hcs, h1, h2]
      split <;> rfl
  · cases n with
    | false =>
      rw [Bool.not_false] at h3
      rw [hcs, h1, h2, h3]
      rfl
    | true =>
      rw [Bool.not_true] at h3
      rw [hcs, h1, h2, h3]
      rfl
  · have hpair : ∀ p ∈ ps, isFin p.1 = true ∧ isFin p.2 = true := fun p hp => by simpa using List.all_eq_true.mp hfin p hp
    have hprod : ∀ v ∈ exactProducts f as bs, isFin v = true := by
      rw [hps]
      rintro v hv
      obtain ⟨p, hp, rfl⟩ := List.mem_map.mp hv
      exact (isFin_mulExact (hpair p hp).1 (hpair p hp).2).1
    have hsum : ((exactProducts f as bs).map exactOf).sum = sum := by
      rw [hps, List.map_map]
      exact congrArg List.sum (List.map_congr_left fun p hp => exactOf_mulExact (hpair p hp).1 (hpair p hp).2)
    obtain ⟨hne, heq⟩ := sumOf_fin hprod
    rw [← chunkSum_fin hprod, hsum] at hne heq
    refine ⟨hne, fun h0 => ⟨_, heq h0, ?_⟩⟩
    rw [hps, List.all_map, List.all_eq_true]
    refine forall₂_congr fun p hp => ?_
    rw [Function.comp_apply, (isFin_mulExact (hpair p hp).1 (hpair p hp).2).2.1, bne_iff_ne]

/-- Settles O17: each operation is shown to hand `round` the leading bits of its exact value and whether anything is left of it, from which
`roundGen_spec` gives the one rounding, its bits and its flags. -/
theorem exactResultsAreRounded : Obligations.ExactResultsAreRounded :=
  ⟨arithmeticRoundsExactValues, integralScaledAndConverted, functionLanes, chunksAreSummedExactly⟩

end Sys2Proof.Machine
end

section
/-! PROOFS. The state right after reset (R89, R317, R366, R393, R397, R404). -/
namespace Sys2Proof.Machine

/-- Memory that nothing has written reads 0 (log entry 4). -/
theorem rdByte_reset {k : Nat} (hk : held k) : rdByte State.reset k = 0 := by
  obtain ⟨hap, -⟩ := hk
  by_cases hd : k < dramTop
  · exact rdByte_dram _ k hd
  · exact rdByte_high _ k fun h => hap ⟨Nat.le_of_not_lt hd, h⟩

theorem getScal_default (g : Eng) (r : Nat) : getScal {} g r = 0 := by
  unfold getScal
  cases g <;> exact ite_self _

/-- Settles O60: field by field; every table is empty, so that each of its entries reads as its default. -/
theorem resetIsAsStated : Obligations.ResetIsAsStated := by
  refine ⟨reset_good, State.reset_bounded, rfl, rfl, rfl, rfl, rfl, rfl, fun n g => ⟨rfl, ?_⟩, fun n r => ⟨getScal_default .c r, rfl, rfl⟩,
    fun _ => rfl, fun _ => rfl, fun _ => rfl, fun _ => rdByte_reset, fun _ => rfl⟩
  cases g <;> rfl

end Sys2Proof.Machine
end

section
/-! PROOFS. Stores issued and performed (R79, R97, R98, R109): what the notes of an access leave, how a store is cut into its parts, and what
the store that performs writes. -/
namespace Sys2Proof.Machine

variable {s t u : State} {k : Nat}

/-! ## What the notes of an access leave -/

section
variable {α : Type} {F : Core → α}

/-- The executing core and engine and the handle tables are as before, and of every core what `F` tells of it. -/
def Keeps (F : Core → α) (s t : State) : Prop := t.cur = s.cur ∧ t.ht = s.ht ∧ ∀ n, F (coreAt t n) = F (coreAt s n)

theorem Keeps.refl (F : Core → α) (s : State) : Keeps F s s := ⟨rfl, rfl, fun _ => rfl⟩

theorem Keeps.trans (h : Keeps F s t) (k : Keeps F t u) : Keeps F s u := by
  obtain ⟨hc, hh, hn⟩ := h
  obtain ⟨kc, kh, kn⟩ := k
  exact ⟨kc.trans hc, kh.trans hh, fun n => (kn n).trans (hn n)⟩

theorem Keeps.of_cores (hcur : t.cur = s.cur) (hht : t.ht = s.ht) (hc : t.cores = s.cores) : Keeps F s t :=
  ⟨hcur, hht, fun n => by rw [coreAt, hc]; rfl⟩

theorem Keeps.htAt_eq (h : Keeps F s t) (p c n : Nat) : htAt t p c n = htAt s p c n := by
  unfold htAt entKey
  rw [h.2.1]

theorem Keeps.curCore_eq (h : Keeps F s t) : F (curCore t) = F (curCore s) := by
  rw [curCore, h.1]
  exact h.2.2 _

theorem OnlyMem.keeps (h : OnlyMem s t) : Keeps F s t :=
  .of_cores (h.field State.cur fun _ _ _ _ => rfl) (h.field State.ht fun _ _ _ _ => rfl) (h.field State.cores fun _ _ _ _ => rfl)

theorem keeps_upCore {f : Core → Core} (n : Nat) (hf : ∀ c, F (f c) = F c) : Keeps F s (upCore s n f) := by
  refine ⟨rfl, rfl, fun m => ?_⟩
  rw [coreAt_upCore]
  split
  · next hm => rw [← hm]; exact hf _
  · rfl

variable (hF : ∀ c g f, F (upEng c g f) = F c)
include hF

theorem keeps_upEng (s : State) (n : Nat) (g : Eng) (f : EngSt → EngSt) : Keeps F s (upCore s n fun c => upEng c g f) :=
  keeps_upCore n fun c => hF c g f

theorem keeps_holdPte (s : State) (w : Who) (at_ : Nat) (p : Word) : Keeps F s (holdPte s w at_ p) := by
  unfold holdPte
  split
  · exact .of_cores rfl rfl rfl
  · exact .refl F s
  · exact .refl F s
  · exact keeps_upEng hF _ _ _ _
end

theorem rdByte_holdPte (s : State) (w : Who) (at_ : Nat) (p : Word) (k : Nat) : rdByte (holdPte s w at_ p) k = rdByte s k := by
  unfold holdPte
  split <;> rfl

/-- What the notes of an access make of a state: of memory they change at most what `m` names, and nothing that `F` tells of a core. -/
def Noted {α : Type} (F : Core → α) (m : Nat → Prop) (s t : State) : Prop :=
  Keeps F s t ∧ ∀ k, held k → ¬ m k → rdByte t k = rdByte s k

section
variable {α : Type} {F : Core → α} {m : Nat → Prop}

theorem Noted.refl (F : Core → α) (m : Nat → Prop) (s : State) : Noted F m s s := ⟨.refl F s, fun _ _ _ => rfl⟩

theorem Noted.trans (h : Noted F m s t) (k : Noted F m t u) : Noted F m s u :=
  ⟨h.1.trans k.1, fun x hx hm => (k.2 x hx hm).trans (h.2 x hx hm)⟩

theorem Noted.mono {m' : Nat → Prop} (h : Noted F m s t) (hm : ∀ k, m k → m' k) : Noted F m' s t :=
  ⟨h.1, fun k hk hn => h.2 k hk fun hk' => hn (hm k hk')⟩

/-- The bytes in which the page of an address, and the page after it, are marked. -/
def pageMark (s : State) (w : Who) (sh : Bool) (a k : Nat) : Prop :=
  ∃ e, htAt s w.part w.ctx (a / 2 ^ 48 % 65536) = some e ∧
    (k = pteAddr (backing e sh) (a % 2 ^ 48) + 8 ∨ k = pteAddr (backing e sh) (a % 2 ^ 48 + 2 ^ 21) + 8)

variable (hF : ∀ c g f, F (upEng c g f) = F c)
include hF

/-- A page-table entry that is read is marked in its ninth byte (R364). -/
theorem noted_loadPte (s : State) (w : Who) (at_ : Nat) : Noted F (· = at_ + 8) s (loadPte s w at_) := by
  have hmark (f : Byte → Byte) : Noted F (· = at_ + 8) s (markPte s at_ f) := by
    unfold markPte
    split
    · exact .refl F _ s
    · exact ⟨(onlyMem_writeMem s _).keeps, fun k hk hm =>
        rdByte_writeMem_ne s _ hk.1 fun q hq hqk => hm (hqk ▸ congrArg Prod.fst (List.mem_singleton.mp hq))⟩
  unfold loadPte
  dsimp only
  split
  · exact .trans (hmark _) ⟨keeps_holdPte hF _ _ _ _, fun k _ _ => rdByte_holdPte _ _ _ _ k⟩
  · exact .refl F _ s

theorem noted_notePage (s : State) (w : Who) (sh : Bool) (a : Nat) : Noted F (pageMark s w sh a) s (notePage s w sh a) := by
  unfold notePage
  split
  · exact .refl F _ s
  · next e he =>
    split
    · exact .refl F _ s
    · have hfirst : Noted F (pageMark s w sh a) s (loadPte s w (pteAddr (backing e sh) (a % 2 ^ 48))) :=
        (noted_loadPte hF _ _ _).mono fun k hk => ⟨e, he, .inl hk⟩
      dsimp only
      split
      · exact hfirst.trans ((noted_loadPte hF _ _ _).mono fun k hk => ⟨e, he, .inr hk⟩)
      · exact hfirst

theorem noted_notePages (s : State) (w : Who) (a n : Nat) : Noted F (markedBy s w a n) s (notePages s w false a n) := by
  have hfirst : Noted F (markedBy s w a n) s (notePage s w false a) :=
    (noted_notePage hF s w false a).mono fun k ⟨e, he, hk⟩ => ⟨a, e, .inl rfl, he, hk⟩
  have hfree (t : State) (m : Nat) : Noted F (markedBy s w a n) t { t with free := m } := ⟨.of_cores rfl rfl rfl, fun _ _ _ => rfl⟩
  unfold notePages
  dsimp only
  split
  · exact hfirst.trans (hfree _ _)
  · refine (hfirst.trans ((noted_notePage hF _ w false _).mono fun k ⟨e, he, hk⟩ => ⟨_, e, .inr rfl, ?_, hk⟩)).trans (hfree _ _)
    rwa [hfirst.1.htAt_eq] at he

theorem keeps_bumpClk (s : State) : Keeps F s (bumpClk s) := keeps_upEng hF s s.cur.core s.cur.eng _
end

/-! ## An access cut at its lines -/

/-- Where the `i`-th part of an access begins that is cut at the lines (R79). -/
def lineCut (a n i : Nat) : Nat := min n ((a / 128 + i) * 128 - a)

/-- The parts of an access are its bytes from one cut to the next. -/
theorem flatMap_lineParts {α : Type} (a : Nat) (l : List α) :
    (lineParts a l.length).flatMap (fun q => (l.drop q.1).take q.2) = l := by
  let n := l.length
  let part (i : Nat) : Option (Nat × Nat) :=
    let lo := if i = 0 then a else (a / 128 + i) * 128
    let hi := min (a + n) ((a / 128 + i + 1) * 128)
    if lo < hi then some (lo - a, hi - lo) else none
  have hpart (i : Nat) : ((part i).toList.flatMap fun q => (l.drop q.1).take q.2) =
      (l.drop (lineCut a n i)).take (lineCut a n (i + 1) - lineCut a n i) := by
    have hlo : (if i = 0 then a else (a / 128 + i) * 128) = max a ((a / 128 + i) * 128) := by split <;> omega
    simp only [part, hlo]
    split
    · have h1 : max a ((a / 128 + i) * 128) - a = lineCut a n i := by unfold lineCut; omega
      have h2 : min (a + n) ((a / 128 + i + 1) * 128) - max a ((a / 128 + i) * 128) = lineCut a n (i + 1) - lineCut a n i := by
        unfold lineCut; omega
      rw [h1, h2, Option.toList_some, List.flatMap_singleton]
    · have h0 : lineCut a n (i + 1) - lineCut a n i = 0 := by unfold lineCut; omega
      rw [h0, List.take_zero]
      rfl
  have hstep (m : Nat) : ((List.range m).filterMap part).flatMap (fun q => (l.drop q.1).take q.2) = l.take (lineCut a n m) := by
    induction m with
    | zero =>
      have h0 : lineCut a n 0 = 0 := by unfold lineCut; omega
      simp [h0]
    | succ m ih =>
      have hle : lineCut a n m ≤ lineCut a n (m + 1) := by unfold lineCut; omega
      rw [List.range_succ, List.filterMap_append, List.flatMap_append, ih]
      have hone : (List.filterMap part [m]) = (part m).toList := by
        cases h : part m <;> simp [h]
      rw [hone, hpart, ← List.take_add, Nat.add_sub_cancel' hle]
  refine (hstep (n / 128 + 2)).trans (List.take_of_length_le ?_)
  unfold lineCut
  omega

/-! ## Parts issued -/

/-- Of a core, its waiting stores and its scalar registers. -/
def issueView (c : Core) : List PendSt × (Eng → Nat → Word) := (c.stq, getScal c)

theorem issueView_upEng (c : Core) (g : Eng) (f : EngSt → EngSt) : issueView (upEng c g f) = issueView c :=
  Prod.ext (by cases g <;> rfl) (funext fun k => funext fun r => getScal_upEng c g k f r)

theorem keeps_dropLines (s : State) (core a n : Nat) (keys : List Nat) : Keeps issueView s (dropLines s core a n keys) :=
  keeps_upCore core fun _ => Prod.ext rfl (funext fun g => funext fun _ => by cases g <;> rfl)


/-- The store that a part of a word's store is issued as (R97, R308). -/
def issuedStore (s : State) (a : Nat) (ks : List Nat) (ds : List Byte) : PendSt :=
  { id := (curCore s).nid, eng := s.cur.eng, seq := clkGet (curEng s).seen s.cur.eng, bytes := ks.zip ds, addr := a,
    text := textAddr s (curEng s).pc, word := (wordAt s (curEng s).pc).toNat }

theorem issuePart_local {ks : List Nat} (hks : ks.any isRemote = false) (s : State) (a : Nat) (ds : List Byte) :
    issuePart s a ks ds = upCur s fun c => { c with stq := c.stq ++ [issuedStore s a ks ds], nid := c.nid + 1 } := by
  unfold issuePart
  rw [hks]
  rfl

/-- Stores of the executing engine issued on this module: memory and the registers are as before. -/
def StoresIssued (s t : State) (l : List PendSt) : Prop :=
  t.cur = s.cur ∧ (curCore t).stq = (curCore s).stq ++ l ∧ (∀ p ∈ l, p.eng = s.cur.eng ∧ p.remote = false) ∧
  (∀ k, rdByte t k = rdByte s k) ∧ ∀ g r, getScal (curCore t) g r = getScal (curCore s) g r

theorem issued_issuePart {ks : List Nat} (hks : ks.any isRemote = false) (s : State) (a : Nat) (ds : List Byte) :
    StoresIssued s (issuePart s a ks ds) [issuedStore s a ks ds] := by
  rw [issuePart_local hks]
  refine ⟨rfl, by rw [curCore_upCur], fun p hp => ?_, fun _ => rfl, fun g r => ?_⟩
  · rw [List.mem_singleton.mp hp]
    exact ⟨rfl, rfl⟩
  · rw [curCore_upCur]
    cases g <;> rfl

theorem StoresIssued.append {l l' : List PendSt} (h : StoresIssued s t l) (k : StoresIssued t u l') : StoresIssued s u (l ++ l') := by
  obtain ⟨hc, hq, hp, hb, hg⟩ := h
  obtain ⟨kc, kq, kp, kb, kg⟩ := k
  refine ⟨kc.trans hc, by rw [kq, hq, List.append_assoc], fun p hm => ?_, fun x => (kb x).trans (hb x), fun g r => (kg g r).trans (hg g r)⟩
  rcases List.mem_append.mp hm with hm | hm
  · exact hp p hm
  · rw [← hc]
    exact kp p hm

/-- The parts of a store issued in turn hold its bytes, part by part. -/
theorem issued_foldl {keys : List Nat} (hk : ∀ k ∈ keys, isRemote k = false) (a : Nat) (data : List Byte) (qs : List (Nat × Nat)) :
    ∀ s : State, ∃ l, StoresIssued s (qs.foldl (fun s q => issuePart s (a + q.1) ((keys.drop q.1).take q.2) ((data.drop q.1).take q.2)) s) l ∧
      l.flatMap (fun p => p.bytes) = qs.flatMap fun q => ((keys.zip data).drop q.1).take q.2 := by
  induction qs with
  | nil => exact fun s => ⟨[], ⟨rfl, (List.append_nil _).symm, nofun, fun _ => rfl, fun _ _ => rfl⟩, rfl⟩
  | cons q qs ih =>
    intro s
    have hlocal : ((keys.drop q.1).take q.2).any isRemote = false :=
      List.any_eq_false.mpr fun k hm => by rw [hk k (List.mem_of_mem_drop (List.mem_of_mem_take hm))]; decide
    obtain ⟨l, hl, hbytes⟩ := ih (issuePart s (a + q.1) ((keys.drop q.1).take q.2) ((data.drop q.1).take q.2))
    refine ⟨_, (issued_issuePart hlocal s _ _).append hl, ?_⟩
    rw [List.flatMap_append, hbytes, List.flatMap_singleton, List.flatMap_cons]
    simp only [issuedStore, List.zip_eq_zipWith, List.drop_zipWith, List.take_zipWith]

theorem storeParts_whole (a n : Nat) {put : Nat → Bool} (hput : ∀ i, put i = false) : storeParts a n put = lineParts a n := by
  simp [storeParts, hput]

/-- The state in which the parts of a store are issued: its pages noted, and the lines of L1 that it overlaps dropped. -/
def issueState (s : State) (a : Nat) (keys : List Nat) (n : Nat) : State :=
  dropLines (bumpClk (notePages s (curWho s .core) false a n)) s.cur.core a n keys

theorem noted_issueState (s : State) (a : Nat) (keys : List Nat) (n : Nat) :
    Noted issueView (markedBy s (curWho s .core) a n) s (issueState s a keys n) :=
  (noted_notePages issueView_upEng s _ a n).trans
    ⟨(keeps_bumpClk issueView_upEng _).trans (keeps_dropLines _ _ _ _ _), fun _ _ _ => rfl⟩

/-- A store of which no part has been issued is issued part by part. -/
theorem issueStore_bytes {keys : List Nat} {data : List Byte} {put : Nat → Bool} (hk : ∀ k ∈ keys, isRemote k = false)
    (hlen : keys.length = data.length) (hput : ∀ i, put i = false) (s : State) (a : Nat) :
    ∃ l, StoresIssued (issueState s a keys data.length) (issueStore s a keys data put) l ∧ l.flatMap (fun p => p.bytes) = keys.zip data := by
  obtain ⟨l, hl, hbytes⟩ := issued_foldl hk a data (lineParts a data.length) (issueState s a keys data.length)
  have hcur : (bumpClk (notePages s (curWho s .core) false a data.length)).cur.core = s.cur.core :=
    congrArg Cur.core (noted_notePages issueView_upEng s (curWho s .core) a data.length).1.1
  refine ⟨l, ?_, ?_⟩
  · unfold issueStore
    dsimp only
    rw [storeParts_whole a _ hput, hcur]
    exact hl
  · have hzip := flatMap_lineParts a (keys.zip data)
    rw [List.length_zip, hlen, Nat.min_self] at hzip
    exact hbytes.trans hzip

theorem coreStore_ok {a : Nat} {data : List Byte} {keys : List Nat} (hx : xlateRange s (curWho s .core) .w false a data.length = .ok keys)
    (hk : ∀ k ∈ keys, isRemote k = false) (hbad : badWrite s keys = none) :
    coreStore s a data = .ok () (issueStore s a keys data fun i => SMap.get false (curEng s).reply.put (0 + i)) := by
  have hlocal : keys.filter (fun k => !isRemote k) = keys := List.filter_eq_self.mpr fun k hm => by rw [hk k hm]; rfl
  unfold coreStore coreStoreAt
  dsimp only
  rw [hx]
  dsimp only
  rw [hlocal, hbad]

/-! ## A store performs -/

/-- Bytes written in order read as the last of them at their place, and every other byte as before. -/
theorem rdByte_wrBytes (l : List (Nat × Byte)) (hk : ¬ (apBase ≤ k ∧ k < apTop)) :
    ∀ s : State, rdByte (wrBytes s l) k = overlaid l k (rdByte s k) := by
  induction l with
  | nil => exact fun s => rfl
  | cons p l ih =>
    intro s
    refine (ih (wrByte s p.1 p.2)).trans (congrArg (overlaid l k) ?_)
    dsimp only
    split
    · next h => rw [h, rdByte_wrByte_same]
    · next h => exact rdByte_wrByte_ne s _ _ _ hk (Ne.symm h)

theorem rdByte_writeMem (l : List (Nat × Byte)) (hk : ¬ (apBase ≤ k ∧ k < apTop)) (s : State) :
    rdByte (writeMem s l) k = overlaid l k (rdByte s k) :=
  (rdByte_wrBytes l hk _).trans (congrArg (overlaid l k) (rdByte_fillAll s _ hk))

/-- The bytes of a store that lie outside the queue page are all that count for a location outside it. -/
theorem overlaid_filter_inPage (l : List (Nat × Byte)) (hk : inPage k = false) (b : Byte) :
    overlaid (l.filter fun x => !inPage x.1) k b = overlaid l k b := by
  induction l generalizing b with
  | nil => rfl
  | cons p l ih =>
    by_cases hp : inPage p.1 = true
    · have hne : p.1 ≠ k := fun h => by rw [h, hk] at hp; cases hp
      rw [List.filter_cons_of_neg (by simp [hp]), ih]
      exact congrArg (overlaid l k) (if_neg hne).symm
    · rw [List.filter_cons_of_pos (by simpa using hp)]
      exact ih _

theorem not_aperture_of_inPage (hk : inPage k = true) : ¬ (apBase ≤ k ∧ k < apTop) := by
  simp only [inPage, beq_iff_eq] at hk
  simp only [apBase, apTop]
  omega

theorem cores_writeMem (s : State) (l : List (Nat × Byte)) : (writeMem s l).cores = s.cores :=
  (onlyMem_writeMem s l).field State.cores fun _ _ _ _ => rfl

/-- The first store of its number in a core's list of waiting stores, where each number stands for one store. -/
theorem find?_of_unique {q : List PendSt} {p : PendSt} (hp : p ∈ q) (huniq : ∀ x ∈ q, x.id = p.id → x = p) :
    q.find? (fun x => x.id == p.id) = some p := by
  cases h : q.find? fun x => x.id == p.id with
  | none => exact absurd (beq_self_eq_true p.id) (List.find?_eq_none.mp h p hp)
  | some x =>
    have hid := List.find?_some h
    rw [huniq x (List.mem_of_find?_eq_some h) (beq_iff_eq.mp hid)]

section
variable {core : Nat} {p : PendSt} (hp : p ∈ (coreAt s core).stq) (hl : p.remote = false)
  (huniq : ∀ x ∈ (coreAt s core).stq, x.id = p.id → x = p)
include hp hl huniq

/-- A store on this module performs: its bytes outside the queue page are written, and it waits no more. -/
theorem performStore_local : ∃ f : Core → Core, performStore s core p.id = writeMem (upCore s core f) (p.bytes.filter fun b => !inPage b.1) ∧
    ∀ c, (f c).stq = c.stq.filter fun q => q.id != p.id := by
  unfold performStore
  rw [find?_of_unique hp huniq]
  dsimp only
  rw [hl]
  exact ⟨_, rfl, fun _ => rfl⟩

theorem rdByte_performStore (hk : held k) : rdByte (performStore s core p.id) k = overlaid p.bytes k (rdByte s k) := by
  obtain ⟨f, hf, -⟩ := performStore_local hp hl huniq
  rw [hf, rdByte_writeMem _ hk.1, overlaid_filter_inPage _ hk.2]
  rfl

theorem rdByte_performStore_inPage (hk : inPage k = true) : rdByte (performStore s core p.id) k = rdByte s k := by
  obtain ⟨f, hf, -⟩ := performStore_local hp hl huniq
  rw [hf]
  refine rdByte_writeMem_ne _ _ (not_aperture_of_inPage hk) fun q hq hqk => ?_
  have h := (List.mem_filter.mp hq).2
  rw [hqk, hk] at h
  cases h

theorem mem_stq_performStore (x : PendSt) :
    x ∈ (coreAt (performStore s core p.id) core).stq ↔ x ∈ (coreAt s core).stq ∧ x ≠ p := by
  obtain ⟨f, hf, hq⟩ := performStore_local hp hl huniq
  rw [hf, coreAt, cores_writeMem]
  change x ∈ (coreAt (upCore s core f) core).stq ↔ _
  rw [coreAt_upCore, if_pos rfl, hq, List.mem_filter, bne_iff_ne]
  exact and_congr_right fun hx => not_congr ⟨huniq x hx, congrArg PendSt.id⟩
end

/-- The turn in which a store on this module performs, unless an earlier one to one of its bytes stands before it (R98). -/
theorem performNth_local {core i : Nat} {p : PendSt} (hp : (coreAt s core).stq[i]? = some p) (hl : p.remote = false) :
    performNth s core i = if ((coreAt s core).stq.take i).any (fun x => overlaps x p) then s else performStore s core p.id := by
  unfold performNth
  dsimp only
  rw [hp]
  dsimp only
  rw [hl]
  rfl

/-- Settles O13: the parts of a store are its bytes in order, each issued by itself; the store that performs writes the bytes it holds. -/
theorem storesAreIssuedThenPerform : Obligations.StoresAreIssuedThenPerform := by
  refine ⟨fun s a data keys _ hx hk hbad hput => ?_, fun s core i p hp hl huniq => ⟨fun ⟨x, hx, ho⟩ => ?_, fun hfree => ?_⟩⟩
  · obtain ⟨l, ⟨-, hq, hl, hb, hg⟩, hzip⟩ := issueStore_bytes hk (length_xlateRange hx)
      (put := fun i => SMap.get false (curEng s).reply.put (0 + i)) (fun i => by rw [hput]; rfl) s a
    obtain ⟨hkeeps, hbytes⟩ := noted_issueState s a keys data.length
    obtain ⟨hstq, hscal⟩ := Prod.ext_iff.mp hkeeps.curCore_eq
    exact ⟨_, l, coreStore_ok hx hk hbad, hq.trans (congrArg (· ++ l) hstq), hzip, fun p hp => by rw [← hkeeps.1]; exact hl p hp,
      fun k hk hm => (hb k).trans (hbytes k hk hm), fun g r => (hg g r).trans (congrFun (congrFun hscal g) r)⟩
  · rw [performNth_local hp hl, if_pos (List.any_eq_true.mpr ⟨x, hx, ho⟩)]
  · have hmem : p ∈ (coreAt s core).stq := List.mem_of_getElem? hp
    have hfirst : ((coreAt s core).stq.take i).any (fun x => overlaps x p) = false :=
      List.any_eq_false.mpr fun x hx => by rw [hfree x hx]; decide
    have honly := onlyCoresMem_performStore s core p.id
    rw [performNth_local hp hl, hfirst]
    exact ⟨fun k hk => rdByte_performStore hmem hl huniq hk, fun k hk => rdByte_performStore_inPage hmem hl huniq hk,
      mem_stq_performStore hmem hl huniq, honly.field State.teams fun _ _ _ _ _ => rfl, honly.field State.regions fun _ _ _ _ _ => rfl⟩

end Sys2Proof.Machine
end

section
/-! PROOFS. Memory words of V: rows of a tile, packed rows and gathered elements (R81–R83, R141, R174, R178–R184). -/
namespace Sys2Proof.Machine

variable {s t u : State} {h : Hd} {α : Type}

/-! ## Words whose accesses are all answered -/

theorem runEff_done {eff : State → Eff} (hr : Ready s h) (he : eff (atHand s h) = .done t) : runEff s h eff = .next (goesOn h t) :=
  runWord_ready (w := { eff := eff }) hr he

theorem legalEff_of_ok {ok : State → Bool} (eff : State → Eff) (hok : ok s = true) : legalEff s h ok eff = runEff s h eff := by
  unfold legalEff
  rw [hok, Bool.not_true, Bool.and_false]
  rfl

theorem effRows_ok {acc : Acc} {l : List (Except FInfo Nat × Nat)} {run : List Nat → MRes α} {k : α → State → Eff} {as : List Nat} {x : α}
    (hl : allAddrs (l.map fun p => p.1) = .ok as) (hx : run as = .ok x t) : effRows s acc l run k = k x t := by
  unfold effRows
  rw [hl]
  dsimp only
  rw [hx]

theorem effAddrOr_ok {a : Reg} {imm : Int} {n ea : Nat} {k : Nat → Eff} (hea : effAddr (rd s a) imm = some ea) : effAddrOr s a imm n k = k ea := by
  unfold effAddrOr
  rw [hea]

/-- The rows of a tile that all have addresses. -/
theorem tileRows_of_tileAddrs {a b : Reg} {imm : W32} {l : List Nat} (hl : tileAddrs s a b imm = .ok l) :
    ∃ r, tileRows s a b imm = .ok r ∧ allAddrs (r.map fun p => p.1) = .ok l := by
  unfold tileAddrs at hl
  split at hl
  · cases hl
  · next r hr => exact ⟨r, hr, hl⟩

theorem exec_vld {ty : ETy} {q : Bool} {d a b : Reg} {imm : W32} {l : List Nat} {rows : List (List Byte)} (hr : Ready s h)
    (hl : tileAddrs (atHand s h) a b imm = .ok l) (hb : coreLoads q (l.map fun x => (x, 256)) (atHand s h) = .ok rows t) :
    exec (.vld h ty q d a b imm) s = .next (goesOn h (putRows t d.toNat (groupSize imm) rows)) := by
  obtain ⟨r, hrows, haddr⟩ := tileRows_of_tileAddrs hl
  change execVld h ty q d a b imm s = _
  refine runEff_done hr ?_
  rw [hrows]
  exact effRows_ok haddr hb

theorem exec_vst {ty : ETy} {a b e : Reg} {imm : W32} {l : List Nat} (hr : Ready s h) (hl : tileAddrs (atHand s h) a b imm = .ok l)
    (hb : coreStores ((List.range l.length).map fun i => (l.getD i 0, groupRow (curCore (atHand s h)) e.toNat i)) (atHand s h) = .ok () t) :
    exec (.vst h ty a b e imm) s = .next (goesOn h t) := by
  obtain ⟨r, hrows, haddr⟩ := tileRows_of_tileAddrs hl
  change execVst h ty a b e imm s = _
  refine runEff_done hr ?_
  rw [hrows]
  exact effRows_ok haddr hb

/-- A pair of registers that is legal for its word at its effect is legal as it issues (R83). -/
theorem spWordOk_atHand {ty : ETy} {a b : Reg} {write : Bool} (hok : spOk (rd (atHand s h) a) (rd (atHand s h) b) write = true)
    (hty : spType (rd (atHand s h) b) = etyCode ty) : spWordOk (atHand s h) ty a b write = true ∧ spWordOk s ty a b write = true := by
  have hboth : spWordOk (atHand s h) ty a b write = true := Bool.and_eq_true_iff.mpr ⟨hok, beq_iff_eq.mpr hty⟩
  refine ⟨hboth, ?_⟩
  unfold spWordOk at hboth ⊢
  simpa only [rd_atHand] using hboth

theorem exec_vldSp {ty : ETy} {q : Bool} {d a b : Reg} {imm : W32} {l : List Nat} {gs : List (List Byte)} (hr : Ready s h)
    (hok : spOk (rd (atHand s h) a) (rd (atHand s h) b) false = true) (hty : spType (rd (atHand s h) b) = etyCode ty)
    (hl : spGranules (rd (atHand s h) a) (rd (atHand s h) b) (imm.toNat % 2 ^ 24) (16 * groupSize imm) = .ok l)
    (hb : coreLoads true (l.map fun x => (x, 16)) (atHand s h) = .ok gs t) :
    exec (.vldSp h ty q d a b imm) s = .next (goesOn h (putRows t d.toNat (groupSize imm) (joinRows (16 * groupSize imm) gs))) := by
  obtain ⟨hhand, hissue⟩ := spWordOk_atHand hok hty
  change execVldSp h ty q d a b imm s = _
  refine (legalEff_of_ok _ hissue).trans (runEff_done hr ?_)
  dsimp only
  rw [hhand]
  exact effRows_ok hl hb

theorem exec_vstSp {ty : ETy} {a b e : Reg} {imm : W32} {l : List Nat} (hr : Ready s h)
    (hok : spOk (rd (atHand s h) a) (rd (atHand s h) b) true = true) (hty : spType (rd (atHand s h) b) = etyCode ty)
    (hl : spGranules (rd (atHand s h) a) (rd (atHand s h) b) (imm.toNat % 2 ^ 24) (16 * groupSize imm) = .ok l)
    (hb : coreStores ((List.range l.length).map fun i =>
      (l.getD i 0, ((groupRow (curCore (atHand s h)) e.toNat (i / 16)).drop (16 * (i % 16))).take 16)) (atHand s h) = .ok () t) :
    exec (.vstSp h ty a b e imm) s = .next (goesOn h t) := by
  obtain ⟨hhand, hissue⟩ := spWordOk_atHand hok hty
  change execVstSp h ty a b e imm s = _
  refine (legalEff_of_ok _ hissue).trans (runEff_done hr ?_)
  dsimp only
  rw [hhand]
  exact effRows_ok hl hb

/-! ## Ragged words -/

section
variable {ty : ETy} {q : Bool} {d a b e : Reg} {imm : W32} {ea used : Nat} {rows : List RRow} {l : List Nat} (hr : Ready s h)
include hr

theorem exec_vldr {bs : List (List Byte)} (hea : effAddr (rd (atHand s h) a) imm.toInt = some ea)
    (hp : ragged (atHand s h) ty q ea b = .ok (rows, used) u)
    (hl : allAddrs ((rowAddrs ea (rgPitch (rdN u (b.toNat + 1))) rows fun r => 4 * r.need).map fun x => x.1) = .ok l)
    (hb : coreLoads q (((fullRows rows).zip l).map fun x => (x.2, 4 * x.1.need)) u = .ok bs t) :
    exec (.vldr h ty q d a b e imm) s = .next (goesOn h (advanceTable (upCur t fun c =>
      kset (vsetList c d.toNat (placeRows (etyBits ty) ((fullRows rows).zip bs))) e.toNat (rowMask .start rows)) b used)) := by
  change execVldr h ty q d a b e imm s = _
  refine runEff_done hr ?_
  rw [effAddrOr_ok hea, hp]
  exact effRows_ok hl hb

theorem exec_vstr (hea : effAddr (rd (atHand s h) a) imm.toInt = some ea) (hp : ragged (atHand s h) ty false ea b = .ok (rows, used) u)
    (hl : allAddrs ((rowAddrs ea (rgPitch (rdN u (b.toNat + 1))) rows fun r => r.len * etyBits ty / 8).map fun x => x.1) = .ok l)
    (hb : coreStores (((fullRows rows).zip l).map fun x =>
      (x.2, ((regBytes (curCore u) e.toNat).drop (4 * x.1.el)).take (x.1.len * etyBits ty / 8))) u = .ok () t) :
    exec (.vstr h ty a b e imm) s = .next (goesOn h (advanceTable t b used)) := by
  change execVstr h ty a b e imm s = _
  refine runEff_done hr ?_
  rw [effAddrOr_ok hea, hp]
  exact effRows_ok hl hb

theorem exec_krl {v : KrlVar} (hp : ragged (atHand s h) ty false (rd (atHand s h) b).toNat b = .ok (rows, used) t) :
    exec (.krl h v ty d b) s = .next (goesOn h (upCur t fun c => kset c d.toNat (rowMask v rows))) := by
  change execKrl h v ty d b s = _
  refine runEff_done hr ?_
  rw [hp]
  rfl
end

/-! ## Gathers -/

theorem length_loadEach {fresh : Bool} {l : List (Nat × Nat)} {bs : List (List Byte)} (hb : loadEach fresh l s = .ok bs t) :
    bs.length = l.length := by
  induction l generalizing s bs with
  | nil => cases hb; rfl
  | cons p l ih =>
    obtain ⟨a, n⟩ := p
    unfold loadEach at hb
    split at hb
    · next v _ =>
      split at hb
      · next hl => cases hb; rw [List.length_cons, List.length_cons, ih hl]
      · cases hb
      · cases hb
    · cases hb
    · cases hb

theorem length_coreLoads {fresh : Bool} {l : List (Nat × Nat)} {bs : List (List Byte)} (hb : coreLoads fresh l s = .ok bs t) :
    bs.length = l.length := by
  unfold coreLoads at hb
  split at hb
  · cases hb
  · exact length_loadEach hb

/-- The entry that a list of keys gives one of them, paired with their values in order. -/
theorem find?_zip_key {β : Type} (d : β) (e : Nat) (ks : List Nat) : ∀ vs : List β, vs.length = ks.length →
    (ks.zip vs).find? (fun p => p.1 == e) = if e ∈ ks then some (e, vs.getD (ks.idxOf e) d) else none := by
  induction ks with
  | nil => intro vs _; rfl
  | cons k ks ih =>
    rintro (_ | ⟨v, vs⟩) hlen
    · cases hlen
    · by_cases hk : k = e
      · subst hk
        simp
      · rw [List.zip_cons_cons, List.find?_cons_of_neg (by simpa using hk), ih vs (Nat.succ.inj hlen), List.idxOf_cons_ne _ hk]
        simp [Ne.symm hk]

theorem allAddrs_ok {β : Type} (f : β → Nat) (l : List β) : allAddrs (l.map fun x => .ok (f x)) = .ok (l.map f) := by
  unfold allAddrs
  induction l with
  | nil => rfl
  | cons x l ih => rw [List.map_cons, List.foldr_cons, ih]; rfl

/-! ### What fresh loads leave of the vector registers -/

theorem v_upEng (c : Core) (g : Eng) (f : EngSt → EngSt) : (upEng c g f).v = c.v := by
  cases g <;> rfl

theorem keeps_performStore (s : State) (core id : Nat) : Keeps Core.v s (performStore s core id) := by
  have hup (f : Core → Core) (hf : ∀ c, (f c).v = c.v) : Keeps Core.v s (upCore s core f) := keeps_upCore core hf
  unfold performStore
  split
  · exact .refl _ s
  · dsimp only
    split
    · exact hup _ fun _ => rfl
    · refine Keeps.trans ?_ (onlyMem_writeMem _ _).keeps
      exact hup _ fun _ => rfl

theorem keeps_performKeys (s : State) (core : Nat) (keys : List Nat) : Keeps Core.v s (performKeys s core keys) :=
  foldl_rel (R := Keeps Core.v) (.refl _) (fun _ _ _ => .trans) (f := fun s (p : PendSt) => performStore s core p.id)
    (fun s p => keeps_performStore s core p.id) _ s

theorem keeps_loadBytes (s : State) (a : Nat) (keys : List Nat) : Keeps Core.v s (loadBytes s a keys false).2 := by
  have hfold (qs : List (Nat × Nat)) (p : List Byte × State) : Keeps Core.v p.2 (qs.foldl (fun (p : List Byte × State) q =>
      (p.1 ++ ((keys.drop q.1).take q.2).map (homeByte p.2), fillReads p.2 ((keys.drop q.1).take q.2))) p).2 := by
    induction qs generalizing p with
    | nil => exact .refl _ _
    | cons q qs ih => exact (onlyMem_fillAll p.2 _).keeps.trans (ih _)
  exact (keeps_performKeys s s.cur.core keys).trans (hfold _ _)

theorem keeps_keepPart (s : State) (a : Nat) (bs : List Byte) : Keeps Core.v s (keepPart s a bs) := by
  unfold keepPart
  split
  · exact keeps_upEng v_upEng s _ _ _
  · exact .refl _ s

/-- A fresh load that is answered leaves the vector registers. -/
theorem keeps_coreLoad_fresh {a n : Nat} {l : List Byte} (hl : coreLoad s a n true = .ok l t) : Keeps Core.v s t := by
  unfold coreLoad at hl
  dsimp only at hl
  split at hl
  · cases hl
  · split at hl
    · cases hl
    · split at hl
      · cases hl
      · cases hl
      · split at hl
        · cases hl
        · cases hl
          exact (((keeps_loadBytes s _ _).trans (noted_notePages v_upEng _ _ _ _).1).trans (keeps_bumpClk v_upEng _)).trans (keeps_keepPart _ _ _)

theorem keeps_loadEach_fresh {l : List (Nat × Nat)} {bs : List (List Byte)} (hb : loadEach true l s = .ok bs t) : Keeps Core.v s t := by
  induction l generalizing s bs with
  | nil => cases hb; exact .refl _ _
  | cons p l ih =>
    obtain ⟨a, n⟩ := p
    unfold loadEach at hb
    split at hb
    · next hv =>
      split at hb
      · next hl => cases hb; exact (keeps_coreLoad_fresh hv).trans (ih hl)
      · cases hb
      · cases hb
    · cases hb
    · cases hb

theorem v_coreLoads_fresh {l : List (Nat × Nat)} {bs : List (List Byte)} (hb : coreLoads true l s = .ok bs t) : (curCore t).v = (curCore s).v := by
  unfold coreLoads at hb
  split at hb
  · cases hb
  · exact (keeps_loadEach_fresh hb).curCore_eq

/-! ### The word -/

theorem vsetList_v (c : Core) (r : Nat) (l : List (Nat × W32)) : vsetList c r l = { c with v := (vsetList c r l).v } := rfl

/-- The elements that a gather reads, and what stays of its register (R184). -/
def gathered (c : Core) (d : Nat) (on : List Nat) (bs : List (List Byte)) (e : Nat) : W32 :=
  match (on.zip bs).find? (fun p => p.1 == e) with
  | some p => BitVec.ofNat 32 (leNat p.2)
  | none => vget c d e

theorem gathered_eq {c : Core} {on : List Nat} {bs : List (List Byte)} (hlen : bs.length = on.length) (d e : Nat) :
    gathered c d on bs e = if e ∈ on then BitVec.ofNat 32 (leNat (bs.getD (on.idxOf e) [])) else vget c d e := by
  unfold gathered
  rw [find?_zip_key [] e on bs hlen]
  by_cases he : e ∈ on
  · rw [if_pos he, if_pos he]
  · rw [if_neg he, if_neg he]

theorem gathered_pair (c : Core) (d : Nat) (on : List Nat) (bs : List (List Byte)) (e : Nat) : (match (on.zip bs).find? (fun p => p.1 == e) with
    | some p => (e, BitVec.ofNat 32 (leNat p.2))
    | none => (e, vget c d e)) = (e, gathered c d on bs e) := by
  unfold gathered
  split <;> rfl

theorem exec_vldx {ty : ETy} {d a b : Reg} {mk : Option Reg} {imm : W32} {ea : Nat} {bs : List (List Byte)} (hr : Ready s h)
    (hea : effAddr (rd (atHand s h) a) imm.toInt = some ea) (hpad : ea / 2 ^ 48 = 0xFFFE) (hal : ea % 4 = 0)
    (hoff : ∀ i ∈ (List.range 1024).filter (maskOn (curCore (atHand s h)) mk),
      ea % 2 ^ 48 + 4 * (vget (curCore (atHand s h)) b.toNat i).toNat < 2 ^ 26)
    (hb : coreLoads true (((List.range 1024).filter (maskOn (curCore (atHand s h)) mk)).map fun i =>
      (0xFFFE * 2 ^ 48 + (ea % 2 ^ 48 + 4 * (vget (curCore (atHand s h)) b.toNat i).toNat), 4)) (atHand s h) = .ok bs t) :
    exec (.vldx h ty d a b mk imm) s = .next (goesOn h (upCur t fun c => vsetList c d.toNat ((List.range 1024).map fun e =>
      (e, gathered (curCore t) d.toNat ((List.range 1024).filter (maskOn (curCore (atHand s h)) mk)) bs e)))) := by
  change execVldx h ty d a b mk imm s = _
  refine runEff_done hr ?_
  rw [effAddrOr_ok hea]
  dsimp only
  rw [if_neg (not_not.mpr hpad), if_neg (not_not.mpr hal)]
  refine (effRows_ok (t := t) (x := bs) (as := ((List.range 1024).filter (maskOn (curCore (atHand s h)) mk)).map fun i =>
    0xFFFE * 2 ^ 48 + (ea % 2 ^ 48 + 4 * (vget (curCore (atHand s h)) b.toNat i).toNat)) ?_ ?_).trans ?_
  · rw [List.map_map, ← allAddrs_ok]
    exact congrArg allAddrs (List.map_congr_left fun i hi => if_neg (Nat.not_le.mpr (hoff i hi)))
  · rw [List.map_map]
    exact hb
  · refine congrArg Eff.done (upCur_congr (congrArg (vsetList _ _) (List.map_congr_left fun e _ => ?_)))
    generalize (List.range 1024).filter (maskOn (curCore (atHand s h)) mk) = on
    exact gathered_pair _ _ on bs e

theorem vectorMemoryWords_claim : Claim.VectorMemoryWords := by
  intro s h ty q v d a b e mk imm t hr
  refine ⟨fun l rows hl hb => exec_vld hr hl hb, fun l hl hb => exec_vst hr hl hb,
    fun l gs hok hty hl hb => exec_vldSp hr hok hty hl hb, fun l hok hty hl hb => exec_vstSp hr hok hty hl hb,
    fun ea rows used u l bs hea hp hl hb => exec_vldr hr hea hp hl hb, fun ea rows used u l hea hp hl hb => exec_vstr hr hea hp hl hb,
    fun rows used hp => exec_krl hr hp, ?_⟩
  intro ea bs hea hpad hal on off hoff hb
  refine ⟨_, exec_vldx hr hea hpad hal hoff hb, ?_, fun i hi => ?_⟩
  · exact upCur_congr (by rw [curCore_upCur]; exact vsetList_v _ _ _)
  · have hlen : bs.length = on.length := by rw [length_coreLoads hb, List.length_map]
    have hmem : i ∈ on ↔ maskOn (curCore (atHand s h)) mk i = true := List.mem_filter.trans (and_iff_right (List.mem_range.mpr hi))
    rw [curCore_upCur]
    refine (vget_vsetList _ _ _ _ (gathered _ _ on bs) hi).trans ((if_pos rfl).trans ?_)
    rw [gathered_eq hlen]
    simp only [hmem, vget, v_coreLoads_fresh hb]

/-! ## Rows of a tile -/

/-- A row that stays within its handle, at a multiple of 4 (R79, R178). -/
theorem rowAddr_ok {ea n : Nat} {delta : Int} (h0 : 0 ≤ ((ea % 2 ^ 48 : Nat) : Int) + delta) (h1 : ((ea % 2 ^ 48 : Nat) : Int) + delta < 2 ^ 48)
    (h4 : (((ea % 2 ^ 48 : Nat) : Int) + delta) % 4 = 0) :
    rowAddr ea delta n = .ok (ea / 2 ^ 48 * 2 ^ 48 + (((ea % 2 ^ 48 : Nat) : Int) + delta).toNat) := by
  unfold rowAddr toTwos
  dsimp only
  generalize ((ea % 2 ^ 48 : Nat) : Int) + delta = o at *
  rw [if_neg (by omega), Int.emod_eq_of_lt h0 (by exact_mod_cast h1), if_neg (by omega)]

theorem tileAddrs_ok {a b : Reg} {imm : W32} {ea : Nat} (hea : effAddr (rd s a) (tileOffset imm) = some ea)
    (hrow : ∀ row : Nat, row < 16 * groupSize imm → 0 ≤ ((ea % 2 ^ 48 : Nat) : Int) + row * (rd s b).toInt ∧
      ((ea % 2 ^ 48 : Nat) : Int) + row * (rd s b).toInt < 2 ^ 48 ∧ (((ea % 2 ^ 48 : Nat) : Int) + row * (rd s b).toInt) % 4 = 0) :
    tileAddrs s a b imm = .ok ((List.range (16 * groupSize imm)).map fun row : Nat =>
      ea / 2 ^ 48 * 2 ^ 48 + (((ea % 2 ^ 48 : Nat) : Int) + row * (rd s b).toInt).toNat) := by
  unfold tileAddrs tileRows
  rw [hea]
  dsimp only
  rw [List.map_map, ← allAddrs_ok]
  refine congrArg allAddrs (List.map_congr_left fun row hmem => ?_)
  obtain ⟨h0, h1, h4⟩ := hrow row (List.mem_range.mp hmem)
  exact rowAddr_ok h0 h1 h4

/-- A piece of one of some lists of one length, joined. -/
theorem slice_flatten {β : Type} {n k m : Nat} (hkm : k + m ≤ n) (l : List (List β)) (hl : ∀ r ∈ l, r.length = n) : ∀ i, i < l.length →
    (l.flatten.drop (n * i + k)).take m = ((l.getD i []).drop k).take m := by
  induction l with
  | nil => nofun
  | cons r l ih =>
    have hr : r.length = n := hl r List.mem_cons_self
    rintro (_ | i) hi
    · rw [List.flatten_cons, Nat.mul_zero, Nat.zero_add, List.drop_append_of_le_length (by omega), List.take_append_of_le_length (by simp; omega)]
      rfl
    · rw [List.flatten_cons, show n * (i + 1) + k = r.length + (n * i + k) by rw [hr]; ring, List.drop_append,
        List.drop_of_length_le (Nat.le_add_right _ _), List.nil_append, Nat.add_sub_cancel_left]
      exact ih (fun r hr => hl r (List.mem_cons_of_mem _ hr)) i (Nat.lt_of_succ_lt_succ hi)

/-- The elements that rows written into a register group leave in it, register by register. -/
theorem vget_putRows (d : Nat) (rows : List (List Byte)) {e : Nat} (he : e < 1024) (g : Nat) : ∀ i, i < g →
    vget (curCore (putRows s d g rows)) (d + i) e = BitVec.ofNat 32 (leNat (((((rows.drop (16 * i)).take 16).flatten).drop (4 * e)).take 4)) := by
  unfold putRows
  induction g with
  | zero => nofun
  | succ g ih =>
    intro i hi
    rw [List.range_succ, List.foldl_append, List.foldl_cons, List.foldl_nil, curCore_upCur]
    refine (vget_vsetList _ _ _ _ _ he).trans ?_
    by_cases hg : i = g
    · rw [if_pos (by rw [hg]), hg]
    · rw [if_neg (by omega), ih i (by omega)]

theorem leNat_leBytes (n : Nat) : ∀ x, leNat (leBytes n x) = x % 256 ^ n := by
  induction n with
  | zero => exact fun x => (Nat.mod_one x).symm
  | succ n ih =>
    intro x
    rw [leBytes, leNat, ih, BitVec.toNat_ofNat, show 256 ^ (n + 1) = 256 * 256 ^ n from pow_succ' _ _, Nat.mod_mul]

theorem tileRows_claim : Claim.TileRows := by
  refine ⟨?_, fun s d g rows hlen hrows row j hrow hj => ?_, fun c r row j hj => ?_⟩
  · intro s a b imm ea hea at_ g hrow
    refine ⟨_, tileAddrs_ok hea hrow, by rw [List.length_map, List.length_range]; rfl, fun row hlt => ?_⟩
    have hpos : ((((ea % 2 ^ 48 : Nat) : Int) + row * (rd s b).toInt).toNat : Int) = at_ row := Int.toNat_of_nonneg (hrow row hlt).1
    rw [List.getD_eq_getElem?_getD, List.getElem?_map, List.getElem?_range (show row < 16 * groupSize imm from hlt),
      Option.map_some, Option.getD_some, Nat.cast_add, hpos]
  · have hget : ((rows.drop (16 * (row / 16))).take 16).getD (row % 16) [] = rows.getD row [] := by
      rw [List.getD_eq_getElem?_getD, List.getD_eq_getElem?_getD, List.getElem?_take_of_lt (Nat.mod_lt _ (by decide)), List.getElem?_drop,
        Nat.div_add_mod]
    rw [vget_putRows d rows (by omega) g _ (by omega), show 4 * (row % 16 * 64 + j) = 256 * (row % 16) + 4 * j by ring,
      slice_flatten (n := 256) (by omega) _ (fun r hr => hrows r (List.mem_of_mem_drop (List.mem_of_mem_take hr))) _
        (by rw [List.length_take, List.length_drop]; omega), hget]
  · have h := slice_flatten (n := 4) (k := 0) (m := 4) (le_refl 4)
      ((List.range 64).map fun j => leBytes 4 (vget c (r + row / 16) (row % 16 * 64 + j)).toNat)
      (fun x hx => by obtain ⟨i, -, rfl⟩ := List.mem_map.mp hx; exact length_leBytes _ _) j (by simpa using hj)
    rw [Nat.add_zero, List.drop_zero, List.getD_eq_getElem?_getD, List.getElem?_map, List.getElem?_range hj, Option.map_some, Option.getD_some,
      List.take_of_length_le (length_leBytes _ _).le] at h
    rw [groupRow, List.flatMap_def, h, leNat_leBytes]
    exact Nat.mod_eq_of_lt (BitVec.isLt _)

/-- Settles O24: each word by the lemma that carries its accesses out; the rows of a tile by their addresses and their places. -/
theorem vectorMemoryWords : Obligations.VectorMemoryWords := ⟨vectorMemoryWords_claim, tileRows_claim⟩

end Sys2Proof.Machine
end

section
/-! PROOFS. Host accesses and links: what a completion over PCIe gives of a request that notes failing blocks, and what the fill of a read over a
link does to a format window whose stored planes run into its own aperture (R88, R91, R108, R367, R371, R400). -/
namespace Sys2Proof.Machine

/-! ## A host read whose request notes a failing block -/

/-- A read of one byte of the host whose request notes block 0 as failing. Only read data over a port note such blocks; the state's type
does not say so. -/
def failingRead : Req := { id := 0, port := none, home := 8, kind := .read, who := .eng 0 .c, len := 1, fails := [0] }

/-- Core 0, whose C engine waits for that read. -/
def awaitingRead : State :=
  { State.reset with cores := [(0, { ec := { reply := { tags := [0] } } })], reqs := [failingRead] }

theorem got_landRead_awaitingRead :
    SMap.get none (engSt (coreAt (landRead awaitingRead failingRead [7]) 0) .c).reply.got (remoteBase 8 0) = none := by decide +kernel

/-- Refutes O46: the completion of `failingRead` brings one byte, and the engine that waits for it does not get that byte, since the request
notes its block as failing; the statement has no premise on such notes. -/
theorem not_hostAccesses : ¬ Obligations.HostAccesses := by
  rintro ⟨-, hanswers, -⟩
  obtain ⟨hread, -⟩ := hanswers awaitingRead 0 0 .c failingRead [7] rfl rfl List.mem_cons_self
  obtain ⟨t, hout, -, hgot⟩ := hread rfl
  have ht : landRead awaitingRead failingRead [7] = t := Host.Outcome.next.inj hout
  have hbyte : SMap.get none (engSt (coreAt t 0) .c).reply.got (remoteBase 8 0) = some 7 := hgot 0 Nat.zero_lt_one
  rw [← ht, got_landRead_awaitingRead] at hbyte
  cases hbyte

/-! ## A read over a link of a window that overlaps its own aperture -/

/-- Module 0 with the peer 1 behind port 0 and `overlappingWindow`; the scales of its stored blocks 0 and 32 are 1, and element 0 of block 0 is
−128. -/
def linkedOverlap : State :=
  { State.reset with
    stage := 2
    ports := [(0, { up := true, peer := 1 })]
    wins := [(0, overlappingWindow)]
    mem := [(4096, 0x80), (4097, 0x3F), (4160, 0x80), (4161, 0x3F), (apBase - 4096, 1)] }

/-- The peer's read of the first byte of the aperture. -/
def apertureRead : Flit := { src := 1, addr := apBase, len := 1 }

theorem taken_apertureRead : Taken linkedOverlap 0 apertureRead := by unfold Taken; decide +kernel

theorem rdByte_linkedOverlap : rdByte linkedOverlap decodedByte = 0 := by decide +kernel

/-- The fill of block 0 changes the code of block 32. -/
theorem rdByte_flitReadRequest_linkedOverlap : rdByte (flitReadRequest 0 apertureRead linkedOverlap) decodedByte = 0xC3 := by decide +kernel

/-- Refutes O49: a read of the peer fills the block of the aperture that it reads, whose decoded values in `linkedOverlap` are the stored codes of
another block, so that a byte of that one reads differently afterwards; the statement has a read leave every byte as it is. -/
theorem not_linksBetweenModules : ¬ Obligations.LinksBetweenModules := by
  rintro ⟨hrequests, -⟩
  obtain ⟨-, -, -, -, -, hread, -⟩ := hrequests linkedOverlap 0 apertureRead taken_apertureRead
  obtain ⟨t, hout, hsame, -⟩ := hread.1 (by decide +kernel)
  have ht : flitReadRequest 0 apertureRead linkedOverlap = t := Host.Outcome.next.inj hout
  have h0 : (0 : Byte) = 0xC3 :=
    calc (0 : Byte) = rdByte linkedOverlap decodedByte := rdByte_linkedOverlap.symm
      _ = rdByte t decodedByte := (hsame decodedByte).1.symm
      _ = 0xC3 := by rw [← ht]; exact rdByte_flitReadRequest_linkedOverlap
  exact absurd h0 (by decide)

end Sys2Proof.Machine
end

section
/-! PROOFS. Fences, phases and barriers (R44, R103, R104, R159, R160, R162): each by what its effect gives at the words' hand. -/
namespace Sys2Proof.Machine

variable {s t : State} {h : Hd}

/-! ## Words that wait or fail at their effect -/

theorem runEff_stall {eff : State → Eff} {k d o : Nat} (hr : Ready s h) (he : eff (atHand s h) = .stall k d o t) :
    runEff s h eff = .next (upCurEng t fun e => { waitOn t.tick e k d o with issued := true }) :=
  runWord_stall (w := { eff := eff }) hr he

theorem runEff_fatal {eff : State → Eff} {f : FInfo} (hr : Ready s h) (he : eff (atHand s h) = .fatal f t) :
    runEff s h eff = .next (fatalHere t f) :=
  runWord_fatal (w := { eff := eff }) hr he

/-- An engine whose word waits reports what it waits on and keeps its issue (R142, R322). -/
theorem curEng_stalled (s : State) (k d o : Nat) :
    (curEng (upCurEng s fun e => { waitOn s.tick e k d o with issued := true })).wait.kind = k ∧
    (curEng (upCurEng s fun e => { waitOn s.tick e k d o with issued := true })).issued = true := by
  rw [curEng_upCurEng]
  exact ⟨wait_waitOn _ _ _ _ _, rfl⟩

/-! ## Fences and phases -/

/-- One fence token of the executing core set. -/
def setFence (s : State) (n : Nat) (f : Fence) : State := upCur s fun c => { c with fences := SMap.set {} c.fences n f }

theorem setFence_spec (s : State) (n : Nat) (f : Fence) :
    setFence s n f = upCur s (fun c => { c with fences := (curCore (setFence s n f)).fences }) ∧
    SMap.get {} (curCore (setFence s n f)).fences n = f := by
  have hc : (curCore (setFence s n f)).fences = SMap.set {} (curCore s).fences n f := by rw [setFence, curCore_upCur]
  rw [hc]
  exact ⟨rfl, SMap.get_set_same _ _ _ _⟩

theorem scopeCode_eq_zero (sc : Scope) : scopeCode sc = 0 ↔ sc = .core := by
  cases sc <;> decide

theorem fencesAndPhases : Claim.FencesAndPhases := by
  intro s h cl sc d a imm hr p f
  refine ⟨⟨_, runEff_done hr rfl, setFence_spec p _ _⟩, fun hdone => ?_, fun hpend hwide => ?_, fun hdone => ?_, fun hst hsc => ?_⟩
  · refine ⟨_, runEff_done hr (if_neg ?_), setFence_spec p _ _⟩
    change ¬ (f.ids.any (pendingId (curCore p)) && !(f.cls == 0 && coreScope f.scope)) = true
    rcases hdone with hdone | ⟨hcls, hscope⟩
    · simp [hdone]
    · simp [hcls, hscope, coreScope]
  · refine runEff_stall hr (if_pos ?_)
    change (f.ids.any (pendingId (curCore p)) && !(f.cls == 0 && coreScope f.scope)) = true
    rw [hpend]
    simpa [coreScope, ← imp_iff_not_or] using hwide
  · refine runEff_done hr (if_pos ?_)
    change ((storesBefore p).isEmpty || coreScope (scopeCode sc)) = true
    rcases hdone with hdone | rfl
    · simp [hdone]
    · simp [coreScope, (scopeCode_eq_zero _).mpr rfl]
  · refine runEff_stall hr (if_neg ?_)
    change ¬ ((storesBefore p).isEmpty || coreScope (scopeCode sc)) = true
    simp [hst, coreScope, scopeCode_eq_zero, hsc]

/-! ## Barriers -/

theorem bars_arriveBar (s : State) (tid n k : Nat) :
    SMap.get {} (teamAt (arriveBar s tid n) tid).bars k =
      let b := SMap.get {} (teamAt s tid).bars n
      if n = k then (if (teamAt s tid).cores.length + b.extra ≤ b.arr + 1 then { g := b.g + 1 } else { b with arr := b.arr + 1 })
      else SMap.get {} (teamAt s tid).bars k := by
  rw [arriveBar, teamAt_upTeam, if_pos rfl]
  exact SMap.get_set _ _ _ _ _

/-- An arrival at a barrier: the core's round, then the team's count (R162). -/
def arrived (p : State) (n : Nat) : State :=
  let q := upCur p fun c => { c with bround := SMap.set 0 c.bround n ((barAt p n).g + 1) }
  arriveBar q (curCore q).tid n

theorem curCore_arrived (p : State) (n : Nat) :
    curCore (arrived p n) = { curCore p with bround := SMap.set 0 (curCore p).bround n ((barAt p n).g + 1) } :=
  (curCore_upCur p _ : curCore (upCur p fun c => { c with bround := SMap.set 0 c.bround n ((barAt p n).g + 1) }) = _)

theorem curTeam_arrived (p : State) (n k : Nat) :
    SMap.get {} (curTeam (arrived p n)).bars k =
      let b := barAt p n
      if n = k then (if (curTeam p).cores.length + b.extra ≤ b.arr + 1 then { g := b.g + 1 } else { b with arr := b.arr + 1 })
      else barAt p k := by
  have htid : (curCore (upCur p fun c => { c with bround := SMap.set 0 c.bround n ((barAt p n).g + 1) })).tid = (curCore p).tid := by
    rw [curCore_upCur]
  have hbars := bars_arriveBar (upCur p fun c => { c with bround := SMap.set 0 c.bround n ((barAt p n).g + 1) }) (curCore p).tid n k
  rw [curTeam, curCore_arrived, arrived, htid]
  exact hbars

theorem barrierRounds : Claim.BarrierRounds := by
  intro s h imm hr p n own b
  refine ⟨fun hbar => ?_, fun hbar hown => ?_, fun hbar hown => ?_, fun hbar hown hst => ?_⟩
  · exact ⟨runEff_fatal hr (if_pos hbar), runEff_fatal hr (if_pos hbar)⟩
  · exact ⟨_, runEff_stall hr ((if_neg (Nat.not_le.mpr hbar)).trans (if_pos hown)),
      runEff_stall hr ((if_neg (Nat.not_le.mpr hbar)).trans (if_pos hown)), curEng_stalled _ _ _ _⟩
  · exact runEff_done hr ((if_neg (Nat.not_le.mpr hbar)).trans (if_neg (Nat.not_lt.mpr hown)))
  · refine ⟨arrived p n, runEff_done hr (((if_neg (Nat.not_le.mpr hbar)).trans (if_neg (Nat.not_lt.mpr hown))).trans (if_neg ?_)), ?_, ?_, ?_⟩
    · change ¬ (storesBefore p).any scratchStore = true
      rw [hst]; decide
    · rw [curCore_arrived]
      exact SMap.get_set_same 0 (curCore p).bround n ((barAt p n).g + 1)
    · exact (curTeam_arrived p n n).trans (if_pos rfl)
    · exact fun k hk => (curTeam_arrived p n k).trans (if_neg (Ne.symm hk))

/-- Settles O9: fences and phases by whether what they cover is pending, barriers by whether the core's round is complete. -/
theorem fencesPhasesAndBarriers : Obligations.FencesPhasesAndBarriers := ⟨fencesAndPhases, barrierRounds⟩

end Sys2Proof.Machine
end

section
/-! PROOFS. The values that atomics write (R107): exact integers of the operands' width, signed for I types. -/
namespace Sys2Proof.Machine

/-! ## Numbers of a width -/

/-- The least number of `w` bits. -/
def leastOf (w : Nat) (sg : Bool) : Int := if sg then -(2 ^ (w - 1) : Nat) else 0

variable {w x : Nat} {sg : Bool}

theorem two_pow_half (hw : 0 < w) : (2 ^ w : Nat) = 2 * 2 ^ (w - 1) := by
  rw [← pow_succ', Nat.sub_add_cancel hw]

theorem ofTwos_bounds (hw : 0 < w) (hx : x < 2 ^ w) : leastOf w sg ≤ ofTwos w sg x ∧ ofTwos w sg x < leastOf w sg + (2 ^ w : Nat) := by
  have h2 := two_pow_half hw
  cases sg
  · simp only [leastOf, ofTwos, Bool.false_and, Bool.false_eq_true, if_false]
    omega
  · simp only [leastOf, ofTwos, Bool.true_and, if_true, decide_eq_true_eq]
    split <;> omega

theorem ofTwos_toTwos (hw : 0 < w) {y : Int} (hlo : leastOf w sg ≤ y) (hhi : y < leastOf w sg + (2 ^ w : Nat)) :
    ofTwos w sg (toTwos w y) = y := by
  have h2 := two_pow_half hw
  have hpos : 0 < 2 ^ (w - 1) := Nat.two_pow_pos _
  have hmod : y % (2 ^ w : Nat) = if 0 ≤ y then y else y + (2 ^ w : Nat) := by
    cases sg <;> simp only [leastOf, Bool.false_eq_true, if_false, if_true] at hlo hhi
    · rw [if_pos hlo]
      exact Int.emod_eq_of_lt hlo (by omega)
    · split
      · exact Int.emod_eq_of_lt ‹_› (by omega)
      · rw [← Int.add_emod_right]
        exact Int.emod_eq_of_lt (by omega) (by omega)
  cases sg <;> simp only [leastOf, ofTwos, toTwos, hmod, Bool.false_and, Bool.true_and, Bool.false_eq_true, if_false, if_true,
    decide_eq_true_eq] at hlo hhi ⊢
  · rw [if_pos hlo]
    exact Int.toNat_of_nonneg hlo
  · split <;> split <;> omega

theorem toTwos_lt (w : Nat) (y : Int) : toTwos w y < 2 ^ w := by
  have hpos : (0 : Int) < (2 ^ w : Nat) := by exact_mod_cast Nat.two_pow_pos w
  have h1 := Int.emod_nonneg y hpos.ne'
  have h2 := Int.emod_lt_of_pos y hpos
  unfold toTwos
  omega

theorem ofTwos_eq_toInt (hw : 0 < w) (hx : x < 2 ^ w) : ofTwos w sg x = if sg then (BitVec.ofNat w x).toInt else (x : Int) := by
  have h2 := two_pow_half hw
  cases sg
  · rfl
  · simp only [ofTwos, Bool.true_and, if_true, decide_eq_true_eq, BitVec.toInt_eq_toNat_cond, BitVec.toNat_ofNat, Nat.mod_eq_of_lt hx]
    split <;> split <;> omega

/-! ## The new values -/

theorem atNew_lt (op : AtOp) (ty : ETy) {old v v2 : Nat} (ho : old < 2 ^ w) (hv : v < 2 ^ w) (hv2 : v2 < 2 ^ w) : atNew op ty w old v v2 < 2 ^ w := by
  cases op with
  | add => exact Nat.mod_lt _ (Nat.two_pow_pos w)
  | and => exact Nat.and_lt_two_pow old hv
  | or => exact Nat.or_lt_two_pow ho hv
  | xor => exact Nat.xor_lt_two_pow ho hv
  | xchg => exact hv
  | min | max | cas | cas128 => simp only [atNew]; split <;> assumption
  | incb => simp only [atNew]; split <;> [exact toTwos_lt _ _; exact ho]
  | addb => exact toTwos_lt _ _

theorem atomicValues : Claim.AtomicValues := by
  intro ty w old v v2 hw ho hv hv2 num new
  have hnum (x : Nat) (hx : x < 2 ^ w) : num x = ofTwos w (etySigned ty) x := (ofTwos_eq_toInt hw hx).symm
  have hnew (op : AtOp) : new op < 2 ^ w := atNew_lt op ty ho hv hv2
  have bo := ofTwos_bounds (sg := etySigned ty) hw ho
  have bv := ofTwos_bounds (sg := etySigned ty) hw hv
  have bv2 := ofTwos_bounds (sg := etySigned ty) hw hv2
  refine ⟨rfl, rfl, rfl, rfl, rfl, ?_, ?_, rfl, rfl, ?_, ?_, hnew⟩
  · rw [hnum _ (hnew _), hnum _ ho, hnum _ hv]
    simp only [new, atNew]
    split <;> omega
  · rw [hnum _ (hnew _), hnum _ ho, hnum _ hv]
    simp only [new, atNew]
    split <;> omega
  · rw [hnum _ (hnew _), hnum _ ho, hnum _ hv]
    simp only [new, atNew]
    split
    · exact ofTwos_toTwos hw (by omega) (by omega)
    · rfl
  · rw [hnum _ (hnew _), hnum _ ho, hnum _ hv, hnum _ hv2]
    exact ofTwos_toTwos hw (by omega) (by omega)

end Sys2Proof.Machine
end

section
/-! PROOFS. Atomics (R79, R107, R152, R153): what the stores that perform before one leave, and its one read and write. -/
namespace Sys2Proof.Machine

variable {s t u : State} {α : Type} {F : Core → α}

/-! ## What stores that perform leave -/

theorem Keeps.comp {β : Type} (h : Keeps F s t) (G : α → β) : Keeps (fun c => G (F c)) s t := by
  obtain ⟨hc, hh, hn⟩ := h
  exact ⟨hc, hh, fun n => congrArg G (hn n)⟩

/-- What a store that performs does: it leaves its core's list and some lines of L1, and, on this module, its bytes outside the queue page
are written. -/
theorem performStore_cases (s : State) (core id : Nat) : performStore s core id = s ∨
    ∃ p ∈ (coreAt s core).stq, ∃ lines : Core → List L1Line,
      let t := upCore s core fun c => { c with stq := c.stq.filter (fun q => q.id != id), l1 := lines c }
      performStore s core id = t ∨ performStore s core id = writeMem t (p.bytes.filter fun b => !inPage b.1) := by
  unfold performStore
  split
  · exact .inl rfl
  · next p hp =>
    refine .inr ⟨p, List.mem_of_find?_eq_some hp,
      fun c => c.l1.filter (fun l => !(p.bytes.any (fun b => b.1 / 128 == l.phys) || l.dev == p.addr / 128)), ?_⟩
    dsimp only
    split
    · exact .inl rfl
    · exact .inr rfl

theorem keeps_performStore_of (hF : ∀ (c : Core) q l, F { c with stq := q, l1 := l } = F c) (s : State) (core id : Nat) :
    Keeps F s (performStore s core id) := by
  rcases performStore_cases s core id with h | ⟨p, -, lines, h | h⟩ <;> rw [h]
  · exact .refl F s
  · exact keeps_upCore core fun c => hF c _ _
  · exact (keeps_upCore core fun c => hF c _ _).trans (onlyMem_writeMem _ _).keeps

theorem keeps_performKeys_of (hF : ∀ (c : Core) q l, F { c with stq := q, l1 := l } = F c) (s : State) (core : Nat) (keys : List Nat) :
    Keeps F s (performKeys s core keys) :=
  foldl_rel (R := Keeps F) (.refl F) (fun _ _ _ => .trans) (f := fun s (p : PendSt) => performStore s core p.id)
    (fun s p => keeps_performStore_of hF s core p.id) _ s

/-- A location of the module's own memory that no store waiting at a core changes: none writes it, or it is the queue page's. -/
def Unstored (s : State) (core k : Nat) : Prop :=
  ¬ (apBase ≤ k ∧ k < apTop) ∧ (inPage k = true ∨ ∀ p ∈ (coreAt s core).stq, ∀ b ∈ p.bytes, b.1 ≠ k)

/-- Stores that wait at a core perform: others wait on, and only bytes that they write change. -/
def Performs (core : Nat) (s t : State) : Prop :=
  (∀ n, ∀ p ∈ (coreAt t n).stq, p ∈ (coreAt s n).stq) ∧ ∀ k, Unstored s core k → rdByte t k = rdByte s k

theorem Performs.refl (core : Nat) (s : State) : Performs core s s := ⟨fun _ _ hp => hp, fun _ _ => rfl⟩

theorem Performs.trans {core : Nat} (h : Performs core s t) (k : Performs core t u) : Performs core s u := by
  obtain ⟨hq, hb⟩ := h
  obtain ⟨kq, kb⟩ := k
  exact ⟨fun n p hp => hq n p (kq n p hp), fun x hx => (kb x ⟨hx.1, hx.2.imp_right fun hs p hp => hs p (hq _ p hp)⟩).trans (hb x hx)⟩

theorem performs_performStore (s : State) (core id : Nat) : Performs core s (performStore s core id) := by
  have hgone (lines : Core → List L1Line) : Performs core s
      (upCore s core fun c => { c with stq := c.stq.filter (fun q => q.id != id), l1 := lines c }) := by
    refine ⟨fun n x hx => ?_, fun _ _ => rfl⟩
    rw [coreAt_upCore] at hx
    split at hx
    · next hn => exact hn ▸ (List.mem_filter.mp hx).1
    · exact hx
  rcases performStore_cases s core id with h | ⟨p, hp, lines, h | h⟩ <;> rw [h]
  · exact .refl core s
  · exact hgone lines
  · refine ⟨fun n x hx => (hgone lines).1 n x (by rwa [coreAt, cores_writeMem] at hx), fun k hk => ?_⟩
    refine (rdByte_writeMem_ne _ _ hk.1 fun q hq hqk => ?_).trans ((hgone lines).2 k hk)
    obtain ⟨hqm, hqp⟩ := List.mem_filter.mp hq
    rcases hk.2 with hpage | hfree
    · rw [hqk, hpage] at hqp
      cases hqp
    · exact hfree p hp q hqm hqk

theorem performs_foldl (core : Nat) (l : List PendSt) (s : State) : Performs core s (l.foldl (fun s p => performStore s core p.id) s) :=
  foldl_rel (R := Performs core) (.refl core) (fun _ _ _ => .trans) (fun s p => performs_performStore s core p.id) l s

theorem performs_performKeys (s : State) (core : Nat) (keys : List Nat) : Performs core s (performKeys s core keys) := performs_foldl core _ s

/-! ## What page notes leave of the queue page -/

theorem rdByte_loadPte_ne (s : State) (w : Who) (at_ : Nat) {k : Nat} (ha : ¬ (apBase ≤ k ∧ k < apTop)) (hk : k ≠ at_ + 8) :
    rdByte (loadPte s w at_) k = rdByte s k := by
  have hmark (f : Byte → Byte) : rdByte (markPte s at_ f) k = rdByte s k := by
    unfold markPte
    split
    · rfl
    · exact rdByte_writeMem_ne s _ ha fun q hq hqk => hk (hqk ▸ congrArg Prod.fst (List.mem_singleton.mp hq))
  unfold loadPte
  dsimp only
  split
  · rw [rdByte_holdPte, hmark]
  · rfl

theorem rdByte_notePage_ne (s : State) (w : Who) (sh : Bool) (a : Nat) {k : Nat} (ha : ¬ (apBase ≤ k ∧ k < apTop)) (hk : ¬ pageMark s w sh a k) :
    rdByte (notePage s w sh a) k = rdByte s k := by
  unfold notePage
  split
  · rfl
  · next e he =>
    split
    · rfl
    · have hfirst := rdByte_loadPte_ne s w (pteAddr (backing e sh) (a % 2 ^ 48)) ha fun h => hk ⟨e, he, .inl h⟩
      dsimp only
      split
      · exact (rdByte_loadPte_ne _ w _ ha fun h => hk ⟨e, he, .inr h⟩).trans hfirst
      · exact hfirst

theorem rdByte_notePages_ne (s : State) (w : Who) (a n : Nat) {k : Nat} (ha : ¬ (apBase ≤ k ∧ k < apTop)) (hk : ¬ markedBy s w a n k) :
    rdByte (notePages s w false a n) k = rdByte s k := by
  have hfirst := rdByte_notePage_ne s w false a ha fun ⟨e, he, h⟩ => hk ⟨a, e, .inl rfl, he, h⟩
  unfold notePages
  dsimp only
  split
  · exact hfirst
  · refine (rdByte_notePage_ne _ w false _ ha fun ⟨e, he, h⟩ => hk ⟨_, e, .inr rfl, ?_, h⟩).trans hfirst
    rwa [(noted_notePage issueView_upEng s w false a).1.htAt_eq] at he

/-! ## Bytes of a number -/

theorem leNat_lt (l : List Byte) : leNat l < 256 ^ l.length := by
  induction l with
  | nil => exact Nat.one_pos
  | cons b l ih =>
    have hb : b.toNat < 256 := b.isLt
    rw [leNat, List.length_cons, pow_succ']
    omega

theorem ofNat_leNat_div (l : List Byte) : ∀ i, i < l.length → BitVec.ofNat 8 (leNat l / 256 ^ i) = l.getD i 0 := by
  induction l with
  | nil => exact fun i hi => absurd hi (Nat.not_lt_zero i)
  | cons b l ih =>
    have hb : b.toNat < 256 := b.isLt
    intro i hi
    cases i with
    | zero =>
      apply BitVec.eq_of_toNat_eq
      rw [pow_zero, Nat.div_one, BitVec.toNat_ofNat, leNat, List.getD_cons_zero]
      omega
    | succ i =>
      rw [List.getD_cons_succ, ← ih i (Nat.lt_of_succ_lt_succ hi), leNat, pow_succ', ← Nat.div_div_eq_div_mul]
      congr 2
      omega

theorem getD_leBytes (n : Nat) : ∀ x i, i < n → (leBytes n x).getD i 0 = BitVec.ofNat 8 (x / 256 ^ i) := by
  induction n with
  | zero => exact fun x i hi => absurd hi (Nat.not_lt_zero i)
  | succ n ih =>
    intro x i hi
    cases i with
    | zero => rw [leBytes, List.getD_cons_zero, pow_zero, Nat.div_one]
    | succ i => rw [leBytes, List.getD_cons_succ, ih _ i (Nat.lt_of_succ_lt_succ hi), pow_succ', Nat.div_div_eq_div_mul]

theorem two_pow_eight_mul (i : Nat) : 2 ^ (8 * i) = 256 ^ i := by rw [pow_mul]; rfl

/-! ## One read and write -/

/-- The state that an atomic reads: the pages of its access noted, the core's own stores to its bytes performed, its lines filled. -/
def atomicRead (s : State) (a n : Nat) (keys : List Nat) : State :=
  fillReads (performKeys (notePages s (curWho s .core) false a n) s.cur.core keys) keys

/-- The value that an atomic finds. -/
def atomicOld (s : State) (a n : Nat) (keys : List Nat) : Nat := leNat (keys.map (rdByte (atomicRead s a n keys)))

/-- The state that an atomic leaves which writes `v`. -/
def atomicDone (s : State) (a n : Nat) (keys : List Nat) (v : Nat) : State :=
  let t := newChecks (wrBytes (atomicRead s a n keys) ((keys.zip (leBytes n v)).filter (fun b => !inPage b.1))) keys
  bumpClk (dropLines t t.cur.core a n keys)

theorem headD_mem {l : List Nat} {n : Nat} (hl : l.length = n) (hn : 0 < n) : l.headD 0 ∈ l := by
  cases l with
  | nil => exact absurd hl.symm hn.ne'
  | cons k l => exact List.mem_cons_self

/-- An atomic on bytes of this module that no window decodes and whose checks hold is answered at once. -/
theorem coreAtomic_local (op : AtOp) (ty : ETy) {a n : Nat} (v v2 : Nat) {keys : List Nat} (hn : 0 < n) (ha : a % n = 0)
    (hx : xlateRange s (curWho s .core) .a false a n = .ok keys) (hk : ∀ k ∈ keys, isRemote k = false ∧ ¬ (apBase ≤ k ∧ k < apTop))
    (hb : ∀ k ∈ keys, badByte s k = false) (hw : badWrite s keys = none) :
    coreAtomic s op ty a n v v2 = .ok (some (atomicOld s a n keys)) (atomicDone s a n keys (atNew op ty (8 * n) (atomicOld s a n keys) v v2)) := by
  obtain ⟨hlocal, hplain⟩ := hk _ (headD_mem (length_xlateRange hx) hn)
  have hgood : keys.find? (fun k => badByte s k) = none := List.find?_eq_none.mpr fun k hm => by rw [hb k hm]; decide
  unfold coreAtomic
  dsimp only
  rw [if_neg (not_not.mpr ha), hx]
  dsimp only
  rw [if_neg hplain, hlocal, Bool.false_and, if_neg Bool.false_ne_true, if_neg Bool.false_ne_true, hgood, hw]
  rfl

section
variable (s) (a n : Nat) (keys : List Nat)

theorem keeps_atomicRead (hF : ∀ (c : Core) q l, F { c with stq := q, l1 := l } = F c) (hE : ∀ c g f, F (upEng c g f) = F c) :
    Keeps F s (atomicRead s a n keys) :=
  ((noted_notePages hE s _ a n).1.trans (keeps_performKeys_of hF _ _ _)).trans (onlyMem_fillAll _ _).keeps

/-- What an atomic reads is as before but for the core's own stores and the marks of its pages. -/
theorem rdByte_atomicRead {k : Nat} (hk : Unstored s s.cur.core k) (hm : ¬ markedBy s (curWho s .core) a n k) :
    rdByte (atomicRead s a n keys) k = rdByte s k := by
  have hnote := noted_notePages (F := Core.stq) (fun c g f => by cases g <;> rfl) s (curWho s .core) a n
  have hun : Unstored (notePages s (curWho s .core) false a n) s.cur.core k := ⟨hk.1, by rw [hnote.1.2.2]; exact hk.2⟩
  exact (rdByte_fillAll _ _ hk.1).trans (((performs_performKeys _ _ _).2 k hun).trans (rdByte_notePages_ne s _ a n hk.1 hm))

theorem getScal_atomicDone (v : Nat) : getScal (curCore (atomicDone s a n keys v)) = getScal (curCore s) := by
  have hread : Keeps getScal s (atomicRead s a n keys) := keeps_atomicRead s a n keys (fun c _ _ => funext fun g => by cases g <;> rfl)
    fun c g f => funext fun k => funext fun r => getScal_upEng c g k f r
  have hwritten : OnlyMem (atomicRead s a n keys)
      (newChecks (wrBytes (atomicRead s a n keys) ((keys.zip (leBytes n v)).filter (fun b => !inPage b.1))) keys) :=
    .trans _ _ _ (onlyMem_wrBytes _ _) rfl
  exact (((hread.trans hwritten.keeps).trans ((keeps_dropLines _ _ _ _ _).comp Prod.snd)).trans
    (keeps_bumpClk (fun c g f => funext fun k => funext fun r => getScal_upEng c g k f r) _)).curCore_eq

theorem rdByte_atomicDone_ne (v : Nat) {k : Nat} (hk : ¬ (apBase ≤ k ∧ k < apTop)) (hne : k ∉ keys ∨ inPage k = true) :
    rdByte (atomicDone s a n keys v) k = rdByte (atomicRead s a n keys) k := by
  refine rdByte_wrBytes_ne _ _ k hk fun q hq hqk => ?_
  obtain ⟨hqm, hqp⟩ := List.mem_filter.mp hq
  rcases hne with hne | hne
  · exact hne (hqk ▸ (List.of_mem_zip hqm).1)
  · rw [hqk, hne] at hqp
    cases hqp

variable {s a n keys} in
theorem rdByte_atomicDone_mem {v : Nat} (hlen : keys.length = n) (hnd : keys.Nodup) (hheld : ∀ k ∈ keys, held k) {k : Nat} (hk : k ∈ keys) :
    rdByte (atomicDone s a n keys v) k = BitVec.ofNat 8 (v / 2 ^ (8 * keys.idxOf k)) := by
  have hi : keys.idxOf k < keys.length := List.idxOf_lt_length_of_mem hk
  have hfst : (keys.zip (leBytes n v)).map (·.1) = keys := List.map_fst_zip (by rw [length_leBytes, hlen])
  have hmem : (k, (leBytes n v).getD (keys.idxOf k) 0) ∈ (keys.zip (leBytes n v)).filter fun b => !inPage b.1 := by
    refine List.mem_filter.mpr ⟨List.mem_iff_getElem.mpr ⟨keys.idxOf k, ?_, ?_⟩, by rw [(hheld k hk).2]; rfl⟩
    · rw [List.length_zip, length_leBytes, hlen, Nat.min_self]
      exact hlen ▸ hi
    · rw [List.getElem_zip, List.getElem_idxOf, List.getD_eq_getElem]
  refine (rdByte_wrBytes_mem _ (atomicRead s a n keys) (List.Nodup.sublist ?_ (hfst ▸ hnd)) (fun p hp => ?_) _ hmem).trans ?_
  · exact List.filter_sublist.map _
  · exact (hheld _ (List.of_mem_zip (List.mem_filter.mp hp).1).1).1
  · rw [getD_leBytes n v _ (hlen ▸ hi), two_pow_eight_mul]
end

theorem atomicReadsAndWritesOnce : Claim.AtomicReadsAndWritesOnce := by
  intro s op ty a n v v2 hn
  refine ⟨fun ha => ?_, fun keys ha hx hnd hk hw => ?_, fun keys ha hx hk hb hw => ?_⟩
  · unfold coreAtomic
    exact if_pos ha
  · have hlen := length_xlateRange hx
    refine ⟨_, _, coreAtomic_local op ty v v2 hn ha hx (fun k hm => ⟨(hk k hm).1, (hk k hm).2.1.1⟩) (fun k hm => (hk k hm).2.2) hw, ?_, ?_, ?_, ?_, ?_⟩
    · have h := leNat_lt (keys.map (rdByte (atomicRead s a n keys)))
      rwa [List.length_map, hlen, ← two_pow_eight_mul] at h
    · intro k hm hst hmark
      have hi : keys.idxOf k < keys.length := List.idxOf_lt_length_of_mem hm
      have hbyte := ofNat_leNat_div (keys.map (rdByte (atomicRead s a n keys))) (keys.idxOf k) (by rwa [List.length_map])
      rw [List.getD_eq_getElem _ _ (by rwa [List.length_map]), List.getElem_map, List.getElem_idxOf] at hbyte
      rw [two_pow_eight_mul]
      refine hbyte.trans (rdByte_atomicRead s a n keys ⟨(hk k hm).2.1.1, .inr fun p hp b hb hbk => hst ⟨p, hp, b, hb, hbk⟩⟩ hmark)
    · exact fun k hm => rdByte_atomicDone_mem hlen hnd (fun k hm => (hk k hm).2.1) hm
    · intro k hheld hm hst hmark
      exact (rdByte_atomicDone_ne s a n keys _ hheld.1 (.inl hm)).trans
        (rdByte_atomicRead s a n keys ⟨hheld.1, .inr fun p hp b hb hbk => hst ⟨p, hp, b, hb, hbk⟩⟩ hmark)
    · exact fun g r => congrFun (congrFun (getScal_atomicDone s a n keys _) g) r
  · have hlocal (k : Nat) (hm : k ∈ keys) : isRemote k = false ∧ ¬ (apBase ≤ k ∧ k < apTop) := by
      refine ⟨decide_eq_false ?_, not_aperture_of_inPage (hk k hm)⟩
      have hpage := beq_iff_eq.mp (hk k hm)
      omega
    refine ⟨_, _, coreAtomic_local op ty v v2 hn ha hx hlocal hb hw, fun k hpage hmark => ?_⟩
    exact (rdByte_atomicDone_ne s a n keys _ (not_aperture_of_inPage hpage) (.inr hpage)).trans
      (rdByte_atomicRead s a n keys ⟨not_aperture_of_inPage hpage, .inl hpage⟩ hmark)

/-! ## The words -/

section
variable {h : Hd} {op : AtOp} {i : Instr} {ty : ETy} {d a b e : Reg} {imm : W32}

theorem exec_atomOf (hi : atomOf op h ty d a b e imm = some i) (s : State) : exec i s = atomWord op h ty d a b e imm s := by
  cases op <;> cases hi <;> rfl

theorem atomicsComplete : Claim.AtomicsComplete := by
  intro s h op i ty d a b e imm x hr p n lo hea
  have hlo (k : Nat) : lo 8 k = (rdN p (b.toNat + k)).toNat := Nat.mod_eq_of_lt (BitVec.isLt _)
  refine ⟨fun hi => ?_, ?_⟩
  · rw [exec_atomOf hi]
    refine ⟨fun old t ht => runEff_done hr ?_, fun t ht => runEff_done hr ?_, fun f t ht => runEff_fatal hr ?_⟩
    all_goals
      refine (effAddrOr_ok hea).trans ?_
      change (match coreAtomic p op ty x n (lo n 0) (lo n 1) with | .ok (some _) _ | .ok none _ | .wait _ | .fail _ _ => _) = _
      rw [ht]
  · rw [hlo, hlo, hlo, hlo]
    refine ⟨fun old t ht => runEff_done hr ?_, fun t ht => runEff_done hr ?_⟩
    all_goals
      refine (effAddrOr_ok hea).trans ?_
      rw [Nat.add_zero] at ht
      dsimp only
      rw [show coreAtomic (atHand s h) _ _ _ _ _ _ = _ from ht]
end

/-- Settles O14: what an atomic word makes of its answer, the one read and write behind it, and the values over exact integers. -/
theorem atomicWords : Obligations.AtomicWords := ⟨atomicsComplete, atomicReadsAndWritesOnce, atomicValues⟩

end Sys2Proof.Machine
end

section
/-! PROOFS. Handles and shootdowns (R109, R358–R361, R365): what MAP and BIND write, and what a shootdown that no one else holds up leaves. -/
namespace Sys2Proof.Machine

variable {s t u p : State} {h : Hd} {d a : Reg} {code : Nat} {l : List Byte} {e : HEntry} {α : Type}

theorem gives_privWord {eff : State → Eff} (he : eff (atHand s h) = giveStatus d code t) : Gives s h d (privWord h s eff) code t :=
  fun hr => ⟨fun hf => (if_pos hf).trans (runEff_done hr he), fun hf => if_neg (by rw [hf]; decide)⟩

/-! ## Maps -/

/-- A map whose entries are changed in place, each as its key says. -/
theorem SMap.get_mapKeyed (d : α) {f : Nat → α → α} (hd : ∀ k, f k d = d) (m : SMap α) (k : Nat) :
    SMap.get d (m.map fun p => (p.1, f p.1 p.2)) k = f k (SMap.get d m k) := by
  induction m with
  | nil => exact (hd k).symm
  | cons p m ih =>
    simp only [List.map_cons, SMap.get]
    split
    · next hk => rw [hk]
    · exact ih

/-- A map of which some keys are dropped. -/
theorem SMap.get_filterKeys (d : α) (keep : Nat → Bool) (m : SMap α) (k : Nat) :
    SMap.get d (m.filter fun p => keep p.1) k = if keep k then SMap.get d m k else d := by
  induction m with
  | nil => exact (ite_self _).symm
  | cons p m ih =>
    by_cases hp : p.1 = k
    · by_cases hk : keep k = true
      · rw [List.filter_cons_of_pos (by rw [hp, hk]), SMap.get, SMap.get, if_pos hp, if_pos hp, if_pos hk]
      · rw [List.filter_cons_of_neg (by rwa [hp]), ih, if_neg hk, if_neg hk]
    · rw [SMap.get, if_neg hp, ← ih]
      rw [List.filter_cons]
      split
      · rw [SMap.get, if_neg hp]
      · rfl

/-- An entry of a map in canonical form is what its key reads as. -/
theorem SMap.get_of_mem_wfFrom [DecidableEq α] (d : α) {m : SMap α} {lo : Nat} (hm : SMap.wfFrom d lo m = true) {k : Nat} {v : α} (h : (k, v) ∈ m) :
    lo ≤ k ∧ SMap.get d m k = v := by
  induction m generalizing lo with
  | nil => cases h
  | cons p m ih =>
    obtain ⟨j, w⟩ := p
    simp only [SMap.wfFrom, Bool.and_eq_true, decide_eq_true_eq] at hm
    obtain ⟨⟨hlo, -⟩, hrest⟩ := hm
    obtain heq | hin := List.mem_cons.mp h
    · cases heq
      exact ⟨hlo, if_pos rfl⟩
    · obtain ⟨hj, hget⟩ := ih hrest hin
      exact ⟨by omega, (if_neg (by omega)).trans hget⟩

theorem SMap.mem_or_get_eq (d : α) (m : SMap α) (k : Nat) : (k, SMap.get d m k) ∈ m ∨ (∀ p ∈ m, p.1 ≠ k) ∧ SMap.get d m k = d := by
  induction m with
  | nil => exact .inr ⟨fun p hp => absurd hp List.not_mem_nil, rfl⟩
  | cons p m ih =>
    obtain ⟨j, v⟩ := p
    rw [SMap.get]
    split
    · next hj => exact .inl (hj ▸ List.mem_cons_self)
    · next hj =>
      refine ih.imp (List.mem_cons_of_mem _) fun ⟨hno, hget⟩ => ⟨fun p hp => ?_, hget⟩
      obtain rfl | hp := List.mem_cons.mp hp
      · exact hj
      · exact hno p hp

/-- A range copied within a map in canonical form: each place of it reads as its origin. -/
theorem get_copyMap [DecidableEq α] (d : α) {m : SMap α} (hm : SMap.wf d m = true) (a b : Nat) {n o : Nat} (ho : o < n) :
    SMap.get d (copyMap d m a b n) (b + o) = SMap.get d m (a + o) := by
  rcases SMap.mem_or_get_eq d m (a + o) with hin | ⟨hno, hget⟩
  · refine get_setAll_of_mem d (b + o) _ _ (fun q hq hqk => ?_) _ ⟨_, List.mem_map.mpr ⟨_, List.mem_filter.mpr ⟨hin, ?_⟩, rfl⟩, ?_⟩
    · obtain ⟨q, hqf, rfl⟩ := List.mem_map.mp hq
      obtain ⟨hqm, hqr⟩ := List.mem_filter.mp hqf
      have hrange := of_decide_eq_true hqr
      have hqa : q.1 = a + o := by
        dsimp only at hqk
        omega
      exact (hqa ▸ (SMap.get_of_mem_wfFrom d hm hqm).2).symm
    · exact decide_eq_true (by dsimp only; omega)
    · dsimp only
      omega
  · rw [copyMap, get_setAll_of_not_mem, SMap.get_filterKeys d (fun k => !decide (b ≤ k ∧ k < b + n)), if_neg, hget]
    · rw [decide_eq_true (by omega)]
      decide
    · intro q hq hqk
      obtain ⟨q, hqf, rfl⟩ := List.mem_map.mp hq
      obtain ⟨hqm, hqr⟩ := List.mem_filter.mp hqf
      have hrange := of_decide_eq_true hqr
      refine hno q hqm ?_
      dsimp only at hqk
      omega

/-! ## MAP and BIND -/

theorem onlyMem_equalBackings (s : State) (e : HEntry) : OnlyMem s (equalBackings s e) := by
  unfold equalBackings
  split
  · exact .refl s
  · split
    · rfl
    · refine foldl_rel (R := OnlyMem) .refl .trans (fun s i => ?_) _ s
      split
      · split
        · exact .refl s
        · rfl
      · exact .refl s

/-- The shadow of a tensor-SRAM handle holds what its front holds once MAP has made them equal. -/
theorem rdByte_equalBackings (hs : s.Good) (hk : e.kind = 2) (hsh : e.shadow = true) {o : Nat} (ho : o < e.ext) :
    rdByte (equalBackings s e) (tensorBase + e.sbase + o) = rdByte s (tensorBase + e.base + o) := by
  have hhigh (x : Nat) : ¬ tensorBase + x + o < apTop := by
    have : apTop ≤ tensorBase := by decide
    omega
  rw [rdByte_high _ _ (hhigh _), rdByte_high _ _ (hhigh _), equalBackings, if_neg (by rw [hsh]; decide), if_pos hk]
  exact get_copyMap memDefault hs.1 _ _ ho

/-- The kinds that MAP takes (R359). -/
theorem mapKind_iff (k : Nat) : (k == 1 || k == 2 || k == 4 || k == 5 || k == 6) = true ↔ k ∈ [1, 2, 4, 5, 6] := by simp [or_assoc]

theorem notOwned_iff {b sh c : Bool} : (!b || sh && !c) = true ↔ ¬ (b = true ∧ (sh = true → c = true)) := by
  cases b <;> cases sh <;> cases c <;> decide

theorem handlesAreMapped : Claim.HandlesAreMapped := by
  intro s h d a l
  dsimp only
  have hmap {code : Nat} {t : State} (he : _ = giveStatus d code t) : Gives s h d (exec (.htabMap h d a 0) s) code t :=
    gives_privWord (eff := fun s => _) he
  have hbind {code : Nat} {t : State} (he : _ = giveStatus d code t) : Gives s h d (exec (.htabBind h d a) s) code t := gives_privWord he
  have hkind : htKind l = (newEntry l).kind := rfl
  refine ⟨fun hl => ⟨hmap ?_, hbind ?_⟩, fun hl => ⟨fun hn => ⟨hmap ?_, hbind ?_⟩, fun hn => ⟨fun hk => hmap ?_, fun hk => hbind ?_,
    fun hk hf => hmap ?_, fun hk hf => hbind ?_, fun hx => ⟨fun hk hf => hmap ?_, fun hk hf => hbind ?_⟩, fun hx => ⟨fun hk hf ho => hmap ?_,
    fun hk hf ho => ⟨hmap ?_, onlyMem_equalBackings _ _, fun hsh => ?_, fun hk hsh hg _ o ho => ?_⟩, fun hk hf => hbind ?_⟩⟩⟩⟩
  case refine_1 | refine_2 => simp [hl]
  case refine_3 | refine_4 => simp [hl, hn]
  case refine_5 =>
    rw [← mapKind_iff, Bool.not_eq_true] at hk
    simp [hl, hn, -Bool.or_eq_true, hk]
  case refine_6 => simp [hl, hn, hkind, hk]
  case refine_8 => simp [hl, hn, hkind, hk, hf]
  case refine_10 => simp [hl, hn, hkind, hk, hf, hx]
  case refine_15 => simp [hl, hn, hkind, hk, hf, hx]
  case refine_7 | refine_9 =>
    rw [← mapKind_iff] at hk
    simp [-Bool.or_eq_true, *]
  case refine_11 =>
    rw [← mapKind_iff] at hk
    rw [← notOwned_iff] at ho
    simp [hl, hn, -Bool.or_eq_true, hk, hf, hx, ho]
  case refine_12 =>
    rw [← mapKind_iff] at hk
    have howned := mt notOwned_iff.mp (not_not.mpr ho)
    rw [Bool.not_eq_true] at howned
    simp [hl, hn, -Bool.or_eq_true, hk, hf, hx, howned]
  case refine_13 =>
    rw [equalBackings, hsh]
    exact ⟨rfl, rfl, rfl⟩
  case refine_14 =>
    let p := fwFill (atHand s h) a 128
    exact rdByte_equalBackings (s := { p with ht := SMap.set none p.ht (htName l) (some (newEntry l)) }) hg hk hsh ho

/-! ## SHOOTDOWN and UNMAP -/

/-- What clears the bits of a page that a shootdown found in it. -/
def clearBits (p : State) (pages : List Nat) (s : State) (x : Nat) : State :=
  markPte s x fun b => b &&& ~~~(BitVec.ofNat 8 (SMap.get 0 (SMap.setAll 0 [] (pages.map fun x => (x, accessed p x))) x))

/-- Whether a shootdown drops a die's translations of a page (R365). -/
def dropsTlb (p : State) (pages : List Nat) (at_ : Nat) (die1 : Bool) : Bool :=
  pages.contains at_ && accessed p at_ / 2 ^ (2 * p.modNum + if die1 then 1 else 0) % 2 == 1

/-- The named translations dropped, by a shootdown that is over. -/
def dropped (p : State) (pages : List Nat) : State :=
  { dropLocal p pages with shoot := none, reqs := (dropLocal p pages).reqs.filter fun r => !([] : List Nat).contains r.id }

/-- What a shootdown leaves that waits for nothing: the named translations dropped, the bits that it found cleared, and the operation counted. -/
def shotDown (p : State) (part : Nat) (pages : List Nat) : State :=
  upPart (pages.foldl (clearBits p pages) (dropped p pages)) part fun q => { q with shootdowns := (q.shootdowns + 1) % 2 ^ 64 }

theorem coreAt_dropTlb (s : State) (bits : Nat → Bool → Bool) (n : Nat) :
    let drop (die1 : Bool) (e : EngSt) : EngSt := { e with tlb := e.tlb.filter fun x => !bits x.1 die1 }
    let c := coreAt s n
    coreAt (dropTlb s bits) n = { c with ec := drop (n % 2 == 1) c.ec, ev := drop false c.ev, em := drop false c.em, eh := drop false c.eh } :=
  SMap.get_mapKeyed (α := Core) {} (f := fun n c =>
    let drop (die1 : Bool) (e : EngSt) : EngSt := { e with tlb := e.tlb.filter fun x => !bits x.1 die1 }
    { c with ec := drop (n % 2 == 1) c.ec, ev := drop false c.ev, em := drop false c.em, eh := drop false c.eh }) (fun _ => rfl) s.cores n

theorem performAll_of_stq_nil (n : Nat) (hq : (coreAt s n).stq = []) : performAll s n = s := by
  unfold performAll
  rw [hq]
  rfl

theorem foldl_performAll_of_stq_nil (hq : ∀ n, (coreAt s n).stq = []) (ns : List Nat) : ns.foldl performAll s = s := by
  induction ns with
  | nil => rfl
  | cons n ns ih => rw [List.foldl_cons, performAll_of_stq_nil n (hq n), ih]

section
variable {part : Nat} {pages : List Nat} {back : Option (Nat × HEntry)}
variable (ho : otherMods p pages = []) (hf : inFlight p = []) (hq : ∀ n, (coreAt p n).stq = [])
include ho hf hq

/-- A shootdown that no linked module has a part in asks none and waits for nothing. -/
theorem beginShoot_alone :
    let x : Shoot := { core := p.cur.core, start := p.tick, part := part, pages := pages, back := back,
                       bits := SMap.setAll 0 [] (pages.map fun x => (x, accessed p x)) }
    beginShoot p part pages back = { dropLocal p pages with shoot := some x } := by
  have hdrop (n : Nat) : (coreAt (dropLocal p pages) n).stq = [] := by
    rw [dropLocal, coreAt_dropTlb]
    exact hq n
  have hask : askMods (dropLocal p pages) pages = (dropLocal p pages, [], false) := by
    rw [askMods, show otherMods (dropLocal p pages) pages = [] from ho]
    rfl
  rw [beginShoot, hf, ite_self, foldl_performAll_of_stq_nil hdrop, hask]
  rfl

theorem endShoot_alone (d : Reg) {x : Shoot} (hx : (beginShoot p part pages back).shoot = some x) :
    shootWaits (beginShoot p part pages back) x = false ∧ endShoot (beginShoot p part pages back) d x = giveStatus d 0 (shotDown p part pages) := by
  rw [beginShoot_alone ho hf hq] at hx ⊢
  cases hx
  exact ⟨rfl, rfl⟩
end

theorem onlyMem_markPte (s : State) (x : Nat) (f : Byte → Byte) : OnlyMem s (markPte s x f) := by
  unfold markPte
  split
  · exact .refl s
  · exact onlyMem_writeMem _ _

theorem isSome_get_setAll {β : Type} [DecidableEq β] {k : Nat} {l : List (Nat × Option β)} (hl : ∀ q ∈ l, q.2.isSome = true) {m : SMap (Option β)}
    (hm : (SMap.get none m k).isSome = true) : (SMap.get none (SMap.setAll none m l) k).isSome = true := by
  induction l generalizing m with
  | nil => exact hm
  | cons q l ih =>
    refine ih (fun q hq => hl q (List.mem_cons_of_mem _ hq)) ?_
    rw [SMap.get_set]
    split
    · exact hl q List.mem_cons_self
    · exact hm

/-- Where the level cache holds a word or no check fails it stays so: what holds of memory that is only filled and written. -/
def Sound (k : Nat) (s t : State) : Prop := dramBad s k = false → dramBad t k = false

theorem Sound.refl (k : Nat) (s : State) : Sound k s s := id
theorem Sound.trans {k : Nat} (h : Sound k s t) (g : Sound k t u) : Sound k s u := fun hs => g (h hs)

theorem sound_of {k : Nat} (hl : (lcWord s k).isSome = true → (lcWord t k).isSome = true) (hb : badBlock s k = false → badBlock t k = false) :
    Sound k s t := by
  unfold Sound dramBad
  simp only [Bool.and_eq_false_iff, Option.isNone_eq_false_iff]
  exact Or.imp hl hb

theorem sound_fillLine (k : Nat) (s : State) (x : Nat) : Sound k s (fillLine s x) := by
  refine sound_of (isSome_get_setAll fun q hq => ?_) id
  obtain ⟨a, -, rfl⟩ := List.mem_map.mp hq
  rfl

theorem sound_wrByte (k : Nat) (s : State) (q : Nat × Byte) : Sound k s (wrByte s q.1 q.2) := by
  unfold wrByte
  split
  · exact sound_of (isSome_get_setAll (l := [(_, some _)]) fun q hq => List.mem_singleton.mp hq ▸ rfl) id
  · exact .refl k s

theorem sound_newChecks (k : Nat) (s : State) (keys : List Nat) : Sound k s (newChecks s keys) := by
  refine sound_of id fun hb => ?_
  refine (SMap.get_filterKeys false (fun n => !keys.any fun k => decide (apTop ≤ k) && k / 64 == n) s.bad (k / 64)).trans ?_
  split
  · exact hb
  · rfl

theorem sound_writeMem (k : Nat) (s : State) (l : List (Nat × Byte)) : Sound k s (writeMem s l) :=
  ((foldl_rel (R := Sound k) (.refl k) (fun _ _ _ => .trans) (sound_fillLine k) _ s).trans
    (foldl_rel (R := Sound k) (.refl k) (fun _ _ _ => .trans) (sound_wrByte k) _ _)).trans (sound_newChecks k _ _)

theorem rdDram_markPte_ne (s : State) {x : Nat} (f : Byte → Byte) {k : Nat} (hk : k < dramTop) (hx : k ≠ x + 8) :
    rdDram (markPte s x f) k = rdDram s k := by
  unfold markPte
  split
  · rfl
  · rw [← rdByte_dram _ k hk, ← rdByte_dram _ k hk]
    exact rdByte_writeMem_ne s _ (fun h => absurd h.1 (Nat.not_le_of_lt hk)) fun q hq hqk => hx (hqk ▸ congrArg Prod.fst (List.mem_singleton.mp hq))

theorem rdDram_markPte (f : Byte → Byte) {x : Nat} (hx : x + 8 < dramTop) (hb : dramBad s (x + 8) = false) :
    rdDram (markPte s x f) (x + 8) = f (rdDram s (x + 8)) := by
  have hap : ¬ (apBase ≤ x + 8 ∧ x + 8 < apTop) := fun h => absurd h.1 (Nat.not_le_of_lt hx)
  unfold markPte
  rw [hb, Bool.false_or]
  split
  · next heq => exact (beq_iff_eq.mp heq).symm
  · rw [← rdByte_dram _ _ hx]
    exact rdByte_writeMem_mem s [(x + 8, _)] (List.nodup_singleton _) (fun q hq => List.mem_singleton.mp hq ▸ hap) (x + 8, _) List.mem_cons_self

theorem sound_markPte (k : Nat) (s : State) (x : Nat) (f : Byte → Byte) : Sound k s (markPte s x f) := by
  unfold markPte
  split
  · exact .refl k s
  · exact sound_writeMem k s _

/-- The bits that a shootdown clears in a page's ACCESSED byte are those that it found there. -/
theorem clearBits_found {pages : List Nat} {x : Nat} (hx : x ∈ pages) :
    BitVec.ofNat 8 (SMap.get 0 (SMap.setAll 0 [] (pages.map fun x => (x, accessed p x))) x) = rdDram p (x + 8) := by
  rw [get_setAll_of_mem 0 x (accessed p x)]
  · exact BitVec.ofNat_toNat _ _
  · intro q hq hqx
    obtain ⟨y, -, rfl⟩ := List.mem_map.mp hq
    exact congrArg (accessed p) hqx
  · exact ⟨_, List.mem_map.mpr ⟨x, hx, rfl⟩, rfl⟩

/-- Clearing the bits found leaves none of them: a page's byte is what was found until its turn comes, and 0 from then on. -/
theorem foldl_clearBits {pages : List Nat} {x : Nat} (hmem : x ∈ pages) (hx : x + 8 < dramTop) (l : List Nat) :
    ∀ {s : State}, dramBad s (x + 8) = false → rdDram s (x + 8) = rdDram p (x + 8) ∨ rdDram s (x + 8) = 0 →
      x ∈ l ∨ rdDram s (x + 8) = 0 → rdDram (l.foldl (clearBits p pages) s) (x + 8) = 0 := by
  induction l with
  | nil => exact fun _ _ h => h.resolve_left List.not_mem_nil
  | cons y l ih =>
    intro s hb hv hl
    rw [List.foldl_cons]
    have hsound : dramBad (clearBits p pages s y) (x + 8) = false := sound_markPte (x + 8) s y _ hb
    by_cases hy : y = x
    · have hzero : rdDram (clearBits p pages s y) (x + 8) = 0 := by
        rw [clearBits, hy, rdDram_markPte _ hx hb, clearBits_found hmem]
        rcases hv with hv | hv <;> rw [hv]
        · exact BitVec.and_not_self _
        · exact BitVec.zero_and
      exact ih hsound (.inr hzero) (.inr hzero)
    · have hsame : rdDram (clearBits p pages s y) (x + 8) = rdDram s (x + 8) := rdDram_markPte_ne s _ hx (by omega)
      exact ih hsound (by rwa [hsame]) (by
        rw [hsame]
        exact hl.imp_left fun h => (List.mem_cons.mp h).resolve_left (Ne.symm hy))

/-! ## What a shootdown leaves -/

section
variable (p : State) (part : Nat) (pages : List Nat)

theorem onlyMem_clearBits (s : State) (l : List Nat) : OnlyMem s (l.foldl (clearBits p pages) s) :=
  foldl_rel (R := OnlyMem) .refl .trans (fun s x => onlyMem_markPte s x _) l s

theorem shotDown_field {β : Type} (F : State → β) (hF : ∀ s m l b q, F { s with mem := m, lc := l, bad := b, parts := q } = F s) :
    F (shotDown p part pages) = F (dropped p pages) := by
  refine (hF _ _ _ _ _).trans ?_
  exact (onlyMem_clearBits p pages _ pages).field F fun s m l b => hF s m l b s.parts

theorem shootdowns_shotDown : (partAt (shotDown p part pages) part).shootdowns = ((partAt p part).shootdowns + 1) % 2 ^ 64 := by
  have hparts : partAt (pages.foldl (clearBits p pages) (dropped p pages)) part = partAt p part :=
    (onlyMem_clearBits p pages _ pages).field (partAt · part) fun _ _ _ _ => rfl
  refine (congrArg Part.shootdowns (SMap.get_set_same _ _ _ _)).trans ?_
  exact congrArg (fun q : Part => (q.shootdowns + 1) % 2 ^ 64) hparts

variable {pages}

/-- A translation of a page that its ACCESSED bits name for a die is dropped from that die's TLBs. -/
theorem get_droppedTlb {x : Nat} (hx : x ∈ pages) {die1 : Bool}
    (hbit : (accessed p x).testBit (2 * p.modNum + if die1 then 1 else 0) = true) (m : SMap (Option Word)) :
    SMap.get none (m.filter fun q => !dropsTlb p pages q.1 die1) x = none := by
  rw [Nat.testBit_eq_decide_div_mod_eq, decide_eq_true_eq] at hbit
  refine (SMap.get_filterKeys none (fun k => !dropsTlb p pages k die1) m x).trans (if_neg ?_)
  rw [dropsTlb, List.contains_iff_mem.mpr hx, hbit]
  decide

theorem tlb_shotDown (n : Nat) (g : Eng) {x : Nat} (hx : x ∈ pages)
    (hbit : (accessed p x).testBit (2 * p.modNum + if g = .c ∧ n % 2 = 1 then 1 else 0) = true) :
    SMap.get none (engSt (coreAt (shotDown p part pages) n) g).tlb x = none := by
  rw [shotDown_field p part pages (coreAt · n) fun _ _ _ _ _ => rfl,
    show coreAt (dropped p pages) n = _ from coreAt_dropTlb p (dropsTlb p pages) n]
  cases g with
  | c =>
    refine get_droppedTlb p hx (die1 := n % 2 == 1) ?_ _
    simpa using hbit
  | v | m | h => exact get_droppedTlb p hx (die1 := false) hbit _

theorem ltlb_shotDown {x : Nat} (hx : x ∈ pages) (hbit : (accessed p x).testBit (2 * p.modNum) = true) :
    SMap.get none (shotDown p part pages).ltlb x = none := by
  rw [shotDown_field p part pages State.ltlb fun _ _ _ _ _ => rfl]
  exact get_droppedTlb p hx (die1 := false) hbit _

theorem accessed_shotDown {x : Nat} (hx : x ∈ pages) (htop : x + 8 < dramTop) (hb : dramBad p (x + 8) = false) :
    accessed (shotDown p part pages) x = 0 :=
  congrArg BitVec.toNat (foldl_clearBits hx htop pages (s := dropped p pages) hb (.inl rfl) (.inl hx))
end

/-- A shootdown is over and counted, and no translation of its pages is left. -/
def IsDown (p t : State) (part : Nat) (pages : List Nat) : Prop :=
  t.shoot = none ∧ (partAt t part).shootdowns = ((partAt p part).shootdowns + 1) % 2 ^ 64 ∧
  (∀ n g x, x ∈ pages → (accessed p x).testBit (2 * p.modNum + if g = .c ∧ n % 2 = 1 then 1 else 0) = true →
    SMap.get none (engSt (coreAt t n) g).tlb x = none) ∧
  (∀ x ∈ pages, (accessed p x).testBit (2 * p.modNum) = true → SMap.get none t.ltlb x = none) ∧
  (∀ x ∈ pages, x + 8 < dramTop → dramBad p (x + 8) = false → accessed t x = 0)

theorem isDown_shotDown (p : State) (part : Nat) (pages : List Nat) : IsDown p (shotDown p part pages) part pages :=
  ⟨shotDown_field p part pages State.shoot fun _ _ _ _ _ => rfl, shootdowns_shotDown p part pages, fun n g _ => tlb_shotDown p part n g,
    fun _ => ltlb_shotDown p part, fun _ => accessed_shotDown p part⟩

theorem ht_shotDown (p : State) (part : Nat) (pages : List Nat) : (shotDown p part pages).ht = p.ht :=
  shotDown_field p part pages State.ht fun _ _ _ _ _ => rfl

/-! ## The words -/

section
variable {go : List Byte → State → Except Nat State} (hs : (fwFill (atHand s h) a 128).shoot = none)
include hs

theorem shoot_atHand : (atHand s h).shoot = none := by
  rw [← hs, fwFill, fillRun]
  split
  · exact ((onlyMem_fillAll _ _).field State.shoot fun _ _ _ _ => rfl).symm
  · rfl

theorem gives_shootWord_unread (hl : fwDesc (fwFill (atHand s h) a 128) a 128 = none) :
    Gives s h d (shootWord h d a s go) 4 (fwFill (atHand s h) a 128) := by
  refine gives_privWord ?_
  dsimp only
  rw [shoot_atHand hs, hl]

theorem gives_shootWord_refused (hl : fwDesc (fwFill (atHand s h) a 128) a 128 = some l)
    (hgo : go l (fwFill (atHand s h) a 128) = .error code) :
    Gives s h d (shootWord h d a s go) code (fwFill (atHand s h) a 128) := by
  refine gives_privWord ?_
  dsimp only
  rw [shoot_atHand hs, hl]
  dsimp only
  rw [hgo]

theorem gives_shootWord_alone (hl : fwDesc (fwFill (atHand s h) a 128) a 128 = some l) {part : Nat} {pages : List Nat} {back : Option (Nat × HEntry)}
    (hgo : go l (fwFill (atHand s h) a 128) = .ok (beginShoot p part pages back))
    (ho : otherMods p pages = []) (hf : inFlight p = []) (hq : ∀ n, (coreAt p n).stq = []) :
    Gives s h d (shootWord h d a s go) 0 (shotDown p part pages) := by
  refine gives_privWord ?_
  dsimp only
  rw [shoot_atHand hs, hl]
  dsimp only
  rw [hgo]
  obtain ⟨x, hx⟩ : ∃ x, (beginShoot p part pages back).shoot = some x := ⟨_, congrArg State.shoot (beginShoot_alone ho hf hq)⟩
  obtain ⟨hwait, hend⟩ := endShoot_alone ho hf hq d hx
  dsimp only
  rw [hx]
  dsimp only
  rw [if_neg (by rw [hwait]; decide), hend]
end

/-- A shootdown that a module has not answered in time gives LINKDOWN (R361). -/
theorem gives_shootWord_lost {go : List Byte → State → Except Nat State} {x : Shoot} (hx : (atHand s h).shoot = some x)
    (hc : x.core = (atHand s h).cur.core) (hw : shootWaits (atHand s h) x = false) (hlost : x.lost = true ∨ stillOut (atHand s h) x.ids = true) :
    Gives s h d (shootWord h d a s go) 0x106 { atHand s h with
      shoot := none
      reqs := (atHand s h).reqs.filter fun r => !x.ids.contains r.id
      ht := match x.back with | some b => SMap.set none (atHand s h).ht b.1 (some b.2) | none => (atHand s h).ht } := by
  refine gives_privWord ?_
  dsimp only
  rw [hx]
  dsimp only
  rw [if_pos hc, if_neg (by rw [hw]; decide), endShoot]
  dsimp only
  rw [if_pos (by simpa using hlost)]
  cases x.back <;> rfl

theorem any_of_length_filter_not {f : α → Bool} {l : List α} (h : (l.filter fun x => !f x).length < l.length) : l.any f = true := by
  obtain ⟨x, hx, hf⟩ := List.length_filter_lt_length_iff_exists.mp h
  exact List.any_eq_true.mpr ⟨x, hx, by simpa using hf⟩

theorem loseShoot_spec (s : State) (mods : Nat) : ∃ t, exec (.shootdownTimeout mods) s = .next t ∧ t = { s with reqs := t.reqs, shoot := t.shoot } ∧
    (s.shoot = none → t = s) ∧ (∀ x, s.shoot = some x → s.tick < x.start + 20000 → t = s) ∧
    (∀ r ∈ t.reqs, r ∈ s.reqs) ∧ (t.reqs.length < s.reqs.length → ∀ x, t.shoot = some x → x.lost = true) := by
  refine ⟨loseShoot s mods, rfl, ?_⟩
  by_cases hlate : (match s.shoot with | some x => shootOver s x | none => false) = true
  · rw [show loseShoot s mods = _ from if_pos hlate]
    refine ⟨rfl, fun hs => ?_, fun x hs ht => ?_, fun r hr => (List.mem_filter.mp hr).1, fun hlt x hx => ?_⟩
    · rw [hs] at hlate
      cases hlate
    · rw [hs] at hlate
      exact absurd (of_decide_eq_true hlate) (Nat.not_le_of_lt ht)
    · obtain ⟨y, -, rfl⟩ := Option.map_eq_some_iff.mp hx
      dsimp only
      rw [any_of_length_filter_not hlt, Bool.or_true]
  · rw [show loseShoot s mods = s from if_neg hlate]
    exact ⟨rfl, fun _ => rfl, fun _ _ _ => rfl, fun _ hr => hr, fun hlt => absurd hlt (Nat.lt_irrefl _)⟩

theorem translationsAreShotDown : Claim.TranslationsAreShotDown := by
  intro s h d a l e
  have hshoot : exec (.htabShootdown h d a) s = execHtabShootdown h d a s := rfl
  have hunmap : exec (.htabUnmap h d a) s = execHtabUnmap h d a s := rfl
  rw [hshoot, hunmap, execHtabShootdown, execHtabUnmap]
  refine ⟨fun hl hs => ⟨gives_shootWord_unread hs hl, gives_shootWord_unread hs hl⟩, fun hl hs => ?_,
    fun x hx hc hw hlost => ⟨gives_shootWord_lost hx hc hw hlost, gives_shootWord_lost hx hc hw hlost⟩, fun mods => loseShoot_spec s mods⟩
  refine ⟨fun hn => ⟨gives_shootWord_refused hs hl ?_, gives_shootWord_refused hs hl ?_⟩,
    fun hn hx => ⟨fun hf => gives_shootWord_refused hs hl ?_, fun hf => gives_shootWord_refused hs hl ?_⟩, fun hn hx => ⟨fun hf halone => ?_, fun hf halone => ?_⟩⟩
  case refine_1 | refine_2 => simp [hn]
  case refine_3 | refine_4 => simp [hn, hf, hx]
  case refine_5 =>
    obtain ⟨ho, hfl, -, hq⟩ := halone
    exact ⟨_, gives_shootWord_alone (back := none) hs hl (by simp [hn, hf, hx]) ho hfl hq, isDown_shotDown _ _ _, ht_shotDown _ _ _⟩
  case refine_6 =>
    obtain ⟨ho, hfl, -, hq⟩ := halone
    let q := { fwFill (atHand s h) a 128 with ht := SMap.set none (fwFill (atHand s h) a 128).ht (htName l) none }
    exact ⟨_, gives_shootWord_alone (p := q) (back := some (htName l, e)) hs hl (by simp [hn, hf, hx, q]) ho hfl hq, isDown_shotDown q _ _, ht_shotDown q _ _⟩

/-- Settles O41: what MAP, BIND, SHOOTDOWN and UNMAP give, and how a shootdown ends that a module does not answer. -/
theorem handlesAndShootdowns : Obligations.HandlesAndShootdowns := ⟨handlesAreMapped, translationsAreShotDown⟩

end Sys2Proof.Machine
end

section
/-! PROOFS. The issue of commands (R105, R234–R236, R264): what a command word leaves in its queue, and what the read of its descriptor gives. -/
namespace Sys2Proof.Machine

variable {s t u p : State} {h : Hd} {d a b e : Reg} {imm : W32} {op : CmdOp} {i : Instr} {c x y : Cmd} {n : Nat}

/-! ## What an issue does not touch -/

/-- What an issue leaves of a core: its queues until the command enters, the next number, the registers, its team. -/
def cmdView (c : Core) : (QId → List Cmd) × Nat × (Eng → Nat → Word) × (Nat → Nat → W32) × Nat := (getQ c, c.nid, getScal c, vget c, c.tid)

theorem cmdView_upEng (c : Core) (g : Eng) (f : EngSt → EngSt) : cmdView (upEng c g f) = cmdView c := by
  have hscal : getScal (upEng c g f) = getScal c := funext fun k => funext fun r => getScal_upEng c g k f r
  rw [cmdView, hscal]
  cases g <;> rfl

theorem cmdView_stored (c : Core) (q : List PendSt) (l : List L1Line) : cmdView { c with stq := q, l1 := l } = cmdView c := by
  have hscal : getScal { c with stq := q, l1 := l } = getScal c := funext fun k => funext fun r => by cases k <;> rfl
  rw [cmdView, hscal]
  rfl

theorem CoreMoved.cmdView_eq {g : Eng} {c d : Core} (hm : CoreMoved g c d) : cmdView d = cmdView c := by
  have hscal : getScal d = getScal c := funext fun k => funext fun r => hm.getScal_eq k r
  obtain ⟨fi, jl, js, tn, ts, e, rfl, -⟩ := hm
  rw [cmdView, hscal]
  cases g <;> rfl

/-- An issue up to its command's entry: of the cores only stores perform, and of the order of issue and the teams nothing. -/
def Issues (s t : State) : Prop :=
  Keeps cmdView s t ∧ (t.nissue = s.nissue ∧ t.teams = s.teams) ∧ ∀ n, ∀ p ∈ (coreAt t n).stq, p ∈ (coreAt s n).stq

theorem Issues.refl (s : State) : Issues s s := ⟨.refl _ s, ⟨rfl, rfl⟩, fun _ _ hp => hp⟩

theorem Issues.trans (h : Issues s t) (k : Issues t u) : Issues s u := by
  obtain ⟨hv, hn, hq⟩ := h
  obtain ⟨kv, kn, kq⟩ := k
  exact ⟨hv.trans kv, ⟨kn.1.trans hn.1, kn.2.trans hn.2⟩, fun m p hp => hq m p (kq m p hp)⟩

theorem Issues.of_cores (hcur : t.cur = s.cur) (hht : t.ht = s.ht) (hc : t.cores = s.cores) (hn : t.nissue = s.nissue ∧ t.teams = s.teams) : Issues s t :=
  ⟨.of_cores hcur hht hc, hn, fun n p hp => by rwa [coreAt, hc] at hp⟩

theorem Issues.of_keeps (hk : Keeps (fun c => (cmdView c, c.stq)) s t) (hn : t.nissue = s.nissue ∧ t.teams = s.teams) : Issues s t :=
  ⟨hk.comp Prod.fst, hn, fun n _ hp => (show (coreAt t n).stq = (coreAt s n).stq from congrArg Prod.snd (hk.2.2 n)) ▸ hp⟩

theorem OnlyMem.issues (h : OnlyMem s t) : Issues s t :=
  .of_cores (h.field State.cur fun _ _ _ _ => rfl) (h.field State.ht fun _ _ _ _ => rfl) (h.field State.cores fun _ _ _ _ => rfl)
    ⟨h.field State.nissue fun _ _ _ _ => rfl, h.field State.teams fun _ _ _ _ => rfl⟩

theorem issues_performKeys (s : State) (core : Nat) (keys : List Nat) : Issues s (performKeys s core keys) := by
  have hperf : OnlyCoresMem s (performKeys s core keys) :=
    foldl_rel (R := OnlyCoresMem) .refl .trans (f := fun s (p : PendSt) => performStore s core p.id) (fun s p => onlyCoresMem_performStore s core p.id) _ s
  exact ⟨keeps_performKeys_of cmdView_stored s core keys,
    ⟨hperf.field State.nissue fun _ _ _ _ _ => rfl, hperf.field State.teams fun _ _ _ _ _ => rfl⟩, (performs_performKeys s core keys).1⟩

theorem issues_settleDesc (s : State) (addr n : Nat) : Issues s (settleDesc s addr n) := by
  unfold settleDesc
  split
  · exact issues_performKeys _ _ _
  · exact .refl s

/-- Only what the notes of pages and the fills of lines change is changed: the cores, memory, the TLB of the Lodes and the free values. -/
def OnlyNotes (s t : State) : Prop := t = { s with cores := t.cores, mem := t.mem, lc := t.lc, bad := t.bad, ltlb := t.ltlb, free := t.free }

theorem OnlyNotes.refl (s : State) : OnlyNotes s s := rfl
theorem OnlyNotes.trans (h : OnlyNotes s t) (k : OnlyNotes t u) : OnlyNotes s u := Eq.trans k (by rw [h])
theorem OnlyNotes.field {β : Type} (h : OnlyNotes s t) (F : State → β)
    (hF : ∀ s c m l b x f, F { s with cores := c, mem := m, lc := l, bad := b, ltlb := x, free := f } = F s) : F t = F s :=
  (congrArg F h).trans (hF _ _ _ _ _ _ _)
theorem OnlyMem.onlyNotes (h : OnlyMem s t) : OnlyNotes s t := Eq.trans h (by rw [h])

theorem onlyNotes_loadPte (s : State) (w : Who) (at_ : Nat) : OnlyNotes s (loadPte s w at_) := by
  have hhold (t : State) (p : Word) : OnlyNotes t (holdPte t w at_ p) := by
    unfold holdPte
    split <;> rfl
  unfold loadPte
  extract_lets p
  split
  · exact (onlyMem_markPte s at_ _).onlyNotes.trans (hhold _ _)
  · exact .refl s

theorem onlyNotes_notePage (s : State) (w : Who) (sh : Bool) (a : Nat) : OnlyNotes s (notePage s w sh a) := by
  unfold notePage
  split
  · exact .refl s
  · split
    · exact .refl s
    · extract_lets off next ahead s'
      split
      · exact (onlyNotes_loadPte s w _).trans (onlyNotes_loadPte s' w _)
      · exact onlyNotes_loadPte s w _

theorem onlyNotes_notePages (s : State) (w : Who) (sh : Bool) (a n : Nat) : OnlyNotes s (notePages s w sh a n) := by
  unfold notePages
  extract_lets s' s''
  refine OnlyNotes.trans ?_ (show OnlyNotes s'' _ from rfl)
  refine (onlyNotes_notePage s w sh a).trans ?_
  unfold s''
  split
  · exact .refl _
  · exact onlyNotes_notePage s' w sh _

theorem issues_notePages (s : State) (w : Who) (a n : Nat) : Issues s (notePages s w false a n) :=
  .of_keeps (noted_notePages (F := fun c => (cmdView c, c.stq)) (fun c g f => Prod.ext (cmdView_upEng c g f) (by cases g <;> rfl)) s w a n).1
    ⟨(onlyNotes_notePages s w false a n).field State.nissue fun _ _ _ _ _ _ _ => rfl,
     (onlyNotes_notePages s w false a n).field State.teams fun _ _ _ _ _ _ _ => rfl⟩

theorem issues_fillRun (s : State) (w : Who) (a n : Nat) : Issues s (fillRun s w a n) := by
  unfold fillRun
  split
  · exact (onlyMem_fillAll s _).issues
  · exact .refl s

/-- Nothing has changed but the fault queue and the counters of the format windows. -/
def OnlyReports (s t : State) : Prop := t = { s with wins := t.wins, fqHeld := t.fqHeld, fqWait := t.fqWait, fqLost := t.fqLost }

theorem OnlyReports.field {β : Type} (h : OnlyReports s t) (F : State → β)
    (hF : ∀ s w x y z, F { s with wins := w, fqHeld := x, fqWait := y, fqLost := z } = F s) : F t = F s := (congrArg F h).trans (hF _ _ _ _ _)

theorem onlyReports_windowFail (s : State) (w : Who) (a : Nat) : OnlyReports s (windowFail s w a) := by
  unfold windowFail
  split
  · unfold decodeFail
    split <;> rfl
  · rfl

theorem onlyReports_holdReport (s : State) (r : FRec) : OnlyReports s (holdReport s r) := by
  unfold holdReport
  split
  · rfl
  · split <;> rfl

theorem issues_stopReport (s : State) (core consumer : Nat) (o : Stop) : Issues s (stopReport s core consumer o) := by
  unfold stopReport
  split
  · have hfield {β : Type} (F : State → β) (hF : ∀ s w x y z, F { s with wins := w, fqHeld := x, fqWait := y, fqLost := z } = F s)
        (hcur : ∀ s c, F { s with cur := c } = F s) : F (cmdReport s core consumer o.addr o.blocks) = F s :=
      (hcur _ _).trans (((onlyReports_holdReport _ _).field F hF).trans ((hcur _ _).trans ((onlyReports_windowFail s _ _).field F hF)))
    exact .of_cores rfl (hfield State.ht (fun _ _ _ _ _ => rfl) fun _ _ => rfl) (hfield State.cores (fun _ _ _ _ _ => rfl) fun _ _ => rfl)
      ⟨hfield State.nissue (fun _ _ _ _ _ => rfl) fun _ _ => rfl, hfield State.teams (fun _ _ _ _ _ => rfl) fun _ _ => rfl⟩
  · exact .refl s

theorem issues_readDesc (s : State) (c : Cmd) (n : Nat) : Issues s (readDesc s c n).1 := by
  unfold readDesc
  extract_lets w a
  split
  · exact .refl s
  · split
    · exact .refl s
    · split
      · exact (issues_notePages s w a n).trans (issues_fillRun _ w a n)
      · exact issues_stopReport s _ _ _

/-! ## The read of a descriptor -/

/-- A command with only its descriptor, its failure at issue and what its word sets of its own changed. -/
def SameWord (c x : Cmd) : Prop :=
  x = { c with k := x.k, arg := x.arg, arg2 := x.arg2, mid := x.mid, pairs := x.pairs, stamp := x.stamp, done := x.done, desc := x.desc }

theorem SameWord.trans {c x y : Cmd} (h : SameWord c x) (k : SameWord x y) : SameWord c y := Eq.trans k (by rw [h])

theorem readDesc_cmd (s : State) (c : Cmd) (n : Nat) :
    (readDesc s c n).2 = { c with done := (readDesc s c n).2.done, desc := (readDesc s c n).2.desc } := by
  unfold readDesc
  extract_lets w a
  split
  · rfl
  · split
    · rfl
    · split <;> rfl

/-- A descriptor is read whole or its command is over. -/
theorem desc_readDesc (s : State) (c : Cmd) (n : Nat) : (readDesc s c n).2.done.isSome = true ∨ (readDesc s c n).2.desc.length = n := by
  unfold readDesc
  extract_lets w a
  split
  · exact .inl rfl
  · split
    · exact .inl rfl
    · split
      · next l hl => exact .inr (length_engBytes hl)
      · exact .inl rfl

/-! ## A command's entry into its queue -/

/-- The state in which a command's descriptor is read. -/
def descSettled (s : State) (c : Cmd) (n : Nat) : State := if n = 0 then s else settleDesc s c.ra.toNat n

/-- A command with its descriptor read, if it has one. -/
def described (s : State) (c : Cmd) (n : Nat) : State × Cmd := if n = 0 then (descSettled s c n, c) else readDesc (descSettled s c n) c n

/-- The state in which a command takes its place in the order of issue. -/
def counted (s : State) : State := bumpClk { s with nissue := s.nissue + 1 }

/-- A command with its numbers. -/
def cmdNumbered (s : State) (x : Cmd) : Cmd := { x with id := (curCore s).nid, seq := (curEng (counted s)).seen.h, ord := s.nissue + 1 }

/-- A command entered at the end of its queue. -/
def entered (s : State) (q : QId) (x : Cmd) : State :=
  upCur (counted s) fun k =>
    { setQ k q (getQ k q ++ [{ x with id := k.nid, seq := (curEng (counted s)).seen.h, ord := (counted s).nissue }]) with nid := k.nid + 1 }

theorem issueCmd_full {route : Cmd → QId} {prep : State → Cmd → Cmd} {also : State → State} {q : QId}
    (hq : route (prep (descSettled s c n) (described s c n).2) = q) (hfull : 16 ≤ (getQ (curCore (descSettled s c n)) q).length) :
    issueCmd s c n route prep also = .stall 9 (qnum q) 0 (descSettled s c n) := by
  subst hq
  exact if_pos hfull

theorem issueCmd_room {route : Cmd → QId} {prep : State → Cmd → Cmd} {also : State → State} {q : QId}
    (hq : route (prep (descSettled s c n) (described s c n).2) = q) (hroom : (getQ (curCore (descSettled s c n)) q).length < 16) :
    issueCmd s c n route prep also = .done (also (entered (described s c n).1 q (prep (descSettled s c n) (described s c n).2))) := by
  subst hq
  exact if_neg (Nat.not_le.mpr hroom)

theorem issues_descSettled (s : State) (c : Cmd) (n : Nat) : Issues s (descSettled s c n) := by
  unfold descSettled
  split
  · exact .refl s
  · exact issues_settleDesc s _ n

theorem issues_described (s : State) (c : Cmd) (n : Nat) : Issues s (described s c n).1 := by
  unfold described
  split
  · exact issues_descSettled s c n
  · exact (issues_descSettled s c n).trans (issues_readDesc _ c n)

theorem described_cmd (s : State) (c : Cmd) (n : Nat) :
    (described s c n).2 = { c with done := (described s c n).2.done, desc := (described s c n).2.desc } := by
  unfold described
  split
  · rfl
  · exact readDesc_cmd _ c n

theorem sameWord_described (s : State) (c : Cmd) (n : Nat) : SameWord c (described s c n).2 := by
  unfold SameWord
  rw [described_cmd]

theorem desc_described (s : State) (c : Cmd) (hn : n ≠ 0) : (described s c n).2.done.isSome = true ∨ (described s c n).2.desc.length = n := by
  rw [described, if_neg hn]
  exact desc_readDesc _ c n

section
variable (s : State) (q r : QId) (x : Cmd)

theorem cmdView_counted : cmdView (curCore (counted s)) = cmdView (curCore s) := by
  rw [counted, bumpClk, upCurEng, curCore_upCur]
  exact cmdView_upEng _ _ _

theorem curCore_entered : curCore (entered s q x) = { setQ (curCore (counted s)) q (getQ (curCore s) q ++ [cmdNumbered s x]) with nid := (curCore s).nid + 1 } := by
  have hv := cmdView_counted s
  have hget : getQ (curCore (counted s)) = getQ (curCore s) := congrArg Prod.fst hv
  have hnid : (curCore (counted s)).nid = (curCore s).nid := congrArg (fun v => v.2.1) hv
  rw [entered, curCore_upCur, hget, hnid]
  rfl

theorem getQ_setQ (k : Core) (l : List Cmd) : getQ (setQ k q l) r = if r = q then l else getQ k r := by
  cases q <;> cases r <;> rfl

theorem getQ_entered : getQ (curCore (entered s q x)) r = if r = q then getQ (curCore s) q ++ [cmdNumbered s x] else getQ (curCore s) r := by
  have hnid (k : Core) (m : Nat) : getQ { k with nid := m } r = getQ k r := by cases r <;> rfl
  have hget : getQ (curCore (counted s)) = getQ (curCore s) := congrArg Prod.fst (cmdView_counted s)
  rw [curCore_entered, hnid, getQ_setQ, hget]

theorem kept_entered : (curCore (entered s q x)).nid = (curCore s).nid + 1 ∧ (curCore (entered s q x)).stq = (curCore s).stq ∧
    getScal (curCore (entered s q x)) = getScal (curCore s) ∧ vget (curCore (entered s q x)) = vget (curCore s) ∧
    (curCore (entered s q x)).tid = (curCore s).tid := by
  have hv := cmdView_counted s
  have hscal : getScal (curCore (counted s)) = getScal (curCore s) := congrArg (fun v => v.2.2.1) hv
  have hvec : vget (curCore (counted s)) = vget (curCore s) := congrArg (fun v => v.2.2.2.1) hv
  have htid : (curCore (counted s)).tid = (curCore s).tid := congrArg (fun v => v.2.2.2.2) hv
  have hstq : (curCore (counted s)).stq = (curCore s).stq := by
    rw [counted, bumpClk, upCurEng, curCore_upCur]
    generalize s.cur.eng = g
    cases g <;> rfl
  rw [curCore_entered, ← hscal, ← hvec, ← hstq, ← htid]
  refine ⟨rfl, ?_, ?_, ?_, ?_⟩
  · cases q <;> rfl
  · exact funext fun g => funext fun _ => by cases q <;> cases g <;> rfl
  · cases q <;> rfl
  · cases q <;> rfl
end

end Sys2Proof.Machine
end

section
/-! PROOFS. The command words (R162, R235, R236, R247, R256, R262, R264): their issue, the multicast that signals and the stamped starts. -/
namespace Sys2Proof.Machine
variable {s t u p : State} {h : Hd} {d a b e : Reg} {imm : W32} {op : CmdOp} {i : Instr} {c x y : Cmd} {n : Nat}

/-! ## The command words -/

theorem routed_iff_mem : routed op ↔ op ∈ [.hcp, .hgat, .hsct, .hlay, .hfill] := by simp [routed]

theorem routeCopy_mem (hop : routed op) (hx : x.op = op) : routeCopy x ∈ queuesOf op := by
  unfold routeCopy
  rcases hop with rfl | rfl | rfl | rfl | rfl <;> rw [hx, if_neg (by decide)] <;> split <;> decide

/-- Every command word is an issue: of its command, for its queue, with what it notes of the state. -/
theorem commandWord (hi : cmdOf i = some (h, op, d, a, b, e, imm)) : ∃ (mk : State → Cmd) (route : Cmd → QId) (prep : State → Cmd → Cmd),
    (∀ s, exec i s = runEff s h fun p => issueCmd p (mk p) (descSize op) route prep id) ∧
    (∀ p, SameWord (newCmd p op d a b e imm) (mk p)) ∧
    (∀ s c, SameWord c (prep s c) ∧ (prep s c).done = c.done ∧ (prep s c).desc = c.desc) ∧
    (∀ x : Cmd, x.op = op → route x ∈ queuesOf op) ∧ (routed op → route = routeCopy) := by
  cases i with
  | hcp | hgat | hsct | hlay | hfill =>
    cases hi
    exact ⟨_, routeCopy, _, fun _ => rfl, fun _ => rfl, fun _ _ => ⟨rfl, rfl, rfl⟩, fun _ => routeCopy_mem (routed_iff_mem.mpr (by decide)), fun _ => rfl⟩
  | hmc | hpub | lodeAct | lodeSacc | lodeDrain | lodeDrainRaw | lodeIred | lodeStat | linkSend | linkRed
  | rdlOpen | rdlMask | rdlMaskM | rdlStep | rdlFork | rdlKeep | rdlDrop | rdlSave | rdlLoad | asyBind | asyRun | asyStat =>
    cases hi
    exact ⟨_, fun _ => _, _, fun _ => rfl, fun _ => rfl, fun _ _ => ⟨rfl, rfl, rfl⟩, fun _ _ => List.mem_singleton_self _,
      fun hop => absurd (routed_iff_mem.mp hop) (by decide)⟩
  | _ => cases hi

theorem SameWord.issued {p q : State} (hx : SameWord (newCmd p op d a b e imm) x) (hid : (curCore q).nid = (curCore p).nid) (hord : q.nissue = p.nissue) :
    Issued p (cmdNumbered q x) op d a b e imm := by
  have hfield {β : Type} (F : Cmd → β) (hF : ∀ c : Cmd, F { newCmd p op d a b e imm with
      k := c.k, arg := c.arg, arg2 := c.arg2, mid := c.mid, pairs := c.pairs, stamp := c.stamp, done := c.done, desc := c.desc } = F (newCmd p op d a b e imm)) :
      F x = F (newCmd p op d a b e imm) := (congrArg F hx).trans (hF x)
  exact ⟨hfield Cmd.op fun _ => rfl, hfield Cmd.ring fun _ => rfl, hfield Cmd.tag fun _ => rfl, hfield Cmd.ra fun _ => rfl, hfield Cmd.rb fun _ => rfl,
    hfield Cmd.re fun _ => rfl, hid, congrArg (· + 1) hord, hfield Cmd.prog fun _ => rfl, hfield Cmd.started fun _ => rfl, hfield Cmd.sent fun _ => rfl,
    hfield Cmd.reply fun _ => rfl⟩

theorem routeCopy_eq_load (hop : routed op) (hx : x.op = op) :
    routeCopy x = .load ↔ x.done = none ∧ (dI x 8 8 / 2 ^ 48 = 0xFFFE ∨ dI x 8 8 / 2 ^ 48 = 0xFFFF) := by
  have hmc : x.op ≠ .hmc := by
    rw [hx]
    rintro rfl
    exact absurd (routed_iff_mem.mp hop) (by decide)
  rw [routeCopy, if_neg hmc, ← Option.isNone_iff_eq_none]
  split
  · next hd => exact iff_of_true rfl hd
  · next hd => exact iff_of_false (by decide) hd

theorem cmdView_atHand (s : State) (h : Hd) : cmdView (curCore (atHand s h)) = cmdView (curCore s) := (wordMove_atHand s h).2.cmdView_eq

theorem stq_atHand (s : State) (h : Hd) : (curCore (atHand s h)).stq = (curCore s).stq := by
  obtain ⟨-, fi, jl, js, tn, ts, e, heq, -⟩ := wordMove_atHand s h
  rw [heq]
  generalize s.cur.eng = g
  cases g <;> rfl

theorem nissue_atHand (s : State) (h : Hd) : (atHand s h).nissue = s.nissue := by
  obtain ⟨⟨heq, -⟩, -⟩ := wordMove_atHand s h
  rw [heq]

theorem Issues.curStq (hi : Issues s t) : ∀ r ∈ (curCore t).stq, r ∈ (curCore s).stq := by
  obtain ⟨⟨hcur, -, -⟩, -, hq⟩ := hi
  rw [curCore, hcur]
  exact hq _

theorem commandsEnter : Claim.CommandsAreIssued := by
  intro i s h op d a b e imm hi hr p
  obtain ⟨mk, route, prep, hexec, hmk, hprep, hqueue, hroute⟩ := commandWord hi
  let n := descSize op
  let y := (described p (mk p) n).2
  let x := prep (descSettled p (mk p) n) y
  obtain ⟨hpx, hpdone, hpdesc⟩ := hprep (descSettled p (mk p) n) y
  have hword : SameWord (newCmd p op d a b e imm) x := ((hmk p).trans (sameWord_described p (mk p) n)).trans hpx
  have hop : x.op = op := congrArg Cmd.op hword
  obtain ⟨hview, hord, hstq⟩ := issues_described p (mk p) n
  have hcore : cmdView (curCore (described p (mk p) n).1) = cmdView (curCore s) := hview.curCore_eq.trans (cmdView_atHand s h)
  have hset : cmdView (curCore (descSettled p (mk p) n)) = cmdView (curCore s) := (issues_descSettled p (mk p) n).1.curCore_eq.trans (cmdView_atHand s h)
  have hset0 : getQ (curCore (descSettled p (mk p) n)) = getQ (curCore s) := congrArg Prod.fst hset
  refine ⟨route x, cmdNumbered (described p (mk p) n).1 x, hqueue x hop, hword.issued (congrArg (fun v => v.2.1) hview.curCore_eq) hord.1, fun hn => ?_,
    fun hrt => ?_, fun hroom => ?_, fun hfull => ?_⟩
  · have hdesc := desc_described p (mk p) hn
    rw [← hpdone, ← hpdesc] at hdesc
    exact hdesc
  · rw [hroute hrt]
    exact routeCopy_eq_load hrt hop
  · have hget : getQ (curCore (described p (mk p) n).1) = getQ (curCore s) := congrArg Prod.fst hcore
    obtain ⟨hnid', hstq', hscal', hvec', -⟩ := kept_entered (described p (mk p) n).1 (route x) x
    refine ⟨entered (described p (mk p) n).1 (route x) x, (hexec s).trans (runEff_done hr (issueCmd_room rfl (hset0 ▸ hroom))), ?_, fun r hne => ?_, hnid'.trans ?_, ?_, ?_, fun hn => ?_,
      fun g r => ?_, fun r k => ?_⟩
    · exact (getQ_entered _ _ _ _).trans ((if_pos rfl).trans (by rw [hget]))
    · exact (getQ_entered _ _ _ _).trans ((if_neg hne).trans (by rw [hget]))
    · exact congrArg (fun v => v.2.1 + 1) hcore
    · exact congrArg (· + 1) (hord.1.trans (nissue_atHand s h))
    · rw [hstq', ← stq_atHand s h]
      exact (issues_described p (mk p) n).curStq
    · have hsame : (described p (mk p) n).1 = p := by rw [described, if_pos hn, descSettled, if_pos hn]
      rw [hstq', hsame]
      exact stq_atHand s h
    · exact (congrFun (congrFun hscal' g) r).trans (congrArg (fun v => v.2.2.1 g r) hcore)
    · exact (congrFun (congrFun hvec' r) k).trans (congrArg (fun v => v.2.2.2.1 r k) hcore)
  · refine ⟨_, (hexec s).trans (runEff_stall hr (issueCmd_full rfl (hset0 ▸ hfull))), (curEng_stalled _ _ _ _).1, (curEng_stalled _ _ _ _).2, fun r => ?_⟩
    rw [← hset0, upCurEng, curCore_upCur]
    exact congrFun (congrArg Prod.fst (cmdView_upEng _ _ _)) r

/-! ## The read of a descriptor -/

theorem badBlocks_of_good {keys : List Nat} (addr : Nat) (hk : ∀ k ∈ keys, badByte s k = false) : badBlocks s addr keys = none := by
  have hnone : ((List.range keys.length).filter fun i => !isRemote (keys.getD i 0) && badByte s (keys.getD i 0)) = [] := by
    refine List.filter_eq_nil_iff.mpr fun i hi => ?_
    rw [List.getD_eq_getElem _ _ (List.mem_range.mp hi), hk _ (List.getElem_mem _), Bool.and_false]
    decide
  rw [badBlocks, failBlocks, hnone]

theorem engKeys_of_handle {w : Who} {write : Bool} {addr : Nat} {keys : List Nat} (ha : addr / 2 ^ 48 ≠ 0xFFFF)
    (hx : xlateRange s w (if write then .w else .r) write addr n = .ok keys) : engKeys s w write addr n = .ok keys := by
  rw [engKeys, if_neg ha, hx]

theorem engRd_eq_rdByte (w : Who) {k : Nat} (hm : k < mapBase) (ha : inArea s k = false) : engRd s w k = rdByte s k := by
  rw [engRd, if_neg (fun h => Nat.not_le.mpr hm h.1), ha]
  rfl

theorem descriptorReads : Claim.DescriptorReads := by
  intro s c n w x
  refine ⟨fun hx => if_pos hx, fun hx hk => ?_, fun keys hx hmap hk hkeys hgood => ?_⟩
  · exact (if_neg (not_not.mpr hx)).trans (if_pos (by rw [hk]; rfl))
  · have hread : engBytes s w x n = .ok (keys.map (rdByte s)) := by
      have hlocal : keys.any isRemote = false := List.any_eq_false.mpr fun k hm => by rw [(hgood k hm).1]; decide
      rw [engBytes, engRead, engKeys_of_handle hmap hkeys]
      dsimp only
      rw [badBlocks_of_good x fun k hm => (hgood k hm).2.2.2]
      dsimp only
      rw [hlocal, if_neg (by decide)]
      refine congrArg Except.ok (List.map_congr_left fun k hm => ?_)
      exact engRd_eq_rdByte w (hgood k hm).2.1 (hgood k hm).2.2.1
    refine (if_neg (not_not.mpr hx)).trans ((if_neg (by rw [hk]; decide)).trans ?_)
    rw [hread]

/-! ## The multicast that signals -/

theorem teams_atHand (s : State) (h : Hd) : (atHand s h).teams = s.teams := by
  obtain ⟨⟨heq, -⟩, -⟩ := wordMove_atHand s h
  rw [heq]

theorem curTeam_of_view (hv : cmdView (curCore t) = cmdView (curCore s)) (ht : t.teams = s.teams) : curTeam t = curTeam s := by
  rw [curTeam, curTeam, teamAt, teamAt, ht, show (curCore t).tid = (curCore s).tid from congrArg (fun v => v.2.2.2.2) hv]

theorem rd_of_view (hc : t.cur = s.cur) (hv : cmdView (curCore t) = cmdView (curCore s)) (r : Reg) : rd t r = rd s r := by
  have hscal : getScal (curCore t) = getScal (curCore s) := congrArg (fun v => v.2.2.1) hv
  rw [rd, rd, hc, hscal]

/-- The command of a signalling multicast. -/
def sigCmd (p : State) (d a : Reg) (imm : W32) : Cmd :=
  { mcCmd p d a imm with mid := true, arg := imm.toNat / 2 ^ 16 % 16, pairs := imm.toNat / 2 ^ 24 }

theorem maskPairs_mcCmd (p : State) (d a : Reg) (imm : W32) : maskPairs (mcCmd p d a imm) = (List.range 8).filter fun k => (imm.toNat / 2 ^ 24).testBit k := by
  refine List.filter_congr fun k _ => ?_
  rw [Nat.testBit_eq_decide_div_mod_eq]
  rfl

/-- Arrivals announced to a barrier of the team (R247). -/
def announced (n m : Nat) (s : State) : State :=
  upTeam s (curCore s).tid fun t =>
    let b := SMap.get {} t.bars n
    { t with bars := SMap.set {} t.bars n { b with extra := b.extra + m } }

theorem curCore_announced (n m : Nat) (s : State) : curCore (announced n m s) = curCore s := rfl

theorem extra_announced (n m : Nat) (s : State) :
    (SMap.get {} (curTeam (announced n m s)).bars n).extra = (SMap.get {} (curTeam s).bars n).extra + m := by
  have hteam : curTeam (announced n m s) = _ := (teamAt_upTeam s _ _ _).trans (if_pos rfl)
  rw [hteam]
  exact congrArg Bar.extra (SMap.get_set_same _ _ _ _)

theorem exec_hmcSig (s : State) (h : Hd) (d a : Reg) (imm : W32) : exec (.hmcSig h d a imm) s = runEff s h fun p =>
    if (curTeam p).nbar ≤ imm.toNat / 2 ^ 16 % 16 then .fatal { code := 9, info := imm.toNat / 2 ^ 16 % 16 } p
    else issueCmd p (sigCmd p d a imm) 256 (fun _ => .load) (fun _ c => c)
      (announced (imm.toNat / 2 ^ 16 % 16) (maskPairs (mcCmd p d a imm)).length) := rfl

theorem sigCmd_issued (s : State) (h : Hd) (d a : Reg) (imm : W32) (hr : Ready s h) (hn : imm.toNat / 2 ^ 16 % 16 < (curTeam s).nbar)
    (hroom : (getQ (curCore s) .load).length < 16) : ∃ t x, exec (.hmcSig h d a imm) s = .next (goesOn h t) ∧
      getQ (curCore t) .load = getQ (curCore s) .load ++ [x] ∧ x.op = .hmc ∧ x.mid = true ∧ x.arg = imm.toNat / 2 ^ 16 % 16 ∧
      x.pairs = imm.toNat / 2 ^ 24 ∧ x.tag = imm.toNat % 2 ^ 16 ∧ x.ring = d.toNat ∧ x.ra = rd s a ∧
      (SMap.get {} (curTeam t).bars (imm.toNat / 2 ^ 16 % 16)).extra = (SMap.get {} (curTeam s).bars (imm.toNat / 2 ^ 16 % 16)).extra +
        ((List.range 8).filter fun k => (imm.toNat / 2 ^ 24).testBit k).length := by
  let p := atHand s h
  let y := described p (sigCmd p d a imm) 256
  let n := imm.toNat / 2 ^ 16 % 16
  let m := (maskPairs (mcCmd p d a imm)).length
  have hteam : curTeam p = curTeam s := curTeam_of_view (cmdView_atHand s h) (teams_atHand s h)
  have hset : getQ (curCore (descSettled p (sigCmd p d a imm) 256)) = getQ (curCore s) :=
    congrArg Prod.fst ((issues_descSettled p _ 256).1.curCore_eq.trans (cmdView_atHand s h))
  obtain ⟨hview, ⟨-, hteams⟩, -⟩ := issues_described p (sigCmd p d a imm) 256
  have hget : getQ (curCore y.1) = getQ (curCore s) := congrArg Prod.fst (hview.curCore_eq.trans (cmdView_atHand s h))
  have hcmd : y.2 = { sigCmd p d a imm with done := y.2.done, desc := y.2.desc } := described_cmd p _ 256
  refine ⟨announced n m (entered y.1 .load y.2), cmdNumbered y.1 y.2, ?_, ?_, congrArg Cmd.op hcmd, congrArg Cmd.mid hcmd, congrArg Cmd.arg hcmd,
    congrArg Cmd.pairs hcmd, congrArg Cmd.tag hcmd, congrArg Cmd.ring hcmd, ?_, ?_⟩
  · have hissue : issueCmd p (sigCmd p d a imm) 256 (fun _ => .load) (fun _ c => c) (announced n m) = .done (announced n m (entered y.1 .load y.2)) :=
      issueCmd_room (q := .load) rfl (hset ▸ hroom)
    rw [exec_hmcSig]
    refine runEff_done (t := announced n m (entered y.1 .load y.2)) hr ?_
    rw [if_neg (by rw [hteam]; exact Nat.not_le.mpr hn)]
    exact hissue
  · rw [curCore_announced, getQ_entered, if_pos rfl, hget]
  · exact (congrArg Cmd.ra hcmd).trans (rd_of_view (wordMove_atHand s h).1.cur_eq (cmdView_atHand s h) a)
  · obtain ⟨-, -, -, -, htid⟩ := kept_entered y.1 .load y.2
    have hcur : curTeam (entered y.1 .load y.2) = curTeam s := by
      refine Eq.trans ?_ ((curTeam_of_view hview.curCore_eq hteams).trans hteam)
      rw [curTeam, htid]
      rfl
    rw [extra_announced, hcur, ← maskPairs_mcCmd p d a imm]

theorem signallingMulticast : Claim.SignallingMulticast := by
  refine ⟨fun s h d a imm hr => ⟨fun hn => ?_, sigCmd_issued s h d a imm hr⟩, fun s core pair x rest hq hop hmid hdone hpair => ?_⟩
  · rw [exec_hmcSig]
    refine runEff_fatal hr (if_pos ?_)
    rwa [curTeam_of_view (cmdView_atHand s h) (teams_atHand s h)]
  · have hfind : (coreAt s core).ql.findIdx? (fun x => x.mid && x.op == .hmc && x.done.isSome && x.pairs / 2 ^ pair % 2 == 1) = some 0 := by
      rw [Nat.testBit_eq_decide_div_mod_eq, decide_eq_true_eq] at hpair
      rw [hq, List.findIdx?_cons, hmid, hop, hdone, hpair]
      rfl
    let u := upCore s core fun c => { c with ql := c.ql.set 0 { x with pairs := x.pairs - 2 ^ pair } }
    refine ⟨arriveBar u (coreAt s core).tid x.arg, ?_, ?_, ?_⟩
    · refine congrArg Host.Outcome.next ?_
      unfold pairArrival
      dsimp only
      rw [hfind, hq]
      rfl
    · change (coreAt u core).ql = _
      rw [show coreAt u core = _ from (coreAt_upCore _ _ _ _).trans (if_pos rfl)]
      dsimp only
      rw [hq]
      rfl
    · exact (bars_arriveBar u _ _ _).trans (if_pos rfl)

/-! ## Stamped starts -/

theorem waitingLink_some {core : Nat} {rest : List Cmd} {p t n : Nat} (hq : (coreAt s core).qs = c :: rest) (hw : waitingLink s core = some (p, t, n)) :
    c.stamp = some t ∧ n = c.ord ∧ linkPort s (linkWho s core) (linkDst c) = some p := by
  unfold waitingLink at hw
  rw [hq] at hw
  dsimp only at hw
  split at hw
  · split at hw
    · next ht hp =>
      cases hw
      exact ⟨ht, rfl, hp⟩
    · cases hw
  · cases hw

theorem stampStart_early {core stamp : Nat} {q : QId} {rest : List Cmd} (hq : getQ (coreAt s core) q = c :: rest) (hs : c.stamp = some stamp)
    (ht : s.tick < stamp) : stampStart s core q = s := by
  unfold stampStart
  rw [hq]
  dsimp only
  rw [hs]
  exact if_neg fun h => Nat.not_le.mpr ht h.1

theorem stampStart_due {core stamp : Nat} {q : QId} {rest : List Cmd} (hq : getQ (coreAt s core) q = c :: rest) (hs : c.stamp = some stamp)
    (hst : c.started = false) (hd : c.done = none) (ht : stamp ≤ s.tick) :
    stampStart s core q = if c.op = .sacc then (if waveBefore s c then s else startWave s core c)
      else upHead s core q fun c => { c with started := true, stick := s.tick, flags := c.flags ||| if stamp < s.tick then 16 else 0 } := by
  unfold stampStart
  rw [hq]
  dsimp only
  rw [hs]
  exact if_pos ⟨ht, by rw [hst]; rfl, by rw [hd]; rfl⟩

theorem getQ_upHead_same {core : Nat} {q : QId} {rest : List Cmd} (hq : getQ (coreAt s core) q = c :: rest) (f : Cmd → Cmd) :
    getQ (coreAt (upHead s core q f) core) q = f c :: rest := by
  rw [upHead, coreAt_upCore, if_pos rfl, hq]
  exact (getQ_setQ q q _ _).trans (if_pos rfl)

theorem startWave_spec {core : Nat} {rest : List Cmd} (hq : getQ (coreAt s core) .lode = c :: rest) (hr : cmdRegion s c ≠ none) :
    ∃ f, (f = c.flags ∨ f = c.flags ||| 1) ∧ (coreAt (startWave s core c) core).qd = { c with started := true, flags := f } :: rest ∧
      (startWave s core c).lode = s.lode := by
  obtain ⟨r, hr⟩ := Option.ne_none_iff_exists'.mp hr
  have hstarted := getQ_upHead_same hq fun c => { c with started := true }
  unfold startWave
  rw [hr]
  dsimp only
  split
  · unfold deferHead
    split
    · exact ⟨_, .inl rfl, hstarted, rfl⟩
    · have hdefer := getQ_upHead_same hstarted fun c => { c with flags := c.flags ||| 1 }
      refine ⟨_, .inr rfl, ?_, ?_⟩
      · dsimp only
        split <;> exact hdefer
      · dsimp only
        split <;> rfl
  · exact ⟨_, .inl rfl, hstarted, rfl⟩

/-- A stamped start is one of `stampStart`, but for a link command that its port is not free for. -/
theorem stampedGo_cases (s : State) (core : Nat) (q : QId) : stampedGo s core q = stampStart s core q ∨
    ∃ p t n, q = .store ∧ waitingLink s core = some (p, t, n) ∧ stampedGo s core q = if t ≤ s.tick ∧ portFree s p t n = true then
      (let u := stampStart s core .store; { u with ports := SMap.set {} u.ports p { (SMap.get {} u.ports p) with lastStamp := u.tick + 1 } }) else s := by
  unfold stampedGo
  split
  · next p t n hw => exact .inr ⟨p, t, n, rfl, hw, rfl⟩
  · exact .inl rfl

theorem stampedGo_lode (s : State) (core : Nat) : stampedGo s core .lode = stampStart s core .lode := rfl

theorem stampedStarts : Claim.StampedStarts := by
  intro s core stamp q c rest hq hs hst hd
  refine ⟨fun ht => congrArg Host.Outcome.next ?_, fun ht hqs hop hport => ?_, fun ht hqs hop hb => congrArg Host.Outcome.next ?_, fun ht hqs hop hb hr => ?_⟩
  · rcases stampedGo_cases s core q with hgo | ⟨p, t, n, rfl, hw, hgo⟩
    · exact hgo.trans (stampStart_early hq hs ht)
    · obtain ⟨hstamp, -, -⟩ := waitingLink_some hq hw
      cases hs.symm.trans hstamp
      exact hgo.trans (if_neg fun h => Nat.not_le.mpr ht h.1)
  · subst hqs
    have hnot : c.op ≠ .sacc := by rcases hop with hop | hop <;> rw [hop] <;> decide
    have hstart := stampStart_due hq hs hst hd ht
    rw [if_neg hnot] at hstart
    have hhead : (coreAt (stampStart s core .store) core).qs = _ :: rest := (congrArg (fun t => (coreAt t core).qs) hstart).trans (getQ_upHead_same hq _)
    rcases stampedGo_cases s core .store with hgo | ⟨p, t, n, -, hw, hgo⟩
    · exact ⟨_, congrArg Host.Outcome.next hgo, hhead⟩
    · obtain ⟨hstamp, rfl, hp⟩ := waitingLink_some hq hw
      cases hs.symm.trans hstamp
      exact ⟨_, congrArg Host.Outcome.next (hgo.trans (if_pos ⟨ht, hport p hp⟩)), hhead⟩
  · subst hqs
    refine (stampStart_due hq hs hst hd ht).trans ?_
    rw [if_pos hop, if_pos hb]
  · subst hqs
    obtain ⟨f, hf, hhead, hlode⟩ := startWave_spec hq hr
    have hgo : stampStart s core .lode = startWave s core c := by rw [stampStart_due hq hs hst hd ht, if_pos hop, hb, if_neg (by decide)]
    exact ⟨_, f, congrArg Host.Outcome.next hgo, hf, hhead, hlode⟩

/-- Settles O29: what a command word leaves in its queue, the read of its descriptor, the multicast that signals, and the stamped starts. -/
theorem commandsAreIssued : Obligations.CommandsAreIssued := ⟨commandsEnter, descriptorReads, signallingMulticast, stampedStarts⟩

end Sys2Proof.Machine
end

section
/-! PROOFS. Bytes that engines move and write (R94, R237, R364): the notes of their pages, and writes in plain memory. -/
namespace Sys2Proof.Machine

variable {s t u : State} {w : Who} {α : Type} {F : Core → α}

/-! ## The pages of a command's accesses -/

theorem pageMark_of_page {sh : Bool} {a k : Nat} (h : pageMark s w sh (a / 2 ^ 21 * 2 ^ 21) k) : pageMark s w sh a k := by
  obtain ⟨e, he, hk⟩ := h
  have hhandle : a / 2 ^ 21 * 2 ^ 21 / 2 ^ 48 = a / 2 ^ 48 := by omega
  have hpage : a / 2 ^ 21 * 2 ^ 21 % 2 ^ 48 / 2 ^ 21 = a % 2 ^ 48 / 2 ^ 21 := by omega
  have hnext : (a / 2 ^ 21 * 2 ^ 21 % 2 ^ 48 + 2 ^ 21) / 2 ^ 21 = (a % 2 ^ 48 + 2 ^ 21) / 2 ^ 21 := by omega
  rw [hhandle] at he
  rw [pteAddr, pteAddr, hpage, hnext] at hk
  exact ⟨e, he, hk⟩

section
variable (hF : ∀ c g f, F (upEng c g f) = F c)
include hF

theorem noted_foldl_notePage {l : List (Bool × Nat)} (L : List (Bool × Nat)) (hL : ∀ p ∈ L, ∃ q ∈ l, p = (q.1, q.2 / 2 ^ 21)) :
    ∀ t, Keeps F s t → Noted F (markOf s w l) t (L.foldl (fun s p => notePage s w p.1 (p.2 * 2 ^ 21)) t) := by
  induction L with
  | nil => exact fun t _ => .refl F _ t
  | cons p L ih =>
    intro t ht
    obtain ⟨⟨q, hq, rfl⟩, hrest⟩ := List.forall_mem_cons.mp hL
    have hfirst : Noted F (markOf s w l) t (notePage t w q.1 (q.2 / 2 ^ 21 * 2 ^ 21)) := by
      refine (noted_notePage hF t w q.1 _).mono fun k hk => ?_
      obtain ⟨e, he, hk⟩ := pageMark_of_page hk
      exact ⟨q, hq, e, by rwa [ht.htAt_eq] at he, hk⟩
    exact hfirst.trans (ih hrest _ (ht.trans hfirst.1))

/-- The notes of a command's accesses change memory in the marks of their pages alone. -/
theorem noted_noteAll (s : State) (w : Who) (l : List (Bool × Nat)) : Noted F (markOf s w l) s (noteAll s w l) := by
  have hpages := noted_foldl_notePage (s := s) (w := w) (l := l) hF ((l.map fun p => (p.1, p.2 / 2 ^ 21)).eraseDups) (fun p hp => by
    obtain ⟨q, hq, rfl⟩ := List.mem_map.mp (List.mem_eraseDups.mp hp)
    exact ⟨q, hq, rfl⟩) s (.refl F s)
  have hfill (t : State) (p : Bool × Nat) : Noted F (markOf s w l) t (fillRun t w p.2 1) := by
    unfold fillRun
    split
    · exact ⟨(onlyMem_fillAll t _).keeps, fun k hk _ => rdByte_fillAll t _ hk.1⟩
    · exact .refl F _ t
  unfold noteAll
  exact hpages.trans (foldl_rel (R := Noted F (markOf s w l)) (.refl F _) (fun _ _ _ => .trans) hfill _ _)
end

theorem onlyNotes_noteAll (s : State) (w : Who) (l : List (Bool × Nat)) : OnlyNotes s (noteAll s w l) := by
  have hfill (t : State) (p : Bool × Nat) : OnlyNotes t (fillRun t w p.2 1) := by
    unfold fillRun
    split
    · exact (onlyMem_fillAll t _).onlyNotes
    · exact .refl t
  unfold noteAll
  exact (foldl_rel (R := OnlyNotes) .refl (fun _ _ _ => .trans) (fun s (p : Bool × Nat) => onlyNotes_notePage s w p.1 (p.2 * 2 ^ 21)) _ s).trans
    (foldl_rel (R := OnlyNotes) .refl (fun _ _ _ => .trans) hfill _ _)

theorem rdByte_noteAll (s : State) (w : Who) (l : List (Bool × Nat)) {k : Nat} (hk : held k) (hm : ¬ markOf s w l k) :
    rdByte (noteAll s w l) k = rdByte s k :=
  (noted_noteAll (F := fun _ => ()) (fun _ _ _ => rfl) s w l).2 k hk hm

/-! ## Writes in plain memory -/

theorem not_remote_of_plain {k : Nat} (hk : plain s k) : isRemote k = false := by
  have hlt := hk.2.1
  have : mapBase < 2 ^ 70 := by decide
  exact decide_eq_false (by omega)

theorem inArea_eq (h : t.ctxSlots = s.ctxSlots) (k : Nat) : inArea t k = inArea s k := by
  unfold inArea areaSize
  rw [h]

theorem plain_iff (h : t.ctxSlots = s.ctxSlots) {k : Nat} : plain t k ↔ plain s k := by
  unfold plain
  rw [inArea_eq h]

theorem engWrs_plain {l : List (Nat × Byte)} (hl : ∀ p ∈ l, plain s p.1) : engWrs s l = wrBytes s l := by
  have hin : l.filter (fun p => !inArea s p.1) = l := List.filter_eq_self.mpr fun p hp => by rw [(hl p hp).2.2]; rfl
  have hout : l.filter (fun p => inArea s p.1) = [] := List.filter_eq_nil_iff.mpr fun p hp => by rw [(hl p hp).2.2]; decide
  have hwr (l : List (Nat × Byte)) (h : ∀ p ∈ l, p.1 < mapBase) : ∀ t, l.foldl (fun s p => engWr s p.1 p.2) t = wrBytes t l := by
    induction l with
    | nil => exact fun _ => rfl
    | cons p l ih =>
      intro t
      obtain ⟨hp, hl⟩ := List.forall_mem_cons.mp h
      rw [List.foldl_cons, engWr, if_neg (fun h => Nat.not_le.mpr hp h.1), ih hl]
      rfl
  rw [engWrs, hin, hout, hwr l fun p hp => (hl p hp).2.1]
  rfl

theorem wrBytes_append (s : State) (l m : List (Nat × Byte)) : wrBytes s (l ++ m) = wrBytes (wrBytes s l) m := List.foldl_append

end Sys2Proof.Machine
end

section
/-! PROOFS. Values that units compute and publications (R71, R94, R110, R111, R248, R257, R258). -/
namespace Sys2Proof.Machine

variable {s t u : State} {w : Who}

/-! ## Values put at their places -/

/-- The bytes of values at their places. -/
def bytesOf (P : List (List Nat × List Byte)) : List (Nat × Byte) := P.flatMap fun p => p.1.zip p.2

theorem map_fst_bytesOf {P : List (List Nat × List Byte)} (hlen : ∀ p ∈ P, p.1.length = p.2.length) : (bytesOf P).map (·.1) = P.flatMap (·.1) := by
  rw [bytesOf, List.map_flatMap]
  exact List.flatMap_congr fun p hp => List.map_fst_zip (hlen p hp).le

section
variable {P : List (List Nat × List Byte)} (hlen : ∀ p ∈ P, p.1.length = p.2.length) (hplain : ∀ p ∈ P, ∀ k ∈ p.1, plain s k)
include hlen hplain

theorem rdByte_bytesOf_mem (hnd : (P.flatMap (·.1)).Nodup) (t : State) {p : List Nat × List Byte} (hp : p ∈ P) {j : Nat} (hj : j < p.1.length) :
    rdByte (wrBytes t (bytesOf P)) (p.1.getD j 0) = p.2.getD j 0 := by
  have hj' : j < p.2.length := hlen p hp ▸ hj
  have hmem : (p.1.getD j 0, p.2.getD j 0) ∈ bytesOf P := by
    refine List.mem_flatMap.mpr ⟨p, hp, List.mem_iff_getElem.mpr ⟨j, ?_, ?_⟩⟩
    · rw [List.length_zip]
      exact lt_min hj hj'
    · rw [List.getElem_zip, List.getD_eq_getElem _ _ hj, List.getD_eq_getElem _ _ hj']
  refine rdByte_wrBytes_mem _ t (map_fst_bytesOf hlen ▸ hnd) (fun q hq => ?_) _ hmem
  obtain ⟨p, hp, hq⟩ := List.mem_flatMap.mp hq
  exact (hplain p hp _ (List.of_mem_zip hq).1).1.1

omit hlen hplain in
theorem rdByte_bytesOf_ne (t : State) {k : Nat} (hk : held k) (hne : k ∉ P.flatMap (·.1)) : rdByte (wrBytes t (bytesOf P)) k = rdByte t k := by
  refine rdByte_wrBytes_ne _ t k hk.1 fun q hq hqk => hne ?_
  obtain ⟨p, hp, hq⟩ := List.mem_flatMap.mp hq
  exact List.mem_flatMap.mpr ⟨p, hp, hqk ▸ (List.of_mem_zip hq).1⟩

omit hlen in
/-- Values written by an engine one after the other in plain memory. -/
theorem foldl_engWrs_plain : ∀ t, t.ctxSlots = s.ctxSlots → P.foldl (fun s p => engWrs s (p.1.zip p.2)) t = wrBytes t (bytesOf P) := by
  induction P with
  | nil => exact fun _ _ => rfl
  | cons p P ih =>
    intro t ht
    obtain ⟨hp, hP⟩ := List.forall_mem_cons.mp hplain
    have hwr : engWrs t (p.1.zip p.2) = wrBytes t (p.1.zip p.2) := engWrs_plain fun q hq => (plain_iff ht).mpr (hp _ (List.of_mem_zip hq).1)
    have hslots : (wrBytes t (p.1.zip p.2)).ctxSlots = s.ctxSlots := ((onlyMem_wrBytes t _).field State.ctxSlots fun _ _ _ _ => rfl).trans ht
    rw [List.foldl_cons, hwr, ih hP _ hslots, ← wrBytes_append]
    rfl
end

/-! ## Computed writes -/

/-- Values to write at addresses that all translate. -/
theorem resolvePuts_append {l : List (Nat × List Byte)} {ks : List (List Nat)}
    (h : List.Forall₂ (fun p k => engKeys s w true p.1 p.2.length = .ok k) l ks) (more : List (Except Stop Nat × List Byte)) : ∀ q,
    resolvePuts s w (l.map (fun p => (.ok p.1, p.2)) ++ more) q =
      (ks.zip (l.map (·.2)) ++ (resolvePuts s w more (q + l.length)).1, (resolvePuts s w more (q + l.length)).2) := by
  induction h with
  | nil => exact fun _ => rfl
  | cons hk _ ih =>
    intro q
    rw [List.map_cons, List.cons_append, resolvePuts]
    dsimp only
    rw [hk]
    dsimp only
    rw [ih, List.length_cons, Nat.add_right_comm q 1]
    rfl

theorem forall₂_of_getD {l : List (Nat × List Byte)} {ks : List (List Nat)} (hlen : ks.length = l.length)
    (h : ∀ i p, l[i]? = some p → engKeys s w true p.1 p.2.length = .ok (ks.getD i [])) :
    List.Forall₂ (fun p k => engKeys s w true p.1 p.2.length = .ok k) l ks := by
  refine List.forall₂_iff_get.mpr ⟨hlen.symm, fun i hi hk => ?_⟩
  exact (h i _ (List.getElem?_eq_getElem hi)).trans (by rw [List.getD_eq_getElem _ _ hk]; rfl)

section
variable {l : List (Nat × List Byte)} {ks : List (List Nat)}

/-- The state once the values stand at their places. -/
def putState (s : State) (w : Who) (l : List (Nat × List Byte)) (ks : List (List Nat)) : State :=
  newChecks ((ks.zip (l.map (·.2))).foldl (fun s p => engWrs s (p.1.zip p.2)) (noteAll s w (l.map fun p => (true, p.1)))) ks.flatten

theorem putState_eq (hl : Lands s w l ks) :
    putState s w l ks = newChecks (wrBytes (noteAll s w (l.map fun p => (true, p.1))) (bytesOf (ks.zip (l.map (·.2))))) ks.flatten := by
  obtain ⟨-, -, hplain, -, -⟩ := hl
  have hslots : (noteAll s w (l.map fun p => (true, p.1))).ctxSlots = s.ctxSlots := (onlyNotes_noteAll s w _).field State.ctxSlots fun _ _ _ _ _ _ _ => rfl
  rw [putState, foldl_engWrs_plain (s := s) (fun p hp k hk => hplain k (List.mem_flatten.mpr ⟨_, (List.of_mem_zip hp).1, hk⟩)) _ hslots]

theorem onlyNotes_putState (hl : Lands s w l ks) : OnlyNotes s (putState s w l ks) := by
  rw [putState_eq hl]
  exact (onlyNotes_noteAll s w _).trans (OnlyMem.onlyNotes (.trans _ _ _ (onlyMem_wrBytes _ _) rfl))

theorem flatMap_fst_zip (hlen : ks.length = l.length) : (ks.zip (l.map (·.2))).flatMap (·.1) = ks.flatten := by
  rw [List.flatMap_def, List.map_fst_zip (by rw [List.length_map, hlen])]

theorem putDown_of_lands (hl : Lands s w l ks) : PutDown s (putState s w l ks) w l ks := by
  rw [putState_eq hl]
  obtain ⟨hlen, hkeys, hplain, hnd, -⟩ := hl
  have hflat := flatMap_fst_zip hlen
  have hPlen : ∀ p ∈ ks.zip (l.map (·.2)), p.1.length = p.2.length := by
    intro p hp
    obtain ⟨i, hi, rfl⟩ := List.mem_iff_getElem.mp hp
    rw [List.length_zip, List.length_map] at hi
    have hil : i < l.length := lt_of_lt_of_le hi (min_le_right _ _)
    have hik : i < ks.length := lt_of_lt_of_le hi (min_le_left _ _)
    have hlength := length_engKeys (hkeys i _ (List.getElem?_eq_getElem hil))
    rw [List.getD_eq_getElem _ _ hik] at hlength
    rw [List.getElem_zip, List.getElem_map]
    exact hlength
  refine ⟨fun i j p hp hj _ => ?_, fun k hk hne hm => ?_⟩
  · have hil : i < l.length := (List.getElem?_eq_some_iff.mp hp).1
    have hik : i < ks.length := hlen ▸ hil
    have hmem : (ks.getD i [], p.2) ∈ ks.zip (l.map (·.2)) := by
      refine List.mem_iff_getElem.mpr ⟨i, by rw [List.length_zip, List.length_map]; exact lt_min hik hil, ?_⟩
      rw [List.getElem_zip, List.getElem_map, List.getD_eq_getElem _ _ hik, (List.getElem?_eq_some_iff.mp hp).2]
    exact rdByte_bytesOf_mem hPlen (fun p hp k hk => hplain k (hflat ▸ List.mem_flatMap.mpr ⟨p, hp, hk⟩)) (hflat ▸ hnd) _ hmem hj
  · exact (rdByte_bytesOf_ne _ hk (hflat ▸ hne)).trans (rdByte_noteAll s w _ hk hm)

/-- The addresses of values whose addresses are all there. -/
theorem flatMap_take_map (f : Except Stop Nat × List Byte → List (Bool × Nat)) (more : List (Except Stop Nat × List Byte))
    (hf : ∀ a d, f (.ok a, d) = [(true, a)]) :
    ((l.map (fun p => ((.ok p.1 : Except Stop Nat), p.2)) ++ more).take l.length).flatMap f = l.map fun p => (true, p.1) := by
  rw [List.take_append_of_le_length (by rw [List.length_map]), List.take_of_length_le (by rw [List.length_map]), List.flatMap_map, List.map_eq_flatMap]
  exact List.flatMap_congr fun p _ => hf p.1 p.2

/-- The values before the first address that fails are written, and no other. -/
theorem putAll_lands (hl : Lands s w l ks) {more : List (Except Stop Nat × List Byte)} {x : Option Stop} (hmore : resolvePuts s w more l.length = ([], x)) :
    putAll s w (l.map (fun p => (.ok p.1, p.2)) ++ more) = (putState s w l ks, x, l.length) := by
  obtain ⟨hlen, hkeys, hplain, -, hbad⟩ := hl
  have hP : (ks.zip (l.map (·.2))).length = l.length := by rw [List.length_zip, List.length_map, hlen, Nat.min_self]
  have hlow : ks.flatten.filter (fun k => decide (k < mapBase)) = ks.flatten :=
    List.filter_eq_self.mpr fun k hk => decide_eq_true (hplain k hk).2.1
  have hres := resolvePuts_append (forall₂_of_getD hlen hkeys) more 0
  rw [Nat.zero_add, hmore, List.append_nil] at hres
  unfold putAll
  dsimp only
  rw [hres]
  dsimp only
  rw [flatMap_fst_zip hlen, hlow, hbad]
  dsimp only [Option.map_none]
  rw [hP, flatMap_take_map _ _ fun _ _ => rfl, flatMap_fst_zip hlen, hlow]
  rfl
end

theorem computedWrites : Claim.ComputedWrites := by
  intro s w l ks hl as_
  refine ⟨?_, fun a d e more he => ?_⟩
  · have hput := putAll_lands hl (more := []) rfl
    rw [List.append_nil] at hput
    have hkept := onlyNotes_putState hl
    exact ⟨_, hput, putDown_of_lands hl, hkept.field State.lode fun _ _ _ _ _ _ _ => rfl, hkept.field State.regions fun _ _ _ _ _ _ _ => rfl,
      hkept.field State.asys fun _ _ _ _ _ _ _ => rfl, hkept.field State.rdls fun _ _ _ _ _ _ _ => rfl⟩
  · exact ⟨_, putAll_lands hl (more := (.ok a, d) :: more) (by rw [resolvePuts]; dsimp only; rw [he]), putDown_of_lands hl⟩

/-! ## Commands over at the head of their queue -/

theorem endsWith_of_runHead {core : Nat} {q : QId} {c : Cmd} {rest : List Cmd} {r : CRes} (hq : getQ (coreAt s core) q = c :: rest) (hd : c.done = none)
    (hrun : runHead s core q c = finishCmd u core q r) : EndsWith s core q u r := by
  refine congrArg Host.Outcome.next ?_
  unfold commandComplete
  rw [hq]
  dsimp only
  rw [if_pos (by rw [hd]; rfl), hrun]

/-! ## Publication -/

/-- The stores that wait are those that waited, some of them aimed elsewhere; handles and stacks are as before. -/
def Aimed (s t : State) : Prop :=
  t.ht = s.ht ∧ t.lode = s.lode ∧ ∀ n p, p ∈ (coreAt t n).stq → ∃ o ∈ (coreAt s n).stq, p = { o with bytes := p.bytes }

theorem Aimed.refl (s : State) : Aimed s s := ⟨rfl, rfl, fun _ p hp => ⟨p, hp, rfl⟩⟩

theorem Aimed.trans (h : Aimed s t) (k : Aimed t u) : Aimed s u := by
  obtain ⟨hh, hl, hq⟩ := h
  obtain ⟨kh, kl, kq⟩ := k
  refine ⟨kh.trans hh, kl.trans hl, fun n p hp => ?_⟩
  obtain ⟨o, ho, hpo⟩ := kq n p hp
  obtain ⟨x, hx, hox⟩ := hq n o ho
  exact ⟨x, hx, hpo.trans (by rw [hox])⟩

theorem aimed_performFirst (s : State) (core n : Nat) : Aimed s (performFirst s core n) := by
  have hfold : OnlyCoresMem s (performFirst s core n) :=
    foldl_rel (R := OnlyCoresMem) .refl .trans (f := fun s (p : PendSt) => performStore s core p.id) (fun s p => onlyCoresMem_performStore s core p.id) _ s
  exact ⟨hfold.field State.ht fun _ _ _ _ _ => rfl, hfold.field State.lode fun _ _ _ _ _ => rfl,
    fun n p hp => ⟨p, (performs_foldl core _ s).1 n p hp, rfl⟩⟩

theorem moveStore_eq {core : Nat} {p o : PendSt} (h : moveStore s core p = some o) : o = { p with bytes := o.bytes } := by
  unfold moveStore at h
  split at h
  · split at h
    · cases h
    · cases h
      rfl
  · cases h

theorem aimed_pubStores (key : Nat) (swap : State → State) (s : State) (core : Nat) : Aimed s (pubStores key swap s core) := by
  unfold pubStores
  split
  · extract_lets s1 s2
    refine (aimed_performFirst s core (pubCut s (swap s) core key)).trans ⟨rfl, rfl, fun n p hp => ?_⟩
    rw [coreAt_upCore] at hp
    split at hp
    · next hn =>
      obtain ⟨o, ho, rfl⟩ := List.mem_map.mp hp
      refine ⟨o, hn ▸ ho, ?_⟩
      split
      · cases hm : moveStore s2 core o with
        | none => rfl
        | some x => exact moveStore_eq hm
      · rfl
    · exact ⟨p, hp, rfl⟩
  · exact .refl s

/-- The entry of a handle once it is published. -/
def swappedHt (s : State) (w : Who) (h scope : Nat) (e : HEntry) : SMap (Option HEntry) :=
  SMap.set none s.ht (entKey s w.part w.ctx h) (some { e with swapped := !e.swapped, narrow := decide (scope < 4) })

theorem publish_eq {h scope : Nat} {e : HEntry} (he : htAt s w.part w.ctx h = some e) (hsh : e.shadow = true) :
    ∃ t, publish s w.part w.ctx h scope = { t with ht := swappedHt s w h scope e } ∧ Aimed s t ∧
      ((∀ p ∈ s.cores, ∀ x ∈ (coreAt s p.1).stq, storeNames s p.1 (entKey s w.part w.ctx h) x = false) → t = s) := by
  let key := entKey s w.part w.ctx h
  let swap (t : State) : State := { t with ht := SMap.set none t.ht key (some { e with swapped := !e.swapped, narrow := decide (scope < 4) }) }
  have hfold : Aimed s ((s.cores.map (fun p => p.1)).foldl (pubStores key swap) s) :=
    foldl_rel (R := Aimed) .refl (fun _ _ _ => .trans) (aimed_pubStores key swap) _ s
  have hpub : publish s w.part w.ctx h scope = swap ((s.cores.map (fun p => p.1)).foldl (pubStores key swap) s) := by
    unfold publish
    rw [he]
    dsimp only
    rw [if_pos hsh]
  refine ⟨_, hpub.trans ?_, hfold, fun hno => ?_⟩
  · obtain ⟨hht, -, -⟩ := hfold
    rw [swappedHt, ← hht]
  · have hid (l : List Nat) (hl : ∀ n ∈ l, ∀ x ∈ (coreAt s n).stq, storeNames s n key x = false) : l.foldl (pubStores key swap) s = s := by
      induction l with
      | nil => rfl
      | cons n l ih =>
        obtain ⟨hn, hl⟩ := List.forall_mem_cons.mp hl
        have hnone : (coreAt s n).stq.any (storeNames s n key) = false := List.any_eq_false.mpr fun x hx => by rw [hn x hx]; decide
        rw [List.foldl_cons, pubStores, hnone, if_neg (by decide)]
        exact ih hl
    exact hid _ fun n hn => by
      obtain ⟨p, hp, rfl⟩ := List.mem_map.mp hn
      exact hno p hp

theorem runHead_hpub {core : Nat} {c : Cmd} (hop : c.op = .hpub) : runHead s core .store c = runPub s core .store c := by
  unfold runHead onHoist runOp
  rw [hop]
  rfl

theorem publishSwapsBackings : Claim.PublishSwapsBackings := by
  intro s core c rest hq hop hd w h
  have hrun := runHead_hpub (s := s) (core := core) hop
  have hend {u : State} {r : CRes} (hpub : runPub s core .store c = finishCmd u core .store r) : EndsWith s core .store u r :=
    endsWith_of_runHead hq hd (hrun.trans hpub)
  have hnamed {e : HEntry} (h6 : e.kind ≠ 6) (hk : kindOk (cmdWho s core).agent .r e.kind = true) :
      ¬ (e.kind = 6 ∨ (!kindOk (cmdWho s core).agent .r e.kind) = true) := by simp [h6, hk]
  refine ⟨fun e he hk h6 hsh => ?_, fun hno => hend ?_, fun e he hbad => hend ?_⟩
  · obtain ⟨t, hpub, haim, hsame⟩ := publish_eq (scope := c.k) he hsh
    have hrunPub : runPub s core .store c = finishCmd { t with ht := swappedHt s w h c.k e } core .store {} := by
      rw [← hpub]
      unfold runPub
      dsimp only
      rw [he]
      dsimp only
      rw [if_neg (hnamed h6 hk), if_pos hsh]
    refine ⟨⟨_, hend hrunPub, rfl, haim.2.1, haim.2.2⟩, fun hnone => ?_⟩
    rw [hsame hnone] at hrunPub
    exact hend hrunPub
  · unfold runPub
    dsimp only
    rcases hno with hno | ⟨e, he, hk, h6, hsh⟩
    · rw [hno]
      rfl
    · rw [he]
      dsimp only
      rw [if_neg (hnamed h6 hk), if_neg (by rw [hsh]; decide)]
      rfl
  · unfold runPub
    dsimp only
    rw [he]
    dsimp only
    rw [if_pos (by simpa using hbad)]
    rfl

end Sys2Proof.Machine
end

section
/-! PROOFS. Walks of copies (R90, R243–R247): index vectors, the addresses of elements, and what each element reads and writes. -/
namespace Sys2Proof.Machine

variable {s : State} {w : Who} {c : Cmd} {q : Nat} {write : Bool} {idx : List Nat}

/-! ## Index vectors -/

/-- The product of the extents of some dimensions. -/
def extents (c : Cmd) (ds : List Nat) : Nat := ds.foldl (fun p d => p * cpExt c d) 1

theorem extents_cons (c : Cmd) (d : Nat) (ds : List Nat) : extents c (d :: ds) = cpExt c d * extents c ds := by
  have hprod (l : List Nat) : extents c l = (l.map (cpExt c)).prod := by rw [extents, List.prod_eq_foldl, List.foldl_map]
  rw [hprod, hprod, List.map_cons, List.prod_cons]

/-- The index vector of a position over some dimensions, and what is left of the position before them. -/
theorem foldr_index (c : Cmd) (q : Nat) (ds : List Nat) :
    let r := ds.foldr (fun d (p : Nat × List Nat) => (p.1 / cpExt c d, p.1 % cpExt c d :: p.2)) (q, [])
    r.1 = q / extents c ds ∧ r.2.length = ds.length ∧ ∀ i, i < ds.length → r.2.getD i 0 = q / extents c (ds.drop (i + 1)) % cpExt c (ds.getD i 0) := by
  induction ds with
  | nil => exact ⟨(Nat.div_one q).symm, rfl, fun i hi => absurd hi (Nat.not_lt_zero i)⟩
  | cons d ds ih =>
    obtain ⟨hq, hlen, hget⟩ := ih
    refine ⟨?_, congrArg (· + 1) hlen, fun i hi => ?_⟩
    · rw [List.foldr_cons, hq, Nat.div_div_eq_div_mul, extents_cons, Nat.mul_comm]
    · cases i with
      | zero =>
        rw [List.foldr_cons, hq]
        rfl
      | succ i => exact hget i (Nat.lt_of_succ_lt_succ hi)

theorem getD_cpIndex {d : Nat} (hd : d < cpDim c) :
    (cpIndex c q).getD d 0 = q / extents c ((List.range (cpDim c)).drop (d + 1)) % cpExt c d := by
  obtain ⟨-, -, hget⟩ := foldr_index c q (List.range (cpDim c))
  have hdim := hget d (by rwa [List.length_range])
  have hself : (List.range (cpDim c)).getD d 0 = d :=
    (List.getD_eq_getElem _ _ (by rwa [List.length_range])).trans (List.getElem_range _)
  rwa [hself] at hdim

theorem cpInner_eq (hdim : 1 ≤ cpDim c) (hext : cpExt c 0 ≠ 0) : cpInner c = extents c ((List.range (cpDim c)).drop 1) := by
  obtain ⟨n, hn⟩ := Nat.exists_eq_add_of_le' hdim
  have hcount : cpCount c = cpExt c 0 * extents c ((List.range (cpDim c)).drop 1) := by
    rw [cpCount, hn, List.range_succ_eq_map]
    exact extents_cons c 0 _
  rw [cpInner, hcount, Nat.max_eq_right (Nat.pos_of_ne_zero hext), Nat.mul_div_cancel_left _ (Nat.pos_of_ne_zero hext)]

/-! ## Addresses of elements -/

theorem foldl_add_sum (f : Nat → Int) (l : List Nat) : ∀ b, l.foldl (fun a d => a + f d) b = b + (l.map f).sum := by
  induction l with
  | nil => exact fun b => (add_zero b).symm
  | cons d l ih =>
    intro b
    rw [List.foldl_cons, ih, List.map_cons, List.sum_cons, add_assoc]

/-- The offset of an element in its handle by its index vector (R244). -/
def elemOffset (c : Cmd) (x : Side) (idx : List Nat) : Int :=
  ((x.base % 2 ^ 48 : Nat) : Int) + ((List.range (cpDim c)).map fun d => ((idx.getD d 0 : Nat) : Int) * (sideWord c x d).toInt).sum

/-- Where a side in offset form places the element of an index vector. -/
theorem cpAddr_offset (hidx : idxOf s w c write q = .ok idx) {x : Side} (hx : (if write then dstSide c else srcSide c) = x) (hc : x.coord = false) :
    (0 ≤ elemOffset c x idx → elemOffset c x idx < 2 ^ 48 → cpAddr s w c write q = .ok (x.base / 2 ^ 48 * 2 ^ 48 + (elemOffset c x idx).toNat)) ∧
    (elemOffset c x idx < 0 ∨ 2 ^ 48 ≤ elemOffset c x idx → ∃ e, cpAddr s w c write q = .error e ∧ e.status = 2 ∧ e.fcode = 2) := by
  have hside : sideAddr s w c x idx = if elemOffset c x idx < 0 ∨ (2 ^ 48 : Int) ≤ elemOffset c x idx then .error { status := stXlate, fcode := 2 }
      else .ok (x.base / 2 ^ 48 * 2 ^ 48 + (elemOffset c x idx).toNat) := by
    rw [sideAddr, hc, if_neg (by decide), offsetAddr, foldl_add_sum]
    rfl
  have haddr : cpAddr s w c write q = match sideAddr s w c x idx with
      | .ok a => .ok a
      | .error e => .error (if (c.op == .hgat || c.op == .hsct) && e.fstep == 0 then { e with fstep := 2 } else e) := by
    unfold cpAddr
    dsimp only
    rw [hidx, ← hx] <;> rfl
  refine ⟨fun h0 h1 => ?_, fun hout => ?_⟩
  · rw [haddr, hside, if_neg (not_or.mpr ⟨not_lt.mpr h0, not_le.mpr h1⟩)]
  · rw [haddr, hside, if_pos hout]
    refine ⟨_, rfl, ?_⟩
    split <;> exact ⟨rfl, rfl⟩

/-- The index vector of an indexed side once its entry is read (R245, R246). -/
theorem idxOf_listed (hdim : 1 ≤ cpDim c) (hext : cpExt c 0 ≠ 0) {v : Nat} {l : List Byte}
    (hfit : c.rb.toNat % 2 ^ 48 + 4 * (q / extents c ((List.range (cpDim c)).drop 1)) + 3 < 2 ^ 48)
    (hl : engBytes s w (c.rb.toNat + 4 * (q / extents c ((List.range (cpDim c)).drop 1))) 4 = .ok l) (hv : leNat l = v)
    (hside : (c.op = .hgat ∧ write = false) ∨ (c.op = .hsct ∧ write = true)) : idxOf s w c write q = .ok (v :: (cpIndex c q).drop 1) := by
  have hindexed : ((c.op == .hgat && !write) || (c.op == .hsct && write)) = true := by
    rcases hside with ⟨hop, rfl⟩ | ⟨hop, rfl⟩ <;> rw [hop] <;> rfl
  rw [idxOf, if_pos hindexed, indexedIdx, indexAt, cpInner_eq hdim hext, if_neg (Nat.not_le.mpr hfit), hl]
  exact congrArg (fun v => Except.ok (v :: (cpIndex c q).drop 1)) hv

theorem walksOfCopies : Claim.WalksOfCopies := by
  intro s w c q hcopy hdim hext hq m after_ own at_ place listed
  have hplace {write : Bool} {x : Side} {idx : List Nat} {first : Nat} (hx : (if write then dstSide c else srcSide c) = x) (hc : x.coord = false)
      (hidx : idxOf s w c write q = .ok idx) (hget : ∀ d, d < cpDim c → idx.getD d 0 = if d = 0 then first else own d) : place write x first := by
    have hat : elemOffset c x idx = at_ x first :=
      congrArg (fun l => _ + List.sum l) (List.map_congr_left fun d hd => by rw [hget d (List.mem_range.mp hd)])
    have haddr := cpAddr_offset hidx hx hc
    rw [hat] at haddr
    exact haddr
  have hown (d : Nat) (hd : d < cpDim c) : (cpIndex c q).getD d 0 = if d = 0 then own 0 else own d := by
    rw [getD_cpIndex hd]
    split
    · next h0 => rw [h0]; rfl
    · rfl
  have hindexed (v d : Nat) (hd : d < cpDim c) : (v :: (cpIndex c q).drop 1).getD d 0 = if d = 0 then v else own d := by
    cases d with
    | zero => rfl
    | succ d =>
      rw [List.getD_cons_succ, List.getD_eq_getElem?_getD, List.getElem?_drop, Nat.add_comm 1 d, ← List.getD_eq_getElem?_getD, getD_cpIndex hd]
      rfl
  have hlist (v : Nat) (hv : listed v) : (c.op = .hgat → (srcSide c).coord = false → place false (srcSide c) v) ∧
      (c.op = .hsct → (dstSide c).coord = false → place true (dstSide c) v) := by
    obtain ⟨hfit, l, hl, hv⟩ := hv
    exact ⟨fun hop hc => hplace rfl hc (idxOf_listed hdim (hext 0 hdim) hfit hl hv (.inl ⟨hop, rfl⟩)) (hindexed v),
      fun hop hc => hplace rfl hc (idxOf_listed hdim (hext 0 hdim) hfit hl hv (.inr ⟨hop, rfl⟩)) (hindexed v)⟩
  refine ⟨?_, rfl, fun hc hop => ?_, fun hc hop => ?_, hlist, fun a hop ha l hl => ?_, fun hop => ?_, fun a hop ha l hl => ?_, fun a hop ha hfit => ?_⟩
  · exact List.foldl_map.symm
  · exact hplace rfl hc (if_neg (by simp [hop])) hown
  · exact hplace rfl hc (if_neg (by simp [hop])) hown
  · change cpSrcs s w c q = _
    rw [cpSrcs, if_neg hop, ha]
    dsimp only
    rw [hl]
  · exact ⟨if_pos hop, rfl⟩
  · change cpDsts s w c q = _
    rw [cpDsts, ha]
    dsimp only
    rw [if_neg hop, hl]
  · change cpDsts s w c q = _
    rw [cpDsts, ha]
    dsimp only
    rw [if_pos hop, if_neg (Nat.not_le.mpr hfit), maskPairs]
    simp only [Nat.testBit_eq_decide_div_mod_eq]
    rfl

end Sys2Proof.Machine
end

section
/-! PROOFS. The elements of copies, layouts and fills moved (R105, R237, R244–R250). -/
namespace Sys2Proof.Machine

variable {s t u : State} {w : Who} {c : Cmd} {core : Nat} {q : QId}

/-! ## The elements of a walk -/

theorem walkFrom_zero (m : Walk) : walkFrom m 0 0 = m := by
  have hsrc (x : Except Stop (Option (List Nat))) : x.map (fun o => o.map fun l => l) = x := by
    cases x with
    | error => rfl
    | ok o => cases o <;> rfl
  have hdst (x : Except Stop (List (List Nat))) : x.map (fun l => l.map fun k => k) = x := by
    cases x with
    | error => rfl
    | ok l => exact congrArg Except.ok (List.map_id' l)
  unfold walkFrom
  simp only [Nat.zero_add, List.drop_zero, ite_self, hsrc, hdst, Nat.sub_zero]

/-- A walk in which nothing stops lists all its elements. -/
theorem walkRun_complete {m : Walk} {src : Nat → Option (List Nat)} {dst : Nat → List (List Nat)} (f : Nat) : ∀ q,
    (∀ i, q ≤ i → i < q + f → m.src i = .ok (src i) ∧ m.dst i = .ok (dst i)) →
    walkRun m f q = ((List.range' q f).map fun i => (src i, dst i), none) := by
  induction f with
  | zero => exact fun _ _ => rfl
  | succ f ih =>
    intro q h
    obtain ⟨hs, hd⟩ := h q (Nat.le_refl q) (by omega)
    have hat : walkAt m q = .ok (src q, dst q) := by rw [walkAt, hs, hd]
    rw [walkRun, hat]
    dsimp only
    rw [ih (q + 1) fun i hi hf => h i (by omega) (by omega), List.range'_succ]
    rfl

theorem cutFailed_fresh {m : Walk} (hc : c.reply = {}) (r : List (Option (List Nat) × List (List Nat)) × Option Stop) : cutFailed c m r = r := by
  unfold cutFailed
  dsimp only
  rw [hc, List.findIdx?_eq_none_iff.mpr fun x _ => ?_]
  exact List.any_eq_false.mpr fun _ _ => Bool.false_ne_true

/-! ## Elements moved in plain memory -/

/-- What an element moves: its source's bytes, or the fill value. -/
def elData (s : State) (fill size : Nat) : Option (List Nat) → List Byte
  | some ks => ks.map (rdByte s)
  | none => leBytes size fill

/-- The places of elements with what they take. -/
def placed (s : State) (fill size : Nat) (ms : List (Option (List Nat) × List (List Nat))) : List (List Nat × List Byte) :=
  ms.flatMap fun x => x.2.map fun d => (d, elData s fill size x.1)

/-- Every source and destination of some elements lies in plain memory. -/
def PlainEls (s : State) (ms : List (Option (List Nat) × List (List Nat))) : Prop :=
  ∀ x ∈ ms, (∀ l, x.1 = some l → ∀ k ∈ l, plain s k) ∧ ∀ d ∈ x.2, ∀ k ∈ d, plain s k

theorem bytesOf_append (P Q : List (List Nat × List Byte)) : bytesOf (P ++ Q) = bytesOf P ++ bytesOf Q := List.flatMap_append

theorem ctxSlots_wrBytes (t : State) (l : List (Nat × Byte)) : (wrBytes t l).ctxSlots = t.ctxSlots :=
  (onlyMem_wrBytes t l).field State.ctxSlots fun _ _ _ _ => rfl

theorem foldl_places (data : List Byte) (ds : List (List Nat)) (hd : ∀ d ∈ ds, ∀ k ∈ d, plain s k) : ∀ t, t.ctxSlots = s.ctxSlots →
    ds.foldl (fun (r : State × List (Nat × Byte)) ks =>
      let l := ks.zip data
      (engWrs r.1 (l.filter (fun p => !isRemote p.1)), r.2 ++ l.filter (fun p => isRemote p.1))) (t, []) =
    (wrBytes t (bytesOf (ds.map fun d => (d, data))), []) := by
  induction ds with
  | nil => exact fun _ _ => rfl
  | cons d ds ih =>
    intro t ht
    obtain ⟨hk, hrest⟩ := List.forall_mem_cons.mp hd
    have hplain : ∀ p ∈ d.zip data, plain s p.1 := fun p hp => hk _ (List.of_mem_zip hp).1
    have hnear : (d.zip data).filter (fun p => !isRemote p.1) = d.zip data :=
      List.filter_eq_self.mpr fun p hp => by rw [not_remote_of_plain (hplain p hp)]; rfl
    have hfar : (d.zip data).filter (fun p => isRemote p.1) = [] :=
      List.filter_eq_nil_iff.mpr fun p hp => by rw [not_remote_of_plain (hplain p hp)]; decide
    rw [List.foldl_cons]
    dsimp only
    rw [hnear, hfar, engWrs_plain fun p hp => (plain_iff ht).mpr (hplain p hp), List.nil_append,
      ih hrest _ ((ctxSlots_wrBytes t _).trans ht), ← wrBytes_append]
    rfl

theorem moveEl_plain (fill size : Nat) (hh : c.half = 0) {x : Option (List Nat) × List (List Nat)} (hx : PlainEls s [x])
    (ht : t.ctxSlots = s.ctxSlots) :
    moveEl w c fill size (t, []) x = (wrBytes t (bytesOf (x.2.map fun d => (d, elData t fill size x.1))), []) := by
  obtain ⟨hsrc, hdst⟩ := hx x (List.mem_singleton_self x)
  have hdata : (match x.1 with | some ks => ks.map (srcByte t w c) | none => (leBytes size fill).drop c.half) = elData t fill size x.1 := by
    cases hs : x.1 with
    | none => rw [hh]; rfl
    | some ks =>
      refine List.map_congr_left fun k hk => ?_
      have hp := hsrc ks hs k hk
      rw [srcByte, not_remote_of_plain hp, if_neg (by decide), engRd_eq_rdByte w hp.2.1 (((plain_iff ht).mpr hp).2.2)]
  rw [← hdata]
  exact foldl_places _ x.2 hdst t ht

/-- Elements whose places do not meet move as if all were read first. -/
theorem foldl_moveEl (fill size : Nat) (hh : c.half = 0) (ms : List (Option (List Nat) × List (List Nat))) (hplain : PlainEls s ms)
    (hdis : ∀ x ∈ ms, ∀ y ∈ ms, ∀ l, x.1 = some l → ∀ k ∈ l, k ∉ y.2.flatten) : ∀ t, t.ctxSlots = s.ctxSlots →
    (∀ x ∈ ms, ∀ l, x.1 = some l → ∀ k ∈ l, rdByte t k = rdByte s k) →
    ms.foldl (moveEl w c fill size) (t, []) = (wrBytes t (bytesOf (placed s fill size ms)), []) := by
  induction ms with
  | nil => exact fun _ _ _ => rfl
  | cons x ms ih =>
    intro t ht hread
    have hdata : elData t fill size x.1 = elData s fill size x.1 := by
      cases hs : x.1 with
      | none => rfl
      | some l => exact List.map_congr_left (hread x List.mem_cons_self l hs)
    rw [List.foldl_cons, moveEl_plain (s := s) fill size hh (fun y hy => List.mem_singleton.mp hy ▸ hplain x List.mem_cons_self) ht, hdata,
      ih (fun y hy => hplain y (List.mem_cons_of_mem _ hy)) (fun y hy z hz => hdis y (List.mem_cons_of_mem _ hy) z (List.mem_cons_of_mem _ hz))
        _ ((ctxSlots_wrBytes t _).trans ht) ?_, ← wrBytes_append, ← bytesOf_append]
    · rfl
    · intro y hy l hl k hk
      have hheld : held k := ((hplain y (List.mem_cons_of_mem _ hy)).1 l hl k hk).1
      refine (rdByte_bytesOf_ne t hheld fun hin => ?_).trans (hread y (List.mem_cons_of_mem _ hy) l hl k hk)
      obtain ⟨p, hp, hkp⟩ := List.mem_flatMap.mp hin
      obtain ⟨d, hd, rfl⟩ := List.mem_map.mp hp
      exact hdis y (List.mem_cons_of_mem _ hy) x List.mem_cons_self l hl k hk (List.mem_flatten.mpr ⟨d, hd, hkp⟩)

/-! ## Commands at the head of a queue -/

/-- With no store before a command waiting, none performs for it. -/
theorem performBefore_of_none {id : Nat} (h : ∀ p ∈ (coreAt s core).stq, id ≤ p.id) : performBefore s core id = s := by
  have hnone : (coreAt s core).stq.takeWhile (fun p => decide (p.id < id)) = [] := by
    cases hq : (coreAt s core).stq with
    | nil => rfl
    | cons p r => exact List.takeWhile_cons_of_neg (by rw [decide_eq_true_eq]; exact Nat.not_lt.mpr (h p (hq ▸ List.mem_cons_self)))
  rw [performBefore, hnone]
  rfl

theorem runHead_of_none (h : ∀ p ∈ (coreAt s core).stq, c.id ≤ p.id) : runHead s core q c = runOp s core q c := by
  have haway : storeAway s core c = false := List.any_eq_false.mpr fun p hp => by
    rw [Bool.and_eq_true, decide_eq_true_eq]
    exact fun hlt => Nat.not_lt.mpr (h p hp) hlt.2
  rw [runHead, haway, performBefore_of_none h]
  exact (ite_congr rfl (fun _ => rfl) fun _ => rfl).trans (ite_self _)

/-- The agent, the walk and the refusal of a copy or layout command. -/
def walkWho (s : State) (core : Nat) (c : Cmd) : Who := if c.op = .hlay then cmdWho s core else copyWho s core c
def walkOf (s : State) (core : Nat) (c : Cmd) : Walk :=
  if c.op = .hlay then layWalk s (walkWho s core c) c else copyWalk s (walkWho s core c) c
def walkRefusal (s : State) (core : Nat) (c : Cmd) : Option Nat :=
  if c.op = .hlay then layRefusal s (walkWho s core c) c else copyRefusal s (walkWho s core c) c

/-- A copy or layout command that has moved nothing is refused or walks from its first element on. -/
theorem runOp_fresh (hop : isCopy c.op ∨ c.op = .hlay) (hsent : c.sent = false) (hprog : c.prog = 0) :
    runOp s core q c = match walkRefusal s core c with
      | some st => finishCmd s core q { status := st }
      | none => runWalk s core q c (walkOf s core c) (walkWho s core c) 1 := by
  have hnew : ¬ (c.sent = true ∨ 0 < c.prog) := by rw [hsent, hprog]; decide
  have hcopy (hop : c.op ≠ .hlay) : runCopy s core q c = match walkRefusal s core c with
      | some st => finishCmd s core q { status := st }
      | none => runWalk s core q c (walkOf s core c) (walkWho s core c) 1 := by
    rw [runCopy, if_neg hnew, walkRefusal, walkOf, walkWho, if_neg hop, if_neg hop, if_neg hop] <;> rfl
  unfold runOp
  rcases hop with (hop | hop | hop | hop | hop) | hop
  case inr =>
    rw [hop]
    dsimp only
    rw [runLay, if_neg hnew, walkRefusal, walkOf, walkWho, if_pos hop, if_pos hop, if_pos hop] <;> rfl
  all_goals
    have hne : c.op ≠ .hlay := by rw [hop]; decide
    rw [← hcopy hne, hop]

/-- A walk of which nothing stops, in plain memory of this module, ends with every element moved. -/
theorem runWalk_complete (m : Walk) (who : Who) (consumer : Nat) (hprog : c.prog = 0) (hhalf : c.half = 0) (hreply : c.reply = {})
    {src : Nat → Option (List Nat)} {dst : Nat → List (List Nat)} (hm : ∀ i, i < m.n → m.src i = .ok (src i) ∧ m.dst i = .ok (dst i)) :
    let ms := (List.range m.n).map fun i => (src i, dst i)
    PlainEls s ms → (∀ x ∈ ms, ∀ y ∈ ms, ∀ l, x.1 = some l → ∀ k ∈ l, k ∉ y.2.flatten) →
    badWrite s (ms.flatMap fun x => x.2.flatten) = none →
    runWalk s core q c m who consumer = finishCmd (newChecks (noteAll (wrBytes s (bytesOf (placed s m.fill m.size ms))) who ((List.range m.n).flatMap m.adr))
      (ms.flatMap fun x => x.2.flatten)) core q { count := m.size * m.copies * m.n } := by
  intro ms hplain hdis hbad
  have hrun : walkRun m m.n 0 = (ms, none) := by
    rw [walkRun_complete m.n 0 fun i _ hi => hm i (by omega), ← List.range_eq_range']
  have hnear (x : Option (List Nat) × List (List Nat)) (hx : x ∈ ms) : ∀ k ∈ x.2.flatten, plain s k := by
    intro k hk
    obtain ⟨d, hd, hk⟩ := List.mem_flatten.mp hk
    exact (hplain x hx).2 d hd k hk
  have hkeys : (ms.flatMap fun x => x.2.flatten).filter (fun k => !isRemote k && decide (k < mapBase)) = ms.flatMap fun x => x.2.flatten := by
    refine List.filter_eq_self.mpr fun k hk => ?_
    obtain ⟨x, hx, hk⟩ := List.mem_flatMap.mp hk
    rw [not_remote_of_plain (hnear x hx k hk), decide_eq_true (hnear x hx k hk).2.1]
    rfl
  have hmiss : (ms.flatMap fun x => x.1.getD []).filter
      (fun k => isRemote k && (SMap.get none c.reply.got k).isNone && !SMap.get false c.reply.lost k) = [] := by
    refine List.filter_eq_nil_iff.mpr fun k hk => ?_
    obtain ⟨x, hx, hk⟩ := List.mem_flatMap.mp hk
    cases hs : x.1 with
    | none =>
      rw [hs] at hk
      exact absurd hk List.not_mem_nil
    | some l =>
      rw [hs] at hk
      rw [not_remote_of_plain ((hplain x hx).1 l hs k hk)]
      exact Bool.false_ne_true
  have hwhole : { c with half := 0 } = c := by rw [← hhalf]
  have hback : allBack c = true := by rw [allBack, hreply]; rfl
  have hbadw : walkBadWrite s ms = none := by rw [walkBadWrite, hkeys, hbad]
  have hmoved : (ms.drop 1).foldl (moveEl who { c with half := 0 } m.fill m.size) ((ms.take 1).foldl (moveEl who c m.fill m.size) (s, [])) =
      (wrBytes s (bytesOf (placed s m.fill m.size ms)), []) := by
    rw [hwhole, ← List.foldl_append, List.take_append_drop]
    exact foldl_moveEl m.fill m.size hhalf ms hplain hdis s rfl fun _ _ _ _ _ _ => rfl
  have hfrom : walkFrom m c.prog c.half = m := by rw [hprog, hhalf, walkFrom_zero]
  have hasked : (!(([] : List Nat).eraseDups).isEmpty && !c.sent) = false := rfl
  unfold runWalk
  dsimp only
  rw [hfrom, hrun, cutFailed_fresh hreply]
  dsimp only
  rw [hback, hmiss, hbadw, hasked]
  dsimp only [Option.map_none]
  rw [hmoved, hkeys, if_neg (by decide), if_neg (by decide), List.length_map, List.length_range]
  rfl

theorem flatMap_fst_placed (s : State) (fill size : Nat) (ms : List (Option (List Nat) × List (List Nat))) :
    (placed s fill size ms).flatMap (·.1) = ms.flatMap fun x => x.2.flatten := by
  rw [placed, List.flatMap_assoc]
  refine List.flatMap_congr fun x _ => ?_
  rw [List.flatMap_map]
  exact List.flatMap_id

theorem length_elData {fill size : Nat} {o : Option (List Nat)} (h : ∀ l, o = some l → l.length = size) : (elData s fill size o).length = size := by
  cases o with
  | none => exact length_leBytes size fill
  | some l => exact (List.length_map _).trans (h l rfl)

theorem getD_elData_some {fill size j : Nat} {l : List Nat} (hj : j < l.length) : (elData s fill size (some l)).getD j 0 = rdByte s (l.getD j 0) := by
  rw [elData, List.getD_eq_getElem _ _ (by rwa [List.length_map]), List.getElem_map, List.getD_eq_getElem _ _ hj]

theorem markOf_of_onlyMem (h : OnlyMem s t) {l : List (Bool × Nat)} {k : Nat} (hm : markOf t w l k) : markOf s w l k := by
  obtain ⟨p, hp, e, he, hk⟩ := hm
  rw [(OnlyMem.keeps (F := fun _ => ()) h).htAt_eq] at he
  exact ⟨p, hp, e, he, hk⟩

theorem copiesMoveTheirElements : Claim.CopiesMoveTheirElements := by
  intro s core q c rest ⟨hq, hd, hprog, hhalf, hsent, hreply⟩ hop w m refusal
  refine ⟨fun hon haway => ?_, fun hno st hst => ?_, fun hno hst src dst hel hnd hdis hbad => ?_⟩
  · have hstays : runHead s core q c = s := by rw [runHead, if_pos hon, if_pos haway]
    refine congrArg Host.Outcome.next ?_
    unfold commandComplete
    rw [hq]
    dsimp only
    rw [hstays, ite_self, closeHead, hq]
    dsimp only
    rw [hd]
  · refine endsWith_of_runHead hq hd ((runHead_of_none hno).trans ((runOp_fresh hop hsent hprog).trans ?_))
    rw [show walkRefusal s core c = some st from hst]
  · intro mark
    let ms := (List.range m.n).map fun i => (src i, dst i)
    have hms {x : Option (List Nat) × List (List Nat)} (hx : x ∈ ms) : ∃ i, i < m.n ∧ (src i, dst i) = x := by
      obtain ⟨i, hi, hix⟩ := List.mem_map.mp hx
      exact ⟨i, List.mem_range.mp hi, hix⟩
    have hplaces : ms.flatMap (fun x => x.2.flatten) = (List.range m.n).flatMap fun i => (dst i).flatten := List.flatMap_map _ _ _
    have hplain : PlainEls s ms := by
      intro x hx
      obtain ⟨i, hi, rfl⟩ := hms hx
      obtain ⟨-, -, hs, hds⟩ := hel i hi
      exact ⟨fun l hl => (hs l hl).2, fun d hd => (hds d hd).2⟩
    have hapart : ∀ x ∈ ms, ∀ y ∈ ms, ∀ l, x.1 = some l → ∀ k ∈ l, k ∉ y.2.flatten := by
      intro x hx y hy l hl
      obtain ⟨i, hi, rfl⟩ := hms hx
      obtain ⟨j, hj, rfl⟩ := hms hy
      exact hdis i j l hi hj hl
    let P := placed s m.fill m.size ms
    have hflat : P.flatMap (·.1) = (List.range m.n).flatMap fun i => (dst i).flatten := (flatMap_fst_placed s _ _ ms).trans hplaces
    have hP : ∀ p ∈ P, p.1.length = p.2.length ∧ ∀ k ∈ p.1, plain s k := by
      intro p hp
      obtain ⟨x, hx, hp⟩ := List.mem_flatMap.mp hp
      obtain ⟨d, hd, rfl⟩ := List.mem_map.mp hp
      obtain ⟨i, hi, rfl⟩ := hms hx
      obtain ⟨-, -, hs, hds⟩ := hel i hi
      exact ⟨((hds d hd).1).trans (length_elData fun l hl => (hs l hl).1).symm, (hds d hd).2⟩
    have hmark {k : Nat} (hk : ¬ mark k) : ¬ markOf (wrBytes s (bytesOf P)) w ((List.range m.n).flatMap m.adr) k :=
      fun h => hk (markOf_of_onlyMem (onlyMem_wrBytes s _) h)
    refine ⟨newChecks (noteAll (wrBytes s (bytesOf P)) w ((List.range m.n).flatMap m.adr)) (ms.flatMap fun x => x.2.flatten),
      endsWith_of_runHead hq hd ((runHead_of_none hno).trans ((runOp_fresh hop hsent hprog).trans ?_)),
      fun i d j hi hd hj hk => ?_, fun k hk hne hm => ?_⟩
    · rw [show walkRefusal s core c = none from hst]
      exact runWalk_complete m w 1 hprog hhalf hreply (fun i hi => ⟨(hel i hi).1, (hel i hi).2.1⟩) hplain hapart (hplaces ▸ hbad)
    · obtain ⟨-, -, hs, hds⟩ := hel i hi
      have hjd : j < d.length := (hds d hd).1 ▸ hj
      have hheld : held (d.getD j 0) := by
        rw [List.getD_eq_getElem _ _ hjd]
        exact ((hds d hd).2 _ (List.getElem_mem hjd)).1
      have hmem : (d, elData s m.fill m.size (src i)) ∈ P :=
        List.mem_flatMap.mpr ⟨_, List.mem_map.mpr ⟨i, List.mem_range.mpr hi, rfl⟩, List.mem_map.mpr ⟨d, hd, rfl⟩⟩
      refine (rdByte_noteAll _ w _ hheld (hmark hk)).trans ?_
      refine (rdByte_bytesOf_mem (fun p hp => (hP p hp).1) (fun p hp => (hP p hp).2) (hflat ▸ hnd) s hmem hjd).trans ?_
      cases hsrc : src i with
      | none => exact getD_leBytes m.size m.fill j hj
      | some l => exact getD_elData_some (fill := m.fill) (size := m.size) ((hs l hsrc).1.symm ▸ hj)
    · exact (rdByte_noteAll _ w _ hk (hmark hm)).trans (rdByte_bytesOf_ne s hk (hflat ▸ hne))

/-- Settles O43: what a publication leaves, how copies, layouts and fills move their elements, which those are, and the values that units write. -/
theorem copiesAndPublication : Obligations.CopiesAndPublication :=
  ⟨publishSwapsBackings, copiesMoveTheirElements, walksOfCopies, computedWrites⟩

end Sys2Proof.Machine
end
